-- ==== Sys2Proof/Word.lean ====
section
/-! DEFINITION. The word types of the Rosone XN-4 and their names. -/

namespace Sys2Proof

/-- A byte of memory (00_scope.md R2). -/
abbrev Byte := BitVec 8

/-- A 32-bit parcel of program text (02_encoding.md R40). -/
abbrev Parcel := BitVec 32

/-- The 64-bit quantity of the scalar engine: an integer operand or an address. -/
abbrev Word64 := BitVec 64

/-- The 128 data bits of a general register (04_scalar.md R105). -/
abbrev Word128 := BitVec 128

/-- The number of a general register, g0 to g63 (00_scope.md R6). -/
abbrev GIdx := BitVec 6

/-- A vector register, 1,024 bits (01_machine.md R15). -/
abbrev VReg := BitVec 1024

end Sys2Proof
end

