-- ==== Sys2Proof/Config.lean ====
section
/-! DEFINITION. The values that the spec leaves open, as constants without a body: nothing is known of them, so
whatever is proved holds for every value they may take. -/

namespace Sys2Proof.Config

/-- The authenticator that the future engine gives the n-th call, "a fresh 64-bit value" (14_futures.md R407; log
entry 9). -/
opaque auth : Nat → BitVec 64

/-- The RSA-3072 signature of the device identity key over a SHA-256 digest (19_integration.md R492; log entry 8). -/
opaque sign : BitVec 256 → BitVec 3072

/-- The bytes that another package or a remote agent answers to the n-th load sent to it, by the byte's place
(05_memory.md R156; log entry 10). -/
opaque remoteByte : Nat → Nat → BitVec 8

/-- Whether another package accepts the n-th load sent to it (05_memory.md R156; log entry 10). -/
opaque remoteOk : Nat → Bool

/-- What the debug view of a core that is not halted reads (15_system.md R452 gives its contents for a halted core
alone; log entry 22). -/
opaque debugView : Nat → BitVec 64

/-- What a Kettle core's trap-value register reads after the n-th exception for which neither the spec nor the RISC-V
specifications that it names give the value (14_futures.md R419, R423; log entry 12). -/
opaque kettleTval : Nat → BitVec 64

/-- What a word of the base RISC-V set leaves in the registers of its Kettle core, by their place, after the n-th free value
(14_futures.md R419; log entry 12). -/
opaque kettleReg : Nat → Nat → BitVec 64

/-- The accesses that such a word makes, element by element in their order: whether it stores, whether its refusal counts as a
store's, its physical place, and its bytes (14_futures.md R419, R421; log entry 12). -/
opaque kettleAccess : Nat → List (Bool × Bool × Nat × List (BitVec 8))

/-- The next value of the 32-bit LFSR from which steal victims come, whose feedback the spec does not give (08_tasks.md
R249; log entry 16). -/
opaque lfsrNext : BitVec 32 → BitVec 32

/-- The home slice of a 64-byte line, by its address divided by 64: "the L2 slice chosen by a hash of its address", a
hash that the spec does not give (05_memory.md R161, 12_copy.md R355; log entry 77). -/
opaque homeSlice : Nat → Nat

/-- How fast the package's time is slewed onto that of a servo whose lock has returned, which the spec does not give (15_system.md
R455; log entry 108). -/
opaque slewRate : Nat

/-- The device identity key that the boot ROM derives from the physically unclonable function: its public modulus
(19_integration.md R490; log entry 8). -/
opaque deviceKey : BitVec 3072

/-- The SHA-256 hash of Palnal's root key that the boot ROM of management core 0 holds (19_integration.md R490; log entry 8). -/
opaque rootHash : BitVec 256

/-- The draw with which ACCCVT rounds while MXCFG.RND holds a code for which the spec gives no rounding (11_matrix.md R330; log
entry 96). -/
opaque mxDraw : Nat → Nat

end Sys2Proof.Config
end

