-- ==== Sys2Proof/Syntax.lean ====
section
/-! DEFINITION. The instructions of the Rosone XN-4: one constructor for every row of the opcode table, the S, V, M
and D words of 02_encoding.md, the two Kettle words of 14_futures.md R423, and the steps of engines, hub, host and
module that the table lists without an encoding. -/

namespace Sys2Proof

/-- The four engines of a core, in the order of their tags (02_encoding.md R40). -/
inductive Engine where
  | s | v | m | d
  deriving DecidableEq, Repr

/-- The scopes of 02_encoding.md R54, from the smallest to the largest. -/
inductive Scope where
  | core | clu | die | pkg | sys
  deriving DecidableEq, Repr

/-- The orders of 02_encoding.md R54. -/
inductive Order where
  | plain | aq | rl | aqrl
  deriving DecidableEq, Repr

/-- The access widths of 02_encoding.md R54: 1, 2, 4, 8 and 16 bytes. -/
inductive Width where
  | b | h | w | d | q
  deriving DecidableEq, Repr

/-- The address updates of LDLOC and STLOC (02_encoding.md R55, opcodes 0x2A and 0x2B). -/
inductive Update where
  | stay | pi | cw
  deriving DecidableEq, Repr

/-- A general register's value: 128 data bits and the tag (04_scalar.md R105). -/
structure GVal where
  bits : Word128
  tag  : Bool
  deriving DecidableEq, Repr

/-- A 21-bit specifier of a V word (02_encoding.md R59). A specifier that must be zero is v0. -/
inductive VSpec where
  | vreg (v : BitVec 5)
  | cap1
  | cap2
  | preg (p : BitVec 3)
  | loc (base : BitVec 4) (off : BitVec 8) (stride : BitVec 6) (post : Bool)
  deriving DecidableEq, Repr

/-- The operand fields of a V word (02_encoding.md R58). -/
structure VWord where
  pz   : Bool
  cap2 : GIdx
  cap1 : GIdx
  pred : BitVec 3
  rnd  : BitVec 3
  fmt  : BitVec 4
  d    : VSpec
  a    : VSpec
  b    : VSpec
  deriving DecidableEq, Repr

/-- A 32-bit specifier of an M or D word (02_encoding.md R65). -/
inductive MSpec where
  | absent
  | reg (n : BitVec 5)
  | loc (base : BitVec 4) (off : BitVec 19) (fmt : BitVec 5)
  | cap (g : GIdx) (off : BitVec 19) (fmt : BitVec 5)
  deriving DecidableEq, Repr

/-- The shape parcel of an M word (02_encoding.md R66): columns less one, rows less one, format code. -/
structure MShape where
  cols : BitVec 7
  rows : BitVec 7
  fmt  : BitVec 5
  deriving DecidableEq, Repr

/-- The mask-pointer parcel of an M word (02_encoding.md R66). -/
structure MMask where
  enable : Bool
  base   : BitVec 4
  off    : BitVec 19
  deriving DecidableEq, Repr

/-- The operand fields of an M word (02_encoding.md R64 to R66). -/
structure MWord where
  nb    : Bool
  cap2  : GIdx
  cap1  : GIdx
  sig   : BitVec 4
  wait  : BitVec 4
  d     : MSpec
  a     : MSpec
  b     : MSpec
  shape : MShape
  mask  : MMask
  deriving DecidableEq, Repr

/-- The operand fields of a D word (02_encoding.md R64, R65); its variant is part of the mnemonic. -/
structure DWord where
  nb   : Bool
  cap2 : GIdx
  cap1 : GIdx
  sig  : BitVec 4
  wait : BitVec 4
  d    : MSpec
  s    : MSpec
  deriving DecidableEq, Repr

/-- A 64-byte task record with the tags of its two argument units (08_tasks.md R242), whether it is a root task's, which
starts at partition level and which no byte of the record says (15_system.md R425, log entry 17), and whether it was read
from poisoned bytes (01_machine.md R37, log entry 85). -/
structure Record where
  argA  : GVal
  argB  : GVal
  entry : Word64
  wid   : Word64
  done  : Word64
  ctx   : BitVec 16
  flags : BitVec 16
  count : BitVec 32
  root  : Bool := false
  bad   : Bool := false
  deriving DecidableEq, Repr

/-- The three kinds of access a translation is made for (05_memory.md R167). -/
inductive AccessKind where
  | load | store | fetch
  deriving DecidableEq, Repr

/-- A trap as its taker records it: the walker (none for an interrupt or cause 0x12), the cause, ADDR and INFO of
the frame (15_system.md R426, R432), and for cause 0x06 the kind of access that the fault-queue entry names (R439).
`asked` marks a trap that finds no new fault: that of a TRAP word, or of a page whose entry, `seq`, is posted already. -/
structure Trap where
  walker : Option Engine
  cause  : Byte
  addr   : Word64
  info   : Word64
  kind   : AccessKind
  asked  : Bool := false
  seq    : BitVec 32 := 0#32
  deriving DecidableEq, Repr

/-- How a page walk that was under way ends (15_system.md R430). -/
inductive WalkEnd where
  | absent
  | fault (cause : Byte)
  | found
  deriving DecidableEq, Repr

/-- A page walk that an interrupt leaves running: its virtual address and the kind of its access
(15_system.md R430). -/
structure Walk where
  va   : Word64
  kind : AccessKind
  deriving DecidableEq, Repr

/-- A Kettle core's access (14_futures.md R421): its kind, its virtual address, the physical address that its translation
found, its width in bytes, a store's bytes and a load's register. -/
structure KAccess where
  kind : AccessKind
  addr : Word64
  pa   : Nat
  n    : Nat
  data : List Byte
  rd   : BitVec 5
  deriving DecidableEq, Repr

/-- A posted store on its way to another core's local memory (06_ordering.md R189): destination rank, offset,
bytes, for a 16-byte store of a tagged value the tag (05_memory.md R152), whether it is a release write (06_ordering.md
R193), which of its bytes are poisoned (01_machine.md R37), and the offsets of the 16-byte units of an engine's write that
carry tags (12_copy.md R359). -/
structure PostedStore where
  dst   : BitVec 12
  off   : BitVec 19
  bytes : List Byte
  tag   : Bool
  rel   : Bool := false
  bad   : List Nat := []
  tags  : List Nat := []
  deriving DecidableEq, Repr

/-- The kinds of tagged arrival (07_sync.md R214 to R217): of the two hub injections, `inject` carries granules of a
future's tokens and `pin` the status of a prefetch (13_kv.md R392). -/
inductive ArrivalKind where
  | putf | putw | dputf | inject | pin | ue
  deriving DecidableEq, Repr

/-- A tagged arrival at a granule of a core (07_sync.md R215): the destination core, the offset of its first byte,
its bytes (16 of PUTF and PUTW, 64 of the others), its source package and core, who waits for it, which of its bytes
are poisoned (12_copy.md R354), whether it is a core's own PUTF through the alias (R224), the number of the DPUT.f that it is
a granule of (12_copy.md R358), and the pair and number of the Ultra Ethernet packet that brings it (R217). -/
structure Arrival where
  dst    : BitVec 12
  off    : BitVec 19
  bytes  : List Byte
  kind   : ArrivalKind
  srcPkg : BitVec 32
  srcCore : BitVec 16
  entry  : BitVec 14
  bad    : List Nat := []
  byAlias : Bool := false
  cmd    : BitVec 16 := 0#16
  ue     : Option (Option Nat × Nat) := none
  deriving DecidableEq, Repr

/-- An active message on its way (08_tasks.md R259): handler, context, destination, the core, package and partition that
send it, sequence number and arguments. -/
structure AMsg where
  entry : Word64
  ctx   : BitVec 16
  dst   : BitVec 12
  src   : BitVec 12
  pkg   : BitVec 18
  pid   : BitVec 10
  seq   : BitVec 32
  args  : List GVal
  deriving DecidableEq, Repr

/-- The name of a reduction command (12_copy.md R355): the issuing package and core and the command's number. -/
structure RedId where
  pkg  : BitVec 18
  core : BitVec 12
  num  : BitVec 32
  deriving DecidableEq, Repr

/-- What one package asks of a core of another, or of its local memory (05_memory.md R156). -/
inductive PkgReq where
  /-- A load of n bytes, or of n bytes of a window of region 0xE (07_sync.md R225). -/
  | load (off : BitVec 19) (n : Nat)
  | windowLoad (x : Word64) (n : Nat)
  /-- A posted store, with the offsets of its tagged 16-byte units and of its poisoned bytes (05_memory.md R176, 12_copy.md
  R359, 01_machine.md R37), or a store to a window. -/
  | store (off : BitVec 19) (bytes : List Byte) (tags bad : List Nat)
  | windowStore (x : Word64) (bytes : List Byte)
  /-- An atomic: which of the eight, its operand and its expected value (06_ordering.md R201). -/
  | amo (off : BitVec 19) (op : Nat) (b e : Word64)
  /-- A presence, mailbox or barrier operation: its S opcode, the address and its operand (07_sync.md R220, R227, R232). -/
  | sync (op : Nat) (x : Word64) (v : Nat)
  /-- A join slot's withdrawal from an object (07_sync.md R231). -/
  | withdraw (off : BitVec 19) (gen : BitVec 32)
  /-- The sender's waiting request is abandoned (07_sync.md R222). -/
  | abandon
  /-- A tagged arrival, and a mailbox increment (07_sync.md R215, R226). -/
  | tagged (arr : Arrival)
  | mail (idx : BitVec 8) (amount : BitVec 32)
  /-- A reduction unit: its command, unit, place, operation, format and source bytes; and the command's end notice
  (12_copy.md R355, R356). -/
  | red (id : RedId) (unit : Nat) (off : BitVec 19) (op : Nat) (fmt : Nat) (bytes : List Byte)
  | redEnd (id : RedId)
  /-- The publication of a handle, and a barrier credit (12_copy.md R360, R368). -/
  | publish (off : BitVec 19)
  | credit (off : BitVec 19) (n : Nat)
  /-- A pushed record, an arming and a decrement of a codelet slot (08_tasks.md R253 to R255). -/
  | push (r : Record)
  | codlt (off : BitVec 19) (r : Record)
  | cdec (off : BitVec 19) (n : BitVec 32)
  /-- An active message, and the report of a refused one (08_tasks.md R259, R261). -/
  | amsg (m : AMsg)
  | refusal (seq : BitVec 32) (why : BitVec 4)
  deriving DecidableEq, Repr

/-- A request that arrives from another package (05_memory.md R156): the partition it names, the package and core that it
comes from, the target core and what it asks. -/
structure RemoteAccess where
  pid     : Nat
  srcPkg  : BitVec 18
  srcCore : BitVec 12
  core    : BitVec 12
  req     : PkgReq
  deriving DecidableEq, Repr

/-- A remote host's completion message (14_futures.md R418): the handle, the authenticator, the tool status and the
bytes of its tokens. -/
structure RemoteDone where
  handle  : BitVec 32
  auth    : BitVec 64
  rstatus : BitVec 8
  tokens  : List Byte
  deriving DecidableEq, Repr

/-- An extent grant (19_integration.md R494): the partition, the storage device, the first block, the block count and
the two permissions. -/
structure ExtentGrant where
  pid   : BitVec 10
  dev   : BitVec 32
  first : BitVec 64
  count : BitVec 64
  rd    : Bool
  wr    : Bool
  deriving DecidableEq, Repr

/-- What the bring-up steps of 19_integration.md R493 find: the step that fails, if one does, and what the
configuration record and the ports give (R482, R491). -/
structure BringUp where
  fail     : Option (BitVec 4)
  svn      : BitVec 32
  owners   : List (BitVec 256)
  places   : List (BitVec 1088)
  cxl      : Bool
  hostSize : Nat
  rate     : BitVec 8
  pkg      : BitVec 18
  fwHash   : BitVec 256
  recHash  : BitVec 256
  down     : List Nat
  ps       : Nat
  repair   : List (List Byte) := []
  deriving DecidableEq, Repr

/-- An RSA-3072 public key: its modulus and exponent (08_tasks.md R237, 19_integration.md R490, R491). -/
structure RsaKey where
  n : BitVec 3072
  e : BitVec 64
  deriving DecidableEq, Repr

/-- The operation of a packet from a remote agent (19_integration.md R489). -/
inductive UeOp where
  | write (bytes : List Byte)
  | tagged (bytes : List Byte)
  | read (n : Nat)
  | unsupported
  deriving DecidableEq, Repr

/-- An Ultra Ethernet packet at the endpoint (19_integration.md R488, R489): its sender pair and sequence number when
it comes from another package, and then its source partition as the key (05_memory.md R156), else the key it quotes;
the address it names, what it asks, and of a tagged write of another package the package and core that made it (07_sync.md
R217). -/
structure UePacket where
  pair : Option Nat
  seq  : Nat
  key  : BitVec 32
  addr : BitVec 64
  op   : UeOp
  srcPkg  : BitVec 18 := 0#18
  srcCore : BitVec 12 := 0#12
  deriving DecidableEq, Repr

/-- The instructions and steps of the Rosone XN-4, one constructor for every row of the opcode table. -/
inductive Instr where
  -- Integer and capability words (04_scalar.md R132 to R142)
  | add (d a b : GIdx)
  | sub (d a b : GIdx)
  | mul (d a b : GIdx)
  | mulh (d a b : GIdx)
  | div (d a b : GIdx)
  | rem (d a b : GIdx)
  | and (d a b : GIdx)
  | or (d a b : GIdx)
  | xor (d a b : GIdx)
  | sll (d a b : GIdx)
  | srl (d a b : GIdx)
  | sra (d a b : GIdx)
  | slt (d a b : GIdx)
  | sltu (d a b : GIdx)
  | min (d a b : GIdx)
  | max (d a b : GIdx)
  | clz (d a : GIdx)
  | popc (d a : GIdx)
  | mov (d a : GIdx)
  | addi (d a : GIdx) (imm : BitVec 11)
  | andi (d a : GIdx) (imm : BitVec 11)
  | ori (d a : GIdx) (imm : BitVec 11)
  | xori (d a : GIdx) (imm : BitVec 11)
  | slli (d a : GIdx) (sh : BitVec 7)
  | srli (d a : GIdx) (sh : BitVec 7)
  | srai (d a : GIdx) (sh : BitVec 7)
  | lih (d : GIdx) (imm : BitVec 17)
  | widf (d a : GIdx) (n : BitVec 3)
  | capBnd (d a b : GIdx)
  | capPerm (d a b : GIdx)
  | capInc (d a b : GIdx)
  | capSeal (d a b : GIdx)
  | capMov (d a : GIdx)
  | capClr (d a : GIdx)
  | capGet (d a : GIdx) (sel : BitVec 3)
  -- Branches, walker words and control registers (R119, R127, R128, R143 to R146)
  | beq (a b : GIdx) (off : BitVec 11)
  | bne (a b : GIdx) (off : BitVec 11)
  | blt (a b : GIdx) (off : BitVec 11)
  | bge (a b : GIdx) (off : BitVec 11)
  | bltu (a b : GIdx) (off : BitVec 11)
  | bgeu (a b : GIdx) (off : BitVec 11)
  | jal (d : GIdx) (off : BitVec 17)
  | jalr (d a : GIdx) (off : BitVec 11)
  | nest (e : Engine) (a : GIdx) (words : BitVec 5) (levels : BitVec 3)
  | safept (idx : BitVec 17)
  | syncw (mask : BitVec 4)
  | mfc (d : GIdx) (idx : BitVec 11)
  | mtc (s : GIdx) (idx : BitVec 11)
  | mset (s : GIdx) (idx : BitVec 11)
  | mclr (s : GIdx) (idx : BitVec 11)
  -- Loads, stores, prefetch and cache maintenance (05_memory.md R175 to R180)
  | ldB (d a : GIdx) (off : BitVec 11)
  | ldH (d a : GIdx) (off : BitVec 11)
  | ldW (d a : GIdx) (off : BitVec 11)
  | ldD (d a : GIdx) (off : BitVec 11)
  | ldQ (d a : GIdx) (off : BitVec 11)
  | stB (d a : GIdx) (off : BitVec 11)
  | stH (d a : GIdx) (off : BitVec 11)
  | stW (d a : GIdx) (off : BitVec 11)
  | stD (d a : GIdx) (off : BitVec 11)
  | stQ (d a : GIdx) (off : BitVec 11)
  | ldloc (width : Width) (upd : Update) (d a : GIdx) (inc : BitVec 6)
  | stloc (width : Width) (upd : Update) (d a : GIdx) (inc : BitVec 6)
  | pref (lvl : BitVec 2) (a : GIdx) (off : BitVec 11)
  | clwb (a : GIdx) (off : BitVec 11)
  | clinv (a : GIdx) (off : BitVec 11)
  | clinvI (a : GIdx) (off : BitVec 11)
  -- Ordering and atomics (06_ordering.md R198 to R202)
  | fence (scope : Scope)
  | ldacq (width : Width) (scope : Scope) (d a : GIdx)
  | strel (width : Width) (scope : Scope) (d a : GIdx)
  | amoAdd (ord : Order) (scope : Scope) (d a b : GIdx)
  | amoAnd (ord : Order) (scope : Scope) (d a b : GIdx)
  | amoOr (ord : Order) (scope : Scope) (d a b : GIdx)
  | amoXor (ord : Order) (scope : Scope) (d a b : GIdx)
  | amoMin (ord : Order) (scope : Scope) (d a b : GIdx)
  | amoMax (ord : Order) (scope : Scope) (d a b : GIdx)
  | amoSwp (ord : Order) (scope : Scope) (d a b : GIdx)
  | amoCas (ord : Order) (scope : Scope) (d a b : GIdx)
  -- Presence, mailboxes, barriers, monitors (07_sync.md R220 to R235)
  | take (d a : GIdx) (off : BitVec 11)
  | peek (d a : GIdx) (off : BitVec 11)
  | trytake (d a : GIdx) (off : BitVec 11)
  | putf (d a : GIdx) (off : BitVec 11)
  | putw (d a : GIdx) (off : BitVec 11)
  | empty (a : GIdx) (off : BitVec 11)
  | full (a : GIdx) (off : BitVec 11)
  | ptest (d a : GIdx) (off : BitVec 11)
  | mbinc (a b : GIdx)
  | mbincRel (scope : Scope) (a b : GIdx)
  | mbwait (d a b : GIdx)
  | mbrd (d a : GIdx)
  | mbset (a b : GIdx)
  | barinit (a b : GIdx)
  | bararv (d a : GIdx)
  | barwait (a b : GIdx)
  | bartest (d a : GIdx)
  | bartwait (d a b : GIdx)
  | barjoin (a : GIdx) (slot : BitVec 2)
  | monarm (a : GIdx) (off : BitVec 11)
  | monwait (d a : GIdx)
  -- Tasks (08_tasks.md R253 to R259)
  | spawn (a : GIdx)
  | spawnr (a b : GIdx)
  | codlt (a b : GIdx)
  | cdec (a b : GIdx)
  | amsg (n : BitVec 3) (d a b : GIdx)
  -- Groups (09_compose.md R288, R289)
  | compose (tall : Bool) (size : BitVec 2) (d : GIdx)
  | gang (size : BitVec 2) (d : GIdx)
  -- Key-value words (13_kv.md R387 to R398)
  | pfxl (d a b : GIdx)
  | pfxi (d a b : GIdx)
  | pfxdrop (a b : GIdx)
  | kvmap (d a b : GIdx)
  | kvtrnc (a b : GIdx)
  | kvpin (a b : GIdx)
  | kvunpin (a b : GIdx)
  | attg (a : GIdx)
  -- Futures and the counter (14_futures.md R407 to R424)
  | fcall (d a b : GIdx)
  | fwait (d a : GIdx)
  | ftest (d a : GIdx)
  | fcancel (d a : GIdx)
  | fdone (a b : GIdx)
  | rngsv (d : GIdx)
  | rngld (a : GIdx)
  -- System words (15_system.md R434 to R457)
  | trap (code : BitVec 8)
  | svc (imm : BitVec 17)
  | brk (imm : BitVec 17)
  | rdcyc (d : GIdx)
  | rdptp (d : GIdx)
  | psave (a : GIdx)
  | prest (a : GIdx)
  | tlbfl (scope : Scope) (a b : GIdx)
  | fqtake (d a : GIdx)
  | fqdone (a b : GIdx)
  | ctxkill (a : GIdx)
  | capgrant (d a b : GIdx)
  -- V words (10_vector.md R304 to R322)
  | vadd (w : VWord)
  | vsub (w : VWord)
  | vmul (w : VWord)
  | vfma (w : VWord)
  | vfms (w : VWord)
  | vfnma (w : VWord)
  | vmin (w : VWord)
  | vmax (w : VWord)
  | vabs (w : VWord)
  | vneg (w : VWord)
  | vcmp (w : VWord)
  | vsel (w : VWord)
  | vand (w : VWord)
  | vor (w : VWord)
  | vxor (w : VWord)
  | vnot (w : VWord)
  | vshl (w : VWord)
  | vshr (w : VWord)
  | vsra (w : VWord)
  | vcvt (w : VWord)
  | vqnt (w : VWord)
  | vdqnt (w : VWord)
  | vmaxx (w : VWord)
  | vsum (w : VWord)
  | vrmax (w : VWord)
  | vrmin (w : VWord)
  | vperm (w : VWord)
  | vbcast (w : VWord)
  | vslide (w : VWord)
  | viota (w : VWord)
  | vexp (w : VWord)
  | vlog (w : VWord)
  | vrcp (w : VWord)
  | vrsq (w : VWord)
  | vsqrt (w : VWord)
  | vdiv (w : VWord)
  | vsin (w : VWord)
  | vcos (w : VWord)
  | vtanh (w : VWord)
  | vsig (w : VWord)
  | vrng (w : VWord)
  | vld (w : VWord)
  | vlds (w : VWord)
  | vst (w : VWord)
  | vsts (w : VWord)
  | vgth (w : VWord)
  | vsct (w : VWord)
  | vmovgs (w : VWord)
  | vmovsg (w : VWord)
  | pand (w : VWord)
  | por (w : VWord)
  | pnot (w : VWord)
  | pcnt (w : VWord)
  -- M words (11_matrix.md R339 to R349)
  | tcfg (w : MWord)
  | tld (w : MWord)
  | tst (w : MWord)
  | tzero (w : MWord)
  | ttr (w : MWord)
  | mma (w : MWord)
  | mmam (w : MWord)
  | accld (w : MWord)
  | accst (w : MWord)
  | acccvt (w : MWord)
  | ngo (w : MWord)
  | nwait (w : MWord)
  -- D words (12_copy.md R362 to R376; 13_kv.md R393)
  | dcpy (w : DWord)
  | dredAdd (w : DWord)
  | dredMax (w : DWord)
  | dredMin (w : DWord)
  | dgth (w : DWord)
  | dsct (w : DWord)
  | dgetMb (w : DWord)
  | dgetEv (w : DWord)
  | dput (w : DWord)
  | dputF (w : DWord)
  | dstrm (w : DWord)
  | dunb (w : DWord)
  | dshd (w : DWord)
  | dpub (w : DWord)
  | dstamp (w : DWord)
  | dwaitAll (w : DWord)
  | dwaitTok (w : DWord)
  | dsig (w : DWord)
  | kvwr (w : DWord)
  -- Kettle custom words (14_futures.md R423)
  | ktTake (rd rs : BitVec 5)
  | ktMark (rd rs : BitVec 5)
  -- Steps of engines, hub, host and module that other steps bring about: no encoding; each cites its rule at its meaning
  | kettleCompletionSwap (entry : BitVec 14) (value : BitVec 32) (rd : BitVec 5)
  | branchOutcomeConsume (e : Engine)
  | nestReplayIteration (e : Engine)
  | trapEntry (t : Trap)
  | interruptTake (walk : Option Walk)
  | postedStoreArrive (w : PostedStore)
  | remoteAccessArrive (r : RemoteAccess)
  | taggedArrival (arr : Arrival)
  | mailboxIncrementArrive (idx : BitVec 8) (amount : BitVec 32)
  | stealProbe (victim : Nat)
  | stealServe (thief : Nat)
  | stealRecordsArrive (recs : List Record)
  | remotePushArrive (src : Nat) (r : Record)
  | codltApply (off : BitVec 19) (r : Record)
  | cdecApply (off : BitVec 19) (n : BitVec 32)
  | amsgArrive (m : AMsg)
  | amsgRefusalArrive (seq : BitVec 32) (why : BitVec 4)
  | streamStripFetch (reg : BitVec 3)
  | streamStripReturn (reg : BitVec 3)
  | dCommandComplete (i : Nat)
  | reductionUnitApply (i : Nat)
  | reductionEndNotice (id : RedId)
  | futureTimeout (entry : BitVec 14)
  | fellPropose (pid tree : Nat)
  | fellDeadlineExpiry (entry : BitVec 6)
  -- S words without an operand; they stand after the words with operands because the compiled form of a large type numbers
  -- constructors with fields from the front
  | lpbk
  | barexit
  | yield
  | exit
  | split
  | disband
  | eret
  | halt
  | blaze
  -- The other steps of engines, hub, host and module
  | kettleTestedAccess (acc : KAccess)
  | sWalkerPassWord
  | sLoadReturn (i mix : Nat)
  | pageWalkComplete (e : WalkEnd)
  | cycleCompareMatch
  | safePointOverrun
  | ownershipFlipRequest (pid : Nat) (va : BitVec 64) (host : Bool)
  | ownershipFlipComplete
  | ownershipStallTimeout
  | heldArrivalOverrun
  | presenceWaitResend
  | bartwaitTimeout
  | monwaitWake (key n : Nat)
  | monwaitTimeout
  | taskStart
  | remotePushResend
  | parkTimeout
  | gangSliceInstant (pid : Nat)
  | partitionSwap (out inn : Nat)
  | groupWatchdogExpiry
  | vmaxxRelease
  | vmaxxWatchdogExpiry
  | mWordStart
  | mWordComplete (i : Nat)
  | mNestIteration
  | dCommandStart
  | reductionResend
  | injectGranule
  | remoteCompletion (m : RemoteDone)
  | kvPrefetchServe
  | fellExecute
  | fellactConfirm (entry : BitVec 6)
  | fellactVeto (entry : BitVec 6)
  | fellactMoveFront (entry : BitVec 6)
  | rankTableWrite (iface : BitVec 3) (rank : BitVec 12) (v : BitVec 32)
  | dbgctlHaltreq
  | dbgctlResume
  | dbgctlStep
  | debugStepDone
  | debugViewWrite (off : BitVec 14) (v : BitVec 64)
  | doorbellWrite
  | coreResumeWrite
  | ctxSuspend (ctx : BitVec 16)
  | ctxResume (ctx : BitVec 16)
  | ctxBeginTeardown (ctx : BitVec 16)
  | toolRingWrite (ring : BitVec 6) (v : BitVec 64)
  | fqringWrite (v : BitVec 64)
  | ppringWrite (v : BitVec 64)
  | ppputWrite (v : BitVec 64)
  | pptakeRead (d : GIdx)
  | hostQueuePost (v : BitVec 64)
  | sqcfgWrite (v : BitVec 64)
  | sqTailWrite (v : BitVec 64)
  | storageRequestComplete (i : Nat) (data : List Byte) (err : Bool)
  | extentGrantInstall (slot : BitVec 8) (g : ExtentGrant) (verified : Bool)
  | attestationRequest (nonce : BitVec 256)
  | ldrdbWrite (v : BitVec 64)
  | loaderEntry (key : RsaKey)
  | hostdbWrite (core : BitVec 12)
  | blztrigWrite
  | blzctlUnlock
  | blazePinTrigger
  | blazeTimeTrigger
  | blazeLatch
  | powerOnBringUp (b : BringUp)
  | junctionThrottle (region : Nat)
  | clockStepRestore (region : Nat)
  | thermalTrip
  | lowFlowTrip
  | inputDisconnect
  | overvoltageEvent
  | coolantEvent
  | slackThrottle (cluster slack : Nat)
  | marginReplan (cluster millivolt : Nat)
  | linkFlitRetry (plane seq : Nat)
  | planeOutOfService (plane : Nat)
  | uePacketArrival (p : UePacket)
  | slipwWrite (v : BitVec 64)
  | cwwinWrite (v : BitVec 64)
  | scgrpWrite (v : BitVec 64)
  | mxcfgWrite (v : BitVec 64)
  | kvdirWrite (v : BitVec 64)
  | intpendClear (v : BitVec 64)
  | registerWrite (idx : BitVec 11) (v : BitVec 128)
  | timeServoLockLoss
  | timeServoLockRegain (ps : Nat)
  | partitionUnbind (pid : Nat)
  | shadowReservationChange (die ways : Nat)
  | spareCoreReplacement (prow : BitVec 6) (pcol : BitVec 5)
  | moduleReset
  | hostCoherentAccess (addr : Nat) (store : Option (List Byte)) (n : Nat)
  | storeBufferPerform (i : Nat)
  deriving DecidableEq, Repr

end Sys2Proof
end

