-- ==== Sys2Proof/WellFormed.lean ====
section
/-! DEFINITION. Which operand values make a word a legal encoding: the checks of 02_encoding.md R47 that look at one
word alone. A word that fails one of them is an illegal encoding (cause 0x01). -/

namespace Sys2Proof

/-- The data-format codes that 02_encoding.md R60 lists. -/
def legalFormat (f : BitVec 5) : Bool :=
  decide (f.toNat ≤ 0x0B) || (decide (0x10 ≤ f.toNat) && decide (f.toNat ≤ 0x16)) || f == 0x18#5

/-- The code RAW (02_encoding.md R60). -/
abbrev rawFormat : BitVec 5 := 0x18#5

/-- A V specifier that must be zero (02_encoding.md R62, "—"). -/
def VSpec.isZero : VSpec → Bool
  | .vreg v => v == 0#5
  | _ => false

/-- A vector register (02_encoding.md R59). -/
def VSpec.isReg : VSpec → Bool
  | .vreg _ => true
  | _ => false

/-- A predicate register (02_encoding.md R59). -/
def VSpec.isPred : VSpec → Bool
  | .preg _ => true
  | _ => false

/-- A local-memory specifier (02_encoding.md R59). -/
def VSpec.isLoc : VSpec → Bool
  | .loc _ _ _ _ => true
  | _ => false

/-- A destination of a computing word (10_vector.md R291). -/
def VSpec.isDest (x : VSpec) : Bool := x.isReg || x.isLoc

/-- A source of a computing word (10_vector.md R291). -/
def VSpec.isSource : VSpec → Bool
  | .vreg _ | .cap1 | .cap2 | .loc _ _ _ _ => true
  | .preg _ => false

/-- A local-memory specifier with stride 1, as VLD and VST require (10_vector.md R317). -/
def VSpec.isUnitStride : VSpec → Bool
  | .loc _ _ s _ => s == 1#6
  | _ => false

/-- A local-memory specifier with stride 0 and no post-update, as VGTH and VSCT require (10_vector.md R318). -/
def VSpec.isBase : VSpec → Bool
  | .loc _ _ s p => s == 0#6 && !p
  | _ => false

/-- The base register that a specifier post-updates (10_vector.md R293). -/
def VSpec.postBase : VSpec → Option (BitVec 4)
  | .loc b _ _ true => some b
  | _ => none

/-- An integer lane format, fmt 0x0 to 0x7 (10_vector.md R304). -/
def isIntFmt (f : BitVec 4) : Bool := decide (f.toNat ≤ 7)

/-- An IEEE lane format, fmt 0x8 to 0xB (10_vector.md R304). -/
def isFpFmt (f : BitVec 4) : Bool := decide (8 ≤ f.toNat) && decide (f.toNat ≤ 11)

/-- A lane format of a V word (02_encoding.md R58). -/
def isLaneFmt (f : BitVec 4) : Bool := decide (f.toNat ≤ 11)

/-- What holds of every V word: a listed lane format, pz clear when unpredicated (02_encoding.md R58), and no base
post-updated by two specifiers (10_vector.md R293). cap1 and cap2 may name a register that no operand of the word reads: R63
captures them of every V word (DEDUCED, log entry 94). -/
def VWord.common (w : VWord) : Bool :=
  isLaneFmt w.fmt && (!w.pz || w.pred != 0#3) &&
    !((w.d.postBase.isSome && w.d.postBase == w.a.postBase) || (w.d.postBase.isSome && w.d.postBase == w.b.postBase) ||
      (w.a.postBase.isSome && w.a.postBase == w.b.postBase))

/-- Any of the five rounding modes (02_encoding.md R61). -/
def VWord.anyRound (w : VWord) : Bool := decide (w.rnd.toNat ≤ 4)

/-- A rounding mode on an IEEE format, zero on an integer format (10_vector.md R304). -/
def VWord.roundIfFp (w : VWord) : Bool := if isIntFmt w.fmt then w.rnd == 0#3 else w.anyRound

/-- Neither pred nor pz (10_vector.md R304). -/
def VWord.unpred (w : VWord) : Bool := w.pred == 0#3 && !w.pz

/-- The specifier kinds of a word with destination and two sources (10_vector.md R291). -/
def VWord.spec2 (w : VWord) : Bool := w.d.isDest && w.a.isSource && w.b.isSource

/-- The specifier kinds of a word with destination and one source (10_vector.md R291). -/
def VWord.spec1 (w : VWord) : Bool := w.d.isDest && w.a.isSource && w.b.isZero

/-- The specifier kinds of a word with a destination alone (02_encoding.md R62). -/
def VWord.spec0 (w : VWord) : Bool := w.d.isDest && w.a.isZero && w.b.isZero

/-- The arithmetic words of two sources (10_vector.md R304). -/
def VWord.okArith (w : VWord) : Bool := w.common && w.roundIfFp && w.spec2

/-- The two-source words that do not round (10_vector.md R304). -/
def VWord.okPair (w : VWord) : Bool := w.common && w.rnd == 0#3 && w.spec2

/-- The one-source words that do not round (10_vector.md R304). -/
def VWord.okOne (w : VWord) : Bool := w.common && w.rnd == 0#3 && w.spec1

/-- The shifts: integer formats alone (10_vector.md R304). -/
def VWord.okShift (w : VWord) : Bool := w.okPair && isIntFmt w.fmt

/-- VCMP (10_vector.md R304, R306). -/
def VWord.okCmp (w : VWord) : Bool :=
  w.common && decide (w.rnd.toNat ≤ 6) && w.d.isPred && w.a.isSource && w.b.isSource

/-- VSEL (10_vector.md R304, R307). -/
def VWord.okSel (w : VWord) : Bool := w.okPair && w.pred != 0#3 && !w.pz

/-- The destination format code of VCVT, held in specifier B (02_encoding.md R62). -/
def VWord.cvtCode (w : VWord) : BitVec 5 :=
  match w.b with
  | .vreg c => c
  | _ => 0#5

/-- VCVT, with the limits on a block destination (10_vector.md R309, R310). -/
def VWord.okCvt (w : VWord) : Bool :=
  w.common && w.anyRound && w.d.isDest && w.a.isSource && w.b.isReg &&
    (decide (w.cvtCode.toNat ≤ 0x0B) ||
      (decide (0x10 ≤ w.cvtCode.toNat) && decide (w.cvtCode.toNat ≤ 0x16) &&
        (w.fmt == 8#4 || w.fmt == 9#4 || w.fmt == 10#4) && w.d.isReg && w.unpred))

/-- VQNT and VDQNT (10_vector.md R304, R311). -/
def VWord.okQuant (w : VWord) : Bool := w.common && isIntFmt w.fmt && w.anyRound && w.spec2

/-- VMAXX (10_vector.md R304). -/
def VWord.okMaxx (w : VWord) : Bool := w.okOne && w.unpred

/-- VSUM (10_vector.md R304). -/
def VWord.okSum (w : VWord) : Bool :=
  w.common && (if isIntFmt w.fmt then w.rnd == 0#3 else decide (w.rnd.toNat ≤ 3)) && w.spec1 && !w.pz

/-- VRMAX and VRMIN (10_vector.md R304). -/
def VWord.okRedMax (w : VWord) : Bool := w.okOne && !w.pz

/-- VIOTA and VRNG (10_vector.md R304). -/
def VWord.okFill (w : VWord) : Bool := w.common && w.rnd == 0#3 && w.spec0

/-- The correctly rounded words with a rounding mode: VRCP and VSQRT (10_vector.md R304). -/
def VWord.okRoundOne (w : VWord) : Bool := w.common && isFpFmt w.fmt && w.anyRound && w.spec1

/-- VDIV (10_vector.md R304). -/
def VWord.okDiv (w : VWord) : Bool := w.common && isFpFmt w.fmt && w.anyRound && w.spec2

/-- The special functions at .rne (10_vector.md R304, R314). -/
def VWord.okFun (w : VWord) : Bool := w.okOne && isFpFmt w.fmt

/-- VLD (10_vector.md R317). -/
def VWord.okLd (w : VWord) : Bool :=
  w.common && w.rnd == 0#3 && w.d.isReg && w.a.isUnitStride && w.b.isZero

/-- VLDS (10_vector.md R317). -/
def VWord.okLds (w : VWord) : Bool := w.common && w.rnd == 0#3 && w.d.isReg && w.a.isLoc && w.b.isZero

/-- VST (10_vector.md R317). -/
def VWord.okSt (w : VWord) : Bool :=
  w.common && w.rnd == 0#3 && w.d.isUnitStride && w.a.isReg && w.b.isZero

/-- VSTS (10_vector.md R317). -/
def VWord.okSts (w : VWord) : Bool := w.common && w.rnd == 0#3 && w.d.isLoc && w.a.isReg && w.b.isZero

/-- VGTH (10_vector.md R318). -/
def VWord.okGth (w : VWord) : Bool := w.common && w.rnd == 0#3 && w.d.isReg && w.a.isBase && w.b.isReg

/-- VSCT (10_vector.md R318). -/
def VWord.okSct (w : VWord) : Bool := w.common && w.rnd == 0#3 && w.d.isBase && w.a.isReg && w.b.isReg

/-- VMOVGS (10_vector.md R319). -/
def VWord.okMovgs (w : VWord) : Bool :=
  w.common && w.rnd == 0#3 && w.unpred && w.d.isReg && w.a.isZero && w.b.isZero

/-- VMOVSG (10_vector.md R319). -/
def VWord.okMovsg (w : VWord) : Bool :=
  w.common && w.rnd == 0#3 && w.unpred && w.d.isZero && w.a.isReg && w.b.isZero

/-- PAND and POR (10_vector.md R320). -/
def VWord.okPredTwo (w : VWord) : Bool :=
  w.common && w.fmt == 0#4 && w.rnd == 0#3 && w.unpred && w.d.isPred && w.a.isPred && w.b.isPred

/-- PNOT (10_vector.md R320). -/
def VWord.okPredOne (w : VWord) : Bool :=
  w.common && w.fmt == 0#4 && w.rnd == 0#3 && w.unpred && w.d.isPred && w.a.isPred && w.b.isZero

/-- PCNT (10_vector.md R320). -/
def VWord.okPcnt (w : VWord) : Bool :=
  w.common && w.rnd == 0#3 && !w.pz && w.d.isZero && w.a.isPred && w.b.isZero

/-- An M or D specifier that is absent (02_encoding.md R65). -/
def MSpec.isAbsent : MSpec → Bool
  | .absent => true
  | _ => false

/-- A tile register (02_encoding.md R65). -/
def MSpec.isTile : MSpec → Bool
  | .reg n => decide (n.toNat ≤ 7)
  | _ => false

/-- An accumulator (02_encoding.md R65). -/
def MSpec.isAcc : MSpec → Bool
  | .reg n => n == 8#5 || n == 9#5
  | _ => false

/-- A stream register v24 to v31 (02_encoding.md R68). -/
def MSpec.isStream : MSpec → Bool
  | .reg n => decide (24 ≤ n.toNat)
  | _ => false

/-- A local-memory specifier with a listed format code (02_encoding.md R65). -/
def MSpec.isLocal : MSpec → Bool
  | .loc _ _ f => legalFormat f
  | _ => false

/-- A capability specifier with a listed format code (02_encoding.md R65). -/
def MSpec.isCap : MSpec → Bool
  | .cap _ _ f => legalFormat f
  | _ => false

/-- A specifier of either memory form. -/
def MSpec.isMem (x : MSpec) : Bool := x.isLocal || x.isCap

/-- The format code of a memory specifier. -/
def MSpec.format : MSpec → BitVec 5
  | .loc _ _ f | .cap _ _ f => f
  | .absent | .reg _ => 0#5

/-- The bytes of one row of a tile (11_matrix.md R327). -/
def tileRowBytes (fmt : BitVec 5) (cols : Nat) : Nat :=
  if fmt.toNat ≤ 0x09 then 2 * cols
  else if fmt.toNat = 0x0A then 4 * cols
  else cols / 32 * (1 + 4 * (fmt.toNat - 0x10 + 2))

/-- A shape that the table of 11_matrix.md R327 allows. -/
def MShape.legal (x : MShape) : Bool :=
  let cols := x.cols.toNat + 1
  let rows := x.rows.toNat + 1
  (x.fmt == 0x08#5 || x.fmt == 0x09#5 || x.fmt == 0x0A#5 ||
    (decide (0x10 ≤ x.fmt.toNat) && decide (x.fmt.toNat ≤ 0x16) && decide (cols % 32 = 0))) &&
    decide (rows * tileRowBytes x.fmt cols ≤ 16384)

/-- The shape parcel of zeros. -/
def MShape.isZero (x : MShape) : Bool := x.cols == 0#7 && x.rows == 0#7 && x.fmt == 0#5

/-- The mask parcel of zeros. -/
def MMask.isZero (x : MMask) : Bool := !x.enable && x.base == 0#4 && x.off == 0#19

/-- Parcels 4 and 5 and both capture fields zero, as every M word but four has them (11_matrix.md, The
instructions). -/
def MWord.plain (w : MWord) : Bool := w.cap1 == 0#6 && w.cap2 == 0#6 && w.shape.isZero && w.mask.isZero

/-- A specifier whose code may fill or empty an accumulator (11_matrix.md R348). -/
def MSpec.isAccMem (x : MSpec) : Bool := x.isMem && (x.format == 0x0A#5 || x.format == rawFormat)

/-- Both capture fields zero (12_copy.md R351). -/
def DWord.noCaps (w : DWord) : Bool := w.cap1 == 0#6 && w.cap2 == 0#6

/-- DRED: one numeric format on both sides (12_copy.md R370). -/
def DWord.okRed (w : DWord) : Bool :=
  w.d.isMem && w.s.isMem && w.d.format == w.s.format && decide (w.d.format.toNat ≤ 0x0B)

/-- DGET: RAW into local memory from a capability (12_copy.md R372). -/
def DWord.okGet (w : DWord) : Bool :=
  w.d.isLocal && w.s.isCap && w.d.format == rawFormat && w.s.format == rawFormat

/-- DPUT: RAW from local memory through a capability (12_copy.md R373). -/
def DWord.okPut (w : DWord) : Bool :=
  w.d.isCap && w.s.isLocal && w.d.format == rawFormat && w.s.format == rawFormat

/-- The causes that TRAP may name: those that 15_system.md R426 lists and R457 does not refuse. -/
def legalTrapCode (c : BitVec 8) : Bool :=
  (decide (1 ≤ c.toNat) && decide (c.toNat ≤ 0x13) && c != 0x0A#8)

/-- A legal encoding, instruction by instruction. The steps of engines, hub, host and module have no encoding. -/
def wellFormed : Instr → Bool
  | .widf _ _ n => decide (1 ≤ n.toNat) && decide (n.toNat ≤ 6)
  | .capGet _ _ sel => decide (sel.toNat ≤ 5)
  | .nest _ _ _ levels => decide (levels.toNat ≤ 5)
  | .ldloc _ upd _ _ inc => (upd != .stay || inc == 0#6)
  | .stloc _ upd _ _ inc => (upd != .stay || inc == 0#6)
  | .pref lvl _ _ => lvl != 3#2
  | .amoAdd ord scope _ _ _ => (ord != .plain || scope == .core)
  | .amoAnd ord scope _ _ _ => (ord != .plain || scope == .core)
  | .amoOr ord scope _ _ _ => (ord != .plain || scope == .core)
  | .amoXor ord scope _ _ _ => (ord != .plain || scope == .core)
  | .amoMin ord scope _ _ _ => (ord != .plain || scope == .core)
  | .amoMax ord scope _ _ _ => (ord != .plain || scope == .core)
  | .amoSwp ord scope _ _ _ => (ord != .plain || scope == .core)
  | .amoCas ord scope _ _ _ => (ord != .plain || scope == .core)
  | .trytake d _ _ => d != 63#6
  | .amsg n _ a _ => decide (n.toNat ≤ 4) && decide (a.toNat + n.toNat ≤ 63)
  | .gang size _ => size != 3#2
  | .trap code => legalTrapCode code
  | .vadd w => w.okArith
  | .vsub w => w.okArith
  | .vmul w => w.okArith
  | .vfma w => w.okArith
  | .vfms w => w.okArith
  | .vfnma w => w.okArith
  | .vmin w => w.okPair
  | .vmax w => w.okPair
  | .vabs w => w.okOne
  | .vneg w => w.okOne
  | .vcmp w => w.okCmp
  | .vsel w => w.okSel
  | .vand w => w.okPair
  | .vor w => w.okPair
  | .vxor w => w.okPair
  | .vnot w => w.okOne
  | .vshl w => w.okShift
  | .vshr w => w.okShift
  | .vsra w => w.okShift
  | .vcvt w => w.okCvt
  | .vqnt w => w.okQuant
  | .vdqnt w => w.okQuant
  | .vmaxx w => w.okMaxx
  | .vsum w => w.okSum
  | .vrmax w => w.okRedMax
  | .vrmin w => w.okRedMax
  | .vperm w => w.okPair
  | .vbcast w => w.okPair
  | .vslide w => w.okPair
  | .viota w => w.okFill
  | .vexp w => w.okFun
  | .vlog w => w.okFun
  | .vrcp w => w.okRoundOne
  | .vrsq w => w.okFun
  | .vsqrt w => w.okRoundOne
  | .vdiv w => w.okDiv
  | .vsin w => w.okFun
  | .vcos w => w.okFun
  | .vtanh w => w.okFun
  | .vsig w => w.okFun
  | .vrng w => w.okFill
  | .vld w => w.okLd
  | .vlds w => w.okLds
  | .vst w => w.okSt
  | .vsts w => w.okSts
  | .vgth w => w.okGth
  | .vsct w => w.okSct
  | .vmovgs w => w.okMovgs
  | .vmovsg w => w.okMovsg
  | .pand w => w.okPredTwo
  | .por w => w.okPredTwo
  | .pnot w => w.okPredOne
  | .pcnt w => w.okPcnt
  | .tcfg w => w.cap1 == 0#6 && w.cap2 == 0#6 && w.mask.isZero && w.shape.legal && w.d.isTile && w.a.isAbsent && w.b.isAbsent
  | .tld w => w.plain && w.d.isTile && w.a.isMem && w.b.isAbsent
  | .tst w => w.plain && w.d.isMem && w.a.isTile && w.b.isAbsent
  | .tzero w => w.plain && (w.d.isTile || w.d.isAcc) && w.a.isAbsent && w.b.isAbsent
  | .ttr w => w.plain && w.d.isTile && w.a.isTile && w.b.isAbsent
  | .mma w => w.plain && w.d.isAcc && w.a.isTile && w.b.isTile
  | .mmam w => w.cap1 == 0#6 && w.cap2 == 0#6 && w.shape.isZero && w.mask.enable && w.d.isAcc && w.a.isTile && w.b.isTile
  | .accld w => w.plain && w.d.isAcc && w.a.isAccMem && w.b.isAbsent
  | .accst w => w.plain && w.d.isAccMem && w.a.isAcc && w.b.isAbsent
  | .acccvt w => w.cap2 == 0#6 && w.shape.isZero && w.mask.isZero && w.d.isTile && w.a.isAcc && w.b.isAbsent
  | .ngo w => w.plain && w.d.isAbsent && w.a.isAbsent && w.b.isAbsent
  | .nwait w => w.plain && w.d.isAbsent && w.a.isAbsent && w.b.isAbsent
  | .dcpy w => w.d.isMem && w.s.isMem
  | .dredAdd w => w.okRed
  | .dredMax w => w.okRed
  | .dredMin w => w.okRed
  | .dgth w => w.d.isLocal && w.s.isMem && w.d.format == w.s.format
  | .dsct w => w.d.isMem && w.s.isLocal && w.d.format == w.s.format
  | .dgetMb w => w.okGet
  | .dgetEv w => w.okGet
  | .dput w => w.okPut
  | .dputF w => w.okPut
  | .dstrm w => w.noCaps && w.d.isStream && w.s.isLocal && w.s.format == rawFormat
  | .dunb w => w.noCaps && w.d.isStream && w.s.isAbsent
  | .dshd w => w.d.isCap && w.s.isMem
  | .dpub w => w.cap2 == 0#6 && w.d.isAbsent && w.s.isAbsent
  | .dstamp w => w.d.isMem && w.s.isLocal && w.d.format == rawFormat && w.s.format == rawFormat
  | .dwaitAll w => w.noCaps && w.d.isAbsent && w.s.isAbsent
  | .dwaitTok w => w.noCaps && w.wait != 0#4 && w.d.isAbsent && w.s.isAbsent
  | .dsig w => w.cap2 == 0#6 && w.d.isAbsent && w.s.isAbsent
  | .kvwr w => w.d.isAbsent && w.s.isLocal && w.s.format == rawFormat
  | .add _ _ _ | .sub _ _ _ | .mul _ _ _ | .mulh _ _ _ | .div _ _ _ | .rem _ _ _ | .and _ _ _ | .or _ _ _
  | .xor _ _ _ | .sll _ _ _ | .srl _ _ _ | .sra _ _ _ | .slt _ _ _ | .sltu _ _ _ | .min _ _ _ | .max _ _ _
  | .clz _ _ | .popc _ _ | .mov _ _ | .addi _ _ _ | .andi _ _ _ | .ori _ _ _ | .xori _ _ _ | .slli _ _ _
  | .srli _ _ _ | .srai _ _ _ | .lih _ _ | .capBnd _ _ _ | .capPerm _ _ _ | .capInc _ _ _ | .capSeal _ _ _
  | .capMov _ _ | .capClr _ _ | .beq _ _ _ | .bne _ _ _ | .blt _ _ _ | .bge _ _ _ | .bltu _ _ _ | .bgeu _ _ _
  | .jal _ _ | .jalr _ _ _ | .safept _ | .syncw _ | .mfc _ _ | .mtc _ _ | .mset _ _ | .mclr _ _ | .ldB _ _ _
  | .ldH _ _ _ | .ldW _ _ _ | .ldD _ _ _ | .ldQ _ _ _ | .stB _ _ _ | .stH _ _ _ | .stW _ _ _ | .stD _ _ _
  | .stQ _ _ _ | .clwb _ _ | .clinv _ _ | .clinvI _ _ | .fence _ | .ldacq _ _ _ _ | .strel _ _ _ _ | .lpbk
  | .take _ _ _ | .peek _ _ _ | .putf _ _ _ | .putw _ _ _ | .empty _ _ | .full _ _ | .ptest _ _ _ | .mbinc _ _
  | .mbincRel _ _ _ | .mbwait _ _ _ | .mbrd _ _ | .mbset _ _ | .barinit _ _ | .bararv _ _ | .barwait _ _
  | .bartest _ _ | .bartwait _ _ _ | .barjoin _ _ | .barexit | .monarm _ _ | .monwait _ _ | .spawn _
  | .spawnr _ _ | .codlt _ _ | .cdec _ _ | .yield | .exit | .compose _ _ _ | .split | .disband | .pfxl _ _ _
  | .pfxi _ _ _ | .pfxdrop _ _ | .kvmap _ _ _ | .kvtrnc _ _ | .kvpin _ _ | .kvunpin _ _ | .attg _ | .fcall _ _ _
  | .fwait _ _ | .ftest _ _ | .fcancel _ _ | .fdone _ _ | .rngsv _ | .rngld _ | .eret | .svc _ | .halt | .brk _
  | .blaze | .rdcyc _ | .rdptp _ | .psave _ | .prest _ | .tlbfl _ _ _ | .fqtake _ _ | .fqdone _ _ | .ctxkill _
  | .capgrant _ _ _ | .ktTake _ _ | .ktMark _ _ | .kettleCompletionSwap _ _ _ | .kettleTestedAccess _
  | .sWalkerPassWord | .branchOutcomeConsume _ | .nestReplayIteration _ | .sLoadReturn _ _ | .pageWalkComplete _
  | .trapEntry _ | .interruptTake _ | .cycleCompareMatch | .safePointOverrun | .ownershipFlipRequest _ _ _
  | .ownershipFlipComplete | .ownershipStallTimeout | .postedStoreArrive _ | .remoteAccessArrive _
  | .taggedArrival _ | .heldArrivalOverrun | .presenceWaitResend | .mailboxIncrementArrive _ _
  | .bartwaitTimeout | .monwaitWake _ _ | .monwaitTimeout | .taskStart | .stealProbe _ | .stealServe _
  | .stealRecordsArrive _ | .remotePushArrive _ _ | .remotePushResend | .codltApply _ _ | .cdecApply _ _
  | .amsgArrive _ | .amsgRefusalArrive _ _ | .parkTimeout | .gangSliceInstant _ | .partitionSwap _ _
  | .groupWatchdogExpiry | .vmaxxRelease | .vmaxxWatchdogExpiry | .streamStripFetch _ | .streamStripReturn _
  | .mWordStart | .mWordComplete _ | .mNestIteration | .dCommandStart | .dCommandComplete _
  | .reductionUnitApply _ | .reductionResend | .reductionEndNotice _ | .futureTimeout _ | .injectGranule
  | .remoteCompletion _ | .kvPrefetchServe | .fellPropose _ _ | .fellDeadlineExpiry _ | .fellExecute
  | .fellactConfirm _ | .fellactVeto _ | .fellactMoveFront _ | .rankTableWrite _ _ _ | .dbgctlHaltreq
  | .dbgctlResume | .dbgctlStep | .debugStepDone | .debugViewWrite _ _ | .doorbellWrite | .coreResumeWrite
  | .ctxSuspend _ | .ctxResume _ | .ctxBeginTeardown _ | .toolRingWrite _ _ | .fqringWrite _ | .ppringWrite _
  | .ppputWrite _ | .pptakeRead _ | .hostQueuePost _ | .sqcfgWrite _ | .sqTailWrite _
  | .storageRequestComplete _ _ _ | .extentGrantInstall _ _ _ | .attestationRequest _ | .ldrdbWrite _
  | .loaderEntry _ | .hostdbWrite _ | .blztrigWrite | .blzctlUnlock | .blazePinTrigger | .blazeTimeTrigger
  | .blazeLatch | .powerOnBringUp _ | .junctionThrottle _ | .clockStepRestore _ | .thermalTrip | .lowFlowTrip
  | .inputDisconnect | .overvoltageEvent | .coolantEvent | .slackThrottle _ _ | .marginReplan _ _
  | .linkFlitRetry _ _ | .planeOutOfService _ | .uePacketArrival _ | .slipwWrite _ | .cwwinWrite _
  | .scgrpWrite _ | .mxcfgWrite _ | .kvdirWrite _ | .intpendClear _ | .registerWrite _ _ | .timeServoLockLoss
  | .timeServoLockRegain _ | .partitionUnbind _ | .shadowReservationChange _ _ | .spareCoreReplacement _ _
  | .moduleReset | .hostCoherentAccess _ _ _ | .storeBufferPerform _ => true

end Sys2Proof
end

