-- ==== Sys2Proof/Decode.lean ====
section
/-! DEFINITION. The decoder of the Rosone XN-4's program text, from the encodings of 02_encoding.md, total on any
bytes and rejecting by name; and after it the encoder, from the same tables. The two Kettle words of
14_futures.md R423 have a decoder of their own, since a Kettle core's text is not Dorvan text. -/

namespace Sys2Proof

/-- Why bytes are no instruction. Every one of them is an illegal encoding (cause 0x01, 02_encoding.md R47), but for
`short`, which names text that ends inside a word. -/
inductive DecodeError where
  | unassigned
  | reserved
  | subfield
  | specifier
  | short
  deriving DecidableEq, Repr

/-- The n bits of w from bit lo upward. -/
def bits (n w lo : Nat) : BitVec n := BitVec.ofNat n (w / 2 ^ lo)

/-- The single bit lo of w. -/
def flag (w lo : Nat) : Bool := w / 2 ^ lo % 2 == 1

/-- The number that the n bits of w from bit lo upward hold. -/
def num (n w lo : Nat) : Nat := w / 2 ^ lo % 2 ^ n

/-- An instruction whose reserved fields read r, refused unless r is zero (02_encoding.md R47). -/
def zeroed (r : Nat) (i : Instr) : Except DecodeError Instr := if r = 0 then .ok i else .error .reserved

/-- The scope codes of 02_encoding.md R54. -/
def decodeScope : Nat → Option Scope
  | 0 => some .core | 1 => some .clu | 2 => some .die | 3 => some .pkg | 4 => some .sys | _ => none

/-- The order codes of 02_encoding.md R54. -/
def decodeOrder : Nat → Order
  | 1 => .aq | 2 => .rl | 3 => .aqrl | _ => .plain

/-- The width codes of 02_encoding.md R54. -/
def decodeWidth : Nat → Option Width
  | 0 => some .b | 1 => some .h | 2 => some .w | 3 => some .d | 4 => some .q | _ => none

/-- The update codes of LDLOC and STLOC (02_encoding.md R55). -/
def decodeUpdate : Nat → Option Update
  | 0 => some .stay | 1 => some .pi | 2 => some .cw | _ => none

/-- The engine codes of NEST (02_encoding.md R55), which are the tags of R40. -/
def decodeEngine : Nat → Engine
  | 1 => .v | 2 => .m | 3 => .d | _ => .s

/-- An instruction with a scope field. -/
def inScope (code : Nat) (f : Scope → Except DecodeError Instr) : Except DecodeError Instr :=
  match decodeScope code with
  | some s => f s
  | none => .error .subfield

/-- An instruction with a width field. -/
def ofWidth (code : Nat) (f : Width → Except DecodeError Instr) : Except DecodeError Instr :=
  match decodeWidth code with
  | some x => f x
  | none => .error .subfield

/-- An instruction with an update field. -/
def ofUpdate (code : Nat) (f : Update → Except DecodeError Instr) : Except DecodeError Instr :=
  match decodeUpdate code with
  | some x => f x
  | none => .error .subfield

/-- The integer functions of S opcode 0x01 (02_encoding.md R56). -/
def decodeInt (fn : Nat) (d a b : GIdx) : Except DecodeError Instr :=
  match fn with
  | 0 => .ok (.add d a b)
  | 1 => .ok (.sub d a b)
  | 2 => .ok (.mul d a b)
  | 3 => .ok (.mulh d a b)
  | 4 => .ok (.div d a b)
  | 5 => .ok (.rem d a b)
  | 6 => .ok (.and d a b)
  | 7 => .ok (.or d a b)
  | 8 => .ok (.xor d a b)
  | 9 => .ok (.sll d a b)
  | 10 => .ok (.srl d a b)
  | 11 => .ok (.sra d a b)
  | 12 => .ok (.slt d a b)
  | 13 => .ok (.sltu d a b)
  | 14 => .ok (.min d a b)
  | 15 => .ok (.max d a b)
  | 16 => zeroed b.toNat (.clz d a)
  | 17 => zeroed b.toNat (.popc d a)
  | 18 => zeroed b.toNat (.mov d a)
  | _ => .error .subfield

/-- The capability functions of S opcode 0x0B (02_encoding.md R57). -/
def decodeCapability (fn : Nat) (d a b : GIdx) : Except DecodeError Instr :=
  match fn with
  | 0 => .ok (.capBnd d a b)
  | 1 => .ok (.capPerm d a b)
  | 2 => .ok (.capInc d a b)
  | 3 => .ok (.capSeal d a b)
  | 4 => zeroed b.toNat (.capMov d a)
  | 5 => zeroed b.toNat (.capClr d a)
  | _ => .error .subfield

/-- The S opcode map (02_encoding.md R55). Operand values that no field layout excludes are checked by
`wellFormed`. -/
def decodeFieldsS (w : Nat) : Except DecodeError Instr :=
  let d : GIdx := bits 6 w 9
  let a : GIdx := bits 6 w 15
  let b : GIdx := bits 6 w 21
  let imm : BitVec 11 := bits 11 w 21
  let wide : BitVec 17 := bits 17 w 15
  let zd := num 6 w 9
  let za := num 6 w 15
  let zb := num 6 w 21
  let fn := num 5 w 27
  match num 7 w 2 with
  | 0x01 => decodeInt fn d a b
  | 0x02 => .ok (.addi d a imm)
  | 0x03 => .ok (.andi d a imm)
  | 0x04 => .ok (.ori d a imm)
  | 0x05 => .ok (.xori d a imm)
  | 0x06 => zeroed (num 4 w 28) (.slli d a (bits 7 w 21))
  | 0x07 => zeroed (num 4 w 28) (.srli d a (bits 7 w 21))
  | 0x08 => zeroed (num 4 w 28) (.srai d a (bits 7 w 21))
  | 0x09 => .ok (.lih d wide)
  | 0x0A => zeroed (num 8 w 24) (.widf d a (bits 3 w 21))
  | 0x0B => decodeCapability fn d a b
  | 0x0C => zeroed (num 8 w 24) (.capGet d a (bits 3 w 21))
  | 0x10 => .ok (.beq d a imm)
  | 0x11 => .ok (.bne d a imm)
  | 0x12 => .ok (.blt d a imm)
  | 0x13 => .ok (.bge d a imm)
  | 0x14 => .ok (.bltu d a imm)
  | 0x15 => .ok (.bgeu d a imm)
  | 0x16 => .ok (.jal d wide)
  | 0x17 => .ok (.jalr d a imm)
  | 0x18 => zeroed (zd + num 1 w 31) (.nest (decodeEngine (num 2 w 21)) a (bits 5 w 23) (bits 3 w 28))
  | 0x19 => zeroed zd (.safept wide)
  | 0x1A => zeroed (zd + num 13 w 19) (.syncw (bits 4 w 15))
  | 0x1B => zeroed za (.mfc d imm)
  | 0x1C => zeroed za (.mtc d imm)
  | 0x1D => zeroed za (.mset d imm)
  | 0x1E => zeroed za (.mclr d imm)
  | 0x20 => .ok (.ldB d a imm)
  | 0x21 => .ok (.ldH d a imm)
  | 0x22 => .ok (.ldW d a imm)
  | 0x23 => .ok (.ldD d a imm)
  | 0x24 => .ok (.ldQ d a imm)
  | 0x25 => .ok (.stB d a imm)
  | 0x26 => .ok (.stH d a imm)
  | 0x27 => .ok (.stW d a imm)
  | 0x28 => .ok (.stD d a imm)
  | 0x29 => .ok (.stQ d a imm)
  | 0x2A => ofWidth (num 3 w 21) fun x => ofUpdate (num 2 w 24) fun u =>
      .ok (.ldloc x u d a (bits 6 w 26))
  | 0x2B => ofWidth (num 3 w 21) fun x => ofUpdate (num 2 w 24) fun u =>
      .ok (.stloc x u d a (bits 6 w 26))
  | 0x2C => zeroed (num 4 w 11) (.pref (bits 2 w 9) a imm)
  | 0x2D => zeroed zd (.clwb a imm)
  | 0x2E => zeroed (num 5 w 10) (if flag w 9 then .clinvI a imm else .clinv a imm)
  | 0x30 => inScope (num 3 w 15) fun s => zeroed (zd + num 14 w 18) (.fence s)
  | 0x31 => ofWidth (num 3 w 21) fun x => inScope (num 3 w 24) fun s =>
      zeroed (num 5 w 27) (.ldacq x s d a)
  | 0x32 => ofWidth (num 3 w 21) fun x => inScope (num 3 w 24) fun s =>
      zeroed (num 5 w 27) (.strel x s d a)
  | 0x33 => zeroed (zd + num 17 w 15) .lpbk
  | 0x34 => inScope (num 3 w 27) fun s => .ok (.amoAdd (decodeOrder (num 2 w 30)) s d a b)
  | 0x35 => inScope (num 3 w 27) fun s => .ok (.amoAnd (decodeOrder (num 2 w 30)) s d a b)
  | 0x36 => inScope (num 3 w 27) fun s => .ok (.amoOr (decodeOrder (num 2 w 30)) s d a b)
  | 0x37 => inScope (num 3 w 27) fun s => .ok (.amoXor (decodeOrder (num 2 w 30)) s d a b)
  | 0x38 => inScope (num 3 w 27) fun s => .ok (.amoMin (decodeOrder (num 2 w 30)) s d a b)
  | 0x39 => inScope (num 3 w 27) fun s => .ok (.amoMax (decodeOrder (num 2 w 30)) s d a b)
  | 0x3A => inScope (num 3 w 27) fun s => .ok (.amoSwp (decodeOrder (num 2 w 30)) s d a b)
  | 0x3B => inScope (num 3 w 27) fun s => .ok (.amoCas (decodeOrder (num 2 w 30)) s d a b)
  | 0x40 => .ok (.take d a imm)
  | 0x41 => .ok (.peek d a imm)
  | 0x42 => .ok (.trytake d a imm)
  | 0x43 => .ok (.putf d a imm)
  | 0x44 => .ok (.putw d a imm)
  | 0x45 => zeroed zd (.empty a imm)
  | 0x46 => zeroed zd (.full a imm)
  | 0x47 => .ok (.ptest d a imm)
  | 0x48 => if flag w 31 then inScope (num 3 w 27) fun s => zeroed (zd + num 1 w 30) (.mbincRel s a b)
      else zeroed (zd + fn) (.mbinc a b)
  | 0x49 => zeroed (fn) (.mbwait d a b)
  | 0x4A => zeroed (zb + fn) (.mbrd d a)
  | 0x4B => zeroed (zd + fn) (.mbset a b)
  | 0x4C => zeroed (zd + fn) (.barinit a b)
  | 0x4D => zeroed (zb + fn) (.bararv d a)
  | 0x4E => zeroed (zd + fn) (.barwait a b)
  | 0x4F => zeroed (zb + fn) (.bartest d a)
  | 0x50 => zeroed (fn) (.bartwait d a b)
  | 0x51 => zeroed (zd + num 9 w 23) (.barjoin a (bits 2 w 21))
  | 0x52 => zeroed (zd + num 17 w 15) .barexit
  | 0x53 => zeroed zd (.monarm a imm)
  | 0x54 => zeroed (zb + fn) (.monwait d a)
  | 0x55 => zeroed (zd + zb + fn) (.spawn a)
  | 0x56 => zeroed (zd + fn) (.spawnr a b)
  | 0x57 => zeroed (zd + fn) (.codlt a b)
  | 0x58 => zeroed (zd + fn) (.cdec a b)
  | 0x59 => zeroed (num 2 w 30) (.amsg (bits 3 w 27) d a b)
  | 0x5A => zeroed (zd + num 17 w 15) .yield
  | 0x5B => zeroed (zd + num 17 w 15) .exit
  | 0x5C => zeroed (za + num 8 w 24) (.compose (flag w 23) (bits 2 w 21) d)
  | 0x5D => zeroed (zd + num 17 w 15) .split
  | 0x5E => zeroed (za + num 9 w 23) (.gang (bits 2 w 21) d)
  | 0x5F => zeroed (zd + num 17 w 15) .disband
  | 0x60 => zeroed (fn) (.pfxl d a b)
  | 0x61 => zeroed (fn) (.pfxi d a b)
  | 0x62 => zeroed (zd + fn) (.pfxdrop a b)
  | 0x63 => zeroed (fn) (.kvmap d a b)
  | 0x64 => zeroed (zd + fn) (.kvtrnc a b)
  | 0x65 => zeroed (zd + fn) (.kvpin a b)
  | 0x66 => zeroed (zd + fn) (.kvunpin a b)
  | 0x67 => zeroed (zd + zb + fn) (.attg a)
  | 0x68 => zeroed (fn) (.fcall d a b)
  | 0x69 => zeroed (zb + fn) (.fwait d a)
  | 0x6A => zeroed (zb + fn) (.ftest d a)
  | 0x6B => zeroed (zb + fn) (.fcancel d a)
  | 0x6C => zeroed (zd + fn) (.fdone a b)
  | 0x6D => zeroed (za + zb + fn) (.rngsv d)
  | 0x6E => zeroed (zd + zb + fn) (.rngld a)
  | 0x6F => zeroed (zd + num 9 w 23) (.trap (bits 8 w 15))
  | 0x70 => zeroed (zd + num 17 w 15) .eret
  | 0x71 => zeroed zd (.svc wide)
  | 0x72 => zeroed (zd + num 17 w 15) .halt
  | 0x73 => zeroed zd (.brk wide)
  | 0x74 => zeroed (zd + num 17 w 15) .blaze
  | 0x75 => zeroed (num 17 w 15) (.rdcyc d)
  | 0x76 => zeroed (num 17 w 15) (.rdptp d)
  | 0x77 => zeroed (zd + zb + fn) (.psave a)
  | 0x78 => zeroed (zd + zb + fn) (.prest a)
  | 0x79 => inScope (num 3 w 27) fun s => zeroed (zd + num 2 w 30) (.tlbfl s a b)
  | 0x7A => zeroed (zb + fn) (.fqtake d a)
  | 0x7B => zeroed (zd + fn) (.fqdone a b)
  | 0x7C => zeroed (zd + zb + fn) (.ctxkill a)
  | 0x7D => zeroed (fn) (.capgrant d a b)
  | _ => .error .unassigned

/-- A 21-bit V specifier (02_encoding.md R59). -/
def decodeVSpec (x : Nat) : Option VSpec :=
  if flag x 20 then
    if flag x 0 then none else some (.loc (bits 4 x 16) (bits 8 x 8) (bits 6 x 2) (flag x 1))
  else
    match num 2 x 18 with
    | 0 => if num 13 x 5 = 0 then some (.vreg (bits 5 x 0)) else none
    | 1 => if num 18 x 0 = 0 then some .cap1 else none
    | 2 => if num 18 x 0 = 0 then some .cap2 else none
    | _ => if num 15 x 3 = 0 then some (.preg (bits 3 x 0)) else none

/-- The V opcode map (02_encoding.md R62). -/
def vOpcode : Nat → Option (VWord → Instr)
  | 0x01 => some .vadd
  | 0x02 => some .vsub
  | 0x03 => some .vmul
  | 0x04 => some .vfma
  | 0x05 => some .vfms
  | 0x06 => some .vfnma
  | 0x07 => some .vmin
  | 0x08 => some .vmax
  | 0x09 => some .vabs
  | 0x0A => some .vneg
  | 0x0B => some .vcmp
  | 0x0C => some .vsel
  | 0x10 => some .vand
  | 0x11 => some .vor
  | 0x12 => some .vxor
  | 0x13 => some .vnot
  | 0x14 => some .vshl
  | 0x15 => some .vshr
  | 0x16 => some .vsra
  | 0x18 => some .vcvt
  | 0x19 => some .vqnt
  | 0x1A => some .vdqnt
  | 0x1B => some .vmaxx
  | 0x20 => some .vsum
  | 0x21 => some .vrmax
  | 0x22 => some .vrmin
  | 0x23 => some .vperm
  | 0x24 => some .vbcast
  | 0x25 => some .vslide
  | 0x26 => some .viota
  | 0x28 => some .vexp
  | 0x29 => some .vlog
  | 0x2A => some .vrcp
  | 0x2B => some .vrsq
  | 0x2C => some .vsqrt
  | 0x2D => some .vdiv
  | 0x2E => some .vsin
  | 0x2F => some .vcos
  | 0x30 => some .vtanh
  | 0x31 => some .vsig
  | 0x32 => some .vrng
  | 0x38 => some .vld
  | 0x39 => some .vst
  | 0x3A => some .vlds
  | 0x3B => some .vsts
  | 0x3C => some .vgth
  | 0x3D => some .vsct
  | 0x3E => some .vmovgs
  | 0x3F => some .vmovsg
  | 0x40 => some .pand
  | 0x41 => some .por
  | 0x42 => some .pnot
  | 0x43 => some .pcnt
  | _ => none

/-- The fields of a V word (02_encoding.md R58), the word being 96 bits with the first parcel lowest. -/
def decodeV (w : Nat) : Except DecodeError Instr :=
  match vOpcode (num 7 w 2) with
  | none => .error .unassigned
  | some f =>
    if flag w 95 then .error .reserved
    else
      match decodeVSpec (num 21 w 32), decodeVSpec (num 21 w 53), decodeVSpec (num 21 w 74) with
      | some d, some a, some b =>
        .ok (f { pz := flag w 31, cap2 := bits 6 w 25, cap1 := bits 6 w 19, pred := bits 3 w 16, rnd := bits 3 w 13,
                 fmt := bits 4 w 9, d := d, a := a, b := b })
      | _, _, _ => .error .specifier

/-- A 32-bit M or D specifier (02_encoding.md R65). -/
def decodeMSpec (x : Nat) : Option MSpec :=
  match num 2 x 30 with
  | 0 => if num 30 x 0 = 0 then some .absent else none
  | 1 => if num 25 x 5 = 0 then some (.reg (bits 5 x 0)) else none
  | 2 => if num 2 x 5 = 0 then some (.loc (bits 4 x 26) (bits 19 x 7) (bits 5 x 0)) else none
  | _ => some (.cap (bits 6 x 24) (bits 19 x 5) (bits 5 x 0))

/-- The M opcode map (02_encoding.md R67). -/
def mOpcode : Nat → Option (MWord → Instr)
  | 0x01 => some .tcfg
  | 0x02 => some .tld
  | 0x03 => some .tst
  | 0x04 => some .tzero
  | 0x05 => some .ttr
  | 0x08 => some .mma
  | 0x09 => some .mmam
  | 0x0C => some .accld
  | 0x0D => some .accst
  | 0x0E => some .acccvt
  | 0x10 => some .ngo
  | 0x11 => some .nwait
  | _ => none

/-- The fields of an M word (02_encoding.md R64 to R66), the word being 192 bits with the first parcel lowest. -/
def decodeM (w : Nat) : Except DecodeError Instr :=
  match mOpcode (num 7 w 2) with
  | none => .error .unassigned
  | some f =>
    if num 2 w 30 + num 13 w 147 + num 1 w 190 + num 7 w 160 = 0 then
      match decodeMSpec (num 32 w 32), decodeMSpec (num 32 w 64), decodeMSpec (num 32 w 96) with
      | some d, some a, some b =>
        .ok (f { nb := flag w 29, cap2 := bits 6 w 23, cap1 := bits 6 w 17, sig := bits 4 w 13, wait := bits 4 w 9,
                 d := d, a := a, b := b,
                 shape := { cols := bits 7 w 140, rows := bits 7 w 133, fmt := bits 5 w 128 },
                 mask := { enable := flag w 191, base := bits 4 w 186, off := bits 19 w 167 } })
      | _, _, _ => .error .specifier
    else .error .reserved

/-- The D opcode map with its variants fn2 (02_encoding.md R68). -/
def dOpcode (op fn : Nat) : Option (DWord → Instr) :=
  match op, fn with
  | 0x01, 0 => some .dcpy
  | 0x02, 0 => some .dredAdd
  | 0x02, 1 => some .dredMax
  | 0x02, 2 => some .dredMin
  | 0x03, 0 => some .dgth
  | 0x04, 0 => some .dsct
  | 0x05, 0 => some .dgetMb
  | 0x05, 1 => some .dgetEv
  | 0x06, 0 => some .dput
  | 0x06, 1 => some .dputF
  | 0x08, 0 => some .dstrm
  | 0x09, 0 => some .dunb
  | 0x0C, 0 => some .dshd
  | 0x0D, 0 => some .dpub
  | 0x0E, 0 => some .dstamp
  | 0x10, 0 => some .dwaitAll
  | 0x10, 1 => some .dwaitTok
  | 0x11, 0 => some .dsig
  | 0x18, 0 => some .kvwr
  | _, _ => none

/-- The fields of a D word (02_encoding.md R64, R65), the word being 96 bits with the first parcel lowest. -/
def decodeD (w : Nat) : Except DecodeError Instr :=
  match dOpcode (num 7 w 2) (num 2 w 30) with
  | none => .error .unassigned
  | some f =>
    match decodeMSpec (num 32 w 32), decodeMSpec (num 32 w 64) with
    | some d, some s =>
      .ok (f { nb := flag w 29, cap2 := bits 6 w 23, cap1 := bits 6 w 17, sig := bits 4 w 13, wait := bits 4 w 9,
               d := d, s := s })
    | _, _ => .error .specifier

/-- The parcels of a word by its engine tag (02_encoding.md R40). -/
def wordParcels (tag : Nat) : Nat :=
  match tag % 4 with
  | 0 => 1
  | 2 => 6
  | _ => 3

/-- The fields of a Dorvan word by its tag, the word given as one number with the first parcel lowest. -/
def decodeFields (w : Nat) : Except DecodeError Instr :=
  match w % 4 with
  | 0 => decodeFieldsS (w % 2 ^ 32)
  | 1 => decodeV (w % 2 ^ 96)
  | 2 => decodeM (w % 2 ^ 192)
  | _ => decodeD (w % 2 ^ 96)

/-- A Dorvan word, given as one number with the first parcel lowest (02_encoding.md R47). -/
def decodeWord (w : Nat) : Except DecodeError Instr :=
  match decodeFields w with
  | .ok i => if wellFormed i then .ok i else .error .subfield
  | .error e => .error e

/-- The number that bytes hold, the lowest address least significant (00_scope.md R2). -/
def leNat : List Byte → Nat
  | [] => 0
  | b :: t => b.toNat + 256 * leNat t

/-- The n lowest bytes of a number, the least significant first (00_scope.md R2). -/
def leBytes : Nat → Nat → List Byte
  | 0, _ => []
  | n + 1, v => BitVec.ofNat 8 v :: leBytes n (v / 256)

/-- The Dorvan instruction that stands at the start of bytes of program text (02_encoding.md R40, R41). -/
def decode (bs : List Byte) : Except DecodeError Instr :=
  match bs with
  | [] => .error .short
  | b :: _ =>
    let n := 4 * wordParcels b.toNat
    if bs.length < n then .error .short else decodeWord (leNat (bs.take n))

/-- The two Kettle words kt.take and kt.mark (14_futures.md R423). -/
def decodeKettle (w : Nat) : Except DecodeError Instr :=
  if num 7 w 0 = 0x0B then
    match num 3 w 12 with
    | 0 => zeroed (num 12 w 20) (.ktTake (bits 5 w 7) (bits 5 w 15))
    | 1 => zeroed (num 12 w 20) (.ktMark (bits 5 w 7) (bits 5 w 15))
    | _ => .error .unassigned
  else .error .unassigned

/-- The instruction of an opcode-table row's bits: a Dorvan word first; where its bits are no Dorvan word and the row
is one parcel long, a Kettle word. -/
def decodeTableWord (nbits w : Nat) : Option Instr :=
  match decode (leBytes 24 (w % 2 ^ nbits)) with
  | .ok i => some i
  | .error _ =>
    if nbits = 32 then
      match decodeKettle (w % 2 ^ 32) with
      | .ok i => some i
      | .error _ => none
    else none

/-! The encoder. -/

/-- An S word of format SA (02_encoding.md R51). -/
def encSA (op : Nat) (d a b : GIdx) (fn : Nat) : Nat :=
  op * 2 ^ 2 + d.toNat * 2 ^ 9 + a.toNat * 2 ^ 15 + b.toNat * 2 ^ 21 + fn * 2 ^ 27

/-- An S word of format SB or SD (02_encoding.md R51); in SD the fields d and a hold ga and gb. -/
def encSB (op : Nat) (d a : GIdx) (imm : Nat) : Nat := op * 2 ^ 2 + d.toNat * 2 ^ 9 + a.toNat * 2 ^ 15 + imm * 2 ^ 21

/-- An S word of format SC (02_encoding.md R51). -/
def encSC (op : Nat) (d : GIdx) (imm : Nat) : Nat := op * 2 ^ 2 + d.toNat * 2 ^ 9 + imm * 2 ^ 15

/-- The codes of a scope, an order, a width, an update and an engine (02_encoding.md R54, R55). -/
def Scope.code : Scope → Nat
  | .core => 0 | .clu => 1 | .die => 2 | .pkg => 3 | .sys => 4

/-- The code of an order (02_encoding.md R54). -/
def Order.code : Order → Nat
  | .plain => 0 | .aq => 1 | .rl => 2 | .aqrl => 3

/-- The code of a width (02_encoding.md R54). -/
def Width.code : Width → Nat
  | .b => 0 | .h => 1 | .w => 2 | .d => 3 | .q => 4

/-- The code of an update (02_encoding.md R55). -/
def Update.code : Update → Nat
  | .stay => 0 | .pi => 1 | .cw => 2

/-- The code of an engine (02_encoding.md R40). -/
def Engine.code : Engine → Nat
  | .s => 0 | .v => 1 | .m => 2 | .d => 3

/-- A 21-bit V specifier (02_encoding.md R59). -/
def encodeVSpec : VSpec → Nat
  | .vreg v => v.toNat
  | .cap1 => 2 ^ 18
  | .cap2 => 2 * 2 ^ 18
  | .preg p => 3 * 2 ^ 18 + p.toNat
  | .loc base off stride post =>
    post.toNat * 2 + stride.toNat * 2 ^ 2 + off.toNat * 2 ^ 8 + base.toNat * 2 ^ 16 + 2 ^ 20

/-- A V word (02_encoding.md R58). -/
def encodeV (op : Nat) (w : VWord) : Nat :=
  1 + op * 2 ^ 2 + w.fmt.toNat * 2 ^ 9 + w.rnd.toNat * 2 ^ 13 + w.pred.toNat * 2 ^ 16 + w.cap1.toNat * 2 ^ 19 +
    w.cap2.toNat * 2 ^ 25 + w.pz.toNat * 2 ^ 31 + encodeVSpec w.d * 2 ^ 32 + encodeVSpec w.a * 2 ^ 53 +
    encodeVSpec w.b * 2 ^ 74

/-- A 32-bit M or D specifier (02_encoding.md R65). -/
def encodeMSpec : MSpec → Nat
  | .absent => 0
  | .reg n => n.toNat + 2 ^ 30
  | .loc base off fmt => fmt.toNat + off.toNat * 2 ^ 7 + base.toNat * 2 ^ 26 + 2 * 2 ^ 30
  | .cap g off fmt => fmt.toNat + off.toNat * 2 ^ 5 + g.toNat * 2 ^ 24 + 3 * 2 ^ 30

/-- An M word (02_encoding.md R64 to R66). -/
def encodeM (op : Nat) (w : MWord) : Nat :=
  2 + op * 2 ^ 2 + w.wait.toNat * 2 ^ 9 + w.sig.toNat * 2 ^ 13 + w.cap1.toNat * 2 ^ 17 + w.cap2.toNat * 2 ^ 23 +
    w.nb.toNat * 2 ^ 29 + encodeMSpec w.d * 2 ^ 32 + encodeMSpec w.a * 2 ^ 64 + encodeMSpec w.b * 2 ^ 96 +
    (w.shape.fmt.toNat * 2 ^ 128 + w.shape.rows.toNat * 2 ^ 133 + w.shape.cols.toNat * 2 ^ 140) +
    (w.mask.off.toNat * 2 ^ 167 + w.mask.base.toNat * 2 ^ 186 + w.mask.enable.toNat * 2 ^ 191)

/-- A D word (02_encoding.md R64, R65). -/
def encodeD (op fn : Nat) (w : DWord) : Nat :=
  3 + op * 2 ^ 2 + w.wait.toNat * 2 ^ 9 + w.sig.toNat * 2 ^ 13 + w.cap1.toNat * 2 ^ 17 + w.cap2.toNat * 2 ^ 23 +
    w.nb.toNat * 2 ^ 29 + fn * 2 ^ 30 + encodeMSpec w.d * 2 ^ 32 + encodeMSpec w.s * 2 ^ 64

/-- The bits of an instruction and how many they are; none of a step that has no encoding. -/
def encode : Instr → Option (Nat × Nat)
  | .add d a b => some (32, encSA 0x01 d a b 0)
  | .sub d a b => some (32, encSA 0x01 d a b 1)
  | .mul d a b => some (32, encSA 0x01 d a b 2)
  | .mulh d a b => some (32, encSA 0x01 d a b 3)
  | .div d a b => some (32, encSA 0x01 d a b 4)
  | .rem d a b => some (32, encSA 0x01 d a b 5)
  | .and d a b => some (32, encSA 0x01 d a b 6)
  | .or d a b => some (32, encSA 0x01 d a b 7)
  | .xor d a b => some (32, encSA 0x01 d a b 8)
  | .sll d a b => some (32, encSA 0x01 d a b 9)
  | .srl d a b => some (32, encSA 0x01 d a b 10)
  | .sra d a b => some (32, encSA 0x01 d a b 11)
  | .slt d a b => some (32, encSA 0x01 d a b 12)
  | .sltu d a b => some (32, encSA 0x01 d a b 13)
  | .min d a b => some (32, encSA 0x01 d a b 14)
  | .max d a b => some (32, encSA 0x01 d a b 15)
  | .clz d a => some (32, encSA 0x01 d a 0 16)
  | .popc d a => some (32, encSA 0x01 d a 0 17)
  | .mov d a => some (32, encSA 0x01 d a 0 18)
  | .addi d a imm => some (32, encSB 0x02 d a imm.toNat)
  | .andi d a imm => some (32, encSB 0x03 d a imm.toNat)
  | .ori d a imm => some (32, encSB 0x04 d a imm.toNat)
  | .xori d a imm => some (32, encSB 0x05 d a imm.toNat)
  | .slli d a sh => some (32, encSB 0x06 d a sh.toNat)
  | .srli d a sh => some (32, encSB 0x07 d a sh.toNat)
  | .srai d a sh => some (32, encSB 0x08 d a sh.toNat)
  | .lih d imm => some (32, encSC 0x09 d imm.toNat)
  | .widf d a n => some (32, encSB 0x0A d a n.toNat)
  | .capBnd d a b => some (32, encSA 0x0B d a b 0)
  | .capPerm d a b => some (32, encSA 0x0B d a b 1)
  | .capInc d a b => some (32, encSA 0x0B d a b 2)
  | .capSeal d a b => some (32, encSA 0x0B d a b 3)
  | .capMov d a => some (32, encSA 0x0B d a 0 4)
  | .capClr d a => some (32, encSA 0x0B d a 0 5)
  | .capGet d a sel => some (32, encSB 0x0C d a sel.toNat)
  | .beq a b off => some (32, encSB 0x10 a b off.toNat)
  | .bne a b off => some (32, encSB 0x11 a b off.toNat)
  | .blt a b off => some (32, encSB 0x12 a b off.toNat)
  | .bge a b off => some (32, encSB 0x13 a b off.toNat)
  | .bltu a b off => some (32, encSB 0x14 a b off.toNat)
  | .bgeu a b off => some (32, encSB 0x15 a b off.toNat)
  | .jal d off => some (32, encSC 0x16 d off.toNat)
  | .jalr d a off => some (32, encSB 0x17 d a off.toNat)
  | .nest e a words levels => some (32, encSB 0x18 0 a (e.code + words.toNat * 2 ^ 2 + levels.toNat * 2 ^ 7))
  | .safept idx => some (32, encSC 0x19 0 idx.toNat)
  | .syncw mask => some (32, encSC 0x1A 0 mask.toNat)
  | .mfc d idx => some (32, encSB 0x1B d 0 idx.toNat)
  | .mtc d idx => some (32, encSB 0x1C d 0 idx.toNat)
  | .mset d idx => some (32, encSB 0x1D d 0 idx.toNat)
  | .mclr d idx => some (32, encSB 0x1E d 0 idx.toNat)
  | .ldB d a off => some (32, encSB 0x20 d a off.toNat)
  | .ldH d a off => some (32, encSB 0x21 d a off.toNat)
  | .ldW d a off => some (32, encSB 0x22 d a off.toNat)
  | .ldD d a off => some (32, encSB 0x23 d a off.toNat)
  | .ldQ d a off => some (32, encSB 0x24 d a off.toNat)
  | .stB d a off => some (32, encSB 0x25 d a off.toNat)
  | .stH d a off => some (32, encSB 0x26 d a off.toNat)
  | .stW d a off => some (32, encSB 0x27 d a off.toNat)
  | .stD d a off => some (32, encSB 0x28 d a off.toNat)
  | .stQ d a off => some (32, encSB 0x29 d a off.toNat)
  | .ldloc x u d a inc => some (32, encSB 0x2A d a (x.code + u.code * 2 ^ 3 + inc.toNat * 2 ^ 5))
  | .stloc x u d a inc => some (32, encSB 0x2B d a (x.code + u.code * 2 ^ 3 + inc.toNat * 2 ^ 5))
  | .pref lvl a off => some (32, encSB 0x2C (lvl.setWidth 6) a off.toNat)
  | .clwb a off => some (32, encSB 0x2D 0 a off.toNat)
  | .clinv a off => some (32, encSB 0x2E 0 a off.toNat)
  | .clinvI a off => some (32, encSB 0x2E 1 a off.toNat)
  | .fence s => some (32, encSC 0x30 0 s.code)
  | .ldacq x s d a => some (32, encSB 0x31 d a (x.code + s.code * 2 ^ 3))
  | .strel x s d a => some (32, encSB 0x32 d a (x.code + s.code * 2 ^ 3))
  | .lpbk => some (32, encSC 0x33 0 0)
  | .amoAdd o s d a b => some (32, encSA 0x34 d a b (s.code + o.code * 2 ^ 3))
  | .amoAnd o s d a b => some (32, encSA 0x35 d a b (s.code + o.code * 2 ^ 3))
  | .amoOr o s d a b => some (32, encSA 0x36 d a b (s.code + o.code * 2 ^ 3))
  | .amoXor o s d a b => some (32, encSA 0x37 d a b (s.code + o.code * 2 ^ 3))
  | .amoMin o s d a b => some (32, encSA 0x38 d a b (s.code + o.code * 2 ^ 3))
  | .amoMax o s d a b => some (32, encSA 0x39 d a b (s.code + o.code * 2 ^ 3))
  | .amoSwp o s d a b => some (32, encSA 0x3A d a b (s.code + o.code * 2 ^ 3))
  | .amoCas o s d a b => some (32, encSA 0x3B d a b (s.code + o.code * 2 ^ 3))
  | .take d a off => some (32, encSB 0x40 d a off.toNat)
  | .peek d a off => some (32, encSB 0x41 d a off.toNat)
  | .trytake d a off => some (32, encSB 0x42 d a off.toNat)
  | .putf d a off => some (32, encSB 0x43 d a off.toNat)
  | .putw d a off => some (32, encSB 0x44 d a off.toNat)
  | .empty a off => some (32, encSB 0x45 0 a off.toNat)
  | .full a off => some (32, encSB 0x46 0 a off.toNat)
  | .ptest d a off => some (32, encSB 0x47 d a off.toNat)
  | .mbinc a b => some (32, encSA 0x48 0 a b 0)
  | .mbincRel s a b => some (32, encSA 0x48 0 a b (s.code + 2 ^ 4))
  | .mbwait d a b => some (32, encSA 0x49 d a b 0)
  | .mbrd d a => some (32, encSA 0x4A d a 0 0)
  | .mbset a b => some (32, encSA 0x4B 0 a b 0)
  | .barinit a b => some (32, encSA 0x4C 0 a b 0)
  | .bararv d a => some (32, encSA 0x4D d a 0 0)
  | .barwait a b => some (32, encSA 0x4E 0 a b 0)
  | .bartest d a => some (32, encSA 0x4F d a 0 0)
  | .bartwait d a b => some (32, encSA 0x50 d a b 0)
  | .barjoin a slot => some (32, encSB 0x51 0 a slot.toNat)
  | .barexit => some (32, encSC 0x52 0 0)
  | .monarm a off => some (32, encSB 0x53 0 a off.toNat)
  | .monwait d a => some (32, encSA 0x54 d a 0 0)
  | .spawn a => some (32, encSA 0x55 0 a 0 0)
  | .spawnr a b => some (32, encSA 0x56 0 a b 0)
  | .codlt a b => some (32, encSA 0x57 0 a b 0)
  | .cdec a b => some (32, encSA 0x58 0 a b 0)
  | .amsg n d a b => some (32, encSA 0x59 d a b n.toNat)
  | .yield => some (32, encSC 0x5A 0 0)
  | .exit => some (32, encSC 0x5B 0 0)
  | .compose tall size d => some (32, encSB 0x5C d 0 (size.toNat + tall.toNat * 2 ^ 2))
  | .split => some (32, encSC 0x5D 0 0)
  | .gang size d => some (32, encSB 0x5E d 0 size.toNat)
  | .disband => some (32, encSC 0x5F 0 0)
  | .pfxl d a b => some (32, encSA 0x60 d a b 0)
  | .pfxi d a b => some (32, encSA 0x61 d a b 0)
  | .pfxdrop a b => some (32, encSA 0x62 0 a b 0)
  | .kvmap d a b => some (32, encSA 0x63 d a b 0)
  | .kvtrnc a b => some (32, encSA 0x64 0 a b 0)
  | .kvpin a b => some (32, encSA 0x65 0 a b 0)
  | .kvunpin a b => some (32, encSA 0x66 0 a b 0)
  | .attg a => some (32, encSA 0x67 0 a 0 0)
  | .fcall d a b => some (32, encSA 0x68 d a b 0)
  | .fwait d a => some (32, encSA 0x69 d a 0 0)
  | .ftest d a => some (32, encSA 0x6A d a 0 0)
  | .fcancel d a => some (32, encSA 0x6B d a 0 0)
  | .fdone a b => some (32, encSA 0x6C 0 a b 0)
  | .rngsv d => some (32, encSA 0x6D d 0 0 0)
  | .rngld a => some (32, encSA 0x6E 0 a 0 0)
  | .trap code => some (32, encSC 0x6F 0 code.toNat)
  | .eret => some (32, encSC 0x70 0 0)
  | .svc imm => some (32, encSC 0x71 0 imm.toNat)
  | .halt => some (32, encSC 0x72 0 0)
  | .brk imm => some (32, encSC 0x73 0 imm.toNat)
  | .blaze => some (32, encSC 0x74 0 0)
  | .rdcyc d => some (32, encSC 0x75 d 0)
  | .rdptp d => some (32, encSC 0x76 d 0)
  | .psave a => some (32, encSA 0x77 0 a 0 0)
  | .prest a => some (32, encSA 0x78 0 a 0 0)
  | .tlbfl s a b => some (32, encSA 0x79 0 a b s.code)
  | .fqtake d a => some (32, encSA 0x7A d a 0 0)
  | .fqdone a b => some (32, encSA 0x7B 0 a b 0)
  | .ctxkill a => some (32, encSA 0x7C 0 a 0 0)
  | .capgrant d a b => some (32, encSA 0x7D d a b 0)
  | .vadd w => some (96, encodeV 0x01 w)
  | .vsub w => some (96, encodeV 0x02 w)
  | .vmul w => some (96, encodeV 0x03 w)
  | .vfma w => some (96, encodeV 0x04 w)
  | .vfms w => some (96, encodeV 0x05 w)
  | .vfnma w => some (96, encodeV 0x06 w)
  | .vmin w => some (96, encodeV 0x07 w)
  | .vmax w => some (96, encodeV 0x08 w)
  | .vabs w => some (96, encodeV 0x09 w)
  | .vneg w => some (96, encodeV 0x0A w)
  | .vcmp w => some (96, encodeV 0x0B w)
  | .vsel w => some (96, encodeV 0x0C w)
  | .vand w => some (96, encodeV 0x10 w)
  | .vor w => some (96, encodeV 0x11 w)
  | .vxor w => some (96, encodeV 0x12 w)
  | .vnot w => some (96, encodeV 0x13 w)
  | .vshl w => some (96, encodeV 0x14 w)
  | .vshr w => some (96, encodeV 0x15 w)
  | .vsra w => some (96, encodeV 0x16 w)
  | .vcvt w => some (96, encodeV 0x18 w)
  | .vqnt w => some (96, encodeV 0x19 w)
  | .vdqnt w => some (96, encodeV 0x1A w)
  | .vmaxx w => some (96, encodeV 0x1B w)
  | .vsum w => some (96, encodeV 0x20 w)
  | .vrmax w => some (96, encodeV 0x21 w)
  | .vrmin w => some (96, encodeV 0x22 w)
  | .vperm w => some (96, encodeV 0x23 w)
  | .vbcast w => some (96, encodeV 0x24 w)
  | .vslide w => some (96, encodeV 0x25 w)
  | .viota w => some (96, encodeV 0x26 w)
  | .vexp w => some (96, encodeV 0x28 w)
  | .vlog w => some (96, encodeV 0x29 w)
  | .vrcp w => some (96, encodeV 0x2A w)
  | .vrsq w => some (96, encodeV 0x2B w)
  | .vsqrt w => some (96, encodeV 0x2C w)
  | .vdiv w => some (96, encodeV 0x2D w)
  | .vsin w => some (96, encodeV 0x2E w)
  | .vcos w => some (96, encodeV 0x2F w)
  | .vtanh w => some (96, encodeV 0x30 w)
  | .vsig w => some (96, encodeV 0x31 w)
  | .vrng w => some (96, encodeV 0x32 w)
  | .vld w => some (96, encodeV 0x38 w)
  | .vst w => some (96, encodeV 0x39 w)
  | .vlds w => some (96, encodeV 0x3A w)
  | .vsts w => some (96, encodeV 0x3B w)
  | .vgth w => some (96, encodeV 0x3C w)
  | .vsct w => some (96, encodeV 0x3D w)
  | .vmovgs w => some (96, encodeV 0x3E w)
  | .vmovsg w => some (96, encodeV 0x3F w)
  | .pand w => some (96, encodeV 0x40 w)
  | .por w => some (96, encodeV 0x41 w)
  | .pnot w => some (96, encodeV 0x42 w)
  | .pcnt w => some (96, encodeV 0x43 w)
  | .tcfg w => some (192, encodeM 0x01 w)
  | .tld w => some (192, encodeM 0x02 w)
  | .tst w => some (192, encodeM 0x03 w)
  | .tzero w => some (192, encodeM 0x04 w)
  | .ttr w => some (192, encodeM 0x05 w)
  | .mma w => some (192, encodeM 0x08 w)
  | .mmam w => some (192, encodeM 0x09 w)
  | .accld w => some (192, encodeM 0x0C w)
  | .accst w => some (192, encodeM 0x0D w)
  | .acccvt w => some (192, encodeM 0x0E w)
  | .ngo w => some (192, encodeM 0x10 w)
  | .nwait w => some (192, encodeM 0x11 w)
  | .dcpy w => some (96, encodeD 0x01 0 w)
  | .dredAdd w => some (96, encodeD 0x02 0 w)
  | .dredMax w => some (96, encodeD 0x02 1 w)
  | .dredMin w => some (96, encodeD 0x02 2 w)
  | .dgth w => some (96, encodeD 0x03 0 w)
  | .dsct w => some (96, encodeD 0x04 0 w)
  | .dgetMb w => some (96, encodeD 0x05 0 w)
  | .dgetEv w => some (96, encodeD 0x05 1 w)
  | .dput w => some (96, encodeD 0x06 0 w)
  | .dputF w => some (96, encodeD 0x06 1 w)
  | .dstrm w => some (96, encodeD 0x08 0 w)
  | .dunb w => some (96, encodeD 0x09 0 w)
  | .dshd w => some (96, encodeD 0x0C 0 w)
  | .dpub w => some (96, encodeD 0x0D 0 w)
  | .dstamp w => some (96, encodeD 0x0E 0 w)
  | .dwaitAll w => some (96, encodeD 0x10 0 w)
  | .dwaitTok w => some (96, encodeD 0x10 1 w)
  | .dsig w => some (96, encodeD 0x11 0 w)
  | .kvwr w => some (96, encodeD 0x18 0 w)
  | .ktTake rd rs => some (32, 0x0B + rd.toNat * 2 ^ 7 + rs.toNat * 2 ^ 15)
  | .ktMark rd rs => some (32, 0x100B + rd.toNat * 2 ^ 7 + rs.toNat * 2 ^ 15)
  | .kettleCompletionSwap _ _ _ | .kettleTestedAccess _ | .sWalkerPassWord | .branchOutcomeConsume _
  | .nestReplayIteration _ | .sLoadReturn _ _ | .pageWalkComplete _ | .trapEntry _ | .interruptTake _
  | .cycleCompareMatch | .safePointOverrun | .ownershipFlipRequest _ _ _ | .ownershipFlipComplete
  | .ownershipStallTimeout | .postedStoreArrive _ | .remoteAccessArrive _ | .taggedArrival _
  | .heldArrivalOverrun | .presenceWaitResend | .mailboxIncrementArrive _ _ | .bartwaitTimeout
  | .monwaitWake _ _ | .monwaitTimeout | .taskStart | .stealProbe _ | .stealServe _ | .stealRecordsArrive _
  | .remotePushArrive _ _ | .remotePushResend | .codltApply _ _ | .cdecApply _ _ | .amsgArrive _
  | .amsgRefusalArrive _ _ | .parkTimeout | .gangSliceInstant _ | .partitionSwap _ _ | .groupWatchdogExpiry
  | .vmaxxRelease | .vmaxxWatchdogExpiry | .streamStripFetch _ | .streamStripReturn _ | .mWordStart
  | .mWordComplete _ | .mNestIteration | .dCommandStart | .dCommandComplete _ | .reductionUnitApply _
  | .reductionResend | .reductionEndNotice _ | .futureTimeout _ | .injectGranule | .remoteCompletion _
  | .kvPrefetchServe | .fellPropose _ _ | .fellDeadlineExpiry _ | .fellExecute | .fellactConfirm _
  | .fellactVeto _ | .fellactMoveFront _ | .rankTableWrite _ _ _ | .dbgctlHaltreq | .dbgctlResume | .dbgctlStep
  | .debugStepDone | .debugViewWrite _ _ | .doorbellWrite | .coreResumeWrite | .ctxSuspend _ | .ctxResume _
  | .ctxBeginTeardown _ | .toolRingWrite _ _ | .fqringWrite _ | .ppringWrite _ | .ppputWrite _ | .pptakeRead _
  | .hostQueuePost _ | .sqcfgWrite _ | .sqTailWrite _ | .storageRequestComplete _ _ _
  | .extentGrantInstall _ _ _ | .attestationRequest _ | .ldrdbWrite _ | .loaderEntry _ | .hostdbWrite _
  | .blztrigWrite | .blzctlUnlock | .blazePinTrigger | .blazeTimeTrigger | .blazeLatch | .powerOnBringUp _
  | .junctionThrottle _ | .clockStepRestore _ | .thermalTrip | .lowFlowTrip | .inputDisconnect
  | .overvoltageEvent | .coolantEvent | .slackThrottle _ _ | .marginReplan _ _ | .linkFlitRetry _ _
  | .planeOutOfService _ | .uePacketArrival _ | .slipwWrite _ | .cwwinWrite _ | .scgrpWrite _ | .mxcfgWrite _
  | .kvdirWrite _ | .intpendClear _ | .registerWrite _ _ | .timeServoLockLoss | .timeServoLockRegain _
  | .partitionUnbind _ | .shadowReservationChange _ _ | .spareCoreReplacement _ _ | .moduleReset
  | .hostCoherentAccess _ _ _ | .storeBufferPerform _ => none

/-- The bytes of an instruction's word (02_encoding.md R41); none of a step that has no encoding. -/
def encodeBytes (i : Instr) : Option (List Byte) :=
  match encode i with
  | some (n, w) => some (leBytes (n / 8) w)
  | none => none

end Sys2Proof
end

