-- ==== Sys2Proof/Machine/State.lean ====
section
/-! DEFINITION. The state of the Rosone XN-4: the cores with their four engines, memory with its capability tags and
poison marks, the hub and the module, as plain data; and the state right after reset. -/

namespace Sys2Proof

/-- The zero of the general file, which g0 reads (02_encoding.md R52) and every register holds at reset (log entry
2). -/
def GVal.zero : GVal := { bits := 0#128, tag := false }

end Sys2Proof

namespace Sys2Proof.Machine

/-- The faults that stop the machine: there are none, since the spec gives every step an effect. -/
inductive Fault
  deriving DecidableEq, Repr

/-- The refusals of the machine. -/
inductive Refusal where
  /-- Raised by an arm of `exec` whose instruction has no meaning yet. Safe: nothing is claimed of it. -/
  | notModelled (mnemonic : String)
  deriving DecidableEq, Repr

/-- Sparse bytes: strictly rising keys, no entry equal to zero, which every unlisted key reads as. -/
abbrev Mem := List Host.Cell

/-- The control registers of one core, each at its own width with reserved bits zero. Fields that are computed
from other state are not held here. -/
structure Ctl where
  slipw    : BitVec 32
  spdist   : BitVec 32
  sptbase  : BitVec 64
  sptlen   : BitVec 32
  spidx    : BitVec 32
  widw     : BitVec 64
  ptroot   : BitVec 64
  pkg      : BitVec 18
  cwwin    : BitVec 32
  memcfg   : BitVec 32
  ownwait  : BitVec 32
  arflg    : BitVec 32
  rngctr   : BitVec 128
  rngkey   : BitVec 64
  scgrp    : BitVec 32
  prsovf   : BitVec 32
  barslot  : Vector (BitVec 128) 4
  monctl   : BitVec 64
  dqcfg    : BitVec 32
  stealcfg : BitVec 32
  parkt    : BitVec 32
  amsgst   : BitVec 128
  ctxbase  : BitVec 64
  grpstat  : BitVec 64
  msgcfg   : BitVec 32
  grpwd    : BitVec 32
  cdecerr  : BitVec 32
  tshp     : Vector (BitVec 32) 8
  mxcfg    : BitVec 32
  mxerr    : BitVec 32
  evqbase  : BitVec 32
  evqptr   : BitVec 64
  kvdir    : BitVec 64
  kvstat   : BitVec 32
  pfqbase  : BitVec 64
  calltab  : BitVec 64
  futst    : BitVec 64
  trapbase : BitVec 64
  framebase : BitVec 32
  tstate   : BitVec 32
  inten    : BitVec 32
  intpend  : BitVec 32
  parkon   : BitVec 64
  cyccmp   : BitVec 64
  deriving DecidableEq, Repr

/-- One entry of the branch-outcome queue, with the walkers that have consumed it (04_scalar.md R113). -/
structure BranchOut where
  taken  : Bool
  target : Word64
  byV    : Bool
  byM    : Bool
  byD    : Bool
  deriving DecidableEq, Repr

/-- One entry of a capture queue: the captured values in their order, with the word that they are for, where it is a legal
one, and its position, which the range checker orders it by (04_scalar.md R112, R116); or the descriptor of a NEST word
(R119). -/
inductive CapEntry where
  | vals (l : List GVal) (op : Option Instr := none) (pos : BitVec 32 := 0#32)
  | nest (desc : List Byte)
  deriving DecidableEq, Repr

/-- A result latch of the V engine (10_vector.md R296, 15_system.md R433): whether it writes a predicate register,
which register, the V steps that remain, and the value. -/
structure Latch where
  isPred : Bool
  index  : BitVec 5
  remain : Nat
  value  : VReg
  deriving DecidableEq, Repr

/-- One word of a loop buffer: the word, its address, its captured values and its position, by which the range checker and
the tokens order it (04_scalar.md R115, R116, R122; 11_matrix.md R333). -/
structure BodyWord where
  op   : Instr
  pc   : Word64
  caps : List GVal
  pos  : BitVec 32 := 0#32
  deriving DecidableEq, Repr

/-- The nest state of an engine (04_scalar.md R119 to R123): the descriptor, the words of the body captured so far,
the index vector with the innermost level first, the body position, and for the M engine whether NGO has handed the
nest to the address generators. -/
structure Nest where
  desc   : List Byte
  words  : Nat
  levels : Nat
  body   : List BodyWord
  index  : List Nat
  pos    : Nat
  going  : Bool
  sig    : BitVec 4
  ngo    : BitVec 32 := 0#32
  deriving DecidableEq, Repr

/-- The units of the M engine; TCFG, TZERO, NGO and NWAIT occupy none (11_matrix.md R332). -/
inductive MUnit where
  | none | path | transpose | array | convert
  deriving DecidableEq, Repr

/-- What an M word reads and writes of the tiles (bits 0 to 7) and of the accumulators (bits 8 and 9), and its unit (11_matrix.md
R332). -/
structure MUse where
  rd   : BitVec 10 := 0#10
  wr   : BitVec 10 := 0#10
  unit : MUnit := .none
  deriving DecidableEq, Repr

/-- An M word that has started and not completed: its token, the flags it raised, its position, whether it belongs to
the last nest, what it uses and whether its occupancy lasts, and the position of the NGO that runs it (11_matrix.md R332, R333,
R340, R341). -/
structure MStarted where
  sig   : BitVec 4
  flags : BitVec 6
  pos   : BitVec 32 := 0#32
  nest  : Bool := false
  use   : MUse := {}
  busy  : Bool := true
  ngo   : Option (BitVec 32) := none
  deriving DecidableEq, Repr

/-- How far a D command is (12_copy.md R350, R355): in the queue, transferring units, refused by a reduction's
destination until it is sent again, or with every byte performed. -/
inductive DPhase where
  | queued | moving | refused | moved
  deriving DecidableEq, Repr

/-- How far a KVWR is (13_kv.md R393, 12_copy.md R353): before its rows are read, before its metadata step, copying the pages of a
record that it holds to those of a fresh one of the same tree, from a page on, writing one half of the token's row in a record, or
done. -/
inductive KvStage where
  | read | decide
  | copy (tree old new view page : Nat)
  | rows (tree r half : Nat)
  | done
  deriving DecidableEq, Repr

/-- A command of the D queue (12_copy.md R350, R353): its word, address, position, captured values, the displacements of
a nest, its command number and the core that issued it (R355), phase, units done and flags raised, whether its source
and destination overlap, so that it goes as one unit (R358), the source bytes that it has read ahead, with the poisoned ones,
those of a KVWR or of a reduction whose destination overlaps its source, and how far a KVWR is. -/
structure DCmd where
  op    : Instr
  pc    : Word64
  pos   : BitVec 32
  caps  : List GVal
  dispD : Int
  dispS : Int
  num   : BitVec 16
  phase : DPhase
  done  : Nat
  flags : BitVec 6
  core  : BitVec 12 := 0#12
  whole : Bool := false
  taken : Option (Mem × List Nat) := none
  kv    : KvStage := .read
  deriving DecidableEq, Repr

/-- A strip of a stream register: its bits, or the fault its pop takes (12_copy.md R363). -/
inductive Strip where
  | ready (bits : VReg)
  | faulted (t : Trap)
  deriving DecidableEq, Repr

/-- The binding of one of v24 to v31 (12_copy.md R362 to R365), with the position of its DSTRM until every earlier access has been
performed (R363), and the cycle since which the next strip stalls on a page in transit (06_ordering.md R206). -/
structure Binding where
  mode  : BitVec 2
  desc  : List Byte
  src   : GVal
  count : Nat
  asked : Nat
  ahead : List Strip
  after : Option (BitVec 32) := none
  since : Option Nat := none
  deriving DecidableEq, Repr

/-- A store that waits in the store buffer (05_memory.md R164, R176): its single-copy atomic pieces that are not yet
performed, in ascending order (R173, 06_ordering.md R191), whether it sets a capability tag, whether it went by the alias
(R150), and whether it is a release write (R193). -/
structure Buffered where
  pieces : List (Nat × List Byte)
  tag    : Bool := false
  byAlias : Bool := false
  rel    : Bool := false
  deriving DecidableEq, Repr

/-- An S load that has not returned (05_memory.md R164): its register, the single-copy atomic pieces still to be read, each
with the bytes that stood there when the load was issued, the bytes read so far, whether the tag of its unit is kept and
whether it was set at issue, whether it went by the alias (R150), how many of the core's posted stores to each of its
destinations must be performed before it (06_ordering.md R189), the post-update of LDLOC that its register takes after it
(05_memory.md R177), the operation of an atomic of order none with its operands (06_ordering.md R200, R201), and whether it
is the read of an acquire, behind which the other walkers wait (R194). -/
structure PendingLoad where
  d      : GIdx
  parts  : List (Nat × List Byte)
  got    : List Byte := []
  tag    : Bool := false
  tagWas : Bool := false
  byAlias : Bool := false
  after  : List (Nat × Nat) := []
  upd    : Option (Width × Update × BitVec 6) := none
  amo    : Option (Nat × Word64 × Word64) := none
  acq    : Bool := false
  deriving DecidableEq, Repr

/-- A line of the L1 instruction cache: its address and bytes (05_memory.md R161). -/
structure ILine where
  addr  : Nat
  bytes : List Byte
  deriving DecidableEq, Repr

/-- A translation that a TLB holds: partition, virtual page, log2 of its size, and the leaf (05_memory.md R169). -/
structure TlbEntry where
  pid  : Nat
  va   : Nat
  size : Nat
  leaf : BitVec 64
  deriving DecidableEq, Repr

/-- A pointer entry that a walk cache holds: partition, the virtual address it covers, log2 of what it covers, and the table
it names (05_memory.md R169). -/
structure PtrEntry where
  pid   : Nat
  va    : Nat
  size  : Nat
  table : Nat
  deriving DecidableEq, Repr

/-- An access that waits for a walk: its core and what it translates, the engine whose access it is, none for a prefetch, and,
where an interrupt has left its word, the index of the frame in which the walk's end is recorded (05_memory.md R170,
15_system.md R430). -/
structure MissWait where
  core : Nat
  walk : Walk
  eng  : Option Engine := none
  post : Option Nat := none
  deriving DecidableEq, Repr

/-- A miss-status entry: the partition and the 64 KiB virtual page of the walk, and the accesses joined to it
(05_memory.md R170). -/
structure Miss where
  pid   : Nat
  page  : Nat
  waits : List MissWait
  deriving DecidableEq, Repr

/-- The translation hardware of a cluster: the second-level TLB, the walk cache, the miss-status entries and the queue of
the misses that find none free, the oldest first (05_memory.md R169, R170). -/
structure Mmu where
  tlb    : List TlbEntry
  ptrs   : List PtrEntry
  misses : List Miss
  queue  : List Miss
  deriving DecidableEq, Repr

/-- A tagged arrival that its destination holds, with the cycle at which its limit expires (07_sync.md R216). -/
structure Held where
  arr   : Arrival
  until_ : Nat
  deriving DecidableEq, Repr

/-- What a blocked word waits for. -/
inductive WaitOp where
  /-- TAKE: the destination register and the offset of the 16 bytes (07_sync.md R220). -/
  | take (d : GIdx)
  /-- PEEK. -/
  | peek (d : GIdx)
  /-- PUTW: the arrival is held at its destination (07_sync.md R223). -/
  | putw
  /-- MBWAIT with its target (07_sync.md R227). -/
  | mbwait (d : GIdx) (target : BitVec 32)
  /-- BARWAIT with the generation it leaves (07_sync.md R232). -/
  | barwait (gen : BitVec 32)
  /-- BARTWAIT. -/
  | bartwait (d : GIdx) (gen : BitVec 32)
  /-- MONWAIT (07_sync.md R235). -/
  | monwait (d : GIdx)
  /-- FWAIT on a future's entry (14_futures.md R415). -/
  | fwait (d : GIdx) (entry : BitVec 14)
  /-- The pushes of a word that finds the deque full, in their order; those of ATTG are not abandoned (08_tasks.md R247,
  13_kv.md R398). -/
  | push (l : List Record) (kept : Bool)
  /-- A request that the hub has accepted and not answered (13_kv.md R385, 15_system.md R443). -/
  | hub
  /-- A task whose park finds no frame, waiting on a fault-queue entry, with the fault that its frame recorded (15_system.md
  R434, R441). -/
  | faultEntry (seq : BitVec 32) (pf : Option Trap)
  deriving DecidableEq, Repr

/-- A blocked word: what it waits for, the cycle since which it waits, and the cycle of its own timeout. -/
structure Blocked where
  op       : WaitOp
  since    : Nat
  deadline : Option Nat
  deriving DecidableEq, Repr

/-- A waiting request at its owner's interface (07_sync.md R221): the core it comes from, the park frame its reply
goes to once that task is parked (08_tasks.md R265), the operation, the local offset it waits on, the cycle of a
BARTWAIT's timeout, which runs on while its task is parked, and the package and core of a request from another package,
whose `src` is 4,096, the rank of no core here. -/
structure WaitReq where
  src   : Nat
  frame : Option Nat
  op    : WaitOp
  off   : Nat
  deadline : Option Nat := none
  away  : Option (BitVec 18 × BitVec 12) := none
  deriving DecidableEq, Repr

/-- What a word asks of the hub (13_kv.md R385 to R392; 15_system.md R443): a lookup with the key of its buffer, its tokens and
PROBE; an insertion; a removal; a truncation; a pin or an unpin of a record with its tree, index, generation and count; or the
end of a context. -/
inductive HubOp where
  | lookup (key : Nat) (toks : List (BitVec 32)) (probe : Bool)
  | insert (toks : List (BitVec 32))
  | remove (toks : List (BitVec 32))
  | truncate (n : Nat)
  | pin (tree record : Nat) (gen : BitVec 16) (n : Nat)
  | unpin (tree record : Nat) (gen : BitVec 16) (n : Nat)
  | kill
  deriving DecidableEq, Repr

/-- A request at the hub: the core, the park frame that its reply goes to once its task is parked, the partition, the register of
the result, the context, the address of the word's operand, and whether its tokens hold a poisoned byte. -/
structure HubReq where
  core  : Nat
  frame : Option Nat
  pid   : Nat
  d     : GIdx
  ctx   : BitVec 16
  x     : Word64
  bad   : Bool
  op    : HubOp
  deriving DecidableEq, Repr

/-- Something an interface sends again after 64 cycles (07_sync.md R221, 08_tasks.md R247). -/
inductive Resend where
  | wait (dst : Nat) (r : WaitReq)
  | push (dst : Nat) (r : Record)
  deriving DecidableEq, Repr

/-- The applied record of a reduction (12_copy.md R355): the command, its low mark and the units applied above it. -/
structure Applied where
  id    : RedId
  low   : Nat
  above : List Nat
  deriving DecidableEq, Repr

/-- A core's part in a group (09_compose.md R270 to R273, R279). -/
inductive Group where
  | single
  | composeLead (members : List Nat)
  | gangLead (members : List Nat)
  | member (leader : Nat) (gang : Bool)
  deriving DecidableEq, Repr

/-- The snapshot registers of a core (15_system.md R454). -/
structure CoreSnap where
  cycle : BitVec 64
  pcS   : BitVec 64
  pcV   : BitVec 64
  pcM   : BitVec 64
  pcD   : BitVec 64
  word  : BitVec 64
  seq   : BitVec 32
  deriving DecidableEq, Repr

/-- A VMAXX that has sent its contribution and waits for the release, with the cycles that its wait counts (10_vector.md R321
to R324). -/
structure MaxxWait where
  op    : Instr
  caps  : List GVal
  round : BitVec 8
  waited : Nat
  deriving DecidableEq, Repr

/-- Why the S walker stands at a word that is neither blocked nor trapped: a hold of one of the rules named. -/
inductive Hold where
  /-- An engine must reach, execute or complete earlier words (04_scalar.md R114, R115, R129, R146). -/
  | engines
  /-- A full capture, outcome, store or load queue (04_scalar.md R112, R113, 05_memory.md R164). -/
  | queueFull
  /-- A page in transit, at the address of the access (06_ordering.md R205, R206). -/
  | ownTransit (va : Word64)
  /-- A rank in transit (05_memory.md R155). -/
  | rankTransit
  /-- A walk of the page under way, or no room for one more (05_memory.md R170). -/
  | pageWalk
  deriving DecidableEq, Repr

/-- What the own-form areas of a frame name by a handle: the nests, the D queue, what each walker has consumed of the
branch outcomes, the words of the capture queues' entries, the record of the task, the place in the D queue of the command
that a fault stopped, the faulted strips of the stream bindings, and the registers that were live (15_system.md R432,
12_copy.md R353, R365, 04_scalar.md R125, log entry 7). -/
structure EngSave where
  nestS : Option Nest
  nestV : Option Nest
  nestM : Option Nest
  nestD : Option Nest
  dq    : List DCmd
  eaten : List (Bool × Bool × Bool)
  capV  : List (Option Instr × BitVec 32)
  capM  : List (Option Instr × BitVec 32)
  capD  : List (Option Instr × BitVec 32)
  task  : Option Record
  passing : Bool
  dfault : Option Nat := none
  strips : List (List Strip) := []
  live   : BitVec 128 := BitVec.allOnes 128
  deriving DecidableEq, Repr

/-- One Dorvan core. -/
structure Core where
  -- register files (01_machine.md R15)
  g        : Vector GVal 64
  v        : Vector VReg 32
  p        : Vector (BitVec 128) 8
  tile     : Vector Mem 8
  acc      : Vector Mem 2
  mail     : Vector (BitVec 32) 256
  pres     : BitVec 8192
  ctl      : Ctl
  -- walkers (04_scalar.md R112 to R117); the S walker stands at the address of codecap
  codecap  : GVal
  pcV      : Word64
  pcM      : Word64
  pcD      : Word64
  posS     : BitVec 32
  posV     : BitVec 32
  posM     : BitVec 32
  posD     : BitVec 32
  outcomes : List BranchOut
  capV     : List CapEntry
  capM     : List CapEntry
  capD     : List CapEntry
  nestS    : Option Nest
  nestV    : Option Nest
  nestM    : Option Nest
  nestD    : Option Nest
  -- V, M and D engines
  latches  : List Latch
  maxx     : Option MaxxWait
  vwait    : Option Nat
  mwords   : List MStarted
  residue  : List (BitVec 7)
  dq       : List DCmd
  dnum     : BitVec 16
  dfault   : Option Nat
  binds    : Vector Binding 8
  -- the S engine's accesses
  stores   : List Buffered
  loads    : List PendingLoad
  icache   : List ILine
  tlb      : List TlbEntry
  bypass   : Bool
  -- the interface
  held     : List Held
  waitq    : List WaitReq
  resend   : List Resend
  applied  : List Applied
  evqSeq   : BitVec 64
  monLine  : Option (Nat × Nat)
  -- tasks
  hw       : List Record
  ringHead : Nat
  ringN    : Nat
  rootRing : List (Nat × Record)
  push     : List Record
  resumes  : List Nat
  task     : Option Record
  blocked  : Option Blocked
  hold     : Option (Hold × Nat)
  stalls   : List (Engine × Hold × Nat)
  passing  : Bool
  slice    : Bool
  swap     : Bool
  groupEnd : Bool
  killed   : Bool
  msgUsed  : BitVec 256
  msgNext  : Nat
  stealPos : Nat
  sweep    : Nat
  lfsr     : BitVec 32
  probing  : Bool
  group    : Group
  reserved : Bool
  lastOut  : Option (Bool × Word64)
  sent     : List (BitVec 32 × Nat)
  owed     : Nat
  owedPos  : List (BitVec 32)
  -- debug (15_system.md R451)
  pendTrap : Option Trap
  pendHalt : Option (BitVec 4)
  halt     : Option (BitVec 4)
  brken    : Bool
  blzhalt  : Bool
  stepping : Bool
  snap     : CoreSnap
  deriving DecidableEq, Repr

/-- A memory range of a partition (08_tasks.md R237): physical base, length and permissions. -/
structure MemRange where
  base : Nat
  len  : Nat
  perm : BitVec 12
  deriving DecidableEq, Repr

/-- Who waits on a fault-queue entry (15_system.md R441, R442): the core, its task's park frame unless the task stays blocked
there, and the walker and the address at which the task faulted. -/
structure FaultWaiter where
  core  : Nat
  frame : Option Nat
  walker : Engine := .s
  addr  : Word64 := 0#64
  deriving DecidableEq, Repr

/-- A posted fault-queue entry (15_system.md R439), with its slot in the ring and its waiters. STATUS is 0 pending,
1 taken, 2 done. -/
structure FaultEntry where
  seq     : BitVec 32
  slot    : Nat
  page    : BitVec 64
  ctx     : BitVec 16
  core    : BitVec 16
  kind    : AccessKind
  walker  : Engine
  status  : BitVec 8
  merged  : BitVec 32
  waiters : List FaultWaiter
  deriving DecidableEq, Repr

/-- The fault queue of a partition (15_system.md R438, R449): FQRING and FQMB as written, the counts of FQPTR,
FQLOST, the next sequence number, and the entries in ring order. -/
structure FaultQueue where
  ring    : Option (Nat × Nat)
  mb      : BitVec 64
  posted  : BitVec 32
  done    : BitVec 32
  lost    : BitVec 64
  nextSeq : BitVec 32
  entries : List FaultEntry
  deriving DecidableEq, Repr

/-- The park-frame pool of a partition (08_tasks.md R264): the ring's base and LOG, the index of the oldest entry,
the free frames, the frames in use and the refused additions. -/
structure ParkPool where
  ring    : Option (Nat × Nat)
  head    : Nat
  free    : Nat
  inUse   : Nat
  refused : BitVec 16
  deriving DecidableEq, Repr

/-- An ownership flip under way (06_ordering.md R205): the leaf's physical address, the virtual page and the new
owner. -/
structure Flip where
  leaf : Nat
  va   : Nat
  host : Bool
  deriving DecidableEq, Repr

/-- A storage request that the hub has read and not completed (19_integration.md R495). -/
structure StorageReq where
  index  : BitVec 16
  status : Option (BitVec 8)
  write  : Bool
  buf    : BitVec 64
  len    : Nat
  mb     : Option (BitVec 12 × BitVec 8)
  deriving DecidableEq, Repr

/-- The storage queue of a partition (19_integration.md R495): SQCFG, the tail, HEAD, the ignored tail stores, and
the requests read and not yet passed by HEAD. -/
structure StorageQueue where
  cfg     : BitVec 64
  tail    : BitVec 16
  head    : BitVec 16
  ignored : BitVec 16
  reqs    : List StorageReq
  deriving DecidableEq, Repr

/-- The saved state of a core whose partition is swapped out (08_tasks.md R268, 15_system.md R444): the core, its
local memory and its capability tags and poison marks. -/
structure CoreImage where
  rank   : Nat
  core   : Core
  mem    : Mem
  ctags  : List Nat
  poison : List Nat
  deriving DecidableEq, Repr

/-- A contribution to a scale group (10_vector.md R322, R324): core, round, the rectangle it names, format and
value. -/
structure Contribution where
  core  : Nat
  round : BitVec 8
  logn  : BitVec 3
  tall  : Bool
  fmt   : BitVec 4
  value : VReg
  deriving DecidableEq, Repr

/-- A rectangle and round whose members disagreed in shape (10_vector.md R324): a member's core, the shape and the round, and
the members whose words the disagreement has answered. -/
structure Mismatch where
  core  : Nat
  logn  : BitVec 3
  tall  : Bool
  round : BitVec 8
  done  : List Nat
  deriving DecidableEq, Repr

/-- A bound partition, with what its cores have left in the combining hardware and in the home slices while it is swapped out
(10_vector.md R323, 12_copy.md R355; 01_machine.md R31, 08_tasks.md R237 to R239). -/
structure Part where
  pid      : Nat
  clusters : List Nat
  ctxFirst : Nat
  ctxCount : Nat
  futQuota : Nat
  shadow   : Nat
  ranges   : List MemRange
  ptroot   : BitVec 64
  ctxbase  : BitVec 64
  code     : GVal
  digest   : BitVec 256
  resident : Bool
  saved    : List CoreImage
  maxx     : List Contribution
  maxxBad  : List Mismatch
  applied  : List (Nat × Applied) := []
  fq       : FaultQueue
  pool     : ParkPool
  sq       : StorageQueue
  hostSeq  : BitVec 32
  pending  : Bool
  flip     : Option Flip
  flipStat : BitVec 8
  kvRead   : Bool
  killed   : List (BitVec 16)
  overflow : List (BitVec 16)
  deriving DecidableEq, Repr

/-- A window of a call (14_futures.md R402, R407): physical base, length, and whether it grants loads, stores and
fetches. -/
structure CallWin where
  base : Nat
  len  : Nat
  rd   : Bool
  wr   : Bool
  ex   : Bool
  deriving DecidableEq, Repr

/-- Who waits on a future (14_futures.md R415): the core, the park frame once it is parked, and the register. -/
structure FutWaiter where
  core  : Nat
  frame : Option Nat
  d     : GIdx
  deriving DecidableEq, Repr

/-- An entry of the future table with its continuation slot, window store and waiting place (14_futures.md R402). -/
structure Fut where
  state    : BitVec 3
  taken    : Bool
  remote   : Bool
  inject   : Bool
  rstatus  : BitVec 8
  wins     : List CallWin
  gen      : BitVec 18
  ctx      : BitVec 16
  home     : BitVec 12
  pid      : Nat
  tool     : BitVec 16
  deadline : BitVec 64
  replywin : BitVec 4
  replylen : BitVec 32
  pfqpos   : BitVec 32
  taker    : BitVec 16
  ring     : BitVec 16
  slot     : Nat
  auth     : BitVec 64
  order    : Nat
  cont     : Option Record
  waiter   : Option FutWaiter
  deriving DecidableEq, Repr

/-- A tool ring (14_futures.md R408): its fields, the slots in use with the entries that hold them, and where the
engine looks for the next free slot. -/
structure ToolRing where
  valid : Bool
  pid   : Nat
  base  : Nat
  log   : Nat
  used  : List (Nat × Nat)
  next  : Nat
  deriving DecidableEq, Repr

/-- An injection under way (14_futures.md R411): the future's entry, its context and home core, the queue's offset
and LOG, the granules not yet sent, each with its poisoned bytes, the index of the first granule and of the next, and whether
a granule that was sent is neither applied nor discarded. One without a queue stands for a future of a partition that is
swapped out, whose other steps wait for its return (R412). -/
structure Injection where
  entry : Nat
  pid   : Nat
  ctx   : BitVec 16
  home  : BitVec 12
  off   : Nat
  log   : Nat
  queue : Bool := true
  left  : List (List Byte × List Nat)
  first : Nat
  next  : Nat
  wait  : Bool
  deriving DecidableEq, Repr

/-- A node of a Canopy tree (13_kv.md R379), with its children and the extension nodes that hold more of them. -/
structure Node where
  index    : Nat
  run      : List (BitVec 32)
  final    : Bool
  parent   : Nat
  span     : Option Nat
  depth    : Nat
  lastUse  : BitVec 32
  children : List Nat
  ext      : List Nat
  deriving DecidableEq, Repr

/-- A span record (13_kv.md R381). -/
structure SpanRec where
  index : Nat
  ref   : Nat
  hold  : Nat
  valid : Nat
  free  : Bool
  gen   : BitVec 16
  nodes : Nat
  deriving DecidableEq, Repr

/-- A tree whose directory entry the hub has read (13_kv.md R377, R378). A node or record that is not listed is free,
a record then with GEN 0. -/
structure Tree where
  pid      : Nat
  index    : Nat
  valid    : Bool
  nodebase : Nat
  nodecnt  : Nat
  spancnt  : Nat
  spanbase : Nat
  pagebase : Nat
  layers   : Nat
  lowmark  : Nat
  nodes    : List Node
  recs     : List SpanRec
  deriving DecidableEq, Repr

/-- An entry of the felling queue (13_kv.md R394 to R396): whether firmware has confirmed it, the cycle of its
deadline, and whether its counter has reached 0. -/
structure FellEntry where
  pid       : Nat
  tree      : Nat
  record    : Nat
  gen       : BitVec 16
  node      : Nat
  confirmed : Bool
  expired   : Bool
  due       : Nat
  deriving DecidableEq, Repr

/-- A prefetch on its way to the hub (13_kv.md R392). -/
structure Prefetch where
  pid    : Nat
  tree   : Nat
  record : Nat
  gen    : BitVec 16
  layer  : Nat
  pkg    : BitVec 18
  dst    : BitVec 12
  off    : BitVec 19
  deriving DecidableEq, Repr

/-- The privilege of a Kettle core (14_futures.md R419). -/
inductive KLevel where
  | u | vu | vs | hs | m
  deriving DecidableEq, Repr

/-- The call that a Kettle core holds (14_futures.md R420, R423). -/
structure KHold where
  entry  : Nat
  handle : BitVec 32
  ring   : BitVec 6
  wins   : List CallWin
  recAddr : BitVec 48
  replywin : BitVec 4
  deriving DecidableEq, Repr

/-- A Kettle core: the integer registers, the program counter, the level, the custom CSRs of 14_futures.md R420, the
ring it took last, the CSRs that an exception to HS-mode or to M-mode writes (R419, R421, R423; log entry 12), the element at
which a vector access stopped (R421), and the bytes of an LR reservation (R419). -/
structure Kettle where
  x        : Vector (BitVec 64) 32
  pc       : BitVec 64
  level    : KLevel
  on       : Bool
  kring    : BitVec 64
  hold     : Option KHold
  kcode    : BitVec 64
  kcodelen : BitVec 64
  lastRing : BitVec 6
  stvec    : BitVec 64
  sepc     : BitVec 64
  scause   : BitVec 64
  stval    : BitVec 64
  spp      : Bool
  spv      : Bool
  sie      : Bool
  spie     : Bool
  mtvec    : BitVec 64
  mepc     : BitVec 64
  mcause   : BitVec 64
  mtval    : BitVec 64
  mpp      : KLevel
  mie      : Bool
  mpie     : Bool
  vstart   : BitVec 64 := 0#64
  resv     : Option (Nat × Nat) := none
  deriving DecidableEq, Repr

/-- An extent grant in the hub's table (19_integration.md R494). -/
structure Extent where
  pid   : Nat
  dev   : BitVec 32
  first : BitVec 64
  count : BitVec 64
  rd    : Bool
  wr    : Bool
  deriving DecidableEq, Repr

/-- A remote-access entry (19_integration.md R489), as the 16 bytes that partition-level code wrote. -/
structure RemoteKey where
  index : Nat
  lo    : BitVec 64
  hi    : BitVec 64
  deriving DecidableEq, Repr

/-- What the hub's logs record. -/
inductive LogEvent where
  /-- A store or push of another partition, dropped (05_memory.md R156, 08_tasks.md R253). -/
  | rejected (core : BitVec 12) (off : BitVec 19)
  /-- A machine check, copied to ranger firmware (15_system.md R426). -/
  | machineCheck (core : Nat) (addr : Word64)
  /-- A double fault (15_system.md R429). -/
  | doubleFault (core : Nat)
  /-- A context entry that an injection could not read (14_futures.md R411). -/
  | injectUnreadable (ctx : BitVec 16)
  /-- The excursions of 19_integration.md R480 and R481. -/
  | thermalTrip | lowFlowTrip | overVoltage | coolant | inputLow | inputTrip
  deriving DecidableEq, Repr

/-- What leaves the package: traffic to other packages and remote hosts, and reports to the host. -/
inductive OutMsg where
  /-- A request to a core of another package, with the partition that every request carries (05_memory.md R156), the rank of the core
  that sends it, the hub's being 4,096, the plane that it takes within its pod, and its number on that plane, or of its pair on the
  way to another pod (19_integration.md R486, R487, R489). -/
  | request (pid src : Nat) (pkg : BitVec 18) (core : BitVec 12) (plane : Option Nat) (seq : Nat) (r : PkgReq)
  /-- A remote tool call (14_futures.md R417): host, call record and bytes of window 0. -/
  | call (host : BitVec 64) (record : List Byte) (window : List Byte)
  /-- The answer to a remote completion (14_futures.md R418). -/
  | answer (handle : BitVec 32) (code : BitVec 8)
  /-- A presence overrun reported to the transport of its sender, or a packet refused (07_sync.md R217,
  19_integration.md R489). -/
  | nack (seq : Nat)
  /-- The bytes that answer a load from another package or from the host, or its error (05_memory.md R156,
  06_ordering.md R204, 19_integration.md R489). -/
  | reply (bytes : Option (List Byte))
  /-- The bytes of a storage write, with the request's index (19_integration.md R495). -/
  | storage (pid : Nat) (index : BitVec 16) (bytes : List Byte)
  /-- An attestation report (19_integration.md R492): the hashes of the configuration record, of the ranger firmware and of every
  bound image with its partition. -/
  | report (nonce recHash fwHash : BitVec 256) (images : List (Nat × BitVec 256)) (pkg : BitVec 18) (sig : BitVec 3072)
  deriving DecidableEq, Repr

/-- A step in flight between two cores of a partition, which it names (05_memory.md R155, R156; 08_tasks.md R268), and whether
it is a release write that its event does not tell from a relaxed one: the increment of MBINC.rel (06_ordering.md R193). -/
structure NetMsg where
  src : Nat
  dst : Nat
  ev  : Instr
  pid : Nat
  rel : Bool := false
  deriving DecidableEq, Repr

/-- Which agent a step is given to. -/
inductive Agent where
  | boot | core | kettle | none
  deriving DecidableEq, Repr

/-- The choices that the spec leaves to timing, to other agents and to the outside world, as plain data that `step`
takes from `agenda` one by one. -/
inductive Action where
  /-- A step of the opcode table without an encoding, at a core. -/
  | event (rank : Nat) (i : Instr)
  /-- One step of one walker of a core. -/
  | walker (rank : Nat) (e : Engine)
  /-- The agent that steps when the agenda and the network are empty. -/
  | turn (a : Agent) (rank : Nat) (kid : BitVec 6)
  /-- Cycles in which nothing steps. -/
  | elapse (n : Nat)
  /-- Whether posted accesses are queued from now on. -/
  | setLazy (b : Bool)
  /-- One message in flight reaches its destination. -/
  | deliver (i : Nat)
  /-- A TLB fills or evicts, and so does the second-level TLB or the walk cache of a cluster (05_memory.md R169). -/
  | tlbFill (rank : Nat) (va : Word64) (k : AccessKind)
  | tlbDrop (rank : Nat) (i : Nat)
  | tlb2Drop (cluster : Nat) (i : Nat)
  | ptrDrop (cluster : Nat) (i : Nat)
  /-- Whether the accesses of a core are from now on translated by the entries in memory though a TLB holds others
  (05_memory.md R168). -/
  | tlbBypass (rank : Nat) (b : Bool)
  /-- A prefetch of a core starts a walk (05_memory.md R170). -/
  | walkStart (rank : Nat) (va : Word64) (k : AccessKind)
  /-- The hub carries out a request that waits there (13_kv.md R384). -/
  | hubServe (i : Nat)
  /-- The occupancy of a started M word ends: its unit is free and it has read its registers (11_matrix.md R332). -/
  | mRead (rank : Nat) (i : Nat)
  /-- A unit of a D command transfers (12_copy.md R353). -/
  | unit (rank : Nat) (i : Nat)
  /-- An L1 cache loses its copy of the line that a monitor watches (07_sync.md R234). -/
  | lineLost (rank : Nat)
  /-- Ranger firmware sets the period in picoseconds of a region's clock (01_machine.md R14). -/
  | clockSet (region : Nat) (ps : Nat)
  /-- The module's power in watts and its input in millivolts, as its sensors find them, lower a region's clock (19_integration.md
  R480). -/
  | throttle (region : Nat) (watts : Nat)
  /-- The module's input voltage in millivolts changes (19_integration.md R480, R481). -/
  | inputSet (mv : Nat)
  /-- Ranger firmware writes FELLCTL (13_kv.md R396). -/
  | fellctlSet (v : BitVec 32)
  /-- A flit that the package sent on a plane is acknowledged (19_integration.md R486, R487). -/
  | linkAck (plane : Nat)
  /-- An instruction cache fills or evicts (02_encoding.md R45). -/
  | lineFill (rank : Nat) (va : Word64)
  | lineDrop (rank : Nat) (i : Nat)
  /-- An uncorrectable error marks bytes (01_machine.md R37). -/
  | poison (key n : Nat)
  /-- A column of a tile step mismatches (11_matrix.md R338). -/
  | residue (rank : Nat) (col : BitVec 7)
  /-- The host writes n bytes at an offset of BAR0 (19_integration.md R483). -/
  | bar0Write (off n : Nat) (v : BitVec 64)
  /-- The host writes its own memory. -/
  | hostStore (addr : Nat) (bytes : List Byte)
  /-- Ranger firmware says whether BLAZE runs at task level, and sets the time of a blaze (15_system.md R453). -/
  | blazeSet (task : Bool) (time : Option Nat)
  /-- A Kettle core reads one of its custom registers into xN and writes it where a value is given (14_futures.md R420). -/
  | kettleCsr (kid : BitVec 6) (num : Nat) (w : Option (BitVec 64)) (rd : BitVec 5)
  /-- What the base RISC-V set of a Kettle core makes of its own registers (14_futures.md R419). -/
  | kettleBase (kid : BitVec 6) (k : Kettle)
  deriving DecidableEq, Repr

/-- The whole package and module. -/
structure State where
  -- which agent steps
  agenda   : List Action
  net      : List NetMsg
  lazy     : Bool
  cur      : Agent
  rank     : Nat
  kid      : BitVec 6
  fresh    : Nat
  saved    : List EngSave
  images   : List Core
  -- cores and memory; a core that is not listed stands as `blank`
  cores    : List (Nat × Core)
  blank    : Core
  mem      : Mem
  ctags    : List Nat
  poison   : List Nat
  ranks    : List (Nat × BitVec 32)
  -- time (15_system.md R455)
  cycle    : Nat
  ptp      : Nat
  slew     : Int
  locked   : Bool
  -- the hub
  mmus     : List (Nat × Mmu)
  parts    : List Part
  futs     : List (Nat × Fut)
  futOrder : Nat
  rings    : List (Nat × ToolRing)
  injects  : List Injection
  trees    : List Tree
  fells    : List FellEntry
  fellctl  : BitVec 32
  prefetch : List Prefetch
  hubReqs  : List HubReq
  kettles  : List (Nat × Kettle)
  maxx     : List Contribution
  maxxBad  : List Mismatch
  applied  : List (Nat × Applied)
  outbox   : List OutMsg
  logs     : List LogEvent
  -- blaze (15_system.md R453, R454)
  blzSeq   : BitVec 32
  blzLock  : Bool
  blzMissed : BitVec 16
  blzDue   : Option Nat
  blzTask  : Bool
  blzTime  : Option Nat
  -- the host and the module (19_integration.md)
  bootstat : BitVec 64
  ldrq     : BitVec 64
  ldrTail  : BitVec 64
  ldrHead  : BitVec 64
  hqcfg    : BitVec 64
  hqptr    : BitVec 64
  svn      : BitVec 32
  hostCxl  : Bool
  hostSize : Nat
  link     : Bool
  input    : Nat
  cert     : List Byte
  devKey   : Option (BitVec 3072)
  hbmRepair : List (List Byte)
  pkgRank  : BitVec 18
  fwHash   : BitVec 256
  recHash  : BitVec 256
  ownerKeys : List (BitVec 256)
  enabled  : Vector (BitVec 1088) 4
  power    : Bool
  clocks   : List (Nat × Nat)
  periods  : List (Nat × Nat)
  volts    : List (Nat × Nat)
  slacks   : List (Nat × Nat)
  shadow   : Vector Nat 4
  planes   : List Nat
  linkSeq  : List (Nat × Nat)
  linkSent : List (Nat × Nat)
  linkAcked : List (Nat × Nat)
  linkq    : List OutMsg
  outSeq   : List (Nat × Nat)
  ueSeq    : List (Nat × Nat)
  ueRetry  : List (Nat × Nat)
  packets  : List UePacket
  extents  : List (Nat × Extent)
  keys     : List RemoteKey
  deriving DecidableEq, Repr

/-- The control registers at the reset values of their tables; ARCHV and ATOMSZ are constants and SELFRANK.CORE is
the core's own rank. -/
def Ctl.reset : Ctl :=
  { slipw := 512#32, spdist := 0x4000#32, sptbase := 0#64, sptlen := 0#32, spidx := 0#32, widw := 0#64,
    ptroot := 0#64, pkg := 0#18, cwwin := 0x0098_0000#32, memcfg := 0#32, ownwait := 4096#32, arflg := 0#32,
    rngctr := 0#128, rngkey := 0#64, scgrp := 0#32, prsovf := 0#32, barslot := Vector.replicate 4 0#128,
    monctl := 0#64, dqcfg := 0x0047_8000#32, stealcfg := 0x0010_0804#32, parkt := 4096#32, amsgst := 0#128,
    ctxbase := 0#64, grpstat := 0#64, msgcfg := 0x0407_C000#32, grpwd := 65536#32, cdecerr := 0#32,
    tshp := Vector.replicate 8 0#32, mxcfg := 0#32, mxerr := 0#32, evqbase := 0x0400_0000#32, evqptr := 0#64,
    kvdir := 0#64, kvstat := 0#32, pfqbase := 0#64, calltab := 0#64, futst := 0#64, trapbase := 0#64,
    framebase := 0x0006_8000#32, tstate := 0#32, inten := 0#32, intpend := 0#32, parkon := 0#64,
    cyccmp := 0xFFFF_FFFF_FFFF_FFFF#64 }

/-- An unbound stream register. -/
def Binding.none : Binding := { mode := 0#2, desc := [], src := GVal.zero, count := 0, asked := 0, ahead := [] }

/-- A snapshot that no blaze has latched; DESIGN CHOICE (log entry 2). -/
def CoreSnap.zero : CoreSnap :=
  { cycle := 0#64, pcS := 0#64, pcV := 0#64, pcM := 0#64, pcD := 0#64, word := 0#64, seq := 0#32 }

/-- A core after reset: idle, its queues empty and its presence tags empty (07_sync.md R214), its registers zero
(log entry 2). -/
def Core.reset : Core :=
  { g := Vector.replicate 64 GVal.zero, v := Vector.replicate 32 0#1024, p := Vector.replicate 8 0#128,
    tile := Vector.replicate 8 [], acc := Vector.replicate 2 [], mail := Vector.replicate 256 0#32, pres := 0#8192,
    ctl := Ctl.reset, codecap := GVal.zero, pcV := 0#64, pcM := 0#64, pcD := 0#64, posS := 0#32, posV := 0#32,
    posM := 0#32, posD := 0#32, outcomes := [], capV := [], capM := [], capD := [], nestS := none, nestV := none,
    nestM := none, nestD := none, latches := [], maxx := none, vwait := none, mwords := [], residue := [], dq := [], dnum := 0#16, dfault := none,
    binds := Vector.replicate 8 Binding.none, stores := [], loads := [], icache := [], tlb := [], bypass := false,
    held := [], waitq := [], resend := [], applied := [], evqSeq := 0#64, monLine := none, hw := [], ringHead := 0,
    ringN := 0, rootRing := [], push := [], resumes := [], task := none, blocked := none, hold := none, stalls := [], passing := false,
    slice := false, swap := false, groupEnd := false, killed := false, msgUsed := 0#256, msgNext := 0, stealPos := 0, sweep := 0, lfsr := 0#32,
    probing := false, group := .single, reserved := false, lastOut := none, sent := [], owed := 0, owedPos := [], pendTrap := none, pendHalt := none, halt := none, brken := false,
    blzhalt := false, stepping := false, snap := CoreSnap.zero }

/-- A future-table entry after reset: free, of generation 1 (14_futures.md R401; DESIGN CHOICE, log entry 21). -/
def Fut.reset : Fut :=
  { state := 0#3, taken := false, remote := false, inject := false, rstatus := 0#8, wins := [], gen := 1#18,
    ctx := 0#16, home := 0#12, pid := 0, tool := 0#16, deadline := 0#64, replywin := 0#4, replylen := 0#32,
    pfqpos := 0#32, taker := 0xFFFF#16, ring := 0#16, slot := 0, auth := 0#64, order := 0, cont := none,
    waiter := none }

/-- A tool ring that no write has made valid (14_futures.md R408). -/
def ToolRing.reset : ToolRing := { valid := false, pid := 0, base := 0, log := 4, used := [], next := 0 }

/-- A Kettle core after reset (14_futures.md R420); its base registers are DESIGN CHOICE zero (log entry 2), and the
ring it took last counts as ring 63 (R423). -/
def Kettle.reset : Kettle :=
  { x := Vector.replicate 32 0#64, pc := 0#64, level := .m, on := false, kring := 0#64, hold := none, kcode := 0#64,
    kcodelen := 0#64, lastRing := 63#6, stvec := 0#64, sepc := 0#64, scause := 0#64, stval := 0#64, spp := false,
    spv := false, sie := false, spie := false, mtvec := 0#64, mepc := 0#64, mcause := 0#64, mtval := 0#64, mpp := .m,
    mie := false, mpie := false, vstart := 0#64, resv := none }

/-- The places that the configuration record enables on a die: rows 0 to 31 of 32 columns. DESIGN CHOICE (log entry
2): the spec gives the record no reset value. -/
def enabledReset : BitVec 1088 := BitVec.ofNat 1088 (2 ^ 1024 - 1)

/-- The machine right after reset: power is applied, nothing is bound, memory lists nothing, and the next step is the
bring-up of 19_integration.md R493. -/
def State.reset : State :=
  { agenda := [], net := [], lazy := false, cur := .boot, rank := 0, kid := 0#6, fresh := 0, saved := [], images := [], cores := [], blank := Core.reset,
    mem := [], ctags := [], poison := [], ranks := [], cycle := 0, ptp := 0, slew := 0, locked := false, mmus := [], parts := [], futs := [],
    futOrder := 0, rings := [], injects := [], trees := [], fells := [], fellctl := 18800#32, prefetch := [], hubReqs := [],
    kettles := [], maxx := [], maxxBad := [], applied := [], outbox := [], logs := [], blzSeq := 0#32, blzLock := false,
    blzMissed := 0#16, blzDue := none, blzTask := false, blzTime := none, bootstat := 0#64, ldrq := 0#64,
    ldrTail := 0#64, ldrHead := 0#64, hqcfg := 0#64, hqptr := 0#64, svn := 0#32, hostCxl := false, hostSize := 0, link := false,
    input := 48000, cert := [], devKey := none, hbmRepair := [], pkgRank := 0#18, fwHash := 0#256, recHash := 0#256, ownerKeys := [], enabled := Vector.replicate 4 enabledReset,
    power := true, clocks := [], periods := [], volts := [], slacks := [], shadow := Vector.replicate 4 0, planes := [],
    linkSeq := [], linkSent := [], linkAcked := [], linkq := [], outSeq := [], ueSeq := [], ueRetry := [], packets := [], extents := [], keys := [] }

end Sys2Proof.Machine
end

