-- ==== Sys2Proof/Machine/Mem.lean ====
section
/-! DEFINITION. Sparse bytes: reading, writing and moving ranges in the one canonical form of `Mem`, and the sorted
lists of keys that hold capability tags and poison marks. -/

namespace Sys2Proof.Machine

/-- The byte at a key; an unlisted key reads as zero (log entry 1). -/
def Mem.get : Mem → Nat → Byte
  | [], _ => 0#8
  | (k, b) :: t, a => if k = a then b else Mem.get t a

/-- The entries that bytes from key a upward make: none for a zero byte. -/
def Mem.cells : Nat → List Byte → Mem
  | _, [] => []
  | a, b :: t => if b = 0#8 then Mem.cells (a + 1) t else (a, b) :: Mem.cells (a + 1) t

/-- The entries below a key. -/
def Mem.below (m : Mem) (a : Nat) : Mem := m.filter (fun c => decide (c.1 < a))

/-- The entries at a key or above it. -/
def Mem.above (m : Mem) (a : Nat) : Mem := m.filter (fun c => decide (a ≤ c.1))

/-- The bytes of `m` with those of `bs` written from key a upward. -/
def Mem.write (m : Mem) (a : Nat) (bs : List Byte) : Mem :=
  m.below a ++ Mem.cells a bs ++ m.above (a + bs.length)

/-- The n bytes from key a upward as sparse bytes of their own, from key 0. -/
def Mem.slice (m : Mem) (a n : Nat) : Mem :=
  ((m.above a).below (a + n)).map (fun c => (c.1 - a, c.2))

/-- The bytes of `m` with the n bytes from key a upward replaced by those of the sparse bytes p. -/
def Mem.overlay (m : Mem) (a n : Nat) (p : Mem) : Mem :=
  m.below a ++ (Mem.below p n).map (fun c => (a + c.1, c.2)) ++ m.above (a + n)

/-- The n bytes from key a upward. -/
def Mem.read (m : Mem) (a : Nat) : Nat → List Byte
  | 0 => []
  | n + 1 => Mem.get m a :: Mem.read m (a + 1) n

/-- The number that the n bytes from key a upward hold, little-endian (00_scope.md R2). -/
def Mem.readNat (m : Mem) (a n : Nat) : Nat := leNat (Mem.read m a n)

/-- Every key above a bound, the keys rising and no byte zero. -/
def Mem.wfFrom : Nat → Mem → Bool
  | _, [] => true
  | lo, (k, b) :: t => decide (lo ≤ k) && b != 0#8 && Mem.wfFrom (k + 1) t

/-- The canonical form of sparse bytes. -/
def Mem.wf (m : Mem) : Bool := Mem.wfFrom 0 m

/-- A list of keys without those from a to a + n - 1. -/
def Keys.clear (l : List Nat) (a n : Nat) : List Nat := l.filter (fun k => decide (k < a) || decide (a + n ≤ k))

/-- A sorted list of keys with k added. -/
def Keys.insert : List Nat → Nat → List Nat
  | [], k => [k]
  | h :: t, k => if k < h then k :: h :: t else if k = h then h :: t else h :: Keys.insert t k

/-- Whether some key from a to a + n - 1 is listed. -/
def Keys.any (l : List Nat) (a n : Nat) : Bool := l.any (fun k => decide (a ≤ k) && decide (k < a + n))

/-- The value under a key of a table, if it is listed. -/
def Table.find {α : Type} : List (Nat × α) → Nat → Option α
  | [], _ => none
  | (k, v) :: t, a => if k = a then some v else Table.find t a

/-- A table with the value under a key replaced, or listed at its end. -/
def Table.set {α : Type} : List (Nat × α) → Nat → α → List (Nat × α)
  | [], a, v => [(a, v)]
  | (k, w) :: t, a, v => if k = a then (a, v) :: t else (k, w) :: Table.set t a v

/-- A table without a key. -/
def Table.erase {α : Type} (l : List (Nat × α)) (a : Nat) : List (Nat × α) := l.filter (fun c => c.1 != a)

/-- An element placed before the first that it does not follow. -/
def insertBy {α : Type} (le : α → α → Bool) (x : α) : List α → List α
  | [] => [x]
  | y :: t => if le x y then x :: y :: t else y :: insertBy le x t

/-- A list sorted by an order; equal elements keep their order. -/
def sortBy {α : Type} (le : α → α → Bool) : List α → List α
  | [] => []
  | x :: t => insertBy le x (sortBy le t)

end Sys2Proof.Machine
end

