-- ==== Sys2Proof/Machine/Regs.lean ====
section
/-! DEFINITION. The named operations on cores, registers and bytes: reading and writing one core, the general file,
the S walker's position, the fields of control registers, and stores of bytes with what a store brings with it. -/

namespace Sys2Proof

/-- The address of a general register's value: bits [63:0] (04_scalar.md R106, R107). -/
def GVal.word (v : GVal) : Word64 := v.bits.setWidth 64

/-- A value with its bits [63:0] replaced. -/
def GVal.withWord (v : GVal) (a : Word64) : GVal :=
  { v with bits := (v.bits.extractLsb' 64 64 ++ a : BitVec 128) }

/-- Plain data of 64 bits, zero above, with the tag clear (04_scalar.md R106). -/
def GVal.ofWord (w : Word64) : GVal := { bits := w.setWidth 128, tag := false }

/-- Plain data of 128 bits with the tag clear. -/
def GVal.ofNat (n : Nat) : GVal := { bits := BitVec.ofNat 128 n, tag := false }

end Sys2Proof

namespace Sys2Proof.Machine

/-- The core of a rank; a core that nothing has touched stands as `blank`, after reset with what every block has latched since
(01_machine.md R38). -/
def State.coreAt (s : State) (r : Nat) : Core := (Table.find s.cores r).getD s.blank

/-- The state with the core of a rank replaced. -/
def State.setCore (s : State) (r : Nat) (c : Core) : State := { s with cores := Table.set s.cores r c }

/-- The core that a word of this step runs on. -/
def State.me (s : State) : Core := s.coreAt s.rank

/-- The state with that core replaced. -/
def State.setMe (s : State) (c : Core) : State := s.setCore s.rank c

/-- The state with a core changed. -/
def State.modCore (s : State) (r : Nat) (f : Core → Core) : State := s.setCore r (f (s.coreAt r))

/-- The state with that core changed. -/
def State.modMe (s : State) (f : Core → Core) : State := s.setMe (f s.me)

/-- A read of gN: g0 reads zero with the tag clear (02_encoding.md R52). -/
def Core.rg (c : Core) (i : GIdx) : GVal :=
  if i = 0#6 then GVal.zero else c.g[i.toNat]'(by have := i.isLt; omega)

/-- A write of gN: a write to g0 is discarded (02_encoding.md R52). -/
def Core.wg (c : Core) (i : GIdx) (x : GVal) : Core :=
  if i = 0#6 then c else { c with g := c.g.set i.toNat x (by have := i.isLt; omega) }

/-- A read of vN. -/
def Core.rv (c : Core) (i : BitVec 5) : VReg := c.v[i.toNat]'(by have := i.isLt; omega)

/-- A write of vN. -/
def Core.wv (c : Core) (i : BitVec 5) (x : VReg) : Core :=
  { c with v := c.v.set i.toNat x (by have := i.isLt; omega) }

/-- A read of pN. -/
def Core.rp (c : Core) (i : BitVec 3) : BitVec 128 := c.p[i.toNat]'(by have := i.isLt; omega)

/-- A write of pN. -/
def Core.wp (c : Core) (i : BitVec 3) (x : BitVec 128) : Core :=
  { c with p := c.p.set i.toNat x (by have := i.isLt; omega) }

/-- A read of a mailbox counter (07_sync.md R226). -/
def Core.rmail (c : Core) (i : BitVec 8) : BitVec 32 := c.mail[i.toNat]'(by have := i.isLt; omega)

/-- A write of a mailbox counter. -/
def Core.wmail (c : Core) (i : BitVec 8) (x : BitVec 32) : Core :=
  { c with mail := c.mail.set i.toNat x (by have := i.isLt; omega) }

/-- The binding of v24 + i (12_copy.md R362). -/
def Core.rbind (c : Core) (i : BitVec 3) : Binding := c.binds[i.toNat]'(by have := i.isLt; omega)

/-- The core with a binding replaced. -/
def Core.wbind (c : Core) (i : BitVec 3) (b : Binding) : Core :=
  { c with binds := c.binds.set i.toNat b (by have := i.isLt; omega) }

/-- Join slot i (07_sync.md R231). -/
def Core.rslot (c : Core) (i : BitVec 2) : BitVec 128 := c.ctl.barslot[i.toNat]'(by have := i.isLt; omega)

/-- The core with its control registers changed. -/
def Core.modCtl (c : Core) (f : Ctl → Ctl) : Core := { c with ctl := f c.ctl }

/-- The core with join slot i replaced. -/
def Core.wslot (c : Core) (i : BitVec 2) (x : BitVec 128) : Core :=
  c.modCtl fun r => { r with barslot := r.barslot.set i.toNat x (by have := i.isLt; omega) }

/-- The address of the S walker's word (04_scalar.md R130, CODECAP). -/
def Core.pc (c : Core) : Word64 := c.codecap.word

/-- The core with its S walker at an address. CODECAP keeps its bits but for the address, as the pseudocode of 04_scalar.md R145
says, and the fetch checks the bounds that R108 decodes at that address: for a target outside the representable region those are
not the bounds before the jump (DEDUCED, log entry 112). -/
def Core.setPc (c : Core) (a : Word64) : Core := { c with codecap := c.codecap.withWord a }

/-- The S walker steps past a word of one parcel (04_scalar.md R115). -/
def Core.next (c : Core) : Core := { c.setPc (c.pc + 4#64) with posS := c.posS + 1#32 }

/-- The n bits of a word from bit lo upward, as a number. -/
def field {w : Nat} (x : BitVec w) (lo n : Nat) : Nat := x.toNat / 2 ^ lo % 2 ^ n

/-- A word with its n bits from bit lo upward replaced. -/
def setField {w : Nat} (x : BitVec w) (lo n v : Nat) : BitVec w :=
  BitVec.ofNat w (x.toNat - field x lo n * 2 ^ lo + v % 2 ^ n * 2 ^ lo)

/-- TSTATE.LEVEL, TSTATE.DEPTH and TSTATE.CAUSE (15_system.md R437). -/
def Core.level (c : Core) : Nat := field c.ctl.tstate 0 2

/-- The live frames of a core (15_system.md R437). -/
def Core.depth (c : Core) : Nat := field c.ctl.tstate 2 2

/-- Task level (15_system.md R425). -/
def Core.atTask (c : Core) : Bool := c.level == 0

/-- The partition identifier of a core (05_memory.md R160, PTROOT.PID). -/
def Core.pid (c : Core) : Nat := field c.ctl.ptroot 48 10

/-- A message of a core to another core of its partition sets out. -/
def State.sendNet (s : State) (src dst : Nat) (ev : Instr) (rel : Bool := false) : State :=
  { s with net := s.net ++ [{ src := src, dst := dst, ev := ev, pid := (s.coreAt src).pid, rel := rel }] }

/-! Requests to other packages. -/

/-- The number that stands for the hub among the senders of messages. -/
abbrev hubRank : Nat := 4096

/-- A count of a table of counts. -/
def countAt (l : List (Nat × Nat)) (k : Nat) : Nat := (Table.find l k).getD 0

/-- The planes of a pair of cores in the order in which it moves from one out of service to the next (19_integration.md R487). -/
def planesOf (src dst : Nat) : List Nat := (List.range 24).map fun i => 24 * (src / 1024) + (src + dst + i) % 24

/-- The plane that a pair of cores uses: its own, or the next of the same die in service (19_integration.md R487). -/
def planeOf (s : State) (src dst : Nat) : Nat :=
  ((planesOf src dst).find? fun x => !s.planes.contains x).getD (24 * (src / 1024) + (src + dst) % 24)

/-- Whether a flit that the package has sent on a plane is not acknowledged (19_integration.md R487). -/
def State.unacked (s : State) (p : Nat) : Bool := decide (countAt s.linkAcked p < countAt s.linkSent p)

/-- Whether a pair of cores still waits to leave a plane that is out of service (19_integration.md R487). -/
def State.planeWaits (s : State) (src dst : Nat) : Bool :=
  ((planesOf src dst).takeWhile fun x => s.planes.contains x).any s.unacked

/-- Whether a request of a pair stands in a list. -/
def pairWaits (l : List OutMsg) (src : Nat) (pkg : BitVec 18) (core : BitVec 12) : Bool :=
  l.any fun m => match m with | .request _ a p c _ _ _ => a == src && p == pkg && c == core | _ => false

/-- A request sets out to a core of another package: on its plane within the pod, once the pair has left a plane out of service; to
another pod, and from the hub, whose way the spec does not give, with the number of its pair (19_integration.md R486, R487, R489;
log entry 107). -/
def State.launch (s : State) (pid src : Nat) (pkg : BitVec 18) (core : BitVec 12) (q : PkgReq) : State :=
  if src = hubRank ∨ pkg.extractLsb' 13 5 ≠ s.pkgRank.extractLsb' 13 5 then
    let k := (src * 2 ^ 18 + pkg.toNat) * 2 ^ 12 + core.toNat
    let n := countAt s.outSeq k
    { s with outSeq := Table.set s.outSeq k (n + 1), outbox := s.outbox ++ [.request pid src pkg core none n q] }
  else if s.planeWaits src core.toNat || pairWaits s.linkq src pkg core then
    { s with linkq := s.linkq ++ [.request pid src pkg core none 0 q] }
  else
    let p := planeOf s src core.toNat
    let n := countAt s.linkSent p
    { s with linkSent := Table.set s.linkSent p (n + 1), outbox := s.outbox ++ [.request pid src pkg core (some p) n q] }

/-- The requests that waited to leave a plane set out where they may (19_integration.md R487). -/
def linkFlush (s : State) : State :=
  s.linkq.foldl (fun t m => match m with | .request pid a p c _ _ q => t.launch pid a p c q | _ => t) { s with linkq := [] }

/-- A flit on a plane is acknowledged (19_integration.md R487). -/
def linkAck (s : State) (p : Nat) : State :=
  if s.unacked p then linkFlush { s with linkAcked := Table.set s.linkAcked p (countAt s.linkAcked p + 1) } else s

/-- A request of a core to a core of another package sets out (05_memory.md R156). -/
def State.requestFrom (s : State) (r : Nat) (pkg : BitVec 18) (core : BitVec 12) (q : PkgReq) : State :=
  s.launch (s.coreAt r).pid r pkg core q

/-- A request of the core of this step. -/
def State.request (s : State) (pkg : BitVec 18) (core : BitVec 12) (q : PkgReq) : State := s.requestFrom s.rank pkg core q

/-- A request to the core that an address names. -/
def State.requestTo (s : State) (x : Word64) (q : PkgReq) : State := s.request (x.extractLsb' 31 18) (x.extractLsb' 19 12) q

/-- The bound partition of an identifier. -/
def State.part? (s : State) (pid : Nat) : Option Part := s.parts.find? (fun p => p.pid == pid)

/-- The state with the partition of an identifier changed. -/
def State.modPart (s : State) (pid : Nat) (f : Part → Part) : State :=
  { s with parts := s.parts.map (fun p => if p.pid == pid then f p else p) }

/-- The context of the record from which a core's task started (08_tasks.md R242). -/
def Core.ctx (c : Core) : BitVec 16 := (c.task.map (·.ctx)).getD 0#16

/-- The key at which offset off of a core's local memory lies. -/
def localKey (rank off : Nat) : Nat := 0xC * 2 ^ 52 + rank * 2 ^ 19 + off

/-- The bytes of one core's local memory: 512 KiB (01_machine.md R15). -/
abbrev localSize : Nat := 2 ^ 19

/-- Whether two ranges of keys share a key. -/
def overlaps (a n b m : Nat) : Bool := decide (a < b + m) && decide (b < a + n)

/-- SPDIST.COUNT is cleared (04_scalar.md R126). -/
def Core.clearDist (c : Core) : Core := c.modCtl fun k => { k with spdist := setField k.spdist 16 16 0 }

/-- A blocking word completes at once: the walker steps on, and the core's distance to its last safe point starts again
(04_scalar.md R126). -/
def Core.nextSafe (c : Core) : Core := c.next.clearDist

/-- Whether the S walker stands in a word that cannot be abandoned: the hub has accepted its request, or its effects have begun
(13_kv.md R385, R398). -/
def Core.atHub (c : Core) : Bool :=
  match c.blocked with
  | some { op := .hub, .. } => true
  | some { op := .push _ kept, .. } => kept
  | _ => false

/-- A blocked S word completes: its register is written, the walker steps on, and the core's distance to its last
safe point starts again (04_scalar.md R126); a debug step ends with it (15_system.md R451). -/
def Core.finish (c : Core) (d : GIdx) (x : GVal) : Core :=
  { (c.wg d x).nextSafe with
    blocked := none, stepping := false, halt := if c.stepping then some 3#4 else c.halt }

/-- A write to n bytes from a key in cycle `now` sets HIT of a monitor armed on them, and ends a MONWAIT that waits on it with
code 1, or with 0 where its limit has passed (07_sync.md R234, R235). -/
def Core.monHit (c : Core) (now key n : Nat) : Core :=
  match c.monLine with
  | none => c
  | some (k, m) =>
    if overlaps k m key n then
      match c.blocked with
      | some { op := .monwait d, deadline := t, .. } =>
        let hit : Nat := match t with | some t => (decide (now < t)).toNat | none => 1
        { (c.finish d (GVal.ofNat hit)).modCtl fun r => { r with monctl := setField (setField r.monctl 62 1 hit) 63 1 0 }
          with monLine := none }
      | _ => c.modCtl fun r => { r with monctl := setField r.monctl 62 1 1 }
    else c

/-- Every monitor armed on one of n bytes from a key is hit. -/
def State.notify (s : State) (key n : Nat) : State :=
  { s with cores := s.cores.map (fun e => (e.1, e.2.monHit s.cycle key n)) }

/-- A write to n bytes from a key breaks a Kettle core's LR reservation of one of them (14_futures.md R419). -/
def Kettle.broken (k : Kettle) (key n : Nat) : Kettle :=
  { k with resv := k.resv.filter fun x => !overlaps x.1 x.2 key n }

/-- What a write to n bytes from a key does to those that watch them: armed monitors are hit (07_sync.md R234), and LR
reservations are broken, whichever agent writes (14_futures.md R419). -/
def State.written (s : State) (key n : Nat) : State :=
  { s.notify key n with kettles := s.kettles.map fun e => (e.1, e.2.broken key n) }

/-- The 16-byte units that n bytes from a key touch (05_memory.md R152): the first unit and their number. -/
def unitSpan (key n : Nat) : Nat × Nat := (key / 16, (key + n + 15) / 16 - key / 16)

/-- A store of bytes: it clears the capability tags of the units it touches and the poison marks of its bytes, and
hits the monitors armed there (05_memory.md R152, 01_machine.md R37, 07_sync.md R234). -/
def State.store (s : State) (key : Nat) (bs : List Byte) : State :=
  let u := unitSpan key bs.length
  { (s.written key bs.length) with
    mem := s.mem.write key bs
    ctags := Keys.clear s.ctags u.1 u.2
    poison := Keys.clear s.poison key bs.length }

/-- A store of n bytes given as sparse bytes of their own. -/
def State.storeSparse (s : State) (key n : Nat) (p : Mem) : State :=
  let u := unitSpan key n
  { (s.written key n) with
    mem := s.mem.overlay key n p
    ctags := Keys.clear s.ctags u.1 u.2
    poison := Keys.clear s.poison key n }

/-- A store of a number in n bytes. -/
def State.storeNat (s : State) (key n v : Nat) : State := s.store key (leBytes n v)

/-- The capability tag of the unit that holds a key (05_memory.md R152). -/
def State.ctag (s : State) (key : Nat) : Bool := s.ctags.contains (key / 16)

/-- A store of a 16-byte unit with its tag (05_memory.md R152, ST.Q). -/
def State.storeTagged (s : State) (key : Nat) (bs : List Byte) (tag : Bool) : State :=
  let t := s.store key bs
  if tag then { t with ctags := Keys.insert t.ctags (key / 16) } else t

/-- Whether one of n bytes from a key is poisoned (01_machine.md R37). -/
def State.poisoned (s : State) (key n : Nat) : Bool := Keys.any s.poison key n

/-- The state with bytes marked poisoned (01_machine.md R37). -/
def State.markPoison (s : State) (l : List Nat) : State := { s with poison := l.foldl Keys.insert s.poison }

/-- The tagged value of the unit at a key. -/
def State.loadUnit (s : State) (key : Nat) : GVal :=
  { bits := BitVec.ofNat 128 (s.mem.readNat key 16), tag := s.ctag key }

/-- The tag of granule gr of a core (07_sync.md R214). -/
def Core.full (c : Core) (gr : Nat) : Bool := c.pres.getLsbD gr

/-- The core with the tag of granule gr set or cleared. -/
def Core.setFull (c : Core) (gr : Nat) (b : Bool) : Core :=
  let one : BitVec 8192 := 1#8192 <<< gr
  { c with pres := if b then c.pres ||| one else c.pres &&& ~~~one }

end Sys2Proof.Machine
end

