-- ==== Sys2Proof/Machine/Operands.lean ====
section
/-! DEFINITION. Operand forms and the checks of an access: capabilities (04_scalar.md R107 to R111), translation
(05_memory.md R165 to R170), rank tables (R154, R155) and the access check of R174 with the region test of R498. -/

namespace Sys2Proof.Machine

/-- The answer of a check: a value, a trap, or a hold, each with the state it leaves. -/
inductive Res (α : Type) where
  | ok (a : α)
  | trap (t : Trap) (s : State)
  | hold (h : Hold) (s : State)

/-- The next check after one that passed. -/
def Res.bind {α β : Type} (x : Res α) (f : α → Res β) : Res β :=
  match x with
  | .ok a => f a
  | .trap t s => .trap t s
  | .hold h s => .hold h s

/-- Why a check must wait, if it must. -/
def Res.held {α : Type} (x : Res α) : Option Hold := match x with | .hold h _ => some h | _ => none

/-- A trap of a walker with a cause and an address; INFO is 0 (15_system.md R432). -/
def mkTrap (w : Engine) (cause : Nat) (addr : Word64) : Trap :=
  { walker := some w, cause := BitVec.ofNat 8 cause, addr := addr, info := 0#64, kind := .load }

/-- A trap of the S walker. -/
def trapS (cause : Nat) (addr : Word64) : Trap := mkTrap .s cause addr

/-! Capabilities. -/

/-- The exponent, base mantissa, length mantissa, object type and permissions of a capability (04_scalar.md R107). -/
def capExp (b : Word128) : Nat := field b 94 6

/-- BMAN (04_scalar.md R107). -/
def capBman (b : Word128) : Nat := field b 86 8

/-- LMAN (04_scalar.md R107). -/
def capLman (b : Word128) : Nat := field b 78 8

/-- OTYPE (04_scalar.md R107). -/
def capOtype (b : Word128) : Nat := field b 100 16

/-- PERM (04_scalar.md R107, R109). -/
def capPerms (b : Word128) : BitVec 12 := b.extractLsb' 116 12

/-- The bounds of a capability: base and top (04_scalar.md R108). The base may fall below zero. -/
def capBounds (b : Word128) : Int × Int :=
  let e := capExp b
  let a := field b 0 64
  let bm := capBman b
  let am := a / 2 ^ e % 256
  let h : Int := ((a / 2 ^ (e + 8) : Nat) : Int) - (if am < bm then 1 else 0)
  let base : Int := h * 2 ^ (e + 8) + ((bm * 2 ^ e : Nat) : Int)
  (base, base + ((capLman b * 2 ^ e : Nat) : Int))

/-- The permission bits of 04_scalar.md R109. -/
abbrev permLoad : BitVec 12 := 0x001#12
abbrev permStore : BitVec 12 := 0x002#12
abbrev permExecute : BitVec 12 := 0x004#12
abbrev permLoadCap : BitVec 12 := 0x008#12
abbrev permStoreCap : BitVec 12 := 0x010#12
abbrev permGlobal : BitVec 12 := 0x020#12
abbrev permLocal : BitVec 12 := 0x040#12
abbrev permRemote : BitVec 12 := 0x080#12
abbrev permAtomic : BitVec 12 := 0x100#12
abbrev permEngine : BitVec 12 := 0x200#12
abbrev permSeal : BitVec 12 := 0x400#12
abbrev permTool : BitVec 12 := 0x800#12

/-- Whether a value carries permission bit i. -/
def capHas (b : Word128) (p : BitVec 12) : Bool := capPerms b &&& p == p

/-- cap_check of 04_scalar.md R110: the cause of the first test that fails. -/
def capCheck (c : GVal) (x : Word64) (n : Nat) (need : BitVec 12) : Option Nat :=
  if !c.tag then some 0x02
  else
    let (base, top) := capBounds c.bits
    let a : Int := (x.toNat : Int)
    if decide (2 ^ 56 ≤ x.toNat) || decide (a < base) || decide (top < a + (n : Int)) then some 0x03
    else if capOtype c.bits ≠ 0 then some 0x04
    else if capPerms c.bits &&& need ≠ need then some 0x04
    else none

/-- The mantissas that represent a range, by the search of 04_scalar.md R140 over the exponents of a list: the first
exponent at which the rounded range has at most 255 units, with that range. -/
def boundSearch (b l : Nat) : List Nat → Option (Nat × Nat × Nat)
  | [] => none
  | e :: es =>
    let nb := b / 2 ^ e * 2 ^ e
    let nt := (b + l + 2 ^ e - 1) / 2 ^ e * 2 ^ e
    if (nt - nb) / 2 ^ e ≤ 255 then some (e, nb, nt) else boundSearch b l es

/-- The exponents of a capability, 0 to 48 (04_scalar.md R107). -/
def capExponents : List Nat := List.range 49

/-- A value with the bounds that a search found (04_scalar.md R140). -/
def withBounds (c : Word128) (e xb xt : Nat) : Word128 :=
  setField (setField (setField c 94 6 e) 86 8 (xb / 2 ^ e % 256)) 78 8 ((xt - xb) / 2 ^ e)

/-- The smallest capability whose bounds contain [a, a + l), with address at, permissions p and no object type. -/
def mintCap (a l : Nat) (at_ : Nat) (p : BitVec 12) : Option GVal :=
  match boundSearch a l capExponents with
  | none => none
  | some (e, xb, xt) =>
    let b := setField (BitVec.ofNat 128 at_) 116 12 p.toNat
    some { bits := withBounds b e xb xt, tag := true }

/-- The tag rule of 04_scalar.md R139: a value with a new address, untagged where it was untagged or where the address
leaves the representable region. -/
def moveCap (c : GVal) (a2 : Word64) : GVal :=
  let d := c.withWord a2
  if !c.tag then d
  else
    let (base, _) := capBounds c.bits
    let a : Int := (a2.toNat : Int)
    if decide (2 ^ 56 ≤ a2.toNat) || decide (a < base) || decide (base + 2 ^ (capExp c.bits + 8) ≤ a)
    then { d with tag := false } else d

/-! Addresses. -/

/-- The region of an address: bits [55:52] (05_memory.md R148). -/
def region (x : Word64) : Nat := field x 52 4

/-- The package and core rank and the offset of a region 0xC address (05_memory.md R148). -/
def coordPkg (x : Word64) : BitVec 18 := x.extractLsb' 31 18

/-- The core rank of a region 0xC or 0xE address. -/
def coordCore (x : Word64) : BitVec 12 := x.extractLsb' 19 12

/-- The offset of a local-memory address. -/
def coordOff (x : Word64) : Nat := field x 0 19

/-- An address in the core's own local memory, by the alias or by the loop-back path (05_memory.md R150). -/
def State.isOwn (s : State) (x : Word64) : Bool :=
  region x == 0xD || (region x == 0xC && coordPkg x == s.me.ctl.pkg && (coordCore x).toNat == s.rank)

/-- The region 0xC address of an offset of a core of this package (07_sync.md R233). -/
def State.coordAddr (s : State) (rank off : Nat) : Word64 :=
  BitVec.ofNat 64 (0xC * 2 ^ 52 + s.me.ctl.pkg.toNat * 2 ^ 31 + rank * 2 ^ 19 + off)

/-! The rank tables. -/

/-- The places of a die that the configuration record enables, in ascending order. -/
def placesOf (e : BitVec 1088) : List Nat := (List.range 1088).filter fun i => e.getLsbD i

/-- The reset value of a core's rank-table entry (05_memory.md R154, 01_machine.md R18): the logical row and column name
the enabled places in ascending order (log entry 26). -/
def State.rankReset (s : State) (r : Nat) : BitVec 32 :=
  let d := BitVec.ofNat 2 (r / 1024)
  let i := (placesOf (s.enabled[d.toNat]'(by have := d.isLt; omega))).getD (r % 1024) 0
  BitVec.ofNat 32 (d.toNat * 2 ^ 14 + i / 32 * 2 ^ 8 + i % 32)

/-- The network interface of a core: that of its compute die (05_memory.md R154). -/
def ifaceOf (r : Nat) : Nat := min 4 (r / 1024)

/-- The hub's interface. -/
abbrev hubIface : Nat := 4

/-- The rank-table entry of rank r at an interface: VALID and TRANSIT clear until the loader or firmware writes it
(05_memory.md R154). -/
def State.rankAt (s : State) (i r : Nat) : BitVec 32 := (Table.find s.ranks (i * 4096 + r)).getD (s.rankReset r)

/-- The entry of rank r at the interface of the core of this step. -/
def State.rankEntry (s : State) (r : Nat) : BitVec 32 := s.rankAt (ifaceOf s.rank) r

/-- Whether an entry is valid for a partition (05_memory.md R154, R155). -/
def rankHas (e : BitVec 32) (pid : Nat) : Bool := field e 31 1 == 1 && field e 16 10 == pid

/-- Whether an entry is in transit: the messages to its rank wait (05_memory.md R155). -/
def rankMoves (e : BitVec 32) : Bool := field e 30 1 == 1

/-- A rank whose core is being swapped or moved, as the core of this step sees it. -/
def State.inTransit (s : State) (r : Nat) : Bool := rankMoves (s.rankEntry r)

/-- Whether a rank is valid for a partition, as the core of this step sees it. -/
def State.coreOf (s : State) (pid r : Nat) : Bool := rankHas (s.rankEntry r) pid

/-- Whether a rank is valid for a partition, as the hub sees it. -/
def State.hubCore (s : State) (pid r : Nat) : Bool := rankHas (s.rankAt hubIface r) pid

/-- What the hub does at a core of a partition, or the message by which it is done once the partition is resident there and not
in transit (05_memory.md R155, 08_tasks.md R268). -/
def State.hubTo (s : State) (pid dst : Nat) (ev : Instr) (f : State → State) : State :=
  if (s.coreAt dst).pid = pid ∧ rankMoves (s.rankAt hubIface dst) = false then f s
  else { s with net := s.net ++ [{ src := hubRank, dst := dst, ev := ev, pid := pid }] }

/-- The rank-table check of 05_memory.md R155 at the issuing core of partition pid: the cause, or a hold. -/
def rankCheck (s : State) (w : Engine) (pid r : Nat) (x : Word64) : Res Unit :=
  let e := s.rankEntry r
  if field e 31 1 = 0 ∨ field e 16 10 ≠ pid then .trap (mkTrap w 0x07 x) s
  else if field e 30 1 = 1 then .hold .rankTransit s
  else .ok ()

/-- The check of a package rank other than this one: a pod number of 25 to 31 raises 0x07 (19_integration.md R486). -/
def podOk (pkg : BitVec 18) : Bool := decide (field pkg 13 5 ≤ 24)

/-! Translation. -/

/-- The rows of the physical map (05_memory.md R166). -/
inductive MemRow where
  | hbm | lpddr | host
  deriving DecidableEq, Repr

/-- The row of the physical map that holds an address; the host window stands in CXL mode alone
(19_integration.md R482). -/
def State.row (s : State) (pa : Nat) : Option MemRow :=
  if pa < 0x0090_0000_0000 then some .hbm
  else if 0x0100_0000_0000 ≤ pa ∧ pa < 0x0200_0000_0000 then some .lpddr
  else if s.hostCxl ∧ 0x1000_0000_0000 ≤ pa ∧ pa < 0x1000_0000_0000 + s.hostSize ∧ pa < 0x2000_0000_0000 then some .host
  else none

/-- A page wholly inside one row of the physical map (05_memory.md R166). -/
def State.mapped (s : State) (base size : Nat) : Bool :=
  (s.row base).isSome && s.row base == s.row (base + size - 1)

/-- The end of a walk (05_memory.md R167): a leaf, with the physical address of its entry and log2 of its page; a clear V
bit; an entry that denies the access or is malformed; or a poisoned entry (01_machine.md R37). -/
inductive WalkRes where
  | leaf (pa : Nat) (entry : Nat) (bits : BitVec 64) (size : Nat)
  | absent
  | denied
  | poisoned
  deriving DecidableEq, Repr

/-- Whether a leaf allows an access (05_memory.md R165). -/
def leafAllows (e : BitVec 64) (k : AccessKind) : Bool :=
  match k with
  | .load => e.getLsbD 2
  | .store => e.getLsbD 3
  | .fetch => e.getLsbD 4

/-- What a leaf over pages of 2^sh bytes says of an access (05_memory.md R167). -/
def leafResult (s : State) (va : Nat) (k : AccessKind) (entry : Nat) (e : BitVec 64) (sh : Nat) : WalkRes :=
  let base := field e 16 32 * 2 ^ 16
  if base % 2 ^ sh ≠ 0 ∨ s.mapped base (2 ^ sh) = false then .denied
  else if leafAllows e k then .leaf (base + va % 2 ^ sh) entry e sh
  else .denied

/-- The walk of 05_memory.md R167 from a table, through the levels whose page sizes a list gives. -/
def walkFrom (s : State) (va : Nat) (k : AccessKind) : List Nat → Nat → WalkRes
  | [], _ => .denied
  | sh :: rest, t =>
    let ea := t + 8 * (va / 2 ^ sh % 4096)
    let e : BitVec 64 := BitVec.ofNat 64 (s.mem.readNat ea 8)
    if s.poisoned ea 8 then .poisoned
    else if e.getLsbD 0 = false then .absent
    else if field e 61 3 ≠ 0 ∨ field e 48 11 ≠ 0 ∨ field e 7 9 ≠ 0 then .denied
    else if e.getLsbD 1 then leafResult s va k ea e sh
    else walkFrom s va k rest (field e 16 32 * 2 ^ 16)

/-- The page sizes of the three levels (05_memory.md R165). -/
def walkLevels : List Nat := [40, 28, 16]

/-- The walk of a partition's tables (05_memory.md R167, R499). -/
def walk (s : State) (root : BitVec 64) (va : Nat) (k : AccessKind) : WalkRes :=
  walkFrom s va k walkLevels (field root 16 32 * 2 ^ 16)

/-- The bits of a leaf once a walk has set A, and D for a store (05_memory.md R167). -/
def touched (e : BitVec 64) (k : AccessKind) : BitVec 64 := e ||| 0x20#64 ||| (if k = .store then 0x40#64 else 0#64)

/-- The state with A set in a leaf, and D for a store (05_memory.md R167). -/
def touchLeaf (s : State) (entry : Nat) (e : BitVec 64) (k : AccessKind) : State :=
  if touched e k = e then s else s.storeNat entry 8 (touched e k).toNat

/-! The TLBs (05_memory.md R168 to R170; log entry 82). -/

/-- The cluster that holds a core, numbered over the package (01_machine.md R18). -/
def clusterOf (r : Nat) : Nat := r / 128 % 32 * 8 + r / 4 % 8

/-- The translation hardware of a cluster that holds nothing. -/
def Mmu.reset : Mmu := { tlb := [], ptrs := [], misses := [], queue := [] }

/-- The translation hardware of a cluster. -/
def State.mmuAt (s : State) (cl : Nat) : Mmu := (Table.find s.mmus cl).getD Mmu.reset

/-- The state with the translation hardware of a cluster changed. -/
def State.modMmu (s : State) (cl : Nat) (f : Mmu → Mmu) : State := { s with mmus := Table.set s.mmus cl (f (s.mmuAt cl)) }

/-- Whether a held translation is of a partition's page that holds a virtual address. -/
def TlbEntry.holds (t : TlbEntry) (pid va : Nat) : Bool := t.pid == pid && va / 2 ^ t.size == t.va / 2 ^ t.size

/-- The translation that the TLB of the core or of its cluster holds for a virtual address, unless the access takes what
memory holds (05_memory.md R168, R169). -/
def State.tlbHit (s : State) (va : Nat) : Option TlbEntry :=
  if s.me.bypass then none
  else (s.me.tlb.find? (·.holds s.me.pid va)).or ((s.mmuAt (clusterOf s.rank)).tlb.find? (·.holds s.me.pid va))

/-- The levels that a walk of core r has still to go and the table from which it goes: that of the deepest pointer entry of
its cluster's walk cache (05_memory.md R169), else the root. -/
def walkFirst (s : State) (r va : Nat) : List Nat × Nat :=
  let c := s.coreAt r
  let held (sh : Nat) : Option PtrEntry :=
    if c.bypass then none
    else (s.mmuAt (clusterOf r)).ptrs.find? fun p => p.pid == c.pid && p.size == sh && va / 2 ^ sh == p.va / 2 ^ sh
  match held 28, held 40 with
  | some p, _ => ([16], p.table)
  | none, some p => ([28, 16], p.table)
  | none, none => (walkLevels, field c.ctl.ptroot 16 32 * 2 ^ 16)

/-- The walk of a core (05_memory.md R167, R169). -/
def coreWalk (s : State) (r va : Nat) (k : AccessKind) : WalkRes := let f := walkFirst s r va; walkFrom s va k f.1 f.2

/-- The pointer entries that a walk passes. -/
def walkPtrs (s : State) (pid va : Nat) : List Nat → Nat → List PtrEntry
  | [], _ => []
  | sh :: rest, t =>
    let e : BitVec 64 := BitVec.ofNat 64 (s.mem.readNat (t + 8 * (va / 2 ^ sh % 4096)) 8)
    if e.getLsbD 0 = false ∨ e.getLsbD 1 = true then []
    else
      let n := field e 16 32 * 2 ^ 16
      { pid := pid, va := va / 2 ^ sh * 2 ^ sh, size := sh, table := n } :: walkPtrs s pid va rest n

/-- A list with an element at its young end in place of its equals, at most n elements long. -/
def addYoung {α : Type} (n : Nat) (same : α → α → Bool) (l : List α) (x : α) : List α :=
  let keep := l.filter fun y => !same x y
  (keep ++ [x]).drop (keep.length + 1 - n)

/-- Whether two held translations are of one page. -/
def TlbEntry.same (a b : TlbEntry) : Bool := a.pid == b.pid && a.va == b.va && a.size == b.size

/-- What a walk of core r has found fills the walk cache and the second-level TLB of its cluster and the TLBs of some cores
of it (05_memory.md R169, R170); the leaf is held with the bits that the walk has set. -/
def fillFrom (s : State) (r va : Nat) (leaf : BitVec 64) (sh : Nat) (cores : List Nat) : State :=
  let pid := (s.coreAt r).pid
  let e : TlbEntry := { pid := pid, va := va / 2 ^ sh * 2 ^ sh, size := sh, leaf := leaf }
  let f := walkFirst s r va
  let s1 := s.modMmu (clusterOf r) fun m =>
    { m with
      tlb := addYoung 4096 TlbEntry.same m.tlb e
      ptrs := (walkPtrs s pid va f.1 f.2).foldl
        (addYoung 64 fun a b => a.pid == b.pid && a.va == b.va && a.size == b.size) m.ptrs }
  cores.foldl (fun t q => t.modCore q fun c => { c with tlb := addYoung 128 TlbEntry.same c.tlb e }) s1

/-- Whether a miss is of a partition's 64 KiB page. -/
def Miss.of (m : Miss) (pid va : Nat) : Bool := m.pid == pid && m.page == va / 2 ^ 16

/-- The walks that a core has outstanding. -/
def Mmu.waitsOf (m : Mmu) (r : Nat) : Nat := ((m.misses ++ m.queue).map fun x => x.waits.countP (·.core == r)).sum

/-- A miss starts or joins a walk of a cluster, or joins the queue of those that wait for a free entry; none where the core
has eight outstanding or the queue is full (05_memory.md R170). -/
def Mmu.miss (m : Mmu) (pid : Nat) (w : MissWait) : Option Mmu :=
  let va := field w.walk.va 0 52
  let x : Miss := { pid := pid, page := va / 2 ^ 16, waits := [w] }
  if 8 ≤ m.waitsOf w.core then none
  else if m.misses.any (·.of pid va) then
    some { m with misses := m.misses.map fun y => if y.of pid va then { y with waits := y.waits ++ [w] } else y }
  else if m.misses.length < 64 then some { m with misses := m.misses ++ [x] }
  else if m.queue.length < 256 then some { m with queue := m.queue ++ [x] }
  else none

/-- Whether the walk of an access of a core's engine is under way already. -/
def Mmu.awaits (m : Mmu) (r pid va : Nat) (w : Engine) : Bool :=
  (m.misses ++ m.queue).any fun x => x.of pid va && x.waits.any fun y => y.core == r && y.eng == some w

/-- A translated place: its physical address and whether its page lies in the host window and is owned by the host
(06_ordering.md R204). -/
structure Place where
  pa      : Nat
  host    : Bool
  hostOwn : Bool
  deriving DecidableEq, Repr

/-- The place that a leaf gives; HOSTOWN outside the host window is ignored (06_ordering.md R204). -/
def placeOf (s : State) (pa : Nat) (e : BitVec 64) : Place :=
  let h := s.row pa == some .host
  { pa := pa, host := h, hostOwn := h && e.getLsbD 59 }

/-- The page walker's answer to a miss of the core of this step: it sets A and D and fills the TLBs; a page in transit holds
the access (06_ordering.md R205); a clear V bit traps with 0x06, which posts a fault-queue entry when the trap is taken
(05_memory.md R171); and a poisoned entry is a machine check (01_machine.md R37). -/
def walkNow (s : State) (w : Engine) (va : Word64) (k : AccessKind) : Res (Place × State) :=
  let a := field va 0 52
  let trap (cause : Nat) : Res (Place × State) := .trap { mkTrap w cause va with kind := k } s
  match coreWalk s s.rank a k with
  | .leaf pa entry e sh =>
    if e.getLsbD 60 then .hold (.ownTransit va) s
    else
      let t := touchLeaf s entry e k
      .ok (placeOf s pa e, if s.me.bypass then t else fillFrom t s.rank a (touched e k) sh [s.rank])
  | .absent => trap 0x06
  | .denied => trap 0x07
  | .poisoned => trap 0x0D

/-- A core's translation of a virtual address: by a TLB when one holds the page, else by a walk. A miss on a page whose walk
is under way joins it; one that finds the miss-status entries busy waits its turn, or holds where there is no room
(05_memory.md R164, R170). A store that hits an entry whose D is clear makes a walk, which sets it (R167; DESIGN CHOICE, log
entry 82). -/
def translate (s : State) (w : Engine) (va : Word64) (k : AccessKind) : Res (Place × State) :=
  let a := field va 0 52
  match (s.tlbHit a).filter fun t => !(k == .store && leafAllows t.leaf k && !t.leaf.getLsbD 6) with
  | some t =>
    match leafResult s a k 0 t.leaf t.size with
    | .leaf pa _ e _ => .ok (placeOf s pa e, s)
    | _ => .trap { mkTrap w 0x07 va with kind := k } s
  | none =>
    let cl := clusterOf s.rank
    let m := s.mmuAt cl
    if m.awaits s.rank s.me.pid a w then .hold .pageWalk s
    else if m.misses.length < 64 ∧ m.waitsOf s.rank < 8 ∧ m.misses.any (·.of s.me.pid a) = false then walkNow s w va k
    else
      .hold .pageWalk (match m.miss s.me.pid { core := s.rank, walk := { va := va, kind := k }, eng := some w } with
        | some n => s.modMmu cl fun _ => n
        | none => s)

/-! Access. -/

/-- A run of bytes at keys: the first key, their number, and what page they lie in. -/
structure Chunk where
  key     : Nat
  len     : Nat
  host    : Bool
  hostOwn : Bool
  deriving DecidableEq, Repr

/-- What an access names (05_memory.md R148): bytes; the local memory of another package's core; a window of region
0xE or 0xF. -/
inductive Target where
  | bytes (l : List Chunk)
  | remote (pkg : BitVec 18) (core : BitVec 12) (off : BitVec 19)
  | window (x : Word64)
  deriving DecidableEq, Repr

/-- Where an operation allows its operand to lie (05_memory.md R498). -/
inductive Allow where
  /-- Any region. -/
  | any
  /-- Regions 0xC and 0xD. -/
  | local_
  /-- The core's own local memory. -/
  | own
  /-- The core's own local memory, for a descriptor whose check asks for no permission beside its own (04_scalar.md
  R119). -/
  | nest
  /-- Regions 0x0, 0xC and 0xD. -/
  | memory
  /-- Region 0x0. -/
  | generic
  deriving DecidableEq, Repr

/-- The region test of 05_memory.md R498. -/
def allowed (s : State) (al : Allow) (x : Word64) : Bool :=
  match al with
  | .any => true
  | .local_ => region x == 0xC || region x == 0xD
  | .own => s.isOwn x
  | .nest => s.isOwn x
  | .memory => region x == 0x0 || region x == 0xC || region x == 0xD
  | .generic => region x == 0x0

/-- The permissions that a region adds (05_memory.md R149, R174; 07_sync.md R225). -/
def regionPerms (s : State) (x : Word64) : BitVec 12 :=
  let r := region x
  let far := coordPkg x != s.me.ctl.pkg || (coordCore x).toNat != s.rank
  (if r = 0xC ∨ r = 0xD then permLocal else 0#12) |||
    (if (r = 0xC ∨ r = 0xE) ∧ far = true then permRemote else 0#12)

/-- The kinds of access that a permission set needs: a load, a store, or both, whose miss counts as a store's (05_memory.md
R174, 12_copy.md Example 1). -/
def kindsOf (need : BitVec 12) : List AccessKind :=
  if need &&& permStore = permStore then
    (if need &&& permLoad = permLoad then [.store, .load] else [.store])
  else if need &&& permExecute = permExecute then [.fetch]
  else [.load]

/-- A page of an access translated for each of its kinds. -/
def translateKinds (s : State) (w : Engine) (va : Word64) : List AccessKind → Res (Place × State)
  | [] => .ok ({ pa := 0, host := false, hostOwn := false }, s)
  | [k] => translate s w va k
  | k :: ks => (translate s w va k).bind fun r => translateKinds r.2 w va ks

/-- The pages of n bytes at a virtual address, translated in ascending order; fuel bounds their number
(05_memory.md R173). -/
def pages (s : State) (w : Engine) (ks : List AccessKind) : Nat → Word64 → Nat → Res (List Chunk × State)
  | 0, _, _ => .ok ([], s)
  | fuel + 1, va, n =>
    if n = 0 then .ok ([], s)
    else if region va ≠ 0 then .trap (mkTrap w 0x07 va) s
    else
      (translateKinds s w va ks).bind fun r =>
        let k := min n (2 ^ 16 - field va 0 16)
        (pages r.2 w ks fuel (va + BitVec.ofNat 64 k) (n - k)).bind fun q =>
          .ok ({ key := r.1.pa, len := k, host := r.1.host, hostOwn := r.1.hostOwn } :: q.1, q.2)

/-- The n bytes at an offset of a core's local memory, and those beyond its end in the memory of the core of the next rank
(05_memory.md R173). -/
def localChunks (r off n : Nat) : List Chunk :=
  let m := min n (localSize - off)
  { key := localKey r off, len := m, host := false, hostOwn := false } ::
    (if m < n then [{ key := localKey (r + 1) 0, len := n - m, host := false, hostOwn := false }] else [])

/-- The steps of access() after the capability, alignment and region tests (05_memory.md R174). An access of region 0xC that runs
past the end of core 4,095 has no next core in its package, and traps (DESIGN CHOICE, log entry 97). -/
def resolve (s : State) (w : Engine) (x : Word64) (n : Nat) (need : BitVec 12) : Res (Target × State) :=
  let last := x + BitVec.ofNat 64 (n - 1)
  match region x with
  | 0x0 => (pages s w (kindsOf need) (n / 2 ^ 16 + 2) x n).bind fun r => .ok (.bytes r.1, r.2)
  | 0xD =>
    if field x 19 33 ≠ 0 ∨ field last 19 33 ≠ 0 ∨ region last ≠ 0xD then .trap (mkTrap w 0x07 x) s
    else .ok (.bytes [{ key := localKey s.rank (coordOff x), len := n, host := false, hostOwn := false }], s)
  | 0xC =>
    if field x 49 3 ≠ 0 ∨ field last 49 3 ≠ 0 ∨ region last ≠ 0xC then .trap (mkTrap w 0x07 x) s
    else if coordPkg x ≠ s.me.ctl.pkg then
      (if podOk (coordPkg x) then .ok (.remote (coordPkg x) (coordCore x) (x.extractLsb' 0 19), s)
       else .trap (mkTrap w 0x07 x) s)
    else if coordPkg last ≠ s.me.ctl.pkg then .trap (mkTrap w 0x07 x) s
    else
      (rankCheck s w s.me.pid (coordCore x).toNat x).bind fun _ =>
        (if coordCore last = coordCore x then .ok () else rankCheck s w s.me.pid (coordCore last).toNat x).bind fun _ =>
          .ok (.bytes (localChunks (coordCore x).toNat (coordOff x) n), s)
  | 0xE =>
    if coordPkg x ≠ s.me.ctl.pkg then
      (if podOk (coordPkg x) then .ok (.window x, s) else .trap (mkTrap w 0x07 x) s)
    else (rankCheck s w s.me.pid (coordCore x).toNat x).bind fun _ => .ok (.window x, s)
  | 0xF => if s.me.atTask then .trap (mkTrap w 0x07 x) s else .ok (.window x, s)
  | _ => .trap (mkTrap w 0x07 x) s

/-- The checks of an access before anything is translated, in the order of 05_memory.md R174 and R498: capability,
alignment, region. `align` is the operation's own alignment. -/
def precheck (s : State) (c : GVal) (x : Word64) (n : Nat) (need : BitVec 12) (align : Nat)
    (al : Allow) : Option Nat :=
  match capCheck c x n (need ||| (if al = .nest then 0#12 else regionPerms s x)) with
  | some cause => some cause
  | none =>
    if x.toNat % align ≠ 0 then some 0x05
    else if allowed s al x = false then some 0x07
    else if al = .nest ∧ s.isOwn (x + BitVec.ofNat 64 (n - 1)) = false then some 0x07
    else if (region x = 0xE ∨ region x = 0xF) ∧ (8 < n ∨ x.toNat % n ≠ 0) then some 0x05
    else none

/-- access(c, x, n, need) of 05_memory.md R174, with the operation's own alignment and region test (R498). -/
def access (s : State) (w : Engine) (c : GVal) (x : Word64) (n : Nat) (need : BitVec 12) (align : Nat)
    (al : Allow) : Res (Target × State) :=
  match precheck s c x n need align al with
  | some cause => .trap (mkTrap w cause x) s
  | none => resolve s w x n need

/-! Bytes of a target. -/

/-- The bytes of a list of chunks, in order. -/
def State.readChunks (s : State) : List Chunk → List Byte
  | [] => []
  | c :: t => s.mem.read c.key c.len ++ State.readChunks s t

/-- Whether a chunk holds a poisoned byte. -/
def State.chunksPoisoned (s : State) (l : List Chunk) : Bool := l.any (fun c => s.poisoned c.key c.len)

/-- The state with bytes stored over a list of chunks, in ascending order (05_memory.md R173). -/
def State.storeChunks (s : State) : List Chunk → List Byte → State
  | [], _ => s
  | c :: t, bs => State.storeChunks (s.store c.key (bs.take c.len)) t (bs.drop c.len)

/-- The bytes that another package answers to a load: free values (log entry 10). -/
def remoteBytes (fresh : Nat) : Nat → List Byte
  | 0 => []
  | n + 1 => remoteBytes fresh n ++ [Config.remoteByte fresh n]

/-- Whether the u-th unit of 16 bytes of such a load of n bytes comes with its tag set: a free value (05_memory.md R152, 12_copy.md
R359; log entry 10). -/
def remoteTag (fresh n u : Nat) : Bool := (Config.remoteByte fresh (n + u)).getLsbD 0

/-- The offset that a signed immediate of w bits adds to an address. -/
def sextOff {_n : Nat} (i : BitVec _n) : Word64 := BitVec.signExtend 64 i

end Sys2Proof.Machine
end

