-- ==== Sys2Proof/Machine/Objects.lean ====
section
/-! DEFINITION. The objects that cores wait on, as their owner's interface keeps them: presence tags with their held
arrivals, mailbox counters, barrier objects and the event queue (07_sync.md, 12_copy.md R361), and the service of the
requests that wait there (R221). -/

/-- The code of an arrival in an overrun record (12_copy.md R361). -/
def Sys2Proof.ArrivalKind.code : ArrivalKind → Nat
  | .putf | .putw => 0 | .dputf => 1 | .inject | .pin => 2 | .ue => 3

namespace Sys2Proof.Machine

/-! Replies. -/

/-- A group with a member that has work of its own must end at its next safe point (09_compose.md R272). -/
def groupPending (s : State) (r : Nat) : State :=
  match (s.coreAt r).group with
  | .single => s
  | .composeLead _ | .gangLead _ => s.modCore r fun c => { c with groupEnd := true }
  | .member lead _ => s.modCore lead fun c => { c with groupEnd := true }

/-- A RESUME record is pushed for a parked task, named by its frame (08_tasks.md R265, R266). -/
def pushResume (s : State) (r frame : Nat) : State :=
  groupPending (s.modCore r fun c => { c with resumes := c.resumes ++ [frame] }) r

/-- The offsets of a frame's areas (15_system.md R431, R432). -/
abbrev frPcS : Nat := 0x20
abbrev frPosS : Nat := 0x40
abbrev frCode : Nat := 0x50
abbrev frCtl : Nat := 0x60
abbrev frOut : Nat := 0x200
abbrev frCap : Nat := 0x400
abbrev frLatch : Nat := 0x1900
abbrev frNest : Nat := 0x2440
abbrev frDq : Nat := 0x2640
abbrev frTok : Nat := 0x2840
abbrev frBind : Nat := 0x2880
abbrev frP : Nat := 0x2B80
abbrev frG : Nat := 0x2C00
abbrev frV : Nat := 0x3000
abbrev frT : Nat := 0x4000
abbrev frAcc : Nat := 0x24000
/-- The bytes of a full frame: 272 KiB. -/
abbrev frSize : Nat := 278528
/-- The bytes that a trap writes. -/
abbrev frShort : Nat := 16384

/-- The reply of a parked task's request is written into its frame in place of a register, and the frame's S walker
steps past the word (08_tasks.md R265, R266). -/
def replyFrame (s : State) (fa : Nat) (d : GIdx) (x : GVal) : State :=
  let s1 := if d = 0#6 then s else s.storeTagged (fa + frG + 16 * d.toNat) (leBytes 16 x.bits.toNat) x.tag
  let pc := s1.mem.readNat (fa + frPcS) 8
  let s2 := s1.storeNat (fa + frPcS) 8 ((pc + 4) % 2 ^ 64)
  let s3 := s2.storeNat (fa + frCode) 8 ((s2.mem.readNat (fa + frCode) 8 + 4) % 2 ^ 64)
  s3.storeNat (fa + frPosS) 4 ((s3.mem.readNat (fa + frPosS) 4 + 1) % 2 ^ 32)

/-- A cause that a parked task takes when it resumes, at the word of a walker, recorded in the PF field of its frame
(15_system.md R432, R434). -/
def faultFrame (s : State) (fa : Nat) (w : Engine) (cause : Nat) (seq : Nat) : State :=
  let s1 := s.storeNat (fa + 3) 1 (s.mem.readNat (fa + 3) 1 / 2 * 2 + 1)
  s1.storeNat (fa + 0x18) 8 (cause + w.code * 2 ^ 8 + seq * 2 ^ 32)

/-- An answer for another package leaves this one (05_memory.md R156). -/
def State.answer (s : State) (bytes : Option (List Byte)) : State := { s with outbox := s.outbox ++ [.reply bytes] }

/-- A waiting request completes with a value for its register: in place on its core, into its park frame with a RESUME
record, or in an answer to another package (07_sync.md R221, 08_tasks.md R265). -/
def replyValue (s : State) (q : WaitReq) (d : GIdx) (x : GVal) : State :=
  match q.away, q.frame with
  | some _, _ => s.answer (some (leBytes 16 x.bits.toNat))
  | none, none => s.modCore q.src fun c => c.finish d x
  | none, some fa => pushResume (replyFrame s fa d x) q.src fa

/-- A waiting request ends in a trap at its word. -/
def replyTrap (s : State) (q : WaitReq) (cause : Nat) (addr : Word64) : State :=
  match q.away, q.frame with
  | some _, _ => s.answer none
  | none, none => s.modCore q.src fun c => { c with blocked := none, pendTrap := some (trapS cause addr) }
  | none, some fa => pushResume (faultFrame s fa .s cause 0) q.src fa

/-- A waiting request is dropped and its word executes again from the start; another package is answered with an
error. -/
def replyAgain (s : State) (q : WaitReq) : State :=
  match q.away, q.frame with
  | some _, _ => s.answer none
  | none, none => s.modCore q.src fun c => { c with blocked := none }
  | none, some fa => pushResume s q.src fa

/-! The event queue. -/

/-- A record is written to a core's event queue, or discarded and counted when the queue is full (12_copy.md R361). -/
def eventRecord (s : State) (r : Nat) (kind arrival user : Nat) (addr : Word64) (srcPkg : BitVec 32)
    (srcCore : BitVec 16) : State :=
  let c := s.coreAt r
  let n := 2 ^ field c.ctl.evqbase 24 5
  let head := field c.ctl.evqptr 16 16
  let tail := field c.ctl.evqptr 0 16
  if (tail + 65536 - head) % 65536 = n then
    s.modCore r fun c => c.modCtl fun k =>
      { k with evqptr := setField k.evqptr 48 16 (min 65535 (field k.evqptr 48 16 + 1)) }
  else
    let off := (field c.ctl.evqbase 5 14 * 32 + 32 * (tail % n)) % localSize
    let bytes := leBytes 1 kind ++ leBytes 1 arrival ++ leBytes 2 0 ++ leBytes 4 user ++ leBytes 8 addr.toNat ++
      leBytes 4 srcPkg.toNat ++ leBytes 2 srcCore.toNat ++ leBytes 2 0 ++ leBytes 8 c.evqSeq.toNat
    (s.store (localKey r off) bytes).modCore r fun c =>
      { (c.modCtl fun k => { k with evqptr := setField k.evqptr 0 16 (tail + 1) }) with evqSeq := c.evqSeq + 1#64 }

/-! Granules. -/

/-- The injection that an applied or discarded granule lets go on (14_futures.md R411). -/
def injectAcked (s : State) (a : Arrival) : State :=
  { s with injects := s.injects.map fun i =>
      if a.kind = .inject ∧ i.entry = a.entry.toNat ∧ i.wait = true then { i with wait := false } else i }

/-- Whether a request is the PUTW of an arrival: one of a core of this package, or of the package that sent it. -/
def WaitReq.isPutw (q : WaitReq) (a : Arrival) : Bool :=
  q.op == .putw && q.off == a.off.toNat &&
    (match q.away with
     | none => q.src == a.srcCore.toNat
     | some (p, k) => p.setWidth 32 == a.srcPkg && k.setWidth 16 == a.srcCore)

/-- The waiting PUTW of a held arrival, if its core still waits for it (07_sync.md R223). -/
def putwReq (c : Core) (a : Arrival) : Option WaitReq :=
  if a.kind = .putw then
    c.waitq.find? fun q => q.isPutw a && (q.away.isSome == (a.srcPkg != c.ctl.pkg.setWidth 32))
  else none

/-- A waiting request leaves its owner's queue. -/
def dropReq (s : State) (r : Nat) (q : WaitReq) : State :=
  s.modCore r fun c => { c with waitq := c.waitq.erase q }

/-- An overrun (07_sync.md R217, R223): the counters, the event record of a posted arrival, and the report to a
waiting PUTW, to an injection or to the transport. ADDR of a PUTW's trap is the address that its word computed, by the alias
or as coordinates: 15_system.md R426 says only Address (DEDUCED, log entry 78). -/
def overrun (s : State) (a : Arrival) : State :=
  let r := a.dst.toNat
  let gr := a.off.toNat / 64
  let s1 := s.modCore r fun c => c.modCtl fun k =>
    { k with prsovf := setField (setField k.prsovf 0 13 gr) 16 16 (min 65535 (field k.prsovf 16 16 + 1))
             intpend := if field k.prsovf 16 16 = 65535 then k.intpend else setField k.intpend 5 1 1 }
  match a.kind with
  | .putw =>
    match putwReq (s1.coreAt r) a with
    | some q => 
      replyTrap (dropReq s1 r q) q 0x08
        (if a.byAlias then BitVec.ofNat 64 (0xD * 2 ^ 52 + a.off.toNat) else s1.coordAddr r a.off.toNat)
    | none => s1
  | k =>
    let s2 := eventRecord s1 r 2 k.code gr 0#64 a.srcPkg a.srcCore
    let s3 := injectAcked s2 a
    match a.ue with
    | none => s3
    | some (pair, n) =>
      { s3 with
        outbox := s3.outbox ++ [.nack n]
        ueRetry := match pair with | some p => s3.ueRetry ++ [(p, n)] | none => s3.ueRetry }

/-- A tagged arrival is applied at its empty granule: its bytes are written and the tag turns full in one step
(07_sync.md R215). -/
def applyArrival (s : State) (a : Arrival) : State :=
  let r := a.dst.toNat
  let s1 := ((s.store (localKey r a.off.toNat) a.bytes).markPoison (a.bad.map (localKey r a.off.toNat + ·))).modCore r
    fun c => c.setFull (a.off.toNat / 64) true
  let s2 := injectAcked (s1.notify (localKey r (a.off.toNat / 64 * 64)) 64) a
  match putwReq (s2.coreAt r) a with
  | some q => replyValue (dropReq s2 r q) q 0#6 GVal.zero
  | none => s2

/-- Whether a held PUTF that the core itself made through the alias overlaps an alias access of u aligned bytes
(07_sync.md R224). -/
def Core.ownFill (c : Core) (x : Word64) (u : Nat) : Bool :=
  region x == 0xD && c.held.any fun (h : Held) => h.arr.byAlias && h.arr.off.toNat / u == coordOff x / u

/-- The first consumer that waits on a granule (07_sync.md R221). -/
def firstConsumer (c : Core) (gr : Nat) : Option WaitReq :=
  c.waitq.find? fun q => q.off / 64 == gr && (match q.op with | .take _ | .peek _ => true | _ => false)

/-- The first arrival held for a granule (07_sync.md R216). -/
def firstHeld (c : Core) (gr : Nat) : Option Held := c.held.find? fun h => h.arr.off.toNat / 64 == gr

/-- Whether two arrivals are granules of one DPUT.f, which are applied in ascending order (12_copy.md R358). -/
def samePut (a b : Arrival) : Bool :=
  a.kind == .dputf && b.kind == .dputf && a.srcPkg == b.srcPkg && a.srcCore == b.srcCore && a.cmd == b.cmd

/-- Whether a lower granule of an arrival's DPUT.f is held before it (12_copy.md R358). -/
def Core.behindPut (c : Core) (a : Arrival) : Bool :=
  c.held.any fun h => samePut h.arr a && decide (h.arr.off.toNat < a.off.toNat)

/-- The granule of the first arrival held of the same DPUT.f. -/
def nextPut (c : Core) (a : Arrival) : Option Nat :=
  (c.held.find? fun h => samePut h.arr a).map fun h => h.arr.off.toNat / 64

/-- The consumers and held arrivals of one granule take their turns until none can, and then the next granule of a DPUT.f whose
granule was applied (07_sync.md R218, R219, 12_copy.md R358); fuel bounds their number. -/
def settleGranule (r gr : Nat) : Nat → State → State
  | 0, s => s
  | fuel + 1, s =>
    let c := s.coreAt r
    if c.full gr then
      match firstConsumer c gr with
      | none => s
      | some q =>
        let key := localKey r q.off
        let s1 := dropReq s r q
        if s.poisoned key 16 then settleGranule r gr fuel (replyAgain s1 q)
        else
          let x : GVal := { bits := BitVec.ofNat 128 (s.mem.readNat key 16), tag := false }
          match q.op with
          | .take d =>
            settleGranule r gr fuel
              (replyValue ((s1.modCore r fun c => c.setFull gr false).notify (localKey r (gr * 64)) 64) q d x)
          | .peek d => settleGranule r gr fuel (replyValue s1 q d x)
          | _ => s
    else
      match firstHeld c gr with
      | none => s
      | some h =>
        if c.behindPut h.arr then s
        else
          let s1 := applyArrival (s.modCore r fun c => { c with held := c.held.erase h }) h.arr
          settleGranule r gr fuel (match nextPut { c with held := c.held.erase h } h.arr with | some g => settleGranule r g fuel s1 | none => s1)

/-- The held arrivals of a core whose limit has passed are overruns, in the order in which they reached it (07_sync.md R216,
R217). -/
def expireHeld (s : State) (r : Nat) : State :=
  ((s.coreAt r).held.filter fun h => decide (h.until_ ≤ s.cycle)).foldl overrunHeld s
where
  /-- One of them, and what stood behind it. -/
  overrunHeld (t : State) (h : Held) : State :=
    let u := overrun (t.modCore r fun c => { c with held := c.held.erase h }) h.arr
    match nextPut (u.coreAt r) h.arr with
    | some g => settleGranule r g (2 * ((u.coreAt r).held.length + (u.coreAt r).waitq.length) + 2) u
    | none => u

/-- The turns of one granule of a core, after the arrivals held too long (07_sync.md R216, R218). -/
def serveGranule (s : State) (r gr : Nat) : State :=
  let t := expireHeld s r
  let c := t.coreAt r
  settleGranule r gr (2 * (c.held.length + c.waitq.length) + 2) t

/-- The tag of a granule is set or cleared by FULL, EMPTY or the presence window, with what that lets go on. -/
def markGranule (s : State) (r gr : Nat) (b : Bool) : State :=
  if (s.coreAt r).full gr = b then s
  else serveGranule ((s.modCore r fun c => c.setFull gr b).notify (localKey r (gr * 64)) 64) r gr

/-- A tagged arrival reaches its granule (07_sync.md R215, R216): applied, held for 4,096 cycles, or an overrun. -/
def arrive (s0 : State) (a : Arrival) : State :=
  let r := a.dst.toNat
  let s := expireHeld s0 r
  let gr := a.off.toNat / 64
  let c := s.coreAt r
  if c.full gr = false ∧ firstHeld c gr = none ∧ c.behindPut a = false then serveGranule (applyArrival s a) r gr
  else if 32 ≤ c.held.length then overrun s a
  else s.modCore r fun c => { c with held := c.held ++ [{ arr := a, until_ := s.cycle + 4096 }] }

/-! Mailbox counters. -/

/-- A counter has reached a target modulo 2^32 (07_sync.md R227, MBWAIT). -/
def mailReached (x target : BitVec 32) : Bool := decide (0 ≤ (x - target).toInt)

/-- The first MBWAIT on a counter whose target is reached. -/
def firstMail (c : Core) (i : BitVec 8) : Option WaitReq :=
  c.waitq.find? fun q => q.off == i.toNat &&
    (match q.op with | .mbwait _ t => mailReached (c.rmail i) t | _ => false)

/-- The waiters of a counter are served in their order (07_sync.md R221, R227). -/
def serveMail (r : Nat) (i : BitVec 8) : Nat → State → State
  | 0, s => s
  | fuel + 1, s =>
    match firstMail (s.coreAt r) i with
    | none => s
    | some q =>
      match q.op with
      | .mbwait d _ =>
        serveMail r i fuel (replyValue (dropReq s r q) q d (GVal.ofNat ((s.coreAt r).rmail i).toNat))
      | _ => s

/-- A counter takes a value (07_sync.md R226, R227, MBSET). -/
def setMail (s : State) (r : Nat) (i : BitVec 8) (x : BitVec 32) : State :=
  let s1 := s.modCore r fun c => c.wmail i x
  serveMail r i (s1.coreAt r).waitq.length s1

/-- An increment is applied to a counter (07_sync.md R226). -/
def incMail (s : State) (r : Nat) (i : BitVec 8) (amount : BitVec 32) : State :=
  setMail s r i ((s.coreAt r).rmail i + amount)

/-! Barrier objects. -/

/-- A barrier object (07_sync.md R228). -/
structure Bar where
  gen     : BitVec 32
  retired : Bool
  wrapped  : Bool
  expt    : Nat
  arrt    : Nat
  expb    : Nat
  arrb    : Nat
  wdrn    : Nat
  deriving DecidableEq, Repr

/-- The object at a key (07_sync.md R228). -/
def barLoad (m : Mem) (k : Nat) : Bar :=
  { gen := BitVec.ofNat 32 (m.readNat k 4), retired := m.readNat (k + 4) 1 % 2 == 1,
    wrapped := m.readNat (k + 4) 1 / 2 % 2 == 1, expt := m.readNat (k + 8) 4, arrt := m.readNat (k + 12) 4,
    expb := m.readNat (k + 16) 8, arrb := m.readNat (k + 24) 8, wdrn := m.readNat (k + 32) 4 }

/-- The bytes 0 to 35 of an object (07_sync.md R228). -/
def barBytes (o : Bar) : List Byte :=
  leBytes 4 o.gen.toNat ++ leBytes 4 (o.retired.toNat + 2 * o.wrapped.toNat) ++ leBytes 4 o.expt ++ leBytes 4 o.arrt ++
    leBytes 8 o.expb ++ leBytes 8 o.arrb ++ leBytes 4 o.wdrn

/-- Whether a phase is complete (07_sync.md R229). -/
def Bar.due (o : Bar) : Bool := !o.retired && decide (o.expt ≤ o.arrt) && decide (o.expb ≤ o.arrb)

/-- One phase ends (07_sync.md R229). -/
def Bar.phase (o : Bar) : Bar :=
  let e := o.expt - o.wdrn
  { o with arrt := o.arrt - o.expt, arrb := o.arrb - o.expb, gen := o.gen + 1#32, expt := e, wdrn := 0,
           retired := o.retired || (e == 0 && o.expb == 0) }

/-- How many further phases of unchanged expectation the arrivals of an object fill. -/
def Bar.more (o : Bar) : Nat :=
  if o.expt = 0 then o.arrb / o.expb
  else if o.expb = 0 then o.arrt / o.expt
  else min (o.arrt / o.expt) (o.arrb / o.expb)

/-- complete(o) of 07_sync.md R229: the first phase, whose end takes the withdrawals, and then every further phase at
once. -/
def Bar.complete (o : Bar) : Bar :=
  if o.due then
    let p := o.phase
    if p.due then
      let k := p.more
      { p with arrt := p.arrt - k * p.expt, arrb := p.arrb - k * p.expb, gen := p.gen + BitVec.ofNat 32 k }
    else p
  else o

/-- An arrival of one thread; a count that wraps sets OVER (07_sync.md R229). -/
def Bar.arrive (o : Bar) : Bar :=
  { o with arrt := (o.arrt + 1) % 2 ^ 32, wrapped := o.wrapped || decide (2 ^ 32 ≤ o.arrt + 1) }

/-- A credit of bytes (07_sync.md R230). -/
def Bar.credit (o : Bar) (n : Nat) : Bar :=
  { o with arrb := (o.arrb + n) % 2 ^ 64, wrapped := o.wrapped || decide (2 ^ 64 ≤ o.arrb + n) }

/-- withdraw(o, arrgen) of 07_sync.md R231, before complete(o). -/
def Bar.withdraw (o : Bar) (arrgen : BitVec 32) : Bar :=
  let p := if arrgen = o.gen then o else o.arrive
  { p with wdrn := (p.wdrn + 1) % 2 ^ 32 }

/-- Whether a byte of the object at an offset of a core is poisoned (01_machine.md R37). -/
def barBad (s : State) (r off : Nat) : Bool := s.poisoned (localKey r off) 36

/-- Whether a request waits on an object whose generation has moved on from the one it leaves, or is poisoned. -/
def barMoved (s : State) (r : Nat) (q : WaitReq) : Bool :=
  let gen : BitVec 32 := BitVec.ofNat 32 (s.mem.readNat (localKey r q.off) 4)
  match q.op with
  | .barwait g => g != gen || barBad s r q.off
  | .bartwait _ g => g != gen || barBad s r q.off
  | _ => false

/-- A BARWAIT or BARTWAIT is answered (07_sync.md R232): a BARTWAIT whose limit passed before this cycle returns 0, another
1. -/
def replyBar (s : State) (q : WaitReq) : State :=
  match q.op, q.deadline with
  | .bartwait d _, some t => replyValue s q d (GVal.ofNat (if t < s.cycle then 0 else 1))
  | .bartwait d _, none => replyValue s q d (GVal.ofNat 1)
  | _, _ => replyValue s q 0#6 GVal.zero

/-- The waiters of a core's objects whose generation has moved on are served in their order (07_sync.md R221, R232),
whatever wrote the generation; one whose object is poisoned makes its word again, which takes the machine check (01_machine.md
R37). -/
def serveBars (r : Nat) : Nat → State → State
  | 0, s => s
  | fuel + 1, s =>
    match (s.coreAt r).waitq.find? (barMoved s r) with
    | none => s
    | some q => serveBars r fuel (if barBad s r q.off then replyAgain (dropReq s r q) q else replyBar (dropReq s r q) q)

/-- An object of a core takes a value, with the mark of the bytes that it comes from (01_machine.md R37), and its waiters are
served. -/
def barStore (s : State) (r off : Nat) (o : Bar) (bad : Bool := false) : State :=
  let k := localKey r off
  let s1 := s.store k (barBytes o)
  let s2 := if bad then s1.markPoison ((List.range 36).map (k + ·)) else s1
  serveBars r (s2.coreAt r).waitq.length s2

/-- A read-modify-write of an object, followed by complete(o) (07_sync.md R228, R229). -/
def barUpdate (s : State) (r off : Nat) (f : Bar → Bar) : State :=
  barStore s r off (f (barLoad s.mem (localKey r off))).complete (barBad s r off)

/-- The withdrawal of one join slot of a core's task, if the slot is valid (07_sync.md R231), at the owner of the object,
which may be a core of another package; one for a rank in transit waits with the other messages to it (05_memory.md R155). -/
def withdrawSlot (s : State) (r : Nat) (i : BitVec 2) : State :=
  let b := (s.coreAt r).rslot i
  if field b 127 1 = 0 then s
  else
    let x : Word64 := b.setWidth 64
    let s1 := s.modCore r fun c => c.wslot i 0#128
    let g : BitVec 32 := BitVec.ofNat 32 (field b 64 32)
    let q : PkgReq := .withdraw (x.extractLsb' 0 19) g
    if coordPkg x ≠ (s.coreAt r).ctl.pkg then s1.requestFrom r (coordPkg x) (coordCore x) q
    else if rankMoves (s.rankAt (ifaceOf r) (coordCore x).toNat) then
      s1.sendNet r (coordCore x).toNat (.remoteAccessArrive
        { pid := (s.coreAt r).pid, srcPkg := coordPkg x, srcCore := BitVec.ofNat 12 r, core := coordCore x, req := q })
    else barUpdate s1 (coordCore x).toNat (coordOff x) fun o => o.withdraw g

/-- The withdrawals of every join slot in slot order (07_sync.md R231, BAREXIT). -/
def withdrawAll (s : State) (r : Nat) : State :=
  withdrawSlot (withdrawSlot (withdrawSlot (withdrawSlot s r 0#2) r 1#2) r 2#2) r 3#2

/-- Whether a request is that of the word at which a core's task stands, not of a parked task. -/
def WaitReq.current (q : WaitReq) (r : Nat) : Bool := q.src == r && q.frame.isNone && q.away.isNone

/-- The waiting request of a core's word leaves an interface, with the arrival of its PUTW: of those the core sent there, the
youngest (07_sync.md R222, R223). -/
def Core.withdrawWait (c : Core) (r : Nat) : Core :=
  match c.waitq.find? (·.current r) with
  | none => c
  | some q =>
    let mine (h : Held) : Bool := h.arr.kind == .putw && h.arr.srcPkg == c.ctl.pkg.setWidth 32 && q.isPutw h.arr
    { c with waitq := c.waitq.erase q, held := match c.held.reverse.find? mine with | some h => c.held.erase h | none => c.held }

/-- A blocking word's waiting request is withdrawn from its owner, with a held PUTW (07_sync.md R222); the requests of
parked tasks keep their places. -/
def abandon (s : State) (r : Nat) : State :=
  match (s.coreAt r).blocked, (s.coreAt r).atHub with
  | none, _ => s
  | some _, true => s
  | some _, false =>
    let s1 : State := { s with cores := s.cores.map fun (e : Nat × Core) => (e.1, e.2.withdrawWait r) }
    let s2 : State := { s1 with futs := s1.futs.map fun (e : Nat × Fut) =>
      (e.1, match e.2.waiter with
        | some w => if w.core = r ∧ w.frame = none ∧ e.2.pid = (s.coreAt r).pid then { e.2 with waiter := none } else e.2
        | none => e.2) }
    s2.modCore r fun c =>
      { c with blocked := none, resend := c.resend.filter fun x => match x with | .wait _ q => !q.current r | _ => true }

end Sys2Proof.Machine
end

