-- ==== Sys2Proof/Machine/Posted.lean ====
section
/-! DEFINITION. Accesses on their way: the posted messages between cores and the order in which they arrive
(06_ordering.md R189), and the buffered stores and outstanding loads of the S engine, piece by piece (05_memory.md R150,
R164, R173; 06_ordering.md R185 to R192). -/

namespace Sys2Proof.Machine

/-! Places. -/

/-- The core in whose local memory a key lies. -/
def keyCore (k : Nat) : Option Nat :=
  if 0xC * 2 ^ 52 ≤ k ∧ k < 0xC * 2 ^ 52 + 2 ^ 31 then some ((k - 0xC * 2 ^ 52) / 2 ^ 19) else none

/-- Whether an access reaches the own local memory by the alias (05_memory.md R150). -/
def viaAlias (x : Word64) : Bool := region x == 0xD

/-- Whether a chunk lies in the local memory of a core other than r. -/
def Chunk.far (c : Chunk) (r : Nat) : Option Nat :=
  match keyCore c.key with
  | some q => if q = r then none else some q
  | none => none

/-- The single-copy atomic size of the memory that holds a key (06_ordering.md R190). -/
def State.atomSize (s : State) (key : Nat) : Nat :=
  if (keyCore key).isSome then 64 else if s.row key = some .host then 8 else 32

/-- The runs of n bytes from a key that are single-copy atomic, in ascending order (06_ordering.md R191). -/
def atomsOf (b : Nat) : Nat → Nat → Nat → List (Nat × Nat)
  | 0, _, _ => []
  | fuel + 1, key, n =>
    if n = 0 then []
    else let m := min n (b - key % b); (key, m) :: atomsOf b fuel (key + m) (n - m)

/-- The single-copy atomic pieces of chunks, in ascending order (05_memory.md R173, 06_ordering.md R191). -/
def State.atoms (s : State) (l : List Chunk) : List (Nat × Nat) :=
  (l.map fun c => atomsOf (s.atomSize c.key) c.len c.key c.len).flatten

/-- Whether a run of n bytes from a key shares a byte with one of a list of runs. -/
def meets (key n : Nat) (l : List (Nat × Nat)) : Bool := l.any fun p => overlaps key n p.1 p.2

/-! Posted messages. -/

/-- The bytes of a posted store are written with their tags and poison marks (05_memory.md R152, 01_machine.md R37). -/
def landPosted (s : State) (w : PostedStore) : State :=
  let k := localKey w.dst.toNat w.off.toNat
  let t := s.storeTagged k w.bytes w.tag
  { t with ctags := (w.tags.map fun o => (k + o) / 16).foldl Keys.insert t.ctags }.markPoison (w.bad.map (k + ·))

/-- A posted store, tagged arrival or mailbox increment is performed at its destination (06_ordering.md R189, 07_sync.md
R215, R226, R227). -/
def applyPosted (s : State) (dst : Nat) : Instr → State
  | .postedStoreArrive w => landPosted s w
  | .taggedArrival a => arrive s a
  | .mailboxIncrementArrive i n => incMail s dst i n
  | _ => s

/-- Whether a message has the order of a posted store. -/
def isPosted : Instr → Bool
  | .postedStoreArrive _ => true
  | .taggedArrival _ => true
  | .mailboxIncrementArrive _ _ => true
  | _ => false

/-- A core's outstanding loads from a destination wait for one posted message less (06_ordering.md R189). -/
def Core.postedDone (c : Core) (dst : Nat) : Core :=
  { c with loads := c.loads.map fun l =>
      { l with after := l.after.map fun e => if e.1 = dst then (e.1, e.2 - 1) else e } }

/-- Whether a message is one of the task's partition on core r: another partition may have sent it from the same rank before
it was swapped out (08_tasks.md R268). -/
def NetMsg.mine (m : NetMsg) (s : State) (r : Nat) : Bool := m.src == r && m.pid == (s.coreAt r).pid

/-- The cores whose local memory a request reaches: an access that runs past the end of one goes on in the next (05_memory.md
R173). -/
def reqCores (q : RemoteAccess) : List Nat :=
  let run (off : BitVec 19) (n : Nat) : List Nat := (List.range ((off.toNat + (n - 1)) / 2 ^ 19 + 1)).map (q.core.toNat + ·)
  match q.req with
  | .load off n => run off n
  | .store off bs _ _ => run off bs.length
  | .red _ _ off _ _ bs => run off bs.length
  | _ => [q.core.toNat]

/-- Whether a message may reach its destination: there its rank is bound to the partition that sent it and not in transit, and
nor is another that it reaches (05_memory.md R155, R156). -/
def NetMsg.may (m : NetMsg) (s : State) : Bool :=
  let e := s.rankAt (ifaceOf m.src) m.dst
  rankHas e m.pid && !rankMoves e &&
    (match m.ev with
     | .remoteAccessArrive q => (reqCores q).all fun r => !rankMoves (s.rankAt (ifaceOf r) r)
     | _ => true)

/-- A posted message is performed at its destination. -/
def applyMsg (s : State) (m : NetMsg) : State :=
  (applyPosted s m.dst m.ev).modCore m.src fun c => c.postedDone m.dst

/-- The posted messages in flight that a test selects are performed in their order; those to a rank in transit wait
(05_memory.md R155). -/
def flushNet (s : State) (p : NetMsg → Bool) : State :=
  let sel (m : NetMsg) : Bool := isPosted m.ev && m.may s && p m
  (s.net.filter sel).foldl applyMsg { s with net := s.net.filter fun m => !sel m }

/-- The posted stores of a core to one destination are performed (06_ordering.md R189). -/
def flushTo (s : State) (r dst : Nat) : State := flushNet s fun m => m.mine s r && m.dst == dst

/-- Every posted store of a core is performed. -/
def flushFrom (s : State) (r : Nat) : State := flushNet s fun m => m.mine s r

/-- The n oldest posted messages of a core to one destination are performed. -/
def flushSome (r dst : Nat) : Nat → State → State
  | 0, s => s
  | n + 1, s =>
    match s.net.findIdx? fun m => isPosted m.ev && m.mine s r && m.dst == dst with
    | none => s
    | some i =>
      match s.net[i]? with
      | some m => flushSome r dst n (applyMsg { s with net := s.net.eraseIdx i } m)
      | none => s

/-- Whether a message is a push, an arming, a decrement or an active message of its sender, which a release waits for
(06_ordering.md R194). -/
def isPush : Instr → Bool
  | .remotePushArrive _ _ => true
  | .codltApply _ _ => true
  | .cdecApply _ _ => true
  | .amsgArrive _ => true
  | _ => false

/-- Whether no push of a core is on its way or waits to be sent again (06_ordering.md R194, 08_tasks.md R247). -/
def State.pushesDone (s : State) (r : Nat) : Bool :=
  (s.net.all fun m => !(m.mine s r && isPush m.ev)) &&
    (s.coreAt r).resend.all fun x => match x with | .push _ _ => false | .wait _ _ => true

/-- Whether a core's next piece of a load lies with a rank in transit, where it waits (05_memory.md R155). -/
def State.loadHeld (s : State) (r : Nat) (l : PendingLoad) : Bool :=
  match l.parts with
  | p :: _ => (match keyCore p.1 with | some q => q != r && rankMoves (s.rankAt (ifaceOf r) q) | none => false)
  | [] => false

/-- Whether no outstanding load of a core waits for a rank in transit (05_memory.md R155). -/
def State.landed (s : State) (r : Nat) : Bool := (s.coreAt r).loads.all fun l => !s.loadHeld r l

/-- Whether nothing of a core is on its way that only its destination can take: no push, no posted access to a rank in transit
and no load from one (05_memory.md R155, 06_ordering.md R194). -/
def State.released (s : State) (r : Nat) : Bool :=
  s.pushesDone r && (s.net.all fun m => !(m.mine s r && isPosted m.ev && !m.may s)) && s.landed r

/-- Whether an arming or a decrement of a core that is on its way changes a byte of some runs: the slot of 64 bytes that it names
(08_tasks.md R254, R255). Its later accesses to these bytes come after it (06_ordering.md R185). -/
def slotPending (s : State) (r : Nat) (l : List (Nat × Nat)) : Bool :=
  s.net.any fun m => m.mine s r &&
    (match m.ev with
     | .codltApply o _ => meets (localKey m.dst o.toNat) 64 l
     | .cdecApply o _ => meets (localKey m.dst o.toNat) 64 l
     | _ => false)

/-- The posted messages of a core to one destination that are in flight. -/
def postedTo (s : State) (r dst : Nat) : Nat := s.net.countP fun m => isPosted m.ev && m.mine s r && m.dst == dst

/-! The store buffer. -/

/-- Whether a buffered store has a piece still to perform that shares a byte with one of a list of runs. -/
def Buffered.meets (b : Buffered) (l : List (Nat × Nat)) : Bool := b.pieces.any fun p => Machine.meets p.1 p.2.length l

/-- Whether two stores of a core to a common byte by one path are ordered (06_ordering.md R185, 05_memory.md R150). -/
def Buffered.clash (a b : Buffered) : Bool := a.byAlias == b.byAlias && a.meets (b.pieces.map fun p => (p.1, p.2.length))

/-- Every piece of a buffered store performs in turn (05_memory.md R173, R176). -/
def performAll (s : State) (b : Buffered) : State := b.pieces.foldl (fun t p => t.storeTagged p.1 p.2 b.tag) s

/-- Whether the next piece of the i-th buffered store may perform: every earlier store to its bytes by the same path
has. -/
def storeMay (l : List Buffered) (i : Nat) : Bool :=
  match l[i]? with
  | none => false
  | some b => (l.take i).all fun q => !q.clash { b with pieces := b.pieces.take 1 }

/-- The next piece of the i-th buffered store of a core performs, where it may. -/
def performStore (s : State) (r i : Nat) : State :=
  let l := (s.coreAt r).stores
  match l[i]? with
  | some b =>
    if storeMay l i then
      let left := if b.pieces.length ≤ 1 then l.eraseIdx i else l.set i { b with pieces := b.pieces.drop 1 }
      performAll (s.modCore r fun c => { c with stores := left }) { b with pieces := b.pieces.take 1 }
    else s
  | none => s

/-- Every buffered store of a core performs. -/
def drainStores (s : State) (r : Nat) : State :=
  (s.coreAt r).stores.foldl performAll (s.modCore r fun c => { c with stores := [] })

/-- The elements of a list that a test asks for, with the earlier ones that must come before them, and the others. -/
def pick {α : Type} (p : α → Bool) (clash : α → α → Bool) : List α → List α × List α
  | [] => ([], [])
  | x :: t =>
    let r := pick p clash t
    if p x || r.1.any (clash x) then (x :: r.1, r.2) else (r.1, x :: r.2)

/-- The buffered stores of a core that a test asks for perform, after the earlier ones to their bytes. -/
def performWhere (s : State) (r : Nat) (p : Buffered → Bool) : State :=
  let q := pick p Buffered.clash (s.coreAt r).stores
  q.1.foldl performAll (s.modCore r fun c => { c with stores := q.2 })

/-- The buffered stores of a core to some runs of bytes by one path perform. -/
def performOver (s : State) (r : Nat) (al : Bool) (l : List (Nat × Nat)) : State :=
  performWhere s r fun b => b.byAlias == al && b.meets l

/-! What the S engine reads. -/

/-- The byte at a key in a list of pieces. -/
def byteIn (l : List (Nat × List Byte)) (k : Nat) : Option Byte :=
  l.findSome? fun p => if p.1 ≤ k then p.2[k - p.1]? else none

/-- The byte at a key that the core's youngest buffered store by a path holds, if one does (06_ordering.md R186). -/
def Core.storedByte (c : Core) (al : Bool) (k : Nat) : Option Byte :=
  c.stores.foldl (fun o b => if b.byAlias == al then (byteIn b.pieces k).or o else o) none

/-- A byte as the S engine of a core reads it by a path: from its own store buffer, else from memory (06_ordering.md R186).
Where `mix` holds, the byte of an access by the other path that is not ordered with it counts as performed (05_memory.md
R150). -/
def sByte (s : State) (c : Core) (al mix : Bool) (k : Nat) : Byte :=
  let m := (c.storedByte al k).getD (s.mem.get k)
  if mix then (c.storedByte (!al) k).getD m else m

/-- n bytes from a key as the S engine of a core reads them; bit j of `mix` chooses for byte j. -/
def sBytes (s : State) (c : Core) (al : Bool) (mix key n : Nat) : List Byte :=
  (List.range n).map fun j => sByte s c al (mix.testBit j) (key + j)

/-- The tag of the unit at a key as the S engine of a core reads it: that of its youngest buffered store there, else that
of memory. -/
def sTag (s : State) (c : Core) (al : Bool) (key : Nat) : Bool :=
  c.stores.foldl (fun o b => if b.byAlias == al && b.meets [(key, 16)] then b.tag else o) (s.ctag key)

/-! Post-update and atomics. -/

/-- The bytes of a width (02_encoding.md R54). -/
def widthBytes : Width → Nat
  | .b => 1 | .h => 2 | .w => 4 | .d => 8 | .q => 16

/-- post_update of 05_memory.md R158 with the window of CWWIN. -/
def postUpdate (cwwin : BitVec 32) (a : Word64) (d : Int) (cw : Bool) : Word64 :=
  let plain := a + BitVec.ofInt 64 d
  if cw = false ∨ region a ≠ 0xC then plain
  else
    let wb := field cwwin 0 19
    let ws := 2 ^ field cwwin 19 5
    let o := coordOff a
    if o < wb ∨ wb + ws ≤ o then plain
    else
      let n : Int := (o : Int) - wb + d
      let c := Int.fdiv n ws
      let r := BitVec.ofInt 12 ((coordCore a).toNat + c)
      setField (setField a 19 12 r.toNat) 0 19 (wb + (n - c * ws).toNat)

/-- g[ga] after the post-update of LDLOC or STLOC (05_memory.md R158, R177). -/
def updated (c : Core) (a : GIdx) (wd : Width) (upd : Update) (inc : BitVec 6) : Core :=
  match upd with
  | .stay => c
  | u => c.wg a (moveCap (c.rg a) (postUpdate c.ctl.cwwin (c.rg a).word (inc.toInt * widthBytes wd) (u == .cw)))

/-- The value that an atomic writes, if it writes (06_ordering.md R200): its code, the old value, the operand and the
expected value. -/
def amoNew (op : Nat) (old b e : Word64) : Option Word64 :=
  match op with
  | 0 => some (old + b)
  | 1 => some (old &&& b)
  | 2 => some (old ||| b)
  | 3 => some (old ^^^ b)
  | 4 => some (if b.slt old then b else old)
  | 5 => some (if old.slt b then b else old)
  | 6 => some b
  | _ => if old = e then some b else none

/-! Outstanding loads. -/

/-- Whether a load has still to read a byte of a list of runs. -/
def PendingLoad.meets (l : PendingLoad) (t : List (Nat × Nat)) : Bool := l.parts.any fun p => Machine.meets p.1 p.2.length t

/-- Whether two loads of a core read a common byte by one path, so that they return in their order (06_ordering.md
R185). -/
def PendingLoad.clash (a b : PendingLoad) : Bool := a.byAlias == b.byAlias && a.meets (b.parts.map fun p => (p.1, p.2.length))

/-- The posted stores to the destination of its next piece that a load waits for (06_ordering.md R189). -/
def PendingLoad.waits (l : PendingLoad) : List (Nat × Nat) :=
  match l.parts with
  | p :: _ => l.after.filter fun e => keyCore p.1 == some e.1 && e.2 != 0
  | [] => []

/-- The posted stores that a load's next piece waits for are performed (06_ordering.md R189). -/
def beforeLoad (s : State) (r : Nat) (l : PendingLoad) : State := l.waits.foldl (fun t e => flushSome r e.1 e.2 t) s

/-- The core's own buffered stores that an atomic comes after are performed (06_ordering.md R185). -/
def beforeAmo (s : State) (r : Nat) (l : PendingLoad) : State :=
  if l.amo.isSome then performOver s r l.byAlias (l.parts.map fun p => (p.1, p.2.length)) else s

/-- What an atomic writes at its home with the read of its operand, whose L1 copies are lost first (06_ordering.md R200,
R201). -/
def amoWrite (s : State) (key : Nat) (op : Nat × Word64 × Word64) (old : Word64) : State :=
  let s1 := if (keyCore key).isNone then s.notify key 8 else s
  match amoNew op.1 old op.2.1 op.2.2 with
  | some v => s1.storeNat key 8 v.toNat
  | none => s1

/-- A load that has read its last byte writes its register, and LDLOC's post-update is applied to it (05_memory.md R175,
R177). -/
def Core.loaded (c : Core) (l : PendingLoad) : Core :=
  let c1 := c.wg l.d { bits := BitVec.ofNat 128 (leNat l.got), tag := l.tag }
  match l.upd with
  | some (wd, u, i) => updated c1 l.d wd u i
  | none => c1

/-- The next piece of a load returns; after its last, the register takes the bytes (05_memory.md R164, R173, R175). Where an
error has marked the piece since the load was issued, the load has read it before (01_machine.md R37). -/
def landPiece (s : State) (r mix : Nat) (l : PendingLoad) : PendingLoad × State :=
  match l.parts with
  | [] => (l, s)
  | p :: t =>
    let s1 := beforeAmo s r l
    let c := s1.coreAt r
    let bad := s1.poisoned p.1 p.2.length
    let bs := if bad then p.2 else sBytes s1 c l.byAlias mix p.1 p.2.length
    let q := { l with
      parts := t, got := l.got ++ bs
      tag := l.tag && (if bad then l.tagWas else mix == 0 && sTag s1 c l.byAlias p.1) }
    let s2 := match l.amo with | some op => amoWrite s1 p.1 op (BitVec.ofNat 64 (leNat bs)) | none => s1
    if t.isEmpty then (q, s2.modCore r fun c => c.loaded q) else (q, s2)

/-- Whether the next piece of the i-th load of a core may return: the loads before it of the same bytes have, and so have
the posted stores that it waits for. -/
def loadMay (c : Core) (i : Nat) : Bool :=
  match c.loads[i]? with
  | none => false
  | some l => l.waits.isEmpty && (c.loads.take i).all fun q => !q.clash { l with parts := l.parts.take 1 }

/-- The next piece of the i-th load of a core returns, where it may. -/
def returnLoad (s : State) (r i mix : Nat) : State :=
  let c := s.coreAt r
  match c.loads[i]? with
  | some l =>
    if loadMay c i && !s.loadHeld r l then
      let q := landPiece s r mix l
      q.2.modCore r fun c => { c with loads := if q.1.parts.isEmpty then c.loads.eraseIdx i else c.loads.set i q.1 }
    else s
  | none => s

/-- The pieces of a load return in turn. -/
def landPieces (r : Nat) : Nat → PendingLoad × State → State
  | 0, x => x.2
  | n + 1, x => landPieces r n (landPiece (beforeLoad x.2 r x.1) r 0 x.1)

/-- A load returns whole. -/
def landLoad (s : State) (r : Nat) (l : PendingLoad) : State := landPieces r l.parts.length (l, s)

/-- The outstanding loads of a core that a test asks for return, after the earlier ones of their bytes; those from a rank in
transit go on waiting (05_memory.md R155). -/
def returnWhere (s : State) (r : Nat) (p : PendingLoad → Bool) : State :=
  let q := pick (fun l => p l && !s.loadHeld r l) PendingLoad.clash (s.coreAt r).loads
  q.1.foldl (fun t l => landLoad t r l) (s.modCore r fun c => { c with loads := q.2 })

/-- Every outstanding load of a core returns. -/
def landLoads (s : State) (r : Nat) : State := returnWhere s r fun _ => true

/-- The outstanding loads of a core from some runs of bytes by one path return (06_ordering.md R185). -/
def landOver (s : State) (r : Nat) (al : Bool) (l : List (Nat × Nat)) : State :=
  returnWhere s r fun q => q.byAlias == al && q.meets l

/-- The outstanding atomics of a core on some runs of bytes by one path are performed. -/
def landAmos (s : State) (r : Nat) (al : Bool) (l : List (Nat × Nat)) : State :=
  returnWhere s r fun q => q.amo.isSome && q.byAlias == al && q.meets l

/-- The outstanding loads of a core into some registers return (05_memory.md R164, 04_scalar.md R103). -/
def landRegs (s : State) (r : Nat) (l : List GIdx) : State := returnWhere s r fun q => l.contains q.d

/-- The S engine of a core has completed its loads and stores (04_scalar.md R146). -/
def drainS (s : State) (r : Nat) : State := drainStores (landLoads s r) r

/-! Acquires and releases. -/

/-- Whether a message in flight is a release write, or one that brings a release to its destination; a relaxed increment is
none (06_ordering.md R193, R209). -/
def NetMsg.isRelease (m : NetMsg) : Bool :=
  match m.ev with
  | .postedStoreArrive w => w.rel
  | .taggedArrival _ => true
  | .mailboxIncrementArrive _ _ => m.rel
  | _ => false

/-- Whether a posted message of a core must be performed before an acquire of the core: it is a release write, or stands before
one to its destination (06_ordering.md R189, R196). -/
def beforeAcquire (s : State) (r : Nat) (m : NetMsg) : Bool :=
  isPosted m.ev && m.mine s r && s.net.any fun q => q.mine s r && q.dst == m.dst && q.isRelease

/-- Before an acquire, the core's own release writes are performed, with what must come before them (06_ordering.md
R196). -/
def acquire (s : State) (r : Nat) : State :=
  let s1 := performWhere s r (·.rel)
  flushNet s1 (beforeAcquire s1 r)

/-- Whether a core may make an acquire's read: no release write of its own waits for a rank in transit (05_memory.md R155,
06_ordering.md R196). -/
def acquireReady (s : State) (r : Nat) : Bool := s.net.all fun m => !beforeAcquire s r m || m.may s

end Sys2Proof.Machine
end

