-- ==== Sys2Proof/Machine/Deque.lean ====
section
/-! DEFINITION. Task records and the deques that hold them: the record's bytes, pushes, pops, the ring that older
records spill to, steals and remote pushes (08_tasks.md R242 to R255). -/

namespace Sys2Proof

/-- The zero record. -/
def Record.zero : Record :=
  { argA := GVal.zero, argB := GVal.zero, entry := 0#64, wid := 0#64, done := 0#64, ctx := 0#16, flags := 0#16,
    count := 0#32 }

/-- PIN, MSG, RESUME and ARMED of a record (08_tasks.md R242). -/
def Record.pin (r : Record) : Bool := r.flags.getLsbD 0

/-- MSG (08_tasks.md R242). -/
def Record.msg (r : Record) : Bool := r.flags.getLsbD 1

/-- RESUME (08_tasks.md R242). -/
def Record.resume (r : Record) : Bool := r.flags.getLsbD 2

/-- ARMED (08_tasks.md R242). -/
def Record.armed (r : Record) : Bool := r.flags.getLsbD 3

/-- The 64 bytes of a record (08_tasks.md R242). -/
def Record.bytes (r : Record) : List Byte :=
  leBytes 16 r.argA.bits.toNat ++ leBytes 16 r.argB.bits.toNat ++ leBytes 8 r.entry.toNat ++ leBytes 8 r.wid.toNat ++
    leBytes 8 r.done.toNat ++ leBytes 2 r.ctx.toNat ++ leBytes 2 r.flags.toNat ++ leBytes 4 r.count.toNat

end Sys2Proof

namespace Sys2Proof.Machine

/-- The record in the 64 bytes at a key, with the tags of its argument units (08_tasks.md R242). -/
def recordAt (s : State) (k : Nat) : Record :=
  { argA := s.loadUnit k, argB := s.loadUnit (k + 16), entry := BitVec.ofNat 64 (s.mem.readNat (k + 32) 8),
    wid := BitVec.ofNat 64 (s.mem.readNat (k + 40) 8), done := BitVec.ofNat 64 (s.mem.readNat (k + 48) 8),
    ctx := BitVec.ofNat 16 (s.mem.readNat (k + 56) 2), flags := BitVec.ofNat 16 (s.mem.readNat (k + 58) 2),
    count := BitVec.ofNat 32 (s.mem.readNat (k + 60) 4), bad := s.poisoned k 64 }

/-- Tags set on the units of a list of keys. -/
def State.tagUnits (s : State) : List (Nat × Bool) → State
  | [] => s
  | (k, b) :: t => State.tagUnits (if b then { s with ctags := Keys.insert s.ctags (k / 16) } else s) t

/-- A record written at a key, with the tags of its argument units and the marks of its bytes (01_machine.md R37). -/
def putRecord (s : State) (k : Nat) (r : Record) : State :=
  let t := (s.store k r.bytes).tagUnits [(k, r.argA.tag), (k + 16, r.argB.tag)]
  if r.bad then t.markPoison ((List.range 64).map (k + ·)) else t

/-! The ring. -/

/-- The records that the ring of a core can hold (08_tasks.md R248, DQCFG.LOG). -/
def ringCap (c : Core) : Nat := 2 ^ field c.ctl.dqcfg 19 5

/-- The key of ring place i of a core. -/
def ringKey (s : State) (r i : Nat) : Nat :=
  let c := s.coreAt r
  localKey r ((field c.ctl.dqcfg 6 13 * 64 + 64 * (i % ringCap c)) % localSize)

/-- The record at ring place i of a core. It is a root task's when its bytes are those of the root record that was written there
(15_system.md R425, log entry 17). -/
def ringRec (s : State) (r i : Nat) : Record :=
  let k := ringKey s r i
  let x := recordAt s k
  if (s.coreAt r).rootRing.contains (k, x) then { x with root := true } else x

/-- The records of a ring from place i upward, n of them. -/
def ringRead (s : State) (r : Nat) : Nat → Nat → List Record
  | _, 0 => []
  | i, n + 1 => ringRec s r i :: ringRead s r (i + 1) n

/-- A record written to ring place i of a core. -/
def ringPut (s : State) (r i : Nat) (x : Record) : State :=
  let k := ringKey s r i
  (putRecord s k x).modCore r fun c =>
    { c with rootRing := c.rootRing.filter (fun e => e.1 != k) ++ if x.root then [(k, { x with root := false })] else [] }

/-- Records written to the ring from place i upward. -/
def ringWrite (s : State) (r : Nat) : Nat → List Record → State
  | _, [] => s
  | i, x :: t => ringWrite (ringPut s r i x) r (i + 1) t

/-- Every record of a core's deque, oldest first (08_tasks.md R245). -/
def dequeAll (s : State) (r : Nat) : List Record :=
  let c := s.coreAt r
  ringRead s r c.ringHead c.ringN ++ c.hw

/-- Whether a deque is empty. -/
def dequeEmpty (c : Core) : Bool := c.hw.isEmpty && c.ringN == 0

/-- Whether a deque is full (08_tasks.md R247). -/
def dequeFull (c : Core) : Bool := decide (32 ≤ c.hw.length) && decide (ringCap c < c.ringN + 16)

/-- The spill of R245: the 16 oldest records of the hardware go to the young end of the ring. -/
def spill (s : State) (r : Nat) : State :=
  let c := s.coreAt r
  (ringWrite s r (c.ringHead + c.ringN) (c.hw.take 16)).modCore r fun c =>
    { c with hw := c.hw.drop 16, ringN := c.ringN + (c.hw.take 16).length }

/-- A push at the young end of a deque that is not full (08_tasks.md R245). -/
def pushYoung (s : State) (r : Nat) (x : Record) : State :=
  (if 32 ≤ (s.coreAt r).hw.length then spill s r else s).modCore r fun c => { c with hw := c.hw ++ [x] }

/-- The refill of R245: an empty hardware takes up to 16 records from the ring's young end. -/
def refill (s : State) (r : Nat) : State :=
  let c := s.coreAt r
  if c.hw.isEmpty then
    let n := min 16 c.ringN
    let l := ringRead s r (c.ringHead + c.ringN - n) n
    s.modCore r fun c => { c with hw := l, ringN := c.ringN - n }
  else s

/-- A record placed at the old end of a deque (08_tasks.md R257); one without a place left takes its youngest record to the
push buffer (DESIGN CHOICE, log entry 79). -/
def pushOld (s : State) (r : Nat) (x : Record) : State :=
  let c := s.coreAt r
  if c.ringN = 0 ∧ c.hw.length < 32 then s.modCore r fun c => { c with hw := x :: c.hw }
  else
    let s1 :=
      if c.ringN < ringCap c then s
      else
        let y := ringRec s r (c.ringHead + c.ringN - 1)
        s.modCore r fun c =>
          if c.hw.length < 32 then { c with hw := y :: c.hw, ringN := c.ringN - 1 }
          else { c with hw := y :: c.hw.dropLast, ringN := c.ringN - 1, push := c.hw.getLast?.toList ++ c.push }
    let h := ((s1.coreAt r).ringHead + ringCap c - 1) % ringCap c
    (ringPut s1 r h x).modCore r fun c => { c with ringHead := h, ringN := c.ringN + 1 }

/-- The first word whose pushes wait at a core, with the first record and the others (08_tasks.md R247). -/
def firstPush (c : Core) : Option (WaitReq × Record × List Record × Bool) :=
  c.waitq.findSome? fun q => match q.op with | .push (x :: l) kept => some (q, x, l, kept) | _ => none

/-- A pinned record, a message task or a resume record makes a switch pending for its core's group
(09_compose.md R272). -/
def pushedTo (s : State) (r : Nat) (x : Record) : State := if x.pin || x.msg || x.resume then groupPending s r else s

/-- Room in a deque: the push buffer is applied in arrival order, then the local pushes that wait (08_tasks.md
R247); fuel bounds their number. A pinned record counts as pushed when it reaches the push buffer: leaving it makes no switch
pending for a group that has formed since (09_compose.md R272; DESIGN CHOICE, log entry 99). -/
def serveRoom (r : Nat) : Nat → State → State
  | 0, s => s
  | fuel + 1, s =>
    let c := s.coreAt r
    if dequeFull c then s
    else
      match c.push with
      | x :: t => serveRoom r fuel (pushYoung (s.modCore r fun c => { c with push := t }) r x)
      | [] =>
        match firstPush c with
        | some (q, x, l, kept) =>
          let rest : WaitReq := { q with op := .push l kept }
          let s1 := if l.isEmpty then dropReq s r q
            else s.modCore r fun c => { c with waitq := c.waitq.map fun w => if w = q then rest else w }
          let s2 := pushedTo (pushYoung s1 r x) r x
          serveRoom r fuel (if l.isEmpty then replyValue s2 q 0#6 GVal.zero else s2)
        | none => s

/-- Room in a deque is taken (08_tasks.md R247). -/
def serveDeque (s : State) (r : Nat) : State :=
  let c := s.coreAt r
  serveRoom r (c.push.length + (c.waitq.map fun q => match q.op with | .push l _ => l.length | _ => 0).sum) s

/-- The pop of the young end (08_tasks.md R245). -/
def popYoung (s : State) (r : Nat) : Option (Record × State) :=
  let s1 := refill s r
  match (s1.coreAt r).hw.getLast? with
  | none => none
  | some x => some (x, serveDeque (s1.modCore r fun c => { c with hw := c.hw.dropLast }) r)

/-- A record reaches a deque from another agent: pushed, held in the push buffer, or refused, when its source sends
it again after 64 cycles (08_tasks.md R247). -/
def remotePush (s : State) (src r : Nat) (x : Record) : State :=
  let c := s.coreAt r
  if dequeFull c = false ∧ c.push = [] then pushedTo (pushYoung s r x) r x
  else if c.push.length < 32 then pushedTo (s.modCore r fun c => { c with push := c.push ++ [x] }) r x
  else s.modCore src fun c => { c with resend := c.resend ++ [.push r x] }

/-- The owner pushes a record of its own making: a codelet that fired or a message task (08_tasks.md R255, R260). -/
def ownerPush (s : State) (r : Nat) (x : Record) : State := remotePush s r r x

/-! Steals. -/

/-- The oldest n stealable records of a list, and what stays (08_tasks.md R250). -/
def takeStealable : Nat → List Record → List Record × List Record
  | _, [] => ([], [])
  | 0, l => ([], l)
  | n + 1, x :: t =>
    if x.pin then
      let p := takeStealable (n + 1) t
      (p.1, x :: p.2)
    else
      let p := takeStealable n t
      (x :: p.1, p.2)

/-- How many records a probe takes from s stealable ones (08_tasks.md R250). -/
def stealCount (n : Nat) : Nat := min 16 ((n + 1) / 2)

/-- A probe served at a victim: the records that leave its deque, and the deque without them (08_tasks.md R250). -/
def stealFrom (s : State) (r : Nat) : List Record × State :=
  let c := s.coreAt r
  let ring := ringRead s r c.ringHead c.ringN
  let k := stealCount ((ring ++ c.hw).countP (fun x => !x.pin))
  let p := takeStealable k ring
  let q := takeStealable (k - p.1.length) c.hw
  if k = 0 then ([], s)
  else
    let h := (c.ringHead + p.1.length) % ringCap c
    let s1 := if p.1.isEmpty then s else ringWrite s r h p.2
    (p.1 ++ q.1,
      serveDeque (s1.modCore r fun c => { c with hw := q.2, ringHead := h, ringN := p.2.length }) r)

/-- Records pushed one by one at the young end, in their order (08_tasks.md R250). -/
def pushAll (s : State) (r : Nat) : List Record → State
  | [] => s
  | x :: t => pushAll (remotePush s r r x) r t

/-! Codelets and messages. -/

/-- The arming of a codelet slot at its owner (08_tasks.md R254). -/
def applyCodlt (s : State) (r off : Nat) (x : Record) : State :=
  let k := localKey r off
  if x.count = 0#32 then
    let y := { x with flags := x.flags &&& 0xFFF7#16 }
    ownerPush (putRecord s k y) r y
  else putRecord s k { x with flags := x.flags ||| 0x0008#16 }

/-- CDECERR.COUNT counts one more, saturating (08_tasks.md R255). -/
def cdecError (s : State) (r : Nat) : State :=
  s.modCore r fun c => c.modCtl fun k => { k with cdecerr := setField k.cdecerr 16 16 (min 65535 (field k.cdecerr 16 16 + 1)) }

/-- A decrement at the owner of a codelet slot (08_tasks.md R255); what poisoned bytes of the slot give keeps their mark
(01_machine.md R37). -/
def applyCdec (s : State) (r off : Nat) (d : BitVec 32) : State :=
  let k := localKey r off
  let x := recordAt s k
  if x.armed = false then cdecError s r
  else if d.toNat < x.count.toNat then
    let t := s.storeNat (k + 60) 4 (x.count.toNat - d.toNat)
    if x.bad then t.markPoison ((List.range 4).map (k + 60 + ·)) else t
  else
    let s1 := if x.count.toNat < d.toNat then cdecError s r else s
    let y := { x with count := 0#32, flags := x.flags &&& 0xFFF7#16 }
    ownerPush (putRecord s1 k y) r y

end Sys2Proof.Machine
end

