-- ==== Sys2Proof/Machine/Special.lean ====
section
/-! DEFINITION. The control registers: what MFC reads, what MTC, MSET and MCLR write, the clamps of each register, and
the fields that are computed from other state (04_scalar.md R128 to R130 and the register tables of the chapters). -/

namespace Sys2Proof.Machine

/-- A control register that `Ctl` holds: its width, its bits that are writable at task level, those writable at
partition level, and its bits that are not reserved, from the register tables of the chapters (04_scalar.md R128, R130;
00_scope.md R5). -/
def ctlRow : Nat → Option (Nat × Nat × Nat × Nat)
  | 0x10 => some (32, 0x1FFF, 0x1FFF, 0x1FFF) -- SLIPW
  | 0x11 => some (32, 0x0, 0x7FFF, 0xFFFF7FFF) -- SPDIST
  | 0x12 => some (64, 0x0, 0x0, 0xFFFFFFFFFFFFF0) -- SPTBASE
  | 0x13 => some (32, 0x0, 0x0, 0x1FFFF) -- SPTLEN
  | 0x14 => some (32, 0x0, 0x0, 0x8001FFFF) -- SPIDX
  | 0x16 => some (64, 0x0, 0x0, 0x3FFFFFFFFFF) -- WIDW
  | 0x20 => some (64, 0x0, 0x0, 0x3FFFFFFFFFF0000) -- PTROOT
  | 0x22 => some (32, 0xFFFFFF, 0xFFFFFF, 0xFFFFFF) -- CWWIN
  | 0x23 => some (32, 0x0, 0x0, 0x2) -- MEMCFG
  | 0x31 => some (32, 0x0, 0xFFFF, 0xFFFF) -- OWNWAIT
  | 0x40 => some (32, 0x3F003F, 0x3F003F, 0x3F003F) -- ARFLG
  | 0x41 => some (128, 0xFFFFFFFFFFFFFFFFFFFFFFFFFFFFFFFF, 0xFFFFFFFFFFFFFFFFFFFFFFFFFFFFFFFF, 0xFFFFFFFFFFFFFFFFFFFFFFFFFFFFFFFF) -- RNGCTR
  | 0x42 => some (64, 0x0, 0xFFFFFFFFFFFFFFFF, 0xFFFFFFFFFFFFFFFF) -- RNGKEY
  | 0x43 => some (32, 0x8000000F, 0x8000000F, 0x80FF000F) -- SCGRP
  | 0x50 => some (32, 0x0, 0xFFFF0000, 0xFFFF1FFF) -- PRSOVF
  | 0x51 => some (128, 0x0, 0x0, 0x80000000FFFFFFFF00FFFFFFFFFFFFFF) -- BARSLOT0
  | 0x52 => some (128, 0x0, 0x0, 0x80000000FFFFFFFF00FFFFFFFFFFFFFF) -- BARSLOT1
  | 0x53 => some (128, 0x0, 0x0, 0x80000000FFFFFFFF00FFFFFFFFFFFFFF) -- BARSLOT2
  | 0x54 => some (128, 0x0, 0x0, 0x80000000FFFFFFFF00FFFFFFFFFFFFFF) -- BARSLOT3
  | 0x55 => some (64, 0x0, 0x0, 0xC0FFFFFFFFFFFFFF) -- MONCTL
  | 0x60 => some (32, 0x0, 0x0, 0xFFFFC0) -- DQCFG
  | 0x62 => some (32, 0x0, 0xFFFFFF, 0xFFFFFF) -- STEALCFG
  | 0x63 => some (32, 0x0, 0xFFFFFFFF, 0xFFFFFFFF) -- PARKT
  | 0x64 => some (128, 0xFFFF000000000000, 0xFFFF000000000000, 0xFFFFFFFFFFFFFFFFFFFF00000000000F) -- AMSGST
  | 0x65 => some (64, 0x0, 0x0, 0xFFFFFFFFFFFF80) -- CTXBASE
  | 0x66 => some (64, 0x0, 0x0, 0xFFFFFFFFFFCFF0FF) -- GRPSTAT
  | 0x67 => some (32, 0x0, 0x0, 0x707FFC0) -- MSGCFG
  | 0x68 => some (32, 0x0, 0xFFFFFFFF, 0xFFFFFFFF) -- GRPWD
  | 0x69 => some (32, 0x0, 0xFFFF0000, 0xFFFF0000) -- CDECERR
  | 0x70 => some (32, 0x0, 0x0, 0x7FFFF) -- TSHP0
  | 0x71 => some (32, 0x0, 0x0, 0x7FFFF) -- TSHP1
  | 0x72 => some (32, 0x0, 0x0, 0x7FFFF) -- TSHP2
  | 0x73 => some (32, 0x0, 0x0, 0x7FFFF) -- TSHP3
  | 0x74 => some (32, 0x0, 0x0, 0x7FFFF) -- TSHP4
  | 0x75 => some (32, 0x0, 0x0, 0x7FFFF) -- TSHP5
  | 0x76 => some (32, 0x0, 0x0, 0x7FFFF) -- TSHP6
  | 0x77 => some (32, 0x0, 0x0, 0x7FFFF) -- TSHP7
  | 0x78 => some (32, 0x8707FFC0, 0x8707FFC0, 0x8707FFC0) -- MXCFG
  | 0x79 => some (32, 0x0, 0xFFFF0000, 0xFFFF007F) -- MXERR
  | 0x80 => some (32, 0x0, 0x1F07FFE0, 0x1F07FFE0) -- EVQBASE
  | 0x82 => some (64, 0xFFFF0000, 0xFFFF0000FFFF0000, 0xFFFF0000FFFFFFFF) -- EVQPTR
  | 0x90 => some (64, 0x0, 0xFFFFFFFFFFFFC0, 0xFFFFFFFFFFFFC0) -- KVDIR
  | 0x91 => some (32, 0x0, 0x0, 0xFF) -- KVSTAT
  | 0xA0 => some (32, 0x0, 0x0, 0xFFFFC0) -- PFQBASE
  | 0xA1 => some (64, 0x0, 0x0, 0xFFFFFFFFFFFFFF0) -- CALLTAB
  | 0xA2 => some (32, 0x0, 0x0, 0xFF) -- FUTST
  | 0xB0 => some (64, 0x0, 0xFFFFFFFFFFFFFC, 0xFFFFFFFFFFFFFC) -- TRAPBASE
  | 0xB1 => some (32, 0x0, 0x7C000, 0x7C000) -- FRAMEBASE
  | 0xB2 => some (32, 0x0, 0x0, 0xFF0F) -- TSTATE
  | 0xB3 => some (32, 0x0, 0x8000FFFF, 0x8000FFFF) -- INTEN
  | 0xB5 => some (64, 0x0, 0x80000000FFFFFFFF, 0x80000000FFFFFFFF) -- PARKON
  | 0xB6 => some (64, 0xFFFFFFFFFFFFFFFF, 0xFFFFFFFFFFFFFFFF, 0xFFFFFFFFFFFFFFFF) -- CYCCMP
  | _ => none

/-- What `Ctl` holds under a register index. -/
def Ctl.get (k : Ctl) : Nat → Nat
  | 0x10 => k.slipw.toNat
  | 0x11 => k.spdist.toNat
  | 0x12 => k.sptbase.toNat
  | 0x13 => k.sptlen.toNat
  | 0x14 => k.spidx.toNat
  | 0x16 => k.widw.toNat
  | 0x20 => k.ptroot.toNat
  | 0x22 => k.cwwin.toNat
  | 0x23 => k.memcfg.toNat
  | 0x31 => k.ownwait.toNat
  | 0x40 => k.arflg.toNat
  | 0x41 => k.rngctr.toNat
  | 0x42 => k.rngkey.toNat
  | 0x43 => k.scgrp.toNat
  | 0x50 => k.prsovf.toNat
  | 0x51 => (k.barslot[0]).toNat
  | 0x52 => (k.barslot[1]).toNat
  | 0x53 => (k.barslot[2]).toNat
  | 0x54 => (k.barslot[3]).toNat
  | 0x55 => k.monctl.toNat
  | 0x60 => k.dqcfg.toNat
  | 0x62 => k.stealcfg.toNat
  | 0x63 => k.parkt.toNat
  | 0x64 => k.amsgst.toNat
  | 0x65 => k.ctxbase.toNat
  | 0x66 => k.grpstat.toNat
  | 0x67 => k.msgcfg.toNat
  | 0x68 => k.grpwd.toNat
  | 0x69 => k.cdecerr.toNat
  | 0x70 => (k.tshp[0]).toNat
  | 0x71 => (k.tshp[1]).toNat
  | 0x72 => (k.tshp[2]).toNat
  | 0x73 => (k.tshp[3]).toNat
  | 0x74 => (k.tshp[4]).toNat
  | 0x75 => (k.tshp[5]).toNat
  | 0x76 => (k.tshp[6]).toNat
  | 0x77 => (k.tshp[7]).toNat
  | 0x78 => k.mxcfg.toNat
  | 0x79 => k.mxerr.toNat
  | 0x80 => k.evqbase.toNat
  | 0x82 => k.evqptr.toNat
  | 0x90 => k.kvdir.toNat
  | 0x91 => k.kvstat.toNat
  | 0xA0 => k.pfqbase.toNat
  | 0xA1 => k.calltab.toNat
  | 0xA2 => k.futst.toNat
  | 0xB0 => k.trapbase.toNat
  | 0xB1 => k.framebase.toNat
  | 0xB2 => k.tstate.toNat
  | 0xB3 => k.inten.toNat
  | 0xB5 => k.parkon.toNat
  | 0xB6 => k.cyccmp.toNat
  | _ => 0

/-- What `Ctl` holds under a register index is replaced. -/
def Ctl.put (k : Ctl) (i n : Nat) : Ctl :=
  match i with
  | 0x10 => { k with slipw := BitVec.ofNat 32 n }
  | 0x11 => { k with spdist := BitVec.ofNat 32 n }
  | 0x12 => { k with sptbase := BitVec.ofNat 64 n }
  | 0x13 => { k with sptlen := BitVec.ofNat 32 n }
  | 0x14 => { k with spidx := BitVec.ofNat 32 n }
  | 0x16 => { k with widw := BitVec.ofNat 64 n }
  | 0x20 => { k with ptroot := BitVec.ofNat 64 n }
  | 0x22 => { k with cwwin := BitVec.ofNat 32 n }
  | 0x23 => { k with memcfg := BitVec.ofNat 32 n }
  | 0x31 => { k with ownwait := BitVec.ofNat 32 n }
  | 0x40 => { k with arflg := BitVec.ofNat 32 n }
  | 0x41 => { k with rngctr := BitVec.ofNat 128 n }
  | 0x42 => { k with rngkey := BitVec.ofNat 64 n }
  | 0x43 => { k with scgrp := BitVec.ofNat 32 n }
  | 0x50 => { k with prsovf := BitVec.ofNat 32 n }
  | 0x51 => { k with barslot := k.barslot.set 0 (BitVec.ofNat 128 n) }
  | 0x52 => { k with barslot := k.barslot.set 1 (BitVec.ofNat 128 n) }
  | 0x53 => { k with barslot := k.barslot.set 2 (BitVec.ofNat 128 n) }
  | 0x54 => { k with barslot := k.barslot.set 3 (BitVec.ofNat 128 n) }
  | 0x55 => { k with monctl := BitVec.ofNat 64 n }
  | 0x60 => { k with dqcfg := BitVec.ofNat 32 n }
  | 0x62 => { k with stealcfg := BitVec.ofNat 32 n }
  | 0x63 => { k with parkt := BitVec.ofNat 32 n }
  | 0x64 => { k with amsgst := BitVec.ofNat 128 n }
  | 0x65 => { k with ctxbase := BitVec.ofNat 64 n }
  | 0x66 => { k with grpstat := BitVec.ofNat 64 n }
  | 0x67 => { k with msgcfg := BitVec.ofNat 32 n }
  | 0x68 => { k with grpwd := BitVec.ofNat 32 n }
  | 0x69 => { k with cdecerr := BitVec.ofNat 32 n }
  | 0x70 => { k with tshp := k.tshp.set 0 (BitVec.ofNat 32 n) }
  | 0x71 => { k with tshp := k.tshp.set 1 (BitVec.ofNat 32 n) }
  | 0x72 => { k with tshp := k.tshp.set 2 (BitVec.ofNat 32 n) }
  | 0x73 => { k with tshp := k.tshp.set 3 (BitVec.ofNat 32 n) }
  | 0x74 => { k with tshp := k.tshp.set 4 (BitVec.ofNat 32 n) }
  | 0x75 => { k with tshp := k.tshp.set 5 (BitVec.ofNat 32 n) }
  | 0x76 => { k with tshp := k.tshp.set 6 (BitVec.ofNat 32 n) }
  | 0x77 => { k with tshp := k.tshp.set 7 (BitVec.ofNat 32 n) }
  | 0x78 => { k with mxcfg := BitVec.ofNat 32 n }
  | 0x79 => { k with mxerr := BitVec.ofNat 32 n }
  | 0x80 => { k with evqbase := BitVec.ofNat 32 n }
  | 0x82 => { k with evqptr := BitVec.ofNat 64 n }
  | 0x90 => { k with kvdir := BitVec.ofNat 64 n }
  | 0x91 => { k with kvstat := BitVec.ofNat 32 n }
  | 0xA0 => { k with pfqbase := BitVec.ofNat 64 n }
  | 0xA1 => { k with calltab := BitVec.ofNat 64 n }
  | 0xA2 => { k with futst := BitVec.ofNat 64 n }
  | 0xB0 => { k with trapbase := BitVec.ofNat 64 n }
  | 0xB1 => { k with framebase := BitVec.ofNat 32 n }
  | 0xB2 => { k with tstate := BitVec.ofNat 32 n }
  | 0xB3 => { k with inten := BitVec.ofNat 32 n }
  | 0xB5 => { k with parkon := BitVec.ofNat 64 n }
  | 0xB6 => { k with cyccmp := BitVec.ofNat 64 n }
  | _ => k
/-- The slip: the S walker's count less the smallest count of the V, M and D walkers (04_scalar.md R115). -/
def Core.slip (c : Core) : Int :=
  max (c.posS - c.posV).toInt (max (c.posS - c.posM).toInt (c.posS - c.posD).toInt)

/-- BNDST.MODE (12_copy.md R365, R372). -/
def Core.bndst (c : Core) : Nat :=
  (List.range 8).foldl (fun n i => n + (c.rbind (BitVec.ofNat 3 i)).mode.toNat * 4 ^ i) 0

/-- INTPEND.PEND: the bits that events set, bit 0 while RDCYC is at or above CYCCMP, and bit 4 while EVQPTR.TAIL is not
EVQPTR.HEAD (15_system.md R435). -/
def State.intpend (s : State) (r : Nat) : BitVec 32 :=
  let c := s.coreAt r
  let b0 : Nat := if c.ctl.cyccmp.toNat ≤ s.cycle then 1 else 0
  let b4 : Nat := if field c.ctl.evqptr 0 16 = field c.ctl.evqptr 16 16 then 0 else 1
  setField (setField c.ctl.intpend 0 1 b0) 4 1 b4

/-- The number in a control register, computed fields included; `none` for an index that names no register
(04_scalar.md R128). CODECAP is read with its tag by its own path. -/
def ctlRead (s : State) (r i : Nat) : Option Nat :=
  let c := s.coreAt r
  match i with
  | 0x000 => some 0x0001_0000
  | 0x010 => some (c.ctl.slipw.toNat + min 8191 c.slip.toNat * 2 ^ 16)
  | 0x015 => some c.codecap.bits.toNat
  | 0x021 => some (c.ctl.pkg.toNat * 4096 + r)
  | 0x030 => some 0x356
  | 0x061 => some (c.ringN * 2 ^ 32 + c.hw.length)
  | 0x081 => some c.bndst
  | 0x0B4 => some (s.intpend r).toNat
  | i => (ctlRow i).map fun _ => c.ctl.get i

/-- The clamps of a write, on the new value of a register (R118, R130, R159, R206, R286, R321, R331, R361, R437). -/
def ctlClamp (i n : Nat) : Nat :=
  let x := BitVec.ofNat 128 n
  match i with
  | 0x010 => (setField x 0 13 (max 6 (min 4096 (field x 0 13)))).toNat
  | 0x011 => (setField x 0 15 (max 256 (min 16384 (field x 0 15)))).toNat
  | 0x022 =>
    let g := max 6 (min 19 (field x 19 5))
    let b := field x 0 19 / 2 ^ g * 2 ^ g
    (setField (setField x 19 5 g) 0 19 (if 2 ^ 19 < b + 2 ^ g then 2 ^ 19 - 2 ^ g else b)).toNat
  | 0x031 => max 64 n
  | 0x043 =>
    let g := field x 0 3
    (setField (setField x 16 8 0) 31 1 (if 1 ≤ g ∧ g ≤ 4 then field x 31 1 else 0)).toNat
  | 0x068 => max 1024 n
  | 0x078 =>
    (setField (setField x 24 3 (if 4 ≤ field x 24 3 then 0 else field x 24 3)) 6 13 (min 0x1FF8 (field x 6 13))).toNat
  | 0x080 => (setField x 24 5 (if 4 ≤ field x 24 5 ∧ field x 24 5 ≤ 10 then field x 24 5 else 4)).toNat
  | 0x0B1 => (setField x 14 5 (min 30 (field x 14 5))).toNat
  | _ => n

/-- The bits of INTPEND that a 1 clears (15_system.md R435). -/
abbrev intW1c : Nat := 0x2E

/-- The value v of a write reaches a register at a level: writable fields take their bits of v, the others keep their
value, and the clamps of the register apply (04_scalar.md R128). -/
def ctlWriteCore (c : Core) (i : Nat) (v : Nat) : Core :=
  if i = 0x0B4 then
    c.modCtl fun k => { k with intpend := k.intpend &&& ~~~(BitVec.ofNat 32 v &&& BitVec.ofNat 32 intW1c) }
  else
    match ctlRow i with
    | none => c
    | some (_, mt, mp, _) =>
      let m := if c.atTask then mt else mp
      let old := c.ctl.get i
      if m = 0 then c
      else c.modCtl fun k => k.put i (ctlClamp i ((old &&& (2 ^ 128 - 1 - m)) ||| (v &&& m)))

/-- Whether the hub has read a directory entry of a core's partition, after which KVDIR is not written
(13_kv.md R378). -/
def State.kvLocked (s : State) (r : Nat) : Bool :=
  match s.part? (s.coreAt r).pid with
  | some p => p.kvRead
  | none => false

/-- The cores of the partition of a core, itself included. -/
def State.partCores (s : State) (r : Nat) : List Nat :=
  let pid := (s.coreAt r).pid
  (s.cores.filter (fun e => e.2.pid == pid)).map (·.1)

/-- The write of a register by a core: KVDIR is one register of the partition and is ignored once the hub has read
from it (13_kv.md R378); every other write is the core's own. -/
def ctlWrite (s : State) (r i v : Nat) : State :=
  let c := s.coreAt r
  if i = 0x090 then
    if c.atTask || s.kvLocked r then s
    else
      let n := BitVec.ofNat 64 (v &&& 0xFF_FFFF_FFFF_FFC0)
      let s1 : State := { s with cores := s.cores.map fun (e : Nat × Core) =>
        if e.2.pid = c.pid then (e.1, e.2.modCtl fun k => { k with kvdir := n }) else e }
      s1.modCore r fun c => c.modCtl fun k => { k with kvdir := n }
  else s.setCore r (ctlWriteCore c i v)

/-- Whether a write at task level raises access permission: the register has fields of the partition level and none
of the task level (04_scalar.md R128). -/
def ctlDenied (c : Core) (i : Nat) : Bool :=
  match ctlRow i with
  | some (_, mt, mp, _) => c.atTask && mt == 0 && mp != 0
  | none => false

/-- Whether an index names a control register. -/
def ctlNamed (i : Nat) : Bool := [0x000, 0x015, 0x021, 0x030, 0x061, 0x081, 0x0B4].contains i || (ctlRow i).isSome

/-- The capture queue of an engine (04_scalar.md R112). -/
def Core.capQ (c : Core) : Engine → List CapEntry
  | .v => c.capV | .m => c.capM | .d => c.capD | .s => []

/-- A walker's position (04_scalar.md R115). -/
def Core.walkerPos (c : Core) : Engine → BitVec 32
  | .s => c.posS | .v => c.posV | .m => c.posM | .d => c.posD

/-- The nest of an engine. -/
def Core.nestOf (c : Core) : Engine → Option Nest
  | .s => c.nestS | .v => c.nestV | .m => c.nestM | .d => c.nestD

/-- Whether an engine has reached a position: its walker stands there or farther, or it has taken every entry that the S
walker has pushed and replays no body, so that no earlier word of its own is left (04_scalar.md R112, R119). -/
def Core.reached (c : Core) (e : Engine) (pos : BitVec 32) : Bool :=
  decide (0 ≤ (c.walkerPos e - pos).toInt) || ((c.capQ e).isEmpty && (c.nestOf e).isNone)

/-- Whether the engines have read a register as far as the earlier words need (04_scalar.md R129): RNGCTR, RNGKEY and
SCGRP by the V engine, MXCFG by the M engine, KVDIR by the D engine. -/
def ctlReady (c : Core) (i : Nat) : Bool :=
  match i with
  | 0x041 | 0x042 | 0x043 => c.reached .v c.posS && c.maxx.isNone
  | 0x078 => c.reached .m c.posS && (match c.nestM with | some n => !n.going && n.body.isEmpty | none => true)
  | 0x090 => c.reached .d c.posS
  | _ => true

/-- The task-state control registers with their offsets and bytes in a frame, in the order of 15_system.md R500. -/
def frameCtl : List (Nat × Nat × Nat) :=
  [(0x060, 0x010, 8), (0x068, 0x014, 8), (0x070, 0x022, 8), (0x078, 0x040, 8), (0x080, 0x041, 16), (0x090, 0x042, 8),
   (0x098, 0x043, 8), (0x0A0, 0x051, 16), (0x0B0, 0x052, 16), (0x0C0, 0x053, 16), (0x0D0, 0x054, 16),
   (0x0E0, 0x064, 16), (0x0F0, 0x066, 8)] ++
  [(0x0F8, 0x070, 8), (0x100, 0x071, 8), (0x108, 0x072, 8), (0x110, 0x073, 8), (0x118, 0x074, 8), (0x120, 0x075, 8),
   (0x128, 0x076, 8), (0x130, 0x077, 8), (0x138, 0x078, 8), (0x140, 0x081, 8), (0x148, 0x091, 8), (0x150, 0x0A0, 8),
   (0x158, 0x0A1, 8), (0x160, 0x0A2, 8), (0x168, 0x0B2, 8), (0x170, 0x0B3, 8), (0x178, 0x0B6, 8)]

/-- A control register restored from a frame: its defined bits as written (15_system.md R434, R500). -/
def ctlRestore (k : Ctl) (i n : Nat) : Ctl :=
  match ctlRow i with
  | none => k
  | some (_, _, _, keep) => k.put i (n &&& keep)

end Sys2Proof.Machine
end

