-- ==== Sys2Proof/Machine/Frame.lean ====
section
/-! DEFINITION. Frames: the image that a trap, a park, a switch or PSAVE writes of one core, and what a return, a
resume or PREST restores from it (15_system.md R431 to R434, R500). -/

namespace Sys2Proof.Machine

/-- The header fields that name what wrote a frame (15_system.md R432). -/
structure FrameHead where
  cause  : Nat
  walker : Nat
  fqseq  : Nat
  addr   : Nat
  info   : Nat
  full   : Bool
  live   : BitVec 128
  deriving DecidableEq, Repr

/-- Every register live (04_scalar.md R125). -/
def liveAll : BitVec 128 := BitVec.ofNat 128 (2 ^ 114 - 1)

/-- The header of a frame that no trap wrote: 1 a park after PARKT.LIMIT, 2 a YIELD, 3 a switch, 4 PSAVE
(15_system.md R432). -/
def plainHead (info : Nat) (live : BitVec 128) : FrameHead :=
  { cause := 0, walker := 4, fqseq := 0, addr := 0, info := info, full := true, live := live }

/-- Byte strings written at their offsets into sparse bytes. -/
def Mem.writes (m : Mem) : List (Nat × List Byte) → Mem
  | [] => m
  | (a, bs) :: t => Mem.writes (m.write a bs) t

/-- A number written at an offset, where it is not zero. -/
def fnum (off n v : Nat) : Nat × List Byte := (off, leBytes n v)

/-- The bytes of a capture entry (15_system.md R432). -/
def capEntryBytes (off : Nat) : CapEntry → List (Nat × List Byte)
  | .vals l _ _ => (off, leBytes 1 l.length) :: (l.zipIdx.map fun x => fnum (off + 16 + 16 * x.2) 16 x.1.bits.toNat)
  | .nest d => [(off, leBytes 1 0xFF), (off + 8, d)]

/-- The bytes of a capture queue. -/
def capQueueBytes (off : Nat) (l : List CapEntry) : List (Nat × List Byte) :=
  (l.zipIdx.map fun x => capEntryBytes (off + 112 * x.2) x.1).flatten

/-- The capability tags of a captured value have no place in the bytes of R432; the values' 16-byte units carry them
(15_system.md R432, "tagged 16-byte values"). -/
def capQueueTags (off : Nat) (l : List CapEntry) : List (Nat × Bool) :=
  (l.zipIdx.map fun x =>
    match x.1 with
    | .vals v _ _ => v.zipIdx.map fun y => (off + 112 * x.2 + 16 + 16 * y.2, y.1.tag)
    | .nest _ => []).flatten

/-- The bytes of a latch entry: KIND, INDEX, REMAIN, ORDER and VALUE (15_system.md R433). -/
def latchBytes (off ord : Nat) (l : Latch) : List (Nat × List Byte) :=
  [fnum off 1 (if l.isPred then 2 else 1), fnum (off + 1) 1 l.index.toNat, fnum (off + 2) 1 l.remain,
   fnum (off + 4) 4 ord, fnum (off + 8) 128 l.value.toNat]

/-- The bytes of the branch-outcome queue (15_system.md R432). -/
def outcomeBytes (l : List BranchOut) : List (Nat × List Byte) :=
  fnum frOut 1 l.length ::
    (l.zipIdx.map fun x => [fnum (frOut + 16 + 16 * x.2) 1 x.1.taken.toNat, fnum (frOut + 24 + 16 * x.2) 8 x.1.target.toNat]).flatten

/-- A stream binding as a trap or a switch leaves it: the strips read ahead are discarded, but for a faulted strip that stands
next (12_copy.md R365). -/
def Binding.held (b : Binding) : Binding :=
  let l := (b.ahead.take 1).filter fun x => match x with | .faulted _ => true | .ready _ => false
  { b with ahead := l, asked := b.count + l.length }

/-- The bytes of a stream binding: its descriptor and the popped count or HEAD; its faulted strip stands with the handle
(15_system.md R432, log entry 7). -/
def bindBytes (off : Nat) (b : Binding) : List (Nat × List Byte) :=
  [(off, b.desc), fnum (off + 64) 8 b.count, fnum (off + 80) 16 b.src.bits.toNat]

/-- The bytes of the header (15_system.md R432), with the handle of the engine state that the own-form areas name. -/
def headBytes (s : State) (r : Nat) (h : FrameHead) (handle : Nat) : List (Nat × List Byte) :=
  let c := s.coreAt r
  [fnum 0 1 h.cause, fnum 1 1 h.walker, fnum 2 1 c.level, fnum 3 1 ((if h.full then 2 else 0) + (if c.codecap.tag then 4 else 0)),
   fnum 4 4 h.fqseq, fnum 8 8 h.addr, fnum 16 8 h.info, fnum frPcS 8 c.pc.toNat, fnum (frPcS + 8) 8 c.pcV.toNat,
   fnum (frPcS + 16) 8 c.pcM.toNat, fnum (frPcS + 24) 8 c.pcD.toNat, fnum frPosS 4 c.posS.toNat,
   fnum (frPosS + 4) 4 c.posV.toNat, fnum (frPosS + 8) 4 c.posM.toNat, fnum (frPosS + 12) 4 c.posD.toNat,
   fnum frCode 16 c.codecap.bits.toNat, fnum frNest 8 handle, fnum frDq 8 handle, fnum frTok 8 handle] ++
  (frameCtl.map fun x => fnum x.1 x.2.2 ((ctlRead s r x.2.1).getD 0)) ++
  outcomeBytes c.outcomes ++ capQueueBytes frCap c.capV ++ capQueueBytes (frCap + 0x700) c.capM ++
  capQueueBytes (frCap + 0xE00) c.capD ++
  (c.latches.zipIdx.map fun x => latchBytes (frLatch + 144 * x.2) x.2 x.1).flatten ++
  ((List.range 8).map fun i => bindBytes (frBind + 96 * i) (c.rbind (BitVec.ofNat 3 i))).flatten

/-- The general registers as a frame holds them: a register that is not live reads as zero after resumption
(15_system.md R431). -/
def frameG (c : Core) (h : FrameHead) (i : Nat) : GVal :=
  if h.live.getLsbD i then c.rg (BitVec.ofNat 6 i) else GVal.zero

/-- The bytes of the p, g and v areas (15_system.md R431). -/
def regBytes (c : Core) (h : FrameHead) : List (Nat × List Byte) :=
  ((List.range 8).map fun i =>
    fnum (frP + 16 * i) 16 (if h.live.getLsbD (96 + i) then (c.rp (BitVec.ofNat 3 i)).toNat else 0)) ++
  ((List.range 64).map fun i => fnum (frG + 16 * i) 16 (frameG c h i).bits.toNat) ++
  ((List.range 32).map fun i =>
    fnum (frV + 128 * i) 128 (if h.live.getLsbD (64 + i) then (c.rv (BitVec.ofNat 5 i)).toNat else 0))

/-- Tile i and accumulator i of a core. -/
def Core.rtile (c : Core) (i : BitVec 3) : Mem := c.tile[i.toNat]'(by have := i.isLt; omega)

/-- Accumulator i of a core, as the image of 11_matrix.md R329. -/
def Core.racc (c : Core) (i : BitVec 1) : Mem := c.acc[i.toNat]'(by have := i.isLt; omega)

/-- A write of tile i. -/
def Core.wtile (c : Core) (i : BitVec 3) (m : Mem) : Core :=
  { c with tile := c.tile.set i.toNat m (by have := i.isLt; omega) }

/-- A write of accumulator i. -/
def Core.wacc (c : Core) (i : BitVec 1) (m : Mem) : Core :=
  { c with acc := c.acc.set i.toNat m (by have := i.isLt; omega) }

/-- The bytes of a tile and of an accumulator (01_machine.md R15, 11_matrix.md R329). -/
abbrev tileSize : Nat := 16384

/-- The bytes of an accumulator. -/
abbrev accSize : Nat := 65536

/-- The t and acc areas of a full frame. -/
def frameTiles (c : Core) (h : FrameHead) (m : Mem) : Mem :=
  let m1 := (List.range 8).foldl (fun m i =>
    Mem.overlay m (frT + tileSize * i) tileSize (if h.live.getLsbD (104 + i) then c.rtile (BitVec.ofNat 3 i) else [])) m
  (List.range 2).foldl (fun m i =>
    Mem.overlay m (frAcc + accSize * i) accSize (if h.live.getLsbD (112 + i) then c.racc (BitVec.ofNat 1 i) else [])) m1

/-- The words and positions of the entries of a capture queue. -/
def capWords (l : List CapEntry) : List (Option Instr × BitVec 32) :=
  l.map fun e => match e with | .vals _ op pos => (op, pos) | .nest _ => (none, 0#32)

/-- The engine state of a core that the own-form areas hold (log entry 7). -/
def Core.engSave (c : Core) : EngSave :=
  { nestS := c.nestS, nestV := c.nestV, nestM := c.nestM, nestD := c.nestD, dq := c.dq,
    eaten := c.outcomes.map fun o => (o.byV, o.byM, o.byD),
    capV := capWords c.capV, capM := capWords c.capM, capD := capWords c.capD, task := c.task, passing := c.passing
    dfault := c.dfault, strips := c.binds.toList.map (·.held.ahead) }

/-- The bytes of a frame of a core as sparse bytes: the short form of a trap or the full form (15_system.md R431). -/
def frameMem (s : State) (r : Nat) (h : FrameHead) (handle : Nat) : Mem :=
  let c := s.coreAt r
  let m := Mem.writes (Mem.writes [] (headBytes s r h handle)) (regBytes c h)
  if h.full then frameTiles c h m else m

/-- The tagged 16-byte units of a frame of a core, by their offsets (15_system.md R432). -/
def frameTags (c : Core) (h : FrameHead) : List (Nat × Bool) :=
  ((List.range 64).map fun i => (frG + 16 * i, (frameG c h i).tag)) ++
    (capQueueTags frCap c.capV ++ capQueueTags (frCap + 0x700) c.capM ++ capQueueTags (frCap + 0xE00) c.capD ++
      (List.range 8).map fun i => (frBind + 96 * i + 80, (c.rbind (BitVec.ofNat 3 i)).src.tag))

/-- The registers that a frame holds: the bit of each in a live set, its offset and its bytes (15_system.md R431, 04_scalar.md
R125). -/
def regAreas : List (Nat × Nat × Nat) :=
  ((List.range 64).map fun i => (i, frG + 16 * i, 16)) ++ ((List.range 32).map fun i => (64 + i, frV + 128 * i, 128)) ++
    ((List.range 8).map fun i => (96 + i, frP + 16 * i, 16)) ++
    ((List.range 8).map fun i => (104 + i, frT + tileSize * i, tileSize)) ++
    ((List.range 2).map fun i => (112 + i, frAcc + accSize * i, accSize))

/-- The bytes of a frame that a live set leaves out: their offsets and lengths. -/
def deadAreas (live : BitVec 128) : List (Nat × Nat) :=
  (regAreas.filter fun a => !live.getLsbD a.1).map (·.2)

/-- A frame of a core written at a key (15_system.md R428, R431); the registers that are not live are not written. -/
def writeFrame (s : State) (r key : Nat) (h : FrameHead) : State :=
  let c := s.coreAt r
  let n := if h.full then frSize else frShort
  let dead := (deadAreas h.live).filter fun a => a.1 < n
  let old (k : Nat) : Bool := dead.any fun a => decide (key + a.1 ≤ k) && decide (k < key + a.1 + a.2)
  let s1 := { s with saved := s.saved ++ [{ c.engSave with live := h.live }] }
  let m := dead.foldl (fun m a => Mem.overlay m a.1 a.2 (s.mem.slice (key + a.1) a.2)) (frameMem s r h (s.saved.length + 1))
  let s2 := s1.storeSparse key n m
  let s3 := { s2 with
    ctags := (s.ctags.filter fun u => old (16 * u)).foldl Keys.insert s2.ctags
    poison := (s.poison.filter old).foldl Keys.insert s2.poison }
  s3.tagUnits ((frameTags c h).map fun x => (key + x.1, x.2))

/-! Restoring. -/

/-- A capture entry read back, for the word and position that stand with the handle. -/
def readCapEntry (s : State) (k : Nat) (w : Option Instr × BitVec 32) : CapEntry :=
  let n := s.mem.readNat k 1
  if n = 0xFF then .nest (s.mem.read (k + 8) 104)
  else .vals ((List.range (min n 6)).map fun i => s.loadUnit (k + 16 + 16 * i)) w.1 w.2

/-- A capture queue read back; which words its entries are for stands with the handle (log entry 7). -/
def readCapQueue (s : State) (k : Nat) (l : List (Option Instr × BitVec 32)) : List CapEntry :=
  l.zipIdx.map fun x => readCapEntry s (k + 112 * x.2) x.1

/-- The latches read back, by ORDER (15_system.md R433). -/
def readLatches (s : State) (k : Nat) : List Latch :=
  let l := (List.range 20).filterMap fun i =>
    let a := k + frLatch + 144 * i
    let kind := s.mem.readNat a 1
    if kind = 0 then none
    else some (s.mem.readNat (a + 4) 4,
      ({ isPred := kind == 2, index := BitVec.ofNat 5 (s.mem.readNat (a + 1) 1), remain := s.mem.readNat (a + 2) 1,
         value := BitVec.ofNat 1024 (s.mem.readNat (a + 8) 128) } : Latch))
  (sortBy (fun x y => decide (x.1 ≤ y.1)) l).map (·.2)

/-- The branch outcomes read back, with what each walker had consumed. -/
def readOutcomes (s : State) (k : Nat) (eaten : List (Bool × Bool × Bool)) : List BranchOut :=
  (List.range (min 16 (s.mem.readNat (k + frOut) 1))).map fun i =>
    let e := eaten.getD i (false, false, false)
    { taken := s.mem.readNat (k + frOut + 16 + 16 * i) 1 % 2 == 1,
      target := BitVec.ofNat 64 (s.mem.readNat (k + frOut + 24 + 16 * i) 8), byV := e.1, byM := e.2.1, byD := e.2.2 }

/-- A binding read back, with its mode from BNDST of the frame (15_system.md R500) and its faulted strip, which is read again where
the frame is that of a trap of the V walker, the strip's own (12_copy.md R363, R365). -/
def readBinding (s : State) (fa i : Nat) (strips : List (List Strip)) : Binding :=
  let k := fa + frBind + 96 * i
  let n := s.mem.readNat (k + 64) 8
  let l := if s.mem.readNat (fa + 1) 1 = 1 then [] else strips.getD i []
  { mode := BitVec.ofNat 2 (s.mem.readNat (fa + 0x140) 2 / 4 ^ i), desc := s.mem.read k 64, src := s.loadUnit (k + 80), count := n,
    asked := n + l.length, ahead := l }

/-- The shape of a tile that was not live at a safe point reads as zero after resumption (11_matrix.md R330; log entry 90);
the frame holds it all the same (15_system.md R500). -/
def Core.dropShapes (c : Core) (live : BitVec 128) : Core :=
  c.modCtl fun k => { k with tshp := Vector.ofFn fun i => if live.getLsbD (104 + i.val) then k.tshp[i.val] else 0#32 }

/-- The engine state that a frame's handle names. -/
def frameEng (s : State) (k : Nat) : Option EngSave :=
  let h := s.mem.readNat (k + frNest) 8
  if h = 0 then none else s.saved[h - 1]?

/-- Whether every header field keeps its limit (15_system.md R434). -/
def frameOk (s : State) (k : Nat) : Bool :=
  decide (s.mem.readNat (k + 2) 1 ≤ 1) && decide (s.mem.readNat (k + 1) 1 ≤ 4) &&
  decide (s.mem.readNat (k + frOut) 1 ≤ 16) &&
  ((List.range 20).all fun i =>
    let a := k + frLatch + 144 * i
    let kind := s.mem.readNat a 1
    decide (kind ≤ 2) && (kind == 0 ||
      (decide (1 ≤ s.mem.readNat (a + 2) 1) && decide (s.mem.readNat (a + 2) 1 ≤ 18) &&
        decide (s.mem.readNat (a + 1) 1 < (if kind = 2 then 8 else 32))))) &&
  ((List.range 48).all fun i =>
    let n := s.mem.readNat (k + frCap + 112 * i) 1
    decide (n ≤ 16) || n == 0xFF)

end Sys2Proof.Machine
end

