-- ==== Sys2Proof/Machine/Ops.lean ====
section
/-! DEFINITION. The shared operations of control: hub walks, the fault queue, the park-frame pool, the ends of groups,
taking a trap and returning from one, parking, resuming, and starting and ending tasks. -/

namespace Sys2Proof.Machine

/-! Hub walks. -/

/-- The chunks of n bytes at a virtual address, by a hub engine's walks of a partition's tables, which set A and D as they go
(05_memory.md R499); none where a walk meets a clear V bit, a malformed entry or a denied permission. Fuel bounds the pages. -/
def hubPages (s : State) (root : BitVec 64) (k : AccessKind) : Nat → Nat → Nat → Option (List Chunk) × State
  | 0, _, _ => (some [], s)
  | fuel + 1, va, n =>
    if n = 0 then (some [], s)
    else if 2 ^ 52 ≤ va then (none, s)
    else
      match walk s root va k with
      | .leaf pa entry e _ =>
        let m := min n (2 ^ 16 - va % 2 ^ 16)
        let p := placeOf s pa e
        let q := hubPages (touchLeaf s entry e k) root k fuel (va + m) (n - m)
        (q.1.map fun l => { key := p.pa, len := m, host := p.host, hostOwn := p.hostOwn } :: l, q.2)
      | _ => (none, s)

/-- A hub engine's place of n bytes (05_memory.md R499). -/
def hubChunks (s : State) (root : BitVec 64) (va n : Nat) (k : AccessKind) : Option (List Chunk) × State :=
  hubPages s root k (n / 2 ^ 16 + 2) va n

/-- A hub engine's read of n bytes; none where it cannot be made or meets a poisoned byte (05_memory.md R499). -/
def hubRead (s : State) (root : BitVec 64) (va n : Nat) : Option (List Byte) × State :=
  match hubChunks s root va n .load with
  | (some l, t) => (if t.chunksPoisoned l then none else some (t.readChunks l), t)
  | (none, t) => (none, t)

/-- A hub engine's write of bytes, and whether it was made. -/
def hubWrite (s : State) (root : BitVec 64) (va : Nat) (bs : List Byte) : Bool × State :=
  match hubChunks s root va bs.length .store with
  | (some l, t) => (true, t.storeChunks l bs)
  | (none, t) => (false, t)

/-- The virtual address of a context's entry (08_tasks.md R258). -/
def ctxAddr (p : Part) (ctx : BitVec 16) : Nat := p.ctxbase.toNat + 128 * ctx.toNat

/-- The physical address of a context's entry, for a hub engine that reads it, or reads and writes it (05_memory.md R499). -/
def ctxEntry (s : State) (p : Part) (ctx : BitVec 16) (k : AccessKind) : Option Nat × State :=
  match hubChunks s p.ptroot (ctxAddr p ctx) 128 k with
  | (some [c], t) => (if t.poisoned c.key 128 then none else some c.key, t)
  | (_, t) => (none, t)

/-- A hub engine's write of an n-byte field of a context's entry, and whether it was made (05_memory.md R499). -/
def ctxPut (s : State) (p : Part) (ctx : BitVec 16) (off n v : Nat) : Bool × State :=
  hubWrite s p.ptroot (ctxAddr p ctx + off) (leBytes n v)

/-- Whether a context belongs to a partition (08_tasks.md R237, R243). -/
def ctxOf (p : Part) (ctx : BitVec 16) : Bool :=
  decide (p.ctxFirst ≤ ctx.toNat) && decide (ctx.toNat < p.ctxFirst + p.ctxCount)

/-! The other engines at a boundary. -/

/-- The started M words complete: their flags and tokens are signalled (11_matrix.md R332, R337). -/
def Core.completeM (c : Core) : Core :=
  { (c.modCtl fun k => { k with arflg := c.mwords.foldl (fun a w => a ||| w.flags.setWidth 32) k.arflg }) with mwords := [] }

/-- Latches land in the order of a list. -/
def Core.land (c : Core) (l : List Latch) : Core :=
  l.foldl (fun c x => if x.isPred then c.wp (x.index.setWidth 3) (x.value.setWidth 128) else c.wv x.index x.value) c

/-- Every V result latch lands, in the order of the steps at which they were due, and of the program within a step
(10_vector.md R297, R298). -/
def Core.landLatches (c : Core) : Core :=
  { c with latches := [] }.land (sortBy (fun x y => decide (x.remain ≤ y.remain)) c.latches)

/-- A task is handed over at a switch or a park: its latches land (10_vector.md R298), and a nest that is armed and not
started is discarded (11_matrix.md R340). -/
def Core.handOver (c : Core) : Core :=
  { c.landLatches with nestM := match c.nestM with | some n => if n.going then some n else none | none => none }

/-- Whether a core is the leader of a composed group, whose V, M and D walkers do not run (09_compose.md R273). -/
def Core.composed (c : Core) : Bool := match c.group with | .composeLead _ => true | _ => false

/-- Whether a core is a member of a group that it does not lead. -/
def Core.isMember (c : Core) : Bool := match c.group with | .member _ _ => true | _ => false

/-- Whether every word before the S walker's has completed on the engines that a mask names (04_scalar.md R146): bit 1
the V, bit 2 the M, bit 3 the D engine; in composed mode these bits have no effect. -/
def Core.done (c : Core) (mask : BitVec 4) : Bool :=
  c.composed ||
    ((!mask.getLsbD 1 || (c.reached .v c.posS && c.maxx.isNone)) &&
     (!mask.getLsbD 2 || (c.reached .m c.posS && c.mwords.isEmpty &&
       (match c.nestM with | some n => !n.going | none => true))) &&
     (!mask.getLsbD 3 || (c.reached .d c.posS && c.dq.isEmpty)))

/-- Whether every engine has completed the words before the S walker's. -/
def Core.quiet (c : Core) : Bool := c.done 0xE#4

/-- The walkers stand at one address with their queues empty (15_system.md R428, R434). -/
def Core.alignWalkers (c : Core) (pc : Word64) : Core :=
  { c with pcV := pc, pcM := pc, pcD := pc, posV := c.posS, posM := c.posS, posD := c.posS, outcomes := [], capV := [],
           capM := [], capD := [], nestS := none, nestV := none, nestM := none, nestD := none, latches := [] }

/-- The monitor is lost (07_sync.md R234). -/
def Core.dropMonitor (c : Core) : Core :=
  { (c.modCtl fun k => { k with monctl := setField k.monctl 62 2 0 }) with monLine := none }

/-- The registers of a task read as zero (08_tasks.md R244), SLIPW.LIMIT as 512; the registers of the partition and
the interface stay. -/
def Core.clearTask (c : Core) : Core :=
  { ((c.modCtl fun k =>
      { k with slipw := 512#32, spidx := 0#32, cwwin := 0#32, arflg := 0#32, rngctr := 0#128, rngkey := 0#64,
               scgrp := 0#32, barslot := Vector.replicate 4 0#128, amsgst := 0#128, grpstat := 0#64,
               tshp := Vector.replicate 8 0#32, mxcfg := 0#32, kvstat := 0#32, pfqbase := 0#64, calltab := 0#64,
               futst := 0#64, tstate := 0#32, inten := 0#32, cyccmp := 0#64, monctl := 0#64 }).dropMonitor.clearDist.alignWalkers 0#64) with
    g := Vector.replicate 64 GVal.zero, v := Vector.replicate 32 0#1024, p := Vector.replicate 8 0#128,
    tile := Vector.replicate 8 [], acc := Vector.replicate 2 [], binds := Vector.replicate 8 Binding.none,
    codecap := GVal.zero, posS := 0#32, posV := 0#32, posM := 0#32, posD := 0#32, task := none, blocked := none,
    hold := none, stalls := [], passing := false, vwait := none, lastOut := none, owed := 0, owedPos := [], sent := [], pendTrap := none, pendHalt := none, killed := false,
    dfault := none }

/-! The fault queue. -/

/-- The bytes of a fault-queue entry (15_system.md R439). -/
def faultBytes (pid : Nat) (e : FaultEntry) : List Byte :=
  let k : Nat := match e.kind with | .load => 0 | .store => 1 | .fetch => 2
  leBytes 8 e.page.toNat ++ leBytes 2 e.ctx.toNat ++ leBytes 2 e.core.toNat ++ leBytes 1 k ++
    leBytes 1 e.walker.code ++ leBytes 2 e.status.toNat ++ leBytes 4 e.merged.toNat ++ leBytes 4 e.seq.toNat ++
    leBytes 2 pid ++ leBytes 6 0

/-- A fault-queue entry changed, in the queue and in its ring. -/
def setFault (s : State) (pid : Nat) (e : FaultEntry) : State :=
  let s1 := s.modPart pid fun p =>
    { p with fq := { p.fq with entries := p.fq.entries.map fun x => if x.seq = e.seq then e else x } }
  match (s.part? pid).bind (·.fq.ring) with
  | some (base, _) => s1.store (base + 32 * e.slot) (faultBytes pid e)
  | none => s1

/-- The mailbox increment that follows each post while FQMB.EN is set (15_system.md R438). -/
def fqNotify (s : State) (pid : Nat) (mb : BitVec 64) : State :=
  let i : BitVec 8 := BitVec.ofNat 8 (field mb 0 8)
  if field mb 63 1 = 1 then
    s.hubTo pid (field mb 16 12) (.mailboxIncrementArrive i 1#32) fun t => incMail t (field mb 16 12) i 1#32
  else s

/-- A fault on an absent page is posted, merges into a pending entry, or is lost; the sequence number, or 0
(05_memory.md R171, R172, 15_system.md R438). -/
def fqPost (s : State) (pid : Nat) (va : Word64) (ctx : BitVec 16) (core : Nat) (k : AccessKind) (w : Engine) :
    Nat × State :=
  match s.part? pid with
  | none => (0, s)
  | some p =>
    let page := BitVec.ofNat 64 (field va 0 52 / 2 ^ 16 * 2 ^ 16)
    match p.fq.entries.find? (fun e => e.status == 0#8 && e.ctx == ctx && e.page == page && e.kind == k) with
    | some e => (e.seq.toNat, setFault s pid { e with merged := e.merged + 1#32 })
    | none =>
      match p.fq.ring with
      | none => (0, s.modPart pid fun p => { p with fq := { p.fq with lost := p.fq.lost + 1#64 } })
      | some (_, lg) =>
        let slot := p.fq.posted.toNat % 2 ^ lg
        if p.fq.entries.any (fun e => e.slot == slot && e.status != 2#8) then
          (0, s.modPart pid fun p => { p with fq := { p.fq with lost := p.fq.lost + 1#64 } })
        else
          let seq := if p.fq.nextSeq = 0#32 then 1#32 else p.fq.nextSeq
          let e : FaultEntry :=
            { seq := seq, slot := slot, page := page, ctx := ctx, core := BitVec.ofNat 16 core, kind := k, walker := w,
              status := 0#8, merged := 1#32, waiters := [] }
          let s1 := s.modPart pid fun p =>
            { p with fq := { p.fq with posted := p.fq.posted + 1#32, nextSeq := seq + 1#32
                                       entries := p.fq.entries.filter (fun x => x.slot != slot) ++ [e] } }
          (seq.toNat, fqNotify (setFault s1 pid e) pid p.fq.mb)

/-! The park-frame pool. -/

/-- The oldest free frame leaves the pool for a core that parks (08_tasks.md R264). -/
def takeFrame (s : State) (pid : Nat) : Option (Nat × State) :=
  match s.part? pid with
  | none => none
  | some p =>
    match p.pool.ring with
    | none => none
    | some (base, lg) =>
      if p.pool.free = 0 then none
      else
        some (s.mem.readNat (base + 8 * (p.pool.head % 2 ^ lg)) 8,
          s.modPart pid fun p =>
            { p with pool := { p.pool with head := (p.pool.head + 1) % 2 ^ lg, free := p.pool.free - 1
                                           inUse := p.pool.inUse + 1 } })

/-- Whether the pool of a partition holds a free frame. -/
def poolFree (s : State) (pid : Nat) : Bool :=
  match s.part? pid with
  | none => false
  | some p => p.pool.ring.isSome && decide (0 < p.pool.free)

/-- A frame is put at the young end of the pool (08_tasks.md R264). -/
def putFrame (s : State) (pid fa : Nat) : State :=
  match (s.part? pid).map (·.pool) with
  | none => s
  | some pool =>
    match pool.ring with
    | none => s
    | some (base, lg) =>
      (s.storeNat (base + 8 * ((pool.head + pool.free) % 2 ^ lg)) 8 fa).modPart pid fun p =>
        { p with pool := { p.pool with free := p.pool.free + 1 } }

/-- Whether the ring of a pool has room. -/
def ParkPool.room (p : ParkPool) : Bool := match p.ring with | some (_, lg) => decide (p.free < 2 ^ lg) | none => false

/-- A pool that refuses an addition counts it (08_tasks.md R264). -/
def ParkPool.refuse (p : ParkPool) : ParkPool :=
  { p with refused := if p.refused = 0xFFFF#16 then p.refused else p.refused + 1#16 }

/-- A frame in use returns to the pool (08_tasks.md R264). Where software has filled the ring meanwhile, the return is refused
and counted as an addition is (DESIGN CHOICE, log entry 93). -/
def returnFrame (s : State) (pid fa : Nat) : State :=
  let s1 := match s.part? pid with
    | some p => if p.pool.room then putFrame s pid fa else s.modPart pid fun p => { p with pool := p.pool.refuse }
    | none => s
  s1.modPart pid fun p => { p with pool := { p.pool with inUse := p.pool.inUse - 1 } }

/-! Groups. -/

/-- GRPSTAT of a leader after its group has ended (09_compose.md R286). -/
def endStat (g : BitVec 64) (why : Nat) : BitVec 64 := setField (setField g 22 10 0) 16 4 why

/-- FIDX, FCAUSE and FSEQ of GRPSTAT, which the end of a gang sets (09_compose.md R286). -/
def gangStat (g : BitVec 64) (fidx fcause fseq : Nat) : BitVec 64 :=
  setField (setField (setField g 12 4 fidx) 0 8 fcause) 32 32 fseq

/-- A member leaves its group and is idle again (09_compose.md R272, R278). -/
def Core.leaveGroup (c : Core) : Core :=
  { (c.modCtl fun k => { k with grpstat := 0#64 }) with group := .single, reserved := false }

/-- Members leave their group. -/
def releaseAll (s : State) : List Nat → State
  | [] => s
  | r :: t => releaseAll (s.modCore r Core.leaveGroup) t

/-- The leader's part of a group's end. -/
def Core.endLead (c : Core) (why : Nat) : Core :=
  { (c.modCtl fun k => { k with grpstat := endStat k.grpstat why }) with
    group := .single, reserved := false, groupEnd := false, owed := 0, owedPos := [] }

/-- The hand-back of a composed group (09_compose.md R278): its accesses complete, its members are released, and the
leader goes on single. The register banks are the leader's registers throughout. -/
def endComposed (s : State) (lead why : Nat) : State :=
  match (s.coreAt lead).group with
  | .composeLead ms =>
    (releaseAll (drainS s lead) ms).modCore lead fun c =>
      { c.endLead why with pcV := c.pc, pcM := c.pc, pcD := c.pc, posV := c.posS, posM := c.posS, posD := c.posS }
  | _ => s

/-- The cores of the gang of a core, the leader first; the core alone outside a gang. -/
def State.gangOf (s : State) (r : Nat) : List Nat :=
  match (s.coreAt r).group with
  | .gangLead ms => r :: ms
  | .member lead true => match (s.coreAt lead).group with | .gangLead ms => lead :: ms | _ => [r]
  | _ => [r]

/-- Whether a word of a core or its gang that has begun must still complete before the gang ends: a VMAXX that has sent its
contribution (09_compose.md R283, 10_vector.md R323), or a word whose request the hub has accepted (13_kv.md R385). -/
def State.gangMaxx (s : State) (r : Nat) : Bool :=
  (s.gangOf r).any fun q => (s.coreAt q).maxx.isSome || (s.coreAt q).atHub

/-- A follower of a gang stops (09_compose.md R283): a waiting word is abandoned, its join slots are withdrawn, its
flags go to the leader, its registers are cleared, and its D commands go on. -/
def endFollower (s : State) (lead r : Nat) : State :=
  let s1 := withdrawAll (abandon (drainS s r) r) r
  let c := (s1.coreAt r).completeM
  let f := c.ctl.arflg &&& 0x3F#32
  let s2 := s1.setCore r { c.clearTask.leaveGroup with dq := c.dq }
  s2.modCore lead fun c => c.modCtl fun k => { k with arflg := k.arflg ||| f }

/-- The followers of a gang stop in ascending index. -/
def endFollowers (s : State) (lead : Nat) : List Nat → State
  | [] => s
  | r :: t => endFollowers (endFollower s lead r) lead t

/-- The end of a gang (09_compose.md R283, R284). -/
def endGang (s : State) (lead why fidx fcause fseq : Nat) : State :=
  match (s.coreAt lead).group with
  | .gangLead ms => (endFollowers s lead ms).modCore lead fun c =>
      (c.endLead why).modCtl fun k => { k with grpstat := gangStat k.grpstat fidx fcause fseq }
  | _ => s

/-- The member index of a core: GRPSTAT.IDX (09_compose.md R270, R286). -/
def Core.memberIdx (c : Core) : Nat := field c.ctl.grpstat 22 4

/-! Halting. -/

/-- A core enters debug halt (15_system.md R451): its walkers stop, and nothing else changes. -/
def haltCore (s : State) (r : Nat) (why : BitVec 4) : State :=
  s.modCore r fun c => { c with halt := some why, stepping := false }

/-! Taking a trap. -/

/-- Whether a trap is an interrupt (15_system.md R426). -/
def isInterrupt (t : Trap) : Bool := t.walker.isNone && decide (0x20 ≤ t.cause.toNat)

/-- ENDWHY of a group's end by a trap of its leader or, in a gang, of a follower (09_compose.md R286). -/
def endWhy (t : Trap) (follower : Bool := false) : Nat := if isInterrupt t then 5 else if follower then 4 else 3

/-- A core as the handler finds it (15_system.md R428). -/
def Core.enterHandler (c : Core) (f cause : Nat) (code : GVal) : Core :=
  let c1 := (c.modCtl fun k =>
    { k with tstate := BitVec.ofNat 32 (cause * 256 + (c.depth + 1) * 4 + 1) }).dropMonitor.clearDist
  let c2 := { c1.alignWalkers (BitVec.ofNat 64 (field c.ctl.trapbase 2 54 * 4)) with
    codecap := code.withWord (BitVec.ofNat 64 (field c.ctl.trapbase 2 54 * 4)), dq := [], lastOut := none, owed := 0,
    hold := none, stalls := [], pendTrap := none, passing := false, vwait := none, dfault := none
    binds := c.binds.map Binding.held }
  (c2.wg 1#6 ((mintCap (0xD * 2 ^ 52 + f) 16384 (0xD * 2 ^ 52 + f) 0x25B#12).getD GVal.zero)).wg 2#6 (GVal.ofNat cause)

/-- The walk that the S walker awaits goes on for a word that is left at its boundary: the frame of that boundary takes its end
(15_system.md R430). -/
def leaveWalk (s : State) (r : Nat) : State :=
  match (s.coreAt r).hold with
  | some (.pageWalk, _) =>
    let mark (w : MissWait) : MissWait :=
      if w.core = r ∧ w.eng = some .s ∧ w.post = none then { w with post := some (s.coreAt r).depth } else w
    let leave (m : Miss) : Miss := { m with waits := m.waits.map mark }
    s.modMmu (clusterOf r) fun m => { m with misses := m.misses.map leave, queue := m.queue.map leave }
  | _ => s

/-- A core that takes safe-point overrun while a slice instant or a swap is pending stops there: the trap frame is the state that
is saved, and the handler runs after the swap-in (08_tasks.md R267). -/
def Core.stopOverrun (c : Core) (cause : BitVec 8) : Core :=
  if cause = 0x09#8 ∧ c.slice = true then { c with slice := false, swap := true } else c

/-- Taking a trap on a single core (15_system.md R428): the M words complete, a waiting word is abandoned, an absent
page is posted, the frame is written and the handler entered; at depth 2 the core halts with WHY 6 (R429). A core that
waits for a sent VMAXX, for a load from a rank in transit (05_memory.md R155), or for the hub's reply (13_kv.md R385), takes it
when that has come. What is taken
at a boundary, and not at a word, leaves the walk that the word awaits (R430). -/
def enterTrap (s : State) (r : Nat) (t : Trap) : State :=
  let s1 := (abandon (landLoads s r) r).modCore r Core.completeM
  let c := s1.coreAt r
  if c.maxx.isSome || !c.loads.isEmpty || c.atHub then s1.modCore r fun c => { c with pendTrap := some t }
  else
    let s1 := if t.walker = none ∨ t.cause = 0x09#8 then leaveWalk s1 r else s1
    let s2 := if t.cause = 0x0D#8 ∧ t.asked = false then { s1 with logs := s1.logs ++ [.machineCheck r t.addr] } else s1
    let q := if t.cause = 0x06#8 ∧ t.asked = false then fqPost s2 c.pid t.addr c.ctx r t.kind (t.walker.getD .s)
      else (t.seq.toNat, s2)
    if c.depth = 2 then haltCore { q.2 with logs := q.2.logs ++ [.doubleFault r] } r 6#4
    else
      let f := field c.ctl.framebase 14 5 * 16384 + 16384 * c.depth
      let h : FrameHead :=
        { cause := t.cause.toNat, walker := (t.walker.map (·.code)).getD 4, fqseq := q.1, addr := t.addr.toNat,
          info := t.info.toNat, full := false, live := liveAll }
      let code := ((q.2.part? c.pid).map (·.code)).getD GVal.zero
      (writeFrame q.2 r (localKey r f) h).modCore r fun c => (c.enterHandler f t.cause.toNat code).stopOverrun t.cause

/-- Taking a trap at a core (15_system.md R428): a composed group hands back first, a gang ends first, and a trap of a
gang's follower is its leader's trap of cause 0x0F (09_compose.md R284; FIDX and FCAUSE of an interrupt are the index of the
member that takes it and its cause, 0x20 and its number: DEDUCED, log entry 40). A gang in which a sent VMAXX waits takes it when the release has come. -/
def takeTrap (s : State) (r : Nat) (t : Trap) : State :=
  let c := s.coreAt r
  match c.group with
  | .single => enterTrap s r t
  | .composeLead _ => enterTrap (endComposed s r (endWhy t)) r t
  | .gangLead _ =>
    if s.gangMaxx r then s.modCore r fun c => { c with pendTrap := some t }
    else enterTrap (endGang s r (endWhy t) c.memberIdx t.cause.toNat 0) r t
  | .member lead true =>
    if s.gangMaxx r then s.modCore r fun c => { c with pendTrap := some t } else
    let q :=
      if t.cause = 0x06#8 ∧ t.asked = false then fqPost s c.pid t.addr (s.coreAt lead).ctx r t.kind (t.walker.getD .s)
      else (t.seq.toNat, s)
    let s1 := if t.cause = 0x0D#8 ∧ t.asked = false then { q.2 with logs := q.2.logs ++ [.machineCheck r t.addr] } else q.2
    enterTrap (endGang s1 lead (endWhy t true) c.memberIdx t.cause.toNat q.1) lead (trapS 0x0F 0#64)
  | .member lead false => enterTrap (endComposed s lead (endWhy t)) lead t

/-- A gang ends at a safe point at which a switch is pending, and its leader takes cause 0x0F (09_compose.md R284). -/
def gangSwitch (s : State) (lead : Nat) : State := enterTrap (endGang s lead 2 0 0 0) lead (trapS 0x0F 0#64)

/-- The state that a check's answer leaves: what was computed, the trap taken, or the word held. -/
def settle (s : State) (x : Res State) : Host.Outcome State Fault Refusal :=
  match x with
  | .ok t => .next t
  | .trap t s1 => .next (takeTrap s1 s.rank t)
  | .hold h s1 => .next (s1.modCore s.rank fun c => { c with hold := some (h, s.cycle) })

/-- An engine other than S stalls from a cycle on (06_ordering.md R206). -/
def Core.stall (c : Core) (e : Engine) (h : Hold) (now : Nat) : Core :=
  { c with stalls := (e, h, now) :: c.stalls.filter fun x => x.1 != e }

/-- The same for a word of the V, M or D walker, whose stall is that walker's own (06_ordering.md R206). -/
def settleE (e : Engine) (s : State) (x : Res State) : Host.Outcome State Fault Refusal :=
  match x with
  | .ok t => .next t
  | .trap t s1 => .next (takeTrap s1 s.rank t)
  | .hold h s1 => .next (s1.modCore s.rank fun c => c.stall e h s.cycle)

/-- A partition-level word at task level takes access permission and does nothing else (15_system.md R425). -/
def partLevel (s : State) (x : Res State) : Res State := if s.me.atTask then .trap (trapS 0x07 0#64) s else x

/-! Returning. -/

/-- A register as a frame restores it: poisoned bytes never reach it (01_machine.md R37, log entry 85). -/
def cleanReg {α : Type} (s : State) (k n : Nat) (zero x : α) : α := if s.poisoned k n then zero else x

/-- The same of a register that a frame holds; one that was not live at the switch reads as zero (15_system.md R431). -/
def liveReg {α : Type} (s : State) (live : BitVec 128) (i k n : Nat) (zero x : α) : α :=
  if live.getLsbD i then cleanReg s k n zero x else zero

/-- The core with a register file restored from a frame. -/
def Core.restoreRegs (c : Core) (s : State) (k : Nat) (live : BitVec 128) : Core :=
  { c with
    g := Vector.ofFn fun i => liveReg s live i.val (k + frG + 16 * i.val) 16 GVal.zero (s.loadUnit (k + frG + 16 * i.val))
    v := Vector.ofFn fun i =>
      liveReg s live (64 + i.val) (k + frV + 128 * i.val) 128 0#1024 (BitVec.ofNat 1024 (s.mem.readNat (k + frV + 128 * i.val) 128))
    p := Vector.ofFn fun i =>
      liveReg s live (96 + i.val) (k + frP + 16 * i.val) 16 0#128 (BitVec.ofNat 128 (s.mem.readNat (k + frP + 16 * i.val) 16)) }

/-- The core with its tiles and accumulators restored from a full frame. -/
def Core.restoreTiles (c : Core) (s : State) (k : Nat) (live : BitVec 128) : Core :=
  { c with
    tile := Vector.ofFn fun i =>
      liveReg s live (104 + i.val) (k + frT + tileSize * i.val) tileSize [] (s.mem.slice (k + frT + tileSize * i.val) tileSize)
    acc := Vector.ofFn fun i =>
      liveReg s live (112 + i.val) (k + frAcc + accSize * i.val) accSize [] (s.mem.slice (k + frAcc + accSize * i.val) accSize) }

/-- The core with the task-state control registers of a frame (15_system.md R500). -/
def Core.restoreCtl (c : Core) (s : State) (k : Nat) : Core :=
  c.modCtl fun ctl => frameCtl.foldl (fun x e => ctlRestore x e.2.1 (s.mem.readNat (k + e.1) e.2.2)) ctl

/-- The core with the walkers, queues, nests, D commands and bindings of a frame (15_system.md R434). -/
def Core.restoreWalkers (c : Core) (s : State) (k : Nat) : Core :=
  let e := frameEng s k
  let code : GVal :=
    { bits := BitVec.ofNat 128 (s.mem.readNat (k + frCode) 16), tag := s.mem.readNat (k + 3) 1 / 4 % 2 == 1 }
  let word (o : Nat) : Word64 := BitVec.ofNat 64 (s.mem.readNat (k + o) 8)
  let pos (o : Nat) : BitVec 32 := BitVec.ofNat 32 (s.mem.readNat (k + o) 4)
  { c with
    codecap := code.withWord (word frPcS)
    pcV := word (frPcS + 8), pcM := word (frPcS + 16), pcD := word (frPcS + 24), posS := pos frPosS
    posV := pos (frPosS + 4), posM := pos (frPosS + 8), posD := pos (frPosS + 12)
    outcomes := readOutcomes s k ((e.map (·.eaten)).getD [])
    capV := readCapQueue s (k + frCap) ((e.map (·.capV)).getD []),
    capM := readCapQueue s (k + frCap + 0x700) ((e.map (·.capM)).getD []),
    capD := readCapQueue s (k + frCap + 0xE00) ((e.map (·.capD)).getD [])
    nestS := e.bind (·.nestS), nestV := e.bind (·.nestV), nestM := e.bind (·.nestM), nestD := e.bind (·.nestD)
    dq := (e.map (·.dq)).getD [], passing := (e.map (·.passing)).getD false, latches := readLatches s k
    binds := Vector.ofFn fun i => readBinding s k i.val ((e.map (·.strips)).getD []) }

/-- The registers that the frame at a key holds as live. -/
def frameLive (s : State) (k : Nat) : BitVec 128 := ((frameEng s k).map (·.live)).getD liveAll

/-- Whether a frame holds a poisoned byte that its restoration reads (01_machine.md R37). -/
def frameBad (s : State) (k : Nat) : Bool :=
  let dead := deadAreas (frameLive s k)
  s.poison.any fun x => decide (k ≤ x) && decide (x < k + frSize) &&
    !(dead.any fun a => decide (k + a.1 ≤ x) && decide (x < k + a.1 + a.2))

/-- The core that a frame restores, t and acc too when it is full (15_system.md R434). -/
def Core.restore (c : Core) (s : State) (k : Nat) (full : Bool) : Core :=
  let live := frameLive s k
  let c1 := (((c.restoreRegs s k live).restoreCtl s k).dropShapes live).restoreWalkers s k
  if full then c1.restoreTiles s k live else c1

/-- The address of a fault that a frame's PF field records: that of the absent page's trap which wrote the frame, else the page of
the fault-queue entry that the field names (15_system.md R426, R432; DEDUCED, log entry 100). -/
def frameFaultAddr (s : State) (pid k : Nat) : Word64 :=
  let page : Option (BitVec 64) := (s.part? pid).bind fun p =>
    (p.fq.entries.find? fun e => e.seq.toNat == s.mem.readNat (k + 0x1C) 4).map (·.page)
  if s.mem.readNat k 1 = 6 then BitVec.ofNat 64 (s.mem.readNat (k + 8) 8) else page.getD 0#64

/-- The trap that a frame's PF field records, at the word of the walker it names (15_system.md R432, R434); the entry of
an absent page is posted already (R430). -/
def frameTrap (s : State) (pid k : Nat) : Option Trap :=
  if s.mem.readNat (k + 3) 1 % 2 = 1 then
    let cause := s.mem.readNat (k + 0x18) 1
    some { walker := some (decodeEngine (s.mem.readNat (k + 0x19) 1)), cause := BitVec.ofNat 8 cause,
           addr := if cause = 6 ∨ cause = 7 then frameFaultAddr s pid k else 0#64, info := 0#64, kind := .load
           asked := cause == 6, seq := BitVec.ofNat 32 (s.mem.readNat (k + 0x1C) 4) }
  else none

/-! Tasks. -/

/-- A core without work of its own (08_tasks.md R249). -/
def Core.idle (c : Core) : Bool :=
  c.task.isNone && c.halt.isNone && !c.swap && c.resumes.isEmpty && dequeEmpty c && c.push.isEmpty && c.group == .single

/-- The fields that a task takes from its context's entry (14_futures.md R404, R405): RNGKEY, RNGBASE, PFQ, CAPTAB and
CAPLOG. -/
def loadCtx (s : State) (c : Core) (k : Nat) : Core :=
  c.modCtl fun ctl =>
    { ctl with rngkey := BitVec.ofNat 64 (s.mem.readNat (k + 88) 8), rngctr := BitVec.ofNat 128 (s.mem.readNat (k + 96) 16)
               pfqbase := BitVec.ofNat 64 (s.mem.readNat (k + 60) 4 &&& 0x00FF_FFC0)
               calltab := BitVec.ofNat 64 (s.mem.readNat (k + 48) 8 / 16 * 16 % 2 ^ 56 + s.mem.readNat (k + 56) 1 % 16 * 2 ^ 56) }

/-- The core that starts a record (08_tasks.md R244, 15_system.md R425). -/
def Core.startWith (c : Core) (x : Record) (code : GVal) : Core :=
  let l : Nat := x.root.toNat
  let c1 := { c.clearTask with codecap := code.withWord x.entry, task := some x }
  let c2 := (c1.alignWalkers x.entry).modCtl fun k => { k with tstate := BitVec.ofNat 32 l }
  (((c2.wg 1#6 x.argA).wg 2#6 x.argB).wg 3#6 (GVal.ofWord x.wid)).wg 4#6 (GVal.ofNat x.ctx.toNat)

/-- Whether a context has been killed, so that its records start at the handler (15_system.md R443). -/
def ctxKilled (s : State) (pid : Nat) (ctx : BitVec 16) : Bool :=
  match s.part? pid with
  | some p => p.killed.contains ctx
  | none => false

/-- A record starts on a core (08_tasks.md R244): an unreadable context entry is a machine check at its entry word, and so is
a record of poisoned bytes (01_machine.md R37, log entry 85); a record of a killed context starts in that state at the
handler (15_system.md R443). -/
def startRecord (s : State) (r : Nat) (x : Record) : State :=
  let c := s.coreAt r
  match s.part? c.pid with
  | none => s.setCore r (c.startWith x GVal.zero)
  | some p =>
    let s1 := s.setCore r (c.startWith x p.code)
    if x.bad then enterTrap (s.setCore r (c.startWith { x with argA := GVal.zero, argB := GVal.zero } p.code)) r (trapS 0x0D x.entry)
    else if x.ctx = 0#16 then s1
    else
      let e := ctxEntry s1 p x.ctx .load
      let s3 := match e with
        | (some k, s2) => s2.modCore r fun c => loadCtx s2 c k
        | (none, s2) => s2
      if ctxKilled s c.pid x.ctx then
        enterTrap s3 r { walker := none, cause := 0x12#8, addr := 0#64, info := 0#64, kind := .load }
      else if e.1.isNone then enterTrap s3 r (trapS 0x0D (BitVec.ofNat 64 (ctxAddr p x.ctx)))
      else s3

/-- A parked task resumes from its frame (08_tasks.md R266): the frame's state is restored and the frame returns to
the pool; a cause that the frame records is taken before any word, and a poisoned byte of the frame is a machine check
(01_machine.md R37, log entry 85). -/
def resumeFrame (s : State) (r fa : Nat) : State :=
  let c := s.coreAt r
  let e := frameEng s fa
  let c1 := { (c.clearTask.modCtl fun k => { k with monctl := c.ctl.monctl }).restore s fa true with task := e.bind (·.task) }
  let lev := s.mem.readNat (fa + 2) 1 % 2
  let c2 := (c1.modCtl fun k => { k with tstate := setField k.tstate 0 2 lev }).dropMonitor.clearDist
  let s1 := returnFrame (s.setCore r c2) c.pid fa
  if ctxKilled s1 c.pid c2.ctx then
    enterTrap s1 r { walker := none, cause := 0x12#8, addr := 0#64, info := 0#64, kind := .load }
  else if frameBad s fa then takeTrap s1 r (trapS 0x0D 0#64)
  else
    match frameTrap s c.pid fa with
    | some t => takeTrap s1 r t
    | none => s1

/-- The core starts its next record (08_tasks.md R256): a pending resume, else the young end of its deque, else it is
idle. -/
def startNext (s : State) (r : Nat) : State :=
  let c := s.coreAt r
  if c.task.isSome ∨ c.halt.isSome ∨ c.reserved = true ∨ c.swap = true ∨ c.group ≠ .single then s
  else
    match c.resumes with
    | fa :: t => resumeFrame (s.modCore r fun c => { c with resumes := t }) r fa
    | [] =>
      match popYoung s r with
      | none => s
      | some (x, s1) =>
        if x.resume then resumeFrame s1 r x.entry.toNat else startRecord s1 r x

/-- The task leaves the core. -/
def Core.leave (c : Core) : Core :=
  { c.dropMonitor with task := none, blocked := none, hold := none, stalls := [], dfault := none, passing := false, vwait := none, killed := false, dq := [],
                       latches := [], outcomes := [], capV := [], capM := [], capD := [], nestS := none, nestV := none,
                       nestM := none, nestD := none }

/-- The waiting request of a core's blocked word goes with its park frame (08_tasks.md R265): at its owner, at the
future engine, at the fault queue, and at the hub. A MONWAIT has lost its monitor and answers 2 (07_sync.md R235); a fault that the frame of
a task waiting on a fault-queue entry recorded stays recorded (15_system.md R434, R441). -/
def linkFrame (s : State) (r fa : Nat) : State :=
  let pid := (s.coreAt r).pid
  let s1 : State := { s with
    cores := s.cores.map fun (e : Nat × Core) =>
      (e.1, { e.2 with waitq := e.2.waitq.map fun q => if q.src = r ∧ q.frame = none then { q with frame := some fa } else q })
    futs := s.futs.map fun (e : Nat × Fut) =>
      (e.1, match e.2.waiter with
        | some w =>
          if w.core = r ∧ w.frame = none ∧ e.2.pid = pid then { e.2 with waiter := some { w with frame := some fa } } else e.2
        | none => e.2)
    parts := s.parts.map fun p => if p.pid ≠ pid then p else
      { p with fq := { p.fq with entries := p.fq.entries.map fun e =>
          { e with waiters := e.waiters.map fun w => if w.core = r ∧ w.frame = none then { w with frame := some fa } else w } } }
    hubReqs := s.hubReqs.map fun q => if q.core = r ∧ q.frame = none ∧ q.pid = pid then { q with frame := some fa } else q }
  let s2 := s1.modCore r fun c =>
    { c with resend := c.resend.map fun x =>
        match x with
        | .wait d q => if q.src = r ∧ q.frame = none then .wait d { q with frame := some fa } else x
        | x => x }
  match (s.coreAt r).blocked with
  | some { op := .monwait d, .. } => pushResume (replyFrame s2 fa d (GVal.ofNat 2)) r fa
  | some { op := .faultEntry _ (some t), .. } => faultFrame s2 fa (t.walker.getD .s) t.cause.toNat t.seq.toNat
  | _ => s2

/-- A task is parked (08_tasks.md R263): its full state goes to a frame of the pool. What parks it is the INFO of the frame
(15_system.md R432). None where no frame is free, or where a load waits for a rank in transit (05_memory.md R155). -/
def parkTask (s : State) (r info : Nat) (live : BitVec 128) : Option (Nat × State) :=
  if s.landed r = false then none else
  match takeFrame s (s.coreAt r).pid with
  | none => none
  | some (fa, s1) =>
    let s2 := (drainS s1 r).modCore r fun c => c.completeM.handOver
    let s3 := linkFrame (writeFrame s2 r fa (plainHead info live)) r fa
    some (fa, s3.modCore r Core.leave)

/-! Switches. -/

/-- Whether a switch of 04_scalar.md R127 is pending that needs a park frame: a resume record. -/
def Core.parkPending (c : Core) : Bool := !c.resumes.isEmpty

/-- The live set of safe-point entry idx (04_scalar.md R125); every register where the entry cannot be read. -/
def liveSet (s : State) (r idx : Nat) : BitVec 128 :=
  let c := s.coreAt r
  let va := field c.ctl.sptbase 4 52 * 16 + 16 * idx
  match hubChunks s c.ctl.ptroot va 16 .load with
  | (some [k], t) => if t.poisoned k.key 16 then liveAll else BitVec.ofNat 128 (t.mem.readNat k.key 16) &&& liveAll
  | _ => liveAll

/-- A switch out into a park frame at a safe point, with its resume pushed after the pending ones (08_tasks.md
R266). -/
def switchOut (s : State) (r info : Nat) (live : BitVec 128) : Option State :=
  match parkTask s r info live with
  | none => none
  | some (fa, s1) =>
    let x : Record := { Record.zero with entry := BitVec.ofNat 64 fa, flags := 0x0005#16 }
    some (startNext (ownerPush s1 r x) r)

end Sys2Proof.Machine
end

