-- ==== Sys2Proof/Machine/Scalar.lean ====
section
/-! DEFINITION. The integer words of the S engine (04_scalar.md R106, R132 to R135). -/

namespace Sys2Proof.Machine

/-- A result for gd: 64 bits, zero above, the tag clear (04_scalar.md R106); then the walker steps on. -/
def putWord (s : State) (d : GIdx) (x : Word64) : State := s.modMe fun c => (c.wg d (GVal.ofWord x)).next

/-- A word of two integer sources (04_scalar.md R132). -/
def alu2 (s : State) (d a b : GIdx) (f : Word64 → Word64 → Word64) : State :=
  putWord s d (f (s.me.rg a).word (s.me.rg b).word)

/-- A word of one integer source. -/
def alu1 (s : State) (d a : GIdx) (f : Word64 → Word64) : State := putWord s d (f (s.me.rg a).word)

/-- MULH (04_scalar.md R132). -/
def mulHigh (a b : Word64) : Word64 := BitVec.ofInt 64 (a.toInt * b.toInt / 2 ^ 64)

/-- div_s of 04_scalar.md R132. -/
def divS (a b : Word64) : Word64 :=
  if b = 0#64 then BitVec.ofInt 64 (-1)
  else if a.toInt = -(2 ^ 63) ∧ b.toInt = -1 then BitVec.ofInt 64 (-(2 ^ 63))
  else BitVec.ofInt 64 (a.toInt.tdiv b.toInt)

/-- rem_s of 04_scalar.md R132. -/
def remS (a b : Word64) : Word64 :=
  if b = 0#64 then a
  else if a.toInt = -(2 ^ 63) ∧ b.toInt = -1 then 0#64
  else BitVec.ofInt 64 (a.toInt - b.toInt * a.toInt.tdiv b.toInt)

/-- SLL by the low seven bits of a count (04_scalar.md R132). -/
def shl (a b : Word64) : Word64 := a <<< field b 0 7

/-- SRL (04_scalar.md R132). -/
def shr (a b : Word64) : Word64 := a >>> field b 0 7

/-- SRA (04_scalar.md R132). -/
def sar (a b : Word64) : Word64 := a.sshiftRight (field b 0 7)

/-- SLT (04_scalar.md R132). -/
def ltS (a b : Word64) : Word64 := if a.slt b then 1#64 else 0#64

/-- SLTU (04_scalar.md R132). -/
def ltU (a b : Word64) : Word64 := if a.ult b then 1#64 else 0#64

/-- MIN (04_scalar.md R132). -/
def minS (a b : Word64) : Word64 := if b.slt a then b else a

/-- MAX (04_scalar.md R132). -/
def maxS (a b : Word64) : Word64 := if a.slt b then b else a

/-- CLZ (04_scalar.md R132): the leading zeros of the low n bits. -/
def clz (a : Word64) : Nat → Nat
  | 0 => 0
  | n + 1 => if a.getLsbD n then 0 else clz a n + 1

/-- POPC (04_scalar.md R132): the ones of the low n bits. -/
def popc (a : Word64) : Nat → Nat
  | 0 => 0
  | n + 1 => (if a.getLsbD n then 1 else 0) + popc a n

/-- ADD (04_scalar.md R132). -/
def execAdd (d a b : GIdx) (s : State) : Host.Outcome State Fault Refusal := .next (alu2 s d a b (· + ·))
/-- SUB (04_scalar.md R132). -/
def execSub (d a b : GIdx) (s : State) : Host.Outcome State Fault Refusal := .next (alu2 s d a b (· - ·))
/-- MUL (04_scalar.md R132). -/
def execMul (d a b : GIdx) (s : State) : Host.Outcome State Fault Refusal := .next (alu2 s d a b (· * ·))
/-- MULH (04_scalar.md R132). -/
def execMulh (d a b : GIdx) (s : State) : Host.Outcome State Fault Refusal := .next (alu2 s d a b mulHigh)
/-- DIV (04_scalar.md R132). -/
def execDiv (d a b : GIdx) (s : State) : Host.Outcome State Fault Refusal := .next (alu2 s d a b divS)
/-- REM (04_scalar.md R132). -/
def execRem (d a b : GIdx) (s : State) : Host.Outcome State Fault Refusal := .next (alu2 s d a b remS)
/-- AND (04_scalar.md R132). -/
def execAnd (d a b : GIdx) (s : State) : Host.Outcome State Fault Refusal := .next (alu2 s d a b (· &&& ·))
/-- OR (04_scalar.md R132). -/
def execOr (d a b : GIdx) (s : State) : Host.Outcome State Fault Refusal := .next (alu2 s d a b (· ||| ·))
/-- XOR (04_scalar.md R132). -/
def execXor (d a b : GIdx) (s : State) : Host.Outcome State Fault Refusal := .next (alu2 s d a b (· ^^^ ·))
/-- SLL (04_scalar.md R132). -/
def execSll (d a b : GIdx) (s : State) : Host.Outcome State Fault Refusal := .next (alu2 s d a b shl)
/-- SRL (04_scalar.md R132). -/
def execSrl (d a b : GIdx) (s : State) : Host.Outcome State Fault Refusal := .next (alu2 s d a b shr)
/-- SRA (04_scalar.md R132). -/
def execSra (d a b : GIdx) (s : State) : Host.Outcome State Fault Refusal := .next (alu2 s d a b sar)
/-- SLT (04_scalar.md R132). -/
def execSlt (d a b : GIdx) (s : State) : Host.Outcome State Fault Refusal := .next (alu2 s d a b ltS)
/-- SLTU (04_scalar.md R132). -/
def execSltu (d a b : GIdx) (s : State) : Host.Outcome State Fault Refusal := .next (alu2 s d a b ltU)
/-- MIN (04_scalar.md R132). -/
def execMin (d a b : GIdx) (s : State) : Host.Outcome State Fault Refusal := .next (alu2 s d a b minS)
/-- MAX (04_scalar.md R132). -/
def execMax (d a b : GIdx) (s : State) : Host.Outcome State Fault Refusal := .next (alu2 s d a b maxS)
/-- CLZ (04_scalar.md R132). -/
def execClz (d a : GIdx) (s : State) : Host.Outcome State Fault Refusal :=
  .next (alu1 s d a fun x => BitVec.ofNat 64 (clz x 64))
/-- POPC (04_scalar.md R132). -/
def execPopc (d a : GIdx) (s : State) : Host.Outcome State Fault Refusal :=
  .next (alu1 s d a fun x => BitVec.ofNat 64 (popc x 64))
/-- MOV: all 128 data bits, the tag cleared (04_scalar.md R106, R132). -/
def execMov (d a : GIdx) (s : State) : Host.Outcome State Fault Refusal :=
  .next (s.modMe fun c => (c.wg d { bits := (c.rg a).bits, tag := false }).next)
/-- ADDI (04_scalar.md R133). -/
def execAddi (d a : GIdx) (imm : BitVec 11) (s : State) : Host.Outcome State Fault Refusal :=
  .next (alu1 s d a fun x => x + imm.signExtend 64)
/-- ANDI (04_scalar.md R133). -/
def execAndi (d a : GIdx) (imm : BitVec 11) (s : State) : Host.Outcome State Fault Refusal :=
  .next (alu1 s d a fun x => x &&& imm.signExtend 64)
/-- ORI (04_scalar.md R133). -/
def execOri (d a : GIdx) (imm : BitVec 11) (s : State) : Host.Outcome State Fault Refusal :=
  .next (alu1 s d a fun x => x ||| imm.signExtend 64)
/-- XORI (04_scalar.md R133). -/
def execXori (d a : GIdx) (imm : BitVec 11) (s : State) : Host.Outcome State Fault Refusal :=
  .next (alu1 s d a fun x => x ^^^ imm.signExtend 64)
/-- SLLI (04_scalar.md R133). -/
def execSlli (d a : GIdx) (sh : BitVec 7) (s : State) : Host.Outcome State Fault Refusal :=
  .next (alu1 s d a fun x => shl x (sh.setWidth 64))
/-- SRLI (04_scalar.md R133). -/
def execSrli (d a : GIdx) (sh : BitVec 7) (s : State) : Host.Outcome State Fault Refusal :=
  .next (alu1 s d a fun x => shr x (sh.setWidth 64))
/-- SRAI (04_scalar.md R133). -/
def execSrai (d a : GIdx) (sh : BitVec 7) (s : State) : Host.Outcome State Fault Refusal :=
  .next (alu1 s d a fun x => sar x (sh.setWidth 64))
/-- LIH (04_scalar.md R134). -/
def execLih (d : GIdx) (imm : BitVec 17) (s : State) : Host.Outcome State Fault Refusal :=
  .next (alu1 s d d fun x => x <<< 17 ||| imm.setWidth 64)

/-- The sum of the first n widths of WIDW (04_scalar.md R130, R135). -/
def widSum (w : BitVec 64) : Nat → Nat
  | 0 => 0
  | n + 1 => widSum w n + field w (7 * n) 7

/-- Field n of a work identifier, its fields packed from bit 63 downward (04_scalar.md R135). -/
def widField (w x : BitVec 64) (n : Nat) : Nat :=
  let k := field w (7 * (n - 1)) 7
  let hi := widSum w (n - 1)
  if 64 < widSum w 6 ∨ k = 0 then 0 else field x (64 - hi - k) k

/-- WIDF (04_scalar.md R135); the codes n = 0 and n = 7 are illegal encodings, which the decoder refuses. -/
def execWidf (d a : GIdx) (n : BitVec 3) (s : State) : Host.Outcome State Fault Refusal :=
  .next (alu1 s d a fun x => BitVec.ofNat 64 (widField s.me.ctl.widw x n.toNat))

end Sys2Proof.Machine
end

