-- ==== Sys2Proof/Machine/Caps.lean ====
section
/-! DEFINITION. The capability words of the S engine (04_scalar.md R136 to R142) and CAPGRANT (15_system.md R448). -/

namespace Sys2Proof.Machine

/-- A tagged or untagged value for gd; then the walker steps on. -/
def putVal (s : State) (d : GIdx) (x : GVal) : State := s.modMe fun c => (c.wg d x).next

/-- live(x) of 04_scalar.md R136: the cause of an untagged or a sealed source. -/
def capLive (c : GVal) : Option Nat :=
  if !c.tag then some 0x02 else if capOtype c.bits ≠ 0 then some 0x04 else none

/-- A trap of the S walker whose ADDR is the address of a capability, the address checked (15_system.md R426). -/
def capTrap (s : State) (cause : Nat) (x : Word64) : Res State := .trap (trapS cause x) s

/-- The capability that CAP.BND makes, or the cause (04_scalar.md R140). -/
def capBnd (c : GVal) (l : Word64) : Except Nat GVal :=
  match capLive c with
  | some cause => .error cause
  | none =>
    let b := c.word.toNat
    let (base, top) := capBounds c.bits
    if top < (b : Int) + (l.toNat : Int) ∨ (b : Int) < base then .error 0x03
    else
      match boundSearch b l.toNat capExponents with
      | none => .error 0x03
      | some (e, xb, xt) =>
        if (xb : Int) < base ∨ top < (xt : Int) then .error 0x03
        else .ok { c with bits := withBounds c.bits e xb xt }

/-- CAP.BND (04_scalar.md R140). -/
def execCapBnd (d a b : GIdx) (s : State) : Host.Outcome State Fault Refusal :=
  let c := s.me.rg a
  settle s (match capBnd c (s.me.rg b).word with
    | .ok v => .ok (putVal s d v)
    | .error cause => capTrap s cause c.word)

/-- A capability with fewer permissions (04_scalar.md R138). -/
def capMask (c : GVal) (m : BitVec 12) : GVal := { c with bits := setField c.bits 116 12 (capPerms c.bits &&& m).toNat }

/-- CAP.PERM (04_scalar.md R138). -/
def execCapPerm (d a b : GIdx) (s : State) : Host.Outcome State Fault Refusal :=
  let c := s.me.rg a
  settle s (match capLive c with
    | some cause => capTrap s cause c.word
    | none => .ok (putVal s d (capMask c ((s.me.rg b).bits.setWidth 12))))

/-- The value of CAP.INC for an unsealed or untagged source (04_scalar.md R139). -/
def capInc (c : GVal) (n : Word64) : GVal :=
  let a2 := c.word + n
  if !c.tag then GVal.ofWord a2 else moveCap c a2

/-- CAP.INC (04_scalar.md R139). -/
def execCapInc (d a b : GIdx) (s : State) : Host.Outcome State Fault Refusal :=
  let c := s.me.rg a
  settle s (if c.tag = true ∧ capOtype c.bits ≠ 0 then capTrap s 0x04 c.word
    else .ok (putVal s d (capInc c (s.me.rg b).word)))

/-- The cause of CAP.SEAL, if it traps (04_scalar.md R141). -/
def sealCause (c k : GVal) : Option Nat :=
  let t := k.word.toNat
  if c.tag = false ∨ k.tag = false then some 0x02
  else if (t : Int) < (capBounds k.bits).1 ∨ (capBounds k.bits).2 ≤ (t : Int) ∨ t = 0 ∨ 0xFFFF < t then some 0x03
  else if capOtype c.bits ≠ 0 ∨ capOtype k.bits ≠ 0 ∨ capHas k.bits permSeal = false then some 0x04
  else none

/-- CAP.SEAL (04_scalar.md R141). -/
def execCapSeal (d a b : GIdx) (s : State) : Host.Outcome State Fault Refusal :=
  let c := s.me.rg a
  let k := s.me.rg b
  settle s (match sealCause c k with
    | some cause => capTrap s cause c.word
    | none => .ok (putVal s d { c with bits := setField c.bits 100 16 k.word.toNat }))

/-- CAP.MOV (04_scalar.md R137). -/
def execCapMov (d a : GIdx) (s : State) : Host.Outcome State Fault Refusal := .next (putVal s d (s.me.rg a))

/-- CAP.CLR (04_scalar.md R137). -/
def execCapClr (d a : GIdx) (s : State) : Host.Outcome State Fault Refusal := .next (alu1 s d a id)

/-- The value that CAP.GET selects (04_scalar.md R142). -/
def capGet (c : GVal) (sel : Nat) : Nat :=
  let (base, top) := capBounds c.bits
  match sel with
  | 0 => c.word.toNat
  | 1 => if c.tag then base.toNat else 0
  | 2 => if c.tag then (top - base).toNat else 0
  | 3 => if c.tag then (capPerms c.bits).toNat else 0
  | 4 => c.tag.toNat
  | _ => if c.tag then capOtype c.bits else 0

/-- CAP.GET (04_scalar.md R142). -/
def execCapGet (d a : GIdx) (sel : BitVec 3) (s : State) : Host.Outcome State Fault Refusal :=
  .next (alu1 s d a fun _ => BitVec.ofNat 64 (capGet (s.me.rg a) sel.toNat))

/-- The first 512 KiB slot, from one on, that belongs to a package and core: their ranks repeat every 2^30 slots, for each
window of region 0xE. -/
def firstSlot (lo unit : Nat) : Nat := lo + (unit + 2 ^ 30 - lo % 2 ^ 30) % 2 ^ 30

/-- Whether a range of addresses of one region names only what a partition may reach: generic memory, valid cores of
this package, and listed windows (15_system.md R448, R449). -/
def grantable (s : State) (a l : Nat) : Bool :=
  let last := a + l - 1
  let x := BitVec.ofNat 64 a
  let y := BitVec.ofNat 64 (if l = 0 then a else last)
  let reg := region x
  if region y ≠ reg then false
  else if reg = 0 ∨ reg = 0xD then true
  else if reg = 0xC ∨ reg = 0xE then
    (List.range 4096).all fun r => y.toNat / 2 ^ 19 < firstSlot (x.toNat / 2 ^ 19) (s.me.ctl.pkg.toNat * 4096 + r) ||
      s.coreOf s.me.pid r
  else if reg = 0xF then decide (field x 48 4 ≤ 8) && decide (field y 48 4 ≤ 8)
  else false

/-- The cause of CAPGRANT, or the capability (15_system.md R448). -/
def capGrant (s : State) (a b : GVal) : Except Nat GVal :=
  if a.tag then
    if b.bits ≠ 0#128 then .error 0x07
    else if capOtype a.bits = 0 then .error 0x04
    else .ok { a with bits := setField a.bits 100 16 0 }
  else
    let x := a.word.toNat
    let l := field b.bits 0 56
    if field b.bits 68 60 ≠ 0 then .error 0x07
    else if 2 ^ 56 ≤ x ∨ 2 ^ 56 < x + l then .error 0x03
    else if grantable s x l = false then .error 0x07
    else
      match mintCap x l x (BitVec.ofNat 12 (field b.bits 56 12)) with
      | none => .error 0x03
      | some v => .ok v

/-- CAPGRANT (15_system.md R448). -/
def execCapgrant (d a b : GIdx) (s : State) : Host.Outcome State Fault Refusal :=
  settle s (partLevel s (match capGrant s (s.me.rg a) (s.me.rg b) with
    | .ok v => .ok (putVal s d v)
    | .error cause => capTrap s cause (s.me.rg a).word))

end Sys2Proof.Machine
end

