-- ==== Sys2Proof/Machine/Fetch.lean ====
section
/-! DEFINITION. Program text: how the S walker fetches words, what another walker or a span check sees of them, and
the capture of g registers by words of the other engines (02_encoding.md R40 to R49, R63; 04_scalar.md R112, R131). -/

namespace Sys2Proof.Machine

/-- The parcel at a key: a line that the instruction cache holds answers with its own bytes, which may be stale
(02_encoding.md R45). -/
def textParcel (s : State) (c : Core) (k : Nat) : Nat :=
  match c.icache.find? (fun l => l.addr == k / 64 * 64) with
  | some l => leNat ((l.bytes.drop (k % 64)).take 4)
  | none => s.mem.readNat k 4

/-- The core whose instruction cache holds the text at an address: in composed mode that of the owner of its block
(09_compose.md R274). -/
def State.textCore (s : State) (x : Word64) : Core :=
  match s.me.group with
  | .composeLead ms =>
    let o := (field x 11 5 ^^^ field x 6 5) % (ms.length + 1)
    (((s.rank :: ms).map s.coreAt).find? fun c => c.memberIdx == o).getD s.me
  | _ => s.me

/-- The S walker's fetch of the parcel at an address: the check of CODECAP, the translation with kind fetch, and a
machine check on poisoned text (04_scalar.md R131, 05_memory.md R181, 02_encoding.md R44). -/
def fetchParcel (s : State) (x : Word64) : Res (Nat × State) :=
  (access s .s s.me.codecap x 4 permExecute 1 .any).bind fun t =>
    match t.1 with
    | .bytes l =>
      if t.2.chunksPoisoned l then .trap (trapS 0x0D x) t.2
      else
        match l with
        | [k] => .ok (textParcel t.2 (t.2.textCore x) k.key, t.2)
        | _ => .ok (leNat (t.2.readChunks l), t.2)
    | .remote _ _ _ => .ok (leNat (remoteBytes t.2.fresh 4), { t.2 with fresh := t.2.fresh + 1 })
    | .window _ => .trap (trapS 0x07 x) t.2

/-- n parcels from an address upward, the first least significant (02_encoding.md R41). -/
def fetchParcels (s : State) (x : Word64) : Nat → Res (Nat × State)
  | 0 => .ok (0, s)
  | n + 1 =>
    (fetchParcel s x).bind fun p =>
      (fetchParcels p.2 (x + 4#64) n).bind fun q => .ok (p.1 + 2 ^ 32 * q.1, q.2)

/-- The whole word at an address, its bits numbered from the first parcel (02_encoding.md R40, R44). In composed mode the word
of another engine traps by its first parcel, which is all that is fetched of it (R48, 09_compose.md R274; log entry 87). -/
def fetchWord (s : State) (x : Word64) : Res (Nat × State) :=
  (fetchParcel s x).bind fun p =>
    if s.me.composed then .ok p else
    (fetchParcels p.2 (x + 4#64) (wordParcels p.1 - 1)).bind fun q => .ok (p.1 + 2 ^ 32 * q.1, q.2)

/-- The parcel that a walker other than S sees at an address: the text that the S walker has fetched, without a check of
its own (02_encoding.md R44). -/
def peekParcel (s : State) (x : Word64) : Option Nat :=
  match resolve s .s x 4 permExecute with
  | .ok (.bytes [k], t) => some (textParcel t (t.textCore x) k.key)
  | .ok (.bytes l, t) => some (leNat (t.readChunks l))
  | _ => none

/-- n parcels as such a walker sees them, the first least significant. -/
def peekParcels (s : State) (x : Word64) : Nat → Option Nat
  | 0 => some 0
  | n + 1 =>
    match peekParcel s x, peekParcels s (x + 4#64) n with
    | some p, some q => some (p + 2 ^ 32 * q)
    | _, _ => none

/-- The word that a walker other than S sees at an address (02_encoding.md R40, R44). -/
def peekWord (s : State) (x : Word64) : Option Nat :=
  match peekParcel s x with
  | some p => (peekParcels s (x + 4#64) (wordParcels p - 1)).map fun q => p + 2 ^ 32 * q
  | none => none

/-- Why the translation of one of n parcels from an address holds, before one that can be fetched no further, if it does. -/
def textHeld (s : State) (x : Word64) : Nat → Option (Hold × State)
  | 0 => none
  | n + 1 =>
    match resolve s .s x 4 permExecute with
    | .hold h t => some (h, t)
    | .ok _ => textHeld s (x + 4#64) n
    | .trap _ _ => none

/-- The engine that a word is tagged for (02_encoding.md R40). -/
def wordEngine (w : Nat) : Engine := decodeEngine (w % 4)

/-- The bytes of a word (02_encoding.md R40). -/
def wordLen (w : Nat) : Word64 := BitVec.ofNat 64 (4 * wordParcels w)

/-- Whether a word is a branch word (02_encoding.md R43). -/
def isBranchWord (w : Nat) : Bool := w % 4 == 0 && (decide (0x10 ≤ num 7 w 2) && decide (num 7 w 2 ≤ 0x17))

/-- Whether a word is a NEST word for an engine (02_encoding.md R43). -/
def isNestWord (w : Nat) (e : Engine) : Bool := w % 4 == 0 && num 7 w 2 == 0x18 && decodeEngine (num 2 w 21) == e

/-! Capture. -/

/-- The base or capability field of a V specifier (02_encoding.md R59). -/
def rawVSpec (x : Nat) : GIdx := if flag x 20 then BitVec.ofNat 6 (num 4 x 16) else 0#6

/-- The base or capability field of an M or D specifier (02_encoding.md R65). -/
def rawMSpec (x : Nat) : GIdx :=
  match num 2 x 30 with
  | 2 => BitVec.ofNat 6 (num 4 x 26)
  | 3 => BitVec.ofNat 6 (num 6 x 24)
  | _ => 0#6

/-- The captured fields of a word as the S walker reads them, legal or not, in the order of 04_scalar.md R112: cap1,
cap2, the specifiers D, A and B, and the mask pointer of an MMAM. A field of 0 is never captured, and a cap1 that names
a destination is not (02_encoding.md R49, R63). -/
def rawFields (w : Nat) : List GIdx :=
  match wordEngine w with
  | .s => []
  | .v =>
    let f := w / 2 ^ 32
    let op := num 7 w 2
    [if op = 0x3F ∨ op = 0x43 then 0#6 else bits 6 w 19, bits 6 w 25, rawVSpec (num 21 f 0), rawVSpec (num 21 f 21),
     rawVSpec (num 21 f 42), 0#6]
  | .m =>
    [bits 6 w 17, bits 6 w 23, rawMSpec (num 32 w 32), rawMSpec (num 32 w 64), rawMSpec (num 32 w 96),
     if num 7 w 2 = 0x09 then BitVec.ofNat 6 (num 4 w 186) else 0#6]
  | .d => [bits 6 w 17, bits 6 w 23, rawMSpec (num 32 w 32), rawMSpec (num 32 w 64), 0#6, 0#6]

/-- The g register that cap1 of a word names as its destination (02_encoding.md R63). -/
def rawDest (w : Nat) : List GIdx :=
  if wordEngine w = .v ∧ (num 7 w 2 = 0x3F ∨ num 7 w 2 = 0x43) then [bits 6 w 19] else []

/-- The fields of a list that are captured. -/
def capturedOf (l : List GIdx) : List GIdx := l.filter (fun i => i != 0#6)

/-- The base of a V specifier. -/
def vspecField : VSpec → GIdx
  | .loc base _ _ _ => base.setWidth 6
  | _ => 0#6

/-- The base or capability register of an M or D specifier. -/
def mspecField : MSpec → GIdx
  | .loc base _ _ => base.setWidth 6
  | .cap g _ _ => g
  | _ => 0#6

/-- The captured fields of a V word whose cap1 is a source. -/
def vFields (w : VWord) : List GIdx := [w.cap1, w.cap2, vspecField w.d, vspecField w.a, vspecField w.b, 0#6]

/-- The captured fields of a V word whose cap1 names its destination. -/
def vDestFields (w : VWord) : List GIdx := [0#6, w.cap2, vspecField w.d, vspecField w.a, vspecField w.b, 0#6]

/-- The captured fields of an M word. -/
def mFields (w : MWord) : List GIdx :=
  [w.cap1, w.cap2, mspecField w.d, mspecField w.a, mspecField w.b, if w.mask.enable then w.mask.base.setWidth 6 else 0#6]

/-- The captured fields of a D word. -/
def dFields (w : DWord) : List GIdx := [w.cap1, w.cap2, mspecField w.d, mspecField w.s, 0#6, 0#6]

/-- The captured values of a word by field (04_scalar.md R112); a field that names g0 reads zero. -/
structure Caps where
  c1 : GVal
  c2 : GVal
  d  : GVal
  a  : GVal
  b  : GVal
  m  : GVal
  deriving DecidableEq, Repr

/-- The values of an entry dealt to a list of fields in order. -/
def dealCaps : List GIdx → List GVal → List GVal
  | [], _ => []
  | f :: fs, vs =>
    if f = 0#6 then GVal.zero :: dealCaps fs vs
    else
      match vs with
      | [] => GVal.zero :: dealCaps fs []
      | v :: t => v :: dealCaps fs t

/-- The captured values of a word's six fields. -/
def capsOf (fs : List GIdx) (vs : List GVal) : Caps :=
  let l := dealCaps fs vs
  { c1 := l.getD 0 GVal.zero, c2 := l.getD 1 GVal.zero, d := l.getD 2 GVal.zero, a := l.getD 3 GVal.zero,
    b := l.getD 4 GVal.zero, m := l.getD 5 GVal.zero }

/-- The core with an entry pushed on an engine's capture queue. -/
def Core.pushCap (c : Core) (e : Engine) (x : CapEntry) : Core :=
  match e with
  | .v => { c with capV := c.capV ++ [x] }
  | .m => { c with capM := c.capM ++ [x] }
  | .d => { c with capD := c.capD ++ [x] }
  | .s => c

/-- The core with the oldest entry of an engine's capture queue popped. -/
def Core.popCap (c : Core) : Engine → Core
  | .v => { c with capV := c.capV.drop 1 }
  | .m => { c with capM := c.capM.drop 1 }
  | .d => { c with capD := c.capD.drop 1 }
  | .s => c

/-- A walker's address. -/
def Core.walkerPc (c : Core) : Engine → Word64
  | .s => c.pc | .v => c.pcV | .m => c.pcM | .d => c.pcD

/-- A walker moves to an address, n parcels on in position. -/
def Core.moveWalker (c : Core) (e : Engine) (a : Word64) (n : BitVec 32) : Core :=
  match e with
  | .s => { c.setPc a with posS := c.posS + n }
  | .v => { c with pcV := a, posV := c.posV + n }
  | .m => { c with pcM := a, posM := c.posM + n }
  | .d => { c with pcD := a, posD := c.posD + n }

/-- The core with the nest of an engine replaced. -/
def Core.setNest (c : Core) (e : Engine) (n : Option Nest) : Core :=
  match e with
  | .s => { c with nestS := n } | .v => { c with nestV := n } | .m => { c with nestM := n } | .d => { c with nestD := n }

/-- A gang's follower, whose text its leader fetches (09_compose.md R279). -/
def Core.follows (c : Core) : Bool := match c.group with | .member _ true => true | _ => false

/-- The word at a walker as it sees it: the text, or for a gang's follower the parcels that its leader has sent, by their position
on the leader's path (02_encoding.md R44, 09_compose.md R279). -/
def wordAt (s : State) (e : Engine) : Option Nat :=
  if s.me.follows then (s.me.sent.find? fun x => x.1 == s.me.walkerPos e).map (·.2) else peekWord s (s.me.walkerPc e)

/-- The word at the S walker: fetched, or for a gang's follower sent by its leader, whose word it waits for. -/
def sFetch (s : State) : Res (Nat × State) :=
  if s.me.follows then (match wordAt s .s with | some w => .ok (w, s) | none => .hold .engines s) else fetchWord s s.me.pc

/-- A gang's leader sends the word at its S walker to its followers (09_compose.md R279); a follower drops what its four walkers
have passed. -/
def sendWord (s : State) (w : Nat) : State :=
  match s.me.group with
  | .gangLead ms =>
    let p := s.me.posS
    ms.foldl (fun t m => t.modCore m fun c =>
      let keep := c.sent.filter fun x =>
        [c.posS, c.posV, c.posM, c.posD].any fun q => decide (0 ≤ (x.1 - q).toInt)
      { c with sent := if keep.any fun x => x.1 == p then keep else keep ++ [(p, w)] }) s
  | _ => s

/-- The captured values of an entry. -/
def capVals : Option CapEntry → List GVal
  | some (.vals l _ _) => l
  | _ => []

end Sys2Proof.Machine
end

