-- ==== Sys2Proof/Machine/Flags.lean ====
section
/-! DEFINITION. Number formats, rounding, the arithmetic flags, conversions, quantisation and the counter generator
(03_numbers.md R77 to R100). A finite value is exact: a sign, a magnitude and a power of two. -/

namespace Sys2Proof.Machine

/-! Flags. -/

/-- The flags of ARFLG (03_numbers.md R81). -/
abbrev fNV : BitVec 6 := 0x01#6
/-- DZ. -/
abbrev fDZ : BitVec 6 := 0x02#6
/-- OF. -/
abbrev fOF : BitVec 6 := 0x04#6
/-- UF. -/
abbrev fUF : BitVec 6 := 0x08#6
/-- NX. -/
abbrev fNX : BitVec 6 := 0x10#6
/-- SAT. -/
abbrev fSAT : BitVec 6 := 0x20#6

/-- A flag where a condition holds. -/
def flagIf (b : Bool) (f : BitVec 6) : BitVec 6 := if b then f else 0#6

/-- A rounding mode, with the draw of a stochastic rounding (03_numbers.md R85, R86). -/
inductive Rnd where
  | rne | rtz | rup | rdn
  | rsr (u : Nat)
  deriving DecidableEq, Repr

/-- The mode that a rnd code and a draw give (02_encoding.md R61). -/
def rndOf (code : Nat) (u : Nat) : Rnd :=
  match code with
  | 0 => .rne | 1 => .rtz | 2 => .rup | 3 => .rdn | _ => .rsr u

/-! Formats. -/

/-- The width in bits of a V format code (10_vector.md R290, 02_encoding.md R60). -/
def fmtBits (f : Nat) : Nat :=
  match f with
  | 0 => 8 | 1 => 16 | 2 => 32 | 3 => 64 | 4 => 8 | 5 => 16 | 6 => 32 | 7 => 64 | 8 => 16 | 9 => 16 | 10 => 32 | _ => 64

/-- Whether a format code names an IEEE format. -/
def isIeee (f : Nat) : Bool := decide (8 ≤ f) && decide (f ≤ 11)

/-- Whether a format code names an integer format. -/
def isInt (f : Nat) : Bool := decide (f ≤ 7)

/-- Whether a format code names a signed integer format. -/
def isSigned (f : Nat) : Bool := decide (f ≤ 3)

/-- Whether a format code names a block format, and its m (03_numbers.md R90). -/
def blockM (f : Nat) : Option Nat := if 0x10 ≤ f ∧ f ≤ 0x16 then some (f - 0x10 + 2) else none

/-- The fraction bits of an IEEE format (03_numbers.md R79). -/
def fracBits (f : Nat) : Nat := match f with | 8 => 10 | 9 => 7 | 10 => 23 | _ => 52

/-- The exponent bits of an IEEE format. -/
def expBits (f : Nat) : Nat := match f with | 8 => 5 | 9 => 8 | 10 => 8 | _ => 11

/-- The bias of an IEEE format. -/
def fbias (f : Nat) : Nat := 2 ^ (expBits f - 1) - 1

/-- The canonical quiet NaN (03_numbers.md R80). -/
def canonNan (f : Nat) : Nat := (2 ^ expBits f - 1) * 2 ^ fracBits f + 2 ^ (fracBits f - 1)

/-- The sign bit of a format of w bits. -/
def signBit (f : Nat) : Nat := 2 ^ (expBits f + fracBits f)

/-- An infinity of an IEEE format. -/
def infBits (f : Nat) (neg : Bool) : Nat := (if neg then signBit f else 0) + (2 ^ expBits f - 1) * 2 ^ fracBits f

/-- The largest finite value of an IEEE format, with a sign. -/
def maxBits (f : Nat) (neg : Bool) : Nat := infBits f neg - 1

/-- A value: a NaN, which may signal, an infinity, or ±m × 2^e. -/
inductive Val where
  | nan (sig : Bool)
  | inf (neg : Bool)
  | fin (neg : Bool) (m : Nat) (e : Int)
  deriving DecidableEq, Repr

/-- Whether a value is a signalling NaN. -/
def Val.snan : Val → Bool | .nan s => s | _ => false

/-- Whether a value is a NaN. -/
def Val.isNan : Val → Bool | .nan _ => true | _ => false

/-- Whether a value is infinite. -/
def Val.isInf : Val → Bool | .inf _ => true | _ => false

/-- Whether a value is zero. -/
def Val.isZero : Val → Bool | .fin _ 0 _ => true | _ => false

/-- The sign of a value. -/
def Val.neg : Val → Bool | .nan _ => false | .inf n => n | .fin n _ _ => n

/-- A value with its sign inverted. -/
def Val.negate : Val → Val | .nan s => .nan s | .inf n => .inf !n | .fin n m e => .fin (!n) m e

/-- An integer as a value. -/
def Val.ofInt (i : Int) : Val := .fin (decide (i < 0)) i.natAbs 0

/-- The value of bits in a format (03_numbers.md R77, R79). -/
def unpack (f : Nat) (x : Nat) : Val :=
  if isIeee f then
    let neg := decide (signBit f ≤ x % (2 * signBit f))
    let fr := x % 2 ^ fracBits f
    let ex := x / 2 ^ fracBits f % 2 ^ expBits f
    if ex = 2 ^ expBits f - 1 then
      (if fr = 0 then .inf neg else .nan (decide (fr < 2 ^ (fracBits f - 1))))
    else if ex = 0 then .fin neg fr (1 - (fbias f : Int) - fracBits f)
    else .fin neg (2 ^ fracBits f + fr) ((ex : Int) - fbias f - fracBits f)
  else
    let w := fmtBits f
    let v := x % 2 ^ w
    Val.ofInt (if isSigned f ∧ 2 ^ (w - 1) ≤ v then (v : Int) - 2 ^ w else v)

/-! Rounding. -/

/-- A magnitude m × 2^e, or a real strictly between it and (m + 1) × 2^e where `rest` says that digits follow, rounded to
a multiple of 2^ulp: the multiple and whether it is inexact (03_numbers.md R85, R86). -/
def roundAt (neg : Bool) (m : Nat) (e : Int) (rest : Bool) (ulp : Int) (mode : Rnd) : Nat × Bool :=
  if ulp ≤ e then
    let q := m * 2 ^ (e - ulp).toNat
    (match mode with
     | .rup => if rest && !neg then q + 1 else q
     | .rdn => if rest && neg then q + 1 else q
     | _ => q, rest)
  else
    let k := (ulp - e).toNat
    let q := m / 2 ^ k
    let r := m % 2 ^ k
    let inexact := r != 0 || rest
    let up : Bool :=
      match mode with
      | .rne => decide (2 ^ k < 2 * r) || (decide (2 * r = 2 ^ k) && (rest || q % 2 == 1))
      | .rtz => false
      | .rup => inexact && !neg
      | .rdn => inexact && neg
      | .rsr u =>
        if neg then inexact && !decide (u < 2 ^ 32 - (r * 2 ^ 32 / 2 ^ k + (if r * 2 ^ 32 % 2 ^ k = 0 ∧ rest = false then 0 else 1)))
        else decide (u < r * 2 ^ 32 / 2 ^ k)
    (if up then q + 1 else q, inexact)

/-- The exponent of the leading bit of m × 2^e. -/
def topExp (m : Nat) (e : Int) : Int := (Nat.log2 m : Int) + e

/-- The result of an overflow (03_numbers.md R85). -/
def overflowBits (f : Nat) (neg : Bool) (mode : Rnd) : Nat :=
  match mode with
  | .rne => infBits f neg
  | .rtz => maxBits f neg
  | .rup => if neg then maxBits f neg else infBits f neg
  | .rdn => if neg then infBits f neg else maxBits f neg
  | .rsr _ => infBits f neg

/-- The directed mode that rounds a magnitude up or down. -/
def awayMode (neg up : Bool) : Rnd := if up then (if neg then .rdn else .rup) else .rtz

/-- The rounding of ±m × 2^e, with further digits where `rest` says so, to an IEEE format, with its flags
(03_numbers.md R82, R85). -/
def roundTo (f : Nat) (neg : Bool) (m : Nat) (e : Int) (rest : Bool) (mode : Rnd) : Nat × BitVec 6 :=
  let s := if neg then signBit f else 0
  if m = 0 ∧ rest = false then (s, 0#6)
  else
    let emin : Int := 1 - fbias f
    let top := topExp m e
    let p : Int := fracBits f
    let ulp := max (top - p) (emin - p)
    let r := roundAt neg m e rest ulp mode
    let tiny : Bool :=
      if emin ≤ top then false
      else
        let dir := match mode with
          | .rsr _ => awayMode neg (decide (roundAt neg m e rest ulp .rtz ≠ r))
          | x => x
        decide ((roundAt neg m e rest (top - p) dir).1 < 2 ^ (emin - (top - p)).toNat)
    let q := r.1
    let carried := decide (2 ^ (fracBits f + 1) ≤ q)
    let ex : Int := if q < 2 ^ fracBits f then 0 else ulp + p + fbias f + (if carried then 1 else 0)
    if (2 ^ expBits f - 1 : Int) ≤ ex then (overflowBits f neg mode, fOF ||| fNX)
    else
      let fr := if carried then q / 2 else q
      (s + ex.toNat * 2 ^ fracBits f + fr % 2 ^ fracBits f, flagIf r.2 fNX ||| flagIf (r.2 && tiny) fUF)

/-- rnd_f(x, mode) of a value for an IEEE format; a NaN gives the canonical NaN, with NV where it signals
(03_numbers.md R80, R85). -/
def roundVal (f : Nat) (x : Val) (mode : Rnd) : Nat × BitVec 6 :=
  match x with
  | .nan s => (canonNan f, flagIf s fNV)
  | .inf n => (infBits f n, 0#6)
  | .fin n m e => roundTo f n m e false mode

/-- The least and greatest values of an integer format (03_numbers.md R77). -/
def intMin (f : Nat) : Int := if isSigned f then -(2 ^ (fmtBits f - 1) : Int) else 0

/-- The greatest value of an integer format. -/
def intMax (f : Nat) : Int := if isSigned f then 2 ^ (fmtBits f - 1) - 1 else 2 ^ fmtBits f - 1

/-- The bits of an integer in a format of w bits. -/
def intBits (w : Nat) (i : Int) : Nat := (i % (2 ^ w : Int)).toNat

/-- An integer saturated to a format (03_numbers.md R78). -/
def saturate (f : Nat) (i : Int) : Nat × BitVec 6 :=
  if i < intMin f then (intBits (fmtBits f) (intMin f), fSAT)
  else if intMax f < i then (intBits (fmtBits f) (intMax f), fSAT)
  else (intBits (fmtBits f) i, 0#6)

/-- sat_f of a sign (03_numbers.md R96). -/
def satBits (f : Nat) (neg : Bool) : Nat := intBits (fmtBits f) (if neg then intMin f else intMax f)

/-- ±m × 2^e rounded once to an integer and saturated; NX where inexact and not saturated (03_numbers.md R95). -/
def roundInt (f : Nat) (neg : Bool) (m : Nat) (e : Int) (rest : Bool) (mode : Rnd) : Nat × BitVec 6 :=
  let r := roundAt neg m e rest 0 mode
  let v := saturate f (if neg then -(r.1 : Int) else r.1)
  if v.2 = 0#6 then (v.1, flagIf r.2 fNX) else v

/-- A value converted to an integer format (03_numbers.md R95). -/
def valToInt (f : Nat) (x : Val) (mode : Rnd) : Nat × BitVec 6 :=
  match x with
  | .nan _ => (0, fNV)
  | .inf n => (satBits f n, fNV ||| fSAT)
  | .fin n m e => roundInt f n m e false mode

/-- A conversion between formats that are not blocks (03_numbers.md R95, 10_vector.md R309). -/
def convert (from_ to_ : Nat) (x : Nat) (mode : Rnd) : Nat × BitVec 6 :=
  let v := unpack from_ x
  if from_ = to_ then (if v.snan then (canonNan to_, fNV) else (x % 2 ^ fmtBits to_, 0#6))
  else if isIeee to_ then roundVal to_ v mode
  else valToInt to_ v mode

/-! Arithmetic. -/

/-- The sign of an exact zero sum (03_numbers.md R85). -/
def zeroSign (a b : Bool) (mode : Rnd) : Bool := if a = b then a else mode == .rdn

/-- The exact sum of two finite values. -/
def addFin (n1 : Bool) (m1 : Nat) (e1 : Int) (n2 : Bool) (m2 : Nat) (e2 : Int) (mode : Rnd) : Val :=
  let e := min e1 e2
  let a : Int := (if n1 then -1 else 1) * (m1 * 2 ^ (e1 - e).toNat : Nat)
  let b : Int := (if n2 then -1 else 1) * (m2 * 2 ^ (e2 - e).toNat : Nat)
  let c := a + b
  if c = 0 then .fin (zeroSign n1 n2 mode) 0 0 else .fin (decide (c < 0)) c.natAbs e

/-- The sum of two values, with NV for an invalid one (03_numbers.md R80). -/
def addVal (a b : Val) (mode : Rnd) : Val × BitVec 6 :=
  match a, b with
  | .nan s, y => (.nan false, flagIf (s || y.snan) fNV)
  | x, .nan s => (.nan false, flagIf (s || x.snan) fNV)
  | .inf n, .inf k => if n = k then (.inf n, 0#6) else (.nan false, fNV)
  | .inf n, _ => (.inf n, 0#6)
  | _, .inf n => (.inf n, 0#6)
  | .fin n1 m1 e1, .fin n2 m2 e2 => (addFin n1 m1 e1 n2 m2 e2 mode, 0#6)

/-- The product of two values. -/
def mulVal (a b : Val) : Val × BitVec 6 :=
  match a, b with
  | .nan s, y => (.nan false, flagIf (s || y.snan) fNV)
  | x, .nan s => (.nan false, flagIf (s || x.snan) fNV)
  | .inf n, y => if y.isZero then (.nan false, fNV) else (.inf (n != y.neg), 0#6)
  | x, .inf n => if x.isZero then (.nan false, fNV) else (.inf (n != x.neg), 0#6)
  | .fin n1 m1 e1, .fin n2 m2 e2 => (.fin (n1 != n2) (m1 * m2) (e1 + e2), 0#6)

/-- A rounded sum, difference or product (10_vector.md R305). -/
def addF (f a b : Nat) (mode : Rnd) : Nat × BitVec 6 :=
  let r := addVal (unpack f a) (unpack f b) mode
  let q := roundVal f r.1 mode
  (q.1, r.2 ||| q.2)

/-- A rounded product. -/
def mulF (f a b : Nat) (mode : Rnd) : Nat × BitVec 6 :=
  let r := mulVal (unpack f a) (unpack f b)
  let q := roundVal f r.1 mode
  (q.1, r.2 ||| q.2)

/-- ±(a × b) ± d, rounded once (10_vector.md R305). -/
def fmaF (f a b d : Nat) (negP negD : Bool) (mode : Rnd) : Nat × BitVec 6 :=
  let p := mulVal (unpack f a) (unpack f b)
  let x := if negP then p.1.negate else p.1
  let y := if negD then (unpack f d).negate else unpack f d
  let r := addVal x y mode
  let q := roundVal f r.1 mode
  (q.1, p.2 ||| r.2 ||| q.2)

/-- The further bits of a quotient or a root that roundings and draws need. -/
abbrev extraBits : Nat := 400

/-- The quotient of two finite magnitudes: its leading digits, its exponent, and whether digits follow. -/
def divMag (m1 : Nat) (e1 : Int) (m2 : Nat) (e2 : Int) : Nat × Int × Bool :=
  let n := m1 * 2 ^ extraBits
  (n / m2, e1 - e2 - extraBits, n % m2 != 0)

/-- A rounded quotient (10_vector.md R314, R315). -/
def divVal (f : Nat) (a b : Val) (mode : Rnd) : Nat × BitVec 6 :=
  match a, b with
  | .nan s, y => (canonNan f, flagIf (s || y.snan) fNV)
  | x, .nan s => (canonNan f, flagIf (s || x.snan) fNV)
  | .inf _, .inf _ => (canonNan f, fNV)
  | .inf n, y => (infBits f (n != y.neg), 0#6)
  | x, .inf n => ((if x.neg != n then signBit f else 0), 0#6)
  | .fin n1 m1 e1, .fin n2 m2 e2 =>
    if m2 = 0 then (if m1 = 0 then (canonNan f, fNV) else (infBits f (n1 != n2), fDZ))
    else
      let q := divMag m1 e1 m2 e2
      roundTo f (n1 != n2) q.1 q.2.1 q.2.2 mode

/-- Bits of the integer square root, from the highest down; fuel counts them. -/
def isqrtFrom (n : Nat) : Nat → Nat → Nat
  | 0, r => r
  | k + 1, r => let c := r + 2 ^ k; isqrtFrom n k (if c * c ≤ n then c else r)

/-- The integer square root. -/
def isqrt (n : Nat) : Nat := isqrtFrom n (Nat.log2 n / 2 + 1) 0

/-- A rounded square root (10_vector.md R314, R315). -/
def sqrtVal (f : Nat) (a : Val) (mode : Rnd) : Nat × BitVec 6 :=
  match a with
  | .nan s => (canonNan f, flagIf s fNV)
  | .inf n => if n then (canonNan f, fNV) else (infBits f false, 0#6)
  | .fin n 0 _ => ((if n then signBit f else 0), 0#6)
  | .fin n m e =>
    if n then (canonNan f, fNV)
    else
      let odd := e % 2
      let x := m * 2 ^ odd.toNat * 2 ^ (2 * 200)
      let r := isqrt x
      roundTo f false r ((e - odd) / 2 - 200) (decide (r * r ≠ x)) mode

/-- The reciprocal square root, at .rne (10_vector.md R314, R315): the digits of the root of 2^(2K) / m are exact where
its square times m is 2^(2K). -/
def rsqrtVal (f : Nat) (a : Val) : Nat × BitVec 6 :=
  match a with
  | .nan s => (canonNan f, flagIf s fNV)
  | .inf n => if n then (canonNan f, fNV) else (0, 0#6)
  | .fin n 0 _ => (infBits f n, fDZ)
  | .fin n m e =>
    if n then (canonNan f, fNV)
    else
      let odd := e % 2
      let d := m * 2 ^ odd.toNat
      let x := 2 ^ (2 * 300) / d
      let r := isqrt x
      roundTo f false r (-((e - odd) / 2) - 300) (decide (r * r * d ≠ 2 ^ (2 * 300))) .rne

/-! Comparison. -/

/-- The magnitude comparison of two finite values as integers at a common scale. -/
def finInt (n : Bool) (m : Nat) (e lo : Int) : Int := (if n then -1 else 1) * (m * 2 ^ (e - lo).toNat : Nat)

/-- Whether one value is below another; false for NaN. -/
def Val.lt (a b : Val) : Bool :=
  match a, b with
  | .nan _, _ => false
  | _, .nan _ => false
  | .inf n, .inf k => n && !k
  | .inf n, _ => n
  | _, .inf n => !n
  | .fin n1 m1 e1, .fin n2 m2 e2 => let lo := min e1 e2; decide (finInt n1 m1 e1 lo < finInt n2 m2 e2 lo)

/-- Whether two values are equal; false for NaN, and the zeros are equal. -/
def Val.eq (a b : Val) : Bool := !a.isNan && !b.isNan && !a.lt b && !b.lt a

/-- The IEEE 754-2019 minimum or maximum of bits in a format (10_vector.md R305): NaN wins, and −0 lies below +0. -/
def minMaxF (f : Nat) (isMax : Bool) (a b : Nat) : Nat × BitVec 6 :=
  let x := unpack f a
  let y := unpack f b
  if x.isNan || y.isNan then (canonNan f, flagIf (x.snan || y.snan) fNV)
  else
    let less : Bool := x.lt y || (x.eq y && x.neg && !y.neg)
    (if less != isMax then a else b, 0#6)

/-- The minimum or maximum of an integer format. -/
def minMaxI (f : Nat) (isMax : Bool) (a b : Nat) : Nat × BitVec 6 :=
  (if (unpack f a).lt (unpack f b) != isMax then a else b, 0#6)

/-- The minimum or maximum of a format. -/
def minMax (f : Nat) (isMax : Bool) (a b : Nat) : Nat × BitVec 6 := if isIeee f then minMaxF f isMax a b else minMaxI f isMax a b

/-- A condition of VCMP on two values, with its flags (10_vector.md R306). -/
def compare_ (cond : Nat) (x y : Val) : Bool × BitVec 6 :=
  let un := x.isNan || y.isNan
  let any : Bool := un && (decide (2 ≤ cond) && decide (cond ≤ 5))
  let r : Bool :=
    match cond with
    | 0 => x.eq y
    | 1 => un || !x.eq y
    | 2 => x.lt y
    | 3 => x.lt y || x.eq y
    | 4 => y.lt x
    | 5 => y.lt x || x.eq y
    | _ => un
  (r, flagIf (any || x.snan || y.snan) fNV)

/-! Quantisation. -/

/-- vqnt of 03_numbers.md R96 on values, for an integer format. -/
def vqnt (f : Nat) (x s : Val) (mode : Rnd) : Nat × BitVec 6 :=
  match x, s with
  | .nan _, _ => (0, fNV)
  | _, .nan _ => (0, fNV)
  | x, .fin n2 0 _ => if x.isZero then (0, fNV) else (satBits f (x.neg != n2), fDZ ||| fSAT)
  | .inf n, y => (satBits f (n != y.neg), fNV ||| fSAT)
  | _, .inf _ => (0, 0#6)
  | .fin n1 m1 e1, .fin n2 m2 e2 =>
    let q := divMag m1 e1 m2 e2
    roundInt f (n1 != n2) q.1 q.2.1 q.2.2 mode

/-- VDQNT of an integer and a scale (03_numbers.md R97). -/
def vdqnt (n s : Val) (mode : Rnd) : Nat × BitVec 6 :=
  let p := mulVal n s
  let q := roundVal 10 p.1 mode
  (q.1, p.2 ||| q.2)

/-! Blocks. -/

/-- shared_e of 03_numbers.md R92 on a list of values: the exponent, and whether it is a NaN, saturated or neither. -/
inductive BlockKind where
  | nan | sat | ok
  deriving DecidableEq, Repr

/-- floor(log2) of the largest magnitude of the finite values of a list; none where all are zero. -/
def maxExp (l : List Val) : Option Int :=
  l.foldl (fun a x =>
    match x with
    | .fin _ m e => if m = 0 then a else some (match a with | none => topExp m e | some t => max t (topExp m e))
    | _ => a) none

/-- shared_e(x) (03_numbers.md R92). -/
def sharedE (l : List Val) : Nat × BlockKind :=
  if l.any (·.isNan) then (0xFF, .nan)
  else if l.any (·.isInf) then (0xFE, .sat)
  else
    match maxExp l with
    | none => (0, .ok)
    | some e => if 254 < e + 127 then (0xFE, .sat) else if e + 127 < 0 then (0, .ok) else ((e + 127).toNat, .ok)

/-- A block: its shared exponent and its mantissas (03_numbers.md R90). -/
structure Block where
  e8   : Nat
  mant : List Int
  deriving DecidableEq, Repr

/-- A mantissa of a block of width m from a value, with its flags (03_numbers.md R93). -/
def mantOf (m e8 : Nat) (x : Val) (mode : Rnd) : Int × BitVec 6 :=
  let hi : Int := 2 ^ (m - 1) - 1
  let lo : Int := -(2 ^ (m - 1))
  match x with
  | .nan _ => (0, 0#6)
  | .inf n => (if n then lo else hi, fNX ||| fNV)
  | .fin n k e =>
    let r := roundAt n k (e - ((e8 : Int) - 127 - ((m : Int) - 2))) false 0 mode
    let i : Int := if n then -(r.1 : Int) else r.1
    let c := min (max i lo) hi
    (c, flagIf (r.2 || c != i) fNX ||| flagIf (k != 0 && c == 0) fUF)

/-- The conversion of values to a block of width m (03_numbers.md R93), with further values that bound the exponent
(10_vector.md R310) and a mode for each element. A saturation on range sets NX beside OF, also where no element changes (R82;
log entry 83). R93 sets NV for an infinite input and R310 says of an infinite bound only that it saturates: an infinity sets OF
and NX here, and NV only where the element is infinite itself (DESIGN CHOICE, log entry 111). -/
def toBlock (m : Nat) (l bound : List Val) (mode : Nat → Rnd) : Block × BitVec 6 :=
  let k := sharedE (l ++ bound)
  if k.2 = .nan then
    ({ e8 := 0xFF, mant := l.map fun _ => 0 }, flagIf ((l ++ bound).any (·.snan)) fNV)
  else
    let r := l.zipIdx.map fun x => mantOf m k.1 x.1 (mode x.2)
    ({ e8 := k.1, mant := r.map (·.1) }, r.foldl (fun a x => a ||| x.2) (flagIf (k.2 == .sat) (fOF ||| fNX)))

/-- The value of an element of a block of width m (03_numbers.md R91). -/
def blockVal (m e8 : Nat) (i : Int) : Val :=
  if e8 = 0xFF then .nan false else .fin (decide (i < 0)) i.natAbs ((e8 : Int) - 127 - ((m : Int) - 2))

/-- The bytes of a block of width m (03_numbers.md R90). -/
def blockBytes (m : Nat) (b : Block) : List Byte :=
  leBytes 1 b.e8 ++ leBytes (4 * m) ((b.mant.zipIdx.map fun x => intBits m x.1 * 2 ^ (m * x.2)).sum)

/-- The block of width m in 1 + 4m bytes (03_numbers.md R90). -/
def blockOf (m : Nat) (bs : List Byte) : Block :=
  let n := leNat (bs.drop 1)
  { e8 := leNat (bs.take 1),
    mant := (List.range 32).map fun j =>
      let v := n / 2 ^ (m * j) % 2 ^ m
      if 2 ^ (m - 1) ≤ v then (v : Int) - 2 ^ m else v }

/-- The bytes of a block of width m. -/
def blockLen (m : Nat) : Nat := 1 + 4 * m

/-! The counter generator. -/

/-- One round of Philox on a counter of four words with a key of two (03_numbers.md R87). -/
def philoxRound (c : Nat × Nat × Nat × Nat) (kl kh : Nat) : Nat × Nat × Nat × Nat :=
  let p0 := 0xD2511F53 * c.1
  let p1 := 0xCD9E8D57 * c.2.2.1
  (Nat.xor (Nat.xor (p1 / 2 ^ 32) c.2.1) kl, p1 % 2 ^ 32, Nat.xor (Nat.xor (p0 / 2 ^ 32) c.2.2.2) kh, p0 % 2 ^ 32)

/-- n rounds. -/
def philoxRounds : Nat → Nat × Nat × Nat × Nat → Nat → Nat → Nat × Nat × Nat × Nat
  | 0, c, _, _ => c
  | n + 1, c, kl, kh => philoxRounds n (philoxRound c kl kh) ((kl + 0x9E3779B9) % 2 ^ 32) ((kh + 0xBB67AE85) % 2 ^ 32)

/-- Word w of philox(c, key) (03_numbers.md R87). -/
def philox (ctr : BitVec 128) (key : BitVec 64) (w : Nat) : Nat :=
  let n := ctr.toNat
  let k := key.toNat
  let r := philoxRounds 10 (n % 2 ^ 32, n / 2 ^ 32 % 2 ^ 32, n / 2 ^ 64 % 2 ^ 32, n / 2 ^ 96) (k % 2 ^ 32) (k / 2 ^ 32)
  match w with
  | 0 => r.1
  | 1 => r.2.1
  | 2 => r.2.2.1
  | _ => r.2.2.2

/-- The draw of lane i (03_numbers.md R88). -/
def draw (ctr : BitVec 128) (key : BitVec 64) (i : Nat) : Nat := philox (ctr + BitVec.ofNat 128 (i / 4)) key (i % 4)

end Sys2Proof.Machine
end

