-- ==== Sys2Proof/Machine/Range.lean ====
section
/-! DEFINITION. The range checker (04_scalar.md R116, 12_copy.md R357): the bytes of the own local memory that each word
reads and writes, and whether an access must wait for those of earlier words of other engines; with the nest descriptors,
specifier addresses, tile shapes and element sizes that decide them. -/

namespace Sys2Proof

/-- The lanes of a format (10_vector.md R290). -/
def VWord.fmtN (w : VWord) : Nat := w.fmt.toNat

/-- The width of the word's lanes. -/
def VWord.width (w : VWord) : Nat := Machine.fmtBits w.fmtN

/-- The lane count of the word's format. -/
def VWord.lanes (w : VWord) : Nat := 1024 / w.width

end Sys2Proof

namespace Sys2Proof.Machine

/-! Nest descriptors. -/

/-- The bytes of a nest descriptor of some levels (04_scalar.md R119). -/
def nestBytes (levels : Nat) : Nat := 8 + 16 * levels

/-- Bound register r of a descriptor, COUNT of level l, and STRIDE of level l for register r (04_scalar.md R120). -/
def nestReg (d : List Byte) (r : Nat) : Nat := leNat ((d.drop (1 + r)).take 1)

/-- COUNT of a level (04_scalar.md R120). -/
def nestCount (d : List Byte) (l : Nat) : Nat := leNat ((d.drop (8 + 16 * l)).take 4)

/-- STRIDE of a level for a bound register (04_scalar.md R120). -/
def nestStride (d : List Byte) (l r : Nat) : Int :=
  (BitVec.ofNat 24 (leNat ((d.drop (12 + 16 * l + 3 * r)).take 3))).toInt

/-- NREG (04_scalar.md R120). -/
def nestRegs (d : List Byte) : Nat := leNat (d.take 1)

/-- Whether a descriptor keeps the limits of 04_scalar.md R120. -/
def nestOk (d : List Byte) (levels : Nat) (e : Engine) : Bool :=
  let n := nestRegs d
  let regs := (List.range 4).map (nestReg d)
  decide (n ≤ 4) &&
  ((List.range 4).all fun r =>
    if r < n then decide (1 ≤ nestReg d r) && decide (nestReg d r ≤ (if e = .v then 15 else 63)) else nestReg d r == 0) &&
  (regs.take n).Nodup && (d.drop 5).take 3 == [0#8, 0#8, 0#8] &&
  ((List.range levels).all fun l => decide (1 ≤ nestCount d l))

/-- off_r of 04_scalar.md R122 for a register at an index vector. -/
def nestOff (d : List Byte) (index : List Nat) (g : GIdx) : Int :=
  ((List.range (nestRegs d)).map fun r =>
    if nestReg d r = g.toNat ∧ g ≠ 0#6 then
      (index.zipIdx.map fun x => (x.1 : Int) * nestStride d x.2 r).sum
    else 0).sum

/-- The next index vector, the innermost level first; none after the last (04_scalar.md R122). -/
def nextIndex (d : List Byte) : List Nat → Nat → Option (List Nat)
  | [], _ => none
  | i :: t, l =>
    if i + 1 < nestCount d l then some ((i + 1) :: t)
    else (nextIndex d t (l + 1)).map fun u => 0 :: u

/-- The least and the greatest of off_r over every iteration of a nest, for a register (04_scalar.md R122). -/
def nestSpan (d : List Byte) (g : GIdx) : Int × Int :=
  ((List.range (nestRegs d)).filter fun r => nestReg d r == g.toNat && g != 0#6).foldl (fun a r =>
    (List.range ((d.length - 8) / 16)).foldl (fun b l =>
      let m := ((nestCount d l : Int) - 1) * nestStride d l r
      (b.1 + min 0 m, b.2 + max 0 m)) a) (0, 0)

/-! Operands of M and D words. -/

/-- The address of an M or D specifier: its captured value, its offset, and what a nest adds (11_matrix.md R335,
04_scalar.md R122). -/
def specAddr (n : Option Nest) (sp : MSpec) (cap : GVal) : Word64 :=
  let o (g : GIdx) : Int := match n with | some m => nestOff m.desc m.index g | none => 0
  match sp with
  | .loc base off _ => cap.word + BitVec.ofInt 64 ((off.toNat : Int) + o (base.setWidth 6))
  | .cap g off _ => cap.word + BitVec.ofInt 64 (off.toInt + o g)
  | _ => cap.word

/-- A tile number of a specifier. -/
def tileOf (sp : MSpec) : BitVec 3 := match sp with | .reg n => n.setWidth 3 | _ => 0#3

/-- An accumulator number of a specifier. -/
def accOf (sp : MSpec) : BitVec 1 := match sp with | .reg n => n.setWidth 1 | _ => 0#1

/-- A shape as TSHP holds it: format, rows and columns (11_matrix.md R330). -/
structure Shape where
  fmt  : Nat
  rows : Nat
  cols : Nat
  deriving DecidableEq, Repr

/-- TSHP of a tile. -/
def Core.shape (c : Core) (i : BitVec 3) : Shape :=
  let x := c.ctl.tshp[i.toNat]'(by have := i.isLt; omega)
  { fmt := field x 0 5, rows := field x 5 7 + 1, cols := field x 12 7 + 1 }

/-- The bits of TSHP for a shape. -/
def Shape.bits (x : Shape) : BitVec 32 := BitVec.ofNat 32 (x.fmt + (x.rows - 1) * 2 ^ 5 + (x.cols - 1) * 2 ^ 12)

/-- The core with TSHP of a tile replaced. -/
def Core.setShape (c : Core) (i : BitVec 3) (x : BitVec 32) : Core :=
  c.modCtl fun k => { k with tshp := k.tshp.set i.toNat x (by have := i.isLt; omega) }

/-- The bytes of a row of a shape (11_matrix.md R327). -/
def Shape.rowBytes (x : Shape) : Nat := tileRowBytes (BitVec.ofNat 5 x.fmt) x.cols

/-- The bytes of a shape's image. -/
def Shape.bytes (x : Shape) : Nat := x.rows * x.rowBytes

/-- The bytes of an element of a format: a block of 32 elements counts as one, a RAW element is a byte (12_copy.md
R369). -/
def elemBytes (f : BitVec 5) : Nat :=
  if f = rawFormat then 1 else match blockM f.toNat with | some m => blockLen m | none => fmtBits f.toNat / 8

/-- The element alignment al: the element size, 1 for blocks and RAW (12_copy.md R369). -/
def elemAlign (f : BitVec 5) : Nat := if f = rawFormat ∨ (blockM f.toNat).isSome then 1 else elemBytes f

/-- The bytes that convert together on the two sides of a copy: one element, 32 where a side is a block, or a byte where
a side is RAW (12_copy.md R369). -/
def groupBytes (sf df : BitVec 5) : Nat × Nat :=
  if sf = rawFormat ∨ df = rawFormat then (1, 1)
  else
    let b := (blockM sf.toNat).isSome || (blockM df.toNat).isSome
    let side (f : BitVec 5) : Nat := if b ∧ blockM f.toNat = none then 32 * elemBytes f else elemBytes f
    (side sf, side df)

/-- The bytes that a copy of len source bytes writes. -/
def copyBytes (sf df : BitVec 5) (len : Nat) : Nat := let g := groupBytes sf df; len / g.1 * g.2

/-- The size of an element that a gather or scatter moves: RAW means 64 bytes (12_copy.md R371). -/
def moveBytes (f : BitVec 5) : Nat := if f = rawFormat then 64 else elemBytes f

/-- The bytes that DSTAMP covers: the payload, and 8 more after it (12_copy.md R374). -/
def stampBytes (len : Nat) : Nat := 8 * ((len + 7) / 8) + 8

/-! Touched bytes. -/

/-- A run of bytes of the own local memory that a word reads or writes, by its first and last offsets (the last excluded),
and whether it is reached by the alias (05_memory.md R150). -/
structure Touch where
  lo      : Nat
  hi      : Nat
  wr      : Bool
  byAlias : Bool
  deriving DecidableEq, Repr

/-- Whether two accesses are ordered (04_scalar.md R116, 05_memory.md R150). -/
def Touch.clash (a b : Touch) : Bool :=
  a.byAlias == b.byAlias && (a.wr || b.wr) && decide (a.lo < b.hi) && decide (b.lo < a.hi)

/-- The part of a span of addresses that lies in the own local memory, by the path of the first of some addresses of it that
does. -/
def ownSpan (s : State) (base : Word64) (lo hi : Int) (wr : Bool) : List Touch :=
  if hi ≤ lo then []
  else
    match [BitVec.ofInt 64 lo, BitVec.ofInt 64 (hi - 1), base].find? s.isOwn with
    | some x =>
      let o : Int := coordOff x
      let a := max 0 (o + (lo - x.toNat))
      let b := min (localSize : Int) (o + (hi - x.toNat))
      if a < b then [{ lo := a.toNat, hi := b.toNat, wr := wr, byAlias := viaAlias x }] else []
    | none => []

/-- n bytes at an address. -/
def touchAt (s : State) (x : Word64) (n : Nat) (wr : Bool) : List Touch := ownSpan s x x.toNat (x.toNat + n) wr

/-- The displacements that a word's operands may still meet, by register: none outside a nest. -/
abbrev Disp := GIdx → Int × Int

/-- No displacement. -/
def noDisp : Disp := fun _ => (0, 0)

/-- The indexed elements of n bytes of a D specifier: from its base to the base + 2^32 × n, clipped to the bounds of its capability
(12_copy.md R371), the base under its displacements (04_scalar.md R122). -/
def touchIndexed (s : State) (f : Disp) (sp : MSpec) (c : GVal) (n : Nat) (wr : Bool) : List Touch :=
  let b := capBounds c.bits
  let x := specAddr none sp c
  let d := f (mspecField sp)
  ownSpan s x (max b.1 (x.toNat + d.1)) (min b.2 (x.toNat + d.2 + 2 ^ 32 * n)) wr

/-- The bytes that a capability covers: what an indexed V word may access whose indices are not known yet (10_vector.md R318). -/
def touchBounds (s : State) (c : GVal) (wr : Bool) : List Touch :=
  let b := capBounds c.bits
  ownSpan s c.word b.1 b.2 wr

/-- The bytes from o to n - 1 at an M or D specifier under its displacements. -/
def touchFrom (s : State) (f : Disp) (sp : MSpec) (cap : GVal) (o n : Nat) (wr : Bool) : List Touch :=
  if n ≤ o ∨ (sp.isLocal = false ∧ sp.isCap = false) then []
  else
    let x := specAddr none sp cap
    let d := f (mspecField sp)
    ownSpan s x (x.toNat + d.1 + o) (x.toNat + d.2 + n) wr

/-- n bytes at an M or D specifier under its displacements. -/
def touchSpec (s : State) (f : Disp) (sp : MSpec) (cap : GVal) (n : Nat) (wr : Bool) : List Touch :=
  touchFrom s f sp cap 0 n wr

/-- What an M word touches (11_matrix.md R342 to R349), with the bytes of each tile's shape. -/
def mTouch (s : State) (bytes : BitVec 3 → Nat) (f : Disp) (op : Instr) (l : List GVal) : List Touch :=
  let k (w : MWord) : Caps := capsOf (mFields w) l
  match op with
  | .tld w => touchSpec s f w.a (k w).a (bytes (tileOf w.d)) false
  | .tst w => touchSpec s f w.d (k w).d (bytes (tileOf w.a)) true
  | .mmam w => touchSpec s f (.loc w.mask.base w.mask.off 0#5) (k w).m 2112 false
  | .accld w => touchSpec s f w.a (k w).a accSize false
  | .accst w => touchSpec s f w.d (k w).d accSize true
  | .acccvt _ =>
    let o := 64 * field s.me.ctl.mxcfg 6 13
    if s.me.ctl.mxcfg.getLsbD 31 then [{ lo := o, hi := o + 512, wr := false, byAlias := true }] else []
  | _ => []

/-- The address of a specifier of a command. -/
def cmdAddr (sp : MSpec) (c : GVal) (disp : Int) : Word64 := specAddr none sp c + BitVec.ofInt 64 disp

/-- The number of aligned 64-byte units that n bytes at an address touch (12_copy.md R354). -/
def unitCount (x n : Nat) : Nat := if n = 0 then 0 else (x + n - 1) / 64 - x / 64 + 1

/-- The bytes of n at an address that lie in unit u: their first and last offsets, the last excluded (12_copy.md R354). -/
def unitPart (x n u : Nat) : Nat × Nat :=
  let base := x / 64 * 64 + 64 * u
  (base - x, min n (base + 64 - x))

/-- The source bytes, and the entries of its index list, that the units done of a command have read, from the first on: what lies
behind them is consumed (12_copy.md R357). -/
def cmdConsumed (q : DCmd) : Nat × Nat :=
  let k (w : DWord) : Caps := capsOf (dFields w) q.caps
  let len (w : DWord) : Nat := (k w).c1.word.toNat
  let units (x : Word64) (sf df : BitVec 5) (n : Nat) : Nat :=
    let g := groupBytes sf df
    min n ((unitPart x.toNat (copyBytes sf df n) q.done).1 / g.2 * g.1)
  let plain (w : DWord) : Nat := units (cmdAddr w.d (k w).d q.dispD) rawFormat rawFormat (len w)
  if q.done = 0 then (if q.taken.isSome then 2 ^ 64 else 0, 0)
  else
    match q.op with
    | .dcpy w => (units (cmdAddr w.d (k w).d q.dispD) w.s.format w.d.format (len w), 0)
    | .dshd w => (units (q.caps.getLastD GVal.zero).word w.s.format w.d.format (len w), 0)
    | .dput w | .dgetMb w | .dgetEv w | .dstamp w => (plain w, 0)
    | .dredAdd w | .dredMax w | .dredMin w => (if q.taken.isSome then 2 ^ 64 else plain w, 0)
    | .dputF _ => (64 * q.done, 0)
    | .dgth w =>
      let e := moveBytes w.s.format
      (0, (unitPart (cmdAddr w.d (k w).d q.dispD).toNat (len w * e) q.done).1 / e)
    | .dsct w => (q.done * moveBytes w.s.format, q.done)
    | .kvwr _ => (2 ^ 64, 0)
    | _ => (0, 0)

/-- What a D word touches (12_copy.md R357): its source, its index list and its destination, but for the bytes and entries `got` that
it has read. The buffer of a DSHD that has not issued may lie anywhere; of one that has, it is the last captured value. -/
def dTouch (s : State) (fd fs : Disp) (issued : Bool) (got : Nat × Nat) (op : Instr) (l : List GVal) : List Touch :=
  let k (w : DWord) : Caps := capsOf (dFields w) l
  let len (w : DWord) : Nat := (k w).c1.word.toNat
  let dst (w : DWord) (n : Nat) := touchSpec s fd w.d (k w).d n true
  let src (w : DWord) (n : Nat) := touchFrom s fs w.s (k w).a got.1 n false
  let list (w : DWord) := touchAt s ((k w).c2.word + BitVec.ofNat 64 (4 * got.2)) (4 * (len w - got.2)) false
  match op with
  | .dcpy w => src w (len w) ++ dst w (copyBytes w.s.format w.d.format (len w))
  | .dredAdd w | .dredMax w | .dredMin w | .dgetMb w | .dgetEv w | .dput w | .dputF w => src w (len w) ++ dst w (len w)
  | .dgth w => list w ++ dst w (len w * moveBytes w.s.format) ++ touchIndexed s fs w.s (k w).a (moveBytes w.s.format) false
  | .dsct w => list w ++ src w (len w * moveBytes w.s.format) ++ touchIndexed s fd w.d (k w).d (moveBytes w.s.format) true
  | .dstamp w => src w (len w) ++ dst w (stampBytes (len w))
  | .dshd w =>
    let b := l.getLastD GVal.zero
    src w (len w) ++
      (if issued then touchAt s b.word (copyBytes w.s.format w.d.format (len w)) true
       else touchAt s (k w).d.word 64 false ++ [{ lo := 0, hi := localSize, wr := true, byAlias := false },
         { lo := 0, hi := localSize, wr := true, byAlias := true }])
  | .dpub w => touchAt s (k w).c1.word 64 true
  | .dstrm w => src w 64
  | .kvwr w => src w 2048
  | _ => []

/-! V words. -/

/-- A V word with its elements and the widths of its operands D, A and B, and whether the addresses of A or of D are
indexed (10_vector.md R292, R309, R311, R318). -/
structure VShape where
  w  : VWord
  n  : Nat
  wd : Nat
  wa : Nat
  wb : Nat
  ga : Bool := false
  gd : Bool := false

/-- The shape of a word whose operands all have the lane format. -/
def plainShape (w : VWord) : VShape := { w := w, n := w.lanes, wd := w.width, wa := w.width, wb := w.width }

/-- The shape of a V word; none of a word on predicates alone. -/
def vShape : Instr → Option VShape
  | .vadd w | .vsub w | .vmul w | .vfma w | .vfms w | .vfnma w | .vmin w | .vmax w | .vabs w | .vneg w | .vcmp w | .vsel w
  | .vand w | .vor w | .vxor w | .vnot w | .vshl w | .vshr w | .vsra w | .vmaxx w | .vsum w | .vrmax w | .vrmin w
  | .vperm w | .vbcast w | .vslide w | .viota w | .vexp w | .vlog w | .vrcp w | .vrsq w | .vsqrt w | .vdiv w | .vsin w
  | .vcos w | .vtanh w | .vsig w | .vrng w | .vld w | .vlds w | .vst w | .vsts w | .vmovgs w | .vmovsg w =>
    some (plainShape w)
  | .vcvt w =>
    let c := w.cvtCode.toNat
    if (blockM c).isSome then some (plainShape w)
    else some { plainShape w with n := 1024 / max w.width (fmtBits c), wd := fmtBits c }
  | .vqnt w => some { plainShape w with n := 1024 / max w.width 32, wa := 32, wb := 32 }
  | .vdqnt w => some { plainShape w with n := 1024 / max w.width 32, wd := 32, wb := 32 }
  | .vgth w => some { plainShape w with ga := true }
  | .vsct w => some { plainShape w with gd := true }
  | _ => none

/-- What a local specifier of a V word touches: every element that it may access (10_vector.md R292). -/
def vSpecTouch (s : State) (f : Disp) (sp : VSpec) (cap : GVal) (n b : Nat) (gather wr : Bool) : List Touch :=
  match sp with
  | .loc base off stride _ =>
    if gather then touchBounds s cap wr
    else
      let x : Int := cap.word.toNat + (off.toNat : Int) * b
      let m : Int := ((n : Int) - 1) * stride.toInt * b
      let d := f (base.setWidth 6)
      ownSpan s cap.word (x + min 0 m + d.1) (x + max 0 m + d.2 + b) wr
  | _ => []

/-- What a V word touches. -/
def vTouch (s : State) (f : Disp) (op : Instr) (l : List GVal) : List Touch :=
  match vShape op with
  | some x =>
    let w := x.w
    let k := capsOf (match op with | .vmovsg _ => vDestFields w | _ => vFields w) l
    vSpecTouch s f w.d k.d x.n (x.wd / 8) x.gd true ++ vSpecTouch s f w.a k.a x.n (x.wa / 8) x.ga false ++
      vSpecTouch s f w.b k.b x.n (x.wb / 8) false false
  | none => []

/-! Words still to execute. -/

/-- Whether a position comes before another in program order. -/
def before (a b : BitVec 32) : Bool := decide (0 < (b - a).toInt)

/-- What the entries of a capture queue before a position touch; an entry after a NEST descriptor may repeat under its
displacements. -/
def queueTouches (f : Disp → Instr → List GVal → List Touch) (p : BitVec 32) : Option (List Byte) → List CapEntry → List Touch
  | _, [] => []
  | _, .nest d :: t => queueTouches f p (some d) t
  | d, .vals l op pos :: t =>
    (match op with
     | some i => if before pos p then f (match d with | some b => nestSpan b | none => noDisp) i l else []
     | none => []) ++ queueTouches f p d t

/-- The position of the last word of a nest's body, once the S walker has passed it. -/
def Nest.endPos (n : Nest) (q : List CapEntry) : Option (BitVec 32) :=
  if n.words ≤ n.body.length then n.body.getLast?.map (·.pos)
  else match q[n.words - n.body.length - 1]? with | some (.vals _ _ p) => some p | _ => none

/-- Whether a nest is in its first iteration. -/
def Nest.first (n : Nest) : Bool := n.index.all (· == 0)

/-- The place of a body word in program order: its own in the first iteration, that of the end of the body in the later
ones (11_matrix.md R333). -/
def Nest.place (n : Nest) (b : BodyWord) : BitVec 32 := if n.first then b.pos else (n.endPos []).getD b.pos

/-- The words of a nest's loop buffer that have still to run before a position: every one for a word behind the body; for one
within it those that wait for NGO, or that the first iteration of NGO has not reached. -/
def Nest.left (n : Nest) (e : Engine) (q : List CapEntry) (p : BitVec 32) : List BodyWord :=
  if (match n.endPos q with | some x => before x p | none => false) then n.body
  else if e = .m then ((if n.going then (if n.first then n.body.drop n.pos else []) else n.body).filter fun b => before b.pos p)
  else []

/-- What an engine's words before a position that it has not executed touch, but for the commands of the D queue. -/
def walkerTouches (f : Disp → Instr → List GVal → List Touch) (e : Engine) (p : BitVec 32) (n : Option Nest)
    (q : List CapEntry) : List Touch :=
  (match n with
   | some m => ((m.left e q p).map fun b => f (nestSpan m.desc) b.op b.caps).flatten
   | none => []) ++ queueTouches f p (n.map (·.desc)) q

/-- The bytes of a tile's shape, or those of a whole tile where a word that changes it may stand before. -/
def Core.tileBytes (c : Core) (i : BitVec 3) : Nat :=
  if c.capM.any (fun x => match x with | .vals _ (some (.tcfg _)) _ | .vals _ (some (.ttr _)) _ => true | _ => false) then tileSize
  else (c.shape i).bytes

/-- Whether a V word names a vector register. -/
def vNames (v : BitVec 5) (op : Instr) : Bool :=
  match vShape op with
  | some x => [x.w.d, x.w.a, x.w.b].any fun sp => match sp with | .vreg r => r == v | _ => false
  | none => false

/-- Whether a V word before a position that names a register has not read it (12_copy.md R365). -/
def vNaming (c : Core) (v : BitVec 5) (p : BitVec 32) : Bool :=
  (match c.nestV with
   | some n => (n.left .v c.capV p).any fun b => vNames v b.op
   | none => false) ||
    c.capV.any fun x => match x with | .vals _ (some op) q => before q p && vNames v op | _ => false

/-- The stream register of a specifier. -/
def streamOf (sp : MSpec) : BitVec 5 := match sp with | .reg n => n | _ => 24#5

/-- Whether a D word binds or unbinds a vector register. -/
def dBinds (v : BitVec 5) : Instr → Bool
  | .dstrm w | .dunb w => streamOf w.d == v
  | _ => false

/-- Whether a DSTRM or DUNB of one of some vector registers that stands before a position has not issued (12_copy.md R365). -/
def dBinding (c : Core) (l : List (BitVec 5)) (p : BitVec 32) : Bool :=
  (match c.nestD with
   | some n => (n.left .d c.capD p).any fun b => l.any fun v => dBinds v b.op
   | none => false) ||
    c.capD.any fun x => match x with | .vals _ (some op) q => before q p && l.any fun v => dBinds v op | _ => false

/-- What the V words before a position touch that have not executed. -/
def vPending (s : State) (p : BitVec 32) : List Touch := walkerTouches (vTouch s) .v p s.me.nestV s.me.capV

/-- What the M words before a position touch that have not started. -/
def mPending (s : State) (p : BitVec 32) : List Touch := walkerTouches (mTouch s s.me.tileBytes) .m p s.me.nestM s.me.capM

/-- What a command of the D queue touches. -/
def cmdTouch (s : State) (q : DCmd) : List Touch :=
  dTouch s (fun _ => (q.dispD, q.dispD)) (fun _ => (q.dispS, q.dispS)) true (cmdConsumed q) q.op q.caps

/-- What D commands that have not performed every byte touch. -/
def queuedTouches (s : State) (l : List DCmd) : List Touch := ((l.filter fun q => q.phase != .moved).map (cmdTouch s)).flatten

/-- What the D words before a position touch that have not executed. -/
def dPending (s : State) (p : BitVec 32) : List Touch :=
  walkerTouches (fun f => dTouch s f f false (0, 0)) .d p s.me.nestD s.me.capD ++ queuedTouches s (s.me.dq.filter fun q => before q.pos p)

/-- Whether a D command releases as it starts (06_ordering.md R193). -/
def startsRelease : Instr → Bool
  | .dpub _ | .dsig _ | .dputF _ | .dstamp _ => true
  | _ => false

/-- Whether a D command is a release: as it starts, in the copy of a KVWR, or as a DGET.mb completes (06_ordering.md R193, 12_copy.md
R372). -/
def isReleaseCmd (op : Instr) : Bool :=
  startsRelease op || (match op with | .kvwr _ | .dgetMb _ => true | _ => false)

/-- Whether a command of the queue may still make a release: a KVWR does until it is known to copy nothing, or has linked its copy. -/
def DCmd.releases (q : DCmd) : Bool :=
  isReleaseCmd q.op && (match q.kv with | .rows _ _ _ | .done => false | _ => true)

/-- Whether a release of the D engine that stands before a position has not completed (06_ordering.md R196). -/
def dReleasing (s : State) (p : BitVec 32) : Bool :=
  (s.me.dq.any fun q => before q.pos p && q.releases) ||
    (match s.me.nestD with | some n => (n.left .d s.me.capD p).any fun b => isReleaseCmd b.op | none => false) ||
    s.me.capD.any fun x => match x with | .vals _ (some i) pos => before pos p && isReleaseCmd i | _ => false

/-- The place of the first word of the M engine's nest. -/
def Core.nestFirst (c : Core) : BitVec 32 := ((c.nestM.bind fun n => n.body.head?).map (·.pos)).getD c.posM

/-- Whether the address generators run a nest. -/
def Core.nestGoing (c : Core) : Bool := match c.nestM with | some n => n.going | none => false

/-- Whether no access of a list must wait for one of the core's own PUTFs that is held (07_sync.md R224). -/
def Core.noFill (c : Core) (l : List Touch) : Bool :=
  l.all fun t => c.held.all fun h =>
    !(h.arr.byAlias && t.byAlias && decide (t.lo < h.arr.off.toNat + h.arr.bytes.length) && decide (h.arr.off.toNat < t.hi))

/-- The place in program order of the word at an engine's walker (04_scalar.md R115, R122). -/
def Core.wordPos (c : Core) (e : Engine) : BitVec 32 :=
  match c.nestOf e with
  | some n => if n.words ≤ n.body.length then (n.endPos []).getD (c.walkerPos e) else c.walkerPos e
  | none => c.walkerPos e

/-- Whether no access of a list, of an engine at a position, overlaps an access of an earlier word of another engine that is
still to be made, one of the two a write (04_scalar.md R116). -/
def engClear (s : State) (e : Engine) (p : BitVec 32) (l : List Touch) : Bool :=
  ((if e = .v then [] else vPending s p) ++ (if e = .m then [] else mPending s p) ++
    (if e = .d then [] else dPending s p)).all fun u => l.all fun t => !t.clash u

/-- Whether the range checker admits accesses of an engine at a position (04_scalar.md R116, 07_sync.md R224). -/
def admits (s : State) (e : Engine) (p : BitVec 32) (l : List Touch) : Bool :=
  l.isEmpty || (s.me.noFill l && engClear s e p l)

/-- The own S accesses that an engine's accesses follow are performed (04_scalar.md R116): buffered stores to the bytes that
it reads or writes, outstanding loads from those that it writes, and outstanding atomics on either. -/
def settleTouches (s : State) (l : List Touch) : State :=
  l.foldl (fun u t =>
    let r := [(localKey u.rank t.lo, t.hi - t.lo)]
    performOver (if t.wr then landOver u u.rank t.byAlias r else landAmos u u.rank t.byAlias r) u.rank t.byAlias r) s

end Sys2Proof.Machine
end

