-- ==== Sys2Proof/Machine/Branch.lean ====
section
/-! DEFINITION. Branches and jumps, NEST and its replay, the walker steps that carry captures and outcomes, safe
points, SYNCW and the control-register words (04_scalar.md R112 to R130, R143 to R146; 02_encoding.md R42, R43). -/

namespace Sys2Proof.Machine

/-! Branches. -/

/-- Whether 16 outcomes wait that some walker has not consumed (04_scalar.md R113). -/
def Core.outcomesFull (c : Core) : Bool := decide (16 ≤ c.outcomes.length)

/-- The outcome that a gang's follower takes from its leader (09_compose.md R279). -/
def leadOutcome (s : State) : Option (Bool × Word64) :=
  match s.me.group with
  | .member lead true => (s.coreAt lead).lastOut
  | _ => none

/-- A branch word completes: its outcome is pushed, but for composed mode, where no other walker runs, and the walker
goes to the target or to the next word (04_scalar.md R143, 09_compose.md R273). -/
def Core.branchTo (c : Core) (taken : Bool) (target : Word64) : Core :=
  let o : BranchOut := { taken := taken, target := target, byV := false, byM := false, byD := false }
  let c1 := { c with outcomes := if c.composed then c.outcomes else c.outcomes ++ [o], lastOut := some (taken, target) }
  { c1.setPc (if taken then target else c.pc + 4#64) with posS := c.posS + 1#32 }

/-- The target of a conditional branch (04_scalar.md R143). -/
def branchTarget (pc : Word64) (off : BitVec 11) : Word64 := pc + off.signExtend 64 * 4#64

/-- A conditional branch (04_scalar.md R143): a full outcome queue holds it. -/
def condBranch (s : State) (a b : GIdx) (off : BitVec 11) (f : Word64 → Word64 → Bool) : Res State :=
  let c := s.me
  if c.outcomesFull then .hold .queueFull s
  else
    match leadOutcome s with
    | some (taken, target) => .ok (s.setMe (c.branchTo taken target))
    | none => .ok (s.setMe (c.branchTo (f (c.rg a).word (c.rg b).word) (branchTarget c.pc off)))

/-- BEQ (04_scalar.md R143). -/
def execBeq (a b : GIdx) (off : BitVec 11) (s : State) : Host.Outcome State Fault Refusal :=
  settle s (condBranch s a b off fun x y => x == y)
/-- BNE (04_scalar.md R143). -/
def execBne (a b : GIdx) (off : BitVec 11) (s : State) : Host.Outcome State Fault Refusal :=
  settle s (condBranch s a b off fun x y => x != y)
/-- BLT (04_scalar.md R143). -/
def execBlt (a b : GIdx) (off : BitVec 11) (s : State) : Host.Outcome State Fault Refusal :=
  settle s (condBranch s a b off fun x y => x.slt y)
/-- BGE (04_scalar.md R143). -/
def execBge (a b : GIdx) (off : BitVec 11) (s : State) : Host.Outcome State Fault Refusal :=
  settle s (condBranch s a b off fun x y => !x.slt y)
/-- BLTU (04_scalar.md R143). -/
def execBltu (a b : GIdx) (off : BitVec 11) (s : State) : Host.Outcome State Fault Refusal :=
  settle s (condBranch s a b off fun x y => x.ult y)
/-- BGEU (04_scalar.md R143). -/
def execBgeu (a b : GIdx) (off : BitVec 11) (s : State) : Host.Outcome State Fault Refusal :=
  settle s (condBranch s a b off fun x y => !x.ult y)

/-- The link of JAL and JALR: the code capability with the address of the next word (04_scalar.md R144, R145). -/
def Core.link (c : Core) : GVal := c.codecap.withWord (c.pc + 4#64)

/-- JAL (04_scalar.md R144). -/
def execJal (d : GIdx) (off : BitVec 17) (s : State) : Host.Outcome State Fault Refusal :=
  let c := s.me
  settle s (if c.outcomesFull then .hold .queueFull s
    else
      let t := match leadOutcome s with | some (_, t) => t | none => c.pc + off.signExtend 64 * 4#64
      .ok (s.setMe ((c.branchTo true t).wg d c.link)))

/-- The cause of a JALR through a capability, if it traps (04_scalar.md R145). -/
def jalrCause (c : GVal) (t : Word64) : Option Nat :=
  if t.toNat % 4 ≠ 0 then some 0x05
  else if !c.tag then none
  else if (t.toNat : Int) < (capBounds c.bits).1 ∨ (capBounds c.bits).2 < (t.toNat : Int) + 4 then some 0x03
  else if capOtype c.bits ≠ 0 ∨ capHas c.bits permExecute = false then some 0x04
  else none

/-- JALR (04_scalar.md R145); a gang's follower takes its leader's target and code capability (09_compose.md R279). -/
def execJalr (d a : GIdx) (off : BitVec 11) (s : State) : Host.Outcome State Fault Refusal :=
  let c := s.me
  let x := c.rg a
  let t := x.word + off.signExtend 64 * 4#64
  settle s (if c.outcomesFull then .hold .queueFull s
    else
      match s.me.group, leadOutcome s with
      | .member lead true, some (_, lt) =>
        .ok (s.setMe (({ c with codecap := (s.coreAt lead).codecap }.branchTo true lt).wg d c.link))
      | _, _ =>
        match jalrCause x t with
        | some cause => .trap (trapS cause t) s
        | none => .ok (s.setMe (({ c with codecap := if x.tag then x else c.codecap }.branchTo true t).wg d c.link)))

/-! NEST. -/

/-- The words of the span that follow an address: whether they obey 04_scalar.md R121 up to the last of n body words
of engine e. The check holds at a word whose page is being walked or in transit. A word that cannot be fetched ends it: its fault
is the S walker's at that word (02_encoding.md R44; DESIGN CHOICE, log entry 88). -/
def spanOk (s : State) (e : Engine) : Nat → Nat → Word64 → Res Bool
  | 0, _, _ => .ok true
  | _, 0, _ => .ok true
  | fuel + 1, n + 1, x =>
    match peekWord s x with
    | none => match textHeld s x 6 with | some (h, t) => .hold h t | none => .ok true
    | some w =>
      if isBranchWord w || isNestWord w e || (e == .s && wordEngine w != .s) then .ok false
      else if wordEngine w = e then spanOk s e fuel n (x + wordLen w)
      else spanOk s e fuel (n + 1) (x + wordLen w)

/-- The parcels of region 0x0, more than which no span holds (05_memory.md R148). -/
abbrev spanFuel : Nat := 2 ^ 50

/-- A fresh nest of an engine. -/
def Nest.start (desc : List Byte) (words levels : Nat) : Nest :=
  { desc := desc, words := words, levels := levels, body := [], index := List.replicate levels 0, pos := 0,
    going := false, sig := 0#4 }

/-- NEST (04_scalar.md R119 to R121, R124). A gang's leader checks the span for its followers, which fetch nothing
(09_compose.md R279). -/
def execNest (e : Engine) (a : GIdx) (words : BitVec 5) (levels : BitVec 3) (s : State) :
    Host.Outcome State Fault Refusal :=
  let c := s.me
  let lv := levels.toNat + 1
  let n := words.toNat + 1
  let x := (c.rg a).word
  settle s (if c.composed ∧ e ≠ .s then .trap (trapS 0x0E 0#64) s
    else if e ≠ .s ∧ 16 ≤ (c.capQ e).length then .hold .queueFull s
    else
      (access s .s (c.rg a) x (nestBytes lv) (permLoad ||| permLocal) 8 .nest).bind fun t =>
        match t.1 with
        | .bytes l =>
          if t.2.chunksPoisoned l then .trap (trapS 0x0D x) t.2
          else
            let d := t.2.readChunks l
            (if c.follows then .ok true else spanOk t.2 e spanFuel n (c.pc + 4#64)).bind fun ok =>
              if nestOk d lv e = false ∨ ok = false then .trap (trapS 0x01 0#64) t.2
              else
                .ok (t.2.modMe fun c =>
                  (if e = .s then { c with nestS := some (Nest.start d n lv) } else c.pushCap e (.nest d)).next)
        | _ => .trap (trapS 0x07 x) t.2)

/-- The nest of an engine after one of its body words has run: the word joins the loop buffer in the first
iteration, the next body word stands next, and the nest ends after the last word of the last iteration
(04_scalar.md R122). -/
def Nest.after (n : Nest) (w : BodyWord) : Option Nest :=
  let m := if n.body.length < n.words then { n with body := n.body ++ [w], pos := n.body.length + 1 }
    else { n with pos := n.pos + 1 }
  if m.pos < m.words then some m
  else if (nextIndex m.desc m.index 0).isSome then some m
  else none

/-- Whether an engine stands between two iterations of its nest. -/
def Nest.between (n : Nest) : Bool := decide (n.words ≤ n.pos)

/-- Whether an engine replays its nest: the loop buffer is full (04_scalar.md R122). -/
def Nest.replays (n : Nest) : Bool := decide (n.words ≤ n.body.length)

/-- NEST_REPLAY_ITERATION (04_scalar.md R122): the engine goes to the first word of its loop buffer with the next index
vector. The M engine's iterations are those of NGO (11_matrix.md R339). -/
def execNestReplayIteration (e : Engine) (s : State) : Host.Outcome State Fault Refusal :=
  let c := s.me
  .next (match c.nestOf e with
    | some n =>
      if n.between ∧ n.replays ∧ e ≠ .m then
        match nextIndex n.desc n.index 0, n.body with
        | some i, w :: _ =>
          let c1 := c.setNest e (some { n with index := i, pos := 0 })
          s.setMe (match e with
            | .s => { c1.setPc w.pc with posS := c.posS - BitVec.ofNat 32 n.words }
            | e => c1.moveWalker e w.pc 0#32)
        | _, _ => s
      else s
    | none => s)

/-! The walkers. -/

/-- Whether a V word writes a g register: a post-update of a local operand, VMOVSG or PCNT (04_scalar.md R114). -/
def wordWritesG (w : Nat) : Bool :=
  let f := w / 2 ^ 32
  let post (x : Nat) : Bool := flag x 20 && flag x 1
  wordEngine w == .v &&
    (num 7 w 2 == 0x3F || num 7 w 2 == 0x43 || post (num 21 f 0) || post (num 21 f 21) || post (num 21 f 42))

/-- S_WALKER_PASS_WORD (04_scalar.md R112, R114): the S walker passes a V, M or D word and pushes its capture entry. In
composed mode the word raises 0x0E (02_encoding.md R48); a full queue holds the walker; a word that writes a g
register holds it until its engine has executed the word. A gang's leader sends the word to its followers (09_compose.md
R279). -/
def execSWalkerPassWord (s : State) : Host.Outcome State Fault Refusal :=
  settle s ((sFetch s).bind fun p =>
    let w := p.1
    let t := sendWord p.2 w
    let c := t.me
    let e := wordEngine w
    if e = .s then .ok t
    else if c.composed then .trap (trapS 0x0E 0#64) t
    else if c.passing then .hold .engines t
    else if 16 ≤ (c.capQ e).length then .hold .queueFull t
    else
      let l := capturedOf (rawFields w)
      let u := landRegs t t.rank (l ++ rawDest w)
      if u.me.loads.any fun x => (l ++ rawDest w).contains x.d then .hold .rankTransit u
      else
      let c1 := u.me.pushCap e (.vals (l.map u.me.rg) (decodeWord w).toOption c.posS)
      if wordWritesG w then .ok (u.setMe { c1 with passing := true })
      else .ok (u.setMe (c1.moveWalker .s (c.pc + wordLen w) (BitVec.ofNat 32 (wordParcels w)))))

/-- An outcome with the mark that a walker has consumed it (04_scalar.md R113). -/
def BranchOut.eat (o : BranchOut) : Engine → BranchOut
  | .v => { o with byV := true } | .m => { o with byM := true } | .d => { o with byD := true } | .s => o

/-- Whether a walker has consumed an outcome. -/
def BranchOut.eaten (o : BranchOut) : Engine → Bool
  | .v => o.byV | .m => o.byM | .d => o.byD | .s => true

/-- The queue after a walker has consumed its first outcome; an outcome that all three have consumed retires
(04_scalar.md R113). -/
def eatFirst (e : Engine) : List BranchOut → List BranchOut
  | [] => []
  | o :: t =>
    if o.eaten e then o :: eatFirst e t
    else
      let p := o.eat e
      if p.byV && p.byM && p.byD then t else p :: t

/-- BRANCH_OUTCOME_CONSUME (02_encoding.md R42, R43): a V, M or D walker at a branch word takes its next outcome, or
waits where none stands. -/
def execBranchOutcomeConsume (e : Engine) (s : State) : Host.Outcome State Fault Refusal :=
  let c := s.me
  .next (match c.outcomes.find? (fun o => !o.eaten e) with
    | some o =>
      if e = .s then s
      else
        let a := c.walkerPc e
        s.setMe ({ c with outcomes := eatFirst e c.outcomes }.moveWalker e (if o.taken then o.target else a + 4#64) 1#32)
    | none => s)

/-- A V, M or D walker steps past a word that is not its own; at a NEST word that names its engine it takes the
descriptor and starts the capture of the loop (02_encoding.md R42, R43; 04_scalar.md R119). The M walker stands at a NEST.m while
the address generators run a nest (11_matrix.md R340), and keeps an armed nest whose body is whole, which only NGO may follow (R339). -/
def skipWord (s : State) (e : Engine) (w : Nat) : State :=
  let c := s.me
  let on (c : Core) : Core := c.moveWalker e (c.walkerPc e + wordLen w) (BitVec.ofNat 32 (wordParcels w))
  if isNestWord w e then
    if (match c.nestOf e with | some n => n.going | none => false) then s else
    match (c.capQ e).head? with
    | some (.nest d) =>
      if e = .m ∧ c.nestM.isSome = true then s.setMe (on (c.popCap e))
      else s.setMe (on ((c.popCap e).setNest e (some (Nest.start d (num 5 w 23 + 1) (num 3 w 28 + 1)))))
    | _ => s
  else s.setMe (on c)

/-! Safe points. -/

/-- A core stops at a safe point for a slice instant or a swap: registers that are not live read as zero when the task
goes on (04_scalar.md R125, R127). -/
def Core.stopForSwap (c : Core) (live : BitVec 128) : Core :=
  { c.handOver.dropShapes live with
    slice := false, swap := true
    g := Vector.ofFn fun i => if live.getLsbD i.val then c.g[i.val] else GVal.zero
    v := Vector.ofFn fun i => if live.getLsbD (64 + i.val) then c.v[i.val] else 0#1024
    p := Vector.ofFn fun i => if live.getLsbD (96 + i.val) then c.p[i.val] else 0#128
    tile := Vector.ofFn fun i => if live.getLsbD (104 + i.val) then c.tile[i.val] else []
    acc := Vector.ofFn fun i => if live.getLsbD (112 + i.val) then c.acc[i.val] else [] }

/-- Every earlier word of every engine has completed at the S walker: the S engine's accesses drain and the V latches
land (04_scalar.md R146, 10_vector.md R298). -/
def syncAll (s : State) : State := (drainS s s.rank).modMe Core.landLatches

/-- A switch at a safe point whose word is done (04_scalar.md R127): a slice instant or a swap stops the core, and a
pending resume record takes the core over when a park frame is free. -/
def serveSwitch (s : State) (info : Nat) (live : BitVec 128) : State :=
  let c := s.me
  if c.slice then s.setMe (c.stopForSwap live)
  else if c.parkPending then (switchOut s s.rank info live).getD s
  else s

/-- Whether a switch is pending that a core serves at its safe point now (04_scalar.md R127): a single core, since a group ends
first (09_compose.md R278, R282). -/
def switchReady (s : State) : Bool :=
  let c := s.me
  c.group == .single && (c.slice || (c.parkPending && poolFree s c.pid))

/-- The gang that a core belongs to must end at this safe point (09_compose.md R272, R282). -/
def gangDue (s : State) (c : Core) : Bool :=
  match c.group with
  | .gangLead ms => c.groupEnd || c.slice || c.parkPending || ms.any fun r => (s.coreAt r).slice
  | _ => false

/-- A composed group with a switch pending ends at the safe point (09_compose.md R278). -/
def composedDue (c : Core) : Bool := c.composed && (c.groupEnd || c.slice || c.parkPending)

/-- SAFEPT (04_scalar.md R126, R127). -/
def execSafept (idx : BitVec 17) (s : State) : Host.Outcome State Fault Refusal :=
  let c := s.me
  let s0 := s.modMe fun c => (c.modCtl fun k => { k with spidx := BitVec.ofNat 32 (idx.toNat + 2 ^ 31) }).clearDist
  settle s (if field c.ctl.sptlen 0 17 ≤ idx.toNat then .trap (trapS 0x01 0#64) s
    else if gangDue s c then (if s.gangMaxx s.rank then .hold .engines s0 else .ok (gangSwitch s0 s.rank))
    else
      let s1 := if composedDue c then endComposed s0 s.rank 2 else s0
      if switchReady s1 = false then .ok (s1.modMe Core.next)
      else if s1.me.quiet = false ∨ s1.landed s.rank = false then .hold .engines s1
      else .ok (serveSwitch (syncAll (s1.modMe Core.next)) 3 (liveSet s s.rank idx.toNat)))

/-- SYNCW (04_scalar.md R146): the walker holds until the engines named have completed their earlier words. -/
def execSyncw (mask : BitVec 4) (s : State) : Host.Outcome State Fault Refusal :=
  let c := s.me
  settle s (if c.done mask && (!mask.getLsbD 0 || s.landed s.rank) then
      let s1 := if mask.getLsbD 0 then drainS s s.rank else s
      let s2 := if mask.getLsbD 1 then s1.modMe Core.landLatches else s1
      .ok (s2.modMe Core.next)
    else .hold .engines s)

/-! Control registers. -/

/-- An index that names no control register is an illegal encoding (04_scalar.md R128). -/
def namedCtl (s : State) (idx : BitVec 11) (x : Res State) : Res State :=
  if ctlNamed idx.toNat then x else .trap (trapS 0x01 0#64) s

/-- MFC (04_scalar.md R128): CODECAP with its tag, every other register as plain data; RNGKEY reads zero at task level
(03_numbers.md R89). -/
def execMfc (d : GIdx) (idx : BitVec 11) (s : State) : Host.Outcome State Fault Refusal :=
  let c := s.me
  let i := idx.toNat
  settle s (namedCtl s idx (
    if i = 0x015 then .ok (putVal s d c.codecap)
    else if i = 0x042 ∧ c.atTask = true then .ok (putVal s d GVal.zero)
    else .ok (putVal s d (GVal.ofNat ((ctlRead s s.rank i).getD 0)))))

/-- The write of a control register by a word, with its level check and the hold of 04_scalar.md R129. -/
def writeCtl (s : State) (idx : BitVec 11) (v : Nat) : Res State :=
  let c := s.me
  if ctlDenied c idx.toNat then .trap (trapS 0x07 0#64) s
  else if ctlReady c idx.toNat = false then .hold .engines s
  else .ok ((ctlWrite s s.rank idx.toNat v).modMe Core.next)

/-- MTC (04_scalar.md R128). -/
def execMtc (d : GIdx) (idx : BitVec 11) (s : State) : Host.Outcome State Fault Refusal :=
  settle s (namedCtl s idx (writeCtl s idx (s.me.rg d).bits.toNat))

/-- MSET (04_scalar.md R128). -/
def execMset (d : GIdx) (idx : BitVec 11) (s : State) : Host.Outcome State Fault Refusal :=
  settle s (namedCtl s idx (writeCtl s idx ((ctlRead s s.rank idx.toNat).getD 0 ||| (s.me.rg d).bits.toNat)))

/-- MCLR (04_scalar.md R128). -/
def execMclr (d : GIdx) (idx : BitVec 11) (s : State) : Host.Outcome State Fault Refusal :=
  settle s (namedCtl s idx
    (writeCtl s idx ((ctlRead s s.rank idx.toNat).getD 0 &&& (2 ^ 128 - 1 - (s.me.rg d).bits.toNat))))

end Sys2Proof.Machine
end

