-- ==== Sys2Proof/Machine/Messages.lean ====
section
/-! DEFINITION. Active messages and their overflow queues, the commands on contexts, and the end of a task
(08_tasks.md R255 to R261; 15_system.md R443, R450). -/

namespace Sys2Proof.Machine

/-! Message slots. -/

/-- The message slots of a core (08_tasks.md R262, MSGCFG.LOG). -/
def msgSlots (c : Core) : Nat := 2 ^ (min 4 (field c.ctl.msgcfg 24 3) + 4)

/-- The local offset of message slot i. -/
def msgOff (c : Core) (i : Nat) : Nat := (field c.ctl.msgcfg 6 13 * 64 + 64 * i) % localSize

/-- The next slot of a core's message ring: the first free one from where the ring stands (08_tasks.md R260, log entry 20). -/
def freeMsg (c : Core) : Option Nat :=
  let n := msgSlots c
  ((List.range n).map fun i => (c.msgNext + i) % n).find? fun i => !c.msgUsed.getLsbD i

/-- The four arguments of a message, the rest zero (08_tasks.md R259). -/
def msgArgs (m : AMsg) : List GVal := (m.args ++ List.replicate 4 GVal.zero).take 4

/-- Units of 16 bytes written from a key upward with their tags. -/
def putUnits (s : State) (k : Nat) : List GVal → State
  | [] => s
  | x :: t => putUnits (s.storeTagged k (leBytes 16 x.bits.toNat) x.tag) (k + 16) t

/-- A message becomes a pinned task at its core, in message slot i (08_tasks.md R260). -/
def deliverMsg (s : State) (m : AMsg) (i : Nat) : State :=
  let r := m.dst.toNat
  let off := msgOff (s.coreAt r) i
  let a := 0xD * 2 ^ 52 + off
  let s1 := (putUnits s (localKey r off) (msgArgs m)).modCore r fun c =>
    { c with msgUsed := c.msgUsed ||| (1#256 <<< i), msgNext := (i + 1) % msgSlots c }
  ownerPush s1 r { Record.zero with argA := (mintCap a 64 a 0x049#12).getD GVal.zero, entry := m.entry, ctx := m.ctx,
                                    flags := 0x0003#16 }

/-! Overflow queues. -/

/-- The fields of a context's entry at a key: STATE, OVFBASE, OVFLOG, OVFHEAD and OVFTAIL (08_tasks.md R258). -/
structure CtxQueue where
  state : Nat
  base  : Nat
  log   : Nat
  head  : Nat
  tail  : Nat
  deriving DecidableEq, Repr

/-- The queue fields of the entry at a key. -/
def ctxQueue (s : State) (k : Nat) : CtxQueue :=
  let lg := max 4 (min 20 (s.mem.readNat (k + 16) 4))
  { state := s.mem.readNat k 1 % 8, base := s.mem.readNat (k + 8) 8, log := lg, head := s.mem.readNat (k + 20) 4 % 2 ^ lg,
    tail := s.mem.readNat (k + 24) 4 % 2 ^ lg }

/-- STATE of a context's entry is written by the hub, its PENDING bit with it (08_tasks.md R258); a byte that the hub cannot
reach stays (05_memory.md R499). -/
def setCtxState (s : State) (p : Part) (ctx : BitVec 16) (st : Nat) (pending : Bool) : State :=
  (ctxPut s p ctx 0 1 (st % 8 + (if pending then 8 else 0))).2

/-- A refusal reaches the sender of a message (08_tasks.md R261): it is recorded in AMSGST of the task that the core then
runs, which need not be the one that sent the message (DESIGN CHOICE, log entry 102). -/
def recordRefusal (s : State) (r : Nat) (seq : BitVec 32) (why : BitVec 4) : State :=
  s.modCore r fun c => c.modCtl fun k =>
    { k with amsgst := setField (setField (setField k.amsgst 96 32 seq.toNat) 48 16
                (min 65535 (field k.amsgst 48 16 + 1))) 0 4 why.toNat }

/-- A refusal travels back to the sender, in this package or another (08_tasks.md R261). -/
def refuseMsg (s : State) (m : AMsg) (why : BitVec 4) : State :=
  if m.pkg ≠ s.pkgRank then s.launch m.pid.toNat m.dst.toNat m.pkg m.src (.refusal m.seq why)
  else if s.lazy ∨ (s.coreAt m.src.toNat).pid ≠ m.pid.toNat then
    { s with net := s.net ++
        [{ src := m.dst.toNat, dst := m.src.toNat, ev := .amsgRefusalArrive m.seq why, pid := m.pid.toNat }] }
  else recordRefusal s m.src.toNat m.seq why

/-- A message is appended to the overflow queue of its context, whose entry lies at key k, or refused when the queue is
full (08_tasks.md R260). The queue is full when one more entry would make its indices meet (log entry 18). A queue or an
OVFTAIL whose page does not translate or denies the hub's store is refused as an entry that cannot be read, WHY 1 (DESIGN
CHOICE, log entry 80). Host memory carries no tags (05_memory.md R152). -/
def appendMsg (s : State) (p : Part) (k : Nat) (m : AMsg) : State :=
  let q := ctxQueue s k
  if (q.tail + 1) % 2 ^ q.log = q.head then refuseMsg s m 2#4
  else
    match hubChunks s p.ptroot (q.base + 128 * q.tail) 128 .store with
    | (some [c], t) =>
      let x : Record := { Record.zero with entry := m.entry, ctx := m.ctx, flags := 0x0003#16, done := m.dst.setWidth 64 }
      let t1 := putUnits (putRecord t c.key x) (c.key + 64) ((msgArgs m).map fun a => { a with tag := a.tag && !c.host })
      match ctxPut t1 p m.ctx 24 4 ((q.tail + 1) % 2 ^ q.log) with
      | (true, t2) => t2.modPart p.pid fun p =>
          { p with overflow := if p.overflow.contains m.ctx then p.overflow else p.overflow ++ [m.ctx] }
      | (false, t2) => refuseMsg t2 m 1#4
    | (_, t) => refuseMsg t m 1#4

/-- The oldest message of an overflow queue is delivered while its core has a free slot (08_tasks.md R260), and stays while the
hub cannot reach it or OVFHEAD (05_memory.md R499); fuel bounds the entries. -/
def deliverFrom (p : Part) (ctx : BitVec 16) (k : Nat) : Nat → State → State
  | 0, s => s
  | fuel + 1, s =>
    let q := ctxQueue s k
    if q.head = q.tail then
      (setCtxState s p ctx q.state false).modPart p.pid fun p => { p with overflow := p.overflow.filter (fun c => c != ctx) }
    else
      match hubChunks s p.ptroot (q.base + 128 * q.head) 128 .load with
      | (some [c], t) =>
        let x := recordAt t c.key
        let m : AMsg := { entry := x.entry, ctx := x.ctx, dst := x.done.setWidth 12, src := 0#12, pkg := 0#18,
                          pid := BitVec.ofNat 10 p.pid, seq := 0#32
                          args := (List.range 4).map fun i => t.loadUnit (c.key + 64 + 16 * i) }
        if (t.coreAt m.dst.toNat).pid ≠ p.pid then t
        else
        match freeMsg (t.coreAt m.dst.toNat) with
        | none => t
        | some i =>
          match ctxPut t p ctx 20 4 ((q.head + 1) % 2 ^ q.log) with
          | (true, t1) => deliverFrom p ctx k fuel (deliverMsg t1 m i)
          | (false, t1) => t1
      | (_, t) => t

/-- The hub delivers the overflow queue of an active context of a resident partition (08_tasks.md R260). -/
def deliverOverflow (s : State) (pid : Nat) (ctx : BitVec 16) : State :=
  match s.part? pid with
  | none => s
  | some p =>
    if p.resident = false then s
    else
      match ctxEntry s p ctx .load with
      | (none, t) => t
      | (some k, t) =>
        let q := ctxQueue t k
        if q.state = 1 then deliverFrom p ctx k (2 ^ q.log) t else t

/-- The overflow queues of a list of contexts are delivered. -/
def deliverAll (s : State) (pid : Nat) : List (BitVec 16) → State
  | [] => s
  | c :: t => deliverAll (deliverOverflow s pid c) pid t

/-- Every overflow queue of a partition that holds entries. -/
def deliverPart (s : State) (pid : Nat) : State := deliverAll s pid (((s.part? pid).map (·.overflow)).getD [])

/-- Whether the core that a message names is its sender's partition's: bound to it, or saved while it is swapped out
(05_memory.md R156, 08_tasks.md R260). -/
def msgFits (s : State) (p : Part) (m : AMsg) : Bool :=
  if p.resident then (s.coreAt m.dst.toNat).pid == p.pid else p.saved.any fun i => i.rank == m.dst.toNat

/-- The fate of a message at its arrival (08_tasks.md R260): while its partition is swapped out the hub takes it. One for
context 0, which has no overflow queue, is then refused with WHY 2, as one that finds no free slot is (DESIGN CHOICE, log entry
34). -/
def arriveMsg (s : State) (m : AMsg) : State :=
  let pid := m.pid.toNat
  match s.part? pid with
  | none => refuseMsg s m 3#4
  | some p =>
    if msgFits s p m = false then refuseMsg s m 3#4
    else if m.ctx = 0#16 then
      match freeMsg (s.coreAt m.dst.toNat) with
      | some i => if p.resident then deliverMsg s m i else refuseMsg s m 2#4
      | none => refuseMsg s m 2#4
    else if ctxOf p m.ctx = false then refuseMsg s m 1#4
    else
      match ctxEntry s p m.ctx .load with
      | (none, t) => refuseMsg t m 1#4
      | (some k, t) =>
        let q := ctxQueue t k
        if q.state ≠ 1 ∧ q.state ≠ 2 then refuseMsg t m 1#4
        else if p.resident = false then
          let u := appendMsg t p k m
          (setCtxState u p m.ctx q.state true).modPart pid fun p => { p with pending := true }
        else if q.state = 2 then appendMsg t p k m
        else if q.head ≠ q.tail then deliverOverflow (appendMsg t p k m) pid m.ctx
        else
          match freeMsg (t.coreAt m.dst.toNat) with
          | some i => deliverMsg t m i
          | none => appendMsg t p k m

/-! Commands on contexts. -/

/-- A context command moves STATE where it fits, and is ignored otherwise (15_system.md R450); whether it did. -/
def ctxCommand (s : State) (pid : Nat) (ctx : BitVec 16) (was : List Nat) (st : Nat) : Bool × State :=
  match s.part? pid with
  | none => (false, s)
  | some p =>
    if ctxOf p ctx = false then (false, s)
    else
      match ctxEntry s p ctx .store with
      | (none, t) => (false, t)
      | (some k, t) =>
        let q := ctxQueue t k
        if was.contains q.state then (true, t.storeNat k 1 (t.mem.readNat k 1 / 8 % 2 * 8 + st)) else (false, t)

/-- Suspend acts on an active context. -/
def ctxSuspend (s : State) (pid : Nat) (ctx : BitVec 16) : State := (ctxCommand s pid ctx [1] 2).2

/-- Resume acts on a suspended context, and the hub delivers its overflow queue. -/
def ctxResume (s : State) (pid : Nat) (ctx : BitVec 16) : State := deliverOverflow (ctxCommand s pid ctx [2] 1).2 pid ctx

/-- STATE of an active or suspended context becomes tearing down. -/
def ctxTeardown (s : State) (pid : Nat) (ctx : BitVec 16) : Bool × State := ctxCommand s pid ctx [1, 2] 3

/-! The end of a task. -/

/-- The message slot that a task's record names is free again (08_tasks.md R256, R260). -/
def freeSlot (s : State) (r : Nat) (x : Record) : State :=
  if x.msg then
    s.modCore r fun c =>
      let slot := (coordOff x.argA.word + localSize - field c.ctl.msgcfg 6 13 * 64 % localSize) % localSize / 64
      { c with msgUsed := c.msgUsed &&& ~~~(1#256 <<< (slot % 256)) }
  else s

/-- A decrement is sent to the owner of a slot (08_tasks.md R255): over the network while posted accesses queue, or at
once; a slot of another package is beyond it. -/
def sendCdec (s : State) (r : Nat) (x : Word64) (d : BitVec 32) : State :=
  let c := s.coreAt r
  if coordPkg x ≠ c.ctl.pkg ∧ region x = 0xC then
    s.requestFrom r (coordPkg x) (coordCore x) (.cdec (x.extractLsb' 0 19) d)
  else
    let dst := if region x = 0xC then (coordCore x).toNat else r
    if s.lazy then s.sendNet r dst (.cdecApply (x.extractLsb' 0 19) d)
    else applyCdec s dst (coordOff x) d

/-- The steps of EXIT after every earlier word has completed (08_tasks.md R256): withdrawals, the message slot, DONE,
the monitor; then the core starts its next record. -/
def finishTask (s : State) (r : Nat) : State :=
  let s1 := withdrawAll s r
  let s2 := match (s.coreAt r).task with
    | none => s1
    | some x =>
      let s2 := if x.msg then deliverPart (freeSlot s1 r x) (s.coreAt r).pid else s1
      if x.done = 0#64 then s2 else sendCdec s2 r x.done 1#32
  startNext (s2.modCore r Core.leave) r

end Sys2Proof.Machine
end

