-- ==== Sys2Proof/Machine/Resolve.lean ====
section
/-! DEFINITION. How a future leaves pending: its entry, the injection of its reply, its continuation and its waiter, and the
teardown of a context (14_futures.md R401, R403, R404, R410 to R413, R415). -/

namespace Sys2Proof.Machine

/-! Entries. -/

/-- The entry of a future (14_futures.md R402). -/
def State.futAt (s : State) (i : Nat) : Fut := (Table.find s.futs i).getD Fut.reset

/-- The state with a future's entry replaced. -/
def State.setFut (s : State) (i : Nat) (f : Fut) : State := { s with futs := Table.set s.futs i f }

/-- A tool-ring entry (14_futures.md R408). -/
def State.ringAt (s : State) (i : Nat) : ToolRing := (Table.find s.rings i).getD ToolRing.reset

/-- IEEE 1588 time in nanoseconds (15_system.md R455). -/
def State.now (s : State) : Nat := s.ptp / 1000

/-- The handle of an entry (14_futures.md R401). -/
def futHandle (i : Nat) (f : Fut) : Nat := f.gen.toNat * 2 ^ 14 + i

/-- The next generation: 2^18 - 1 passes to 1 (14_futures.md R401). -/
def nextGen (g : BitVec 18) : BitVec 18 := if g = BitVec.ofNat 18 (2 ^ 18 - 1) then 1#18 else g + 1#18

/-- An entry is freed (14_futures.md R403). -/
def freeFut (s : State) (i : Nat) : State := s.setFut i { Fut.reset with gen := nextGen (s.futAt i).gen }

/-- The value that the waiting words return (14_futures.md R415). -/
def futValue (f : Fut) : Nat :=
  f.state.toNat + f.rstatus.toNat * 2 ^ 8 + f.pfqpos.toNat % 4096 * 2 ^ 16 + f.replylen.toNat % 2 ^ 24 * 2 ^ 32

/-- The length of an entry's reply window; a call without a window has none (14_futures.md R406). -/
def replyRoom (f : Fut) : Nat := ((f.wins[f.replywin.toNat]?).map (·.len)).getD 0

/-- Whether a future's injection is under way: its other steps wait for it (14_futures.md R410, R413). -/
def injecting (s : State) (i : Nat) : Bool := s.injects.any fun j => j.entry == i

/-! Resolution. -/

/-- The ring slot of a call is free again (14_futures.md R410, step 5). -/
def freeRingSlot (s : State) (i : Nat) (f : Fut) : State :=
  if f.remote then s
  else
    let t := s.ringAt f.ring.toNat
    { s with rings := Table.set s.rings f.ring.toNat { t with used := t.used.filter fun u => u.2 != i } }

/-- A parked task whose wait is over is resumed at its core (08_tasks.md R265). -/
def hubResume (s : State) (pid core fa : Nat) : State :=
  s.hubTo pid core (.remotePushArrive core { Record.zero with entry := BitVec.ofNat 64 fa, flags := 0x0005#16 })
    fun t => pushResume t core fa

/-- Steps 3 to 5 of R410: the continuation is pushed, the waiter is served and the entry freed with it, and the ring
slot and the call are let go. -/
def finishFut (s : State) (i : Nat) : State :=
  let f := s.futAt i
  let s1 := match f.cont with
    | some r => s.hubTo f.pid f.home.toNat (.remotePushArrive f.home.toNat r) fun t => remotePush t f.home.toNat f.home.toNat r
    | none => s
  let s2 := (freeRingSlot s1 i f).setFut i { f with taken := false, cont := none }
  match f.waiter with
  | none => s2
  | some w =>
    let v := GVal.ofNat (futValue f)
    let s3 := freeFut s2 i
    match w.frame with
    | none => s3.modCore w.core fun c => c.finish w.d v
    | some fa => hubResume (replyFrame s3 fa w.d v) f.pid w.core fa

/-- Those steps, which wait for the return of a partition that is swapped out (14_futures.md R412). -/
def laterSteps (s : State) (i : Nat) : State :=
  let f := s.futAt i
  if (match s.part? f.pid with | some p => p.resident | none => true) then finishFut s i
  else
    { s with injects := s.injects ++
        [{ entry := i, pid := f.pid, ctx := f.ctx, home := f.home, off := 0, log := 1, queue := false, left := [], first := 0
           next := 0, wait := false }] }

/-- The granules of an injection (14_futures.md R411): the tokens, then 0xFFFF_FFFF up to the end of the last one; each with
the places of its bytes that a list of places in the tokens marks as poisoned (01_machine.md R37). -/
def injectBytes (tokens : List Byte) (bad : List Nat) : List (List Byte × List Nat) :=
  let k := tokens.length / 64 + 1
  let all := tokens ++ List.replicate (64 * k - tokens.length) 0xFF#8
  (List.range k).map fun j =>
    ((all.drop (64 * j)).take 64, (bad.filter fun i => i / 64 == j).map (· % 64))

/-- The prefill queue of a context: whether it is valid, its offset and its LOG (14_futures.md R404, R405). -/
def pfqOf (m : Mem) (key : Nat) : Bool × Nat × Nat :=
  let q := BitVec.ofNat 32 (m.readNat (key + 60) 4)
  (q.getLsbD 19, field q 6 13 * 64, field q 20 4)

/-- A context's entry as the future engine reaches it (05_memory.md R499): its place, and the state its walk leaves. -/
def futEntry (s : State) (pid : Nat) (ctx : BitVec 16) (k : AccessKind) : Option Nat × State :=
  match s.part? pid with
  | some p => ctxEntry s p ctx k
  | none => (none, s)

/-- A future leaves pending (14_futures.md R410): its state is written, and its injection begins, or the other steps
follow at once. An unreadable context entry is logged and takes no injection and no timeout sequence (R411). -/
def leaveFut (s : State) (i state : Nat) (rstatus : Nat) (n : Nat) : State :=
  let f0 := s.futAt i
  let asks : Bool := state == 3 || (f0.inject && state != 4)
  let e : Option Nat × State := if asks then futEntry s f0.pid f0.ctx .load else (none, s)
  let s0 : State := if asks && e.1.isNone then { e.2 with logs := e.2.logs ++ [.injectUnreadable f0.ctx] } else e.2
  let tolen := match e.1 with | some k => min 4 (s0.mem.readNat (k + 68) 1) | none => 0
  let f := { f0 with
    state := BitVec.ofNat 3 state, rstatus := BitVec.ofNat 8 rstatus
    replylen := if state = 2 then BitVec.ofNat 32 n else if state = 3 then BitVec.ofNat 32 tolen else f0.replylen }
  let s1 := s0.setFut i f
  if f.inject = true ∧ state ≠ 4 then
    match e.1 with
    | none => laterSteps s1 i
    | some k =>
      let q := pfqOf s1.mem k
      let place : Nat × Nat :=
        if state = 2 then (((f.wins[f.replywin.toNat]?).map (·.base)).getD 0, 4 * n) else (k + 72, 4 * tolen)
      let tokens := s1.mem.read place.1 place.2
      if q.1 then
        let j : Injection :=
          { entry := i, pid := f.pid, ctx := f.ctx, home := f.home, off := q.2.1, log := max 1 (min 12 q.2.2),
            left := injectBytes tokens ((List.range place.2).filter fun k => s1.poisoned (place.1 + k) 1), first := 0,
            next := 0, wait := false }
        { s1 with injects := s1.injects ++ [j] }
      else laterSteps s1 i
  else laterSteps s1 i

/-- An injection is over, and its future goes through its other steps (14_futures.md R410). -/
def dropInject (s : State) (j : Injection) : State :=
  finishFut { s with injects := s.injects.filter fun x => x.entry != j.entry } j.entry

/-- The same where the context's entry cannot be read or written: PFQTAIL stays, and the failure is logged (14_futures.md
R411). -/
def failInject (s : State) (j : Injection) : State := dropInject { s with logs := s.logs ++ [.injectUnreadable j.ctx] } j

/-- An injection ends: PFQTAIL moves on, and the future goes through its other steps (14_futures.md R411). -/
def endInject (s : State) (j : Injection) : State :=
  if j.queue = false then dropInject s j
  else
    match futEntry s j.pid j.ctx .store with
    | (some k, t) => dropInject (t.storeNat (k + 64) 4 (j.next % 2 ^ j.log)) j
    | (none, t) => failInject t j

/-- The next granule of an injection is sent (14_futures.md R411): a tagged arrival at the home core, or an overrun when
the queue would leave local memory (R405). -/
def sendGranule (s : State) (j : Injection) : State :=
  let begins : Bool := j.next == j.first
  let e : Option Nat × State := if begins then futEntry s j.pid j.ctx .load else (none, s)
  match j.left with
  | [] => endInject s j
  | b :: rest =>
    if begins && e.1.isNone then failInject e.2 j else
    let p := match e.1 with | some k => e.2.mem.readNat (k + 64) 4 % 2 ^ j.log | none => j.next
    let first := if begins then p else j.first
    let j1 : Injection := { j with left := rest, first := first, next := p + 1, wait := true }
    let s1 : State := { e.2 with injects := e.2.injects.map fun x => if x.entry = j.entry then j1 else x }
    let f := s1.futAt j.entry
    let s2 := s1.setFut j.entry { f with pfqpos := BitVec.ofNat 32 first }
    let a : Arrival :=
      { dst := j.home, off := BitVec.ofNat 19 (j.off + 64 * (p % 2 ^ j.log)), bytes := b.1, kind := .inject,
        srcPkg := (s.coreAt j.home.toNat).ctl.pkg.setWidth 32, srcCore := 0xFFFF#16, entry := BitVec.ofNat 14 j.entry, bad := b.2 }
    if 2 ^ 19 < j.off + 64 * 2 ^ j.log then overrun s2 a
    else s2.hubTo j.pid j.home.toNat (.taggedArrival a) fun t => arrive t a

/-- The injection that goes on next: the oldest one of its context whose granule is settled, in a resident partition
(14_futures.md R411, R412). -/
def nextInject (s : State) : Option Injection :=
  s.injects.find? fun j =>
    !j.wait && (match s.part? j.pid with | some p => p.resident | none => false) &&
      (match s.injects.find? fun x => x.ctx == j.ctx && x.pid == j.pid with | some x => x.entry == j.entry | none => false)

/-- The pending futures of a context that begins teardown are cancelled (14_futures.md R403). -/
def cancelFuts (s : State) (pid : Nat) (ctx : BitVec 16) : State :=
  let mine := (s.futs.filter fun e => e.2.state == 1#3 && e.2.pid == pid && e.2.ctx == ctx).map (·.1)
  mine.foldl (fun t i => if (t.futAt i).state = 1#3 then leaveFut t i 4 0 0 else t) s

/-- Teardown begins on an active or suspended context (08_tasks.md R258, 15_system.md R450): its STATE becomes 3 and its pending
futures are cancelled (14_futures.md R403). -/
def beginTeardown (s : State) (pid : Nat) (ctx : BitVec 16) : State :=
  let r := ctxTeardown s pid ctx
  if r.1 then cancelFuts r.2 pid ctx else r.2

/-- The futures of a killed context: the pending ones are cancelled, and every one is freed (14_futures.md R403,
15_system.md R443). -/
def killFuts (s : State) (pid : Nat) (ctx : BitVec 16) : State :=
  let mine := (s.futs.filter fun e => e.2.state != 0#3 && e.2.pid == pid && e.2.ctx == ctx).map (·.1)
  let s1 : State := { s with injects := s.injects.filter fun j => !(j.pid == pid && j.ctx == ctx) }
  mine.foldl (fun t i =>
    let u := if (t.futAt i).state = 1#3 then leaveFut t i 4 0 0 else finishFut t i
    if (u.futAt i).state = 0#3 then u else freeFut u i) s1

end Sys2Proof.Machine
end

