-- ==== Sys2Proof/Machine/Control.lean ====
section
/-! DEFINITION. The windows of regions 0xE and 0xF (07_sync.md R225; 15_system.md R449 to R454) with what a read or a
write of each does: debugging, contexts, futures and tool rings, ownership flips, the fault queue, snapshots, the host
and storage queues and the park pool. -/

namespace Sys2Proof.Machine

/-! Debug (15_system.md R451, R452). -/

/-- The group of a core ends by a debug halt (09_compose.md R286, ENDWHY 8). The leader of the gang takes cause 0x0F: at once where a
follower halts, and when it goes on where it halts itself (R284; DESIGN CHOICE, log entry 98). -/
def endForDebug (s : State) (r : Nat) : State :=
  let c := s.coreAt r
  match c.group with
  | .single => s
  | .composeLead _ => endComposed s r 8
  | .gangLead _ => (endGang s r 8 0 0 0).modCore r fun c => { c with pendTrap := some (c.pendTrap.getD (trapS 0x0F 0#64)) }
  | .member lead true => enterTrap (endGang s lead 8 c.memberIdx 0 0) lead (trapS 0x0F 0#64)
  | .member lead false => endComposed s lead 8

/-- A debug halt (15_system.md R451): groups end, the walkers stop as for a trap, and no frame is written. -/
def debugHalt (s : State) (r : Nat) (why : BitVec 4) : State :=
  if (s.coreAt r).halt.isSome then s
  else if s.gangMaxx r then s.modCore r fun c => { c with pendHalt := some why }
  else haltCore ((abandon (landLoads (endForDebug s r) r) r).modCore r Core.completeM) r why

/-- A debugger resumes a halted core. -/
def debugResume (s : State) (r : Nat) : State :=
  startNext (s.modCore r fun c => { c with halt := none, stepping := false }) r

/-- STEP resumes a halted core for one S word. -/
def debugStep (s : State) (r : Nat) : State :=
  if (s.coreAt r).halt.isSome then s.modCore r fun c => { c with halt := none, stepping := true } else s

/-- A write to DBGCTL (15_system.md R451). -/
def dbgctlWrite (s : State) (r v : Nat) : State :=
  let x := BitVec.ofNat 64 v
  let s1 := s.modCore r fun c => { c with brken := x.getLsbD 3, blzhalt := x.getLsbD 4 }
  let s2 := if x.getLsbD 0 then debugHalt s1 r 1#4 else s1
  let s3 := if x.getLsbD 1 then debugResume s2 r else s2
  if x.getLsbD 2 then debugStep s3 r else s3

/-- The value of DBGCTL: its two stored bits. -/
def Core.dbgctl (c : Core) : Nat := 8 * c.brken.toNat + 16 * c.blzhalt.toNat

/-- The value of DBGSTAT. -/
def Core.dbgstat (c : Core) : Nat :=
  match c.halt with
  | some why => 1 + 16 * why.toNat
  | none => 0

/-- The header of the debug view. -/
def viewHead : FrameHead := { plainHead 0 liveAll with full := false }

/-- The 16 KiB that the debug view of a halted core shows (15_system.md R452). -/
def viewBytes (s : State) (r : Nat) : Mem :=
  Mem.writes (Mem.writes [] (headBytes s r viewHead 0)) (regBytes (s.coreAt r) viewHead)

/-- Half h of a 128-bit value replaced. -/
def setHalf (x : BitVec 128) (h : Nat) (v : Word64) : BitVec 128 := setField x (64 * h) 64 v.toNat

/-- A latch after a write of the first eight bytes of its entry: a KIND of 0 cancels it, and a REMAIN of 1 to 18
reschedules it (15_system.md R452). -/
def latchWrite (l : List Latch) (i : Nat) (v : Word64) : List Latch :=
  if field v 0 8 = 0 then l.eraseIdx i
  else if 1 ≤ field v 16 8 ∧ field v 16 8 ≤ 18 then l.modify i fun x => { x with remain := field v 16 8 }
  else l

/-- A write of eight bytes to the debug view of a halted core (15_system.md R452). -/
def viewWrite (c : Core) (off : Nat) (v : Word64) : Core :=
  if c.halt.isNone then c
  else if frG ≤ off ∧ off < frG + 1024 then
    let i := BitVec.ofNat 6 ((off - frG) / 16)
    c.wg i { bits := setHalf (c.rg i).bits ((off - frG) / 8 % 2) v, tag := false }
  else if frP ≤ off ∧ off < frP + 128 then
    let i := BitVec.ofNat 3 ((off - frP) / 16)
    c.wp i (setHalf (c.rp i) ((off - frP) / 8 % 2) v)
  else if frV ≤ off ∧ off < frV + 4096 then
    let i := BitVec.ofNat 5 ((off - frV) / 128)
    c.wv i (setField (c.rv i) (8 * ((off - frV) % 128 / 8 * 8)) 64 v.toNat)
  else if frLatch ≤ off ∧ off < frLatch + 144 * 20 ∧ (off - frLatch) % 144 = 0 then
    { c with latches := latchWrite c.latches ((off - frLatch) / 144) v }
  else c

/-! Futures and tool rings. -/

/-- The 64 bytes of an entry (14_futures.md R402). -/
def futBytes (f : Fut) : List Byte :=
  let flags := f.taken.toNat + 2 * f.remote.toNat + 4 * f.inject.toNat + 8 * f.cont.isSome.toNat +
    16 * f.waiter.isSome.toNat
  leBytes 1 f.state.toNat ++ leBytes 1 flags ++ leBytes 1 f.rstatus.toNat ++ leBytes 1 f.wins.length ++
    leBytes 4 f.gen.toNat ++ leBytes 2 f.ctx.toNat ++ leBytes 2 f.home.toNat ++ leBytes 2 f.pid ++
    leBytes 2 f.tool.toNat ++ leBytes 8 f.deadline.toNat ++ leBytes 4 f.replywin.toNat ++ leBytes 4 f.replylen.toNat ++
    leBytes 4 f.pfqpos.toNat ++ leBytes 2 f.taker.toNat ++ leBytes 2 f.ring.toNat ++ leBytes 8 f.auth.toNat ++
    leBytes 16 0

/-- The value of a tool-ring entry as window 3 reads it (15_system.md R449). -/
def ringValue (t : ToolRing) : Nat := t.valid.toNat * 2 ^ 63 + (t.log - 4) * 2 ^ 58 + t.pid * 2 ^ 48 + t.base

/-- A write of a tool-ring entry (15_system.md R449, 14_futures.md R408). -/
def toolRingWrite (s : State) (pid i v : Nat) : State :=
  let t := s.ringAt i
  if (t.valid = true ∧ t.pid ≠ pid) ∨ t.used ≠ [] then s
  else
    let x := BitVec.ofNat 64 v
    let u : ToolRing :=
      { valid := x.getLsbD 63, pid := pid, base := field x 6 42 * 64, log := field x 58 4 + 4, used := [], next := 0 }
    { s with rings := Table.set s.rings i u }

/-! Ownership flips (06_ordering.md R205, 15_system.md R450). -/

/-- The leaf that maps a virtual address, whatever it permits: its physical address, its bits and log2 of its page. -/
def findLeaf (s : State) (va : Nat) : List Nat → Nat → Option (Nat × BitVec 64 × Nat)
  | [], _ => none
  | sh :: rest, t =>
    let ea := t + 8 * (va / 2 ^ sh % 4096)
    let e : BitVec 64 := BitVec.ofNat 64 (s.mem.readNat ea 8)
    if e.getLsbD 0 = false then none
    else if e.getLsbD 1 then some (ea, e, sh)
    else findLeaf s va rest (field e 16 32 * 2 ^ 16)

/-- The TLBs of a partition drop a page (06_ordering.md R205, step 1). -/
def dropPage (s : State) (pid va : Nat) : State :=
  { s with
    cores := s.cores.map fun (e : Nat × Core) => (e.1, { e.2 with tlb := e.2.tlb.filter fun t => !t.holds pid va })
    mmus := s.mmus.map fun (e : Nat × Mmu) => (e.1, { e.2 with tlb := e.2.tlb.filter fun t => !t.holds pid va }) }

/-- A flip request (06_ordering.md R205): its status, and the first step where it is taken. A second request of a partition
whose flip is under way is not taken (15_system.md R450). -/
def flipRequest (s : State) (pid va : Nat) (host : Bool) : State :=
  let status (n : Nat) : State := s.modPart pid fun p => { p with flipStat := BitVec.ofNat 8 n }
  match s.part? pid with
  | none => s
  | some p =>
    if p.flip.isSome then status 2
    else
      match findLeaf s va walkLevels (field p.ptroot 16 32 * 2 ^ 16) with
      | none => status 3
      | some (ea, e, sh) =>
        if sh ≠ 16 then status 3
        else if s.row (field e 16 32 * 2 ^ 16) ≠ some .host then status 4
        else if e.getLsbD 60 then status 2
        else
          (dropPage (s.storeNat ea 8 (setField e 60 1 1).toNat) pid va).modPart pid fun p =>
            { p with flip := some { leaf := ea, va := va, host := host }, flipStat := 1#8 }

/-- The accesses of every core of a partition perform. -/
def drainPart (s : State) (pid : Nat) : State :=
  (s.cores.filter (fun e => e.2.pid == pid)).foldl (fun t e => drainS t e.1) s

/-- The instruction-cache lines of a page leave every core. -/
def dropLines (s : State) (pa n : Nat) : State :=
  { s with cores := s.cores.map fun (e : Nat × Core) =>
      (e.1, { e.2 with icache := e.2.icache.filter fun l => !overlaps l.addr 64 pa n }) }

/-- Steps 3 to 5 of a flip (06_ordering.md R205): every cached copy of a line of the page is lost, and monitors see it (07_sync.md
R234). -/
def flipComplete (s : State) (pid : Nat) : State :=
  match (s.part? pid).bind (·.flip) with
  | none => s
  | some f =>
    let s1 := drainPart s pid
    let e : BitVec 64 := BitVec.ofNat 64 (s1.mem.readNat f.leaf 8)
    let s2 := (dropLines s1 (field e 16 32 * 2 ^ 16) (2 ^ 16)).notify (field e 16 32 * 2 ^ 16) (2 ^ 16)
    (s2.storeNat f.leaf 8 (setField (setField e 60 1 0) 59 1 f.host.toNat).toNat).modPart pid fun p =>
      { p with flip := none, flipStat := 0#8 }

/-! The fault queue and the park pool. -/

/-- A write of FQRING (15_system.md R449). -/
def fqringWrite (s : State) (pid v : Nat) : State :=
  s.modPart pid fun p =>
    if p.fq.entries.all (fun e => e.status == 2#8) then
      let x := BitVec.ofNat 64 v
      { p with fq := { p.fq with ring := some (field x 5 43 * 32, max 4 (min 12 (field x 48 5))), entries := [] } }
    else p

/-- The value of a ring register: LOG in bits [52:48] above the base; 0 before the first write. -/
def ringReg : Option (Nat × Nat) → Nat
  | some (base, lg) => lg * 2 ^ 48 + base
  | none => 0

/-- A write of PPRING (08_tasks.md R264). -/
def ppringWrite (s : State) (pid v : Nat) : State :=
  s.modPart pid fun p =>
    if p.pool.free = 0 ∧ p.pool.inUse = 0 then
      let x := BitVec.ofNat 64 v
      { p with pool := { p.pool with ring := some (field x 3 45 * 8, max 4 (min 16 (field x 48 5))), head := 0 } }
    else p

/-- Whether a frame may join a pool: wholly in HBM4E or LPDDR6 and inside one memory range (08_tasks.md R264). -/
def frameFits (s : State) (p : Part) (pa : Nat) : Bool :=
  (s.row pa == some .hbm || s.row pa == some .lpddr) && s.row pa == s.row (pa + frSize - 1) &&
    p.ranges.any fun m => decide (m.base ≤ pa) && decide (pa + frSize ≤ m.base + m.len)

/-- A write of PPPUT (08_tasks.md R264). -/
def ppputWrite (s : State) (pid v : Nat) : State :=
  let pa := field (BitVec.ofNat 64 v) 6 42 * 64
  match s.part? pid with
  | none => s
  | some p =>
    if p.pool.room && frameFits s p pa then putFrame s pid pa
    else s.modPart pid fun p => { p with pool := p.pool.refuse }

/-- A read of PPTAKE: the oldest free frame leaves the pool, or 0 (08_tasks.md R264). -/
def pptakeRead (s : State) (pid : Nat) : Nat × State :=
  match takeFrame s pid with
  | none => (0, s)
  | some (fa, t) => (fa, t.modPart pid fun p => { p with pool := { p.pool with inUse := p.pool.inUse - 1 } })

/-! The host queue (19_integration.md R483, R485) and the storage queue (R494, R495). -/

/-- The key at which an address of the host's memory lies: the coherent window of 05_memory.md R166 (log entry 30). -/
def hostKey (a : Nat) : Nat := 0x1000_0000_0000 + a % 2 ^ 52

/-- A word is posted to the host queue, or dropped and counted when it is full (19_integration.md R485). -/
def hostPost (s : State) (r : Nat) (v : Word64) : State :=
  let pid := (s.coreAt r).pid
  let n := 2 ^ (field s.hqcfg 0 4 + 4)
  let tail := field s.hqptr 0 16
  let head := field s.hqptr 32 16
  if n ≤ (tail + 65536 - head) % 65536 then
    { s with hqptr := setField s.hqptr 48 16 (min 65535 (field s.hqptr 48 16 + 1)) }
  else
    let seq := ((s.part? pid).map (·.hostSeq)).getD 0#32
    let bytes := leBytes 8 v.toNat ++ leBytes 2 pid ++ leBytes 2 r ++ leBytes 4 seq.toNat
    let s1 := s.store (hostKey (field s.hqcfg 4 48 * 16 + 16 * (tail % n))) bytes
    { s1.modPart pid (fun p => { p with hostSeq := p.hostSeq + 1#32 }) with hqptr := setField s.hqptr 0 16 (tail + 1) }

/-- The parameters of a storage queue: EN, the entries, and the ring's base. -/
def sqRing (q : StorageQueue) : Bool × Nat × Nat :=
  (q.cfg.getLsbD 63, 2 ^ max 2 (min 10 (field q.cfg 48 5)), field q.cfg 6 42 * 64)

/-- A write of SQCFG (19_integration.md R495). -/
def sqcfgWrite (s : State) (pid v : Nat) : State :=
  s.modPart pid fun p =>
    if p.sq.head = p.sq.tail then { p with sq := { p.sq with cfg := BitVec.ofNat 64 v &&& 0x801F_FFFF_FFFF_FFC0#64 } } else p

/-- What the hub makes of the request in the 64 bytes at a key (19_integration.md R495). -/
def sqRequest (s : State) (p : Part) (i : BitVec 16) (k : Nat) : StorageReq :=
  let n (o w : Nat) : Nat := s.mem.readNat (k + o) w
  let mb : Option (BitVec 12 × BitVec 8) :=
    if n 27 1 % 2 = 1 then some (BitVec.ofNat 12 (n 24 2), BitVec.ofNat 8 (n 26 1)) else none
  let shape : Bool := decide (n 1 1 ≤ 1) && n 3 1 == 0 && decide (1 ≤ n 4 4) && decide (n 4 4 ≤ 256) && n 24 2 / 4096 == 0 &&
    n 27 1 / 2 == 0 && n 28 36 == 0 && n 16 8 % 64 == 0 && n 16 8 / 2 ^ 52 == 0
  let ext : Bool :=
    match Table.find s.extents (n 2 1) with
    | some e => e.pid == p.pid && decide (n 8 8 + n 4 4 ≤ e.count.toNat) && (if n 1 1 = 0 then e.rd else e.wr)
    | none => false
  let ok := shape && ext && s.hubCore p.pid (n 24 2)
  { index := i, status := if ok then none else some 1#8, write := n 1 1 == 1, buf := BitVec.ofNat 64 (n 16 8),
    len := 4096 * n 4 4, mb := if s.hubCore p.pid (n 24 2) then mb else none }

/-- STATUS of a completed request is written and its counter incremented (19_integration.md R495). -/
def sqFinish (s : State) (pid : Nat) (q : StorageReq) (status : Nat) : State :=
  match s.part? pid with
  | none => s
  | some p =>
    let r := sqRing p.sq
    let s1 := s.storeNat (r.2.2 + 64 * (q.index.toNat % r.2.1)) 1 status
    match q.mb with
    | some (c, m) => s1.hubTo pid c.toNat (.mailboxIncrementArrive m 1#32) fun t => incMail t c.toNat m 1#32
    | none => s1

/-- HEAD advances past the completed requests in ring order. -/
def sqAdvance (q : StorageQueue) : StorageQueue :=
  let done := q.reqs.takeWhile fun r => r.status.isSome
  { q with reqs := q.reqs.drop done.length, head := q.head + BitVec.ofNat 16 done.length }

/-- The hub reads requests up to the tail, at most 16 at once; a refused one is complete (19_integration.md R495).
Fuel bounds the requests. -/
def sqRead (pid : Nat) : Nat → State → State
  | 0, s => s
  | fuel + 1, s =>
    match s.part? pid with
    | none => s
    | some p =>
      let r := sqRing p.sq
      let i := p.sq.head + BitVec.ofNat 16 p.sq.reqs.length
      if r.1 = false ∨ i = p.sq.tail ∨ 16 ≤ p.sq.reqs.length then s
      else
        let q := sqRequest s p i (r.2.2 + 64 * (i.toNat % r.2.1))
        let s1 := s.modPart pid fun p => { p with sq := { p.sq with reqs := p.sq.reqs ++ [q] } }
        let s2 := if q.status.isSome then sqFinish s1 pid q 1 else s1
        sqRead pid fuel (s2.modPart pid fun p => { p with sq := sqAdvance p.sq })

/-- A store to SQTAIL (19_integration.md R495). -/
def sqTailWrite (s : State) (pid v : Nat) : State :=
  match s.part? pid with
  | none => s
  | some p =>
    let t := BitVec.ofNat 16 v
    if (sqRing p.sq).2.1 < (t - p.sq.head).toNat then
      s.modPart pid fun p =>
        { p with sq := { p.sq with ignored := if p.sq.ignored = 0xFFFF#16 then p.sq.ignored else p.sq.ignored + 1#16 } }
    else sqRead pid 1024 (s.modPart pid fun p => { p with sq := { p.sq with tail := t } })

/-- A remote-access entry (19_integration.md R489). -/
def State.keyAt (s : State) (i : Nat) : RemoteKey :=
  (s.keys.find? fun k => k.index == i).getD { index := i, lo := 0#64, hi := 0#64 }

/-- The state with a remote-access entry replaced. -/
def State.setKey (s : State) (k : RemoteKey) : State :=
  { s with keys := s.keys.filter (fun x => x.index != k.index) ++ [k] }

/-! Region 0xF. -/

/-- The 8-byte units of window 0 to 8: what a unit is worth (15_system.md R449), or none where a read raises 0x07. The
second part is the state after a read that takes something. -/
def ctlUnit (s : State) (x : Word64) (off : Nat) : Option (Word64 × State) :=
  let c := s.me
  let pid := c.pid
  let p := s.part? pid
  let sel := field x 19 29
  let give (n : Nat) : Option (Word64 × State) := some (BitVec.ofNat 64 n, s)
  let pick (f : Part → Nat) : Option (Word64 × State) := give ((p.map f).getD 0)
  match field x 48 4 with
  | 0 =>
    if 4096 ≤ sel ∨ s.coreOf pid sel = false then none
    else if off = 0x00 then give (s.coreAt sel).dbgctl
    else if off = 0x08 then give (s.coreAt sel).dbgstat
    else if 0x40000 ≤ off ∧ off < 0x44000 then
      (if (s.coreAt sel).halt.isSome then give ((viewBytes s sel).readNat (off - 0x40000) 8)
       else some (Config.debugView s.fresh, { s with fresh := s.fresh + 1 }))
    else none
  | 1 =>
    if 65536 ≤ sel ∨ off ≠ 0 then none
    else
      match p with
      | none => none
      | some p =>
        if ctxOf p (BitVec.ofNat 16 sel) = false then none
        else
          match ctxEntry s p (BitVec.ofNat 16 sel) .load with
          | (some k, t) => some (BitVec.ofNat 64 (ctxQueue t k).state, t)
          | (none, t) => some (0#64, t)
  | 2 =>
    if 16384 ≤ sel ∨ 0x40 ≤ off then none
    else
      let f := s.futAt sel
      if f.state ≠ 0#3 ∧ f.pid ≠ pid then none else give (leNat ((futBytes f).drop off |>.take 8))
  | 3 => if 64 ≤ sel ∨ off ≠ 0 then none else give (ringValue (s.ringAt sel))
  | 4 => if sel ≠ 0 ∨ off ≠ 8 then none else pick (·.flipStat.toNat)
  | 5 =>
    if sel ≠ 0 then none
    else
      match off with
      | 0x00 => pick fun p => ringReg p.fq.ring
      | 0x08 => pick (·.fq.mb.toNat)
      | 0x10 => pick fun p => p.fq.posted.toNat * 2 ^ 32 + p.fq.done.toNat
      | 0x18 => pick (·.fq.lost.toNat)
      | _ => none
  | 6 =>
    if sel = 4096 then
      (if off = 0 then give (s.blzSeq.toNat + s.blzLock.toNat * 2 ^ 32 + s.blzMissed.toNat * 2 ^ 48) else none)
    else if 4096 < sel ∨ s.coreOf pid sel = false then none
    else
      let n := (s.coreAt sel).snap
      match off with
      | 0x00 => give n.cycle.toNat
      | 0x08 => give n.pcS.toNat
      | 0x10 => give n.pcV.toNat
      | 0x18 => give n.pcM.toNat
      | 0x20 => give n.pcD.toNat
      | 0x28 => give n.word.toNat
      | 0x30 => give n.seq.toNat
      | _ => none
  | 7 =>
    if sel ≠ 0 then none
    else if off = 0x20 then pick (·.sq.cfg.toNat)
    else if off = 0x30 then pick fun p => p.sq.ignored.toNat * 2 ^ 48 + p.sq.head.toNat
    else if 0x1000 ≤ off ∧ off < 0x2000 then
      let k := s.keyAt ((off - 0x1000) / 16)
      give (if off % 16 = 0 then k.lo.toNat else k.hi.toNat)
    else none
  | 8 =>
    if sel ≠ 0 then none
    else
      match off with
      | 0x00 => pick fun p => ringReg p.pool.ring
      | 0x10 => let t := pptakeRead s pid; some (BitVec.ofNat 64 t.1, t.2)
      | 0x18 => pick fun p => p.pool.refused.toNat * 2 ^ 48 + p.pool.inUse % 2 ^ 24 * 2 ^ 24 + p.pool.free
      | _ => none
  | _ => none

/-- A write of an 8-byte unit of region 0xF (15_system.md R449); none where it raises 0x07. A read-only field ignores
writes (00_scope.md R5). -/
def ctlUnitWrite (s : State) (x : Word64) (off : Nat) (v : Word64) : Option State :=
  let c := s.me
  let pid := c.pid
  let sel := field x 19 29
  let n := v.toNat
  match field x 48 4 with
  | 0 =>
    if 4096 ≤ sel ∨ s.coreOf pid sel = false then none
    else if off = 0x00 then some (dbgctlWrite s sel n)
    else if off = 0x08 then some s
    else if off = 0x10 then some (s.modCore sel fun c => c.modCtl fun k => { k with intpend := setField k.intpend 2 1 1 })
    else if off = 0x18 then
      some (if n = 1 ∧ (s.coreAt sel).halt = some 5#4 then debugResume s sel else s)
    else if 0x40000 ≤ off ∧ off < 0x44000 then some (s.modCore sel fun c => viewWrite c (off - 0x40000) v)
    else none
  | 1 =>
    if 65536 ≤ sel then none
    else
      match s.part? pid with
      | none => none
      | some p =>
        let ctx := BitVec.ofNat 16 sel
        if ctxOf p ctx = false then none
        else if off = 0 then some s
        else if off = 8 then
          some (if n = 1 then ctxSuspend s pid ctx else if n = 2 then ctxResume s pid ctx
            else if n = 3 then beginTeardown s pid ctx else s)
        else none
  | 2 =>
    if 16384 ≤ sel ∨ 0x40 ≤ off ∨ ((s.futAt sel).state ≠ 0#3 ∧ (s.futAt sel).pid ≠ pid) then none else some s
  | 3 => if 64 ≤ sel ∨ off ≠ 0 then none else some (toolRingWrite s pid sel n)
  | 4 =>
    if sel ≠ 0 then none
    else if off = 0 then some (flipRequest s pid (field v 16 36 * 2 ^ 16) (v.getLsbD 0))
    else if off = 8 then some s
    else none
  | 5 =>
    if sel ≠ 0 then none
    else
      match off with
      | 0x00 => some (fqringWrite s pid n)
      | 0x08 => some (s.modPart pid fun p => { p with fq := { p.fq with mb := v &&& 0x8000_0000_0FFF_00FF#64 } })
      | 0x10 | 0x18 => some s
      | _ => none
  | 6 =>
    if sel = 4096 then (if off = 0 then some s else none)
    else if 4096 < sel ∨ s.coreOf pid sel = false ∨ 0x30 < off ∨ off % 8 ≠ 0 then none
    else some s
  | 7 =>
    if sel ≠ 0 then none
    else if off = 0x00 then some (hostPost s s.rank v)
    else if off = 0x20 then some (sqcfgWrite s pid n)
    else if off = 0x28 then some (sqTailWrite s pid n)
    else if off = 0x30 then some s
    else if 0x1000 ≤ off ∧ off < 0x2000 then
      let k := s.keyAt ((off - 0x1000) / 16)
      some (s.setKey (if off % 16 = 0 then { k with lo := v } else { k with hi := v }))
    else none
  | 8 =>
    if sel ≠ 0 then none
    else
      match off with
      | 0x00 => some (ppringWrite s pid n)
      | 0x08 => some (ppputWrite s pid n)
      | 0x10 | 0x18 => some s
      | _ => none
  | _ => none

/-- Whether every byte of a unit may be reached on its own: the debug view, a future's entry and a remote-access entry
are laid out in bytes; a register is reached at its listed offset alone (15_system.md R449). -/
def byteUnits (x : Word64) : Bool :=
  (field x 48 4 == 0 && decide (0x40000 ≤ field x 0 19)) || field x 48 4 == 2 ||
    (field x 48 4 == 7 && decide (0x1000 ≤ field x 0 19))

/-- The offset of the unit that an address of region 0xF names, and the place of its bytes in it. -/
def unitOf (x : Word64) : Nat × Nat :=
  let off := field x 0 19
  if byteUnits x then (off / 8 * 8, off % 8) else (off, 0)

/-- A read of n bytes in region 0xF: the low bytes of a register. -/
def ctlWinRead (s : State) (x : Word64) (n : Nat) : Option (Nat × State) :=
  let u := unitOf x
  (ctlUnit s x u.1).map fun r => (r.1.toNat / 2 ^ (8 * u.2) % 2 ^ (8 * n), r.2)

/-- A write of n bytes in region 0xF: a narrow write replaces the bytes it names and leaves the rest of the unit as
they read. -/
def ctlWinWrite (s : State) (x : Word64) (n v : Nat) : Option State :=
  let u := unitOf x
  let old : Word64 := if n = 8 ∨ field x 48 4 = 8 then 0#64 else ((ctlUnit s x u.1).map (·.1)).getD 0#64
  ctlUnitWrite s x u.1 (setField old (8 * u.2) (8 * n) v)

/-! Region 0xE (07_sync.md R225). -/

/-- The 64 presence tags of word w of a core. -/
def presWord (c : Core) (w : Nat) : Nat := field c.pres (64 * w) 64

/-- FULL and EMPTY of the granules of a word, in ascending order (07_sync.md R225). -/
def presSet (r w v : Nat) : Nat → State → State
  | 0, s => s
  | n + 1, s => markGranule (presSet r w v n s) r (64 * w + n) (v / 2 ^ n % 2 == 1)

/-- A load of n bytes from a window of region 0xE of this package; none where it raises 0x07. -/
def syncWinRead (s : State) (x : Word64) (n : Nat) : Option Nat :=
  let r := (coordCore x).toNat
  let off := field x 0 19
  match field x 49 3 with
  | 0 => if n = 4 ∧ off < 1024 then some ((s.coreAt r).rmail (BitVec.ofNat 8 (off / 4))).toNat else none
  | 1 => if n = 4 ∨ n = 8 then some (s.mem.readNat (localKey r off) n) else none
  | 2 => if n = 8 ∧ off < 1024 then some (presWord (s.coreAt r) (off / 8)) else none
  | _ => none

/-- A store of n bytes to a window of region 0xE of this package. -/
def syncWinWrite (s : State) (x : Word64) (n v : Nat) : Option State :=
  let r := (coordCore x).toNat
  let off := field x 0 19
  match field x 49 3 with
  | 0 => if n = 4 ∧ off < 1024 then some (setMail s r (BitVec.ofNat 8 (off / 4)) (BitVec.ofNat 32 v)) else none
  | 2 => if n = 8 ∧ off < 1024 ∧ s.me.atTask = false then some (presSet r (off / 8) v 64 s) else none
  | _ => none

end Sys2Proof.Machine
end

