-- ==== Sys2Proof/Machine/LoadStore.lean ====
section
/-! DEFINITION. Loads, stores, prefetch and cache maintenance of the S engine (05_memory.md R150 to R164, R173 to
R181), with the posted stores on their way (06_ordering.md R189). -/

namespace Sys2Proof.Machine

/-- The runs of bytes of a list of chunks. -/
def runsOf (l : List Chunk) : List (Nat × Nat) := l.map fun c => (c.key, c.len)

/-- Before core r reads or writes chunks at once by the path of x, its own earlier accesses to their bytes by that path are
performed: outstanding loads, buffered stores, and posted stores to the same destination. Accesses by the alias and by the
loop-back path are not ordered with one another (05_memory.md R150, R164; 06_ordering.md R185, R189). -/
def settleFor (s : State) (r : Nat) (x : Word64) (l : List Chunk) : State :=
  let s1 := performOver (landOver s r (viaAlias x) (runsOf l)) r (viaAlias x) (runsOf l)
  l.foldl (fun t c => match c.far r with | some q => flushTo t r q | none => t) s1

/-! Loads. -/

/-- The base value of a memory word: in the iterations of NEST.s the offset of its register is added (04_scalar.md
R122; log entry 23). -/
def Core.base (c : Core) (a : GIdx) : GVal :=
  match c.nestS with
  | none => c.rg a
  | some n =>
    let o := nestOff n.desc n.index a
    if o = 0 then c.rg a else moveCap (c.rg a) ((c.rg a).word + BitVec.ofInt 64 o)

/-- The value that a load of n bytes gives from the number it read, with its tag (05_memory.md R175). -/
def loadVal (n : Nat) (v : Nat) (tag : Bool) : GVal := { bits := BitVec.ofNat 128 v, tag := n == 16 && tag }

/-- The number that another package answers to a load of n bytes, or its refusal (05_memory.md R156; log entry 10). -/
def remoteLoad (s : State) (x : Word64) (n : Nat) : Res (Nat × Bool × State) :=
  if Config.remoteOk s.fresh then
    .ok (leNat (remoteBytes s.fresh n), remoteTag s.fresh n 0, { s with fresh := s.fresh + 1 })
  else .trap (trapS 0x07 x) { s with fresh := s.fresh + 1 }

/-- A load from a window (07_sync.md R225, 15_system.md R449). -/
def windowLoad (s : State) (x : Word64) (n : Nat) : Res (Nat × State) :=
  if region x = 0xE then
    let t := if coordPkg x = s.me.ctl.pkg then flushTo s s.rank (coordCore x).toNat else s
    match syncWinRead t x n with
    | none => .trap (trapS 0x07 x) s
    | some v =>
      if coordPkg x = s.me.ctl.pkg then
        (if field x 49 3 = 1 ∧ t.poisoned (localKey (coordCore x).toNat (field x 0 19)) n = true then .trap (trapS 0x0D x) t
         else .ok (v, t))
      else (remoteLoad (s.requestTo x (.windowLoad x n)) x n).bind fun q => .ok (q.1, q.2.2)
  else
    match ctlWinRead s x n with
    | none => .trap (trapS 0x07 x) s
    | some r => .ok r

/-- The slices of a core's outstanding S loads and S stores: one, in composed mode one for each member up to eight
(05_memory.md R164, 09_compose.md R276). -/
def Core.slices (c : Core) : Nat :=
  match c.group with
  | .composeLead ms => min (ms.length + 1) 8
  | _ => 1

/-- The slice of a key: bits [8:6] of its address modulo their number (09_compose.md R276). -/
def Core.sliceOf (c : Core) (key : Nat) : Nat := key / 64 % 8 % c.slices

/-- Whether each slice that an access of some pieces needs holds fewer than 32 of a list of outstanding accesses, given by the
keys of their pieces (05_memory.md R164, 09_compose.md R276). -/
def Core.room (c : Core) (l : List (List Nat)) (keys : List Nat) : Bool :=
  keys.all fun k => decide (l.countP (fun p => p.any fun j => c.sliceOf j == c.sliceOf k) < 32)

/-- Whether one more S load may be outstanding. -/
def Core.loadRoom (c : Core) (keys : List Nat) : Bool := c.room (c.loads.map fun q => q.parts.map (·.1)) keys

/-- Whether one more S store may be. -/
def Core.storeRoom (c : Core) (keys : List Nat) : Bool := c.room (c.stores.map fun q => q.pieces.map (·.1)) keys

/-- The single-copy atomic pieces of a load with the bytes that stand there now (05_memory.md R173). -/
def loadParts (s : State) (l : List Chunk) : List (Nat × List Byte) := (s.atoms l).map fun p => (p.1, s.mem.read p.1 p.2)

/-- The posted stores of the core of this step to each far core of an access (06_ordering.md R189). -/
def postedAfter (s : State) (l : List Chunk) : List (Nat × Nat) :=
  l.filterMap fun k => (k.far s.rank).map fun q => (q, postedTo s s.rank q)

/-- A load that waits for its return (05_memory.md R164): what it reads, and the posted stores of the core that come before
it. -/
def loadOf (s : State) (d : GIdx) (x : Word64) (l : List Chunk) (tag : Bool) : PendingLoad :=
  { d := d, parts := loadParts s l, tag := tag, tagWas := l.all fun k => s.ctag k.key, byAlias := viaAlias x
    after := postedAfter s l }

/-- An access joins the outstanding loads (05_memory.md R164, 09_compose.md R276). -/
def waitLoad (s : State) (q : PendingLoad) : Res State :=
  if s.me.loadRoom (q.parts.map (·.1)) then .ok (s.modMe fun m => { m with loads := m.loads ++ [q] }) else .hold .queueFull s

/-- What a load does besides writing its register with the bytes: nothing, LDLOC's post-update of that register, or an acquire
(05_memory.md R177, 06_ordering.md R194). -/
inductive LoadKind where
  | plain
  | upd (u : Width × Update × BitVec 6)
  | acq (small : Bool)
  deriving DecidableEq, Repr

/-- A load of n bytes for register d through capability c at x (05_memory.md R175). It waits for an arming or a decrement of its
bytes that the core has sent (06_ordering.md R185). The read of an acquire is made at once, unless its scope holds no other
agent (R184; log entry 76). -/
def loadAt (s : State) (kind : LoadKind) (d : GIdx) (c : GVal) (x : Word64) (n align : Nat) (al : Allow) : Res State :=
  let keep (b : Bool) : Bool := n == 16 && b && capHas c.bits permLoadCap
  let upd := match kind with | .upd u => some u | _ => none
  let done (v : GVal) (m : Core) : Core := m.loaded { d := d, parts := [], got := leBytes 16 v.bits.toNat, tag := v.tag, upd := upd }
  (access s .s c x n permLoad align al).bind fun t =>
    match t.1 with
    | .bytes l =>
      if slotPending t.2 s.rank (runsOf l) then .hold .engines t.2
      else if s.lazy ∧ kind ≠ .acq false ∧ t.2.chunksPoisoned l = false then
        waitLoad t.2 { loadOf t.2 d x l (keep (l.all fun k => !k.host)) with upd := upd, acq := kind == .acq true }
      else
        let s1 := settleFor t.2 s.rank x l
        if s1.chunksPoisoned l then .trap (trapS 0x0D x) s1
        else
          let tag := l.all fun k => !k.host && s1.ctag k.key
          .ok (s1.modMe (done (loadVal n (leNat (s1.readChunks l)) (keep tag))))
    | .remote pkg core off =>
      (remoteLoad (t.2.request pkg core (.load off n)) x n).bind fun q =>
        .ok (q.2.2.modMe (done (loadVal n q.1 (keep q.2.1))))
    | .window y => (windowLoad t.2 y n).bind fun q => .ok (q.2.modMe (done (loadVal n q.1 false)))

/-! Stores. -/

/-- A store to a window (07_sync.md R225, 15_system.md R449). -/
def windowStore (s : State) (x : Word64) (n v : Nat) : Res State :=
  if region x = 0xE then
    match syncWinWrite (if coordPkg x = s.me.ctl.pkg then flushTo s s.rank (coordCore x).toNat else s) x n v with
    | none => .trap (trapS 0x07 x) s
    | some t =>
      if coordPkg x = s.me.ctl.pkg then .ok t else .ok (s.requestTo x (.windowStore x (leBytes n v)))
  else
    match ctlWinWrite s x n v with
    | none => .trap (trapS 0x07 x) s
    | some t => .ok t

/-- The cause of a tagged ST.Q (05_memory.md R153). -/
def tagCause (s : State) (c v : GVal) (x : Word64) (host : Bool) : Option Nat :=
  if !v.tag then none
  else if capHas c.bits permStoreCap = false then some 0x04
  else if capHas v.bits permGlobal = false ∧ s.isOwn x = false then some 0x04
  else if host then some 0x07
  else none

/-- Bytes stored over chunks; a 16-byte store sets its unit's tag (05_memory.md R152, R176). -/
def storeNow (s : State) (l : List Chunk) (bs : List Byte) (tag : Bool) : State :=
  match l with
  | [c] => s.storeTagged c.key bs tag
  | l => s.storeChunks l bs

/-- Bytes dealt to runs in order. -/
def dealBytes : List (Nat × Nat) → List Byte → List (Nat × List Byte)
  | [], _ => []
  | p :: t, bs => (p.1, bs.take p.2) :: dealBytes t (bs.drop p.2)

/-- A posted store on its way (06_ordering.md R189), in its single-copy atomic pieces (R191). -/
def postStore (s : State) (dst : Nat) (key : Nat) (bs : List Byte) (tag : Bool) (rel : Bool := false) (bad : List Nat := []) :
    State :=
  { s with net := s.net ++ (dealBytes (atomsOf 64 bs.length key bs.length) bs).map fun p =>
      let w : PostedStore :=
        { dst := BitVec.ofNat 12 dst, off := BitVec.ofNat 19 p.1, bytes := p.2, tag := tag, rel := rel
          bad := bad.filterMap fun i => if p.1 ≤ key + i ∧ key + i < p.1 + p.2.length then some (key + i - p.1) else none }
      { src := s.rank, dst := dst, ev := .postedStoreArrive w, pid := s.me.pid } }

/-- A store in the store buffer (05_memory.md R164), after `f` has performed what comes before it. -/
def bufferStore (s : State) (x : Word64) (l : List Chunk) (bs : List Byte) (tag rel : Bool) (f : State → State := id) :
    Res State :=
  let b : Buffered := { pieces := dealBytes (s.atoms l) bs, tag := tag, byAlias := viaAlias x, rel := rel }
  if s.me.storeRoom (b.pieces.map (·.1)) then .ok ((f s).modMe fun m => { m with stores := m.stores ++ [b] })
  else .hold .queueFull s

/-- The bytes of a checked store (05_memory.md R156, R164, R176): to another core posted, else through the store buffer; at
once while accesses do not wait. A store that runs on into the next core's local memory performs the first part before it
posts or buffers the rest (R173). It waits for an arming or a decrement of its bytes that the core has sent (06_ordering.md
R185). -/
def storeBytes (s : State) (x : Word64) (l : List Chunk) (bs : List Byte) (tag : Bool) (rel : Bool := false) : Res State :=
  let s1 := landOver s s.rank (viaAlias x) (runsOf l)
  let first (c : Chunk) (t : State) : State := storeNow (settleFor t s.rank x [c]) [c] (bs.take c.len) false
  if slotPending s s.rank (runsOf l) then .hold .engines s
  else if s.lazy = false then .ok (storeNow (drainStores (settleFor s1 s.rank x l) s.rank) l bs tag)
  else
    match l with
    | [c] =>
      match c.far s.rank with
      | some q => .ok (postStore s1 q c.key bs tag rel)
      | none => bufferStore s1 x l bs tag rel
    | c :: e =>
      match e.find? fun k => (k.far s.rank).isSome with
      | some k =>
        .ok (match k.far s.rank with | some q => postStore (first c s1) q k.key (bs.drop c.len) false rel | none => first c s1)
      | none =>
        if (c.far s.rank).isSome then bufferStore s1 x e (bs.drop c.len) tag rel (first c)
        else bufferStore s1 x l bs tag rel
    | [] => .ok s1

/-- A store of the n low bytes of v through capability c at x (05_memory.md R176); `rel` marks a release write. -/
def storeAt (s : State) (v c : GVal) (x : Word64) (n align : Nat) (al : Allow) (rel : Bool := false) : Res State :=
  let bs := leBytes n v.bits.toNat
  let tag := n == 16 && v.tag
  (access s .s c x n permStore align al).bind fun t =>
    let host : Bool := match t.1 with | .bytes l => l.any (·.host) | _ => false
    match (if tag then tagCause t.2 c v x host else none) with
    | some cause => .trap (trapS cause x) t.2
    | none =>
      match t.1 with
      | .bytes l => storeBytes t.2 x l bs tag rel
      | .remote pkg core off => .ok (t.2.request pkg core (.store off bs (if tag then [0] else []) []))
      | .window y => windowStore t.2 y n (v.bits.toNat % 2 ^ (8 * n))

/-- The S walker steps past the word. -/
def Res.next (x : Res State) : Res State := x.bind fun t => .ok (t.modMe Core.next)

/-- The alignment that an S access of n bytes needs: 16 for Q, none for the others (05_memory.md R173). -/
def sAlign (n : Nat) : Nat := if n = 16 then 16 else 1

/-- LD of n bytes (05_memory.md R175). -/
def load (s : State) (d a : GIdx) (off : BitVec 11) (n : Nat) : Res State :=
  let c := s.me.base a
  (loadAt s .plain d c (c.word + off.signExtend 64) n (sAlign n) .any).next

/-- ST of n bytes (05_memory.md R176). -/
def store (s : State) (d a : GIdx) (off : BitVec 11) (n : Nat) : Res State :=
  let c := s.me.base a
  (storeAt s (s.me.rg d) c (c.word + off.signExtend 64) n (sAlign n) .any).next

/-- LD.B (05_memory.md R175). -/
def execLdB (d a : GIdx) (off : BitVec 11) (s : State) : Host.Outcome State Fault Refusal := settle s (load s d a off 1)
/-- LD.H (05_memory.md R175). -/
def execLdH (d a : GIdx) (off : BitVec 11) (s : State) : Host.Outcome State Fault Refusal := settle s (load s d a off 2)
/-- LD.W (05_memory.md R175). -/
def execLdW (d a : GIdx) (off : BitVec 11) (s : State) : Host.Outcome State Fault Refusal := settle s (load s d a off 4)
/-- LD.D (05_memory.md R175). -/
def execLdD (d a : GIdx) (off : BitVec 11) (s : State) : Host.Outcome State Fault Refusal := settle s (load s d a off 8)
/-- LD.Q (05_memory.md R175). -/
def execLdQ (d a : GIdx) (off : BitVec 11) (s : State) : Host.Outcome State Fault Refusal := settle s (load s d a off 16)
/-- ST.B (05_memory.md R176). -/
def execStB (d a : GIdx) (off : BitVec 11) (s : State) : Host.Outcome State Fault Refusal := settle s (store s d a off 1)
/-- ST.H (05_memory.md R176). -/
def execStH (d a : GIdx) (off : BitVec 11) (s : State) : Host.Outcome State Fault Refusal := settle s (store s d a off 2)
/-- ST.W (05_memory.md R176). -/
def execStW (d a : GIdx) (off : BitVec 11) (s : State) : Host.Outcome State Fault Refusal := settle s (store s d a off 4)
/-- ST.D (05_memory.md R176). -/
def execStD (d a : GIdx) (off : BitVec 11) (s : State) : Host.Outcome State Fault Refusal := settle s (store s d a off 8)
/-- ST.Q (05_memory.md R176). -/
def execStQ (d a : GIdx) (off : BitVec 11) (s : State) : Host.Outcome State Fault Refusal := settle s (store s d a off 16)

/-- LDLOC (05_memory.md R177). -/
def execLdloc (width : Width) (upd : Update) (d a : GIdx) (inc : BitVec 6) (s : State) :
    Host.Outcome State Fault Refusal :=
  let c := s.me.base a
  let n := widthBytes width
  settle s (if d = a then (loadAt s (.upd (width, upd, inc)) d c c.word n (sAlign n) .local_).next
    else (loadAt s .plain d c c.word n (sAlign n) .local_).bind fun t => .ok (t.modMe fun m => (updated m a width upd inc).next))

/-- STLOC (05_memory.md R177). -/
def execStloc (width : Width) (upd : Update) (d a : GIdx) (inc : BitVec 6) (s : State) :
    Host.Outcome State Fault Refusal :=
  let c := s.me.base a
  let n := widthBytes width
  settle s ((storeAt s (s.me.rg d) c c.word n (sAlign n) .local_).bind fun t =>
    .ok (t.modMe fun m => (updated m a width upd inc).next))

/-! Prefetch and cache maintenance. -/

/-- PREF has no architectural effect (05_memory.md R178). -/
def execPref (_lvl : BitVec 2) (_a : GIdx) (_off : BitVec 11) (s : State) : Host.Outcome State Fault Refusal :=
  .next (s.modMe Core.next)

/-- The check of CLWB and CLINV, and what is done with the line (05_memory.md R179): the core's own stores to it are
performed. The caches of the coherent domain hold nothing else that the model's memory does not (log entry 75). -/
def maintain (s : State) (a : GIdx) (off : BitVec 11) (f : State → Nat → State) : Res State :=
  let c := s.me.base a
  let x := c.word + off.signExtend 64
  if region x = 0xC ∨ region x = 0xD ∨ region x = 0xE then
    match precheck s c x 1 permLoad 1 .any with
    | some cause => .trap (trapS cause x) s
    | none => .ok (s.modMe Core.next)
  else
    (access s .s c x 1 permLoad 1 .any).bind fun t =>
      match t.1 with
      | .bytes (k :: _) =>
        let line := k.key / 64 * 64
        .ok ((f (performOver t.2 s.rank false [(line, 64)]) line).modMe Core.next)
      | _ => .ok (t.2.modMe Core.next)

/-- CLWB (05_memory.md R179). -/
def execClwb (a : GIdx) (off : BitVec 11) (s : State) : Host.Outcome State Fault Refusal :=
  settle s (maintain s a off fun t _ => t)
/-- CLINV (05_memory.md R179): every L1 loses the line, and with it a monitor armed there (07_sync.md R234). -/
def execClinv (a : GIdx) (off : BitVec 11) (s : State) : Host.Outcome State Fault Refusal :=
  settle s (maintain s a off fun t k => t.notify k 64)

/-- The line of a key leaves the instruction caches of a core and, in composed mode, of its members. -/
def dropLine (s : State) (r k : Nat) : State :=
  let ms := match (s.coreAt r).group with | .composeLead ms => r :: ms | _ => [r]
  ms.foldl (fun t q => t.modCore q fun c => { c with icache := c.icache.filter fun l => l.addr != k / 64 * 64 }) s

/-- CLINV.i (05_memory.md R180). -/
def execClinvI (a : GIdx) (off : BitVec 11) (s : State) : Host.Outcome State Fault Refusal :=
  let c := s.me.base a
  let x := c.word + off.signExtend 64
  settle s ((access s .s c x 1 permExecute 1 .any).bind fun t =>
    match t.1 with
    | .bytes l => .ok ((l.foldl (fun u k => dropLine u s.rank k.key) t.2).modMe Core.next)
    | _ => .ok (t.2.modMe Core.next))

end Sys2Proof.Machine
end

