-- ==== Sys2Proof/Machine/Ordering.lean ====
section
/-! DEFINITION. FENCE, LPBK, LDACQ, STREL and the atomics (06_ordering.md R193 to R202). -/

namespace Sys2Proof.Machine

/-- Every earlier access of a core is performed with respect to the instance of a scope (06_ordering.md R194, R198):
its own buffered stores and outstanding loads, and beyond .core its posted stores. The V latches land with their words. A
scope that holds fewer agents orders no less (log entry 76). -/
def perform (s : State) (scope : Scope) : State :=
  let s1 := drainS s s.rank
  if scope = .core then s1 else flushFrom s1 s.rank

/-- Whether a release may be made: every engine has completed its earlier words, and beyond .core nothing of the core is on
its way that only its destination can take (06_ordering.md R194, 05_memory.md R155). -/
def releaseReady (s : State) (scope : Scope) : Bool := s.me.quiet && (scope == .core || s.released s.rank)

/-- A word that holds as a release (06_ordering.md R194). -/
def afterRelease (s : State) (scope : Scope) (f : State → Res State) : Res State :=
  if releaseReady s scope then f (perform s scope) else .hold .engines s

/-- FENCE (06_ordering.md R198). -/
def execFence (scope : Scope) (s : State) : Host.Outcome State Fault Refusal :=
  settle s (afterRelease s scope fun t => .ok (t.modMe Core.next))

/-- Whether a key lies in the core's own local memory. -/
def State.ownKey (s : State) (k : Nat) : Bool := keyCore k == some s.rank

/-- LPBK (06_ordering.md R202): the engines' earlier accesses to the own local memory have been made, and then those of the S
engine are performed. -/
def execLpbk (s : State) : Host.Outcome State Fault Refusal :=
  let p := s.me.posS
  settle s (if !(vPending s p ++ mPending s p ++ dPending s p).isEmpty then .hold .engines s
    else
      let t := returnWhere s s.rank fun l => l.parts.any fun x => s.ownKey x.1
      .ok ((performWhere t s.rank fun b => b.pieces.any fun x => s.ownKey x.1).modMe Core.next))

/-- The width test that shows after translation: a Q access to host memory (06_ordering.md R199). -/
def wideHost (s : State) (c : GVal) (x : Word64) (n : Nat) (need : BitVec 12) : Res Unit :=
  (access s .s c x n need n .any).bind fun t =>
    match t.1 with
    | .bytes l => if n = 16 ∧ l.any (·.host) then .trap (trapS 0x05 x) t.2 else .ok ()
    | _ => .ok ()

/-- Whether the instance of a scope that holds a core holds no other core that runs a task, so that an acquire there orders
no two agents (06_ordering.md R183, R184). -/
def scopeAlone (s : State) (r : Nat) (scope : Scope) : Bool :=
  let same (q : Nat) : Bool :=
    match scope with
    | .core => false
    | .clu => clusterOf q == clusterOf r
    | .die => q / 1024 == r / 1024
    | _ => true
  (scope == .core || scope == .clu || scope == .die) && s.cores.all fun e => e.1 == r || !same e.1 || e.2.task.isNone

/-- An acquire: the core's posted release writes are performed before its read, which waits where one of them does (05_memory.md
R155, 06_ordering.md R196). -/
def withAcquire (s : State) (f : State → Res State) : Res State :=
  if acquireReady s s.rank then f (acquire s s.rank) else .hold .rankTransit s

/-- An acquire by a word that the core's own release writes come before: its pushes, armings and decrements have been taken, its
D engine has finished the releases that stand before the word, and its posted release writes are performed (06_ordering.md R193,
R196). -/
def afterReleases (s : State) (f : State → Res State) : Res State :=
  if s.pushesDone s.rank = false ∨ dReleasing s s.me.posS = true then .hold .engines s else withAcquire s f

/-- LDACQ (06_ordering.md R196, R199): the core's own release writes are performed, and then the load is made at once, and
with it the acquire's read. -/
def execLdacq (width : Width) (scope : Scope) (d a : GIdx) (s : State) : Host.Outcome State Fault Refusal :=
  let c := s.me.base a
  let n := widthBytes width
  settle s ((wideHost s c c.word n permLoad).bind fun _ =>
    afterReleases s fun t => (loadAt t (.acq (scopeAlone s s.rank scope)) d c c.word n n .any).next)

/-- STREL (06_ordering.md R199): it holds as a release, and then has the effect of ST. -/
def execStrel (width : Width) (scope : Scope) (d a : GIdx) (s : State) : Host.Outcome State Fault Refusal :=
  let c := s.me.base a
  let n := widthBytes width
  settle s (afterRelease s scope fun t =>
    (wideHost t c c.word n permStore).bind fun _ => (storeAt t (t.me.rg d) c c.word n n .any true).next)

/-! Atomics. -/

/-- Whether an order includes a release (06_ordering.md R200). -/
def orderRel : Order → Bool
  | .rl => true | .aqrl => true | _ => false

/-- Whether an order includes an acquire (06_ordering.md R200). -/
def orderAcq : Order → Bool
  | .aq => true | .aqrl => true | _ => false

/-- The atomic step at the home of checked bytes (06_ordering.md R200, R201): the L1 copies of the line are lost before it. One
of order none does not hold the walker: it is performed as an outstanding load is. -/
def amoStep (s : State) (op : Nat) (plain small : Bool) (x : Word64) (l : List Chunk) (d : GIdx) (b e : Word64) : Res State :=
  let key := (l.head?.map (·.key)).getD 0
  if slotPending s s.rank (runsOf l) then .hold .engines s
  else if s.lazy ∧ (plain ∨ small) ∧ s.chunksPoisoned l = false then
    (waitLoad s { loadOf s d x l false with amo := some (op, b, e), acq := small }).next
  else
    let s1 := settleFor s s.rank x l
    if s1.chunksPoisoned l then .trap (trapS 0x0D x) (if (keyCore key).isNone then s1.notify key 8 else s1)
    else
      let old : Word64 := BitVec.ofNat 64 (leNat (s1.readChunks l))
      .ok ((amoWrite s1 key (op, b, e) old).modMe fun c => (c.wg d (GVal.ofWord old)).next)

/-- AMO (06_ordering.md R200). -/
def amo (s : State) (op : Nat) (ord : Order) (scope : Scope) (d a b : GIdx) : Res State :=
  let c := s.me.base a
  let x := c.word
  let y := (s.me.rg b).word
  let e := (s.me.rg d).word
  (access s .s c x 8 (permLoad ||| permStore ||| permAtomic) 8 .any).bind fun t =>
    let acq (u : State) (l : State → Res State) : Res State := if orderAcq ord then afterReleases u l else l u
    let go (l : State → Res State) : Res State :=
      if orderRel ord then afterRelease t.2 scope fun u => acq u l else acq t.2 l
    let small := ord == .aq && scopeAlone s s.rank scope
    match t.1 with
    | .window _ => .trap (trapS 0x07 x) t.2
    | .remote pkg core off =>
      go fun u => (remoteLoad (u.request pkg core (.amo off op y e)) x 8).bind fun q =>
        .ok (q.2.2.modMe fun m => (m.wg d (loadVal 8 q.1 false)).next)
    | .bytes l =>
      if l.any (·.hostOwn) then .trap (trapS 0x07 x) t.2
      else go fun u => amoStep u op (!orderRel ord && !orderAcq ord) small x l d y e

/-- AMO.ADD (06_ordering.md R200). -/
def execAmoAdd (ord : Order) (scope : Scope) (d a b : GIdx) (s : State) : Host.Outcome State Fault Refusal :=
  settle s (amo s 0 ord scope d a b)
/-- AMO.AND (06_ordering.md R200). -/
def execAmoAnd (ord : Order) (scope : Scope) (d a b : GIdx) (s : State) : Host.Outcome State Fault Refusal :=
  settle s (amo s 1 ord scope d a b)
/-- AMO.OR (06_ordering.md R200). -/
def execAmoOr (ord : Order) (scope : Scope) (d a b : GIdx) (s : State) : Host.Outcome State Fault Refusal :=
  settle s (amo s 2 ord scope d a b)
/-- AMO.XOR (06_ordering.md R200). -/
def execAmoXor (ord : Order) (scope : Scope) (d a b : GIdx) (s : State) : Host.Outcome State Fault Refusal :=
  settle s (amo s 3 ord scope d a b)
/-- AMO.MIN (06_ordering.md R200). -/
def execAmoMin (ord : Order) (scope : Scope) (d a b : GIdx) (s : State) : Host.Outcome State Fault Refusal :=
  settle s (amo s 4 ord scope d a b)
/-- AMO.MAX (06_ordering.md R200). -/
def execAmoMax (ord : Order) (scope : Scope) (d a b : GIdx) (s : State) : Host.Outcome State Fault Refusal :=
  settle s (amo s 5 ord scope d a b)
/-- AMO.SWP (06_ordering.md R200). -/
def execAmoSwp (ord : Order) (scope : Scope) (d a b : GIdx) (s : State) : Host.Outcome State Fault Refusal :=
  settle s (amo s 6 ord scope d a b)
/-- AMO.CAS (06_ordering.md R200). -/
def execAmoCas (ord : Order) (scope : Scope) (d a b : GIdx) (s : State) : Host.Outcome State Fault Refusal :=
  settle s (amo s 7 ord scope d a b)

end Sys2Proof.Machine
end

