-- ==== Sys2Proof/Machine/Sync.lean ====
section
/-! DEFINITION. Presence words, mailbox words, barrier words and monitors (07_sync.md R220 to R235). -/

namespace Sys2Proof.Machine

/-! Operands. -/

/-- The owner and the local offset of a checked local-memory operand: a core of this package, or another package. -/
inductive Owner where
  | here (rank off : Nat)
  | away (pkg : BitVec 18) (core : BitVec 12) (off : BitVec 19)
  deriving DecidableEq, Repr

/-- The owner that a target names. -/
def ownerOf : Target → Option Owner
  | .bytes [c] =>
    match keyCore c.key with
    | some r => some (.here r ((c.key - 0xC * 2 ^ 52) % 2 ^ 19))
    | none => none
  | .remote p c o => some (.away p c o)
  | _ => none

/-- The operand of a word that acts on local memory (07_sync.md R220, R232): checked, with the issuing core's earlier
posted stores to the same owner performed (06_ordering.md R189). -/
def localOperand (s : State) (c : GVal) (x : Word64) (n : Nat) (need : BitVec 12) (align : Nat) : Res (Owner × State) :=
  (access s .s c x n need align .local_).bind fun t =>
    let s1 := match t.1 with | .bytes l => settleFor t.2 s.rank x l | _ => t.2
    match ownerOf t.1 with
    | some o => .ok (o, s1)
    | none => .trap (trapS 0x07 x) t.2

/-- A word that waits at its owner's interface (07_sync.md R221): it takes a place in the order of arrival, and a
request of another core that finds 64 waiting is sent again after 64 cycles. -/
def waitAt (s : State) (owner off : Nat) (op : WaitOp) (deadline : Option Nat) : State :=
  let q : WaitReq :=
    { src := s.rank, frame := none, op := op, off := off
      deadline := match op with | .bartwait _ _ => deadline | _ => none }
  let s1 := s.modMe fun c => { c with blocked := some { op := op, since := s.cycle, deadline := deadline } }
  let others := (s.coreAt owner).waitq.countP fun w => w.src != owner && w.op != .putw
  if owner ≠ s.rank ∧ op ≠ .putw ∧ 64 ≤ others then
    s1.modMe fun c => { c with resend := c.resend ++ [.wait owner q] }
  else s1.modCore owner fun c => { c with waitq := c.waitq ++ [q] }

/-- An operation on another package leaves this one. -/
def sendSync (s : State) (op : Nat) (x : Word64) (v : Nat) : State := s.requestTo x (.sync op x v)

/-- What another package answers to an operation, as the free bytes of a load (log entry 10). -/
def askSync (s : State) (op : Nat) (x : Word64) (v n : Nat) : Res (Nat × State) :=
  (remoteLoad (sendSync s op x v) x n).bind fun q => .ok (q.1, q.2.2)

/-! Presence words. -/

/-- The 16 bytes at an offset of a core, as plain data. -/
def unitAt (s : State) (r off : Nat) : GVal := { bits := BitVec.ofNat 128 (s.mem.readNat (localKey r off) 16), tag := false }

/-- A granule is emptied, and what waits for that is served (07_sync.md R219). -/
def emptyGranule (s : State) (r gr : Nat) : State := markGranule s r gr false

/-- The operand address of a presence word. -/
def presAddr (s : State) (a : GIdx) (off : BitVec 11) : GVal × Word64 :=
  let c := s.me.base a
  (c, c.word + off.signExtend 64)

/-- TAKE and PEEK (07_sync.md R220), acquires (06_ordering.md R208). -/
def takeOrPeek (s : State) (d a : GIdx) (off : BitVec 11) (take : Bool) : Res State :=
  let (c, x) := presAddr s a off
  (localOperand s c x 16 (if take then permLoad ||| permAtomic else permLoad) 16).bind fun t =>
    withAcquire t.2 fun u =>
    match t.1 with
    | .away _ _ _ =>
      (askSync u (if take then 0x40 else 0x41) x 0 16).bind fun q =>
        .ok (q.2.modMe fun m => (m.wg d (loadVal 16 q.1 false)).nextSafe)
    | .here r o =>
      if (u.coreAt r).full (o / 64) then
        if u.poisoned (localKey r o) 16 then .trap (trapS 0x0D x) u
        else
          let v := unitAt u r o
          let s1 := u.modMe fun m => (m.wg d v).nextSafe
          .ok (if take then emptyGranule s1 r (o / 64) else s1)
      else .ok (waitAt u r o (if take then .take d else .peek d) none)

/-- TAKE (07_sync.md R220). -/
def execTake (d a : GIdx) (off : BitVec 11) (s : State) : Host.Outcome State Fault Refusal :=
  settle s (takeOrPeek s d a off true)
/-- PEEK (07_sync.md R220). -/
def execPeek (d a : GIdx) (off : BitVec 11) (s : State) : Host.Outcome State Fault Refusal :=
  settle s (takeOrPeek s d a off false)

/-- The registers of TRYTAKE: the data to g(gd + 1), then the status to gd (07_sync.md R220). -/
def Core.tryTaken (c : Core) (d : GIdx) (v : Option GVal) : Core :=
  match v with
  | some x => ((c.wg (d + 1#6) x).wg d (GVal.ofNat 1)).next
  | none => (c.wg d (GVal.ofNat 0)).next

/-- TRYTAKE (07_sync.md R220). -/
def execTrytake (d a : GIdx) (off : BitVec 11) (s : State) : Host.Outcome State Fault Refusal :=
  let (c, x) := presAddr s a off
  settle s ((localOperand s c x 16 (permLoad ||| permAtomic) 16).bind fun t =>
    match t.1 with
    | .away _ _ _ =>
      (askSync t.2 0x42 x 0 17).bind fun q =>
        .ok (q.2.modMe fun m => m.tryTaken d (if q.1 / 2 ^ 128 % 2 = 1 then some (loadVal 16 q.1 false) else none))
    | .here r o =>
      if (t.2.coreAt r).full (o / 64) then
        if t.2.poisoned (localKey r o) 16 then .trap (trapS 0x0D x) t.2
        else
          withAcquire t.2 fun u => .ok (emptyGranule (u.modMe fun m => m.tryTaken d (some (unitAt u r o))) r (o / 64))
      else .ok (t.2.modMe fun m => m.tryTaken d none))

/-- The tagged arrival of PUTF or PUTW at an offset of a core (07_sync.md R215). -/
def putArrival (s : State) (k : ArrivalKind) (r o : Nat) (v : GVal) : Arrival :=
  { dst := BitVec.ofNat 12 r, off := BitVec.ofNat 19 o, bytes := leBytes 16 v.bits.toNat, kind := k,
    srcPkg := s.me.ctl.pkg.setWidth 32, srcCore := BitVec.ofNat 16 s.rank, entry := 0#14 }

/-- A tagged arrival sets out: over the network to another core while accesses wait, else at once. -/
def sendArrival (s : State) (a : Arrival) : State :=
  if s.lazy = true ∧ a.dst.toNat ≠ s.rank then
    s.sendNet s.rank a.dst.toNat (.taggedArrival a)
  else arrive s a

/-- PUTF (07_sync.md R220): the tag that it sets is a release (06_ordering.md R208). -/
def execPutf (d a : GIdx) (off : BitVec 11) (s : State) : Host.Outcome State Fault Refusal :=
  let (c, x) := presAddr s a off
  settle s ((localOperand s c x 16 (permStore ||| permAtomic) 16).bind fun t =>
    afterRelease t.2 .sys fun u =>
      match t.1 with
      | .away p co o =>
        let r : Arrival := { putArrival u .putf co.toNat o.toNat (u.me.rg d) with dst := co }
        .ok ((u.request p co (.tagged r)).modMe Core.next)
      | .here r o =>
        .ok ((sendArrival u { putArrival u .putf r o (u.me.rg d) with byAlias := region x == 0xD }).modMe Core.next))

/-- PUTW (07_sync.md R220, R223): the walker waits for its arrival to be applied. -/
def execPutw (d a : GIdx) (off : BitVec 11) (s : State) : Host.Outcome State Fault Refusal :=
  let (c, x) := presAddr s a off
  settle s ((localOperand s c x 16 (permStore ||| permAtomic) 16).bind fun t =>
    afterRelease t.2 .sys fun u =>
      match t.1 with
      | .away p co o =>
        let r : Arrival := { putArrival u .putw co.toNat o.toNat (u.me.rg d) with dst := co }
        if Config.remoteOk u.fresh then
          .ok ({ (u.request p co (.tagged r)) with fresh := u.fresh + 1 }.modMe Core.nextSafe)
        else .trap (trapS 0x08 x) { u with fresh := u.fresh + 1 }
      | .here r o =>
        .ok (arrive (waitAt u r o .putw none) { putArrival u .putw r o (u.me.rg d) with byAlias := region x == 0xD }))

/-- EMPTY and FULL (07_sync.md R220). -/
def setTag (s : State) (a : GIdx) (off : BitVec 11) (b : Bool) : Res State :=
  let (c, x) := presAddr s a off
  (localOperand s c x 1 (permStore ||| permAtomic) 1).bind fun t =>
    match t.1 with
    | .away _ _ _ => .ok ((sendSync t.2 (if b then 0x46 else 0x45) x 0).modMe Core.next)
    | .here r o => .ok ((markGranule t.2 r (o / 64) b).modMe Core.next)

/-- EMPTY (07_sync.md R220). -/
def execEmpty (a : GIdx) (off : BitVec 11) (s : State) : Host.Outcome State Fault Refusal := settle s (setTag s a off false)
/-- FULL (07_sync.md R220). -/
def execFull (a : GIdx) (off : BitVec 11) (s : State) : Host.Outcome State Fault Refusal := settle s (setTag s a off true)

/-- PTEST (07_sync.md R220). -/
def execPtest (d a : GIdx) (off : BitVec 11) (s : State) : Host.Outcome State Fault Refusal :=
  let (c, x) := presAddr s a off
  settle s ((localOperand s c x 1 permLoad 1).bind fun t =>
    match t.1 with
    | .away _ _ _ => (askSync t.2 0x47 x 0 1).bind fun q => .ok (q.2.modMe fun m => (m.wg d (GVal.ofNat (q.1 % 2))).next)
    | .here r o => .ok (t.2.modMe fun m => (m.wg d (GVal.ofNat ((t.2.coreAt r).full (o / 64)).toNat)).next))

/-! Mailbox words. -/

/-- The counter that a mailbox word names (07_sync.md R227): its core and index, or another package. -/
def mailOperand (s : State) (a : GIdx) (need : BitVec 12) : Res (Option (Nat × BitVec 8) × State) :=
  let c := s.me.rg a
  let x := c.word
  (access s .s c x 4 need 1 .any).bind fun t =>
    if region x ≠ 0xE ∨ field x 49 3 ≠ 0 ∨ field x 10 9 ≠ 0 then .trap (trapS 0x07 x) t.2
    else if coordPkg x ≠ s.me.ctl.pkg then .ok (none, t.2)
    else .ok (some ((coordCore x).toNat, x.extractLsb' 2 8), flushTo t.2 s.rank (coordCore x).toNat)

/-- An increment sets out, as a release write or as a relaxed one (07_sync.md R227, 06_ordering.md R209). -/
def sendMail (s : State) (r : Nat) (i : BitVec 8) (n : BitVec 32) (rel : Bool) : State :=
  if s.lazy = true ∧ r ≠ s.rank then
    s.sendNet s.rank r (.mailboxIncrementArrive i n) rel
  else incMail s r i n

/-- The effect of MBINC on the counter that its operand names. -/
def mailIncrement (s : State) (a b : GIdx) (o : Option (Nat × BitVec 8)) (rel : Bool) : State :=
  let n : BitVec 32 := (s.me.rg b).word.setWidth 32
  let x := (s.me.rg a).word
  (match o with
    | some (r, i) => sendMail s r i n rel
    | none => s.requestTo x (.mail (x.extractLsb' 2 8) n)).modMe Core.next

/-- MBINC without .rel (07_sync.md R227). -/
def execMbinc (a b : GIdx) (s : State) : Host.Outcome State Fault Refusal :=
  settle s ((mailOperand s a (permStore ||| permAtomic)).bind fun t => .ok (mailIncrement t.2 a b t.1 false))

/-- MBINC.rel (07_sync.md R227): a release at its scope. -/
def execMbincRel (scope : Scope) (a b : GIdx) (s : State) : Host.Outcome State Fault Refusal :=
  settle s ((mailOperand s a (permStore ||| permAtomic)).bind fun t =>
    afterRelease t.2 scope fun u => .ok (mailIncrement u a b t.1 true))

/-- A counter that satisfies MBWAIT, by how far it has passed the target: up to 2^31 - 1 (07_sync.md R227). -/
def reachedBy (target : BitVec 32) (n : Nat) : BitVec 32 := target + BitVec.ofNat 32 (n % 2 ^ 31)

/-- MBWAIT (07_sync.md R227), an acquire at .sys. -/
def execMbwait (d a b : GIdx) (s : State) : Host.Outcome State Fault Refusal :=
  let target : BitVec 32 := (s.me.rg b).word.setWidth 32
  settle s ((mailOperand s a permLoad).bind fun t =>
    withAcquire t.2 fun u =>
    match t.1 with
    | some (r, i) =>
      let v := (u.coreAt r).rmail i
      if mailReached v target then .ok (u.modMe fun m => (m.wg d (GVal.ofNat v.toNat)).nextSafe)
      else .ok (waitAt u r i.toNat (.mbwait d target) none)
    | none =>
      (askSync u 0x49 (s.me.rg a).word target.toNat 4).bind fun q =>
        .ok (q.2.modMe fun m => (m.wg d (GVal.ofNat (reachedBy target q.1).toNat)).nextSafe))

/-- MBRD (07_sync.md R227). -/
def execMbrd (d a : GIdx) (s : State) : Host.Outcome State Fault Refusal :=
  settle s ((mailOperand s a permLoad).bind fun t =>
    match t.1 with
    | some (r, i) => .ok (t.2.modMe fun m => (m.wg d (GVal.ofNat ((t.2.coreAt r).rmail i).toNat)).next)
    | none =>
      (askSync t.2 0x4A (s.me.rg a).word 0 4).bind fun q => .ok (q.2.modMe fun m => (m.wg d (GVal.ofNat q.1)).next))

/-- MBSET (07_sync.md R227). -/
def execMbset (a b : GIdx) (s : State) : Host.Outcome State Fault Refusal :=
  let v : BitVec 32 := (s.me.rg b).word.setWidth 32
  settle s ((mailOperand s a permStore).bind fun t =>
    match t.1 with
    | some (r, i) => .ok ((setMail t.2 r i v).modMe Core.next)
    | none => .ok ((sendSync t.2 0x4B (s.me.rg a).word v.toNat).modMe Core.next))

/-! Barrier words. -/

/-- The object of a barrier word (07_sync.md R232). -/
def barOperand (s : State) (a : GIdx) (need : BitVec 12) : Res (Owner × State) :=
  let c := s.me.rg a
  localOperand s c c.word 64 need 64

/-- The permissions of a barrier word that changes its object. -/
abbrev permBar : BitVec 12 := permLoad ||| permStore ||| permAtomic

/-- A word goes on with the object that it reads; a poisoned byte of it is a machine check (01_machine.md R37). -/
def cleanBar (s : State) (r off : Nat) (x : Word64) (f : Bar → Res State) : Res State :=
  if barBad s r off then .trap (trapS 0x0D x) s else f (barLoad s.mem (localKey r off))

/-- BARINIT (07_sync.md R232). -/
def execBarinit (a b : GIdx) (s : State) : Host.Outcome State Fault Refusal :=
  let v := (s.me.rg b).word
  settle s ((barOperand s a permBar).bind fun t =>
    match t.1 with
    | .away _ _ _ => .ok ((sendSync t.2 0x4C (s.me.rg a).word v.toNat).modMe Core.next)
    | .here r o =>
      let b0 : Bar :=
        { gen := 0#32, retired := false, wrapped := false, expt := field v 0 32, arrt := 0, expb := field v 32 32, arrb := 0,
          wdrn := 0 }
      .ok ((barStore (t.2.store (localKey r o) (List.replicate 64 0#8)) r o b0.complete).modMe Core.next))

/-- Every valid join slot that names the object at an address takes an arrival generation (07_sync.md R232). -/
def Core.slotsArrive (c : Core) (addr : Nat) (g : BitVec 32) : Core :=
  let f (b : BitVec 128) : BitVec 128 :=
    if b.getLsbD 127 = true ∧ field b 0 56 = addr then setField b 64 32 g.toNat else b
  c.modCtl fun k => { k with barslot := k.barslot.map f }

/-- The coordinate address of an object, which a join slot holds (07_sync.md R233). -/
def slotAddr (s : State) (x : Word64) : Nat :=
  if region x = 0xD then (s.coordAddr s.rank (coordOff x)).toNat else field x 0 56

/-- BARARV (07_sync.md R232): a release at .sys. -/
def execBararv (d a : GIdx) (s : State) : Host.Outcome State Fault Refusal :=
  let x := (s.me.rg a).word
  settle s ((barOperand s a permBar).bind fun t =>
    afterRelease t.2 .sys fun u =>
      match t.1 with
      | .away _ _ _ =>
        (askSync u 0x4D x 0 4).bind fun q =>
          .ok (q.2.modMe fun m => ((m.slotsArrive (slotAddr u x) (BitVec.ofNat 32 q.1)).wg d (GVal.ofNat q.1)).next)
      | .here r o =>
        cleanBar u r o x fun b =>
          .ok (barUpdate (u.modMe fun m => ((m.slotsArrive (slotAddr u x) b.gen).wg d (GVal.ofNat b.gen.toNat)).next) r o Bar.arrive))

/-- BARWAIT (07_sync.md R232). -/
def execBarwait (a b : GIdx) (s : State) : Host.Outcome State Fault Refusal :=
  let g : BitVec 32 := (s.me.rg b).word.setWidth 32
  settle s ((barOperand s a permLoad).bind fun t =>
    withAcquire t.2 fun u =>
    match t.1 with
    | .away _ _ _ => (askSync u 0x4E (s.me.rg a).word g.toNat 1).bind fun q => .ok (q.2.modMe Core.nextSafe)
    | .here r o =>
      cleanBar u r o (s.me.rg a).word fun b => .ok (if b.gen ≠ g then u.modMe Core.nextSafe else waitAt u r o (.barwait g) none))

/-- BARTEST (07_sync.md R232). -/
def execBartest (d a : GIdx) (s : State) : Host.Outcome State Fault Refusal :=
  settle s ((barOperand s a permLoad).bind fun t =>
    match t.1 with
    | .away _ _ _ =>
      (askSync t.2 0x4F (s.me.rg a).word 0 4).bind fun q => .ok (q.2.modMe fun m => (m.wg d (GVal.ofNat q.1)).next)
    | .here r o =>
      cleanBar t.2 r o (s.me.rg a).word fun b => .ok (t.2.modMe fun m => (m.wg d (GVal.ofNat b.gen.toNat)).next))

/-- BARTWAIT (07_sync.md R232). -/
def execBartwait (d a b : GIdx) (s : State) : Host.Outcome State Fault Refusal :=
  let v := (s.me.rg b).word
  let g : BitVec 32 := v.setWidth 32
  let limit := field v 32 32
  settle s ((barOperand s a permLoad).bind fun t =>
    withAcquire t.2 fun u =>
    match t.1 with
    | .away _ _ _ =>
      (askSync u 0x50 (s.me.rg a).word v.toNat 1).bind fun q =>
        .ok (q.2.modMe fun m => (m.wg d (GVal.ofNat (q.1 % 2))).nextSafe)
    | .here r o =>
      cleanBar u r o (s.me.rg a).word fun b =>
        if b.gen ≠ g then .ok (u.modMe fun m => (m.wg d (GVal.ofNat 1)).nextSafe)
        else if limit = 0 then .ok (u.modMe fun m => (m.wg d (GVal.ofNat 0)).nextSafe)
        else .ok (waitAt u r o (.bartwait d g) (some (s.cycle + limit))))

/-- A join slot names an object, with ARRGEN one before its generation (07_sync.md R232, R233). -/
def slotValue (addr : Nat) (gen : BitVec 32) : BitVec 128 :=
  BitVec.ofNat 128 (2 ^ 127 + (gen - 1#32).toNat * 2 ^ 64 + addr)

/-- BARJOIN (07_sync.md R231, R232): the withdrawal of a valid slot is a release at .sys. -/
def execBarjoin (a : GIdx) (slot : BitVec 2) (s : State) : Host.Outcome State Fault Refusal :=
  let x := (s.me.rg a).word
  let join (u : State) (o : Owner) : Res State :=
    let u1 := withdrawSlot u u.rank slot
    match o with
    | .away _ _ _ =>
      (askSync u1 0x51 x 0 4).bind fun q =>
        .ok (q.2.modMe fun m => (m.wslot slot (slotValue (slotAddr u x) (BitVec.ofNat 32 q.1))).next)
    | .here r o =>
      cleanBar u1 r o x fun b =>
        .ok (barUpdate (u1.modMe fun m => (m.wslot slot (slotValue (slotAddr u x) b.gen)).next) r o
          fun b => { b with expt := (b.expt + 1) % 2 ^ 32 })
  settle s ((barOperand s a permBar).bind fun t =>
    if (s.me.rslot slot).getLsbD 127 then afterRelease t.2 .sys fun u => join u t.1 else join t.2 t.1)

/-- BAREXIT (07_sync.md R231, R232). -/
def execBarexit (s : State) : Host.Outcome State Fault Refusal :=
  settle s (afterRelease s .sys fun t => .ok ((withdrawAll t t.rank).modMe Core.next))

/-! Monitors. -/

/-- MONARM (07_sync.md R234). -/
def execMonarm (a : GIdx) (off : BitVec 11) (s : State) : Host.Outcome State Fault Refusal :=
  let (c, x) := presAddr s a off
  settle s ((access s .s c x 1 permLoad 1 .any).bind fun t =>
    match t.1 with
    | .bytes [k] =>
      if k.far s.rank = none then
        .ok (t.2.modMe fun m =>
          { (m.modCtl fun r => { r with monctl := BitVec.ofNat 64 (2 ^ 63 + field x 0 56) }).next with
            monLine := some (k.key / 64 * 64, 64) })
      else .trap (trapS 0x07 x) t.2
    | _ => .trap (trapS 0x07 x) t.2)

/-- MONWAIT returns a code and disarms the monitor (07_sync.md R235). -/
def Core.monReturn (c : Core) (d : GIdx) (code : Nat) : Core :=
  { ((c.wg d (GVal.ofNat code)).nextSafe.modCtl fun r => { r with monctl := setField r.monctl 63 1 0 }) with monLine := none }

/-- MONWAIT (07_sync.md R235). -/
def execMonwait (d a : GIdx) (s : State) : Host.Outcome State Fault Refusal :=
  let c := s.me
  let n := field (c.rg a).word 0 32
  .next (if c.ctl.monctl.getLsbD 63 = false then s.setMe (c.monReturn d 2)
    else if c.ctl.monctl.getLsbD 62 then s.setMe (c.monReturn d 1)
    else if n = 0 then s.setMe (c.monReturn d 0)
    else s.setMe { c with blocked := some { op := .monwait d, since := s.cycle, deadline := some (s.cycle + n) } })

end Sys2Proof.Machine
end

