-- ==== Sys2Proof/Machine/Tasks.lean ====
section
/-! DEFINITION. The task words: SPAWN, SPAWNR, CODLT, CDEC, AMSG, YIELD and EXIT (08_tasks.md R243, R253 to R260). -/

namespace Sys2Proof.Machine

/-! Records. -/

/-- The check of a record that software hands over (08_tasks.md R243). -/
def recordOk (s : State) (x : Record) : Bool :=
  x.flags >>> 4 == 0#16 && !x.msg && !x.resume &&
    (x.ctx == 0#16 || (match s.part? s.me.pid with | some p => ctxOf p x.ctx | none => false)) &&
    (x.done == 0#64 || (region x.done == 0xC && decide (x.done.toNat < 2 ^ 56) && field x.done 0 6 == 0))

/-- Whether a tagged value lacks the global permission, so that it may not leave its core (05_memory.md R153,
08_tasks.md R243). -/
def GVal.stays (v : GVal) : Bool := v.tag && !capHas v.bits permGlobal

/-- The record image that a word names in the core's own local memory, checked (08_tasks.md R243, R253). -/
def recordImage (s : State) (a : GIdx) : Res (Record × State) :=
  let c := s.me.rg a
  let x := c.word
  (access s .s c x 64 permLoad 64 .own).bind fun t =>
    match t.1 with
    | .bytes [k] =>
      let u := settleFor t.2 s.rank x [k]
      if u.poisoned k.key 64 then .trap (trapS 0x0D x) u
      else
        let r := recordAt u k.key
        if recordOk u r then .ok (r, u) else .trap (trapS 0x07 x) u
    | _ => .trap (trapS 0x07 x) t.2

/-- Whether a record may leave its core. -/
def Record.mayLeave (r : Record) : Bool := !(GVal.stays r.argA) && !(GVal.stays r.argB)

/-- A local push (08_tasks.md R247): it waits while the deque is full. -/
def pushHere (s : State) (r : Record) : State :=
  let c := s.me
  if dequeFull c = true ∨ c.push ≠ [] then waitAt s s.rank 0 (.push [r] false) none
  else (pushedTo (pushYoung s s.rank r) s.rank r).modMe Core.next

/-- SPAWN (08_tasks.md R253). -/
def execSpawn (a : GIdx) (s : State) : Host.Outcome State Fault Refusal :=
  settle s ((recordImage s a).bind fun t => afterRelease t.2 .pkg fun u => .ok (pushHere u t.1))

/-- The check of a destination rank: the core of this package, or another package (05_memory.md R155, 19_integration.md
R486). -/
def destination (s : State) (pkg : BitVec 18) (r : Nat) (x : Word64) : Res Unit :=
  if pkg = s.me.ctl.pkg then rankCheck s .s s.me.pid r x
  else if podOk pkg then .ok () else .trap (trapS 0x07 x) s

/-- SPAWNR (08_tasks.md R253). -/
def execSpawnr (a b : GIdx) (s : State) : Host.Outcome State Fault Refusal :=
  let d := (s.me.rg b).word
  let dst : Nat := field d 16 12
  let pkg : BitVec 18 := d.extractLsb' 28 18
  let here : Bool := pkg == s.me.ctl.pkg && dst == s.rank
  settle s ((recordImage s a).bind fun t =>
    if field d 46 18 ≠ 0 ∨ field d 0 16 ≠ 0 then .trap (trapS 0x07 0#64) t.2
    else if here = false ∧ Record.mayLeave t.1 = false then .trap (trapS 0x04 0#64) t.2
    else
      (destination t.2 pkg dst 0#64).bind fun _ =>
        afterRelease t.2 .pkg fun u =>
          if here then .ok (pushHere u t.1)
          else if pkg ≠ u.me.ctl.pkg then
            .ok ((u.request pkg (BitVec.ofNat 12 dst) (.push t.1)).modMe Core.next)
          else if u.lazy then
            .ok ((u.sendNet u.rank dst (.remotePushArrive u.rank t.1)).modMe Core.next)
          else .ok ((remotePush u u.rank dst t.1).modMe Core.next))

/-! Codelets. -/

/-- The slot of CODLT or CDEC (08_tasks.md R254, R255). -/
def slotOperand (s : State) (a : GIdx) : Res (Owner × State) :=
  let c := s.me.rg a
  localOperand s c c.word 64 (permStore ||| permAtomic) 64

/-- CODLT (08_tasks.md R254). -/
def execCodlt (a b : GIdx) (s : State) : Host.Outcome State Fault Refusal :=
  let x := (s.me.rg a).word
  settle s ((slotOperand s a).bind fun o =>
    (recordImage o.2 b).bind fun t =>
      if s.isOwn x = false ∧ Record.mayLeave t.1 = false then .trap (trapS 0x04 x) t.2
      else
        afterRelease t.2 .pkg fun u =>
          match o.1 with
          | .away p c f => .ok ((u.request p c (.codlt f t.1)).modMe Core.next)
          | .here r off =>
            if u.lazy = true ∧ r ≠ u.rank then
              .ok ((u.sendNet u.rank r (.codltApply (BitVec.ofNat 19 off) t.1)).modMe Core.next)
            else .ok ((applyCodlt u r off t.1).modMe Core.next))

/-- CDEC (08_tasks.md R255). -/
def execCdec (a b : GIdx) (s : State) : Host.Outcome State Fault Refusal :=
  let x := (s.me.rg a).word
  let d : BitVec 32 := (s.me.rg b).word.setWidth 32
  settle s ((slotOperand s a).bind fun o => afterRelease o.2 .pkg fun u => .ok ((sendCdec u u.rank x d).modMe Core.next))

/-! Active messages. -/

/-- The arguments g(ga + 1) to g(ga + n) of a message (08_tasks.md R259). -/
def amsgArgs (c : Core) (a : GIdx) (n : Nat) : List GVal :=
  (List.range n).map fun i => c.rg (a + BitVec.ofNat 6 (i + 1))

/-- The fields of a message's destination word (08_tasks.md R259). -/
def amsgOf (s : State) (n : Nat) (a b : GIdx) : AMsg :=
  let w := (s.me.rg b).word
  { entry := (s.me.rg a).word, ctx := w.setWidth 16, dst := w.extractLsb' 16 12, src := BitVec.ofNat 12 s.rank,
    pkg := s.me.ctl.pkg, pid := BitVec.ofNat 10 s.me.pid,
    seq := BitVec.ofNat 32 (field s.me.ctl.amsgst 64 32), args := amsgArgs s.me a n }

/-- AMSG (08_tasks.md R259). -/
def execAmsg (n : BitVec 3) (d a b : GIdx) (s : State) : Host.Outcome State Fault Refusal :=
  let m := amsgOf s n.toNat a b
  let w := (s.me.rg b).word
  let pkg : BitVec 18 := w.extractLsb' 28 18
  let here : Bool := pkg == s.me.ctl.pkg && m.dst.toNat == s.rank
  settle s (match capCheck s.me.codecap m.entry 4 permExecute with
    | some cause => .trap (trapS cause m.entry) s
    | none =>
      if field w 46 18 ≠ 0 then .trap (trapS 0x07 0#64) s
      else if here = false ∧ m.args.any GVal.stays = true then .trap (trapS 0x04 0#64) s
      else
        (destination s pkg m.dst.toNat 0#64).bind fun _ =>
          afterRelease s .sys fun u =>
            let u1 := u.modMe fun c =>
              ((c.modCtl fun k => { k with amsgst := setField k.amsgst 64 32 (m.seq.toNat + 1) }).wg d
                (GVal.ofNat m.seq.toNat)).next
            if pkg ≠ u.me.ctl.pkg then .ok (u1.request pkg m.dst (.amsg m))
            else if u1.lazy then .ok (u1.sendNet u1.rank m.dst.toNat (.amsgArrive m))
            else .ok (arriveMsg u1 m))

/-! Ending and yielding. -/

/-- Whether YIELD parks its task (08_tasks.md R257): there is other work and a free frame. A gang stays together (log
entry 24). -/
def yieldParks (s : State) : Bool :=
  let c := s.me
  (!dequeEmpty c || c.parkPending) && poolFree s c.pid && (match c.group with | .gangLead _ => false | .member _ _ => false | _ => true)

/-- The park of YIELD: the core starts its next record, and the task's resume record goes to the old end of the deque
(08_tasks.md R257). -/
def yieldPark (s : State) : State :=
  match parkTask s s.rank 2 liveAll with
  | none => s
  | some (fa, t) =>
    pushOld (startNext t s.rank) s.rank { Record.zero with entry := BitVec.ofNat 64 fa, flags := 0x0005#16 }

/-- YIELD (08_tasks.md R257, 04_scalar.md R127). One that goes on has no other effect: SPDIST.COUNT stands. -/
def execYield (s : State) : Host.Outcome State Fault Refusal :=
  let c := s.me
  settle s (if gangDue s c then (if s.gangMaxx s.rank then .hold .engines s else .ok (gangSwitch (s.modMe Core.clearDist) s.rank))
    else
      let s1 := if c.composed ∧ (composedDue c ∨ yieldParks s) then endComposed s s.rank 2 else s
      let slice := s1.me.group == .single && s1.me.slice
      if (slice = true ∨ yieldParks s1) ∧ (s1.me.quiet = false ∨ s1.landed s.rank = false) then .hold .engines s1
      else
        let s2 := s1.modMe fun c => c.clearDist.next
        if slice then .ok ((syncAll s2).modMe fun c => c.stopForSwap liveAll)
        else if yieldParks s1 then .ok (yieldPark (syncAll s2))
        else .ok (s1.modMe Core.next))

/-- The join slots of a frame's task stand in its core again, for the withdrawals of its end (15_system.md R443). -/
def Core.frameSlots (c : Core) (s : State) (k : Nat) : Core :=
  c.modCtl fun r => { r with barslot := Vector.ofFn fun i => BitVec.ofNat 128 (s.mem.readNat (k + 0xA0 + 16 * i.val) 16) }

/-- The check of the slot that DONE names, before EXIT does anything (08_tasks.md R255, R256; 05_memory.md R155; log entry
81). -/
def exitDest (s : State) : Res Unit :=
  let x := (s.me.task.map (·.done)).getD 0#64
  if x = 0#64 then .ok () else destination s (coordPkg x) (coordCore x).toNat x

/-- EXIT (08_tasks.md R256, 09_compose.md R278, R284; at partition level 15_system.md R443). A gang's follower stands at the
EXIT by which its leader ends the gang. -/
def execExit (s : State) : Host.Outcome State Fault Refusal :=
  let c := s.me
  let r := s.rank
  settle s (if c.depth = 2 then .trap (trapS 0x07 0#64) s
    else if releaseReady s .sys = false ∨ s.gangMaxx r = true ∨ c.isMember = true then .hold .engines s
    else (exitDest s).bind fun _ =>
      let s1 := (perform s .sys).modMe Core.landLatches
      let s2 := endGang (endComposed s1 r 6) r 6 0 0 0
      if c.depth = 1 then
        let k := localKey r (field c.ctl.framebase 14 5 * 16384)
        .ok (finishTask (s2.modCore r fun c => c.frameSlots s2 k) r)
      else .ok (finishTask s2 r))

end Sys2Proof.Machine
end

