-- ==== Sys2Proof/Machine/Groups.lean ====
section
/-! DEFINITION. COMPOSE, SPLIT, GANG and DISBAND (09_compose.md R270 to R289). -/

namespace Sys2Proof.Machine

/-- The rows and columns of a group of 2^k cores (09_compose.md R270). -/
def groupShape (k : Nat) (tall : Bool) : Nat × Nat :=
  match k with
  | 1 => if tall then (2, 1) else (1, 2)
  | 2 => (2, 2)
  | 3 => if tall then (4, 2) else (2, 4)
  | _ => (4, 4)

/-- The core of a cluster at a row and column, in the cluster of rank r (09_compose.md R270). -/
def clusterCore (r row col : Nat) : Nat :=
  (setField (setField (BitVec.ofNat 12 r) 5 2 row) 0 2 col).toNat

/-- The ranks of a group's rectangle by member index, with the index of each (09_compose.md R270). -/
def groupRect (r : Nat) (shape : Nat × Nat) : List (Nat × Nat) :=
  let x := BitVec.ofNat 12 r
  let row0 := field x 5 2 / shape.1 * shape.1
  let col0 := field x 0 2 / shape.2 * shape.2
  (List.range (shape.1 * shape.2)).map fun j => (clusterCore r (row0 + j / shape.2) (col0 + j % shape.2), j)

/-- GRPSTAT of a member of a group that forms (09_compose.md R286, R288); the fields of the last end stay. -/
def formStat (g : BitVec 64) (gang : Bool) (k : Nat) (tall : Bool) (idx : Nat) : BitVec 64 :=
  setField (setField g 20 12 0) 22 10
    (idx + tall.toNat * 2 ^ 4 + k * 2 ^ 5 + (if gang then 2 ^ 9 else 2 ^ 8))

/-- A core grants a reservation (09_compose.md R271). -/
def Core.grants (c : Core) : Bool := c.idle && !c.reserved

/-- A follower with the copies that GANG gives it (09_compose.md R281). It takes no loop of NEST.s that the leader runs; it
replays nothing, and follows the leader's words as they are sent (DESIGN CHOICE, log entry 101). -/
def Core.follow (c lead : Core) (leader idx k : Nat) : Core :=
  let x : Record := { Record.zero with ctx := lead.ctx }
  let c1 := { c.clearTask with g := lead.g, codecap := lead.codecap, task := some x, group := .member leader true, reserved := true }
  ({ c1 with posS := lead.posS }.alignWalkers lead.pc).modCtl fun r =>
    { r with slipw := lead.ctl.slipw, arflg := lead.ctl.arflg, cwwin := lead.ctl.cwwin, rngkey := lead.ctl.rngkey
             rngctr := lead.ctl.rngctr + BitVec.ofNat 128 (idx * 2 ^ 64), grpstat := formStat 0#64 true k false idx }

/-- A member of a composed group, whose own state does not run (09_compose.md R272, R273). -/
def Core.joinComposed (c : Core) (leader idx k : Nat) (tall : Bool) : Core :=
  { (c.modCtl fun r => { r with grpstat := formStat 0#64 false k tall idx }) with group := .member leader false, reserved := true }

/-- COMPOSE and GANG (09_compose.md R288): 2^k cores. The banks of a composed group's registers are the leader's
registers, which no program can tell from R275's. -/
def formGroup (s : State) (gang : Bool) (k : Nat) (tall : Bool) (d : GIdx) : Res State :=
  let c := s.me
  let r := s.rank
  if field c.ctl.grpstat 30 2 ≠ 0 then .ok (s.modMe fun c => (c.wg d (GVal.ofNat 2)).next)
  else if c.quiet = false then .hold .engines s
  else
    let s1 := (drainS s r).modMe Core.landLatches
    let rect := groupRect r (groupShape k tall)
    let others := rect.filter fun m => m.1 != r
    let idx := ((rect.find? fun m => m.1 == r).map (·.2)).getD 0
    if others.all fun m => (s1.coreAt m.1).grants then
      let ranks := others.map (·.1)
      let s2 := s1.modMe fun c =>
        let c1 := ((c.modCtl fun q => { q with grpstat := formStat q.grpstat gang k tall idx }).wg d (GVal.ofNat 0)).next
        { (if gang then c1 else { c1.alignWalkers c1.pc with nestS := c1.nestS }) with
          group := if gang then .gangLead ranks else .composeLead ranks, reserved := true, groupEnd := false, lastOut := none }
      let lead := s2.coreAt r
      .ok (others.foldl (fun t m =>
        t.modCore m.1 fun q => if gang then q.follow lead r m.2 k else q.joinComposed r m.2 k tall) s2)
    else .ok (s1.modMe fun c => (c.wg d (GVal.ofNat 1)).next)

/-- COMPOSE (09_compose.md R288). -/
def execCompose (tall : Bool) (size : BitVec 2) (d : GIdx) (s : State) : Host.Outcome State Fault Refusal :=
  settle s (formGroup s false (size.toNat + 1) tall d)

/-- GANG (09_compose.md R288). -/
def execGang (size : BitVec 2) (d : GIdx) (s : State) : Host.Outcome State Fault Refusal :=
  settle s (formGroup s true (size.toNat + 1) false d)

/-- SPLIT (09_compose.md R289). -/
def execSplit (s : State) : Host.Outcome State Fault Refusal := .next ((endComposed s s.rank 1).modMe Core.next)

/-- The accesses and result latches of every member complete (09_compose.md R289). -/
def settleMembers (s : State) (ms : List Nat) : State :=
  ms.foldl (fun t r => (drainS t r).modCore r Core.landLatches) s

/-- DISBAND (09_compose.md R289): the gang ends after every member has completed its earlier words, while the followers stand at
their DISBAND. -/
def execDisband (s : State) : Host.Outcome State Fault Refusal :=
  let c := s.me
  settle s (match c.group with
    | .gangLead ms =>
      if c.quiet ∧ ms.all (fun r => (s.coreAt r).quiet) then
        .ok ((endGang (settleMembers s (s.rank :: ms)) s.rank 1 0 0 0).modMe Core.next)
      else .hold .engines s
    | .member _ true => .hold .engines s
    | _ => .ok (s.modMe Core.next))

end Sys2Proof.Machine
end

