-- ==== Sys2Proof/Machine/Futures.lean ====
section
/-! DEFINITION. The future engine: calls, the events of resolution, and the words that use it (14_futures.md R404 to R418,
R424). -/

namespace Sys2Proof.Machine

/-! Contexts. -/

/-- ctxcheck of 13_kv.md R385: the partition and the place of the context's entry, where the check passes, and the state that
the hub's walk leaves (05_memory.md R499). -/
def ctxCheck (s : State) (ctx : BitVec 16) : Option (Part × Nat) × State :=
  match s.part? s.me.pid with
  | none => (none, s)
  | some p =>
    if ctx = 0#16 ∨ ctxOf p ctx = false ∨ (s.me.atTask = true ∧ ctx ≠ s.me.ctx) then (none, s)
    else
      match ctxEntry s p ctx .load with
      | (none, t) => (none, t)
      | (some k, t) =>
        let st := (ctxQueue t k).state
        (if st = 1 ∨ st = 2 then some (p, k) else none, t)

/-! Calls. -/

/-- A call descriptor (14_futures.md R406). -/
structure CallDesc where
  tool     : BitVec 16
  flags    : Nat
  wincnt   : Nat
  replywin : Nat
  timeout  : Nat
  wins     : List Nat
  cont     : BitVec 32
  rhost    : BitVec 64
  spare    : Nat
  deriving DecidableEq, Repr

/-- The descriptor in the 64 bytes at a key. -/
def callDesc (m : Mem) (k : Nat) : CallDesc :=
  { tool := BitVec.ofNat 16 (m.readNat k 2), flags := m.readNat (k + 2) 1, wincnt := m.readNat (k + 3) 1,
    replywin := m.readNat (k + 4) 1, timeout := m.readNat (k + 8) 8,
    wins := (List.range 16).map fun i => m.readNat (k + 16 + 2 * i) 2, cont := BitVec.ofNat 32 (m.readNat (k + 48) 4),
    rhost := BitVec.ofNat 64 (m.readNat (k + 56) 8), spare := m.readNat (k + 5) 3 + m.readNat (k + 52) 4 }

/-- REMOTE of a descriptor. -/
def CallDesc.remote (d : CallDesc) : Bool := d.flags % 2 == 1

/-- INJECT of a descriptor. -/
def CallDesc.inject (d : CallDesc) : Bool := d.flags / 2 % 2 == 1

/-- The limits of R406, with the indices below 2^CAPLOG (14_futures.md R406, R407); a zero RHOST of a remote call is
status 5 instead. -/
def CallDesc.ok (d : CallDesc) (caplog : Nat) : Bool :=
  decide (d.flags < 4) && decide (d.wincnt ≤ 16) && decide (d.replywin < max 1 d.wincnt) && d.spare == 0 &&
    ((d.wins.take d.wincnt).all fun w => decide (w < 2 ^ caplog)) && ((d.wins.drop d.wincnt).all fun w => w == 0) &&
    (d.cont &&& 0x7FF8_003F#32 == 0#32) && (d.remote || d.rhost == 0#64) && !(d.wincnt == 0 && d.inject)

/-- The tagged unit at an address of the capability table (14_futures.md R404, R407); none where it cannot be read. -/
def tableUnit (s : State) (p : Part) (a : Word64) : Option GVal × State :=
  if region a = 0x0 then
    match hubChunks s p.ptroot a.toNat 16 .load with
    | (some [c], t) => (if t.poisoned c.key 16 then none else some (t.loadUnit c.key), t)
    | (_, t) => (none, t)
  else if region a = 0xC ∧ coordPkg a = s.me.ctl.pkg ∧ field a 49 3 = 0 ∧ s.hubCore p.pid (coordCore a).toNat = true then
    let k := localKey (coordCore a).toNat (coordOff a)
    (if s.poisoned k 16 then none else some (s.loadUnit k), s)
  else (none, s)

/-- Whether chunks are physically consecutive. -/
def consecutive : List Chunk → Bool
  | a :: b :: t => a.key + a.len == b.key && consecutive (b :: t)
  | _ => true

/-- The kind of access with which a window's pages are walked: the first that its capability grants. -/
def winKind (p : BitVec 12) : AccessKind :=
  if p &&& permLoad = permLoad then .load else if p &&& permStore = permStore then .store
  else if p &&& permExecute = permExecute then .fetch else .load

/-- A window of a call and whether it is accepted (14_futures.md R407). -/
def callWindow (s : State) (p : Part) (captab : Word64) (w : Nat) : CallWin × Bool × State :=
  let no : CallWin := { base := 0, len := 0, rd := false, wr := false, ex := false }
  match tableUnit s p (captab + BitVec.ofNat 64 (16 * w)) with
  | (none, t) => (no, false, t)
  | (some c, t) =>
    let b := capBounds c.bits
    let len := (b.2 - b.1).toNat
    let perm := capPerms c.bits
    let r : CallWin :=
      { base := 0, len := len, rd := perm.getLsbD 0, wr := perm.getLsbD 1, ex := perm.getLsbD 2 }
    if c.tag = false ∨ capHas c.bits permTool = false ∨ region c.word ≠ 0 ∨ b.1 < 0 then (r, false, t)
    else
      match hubChunks t p.ptroot b.1.toNat len (winKind perm) with
      | (none, u) => (r, false, u)
      | (some l, u) => ({ r with base := (l.head?.map (·.key)).getD 0 }, consecutive l, u)

/-- The windows of a call, in order, and whether every one is accepted. -/
def callWindows (s : State) (p : Part) (captab : Word64) : List Nat → List CallWin × Bool × State
  | [] => ([], true, s)
  | w :: ws =>
    let a := callWindow s p captab w
    let r := callWindows a.2.2 p captab ws
    (a.1 :: r.1, a.2.1 && r.2.1, r.2.2)

/-- The lowest free entry (14_futures.md R407), if one of the 16,384 is free. -/
def freeEntry (s : State) : Option Nat := (List.range 16384).find? fun i => (s.futAt i).state == 0#3

/-- The entries that a test selects among those allocated. -/
def allocated (s : State) (f : Fut → Bool) : Nat := s.futs.countP fun e => e.2.state != 0#3 && f e.2

/-- The slot that the engine fills next in a ring: the first free one from its place on, wrapping (14_futures.md
R408). -/
def ringSlot (t : ToolRing) : Option Nat :=
  ((List.range (2 ^ t.log)).map fun i => (t.next + i) % 2 ^ t.log).find? fun i => !(t.used.any fun u => u.1 == i)

/-- The slot of a call in ring rid of a partition; none where the ring is invalid, another's or full. -/
def callSlot (s : State) (pid rid : Nat) : Option Nat :=
  let t := s.ringAt rid
  if 64 ≤ rid ∨ t.valid = false ∨ t.pid ≠ pid ∨ 10 < t.log then none else ringSlot t

/-- The 64 bytes of a call record (14_futures.md R408). -/
def callRecord (i : Nat) (f : Fut) : List Byte :=
  leBytes 4 (futHandle i f) ++ leBytes 2 f.ctx.toNat ++ leBytes 2 f.tool.toNat ++ leBytes 8 f.auth.toNat ++
    leBytes 8 f.deadline.toNat ++ leBytes 1 f.wins.length ++ leBytes 1 f.replywin.toNat ++ leBytes 2 f.pid ++ leBytes 36 0

/-- The entry of a call that is accepted (14_futures.md R407). -/
def callEntry (s : State) (pid : Nat) (ctx : BitVec 16) (home : BitVec 12) (d : CallDesc) (wins : List CallWin)
    (rid slot : Nat) (gen : BitVec 18) (cont : Option Record) : Fut :=
  { Fut.reset with
    state := 1#3, remote := d.remote, inject := d.inject, wins := wins, gen := gen, ctx := ctx, home := home, pid := pid
    tool := d.tool, deadline := if d.timeout = 0 then 0#64 else BitVec.ofNat 64 (s.now + d.timeout)
    replywin := BitVec.ofNat 4 d.replywin, ring := BitVec.ofNat 16 rid, slot := slot, auth := Config.auth s.fresh
    order := s.futOrder, cont := cont }

/-- The status of a call before the engine's own tests: 4 a window refused, 5 a remote call refused (14_futures.md
R407). -/
def callStatus (d : CallDesc) (wins : List CallWin) (ok : Bool) : Nat :=
  if d.remote = true ∧ (d.rhost = 0#64 ∨ (0 < d.wincnt ∧ 8192 < ((wins.head?).map (·.len)).getD 0)) then 5
  else if ok then 0 else 4

/-- The call is written to its ring, or sent (14_futures.md R408, R417). -/
def placeCall (s : State) (i : Nat) (f : Fut) (rid slot : Nat) (d : CallDesc) : State :=
  if d.remote then
    let w : List Byte := match f.wins with | [] => [] | w :: _ => s.mem.read w.base w.len
    { s with outbox := s.outbox ++ [.call d.rhost (callRecord i f) w] }
  else
    let t := s.ringAt rid
    let u : ToolRing := { t with used := t.used ++ [(slot, i)], next := (slot + 1) % 2 ^ t.log }
    { s.store (t.base + 64 * slot) (callRecord i f) with rings := Table.set s.rings rid u }

/-- The engine's step of FCALL (14_futures.md R407): the status and the handle. -/
def engineCall (s : State) (p : Part) (ctx : BitVec 16) (key : Nat) (d : CallDesc) (wins : List CallWin) (status : Nat)
    (cont : Option Record) : Nat × Nat × State :=
  let rid := s.mem.readNat (key + 57) 1
  let futq := s.mem.readNat (key + 58) 2
  if status ≠ 0 then (status, 0, s)
  else if futq ≤ allocated s (fun f => f.ctx == ctx && f.pid == p.pid) ∨ p.futQuota ≤ allocated s (fun f => f.pid == p.pid) then
    (1, 0, s)
  else
    match freeEntry s with
    | none => (2, 0, s)
    | some i =>
      match (if d.remote then some 0 else callSlot s p.pid rid) with
      | none => (3, 0, s)
      | some slot =>
        let home := BitVec.ofNat 12 (s.mem.readNat (key + 2) 2)
        let f := callEntry s p.pid ctx home d wins rid slot (s.futAt i).gen cont
        let s1 : State := { s.setFut i f with fresh := s.fresh + 1, futOrder := s.futOrder + 1 }
        (0, futHandle i f, placeCall s1 i f rid slot d)

/-- The continuation's image, read and checked (14_futures.md R407); a machine check comes after every check (15_system.md
R427). -/
def contImage (s : State) (d : CallDesc) (home : Nat) (x : Word64) : Res (Option Record) :=
  if d.cont.getLsbD 31 = false then .ok none
  else
    let k := localKey s.rank (field d.cont 6 13 * 64)
    let r := recordAt s k
    if recordOk s r = false then .trap (trapS 0x07 x) s
    else if home ≠ s.rank ∧ Record.mayLeave r = false then .trap (trapS 0x04 x) s
    else if r.bad then .trap (trapS 0x0D x) s
    else .ok (some r)

/-- The chunk of n bytes at an own local offset. -/
def ownChunk (r off n : Nat) : Chunk := { key := localKey r off, len := n, host := false, hostOwn := false }

/-- FCALL (14_futures.md R407): it orders nothing, and reads its descriptor and the image after the core's own earlier stores to
their bytes (R409, 06_ordering.md R185). -/
def execFcall (d a b : GIdx) (s : State) : Host.Outcome State Fault Refusal :=
  let c := s.me.rg a
  let x := c.word
  let y := (s.me.rg b).word
  let ctx : BitVec 16 := y.setWidth 16
  settle s (if capCheck c x 64 (permLoad ||| regionPerms s x) = none ∧ field y 16 48 ≠ 0 then .trap (trapS 0x07 x) s
    else
      (access s .s c x 64 permLoad 64 .own).bind fun t =>
        match t.1 with
        | .bytes [k] =>
          match ctxCheck (settleFor t.2 s.rank x [k]) ctx with
          | (none, u) => .trap (trapS 0x07 0#64) u
          | (some (p, key), u0) =>
            let desc := callDesc u0.mem k.key
            let u := if desc.cont.getLsbD 31 then settleFor u0 s.rank x [ownChunk s.rank (field desc.cont 6 13 * 64) 64] else u0
            if desc.ok (u.mem.readNat (key + 56) 1) = false then .trap (trapS 0x07 x) u
            else
              (contImage u desc (u.mem.readNat (key + 2) 2 % 4096) x).bind fun cont =>
                if u.poisoned k.key 64 then .trap (trapS 0x0D x) u
                else
                  let captab := BitVec.ofNat 64 (u.mem.readNat (key + 48) 8)
                  let w := callWindows u p captab (desc.wins.take desc.wincnt)
                  let e := engineCall w.2.2 p ctx key desc w.1 (callStatus desc w.1 w.2.1) cont
                  .ok (e.2.2.modMe fun m => (m.wg d (GVal.ofNat (e.2.1 + e.1 * 2 ^ 32))).next)
        | _ => .trap (trapS 0x07 x) t.2)

/-! Resolution. -/

/-- INJECT_GRANULE (14_futures.md R411). -/
def execInjectGranule (s : State) : Host.Outcome State Fault Refusal :=
  .next (match nextInject s with | some j => sendGranule s j | none => s)

/-- FUTURE_TIMEOUT (14_futures.md R412). -/
def execFutureTimeout (entry : BitVec 14) (s : State) : Host.Outcome State Fault Refusal :=
  let f := s.futAt entry.toNat
  .next (if f.state = 1#3 ∧ f.deadline ≠ 0#64 ∧ f.deadline.toNat ≤ s.now then leaveFut s entry.toNat 3 0 0 else s)

/-! The waiting words. -/

/-- The entry that a handle names for a core: none where it is stale, or at task level of another context
(14_futures.md R401, R415). -/
def liveFut (s : State) (handle : Nat) (any : Bool) : Option (Nat × Fut) :=
  let i := handle % 2 ^ 14
  let f := s.futAt i
  if f.state = 0#3 ∨ f.gen.toNat ≠ handle / 2 ^ 14 ∨ f.pid ≠ s.me.pid then none
  else if any = false ∧ s.me.atTask = true ∧ f.ctx ≠ s.me.ctx then none
  else some (i, f)

/-- A waiting word's operand: its high bits must be zero (14_futures.md R415); the engine answers after the steps of a
resolution under way (R413). -/
def onFuture (s : State) (a : GIdx) (g : Option (Nat × Fut) → Res State) : Res State :=
  let h := (s.me.rg a).word
  if field h 32 32 ≠ 0 then .trap (trapS 0x07 0#64) s
  else
    match liveFut s h.toNat false with
    | some (i, f) => if injecting s i then .hold .engines s else g (some (i, f))
    | none => g none

/-- A final future is observed: its value is written and its entry freed (14_futures.md R403, R415). -/
def observe (s : State) (d : GIdx) (i : Nat) (f : Fut) : State :=
  (freeFut s i).modMe fun c => (c.wg d (GVal.ofNat (futValue f))).next

/-- The answer of a waiting word that frees nothing. -/
def answer (s : State) (d : GIdx) (v : Nat) : State := s.modMe fun c => (c.wg d (GVal.ofNat v)).next

/-- Whether a core's blocked word may park: not in a gang, where PARKT does not apply (09_compose.md R282), and not
before a sent VMAXX has completed (10_vector.md R323). -/
def Core.parks (c : Core) : Bool :=
  c.maxx.isNone && (match c.group with | .gangLead _ => false | .member _ _ => false | _ => true)

/-- FWAIT on a pending future (14_futures.md R415): the word waits, and its task parks at once when a frame is free. A
composed group ends there first, and the word runs again on the leader (09_compose.md R278). -/
def waitFut (s : State) (d : GIdx) (i : Nat) (f : Fut) : State :=
  let r := s.rank
  let parks := s.me.parks && poolFree s s.me.pid
  if s.me.composed ∧ parks then endComposed s r 2
  else
    let s1 := (s.setFut i { f with waiter := some { core := r, frame := none, d := d } }).modMe fun c =>
      { c with blocked := some { op := .fwait d (BitVec.ofNat 14 i), since := s.cycle, deadline := none } }
    if parks then
      match parkTask s1 r 1 liveAll with
      | some (_, t) => startNext t r
      | none => s1
    else s1

/-- FWAIT (14_futures.md R415). -/
def execFwait (d a : GIdx) (s : State) : Host.Outcome State Fault Refusal :=
  settle s (onFuture s a fun e =>
    match e with
    | none => .ok ((answer s d 7).modMe Core.clearDist)
    | some (i, f) =>
      if f.state ≠ 1#3 then .ok ((observe s d i f).modMe Core.clearDist)
      else if f.waiter.isSome then .ok ((answer s d 6).modMe Core.clearDist)
      else .ok (waitFut s d i f))

/-- FTEST (14_futures.md R415). -/
def execFtest (d a : GIdx) (s : State) : Host.Outcome State Fault Refusal :=
  settle s (onFuture s a fun e =>
    match e with
    | none => .ok (answer s d 7)
    | some (i, f) => if f.state ≠ 1#3 then .ok (observe s d i f) else .ok (answer s d (futValue f)))

/-- FCANCEL (14_futures.md R415). -/
def execFcancel (d a : GIdx) (s : State) : Host.Outcome State Fault Refusal :=
  settle s (onFuture s a fun e =>
    match e with
    | none => .ok (answer s d 7)
    | some (i, f) => if f.state ≠ 1#3 then .ok (observe s d i f) else .ok (answer (leaveFut s i 4 0 0) d 4))

/-- The outcome of FDONE (14_futures.md R416). -/
def doneCode (s : State) (handle n : Nat) : Nat :=
  match liveFut s handle true with
  | none => 1
  | some (_, f) => if f.state ≠ 1#3 then 2 else if replyRoom f < 4 * n then 3 else 0

/-- FDONE (14_futures.md R416). -/
def execFdone (a b : GIdx) (s : State) : Host.Outcome State Fault Refusal :=
  let h := (s.me.rg a).word
  let v := (s.me.rg b).word
  settle s (if field h 32 32 ≠ 0 ∨ field v 8 24 ≠ 0 ∨ field v 56 8 ≠ 0 then .trap (trapS 0x07 0#64) s
    else
      afterRelease s .pkg fun u =>
        let code := doneCode u h.toNat (field v 32 24)
        let u1 := u.modMe fun c => (c.modCtl fun k => { k with futst := BitVec.ofNat 64 code }).next
        .ok (if code = 0 then leaveFut u1 (h.toNat % 2 ^ 14) 2 (field v 0 8) (field v 32 24) else u1))

/-- The acknowledgement of a remote completion (14_futures.md R418): one that finds its future no longer pending is answered 2,
also when the entry has been freed meanwhile (log entry 103). -/
def remoteCode (s : State) (m : RemoteDone) : Nat :=
  let f := s.futAt (m.handle.toNat % 2 ^ 14)
  if f.state ≠ 1#3 then 2
  else if f.gen.toNat ≠ m.handle.toNat / 2 ^ 14 then 1
  else if f.remote = false then 2
  else if m.auth ≠ f.auth then 3
  else if replyRoom f < m.tokens.length then 4
  else 0

/-- REMOTE_COMPLETION (14_futures.md R418): the tokens' bytes go to the reply window, and the future is resolved. -/
def execRemoteCompletion (m : RemoteDone) (s : State) : Host.Outcome State Fault Refusal :=
  let i := m.handle.toNat % 2 ^ 14
  let code := remoteCode s m
  let s1 : State := { s with outbox := s.outbox ++ [.answer m.handle (BitVec.ofNat 8 code)] }
  .next (if code = 0 then
      let f := s.futAt i
      let base := ((f.wins[f.replywin.toNat]?).map (·.base)).getD 0
      leaveFut (s1.store base m.tokens) i 2 m.rstatus.toNat (m.tokens.length / 4)
    else s1)

/-! The counter. -/

/-- RNGSV (14_futures.md R424). -/
def execRngsv (d : GIdx) (s : State) : Host.Outcome State Fault Refusal :=
  let c := s.me
  settle s (if ctlReady c 0x041 then .ok (s.setMe (c.wg d { bits := c.ctl.rngctr, tag := false }).next) else .hold .engines s)

/-- RNGLD (14_futures.md R424). -/
def execRngld (a : GIdx) (s : State) : Host.Outcome State Fault Refusal :=
  let c := s.me
  settle s (if ctlReady c 0x041 then .ok (s.setMe (c.modCtl fun k => { k with rngctr := (c.rg a).bits }).next)
    else .hold .engines s)

end Sys2Proof.Machine
end

