-- ==== Sys2Proof/Machine/Kv.lean ====
section
/-! DEFINITION. Key-value storage: trees, span records, context views, the prefix words, KVMAP, KVTRNC, KVPIN, KVUNPIN,
ATTG and the felling engine (13_kv.md R377 to R400). -/

namespace Sys2Proof.Machine

/-! Trees. -/

/-- A record that the hub has not touched is free with GEN 0 (13_kv.md R378). -/
def SpanRec.none (i : Nat) : SpanRec :=
  { index := i, ref := 0, hold := 0, valid := 0, free := true, gen := 0#16, nodes := 0 }

/-- The empty root of a tree (13_kv.md R378, R379). -/
def Node.root : Node :=
  { index := 0, run := [], final := false, parent := 0, span := Option.none, depth := 0, lastUse := 0#32, children := [],
    ext := [] }

/-- Record i of a tree. -/
def Tree.srec (t : Tree) (i : Nat) : SpanRec := (t.recs.find? fun r => r.index == i).getD (SpanRec.none i)

/-- The tree with a record replaced. -/
def Tree.setRec (t : Tree) (r : SpanRec) : Tree := { t with recs := t.recs.filter (fun x => x.index != r.index) ++ [r] }

/-- Node i of a tree, if it is not free. -/
def Tree.node (t : Tree) (i : Nat) : Option Node := t.nodes.find? fun n => n.index == i

/-- The tree with a node replaced or added. -/
def Tree.setNode (t : Tree) (n : Node) : Tree := { t with nodes := t.nodes.filter (fun x => x.index != n.index) ++ [n] }

/-- The page set of a record (13_kv.md R381). -/
def Tree.pset (t : Tree) (r : Nat) : Nat := t.pagebase + r * t.layers * 131072

/-- The record operand of a record (13_kv.md R382). -/
def Tree.operand (t : Tree) (r : Nat) : Nat := r % 2 ^ 24 + t.index % 16 * 2 ^ 24 + (t.srec r).gen.toNat * 2 ^ 28

/-- The nodes of the array that are in use, extensions among them. -/
def Tree.used (t : Tree) : List Nat := (t.nodes.map fun n => n.index :: n.ext).flatten

/-- The lowest free node (log entry 20). -/
def Tree.freeNode (t : Tree) : Option Nat :=
  ((List.range (t.used.length + 1)).map (· + 1)).find? fun i => decide (i < t.nodecnt) && !t.used.contains i

/-- The free nodes of a tree. -/
def Tree.freeNodes (t : Tree) : Nat := t.nodecnt - t.used.length

/-- The free records of a tree. -/
def Tree.freeRecs (t : Tree) : Nat := t.spancnt - t.recs.countP fun r => !r.free

/-- The bytes of a word of tokens or child indices. -/
def wordsBytes (l : List Nat) : List Byte := (l.map (leBytes 4)).flatten

/-- A list of n numbers, the rest zero. -/
def padTo (n : Nat) (l : List Nat) : List Nat := (l ++ List.replicate n 0).take n

/-- REF of a node (13_kv.md R379). -/
def Node.ref (n : Node) : Nat := n.children.length + n.span.isSome.toNat

/-- The 128 bytes of a node (13_kv.md R379). -/
def nodeBytes (n : Node) : List Byte :=
  let slots := if n.ext.isEmpty then n.children else n.children.take 8 ++ n.ext.take 1
  wordsBytes (padTo 16 (n.run.map (·.toNat))) ++ leBytes 1 n.run.length ++ leBytes 1 n.final.toNat ++ leBytes 2 0 ++
    leBytes 4 n.ref ++ leBytes 4 n.parent ++ leBytes 4 ((n.span.map (· + 1)).getD 0) ++ leBytes 4 n.depth ++
    leBytes 4 n.lastUse.toNat ++ wordsBytes (padTo 9 slots) ++ leBytes 4 0

/-- The 128 bytes of a bucket extension of a node: 24 children and the next extension (13_kv.md R379). -/
def extBytes (parent : Nat) (kids : List Nat) (next : Nat) : List Byte :=
  wordsBytes (padTo 16 kids) ++ leBytes 1 0 ++ leBytes 1 2 ++ leBytes 6 0 ++ leBytes 4 parent ++ leBytes 12 0 ++
    wordsBytes (padTo 8 (kids.drop 16)) ++ leBytes 4 next ++ leBytes 4 0

/-- The extensions that n children need (13_kv.md R379). -/
def extNeed (n : Nat) : Nat := if n ≤ 9 then 0 else (n - 8 + 23) / 24

/-- The extension images of a node. -/
def extImages (base parent : Nat) : List Nat → List Nat → List (Nat × List Byte)
  | [], _ => []
  | x :: rest, kids => (base + 128 * x, extBytes parent (kids.take 24) (rest.headD 0)) :: extImages base parent rest (kids.drop 24)

/-- What a node makes in the array: its own image and those of its extensions. -/
def Tree.nodeImages (t : Tree) (n : Node) : List (Nat × List Byte) :=
  (t.nodebase + 128 * n.index, nodeBytes n) :: extImages t.nodebase n.index n.ext (n.children.drop 8)

/-- The 32 bytes of a record (13_kv.md R381). -/
def Tree.recBytes (t : Tree) (r : SpanRec) : List Byte :=
  leBytes 4 r.ref ++ leBytes 4 r.hold ++ leBytes 1 r.valid ++ leBytes 1 r.free.toNat ++ leBytes 2 r.gen.toNat ++
    leBytes 4 r.nodes ++ leBytes 8 (t.pset r.index) ++ leBytes 8 0

/-- A node that is removed: SPAN 0, END clear, and no child (13_kv.md R389, R395). -/
def Node.gone (n : Node) : Node := { n with span := none, final := false, children := [], ext := [] }

/-- What a step writes of a tree: the images of the nodes that it removes, and of the nodes and records that it changes. -/
def Tree.writes (old new : Tree) : List (Nat × List Byte) :=
  ((old.nodes.filter fun n => (new.node n.index).isNone).map fun n => new.nodeImages n.gone).flatten ++
    ((new.nodes.filter fun n => old.node n.index != some n).map fun n => new.nodeImages n).flatten ++
    ((new.recs.filter fun r => old.srec r.index != r).map fun r => (new.spanbase + 32 * r.index, new.recBytes r))

/-- The places of a list of writes, translated for a store; none where one cannot be reached or holds a poisoned byte
(13_kv.md R378, 05_memory.md R499). -/
def placeAll (s : State) (root : BitVec 64) : List (Nat × List Byte) → Option (List (List Chunk × List Byte)) × State
  | [] => (some [], s)
  | (va, bs) :: t =>
    match hubChunks s root va bs.length .store with
    | (none, u) => (none, u)
    | (some l, u) =>
      if u.chunksPoisoned l then (none, u)
      else
        let r := placeAll u root t
        (r.1.map fun p => (l, bs) :: p, r.2)

/-- The writes of a step, all of them or none, and whether they are made (13_kv.md R378). -/
def writeAll (s : State) (root : BitVec 64) (w : List (Nat × List Byte)) : Bool × State :=
  match placeAll s root w with
  | (some l, t) => (true, l.foldl (fun t x => t.storeChunks x.1 x.2) t)
  | (none, t) => (false, t)

/-- The hub's copy of a tree is replaced. -/
def State.setTree (s : State) (t : Tree) : State :=
  { s with trees := s.trees.filter (fun x => !(x.pid == t.pid && x.index == t.index)) ++ [t] }

/-- The tree that the 64 bytes of a directory entry give, and whether the entry is valid and keeps its limits
(13_kv.md R377, R378). -/
def dirTree (pid i : Nat) (b : List Byte) : Tree :=
  let n (o w : Nat) : Nat := leNat ((b.drop o).take w)
  let ok := n 42 1 == 1 && n 43 1 == 0 && n 48 16 == 0 && n 8 8 % 128 == 0 && decide (2 ≤ n 16 4) &&
    decide (n 16 4 ≤ 2 ^ 24) && decide (1 ≤ n 20 4) && decide (n 20 4 ≤ 2 ^ 24) && n 24 8 % 32 == 0 && n 32 8 != 0 &&
    n 32 8 % 65536 == 0 && decide (1 ≤ n 40 2) && decide (n 40 2 ≤ 4096)
  { pid := pid, index := i, valid := ok, nodebase := n 8 8, nodecnt := n 16 4, spancnt := n 20 4, spanbase := n 24 8,
    pagebase := n 32 8, layers := n 40 2, lowmark := n 44 4, nodes := [Node.root], recs := [] }

/-- The tree of an index of a partition that the hub has kept. -/
def State.keptTree (s : State) (pid i : Nat) : Option Tree := s.trees.find? fun t => t.pid == pid && t.index == i

/-- KVDIR of a partition, which every core of it holds, on the package or in its image (13_kv.md R377). -/
def State.kvdirOf (s : State) (p : Part) : Nat :=
  match s.cores.find? fun e => e.2.pid == p.pid with
  | some e => e.2.ctl.kvdir.toNat
  | none => ((p.saved.head?).map (·.core.ctl.kvdir.toNat)).getD 0

/-- The tree of an index, read from the directory when a word names it first (13_kv.md R378); none where the entry cannot be
read. The empty root is written at that read; where it cannot be, the entry is not kept, and the next word reads it again
(DEDUCED, log entry 104). -/
def openTree (s : State) (p : Part) (i : Nat) : Option Tree × State :=
  match s.keptTree p.pid i with
  | some t => (some t, s)
  | none =>
    match hubRead s p.ptroot (s.kvdirOf p + 64 * i) 64 with
    | (none, u) => (none, u)
    | (some b, u) =>
      let t := dirTree p.pid i b
      let v := u.modPart p.pid fun p => { p with kvRead := true }
      if t.valid = false then (some t, v.setTree t)
      else
        match writeAll v p.ptroot (t.nodeImages Node.root) with
        | (true, w) => (some t, w.setTree t)
        | (false, w) => (none, w)

/-- The valid tree of an index (13_kv.md R378). -/
def validTree (s : State) (p : Part) (i : Nat) : Option Tree × State :=
  let r := openTree s p i
  (r.1.bind fun t => if t.valid then some t else none, r.2)

/-! Records. -/

/-- A record after a change of its counts; it is freed when REF and HOLD are both 0 (13_kv.md R382). -/
def Tree.adjust (t : Tree) (r : Nat) (f : SpanRec → SpanRec) : Tree :=
  let x := f (t.srec r)
  t.setRec (if x.ref = 0 ∧ x.hold = 0 ∧ x.free = false then { x with free := true, gen := x.gen + 1#16 } else x)

/-- The lowest free record, allocated (13_kv.md R382). -/
def Tree.alloc (t : Tree) : Option (Nat × Tree) :=
  match (List.range (min t.spancnt (t.recs.length + 1))).find? fun i => (t.srec i).free with
  | none => none
  | some i => some (i, t.setRec { t.srec i with ref := 1, hold := 0, valid := 0, nodes := 0, free := false })

/-- Whether an index names an allocated record. -/
def Tree.live (t : Tree) (r : Nat) : Bool := decide (r < t.spancnt) && !(t.srec r).free

/-! Nodes. -/

/-- How a step on a tree ends other than in a new tree: a break of the tree or of a span table, which is a machine
check (13_kv.md R383, R386), or something that cannot be reached (R378). -/
inductive KvStop where
  | broken
  | unreached
  deriving DecidableEq, Repr

/-- What a step at the hub gives, with the state that its walks leave (05_memory.md R499). -/
abbrev KvAns (α : Type) : Type := Except KvStop α × State

/-- The next part of a step at the hub. -/
def KvAns.andThen {α β : Type} (x : KvAns α) (f : α → State → KvAns β) : KvAns β :=
  match x with
  | (.ok a, s) => f a s
  | (.error e, s) => (.error e, s)

/-- A node's children replaced, with the extensions they need (13_kv.md R379); none where no node is free for one. Fuel
bounds the extensions. -/
def Tree.setKids (t : Tree) (n : Node) (kids : List Nat) : Nat → Option Tree
  | 0 => none
  | fuel + 1 =>
    let need := extNeed kids.length
    if n.ext.length < need then
      match t.freeNode with
      | none => none
      | some x =>
        let m := { n with ext := n.ext ++ [x] }
        Tree.setKids (t.setNode m) m kids fuel
    else some (t.setNode { n with children := kids, ext := n.ext.take need })

/-- A match of tokens in a tree (13_kv.md R386): its length, the nodes passed from the root on, the last of them, and how
many tokens of its run are matched. -/
structure Match where
  m    : Nat
  path : List Node
  last : Node
  k    : Nat
  deriving DecidableEq, Repr

/-- The tokens that two sequences share from their beginnings. -/
def common : List (BitVec 32) → List (BitVec 32) → Nat
  | a :: s, b :: t => if a = b then common s t + 1 else 0
  | _, _ => 0

/-- The child of a node whose run begins with a token. -/
def Tree.childWith (t : Tree) (n : Node) (tok : BitVec 32) : Option Node :=
  (n.children.filterMap t.node).find? fun c => c.run.head? == some tok

/-- The match from a node on (13_kv.md R386); fuel bounds the nodes. -/
def Tree.matchFrom (t : Tree) : Nat → Match → List (BitVec 32) → Match
  | 0, x, _ => x
  | fuel + 1, x, toks =>
    match toks with
    | [] => x
    | tok :: _ =>
      match t.childWith x.last tok with
      | none => x
      | some c =>
        let k := common c.run toks
        let y : Match := { m := x.m + k, path := x.path ++ [c], last := c, k := k }
        if k < c.run.length then y else Tree.matchFrom t fuel y (toks.drop k)

/-- The match of a token sequence (13_kv.md R386). -/
def Tree.match_ (t : Tree) (toks : List (BitVec 32)) : Match :=
  let r := (t.node 0).getD Node.root
  t.matchFrom (toks.length + 1) { m := 0, path := [r], last := r, k := 0 } toks

/-- LASTUSE of every node that a match passes (13_kv.md R386). -/
def Tree.stamp (t : Tree) (now : BitVec 32) (path : List Node) : Tree :=
  path.foldl (fun t n => match t.node n.index with | some x => t.setNode { x with lastUse := now } | none => t) t

/-- The nodes of a descent from a node to the first that carries a record, taking the child with the lowest index at each step
(13_kv.md R386). -/
def Tree.descent (t : Tree) : Nat → Node → List Node
  | 0, _ => []
  | fuel + 1, n =>
    if n.span.isSome then [n]
    else
      match n.children.min?.bind t.node with
      | some c => n :: Tree.descent t fuel c
      | none => [n]

/-- The nodes that a match passes: its path, and the descent to the record of its last span where the match ends within one
(13_kv.md R386). -/
def Tree.passed (t : Tree) (x : Match) : List Node :=
  x.path ++ if x.m % 64 = 0 then [] else (t.descent (t.nodes.length + 1) x.last).drop 1

/-- rec(j) of a match (13_kv.md R386): none where the tree breaks R380 or the record is free. -/
def Tree.recOf (t : Tree) (x : Match) (j : Nat) : Option Nat :=
  let r :=
    if 64 * (j + 1) ≤ x.m then (x.path.find? fun n => n.depth == 64 * (j + 1)).bind (·.span)
    else (t.descent (t.nodes.length + 1) x.last).getLast?.bind (·.span)
  match r with
  | some i => if t.live i then some i else none
  | none => none

/-- The spans of n tokens. -/
def spans (n : Nat) : Nat := (n + 63) / 64

/-- The records of a match, in span order. -/
def Tree.recsOf (t : Tree) (x : Match) : Option (List Nat) := (List.range (spans x.m)).mapM (t.recOf x)

/-- The records of a match, where no node that it passes breaks the tree's shape or names a free record (13_kv.md R383, R386). -/
def Tree.met (t : Tree) (x : Match) : Option (List Nat) :=
  if (t.passed x).all fun n => match n.span with | some r => t.live r | none => true then t.recsOf x else none

/-- A node carries a record (13_kv.md R388). -/
def Tree.carry (t : Tree) (n : Node) (r : Nat) : Tree :=
  (t.setNode { n with span := some r }).adjust r fun x => { x with ref := x.ref + 1, nodes := x.nodes + 1 }

/-- The record of a node is released (13_kv.md R389). -/
def Tree.releaseRec (t : Tree) (n : Node) : Tree :=
  match n.span with
  | some r => t.adjust r fun x => { x with ref := x.ref - 1, nodes := x.nodes - 1 }
  | none => t

/-- END of a node is cleared (13_kv.md R389). One that keeps a child and does not stand at a multiple of 64 tokens then carries no
record: the shape of R380 holds across every operation (DEDUCED, log entry 105). -/
def Tree.unmark (t : Tree) (n : Node) : Tree :=
  if n.children = [] ∨ n.depth % 64 = 0 then t.setNode { n with final := false }
  else (t.releaseRec n).setNode { n with final := false, span := none }

/-- A node is removed: its record is released and it is unlinked from its parent (13_kv.md R389). -/
def Tree.remove (t : Tree) (n : Node) : Tree :=
  let t2 := { t with nodes := t.nodes.filter fun x => x.index != n.index }.releaseRec n
  match t2.node n.parent with
  | some p => (t2.setKids p (p.children.erase n.index) (p.ext.length + 1)).getD t2
  | none => t2

/-- Nodes are removed upward from one that keeps no child and no END; a felling also stops at a node that carries a
record (13_kv.md R389, R395). Fuel bounds the depth. -/
def Tree.prune (t : Tree) (fell : Bool) : Nat → Nat → Tree
  | 0, _ => t
  | fuel + 1, i =>
    match t.node i with
    | none => t
    | some n =>
      if i = 0 ∨ n.children ≠ [] ∨ n.final = true ∨ (fell = true ∧ n.span.isSome = true) then t
      else Tree.prune (t.remove n) fell fuel n.parent

/-! Context views. -/

/-- A context's view (13_kv.md R383): the context, the span table, the length and the tree. -/
structure View where
  ctx  : BitVec 16
  tab  : Nat
  len  : Nat
  tree : Nat
  deriving DecidableEq, Repr

/-- The view fields of the entry at a key of a context. -/
def viewAt (s : State) (ctx : BitVec 16) (k : Nat) : View :=
  { ctx := ctx, tab := s.mem.readNat (k + 32) 8, len := s.mem.readNat (k + 40) 4, tree := s.mem.readNat (k + 44) 1 % 16 }

/-- The VIEW that entry j of a view of some length has (13_kv.md R383). -/
def viewOf (len j : Nat) : Nat := if j + 1 < spans len then 64 else len - 64 * (spans len - 1)

/-- The record that the 8 bytes of entry j of a view name, where they keep R383 against its length. -/
def entryRec (v : View) (t : Tree) (j : Nat) (b : List Byte) : Except KvStop Nat :=
  let e := BitVec.ofNat 64 (leNat b)
  if field e 32 32 ≠ 0 ∨ e.getLsbD 31 = false ∨ spans v.len ≤ j then .error .broken
  else if field e 24 7 ≠ viewOf v.len j ∨ t.live (field e 0 24) = false then .error .broken
  else .ok (field e 0 24)

/-- Entry j of a view: its record (13_kv.md R383). -/
def readEntry (s : State) (p : Part) (v : View) (t : Tree) (j : Nat) : KvAns Nat :=
  match hubRead s p.ptroot (v.tab + 8 * j) 8 with
  | (none, u) => (.error .unreached, u)
  | (some b, u) => (entryRec v t j b, u)

/-- The records of several entries of a view. -/
def readEntries (s : State) (p : Part) (v : View) (t : Tree) : List Nat → KvAns (List Nat)
  | [] => (.ok [], s)
  | j :: l => (readEntry s p v t j).andThen fun r u => (readEntries u p v t l).andThen fun rs w => (.ok (r :: rs), w)

/-- The bytes of a valid span-table entry (13_kv.md R383). -/
def entryBytes (view r : Nat) : List Byte := leBytes 8 (2 ^ 31 + view * 2 ^ 24 + r)

/-- A write of a view's entry j. -/
def entryWrite (v : View) (j view r : Nat) : Nat × List Byte := (v.tab + 8 * j, entryBytes view r)

/-- A write that makes entry j invalid. -/
def entryClear (v : View) (j : Nat) : Nat × List Byte := (v.tab + 8 * j, leBytes 8 0)

/-- A write of VIEWLEN of a view. -/
def lenWrite (p : Part) (v : View) (n : Nat) : Nat × List Byte := (ctxAddr p v.ctx + 40, leBytes 4 n)

/-- A step of the hub commits, or changes nothing: whether its writes are made (13_kv.md R378). -/
def commit (s : State) (p : Part) (old new : Tree) (entries : List (Nat × List Byte)) : Bool × State :=
  match writeAll s p.ptroot (old.writes new ++ entries) with
  | (true, u) => (true, u.setTree new)
  | (false, u) => (false, u)

/-- A step that ends with a status and a value once it has committed. -/
def ended (x : Bool × State) (code n : Nat) : KvAns (Nat × Nat) := (if x.1 then .ok (code, n) else .error .unreached, x.2)

/-- The hub's time in units of 1,024 cycles (13_kv.md R379). -/
def State.hubTime (s : State) : BitVec 32 := BitVec.ofNat 32 (s.cycle / 1024)

/-! The felling engine. -/

/-- Whether a node is a candidate (13_kv.md R394). -/
def Tree.candidate (t : Tree) (n : Node) : Bool :=
  match n.span with
  | some r => t.live r && (t.srec r).ref == (t.srec r).nodes && (t.srec r).hold == 0 && n.children.isEmpty && n.ext.isEmpty
  | none => false

/-- Whether a record of a tree stands in the felling queue. -/
def queued (s : State) (t : Tree) (r : Nat) : Bool := s.fells.any fun e => e.pid == t.pid && e.tree == t.index && e.record == r

/-- The candidates of a tree that are not queued, in ascending LASTUSE (13_kv.md R394). -/
def candidates (s : State) (t : Tree) : List Node :=
  sortBy (fun x y => decide (x.lastUse.toNat ≤ y.lastUse.toNat))
    (t.nodes.filter fun n => t.candidate n && !(match n.span with | some r => queued s t r | none => true))

/-- The queue entry of a candidate. -/
def fellEntry (s : State) (t : Tree) (n : Node) : FellEntry :=
  let r := n.span.getD 0
  { pid := t.pid, tree := t.index, record := r, gen := (t.srec r).gen, node := n.index, confirmed := false, expired := false,
    due := s.cycle + s.fellctl.toNat }

/-- A record is proposed once, though several nodes may carry it. -/
def onePerRecord : List FellEntry → List FellEntry → List FellEntry
  | acc, [] => acc
  | acc, e :: t => onePerRecord (if acc.any (fun x => x.record == e.record) then acc else acc ++ [e]) t

/-- The proposals for a tree whose free records are fewer than LOWMARK (13_kv.md R394), as the queue's 64 places allow. -/
def propose (s : State) (t : Tree) : State :=
  if t.valid = false ∨ t.lowmark ≤ t.freeRecs then s
  else { s with fells := s.fells ++ (onePerRecord [] ((candidates s t).map (fellEntry s t))).take (64 - s.fells.length) }

/-- Whether the engine has a proposal to make for some tree. -/
def proposeDue (s : State) : Option Tree :=
  s.trees.find? fun t => t.valid && decide (t.freeRecs < t.lowmark) && !(candidates s t).isEmpty && decide (s.fells.length < 64)

/-- FELL_PROPOSE (13_kv.md R394). -/
def execFellPropose (pid tree : Nat) (s : State) : Host.Outcome State Fault Refusal :=
  .next (match s.trees.find? fun t => t.pid == pid && t.index == tree with | some t => propose s t | none => s)

/-- FELL_DEADLINE_EXPIRY (13_kv.md R396): the deadline counter of an entry reaches 0. -/
def execFellDeadlineExpiry (entry : BitVec 6) (s : State) : Host.Outcome State Fault Refusal :=
  .next { s with fells := s.fells.modify entry.toNat fun e => if e.due ≤ s.cycle then { e with expired := true } else e }

/-- The recheck of an entry (13_kv.md R395): the tree and the node, if the record may be felled. -/
def fellable (s : State) (e : FellEntry) : Option (Tree × Node) :=
  match s.trees.find? fun t => t.pid == e.pid && t.index == e.tree with
  | none => none
  | some t =>
    match t.node e.node with
    | none => none
    | some n => if t.candidate n ∧ n.span = some e.record ∧ (t.srec e.record).gen = e.gen then some (t, n) else none

/-- FELL_EXECUTE (13_kv.md R395): the head of the queue, confirmed or expired, is rechecked and felled, or dropped. -/
def execFellExecute (s : State) : Host.Outcome State Fault Refusal :=
  .next (match s.fells with
    | [] => s
    | e :: rest =>
      if e.confirmed = false ∧ e.expired = false then s
      else
        let s1 : State := { s with fells := rest }
        match fellable s e, s.part? e.pid with
        | some (t, n), some p =>
          (commit s1 p t ((t.remove n).prune true (t.nodes.length + 1) n.parent) []).2
        | _, _ => s1)

/-- Ranger firmware writes FELLCTL (13_kv.md R396): less than 940 cycles stores 940. -/
def fellctlWrite (s : State) (v : BitVec 32) : State := { s with fellctl := if v.toNat < 940 then 940#32 else v }

/-- What ranger firmware reads of FELLQ at a place of the queue (13_kv.md R396). -/
def fellqRead (s : State) (i : Nat) : BitVec 128 :=
  match s.fells[i]? with
  | none => 0#128
  | some e =>
    BitVec.ofNat 128 (e.node % 2 ^ 32 + e.record % 2 ^ 24 * 2 ^ 32 + e.gen.toNat * 2 ^ 64 + (if e.confirmed then 2 else 1) * 2 ^ 80 +
      e.tree % 16 * 2 ^ 82 + e.pid % 1024 * 2 ^ 86 + min (2 ^ 32 - 1) (e.due - s.cycle) * 2 ^ 96)

/-- FELLACT_CONFIRM (13_kv.md R396). -/
def execFellactConfirm (entry : BitVec 6) (s : State) : Host.Outcome State Fault Refusal :=
  .next { s with fells := s.fells.modify entry.toNat fun e => { e with confirmed := true } }

/-- FELLACT_VETO (13_kv.md R396): the entry is dropped, and its node's LASTUSE is now. -/
def execFellactVeto (entry : BitVec 6) (s : State) : Host.Outcome State Fault Refusal :=
  .next (match s.fells[entry.toNat]? with
    | none => s
    | some e =>
      let s1 : State := { s with fells := s.fells.eraseIdx entry.toNat }
      match s.trees.find? fun t => t.pid == e.pid && t.index == e.tree, s.part? e.pid with
      | some t, some p =>
        match t.node e.node with
        | some n => (commit s1 p t (t.setNode { n with lastUse := s.hubTime }) []).2
        | none => s1
      | _, _ => s1)

/-- FELLACT_MOVE_FRONT (13_kv.md R396). -/
def execFellactMoveFront (entry : BitVec 6) (s : State) : Host.Outcome State Fault Refusal :=
  .next (match s.fells[entry.toNat]? with
    | none => s
    | some e => { s with fells := e :: s.fells.eraseIdx entry.toNat })

/-! The words at the hub. -/

/-- The view and the valid tree of a context, as the hub reads its entry (13_kv.md R383, R386). -/
def hubView (s : State) (p : Part) (ctx : BitVec 16) : KvAns (View × Tree) :=
  match ctxEntry s p ctx .load with
  | (none, u) => (.error .unreached, u)
  | (some k, u) =>
    let v := viewAt u ctx k
    match validTree u p v.tree with
    | (some t, w) => (.ok (v, t), w)
    | (none, w) => (.error .unreached, w)

/-- The request of a prefix word (13_kv.md R386): context, PROBE and token count, if its format is kept. -/
def prefixReq (y : Word64) (look : Bool) : Option (BitVec 16 × Bool × Nat) :=
  let probe := y.getLsbD 16
  if field y 17 7 ≠ 0 ∨ field y 47 17 ≠ 0 ∨ (probe = true ∧ look = false) ∨ 4194304 < field y 24 23 then none
  else some (y.setWidth 16, probe, field y 24 23)

/-- The tokens in n words at a key. -/
def tokensAt (m : Mem) (k n : Nat) : List (BitVec 32) := (List.range n).map fun i => BitVec.ofNat 32 (m.readNat (k + 4 * i) 4)

/-- The chain area of PFXL from a buffer of n tokens on. -/
def chainOff (n : Nat) : Nat := 8 * ((4 * n + 7) / 8)

/-- The chain of a lookup: the record operands of its records (13_kv.md R387). -/
def writeChain (t : Tree) (k n : Nat) (l : List Nat) (s : State) : State :=
  if l = [] then s else s.store (k + chainOff n) ((l.map fun r => leBytes 8 (t.operand r)).flatten)

/-- The lookup of PFXL (13_kv.md R387). -/
def pfxlStep (s : State) (p : Part) (v : View) (t : Tree) (k : Nat) (toks : List (BitVec 32)) (probe : Bool) :
    KvAns (Nat × Nat) :=
  let x := t.match_ toks
  let t1 := t.stamp s.hubTime (t.passed x)
  match t.met x with
  | none => (.error .broken, s)
  | some l =>
    let value := x.m + l.length * 2 ^ 32
    if probe = false ∧ v.len ≠ 0 then ended (commit s p t t1 []) 3 0
    else
      let t2 := if probe then t1 else l.foldl (fun t r => t.adjust r fun z => { z with ref := z.ref + 1 }) t1
      let es := if probe then []
        else lenWrite p v x.m :: l.zipIdx.map fun e => entryWrite v e.2 (min 64 (x.m - 64 * e.2)) e.1
      (ended (commit s p t t2 es) 0 value).andThen fun r u => (.ok r, writeChain t2 k toks.length l u)

/-- The run of the next new node: up to 16 tokens that end at a multiple of 64 (13_kv.md R380, R388). -/
def runLen (pos left : Nat) : Nat := min (min 16 left) (64 - pos % 64)

/-- New nodes for the tokens beyond a match, below a node (13_kv.md R388): the tree, the deepest node, the new nodes, the
tokens added, and whether every token found a node. Fuel bounds the nodes. -/
def Tree.extend (t : Tree) : Nat → Nat → Nat → List (BitVec 32) → Tree × Nat × List Nat × Nat × Bool
  | 0, cur, _, toks => (t, cur, [], 0, toks.isEmpty)
  | fuel + 1, cur, pos, toks =>
    if toks.isEmpty then (t, cur, [], 0, true)
    else
      match t.node cur, t.freeNode with
      | some n, some i =>
        let k := runLen pos toks.length
        let c : Node := { Node.root with index := i, run := toks.take k, parent := cur, depth := pos + k }
        match (t.setNode c).setKids n (n.children ++ [i]) (extNeed (n.children.length + 1) + 1) with
        | none => (t, cur, [], 0, false)
        | some t1 =>
          let r := Tree.extend t1 fuel i (pos + k) (toks.drop k)
          (r.1, r.2.1, i :: r.2.2.1, k + r.2.2.2.1, r.2.2.2.2)
      | _, _ => (t, cur, [], 0, false)

/-- The run of the last matched node is split where the match ends inside it (13_kv.md R388): the tree and the node at
the match point; none where no node is free. -/
def Tree.splitAt (t : Tree) (x : Match) : Option (Tree × Nat) :=
  match t.node x.last.index with
  | none => none
  | some n =>
    if n.run.length ≤ x.k then some (t, n.index)
    else
      match t.freeNode, t.node n.parent with
      | some i, some p =>
        let u : Node :=
          { Node.root with index := i, run := n.run.take x.k, parent := n.parent, depth := n.depth - (n.run.length - x.k)
                           lastUse := n.lastUse, children := [n.index] }
        let q := { p with children := p.children.map fun c => if c = n.index then i else c }
        some (((t.setNode u).setNode { n with run := n.run.drop x.k, parent := i }).setNode q, i)
      | _, _ => none

/-- The context's records are attached to those nodes of a list that need one and carry none (13_kv.md R380, R388). -/
def attach (s : State) (p : Part) (v : View) : Tree → List Nat → KvAns Tree
  | t, [] => (.ok t, s)
  | t, i :: rest =>
    match t.node i with
    | none => attach s p v t rest
    | some n =>
      if n.depth ≠ 0 ∧ n.span = none ∧ (n.depth % 64 = 0 ∨ n.final = true) then
        match readEntry s p v t ((n.depth - 1) / 64) with
        | (.error e, u) => (.error e, u)
        | (.ok r, u) => attach u p v (t.carry n r) rest
      else attach s p v t rest

/-- The insertion of PFXI (13_kv.md R388). -/
def pfxiStep (s : State) (p : Part) (v : View) (t : Tree) (toks : List (BitVec 32)) : KvAns (Nat × Nat) :=
  let x := t.match_ toks
  let t0 := t.stamp s.hubTime (t.passed x)
  if v.len < toks.length then (.ok (7, 0), s)
  else if (t.met x).isNone then (.error .broken, s)
  else
    match t0.splitAt x with
    | none => (.ok (4, 0), s)
    | some (t1, cur) =>
      let e := t1.extend (toks.length + 1) cur x.m (toks.drop x.m)
      let made : Bool := cur != x.last.index || !e.2.2.1.isEmpty
      if e.2.2.2.2 = false ∧ made = false then (.ok (4, 0), s)
      else
        let t2 := match e.1.node e.2.1 with
          | some n => if n.index = 0 then e.1 else e.1.setNode { n with final := true }
          | none => e.1
        (attach s p v t2 (x.path.map (·.index) ++ [cur] ++ e.2.2.1)).andThen fun t3 u =>
          ended (commit u p t t3 []) (if e.2.2.2.2 then 0 else 4) e.2.2.2.1

/-- The removal of PFXDROP (13_kv.md R389). -/
def pfxdropStep (s : State) (p : Part) (t : Tree) (toks : List (BitVec 32)) : KvAns (Nat × Nat) :=
  let x := t.match_ toks
  let t0 := t.stamp s.hubTime (t.passed x)
  if (t.met x).isNone then (.error .broken, s)
  else
    match t0.node x.last.index with
    | some n =>
      if x.m = toks.length ∧ x.k = n.run.length ∧ n.final = true ∧ n.index ≠ 0 then
        ended (commit s p t ((t0.unmark n).prune false (t.nodes.length + 1) n.index) []) 0 0
      else (.ok (1, 0), s)
    | none => (.ok (1, 0), s)

/-- The truncation of a view to n tokens (13_kv.md R391). -/
def truncStep (s : State) (p : Part) (v : View) (t : Tree) (n : Nat) : KvAns (Nat × Nat) :=
  if v.len < n then (.ok (7, 0), s)
  else
    let keep := spans n
    let cut := (List.range (spans v.len - keep)).map (· + keep)
    (readEntries s p v t cut).andThen fun gone u =>
      let t1 := gone.foldl (fun t r => t.adjust r fun x => { x with ref := x.ref - 1 }) t
      let go (w : State) (es : List (Nat × List Byte)) : KvAns (Nat × Nat) :=
        ended (commit w p t t1 (lenWrite p v n :: (cut.map (entryClear v) ++ es))) 0 0
      if keep = 0 then go u []
      else (readEntry u p v t (keep - 1)).andThen fun r w => go w [entryWrite v (keep - 1) (n - 64 * (keep - 1)) r]

/-- A change of HOLD of the record that an operand names (13_kv.md R392); stale where it is free or of another
generation. -/
def holdStep (s : State) (p : Part) (t : Tree) (r : Nat) (gen : BitVec 16) (f : SpanRec → Nat × SpanRec) : KvAns (Nat × Nat) :=
  if t.live r = false ∨ (t.srec r).gen ≠ gen then (.ok (1, 0), s)
  else ended (commit s p t (t.adjust r fun x => (f x).2) []) (f (t.srec r)).1 0

/-- HOLD raised by n, saturating, and lowered by n, with their statuses (13_kv.md R392). -/
def pinned (n : Nat) (r : SpanRec) : Nat × SpanRec := (0, { r with hold := min (2 ^ 32 - 1) (r.hold + n) })

/-- HOLD lowered by n (13_kv.md R392). -/
def unpinned (n : Nat) (r : SpanRec) : Nat × SpanRec := (if n ≤ r.hold then 0 else 6, { r with hold := r.hold - n })

/-- The step of a request at the hub: its status and the value for gd (13_kv.md R385 to R392). Poisoned tokens are found once the
tree has been (15_system.md R427). -/
def kvHub (s : State) (q : HubReq) : KvAns (Nat × Nat) :=
  match s.part? q.pid with
  | none => (.error .unreached, s)
  | some p =>
    let onTree (i : Nat) (f : Tree → State → KvAns (Nat × Nat)) : KvAns (Nat × Nat) :=
      match validTree s p i with
      | (some t, u) => f t u
      | (none, u) => (.error .unreached, u)
    let onView (f : View → Tree → State → KvAns (Nat × Nat)) : KvAns (Nat × Nat) :=
      (hubView s p q.ctx).andThen fun x u => if q.bad then (.error .broken, u) else f x.1 x.2 u
    match q.op with
    | .lookup k toks probe => onView fun v t u => pfxlStep u p v t k toks probe
    | .insert toks => onView fun v t u => pfxiStep u p v t toks
    | .remove toks => onView fun _ t u => pfxdropStep u p t toks
    | .truncate n => onView fun v t u => truncStep u p v t n
    | .pin i r gen n => onTree i fun t u => holdStep u p t r gen (pinned n)
    | .unpin i r gen n => onTree i fun t u => holdStep u p t r gen (unpinned n)
    | .kill => (.ok (0, 0), s)

/-- KVSTAT.CODE is written (13_kv.md R378). -/
def Core.kvCode (c : Core) (code : Nat) : Core := c.modCtl fun k => { k with kvstat := BitVec.ofNat 32 code }

/-- The status and the value that the hub answers, or none for a machine check (13_kv.md R378, R383, R386). -/
def KvAns.reply (x : KvAns (Nat × Nat)) : Option (Nat × Nat) :=
  match x.1 with
  | .ok r => some r
  | .error .unreached => some (2, 0)
  | .error .broken => none

/-- The core as a request is answered: KVSTAT.CODE is that of a key-value word (13_kv.md R378). -/
def HubReq.answered (q : HubReq) (c : Core) (code : Nat) : Core := if q.op = .kill then c else c.kvCode code

/-- The hub's reply to a request (13_kv.md R385): at the core whose word waits, or in the frame of its parked task, which then
resumes (08_tasks.md R265). A fault that the core has deferred meanwhile goes before a machine check, which the word meets again
when it runs next. -/
def hubReply (s : State) (q : HubReq) : Option (Nat × Nat) → State
  | some (code, v) =>
    match q.frame with
    | none => s.modCore q.core fun c => (q.answered c code).finish q.d (GVal.ofNat v)
    | some fa =>
      pushResume (replyFrame (if q.op = .kill then s else s.storeNat (fa + 0x148) 8 code) fa q.d (GVal.ofNat v)) q.core fa
  | none =>
    match q.frame with
    | none => s.modCore q.core fun c => { c with blocked := none, pendTrap := some (c.pendTrap.getD (trapS 0x0D q.x)) }
    | some fa => pushResume (faultFrame s fa .s 0x0D 0) q.core fa

/-- A word that the hub carries out, and that waits for its reply (13_kv.md R385): while accesses do not wait it is answered at
once; otherwise its request stands at the hub until the hub takes it (log entry 53). -/
def askHub (step : State → HubReq → KvAns (Nat × Nat)) (s : State) (q : HubReq) : Res State :=
  if s.lazy then
    .ok ({ s with hubReqs := s.hubReqs ++ [q] }.modMe fun c =>
      { c with blocked := some { op := .hub, since := s.cycle, deadline := none } })
  else
    let r := step s q
    match r.reply with
    | some (code, v) => .ok (r.2.modMe fun c => ((q.answered c code).wg q.d (GVal.ofNat v)).nextSafe)
    | none => .trap (trapS 0x0D q.x) r.2

/-- A key-value word that the hub carries out. -/
def hubWord (s : State) (q : HubReq) : Res State := askHub kvHub s q

/-- A request of the running word. -/
def hubReq (s : State) (d : GIdx) (ctx : BitVec 16) (x : Word64) (bad : Bool) (op : HubOp) : HubReq :=
  { core := s.rank, frame := none, pid := s.me.pid, d := d, ctx := ctx, x := x, bad := bad, op := op }

/-- A prefix word (13_kv.md R386): its checks in their order, the check of its context, and the hub. -/
def prefixWord (s : State) (d a b : GIdx) (look : Bool) (op : Nat → List (BitVec 32) → Bool → HubOp) : Res State :=
  let c := s.me.rg a
  let x := c.word
  match prefixReq (s.me.rg b).word look with
  | none => .trap (trapS 0x07 0#64) s
  | some (ctx, probe, n) =>
    let len := if look then 8 * spans n + chainOff n else 4 * n
    (access s .s c x len (if look then permLoad ||| permStore else permLoad) 8 .own).bind fun t =>
      match t.1 with
      | .bytes [k] =>
        let u := settleFor t.2 s.rank x [k]
        match ctxCheck u ctx with
        | (none, v) => .trap (trapS 0x07 0#64) v
        | (some _, v) => hubWord v (hubReq v d ctx x (v.poisoned k.key (4 * n)) (op k.key (tokensAt v.mem k.key n) probe))
      | _ => .trap (trapS 0x07 x) t.2

/-- PFXL (13_kv.md R387). -/
def execPfxl (d a b : GIdx) (s : State) : Host.Outcome State Fault Refusal :=
  settle s (prefixWord s d a b true .lookup)

/-- PFXI (13_kv.md R388). -/
def execPfxi (d a b : GIdx) (s : State) : Host.Outcome State Fault Refusal :=
  settle s (prefixWord s d a b false fun _ toks _ => .insert toks)

/-- PFXDROP (13_kv.md R389). -/
def execPfxdrop (a b : GIdx) (s : State) : Host.Outcome State Fault Refusal :=
  settle s (prefixWord s 0#6 a b false fun _ toks _ => .remove toks)

/-- KVTRNC (13_kv.md R391). -/
def execKvtrnc (a b : GIdx) (s : State) : Host.Outcome State Fault Refusal :=
  let x := (s.me.rg a).bits
  let y := (s.me.rg b).bits
  settle s (if field x 16 112 ≠ 0 ∨ field y 23 105 ≠ 0 then .trap (trapS 0x07 0#64) s
    else
      match ctxCheck s (x.setWidth 16) with
      | (none, u) => .trap (trapS 0x07 0#64) u
      | (some _, u) => hubWord u (hubReq u 0#6 (x.setWidth 16) 0#64 false (.truncate y.toNat)))

/-! Mapping. -/

/-- A load of n bytes by the S engine of what a key-value word names, through the coherent domain (13_kv.md R390). -/
def engineLoad (s : State) (va n : Nat) : Res (List Byte × State) :=
  let x := BitVec.ofNat 64 va
  (pages s .s [.load] 2 x n).bind fun t =>
    let u := settleFor t.2 s.rank x t.1
    if u.chunksPoisoned t.1 then .trap (trapS 0x0D x) u else .ok (u.readChunks t.1, u)

/-- The address and view of a row (13_kv.md R390). -/
def kvRow (t : Tree) (len r p l h : Nat) : GVal :=
  GVal.ofNat ((t.pset r + (2 * l + h) * 65536 + p % 64 * 1024) % 2 ^ 64 + viewOf len (p / 64) * 2 ^ 64)

/-- KVMAP after the check of its context (13_kv.md R390): three dependent loads of the S engine, that of the span-table entry an
acquire. What the record is, whether it is free, is the hub's. -/
def kvmapRead (s : State) (p : Part) (ctx : BitVec 16) (d : GIdx) (pos l h : Nat) : Res State :=
  (engineLoad s (ctxAddr p ctx + 32) 16).bind fun e =>
    let n (o w : Nat) : Nat := leNat ((e.1.drop o).take w)
    let v : View := { ctx := ctx, tab := n 0 8, len := n 8 4, tree := n 12 1 % 16 }
    (engineLoad e.2 (e.2.kvdirOf p + 64 * v.tree) 64).bind fun b =>
      let dir := dirTree p.pid v.tree b.1
      let t := { dir with recs := ((b.2.keptTree p.pid v.tree).map (·.recs)).getD [] }
      if t.valid = false ∨ t.layers ≤ l then .trap (trapS 0x07 0#64) b.2
      else if v.len ≤ pos then .ok (putVal b.2 d GVal.zero)
      else
        (engineLoad b.2 (v.tab + 8 * (pos / 64)) 8).bind fun x =>
          match entryRec v t (pos / 64) x.1 with
          | .error _ => .trap (trapS 0x0D 0#64) x.2
          | .ok r => .ok (putVal x.2 d (kvRow t v.len r pos l h))

/-- KVMAP (13_kv.md R390, 06_ordering.md R193). -/
def execKvmap (d a b : GIdx) (s : State) : Host.Outcome State Fault Refusal :=
  let x := (s.me.rg a).bits
  let y := (s.me.rg b).bits
  let ctx := x.extractLsb' 32 16
  settle s (if field x 23 9 ≠ 0 ∨ field x 48 80 ≠ 0 ∨ field y 12 4 ≠ 0 ∨ field y 17 111 ≠ 0 then .trap (trapS 0x07 0#64) s
    else
      match ctxCheck s ctx with
      | (none, u) => .trap (trapS 0x07 0#64) u
      | (some (p, _), u) => afterReleases u fun w => kvmapRead w p ctx d (field x 0 23) (field y 0 12) (field y 16 1))

/-! Holds. -/

/-- The pin form of KVPIN and KVUNPIN (13_kv.md R392). -/
def holdWord (s : State) (x y : Word64) (op : Nat → Nat → BitVec 16 → Nat → HubOp) : Res State :=
  if field x 44 20 ≠ 0 ∨ field y 32 32 ≠ 0 then .trap (trapS 0x07 0#64) s
  else hubWord s (hubReq s 0#6 0#16 0#64 false (op (field x 24 4) (field x 0 24) (x.extractLsb' 28 16) (field y 0 32)))

/-- The status granule of a prefetch (13_kv.md R392). -/
def pinBytes (code pset : Nat) : List Byte := leBytes 1 code ++ leBytes 7 0 ++ leBytes 8 pset ++ leBytes 48 0

/-- The step of a prefetch at the hub (13_kv.md R392): the record is held while its pages are read, and released; its status and
the page set. -/
def prefetchStep (s : State) (q : Prefetch) : KvAns (Nat × Nat) :=
  match s.part? q.pid with
  | none => (.error .unreached, s)
  | some p =>
    match validTree s p q.tree with
    | (none, u) => (.error .unreached, u)
    | (some t, u) =>
      if t.live q.record = false ∨ (t.srec q.record).gen ≠ q.gen ∨ t.layers ≤ q.layer then (.ok (1, 0), u)
      else
        let t1 := t.adjust q.record fun r => (pinned 1 r).2
        (ended (commit u p t t1 []) 0 0).andThen fun _ w =>
          ended (commit w p t1 (t1.adjust q.record fun r => (unpinned 1 r).2) []) 0 (t.pset q.record)

/-- A prefetch is served at the hub, and its granule is written (13_kv.md R392). -/
def servePrefetch (s : State) (q : Prefetch) : State :=
  let x := prefetchStep s q
  let r := x.reply.getD (2, 0)
  let a : Arrival :=
    { dst := q.dst, off := q.off, bytes := pinBytes r.1 r.2, kind := .pin, srcPkg := s.me.ctl.pkg.setWidth 32,
      srcCore := 0xFFFF#16, entry := 0#14 }
  if q.pkg = s.me.ctl.pkg then x.2.hubTo q.pid q.dst.toNat (.taggedArrival a) fun u => arrive u a
  else x.2.launch q.pid hubRank q.pkg q.dst (.tagged a)

/-- KV_PREFETCH_SERVE (13_kv.md R392): the oldest prefetch reaches the hub. -/
def execKvPrefetchServe (s : State) : Host.Outcome State Fault Refusal :=
  .next (match s.prefetch with
    | [] => s
    | q :: rest => servePrefetch { s with prefetch := rest } q)

/-- The prefetch form of KVPIN (13_kv.md R392): posted, and served at once while posted accesses do not queue. -/
def prefetchWord (s : State) (x : Word64) (c : GVal) : Res State :=
  if field x 56 8 ≠ 0 then .trap (trapS 0x07 0#64) s
  else
    (localOperand s c c.word 64 (permStore ||| permAtomic) 64).bind fun t =>
      let q (pkg : BitVec 18) (dst : BitVec 12) (off : BitVec 19) : Prefetch :=
        { pid := s.me.pid, tree := field x 24 4, record := field x 0 24, gen := x.extractLsb' 28 16, layer := field x 44 12,
          pkg := pkg, dst := dst, off := off }
      let w := match t.1 with
        | .here r o => q s.me.ctl.pkg (BitVec.ofNat 12 r) (BitVec.ofNat 19 o)
        | .away p k o => q p k o
      if s.lazy then .ok ({ t.2 with prefetch := t.2.prefetch ++ [w] }.modMe Core.next)
      else .ok ((servePrefetch t.2 w).modMe Core.next)

/-- KVPIN (13_kv.md R392). -/
def execKvpin (a b : GIdx) (s : State) : Host.Outcome State Fault Refusal :=
  let x := (s.me.rg a).word
  let y := s.me.rg b
  settle s (if y.tag then prefetchWord s x y else holdWord s x y.word .pin)

/-- KVUNPIN (13_kv.md R392). -/
def execKvunpin (a b : GIdx) (s : State) : Host.Outcome State Fault Refusal :=
  let x := (s.me.rg a).word
  let y := s.me.rg b
  settle s (if y.tag then .trap (trapS 0x07 0#64) s else holdWord s x y.word .unpin)

/-! Attention graphs. -/

/-- A descriptor of ATTG (13_kv.md R397). -/
structure AttDesc where
  ctx    : BitVec 16
  layer  : Nat
  first  : Nat
  blocks : Nat
  map    : Nat
  entry  : Word64
  merge  : Word64
  arg    : GVal
  done   : Word64
  work   : Nat
  spare  : Nat
  deriving DecidableEq, Repr

/-- The descriptor in the 64 bytes at a key. -/
def attDesc (s : State) (k : Nat) : AttDesc :=
  let n (o w : Nat) : Nat := s.mem.readNat (k + o) w
  { ctx := BitVec.ofNat 16 (n 0 2), layer := n 2 2, first := n 4 4, blocks := n 8 4, map := n 12 4,
    entry := BitVec.ofNat 64 (n 16 8), merge := BitVec.ofNat 64 (n 24 8), arg := s.loadUnit (k + 32),
    done := BitVec.ofNat 64 (n 48 8), work := n 56 4, spare := n 60 4 }

/-- The limits of a descriptor against a view and a tree (13_kv.md R397, R398). -/
def attOk (g : AttDesc) (v : View) (t : Tree) : Bool :=
  decide (g.layer < t.layers) && decide (1 ≤ g.blocks) && decide (g.blocks ≤ 1024) &&
    decide (g.first + g.blocks ≤ spans v.len) && decide (g.map + (g.blocks + 3) / 4 ≤ localSize) && g.work % 64 == 0 &&
    decide (g.work + 64 + 64 * g.blocks ≤ localSize) && g.spare == 0 &&
    (g.done == 0#64 || (region g.done == 0xC && decide (g.done.toNat < 2 ^ 56) && field g.done 0 6 == 0))

/-- The coarse code of block i (13_kv.md R397). -/
def coarse (s : State) (mapKey i : Nat) : Nat := s.mem.readNat (mapKey + i / 4) 1 / 4 ^ (i % 4) % 4

/-- The blocks of a graph with their codes, those that are computed (13_kv.md R398). -/
def attBlocks (s : State) (mapKey n : Nat) : List (Nat × Nat) :=
  ((List.range n).map fun i => (i, coarse s mapKey i)).filter fun b => b.2 == 1 || b.2 == 2

/-- The codelet record of a block (13_kv.md R398). -/
def blockRecord (g : AttDesc) (t : Tree) (len : Nat) (slot : Word64) (b : Nat × Nat) (r : Nat) : Record :=
  let j := g.first + b.1
  { Record.zero with
    argA := g.arg
    argB := GVal.ofNat ((t.pset r + 2 * g.layer * 65536) % 2 ^ 64 + viewOf len j * 2 ^ 64 + b.2 * 2 ^ 80 + t.operand r * 2 ^ 84)
    entry := g.entry, wid := BitVec.ofNat 64 j, done := slot, ctx := g.ctx }

/-- Records pushed one by one at the own young end, after which the word completes; while the deque is full the walker is blocked
in the word, with the records that are left (08_tasks.md R247; log entry 25). -/
def pushOwn (s : State) : List Record → State
  | [] => s.modMe Core.next
  | x :: l =>
    if dequeFull s.me = false ∧ s.me.push = [] then pushOwn (pushedTo (pushYoung s s.rank x) s.rank x) l
    else waitAt s s.rank 0 (.push (x :: l) true) none

/-- The effects of ATTG (13_kv.md R398). -/
def attRun (s : State) (g : AttDesc) (t : Tree) (len : Nat) (bs : List ((Nat × Nat) × Nat)) : State :=
  let slotKey := localKey s.rank g.work
  let slot := s.coordAddr s.rank g.work
  let m : Record :=
    { Record.zero with
      argA := g.arg, argB := GVal.ofNat (g.first + g.blocks * 2 ^ 32), entry := g.merge, wid := BitVec.ofNat 64 bs.length
      done := g.done, ctx := g.ctx, count := BitVec.ofNat 32 bs.length, flags := if bs.isEmpty then 0#16 else 0x0008#16 }
  let s1 := putRecord s slotKey m
  let l := bs.reverse.map fun b => (slotKey + 64 + 64 * b.1.1, blockRecord g t len slot b.1 b.2)
  if bs.isEmpty then pushOwn s1 [m] else pushOwn (l.foldl (fun u x => putRecord u x.1 x.2) s1) (l.map (·.2))

/-- The hold that ATTG takes on the records of its blocks, in one metadata step of the context (13_kv.md R398). -/
def attHold (s : State) (p : Part) (v : View) (t : Tree) (js : List Nat) : KvAns (List Nat × Tree) :=
  (readEntries s p v t js).andThen fun rs u =>
    let t1 := rs.foldl (fun t r => t.adjust r fun z => (pinned 1 z).2) t
    (ended (commit u p t t1 []) 0 0).andThen fun _ w => (.ok (rs, t1), w)

/-- ATTG after its descriptor has been read and its context checked (13_kv.md R398): the limits, the codes, and then what is
poisoned (15_system.md R427). A reserved code records the address of the mask (R426). -/
def attStep (s : State) (x : Word64) (g : AttDesc) (bad : Bool) (p : Part) (v : View) (t : Tree) : Res State :=
  let mapAt := BitVec.ofNat 64 (0xD * 2 ^ 52 + g.map)
  let mapKey := localKey s.rank g.map
  if attOk g v t = false then .trap (trapS 0x07 x) s
  else
    let u := settleFor s s.rank mapAt [ownChunk s.rank g.map ((g.blocks + 3) / 4)]
    if (List.range g.blocks).any fun i => coarse u mapKey i == 3 then .trap (trapS 0x13 mapAt) u
    else if bad || u.poisoned mapKey ((g.blocks + 3) / 4) then .trap (trapS 0x0D x) u
    else
      let bl := attBlocks u mapKey g.blocks
      afterRelease u .pkg fun w => afterReleases w fun w =>
        match attHold w p v t (bl.map fun b => g.first + b.1) with
        | (.error .broken, y) => .trap (trapS 0x0D x) y
        | (.error .unreached, y) => .trap (trapS 0x07 x) y
        | (.ok r, y) => .ok (attRun y g r.2 v.len (bl.zip r.1))

/-- ATTG (13_kv.md R397, R398). -/
def execAttg (a : GIdx) (s : State) : Host.Outcome State Fault Refusal :=
  let c := s.me.rg a
  let x := c.word
  settle s ((access s .s c x 64 permLoad 64 .own).bind fun t =>
    match t.1 with
    | .bytes [k] =>
      let u := settleFor t.2 s.rank x [k]
      let g := attDesc u k.key
      match ctxCheck u g.ctx with
      | (none, w) => .trap (trapS 0x07 x) w
      | (some (p, _), w) =>
        match hubView w p g.ctx with
        | (.ok (v, t), y) => attStep y x g (y.poisoned k.key 64) p v t
        | (.error _, y) => .trap (trapS 0x07 x) y
    | _ => .trap (trapS 0x07 x) t.2)

end Sys2Proof.Machine
end

