-- ==== Sys2Proof/Machine/Matrix.lean ====
section
/-! DEFINITION. M words (11_matrix.md R325 to R349; 03_numbers.md R98 to R100): tiles, accumulators, tile steps,
tokens, nests run by NGO, and the steps that start and complete M words. A word has its effect when it starts (log entry
6); its flags and its token follow when it completes. -/

namespace Sys2Proof.Machine

/-! Tokens and order. -/

/-- The signal token of an M or D word. -/
def sigOf : Instr → BitVec 4
  | .tcfg w | .tld w | .tst w | .tzero w | .ttr w | .mma w | .mmam w | .accld w | .accst w | .acccvt w | .ngo w
  | .nwait w => w.sig
  | .dcpy w | .dredAdd w | .dredMax w | .dredMin w | .dgth w | .dsct w | .dgetMb w | .dgetEv w | .dput w | .dputF w
  | .dstrm w | .dunb w | .dshd w | .dpub w | .dstamp w | .dwaitAll w | .dwaitTok w | .dsig w | .kvwr w => w.sig
  | _ => 0#4

/-- The wait token of an M or D word. -/
def waitOf : Instr → BitVec 4
  | .tcfg w | .tld w | .tst w | .tzero w | .ttr w | .mma w | .mmam w | .accld w | .accst w | .acccvt w | .ngo w
  | .nwait w => w.wait
  | .dcpy w | .dredAdd w | .dredMax w | .dredMin w | .dgth w | .dsct w | .dgetMb w | .dgetEv w | .dput w | .dputF w
  | .dstrm w | .dunb w | .dshd w | .dpub w | .dstamp w | .dwaitAll w | .dwaitTok w | .dsig w | .kvwr w => w.wait
  | _ => 0#4

/-- Whether the words of a nest that are still to run signal a token before a position (11_matrix.md R333). -/
def nestSignals (c : Core) (e : Engine) (k : BitVec 4) (pos : BitVec 32) : Bool :=
  match c.nestOf e with
  | some n =>
    (n.left e (c.capQ e) pos).any (fun b => sigOf b.op == k) || (n.going && n.sig == k && before n.ngo pos)
  | none => false

/-- Whether the words of a capture queue before a position signal a token. -/
def queueSignals (l : List CapEntry) (k : BitVec 4) (pos : BitVec 32) : Bool :=
  l.any fun e => match e with | .vals _ (some i) p => sigOf i == k && before p pos | _ => false

/-- Whether every word before a position that signals a token has completed: the words that the M and D walkers have not
reached, those of nests, and of those started the M words and the D commands that stand before it (11_matrix.md R333). -/
def tokenDone (c : Core) (ms : List MStarted) (ds : List DCmd) (k : BitVec 4) (pos : BitVec 32) : Bool :=
  k == 0#4 ||
    (!queueSignals c.capM k pos && !queueSignals c.capD k pos && !nestSignals c .m k pos && !nestSignals c .d k pos &&
      ms.all (·.sig != k) && ds.all fun x => sigOf x.op != k)

/-- tokenDone of the next word that the M engine starts: every started M word stands before it, also one of an earlier
iteration of its nest. -/
def mTokenDone (c : Core) (k : BitVec 4) (pos : BitVec 32) : Bool :=
  tokenDone c c.mwords (c.dq.filter fun x => before x.pos pos) k pos

/-- tokenDone of a D word behind the commands ds of the queue. -/
def dTokenDone (c : Core) (ds : List DCmd) (k : BitVec 4) (pos : BitVec 32) : Bool :=
  tokenDone c (c.mwords.filter fun m => before m.pos pos) ds k pos

/-! Memory operands. -/

/-- The checks that capability, alignment and region decide for an M or D operand (11_matrix.md R335, 12_copy.md
R352). -/
def engCheck (s : State) (c : GVal) (x : Word64) (n : Nat) (need : BitVec 12) (align : Nat) (own : Bool) : Option Nat :=
  match capCheck c x n (need ||| permEngine ||| regionPerms s x) with
  | some cause => some cause
  | none =>
    if x.toNat % align ≠ 0 then some 0x05
    else if region x ≠ 0x0 ∧ region x ≠ 0xC ∧ region x ≠ 0xD then some 0x07
    else if own = true ∧ s.isOwn x = false then some 0x07
    else none

/-- mspec of 11_matrix.md R335. -/
def mspecAt (s : State) (c : GVal) (x : Word64) (n : Nat) (need : BitVec 12) (own : Bool) : Res (Target × State) :=
  match engCheck s c x n need 64 own with
  | some cause => .trap (mkTrap .m cause x) s
  | none => resolve s .m x n need

/-- mspec of a specifier. -/
def mspec (s : State) (nest : Option Nest) (sp : MSpec) (cap : GVal) (n : Nat) (need : BitVec 12) : Res (Target × State) :=
  mspecAt s cap (specAddr nest sp cap) n need (sp.isLocal)

/-- The bytes of chunks as sparse bytes of their own. -/
def State.sparseChunks (s : State) : List Chunk → Nat → Mem → Mem
  | [], _, m => m
  | c :: t, off, m => State.sparseChunks s t (off + c.len) (Mem.overlay m off c.len (s.mem.slice c.key c.len))

/-- Before an engine reads or writes chunks of the own local memory, the S accesses that come before it there are performed:
buffered stores, and outstanding loads (04_scalar.md R116); before it reads another core's, the posted stores to it
(06_ordering.md R189). Generic memory has no such order between engines (R188). -/
def engSettle (s : State) (x : Word64) (l : List Chunk) : State :=
  settleFor s s.rank x (l.filter fun c => (keyCore c.key).isSome)

/-- An engine's read of a target: its bytes, or a machine check on a poisoned one (11_matrix.md R335). Another package
answers with free values (log entry 10). -/
def engRead (s : State) (w : Engine) (x : Word64) (n : Nat) (t : Target) : Res (Mem × State) :=
  match t with
  | .bytes l =>
    let s1 := engSettle s x l
    if s1.chunksPoisoned l then .trap (mkTrap w 0x0D x) s1 else .ok (s1.sparseChunks l 0 [], s1)
  | .remote p k o =>
    let s1 := { s.request p k (.load o n) with fresh := s.fresh + 1 }
    if Config.remoteOk s.fresh then .ok (Mem.write [] 0 (remoteBytes s.fresh n), s1) else .trap (mkTrap w 0x07 x) s1
  | .window _ => .trap (mkTrap w 0x07 x) s

/-- The bytes that an engine writes: themselves, the offsets of the poisoned ones, and those of the 16-byte units that carry
capability tags (12_copy.md R354, R359). -/
structure Put where
  bytes : Mem
  bad   : List Nat := []
  tags  : List Nat := []

/-- The part of n bytes from an offset. -/
def Put.part (p : Put) (o n : Nat) : Put :=
  let cut (l : List Nat) : List Nat := (l.filter fun i => decide (o ≤ i) && decide (i < o + n)).map (· - o)
  { bytes := p.bytes.slice o n, bad := cut p.bad, tags := cut p.tags }

/-- Bytes written at a key in one step, with their tags and marks (05_memory.md R152, 06_ordering.md R192, 01_machine.md
R37). -/
def putHere (s : State) (key n : Nat) (p : Put) : State :=
  let t := s.storeSparse key n p.bytes
  { t with ctags := (p.tags.map fun o => (key + o) / 16).foldl Keys.insert t.ctags }.markPoison (p.bad.map (key + ·))

/-- A single-copy atomic piece of an engine's write to another core, posted (06_ordering.md R189, R191). -/
def putPiece (s : State) (dst key : Nat) (p : Put) (o : Nat) (q : Nat × Nat) : State :=
  let x := p.part o q.2
  let w : PostedStore :=
    { dst := BitVec.ofNat 12 dst, off := BitVec.ofNat 19 (key + o), bytes := x.bytes.read 0 q.2, tag := false, bad := x.bad
      tags := x.tags }
  s.sendNet s.rank dst (.postedStoreArrive w)

/-- A chunk written by an engine: posted piece by piece to another core while accesses are queued, else at once
(06_ordering.md R189). -/
def engStore (s : State) (c : Chunk) (p : Put) : State :=
  match c.far s.rank with
  | some q =>
    if s.lazy then (atomsOf 64 c.len c.key c.len).foldl (fun t a => putPiece t q c.key p (a.1 - c.key) a) s
    else putHere (flushTo s s.rank q) c.key c.len p
  | none => putHere s c.key c.len p

/-- Chunks written from one run of bytes. -/
def engStores (s : State) (p : Put) : List Chunk → Nat → State
  | [], _ => s
  | c :: t, off => engStores (engStore s c (p.part off c.len)) p t (off + c.len)

/-- An engine's write of n bytes to a target. -/
def engWrite (s : State) (x : Word64) (n : Nat) (t : Target) (p : Put) : State :=
  match t with
  | .bytes l => engStores (engSettle s x l) p l 0
  | .remote pkg core off =>
    s.request pkg core (.store off (p.bytes.read 0 n) p.tags p.bad)
  | .window _ => s

/-! Tiles. -/

/-- Whether a memory specifier's format is that of the tile or RAW (11_matrix.md R334). -/
def fmtMatches (sp : MSpec) (x : Shape) : Bool := sp.format == rawFormat || sp.format.toNat == x.fmt

/-- Trap 0x01 at an M word (11_matrix.md R334). -/
def mIllegal (s : State) : Res (State × BitVec 6) := .trap (mkTrap .m 0x01 0#64) s

/-- TCFG (11_matrix.md R343). -/
def tcfgEffect (w : MWord) (_n : Option Nest) (_k : Caps) (s : State) : Res (State × BitVec 6) :=
  let x : Shape := { fmt := w.shape.fmt.toNat, rows := w.shape.rows.toNat + 1, cols := w.shape.cols.toNat + 1 }
  .ok (s.modMe fun c => c.setShape (tileOf w.d) x.bits, 0#6)

/-- TLD (11_matrix.md R344). -/
def tldEffect (w : MWord) (n : Option Nest) (k : Caps) (s : State) : Res (State × BitVec 6) :=
  let i := tileOf w.d
  let x := s.me.shape i
  if x.fmt = 0 ∨ fmtMatches w.a x = false then mIllegal s
  else
    (mspec s n w.a k.a x.bytes permLoad).bind fun t =>
      (engRead t.2 .m (specAddr n w.a k.a) x.bytes t.1).bind fun r =>
        .ok (r.2.modMe fun c => c.wtile i (Mem.overlay (c.rtile i) 0 x.bytes r.1), 0#6)

/-- TST (11_matrix.md R344). -/
def tstEffect (w : MWord) (n : Option Nest) (k : Caps) (s : State) : Res (State × BitVec 6) :=
  let i := tileOf w.a
  let x := s.me.shape i
  if x.fmt = 0 ∨ fmtMatches w.d x = false then mIllegal s
  else
    (mspec s n w.d k.d x.bytes permStore).bind fun t =>
      .ok (engWrite t.2 (specAddr n w.d k.d) x.bytes t.1 { bytes := (s.me.rtile i).slice 0 x.bytes }, 0#6)

/-- TZERO (11_matrix.md R345). -/
def tzeroEffect (w : MWord) (_n : Option Nest) (_k : Caps) (s : State) : Res (State × BitVec 6) :=
  .ok (s.modMe fun c => if w.d.isTile then c.wtile (tileOf w.d) [] else c.wacc (accOf w.d) [], 0#6)

/-- The transposed image of r rows and c columns of elements of b bytes. -/
def transposed (m : Mem) (r c b : Nat) : List Byte :=
  ((List.range c).map fun i => ((List.range r).map fun j => m.read (b * (c * j + i)) b).flatten).flatten

/-- TTR (11_matrix.md R346). -/
def ttrEffect (w : MWord) (_n : Option Nest) (_k : Caps) (s : State) : Res (State × BitVec 6) :=
  let x := s.me.shape (tileOf w.a)
  if x.fmt = 0 ∨ (blockM x.fmt).isSome then mIllegal s
  else
    let bs := transposed (s.me.rtile (tileOf w.a)) x.rows x.cols (fmtBits x.fmt / 8)
    let y : Shape := { fmt := x.fmt, rows := x.cols, cols := x.rows }
    .ok (s.modMe fun c =>
      (c.wtile (tileOf w.d) ((c.rtile (tileOf w.d)).write 0 bs)).setShape (tileOf w.d) y.bits, 0#6)

/-! Tile steps. -/

/-- Row i of a tile as an operand block with its mantissa width, and the flags of its alignment (03_numbers.md R98). -/
def operandRow (m : Mem) (x : Shape) (i : Nat) : Block × Nat × BitVec 6 :=
  match blockM x.fmt with
  | some w => (blockOf w (m.read (x.rowBytes * i) (blockLen w)), w, 0#6)
  | none =>
    let l := (List.range 32).map fun k => unpack x.fmt (m.readNat (x.rowBytes * i + 2 * k) 2)
    if l.any (·.isInf) then ({ e8 := 0xFF, mant := List.replicate 32 0 }, 12, fNV)
    else
      let r := toBlock 12 l [] fun _ => .rne
      (r.1, 12, r.2)

/-- One addition of 03_numbers.md R99 to an accumulator element. -/
def stepElement (acc : Nat) (a : Block × Nat × BitVec 6) (b : Block × Nat × BitVec 6) : Nat × BitVec 6 :=
  let s : Nat × BitVec 6 :=
    if a.1.e8 = 0xFF ∨ b.1.e8 = 0xFF then (canonNan 10, 0#6)
    else
      let t := ((a.1.mant.zip b.1.mant).map fun (p : Int × Int) => p.1 * p.2).sum
      roundTo 10 (decide (t < 0)) t.natAbs
        ((a.1.e8 : Int) + b.1.e8 - 254 - ((a.2.1 : Int) - 2) - ((b.2.1 : Int) - 2)) false .rne
  let r := addF 10 acc s.1 .rne
  (r.1, s.2 ||| r.2)

/-- Which elements a half computes (11_matrix.md R342): its code, and its bitmap. -/
structure Half where
  code : Nat
  bits : Mem
  deriving DecidableEq, Repr

/-- Whether element (i, j) is computed. -/
def Half.on (h : Half) (i j : Nat) : Bool :=
  h.code == 1 || (h.code == 2 && (Mem.get h.bits (8 * i + j % 64 / 8)).getLsbD (j % 8))

/-- One row of an accumulator after a tile step, with its flags. -/
def stepRow (acc : Mem) (i : Nat) (a : Block × Nat × BitVec 6) (bs : List (Block × Nat × BitVec 6)) (h0 h1 : Half) :
    List Byte × BitVec 6 :=
  let r := bs.zipIdx.map fun (x : (Block × Nat × BitVec 6) × Nat) =>
    let old := acc.readNat (512 * i + 4 * x.2) 4
    if (if x.2 < 64 then h0 else h1).on i x.2 then stepElement old a x.1 else (old, 0#6)
  ((r.map fun q => leBytes 4 q.1).flatten, r.foldl (fun f q => f ||| q.2) 0#6)

/-- A tile step over every row (03_numbers.md R98 to R100): the accumulator and the flags. -/
def stepRows (ta : Mem) (xa : Shape) (bs : List (Block × Nat × BitVec 6)) (h0 h1 : Half) :
    Nat → Mem → BitVec 6 → Mem × BitVec 6
  | 0, acc, f => (acc, f)
  | n + 1, acc, f =>
    let i := xa.rows - (n + 1)
    let a := operandRow ta xa i
    let r := stepRow acc i a bs h0 h1
    stepRows ta xa bs h0 h1 n (acc.write (512 * i) r.1) (f ||| a.2.2 ||| r.2)

/-- Whether a shape may be a step operand (11_matrix.md R326, R328). -/
def Shape.stepOk (x : Shape) : Bool := x.cols == 32 && (x.fmt == 8 || x.fmt == 9 || (blockM x.fmt).isSome)

/-- A residue mismatch is counted, with its column (11_matrix.md R338). -/
def Core.retry (c : Core) (col : BitVec 7) : Core :=
  c.modCtl fun k => { k with mxerr := setField (setField k.mxerr 0 7 col.toNat) 16 16 (min 65535 (field k.mxerr 16 16 + 1)) }

/-- A tile step with two halves (11_matrix.md R338, R347): a mismatch repeats the step, and a second one is a machine
check with the accumulator unchanged. -/
def tileStep (w : MWord) (h0 h1 : Half) (s : State) : Res (State × BitVec 6) :=
  let c := s.me
  let xa := c.shape (tileOf w.a)
  let xb := c.shape (tileOf w.b)
  let run (s : State) : Res (State × BitVec 6) :=
    let tb := c.rtile (tileOf w.b)
    let bs := (List.range xb.rows).map fun j => operandRow tb xb j
    let f0 := bs.foldl (fun f b => f ||| b.2.2) 0#6
    let r := stepRows (c.rtile (tileOf w.a)) xa bs h0 h1 xa.rows (c.racc (accOf w.d)) f0
    .ok (s.modMe fun c => c.wacc (accOf w.d) r.1, r.2)
  match c.residue with
  | [] => run s
  | [j] => run (s.modMe fun c => { c.retry j with residue := [] })
  | j :: j2 :: t =>
    .trap (mkTrap .m 0x0D 0#64) (s.modMe fun c =>
      { (c.retry j).modCtl (fun k => { k with mxerr := setField k.mxerr 0 7 j2.toNat }) with residue := t })

/-- Whether the tiles of a step are configured as it needs. -/
def stepTiles (c : Core) (w : MWord) : Bool := (c.shape (tileOf w.a)).stepOk && (c.shape (tileOf w.b)).stepOk

/-- MMA (11_matrix.md R347). -/
def mmaEffect (w : MWord) (_n : Option Nest) (_k : Caps) (s : State) : Res (State × BitVec 6) :=
  if stepTiles s.me w then tileStep w { code := 1, bits := [] } { code := 1, bits := [] } s else mIllegal s

/-- The address of an MMAM mask record (11_matrix.md R339, R342). -/
def maskAddr (n : Option Nest) (w : MWord) (cap : GVal) : Word64 := specAddr n (.loc w.mask.base w.mask.off 0#5) cap

/-- A half of a mask: its bitmap is read where its code asks for one (11_matrix.md R342, R347). -/
def maskHalf (s : State) (cap : GVal) (x : Word64) (h code : Nat) : Res (Half × State) :=
  if code = 2 then
    let y := x + BitVec.ofNat 64 (64 + 1024 * h)
    (mspecAt s cap y 1024 permLoad true).bind fun t =>
      (engRead t.2 .m y 1024 t.1).bind fun r => .ok ({ code := code, bits := r.1 }, r.2)
  else .ok ({ code := code, bits := [] }, s)

/-- MMAM (11_matrix.md R342, R347). -/
def mmamEffect (w : MWord) (n : Option Nest) (k : Caps) (s : State) : Res (State × BitVec 6) :=
  if stepTiles s.me w then
    let x := maskAddr n w k.m
    (mspecAt s k.m x 64 permLoad true).bind fun t =>
      (engRead t.2 .m x 64 t.1).bind fun r =>
        let b := (Mem.get r.1 0).toNat
        if 16 ≤ b ∨ b % 4 = 3 ∨ b / 4 = 3 then .trap (mkTrap .m 0x13 x) r.2
        else
          (maskHalf r.2 k.m x 0 (b % 4)).bind fun h0 =>
            (maskHalf h0.2 k.m x 1 (b / 4)).bind fun h1 =>
              if b = 0 then .ok (h1.2, 0#6) else tileStep w h0.1 h1.1 h1.2
  else mIllegal s

/-! Accumulator words. -/

/-- ACCLD (11_matrix.md R348). -/
def accldEffect (w : MWord) (n : Option Nest) (k : Caps) (s : State) : Res (State × BitVec 6) :=
  (mspec s n w.a k.a accSize permLoad).bind fun t =>
    (engRead t.2 .m (specAddr n w.a k.a) accSize t.1).bind fun r =>
      .ok (r.2.modMe fun c => c.wacc (accOf w.d) r.1, 0#6)

/-- ACCST (11_matrix.md R348). -/
def accstEffect (w : MWord) (n : Option Nest) (k : Caps) (s : State) : Res (State × BitVec 6) :=
  (mspec s n w.d k.d accSize permStore).bind fun t =>
    .ok (engWrite t.2 (specAddr n w.d k.d) accSize t.1 { bytes := s.me.racc (accOf w.a) }, 0#6)

/-- A converted row of an accumulator window (11_matrix.md R349): its bytes and its flags. -/
def cvtRow (acc : Mem) (sc : Option Mem) (x : Shape) (i c0 : Nat) (mode : Rnd) : List Byte × BitVec 6 :=
  let v := (List.range x.cols).map fun j =>
    let a := unpack 10 (acc.readNat (512 * i + 4 * (c0 + j)) 4)
    match sc with
    | some m => mulVal a (unpack 10 (m.readNat (4 * (c0 + j)) 4))
    | none => (a, 0#6)
  let f0 := v.foldl (fun f q => f ||| q.2) 0#6
  match blockM x.fmt with
  | some m =>
    let r := (List.range (x.cols / 32)).map fun b =>
      toBlock m (((v.drop (32 * b)).take 32).map (·.1)) [] fun _ => mode
    ((r.map fun q => blockBytes m q.1).flatten, r.foldl (fun f q => f ||| q.2) f0)
  | none =>
    let r := v.map fun q => roundVal x.fmt q.1 mode
    ((r.map fun q => leBytes (fmtBits x.fmt / 8) q.1).flatten, r.foldl (fun f q => f ||| q.2) f0)

/-- ACCCVT (11_matrix.md R349). For the codes 4 to 7 of MXCFG.RND, which only an edited frame restores (15_system.md R434), the
rule gives no rounding: each value goes to one of its two neighbours by a free draw (DESIGN CHOICE, log entry 96). A SCOFF that only
such a frame restores may place the scale vector beyond local offset 0x7FFFF, of which no rule speaks: it is read on at the next
core's local memory (DESIGN CHOICE, log entry 113). -/
def acccvtEffect (w : MWord) (_n : Option Nest) (k : Caps) (s : State) : Res (State × BitVec 6) :=
  let c := s.me
  let i := tileOf w.d
  let x := c.shape i
  let o := k.c1.word
  let r0 := field o 16 7
  let c0 := field o 0 7
  if x.fmt = 0 then mIllegal s
  else if field o 23 41 ≠ 0 ∨ field o 7 9 ≠ 0 ∨ 128 < r0 + x.rows ∨ 128 < c0 + x.cols then .trap (mkTrap .m 0x07 0#64) s
  else
    let scen := c.ctl.mxcfg.getLsbD 31
    let key := localKey s.rank (64 * field c.ctl.mxcfg 6 13)
    if scen ∧ s.poisoned key 512 then .trap (mkTrap .m 0x0D (s.coordAddr s.rank (64 * field c.ctl.mxcfg 6 13))) s
    else
      let sc := if scen then some (s.mem.slice key 512) else none
      let mode := rndOf (field c.ctl.mxcfg 24 3) (Config.mxDraw (field c.ctl.mxcfg 24 3))
      let rows := (List.range x.rows).map fun j => cvtRow (c.racc (accOf w.a)) sc x (r0 + j) c0 mode
      .ok (s.modMe fun c => c.wtile i ((c.rtile i).write 0 (rows.map (·.1)).flatten),
        rows.foldl (fun f q => f ||| q.2) 0#6)

/-! Starting and completing. -/

/-- The effect of an M word as it starts; NGO and NWAIT have none of their own. -/
def mEffect (op : Instr) (n : Option Nest) (l : List GVal) (s : State) : Res (State × BitVec 6) :=
  let k (w : MWord) : Caps := capsOf (mFields w) l
  match op with
  | .tcfg w => tcfgEffect w n (k w) s
  | .tld w => tldEffect w n (k w) s
  | .tst w => tstEffect w n (k w) s
  | .tzero w => tzeroEffect w n (k w) s
  | .ttr w => ttrEffect w n (k w) s
  | .mma w => mmaEffect w n (k w) s
  | .mmam w => mmamEffect w n (k w) s
  | .accld w => accldEffect w n (k w) s
  | .accst w => accstEffect w n (k w) s
  | .acccvt w => acccvtEffect w n (k w) s
  | _ => .ok (s, 0#6)

/-- The displacements of a nest's running iteration (04_scalar.md R122). -/
def Nest.disp (n : Nest) : Disp := fun g => let o := nestOff n.desc n.index g; (o, o)

/-- The bit of a tile. -/
def tileBit (sp : MSpec) : BitVec 10 := 1#10 <<< (tileOf sp).toNat

/-- The bit of an accumulator. -/
def accBit (sp : MSpec) : BitVec 10 := 0x100#10 <<< (accOf sp).toNat

/-- What an M word uses (11_matrix.md R332). -/
def mUse : Instr → MUse
  | .tcfg w => { wr := tileBit w.d }
  | .tld w => { wr := tileBit w.d, unit := .path }
  | .tst w => { rd := tileBit w.a, unit := .path }
  | .tzero w => { wr := if w.d.isTile then tileBit w.d else accBit w.d }
  | .ttr w => { rd := tileBit w.a, wr := tileBit w.d, unit := .transpose }
  | .mma w | .mmam w => { rd := tileBit w.a ||| tileBit w.b ||| accBit w.d, wr := accBit w.d, unit := .array }
  | .accld w => { wr := accBit w.d, unit := .path }
  | .accst w => { rd := accBit w.a, unit := .path }
  | .acccvt w => { rd := accBit w.a, wr := tileBit w.d, unit := .convert }
  | _ => {}

/-- The accumulators that the tile step just before wrote, and no other started word since, forwarded to the next tile step
(11_matrix.md R332). -/
def forwarded (l : List MStarted) (u : MUse) : BitVec 10 :=
  if u.unit = .array then
    match l.reverse.find? fun m => m.use.wr &&& u.wr != 0#10 || m.use.unit == .array with
    | some m => if m.use.unit = .array then m.use.wr &&& u.wr else 0#10
    | none => 0#10
  else 0#10

/-- The interlocks of a word (11_matrix.md R332): every started word that writes what it reads or writes has completed, but for a
forwarded accumulator; every one that reads what it writes has read it; its unit is free. -/
def mClear (l : List MStarted) (u : MUse) : Bool :=
  l.all fun m =>
    (m.use.wr &&& (u.rd ||| u.wr) &&& ~~~(forwarded l u)) == 0#10 &&
      (!m.busy || (m.use.rd &&& u.wr == 0#10 && (u.unit == .none || m.use.unit != u.unit)))

/-- Whether an M word at a position may start (11_matrix.md R332, R333; 04_scalar.md R116). -/
def mReady (s : State) (pos : BitVec 32) (f : Disp) (op : Instr) (l : List GVal) : Bool :=
  mTokenDone s.me (waitOf op) pos && mClear s.me.mwords (mUse op) && admits s .m pos (mTouch s (fun i => (s.me.shape i).bytes) f op l)

/-- The effect of a word that starts, after the S accesses that its own follow (04_scalar.md R116). -/
def mStart (s : State) (n : Option Nest) (op : Instr) (l : List GVal) : Res (State × BitVec 6) :=
  let f : Disp := match n with | some m => m.disp | none => noDisp
  mEffect op n l (settleTouches s (mTouch s (fun i => (s.me.shape i).bytes) f op l))

/-- The M walker steps past its word. -/
def Core.mPast (c : Core) : Core := (c.popCap .m).moveWalker .m (c.pcM + 24#64) 6#32

/-- A word has started (11_matrix.md R332). -/
def Core.mStarted (c : Core) (op : Instr) (flags : BitVec 6) (pos : BitVec 32) (ngo : Option (BitVec 32) := none) :
    Core :=
  { c with
    mwords := c.mwords ++ [{ sig := sigOf op, flags := flags, pos := pos, nest := ngo.isSome, use := mUse op, ngo := ngo }] }

/-- The occupancy of a started M word ends (11_matrix.md R332). -/
def Core.mRead (c : Core) (i : Nat) : Core := { c with mwords := c.mwords.modify i fun m => { m with busy := false } }

/-- The captured values at the head of the M queue. -/
def Core.mHead (c : Core) : Option (List GVal) := match c.capM with | .vals l _ _ :: _ => some l | _ => none

/-- An M word at the M walker (11_matrix.md R332, R336, R339; 04_scalar.md R121): a body word joins the loop buffer of an
armed nest; after the body only NGO may stand; any other word starts when it may. -/
def mExec (s : State) (op : Instr) (nb : Bool) : Res State :=
  let c := s.me
  match c.mHead, c.nestM with
  | none, _ => .ok s
  | some l, some n =>
    if n.going then .ok s
    else if n.body.length < n.words then
      if nb then
        .ok (s.modMe fun c =>
          { c.mPast with nestM := some { n with body := n.body ++ [{ op := op, pc := c.pcM, caps := l, pos := c.posM }] } })
      else .trap (mkTrap .m 0x01 0#64) s
    else .trap (mkTrap .m 0x01 0#64) (s.modMe fun c => { c with nestM := none })
  | some l, none =>
    if nb then .trap (mkTrap .m 0x01 0#64) s
    else if mReady s c.posM noDisp op l = false then .ok s
    else (mStart s none op l).bind fun r => .ok (r.1.modMe fun c => c.mPast.mStarted op r.2 c.posM)

/-- TCFG (11_matrix.md R343). -/
def execTcfg (w : MWord) (s : State) : Host.Outcome State Fault Refusal := settleE .m s (mExec s (.tcfg w) w.nb)
/-- TLD (11_matrix.md R344). -/
def execTld (w : MWord) (s : State) : Host.Outcome State Fault Refusal := settleE .m s (mExec s (.tld w) w.nb)
/-- TST (11_matrix.md R344). -/
def execTst (w : MWord) (s : State) : Host.Outcome State Fault Refusal := settleE .m s (mExec s (.tst w) w.nb)
/-- TZERO (11_matrix.md R345). -/
def execTzero (w : MWord) (s : State) : Host.Outcome State Fault Refusal := settleE .m s (mExec s (.tzero w) w.nb)
/-- TTR (11_matrix.md R346). -/
def execTtr (w : MWord) (s : State) : Host.Outcome State Fault Refusal := settleE .m s (mExec s (.ttr w) w.nb)
/-- MMA (11_matrix.md R347). -/
def execMma (w : MWord) (s : State) : Host.Outcome State Fault Refusal := settleE .m s (mExec s (.mma w) w.nb)
/-- MMAM (11_matrix.md R347). -/
def execMmam (w : MWord) (s : State) : Host.Outcome State Fault Refusal := settleE .m s (mExec s (.mmam w) w.nb)
/-- ACCLD (11_matrix.md R348). -/
def execAccld (w : MWord) (s : State) : Host.Outcome State Fault Refusal := settleE .m s (mExec s (.accld w) w.nb)
/-- ACCST (11_matrix.md R348). -/
def execAccst (w : MWord) (s : State) : Host.Outcome State Fault Refusal := settleE .m s (mExec s (.accst w) w.nb)
/-- ACCCVT (11_matrix.md R349). -/
def execAcccvt (w : MWord) (s : State) : Host.Outcome State Fault Refusal := settleE .m s (mExec s (.acccvt w) w.nb)

/-- The started words with none of them counted to the last nest (11_matrix.md R341). -/
def Core.dropNest (c : Core) : Core := { c with mwords := c.mwords.map fun m => { m with nest := false } }

/-- NGO (11_matrix.md R339, R340): the armed nest goes to the address generators; without one the word starts and
completes as any other. -/
def execNgo (w : MWord) (s : State) : Host.Outcome State Fault Refusal :=
  let c := s.me
  settleE .m s (match c.nestM with
    | some n =>
      if n.going = false ∧ n.words ≤ n.body.length ∧ w.nb = false ∧ c.mHead.isSome = true then
        (if mTokenDone c w.wait c.posM then
           .ok (s.modMe fun c =>
             { c.mPast.dropNest with nestM := some { n with going := true, pos := 0, sig := w.sig, ngo := c.posM } })
         else .ok s)
      else mExec s (.ngo w) w.nb
    | none => mExec s (.ngo w) w.nb)

/-- Whether no nest runs: every word of the last one has completed (11_matrix.md R341). -/
def Core.nestDone (c : Core) : Bool := !c.nestGoing && c.mwords.all fun m => !m.nest

/-- NWAIT (11_matrix.md R341). -/
def execNwait (w : MWord) (s : State) : Host.Outcome State Fault Refusal :=
  settleE .m s (if s.me.nestM = none ∧ s.me.nestDone = false then .ok s else mExec s (.nwait w) w.nb)

/-- M_WORD_START (11_matrix.md R332): the word at the M walker starts, when it is an M word other than NGO and NWAIT. -/
def execMWordStart (s : State) : Host.Outcome State Fault Refusal :=
  settleE .m s (match (wordAt s .m).bind fun w => (decodeWord w).toOption with
    | some op =>
      (match op with
       | .tcfg w | .tld w | .tst w | .tzero w | .ttr w | .mma w | .mmam w | .accld w | .accst w | .acccvt w =>
         mExec s op w.nb
       | _ => .ok s)
    | none => .ok s)

/-- M_WORD_COMPLETE (11_matrix.md R332, R333): a started word completes, in any order, with its flags and its token; the NGO of a
nest after every word of the nest (R340). -/
def execMWordComplete (i : Nat) (s : State) : Host.Outcome State Fault Refusal :=
  .next (s.modMe fun c =>
    match c.mwords[i]? with
    | none => c
    | some m =>
      if m.ngo == some m.pos && c.mwords.any (fun x => x.ngo == m.ngo && x.pos != m.pos) then c
      else { c.modCtl (fun k => { k with arflg := k.arflg ||| m.flags.setWidth 32 }) with mwords := c.mwords.eraseIdx i })

/-- The running nest after one of its body words has started; the signal token of NGO follows the last word
(11_matrix.md R339, R340). -/
def Core.nestStep (c : Core) (n : Nest) : Core :=
  if n.pos + 1 < n.words then { c with nestM := some { n with pos := n.pos + 1 } }
  else
    match nextIndex n.desc n.index 0 with
    | some i => { c with nestM := some { n with index := i, pos := 0 } }
    | none =>
      { c with
        nestM := none, mwords := c.mwords ++ [{ sig := n.sig, flags := 0#6, pos := n.ngo, nest := true, ngo := some n.ngo }] }

/-- M_NEST_ITERATION (11_matrix.md R339): the address generators start the next body word of the running iteration. -/
def execMNestIteration (s : State) : Host.Outcome State Fault Refusal :=
  settleE .m s (match s.me.nestM with
    | some n =>
      (if n.going then
        match n.body[n.pos]? with
        | some b =>
          if mReady s (n.place b) n.disp b.op b.caps = false then .ok s
          else
            (mStart s (some n) b.op b.caps).bind fun r =>
              .ok (r.1.modMe fun c => (c.mStarted b.op r.2 (n.place b) (some n.ngo)).nestStep n)
        | none => .ok s
       else .ok s)
    | none => .ok s)

end Sys2Proof.Machine
end

