-- ==== Sys2Proof/Machine/Streams.lean ====
section
/-! DEFINITION. Stream and channel registers as a V word sees them: their strips, the reads that run ahead, and pops
(12_copy.md R362 to R365, 10_vector.md R300 to R302). -/

namespace Sys2Proof.Machine

/-! Words at the V and D walkers. -/

/-- The captured values that a V or D word runs with: those of its capture entry, or in a replay those of the first
iteration (04_scalar.md R112, R122); none where the S walker has not passed the word or the replay stands between two
iterations. -/
def Core.engCaptured (c : Core) (e : Engine) : Option (List GVal) :=
  let front : Option (List GVal) := match c.capQ e with | .vals l _ _ :: _ => some l | _ => none
  match c.nestOf e with
  | some n => if n.replays then (if n.between then none else (n.body[n.pos]?).map (·.caps)) else front
  | none => front

/-- The V or D walker after a word (02_encoding.md R42; 04_scalar.md R115, R122): in the first iteration of a nest the
word joins the loop buffer; the walker steps past the last body word when the nest ends. -/
def Core.engAdvance (c : Core) (e : Engine) (op : Instr) (l : List GVal) : Core :=
  let a := c.walkerPc e
  match c.nestOf e with
  | none => (c.popCap e).moveWalker e (a + 12#64) 3#32
  | some n =>
    let c1 := if n.replays then c else c.popCap e
    match n.after { op := op, pc := a, caps := l, pos := c.walkerPos e } with
    | none => (c1.moveWalker e (a + 12#64) 3#32).setNest e none
    | some m =>
      if m.between then c1.setNest e (some m)
      else if n.replays then
        (c1.moveWalker e (((m.body[m.pos]?).map (·.pc)).getD a) 0#32).setNest e (some m)
      else (c1.moveWalker e (a + 12#64) 3#32).setNest e (some m)

/-! Patterns. -/

/-- LEVELS, COUNT and STRIDE of a stream descriptor (12_copy.md R362). -/
def strmLevels (d : List Byte) : Nat := leNat ((d.drop 1).take 1)

/-- COUNT of a level. -/
def strmCount (d : List Byte) (l : Nat) : Nat := leNat ((d.drop (8 + 4 * l)).take 4)

/-- STRIDE of a level. -/
def strmStride (d : List Byte) (l : Nat) : Int := (BitVec.ofNat 32 (leNat ((d.drop (20 + 4 * l)).take 4))).toInt

/-- The strips of a pattern. -/
def strmTotal (d : List Byte) : Nat := ((List.range (strmLevels d)).map (strmCount d)).foldl (· * ·) 1

/-- The offset of strip k: i_0 varies fastest (12_copy.md R363). -/
def strmOff (d : List Byte) (k : Nat) : Int :=
  let l0 := strmCount d 0
  let l1 := strmCount d 1
  let i0 := k % l0
  let i1 := if strmLevels d = 1 then 0 else k / l0 % l1
  let i2 := if strmLevels d = 3 then k / (l0 * l1) else 0
  (i0 : Int) * strmStride d 0 + (i1 : Int) * strmStride d 1 + (i2 : Int) * strmStride d 2

/-- The address of strip k (12_copy.md R363). -/
def Binding.stripAddr (b : Binding) (k : Nat) : Word64 := b.src.word + BitVec.ofInt 64 (strmOff b.desc k)

/-- The slots of a channel and the offset of its ring (12_copy.md R362, R364). -/
def chanSlots (d : List Byte) : Nat := 2 ^ leNat ((d.drop 1).take 1)

/-- The offset of the slot at HEAD. -/
def Binding.slotOff (b : Binding) : Nat := leNat ((b.desc.drop 8).take 4) + 128 * (b.count % chanSlots b.desc)

/-- What a pop of a bound register finds. -/
inductive Pop where
  /-- The strip. -/
  | strip (x : VReg)
  /-- Nothing yet: a stream's strip has not been read, or a channel's slot is not full. -/
  | wait
  /-- The trap that the pop takes. -/
  | trap (t : Trap)
  deriving DecidableEq, Repr

/-- A pop of register v24 + i without its effect (12_copy.md R363, R364; 10_vector.md R300, R301). -/
def peekStrip (s : State) (i : BitVec 3) : Pop :=
  let b := s.me.rbind i
  match b.mode.toNat with
  | 1 =>
    match b.ahead with
    | .ready x :: _ => .strip x
    | .faulted t :: _ => .trap t
    | [] => .wait
  | 2 =>
    let off := b.slotOff
    if s.me.full (off / 64) && s.me.full (off / 64 + 1) then
      let key := localKey s.rank off
      if s.poisoned key 128 then .trap (mkTrap .v 0x0D (s.coordAddr s.rank off))
      else .strip (BitVec.ofNat 1024 (s.mem.readNat key 128))
    else .wait
  | 3 => .trap (mkTrap .v 0x07 0#64)
  | _ => .wait

/-- The effect of a pop (12_copy.md R363 to R365): a stream counts its strip, and reads 3 in BNDST after its last; a
channel empties both granules and advances HEAD. -/
def popStrip (s : State) (i : BitVec 3) : State :=
  let b := s.me.rbind i
  match b.mode.toNat with
  | 1 =>
    s.modMe fun c => c.wbind i
      { b with count := b.count + 1, ahead := b.ahead.drop 1
               mode := if strmTotal b.desc ≤ b.count + 1 then 3#2 else b.mode }
  | 2 =>
    let g := b.slotOff / 64
    let s1 := s.modMe fun c => c.wbind i { b with count := (b.count + 1) % chanSlots b.desc }
    markGranule (markGranule s1 s.rank g false) s.rank (g + 1) false
  | _ => s

/-- Whether register v24 + i is bound. -/
def Core.bound (c : Core) (i : BitVec 3) : Bool := (c.rbind i).mode != 0#2

/-- The binding of a register that is bound, by its number from v24. -/
def Core.boundReg (c : Core) (v : BitVec 5) : Option (BitVec 3) :=
  if 24 ≤ v.toNat ∧ c.bound (v.setWidth 3) then some (v.setWidth 3) else none

/-- The read of one strip (12_copy.md R363): a fault or a poisoned byte marks it. -/
def readStrip (s : State) (b : Binding) (k : Nat) : Strip × State :=
  let x := b.stripAddr k
  match access s .v b.src x 128 (permLoad ||| permEngine) 1 .memory with
  | .ok (.bytes l, t) =>
    if t.chunksPoisoned l then (.faulted (mkTrap .v 0x0D x), t) else (.ready (BitVec.ofNat 1024 (leNat (t.readChunks l))), t)
  | .ok (.remote p k o, t0) =>
    let t := t0.request p k (.load o 128)
    if Config.remoteOk t.fresh then
      (.ready (BitVec.ofNat 1024 (leNat (remoteBytes t.fresh 128))), { t with fresh := t.fresh + 1 })
    else (.faulted (mkTrap .v 0x07 x), { t with fresh := t.fresh + 1 })
  | .ok (.window _, t) => (.faulted (mkTrap .v 0x07 x), t)
  | .trap t s1 => (.faulted t, s1)
  | .hold _ s1 => (.faulted (mkTrap .v 0x07 x), s1)

/-- Whether a strip stands marked faulted. -/
def Binding.stopped (b : Binding) : Bool := b.ahead.any fun x => match x with | .faulted _ => true | _ => false

/-- STREAM_STRIP_FETCH (12_copy.md R363): the D engine asks for the next strip of a stream, at most 4 ahead. -/
def execStreamStripFetch (reg : BitVec 3) (s : State) : Host.Outcome State Fault Refusal :=
  let b := s.me.rbind reg
  .next (if b.mode = 1#2 ∧ b.asked < b.count + 4 ∧ b.asked < strmTotal b.desc ∧ b.stopped = false then
      s.modMe fun c => c.wbind reg { b with asked := b.asked + 1 }
    else s)

/-- Why the read of a strip must wait, if it must: its page or its core's rank is in transit (05_memory.md R155, 06_ordering.md
R205). -/
def stripHeld (s : State) (b : Binding) (k : Nat) : Option Hold :=
  match access s .v b.src (b.stripAddr k) 128 (permLoad ||| permEngine) 1 .memory with
  | .hold h _ => some h
  | _ => none

/-- Whether every access before a position has been made, but for what stands in the store buffer and can go (12_copy.md R363). -/
def stripReady (s : State) (p : BitVec 32) : Bool :=
  s.me.reached .v p && s.me.reached .m p && !(s.me.nestGoing && before s.me.nestFirst p) &&
    (s.me.dq.all fun q => !before q.pos p) && s.released s.rank

/-- The earlier accesses of a binding are performed, once they have been made (12_copy.md R363). -/
def stripOrder (s : State) (reg : BitVec 3) : State :=
  let b := s.me.rbind reg
  match b.after with
  | none => s
  | some p =>
    if stripReady s p then (flushFrom (drainS s s.rank) s.rank).modMe fun c => c.wbind reg { b with after := none } else s

/-- STREAM_STRIP_RETURN (12_copy.md R363): the oldest strip asked for has been read. One whose page is in transit waits, and is
marked with cause 0x0C at the limit of the stall (06_ordering.md R206). -/
def execStreamStripReturn (reg : BitVec 3) (s : State) : Host.Outcome State Fault Refusal :=
  let t := stripOrder s reg
  let b := t.me.rbind reg
  let k := b.count + b.ahead.length
  .next (if b.mode = 1#2 ∧ k < b.asked ∧ b.stopped = false ∧ b.after = none then
      match stripHeld t b k with
      | some (.ownTransit va) =>
        let since := b.since.getD t.cycle
        t.modMe fun c => c.wbind reg
          (if since + c.ctl.ownwait.toNat ≤ t.cycle then { b with ahead := b.ahead ++ [.faulted (mkTrap .v 0x0C va)], since := none }
           else { b with since := some since })
      | some _ => t
      | none =>
        let r := readStrip t b k
        r.2.modMe fun c => c.wbind reg { b with ahead := b.ahead ++ [r.1], since := none }
    else t)

end Sys2Proof.Machine
end

