-- ==== Sys2Proof/Machine/Data.lean ====
section
/-! DEFINITION. D words (12_copy.md R350 to R376; 13_kv.md R393): their checks at issue, the command queue, transfers with
conversion, tags and poison marks, reductions applied unit by unit, completion notices, and stream bindings. -/

namespace Sys2Proof.Machine

/-! Formats. -/

/-- n elements of b bytes as numbers. -/
def elemsOf (bs : List Byte) (b : Nat) : Nat → List Nat
  | 0 => []
  | n + 1 => leNat (bs.take b) :: elemsOf (bs.drop b) b n

/-- One group converted at .rne (03_numbers.md R95). Between two equal IEEE formats the rule has no row: the bits
stay, a quiet NaN's too, but a signalling NaN turns canonical with NV (DESIGN CHOICE, log entry 95). -/
def convGroup (sf df : BitVec 5) (bs : List Byte) : List Byte × BitVec 6 :=
  let s := sf.toNat
  let d := df.toNat
  let all (l : List (Nat × BitVec 6)) : List Byte × BitVec 6 :=
    ((l.map fun q => leBytes (elemBytes df) q.1).flatten, l.foldl (fun f q => f ||| q.2) 0#6)
  match blockM s, blockM d with
  | some m, some k =>
    let b := blockOf m bs
    let r := toBlock k (b.mant.map (blockVal m b.e8)) [] fun _ => .rne
    (blockBytes k r.1, r.2)
  | some m, none =>
    let b := blockOf m bs
    all (b.mant.map fun i => if isIeee d then roundVal d (blockVal m b.e8 i) .rne else valToInt d (blockVal m b.e8 i) .rne)
  | none, some k =>
    let r := toBlock k ((elemsOf bs (elemBytes sf) 32).map (unpack s)) [] fun _ => .rne
    (blockBytes k r.1, r.2)
  | none, none => all [convert s d (leNat bs) .rne]

/-- n groups of g bytes converted. -/
def convGroups (sf df : BitVec 5) (g : Nat) : Nat → List Byte → List Byte × BitVec 6
  | 0, _ => ([], 0#6)
  | n + 1, bs =>
    let a := convGroup sf df (bs.take g)
    let r := convGroups sf df g n (bs.drop g)
    (a.1 ++ r.1, a.2 ||| r.2)

/-! Checks at issue. -/

/-- The checks of a word, each with the cause and address of its failure. -/
abbrev Checks := List (Option (Nat × Word64))

/-- The failure of highest precedence: the lowest cause, the first of equals (15_system.md R427, 12_copy.md R352). -/
def Checks.worst (l : Checks) : Option (Nat × Word64) :=
  l.foldl (fun a x =>
    match a, x with
    | some p, some q => if q.1 < p.1 then some q else some p
    | none, x => x
    | a, none => a) none

/-- A check that holds unless its condition fails with a cause. -/
def failIf (b : Bool) (cause : Nat) (x : Word64) : Option (Nat × Word64) := if b then some (cause, x) else none

/-- The rank-table valid check of an address (12_copy.md R352); TRANSIT is met at transfer. -/
def rankFail (s : State) (x : Word64) (n : Nat) : Option (Nat × Word64) :=
  if region x = 0x0 then none
  else match resolve s .d x n permLoad with | .trap t _ => some (t.cause.toNat, x) | _ => none

/-- dspec of 12_copy.md R352 at an address. -/
def dspecAt (s : State) (c : GVal) (x : Word64) (n : Nat) (need : BitVec 12) (al : Nat) (own : Bool) : Option (Nat × Word64) :=
  match engCheck s c x n need al own with
  | some cause => some (cause, x)
  | none => rankFail s x n

/-- dspec of a specifier. -/
def dspec (s : State) (nest : Option Nest) (sp : MSpec) (c : GVal) (n : Nat) (need : BitVec 12) (al : Nat) :
    Option (Nat × Word64) :=
  dspecAt s c (specAddr nest sp c) n need al sp.isLocal

/-- A capability operand that is no specifier: a barrier, a handle or an index list (12_copy.md R360, R368, R371). -/
def operandFail (s : State) (c : GVal) (n : Nat) (need : BitVec 12) (al : Nat) (allow : Allow) : Option (Nat × Word64) :=
  match precheck s c c.word n need al allow with
  | some cause => some (cause, c.word)
  | none => rankFail s c.word n

/-- The check of an optional barrier operand (12_copy.md R360, 07_sync.md R232). -/
def barFail (s : State) (w : DWord) (c : GVal) : Option (Nat × Word64) :=
  if w.cap2 = 0#6 then none else operandFail s c 64 (permLoad ||| permStore ||| permAtomic) 64 .local_

/-- The check of a mailbox operand, as MBINC makes it (07_sync.md R227). -/
def mailFail (s : State) (c : GVal) : Option (Nat × Word64) :=
  let x := c.word
  match precheck s c x 4 (permStore ||| permAtomic) 1 .any with
  | some cause => some (cause, x)
  | none => if region x ≠ 0xE ∨ field x 49 3 ≠ 0 ∨ field x 10 9 ≠ 0 then some (0x07, x) else rankFail s x 4

/-- The checks of the plain-data operand of DGET.ev (12_copy.md R372). -/
def evFails (c : GVal) : Checks :=
  let v := c.bits
  [failIf (c.tag || field v 51 12 != 0 || field v 64 64 != 0) 0x07 0#64,
   failIf (v.getLsbD 63 && field v 32 19 % 64 != 0) 0x05 0#64]

/-- A length of 2^32 or more (12_copy.md R352). -/
def lenFail (len : Nat) : Option (Nat × Word64) := failIf (decide (2 ^ 32 ≤ len)) 0x07 0#64

/-- The length rule of a copy (12_copy.md R369); the bytes of a RAW side are those of the other's format (log entry 61). -/
def copyLen (sf df : BitVec 5) (len : Nat) : Option (Nat × Word64) :=
  failIf (len % elemBytes (if sf = rawFormat then df else sf) != 0 || len % (groupBytes sf df).1 != 0) 0x07 0#64

/-- The checks of a D word at issue (12_copy.md R352, R360, R367 to R376; 13_kv.md R393). -/
def dChecks (s : State) (n : Option Nest) (op : Instr) (l : List GVal) : Checks :=
  let k (w : DWord) : Caps := capsOf (dFields w) l
  let len (w : DWord) : Nat := (k w).c1.word.toNat
  let d (w : DWord) (m : Nat) (need : BitVec 12) (al : Nat) := dspec s n w.d (k w).d m need al
  let a (w : DWord) (m : Nat) (al : Nat) := dspec s n w.s (k w).a m permLoad al
  let bar (w : DWord) := barFail s w (k w).c2
  match op with
  | .dcpy w =>
    let sf := w.s.format
    let df := w.d.format
    [lenFail (len w), copyLen sf df (len w), d w (copyBytes sf df (len w)) permStore (elemAlign df),
     a w (len w) (elemAlign sf), bar w]
  | .dredAdd w | .dredMax w | .dredMin w =>
    let e := elemBytes w.s.format
    [lenFail (len w), failIf (len w % e != 0) 0x07 0#64, d w (len w) (permLoad ||| permStore ||| permAtomic) e,
     a w (len w) e, bar w]
  | .dgth w =>
    let e := elemAlign w.s.format
    [failIf (decide (65536 < len w)) 0x07 0#64, d w (len w * moveBytes w.s.format) permStore e, a w 0 e,
     operandFail s (k w).c2 (4 * len w) permLoad 1 .own]
  | .dsct w =>
    let e := elemAlign w.s.format
    [failIf (decide (65536 < len w)) 0x07 0#64, d w 0 permStore e, a w (len w * moveBytes w.s.format) e,
     operandFail s (k w).c2 (4 * len w) permLoad 1 .own]
  | .dgetMb w => [lenFail (len w), d w (len w) permStore 1, a w (len w) 1, mailFail s (k w).c2]
  | .dgetEv w => [lenFail (len w), d w (len w) permStore 1, a w (len w) 1] ++ evFails (k w).c2
  | .dput w => [lenFail (len w), d w (len w) permStore 1, a w (len w) 1, bar w]
  | .dputF w =>
    let x := specAddr n w.d (k w).d
    [lenFail (len w), failIf (len w % 64 != 0) 0x05 x, d w (len w) (permStore ||| permAtomic) 64,
     failIf (region x == 0x0) 0x07 x, a w (len w) 1, bar w]
  | .dstamp w => [lenFail (len w), d w (stampBytes (len w)) permStore 8, a w (len w) 1]
  | .dpub w => [operandFail s (k w).c1 64 (permLoad ||| permStore ||| permAtomic) 64 .memory]
  | .dsig w => [mailFail s (k w).c1]
  | .kvwr w =>
    let x := (k w).c1.bits
    [failIf (field x 23 9 != 0 || field x 48 80 != 0 || field (k w).c2.bits 12 116 != 0) 0x07 0#64, a w 2048 64]
  | _ => []

/-! Shadow handles at issue. -/

/-- The offset of a DSHD into its version, with what a nest adds (12_copy.md R367, 04_scalar.md R122). -/
def shadowOff (n : Option Nest) (sp : MSpec) : Int :=
  match sp with
  | .cap g off _ => off.toInt + (match n with | some m => nestOff m.desc m.index g | none => 0)
  | _ => 0

/-- The hidden version of a shadow handle, with its address at the offset of the word (12_copy.md R366, R367): the failure
of highest precedence among the checks on the handle, its record, and the checks on the buffer. -/
def shadowBuf (s : State) (n : Option Nest) (w : DWord) (c : GVal) (len : Nat) (al : Nat) : Option Trap × GVal × State :=
  let o := shadowOff n w.d
  let neg := failIf (decide (o < 0)) 0x07 c.word
  let fail (t : State) (b : GVal) (l : Checks) (ok : Option Trap × GVal × State) : Option Trap × GVal × State :=
    match Checks.worst l with
    | some f => (some (mkTrap .d f.1 f.2), b, t)
    | none => ok
  let buffer (t : State) (cells : Int) (b : GVal) : Option Trap × GVal × State :=
    let x := b.word + BitVec.ofInt 64 o
    fail t b [dspecAt t b x len permStore al false, failIf (decide (cells < o + len)) 0x03 x, neg] (none, b.withWord x, t)
  let bad := operandFail s c 64 permLoad 64 .memory
  fail s c (if bad.isSome then [bad, neg] else [])
    (match resolve s .d c.word 64 permLoad with
     | .ok (.bytes [h], t) =>
       let q := buffer t (t.mem.readNat (h.key + 8) 8) (t.loadUnit (h.key + 16 + (if t.mem.readNat h.key 1 % 2 = 1 then 0 else 16)))
       if t.poisoned h.key 64 then (some (mkTrap .d (if neg.isSome then 0x07 else 0x0D) c.word), c, t) else q
     | .ok (.remote p k off, t) =>
       let u := { t.request p k (.load off 64) with fresh := t.fresh + 1 }
       let m := Mem.write [] 0 (remoteBytes t.fresh 64)
       let a := 16 + (if m.readNat 0 1 % 2 = 1 then 0 else 16)
       if Config.remoteOk t.fresh then
         buffer u (m.readNat 8 8) { bits := BitVec.ofNat 128 (m.readNat a 16), tag := remoteTag t.fresh 64 (a / 16) }
       else (some (mkTrap .d 0x07 c.word), c, u)
     | .ok (_, t) => (some (mkTrap .d 0x07 c.word), c, t)
     | .trap e t => (some e, c, t)
     | .hold _ t => (none, c, t))

/-- Why the word waits, if its handle's page or rank is in transit. -/
def shadowHeld (s : State) (c : GVal) : Option Hold := match resolve s .d c.word 64 permLoad with | .hold h _ => some h | _ => none

/-! Issue. -/

/-- Whether a word is a reduction. -/
def isRed : Instr → Bool
  | .dredAdd _ | .dredMax _ | .dredMin _ => true
  | _ => false

/-- The destination and source specifiers of a D word. -/
def dSpecs : Instr → MSpec × MSpec
  | .dcpy w | .dredAdd w | .dredMax w | .dredMin w | .dgth w | .dsct w | .dgetMb w | .dgetEv w | .dput w | .dputF w
  | .dshd w | .dstamp w | .kvwr w => (w.d, w.s)
  | _ => (.absent, .absent)

/-- What a nest adds to a specifier (04_scalar.md R122). -/
def specDisp (n : Option Nest) (sp : MSpec) : Int :=
  match n with
  | some m => nestOff m.desc m.index (mspecField sp)
  | none => 0

/-- The command of a word that issues (12_copy.md R350, R355). -/
def newCmd (core : BitVec 12) (c : Core) (op : Instr) (l : List GVal) : DCmd :=
  let sp := dSpecs op
  { op := op, pc := c.pcD, pos := c.posD, caps := l, dispD := specDisp c.nestD sp.1, dispS := specDisp c.nestD sp.2,
    num := c.dnum, phase := .queued, done := 0, flags := 0#6, core := core }

/-- A word steps into the command queue, numbered in issue order, its body word's captures kept for the replay (12_copy.md R350,
R355). -/
def dQueue (s : State) (op : Instr) (l cl : List GVal) : State :=
  s.modMe fun c =>
    { c.engAdvance .d op l with dq := c.dq ++ [newCmd (BitVec.ofNat 12 s.rank) c op cl], dnum := c.dnum + 1#16 }

/-- A D word at the D walker (12_copy.md R350 to R352, 04_scalar.md R121): nb stands in a nest body and nowhere else;
the word waits for its capture and for a place in the queue. -/
def dIssue (s : State) (op : Instr) (nb : Bool) (f : List GVal → Res State) : Res State :=
  let c := s.me
  match c.engCaptured .d with
  | none => .ok s
  | some l => if nb ≠ c.nestD.isSome then .trap (mkTrap .d 0x01 0#64) s else if 16 ≤ c.dq.length then .ok s else
    match (dChecks s c.nestD op l).worst with
    | some x => .trap (mkTrap .d x.1 x.2) s
    | none => f l

/-- A D word whose command waits in the queue. -/
def dExec (s : State) (op : Instr) (w : DWord) : Host.Outcome State Fault Refusal :=
  settleE .d s (dIssue s op w.nb fun l => .ok (dQueue s op l l))

/-- DCPY (12_copy.md R369). -/
def execDcpy (w : DWord) (s : State) : Host.Outcome State Fault Refusal := dExec s (.dcpy w) w
/-- DRED.add (12_copy.md R370). -/
def execDredAdd (w : DWord) (s : State) : Host.Outcome State Fault Refusal := dExec s (.dredAdd w) w
/-- DRED.max (12_copy.md R370). -/
def execDredMax (w : DWord) (s : State) : Host.Outcome State Fault Refusal := dExec s (.dredMax w) w
/-- DRED.min (12_copy.md R370). -/
def execDredMin (w : DWord) (s : State) : Host.Outcome State Fault Refusal := dExec s (.dredMin w) w
/-- DGTH (12_copy.md R371). -/
def execDgth (w : DWord) (s : State) : Host.Outcome State Fault Refusal := dExec s (.dgth w) w
/-- DSCT (12_copy.md R371). -/
def execDsct (w : DWord) (s : State) : Host.Outcome State Fault Refusal := dExec s (.dsct w) w
/-- DGET.mb (12_copy.md R372). -/
def execDgetMb (w : DWord) (s : State) : Host.Outcome State Fault Refusal := dExec s (.dgetMb w) w
/-- DGET.ev (12_copy.md R372). -/
def execDgetEv (w : DWord) (s : State) : Host.Outcome State Fault Refusal := dExec s (.dgetEv w) w
/-- DPUT (12_copy.md R373). -/
def execDput (w : DWord) (s : State) : Host.Outcome State Fault Refusal := dExec s (.dput w) w
/-- DPUT.f (12_copy.md R373). -/
def execDputF (w : DWord) (s : State) : Host.Outcome State Fault Refusal := dExec s (.dputF w) w
/-- DPUB (12_copy.md R368). -/
def execDpub (w : DWord) (s : State) : Host.Outcome State Fault Refusal := dExec s (.dpub w) w
/-- DSTAMP (12_copy.md R374). -/
def execDstamp (w : DWord) (s : State) : Host.Outcome State Fault Refusal := dExec s (.dstamp w) w
/-- DSIG (12_copy.md R376). -/
def execDsig (w : DWord) (s : State) : Host.Outcome State Fault Refusal := dExec s (.dsig w) w
/-- KVWR (13_kv.md R393). -/
def execKvwr (w : DWord) (s : State) : Host.Outcome State Fault Refusal := dExec s (.kvwr w) w

/-- The failure of higher precedence of two, the first where both have one cause (15_system.md R427). -/
def worseTrap (a b : Option Trap) : Option Trap :=
  match a, b with
  | some x, some y => if y.cause.toNat < x.cause.toNat then some y else some x
  | none, y => y
  | x, none => x

/-- DSHD (12_copy.md R352, R367): the handle is read at issue, and the buffer that it names goes with the command. -/
def execDshd (w : DWord) (s : State) : Host.Outcome State Fault Refusal :=
  let n := s.me.nestD
  settleE .d s (dIssue s (.dshd w) w.nb fun l =>
    let k := capsOf (dFields w) l
    let len := k.c1.word.toNat
    let sf := w.s.format
    let df := w.d.format
    let others := Checks.worst [lenFail len, copyLen sf df len, dspec s n w.s k.a len permLoad (elemAlign sf), barFail s w k.c2]
    let u := engSettle s k.d.word (match resolve s .d k.d.word 64 permLoad with | .ok (.bytes h, _) => h | _ => [])
    let b := shadowBuf u n w k.d (copyBytes sf df len) (elemAlign df)
    match worseTrap (others.map fun f => mkTrap .d f.1 f.2) b.1 with
    | some t => .trap t b.2.2
    | none =>
      match shadowHeld s k.d with
      | some h => .hold h s
      | none => .ok (dQueue b.2.2 (.dshd w) l (l ++ [b.2.1])))

/-! Words of the D walker. -/

/-- A word that the D walker executes itself: it stands outside nest bodies and waits for its token and for a further
condition (12_copy.md R351, R375). -/
def dWalk (s : State) (op : Instr) (nb : Bool) (ready : Core → Bool) (f : List GVal → Res State) : Res State :=
  let c := s.me
  match c.engCaptured .d with
  | none => .ok s
  | some l =>
    if nb = true ∨ c.nestD.isSome = true then .trap (mkTrap .d 0x01 0#64) s
    else if dTokenDone c c.dq (waitOf op) c.posD && ready c then f l
    else .ok s

/-- DWAIT.all (12_copy.md R375). -/
def execDwaitAll (w : DWord) (s : State) : Host.Outcome State Fault Refusal :=
  settleE .d s (dWalk s (.dwaitAll w) w.nb (fun c => c.dq.isEmpty) fun l =>
    .ok (s.modMe fun c => c.engAdvance .d (.dwaitAll w) l))

/-- DWAIT.tok (12_copy.md R375). -/
def execDwaitTok (w : DWord) (s : State) : Host.Outcome State Fault Refusal :=
  settleE .d s (dWalk s (.dwaitTok w) w.nb (fun _ => true) fun l => .ok (s.modMe fun c => c.engAdvance .d (.dwaitTok w) l))

/-- vd of DSTRM or DUNB is unbound and holds zero bits (12_copy.md R365). -/
def Core.unbind (c : Core) (v : BitVec 5) : Core :=
  { c.wv v 0#1024 with
    binds := c.binds.set (v.setWidth 3 : BitVec 3).toNat Binding.none (by have := (v.setWidth 3 : BitVec 3).isLt; omega)
    latches := c.latches.filter fun x => x.isPred || x.index != v }

/-- DUNB (12_copy.md R365): it waits for the earlier V words that name its register. -/
def execDunb (w : DWord) (s : State) : Host.Outcome State Fault Refusal :=
  settleE .d s (dWalk s (.dunb w) w.nb (fun c => !vNaming c (streamOf w.d) c.posD) fun l =>
    .ok (s.modMe fun c => (c.engAdvance .d (.dunb w) l).unbind (streamOf w.d)))

/-- Whether bytes of a descriptor are zero. -/
def zeroBytes (d : List Byte) (o n : Nat) : Bool := ((d.drop o).take n).all (· == 0#8)

/-- Whether a stream descriptor keeps the limits of 12_copy.md R362. -/
def strmOk (d : List Byte) : Bool :=
  let n := strmLevels d
  leNat (d.take 1) == 1 && decide (1 ≤ n) && decide (n ≤ 3) && zeroBytes d 2 6 && zeroBytes d 48 16 &&
  (List.range 3).all fun l => if l < n then decide (1 ≤ strmCount d l) else strmCount d l == 0 && strmStride d l == 0

/-- Whether a channel descriptor keeps the limits of 12_copy.md R362. -/
def chanOk (d : List Byte) : Bool :=
  let lg := leNat ((d.drop 1).take 1)
  let ring := leNat ((d.drop 8).take 4)
  leNat (d.take 1) == 2 && decide (1 ≤ lg) && decide (lg ≤ 8) && zeroBytes d 2 6 && zeroBytes d 12 52 && ring % 128 == 0 &&
    decide (ring + 128 * 2 ^ lg ≤ localSize)

/-- The offsets of the lowest and highest strips of a pattern. -/
def strmSpan (d : List Byte) : Int × Int :=
  (List.range (strmLevels d)).foldl (fun a l =>
    let m := ((strmCount d l : Int) - 1) * strmStride d l
    (a.1 + min 0 m, a.2 + max 0 m)) (0, 0)

/-- The check of a stream's source over its whole pattern (12_copy.md R362, R363). -/
def strmFail (d : List Byte) (c : GVal) : Option (Nat × Word64) :=
  let a : Int := c.word.toNat
  let lo := a + (strmSpan d).1
  let hi := a + (strmSpan d).2 + 128
  let off : Bool := (List.range (strmLevels d)).any fun l => decide (1 < strmCount d l) && strmStride d l % 64 != 0
  Checks.worst [match capCheck c (BitVec.ofInt 64 lo) (hi - lo).toNat (permLoad ||| permEngine) with
      | some cause => some (cause, c.word)
      | none => failIf (decide (lo < 0)) 0x03 c.word,
    failIf (a % 64 != 0 || off) 0x05 c.word]

/-- DSTRM (12_copy.md R362 to R365): it waits for the earlier V words that name its register, and its descriptor is read as the range
checker admits it. -/
def execDstrm (w : DWord) (s : State) : Host.Outcome State Fault Refusal :=
  settleE .d s (dWalk s (.dstrm w) w.nb (fun c => !vNaming c (streamOf w.d) c.posD && admits s .d c.posD (cmdTouch s (newCmd 0#12 c
      (.dstrm w) ((c.engCaptured .d).getD [])))) fun l =>
    let k := capsOf (dFields w) l
    let x := specAddr none w.s k.a
    let s0 := settleTouches s (touchAt s x 64 false)
    match dspecAt s0 k.a x 64 (permLoad ||| permLoadCap) 64 true with
    | some f => .trap (mkTrap .d f.1 f.2) s
    | none =>
      let key := localKey s0.rank (coordOff x)
      let d := s0.mem.read key 64
      let src := s0.loadUnit (key + 32)
      let bind (b : Binding) : Res State :=
        .ok (s0.modMe fun c => ((c.engAdvance .d (.dstrm w) l).unbind (streamOf w.d)).wbind ((streamOf w.d).setWidth 3) b)
      if s0.poisoned key 64 then .trap (mkTrap .d 0x0D x) s
      else if strmOk d then
        match strmFail d src with
        | some f => .trap (mkTrap .d f.1 f.2) s
        | none => bind { mode := 1#2, desc := d, src := src, count := 0, asked := 0, ahead := [], after := some s0.me.posD }
      else if chanOk d then bind { mode := 2#2, desc := d, src := GVal.zero, count := 0, asked := 0, ahead := [] }
      else .trap (mkTrap .d 0x07 x) s)

/-! Transfers. -/

/-- What a command reads: bytes, the offsets of poisoned ones, and the tagged units with their offsets. -/
structure Got where
  bytes : Mem
  bad   : List Nat
  tags  : List (Nat × GVal)

/-- The offsets of poisoned bytes in chunks. -/
def State.badOffs (s : State) : List Chunk → Nat → List Nat
  | [], _ => []
  | c :: t, off =>
    ((s.poison.filter fun k => decide (c.key ≤ k) && decide (k < c.key + c.len)).map fun k => k - c.key + off) ++
      State.badOffs s t (off + c.len)

/-- The tagged units that lie whole in chunks, by their offsets. -/
def State.tagOffs (s : State) : List Chunk → Nat → List (Nat × GVal)
  | [], _ => []
  | c :: t, off =>
    ((s.ctags.filter fun u => decide (c.key ≤ 16 * u) && decide (16 * u + 16 ≤ c.key + c.len)).map fun u =>
      (16 * u - c.key + off, s.loadUnit (16 * u))) ++ State.tagOffs s t (off + c.len)

/-- The part of n bytes from an offset. -/
def Got.part (g : Got) (o n : Nat) : Got :=
  { bytes := g.bytes.slice o n, bad := (g.bad.filter fun i => decide (o ≤ i) && decide (i < o + n)).map (· - o)
    tags := (g.tags.filter fun i => decide (o ≤ i.1) && decide (i.1 + 16 ≤ o + n)).map fun i => (i.1 - o, i.2) }

/-- The D engine reads n bytes, poisoned ones with their marks (12_copy.md R354). -/
def dRead (s : State) (x : Word64) (n : Nat) : Res (Got × State) :=
  if n = 0 then .ok ({ bytes := [], bad := [], tags := [] }, s)
  else
    (resolve s .d x n permLoad).bind fun t =>
      match t.1 with
      | .bytes l =>
        let s1 := engSettle t.2 x l
        .ok ({ bytes := s1.sparseChunks l 0 [], bad := s1.badOffs l 0, tags := s1.tagOffs l 0 }, s1)
      | u =>
        let tags : List (Nat × GVal) := match u with
          | .remote _ _ o =>
            (((List.range n).filter fun i => (o.toNat + i) % 16 == 0 && decide (i + 16 ≤ n)).filter fun i =>
              remoteTag t.2.fresh n (i / 16)).map fun i => (i, GVal.ofNat (leNat (((remoteBytes t.2.fresh n).drop i).take 16)))
          | _ => []
        (engRead t.2 .d x n u).bind fun r => .ok ({ bytes := r.1, bad := [], tags := tags }, r.2)

/-- The chunk and key of an offset. -/
def chunkAt : List Chunk → Nat → Option (Chunk × Nat)
  | [], _ => none
  | c :: t, o => if o < c.len then some (c, c.key + o) else chunkAt t (o - c.len)

/-- Whether a tagged unit of a copy keeps its tag at its place (12_copy.md R359): on an aligned unit outside host memory,
the value global or staying in the core. -/
def keepsTag (s : State) (t : Target) (x : Nat × GVal) : Bool :=
  match t with
  | .bytes l =>
    match chunkAt l x.1 with
    | some (c, k) => k % 16 == 0 && !c.host && (capHas x.2.bits permGlobal || keyCore k == some s.rank)
    | none => false
  | .remote _ _ o => (o.toNat + x.1) % 16 == 0 && capHas x.2.bits permGlobal
  | .window _ => false

/-- The D engine writes n bytes, with poison marks and tags. -/
def dWrite (s : State) (x : Word64) (n : Nat) (g : Got) : Res State :=
  if n = 0 then .ok s
  else
    (resolve s .d x n permStore).bind fun t =>
      .ok (engWrite t.2 x n t.1 { bytes := g.bytes, bad := g.bad, tags := (g.tags.filter (keepsTag t.2 t.1)).map (·.1) })

/-- What a copy of n source bytes writes (12_copy.md R354, R369): a converted group is poisoned where one of its source
bytes is. -/
def convGot (sf df : BitVec 5) (n : Nat) (g : Got) : Got × BitVec 6 :=
  let gb := groupBytes sf df
  if sf = rawFormat ∨ df = rawFormat then (g, 0#6)
  else
    let r := convGroups sf df gb.1 (n / gb.1) (g.bytes.read 0 n)
    ({ bytes := Mem.cells 0 r.1, tags := []
       bad := ((g.bad.map (· / gb.1)).eraseDups.map fun i => (List.range gb.2).map (i * gb.2 + ·)).flatten }, r.2)

/-- A copy from one address to another with conversion (12_copy.md R358, R359, R369): every source byte is read before
any is written. Tags go along where `tags` holds. -/
def copyMove (s : State) (sf df : BitVec 5) (sx dx : Word64) (n : Nat) (tags : Bool) : Res (State × BitVec 6) :=
  (dRead s sx n).bind fun g =>
    let r := convGot sf df n g.1
    (dWrite g.2 dx (copyBytes sf df n) (if tags then r.1 else { r.1 with tags := [] })).bind fun t => .ok (t, r.2)

/-- Whether capabilities let a copy carry tags (12_copy.md R359). -/
def tagsGo (sf df : BitVec 5) (sc dc : GVal) : Bool :=
  sf == rawFormat && df == rawFormat && capHas sc.bits permLoadCap && capHas dc.bits permStoreCap

/-- The indexed elements of a gather, read in ascending order to their places in a row (12_copy.md R371): the bounds of
each are checked. -/
def gatherRead (s : State) (sc : GVal) (sx : Word64) (e : Nat) : List (Nat × Nat) → Got → Res (Got × State)
  | [], g => .ok (g, s)
  | (k, i) :: t, g =>
    let x := sx + BitVec.ofNat 64 (i * e)
    match engCheck s sc x e permLoad 1 false with
    | some cause => .trap (mkTrap .d cause x) s
    | none =>
      (dRead s x e).bind fun r =>
        gatherRead r.2 sc sx e t
          { bytes := g.bytes.overlay (k * e) e r.1.bytes, bad := g.bad ++ r.1.bad.map (k * e + ·), tags := [] }

/-- The elements of a row written to their indexed places in ascending order (12_copy.md R371). -/
def scatterWrite (s : State) (dc : GVal) (dx : Word64) (e : Nat) (g : Got) : List (Nat × Nat) → Res State
  | [] => .ok s
  | (k, i) :: t =>
    let x := dx + BitVec.ofNat 64 (i * e)
    match engCheck s dc x e permStore 1 false with
    | some cause => .trap (mkTrap .d cause x) s
    | none =>
      (dWrite s x e
        { bytes := g.bytes.slice (k * e) e, tags := []
          bad := (g.bad.filter fun o => decide (k * e ≤ o) && decide (o < (k + 1) * e)).map (· - k * e) }).bind fun u =>
        scatterWrite u dc dx e g t

/-- A gather or scatter with its index list; every element is read before any is written (12_copy.md R358, R371). -/
def gatherMove (s : State) (gather : Bool) (sc dc : GVal) (sx dx : Word64) (e cnt : Nat) (idx : GVal) : Res State :=
  (resolve s .d idx.word (4 * cnt) permLoad).bind fun t =>
    (engRead t.2 .d idx.word (4 * cnt) t.1).bind fun r =>
      let l := (List.range cnt).map fun k => (k, r.1.readNat (4 * k) 4)
      if gather then
        (gatherRead r.2 sc sx e l { bytes := [], bad := [], tags := [] }).bind fun g => dWrite g.2 dx (cnt * e) g.1
      else (dRead r.2 sx (cnt * e)).bind fun g => scatterWrite g.2 dc dx e { g.1 with tags := [] } l

/-- The granules of a DPUT.f as tagged arrivals in ascending order (12_copy.md R358, R373). -/
def putGranules (num : BitVec 16) (g : Got) (l : List Chunk) : Nat → Nat → State → State
  | 0, _, s => s
  | n + 1, i, s =>
    match chunkAt l (64 * i) with
    | some (_, k) =>
      let a : Arrival :=
        { dst := BitVec.ofNat 12 ((keyCore k).getD 0), off := BitVec.ofNat 19 k, bytes := g.bytes.read (64 * i) 64,
          kind := .dputf, srcPkg := s.me.ctl.pkg.setWidth 32, srcCore := BitVec.ofNat 16 s.rank, entry := 0#14
          bad := (g.bad.filter fun o => o / 64 == i).map (· % 64), cmd := num }
      putGranules num g l n (i + 1) (sendArrival s a)
    | none => s

/-- The granules of a DPUT.f to another package. -/
def putAway (num : BitVec 16) (g : Got) (pkg : BitVec 18) (core : BitVec 12) (off : BitVec 19) (s : State) (n : Nat) : State :=
  (List.range n).foldl (fun t i =>
    let o := core.toNat * 2 ^ 19 + off.toNat + 64 * i
    t.request pkg (BitVec.ofNat 12 (o / 2 ^ 19)) <| .tagged
      { dst := BitVec.ofNat 12 (o / 2 ^ 19), off := BitVec.ofNat 19 o, bytes := g.bytes.read (64 * i) 64, kind := .dputf,
        srcPkg := s.me.ctl.pkg.setWidth 32, srcCore := BitVec.ofNat 16 s.rank, entry := 0#14
        bad := (g.bad.filter fun q => q / 64 == i).map (· % 64), cmd := num }) s

/-- Before a release of the D engine its core's own accesses are performed (06_ordering.md R194). -/
def releaseAll_ (s : State) : State := flushFrom (drainS s s.rank) s.rank

/-- The granules of a DPUT.f go to their owner (12_copy.md R373). -/
def putfSend (s : State) (num : BitVec 16) (g : Got) (dx : Word64) (n : Nat) : Res State :=
  (resolve s .d dx n permStore).bind fun t =>
    match t.1 with
    | .bytes l => .ok (putGranules num g l (n / 64) 0 t.2)
    | .remote p c o => .ok (putAway num g p c o t.2 (n / 64))
    | .window _ => .trap (mkTrap .d 0x07 dx) t.2

/-- A granule of a DPUT.f (12_copy.md R354, R373), a release of every earlier access (06_ordering.md R193). -/
def putfUnit (s : State) (num : BitVec 16) (sx dx : Word64) : Res State :=
  (dRead s sx 64).bind fun g => putfSend (releaseAll_ g.2) num g.1 dx 64

/-- A DPUT.f whose destination overlaps its source. -/
def putfMove (s : State) (num : BitVec 16) (sx dx : Word64) (n : Nat) : Res State :=
  (dRead s sx n).bind fun g => putfSend (releaseAll_ g.2) num g.1 dx n

/-- The stamp of a DSTAMP after its payload (12_copy.md R374, 06_ordering.md R210). -/
def stampUnit (s : State) (dx : Word64) (n : Nat) (stamp : Word64) : Res State :=
  dWrite (releaseAll_ s) (dx + BitVec.ofNat 64 (8 * ((n + 7) / 8))) 8
    { bytes := Mem.cells 0 (leBytes 8 stamp.toNat), bad := [], tags := [] }

/-- A DSTAMP whose destination overlaps its source. -/
def stampMove (s : State) (sx dx : Word64) (n : Nat) (stamp : Word64) : Res State :=
  (copyMove s rawFormat rawFormat sx dx n false).bind fun t => stampUnit t.1 dx n stamp

/-- The publication of DPUB (12_copy.md R368): a release, then CUR flips and GEN counts in one step. The home of a handle in another
package answers whether it has made the step. -/
def publish (s : State) (c : GVal) : Res State :=
  (resolve (releaseAll_ s) .d c.word 64 (permLoad ||| permStore)).bind fun t =>
    match t.1 with
    | .bytes [h] =>
      let x := t.2.mem.readNat h.key 4
      if 5 ≤ x / 4 % 8 then .trap (mkTrap .d 0x07 c.word) t.2
      else if t.2.poisoned h.key 8 then .trap (mkTrap .d 0x0D c.word) t.2
      else
        let g := (t.2.mem.readNat (h.key + 4) 4 + 1) % 2 ^ 32
        .ok (t.2.storeNat h.key 8 ((if x % 2 = 1 then x - 1 else x + 1) + g * 2 ^ 32))
    | .remote p k o =>
      let u := { t.2.request p k (.publish o) with fresh := t.2.fresh + 1 }
      if Config.remoteOk t.2.fresh then .ok u else .trap (mkTrap .d 0x07 c.word) u
    | _ => .trap (mkTrap .d 0x07 c.word) t.2

/-- A mailbox counter is increased by 1 as a release (12_copy.md R372, R376). -/
def bumpMail (s : State) (c : GVal) : State :=
  let x := c.word
  let s1 := releaseAll_ s
  if coordPkg x ≠ s.me.ctl.pkg then
    s1.requestTo x (.mail (x.extractLsb' 2 8) 1#32)
  else incMail s1 (coordCore x).toNat (x.extractLsb' 2 8) 1#32

/-! Units. -/

/-- Unit u of a copy (12_copy.md R354, R369): the groups that it holds bytes of are read and converted, and its own bytes
written. -/
def copyUnit (s : State) (sf df : BitVec 5) (sx dx : Word64) (n : Nat) (tags : Bool) (u : Nat) : Res (State × BitVec 6) :=
  let p := unitPart dx.toNat (copyBytes sf df n) u
  let gb := groupBytes sf df
  let g0 := p.1 / gb.2
  let m := ((p.2 + gb.2 - 1) / gb.2 - g0) * gb.1
  (dRead s (sx + BitVec.ofNat 64 (g0 * gb.1)) m).bind fun g =>
    let r := convGot sf df m g.1
    let x := r.1.part (p.1 - g0 * gb.2) (p.2 - p.1)
    (dWrite g.2 (dx + BitVec.ofNat 64 p.1) (p.2 - p.1) (if tags then x else { x with tags := [] })).bind fun t => .ok (t, r.2)

/-- The entries of an index list from k to m - 1 (12_copy.md R371). -/
def indexList (s : State) (idx : GVal) (k m : Nat) : Res (List (Nat × Nat) × State) :=
  let x := idx.word + BitVec.ofNat 64 (4 * k)
  if m ≤ k then .ok ([], s)
  else
    (resolve s .d x (4 * (m - k)) permLoad).bind fun t =>
      (engRead t.2 .d x (4 * (m - k)) t.1).bind fun r => .ok ((List.range (m - k)).map fun i => (k + i, r.1.readNat (4 * i) 4), r.2)

/-- Unit u of a gather (12_copy.md R354, R371): the elements that it holds bytes of are read, and its own bytes written. -/
def gatherUnit (s : State) (sc : GVal) (sx dx : Word64) (e cnt : Nat) (idx : GVal) (u : Nat) : Res State :=
  let p := unitPart dx.toNat (cnt * e) u
  (indexList s idx (p.1 / e) ((p.2 + e - 1) / e)).bind fun l =>
    (gatherRead l.2 sc sx e l.1 { bytes := [], bad := [], tags := [] }).bind fun g =>
      dWrite g.2 (dx + BitVec.ofNat 64 p.1) (p.2 - p.1) (g.1.part p.1 (p.2 - p.1))

/-- Element k of a scatter (12_copy.md R371). -/
def scatterUnit (s : State) (dc : GVal) (sx dx : Word64) (e : Nat) (idx : GVal) (k : Nat) : Res State :=
  (indexList s idx k (k + 1)).bind fun l =>
    (dRead l.2 (sx + BitVec.ofNat 64 (k * e)) e).bind fun g =>
      scatterWrite g.2 dc dx e { g.1 with tags := [] } (l.1.map fun i => (0, i.2))

/-- The lengths and addresses of a command. -/
structure CmdOps where
  k  : Caps
  n  : Nat
  dx : Word64
  sx : Word64

/-- Those of a command's word. -/
def cmdOps (q : DCmd) (w : DWord) : CmdOps :=
  let k := capsOf (dFields w) q.caps
  { k := k, n := k.c1.word.toNat, dx := cmdAddr w.d k.d q.dispD, sx := cmdAddr w.s k.a q.dispS }

/-- The units of a command's transfer (12_copy.md R354). -/
def cmdUnits (q : DCmd) : Nat :=
  match q.op with
  | .dcpy w =>
    let o := cmdOps q w
    unitCount o.dx.toNat (copyBytes w.s.format w.d.format o.n)
  | .dput w | .dgetMb w | .dgetEv w | .dredAdd w | .dredMax w | .dredMin w =>
    let o := cmdOps q w
    unitCount o.dx.toNat o.n
  | .dshd w => unitCount (q.caps.getLastD GVal.zero).word.toNat (copyBytes w.s.format w.d.format (cmdOps q w).n)
  | .dgth w =>
    let o := cmdOps q w
    unitCount o.dx.toNat (o.n * moveBytes w.s.format)
  | .dsct w => (cmdOps q w).n
  | .dputF w => (cmdOps q w).n / 64
  | .dstamp w =>
    let o := cmdOps q w
    unitCount o.dx.toNat o.n + 1
  | .dpub _ | .dsig _ => 1
  | .kvwr _ => q.done + (if q.kv = .done then 0 else 1)
  | _ => 0

/-- Unit u of a command: the state after it, and the flags raised (12_copy.md R350, R354). -/
def cmdUnit (s : State) (q : DCmd) (u : Nat) : Res (State × BitVec 6) :=
  let plain (x : Res State) : Res (State × BitVec 6) := x.bind fun t => .ok (t, 0#6)
  let copy (w : DWord) (x : Word64) (dc : GVal) (tags : Bool) : Res (State × BitVec 6) :=
    let o := cmdOps q w
    copyUnit s w.s.format w.d.format o.sx x o.n (tags && tagsGo w.s.format w.d.format o.k.a dc) u
  match q.op with
  | .dcpy w | .dput w => copy w (cmdOps q w).dx (cmdOps q w).k.d true
  | .dgetMb w | .dgetEv w => copy w (cmdOps q w).dx (cmdOps q w).k.d false
  | .dshd w => let b := q.caps.getLastD GVal.zero; copy w b.word b true
  | .dgth w => let o := cmdOps q w; plain (gatherUnit s o.k.a o.sx o.dx (moveBytes w.s.format) o.n o.k.c2 u)
  | .dsct w => let o := cmdOps q w; plain (scatterUnit s o.k.d o.sx o.dx (moveBytes w.s.format) o.k.c2 u)
  | .dputF w => let o := cmdOps q w; plain (putfUnit s q.num (o.sx + BitVec.ofNat 64 (64 * u)) (o.dx + BitVec.ofNat 64 (64 * u)))
  | .dstamp w =>
    let o := cmdOps q w
    if u < unitCount o.dx.toNat o.n then copyUnit s rawFormat rawFormat o.sx o.dx o.n false u
    else plain (stampUnit s o.dx o.n o.k.c2.word)
  | .dpub w => plain (publish s (cmdOps q w).k.c1)
  | .dsig w => plain (.ok (bumpMail s (cmdOps q w).k.c1))
  | _ => plain (.ok s)

/-- The whole of a command whose source and destination overlap: every source byte is read before any byte is written
(12_copy.md R358). -/
def cmdWhole (s : State) (q : DCmd) : Res (State × BitVec 6) :=
  let copy (w : DWord) (x : Word64) (dc : GVal) (tags : Bool) : Res (State × BitVec 6) :=
    let o := cmdOps q w
    copyMove s w.s.format w.d.format o.sx x o.n (tags && tagsGo w.s.format w.d.format o.k.a dc)
  let gather (g : Bool) (w : DWord) : Res (State × BitVec 6) :=
    let o := cmdOps q w
    (gatherMove s g o.k.a o.k.d o.sx o.dx (moveBytes w.s.format) o.n o.k.c2).bind fun t => .ok (t, 0#6)
  match q.op with
  | .dcpy w | .dput w => copy w (cmdOps q w).dx (cmdOps q w).k.d true
  | .dgetMb w | .dgetEv w => copy w (cmdOps q w).dx (cmdOps q w).k.d false
  | .dshd w => let b := q.caps.getLastD GVal.zero; copy w b.word b true
  | .dgth w => gather true w
  | .dsct w => gather false w
  | .dputF w => let o := cmdOps q w; (putfMove s q.num o.sx o.dx o.n).bind fun t => .ok (t, 0#6)
  | .dstamp w => let o := cmdOps q w; (stampMove s o.sx o.dx o.n o.k.c2.word).bind fun t => .ok (t, 0#6)
  | _ => .ok (s, 0#6)

/-! Starting. -/

/-- The keys of n bytes at an address, where they can be resolved. -/
def keysAt (s : State) (x : Word64) (n : Nat) (need : BitVec 12) : Option (List (Nat × Nat)) :=
  if n = 0 then some []
  else match resolve s .d x n need with | .ok (.bytes l, _) => some (runsOf l) | _ => none

/-- Whether n bytes at x and m bytes at y share one: by the places they lie at, or by their addresses where a place cannot be
resolved yet. -/
def sameBytes (s : State) (x : Word64) (n : Nat) (y : Word64) (m : Nat) : Bool :=
  match keysAt s x n permLoad, keysAt s y m permStore with
  | some a, some b => a.any fun p => meets p.1 p.2 b
  | _, _ => overlaps x.toNat n y.toNat m

/-- Whether a command's destination overlaps what it reads (12_copy.md R358). -/
def cmdOverlaps (s : State) (q : DCmd) : Bool :=
  match q.op with
  | .dcpy w | .dput w | .dgetMb w | .dgetEv w | .dputF w =>
    let o := cmdOps q w
    sameBytes s o.sx o.n o.dx (copyBytes w.s.format w.d.format o.n)
  | .dstamp w => let o := cmdOps q w; sameBytes s o.sx o.n o.dx (stampBytes o.n)
  | .dshd w =>
    let o := cmdOps q w
    sameBytes s o.sx o.n (q.caps.getLastD GVal.zero).word (copyBytes w.s.format w.d.format o.n)
  | .dredAdd w | .dredMax w | .dredMin w => let o := cmdOps q w; sameBytes s o.sx o.n o.dx o.n
  | .dgth _ | .dsct _ => (cmdTouch s q).any fun t => !t.wr && (cmdTouch s q).any fun u => u.wr && decide (t.lo < u.hi ∧ u.lo < t.hi)
  | _ => false

/-- Whether a command waits for every earlier one to complete (12_copy.md R368, R376). -/
def needsHead : Instr → Bool
  | .dpub _ | .dsig _ => true
  | _ => false

/-- The place of the first command that has not started. -/
def firstQueued (l : List DCmd) : Nat := l.findIdx fun q => q.phase == .queued

/-- Whether every access before a release of the D engine has been made (06_ordering.md R194): the V words that touch memory
and the M words have executed, the earlier commands have performed every byte, and nothing of the core is on its way that
only its destination can take. -/
def dReleaseReady (s : State) (i : Nat) (q : DCmd) : Bool :=
  (vPending s q.pos).isEmpty && s.me.reached .m q.pos && !(s.me.nestGoing && before s.me.nestFirst q.pos) &&
    (s.me.dq.take i).all (fun x => x.phase == .moved) && s.released s.rank

/-- Row p of half h of layer l of a record's page set (13_kv.md R381). -/
def rowAddr (t : Tree) (r l h p : Nat) : Word64 := BitVec.ofNat 64 (t.pset r + (2 * l + h) * 65536 + p % 64 * 1024)

/-- One half of the rows that a KVWR has read: the key row or the value row. -/
def halfRow (q : DCmd) (h : Nat) : Got :=
  let r := q.taken.getD ([], [])
  { bytes := r.1.slice (1024 * h) 1024, tags := [], bad := (r.2.filter fun o => o / 1024 == h).map (· % 1024) }

/-- The end of a step of a KVWR at the hub: its next stage, or the trap that R393 gives where the step cannot be made
(13_kv.md R378, R383, R393). -/
def kvStage (x : KvAns KvStage) : Res (KvStage × State) :=
  match x with
  | (.ok g, t) => .ok (g, t)
  | (.error .broken, t) => .trap (mkTrap .d 0x0D 0#64) t
  | (.error .unreached, t) => .trap (mkTrap .d 0x07 0#64) t

/-- A stage that follows a step once it has committed. -/
def staged (x : Bool × State) (g : KvStage) : KvAns KvStage := (if x.1 then .ok g else .error .unreached, x.2)

/-- The metadata step of a KVWR (13_kv.md R393, R384): entry j names record r with its view, one token longer where the token is the
next of the view, whose length then grows with it. -/
def linkRec (s : State) (p : Part) (v : View) (old new : Tree) (r pos view : Nat) : Bool × State :=
  let grow := decide (pos = v.len)
  let w := if grow then pos % 64 + 1 else view
  commit s p old (new.setRec { new.srec r with valid := w })
    (entryWrite v (pos / 64) w r :: if grow then [lenWrite p v (pos + 1)] else [])

/-- The metadata step before a KVWR's copy (13_kv.md R393): the record of the span is the context's own, or is shared, and then held
while a fresh one takes its rows. -/
def kvDecide (s : State) (p : Part) (v : View) (t : Tree) (pos : Nat) : KvAns KvStage :=
  let fresh := pos = v.len ∧ pos % 64 = 0
  let j := pos / 64
  if (pos ≠ v.len ∧ pos + 1 ≠ v.len) ∨ 65536 ≤ j then (.error .unreached, s)
  else if fresh then
    match t.alloc with
    | none => (.error .unreached, s)
    | some (r, t1) => staged (linkRec s p v t t1 r pos 0) (.rows t.index r 0)
  else
    (readEntry s p v t j).andThen fun r u =>
      let view := viewOf v.len j
      if 1 < (t.srec r).ref then
        match (t.adjust r fun x => (pinned 1 x).2).alloc with
        | none => (.error .unreached, u)
        | some (n, t1) => staged (commit u p t (t1.setRec { t1.srec n with valid := view }) []) (.copy t.index r n view 0)
      else staged (linkRec u p v t t r pos view) (.rows t.index r 0)

/-- The metadata step after the copy (13_kv.md R393, 06_ordering.md R212): the entry names the copy, a release at .pkg, and the old
record is released. Where other steps have meanwhile changed what the span names, the copy is given up, and the command decides
again, as it would have had it come after them (R384; DEDUCED, log entry 106). -/
def kvLink (s : State) (p : Part) (v : View) (t : Tree) (old new view pos : Nat) : KvAns KvStage :=
  let j := pos / 64
  let r := readEntry s p v t j
  let same := decide (pos = v.len ∨ pos + 1 = v.len) && viewOf v.len j == view && decide (j < spans v.len) &&
    (match r.1 with | .ok i => i == old | _ => false)
  let t1 := t.adjust old fun x => (unpinned 1 x).2
  if same then staged (linkRec r.2 p v t (t1.adjust old fun x => { x with ref := x.ref - 1 }) new pos view) (.rows t.index new 0)
  else staged (commit r.2 p t (t1.adjust new fun x => { x with ref := x.ref - 1 }) []) .decide

/-- The pages of a copy: none where the view has no row (13_kv.md R393). -/
def copyPages (t : Tree) (view : Nat) : Nat := if view = 0 then 0 else 2 * t.layers

/-- The next unit of a KVWR (13_kv.md R393, 12_copy.md R353, R354): its stage after it, with what it has read; none where its release
must wait. -/
def kvUnit (s : State) (i : Nat) (q : DCmd) (w : DWord) : Res (Option DCmd × State) :=
  let k := capsOf (dFields w) q.caps
  let pos := field k.c1.bits 0 23
  let l := field k.c2.bits 0 12
  let ctx := k.c1.bits.extractLsb' 32 16
  let at_ (x : Res (KvStage × State)) : Res (Option DCmd × State) := x.bind fun g => .ok (some { q with kv := g.1, done := q.done + 1 }, g.2)
  let onView (f : Part → View → Tree → State → KvAns KvStage) : Res (KvStage × State) :=
    match ctxCheck s ctx with
    | (none, u) => .trap (mkTrap .d 0x07 0#64) u
    | (some (p, key), u) =>
      match validTree u p (viewAt u ctx key).tree with
      | (none, u) => .trap (mkTrap .d 0x07 0#64) u
      | (some t, u) => if t.layers ≤ l then .trap (mkTrap .d 0x07 0#64) u else kvStage (f p (viewAt u ctx key) t u)
  match q.kv with
  | .read =>
    (dRead s (cmdAddr w.s k.a q.dispS) 2048).bind fun g =>
      .ok (some { q with kv := .decide, done := q.done + 1, taken := some (g.1.bytes, g.1.bad) }, g.2)
  | .decide => at_ (onView fun p v t u => kvDecide u p v t pos)
  | .copy ti old new view page =>
    match s.keptTree s.me.pid ti with
    | none => at_ (.ok (.done, s))
    | some t =>
      if page < copyPages t view then
        at_ ((copyMove s rawFormat rawFormat (BitVec.ofNat 64 (t.pset old + 65536 * page)) (BitVec.ofNat 64 (t.pset new + 65536 * page))
          (1024 * view) false).bind fun u => .ok (.copy ti old new view (page + 1), u.1))
      else if dReleaseReady s i q = false then .ok (none, s)
      else at_ ((onView fun p v t u => kvLink (releaseAll_ u) p v t old new view pos))
  | .rows ti r h =>
    match s.keptTree s.me.pid ti with
    | none => at_ (.ok (.done, s))
    | some t => at_ ((dWrite s (rowAddr t r l h pos) 1024 (halfRow q h)).bind fun u => .ok (if h = 0 then .rows ti r 1 else .done, u))
  | .done => .ok (none, s)

/-- Whether a command may start (12_copy.md R350, R357; 04_scalar.md R116): fewer than 4 transfer, its token is satisfied, the
range checker admits it behind the words of the other engines and the commands before it, and a release has nothing before it
left to make. -/
def startReady (s : State) (i : Nat) (q : DCmd) : Bool :=
  decide ((s.me.dq.countP fun x => x.phase == .moving || x.phase == .refused) < 4) && dTokenDone s.me (s.me.dq.take i) (waitOf q.op) q.pos &&
    admits s .d q.pos (cmdTouch s q) &&
    ((queuedTouches s (s.me.dq.take i)).all fun u => (cmdTouch s q).all fun t => !t.clash u) &&
    (!startsRelease q.op || dReleaseReady s i q) && (!needsHead q.op || i == 0)

/-- A command of the queue replaced. -/
def Core.setCmd (c : Core) (i : Nat) (q : DCmd) : Core := { c with dq := c.dq.set i q }

/-- Up to n units of command i transfer (12_copy.md R350, R353, R354). A fault stops it at its unit, with its progress; the D
walker takes the trap at its boundary. A page or rank in transit leaves it moving. -/
def cmdRun (i : Nat) : Nat → State → DCmd → Res State
  | 0, s, q => .ok (s.modMe fun c => c.setCmd i { q with phase := if cmdUnits q ≤ q.done then .moved else .moving })
  | n + 1, s, q =>
    match cmdUnit s q q.done with
    | .ok (t, f) => cmdRun i n t { q with done := q.done + 1, flags := q.flags ||| f }
    | .trap t s1 =>
      .trap t ({ s with fresh := s1.fresh }.modMe fun c => { c.setCmd i { q with phase := .moving } with dfault := some i })
    | .hold h _ => .ok (s.modMe fun c => (c.setCmd i { q with phase := .moving }).stall .d h s.cycle)

/-- Up to n units of a KVWR: a fault keeps what its units have done at the hub and in memory (13_kv.md R378, R393). -/
def kvRun (i : Nat) (w : DWord) : Nat → State → DCmd → Res State
  | 0, s, q => .ok (s.modMe fun c => c.setCmd i { q with phase := if q.kv = .done then .moved else .moving })
  | n + 1, s, q =>
    match kvUnit s i q w with
    | .ok (some q1, t) =>
      if q1.kv = .done then .ok (t.modMe fun c => c.setCmd i { q1 with phase := .moved }) else kvRun i w n t q1
    | .ok (none, t) => .ok (t.modMe fun c => c.setCmd i { q with phase := .moving })
    | .trap e t => .trap e (t.modMe fun c => { c.setCmd i { q with phase := .moving } with dfault := some i })
    | .hold h _ => .ok (s.modMe fun c => (c.setCmd i { q with phase := .moving }).stall .d h s.cycle)

/-- A command whose source and destination overlap transfers as one unit. -/
def cmdAll (i : Nat) (s : State) (q : DCmd) : Res State :=
  match cmdWhole s q with
  | .ok (t, f) => .ok (t.modMe fun c => c.setCmd i { q with phase := .moved, done := cmdUnits q, flags := q.flags ||| f })
  | .trap t s1 =>
    .trap t ({ s with fresh := s1.fresh }.modMe fun c => { c.setCmd i { q with phase := .moving } with dfault := some i })
  | .hold h _ => .ok (s.modMe fun c => (c.setCmd i { q with phase := .moving }).stall .d h s.cycle)

/-- A bound on the units of a KVWR: its stages, and the pages of the most layers. -/
abbrev kvUnits : Nat := 8200

/-- A reduction whose destination overlaps its source reads all of it as it starts (12_copy.md R358). -/
def takeSource (i : Nat) (s : State) (q : DCmd) : Res State :=
  match q.op with
  | .dredAdd w | .dredMax w | .dredMin w =>
    let o := cmdOps q w
    match dRead s o.sx o.n with
    | .ok (g, t) => .ok (t.modMe fun c => c.setCmd i { q with phase := .moving, whole := false, taken := some (g.bytes, g.bad) })
    | .trap e t => .trap e (t.modMe fun c => { c.setCmd i { q with phase := .moving, whole := false } with dfault := some i })
    | .hold h _ => .ok (s.modMe fun c => c.stall .d h s.cycle)
  | _ => .ok s

/-- D_COMMAND_START (12_copy.md R350, R353): the next command in program order transfers: all of it while accesses do not
wait, else unit by unit in the steps that follow. -/
def execDCommandStart (s : State) : Host.Outcome State Fault Refusal :=
  let i := firstQueued s.me.dq
  settleE .d s (match s.me.dq[i]? with
    | none => .ok s
    | some q =>
      if startReady s i q then
        let s0 := settleTouches s (cmdTouch s q)
        let q1 := { q with whole := cmdOverlaps s0 q }
        match q.op with
        | .kvwr w => kvRun i w (if s.lazy then 1 else kvUnits) s0 q
        | op =>
          if isRed op then (if q1.whole then takeSource i s0 q1 else cmdRun i 0 s0 q1)
          else if q1.whole then cmdAll i s0 q1
          else cmdRun i (if s.lazy then 0 else cmdUnits q1) s0 q1
      else .ok s)

/-- The next unit of a command that transfers (12_copy.md R354). -/
def copyStep (i : Nat) (s : State) : Host.Outcome State Fault Refusal :=
  settleE .d s (match s.me.dq[i]? with
    | some q =>
      if q.phase ≠ .moving then .ok s
      else
        match q.op with
        | .kvwr w => kvRun i w 1 s q
        | op => if isRed op then .ok s else if q.whole then cmdAll i s q else cmdRun i 1 s q
    | none => .ok s)

/-! Reductions. -/

/-- The identifier of a reduction (12_copy.md R355). -/
def redId (s : State) (q : DCmd) : RedId :=
  { pkg := s.me.ctl.pkg, core := q.core, num := q.num.setWidth 32 }

/-- The operation of a reduction word: 0 add, 1 max, 2 min. -/
def redCode : Instr → Nat
  | .dredAdd _ => 0
  | .dredMax _ => 1
  | _ => 2

/-- One element reduced (12_copy.md R356). -/
def redElem (code f d x : Nat) : Nat × BitVec 6 :=
  match code with
  | 0 => if isInt f then ((d + x) % 2 ^ fmtBits f, 0#6) else addF f d x .rne
  | 1 => minMax f true d x
  | _ => minMax f false d x

/-- Whether a unit of a command is applied (12_copy.md R355). -/
def Applied.has (a : Applied) (u : Nat) : Bool := decide (u < a.low) || a.above.contains u

/-- The low mark raised over the units above it. -/
def Applied.raise : Nat → Applied → Applied
  | 0, a => a
  | n + 1, a => if a.above.contains a.low then Applied.raise n { a with low := a.low + 1, above := a.above.erase a.low } else a

/-- The record with a unit marked. -/
def Applied.mark (a : Applied) (u : Nat) : Applied :=
  if a.has u then a else let b := { a with above := a.above ++ [u] }; b.raise b.above.length

/-- The records of the interface at a key (12_copy.md R355): those of the owning core, or of the line's home slice, which the
hardware fixes (05_memory.md R161). -/
def State.appliedAt (s : State) (key : Nat) : List Applied :=
  match keyCore key with
  | some r => (s.coreAt r).applied
  | none => (s.applied.filter fun a => a.1 == Config.homeSlice (key / 64)).map (·.2)

/-- The state with those records replaced. -/
def State.setApplied (s : State) (key : Nat) (l : List Applied) : State :=
  match keyCore key with
  | some r => s.modCore r fun c => { c with applied := l }
  | none =>
    let h := Config.homeSlice (key / 64)
    { s with applied := s.applied.filter (fun a => a.1 != h) ++ l.map fun a => (h, a) }

/-- The record of a command at an interface, a fresh one where none stands and fewer than 64 are in use. -/
def findApplied (l : List Applied) (id : RedId) : Option Applied :=
  match l.find? fun a => a.id == id with
  | some a => some a
  | none => if 64 ≤ l.length then none else some { id := id, low := 0, above := [] }

/-- What a unit of a reduction finds. -/
inductive RedEnd where
  | applied (flags : BitVec 6)
  | refused
  deriving DecidableEq, Repr

/-- A unit of a reduction reaches its destination and is applied in one step, unless it is applied already or its command
finds no record (12_copy.md R355, R356). -/
def redApply (s : State) (l : List Chunk) (id : RedId) (u code : Nat) (f : BitVec 5) (bytes : List Byte) : RedEnd × State :=
  let key := (l.head?.map (·.key)).getD 0
  let recs := s.appliedAt key
  match findApplied recs id with
  | none => (.refused, s)
  | some r =>
    if r.has u then (.applied 0#6, s)
    else
      let e := elemBytes f
      let n := bytes.length / e
      let es := ((elemsOf (s.readChunks l) e n).zip (elemsOf bytes e n)).map fun x => redElem code f.toNat x.1 x.2
      (.applied (es.foldl (fun g x => g ||| x.2) 0#6),
        (s.storeChunks l (es.map fun x => leBytes e x.1).flatten).setApplied key (recs.filter (fun x => x.id != r.id) ++ [r.mark u]))

/-- Whether a unit has still to be applied, so that its destination's bytes are read. -/
def redFresh (s : State) (l : List Chunk) (id : RedId) (u : Nat) : Bool :=
  match findApplied (s.appliedAt ((l.head?.map (·.key)).getD 0)) id with
  | some r => !r.has u
  | none => false

/-- The source bytes of a unit of a reduction: n from offset o of it, those read ahead where its destination overlaps them
(12_copy.md R354, R358). -/
def redSource (s : State) (q : DCmd) (sx : Word64) (o n : Nat) : Res (Mem × State) :=
  let x := sx + BitVec.ofNat 64 o
  match q.taken with
  | some r =>
    if r.2.any fun i => decide (o ≤ i) && decide (i < o + n) then .trap (mkTrap .d 0x0D x) s else .ok (r.1.slice o n, s)
  | none => (resolve s .d x n permLoad).bind fun a => engRead a.2 .d x n a.1

/-- A unit of n bytes from offset o is sent and applied (12_copy.md R356); what another package acknowledges is a free value (log
entry 10). The L1 copies of its line in generic memory are lost before it (05_memory.md R163). -/
def applyUnit (s : State) (q : DCmd) (f : BitVec 5) (u : Nat) (sx dx : Word64) (o n : Nat) : Res (RedEnd × State) :=
    (redSource s q sx o n).bind fun src =>
      (resolve src.2 .d dx n (permLoad ||| permStore)).bind fun t =>
        match t.1 with
        | .bytes l =>
          let s1 := engSettle t.2 dx l
          let key := (l.head?.map (·.key)).getD 0
          if redFresh s1 l (redId s q) u && s1.chunksPoisoned l then
            .trap (mkTrap .d 0x0D dx) (if (keyCore key).isNone then s1.notify key n else s1)
          else .ok (redApply s1 l (redId s q) u (redCode q.op) f (src.1.read 0 n))
        | .remote p c o =>
          let v : State := { (t.2.request p c (.red (redId s q) u o (redCode q.op) f.toNat (src.1.read 0 n))) with fresh := t.2.fresh + 1 }
          .ok (if Config.remoteOk t.2.fresh then .applied ((Config.remoteByte t.2.fresh 0).setWidth 6) else .refused, v)
        | .window _ => .trap (mkTrap .d 0x07 dx) t.2

/-- The next unit of a reduction is sent (12_copy.md R354 to R356). -/
def redStep (s : State) (i : Nat) (q : DCmd) (w : DWord) : Res State :=
  let o := cmdOps q w
  let p := unitPart o.dx.toNat o.n q.done
  match applyUnit s q w.d.format q.done o.sx (o.dx + BitVec.ofNat 64 p.1) p.1 (p.2 - p.1) with
  | .ok (.applied f, t) =>
    let q2 := { q with done := q.done + 1, flags := q.flags ||| f }
    .ok (t.modMe fun c => c.setCmd i { q2 with phase := if cmdUnits q ≤ q2.done then .moved else .moving })
  | .ok (.refused, t) => .ok (t.modMe fun c => c.setCmd i { q with phase := .refused })
  | .trap t s1 => .trap t (s1.modMe fun c => { c with dfault := some i })
  | .hold h _ => .ok (s.modMe fun c => c.stall .d h s.cycle)

/-- Why the next step of a command of the queue must wait, if it must. -/
def cmdHeld (s : State) (i : Nat) (q : DCmd) : Option Hold :=
  match q.op with
  | .kvwr w => (kvUnit s i q w).held
  | .dredAdd w | .dredMax w | .dredMin w =>
    if q.phase = .queued then (dRead s (cmdOps q w).sx (cmdOps q w).n).held
    else
      let o := cmdOps q w
      let p := unitPart o.dx.toNat o.n q.done
      (applyUnit s q w.d.format q.done o.sx (o.dx + BitVec.ofNat 64 p.1) p.1 (p.2 - p.1)).held
  | _ => if q.whole then (cmdWhole s q).held else (cmdUnit s q q.done).held

/-- The command of the queue that stalls on the page in transit of an address (06_ordering.md R206). -/
def stalledCmd (s : State) (va : Word64) : Option Nat :=
  (List.range s.me.dq.length).find? fun i =>
    match s.me.dq[i]? with
    | some q => (q.phase == .moving || q.phase == .queued) && cmdHeld s i q == some (.ownTransit va)
    | none => false

/-- REDUCTION_UNIT_APPLY (12_copy.md R356): the next unit of command i reaches its destination. -/
def execReductionUnitApply (i : Nat) (s : State) : Host.Outcome State Fault Refusal :=
  settleE .d s (match s.me.dq[i]? with
    | some q =>
      (match q.op, q.phase with
       | .dredAdd w, .moving | .dredMax w, .moving | .dredMin w, .moving => redStep s i q w
       | _, _ => .ok s)
    | none => .ok s)

/-- REDUCTION_RESEND (12_copy.md R355): the refused units of the core's commands are sent again. -/
def execReductionResend (s : State) : Host.Outcome State Fault Refusal :=
  .next (s.modMe fun c =>
    { c with dq := c.dq.map fun q => if q.phase = .refused then { q with phase := .moving } else q })

/-- The applied records of a command are retired (12_copy.md R355). -/
def retireApplied (s : State) (id : RedId) : State :=
  let keep (a : Applied) : Bool := a.id != id
  { s with applied := s.applied.filter fun a => keep a.2
           cores := s.cores.map fun (e : Nat × Core) => (e.1, { e.2 with applied := e.2.applied.filter keep }) }

/-- REDUCTION_END_NOTICE (12_copy.md R355). -/
def execReductionEndNotice (id : RedId) (s : State) : Host.Outcome State Fault Refusal := .next (retireApplied s id)

/-! Completion. -/

/-- The barrier credit of a command (12_copy.md R360). -/
def creditBar (s : State) (w : DWord) (c : GVal) (len : Nat) : State :=
  let x := c.word
  if w.cap2 = 0#6 then s
  else if region x = 0xD then barUpdate s s.rank (coordOff x) fun o => o.credit len
  else if coordPkg x = s.me.ctl.pkg then barUpdate s (coordCore x).toNat (coordOff x) fun o => o.credit len
  else s.requestTo x (.credit (x.extractLsb' 0 19) len)

/-- The event record of DGET.ev, and the decrement after it (12_copy.md R361, R372). -/
def getNotice (s : State) (c : GVal) (dx : Word64) : State :=
  let s1 := eventRecord s s.rank 1 0 (field c.bits 0 32) dx (s.me.ctl.pkg.setWidth 32) (BitVec.ofNat 16 s.rank)
  if c.bits.getLsbD 63 then applyCdec s1 s.rank (field c.bits 32 19) 1#32 else s1

/-- The end notice of a reduction (12_copy.md R355): its records retire, and another package is told where it wrote there. -/
def redNotice (s : State) (q : DCmd) (w : DWord) : State :=
  let x := (cmdOps q w).dx
  let t := retireApplied s (redId s q)
  if region x = 0xC ∧ coordPkg x ≠ s.me.ctl.pkg then
    t.requestTo x (.redEnd (redId s q))
  else t

/-- The notices of a command that completes (12_copy.md R350, R360, R372). -/
def cmdNotice (s : State) (q : DCmd) : State :=
  let k (w : DWord) : Caps := capsOf (dFields w) q.caps
  match q.op with
  | .dcpy w | .dput w | .dputF w | .dshd w => creditBar s w (k w).c2 (k w).c1.word.toNat
  | .dredAdd w | .dredMax w | .dredMin w => creditBar (redNotice s q w) w (k w).c2 (k w).c1.word.toNat
  | .dgetMb w => bumpMail s (k w).c2
  | .dgetEv w => getNotice s (k w).c2 (cmdAddr w.d (k w).d q.dispD)
  | _ => s

/-- The place of a command's destination among the local memories of the package, and its length; all of them for a scatter. -/
def cmdDest (q : DCmd) : Option (Nat × Nat) :=
  let at_ (x : Word64) (n : Nat) : Option (Nat × Nat) := if region x = 0xC then some (localKey 0 (field x 0 31), n) else none
  match q.op with
  | .dcpy w => let o := cmdOps q w; at_ o.dx (copyBytes w.s.format w.d.format o.n)
  | .dput w | .dputF w => let o := cmdOps q w; at_ o.dx o.n
  | .dshd w => at_ (q.caps.getLastD GVal.zero).word (copyBytes w.s.format w.d.format (cmdOps q w).n)
  | .dgth w => let o := cmdOps q w; at_ o.dx (o.n * moveBytes w.s.format)
  | .dstamp w => let o := cmdOps q w; at_ o.dx (stampBytes o.n)
  | .dsct _ => some (localKey 0 0, 2 ^ 31)
  | _ => none

/-- Whether bytes that a command has written to another core are still on their way (12_copy.md R350). -/
def cmdPosted (s : State) (q : DCmd) : Bool :=
  match cmdDest q with
  | none => false
  | some d => s.net.any fun m => m.src == s.rank && (match m.ev with
    | .postedStoreArrive w => overlaps (localKey m.dst w.off.toNat) w.bytes.length d.1 d.2
    | .taggedArrival a => a.kind == .dputf && a.cmd == q.num
    | _ => false)

/-- Whether a command with every byte written may complete: what it wrote to other cores has arrived, and the increment of DGET.mb
waits as a release (12_copy.md R350, R372). -/
def cmdMayEnd (s : State) (i : Nat) (q : DCmd) : Bool :=
  match q.op with
  | .dgetMb _ => dReleaseReady s i q
  | _ => !cmdPosted s q

/-- D_COMMAND_COMPLETE (12_copy.md R350): every byte of command i is performed; its flags, its credit or notice and its
token follow. -/
def execDCommandComplete (i : Nat) (s : State) : Host.Outcome State Fault Refusal :=
  .next (match s.me.dq[i]? with
    | some q =>
      (if q.phase = .moved ∧ cmdMayEnd s i q = true then
        (cmdNotice s q).modMe fun c =>
          { c.modCtl (fun k => { k with arflg := k.arflg ||| q.flags.setWidth 32 }) with dq := c.dq.eraseIdx i }
       else s)
    | none => s)

end Sys2Proof.Machine
end

