-- ==== Sys2Proof/Machine/Kettle.lean ====
section
/-! DEFINITION. The Kettle cores: kt.take and kt.mark, the sandbox checker, and the completion swap (14_futures.md R419 to
R423). -/

namespace Sys2Proof.Machine

/-- The Kettle core of a number; one that nothing has touched stands as after reset. -/
def State.kettleAt (s : State) (i : BitVec 6) : Kettle := (Table.find s.kettles i.toNat).getD Kettle.reset

/-- The Kettle core that this step runs on. -/
def State.kettle (s : State) : Kettle := s.kettleAt s.kid

/-- The state with that Kettle core replaced. -/
def State.setKettle (s : State) (k : Kettle) : State := { s with kettles := Table.set s.kettles s.kid.toNat k }

/-- A read of xN; x0 reads zero. -/
def Kettle.rx (k : Kettle) (i : BitVec 5) : Word64 := k.x[i.toNat]'(by have := i.isLt; omega)

/-- A write of xN; a write to x0 is discarded. -/
def Kettle.wx (k : Kettle) (i : BitVec 5) (v : Word64) : Kettle :=
  if i = 0#5 then k else { k with x := k.x.set i.toNat v (by have := i.isLt; omega) }

/-- The core steps past a word of 4 bytes. -/
def Kettle.next (k : Kettle) : Kettle := { k with pc := k.pc + 4#64 }

/-- Whether a level is a guest's. -/
def KLevel.virtual : KLevel → Bool
  | .vu | .vs => true
  | _ => false

/-- Whether a level is one of S and HS: those of the tool runtime (14_futures.md R420, R423). -/
def KLevel.runtime : KLevel → Bool
  | .hs => true
  | _ => false

/-- An exception of a Kettle core (14_futures.md R419, R421): delegated to HS-mode, and taken in M-mode from M-mode; the
registers it writes are those of the RISC-V privileged specification (log entry 12). -/
def Kettle.except_ (k : Kettle) (code tval : Nat) : Kettle :=
  if k.level = .m then
    { k with mepc := k.pc, mcause := BitVec.ofNat 64 code, mtval := BitVec.ofNat 64 tval, mpp := .m, mpie := k.mie, mie := false
             pc := k.mtvec &&& ~~~3#64 }
  else
    { k with sepc := k.pc, scause := BitVec.ofNat 64 code, stval := BitVec.ofNat 64 tval
             spp := k.level == .hs || k.level == .vs, spv := k.level.virtual, spie := k.sie, sie := false, level := .hs
             pc := k.stvec &&& ~~~3#64 }

/-- An illegal-instruction exception (14_futures.md R423): its trap value is free (log entry 12). -/
def kettleIllegal (s : State) : State :=
  { s.setKettle (s.kettle.except_ 2 (Config.kettleTval s.fresh).toNat) with fresh := s.fresh + 1 }

/-! The custom registers, and the base set. -/

/-- A custom register (14_futures.md R420); none for another number. -/
def Kettle.csrRead (k : Kettle) (n : Nat) : Option Word64 :=
  let wins : List CallWin := match k.hold with | some h => h.wins | none => []
  if n = 0xCC0 then some 0x0001_0000#64
  else if n = 0x5C0 then some (BitVec.ofNat 64 (wins.length * 16 + k.hold.isSome.toNat * 2 + k.on.toNat))
  else if n = 0x5C1 then some k.kring
  else if n = 0x5C2 then
    some (match k.hold with | some h => BitVec.ofNat 64 (h.ring.toNat * 2 ^ 32 + h.handle.toNat) | none => 0#64)
  else if n = 0x5C3 then some (match k.hold with | some h => h.recAddr.setWidth 64 | none => 0#64)
  else if n = 0x5C4 then some k.kcode
  else if n = 0x5C5 then some k.kcodelen
  else if 0x5D0 ≤ n ∧ n < 0x5E0 then some (match wins[n - 0x5D0]? with | some w => BitVec.ofNat 64 w.base | none => 0#64)
  else if 0x5E0 ≤ n ∧ n < 0x5F0 then
    some (match wins[n - 0x5E0]? with
      | some w => BitVec.ofNat 64 (w.rd.toNat * 2 ^ 63 + w.wr.toNat * 2 ^ 62 + w.ex.toNat * 2 ^ 61 + w.len)
      | none => 0#64)
  else none

/-- A write of a custom register; a read-only field keeps its value (14_futures.md R420). -/
def Kettle.csrWrite (k : Kettle) (n : Nat) (v : Word64) : Kettle :=
  if n = 0x5C0 then { k with on := v.getLsbD 0 }
  else if n = 0x5C1 then { k with kring := v }
  else if n = 0x5C4 then { k with kcode := v &&& 0x0000_FFFF_FFFF_F000#64 }
  else if n = 0x5C5 then { k with kcodelen := v &&& 0x0000_FFFF_FFFF_F000#64 }
  else k

/-- An access to a custom register: illegal from a level that the table does not allow (14_futures.md R420). -/
def kettleCsr (s : State) (n : Nat) (w : Option Word64) (rd : BitVec 5) : State :=
  let k := s.kettle
  match k.csrRead n with
  | none => s
  | some v =>
    if n ≠ 0xCC0 ∧ k.level.runtime = false then kettleIllegal s
    else s.setKettle (((match w with | some x => k.csrWrite n x | none => k).wx rd v).next)

/-- A Zicsr word on a custom register: its number, rd, and whether it writes, with the value (14_futures.md R420). -/
def csrWord (k : Kettle) (w : Nat) : Option (Nat × BitVec 5 × Option Word64) :=
  let n := num 12 w 20
  let f := num 3 w 12
  let src := num 5 w 15
  let v : Word64 := if 4 ≤ f then BitVec.ofNat 64 src else k.rx (BitVec.ofNat 5 src)
  match k.csrRead n with
  | none => none
  | some old =>
    if w % 128 ≠ 0x73 ∨ f % 4 = 0 then none
    else
      some (n, BitVec.ofNat 5 (num 5 w 7),
        if f % 4 = 1 then some v else if src = 0 then none else some (if f % 4 = 2 then old ||| v else old &&& ~~~v))

/-- What the base RISC-V set makes of the registers of its own: the custom registers and the held call stay
(14_futures.md R419; log entry 12). -/
def kettleBase (s : State) (k : Kettle) : State :=
  let o := s.kettle
  s.setKettle { k with x := k.x.set 0 0#64, on := o.on, kring := o.kring, hold := o.hold, kcode := o.kcode
                       kcodelen := o.kcodelen, lastRing := o.lastRing }

/-- A level by a free value. -/
def freeLevel (v : BitVec 64) : KLevel := match v.toNat % 5 with | 0 => .u | 1 => .vu | 2 => .vs | 3 => .hs | _ => .m

/-- The registers of a Kettle core as a word of the base set leaves them: free values, the n-th (14_futures.md R419; log entry
12). -/
def freeKettle (k : Kettle) (n : Nat) : Kettle :=
  let r := Config.kettleReg n
  { k with
    x := Vector.ofFn fun i => r i.val, pc := r 32, level := freeLevel (r 33), stvec := r 34, sepc := r 35, scause := r 36
    stval := r 37, spp := (r 38).getLsbD 0, spv := (r 38).getLsbD 1, sie := (r 38).getLsbD 2, spie := (r 38).getLsbD 3
    mtvec := r 39, mepc := r 40, mcause := r 41, mtval := r 42, mpp := freeLevel (r 43), mie := (r 38).getLsbD 4
    mpie := (r 38).getLsbD 5, vstart := r 46, resv := if (r 38).getLsbD 6 then k.resv else none }

/-! Taking a call. -/

/-- The pending calls of a ring that nothing has taken, the oldest first (14_futures.md R423). -/
def takable (s : State) (ring : Nat) : Option (Nat × Fut) :=
  (s.futs.filter fun e =>
    e.2.state == 1#3 && !e.2.remote && e.2.ring.toNat == ring && e.2.taker == 0xFFFF#16).foldl
      (fun (o : Option (Nat × Fut)) e =>
        match o with
        | some x => if e.2.order < x.2.order then some e else some x
        | none => some e) none

/-- The first takable call of the rings of a mask, from one above the last ring upward and wrapping. -/
def scanRings (s : State) (mask : Word64) (last : BitVec 6) : Option (Nat × Fut) :=
  ((List.range 64).map fun i => (last.toNat + 1 + i) % 64).findSome? fun r =>
    if mask.getLsbD r then takable s r else none

/-- kt.take (14_futures.md R423). -/
def execKtTake (rd rs : BitVec 5) (s : State) : Host.Outcome State Fault Refusal :=
  let k := s.kettle
  .next (if k.level.runtime = false then kettleIllegal s
    else if k.hold.isSome then s.setKettle (k.wx rd (BitVec.ofNat 64 (2 ^ 64 - 1))).next
    else
      let m := if rs = 0#5 then k.kring else k.kring &&& k.rx rs
      match scanRings s m k.lastRing with
      | none => s.setKettle (k.wx rd 0#64).next
      | some (i, f) =>
        let h : KHold :=
          { entry := i, handle := BitVec.ofNat 32 (futHandle i f), ring := f.ring.setWidth 6, wins := f.wins
            recAddr := BitVec.ofNat 48 ((s.ringAt f.ring.toNat).base + 64 * f.slot), replywin := f.replywin }
        (s.setFut i { f with taker := s.kid.setWidth 16, taken := true }).setKettle
          { (k.wx rd (h.handle.setWidth 64)).next with hold := some h, lastRing := f.ring.setWidth 6 })

/-- kt.mark (14_futures.md R423): the reply length of the held call; a future that has left pending keeps its own. -/
def execKtMark (rd rs : BitVec 5) (s : State) : Host.Outcome State Fault Refusal :=
  let k := s.kettle
  .next (if k.level = .m then kettleIllegal s
    else
      match k.hold with
      | none => s.setKettle (k.wx rd 1#64).next
      | some h =>
        let n := (k.rx rs).toNat
        if ((h.wins[h.replywin.toNat]?).map (·.len)).getD 0 < 4 * n then s.setKettle (k.wx rd 2#64).next
        else
          let f := s.futAt h.entry
          let t := s.setKettle (k.wx rd 0#64).next
          if f.state = 1#3 ∧ futHandle h.entry f = h.handle.toNat then t.setFut h.entry { f with replylen := BitVec.ofNat 32 n }
          else t)

/-! The sandbox. -/

/-- The physical base of the completion words (14_futures.md R422). -/
abbrev completionBase : Nat := 0x3000_0000_0000

/-- Whether the sandbox checker tests the accesses of a Kettle core (14_futures.md R421). -/
def Kettle.tested (k : Kettle) : Bool := k.on && (match k.level with | .u | .vs | .vu => true | _ => false)

/-- Whether n bytes lie in a range. -/
def within (a n base len : Nat) : Bool := decide (base ≤ a) && decide (a + n ≤ base + len)

/-- Whether a byte lies in a window that grants a kind, or in the code window (14_futures.md R421). -/
def Kettle.byteOk (k : Kettle) (kind : AccessKind) (a : Nat) : Bool :=
  let win (w : CallWin) : Bool :=
    within a 1 w.base w.len && (match kind with | .load => w.rd | .store => w.wr | .fetch => w.ex)
  (match k.hold with | some h => h.wins.any win | none => false) ||
    (kind != .store && within a 1 k.kcode.toNat k.kcodelen.toNat)

/-- The exception code of an access that is refused (14_futures.md R421). -/
def accessCode : AccessKind → Nat
  | .fetch => 1 | .load => 5 | .store => 7

/-- KETTLE_TESTED_ACCESS (14_futures.md R421, R422): the access is tested, and performed where every byte is allowed; an
access to the completion words that is no swap, or outside the physical map, faults at every level. -/
def execKettleTestedAccess (acc : KAccess) (s : State) : Host.Outcome State Fault Refusal :=
  let k := s.kettle
  let ok := (List.range acc.n).all fun i => k.byteOk acc.kind (acc.pa + i)
  .next (if (k.tested = true ∧ ok = false) ∨ ((List.range acc.n).any fun i => (s.row (acc.pa + i)).isNone) then
      s.setKettle (k.except_ (accessCode acc.kind) acc.addr.toNat)
    else
      match acc.kind with
      | .load => s.setKettle (k.wx acc.rd (BitVec.ofNat 64 (s.mem.readNat acc.pa acc.n))).next
      | .store => (s.store acc.pa (acc.data.take acc.n)).setKettle k.next
      | .fetch => s)

/-- The old value that a swap of a completion word returns (14_futures.md R422). A future that has left pending gives 2, also
when its entry has been freed meanwhile, as the cases of 14_futures.md and 16_programs_tools_solve.md R461 give (log entry
103). -/
def swapCode (s : State) (i : Nat) (value : BitVec 32) : Nat :=
  let f := s.futAt i
  if f.state ≠ 1#3 then 2
  else if f.gen.toNat ≠ field value 14 18 then 1
  else
    match s.kettle.hold with
    | some h => if h.entry = i ∧ h.handle.toNat = futHandle i f then 0 else 3
    | none => 3

/-- KETTLE_COMPLETION_SWAP (14_futures.md R422): an amoswap.w to the completion word of an entry. A tested access to another
word than that of the held call faults with a free trap value. -/
def execKettleCompletionSwap (entry : BitVec 14) (value : BitVec 32) (rd : BitVec 5) (s : State) :
    Host.Outcome State Fault Refusal :=
  let k := s.kettle
  let i := entry.toNat
  .next (if k.tested = true ∧ (k.hold.map (·.entry)) ≠ some i then
      { s.setKettle (k.except_ 7 (Config.kettleTval s.fresh).toNat) with fresh := s.fresh + 1 }
    else
      let code := swapCode s i value
      let mine : Bool := match k.hold with | some h => h.handle.toNat == i + field value 14 18 * 2 ^ 14 | none => false
      let t := s.setKettle { (k.wx rd (BitVec.ofNat 64 code)).next with hold := if mine then none else k.hold }
      if code = 0 then leaveFut t i 2 (field value 0 8) (s.futAt i).replylen.toNat else t)

/-- Whether the sandbox and the physical map admit an access of n bytes at a physical place (14_futures.md R421, R422). -/
def kettleMay (s : State) (kind : AccessKind) (pa n : Nat) : Bool :=
  (List.range n).all fun i => (s.row (pa + i)).isSome && (!s.kettle.tested || s.kettle.byteOk kind (pa + i))

/-- The accesses of a base word, in order: those before the first that is refused are performed. The place in the order of that
one, and whether its refusal counts as a store's (14_futures.md R421). -/
def kettleAccesses : Nat → List (Bool × Bool × Nat × List Byte) → State → Option (Nat × Bool) × State
  | _, [], s => (none, s)
  | i, (wr, asStore, pa, bs) :: t, s =>
    if kettleMay s (if wr then .store else .load) pa bs.length then kettleAccesses (i + 1) t (if wr then s.store pa bs else s)
    else (some (i, asStore), s)

/-- A word of the base RISC-V set runs (14_futures.md R419; log entry 12): its accesses, with free bytes at free places, meet the
sandbox and the map, and the core's own registers take free values. Where an access is refused, nothing is performed from it on,
and vstart names it (R421). -/
def kettleBaseWord (s : State) : State :=
  let n := s.fresh
  let r := kettleAccesses 0 (Config.kettleAccess n) { s with fresh := n + 1 }
  match r.1 with
  | none => kettleBase r.2 (freeKettle r.2.kettle n)
  | some (i, asStore) =>
    r.2.setKettle { r.2.kettle.except_ (accessCode (if asStore then .store else .load)) (Config.kettleReg n 45).toNat with
      vstart := BitVec.ofNat 64 i }

/-! LR and SC. -/

/-- The words LR and SC of the base set, with their width (14_futures.md R419; log entry 12). -/
def reserveWord (w : Nat) : Option (Bool × Nat) :=
  if w % 128 ≠ 0x2F ∨ (num 3 w 12 ≠ 2 ∧ num 3 w 12 ≠ 3) then none
  else
    let n := 2 ^ num 3 w 12
    if num 5 w 27 = 2 then some (false, n) else if num 5 w 27 = 3 then some (true, n) else none

/-- LR reserves the bytes that it loads, and SC stores where its core still holds a reservation of its bytes (14_futures.md R419).
The place is free, as the translation of the base set is, and SC may fail for reasons of its own (log entry 12). -/
def kettleReserve (s : State) (w : Nat) (sc : Bool) (n : Nat) : State :=
  let k := s.kettle
  let rd := BitVec.ofNat 5 (num 5 w 7)
  let pa := (Config.kettleReg s.fresh 44).toNat
  let s1 : State := { s with fresh := s.fresh + 1 }
  if kettleMay s (if sc then .store else .load) pa n = false then
    s1.setKettle (k.except_ (accessCode (if sc then .store else .load)) (Config.kettleReg s.fresh 45).toNat)
  else if sc = false then
    s1.setKettle { (k.wx rd (BitVec.signExtend 64 (BitVec.ofNat (8 * n) (s.mem.readNat pa n)))).next with resv := some (pa, n) }
  else
    let held := match k.resv with | some x => within pa n x.1 x.2 | none => false
    if held && (Config.kettleReg s.fresh 46).getLsbD 0 then
      (s1.storeNat pa n (k.rx (BitVec.ofNat 5 (num 5 w 20))).toNat).setKettle { (k.wx rd 0#64).next with resv := none }
    else s1.setKettle { (k.wx rd 1#64).next with resv := none }

/-- Whether a word lies in a major opcode that no extension of R419 uses: custom-0 but for the two words of R423, custom-1 to
custom-3, and the opcodes that RISC-V reserves or gives to absent extensions (14_futures.md R419, R423; log entry 12). -/
def kettleAbsent (w : Nat) : Bool := [0x0B, 0x2B, 0x5B, 0x6B, 0x77, 0x7B].contains (w % 128) || w % 65536 == 0

end Sys2Proof.Machine
end

