-- ==== Sys2Proof/Machine/SystemWords.lean ====
section
/-! DEFINITION. The system words: TRAP, SVC, BRK, ERET, HALT, the fault queue, CTXKILL, PSAVE, PREST, TLBFL, the clocks
and BLAZE (15_system.md R434 to R457). -/

namespace Sys2Proof.Machine

/-! Traps by a word. -/

/-- A trap that a word asks for: its frame holds the address of the next word (15_system.md R428, R457). -/
def askTrap (s : State) (cause : Byte) (info : Nat) : State :=
  takeTrap (s.modMe Core.next) s.rank
    { walker := some .s, cause := cause, addr := 0#64, info := BitVec.ofNat 64 info, kind := .load, asked := true }

/-- The causes that TRAP takes: those of 15_system.md R426 that are neither reserved nor interrupts (R457). -/
def trapCode (c : Nat) : Bool := (decide (1 ≤ c) && decide (c ≤ 0x13) && c != 0x0A)

/-- TRAP (15_system.md R457). -/
def execTrap (code : BitVec 8) (s : State) : Host.Outcome State Fault Refusal :=
  settle s (if trapCode code.toNat then .ok (askTrap s code 0) else .trap (trapS 0x01 0#64) s)

/-- SVC (15_system.md R457). -/
def execSvc (imm : BitVec 17) (s : State) : Host.Outcome State Fault Refusal := .next (askTrap s 0x11#8 imm.toNat)

/-- BRK (15_system.md R457): a debug halt at the next word while DBGCTL.BRKEN is set. -/
def execBrk (imm : BitVec 17) (s : State) : Host.Outcome State Fault Refusal :=
  .next (if s.me.brken then debugHalt (s.modMe Core.next) s.rank 2#4 else askTrap s 0x10#8 imm.toNat)

/-! Returning. -/

/-- The key of frame slot i of a core (15_system.md R428, FRAMEBASE). -/
def frameKey (s : State) (r i : Nat) : Nat := localKey r (field (s.coreAt r).ctl.framebase 14 5 * 16384 + 16384 * i)

/-- The task of the frame at a key is restored, and DEPTH falls by 1 (15_system.md R434). -/
def restoreTask (s : State) (r k : Nat) : State :=
  let c := s.coreAt r
  let c1 := (c.restore s k (s.mem.readNat (k + 3) 1 / 2 % 2 == 1)).modCtl fun q =>
    { q with tstate := setField (setField q.tstate 0 2 (s.mem.readNat (k + 2) 1 % 2)) 2 2 (c.depth - 1)
             parkon := setField q.parkon 63 1 0 }
  let c2 := c1.dropMonitor
  s.setCore r { c2 with task := ((frameEng s k).map (·.task)).getD c.task }

/-- The return to the frame at a key: its task goes on, or takes the cause that the frame records before any word issues
(15_system.md R434). -/
def returnTo (s : State) (r k : Nat) : State :=
  match frameTrap s (s.coreAt r).pid k with
  | some t => takeTrap (restoreTask s r k) r t
  | none => restoreTask s r k

/-- A waiter joins a fault-queue entry (15_system.md R441). -/
def addWaiter (s : State) (pid : Nat) (seq : BitVec 32) (w : FaultWaiter) : State :=
  s.modPart pid fun p =>
    { p with fq := { p.fq with entries := p.fq.entries.map fun e =>
        if e.seq = seq then { e with waiters := e.waiters ++ [w] } else e } }

/-- The trap frame at key k becomes the full frame at key fa, with the tiles and accumulators of the core, and the
tags of its units (15_system.md R441, 08_tasks.md R263). -/
def copyFrame (s : State) (r k fa : Nat) : State :=
  let m := frameTiles (s.coreAt r) (plainHead 1 liveAll) (s.mem.slice k frShort)
  let tags := (s.ctags.filter fun u => decide (k / 16 ≤ u) && decide (u < (k + frShort) / 16)).map fun u =>
    (fa + (16 * u - k), true)
  let s1 := (s.storeSparse fa frSize m).tagUnits tags
  s1.storeNat (fa + 3) 1 (s1.mem.readNat (fa + 3) 1 / 4 * 4 + 2 + s1.mem.readNat (fa + 3) 1 % 2)

/-- ERET with PARKON.VALID (15_system.md R441): the task parks on an entry that is not done, in a park frame or, where
none is free, blocked on its core. A composed group ends first (09_compose.md R278). -/
def parkOn (s0 : State) (r k : Nat) (seq : BitVec 32) : State :=
  let s := endComposed s0 r 2
  let pid := (s.coreAt r).pid
  let w : Engine := if s.mem.readNat k 1 = 6 then decodeEngine (s.mem.readNat (k + 1) 1) else .s
  let waiter : FaultWaiter := { core := r, frame := none, walker := w, addr := frameFaultAddr s pid k }
  match takeFrame s pid with
  | some (fa, s1) =>
    let s2 := addWaiter (copyFrame s1 r k fa) pid seq { waiter with frame := some fa }
    startNext (s2.modCore r fun c =>
      (c.leave.modCtl fun q => { q with parkon := setField q.parkon 63 1 0, tstate := 0#32 })) r
  | none =>
    (addWaiter (restoreTask s r k) pid seq waiter).modCore r fun c =>
      { c with blocked := some { op := .faultEntry seq (frameTrap s pid k), since := s.cycle, deadline := none } }

/-- The entry of a partition's fault queue with a sequence number. -/
def faultEntryOf (s : State) (pid : Nat) (seq : BitVec 32) : Option FaultEntry :=
  (s.part? pid).bind fun p => if seq = 0#32 then none else p.fq.entries.find? fun e => e.seq == seq

/-- Whether the walk of a word that an interrupt has left is under way (15_system.md R430). -/
def State.walking (s : State) (r : Nat) : Bool :=
  let m := s.mmuAt (clusterOf r)
  (m.misses ++ m.queue).any fun x => x.waits.any fun w => w.core == r && w.post.isSome

/-- The steps of ERET after its first test (15_system.md R434); a poisoned frame is a machine check (01_machine.md R37). -/
def eret (s : State) : Res State :=
  let c := s.me
  let r := s.rank
  if c.depth = 0 then .trap (trapS 0x07 0#64) s
  else if c.quiet = false ∨ s.landed r = false ∨ s.walking r = true then .hold .engines s
  else
    let s1 := syncAll s
    let k := frameKey s1 r (c.depth - 1)
    let seq : BitVec 32 := s1.me.ctl.parkon.setWidth 32
    if frameOk s1 k = false then .trap (trapS 0x07 0#64) s1
    else if s1.poisoned k (if s1.mem.readNat (k + 3) 1 / 2 % 2 = 1 then frSize else frShort) then .trap (trapS 0x0D 0#64) s1
    else if field s1.me.ctl.parkon 63 1 = 1 then
      match faultEntryOf s1 c.pid seq with
      | none => .trap (trapS 0x07 0#64) s1
      | some e => .ok (if e.status = 2#8 then returnTo s1 r k else parkOn s1 r k seq)
    else .ok (returnTo s1 r k)

/-- ERET (15_system.md R434, R441). -/
def execEret (s : State) : Host.Outcome State Fault Refusal := settle s (partLevel s (eret s))

/-- HALT (15_system.md R446). -/
def execHalt (s : State) : Host.Outcome State Fault Refusal :=
  settle s (partLevel s (if s.me.quiet = false ∨ s.landed s.rank = false ∨ s.gangMaxx s.rank = true then .hold .engines s
    else .ok (haltCore ((endForDebug (syncAll s) s.rank).modMe Core.next) s.rank 5#4)))

/-! The fault queue. -/

/-- The oldest pending entry of a partition (15_system.md R440). -/
def oldestPending (s : State) (pid : Nat) : Option FaultEntry :=
  (s.part? pid).bind fun p => p.fq.entries.find? fun e => e.status == 0#8

/-- FQTAKE (15_system.md R440). -/
def execFqtake (d a : GIdx) (s : State) : Host.Outcome State Fault Refusal :=
  let c := s.me.rg a
  let x := c.word
  settle s (partLevel s ((access s .s c x 32 permStore 32 .own).bind fun t =>
    match t.1 with
    | .bytes [k] =>
      match oldestPending t.2 s.me.pid with
      | none => .ok (putVal t.2 d GVal.zero)
      | some e =>
        let e1 := { e with status := 1#8 }
        .ok (putVal ((setFault (settleFor t.2 s.rank x [k]) s.me.pid e1).store k.key (faultBytes s.me.pid e1)) d (GVal.ofNat e.seq.toNat))
    | _ => .trap (trapS 0x07 x) t.2))

/-- A waiter of an entry resumes (15_system.md R442): its word runs again, or takes 0x07 under deny. -/
def resumeWaiter (deny : Bool) (e : FaultEntry) (s : State) (w : FaultWaiter) : State :=
  match w.frame with
  | some fa => pushResume (if deny then faultFrame s fa w.walker 7 0 else s) w.core fa
  | none =>
    s.modCore w.core fun c =>
      match c.blocked with
      | some { op := .faultEntry q pf, .. } =>
        if q = e.seq then { c with blocked := none, pendTrap := if deny then some (mkTrap w.walker 0x07 w.addr) else pf } else c
      | _ => c

/-- The end of an entry (15_system.md R442). -/
def endEntry (s : State) (pid : Nat) (e : FaultEntry) (deny : Bool) : State :=
  let s1 := (setFault s pid { e with status := 2#8, waiters := [] }).modPart pid fun p =>
    { p with fq := { p.fq with done := p.fq.done + 1#32 } }
  e.waiters.foldl (resumeWaiter deny e) s1

/-- FQDONE (15_system.md R442). -/
def execFqdone (a b : GIdx) (s : State) : Host.Outcome State Fault Refusal :=
  let x := (s.me.rg a).bits
  let y := (s.me.rg b).bits
  settle s (partLevel s (if field x 32 96 ≠ 0 ∨ field y 1 127 ≠ 0 then .trap (trapS 0x07 0#64) s
    else
      afterRelease s .pkg fun u =>
        .ok ((match faultEntryOf u s.me.pid (x.setWidth 32) with
          | some e => if e.status = 1#8 then endEntry u s.me.pid e (y.getLsbD 0) else u
          | none => u).modMe Core.next)))

/-! Killing a context. -/

/-- The context of a fault-queue waiter's task. -/
def waiterCtx (s : State) (w : FaultWaiter) : BitVec 16 :=
  match w.frame with
  | some fa => (((frameEng s fa).bind (·.task)).map (·.ctx)).getD 0#16
  | none => (s.coreAt w.core).ctx

/-- The context's fault-queue waiters resume (15_system.md R443, step 5). -/
def releaseWaiters (s : State) (pid : Nat) (ctx : BitVec 16) : State :=
  let ws := (((s.part? pid).map (·.fq.entries)).getD []).map fun e => (e, e.waiters.filter fun w => waiterCtx s w == ctx)
  let s1 := s.modPart pid fun p =>
    { p with fq := { p.fq with entries := p.fq.entries.map fun e =>
        { e with waiters := e.waiters.filter fun w => waiterCtx s w != ctx } } }
  ws.foldl (fun t x => x.2.foldl (resumeWaiter false x.1) t) s1

/-- The view of a context is released as KVTRNC to 0 does (15_system.md R443, step 4); a step that cannot be made
releases nothing (13_kv.md R378). -/
def releaseView (s : State) (p : Part) (ctx : BitVec 16) (k : Nat) : State :=
  let v := viewAt s ctx k
  match validTree s p v.tree with
  | (none, u) => u
  | (some t, u) => (truncStep u p v t 0).2

/-- The running tasks of a context take 0x12 at their next boundaries (15_system.md R443, step 6). -/
def killRunning (s : State) (pid : Nat) (ctx : BitVec 16) : State :=
  { s with cores := s.cores.map fun (e : Nat × Core) =>
      if e.2.pid = pid ∧ e.2.task.isSome = true ∧ e.2.ctx = ctx then (e.1, { e.2 with killed := true }) else e }

/-- The steps of CTXKILL at the hub (15_system.md R443), with the context's entry at key k. -/
def killCtx (s : State) (p : Part) (ctx : BitVec 16) (k : Nat) : State :=
  let pid := p.pid
  let s1 := (setCtxState s p ctx 3 (s.mem.readNat k 1 / 8 % 2 == 1)).modPart pid fun p => { p with killed := p.killed ++ [ctx] }
  let s2 := killFuts s1 pid ctx
  let s3 := (setCtxState (ctxPut s2 p ctx 20 4 (s2.mem.readNat (k + 24) 4)).2 p ctx 3 false).modPart pid fun p =>
    { p with overflow := p.overflow.filter fun c => c != ctx }
  let s4 := releaseWaiters (releaseView s3 p ctx k) pid ctx
  setCtxState (killRunning s4 pid ctx) p ctx 0 false

/-- The step of a request at the hub: that of a key-value word (13_kv.md R385), or the end of a context, where it is not free
(15_system.md R443). -/
def hubStep (s : State) (q : HubReq) : KvAns (Nat × Nat) :=
  match q.op, s.part? q.pid with
  | .kill, some p =>
    match ctxEntry s p q.ctx .store with
    | (none, t) => (.ok (0, 0), t)
    | (some k, t) => (.ok (0, 0), if (ctxQueue t k).state = 0 then t else killCtx t p q.ctx k)
  | _, _ => kvHub s q

/-- The hub carries out the i-th request that stands there and replies, where its partition is resident (13_kv.md R384, R385). -/
def hubServe (s : State) (i : Nat) : State :=
  match s.hubReqs[i]? with
  | none => s
  | some q =>
    match s.part? q.pid with
    | some p =>
      if p.resident then
        let r := hubStep { s with hubReqs := s.hubReqs.eraseIdx i } q
        hubReply r.2 q r.reply
      else s
    | none => { s with hubReqs := s.hubReqs.eraseIdx i }

/-- The oldest request that the hub can carry out. -/
def hubWaits (s : State) : Option Nat :=
  s.hubReqs.findIdx? fun q => match s.part? q.pid with | some p => p.resident | none => true

/-- CTXKILL (15_system.md R443). -/
def execCtxkill (a : GIdx) (s : State) : Host.Outcome State Fault Refusal :=
  let x := (s.me.rg a).bits
  let ctx : BitVec 16 := x.setWidth 16
  settle s (partLevel s (if field x 16 112 ≠ 0 then .trap (trapS 0x07 0#64) s
    else
      match s.part? s.me.pid with
      | none => .trap (trapS 0x07 0#64) s
      | some p =>
        if ctx = 0#16 ∨ ctxOf p ctx = false then .trap (trapS 0x07 0#64) s
        else askHub hubStep s (hubReq s 0#6 ctx 0#64 false .kill)))

/-! Saving cores. -/

/-- The bytes of a core image (15_system.md R444). -/
abbrev imageSize : Nat := 851968

/-- The bytes and tags of 32 records at an offset. -/
def recordsAt (off : Nat) (l : List Record) : List (Nat × List Byte) :=
  (l.take 32).zipIdx.map fun x => (off + 64 * x.2, x.1.bytes)

/-- The tags of the argument units of records at an offset. -/
def recordTags (off : Nat) (l : List Record) : List (Nat × Bool) :=
  ((l.take 32).zipIdx.map fun x => [(off + 64 * x.2, x.1.argA.tag), (off + 64 * x.2 + 16, x.1.argB.tag)]).flatten

/-- A number from fields, each a width in bits and a value, the lowest first. -/
def packed : List (Nat × Nat) → Nat
  | [] => 0
  | (w, v) :: t => v % 2 ^ w + 2 ^ w * packed t

/-- The codes of the kinds of arrivals in an image (log entry 7). -/
def ArrivalKind.all : List ArrivalKind := [.putf, .putw, .dputf, .inject, .pin, .ue]

/-- The 96 bytes of a held arrival with its remaining cycles in an image, whose length is never 0 (15_system.md R444; log entry
7). -/
def heldBytes (h : Held) (now : Nat) : List Byte :=
  let a := h.arr
  let u : Nat × Nat × Nat := match a.ue with | none => (0, 0, 0) | some (none, n) => (1, 0, n) | some (some p, n) => (2, p, n)
  leBytes 32 (packed [(19, a.off.toNat), (3, ArrivalKind.all.idxOf a.kind), (1, a.byAlias.toNat), (2, u.1), (7, a.bytes.length),
    (32, a.srcPkg.toNat), (16, a.srcCore.toNat), (16, a.entry.toNat), (16, a.cmd.toNat), (16, h.until_ - now),
    (64, ((List.range 64).map fun i => if a.bad.contains i then 2 ^ i else 0).sum), (16, u.2.1), (48, u.2.2)]) ++
    (a.bytes ++ List.replicate (64 - a.bytes.length) 0#8)

/-- The arrival that stands in 96 bytes of an image of core r, if one does. -/
def heldIn (s : State) (r k : Nat) : Option Held :=
  let x := BitVec.ofNat 256 (s.mem.readNat k 32)
  let n := field x 25 7
  if n = 0 then none
  else some
    { arr :=
        { dst := BitVec.ofNat 12 r, off := x.setWidth 19, bytes := s.mem.read (k + 32) n,
          kind := ArrivalKind.all.getD (field x 19 3) .putf, srcPkg := BitVec.ofNat 32 (field x 32 32),
          srcCore := BitVec.ofNat 16 (field x 64 16), entry := BitVec.ofNat 14 (field x 80 16),
          bad := (List.range 64).filter fun i => x.getLsbD (128 + i), byAlias := field x 22 1 == 1,
          cmd := BitVec.ofNat 16 (field x 96 16),
          ue := match field x 23 2 with
            | 0 => none
            | 1 => some (none, field x 208 48)
            | _ => some (some (field x 192 16), field x 208 48) }
      until_ := s.cycle + field x 112 16 }

/-- The code and the register of a waiting request that an image holds: TAKE, PEEK and PUTW of other cores (07_sync.md R221). -/
def presCode (r : Nat) (q : WaitReq) : Option (Nat × Nat) :=
  if q.src = r then none
  else match q.op with | .take d => some (1, d.toNat) | .peek d => some (2, d.toNat) | .putw => some (3, 0) | _ => none

/-- The 16 bytes of a waiting request in an image, whose code is never 0 (15_system.md R444; log entry 7). -/
def waitBytes (q : WaitReq) (c : Nat × Nat) : List Byte :=
  let a : Nat × Nat × Nat := match q.away with | none => (0, 0, 0) | some (p, k) => (1, p.toNat, k.toNat)
  leBytes 16 (packed [(2, c.1), (6, c.2), (13, q.src), (19, q.off), (1, a.1), (18, a.2.1), (12, a.2.2),
    (1, q.frame.isSome.toNat), (56, q.frame.getD 0)])

/-- The waiting request that stands in 16 bytes of an image, if one does. -/
def waitIn (s : State) (k : Nat) : Option WaitReq :=
  let x := BitVec.ofNat 128 (s.mem.readNat k 16)
  if field x 0 2 = 0 then none
  else some
    { src := field x 8 13, frame := if field x 71 1 = 1 then some (field x 72 56) else none,
      op := match field x 0 2 with | 1 => .take (BitVec.ofNat 6 (field x 2 6)) | 2 => .peek (BitVec.ofNat 6 (field x 2 6)) | _ => .putw,
      off := field x 21 19, deadline := none,
      away := if field x 40 1 = 1 then some (BitVec.ofNat 18 (field x 41 18), BitVec.ofNat 12 (field x 59 12)) else none }

/-- A list with the requests that an image holds in its bytes replaced by those, in their order. -/
def mergeWaits (r : Nat) : List WaitReq → List WaitReq → List WaitReq
  | [], l => l
  | q :: t, l =>
    if (presCode r q).isNone then q :: mergeWaits r t l
    else match l with | [] => mergeWaits r t [] | x :: u => x :: mergeWaits r t u

/-- The 64 bytes of an applied record in an image (15_system.md R444; log entry 7). -/
def appliedBytes (a : Applied) : List Byte :=
  leBytes 24 (packed [(1, 1), (18, a.id.pkg.toNat), (12, a.id.core.toNat), (32, a.id.num.toNat), (64, a.low)]) ++
    leBytes 40 (((List.range 256).map fun i => if a.above.contains (a.low + i) then 2 ^ i else 0).sum)

/-- The applied record that stands in 64 bytes of an image, if one does. -/
def appliedIn (s : State) (k : Nat) : Option Applied :=
  let x := BitVec.ofNat 192 (s.mem.readNat k 24)
  let low := field x 63 64
  if field x 0 1 = 0 then none
  else some
    { id := { pkg := BitVec.ofNat 18 (field x 1 18), core := BitVec.ofNat 12 (field x 19 12), num := BitVec.ofNat 32 (field x 31 32) }
      low := low
      above := ((List.range 256).filter (s.mem.readNat (k + 24) 32).testBit).map (low + ·) }

/-- The areas of an image for the held arrivals, the waiting requests and the applied records of core r (15_system.md R444). -/
def queueAreas (s : State) (r : Nat) : List (Nat × List Byte) :=
  let c := s.coreAt r
  ((c.held.take 32).zipIdx.map fun h => (0xC5800 + 96 * h.2, heldBytes h.1 s.cycle)) ++
    (((c.waitq.filterMap fun q => (presCode r q).map fun a => waitBytes q a).take 64).zipIdx.map fun b =>
      (0xC6400 + 16 * b.2, b.1)) ++
    ((c.applied.take 64).zipIdx.map fun a => (0xC6800 + 64 * a.2, appliedBytes a.1))

/-- The header of an image's frame: INFO 4, a PSAVE or a swap (15_system.md R432). -/
def imageHead : FrameHead := plainHead 4 liveAll

/-- The image of a core as sparse bytes (15_system.md R444); its frame and its own-form areas name what they hold by
handles (log entry 7). -/
def imageMem (s : State) (r : Nat) : Mem :=
  let c := s.coreAt r
  let m1 := s.mem.slice (localKey r 0) localSize
  let m2 := Mem.overlay m1 0x80000 frSize (frameMem s r imageHead (s.saved.length + 1))
  Mem.writes m2 ([(0xC4000, leBytes 1024 c.pres.toNat),
      (0xC4400, ((List.range 256).map fun i => leBytes 4 (c.rmail (BitVec.ofNat 8 i)).toNat).flatten),
      (0xC7800, leBytes 8 (s.images.length + 1))] ++ queueAreas s r ++ recordsAt 0xC4800 c.hw ++ recordsAt 0xC5000 c.push)

/-- The tagged units of an image by their offsets. -/
def imageTags (s : State) (r : Nat) : List Nat :=
  let c := s.coreAt r
  let own := (s.ctags.filter fun u => decide (localKey r 0 / 16 ≤ u) && decide (u < localKey r 0 / 16 + localSize / 16)).map
    fun u => 16 * u - localKey r 0
  let units : List (Nat × Bool) := ((frameTags c imageHead).map fun (x : Nat × Bool) => (0x80000 + x.1, x.2)) ++
    recordTags 0xC4800 c.hw ++ recordTags 0xC5000 c.push
  own ++ (units.filter fun x => x.2).map fun x => x.1

/-- The key of an offset in a list of chunks. -/
def chunkKey : List Chunk → Nat → Nat
  | [], o => o
  | c :: t, o => if o < c.len then c.key + o else chunkKey t (o - c.len)

/-- Sparse bytes written over chunks. -/
def storeOver (s : State) (m : Mem) : Nat → List Chunk → State
  | _, [] => s
  | o, c :: t => storeOver (s.storeSparse c.key c.len (m.slice o c.len)) m (o + c.len) t

/-- The sparse bytes of chunks. -/
def readOver (s : State) : Nat → List Chunk → Mem → Mem
  | _, [], m => m
  | o, c :: t, m => readOver s (o + c.len) t (Mem.overlay m o c.len (s.mem.slice c.key c.len))

/-- A core's image is saved over chunks (15_system.md R446), with the poison marks of its local memory (01_machine.md R37). -/
def saveImage (s : State) (r : Nat) (l : List Chunk) : State :=
  let c := s.coreAt r
  let s1 := storeOver s (imageMem s r) 0 l
  let bad := (s.poison.filter fun k => decide (localKey r 0 ≤ k) && decide (k < localKey r 0 + localSize)).map fun k =>
    chunkKey l (k - localKey r 0)
  (({ s1 with saved := s1.saved ++ [c.engSave], images := s1.images ++ [c] } : State).tagUnits
    ((imageTags s r).map fun o => (chunkKey l o, true))).markPoison bad

/-- A core's interface and task state come from an image: what it holds in bytes from the image's bytes, the rest from
what the handle names (log entry 7). -/
def Core.loadImage (c : Core) (s : State) (r k : Nat) : Core :=
  let o := (s.images[s.mem.readNat (k + 0xC7800) 8 - 1]?).getD Core.reset
  let recs (off n : Nat) : List Record := (List.range n).map fun i => recordAt s (k + off + 64 * i)
  let c1 := c.restore s (k + 0x80000) true
  { c1 with
    ctl := { c1.ctl with evqptr := o.ctl.evqptr, prsovf := o.ctl.prsovf, cdecerr := o.ctl.cdecerr, monctl := o.ctl.monctl }
    pres := BitVec.ofNat 8192 (s.mem.readNat (k + 0xC4000) 1024)
    mail := Vector.ofFn fun i => BitVec.ofNat 32 (s.mem.readNat (k + 0xC4400 + 4 * i.val) 4)
    hw := recs 0xC4800 (min 32 o.hw.length), push := recs 0xC5000 (min 32 o.push.length)
    held := (List.range 32).filterMap fun i => heldIn s r (k + 0xC5800 + 96 * i)
    waitq := mergeWaits r o.waitq ((List.range 64).filterMap fun i => waitIn s (k + 0xC6400 + 16 * i))
    applied := (List.range 64).filterMap fun i => appliedIn s (k + 0xC6800 + 64 * i)
    resend := o.resend, evqSeq := o.evqSeq, monLine := o.monLine
    ringHead := o.ringHead, ringN := o.ringN, resumes := o.resumes, task := o.task, blocked := o.blocked
    killed := o.killed, msgUsed := o.msgUsed, msgNext := o.msgNext, rootRing := o.rootRing, stealPos := o.stealPos, dnum := o.dnum, pendTrap := o.pendTrap }

/-- A core is loaded from the image over chunks (15_system.md R446). -/
def loadImage (s : State) (r : Nat) (l : List Chunk) : State :=
  let m := readOver s 0 l []
  let base := 2 ^ 57
  let tags := (l.foldl (fun (a : Nat × List (Nat × Bool)) c =>
    (a.1 + c.len, a.2 ++ ((s.ctags.filter fun u => decide (c.key / 16 ≤ u) && decide (u < (c.key + c.len) / 16)).map
      fun u => (a.1 + (16 * u - c.key), true)))) (0, [])).2
  let v : State := ({ s with mem := m.map fun x => (base + x.1, x.2), ctags := [] } : State).tagUnits
    (tags.map fun x => (base + x.1, x.2))
  let s1 := (s.storeSparse (localKey r 0) localSize (Mem.below m localSize)).tagUnits
    ((tags.filter fun x => decide (x.1 < localSize)).map fun x => (localKey r 0 + x.1, true))
  s1.modCore r fun c => c.loadImage v r base

/-- PSAVE and PREST (15_system.md R446): the descriptor, the image's place, and the transfer. -/
def imageWord (s : State) (a : GIdx) (need : BitVec 12) (f : State → Nat → List Chunk → State) : Res State :=
  let c := s.me.rg a
  let x := c.word
  (access s .s c x 64 (permLoad ||| permStore) 64 .own).bind fun t =>
    match t.1 with
    | .bytes [k] =>
      let u := settleFor t.2 s.rank x [k]
      if u.poisoned k.key 64 then .trap (trapS 0x0D x) u
      else
        let img := u.loadUnit (k.key + 16)
        let core := u.mem.readNat k.key 2
        (access u .s img img.word imageSize need 64 .generic).bind fun q =>
          match q.1 with
          | .bytes l =>
            if l.any (·.host) then .trap (trapS 0x07 img.word) q.2
            else
              let code := if q.2.coreOf s.me.pid core = false then 2 else if (q.2.coreAt core).halt.isNone then 1 else 0
              if code = 0 ∧ need &&& permLoad = permLoad ∧ q.2.chunksPoisoned l = true then .trap (trapS 0x0D img.word) q.2
              else .ok (((if code = 0 then f q.2 core l else q.2).storeNat (k.key + 4) 4 code).modMe fun c => c.clearDist.next)
          | _ => .trap (trapS 0x07 img.word) q.2
    | _ => .trap (trapS 0x07 x) t.2

/-- PSAVE (15_system.md R446). -/
def execPsave (a : GIdx) (s : State) : Host.Outcome State Fault Refusal :=
  settle s (partLevel s (imageWord s a (permStore ||| permStoreCap) saveImage))

/-- PREST (15_system.md R446). -/
def execPrest (a : GIdx) (s : State) : Host.Outcome State Fault Refusal :=
  settle s (partLevel s (imageWord s a (permLoad ||| permLoadCap) loadImage))

/-! Translation flushes. -/

/-- Whether a scope of core r covers core q (15_system.md R447; clusters and dies by 01_machine.md R18). -/
def covers (scope : Scope) (r q : Nat) : Bool :=
  let x := BitVec.ofNat 12 r
  let y := BitVec.ofNat 12 q
  match scope with
  | .core => r == q
  | .clu => field x 7 5 == field y 7 5 && field x 2 3 == field y 2 3
  | .die => field x 10 2 == field y 10 2
  | .pkg => true
  | .sys => true

/-- Whether a scope of core r covers a cluster; .core covers that of the core (15_system.md R447, log entry 82). -/
def coversMmu (scope : Scope) (r cl : Nat) : Bool :=
  match scope with
  | .core | .clu => clusterOf r == cl
  | .die => clusterOf r / 64 == cl / 64
  | .pkg | .sys => true

/-- The TLBs and walk caches in scope drop what they hold of a partition, or of the pages of a virtual address and of its
path (15_system.md R447). -/
def flushTlbs (s : State) (scope : Scope) (r pid : Nat) (va : Option Nat) : State :=
  let stays (p a n : Nat) : Bool := !(p == pid && (match va with | none => true | some x => x / 2 ^ n == a / 2 ^ n))
  { s with
    cores := s.cores.map fun (e : Nat × Core) =>
      if covers scope r e.1 then (e.1, { e.2 with tlb := e.2.tlb.filter fun t => stays t.pid t.va t.size }) else e
    mmus := s.mmus.map fun (e : Nat × Mmu) =>
      if coversMmu scope r e.1 then
        (e.1, { e.2 with tlb := e.2.tlb.filter fun t => stays t.pid t.va t.size
                         ptrs := e.2.ptrs.filter fun t => stays t.pid t.va t.size })
      else e }

/-- Whether a walk for a partition runs in scope. -/
def walksIn (s : State) (scope : Scope) (r pid : Nat) : Bool :=
  s.mmus.any fun e => coversMmu scope r e.1 && (e.2.misses ++ e.2.queue).any fun x => x.pid == pid

/-- TLBFL (15_system.md R447): it holds while a walk in scope is running. -/
def execTlbfl (scope : Scope) (a b : GIdx) (s : State) : Host.Outcome State Fault Refusal :=
  let x := (s.me.rg a).word
  let y := (s.me.rg b).word
  settle s (partLevel s (if field y 1 63 ≠ 0 then .trap (trapS 0x07 0#64) s
    else if walksIn s scope s.rank s.me.pid then .hold .engines s
    else .ok ((flushTlbs s scope s.rank s.me.pid (if y.getLsbD 0 then none else some (field x 0 52))).modMe Core.next)))

/-! Time. -/

/-- RDCYC (15_system.md R455). -/
def execRdcyc (d : GIdx) (s : State) : Host.Outcome State Fault Refusal := .next (putVal s d (GVal.ofNat (s.cycle % 2 ^ 64)))

/-- RDPTP (15_system.md R455). -/
def execRdptp (d : GIdx) (s : State) : Host.Outcome State Fault Refusal :=
  .next (putVal s d (GVal.ofNat (s.now % 2 ^ 64 + s.locked.toNat * 2 ^ 127)))

/-! Blazes. -/

/-- A blaze trigger reaches the hub (15_system.md R453): while the snapshots are locked it is missed; triggers before
the latch form one blaze. -/
def blazeTrigger (s : State) : State :=
  if s.blzLock then { s with blzMissed := if s.blzMissed = 0xFFFF#16 then s.blzMissed else s.blzMissed + 1#16 }
  else { s with blzDue := some (s.blzDue.getD (s.cycle + 64)) }

/-- BLAZE (15_system.md R453). -/
def execBlaze (s : State) : Host.Outcome State Fault Refusal :=
  settle s (if s.me.atTask = true ∧ s.blzTask = false then .trap (trapS 0x07 0#64) s
    else .ok ((blazeTrigger s).modMe Core.next))

end Sys2Proof.Machine
end

