-- ==== Sys2Proof/Machine/Events.lean ====
section
/-! DEFINITION. The steps of a core and of its interface that the opcode table lists without an encoding: returning
loads and walks, traps and interrupts, arrivals and waits, tasks, steals, pushes and messages, parks, the group
watchdog, debugging and writes of control registers. -/

namespace Sys2Proof.Machine


/-- A step that would reach a core whose rank is in transit stays on its way, in its order (05_memory.md R155,
07_sync.md R218); else it is taken. -/
def onArrival (s : State) (src : Nat) (ev : Instr) (t : State) : Host.Outcome State Fault Refusal :=
  let e := s.rankAt (ifaceOf s.rank) s.rank
  .next (if rankMoves e then { s with net := s.net ++ [{ src := src, dst := s.rank, ev := ev, pid := field e 16 10 }] } else t)

/-! Loads, stores and walks. -/

/-- S_LOAD_RETURN (05_memory.md R164, R150): the next piece of the i-th outstanding load returns. -/
def execSLoadReturn (i mix : Nat) (s : State) : Host.Outcome State Fault Refusal := .next (returnLoad s s.rank i mix)

/-- STORE_BUFFER_PERFORM (05_memory.md R173, R176): the next piece of the i-th buffered store performs. -/
def execStoreBufferPerform (i : Nat) (s : State) : Host.Outcome State Fault Refusal := .next (performStore s s.rank i)

/-- What a walk of core r finds fills the TLBs of some cores of its cluster, unless the page is in transit (05_memory.md R169,
06_ordering.md R205). -/
def fillTlb (s : State) (r : Nat) (va : Word64) (k : AccessKind) (cores : List Nat) : State :=
  let a := field va 0 52
  match coreWalk s r a k with
  | .leaf _ entry e sh =>
    if e.getLsbD 60 then s else fillFrom (touchLeaf s entry e k) r a (touched e k) sh cores
  | _ => s

/-- How a walk of core r ends by the tables as they stand (05_memory.md R167, 01_machine.md R37). -/
def walkEnd (s : State) (r : Nat) (w : Walk) : WalkEnd :=
  match coreWalk s r (field w.va 0 52) w.kind with
  | .leaf _ _ _ _ => .found
  | .absent => .absent
  | .denied => .fault 0x07#8
  | .poisoned => .fault 0x0D#8

/-- A walk ends for one access that waits for it (05_memory.md R170): a translation fills the TLBs, and where an interrupt has
left the access (15_system.md R430) an absent page is posted and recorded in the frame of that boundary, and another fault is
recorded there. An access whose word still stands meets its end when it is made again. -/
def walkDone (s : State) (w : MissWait) : State :=
  let r := w.core
  let c := s.coreAt r
  match walkEnd s r w.walk, w.post with
  | .found, _ => fillTlb s r w.walk.va w.walk.kind [r]
  | .absent, some d =>
    let q := fqPost s c.pid w.walk.va c.ctx r w.walk.kind .s
    faultFrame q.2 (frameKey q.2 r d) .s 6 q.1
  | .fault cause, some d => faultFrame s (frameKey s r d) .s cause.toNat 0
  | _, none => s

/-- The oldest walk of a cluster ends for every access joined to it, and the oldest miss of the queue takes its entry
(05_memory.md R170). -/
def missDone (s : State) (cl : Nat) : State :=
  match (s.mmuAt cl).misses with
  | [] => s
  | m :: rest =>
    (m.waits.filter fun w => (s.coreAt w.core).pid == m.pid).foldl walkDone
      (s.modMmu cl fun u => { u with misses := rest ++ u.queue.take 1, queue := u.queue.drop 1 })

/-- PAGE_WALK_COMPLETE (05_memory.md R167, R170, 15_system.md R430): the oldest walk of the core's cluster ends as its tables
give; an end that they do not give is not taken. -/
def execPageWalkComplete (e : WalkEnd) (s : State) : Host.Outcome State Fault Refusal :=
  let cl := clusterOf s.rank
  .next (match (s.mmuAt cl).misses with
    | { waits := w :: _, .. } :: _ => if e = walkEnd s w.core w.walk then missDone s cl else s
    | _ => s)

/-! Traps and interrupts. -/

/-- TRAP_ENTRY (15_system.md R428): a fault stops the walkers of a core that is not halted and enters its handler. -/
def execTrapEntry (t : Trap) (s : State) : Host.Outcome State Fault Refusal :=
  .next (if s.me.halt.isSome then s else takeTrap s s.rank t)

/-- Whether a core's task runs: it holds the core, which is neither halted nor stopped for a swap. -/
def Core.runs (c : Core) : Bool := c.task.isSome && c.halt.isNone && !c.swap

/-- The interrupt that is due at a core: the lowest number pending and enabled (15_system.md R436). -/
def interruptDue (s : State) (r : Nat) : Option Nat :=
  let c := s.coreAt r
  let x := s.intpend r &&& c.ctl.inten &&& 0xFFFF#32
  if c.runs && (c.level == 0 || (c.level == 1 && c.depth == 0 && c.ctl.inten.getLsbD 31)) then
    (List.range 16).find? fun i => x.getLsbD i
  else none

/-- Whether the S walker holds at a FENCE, STREL, LDACQ or ordered AMO, at which no interrupt is taken (06_ordering.md
R197). -/
def atFence (s : State) : Bool :=
  match s.me.hold with
  | some (.engines, _) =>
    match (wordAt s .s).map decodeWord with
    | some (.ok (.fence _)) | some (.ok (.strel _ _ _ _)) | some (.ok (.ldacq _ _ _ _)) => true
    | some (.ok (.amoAdd o _ _ _ _)) | some (.ok (.amoAnd o _ _ _ _)) | some (.ok (.amoOr o _ _ _ _))
    | some (.ok (.amoXor o _ _ _ _)) | some (.ok (.amoMin o _ _ _ _)) | some (.ok (.amoMax o _ _ _ _))
    | some (.ok (.amoSwp o _ _ _ _)) | some (.ok (.amoCas o _ _ _ _)) => o != .plain
    | _ => false
  | _ => false

/-- The walk that the S walker awaits (15_system.md R430). -/
def awaitedWalk (s : State) (r : Nat) : Option Walk :=
  let m := s.mmuAt (clusterOf r)
  match (s.coreAt r).hold with
  | some (.pageWalk, _) =>
    (((m.misses ++ m.queue).flatMap (·.waits)).find? fun w => w.core == r && w.eng == some .s && w.post.isNone).map (·.walk)
  | _ => none

/-- Whether SPDIST.COUNT has reached SPDIST.LIMIT at a core whose task runs outside a handler (04_scalar.md R126). -/
def Core.overrunDue (c : Core) : Bool :=
  c.runs && c.depth == 0 && c.blocked.isNone && decide (field c.ctl.spdist 0 15 ≤ field c.ctl.spdist 16 16)

/-- Whether something that precedes an interrupt is due at the S boundary (15_system.md R427). -/
def Core.firstDue (c : Core) : Bool := c.pendTrap.isSome || c.killed || (c.overrunDue && !c.follows)

/-- INTERRUPT_TAKE (15_system.md R427, R430, R436): the interrupt that is due is taken at the boundary, unless something else
comes first; the walk that the S walker awaits goes on. A step that names another walk is not taken. -/
def execInterruptTake (walk : Option Walk) (s : State) : Host.Outcome State Fault Refusal :=
  .next (match interruptDue s s.rank with
    | none => s
    | some i =>
      if atFence s || s.me.atHub || s.me.firstDue || (walk.isSome && awaitedWalk s s.rank != walk) then s
      else
        takeTrap s s.rank
          { walker := none, cause := BitVec.ofNat 8 (0x20 + i), addr := 0#64, info := BitVec.ofNat 64 (0x20 + i), kind := .load })

/-- CYCLE_COMPARE_MATCH (15_system.md R435): bit 0 of INTPEND follows the comparison. -/
def execCycleCompareMatch (s : State) : Host.Outcome State Fault Refusal :=
  let p := s.intpend s.rank
  .next (s.modMe fun c => c.modCtl fun k => { k with intpend := setField k.intpend 0 1 (field p 0 1) })

/-- SAFE_POINT_OVERRUN (04_scalar.md R126, 15_system.md R427): after a fault and a kill. -/
def execSafePointOverrun (s : State) : Host.Outcome State Fault Refusal :=
  .next (if s.me.overrunDue && !s.me.follows && s.me.pendTrap.isNone && !s.me.killed then takeTrap s s.rank (trapS 0x09 0#64) else s)

/-! Ownership flips. -/

/-- OWNERSHIP_FLIP_REQUEST (06_ordering.md R205). -/
def execOwnershipFlipRequest (pid : Nat) (va : BitVec 64) (host : Bool) (s : State) : Host.Outcome State Fault Refusal :=
  .next (flipRequest s pid (field va 16 36 * 2 ^ 16) host)

/-- The partition whose flip is under way. -/
def flipping (s : State) : Option Nat := (s.parts.find? fun p => p.flip.isSome).map (·.pid)

/-- OWNERSHIP_FLIP_COMPLETE (06_ordering.md R205, steps 3 to 5). -/
def execOwnershipFlipComplete (s : State) : Host.Outcome State Fault Refusal :=
  .next (match flipping s with | some pid => flipComplete s pid | none => s)

/-- The address at which a hold that began in a cycle has stalled on a page in transit for OWNWAIT.LIMIT cycles (06_ordering.md
R206). -/
def ownLate (s : State) (c : Core) (h : Hold × Nat) : Option Word64 :=
  match h.1 with
  | .ownTransit va => if h.2 + c.ctl.ownwait.toNat ≤ s.cycle then some va else none
  | _ => none

/-- The engine of a core that has stalled on a page in transit for OWNWAIT.LIMIT cycles, and the address of its access
(06_ordering.md R206). -/
def ownStalled (s : State) (c : Core) : Option (Engine × Word64) :=
  if c.pendTrap.isSome then none
  else
    match c.hold.bind (ownLate s c) with
    | some va => some (.s, va)
    | none => c.stalls.findSome? fun x => (ownLate s c x.2).map fun va => (x.1, va)

/-- OWNERSHIP_STALL_TIMEOUT (06_ordering.md R206, 15_system.md R426): the walker that has stalled takes cause 0x0C at its word
with the address of the access; for a command of the D queue that stalls, the D walker takes it (12_copy.md R353). -/
def execOwnershipStallTimeout (s : State) : Host.Outcome State Fault Refusal :=
  .next (match ownStalled s s.me with
    | none => s
    | some (e, va) =>
      takeTrap (s.modMe fun c =>
        { c with stalls := c.stalls.filter fun x => x.1 != e, dfault := if e = .d then stalledCmd s va else c.dfault }) s.rank (mkTrap e 0x0C va))

/-! Arrivals. -/

/-- POSTED_STORE_ARRIVE (06_ordering.md R189). -/
def execPostedStoreArrive (w : PostedStore) (s : State) : Host.Outcome State Fault Refusal :=
  onArrival s s.rank (.postedStoreArrive w) (landPosted s w)

/-! Requests of other packages. -/

/-- A request of another package waits at its owner's interface, or is turned away for the sender to send again (07_sync.md
R221). -/
def awayWait (s : State) (r : Nat) (from_ : BitVec 18 × BitVec 12) (op : WaitOp) (off : Nat) (deadline : Option Nat) : State :=
  if 64 ≤ (s.coreAt r).waitq.countP fun w => w.src != r && w.op != .putw then { s with outbox := s.outbox ++ [.nack off] }
  else
    s.modCore r fun c =>
      { c with waitq := c.waitq ++ [{ src := hubRank, frame := none, op := op, off := off, deadline := deadline, away := some from_ }] }

/-- TAKE, PEEK and TRYTAKE of another package on a full granule: its data, and whether the granule empties (07_sync.md R220). -/
def awayTake (s : State) (r o : Nat) (empties : Bool) : State :=
  if s.poisoned (localKey r o) 16 then s.answer none
  else
    let t := s.answer (some (s.mem.read (localKey r o) 16))
    if empties then emptyGranule t r (o / 64) else t

/-- A presence, mailbox or barrier operation of another package, by its S opcode (07_sync.md R220, R227, R232). -/
def awaySync (s : State) (r : Nat) (from_ : BitVec 18 × BitVec 12) (op : Nat) (x : Word64) (v : Nat) : State :=
  let o := coordOff x
  let i : BitVec 8 := x.extractLsb' 2 8
  let w : BitVec 32 := BitVec.ofNat 32 v
  let gen := (barLoad s.mem (localKey r o)).gen
  let num (n k : Nat) (t : State) : State := t.answer (some (leBytes n k))
  match op with
  | 0x40 => if (s.coreAt r).full (o / 64) then awayTake s r o true else awayWait s r from_ (.take 0#6) o none
  | 0x41 => if (s.coreAt r).full (o / 64) then awayTake s r o false else awayWait s r from_ (.peek 0#6) o none
  | 0x42 => if (s.coreAt r).full (o / 64) then awayTake s r o true else s.answer (some [])
  | 0x45 => markGranule s r (o / 64) false
  | 0x46 => markGranule s r (o / 64) true
  | 0x47 => num 1 ((s.coreAt r).full (o / 64)).toNat s
  | 0x49 =>
    if mailReached ((s.coreAt r).rmail i) w then num 4 ((s.coreAt r).rmail i).toNat s
    else awayWait s r from_ (.mbwait 0#6 w) i.toNat none
  | 0x4A => num 4 ((s.coreAt r).rmail i).toNat s
  | 0x4B => setMail s r i w
  | 0x4C =>
    barStore (s.store (localKey r o) (List.replicate 64 0#8)) r o
      { gen := 0#32, retired := false, wrapped := false, expt := v % 2 ^ 32, arrt := 0, expb := v / 2 ^ 32 % 2 ^ 32, arrb := 0,
        wdrn := 0 : Bar }.complete
  | 0x4D => barUpdate (num 4 gen.toNat s) r o Bar.arrive
  | 0x4E => if gen ≠ w then num 1 0 s else awayWait s r from_ (.barwait w) o none
  | 0x4F => num 4 gen.toNat s
  | 0x50 =>
    if gen ≠ w then num 1 1 s
    else if v / 2 ^ 32 % 2 ^ 32 = 0 then num 1 0 s
    else awayWait s r from_ (.bartwait 0#6 w) o (some (s.cycle + v / 2 ^ 32 % 2 ^ 32))
  | 0x51 => barUpdate (num 4 gen.toNat s) r o fun b => { b with expt := (b.expt + 1) % 2 ^ 32 }
  | _ => s.answer none

/-- The waiting request of a core of another package is withdrawn, with the arrival of its PUTW (07_sync.md R222). -/
def awayAbandon (s : State) (r : Nat) (from_ : BitVec 18 × BitVec 12) : State :=
  (s.modCore r fun c =>
    match c.waitq.reverse.find? fun q => q.away == some from_ with
    | none => c
    | some q => { c with waitq := c.waitq.erase q, held := c.held.filter fun h => !(h.arr.kind == .putw && q.isPutw h.arr) }).answer none

/-- The offset that a request names, for the rejection log (05_memory.md R156). -/
def reqOffset : PkgReq → BitVec 19
  | .load off _ | .store off _ _ _ | .amo off _ _ _ | .withdraw off _ | .red _ _ off _ _ _ | .publish off | .credit off _
  | .codlt off _ | .cdec off _ => off
  | .windowLoad x _ | .windowStore x _ | .sync _ x _ => x.extractLsb' 0 19
  | .tagged a => a.off
  | _ => 0#19

/-- Whether the core that sent a request waits for its answer. -/
def reqAnswered : PkgReq → Bool
  | .load _ _ | .windowLoad _ _ | .amo _ _ _ _ | .red _ _ _ _ _ _ | .publish _ | .abandon => true
  | .sync op _ _ => !([0x45, 0x46, 0x4B, 0x4C].contains op)
  | .tagged a => a.kind == .putw
  | _ => false

/-- The tags of the whole aligned units among n bytes at a key, a byte for each (05_memory.md R152, R175; 12_copy.md R359). -/
def unitTags (s : State) (k n : Nat) : List Byte :=
  let a := (k + 15) / 16
  (List.range ((k + n) / 16 - a)).map fun i => if s.ctag (16 * (a + i)) then 1#8 else 0#8

/-- A request of another package is carried out at its target core. -/
def serveAway (s : State) (q : RemoteAccess) : State :=
  let r := q.core.toNat
  let from_ := (q.srcPkg, q.srcCore)
  let log (t : State) : State := { t with logs := t.logs ++ [LogEvent.rejected q.core (reqOffset q.req)] }
  match q.req with
  | .load off n =>
    let l := localChunks r off.toNat n
    s.answer (if s.chunksPoisoned l then none else some (s.readChunks l ++ unitTags s (localKey r off.toNat) n))
  | .store off bs tags bad =>
    landPosted s { dst := q.core, off := off, bytes := bs, tag := false, bad := bad, tags := tags }
  | .windowLoad x n =>
    s.answer (if field x 49 3 = 1 ∧ s.poisoned (localKey r (field x 0 19)) n = true then none
      else (syncWinRead s x n).map (leBytes n))
  | .windowStore x bs => (syncWinWrite s x bs.length (leNat bs)).getD s
  | .amo off op b e =>
    let k := localKey r off.toNat
    if s.poisoned k 8 then s.answer none
    else
      let old : Word64 := BitVec.ofNat 64 (s.mem.readNat k 8)
      (match amoNew op old b e with | some v => s.storeNat k 8 v.toNat | none => s).answer (some (leBytes 8 old.toNat))
  | .sync op x v => awaySync s r from_ op x v
  | .withdraw off gen => barUpdate s r off.toNat fun o => o.withdraw gen
  | .abandon => awayAbandon s r from_
  | .tagged a =>
    let b : Arrival := { a with dst := q.core, srcPkg := q.srcPkg.setWidth 32, srcCore := q.srcCore.setWidth 16 }
    if b.kind = .putw then
      arrive (s.modCore r fun c =>
        { c with waitq := c.waitq ++ [{ src := hubRank, frame := none, op := .putw, off := b.off.toNat, away := some from_ }] }) b
    else arrive s b
  | .mail i n => incMail s r i n
  | .red id u off op f bs =>
    let l := localChunks r off.toNat bs.length
    if redFresh s l id u && s.chunksPoisoned l then s.answer none
    else
      let x := redApply s l id u op (BitVec.ofNat 5 f) bs
      match x.1 with
      | .applied g => x.2.answer (some (leBytes 1 g.toNat))
      | .refused => { x.2 with outbox := x.2.outbox ++ [.nack u] }
  | .redEnd id => retireApplied s id
  | .publish off =>
    let k := localKey r off.toNat
    let x := s.mem.readNat k 4
    if s.poisoned k 8 ∨ 5 ≤ x / 4 % 8 then s.answer none
    else (s.storeNat k 8 ((if x % 2 = 1 then x - 1 else x + 1) + (s.mem.readNat (k + 4) 4 + 1) % 2 ^ 32 * 2 ^ 32)).answer (some [])
  | .credit off n => barUpdate s r off.toNat fun o => o.credit n
  | .push x =>
    let c := s.coreAt r
    if x.resume then pushResume s r x.entry.toNat
    else if dequeFull c = true ∧ 32 ≤ c.push.length then log s
    else remotePush s r r x
  | .codlt off x => applyCodlt s r off.toNat x
  | .cdec off n => applyCdec s r off.toNat n
  | .amsg m => arriveMsg s { m with dst := q.core }
  | .refusal seq why => recordRefusal s r seq why

/-- REMOTE_ACCESS_ARRIVE (05_memory.md R156, 08_tasks.md R253, R260): a request from another package is carried out when its
target core is bound to the partition that it names, and waits while that rank is in transit; so is every core that it reaches. A rejected one is answered with
an error where its sender waits for an answer, and logged otherwise; an active message meets its own fate. -/
def execRemoteAccessArrive (q : RemoteAccess) (s : State) : Host.Outcome State Fault Refusal :=
  let cores := reqCores q
  .next (match q.req with
    | .amsg m => arriveMsg s { m with dst := q.core, pid := BitVec.ofNat 10 q.pid }
    | _ =>
      if cores.any fun r => decide (4096 ≤ r) || !rankHas (s.rankAt (ifaceOf r) r) q.pid then
        (if reqAnswered q.req then s.answer none else { s with logs := s.logs ++ [LogEvent.rejected q.core (reqOffset q.req)] })
      else if cores.any fun r => rankMoves (s.rankAt (ifaceOf r) r) then
        { s with net := s.net ++ [{ src := hubRank, dst := q.core.toNat, ev := .remoteAccessArrive q, pid := q.pid }] }
      else serveAway s q)

/-- TAGGED_ARRIVAL (07_sync.md R215, R216). -/
def execTaggedArrival (arr : Arrival) (s : State) : Host.Outcome State Fault Refusal :=
  onArrival s arr.srcCore.toNat (.taggedArrival arr) (arrive s arr)

/-- HELD_ARRIVAL_OVERRUN (07_sync.md R216, R217). -/
def execHeldArrivalOverrun (s : State) : Host.Outcome State Fault Refusal := .next (expireHeld s s.rank)

/-- MAILBOX_INCREMENT_ARRIVE (07_sync.md R226). -/
def execMailboxIncrementArrive (idx : BitVec 8) (amount : BitVec 32) (s : State) : Host.Outcome State Fault Refusal :=
  onArrival s s.rank (.mailboxIncrementArrive idx amount) (incMail s s.rank idx amount)

/-! Waits. -/

/-- What a request that has just reached its owner may have at once. -/
def serveReq (s : State) (r : Nat) (q : WaitReq) : State :=
  let fuel := (s.coreAt r).waitq.length
  match q.op with
  | .take _ => serveGranule s r (q.off / 64)
  | .peek _ => serveGranule s r (q.off / 64)
  | .mbwait _ _ => serveMail r (BitVec.ofNat 8 q.off) fuel s
  | .barwait _ => serveBars r fuel s
  | .bartwait _ _ => serveBars r fuel s
  | _ => s

/-- A refused request reaches its owner again (07_sync.md R221): it takes its place, or is refused again. -/
def retryWait (s : State) (dst : Nat) (q : WaitReq) : State :=
  let others := (s.coreAt dst).waitq.countP fun w => w.src != dst && w.op != .putw
  if 64 ≤ others then s.modMe fun c => { c with resend := c.resend ++ [.wait dst q] }
  else serveReq (s.modCore dst fun c => { c with waitq := c.waitq ++ [q] }) dst q

/-- The first refused request of a core whose owner is not in transit. -/
def firstWait (s : State) (c : Core) : Option (Nat × WaitReq) :=
  match c.resend.find? (fun x => match x with | .wait d _ => !s.inTransit d | .push _ _ => false) with
  | some (.wait d q) => some (d, q)
  | _ => none

/-- PRESENCE_WAIT_RESEND (07_sync.md R221). -/
def execPresenceWaitResend (s : State) : Host.Outcome State Fault Refusal :=
  .next (match firstWait s s.me with
    | some (d, q) => retryWait (s.modMe fun c => { c with resend := c.resend.erase (.wait d q) }) d q
    | none => s)

/-- Whether a request is a BARTWAIT of core r whose limit has passed. -/
def lateBar (s : State) (r : Nat) (q : WaitReq) : Bool :=
  q.src == r && (match q.op, q.deadline with | .bartwait _ _, some t => decide (t ≤ s.cycle) | _, _ => false)

/-- The core that keeps a BARTWAIT of core r whose limit has passed, and the request. -/
def lateBarAt (s : State) (r : Nat) : Option (Nat × WaitReq) :=
  s.cores.findSome? fun e => (e.2.waitq.find? (lateBar s r)).map fun q => (e.1, q)

/-- A BARTWAIT whose limit passes at its owner o ends with 0, or with 1 where the generation has moved on by then (07_sync.md
R232). -/
def barLate (s : State) (o : Nat) (q : WaitReq) : State :=
  match q.op with
  | .bartwait d _ => if barMoved s o q then replyBar s q else replyValue s q d GVal.zero
  | _ => s

/-- BARTWAIT_TIMEOUT (07_sync.md R232, 08_tasks.md R265): a BARTWAIT of the core, parked or not, whose limit has passed
returns 0. -/
def execBartwaitTimeout (s : State) : Host.Outcome State Fault Refusal :=
  .next (match lateBarAt s s.rank with
    | some (o, q) => barLate (dropReq s o q) o q
    | none =>
      match s.me.resend.findSome? (fun x => match x with | .wait d q => if lateBar s s.rank q then some (d, q) else none | .push _ _ => none) with
      | some (d, q) => barLate (s.modMe fun c => { c with resend := c.resend.erase (.wait d q) }) d q
      | none => s)

/-- MONWAIT_WAKE (07_sync.md R234, R235): a write to n bytes at a key. -/
def execMonwaitWake (key n : Nat) (s : State) : Host.Outcome State Fault Refusal := .next (s.modMe fun c => c.monHit s.cycle key n)

/-- A core whose MONWAIT has reached its limit returns 0 and disarms its monitor. -/
def Core.monLate (c : Core) (now : Nat) : Core :=
  match c.blocked with
  | some { op := .monwait d, deadline := some t, .. } =>
    if t ≤ now then
      { (c.finish d GVal.zero).modCtl fun k => { k with monctl := setField k.monctl 63 1 0 } with monLine := none }
    else c
  | _ => c

/-- MONWAIT_TIMEOUT (07_sync.md R235). -/
def execMonwaitTimeout (s : State) : Host.Outcome State Fault Refusal := .next (s.modMe fun c => c.monLate s.cycle)

/-! Tasks and steals. -/

/-- Whether a core may start a record: it is free, bound to a resident partition and not asked to stop (08_tasks.md
R244, R249, R267). -/
def mayStart (s : State) (r : Nat) : Bool :=
  let c := s.coreAt r
  c.task.isNone && c.halt.isNone && !c.reserved && !c.swap && !c.slice && c.group == .single && rankHas (s.rankAt (ifaceOf r) r) c.pid && !rankMoves (s.rankAt (ifaceOf r) r)

/-- TASK_START (08_tasks.md R244, R256). -/
def execTaskStart (s : State) : Host.Outcome State Fault Refusal :=
  .next (if mayStart s s.rank then startNext s s.rank else s)

/-- The other cores of a core's partition, in ascending rank. -/
def peers (s : State) (r : Nat) : List Nat :=
  let pid := (s.coreAt r).pid
  let here := (s.ranks.filter fun e => e.1 / 4096 == ifaceOf r && rankHas e.2 pid).map fun e => e.1 % 4096
  sortBy (fun a b => decide (a ≤ b)) (here.filter fun q => q != r)

/-- The probes of one cycle at each level: a level without another core of the partition has none (08_tasks.md
R249). -/
def probeCounts (s : State) (r : Nat) : Nat × Nat × Nat :=
  let c := s.coreAt r
  let n (scope : Scope) (lo : Nat) : Nat := if (peers s r).any (covers scope r) then field c.ctl.stealcfg lo 8 else 0
  (n .clu 0, n .die 8, n .pkg 16)

/-- Whether a core may be the victim of the next probe of core r, and whether that probe is the sweep probe, which goes
to the cores in ascending rank (08_tasks.md R249). -/
def probeFits (s : State) (r victim : Nat) : Bool × Bool :=
  let c := s.coreAt r
  let (a, b, d) := probeCounts s r
  let l := peers s r
  if a + b + d ≤ c.stealPos then (l[c.sweep % max 1 l.length]? == some victim, true)
  else (l.contains victim && covers (if c.stealPos < a then .clu else if c.stealPos < a + b then .die else .pkg) r victim, false)

/-- The prober after a probe has set out: its place in the cycle, its sweep and its LFSR move on. -/
def Core.probed (c : Core) (sweep : Bool) : Core :=
  { c with probing := true, stealPos := if sweep then 0 else c.stealPos + 1, sweep := if sweep then c.sweep + 1 else c.sweep
           lfsr := if sweep then c.lfsr else Config.lfsrNext c.lfsr }

/-- What a probe of a core finds at a victim: nothing at a halted one, at one in transit, and at one of another partition
(08_tasks.md R250, 15_system.md R446). -/
def serveProbe (s : State) (thief victim : Nat) : List Record × State :=
  if (s.coreAt victim).halt.isSome || s.inTransit victim || (s.coreAt victim).pid != (s.coreAt thief).pid then ([], s)
  else stealFrom s victim

/-- The records of a probe reach the thief, which then pops its young end (08_tasks.md R250). -/
def stolen (s : State) (r : Nat) (l : List Record) : State :=
  let s1 := pushAll (s.modCore r fun c => { c with probing := false }) r l
  if mayStart s1 r then startNext s1 r else s1

/-- STEAL_PROBE (08_tasks.md R249): an idle core sends its next probe; a victim that the cycle does not allow is not
probed (log entry 16). -/
def execStealProbe (victim : Nat) (s : State) : Host.Outcome State Fault Refusal :=
  let r := s.rank
  let f := probeFits s r victim
  .next (if s.me.idle && mayStart s r && !s.me.probing && f.1 then
      let s1 := s.modMe fun c => c.probed f.2
      if s1.lazy then s1.sendNet r victim (.stealServe r)
      else
        let p := serveProbe s1 r victim
        stolen p.2 r p.1
    else s)

/-- STEAL_SERVE (08_tasks.md R250): a probe on its way reaches its victim. -/
def execStealServe (thief : Nat) (s : State) : Host.Outcome State Fault Refusal :=
  .next (if (s.coreAt thief).probing then
      let p := serveProbe s thief s.rank
      p.2.sendNet s.rank thief (.stealRecordsArrive p.1)
    else s)

/-- STEAL_RECORDS_ARRIVE (08_tasks.md R250). -/
def execStealRecordsArrive (recs : List Record) (s : State) : Host.Outcome State Fault Refusal :=
  .next (if s.me.probing then stolen s s.rank recs else s)

/-- REMOTE_PUSH_ARRIVE (08_tasks.md R247); a resume record joins the others of its core (R265, R266). -/
def execRemotePushArrive (src : Nat) (r : Record) (s : State) : Host.Outcome State Fault Refusal :=
  onArrival s src (.remotePushArrive src r)
    (if r.resume then pushResume s s.rank r.entry.toNat else remotePush s src s.rank r)

/-- The first refused push of a core whose destination is not in transit. -/
def firstResend (s : State) (c : Core) : Option (Nat × Record) :=
  match c.resend.find? (fun x => match x with | .push d _ => !s.inTransit d | .wait _ _ => false) with
  | some (.push d r) => some (d, r)
  | _ => none

/-- REMOTE_PUSH_RESEND (08_tasks.md R247). -/
def execRemotePushResend (s : State) : Host.Outcome State Fault Refusal :=
  .next (match firstResend s s.me with
    | some (d, r) => remotePush (s.modMe fun c => { c with resend := c.resend.erase (.push d r) }) s.rank d r
    | none => s)

/-- CODLT_APPLY (08_tasks.md R254). -/
def execCodltApply (off : BitVec 19) (r : Record) (s : State) : Host.Outcome State Fault Refusal :=
  onArrival s s.rank (.codltApply off r) (applyCodlt s s.rank off.toNat r)

/-- CDEC_APPLY (08_tasks.md R255). -/
def execCdecApply (off : BitVec 19) (n : BitVec 32) (s : State) : Host.Outcome State Fault Refusal :=
  onArrival s s.rank (.cdecApply off n) (applyCdec s s.rank off.toNat n)

/-- AMSG_ARRIVE (08_tasks.md R260). -/
def execAmsgArrive (m : AMsg) (s : State) : Host.Outcome State Fault Refusal := .next (arriveMsg s m)

/-- AMSG_REFUSAL_ARRIVE (08_tasks.md R261). -/
def execAmsgRefusalArrive (seq : BitVec 32) (why : BitVec 4) (s : State) : Host.Outcome State Fault Refusal :=
  .next (recordRefusal s s.rank seq why)

/-! Parks. -/

/-- A blocked task leaves its core for a park frame, and the core starts its next record (08_tasks.md R263). A composed group
abandons the wait and ends first; the word then runs again on the leader, and parks there (09_compose.md R278; log entry
86). -/
def parkBlocked (s : State) (r info : Nat) : State :=
  if (s.coreAt r).composed then endComposed (abandon s r) r 2
  else
    match parkTask s r info liveAll with
    | some (_, t) => startNext t r
    | none => s

/-- Whether a blocked task has waited for PARKT.LIMIT cycles and may park (08_tasks.md R263, 09_compose.md R282). -/
def parkDue (s : State) (r : Nat) : Bool :=
  let c := s.coreAt r
  match c.blocked with
  | some b =>
    c.ctl.parkt != 0#32 && decide (b.since + c.ctl.parkt.toNat ≤ s.cycle) && c.parks && poolFree s c.pid && c.halt.isNone &&
      !c.swap && c.pendTrap.isNone && (match b.op with | .faultEntry _ _ => false | _ => true)
  | none => false

/-- Whether a blocked task makes way for a pending resume record: a blocking word is a safe point (04_scalar.md R126,
08_tasks.md R266). -/
def resumeDue (s : State) (r : Nat) : Bool :=
  let c := s.coreAt r
  c.blocked.isSome && c.parkPending && c.parks && poolFree s c.pid && c.halt.isNone && !c.swap && c.pendTrap.isNone

/-- Whether a core may leave its task at a V word that waits for a channel: the core stands at a safe point while the
word waits (10_vector.md R302). -/
def vParks (s : State) (r : Nat) : Bool :=
  let c := s.coreAt r
  c.runs && c.vwait.isSome && c.blocked.isNone && c.parks && poolFree s c.pid

/-- Whether a V word has waited for a channel for PARKT.LIMIT cycles (10_vector.md R302). -/
def vParkDue (s : State) (r : Nat) : Bool :=
  let c := s.coreAt r
  vParks s r && c.ctl.parkt != 0#32 && (match c.vwait with | some t => decide (t + c.ctl.parkt.toNat ≤ s.cycle) | none => false)

/-- A task whose V word waits for a channel is parked: the wait is abandoned, and the task's resume record goes to the old
end of its deque, as that of YIELD does (10_vector.md R302; log entry 49). -/
def vPark (s : State) (r : Nat) : State :=
  match parkTask s r 1 liveAll with
  | none => s
  | some (fa, t) => pushOld (startNext t r) r { Record.zero with entry := BitVec.ofNat 64 fa, flags := 0x0005#16 }

/-- PARK_TIMEOUT (08_tasks.md R263, 10_vector.md R302). -/
def execParkTimeout (s : State) : Host.Outcome State Fault Refusal :=
  .next (if parkDue s s.rank then parkBlocked s s.rank 1 else if vParkDue s s.rank then vPark s s.rank else s)

/-! The group watchdog. -/

/-- Whether a group has owed its leader an answer for GRPWD.LIMIT cycles (09_compose.md R285). -/
def Core.watchdogDue (c : Core) : Bool :=
  (match c.group with | .composeLead _ => true | .gangLead _ => true | _ => false) && decide (c.ctl.grpwd.toNat ≤ c.owed)

/-- GROUP_WATCHDOG_EXPIRY (09_compose.md R285). -/
def execGroupWatchdogExpiry (s : State) : Host.Outcome State Fault Refusal :=
  let r := s.rank
  .next (if s.me.watchdogDue && !s.gangMaxx r then enterTrap (endGang (endComposed s r 7) r 7 0 0 0) r (trapS 0x0D 0#64) else s)

/-! Debugging. -/

/-- DBGCTL_HALTREQ (15_system.md R451). -/
def execDbgctlHaltreq (s : State) : Host.Outcome State Fault Refusal := .next (debugHalt s s.rank 1#4)

/-- DBGCTL_RESUME (15_system.md R451). -/
def execDbgctlResume (s : State) : Host.Outcome State Fault Refusal := .next (debugResume s s.rank)

/-- DBGCTL_STEP (15_system.md R451). -/
def execDbgctlStep (s : State) : Host.Outcome State Fault Refusal := .next (debugStep s s.rank)

/-- DEBUG_STEP_DONE (15_system.md R451): the core that STEP resumed halts again with WHY 3. -/
def execDebugStepDone (s : State) : Host.Outcome State Fault Refusal :=
  .next (if s.me.stepping then debugHalt s s.rank 3#4 else s)

/-- DEBUG_VIEW_WRITE (15_system.md R452): eight bytes at an offset of the view. -/
def execDebugViewWrite (off : BitVec 14) (v : BitVec 64) (s : State) : Host.Outcome State Fault Refusal :=
  .next (s.modMe fun c => viewWrite c off.toNat v)

/-- DOORBELL_WRITE (15_system.md R435, R449). -/
def execDoorbellWrite (s : State) : Host.Outcome State Fault Refusal :=
  .next (s.modMe fun c => c.modCtl fun k => { k with intpend := setField k.intpend 2 1 1 })

/-- CORE_RESUME_WRITE (15_system.md R446): a core that HALT stopped goes on. -/
def execCoreResumeWrite (s : State) : Host.Outcome State Fault Refusal :=
  .next (if s.me.halt = some 5#4 then debugResume s s.rank else s)

/-! Windows of region 0xF, for the partition of the core. -/

/-- CTX_SUSPEND (15_system.md R450). -/
def execCtxSuspend (ctx : BitVec 16) (s : State) : Host.Outcome State Fault Refusal := .next (ctxSuspend s s.me.pid ctx)

/-- CTX_RESUME (15_system.md R450). -/
def execCtxResume (ctx : BitVec 16) (s : State) : Host.Outcome State Fault Refusal := .next (ctxResume s s.me.pid ctx)

/-- CTX_BEGIN_TEARDOWN (15_system.md R450). -/
def execCtxBeginTeardown (ctx : BitVec 16) (s : State) : Host.Outcome State Fault Refusal := .next (beginTeardown s s.me.pid ctx)

/-- TOOL_RING_WRITE (14_futures.md R408). -/
def execToolRingWrite (ring : BitVec 6) (v : BitVec 64) (s : State) : Host.Outcome State Fault Refusal :=
  .next (toolRingWrite s s.me.pid ring.toNat v.toNat)

/-- FQRING_WRITE (15_system.md R438, R449). -/
def execFqringWrite (v : BitVec 64) (s : State) : Host.Outcome State Fault Refusal := .next (fqringWrite s s.me.pid v.toNat)

/-- PPRING_WRITE (08_tasks.md R264). -/
def execPpringWrite (v : BitVec 64) (s : State) : Host.Outcome State Fault Refusal := .next (ppringWrite s s.me.pid v.toNat)

/-- PPPUT_WRITE (08_tasks.md R264). -/
def execPpputWrite (v : BitVec 64) (s : State) : Host.Outcome State Fault Refusal := .next (ppputWrite s s.me.pid v.toNat)

/-- PPTAKE_READ (08_tasks.md R264): the frame's address is returned to a register. -/
def execPptakeRead (d : GIdx) (s : State) : Host.Outcome State Fault Refusal :=
  let p := pptakeRead s s.me.pid
  .next (p.2.modMe fun c => c.wg d (GVal.ofNat p.1))

/-- HOST_QUEUE_POST (19_integration.md R485). -/
def execHostQueuePost (v : BitVec 64) (s : State) : Host.Outcome State Fault Refusal := .next (hostPost s s.rank v)

/-- SQCFG_WRITE (19_integration.md R495). -/
def execSqcfgWrite (v : BitVec 64) (s : State) : Host.Outcome State Fault Refusal := .next (sqcfgWrite s s.me.pid v.toNat)

/-- SQ_TAIL_WRITE (19_integration.md R495). -/
def execSqTailWrite (v : BitVec 64) (s : State) : Host.Outcome State Fault Refusal := .next (sqTailWrite s s.me.pid v.toNat)

/-! Control registers. -/

/-- A write of a control register (04_scalar.md R128, R129): it waits where an engine must still read the register. -/
def writeReg (s : State) (i v : Nat) : State :=
  if ctlNamed i && ctlReady s.me i then ctlWrite s s.rank i v else s

/-- SLIPW_WRITE (04_scalar.md R118). -/
def execSlipwWrite (v : BitVec 64) (s : State) : Host.Outcome State Fault Refusal := .next (writeReg s 0x010 v.toNat)

/-- CWWIN_WRITE (05_memory.md R159). -/
def execCwwinWrite (v : BitVec 64) (s : State) : Host.Outcome State Fault Refusal := .next (writeReg s 0x022 v.toNat)

/-- SCGRP_WRITE (10_vector.md R321). -/
def execScgrpWrite (v : BitVec 64) (s : State) : Host.Outcome State Fault Refusal := .next (writeReg s 0x043 v.toNat)

/-- MXCFG_WRITE (11_matrix.md R331). -/
def execMxcfgWrite (v : BitVec 64) (s : State) : Host.Outcome State Fault Refusal := .next (writeReg s 0x078 v.toNat)

/-- KVDIR_WRITE (13_kv.md R378). -/
def execKvdirWrite (v : BitVec 64) (s : State) : Host.Outcome State Fault Refusal := .next (writeReg s 0x090 v.toNat)

/-- INTPEND_CLEAR (15_system.md R435). -/
def execIntpendClear (v : BitVec 64) (s : State) : Host.Outcome State Fault Refusal := .next (writeReg s 0x0B4 v.toNat)

/-- REGISTER_WRITE (04_scalar.md R128). -/
def execRegisterWrite (idx : BitVec 11) (v : BitVec 128) (s : State) : Host.Outcome State Fault Refusal :=
  .next (writeReg s idx.toNat v.toNat)

end Sys2Proof.Machine
end

