-- ==== Sys2Proof/Machine/Crypto.lean ====
section
/-! DEFINITION. SHA-256 and the verification of RSASSA-PKCS1-v1_5 with RSA-3072, which the spec takes by name from their own
standards (08_tasks.md R237, R238; 19_integration.md R491, R492; PRESUMED, log entry 8). -/

namespace Sys2Proof.Machine

/-- A word of SHA-256. -/
abbrev ShaWord := BitVec 32

/-- The round constants of SHA-256. -/
def shaK : List ShaWord :=
  [0x428a2f98#32, 0x71374491#32, 0xb5c0fbcf#32, 0xe9b5dba5#32, 0x3956c25b#32, 0x59f111f1#32, 0x923f82a4#32, 0xab1c5ed5#32,
   0xd807aa98#32, 0x12835b01#32, 0x243185be#32, 0x550c7dc3#32, 0x72be5d74#32, 0x80deb1fe#32, 0x9bdc06a7#32, 0xc19bf174#32] ++
  [0xe49b69c1#32, 0xefbe4786#32, 0x0fc19dc6#32, 0x240ca1cc#32, 0x2de92c6f#32, 0x4a7484aa#32, 0x5cb0a9dc#32, 0x76f988da#32,
   0x983e5152#32, 0xa831c66d#32, 0xb00327c8#32, 0xbf597fc7#32, 0xc6e00bf3#32, 0xd5a79147#32, 0x06ca6351#32, 0x14292967#32] ++
  [0x27b70a85#32, 0x2e1b2138#32, 0x4d2c6dfc#32, 0x53380d13#32, 0x650a7354#32, 0x766a0abb#32, 0x81c2c92e#32, 0x92722c85#32,
   0xa2bfe8a1#32, 0xa81a664b#32, 0xc24b8b70#32, 0xc76c51a3#32, 0xd192e819#32, 0xd6990624#32, 0xf40e3585#32, 0x106aa070#32] ++
  [0x19a4c116#32, 0x1e376c08#32, 0x2748774c#32, 0x34b0bcb5#32, 0x391c0cb3#32, 0x4ed8aa4a#32, 0x5b9cca4f#32, 0x682e6ff3#32,
   0x748f82ee#32, 0x78a5636f#32, 0x84c87814#32, 0x8cc70208#32, 0x90befffa#32, 0xa4506ceb#32, 0xbef9a3f7#32, 0xc67178f2#32]

/-- The chaining value of SHA-256: eight words. -/
structure ShaState where
  a : ShaWord
  b : ShaWord
  c : ShaWord
  d : ShaWord
  e : ShaWord
  f : ShaWord
  g : ShaWord
  h : ShaWord
  deriving DecidableEq, Repr

/-- The initial chaining value. -/
def ShaState.init : ShaState :=
  { a := 0x6a09e667#32, b := 0xbb67ae85#32, c := 0x3c6ef372#32, d := 0xa54ff53a#32, e := 0x510e527f#32, f := 0x9b05688c#32,
    g := 0x1f83d9ab#32, h := 0x5be0cd19#32 }

/-- The sum of two chaining values, word by word. -/
def ShaState.plus (x y : ShaState) : ShaState :=
  { a := x.a + y.a, b := x.b + y.b, c := x.c + y.c, d := x.d + y.d, e := x.e + y.e, f := x.f + y.f, g := x.g + y.g, h := x.h + y.h }

/-- One round. -/
def ShaState.round (x : ShaState) (kw : ShaWord) : ShaState :=
  let s1 := x.e.rotateRight 6 ^^^ x.e.rotateRight 11 ^^^ x.e.rotateRight 25
  let ch := (x.e &&& x.f) ^^^ (~~~x.e &&& x.g)
  let t1 := x.h + s1 + ch + kw
  let s0 := x.a.rotateRight 2 ^^^ x.a.rotateRight 13 ^^^ x.a.rotateRight 22
  let maj := (x.a &&& x.b) ^^^ (x.a &&& x.c) ^^^ (x.b &&& x.c)
  { a := t1 + (s0 + maj), b := x.a, c := x.b, d := x.c, e := x.d + t1, f := x.e, g := x.f, h := x.g }

/-- The message schedule, its youngest word first, n words longer. -/
def shaExtend : Nat → List ShaWord → List ShaWord
  | 0, l => l
  | n + 1, l =>
    let w (i : Nat) : ShaWord := l.getD (i - 1) 0#32
    let s0 := (w 15).rotateRight 7 ^^^ (w 15).rotateRight 18 ^^^ (w 15 >>> 3)
    let s1 := (w 2).rotateRight 17 ^^^ (w 2).rotateRight 19 ^^^ (w 2 >>> 10)
    shaExtend n ((w 16 + s0 + w 7 + s1) :: l)

/-- A number from bytes, the first most significant. -/
def beNat (l : List Byte) : Nat := l.foldl (fun n b => n * 256 + b.toNat) 0

/-- n bytes of a number, the first most significant. -/
def beBytes (n v : Nat) : List Byte := (leBytes n v).reverse

/-- The words of 64 bytes, the youngest first. -/
def shaWords : Nat → List Byte → List ShaWord → List ShaWord
  | 0, _, acc => acc
  | n + 1, l, acc => shaWords n (l.drop 4) (BitVec.ofNat 32 (beNat (l.take 4)) :: acc)

/-- The chaining value after a block of 64 bytes. -/
def ShaState.block (x : ShaState) (l : List Byte) : ShaState :=
  let ws := (shaExtend 48 (shaWords 16 l [])).reverse
  x.plus ((shaK.zip ws).foldl (fun s p => s.round (p.1 + p.2)) x)

/-- The chaining value after n blocks. -/
def ShaState.blocks : Nat → ShaState → List Byte → ShaState
  | 0, x, _ => x
  | n + 1, x, l => ShaState.blocks n (x.block (l.take 64)) (l.drop 64)

/-- SHA-256 of a byte string, its first byte most significant. -/
def sha256 (l : List Byte) : BitVec 256 :=
  let n := l.length
  let m := l ++ 0x80#8 :: List.replicate ((119 - n % 64) % 64) 0#8 ++ beBytes 8 (8 * n)
  let x := ShaState.init.blocks (m.length / 64) m
  x.a ++ x.b ++ x.c ++ x.d ++ x.e ++ x.f ++ x.g ++ x.h

/-- b ^ e mod n, by the bits of e. -/
def powMod (n : Nat) : Nat → Nat → Nat → Nat
  | 0, _, _ => 1 % n
  | k + 1, b, e =>
    let r := powMod n k (b * b % n) (e / 2)
    if e % 2 = 1 then b * r % n else r

/-- The encoded message of RSASSA-PKCS1-v1_5 with SHA-256 in 384 bytes. -/
def pkcs1 (digest : BitVec 256) : Nat :=
  2 ^ (8 * 382) + (2 ^ (8 * 330) - 1) * 2 ^ (8 * 52) + 0x3031300d060960864801650304020105000420 * 2 ^ 256 + digest.toNat

/-- Whether a signature, as 384 bytes with the first most significant, is that of a digest under a key. -/
def rsaVerify (key : RsaKey) (digest : BitVec 256) (sig : List Byte) : Bool :=
  let x := beNat sig
  sig.length == 384 && decide (x < key.n.toNat) && powMod key.n.toNat 64 x key.e.toNat == pkcs1 digest

/-- The SHA-256 hash of a key, by which the configuration record names it (19_integration.md R491): over its modulus and its
exponent, each with the most significant byte first (DESIGN CHOICE, log entry 8). -/
def keyHash (key : RsaKey) : BitVec 256 := sha256 (beBytes 384 key.n.toNat ++ beBytes 8 key.e.toNat)

end Sys2Proof.Machine
end

