-- ==== Sys2Proof/Machine/Host.lean ====
section
/-! DEFINITION. The steps of the hub, the host and the module: the loader and the binding of partitions, slices and
swaps, rank tables, storage, attestation, the host's registers, blazes, bring-up, power and clocks, links, packets
from other packages and hosts, and time (01_machine.md, 08_tasks.md R237 to R241, R267, R268, R501; 15_system.md R453 to
R455; 19_integration.md). -/

namespace Sys2Proof.Machine

/-! The cores of a partition. -/

/-- The 16 cores of a cluster, numbered die × 64 + cluster (01_machine.md R18, 08_tasks.md R237). -/
def clusterCores (k : Nat) : List Nat :=
  (List.range 16).map fun p => k / 64 * 1024 + k % 64 / 8 * 128 + p / 4 * 32 + k % 8 * 4 + p % 4

/-- The cores of a list of clusters in ascending rank. -/
def coresOf (clusters : List Nat) : List Nat :=
  sortBy (fun a b => decide (a ≤ b)) (clusters.map clusterCores).flatten

/-- The bits of a rank-table entry that are written (05_memory.md R154). -/
abbrev rankMask : BitVec 32 := 0xC3FF_FF1F#32

/-- RANK_TABLE_WRITE (05_memory.md R154): the entry of a rank at the interface of one of the four compute dies or of the
hub. -/
def execRankTableWrite (iface : BitVec 3) (rank : BitVec 12) (v : BitVec 32) (s : State) : Host.Outcome State Fault Refusal :=
  .next (if iface.toNat ≤ hubIface then { s with ranks := Table.set s.ranks (iface.toNat * 4096 + rank.toNat) (v &&& rankMask) }
    else s)

/-- A rank's entries at the five interfaces change. -/
def eachRank (s : State) (r : Nat) (f : BitVec 32 → BitVec 32) : State :=
  { s with ranks := (List.range 5).foldl (fun t i => Table.set t (i * 4096 + r) (f (s.rankAt i r))) s.ranks }

/-- A rank's entries name a partition; its place stays (05_memory.md R154). -/
def setRank (s : State) (r pid : Nat) (valid transit : Bool) : State :=
  eachRank s r fun e => setField (setField (setField e 31 1 valid.toNat) 30 1 transit.toNat) 16 10 pid

/-- The entries of a list of ranks. -/
def setRanks (s : State) (pid : Nat) (valid transit : Bool) : List Nat → State
  | [] => s
  | r :: t => setRanks (setRank s r pid valid transit) pid valid transit t

/-! Slices and swaps (08_tasks.md R267, R268; 15_system.md R445). -/

/-- Whether a core stands at a safe point because a word waits: a blocked S word, a V word that waits for a channel, or a
walker that waits for a rank in transit (04_scalar.md R126, 05_memory.md R155, 10_vector.md R302). -/
def Core.waits (c : Core) : Bool :=
  c.blocked.isSome || c.vwait.isSome ||
    (match c.hold with
     | some (.rankTransit, _) => true
     | some (.engines, _) => c.stalls.any fun x => x.2.1 == .rankTransit
     | _ => false)

/-- A core that stands at a safe point stops there: what its task hands over at a switch is handed over (10_vector.md R298,
11_matrix.md R340). -/
def Core.stopHere (c : Core) : Core := { c.handOver with slice := false, swap := true, vwait := none, stalls := [], hold := none }

/-- The slice instant at one core (08_tasks.md R267): a core that stands at a safe point stops; a running task stops at
its next one; a group with a blocked member ends there (09_compose.md R278, R282). -/
def sliceCore (s : State) (r : Nat) : State :=
  let c := s.coreAt r
  let mark (t : State) : State := t.modCore r fun c => { c with slice := true }
  let stop (t : State) : State := t.modCore r Core.stopHere
  match c.group with
  | .single => if c.task.isNone || c.waits || c.halt.isSome then stop s else mark s
  | .composeLead _ => if c.waits then stop (endComposed (abandon s r) r 2) else mark s
  | .gangLead _ => if c.waits && !s.gangMaxx r then mark (gangSwitch s r) else mark s
  | .member lead true => if c.waits && !s.gangMaxx r then mark (gangSwitch s lead) else mark s
  | .member _ false => mark s

/-- The slice instant at every core of a list. -/
def sliceAll (s : State) : List Nat → State
  | [] => s
  | r :: t => sliceAll (sliceCore s r) t

/-- GANG_SLICE_INSTANT (08_tasks.md R267). -/
def execGangSliceInstant (pid : Nat) (s : State) : Host.Outcome State Fault Refusal :=
  .next (match s.part? pid with
    | some p => if p.resident then sliceAll s (coresOf p.clusters) else s
    | none => s)

/-- Whether a core has halted for a swap: it stopped at a safe point, or stands at one (08_tasks.md R267). -/
def Core.stopped (c : Core) : Bool :=
  c.swap || (c.slice && c.group == .single && (c.task.isNone || c.waits || c.halt.isSome))

/-- The L1 cache of a core loses its copy of the line that a monitor watches; local memory is not cached (07_sync.md R234). -/
def Core.lineLost (c : Core) (now : Nat) : Core :=
  match c.monLine with
  | some (k, n) => if (keyCore k).isSome then c else c.monHit now k n
  | none => c

/-- A core's saved state (15_system.md R444): held arrivals with the cycles left on their limits (07_sync.md R218). Its caches
keep nothing for it. -/
def saveCore (s : State) (r : Nat) : CoreImage :=
  let c := (s.coreAt r).lineLost s.cycle
  let lo := localKey r 0
  { rank := r, mem := s.mem.slice lo localSize
    core := { c with
      held := c.held.map fun h => { h with until_ := h.until_ - s.cycle }, icache := [], tlb := [], swap := true, slice := false }
    ctags := (s.ctags.filter fun u => decide (lo / 16 ≤ u) && decide (u < lo / 16 + localSize / 16)).map fun u => u - lo / 16
    poison := (s.poison.filter fun k => decide (lo ≤ k) && decide (k < lo + localSize)).map fun k => k - lo }

/-- Every accessed byte of a list of cores is performed before they are saved. -/
def drainAll (s : State) : List Nat → State
  | [] => s
  | r :: t => drainAll (drainS s r) t

/-- The bytes of a core's local memory are cleared, with their tags and marks. -/
def clearLocal (s : State) (r : Nat) : State := s.storeSparse (localKey r 0) localSize []

/-- A saved core is loaded again (08_tasks.md R268). -/
def loadCore (s : State) (m : CoreImage) : State :=
  let lo := localKey m.rank 0
  let s1 := (s.storeSparse lo localSize m.mem).tagUnits (m.ctags.map fun u => (lo + 16 * u, true))
  (s1.markPoison (m.poison.map (lo + ·))).setCore m.rank { m.core with
    held := m.core.held.map fun h => { h with until_ := h.until_ + s.cycle }, swap := false }

/-- Saved cores are loaded. -/
def loadCores (s : State) : List CoreImage → State
  | [] => s
  | m :: t => loadCores (loadCore s m) t

/-- A resident partition whose cores have all halted is saved (08_tasks.md R268). -/
def swapOut (s : State) (pid : Nat) : State :=
  match s.part? pid with
  | none => s
  | some p =>
    let l := coresOf p.clusters
    if p.resident && l.all fun r => (s.coreAt r).stopped then
      let s1 := drainAll s l
      let s2 := s1.modPart pid fun p =>
        { p with resident := false, saved := l.map (saveCore s1), maxx := s1.maxx.filter fun x => l.contains x.core
                 maxxBad := s1.maxxBad.filter fun x => l.contains x.core
                 applied := s1.applied.filter fun x => l.contains x.2.id.core.toNat }
      setRanks { s2 with
        cores := s2.cores.filter (fun e => !l.contains e.1), maxx := s2.maxx.filter fun x => !l.contains x.core
        maxxBad := s2.maxxBad.filter fun x => !l.contains x.core
        applied := s2.applied.filter fun x => !l.contains x.2.id.core.toNat } pid true true l
    else s

/-- A partition that is swapped out is loaded onto its clusters where no other is resident, and the hub delivers its
overflow queues (08_tasks.md R268). Its pending bit, which tells firmware of messages that wait, is cleared then: 08_tasks.md R260
does not say when (DESIGN CHOICE, log entry 109). -/
def swapIn (s : State) (pid : Nat) : State :=
  match s.part? pid with
  | none => s
  | some p =>
    let taken : Bool := s.parts.any fun q => q.resident && q.clusters.any p.clusters.contains
    if p.resident || taken then s
    else
      let s1 := setRanks (loadCores s p.saved) pid true false (coresOf p.clusters)
      let s2 := s1.modPart pid fun p =>
        { p with resident := true, saved := [], maxx := [], maxxBad := [], applied := [], pending := false }
      deliverPart
        { s2 with maxx := s2.maxx ++ p.maxx, maxxBad := s2.maxxBad ++ p.maxxBad, applied := s2.applied ++ p.applied } pid

/-- PARTITION_SWAP (08_tasks.md R268). -/
def execPartitionSwap (out inn : Nat) (s : State) : Host.Outcome State Fault Refusal := .next (swapIn (swapOut s out) inn)

/-! The loader (08_tasks.md R237 to R241, R501). -/

/-- A segment entry of a schedule image (08_tasks.md R237). -/
structure Segment where
  kind : Nat
  gap  : Nat
  src  : Nat
  size : Nat
  dst  : Nat
  deriving DecidableEq, Repr

/-- A schedule image's header (08_tasks.md R237). -/
structure Image where
  magic    : Nat
  version  : Nat
  length   : Nat
  clusters : List Nat
  ctxFirst : Nat
  ctxCount : Nat
  futQuota : Nat
  shadow   : Nat
  ptBase   : Nat
  ranges   : List (MemRange × Nat)
  segs     : List Segment
  deriving DecidableEq, Repr

/-- The launch header with its defaults (08_tasks.md R240). -/
structure Launch where
  entry    : Nat
  widBase  : Nat
  widStep  : Nat
  wids     : Nat
  sptAddr  : Nat
  sptLen   : Nat
  rootCtx  : Nat
  flags    : Nat
  dqWord   : Nat
  dqLog    : Nat
  dqOff    : Nat
  msgOff   : Nat
  msgLog   : Nat
  spare    : Nat
  deriving DecidableEq, Repr

/-- The set bits of a number below 256, in ascending order. -/
def bitsSet (n : Nat) : List Nat := (List.range 256).filter fun i => n.testBit i

/-- The header of an image in hub memory. -/
def imageOf (m : Mem) : Image :=
  let n (o w : Nat) : Nat := m.readNat o w
  { magic := n 0 4, version := n 4 4, length := n 8 8, clusters := bitsSet (n 16 32), ctxFirst := n 48 2, ctxCount := n 50 2
    futQuota := n 52 4, shadow := n 56 4, ptBase := n 60 4
    ranges := (List.range 16).map fun i =>
      let x : BitVec 128 := BitVec.ofNat 128 (n (64 + 16 * i) 16)
      ({ base := field x 0 48, len := field x 48 48, perm := x.extractLsb' 96 12 }, field x 108 20)
    segs := (List.range 4).map fun i =>
      let o := 384 + 32 * i
      { kind := n o 4, gap := n (o + 4) 4, src := n (o + 8) 8, size := n (o + 16) 8, dst := n (o + 24) 8 } }

/-- A zero field takes its default. -/
def orElse (n d : Nat) : Nat := if n = 0 then d else n

/-- The launch header of an image. -/
def launchOf (m : Mem) : Launch :=
  let n (o w : Nat) : Nat := m.readNat (320 + o) w
  { entry := n 0 8, widBase := n 8 8, widStep := orElse (n 16 8) 1, wids := n 24 8, sptAddr := n 32 8, sptLen := n 40 4
    rootCtx := n 44 2, flags := n 46 2, dqWord := n 48 4, dqLog := orElse (n 48 1 % 32) 8, dqOff := orElse (n 52 4) 0x78000
    msgOff := orElse (n 56 4) 0x7C000, msgLog := orElse (n 60 2) 8, spare := n 62 2 }

/-- The ranges of an image in use. -/
def Image.mem (g : Image) : List MemRange := (g.ranges.map (·.1)).filter fun m => m.len != 0

/-- Whether n bytes at a physical address lie in one of the image's memory ranges. -/
def Image.holds (g : Image) (a n : Nat) : Bool := g.mem.any fun m => decide (m.base ≤ a) && decide (a + n ≤ m.base + m.len)

/-- The segments of a kind. -/
def Image.kind (g : Image) (k : Nat) : List Segment := g.segs.filter fun x => x.kind == k

/-- Check 1 of R238: the entry's length is the image's (08_tasks.md R237, 19_integration.md R484). -/
def checkForm (g : Image) (l : Launch) (len : Nat) : Bool :=
  g.magic == 0x58434953 && g.version == 1 && g.length == len && g.length % 64 == 0 && decide (896 ≤ g.length) &&
    g.ranges.all (fun r => r.2 == 0) && g.segs.all (fun x => x.gap == 0) && l.spare == 0

/-- Check 3 (01_machine.md R31). -/
def checkClusters (s : State) (g : Image) : Bool :=
  !g.clusters.isEmpty && !(s.parts.any fun p => p.resident && p.clusters.any g.clusters.contains) &&
    decide (s.parts.countP (·.resident) < 256) && decide (s.parts.length < 1024)

/-- Check 4. -/
def checkCtx (s : State) (g : Image) (l : Launch) : Bool :=
  let inside (c : Nat) : Bool := decide (g.ctxFirst ≤ c) && decide (c < g.ctxFirst + g.ctxCount)
  (g.ctxCount == 0 || (decide (1 ≤ g.ctxFirst) && decide (g.ctxFirst + g.ctxCount ≤ 65536))) &&
    !(s.parts.any fun p => overlaps p.ctxFirst p.ctxCount g.ctxFirst g.ctxCount && decide (0 < p.ctxCount) && decide (0 < g.ctxCount)) &&
    (l.rootCtx == 0 || inside l.rootCtx)

/-- Check 5: the free entries are those that no bound partition has claimed. -/
def checkFut (s : State) (g : Image) : Bool :=
  decide (g.futQuota + (s.parts.map (·.futQuota)).sum ≤ 16384)

/-- Whether a list of clusters has one on a die. -/
def onDie (l : List Nat) (d : Nat) : Bool := l.any fun k => k / 64 == d

/-- The shadow storage that bound partitions claim on a die, in 64 KiB units. -/
def shadowUsed (s : State) (d : Nat) : Nat := ((s.parts.filter fun p => onDie p.clusters d).map (·.shadow)).sum

/-- The 64 KiB units that the reserved ways of a die hold: 256 slices of 64 KiB per way (01_machine.md R23). -/
def shadowRoom (s : State) (d : Nat) : Nat := (s.shadow[d]?).getD 0 * 256

/-- Check 6. -/
def checkShadow (s : State) (g : Image) : Bool :=
  (List.range 4).all fun d => !onDie g.clusters d || decide (g.shadow + shadowUsed s d ≤ shadowRoom s d)

/-- A segment's bytes in the image, as sparse bytes from 0. -/
def Segment.bytes (x : Segment) (m : Mem) : Mem := m.slice x.src x.size

/-- The kind-5 segments are copied to their physical places (08_tasks.md R501). -/
def copyPhysical (m : Mem) (s : State) (l : List Segment) : State :=
  l.foldl (fun t x => t.storeSparse x.dst x.size (x.bytes m)) s

/-- The root of an image's tables. -/
def Image.root (g : Image) (pid : Nat) : BitVec 64 := BitVec.ofNat 64 (pid * 2 ^ 48 + g.ptBase * 2 ^ 16)

/-- The chunks of a virtual segment, where every page takes the store and lies in a memory range (08_tasks.md R501). -/
def segChunks (s : State) (g : Image) (root : BitVec 64) (x : Segment) : Option (List Chunk × State) :=
  match hubChunks s root x.dst x.size .store with
  | (some l, t) => if l.all fun c => g.holds c.key c.len then some (l, t) else none
  | (none, _) => none

/-- The virtual segments are copied in their order; none where a destination is refused. -/
def copyVirtual (m : Mem) (g : Image) (root : BitVec 64) : List Segment → State → Option State
  | [], s => some s
  | x :: t, s =>
    match segChunks s g root x with
    | none => none
    | some (l, u) => copyVirtual m g root t (storeOver u (x.bytes m) 0 l)

/-- The virtual segments of an image: text, data and context table. -/
def Image.virtual (g : Image) : List Segment := g.kind 1 ++ g.kind 2 ++ g.kind 4

/-- Check 7: memory ranges, PTBASE and the destinations of segments. -/
def checkMemory (s : State) (m : Mem) (g : Image) : Bool :=
  (g.mem.all fun r => s.mapped r.base r.len) &&
    !(s.parts.any fun p => p.ranges.any fun a => g.mem.any fun b => overlaps a.base a.len b.base b.len) &&
    g.holds (g.ptBase * 65536) 1 && ((g.kind 5).all fun x => g.holds x.dst x.size) &&
    (copyVirtual m g (g.root 0) g.virtual (copyPhysical m s (g.kind 5))).isSome

/-- The limits of a launch header (08_tasks.md R240, 04_scalar.md R135). -/
def launchOk (l : Launch) : Bool :=
  let w := (List.range 6).map fun i => l.wids / 2 ^ (7 * i) % 128
  decide (l.wids < 2 ^ 42) && (w.all fun x => decide (x ≤ 64)) && decide (w.sum ≤ 64) && l.sptAddr % 16 == 0 &&
    decide (l.sptAddr < 2 ^ 56) && decide (l.sptLen < 2 ^ 17) && decide (l.flags < 4) && decide (l.dqWord < 32) &&
    decide (5 ≤ l.dqLog) && decide (l.dqLog ≤ 12) && l.dqOff % 64 == 0 && l.msgOff % 64 == 0 &&
    decide (4 ≤ l.msgLog) && decide (l.msgLog ≤ 8) && decide (l.dqOff + 64 * 2 ^ l.dqLog ≤ localSize) &&
    decide (l.msgOff + 64 * 2 ^ l.msgLog ≤ localSize) && !overlaps l.dqOff (64 * 2 ^ l.dqLog) l.msgOff (64 * 2 ^ l.msgLog)

/-- The rules of R501 on segments. -/
def segsOk (g : Image) : Bool :=
  (g.segs.all fun x => x.kind == 0 || (decide (x.kind ≤ 5) && decide (512 ≤ x.src) && decide (x.src + x.size ≤ g.length - 384))) &&
    (g.kind 1).length == 1 && decide ((g.kind 2).length ≤ 1) && decide ((g.kind 3).length ≤ 1) &&
    decide ((g.kind 4).length ≤ 1) && ((g.kind 3).all fun x => decide (x.dst + x.size ≤ localSize)) &&
    ((g.kind 4).all fun x => x.dst % 128 == 0 && decide (128 * g.ctxFirst ≤ x.dst) && x.size == 128 * g.ctxCount)

/-- The code of the first check that fails, or 0 (08_tasks.md R238). -/
def loadCode (s : State) (m : Mem) (len : Nat) (verified : Bool) : Nat :=
  let g := imageOf m
  let l := launchOf m
  if checkForm g l len = false then 1
  else if verified = false then 2
  else if checkClusters s g = false then 3
  else if checkCtx s g l = false then 4
  else if checkFut s g = false then 5
  else if checkShadow s g = false then 6
  else if checkMemory s m g = false then 7
  else if (launchOk l && segsOk g) = false then 8
  else 0

/-- The next free partition identifier: the lowest free one from 1, then 0. -/
def nextPid (s : State) : Nat :=
  ((List.range 1024).find? fun i => (s.part? ((i + 1) % 1024)).isNone).map (fun i => (i + 1) % 1024) |>.getD 0

/-- A core as the loader leaves it (08_tasks.md R239): its registers as after reset but for those that the image gives,
and its LFSR seeded with its rank (R249). -/
def boundCore (pkg : BitVec 18) (root ctxbase : BitVec 64) (l : Launch) (r : Nat) : Core :=
  { Core.reset.modCtl fun k =>
      { k with
        pkg := pkg, ptroot := root, widw := BitVec.ofNat 64 l.wids, sptbase := BitVec.ofNat 64 l.sptAddr
        sptlen := BitVec.ofNat 32 l.sptLen, ctxbase := ctxbase
        dqcfg := BitVec.ofNat 32 (l.dqLog * 2 ^ 19 + l.dqOff), msgcfg := BitVec.ofNat 32 ((l.msgLog - 4) * 2 ^ 24 + l.msgOff)
        memcfg := BitVec.ofNat 32 (l.flags % 2 * 2) } with
    lfsr := BitVec.ofNat 32 r }

/-- The record of the root task of core i of a partition (08_tasks.md R241), which starts at partition level
(15_system.md R425, log entry 17). -/
def rootTask (l : Launch) (text : Nat) (data : GVal) (i : Nat) : Record :=
  let own := 0xD * 2 ^ 52
  { Record.zero with
    argA := data, argB := (mintCap own localSize own 0x35B#12).getD GVal.zero, entry := BitVec.ofNat 64 (text + l.entry)
    wid := BitVec.ofNat 64 (l.widBase + i * l.widStep), ctx := BitVec.ofNat 16 l.rootCtx, root := true }

/-- The root tasks are pushed: one per core with ROOTALL, else on core 0 alone (08_tasks.md R241). -/
def pushRoots (l : Launch) (text : Nat) (data : GVal) (s : State) (cores : List Nat) : State :=
  (cores.zipIdx.filter fun x => l.flags / 2 == 1 || x.2 == 0).foldl (fun t x => pushYoung t x.1 (rootTask l text data x.2)) s

/-- A partition without queues, frames or storage. -/
def newPart (g : Image) (pid : Nat) (ctxbase : BitVec 64) (code : GVal) (digest : BitVec 256) : Part :=
  { pid := pid, clusters := g.clusters, ctxFirst := g.ctxFirst, ctxCount := g.ctxCount, futQuota := g.futQuota
    shadow := g.shadow, ranges := g.mem, ptroot := g.root pid, ctxbase := ctxbase, code := code, digest := digest
    resident := true, saved := [], maxx := [], maxxBad := []
    fq := { ring := none, mb := 0#64, posted := 0#32, done := 0#32, lost := 0#64, nextSeq := 1#32, entries := [] }
    pool := { ring := none, head := 0, free := 0, inUse := 0, refused := 0#16 }
    sq := { cfg := 0#64, tail := 0#16, head := 0#16, ignored := 0#16, reqs := [] }
    hostSeq := 0#32, pending := false, flip := none, flipStat := 0#8, kvRead := false, killed := [], overflow := [] }

/-- An accepted image is bound (08_tasks.md R239, R241, R501). A capability over a segment whose bounds no exponent represents has
the smallest bounds that contain them, as CAP.BND rounds (DESIGN CHOICE, log entry 89). An image without a context table (kind 4)
leaves CTXBASE zero, and one without a data segment gives its root tasks an untagged zero as ARGA, which 08_tasks.md R239 and R241 do
not state (DESIGN CHOICE, log entry 110). -/
def bindImage (s : State) (m : Mem) (pid : Nat) : State :=
  let g := imageOf m
  let l := launchOf m
  let root := g.root pid
  let ctxbase : BitVec 64 := BitVec.ofNat 64 ((((g.kind 4).head?).map fun x => x.dst - 128 * g.ctxFirst).getD 0)
  let text := ((g.kind 1).head?).getD { kind := 0, gap := 0, src := 0, size := 0, dst := 0 }
  let code := (mintCap text.dst text.size text.dst 0x005#12).getD GVal.zero
  let data := (((g.kind 2).head?).bind fun x => mintCap x.dst x.size x.dst 0x123#12).getD GVal.zero
  let cores := coresOf g.clusters
  let s1 := cores.foldl (fun t r => clearLocal (t.setCore r { boundCore s.pkgRank root ctxbase l r with snap := (s.coreAt r).snap }) r) s
  let s2 := setRanks s1 pid true false cores
  let s3 := copyPhysical m s2 (g.kind 5)
  let s4 := (copyVirtual m g root g.virtual s3).getD s3
  let s5 := cores.foldl (fun t r =>
    (g.kind 3).foldl (fun u x => u.storeSparse (localKey r x.dst) x.size (x.bytes m)) t) s4
  let digest := sha256 (m.read 0 g.length)
  pushRoots l text.dst data { s5 with parts := s5.parts ++ [newPart g pid ctxbase code digest] } cores

/-- Whether the device is ready: BOOTSTAT.STATE is 2 (19_integration.md R493). -/
def State.ready (s : State) : Bool := field s.bootstat 0 8 == 2

/-- LDRDB_WRITE (19_integration.md R483). -/
def execLdrdbWrite (v : BitVec 64) (s : State) : Host.Outcome State Fault Refusal := .next { s with ldrTail := v }

/-- Whether an image's signature verifies under a key that the configuration record names (08_tasks.md R237, R238, code 2;
19_integration.md R491). -/
def imageVerified (s : State) (key : RsaKey) (m : Mem) (len : Nat) : Bool :=
  s.ownerKeys.contains (keyHash key) && rsaVerify key (sha256 (m.read 0 (len - 384))) (m.read (len - 384) 384)

/-- LOADER_ENTRY (08_tasks.md R238, R239; 19_integration.md R484): the next entry of the loader ring, whose image is signed
under a key that the loader is given (log entry 8). -/
def execLoaderEntry (key : RsaKey) (s : State) : Host.Outcome State Fault Refusal :=
  .next (if s.ready ∧ s.ldrHead ≠ s.ldrTail then
      let n := 2 ^ max 2 (min 8 (field s.ldrq 0 6))
      let e := hostKey (field s.ldrq 6 46 * 64 + 32 * (s.ldrHead.toNat % n))
      let len := s.mem.readNat (e + 8) 8
      let m := s.mem.slice (hostKey (s.mem.readNat e 8)) len
      let code := loadCode s m len (imageVerified s key m len)
      let pid := nextPid s
      let s1 := if code = 0 then bindImage s m pid else s
      let s2 := s1.store (e + 16) (leBytes 2 code ++ leBytes 2 (if code = 0 then pid else 0))
      { s2.storeNat (e + 31) 1 1 with ldrHead := s.ldrHead + 1#64 }
    else s)

/-- PARTITION_UNBIND (05_memory.md R154): the VALID bits of its entries are cleared, and its claims, futures, rings,
trees, grants and remote-access entries are free. -/
def execPartitionUnbind (pid : Nat) (s : State) : Host.Outcome State Fault Refusal :=
  .next (match s.part? pid with
    | none => s
    | some p =>
      let l := (coresOf p.clusters).filter fun r => s.hubCore pid r
      let s1 := setRanks s pid false false l
      { s1 with
        net := s1.net.filter fun m => m.pid != pid
        mmus := s1.mmus.map fun e => (e.1, { e.2 with
          tlb := e.2.tlb.filter (·.pid != pid), ptrs := e.2.ptrs.filter (·.pid != pid)
          misses := e.2.misses.filter (·.pid != pid), queue := e.2.queue.filter (·.pid != pid) })
        maxxBad := s1.maxxBad.filter fun x => !l.contains x.core
        applied := s1.applied.filter fun x => !l.contains x.2.id.core.toNat
        hubReqs := s1.hubReqs.filter fun q => q.pid != pid
        parts := s1.parts.filter fun p => p.pid != pid
        cores := s1.cores.filter fun e => !l.contains e.1
        maxx := s1.maxx.filter fun x => !l.contains x.core
        futs := s1.futs.map fun e => if e.2.pid = pid ∧ e.2.state ≠ 0#3 then (e.1, { Fut.reset with gen := nextGen e.2.gen }) else e
        rings := s1.rings.filter fun e => e.2.pid != pid, injects := s1.injects.filter fun j => j.pid != pid
        trees := s1.trees.filter fun t => t.pid != pid, fells := s1.fells.filter fun f => f.pid != pid
        prefetch := s1.prefetch.filter fun f => f.pid != pid, extents := s1.extents.filter fun e => e.2.pid != pid
        keys := s1.keys.filter fun k => field k.lo 0 16 != pid })

/-! Shadow storage and spares. -/

/-- SHADOW_RESERVATION_CHANGE (01_machine.md R23, R34): at most 7 ways, and never below what bound partitions claim. -/
def execShadowReservationChange (die ways : Nat) (s : State) : Host.Outcome State Fault Refusal :=
  .next (if h : die < 4 then
      (if ways ≤ 7 ∧ shadowUsed s die ≤ ways * 256 then { s with shadow := s.shadow.set die ways } else s)
    else s)

/-- Whether a physical place of a die is a spare: the configuration record does not enable it, and no entry that has been
written names it (01_machine.md R9, 05_memory.md R154). -/
def spareFree (s : State) (die : BitVec 2) (prow pcol : Nat) : Bool :=
  decide (prow < 34) && !(s.enabled[die.toNat]'(by have := die.isLt; omega)).getLsbD (32 * prow + pcol) &&
    !(s.ranks.any fun e => field e.2 14 2 == die.toNat && field e.2 8 6 == prow && field e.2 0 5 == pcol)

/-- A rank takes a place in every table. -/
def movePlace (s : State) (r prow pcol : Nat) : State := eachRank s r fun e => setField (setField e 8 6 prow) 0 5 pcol

/-- The partition that is resident on a core. -/
def residentOn (s : State) (r : Nat) : Option Part := s.parts.find? fun p => p.resident && (coresOf p.clusters).contains r

/-- SPARE_CORE_REPLACEMENT (05_memory.md R157): the partition that is resident on the core, once its cores have stopped at safe
points, is saved, which sets TRANSIT; the rank takes a spare of its die in every table; and the state is loaded again, which
clears TRANSIT. Where no partition is resident there, its state is saved already, and the tables alone change. -/
def execSpareCoreReplacement (prow : BitVec 6) (pcol : BitVec 5) (s : State) : Host.Outcome State Fault Refusal :=
  let r := s.rank
  .next (if spareFree s (BitVec.ofNat 2 (r / 1024)) prow.toNat pcol.toNat = false then s
    else
      match residentOn s r with
      | none => movePlace s r prow.toNat pcol.toNat
      | some p =>
        let t := swapOut s p.pid
        if ((t.part? p.pid).map (·.resident)).getD true then s
        else swapIn (movePlace t r prow.toNat pcol.toNat) p.pid)

/-! Storage, grants and attestation. -/

/-- The data of a storage request reach or leave its buffer (19_integration.md R495): the status, what a write takes
from the buffer, and the state. -/
def storageData (s : State) (p : Part) (q : StorageReq) (data : List Byte) : Nat × List Byte × State :=
  if q.write then
    match hubRead s p.ptroot q.buf.toNat q.len with
    | (some bs, t) => (0, bs, t)
    | (none, t) => (2, [], t)
  else
    match hubWrite s p.ptroot q.buf.toNat ((data ++ List.replicate q.len 0#8).take q.len) with
    | (ok, t) => (if ok then 0 else 2, [], t)

/-- A request under way completes with a status (19_integration.md R495). -/
def storageEnd (s : State) (pid i : Nat) (q : StorageReq) (status : Nat) : State :=
  let s1 := s.modPart pid fun p =>
    { p with sq := { p.sq with reqs := p.sq.reqs.set i { q with status := some (BitVec.ofNat 8 status) } } }
  sqRead pid 1024 ((sqFinish s1 pid q status).modPart pid fun p => { p with sq := sqAdvance p.sq })

/-- STORAGE_REQUEST_COMPLETE (19_integration.md R495): the i-th request under way of the core's partition, with the bytes
that the device read or its error. -/
def execStorageRequestComplete (i : Nat) (data : List Byte) (err : Bool) (s : State) : Host.Outcome State Fault Refusal :=
  .next (match s.part? s.me.pid with
    | none => s
    | some p =>
      match p.sq.reqs[i]? with
      | none => s
      | some q =>
        if q.status.isSome then s
        else if err then storageEnd s p.pid i q 3
        else
          let d := storageData s p q data
          let s1 := if q.write ∧ d.1 = 0 then { d.2.2 with outbox := d.2.2.outbox ++ [.storage p.pid q.index d.2.1] } else d.2.2
          storageEnd s1 p.pid i q d.1)

/-- EXTENT_GRANT_INSTALL (19_integration.md R494): a grant whose signature does not verify is refused (log entry 8). -/
def execExtentGrantInstall (slot : BitVec 8) (g : ExtentGrant) (verified : Bool) (s : State) : Host.Outcome State Fault Refusal :=
  let x : Extent := { pid := g.pid.toNat, dev := g.dev, first := g.first, count := g.count, rd := g.rd, wr := g.wr }
  .next (if verified then { s with extents := Table.set s.extents slot.toNat x } else s)

/-- The bytes over which an attestation report is signed, in the order of 19_integration.md R492. -/
def reportBytes (s : State) (nonce : BitVec 256) : List Byte :=
  leBytes 32 nonce.toNat ++ leBytes 32 s.recHash.toNat ++ leBytes 32 s.fwHash.toNat ++
    (s.parts.map fun p => leBytes 32 p.digest.toNat ++ leBytes 2 p.pid).flatten ++ leBytes 4 s.pkgRank.toNat

/-- ATTESTATION_REQUEST (19_integration.md R492). -/
def execAttestationRequest (nonce : BitVec 256) (s : State) : Host.Outcome State Fault Refusal :=
  .next { s with outbox := s.outbox ++
    [.report nonce s.recHash s.fwHash (s.parts.map fun p => (p.pid, p.digest)) s.pkgRank (Config.sign (sha256 (reportBytes s nonce)))] }

/-! The host's doorbells, and blazes. -/

/-- HOSTDB_WRITE (19_integration.md R483): ignored for a rank that no partition holds; the interrupt of a partition that is swapped
out stands in its saved state. -/
def execHostdbWrite (core : BitVec 12) (s : State) : Host.Outcome State Fault Refusal :=
  let r := core.toNat
  let ring (c : Core) : Core := c.modCtl fun k => { k with intpend := setField k.intpend 3 1 1 }
  let e := s.rankAt hubIface r
  .next (if field e 31 1 = 1 then
      if (residentOn s r).isSome then s.modCore r ring
      else
        s.modPart (field e 16 10) fun p =>
          { p with saved := p.saved.map fun m => if m.rank = r then { m with core := ring m.core } else m }
    else s)

/-- BLZTRIG_WRITE (19_integration.md R497). -/
def execBlztrigWrite (s : State) : Host.Outcome State Fault Refusal := .next (blazeTrigger s)

/-- BLZCTL_UNLOCK (19_integration.md R497). -/
def execBlzctlUnlock (s : State) : Host.Outcome State Fault Refusal := .next { s with blzLock := false }

/-- The host writes n bytes at an offset of BAR0 (19_integration.md R483): a narrow write, a write elsewhere, and what a
write names of a field marked RO are ignored. -/
def bar0Write (off n : Nat) (v : BitVec 64) (s : State) : Host.Outcome State Fault Refusal :=
  if n = 8 then
    match off with
    | 0x008 => .next { s with ldrq := v &&& 0x000F_FFFF_FFFF_FFFF#64 }
    | 0x010 => execLdrdbWrite v s
    | 0x018 => execHostdbWrite (v.setWidth 12) s
    | 0x020 => .next { s with hqcfg := v &&& 0x000F_FFFF_FFFF_FFFF#64 }
    | 0x028 => .next { s with hqptr := setField s.hqptr 32 16 (field v 32 16) }
    | 0x030 => if v.getLsbD 0 then execBlztrigWrite s else .next s
    | 0x038 => if v.getLsbD 0 then execBlzctlUnlock s else .next s
    | _ => .next s
  else .next s

/-- What the host reads of n bytes at an offset of BAR0 (19_integration.md R483). -/
def bar0Read (s : State) (off n : Nat) : BitVec 64 :=
  if n = 8 then
    match off with
    | 0x000 => s.bootstat
    | 0x008 => s.ldrq
    | 0x020 => s.hqcfg
    | 0x028 => s.hqptr
    | _ => 0#64
  else 0#64

/-- BLAZE_PIN_TRIGGER (19_integration.md R497). -/
def execBlazePinTrigger (s : State) : Host.Outcome State Fault Refusal := .next (blazeTrigger s)

/-- Whether the time that firmware has set for a blaze has come (15_system.md R453). -/
def blazeTimeDue (s : State) : Bool := match s.blzTime with | some t => decide (t ≤ s.now) | none => false

/-- BLAZE_TIME_TRIGGER (15_system.md R453). -/
def execBlazeTimeTrigger (s : State) : Host.Outcome State Fault Refusal :=
  .next (if blazeTimeDue s then blazeTrigger { s with blzTime := none } else s)

/-- The snapshot of a core (15_system.md R454). -/
def snapOf (c : Core) (cycle : Nat) (seq : BitVec 32) : CoreSnap :=
  { cycle := BitVec.ofNat 64 cycle, pcS := c.pc, pcV := c.pcV, pcM := c.pcM, pcD := c.pcD
    word := BitVec.ofNat 64 (c.ctx.toNat + c.hw.length * 2 ^ 16 + c.level * 2 ^ 22 + c.depth * 2 ^ 24 +
      c.halt.isSome.toNat * 2 ^ 26 + c.idle.toNat * 2 ^ 27)
    seq := seq }

/-- The latch at one core: its snapshot and interrupt 0x21. -/
def Core.latchBlaze (c : Core) (cycle : Nat) (seq : BitVec 32) : Core :=
  { c.modCtl fun k => { k with intpend := setField k.intpend 1 1 1 } with snap := snapOf c cycle seq }

/-- The cores of a list that ask for it halt with WHY 4. -/
def blazeHalts (s : State) : List Nat → State
  | [] => s
  | r :: t => blazeHalts (if (s.coreAt r).blzhalt then debugHalt s r 4#4 else s) t

/-- BLAZE_LATCH (15_system.md R453, R454): 64 cycles after the trigger every core latches, a core that nothing has
touched too, and the snapshots are locked; in a package whose snapshots have been locked meanwhile nothing latches. -/
def execBlazeLatch (s : State) : Host.Outcome State Fault Refusal :=
  .next (match s.blzDue with
    | none => s
    | some t =>
      if s.cycle < t then s
      else
        let seq := s.blzSeq + 1#32
        let s1 : State := { s with
          blzDue := none, blzLock := true, blzSeq := seq
          cores := s.cores.map fun (e : Nat × Core) => (e.1, e.2.latchBlaze s.cycle seq)
          blank := s.blank.latchBlaze s.cycle seq }
        blazeHalts s1 (s1.cores.map (·.1)))

/-! Bring-up (19_integration.md R491, R493). -/

/-- BOOTSTAT with its fields. -/
def bootWord (rate fail step state : Nat) : BitVec 64 :=
  BitVec.ofNat 64 (rate * 2 ^ 32 + fail * 2 ^ 16 + step * 2 ^ 8 + state)

/-- The step at which bring-up fails: as the hardware reports, at step 2 by a record whose security version is too low, that lists
more than 4 owner keys or that does not enable exactly 1,024 places of each die (19_integration.md R491). -/
def failStep (s : State) (b : BringUp) : Nat :=
  let rec2 : Bool := decide (b.svn.toNat < s.svn.toNat) || decide (4 < b.owners.length) || b.places.length != 4 || b.places.any fun e => (placesOf e).length != 1024
  let f := (b.fail.map (·.toNat)).getD 9
  if rec2 then min 2 f else f

/-- What the steps before a step leave behind (19_integration.md R493). -/
def afterSteps (s : State) (b : BringUp) (k : Nat) : State :=
  let rank (c : Core) : Core := c.modCtl fun k => { k with pkg := b.pkg }
  let s0 : State := if 1 < k then { s with devKey := some Config.deviceKey } else s
  let s1 : State :=
    if 2 < k then
      { s0 with
        svn := if s.svn.toNat < b.svn.toNat then b.svn else s.svn, ownerKeys := b.owners, recHash := b.recHash, pkgRank := b.pkg
        hbmRepair := b.repair }
    else s0
  let s2 : State := if 3 < k then { s1 with fwHash := b.fwHash } else s1
  let s3 : State :=
    if 5 < k then
      { s2 with
        ranks := [], enabled := Vector.ofFn fun i => (b.places[i.val]?).getD 0#1088
        cores := s2.cores.map fun e => (e.1, rank e.2), blank := rank s2.blank }
    else s2
  let s4 : State := if 6 < k then { s3 with hostCxl := b.cxl, hostSize := b.hostSize, link := true } else s3
  let s5 : State := if 7 < k then { s4 with planes := b.down } else s4
  if 8 < k then { s5 with ptp := b.ps, slew := 0, locked := true } else s5

/-- The rate at which the host port trains, in GT/s: that of its mode, or the highest lower one that the host offers
(19_integration.md R482). -/
def trainedRate (b : BringUp) : Nat := min (if b.cxl then 64 else 128) b.rate.toNat

/-- What a module that has tripped keeps when it comes back: memory, its replay-protected security version, what has left the
package, its logs and its time; its tables are as after reset (19_integration.md R480; DESIGN CHOICE, log entry 92). -/
def afterTrip (s : State) : State :=
  { State.reset with
    mem := s.mem, ctags := s.ctags, poison := s.poison, svn := s.svn, cert := s.cert, input := s.input, outbox := s.outbox, logs := s.logs, agenda := s.agenda
    fresh := s.fresh, cycle := s.cycle, ptp := s.ptp }

/-- POWER_ON_BRING_UP (19_integration.md R493): the steps run in their order up to the one that fails; nothing runs on a
module that is ready. -/
def execPowerOnBringUp (b : BringUp) (s : State) : Host.Outcome State Fault Refusal :=
  .next (if s.ready then s
    else
      let k := failStep s b
      let rate := if 6 < k then trainedRate b else 0
      { afterSteps (if s.power then s else afterTrip s) b k with
        power := true, cur := .none
        bootstat := if k = 9 then bootWord rate 0 9 2 else bootWord rate k (k - 1) 3 })

/-- The module as after reset, but for what is not its own or stands in the configuration flash: the host's memory with its marks,
the replay-protected security version and the certificate, its input, what has left the package, and the steps still to come. -/
def wiped (s : State) : State :=
  let own (k : Nat) : Bool := decide (0x1000_0000_0000 ≤ k) && decide (k < 0xC * 2 ^ 52)
  { State.reset with
    svn := s.svn, cert := s.cert, input := s.input, outbox := s.outbox, agenda := s.agenda, fresh := s.fresh
    mem := s.mem.filter fun c => own c.1, poison := s.poison.filter own }

/-- MODULE_RESET (01_machine.md R28, 15_system.md R455): the health log stays, and bring-up runs again. -/
def execModuleReset (s : State) : Host.Outcome State Fault Refusal := .next { wiped s with logs := s.logs }

/-! Power, temperature and clocks (19_integration.md R480, R481, R496). -/

/-- The steps by which the clock of a region is lowered. -/
def stepsOf (l : List (Nat × Nat)) (r : Nat) : Nat := (Table.find l r).getD 0

/-- The clock of a region goes one step of 1/16 lower. -/
def lowerClock (s : State) (region : Nat) : State :=
  { s with clocks := Table.set s.clocks region (min 15 (stepsOf s.clocks region + 1)) }

/-- JUNCTION_THROTTLE (19_integration.md R480). -/
def execJunctionThrottle (region : Nat) (s : State) : Host.Outcome State Fault Refusal := .next (lowerClock s region)

/-- A region's clock is lowered while the module would draw more than 3,400 W or its input is below 44 V (19_integration.md R480). -/
def throttle (s : State) (region watts : Nat) : State :=
  if 3400 < watts ∨ s.input < 44000 then lowerClock s region else s

/-- Ranger firmware sets the period of a region's clock in picoseconds; a clock above 940 MHz is never set (01_machine.md R14,
R34). -/
def setClock (s : State) (region ps : Nat) : State := { s with periods := Table.set s.periods region (max 1064 ps) }

/-- CLOCK_STEP_RESTORE (19_integration.md R480): one step higher, never above 940 MHz (01_machine.md R14), and none while the input
is below 44 V. -/
def execClockStepRestore (region : Nat) (s : State) : Host.Outcome State Fault Refusal :=
  .next (if s.input < 44000 then s else { s with clocks := Table.set s.clocks region (stepsOf s.clocks region - 1) })

/-- A trip (19_integration.md R480, R481): the compute dies and HBM4E lose power and with it their contents; the hub and
its logs keep theirs, and the host port is down. -/
def tripped (s : State) (e : LogEvent) : State :=
  { s with
    power := false, bootstat := setField (setField s.bootstat 0 8 4) 32 8 0, link := false, linkq := [], cores := [], blank := Core.reset, net := [], packets := [], mmus := []
    maxx := [], maxxBad := [], applied := [], ranks := [], logs := s.logs ++ [e]
    mem := s.mem.filter fun c => decide (0x0090_0000_0000 ≤ c.1 ∧ c.1 < 0xC * 2 ^ 52)
    ctags := s.ctags.filter fun u => decide (0x0009_0000_0000 ≤ u ∧ u < 0xC * 2 ^ 48)
    poison := s.poison.filter fun k => decide (0x0090_0000_0000 ≤ k ∧ k < 0xC * 2 ^ 52) }

/-- THERMAL_TRIP (19_integration.md R480). -/
def execThermalTrip (s : State) : Host.Outcome State Fault Refusal := .next (tripped s .thermalTrip)

/-- LOW_FLOW_TRIP (19_integration.md R481). -/
def execLowFlowTrip (s : State) : Host.Outcome State Fault Refusal := .next (tripped s .lowFlowTrip)

/-- INPUT_DISCONNECT (19_integration.md R481): all state is lost. -/
def execInputDisconnect (s : State) : Host.Outcome State Fault Refusal :=
  .next { wiped s with power := false, cur := .none }

/-- OVERVOLTAGE_EVENT (19_integration.md R481). -/
def execOvervoltageEvent (s : State) : Host.Outcome State Fault Refusal := .next { s with logs := s.logs ++ [.overVoltage] }

/-- The module's input voltage in millivolts (19_integration.md R480, R481). -/
def inputSet (mv : Nat) (s : State) : Host.Outcome State Fault Refusal :=
  let t : State := { s with input := mv }
  if 60000 < mv then execInputDisconnect t
  else if 54000 < mv then execOvervoltageEvent t
  else if mv < 40000 then .next (tripped t .inputTrip)
  else if mv < 44000 then .next { t with logs := t.logs ++ [.inputLow] }
  else .next t

/-- COOLANT_EVENT (19_integration.md R481). -/
def execCoolantEvent (s : State) : Host.Outcome State Fault Refusal := .next { s with logs := s.logs ++ [.coolant] }

/-- SLACK_THROTTLE (19_integration.md R496): a monitor of a cluster reports slack in units of 0.5 %; below 6 % the
cluster's clock goes one step lower, and it goes back when the slack recovers. -/
def execSlackThrottle (cluster slack : Nat) (s : State) : Host.Outcome State Fault Refusal :=
  .next { s with slacks := Table.set s.slacks cluster (if slack < 12 then 1 else 0) }

/-- MARGIN_REPLAN (19_integration.md R496): a voltage inside the limits is taken and lets a slowed clock recover; another
is as if it had not been written (01_machine.md R34). -/
def execMarginReplan (cluster millivolt : Nat) (s : State) : Host.Outcome State Fault Refusal :=
  .next (if 550 ≤ millivolt ∧ millivolt ≤ 800 then
      { s with volts := Table.set s.volts cluster millivolt
               slacks := if stepsOf s.volts cluster < millivolt then Table.set s.slacks cluster 0 else s.slacks }
    else s)

/-! Links and packets (19_integration.md R486 to R489). -/

/-- LINK_FLIT_RETRY (19_integration.md R486): the flit of the next number on a link is taken, and a duplicate is
discarded by its number. -/
def execLinkFlitRetry (plane seq : Nat) (s : State) : Host.Outcome State Fault Refusal :=
  .next (if seq = stepsOf s.linkSeq plane then { s with linkSeq := Table.set s.linkSeq plane (seq + 1) } else s)

/-- PLANE_OUT_OF_SERVICE (19_integration.md R487): its pairs use the next plane of the die once what was sent on it has been
acknowledged, until when their requests wait. -/
def execPlaneOutOfService (plane : Nat) (s : State) : Host.Outcome State Fault Refusal :=
  .next { s with planes := if s.planes.contains plane then s.planes else s.planes ++ [plane] }

/-- The requests that wait to leave a plane set out once every flit of the package has been acknowledged, which happens by itself
(19_integration.md R487). -/
def linkDue (s : State) : Option (State → Host.Outcome State Fault Refusal) :=
  if s.linkq.isEmpty then none else some fun t => .next (linkFlush { t with linkAcked := t.linkSent })

/-- The partition, key, permissions and range of a remote-access entry (19_integration.md R489). -/
def RemoteKey.grants (k : RemoteKey) (key : BitVec 32) (a n : Nat) (bit : Nat) : Bool :=
  let base := field k.hi 0 56
  field k.lo 16 32 == key.toNat && k.lo.getLsbD (48 + bit) && decide (base ≤ a) && decide (a + n ≤ base + field k.hi 56 8 * 65536)

/-- The answer that nothing was written (19_integration.md R489). Of another package a load is answered with an error, and a
store is dropped and logged (05_memory.md R156). -/
def refusePacket (s : State) (p : UePacket) : State :=
  match p.pair, p.op with
  | some _, .read _ => { s with outbox := s.outbox ++ [.reply none] }
  | some _, .write _ => { s with logs := s.logs ++ [.rejected (coordCore p.addr) (p.addr.extractLsb' 0 19)] }
  | some _, .tagged _ => { s with logs := s.logs ++ [.rejected (coordCore p.addr) (p.addr.extractLsb' 0 19)] }
  | _, _ => { s with outbox := s.outbox ++ [.nack p.seq] }

/-- The local place of a region 0xC address of this package, in a core of a partition. -/
def coordPlace (s : State) (pid : Nat) (a : BitVec 64) : Option Nat :=
  if region a = 0xC ∧ field a 49 3 = 0 ∧ coordPkg a = s.pkgRank ∧ s.hubCore pid (coordCore a).toNat then
    some (localKey (coordCore a).toNat (coordOff a))
  else none

/-- A write or read of a packet in a partition's memory, and whether it is permitted (19_integration.md R489). -/
def packetAccess (s : State) (pid : Nat) (a : BitVec 64) (store : Option (List Byte)) (n : Nat) : Bool × State :=
  match coordPlace s pid a with
  | some k =>
    match store with
    | some bs => (true, s.store k bs)
    | none => if s.poisoned k n then (false, s) else (true, s.answer (some (s.mem.read k n)))
  | none =>
    match s.part? pid with
    | none => (false, s)
    | some p =>
      if region a ≠ 0 then (false, s)
      else
        match store with
        | some bs => hubWrite s p.ptroot a.toNat bs
        | none =>
          match hubRead s p.ptroot a.toNat n with
          | (some bs, t) => (true, t.answer (some bs))
          | (none, t) => (false, t)

/-- A tagged write of a whole granule is a tagged arrival (07_sync.md R215, 19_integration.md R489); another is a plain
write. -/
def packetTagged (s : State) (pid : Nat) (p : UePacket) (bs : List Byte) : Bool × State :=
  match coordPlace s pid p.addr with
  | some _ =>
    if bs.length = 64 ∧ coordOff p.addr % 64 = 0 then
      (true, arrive s
        { dst := coordCore p.addr, off := p.addr.extractLsb' 0 19, bytes := bs, kind := .ue, entry := 0#14, ue := some (p.pair, p.seq)
          srcPkg := if p.pair.isSome then p.srcPkg.setWidth 32 else 0xFFFF_FFFF#32
          srcCore := if p.pair.isSome then p.srcCore.setWidth 16 else 0xFFFF#16 })
    else packetAccess s pid p.addr (some bs) bs.length
  | none => packetAccess s pid p.addr (some bs) bs.length

/-- What a packet does in a partition, and whether it is permitted. -/
def packetIn (s : State) (pid : Nat) (p : UePacket) : Bool × State :=
  match p.op with
  | .write bs => packetAccess s pid p.addr (some bs) bs.length
  | .tagged bs => packetTagged s pid p bs
  | .read n => packetAccess s pid p.addr none n
  | .unsupported => (false, s)

/-- The bytes of a packet's operation and the permission that it needs. -/
def UeOp.needs : UeOp → Nat × Nat
  | .write bs => (bs.length, 1)
  | .tagged bs => (bs.length, 2)
  | .read n => (n, 0)
  | .unsupported => (0, 0)

/-- Whether a packet is one that its transport sends again after an overrun (07_sync.md R217). -/
def ueResent (s : State) (p : UePacket) : Bool :=
  match p.pair with
  | some k => s.ueRetry.contains (k, p.seq)
  | none => false

/-- Whether a packet may be placed: its pair's earlier packets have been, and its rank is not in transit (05_memory.md R155,
19_integration.md R489). -/
def ueMay (s : State) (p : UePacket) : Bool :=
  (match p.pair with | some k => p.seq == stepsOf s.ueSeq k || ueResent s p | none => true) &&
    !(region p.addr == 0xC && coordPkg p.addr == s.pkgRank && rankMoves (s.rankAt hubIface (coordCore p.addr).toNat))

/-- Whether a packet of a pair has come before: it is placed or waits. -/
def ueAgain (s : State) (p : UePacket) : Bool :=
  match p.pair with
  | some k =>
    (decide (p.seq < stepsOf s.ueSeq k) && !ueResent s p) || s.packets.any fun q => q.pair == p.pair && q.seq == p.seq
  | none => false

/-- A packet's operation is done in a partition, or refused where it is not permitted. -/
def packetDone (s : State) (pid : Nat) (p : UePacket) : State :=
  let r := packetIn s pid p
  if r.1 then r.2 else refusePacket r.2 p

/-- A packet that may be placed is placed, or refused (19_integration.md R488, R489): a remote host that is no XN-4 package must
quote an entry that grants the access. -/
def placePacket (s : State) (p : UePacket) : State :=
  match p.pair with
  | some k =>
    packetDone (if ueResent s p then { s with ueRetry := s.ueRetry.erase (k, p.seq) } else { s with ueSeq := Table.set s.ueSeq k (p.seq + 1) })
      (p.key.toNat % 1024) p
  | none =>
    let d := UeOp.needs p.op
    match s.keys.find? fun e => e.grants p.key p.addr.toNat d.1 d.2 with
    | some e => packetDone s (field e.lo 0 16) p
    | none => refusePacket s p

/-- A packet that has waited for its turn, or for its rank, is placed once it may be. -/
def nextPacket (s : State) : Option (State → Host.Outcome State Fault Refusal) :=
  (s.packets.find? (ueMay s)).map fun p t => .next (placePacket { t with packets := t.packets.erase p } p)

/-- UE_PACKET_ARRIVAL (19_integration.md R488, R489): a packet that asks for what the endpoint does not support is refused, and has no
number among the writes and reads of its pair; a packet of another package is applied in the order of its pair, a
duplicate is discarded, and one that came too early waits for its turn, as one for a rank in transit does; a remote host's is
placed as it arrives. -/
def execUePacketArrival (p : UePacket) (s : State) : Host.Outcome State Fault Refusal :=
  .next (if p.op = .unsupported then refusePacket s p
    else if ueAgain s p then s
    else if ueMay s p then placePacket s p
    else { s with packets := s.packets ++ [p] })

/-! The host's coherent accesses, and time. -/

/-- HOST_COHERENT_ACCESS (06_ordering.md R204): the host reads or writes bytes of one line of the window, which stands in
CXL mode alone (19_integration.md R482). -/
def execHostCoherentAccess (addr : Nat) (store : Option (List Byte)) (n : Nat) (s : State) : Host.Outcome State Fault Refusal :=
  let m := match store with | some bs => bs.length | none => n
  .next (if s.hostCxl ∧ s.link = true ∧ addr + m ≤ s.hostSize ∧ addr % 64 + m ≤ 64 then
      match store with
      | some bs => s.store (hostKey addr) bs
      | none => { s with outbox := s.outbox ++ [.reply (if s.poisoned (hostKey addr) n then none else some (s.mem.read (hostKey addr) n))] }
    else s)

/-- TIME_SERVO_LOCK_LOSS (15_system.md R455): the time continues in holdover. -/
def execTimeServoLockLoss (s : State) : Host.Outcome State Fault Refusal := .next { s with locked := false, slew := 0 }

/-- TIME_SERVO_LOCK_REGAIN (15_system.md R455): the time is slewed onto the servo's, from which it differs by `slew`. -/
def execTimeServoLockRegain (ps : Nat) (s : State) : Host.Outcome State Fault Refusal :=
  .next { s with locked := true, slew := (ps : Int) - s.ptp }

end Sys2Proof.Machine
end

