-- ==== Sys2Proof/Machine/Elementary.lean ====
section
/-! DEFINITION. The special functions of 10_vector.md R314 and R315, correctly rounded: each is enclosed between two
integers at a scale 2^e, at rising precisions, until both ends round alike. The exact cases are those of R315; every
other result is transcendental, so it is inexact and no tie. -/

namespace Sys2Proof.Machine

/-- A positive real strictly between lo × 2^e and hi × 2^e. -/
structure Enc where
  lo : Nat
  hi : Nat
  e  : Int
  deriving DecidableEq, Repr

/-- The rounding of an enclosed real with a sign, where the enclosure settles it. -/
def Enc.round (x : Enc) (f : Nat) (neg : Bool) : Option (Nat × BitVec 6) :=
  if x.lo < 2 ^ (fracBits f + 2) then none
  else
    let a := roundTo f neg x.lo x.e true .rne
    let b := roundTo f neg (x.hi - 1) x.e true .rne
    if a = b then some a else none

/-- A positive m × 2^e at the scale 2^-p: the integers below and above it. -/
def fixed (m : Nat) (e : Int) (p : Nat) : Nat × Nat :=
  let k := e + p
  if 0 ≤ k then (m * 2 ^ k.toNat, m * 2 ^ k.toNat)
  else
    let d := 2 ^ (-k).toNat
    (m / d, m / d + 1)

/-- A quotient rounded up. -/
def ceilDiv (a b : Nat) : Nat := (a + b - 1) / b

/-! Exponential. -/

/-- The sum of x^n / n! from term n on, for a scaled x between two integers, with the sums so far; the rest is at most
twice the last term. -/
def expSeries (p xl xh : Nat) : Nat → Nat → Nat → Nat → Nat → Nat → Nat × Nat
  | 0, _, _, th, sl, sh => (sl, sh + 2 * th + 2)
  | fuel + 1, n, tl, th, sl, sh =>
    let ul := tl * xl / 2 ^ p / (n + 1)
    let uh := ceilDiv (th * xh) (2 ^ p * (n + 1))
    expSeries p xl xh fuel (n + 1) ul uh (sl + ul) (sh + uh)

/-- k squarings of a scaled number of at least one. -/
def squarings (p : Nat) : Nat → Nat × Nat → Nat × Nat
  | 0, x => x
  | k + 1, x => squarings p k (x.1 * x.1 / 2 ^ p, x.2 * x.2 / 2 ^ p + 1)

/-- e^t at the scale 2^-p for a positive t = m × 2^e below 2^11. -/
def expFixed (p m : Nat) (e : Int) : Nat × Nat :=
  let x := fixed m (e - 20) p
  squarings p 20 (expSeries p x.1 x.2 (p / 8 + 8) 0 (2 ^ p) (2 ^ p) (2 ^ p) (2 ^ p))

/-- The enclosure of n / d for a numerator and a denominator at one scale, with p further bits below the leading bit. -/
def quotEnc (p nl nh dl dh : Nat) : Enc :=
  let k := p + Nat.log2 dh
  { lo := nl * 2 ^ k / dh, hi := nh * 2 ^ k / dl + 1, e := -(k : Int) }

/-- e^t for a sign and a magnitude. -/
def expEnc (p : Nat) (neg : Bool) (m : Nat) (e : Int) : Enc :=
  let x := expFixed p m e
  if neg then quotEnc p (2 ^ p) (2 ^ p) x.1 x.2 else { lo := x.1, hi := x.2, e := -(p : Int) }

/-! Logarithm. -/

/-- The sum of 1 / ((2j + 1) k^(2j+1)) at the scale 2^p, for integers k: each term is below its floor plus one. -/
def invPowers (k : Nat) : Nat → Nat → Nat → Nat → Nat × Nat
  | 0, _, pw, s => (s, pw)
  | fuel + 1, j, pw, s => invPowers k fuel (j + 1) (pw / (k * k)) (s + pw / (2 * j + 1))

/-- ln 2 at the scale 2^-p: twice the inverse hyperbolic tangent of 1/3. -/
def ln2Fixed (p : Nat) : Nat × Nat :=
  let n := p / 3 + 4
  let r := invPowers 3 n 0 (2 ^ p / 3) 0
  (2 * r.1, 2 * (r.1 + n + 2 * r.2 + 2))

/-- The sum of s^(2j+1) / (2j + 1) for a scaled s of at most 1/5; the rest is at most twice the last power. -/
def atanhSeries (p ql qh : Nat) : Nat → Nat → Nat → Nat → Nat → Nat → Nat × Nat
  | 0, _, _, ph, sl, sh => (sl, sh + 2 * ph + 2)
  | fuel + 1, j, pl, ph, sl, sh =>
    atanhSeries p ql qh fuel (j + 1) (pl * ql / 2 ^ p) (ceilDiv (ph * qh) (2 ^ p))
      (sl + pl / (2 * j + 1)) (sh + ceilDiv ph (2 * j + 1))

/-- |ln z| at the scale 2^-p for z = a / 2^k near one, with its sign. -/
def lnNear (p a k : Nat) : Bool × Nat × Nat :=
  let neg := decide (a < 2 ^ k)
  let n := if neg then 2 ^ k - a else a - 2 ^ k
  let d := a + 2 ^ k
  let sl := n * 2 ^ p / d
  let sh := ceilDiv (n * 2 ^ p) d
  let r := atanhSeries p (sl * sl / 2 ^ p) (ceilDiv (sh * sh) (2 ^ p)) (p / 4 + 4) 0 sl sh 0 0
  (neg, 2 * r.1, 2 * r.2)

/-- ln of m × 2^e, with its sign; none where the enclosure spans zero. -/
def lnEnc (p m : Nat) (e : Int) : Option (Bool × Enc) :=
  let top := Nat.log2 m
  -- m / 2^top lies in [1, 2); above 3/2 half of it is taken
  let up : Bool := decide (3 * 2 ^ top < 2 * m)
  let k := if up then top + 1 else top
  let q : Int := (k : Int) + e
  let z := lnNear p m k
  let l2 := ln2Fixed p
  let zl : Int := if z.1 then -(z.2.2 : Int) else z.2.1
  let zh : Int := if z.1 then -(z.2.1 : Int) else z.2.2
  let ql : Int := if 0 ≤ q then q * l2.1 else q * l2.2
  let qh : Int := if 0 ≤ q then q * l2.2 else q * l2.1
  let lo := ql + zl
  let hi := qh + zh
  if 0 < lo then some (false, { lo := lo.toNat, hi := hi.toNat, e := -(p : Int) })
  else if hi < 0 then some (true, { lo := (-hi).toNat, hi := (-lo).toNat, e := -(p : Int) })
  else none

/-! Sine and cosine. -/

/-- The alternating sum of 1 / ((2j + 1) k^(2j+1)): the inverse tangent of 1/k, with the number of terms. -/
def atanInv (k : Nat) : Nat → Nat → Nat → Int → Int × Nat
  | 0, _, pw, s => (s, pw)
  | fuel + 1, j, pw, s =>
    let t : Int := (pw / (2 * j + 1) : Nat)
    atanInv k fuel (j + 1) (pw / (k * k)) (if j % 2 = 0 then s + t else s - t)

/-- π / 2 at the scale 2^-p, by Machin's formula. -/
def halfPi (p : Nat) : Nat × Nat :=
  let n := p / 4 + 4
  let a := atanInv 5 n 0 (2 ^ p / 5) 0
  let b := atanInv 239 n 0 (2 ^ p / 239) 0
  let c := 8 * a.1 - 2 * b.1
  let err : Int := 8 * (n + a.2 + 1) + 2 * (n + b.2 + 1)
  ((c - err).toNat, (c + err).toNat)

/-- The alternating sum of x^i / i! over every second i, for a scaled x² between two integers: the terms so far and
bounds of the sum; the rest is at most the last term. -/
def altSeries (p ql qh : Nat) : Nat → Nat → Bool → Nat → Nat → Int → Int → Int × Int
  | 0, _, _, _, th, sl, sh => (sl - th, sh + th)
  | fuel + 1, i, minus, tl, th, sl, sh =>
    let ul := tl * ql / 2 ^ p / ((i + 1) * (i + 2))
    let uh := ceilDiv (th * qh) (2 ^ p * ((i + 1) * (i + 2)))
    altSeries p ql qh fuel (i + 2) (!minus) ul uh
      (if minus then sl - uh else sl + ul) (if minus then sh - ul else sh + uh)

/-- sin x at the scale 2^-p for a scaled x of at most one. -/
def sinFixed (p xl xh : Nat) : Int × Int :=
  let lo := (altSeries p (xl * xl / 2 ^ p) (ceilDiv (xl * xl) (2 ^ p)) (p / 4 + 8) 1 true xl xl xl xl).1
  let hi := (altSeries p (xh * xh / 2 ^ p) (ceilDiv (xh * xh) (2 ^ p)) (p / 4 + 8) 1 true xh xh xh xh).2
  (lo - 1, hi + 1)

/-- cos x at the scale 2^-p for a scaled x of at most one; it falls. -/
def cosFixed (p xl xh : Nat) : Int × Int :=
  let one : Int := (2 ^ p : Nat)
  let hi := (altSeries p (xl * xl / 2 ^ p) (ceilDiv (xl * xl) (2 ^ p)) (p / 4 + 8) 0 true (2 ^ p) (2 ^ p) one one).2
  let lo := (altSeries p (xh * xh / 2 ^ p) (ceilDiv (xh * xh) (2 ^ p)) (p / 4 + 8) 0 true (2 ^ p) (2 ^ p) one one).1
  (lo - 1, hi + 1)

/-- sin or cos of a positive m × 2^e, with its sign; none where the precision does not settle it. -/
def trigEnc (p : Nat) (isCos : Bool) (m : Nat) (e : Int) : Option (Bool × Enc) :=
  let w := p + (topExp m e).natAbs + 8
  let t := fixed m e w
  let h := halfPi w
  let n := (2 * t.1 + h.1) / (2 * h.1)
  let rl : Int := (t.1 : Int) - ((n * h.2 : Nat) : Int)
  let rh : Int := (t.2 : Int) - ((n * h.1 : Nat) : Int)
  if rl < 0 ∧ 0 < rh ∧ (n ≠ 0 ∨ rl < -1) then none
  else
    let neg := decide (rl < 0 ∧ rh ≤ 0)
    let xl := if neg then rh.natAbs else rl.toNat
    let xh := if neg then rl.natAbs else rh.natAbs
    if 2 ^ w < xh then none
    else
      let q := (n + (if isCos then 1 else 0)) % 4
      let useCos : Bool := q % 2 == 1
      let r := if useCos then cosFixed w xl xh else sinFixed w xl xh
      let sg : Bool := (decide (2 ≤ q)) != (neg && !useCos)
      if r.1 ≤ 0 then none else some (sg, { lo := r.1.toNat, hi := r.2.toNat, e := -(w : Int) })

/-! The hyperbolic tangent and the logistic function. -/

/-- tanh t for a positive t = m × 2^e below 64, from u = e^(2t): (u - 1) / (u + 1). -/
def tanhEnc (p m : Nat) (e : Int) : Enc :=
  let w := p + (if topExp m e < 0 then (topExp m e).natAbs else 0)
  let u := expFixed w m (e + 1)
  let o := 2 ^ w
  let k := w + p
  { lo := (u.1 - o) * 2 ^ k / (u.1 + o), hi := (u.2 - o) * 2 ^ k / (u.2 + o) + 1, e := -(k : Int) }

/-- 1 / (1 + e^-a) for a sign and a magnitude below 2^11, from u = e^|a|. -/
def sigEnc (p : Nat) (neg : Bool) (m : Nat) (e : Int) : Enc :=
  let u := expFixed p m e
  let o := 2 ^ p
  if neg then quotEnc p o o (o + u.1) (o + u.2)
  else { lo := u.1 * 2 ^ p / (o + u.1), hi := u.2 * 2 ^ p / (o + u.2) + 1, e := -(p : Int) }

/-! The functions. -/

/-- The special functions that the enclosures serve. -/
inductive Special where
  | exp | log | sin | cos | tanh | sig
  deriving DecidableEq, Repr

/-- A function enclosed at a precision, on ±m × 2^e with m positive. -/
def Special.enc (fn : Special) (p : Nat) (neg : Bool) (m : Nat) (e : Int) : Option (Bool × Enc) :=
  match fn with
  | .exp => some (false, expEnc p neg m e)
  | .log => lnEnc p m e
  | .sin => (trigEnc p false m e).map fun r => (r.1 != neg, r.2)
  | .cos => trigEnc p true m e
  | .tanh => some (neg, tanhEnc p m e)
  | .sig => some (false, sigEnc p neg m e)

/-- The precisions of the ladder. The values that lie nearest to a rounding boundary are told from it by the fourth; the last
stands far beyond (log entry 11). -/
def precisions : List Nat := [160, 400, 1400, 3600, 16384]

/-- The rounding at the first precision that settles it; a real that lay on a boundary to the last precision, which no
operand does, would round as the lower end of its enclosure. -/
def Special.climb (fn : Special) (f : Nat) (neg : Bool) (m : Nat) (e : Int) : List Nat → Nat × BitVec 6
  | [] => (0, fNX)
  | p :: ps =>
    match fn.enc p neg m e with
    | none => Special.climb fn f neg m e ps
    | some r =>
      match r.2.round f r.1, ps with
      | some x, _ => x
      | none, [] => roundTo f r.1 r.2.lo r.2.e true .rne
      | none, _ => Special.climb fn f neg m e ps

/-- Arguments so large that the result is beyond every number, below every number, or next to one. -/
def Special.far (fn : Special) (f : Nat) (neg : Bool) (m : Nat) (e : Int) : Option (Nat × BitVec 6) :=
  let big : Bool := decide (11 ≤ topExp m e)
  let one := roundTo f false (2 ^ 100 - 1) (-100) true .rne
  match fn with
  | .exp => if big then some (roundTo f false 1 (if neg then -2000 else 2000) true .rne) else none
  | .tanh => if 6 ≤ topExp m e then (some (one.1 + (if neg then signBit f else 0), one.2)) else none
  | .sig =>
    if neg then (if big then some (roundTo f false 1 (-2000) true .rne) else none)
    else if 7 ≤ topExp m e then some one else none
  | _ => none

/-- The special values of 10_vector.md R315. -/
def Special.exact (fn : Special) (f : Nat) (a : Val) : Option (Nat × BitVec 6) :=
  let one := (fbias f) * 2 ^ fracBits f
  let invalid : Option (Nat × BitVec 6) := some (canonNan f, fNV)
  match a with
  | .nan s => some (canonNan f, flagIf s fNV)
  | .inf n =>
    match fn with
    | .exp => some (if n then 0 else infBits f false, 0#6)
    | .log => if n then invalid else some (infBits f false, 0#6)
    | .sin => invalid
    | .cos => invalid
    | .tanh => some (one + (if n then signBit f else 0), 0#6)
    | .sig => some (if n then 0 else one, 0#6)
  | .fin n 0 _ =>
    match fn with
    | .exp => some (one, 0#6)
    | .log => some (infBits f true, fDZ)
    | .sin => some (if n then signBit f else 0, 0#6)
    | .cos => some (one, 0#6)
    | .tanh => some (if n then signBit f else 0, 0#6)
    | .sig => some ((fbias f - 1) * 2 ^ fracBits f, 0#6)
  | .fin n m e =>
    match fn with
    | .log => if n then invalid else if Val.eq (.fin false m e) (.fin false 1 0) then some (0, 0#6) else none
    | _ => none

/-- A special function of bits in a format, at .rne (10_vector.md R314, R315). -/
def Special.eval (fn : Special) (f a : Nat) : Nat × BitVec 6 :=
  let v := unpack f a
  match fn.exact f v with
  | some r => r
  | none =>
    match v with
    | .fin n m e =>
      match fn.far f n m e with
      | some r => r
      | none => fn.climb f n m e precisions
    | _ => (canonNan f, 0#6)

end Sys2Proof.Machine
end

