-- ==== Sys2Proof/Machine/Vector.lean ====
section
/-! DEFINITION. V words (10_vector.md R290 to R324): operand elements and their checks, predication, result latches,
post-updates, strips, and the meaning of each word; and the steps that end a VMAXX across cores. -/

namespace Sys2Proof

/-- Whether a word writes a g register by a post-update. -/
def VWord.bumps (w : VWord) : Bool :=
  [w.d, w.a, w.b].any fun sp => match sp with | .loc _ _ _ p => p | _ => false

/-- Whether a word names local memory. -/
def VWord.local_ (w : VWord) : Bool := w.d.isLoc || w.a.isLoc || w.b.isLoc

/-- The counter values that a word of n elements consumes (03_numbers.md R88). -/
def VWord.draws (w : VWord) (n : Nat) : Nat := if w.rnd.toNat = 4 then (n + 3) / 4 else 0

end Sys2Proof

namespace Sys2Proof.Machine

/-! Lanes. -/

/-- n lanes of w bits, from lane 0 upward (10_vector.md R290). -/
def lanesOf (x w n : Nat) : List Nat := (List.range n).map fun i => x / 2 ^ (w * i) % 2 ^ w

/-- Lanes of w bits as one number. -/
def joinLanes (w : Nat) (l : List Nat) : Nat := (l.zipIdx.map fun x => x.1 * 2 ^ (w * x.2)).sum

/-- Which elements of a source a word reads (10_vector.md R295, R313). -/
inductive Lanes where
  | none | active | all | first
  deriving DecidableEq, Repr

/-- The elements of a choice. -/
def Lanes.idx (l : Lanes) (n : Nat) (act : List Nat) : List Nat :=
  match l with
  | .none => [] | .active => act | .all => List.range n | .first => [0]

/-- The shape of a V word: its elements, the widths of its three operands, the sources it reads, whether D is read too,
whether every destination element is written (R312), whether addresses are indexed by B (R318), and its latency
(R299). -/
structure VForm where
  n   : Nat
  wd  : Nat
  wa  : Nat
  wb  : Nat
  ra  : Lanes
  rb  : Lanes
  rd  : Bool := false
  full : Bool := false
  sel : Bool := false
  idxA : Bool := false
  idxD : Bool := false
  mem : Bool := false
  lat : Nat
  deriving DecidableEq, Repr

/-- What a word computes on: its sources by element, the elements that are active, and the draws. -/
structure VIn where
  a   : List Nat
  b   : List Nat
  d   : List Nat
  act : List Bool
  k   : Caps
  ctr : BitVec 128
  key : BitVec 64

/-- What a word computes: its elements or a whole register, its flags, and how far RNGCTR advances. -/
structure VOut where
  res   : List Nat
  whole : Option Nat := none
  flags : BitVec 6 := 0#6
  adv   : Nat := 0

/-- The active elements of a word (10_vector.md R295); VSEL writes every element (R307). -/
def vActive (w : VWord) (c : Core) (f : VForm) : List Nat :=
  if w.pred = 0#3 ∨ f.sel = true then List.range f.n
  else (List.range f.n).filter fun i => (c.rp w.pred).getLsbD i

/-! Element accesses. -/

/-- An access of one element: its number, its capability, address, size and needs. -/
structure Acc where
  i    : Nat
  cap  : GVal
  x    : Word64
  n    : Nat
  need : BitVec 12
  deriving DecidableEq, Repr

/-- off_r of the running iteration of NEST.v for a base register (04_scalar.md R122). -/
def Core.vOff (c : Core) (g : GIdx) : Int :=
  match c.nestV with
  | some n => nestOff n.desc n.index g
  | none => 0

/-- The accesses of a local-memory specifier to some elements of b bytes, indexed where a list of indices is given
(10_vector.md R292, R318). -/
def locAccs (c : Core) (sp : VSpec) (cap : GVal) (b : Nat) (need : BitVec 12) (idx : List Nat)
    (gather : Option (List Nat)) : List Acc :=
  match sp with
  | .loc base off stride _ =>
    let o := c.vOff (base.setWidth 6)
    idx.map fun i =>
      let j : Int := match gather with | some l => (l.getD i 0 : Nat) | none => (i : Int) * stride.toInt
      { i := i, cap := cap, x := cap.word + BitVec.ofInt 64 (o + ((off.toNat : Int) + j) * b), n := b, need := need }
  | _ => []

/-- The check of one element, in the order of 10_vector.md R292. -/
def Acc.check (s : State) (a : Acc) : Res (Target × State) := access s .v a.cap a.x a.n (a.need ||| permEngine) a.n .own

/-- The failure of highest precedence: the lowest cause, then the lowest element (10_vector.md R292). -/
def worstFail (s : State) (l : List Acc) : Option Trap :=
  (l.foldl (fun (o : Option (Nat × Trap)) a =>
    match a.check s with
    | .trap t _ =>
      (match o with
       | some (i, u) => if t.cause.toNat < u.cause.toNat ∨ (t.cause = u.cause ∧ a.i < i) then some (a.i, t) else o
       | none => some (a.i, t))
    | _ => o) none).map (·.2)

/-- Whether an element's rank is in transit (05_memory.md R155). -/
def anyHeld (s : State) (l : List Acc) : Bool := l.any fun a => match a.check s with | .hold _ _ => true | _ => false

/-- The place of an element in the core's own local memory. -/
def Acc.place (s : State) (a : Acc) : Nat := localKey s.rank (coordOff a.x)

/-- Whether an access reads. -/
def Acc.reads (a : Acc) : Bool := a.need &&& permLoad == permLoad

/-- The values of elements dealt to their places in a list of n. -/
def spread : Nat → Nat → List (Nat × Nat) → List Nat
  | _, 0, _ => []
  | i, m + 1, (j, v) :: t => if j = i then v :: spread (i + 1) m t else 0 :: spread (i + 1) m ((j, v) :: t)
  | i, m + 1, [] => 0 :: spread (i + 1) m []

/-- The value of a register source: the strip at the head of a bound register (10_vector.md R300). -/
def regSource (s : State) (v : BitVec 5) : Nat :=
  match s.me.boundReg v with
  | some i => (match peekStrip s i with | .strip x => x.toNat | _ => 0)
  | none => (s.me.rv v).toNat

/-- The elements of a source (10_vector.md R291, R292). -/
def sourceVals (s : State) (sp : VSpec) (k : Caps) (w n : Nat) (l : List Acc) : List Nat :=
  match sp with
  | .vreg v => lanesOf (regSource s v) w n
  | .cap1 => List.replicate n (k.c1.bits.toNat % 2 ^ w)
  | .cap2 => List.replicate n (k.c2.bits.toNat % 2 ^ w)
  | .preg p => lanesOf (s.me.rp p).toNat 1 n
  | .loc _ _ _ _ => spread 0 n (l.map fun a => (a.i, s.mem.readNat (a.place s) a.n))

/-- A register that a source names and that is bound. -/
def boundSource (c : Core) (sp : VSpec) (l : Lanes) : List (BitVec 3) :=
  match sp, l with
  | _, .none => []
  | .vreg v, _ => (c.boundReg v).toList
  | _, _ => []

/-- The bound registers that a word pops, each once (10_vector.md R300). -/
def popsOf (c : Core) (w : VWord) (f : VForm) : List (BitVec 3) :=
  (boundSource c w.a f.ra ++ boundSource c w.b f.rb).eraseDups

/-- Whether a destination is a bound register (10_vector.md R301). -/
def boundDest (c : Core) (sp : VSpec) : Bool :=
  match sp with
  | .vreg v => (c.boundReg v).isSome
  | _ => false

/-- The first trap that the pops of a word take. -/
def popTrap (s : State) : List (BitVec 3) → Option Trap
  | [] => none
  | i :: t => match peekStrip s i with | .trap x => some x | _ => popTrap s t

/-- Whether a pop must wait. -/
def popWait (s : State) (l : List (BitVec 3)) : Bool := l.any fun i => peekStrip s i == .wait

/-- Whether a wait is for a channel's slot, which makes the word a blocking word (10_vector.md R302). -/
def chanWait (s : State) (l : List (BitVec 3)) : Bool :=
  l.any fun i => peekStrip s i == .wait && (s.me.rbind i).mode == 2#2

/-- The accesses of a word by position, destination first. -/
def wordAccs (s : State) (w : VWord) (k : Caps) (f : VForm) : List Acc × List Acc × List Acc :=
  let c := s.me
  let act := vActive w c f
  let ix : List Nat := match w.b with | .vreg v => lanesOf (regSource s v) f.wb f.n | _ => []
  let didx := if f.full then List.range f.n else act
  let need := if f.rd then permLoad ||| permStore else permStore
  (locAccs c w.d k.d (f.wd / 8) need didx (if f.idxD then some ix else none),
   locAccs c w.a k.a (f.wa / 8) permLoad (f.ra.idx f.n act) (if f.idxA then some ix else none),
   locAccs c w.b k.b (f.wb / 8) permLoad (f.rb.idx f.n act) none)

/-! Issue. -/

/-- One step of V time: every latch comes one step nearer, and those whose step has come land (10_vector.md R296,
R297). -/
def Core.vTick (c : Core) : Core :=
  let l := c.latches.map fun (x : Latch) => { x with remain := x.remain - 1 }
  { c with latches := l.filter fun x => x.remain != 0 }.land (l.filter fun x => x.remain == 0)

/-- A word that writes a g register lets the S walker pass it (04_scalar.md R114). -/
def Core.passWord (c : Core) : Core :=
  if c.passing then { c.moveWalker .s (c.pc + 12#64) 3#32 with passing := false } else c

/-- The post-update of a specifier after a word of n elements of b bytes (10_vector.md R293). -/
def postBump (c : Core) (sp : VSpec) (cap : GVal) (n b : Nat) : Core :=
  match sp with
  | .loc base _ stride true =>
    c.wg (base.setWidth 6) (moveCap cap (cap.word + BitVec.ofInt 64 ((n : Int) * stride.toInt * b)))
  | _ => c

/-- The registers of v24 to v31 that a word names. -/
def streamRegs (w : VWord) : List (BitVec 5) :=
  [w.d, w.a, w.b].filterMap fun sp => match sp with | .vreg v => if 24 ≤ v.toNat then some v else none | _ => none

/-- The displacements of the running iteration of NEST.v (04_scalar.md R122). -/
def Core.vDisp (c : Core) : Disp := fun g => (c.vOff g, c.vOff g)

/-- The shape of a word whose operands all have the lane format. -/
def vForm (w : VWord) (ra rb : Lanes) (lat : Nat) : VForm :=
  { n := w.lanes, wd := w.width, wa := w.width, wb := w.width, ra := ra, rb := rb, lat := lat }

/-- The span from the lowest to the highest address of some element accesses (10_vector.md R318). -/
def accSpan (s : State) (l : List Acc) (wr : Bool) : List Touch :=
  match l with
  | [] => []
  | a :: t =>
    ownSpan s a.x (t.foldl (fun m b => min m b.x.toNat) a.x.toNat) (t.foldl (fun m b => max m (b.x.toNat + b.n)) (a.x.toNat + a.n)) wr

/-- What a word touches in its iteration: an indexed one the span of its active addresses (10_vector.md R318). -/
def vTouches (s : State) (op : Instr) (l : List GVal) : List Touch :=
  let at_ (w : VWord) (f : VForm) := wordAccs s w (capsOf (vFields w) l) f
  match op with
  | .vgth w => accSpan s (at_ w { vForm w .active .active 8 with idxA := true }).2.1 false
  | .vsct w => accSpan s (at_ w { vForm w .active .active 1 with idxD := true }).1 true
  | _ => vTouch s s.me.vDisp op l

/-- Whether the earlier words of the other engines let a word issue (04_scalar.md R116, 12_copy.md R365): the range checker
admits its accesses, and a word that names one of v24 to v31 waits for the earlier DSTRM and DUNB of that register. -/
def vReady (s : State) (op : Instr) (w : VWord) (l : List GVal) : Bool :=
  admits s .v (s.me.wordPos .v) (vTouches s op l) &&
  !dBinding s.me (streamRegs w) (s.me.wordPos .v)

/-- A register, predicate or local-memory destination takes its elements (10_vector.md R294, R295, R309). -/
def writeDest (s : State) (w : VWord) (f : VForm) (acts : List Bool) (l : List Acc) (o : VOut) (lat : Nat) : State :=
  let merge (old wd lanes : Nat) : Nat :=
    match o.whole with
    | some x => x
    | none =>
      joinLanes wd (((o.res.zip acts).zip (lanesOf old wd f.n)).map fun x =>
        if x.1.2 then x.1.1 % 2 ^ wd else if w.pz then 0 else x.2) % 2 ^ (wd * lanes)
  match w.d with
  | .vreg v =>
    let x : Latch := { isPred := false, index := v, remain := lat,
                       value := BitVec.ofNat 1024 (merge (s.me.rv v).toNat f.wd (1024 / f.wd)) }
    s.modMe fun c => { c with latches := c.latches ++ [x] }
  | .preg p =>
    let x : Latch := { isPred := true, index := p.setWidth 5, remain := lat,
                       value := BitVec.ofNat 1024 (merge (s.me.rp p).toNat 1 128) }
    s.modMe fun c => { c with latches := c.latches ++ [x] }
  | .loc _ _ _ _ => l.foldl (fun t a => t.storeNat (a.place s) a.n (o.res.getD a.i 0)) s
  | _ => s

/-- The bits of a mask as the activity of n elements. -/
def actBits (n : Nat) (act : List Nat) (full : Bool) : List Bool :=
  if full then List.replicate n true else (spread 0 n (act.map fun i => (i, 1))).map (· == 1)

/-- A word whose results are known completes (10_vector.md R304): an enabled flag traps with every flag set and no other
effect; else the flags are set, RNGCTR advances, the destination is written, bases are updated, strips are popped, and
V time goes on. -/
def vFinish (s : State) (op : Instr) (w : VWord) (k : Caps) (l : List GVal) (f : VForm) (o : VOut) : Res State :=
  let c := s.me
  let s1 := s.modMe fun c => c.modCtl fun r => { r with arflg := r.arflg ||| o.flags.setWidth 32 }
  if o.flags.setWidth 32 &&& (c.ctl.arflg >>> 16) &&& 0x3F#32 ≠ 0#32 then .trap (mkTrap .v 0x0B 0#64) s1
  else
    let act := vActive w c f
    let far : Bool := !f.mem && (w.a.isLoc || w.b.isLoc)
    let s2 := writeDest s1 w f (actBits f.n act f.full) (wordAccs s w k f).1 o (f.lat + (if far then 6 else 0))
    let s3 := s2.modMe fun c => c.modCtl fun r => { r with rngctr := r.rngctr + BitVec.ofNat 128 o.adv }
    let s4 := s3.modMe fun c =>
      postBump (postBump (postBump c w.d k.d f.n (f.wd / 8)) w.a k.a f.n (f.wa / 8)) w.b k.b f.n (f.wb / 8)
    let s5 := (popsOf c w f).foldl popStrip s4
    .ok (s5.modMe fun c =>
      { (if w.bumps then c.passWord else c).engAdvance .v op l with vwait := none }.vTick)

/-- The checks and reads of a word (10_vector.md R292, R300, R301): its sources, or none where it must wait. -/
def vRead (s : State) (w : VWord) (k : Caps) (f : VForm) : Res (Option VIn) :=
  let c := s.me
  let pops := popsOf c w f
  let early : Bool := (f.idxA || f.idxD) && (popWait s pops || (popTrap s pops).isSome)
  let accs := wordAccs s w k f
  let all := accs.1 ++ accs.2.1 ++ accs.2.2
  match (if early then none else worstFail s all) with
  | some t => .trap t s
  | none =>
    if early = false ∧ anyHeld s all = true then .ok none
    else if boundDest c w.d then .trap (mkTrap .v 0x07 0#64) s
    else
      match popTrap s pops with
      | some t => .trap t s
      | none =>
        if popWait s pops then .ok none
        else
          match all.find? fun a => a.reads && s.poisoned (a.place s) a.n with
          | some a => .trap (mkTrap .v 0x0D a.x) s
          | none =>
            .ok (some
              { a := if f.ra = .none then [] else sourceVals s w.a k f.wa f.n accs.2.1
                b := if f.rb = .none then [] else sourceVals s w.b k f.wb f.n accs.2.2
                d := if f.rd then sourceVals s w.d k f.wd f.n accs.1 else []
                act := actBits f.n (vActive w c f) false
                k := k, ctr := c.ctl.rngctr, key := c.ctl.rngkey })

/-- A stalled word: the walker stands, and a channel wait is timed from its start (10_vector.md R300, R302). -/
def vStall (s : State) (w : VWord) (f : VForm) : State :=
  if chanWait s (popsOf s.me w f) ∧ s.me.vwait = none then s.modMe fun c => { c with vwait := some s.cycle } else s

/-- A word whose own checks and effect follow its capture, its order and the encodings that a nest body excludes
(04_scalar.md R122; log entry 29). -/
def vIssue (s : State) (op : Instr) (w : VWord) (writesG : Bool) (run : State → List GVal → Res State) : Res State :=
  let c := s.me
  match c.engCaptured .v with
  | none => .ok s
  | some l =>
    if c.nestV.isSome ∧ writesG = true then .trap (mkTrap .v 0x01 0#64) s
    else if c.maxx.isSome ∨ vReady s op w l = false then .ok s
    else run (settleTouches s (vTouches s op l)) l

/-- A V word that computes elements (10_vector.md R304). -/
def vCompute (s : State) (op : Instr) (w : VWord) (f : VForm) (comp : VIn → VOut) : Res State :=
  vIssue s op w w.bumps fun s0 l =>
    let k := capsOf (vFields w) l
    (vRead s0 w k f).bind fun r =>
      match r with
      | none => .ok (vStall s0 w f)
      | some i => vFinish s0 op w k l f (comp i)

/-! Element-wise words. -/

/-- The rounding mode of element i (03_numbers.md R88). -/
def VIn.mode (i : VIn) (w : VWord) (lane : Nat) : Rnd :=
  rndOf w.rnd.toNat (if w.rnd.toNat = 4 then draw i.ctr i.key lane else 0)

/-- The elements that a function of the three sources computes, with the flags of the active ones (03_numbers.md
R82). -/
def elementwise (i : VIn) (n : Nat) (f : Nat → Nat → Nat → Nat → Nat × BitVec 6) : List Nat × BitVec 6 :=
  let r := (List.range n).zip i.act |>.map fun (x : Nat × Bool) =>
    let j := x.1
    if x.2 then f j (i.a.getD j 0) (i.b.getD j 0) (i.d.getD j 0) else (0, 0#6)
  (r.map (·.1), r.foldl (fun a x => a ||| x.2) 0#6)

/-- A word of element-wise arithmetic. -/
def vMap (s : State) (op : Instr) (w : VWord) (f : VForm) (draws : Nat)
    (g : VIn → Nat → Nat → Nat → Nat → Nat × BitVec 6) : Host.Outcome State Fault Refusal :=
  settleE .v s (vCompute s op w f fun i =>
    let r := elementwise i f.n (g i)
    { res := r.1, flags := r.2, adv := draws })

/-- A word whose result rounds, on two sources or three. -/
def vArith (s : State) (op : Instr) (w : VWord) (rb : Lanes) (rd : Bool) (lat : Nat)
    (int : Nat → Nat → Nat → Int) (fp : Nat → Nat → Nat → Rnd → Nat × BitVec 6) :
    Host.Outcome State Fault Refusal :=
  let f := { vForm w .active rb lat with rd := rd }
  vMap s op w f (w.draws f.n) fun i j a b d =>
    if isInt w.fmtN then (intBits w.width (int a b d), 0#6) else fp a b d (i.mode w j)

/-- VADD (10_vector.md R305). -/
def execVadd (w : VWord) (s : State) : Host.Outcome State Fault Refusal :=
  vArith s (.vadd w) w .active false 2 (fun a b _ => a + b) (fun a b _ m => addF w.fmtN a b m)

/-- VSUB (10_vector.md R305): the sum with B's sign inverted. -/
def execVsub (w : VWord) (s : State) : Host.Outcome State Fault Refusal :=
  vArith s (.vsub w) w .active false 2 (fun a b _ => a - b) (fun a b _ m =>
    let r := addVal (unpack w.fmtN a) (unpack w.fmtN b).negate m
    let q := roundVal w.fmtN r.1 m
    (q.1, r.2 ||| q.2))

/-- VMUL (10_vector.md R305). -/
def execVmul (w : VWord) (s : State) : Host.Outcome State Fault Refusal :=
  vArith s (.vmul w) w .active false 4 (fun a b _ => a * b) (fun a b _ m => mulF w.fmtN a b m)

/-- VFMA (10_vector.md R305). -/
def execVfma (w : VWord) (s : State) : Host.Outcome State Fault Refusal :=
  vArith s (.vfma w) w .active true 4 (fun a b d => a * b + d) (fun a b d m => fmaF w.fmtN a b d false false m)

/-- VFMS (10_vector.md R305). -/
def execVfms (w : VWord) (s : State) : Host.Outcome State Fault Refusal :=
  vArith s (.vfms w) w .active true 4 (fun a b d => a * b - d) (fun a b d m => fmaF w.fmtN a b d false true m)

/-- VFNMA (10_vector.md R305). -/
def execVfnma (w : VWord) (s : State) : Host.Outcome State Fault Refusal :=
  vArith s (.vfnma w) w .active true 4 (fun a b d => (d : Int) - a * b) (fun a b d m => fmaF w.fmtN a b d true false m)

/-- A word that neither rounds nor draws. -/
def vPlain (s : State) (op : Instr) (w : VWord) (ra rb : Lanes) (lat : Nat)
    (g : Nat → Nat → Nat → Nat × BitVec 6) : Host.Outcome State Fault Refusal :=
  vMap s op w (vForm w ra rb lat) 0 fun _ j a b _ => g j a b

/-- VMIN (10_vector.md R305). -/
def execVmin (w : VWord) (s : State) : Host.Outcome State Fault Refusal :=
  vPlain s (.vmin w) w .active .active 2 fun _ a b => minMax w.fmtN false a b

/-- VMAX (10_vector.md R305). -/
def execVmax (w : VWord) (s : State) : Host.Outcome State Fault Refusal :=
  vPlain s (.vmax w) w .active .active 2 fun _ a b => minMax w.fmtN true a b

/-- |a| of an integer or the sign bit of an IEEE value cleared (10_vector.md R305). -/
def absBits (f a : Nat) : Nat :=
  if isIeee f then a % signBit f
  else if isSigned f ∧ 2 ^ (fmtBits f - 1) ≤ a then (2 ^ fmtBits f - a) % 2 ^ fmtBits f else a

/-- VABS (10_vector.md R305). -/
def execVabs (w : VWord) (s : State) : Host.Outcome State Fault Refusal :=
  vPlain s (.vabs w) w .active .none 2 fun _ a _ => (absBits w.fmtN a, 0#6)

/-- −a of an integer or the sign bit of an IEEE value inverted (10_vector.md R305). -/
def negBits (f a : Nat) : Nat :=
  if isIeee f then (a + signBit f) % (2 * signBit f) else (2 ^ fmtBits f - a) % 2 ^ fmtBits f

/-- VNEG (10_vector.md R305). -/
def execVneg (w : VWord) (s : State) : Host.Outcome State Fault Refusal :=
  vPlain s (.vneg w) w .active .none 2 fun _ a _ => (negBits w.fmtN a, 0#6)

/-- VCMP (10_vector.md R306): the result goes to a predicate register, bit by bit. -/
def execVcmp (w : VWord) (s : State) : Host.Outcome State Fault Refusal :=
  vPlain s (.vcmp w) w .active .active 2 fun _ a b =>
    let r := compare_ w.rnd.toNat (unpack w.fmtN a) (unpack w.fmtN b)
    (r.1.toNat, r.2)

/-- VSEL (10_vector.md R307). -/
def execVsel (w : VWord) (s : State) : Host.Outcome State Fault Refusal :=
  vMap s (.vsel w) w { vForm w .active .active 2 with sel := true } 0 fun _ j a b _ =>
    (if (s.me.rp w.pred).getLsbD j then a else b, 0#6)

/-- VAND (10_vector.md R308). -/
def execVand (w : VWord) (s : State) : Host.Outcome State Fault Refusal :=
  vPlain s (.vand w) w .active .active 2 fun _ a b => (Nat.land a b, 0#6)

/-- VOR (10_vector.md R308). -/
def execVor (w : VWord) (s : State) : Host.Outcome State Fault Refusal :=
  vPlain s (.vor w) w .active .active 2 fun _ a b => (Nat.lor a b, 0#6)

/-- VXOR (10_vector.md R308). -/
def execVxor (w : VWord) (s : State) : Host.Outcome State Fault Refusal :=
  vPlain s (.vxor w) w .active .active 2 fun _ a b => (Nat.xor a b, 0#6)

/-- VNOT (10_vector.md R308). -/
def execVnot (w : VWord) (s : State) : Host.Outcome State Fault Refusal :=
  vPlain s (.vnot w) w .active .none 2 fun _ a _ => (2 ^ w.width - 1 - a, 0#6)

/-- VSHL (10_vector.md R308): a count of the width or more gives 0. -/
def execVshl (w : VWord) (s : State) : Host.Outcome State Fault Refusal :=
  vPlain s (.vshl w) w .active .active 2 fun _ a b => (if w.width ≤ b then 0 else a * 2 ^ b % 2 ^ w.width, 0#6)

/-- VSHR (10_vector.md R308). -/
def execVshr (w : VWord) (s : State) : Host.Outcome State Fault Refusal :=
  vPlain s (.vshr w) w .active .active 2 fun _ a b => (if w.width ≤ b then 0 else a / 2 ^ b, 0#6)

/-- The arithmetic right shift of w bits; a count of the width or more leaves the sign in every bit (10_vector.md
R308). -/
def sraBits (w a b : Nat) : Nat :=
  let i : Int := if 2 ^ (w - 1) ≤ a then (a : Int) - 2 ^ w else a
  intBits w (Int.fdiv i (2 ^ min b w : Nat))

/-- VSRA (10_vector.md R308). -/
def execVsra (w : VWord) (s : State) : Host.Outcome State Fault Refusal :=
  vPlain s (.vsra w) w .active .active 2 fun _ a b => (sraBits w.width a b, 0#6)

/-! Conversion and quantisation. -/

/-- The blocks that a register becomes (10_vector.md R310): 32 elements each, one after the other. -/
def blocksOf (i : VIn) (w : VWord) (m : Nat) (bound : List Val) : Nat → Nat → List Byte × BitVec 6
  | 0, _ => ([], 0#6)
  | n + 1, b =>
    let l := ((i.a.drop (32 * b)).take 32).map (unpack w.fmtN)
    let r := toBlock m l bound fun j => i.mode w (32 * b + j)
    let q := blocksOf i w m bound n (b + 1)
    (blockBytes m r.1 ++ q.1, r.2 ||| q.2)

/-- VCVT (10_vector.md R309, R310). -/
def execVcvt (w : VWord) (s : State) : Host.Outcome State Fault Refusal :=
  let code := w.cvtCode.toNat
  match blockM code with
  | some m =>
    let f := vForm w .active .none 4
    settleE .v s (vCompute s (.vcvt w) w f fun i =>
      let bound := if w.cap1 = 0#6 then [] else [unpack 10 (i.k.c1.bits.toNat % 2 ^ 32)]
      let r := blocksOf i w m bound (f.n / 32) 0
      { res := [], whole := some (leNat r.1), flags := r.2, adv := w.draws f.n })
  | none =>
    let wd := fmtBits code
    let n := 1024 / max w.width wd
    let f : VForm := { n := n, wd := wd, wa := w.width, wb := w.width, ra := .active, rb := .none, lat := 4 }
    vMap s (.vcvt w) w f (w.draws n) fun i j a _ _ => convert w.fmtN code a (i.mode w j)

/-- VQNT (10_vector.md R311, 03_numbers.md R96). -/
def execVqnt (w : VWord) (s : State) : Host.Outcome State Fault Refusal :=
  let n := 1024 / max w.width 32
  let f : VForm := { n := n, wd := w.width, wa := 32, wb := 32, ra := .active, rb := .active, lat := 4 }
  vMap s (.vqnt w) w f (w.draws n) fun i j a b _ => vqnt w.fmtN (unpack 10 a) (unpack 10 b) (i.mode w j)

/-- VDQNT (10_vector.md R311, 03_numbers.md R97). -/
def execVdqnt (w : VWord) (s : State) : Host.Outcome State Fault Refusal :=
  let n := 1024 / max w.width 32
  let f : VForm := { n := n, wd := 32, wa := w.width, wb := 32, ra := .active, rb := .active, lat := 4 }
  vMap s (.vdqnt w) w f (w.draws n) fun i j a b _ => vdqnt (unpack w.fmtN a) (unpack 10 b) (i.mode w j)

/-! Reductions and rearrangement. -/

/-- The reduction of the active elements in ascending order (10_vector.md R312). -/
def reduceLanes (empty : Nat) (g : Nat → Nat → Nat × BitVec 6) : List (Nat × Bool) → Option Nat → BitVec 6 → Nat × BitVec 6
  | [], acc, fl => (acc.getD empty, fl)
  | (x, act) :: t, acc, fl =>
    if act then
      match acc with
      | none => reduceLanes empty g t (some x) fl
      | some y => let r := g y x; reduceLanes empty g t (some r.1) (fl ||| r.2)
    else reduceLanes empty g t acc fl

/-- A reduction word (10_vector.md R312): lane 0 takes the result, every other lane zero. -/
def vReduce (s : State) (op : Instr) (w : VWord) (empty : Nat) (g : Nat → Nat → Nat × BitVec 6) :
    Host.Outcome State Fault Refusal :=
  let f := { vForm w .active .none 8 with full := true }
  settleE .v s (vCompute s op w f fun i =>
    let r := reduceLanes empty g (i.a.zip i.act) none 0#6
    { res := r.1 :: List.replicate (f.n - 1) 0, flags := r.2 })

/-- VSUM (10_vector.md R312). -/
def execVsum (w : VWord) (s : State) : Host.Outcome State Fault Refusal :=
  vReduce s (.vsum w) w 0 fun x y =>
    if isInt w.fmtN then ((x + y) % 2 ^ w.width, 0#6) else addF w.fmtN x y (rndOf w.rnd.toNat 0)

/-- VRMAX (10_vector.md R312). -/
def execVrmax (w : VWord) (s : State) : Host.Outcome State Fault Refusal :=
  vReduce s (.vrmax w) w (if isInt w.fmtN then intBits w.width (intMin w.fmtN) else infBits w.fmtN true)
    fun x y => minMax w.fmtN true x y

/-- VRMIN (10_vector.md R312). -/
def execVrmin (w : VWord) (s : State) : Host.Outcome State Fault Refusal :=
  vReduce s (.vrmin w) w (if isInt w.fmtN then intBits w.width (intMax w.fmtN) else infBits w.fmtN false)
    fun x y => minMax w.fmtN false x y

/-- A word that copies elements of A by their lane (10_vector.md R313). -/
def vCopy (s : State) (op : Instr) (w : VWord) (rb : Lanes) (lat : Nat) (pick : Nat → List Nat → Option Nat) :
    Host.Outcome State Fault Refusal :=
  vMap s op w (vForm w .all rb lat) 0 fun i j _ _ _ =>
    ((match pick j i.b with | some q => i.a.getD q 0 | none => 0), 0#6)

/-- VPERM (10_vector.md R313). -/
def execVperm (w : VWord) (s : State) : Host.Outcome State Fault Refusal :=
  vCopy s (.vperm w) w .active 4 fun j b => some (b.getD j 0 % w.lanes)

/-- VBCAST (10_vector.md R313). -/
def execVbcast (w : VWord) (s : State) : Host.Outcome State Fault Refusal :=
  vCopy s (.vbcast w) w .first 2 fun _ b => some (b.getD 0 0 % w.lanes)

/-- VSLIDE (10_vector.md R313). -/
def execVslide (w : VWord) (s : State) : Host.Outcome State Fault Refusal :=
  vCopy s (.vslide w) w .first 2 fun j b =>
    let k := (j : Int) + (BitVec.ofNat w.width (b.getD 0 0)).toInt
    if 0 ≤ k ∧ k < w.lanes then some k.toNat else none

/-- VIOTA (10_vector.md R313). -/
def execViota (w : VWord) (s : State) : Host.Outcome State Fault Refusal :=
  vPlain s (.viota w) w .none .none 2 fun j _ _ =>
    (if isInt w.fmtN then j else (roundVal w.fmtN (Val.ofInt j) .rne).1, 0#6)

/-! Special functions. -/

/-- A special function of the ladder (10_vector.md R314). -/
def vSpecial (s : State) (op : Instr) (w : VWord) (fn : Special) : Host.Outcome State Fault Refusal :=
  vPlain s op w .active .none 12 fun _ a _ => fn.eval w.fmtN a

/-- VEXP (10_vector.md R314, R315). -/
def execVexp (w : VWord) (s : State) : Host.Outcome State Fault Refusal := vSpecial s (.vexp w) w .exp
/-- VLOG (10_vector.md R314, R315). -/
def execVlog (w : VWord) (s : State) : Host.Outcome State Fault Refusal := vSpecial s (.vlog w) w .log
/-- VSIN (10_vector.md R314, R315). -/
def execVsin (w : VWord) (s : State) : Host.Outcome State Fault Refusal := vSpecial s (.vsin w) w .sin
/-- VCOS (10_vector.md R314, R315). -/
def execVcos (w : VWord) (s : State) : Host.Outcome State Fault Refusal := vSpecial s (.vcos w) w .cos
/-- VTANH (10_vector.md R314, R315). -/
def execVtanh (w : VWord) (s : State) : Host.Outcome State Fault Refusal := vSpecial s (.vtanh w) w .tanh
/-- VSIG (10_vector.md R314, R315). -/
def execVsig (w : VWord) (s : State) : Host.Outcome State Fault Refusal := vSpecial s (.vsig w) w .sig

/-- VRSQ (10_vector.md R314, R315). -/
def execVrsq (w : VWord) (s : State) : Host.Outcome State Fault Refusal :=
  vPlain s (.vrsq w) w .active .none 12 fun _ a _ => rsqrtVal w.fmtN (unpack w.fmtN a)

/-- VRCP (10_vector.md R314, R315). -/
def execVrcp (w : VWord) (s : State) : Host.Outcome State Fault Refusal :=
  vArith s (.vrcp w) w .none false 12 (fun a _ _ => a)
    (fun a _ _ m => divVal w.fmtN (.fin false 1 0) (unpack w.fmtN a) m)

/-- VSQRT (10_vector.md R314, R315). -/
def execVsqrt (w : VWord) (s : State) : Host.Outcome State Fault Refusal :=
  vArith s (.vsqrt w) w .none false 12 (fun a _ _ => a) (fun a _ _ m => sqrtVal w.fmtN (unpack w.fmtN a) m)

/-- VDIV (10_vector.md R314, R315). -/
def execVdiv (w : VWord) (s : State) : Host.Outcome State Fault Refusal :=
  vArith s (.vdiv w) w .active false 12 (fun a _ _ => a)
    (fun a b _ m => divVal w.fmtN (unpack w.fmtN a) (unpack w.fmtN b) m)

/-! Random bits and memory. -/

/-- The 1,024 bits that VRNG draws (10_vector.md R316). -/
def randomReg (ctr : BitVec 128) (key : BitVec 64) : Nat := joinLanes 32 ((List.range 32).map fun i => draw ctr key i)

/-- VRNG (10_vector.md R316). -/
def execVrng (w : VWord) (s : State) : Host.Outcome State Fault Refusal :=
  settleE .v s (vCompute s (.vrng w) w (vForm w .none .none 4) fun i =>
    { res := lanesOf (randomReg i.ctr i.key) w.width w.lanes, adv := 8 })

/-- A word that moves elements of A to the destination (10_vector.md R317, R318). -/
def vMove (s : State) (op : Instr) (w : VWord) (f : VForm) : Host.Outcome State Fault Refusal :=
  settleE .v s (vCompute s op w { f with mem := true } fun i => { res := i.a })

/-- VLD (10_vector.md R317). -/
def execVld (w : VWord) (s : State) : Host.Outcome State Fault Refusal := vMove s (.vld w) w (vForm w .active .none 6)
/-- VLDS (10_vector.md R317). -/
def execVlds (w : VWord) (s : State) : Host.Outcome State Fault Refusal := vMove s (.vlds w) w (vForm w .active .none 6)
/-- VST (10_vector.md R317). -/
def execVst (w : VWord) (s : State) : Host.Outcome State Fault Refusal := vMove s (.vst w) w (vForm w .active .none 1)
/-- VSTS (10_vector.md R317). -/
def execVsts (w : VWord) (s : State) : Host.Outcome State Fault Refusal := vMove s (.vsts w) w (vForm w .active .none 1)
/-- VGTH (10_vector.md R318). -/
def execVgth (w : VWord) (s : State) : Host.Outcome State Fault Refusal :=
  vMove s (.vgth w) w { vForm w .active .active 8 with idxA := true }
/-- VSCT (10_vector.md R318). -/
def execVsct (w : VWord) (s : State) : Host.Outcome State Fault Refusal :=
  vMove s (.vsct w) w { vForm w .active .active 1 with idxD := true }

/-! Moves to and from the general file. -/

/-- VMOVGS (10_vector.md R319): one lane takes the low bits of a captured register. -/
def execVmovgs (w : VWord) (s : State) : Host.Outcome State Fault Refusal :=
  let f := { vForm w .none .none 2 with rd := true }
  settleE .v s (vCompute s (.vmovgs w) w f fun i =>
    { res := i.d.set (i.k.c2.bits.toNat % f.n) (i.k.c1.bits.toNat % 2 ^ w.width) })

/-- A V word that writes a general register (04_scalar.md R114): cap1 names it. -/
def vToG (s : State) (op : Instr) (w : VWord) (f : VForm) (val : VIn → Nat) : Host.Outcome State Fault Refusal :=
  settleE .v s (vIssue s op w true fun s0 l =>
    let k := capsOf (vDestFields w) l
    (vRead s0 w k f).bind fun r =>
      match r with
      | none => .ok (vStall s0 w f)
      | some i =>
        let s1 := (popsOf s0.me w f).foldl popStrip (s0.modMe fun c => c.wg w.cap1 (GVal.ofNat (val i)))
        .ok (s1.modMe fun c => { c.passWord.engAdvance .v op l with vwait := none }.vTick))

/-- VMOVSG (10_vector.md R319). -/
def execVmovsg (w : VWord) (s : State) : Host.Outcome State Fault Refusal :=
  let f := vForm w .all .none 1
  vToG s (.vmovsg w) w f fun i => i.a.getD (i.k.c2.bits.toNat % f.n) 0

/-- A word on whole predicate registers (10_vector.md R320). -/
def vPred (s : State) (op : Instr) (w : VWord) (rb : Lanes) (g : Nat → Nat → Nat) : Host.Outcome State Fault Refusal :=
  let f : VForm := { n := 128, wd := 1, wa := 1, wb := 1, ra := .all, rb := rb, lat := 1 }
  vMap s op w f 0 fun _ _ a b _ => (g a b, 0#6)

/-- PAND (10_vector.md R320). -/
def execPand (w : VWord) (s : State) : Host.Outcome State Fault Refusal := vPred s (.pand w) w .all fun a b => a * b
/-- POR (10_vector.md R320). -/
def execPor (w : VWord) (s : State) : Host.Outcome State Fault Refusal := vPred s (.por w) w .all fun a b => max a b
/-- PNOT (10_vector.md R320). -/
def execPnot (w : VWord) (s : State) : Host.Outcome State Fault Refusal := vPred s (.pnot w) w .none fun a _ => 1 - a

/-- PCNT (10_vector.md R320): the active lanes whose bit is set. -/
def execPcnt (w : VWord) (s : State) : Host.Outcome State Fault Refusal :=
  let f : VForm := { n := w.lanes, wd := 1, wa := 1, wb := 1, ra := .all, rb := .none, lat := 1 }
  vToG s (.pcnt w) w f fun i => ((i.a.zip i.act).filter fun (x : Nat × Bool) => x.1 == 1 && x.2).length

/-! Scale groups. -/

/-- The shape of VMAXX (10_vector.md R299, R322). -/
def maxxForm (w : VWord) : VForm := vForm w .all .none 1

/-- The contribution of a core to a round (10_vector.md R322, R324). -/
def maxxSend (c : Core) (r : Nat) (w : VWord) (a : List Nat) : Contribution :=
  { core := r, round := BitVec.ofNat 8 (field c.ctl.scgrp 16 8), logn := BitVec.ofNat 3 (field c.ctl.scgrp 0 3),
    tall := c.ctl.scgrp.getLsbD 3, fmt := w.fmt, value := BitVec.ofNat 1024 (joinLanes w.width a) }

/-- VMAXX (10_vector.md R322): a copy where the group is not in use; else the contribution goes to the group and the
walker waits for the release. -/
def execVmaxx (w : VWord) (s : State) : Host.Outcome State Fault Refusal :=
  let f := maxxForm w
  settleE .v s (vIssue s (.vmaxx w) w w.bumps fun s0 l =>
    let k := capsOf (vFields w) l
    (vRead s0 w k f).bind fun r =>
      match r with
      | none => .ok (vStall s0 w f)
      | some i =>
        let c := s0.me
        if c.ctl.scgrp.getLsbD 31 = false then vFinish s0 (.vmaxx w) w k l f { res := i.a }
        else
          let x := maxxSend c s0.rank w i.a
          let m : MaxxWait := { op := .vmaxx w, caps := l, round := x.round, waited := 0 }
          .ok ({ s0 with maxx := s0.maxx ++ [x] }.modMe fun c =>
            { c.modCtl fun q => { q with scgrp := setField q.scgrp 16 8 (field q.scgrp 16 8 + 1) } with maxx := some m }))

/-- The members of a contribution's rectangle (10_vector.md R321, R324). -/
def Contribution.members (x : Contribution) : List Nat := (groupRect x.core (groupShape x.logn.toNat x.tall)).map (·.1)

/-- Whether two contributions name one rectangle in one round. -/
def Contribution.same (x y : Contribution) : Bool :=
  x.round == y.round && x.logn == y.logn && x.tall == y.tall && x.members.contains y.core

/-- Whether two contributions to one round disagree: their rectangles overlap and their shapes differ (10_vector.md
R324). -/
def Contribution.clash (x y : Contribution) : Bool :=
  x.round == y.round && (x.logn != y.logn || x.tall != y.tall) && x.members.any fun r => y.members.contains r

/-- What a VMAXX of format f answers when the members disagree (10_vector.md R322). -/
def maxxBad (f : Nat) : Nat := if isIeee f then canonNan f else intBits (fmtBits f) (intMin f)

/-- Whether a contribution is to the rectangle and round of a disagreement. -/
def Mismatch.covers (b : Mismatch) (x : Contribution) : Bool :=
  x.same { core := b.core, round := b.round, logn := b.logn, tall := b.tall, fmt := x.fmt, value := x.value }

/-- Whether a contribution is to the rectangle and round of a disagreement, or disagrees with its shape. -/
def Mismatch.meets (b : Mismatch) (x : Contribution) : Bool :=
  let y : Contribution := { core := b.core, round := b.round, logn := b.logn, tall := b.tall, fmt := x.fmt, value := x.value }
  x.same y || x.clash y

/-- The contributions of a list that share a rectangle or disagree with one of some, and so on from those, in n rounds. -/
def maxxTied (l : List Contribution) : Nat → List Contribution → List Contribution
  | 0, a => a
  | n + 1, a => maxxTied l n (l.filter fun y => a.any fun x => x.same y || x.clash y)

/-- The outcome of a core's round, if it is decided: the contributions it concerns, and whether their shapes disagree
(10_vector.md R324), with one another or with those of rectangles that have disagreed in their round. -/
def maxxDecided (s : State) (x : Contribution) : Option (List Contribution × Bool) :=
  let tied := maxxTied s.maxx (s.maxx.length + 1) [x]
  if tied.any fun y => tied.any y.clash || s.maxxBad.any (·.meets y) then some (tied, true)
  else if x.members.all fun r => tied.any fun y => y.core == r then some (tied, false)
  else none

/-- A member of a rectangle whose shapes disagreed has its answer; the disagreement is over when every member has
(10_vector.md R324; log entry 84). -/
def noteMismatch (l : List Mismatch) (x : Contribution) : List Mismatch :=
  let here := l.filter (·.covers x)
  let b : Mismatch := (here.head?).getD { core := x.core, logn := x.logn, tall := x.tall, round := x.round, done := [] }
  let done := if b.done.contains x.core then b.done else b.done ++ [x.core]
  let rest := l.filter fun y => !y.covers x
  if x.members.all done.contains then rest else rest ++ [{ b with done := done }]

/-- The element-wise maximum of a group's contributions of one format (10_vector.md R322). -/
def maxxMax (f : Nat) (l : List Contribution) : List Nat × BitVec 6 :=
  let w := fmtBits f
  let n := 1024 / w
  match l with
  | [] => ([], 0#6)
  | x :: t =>
    t.foldl (fun acc y =>
      let r := (acc.1.zip (lanesOf y.value.toNat w n)).map fun (q : Nat × Nat) => minMax f true q.1 q.2
      (r.map (·.1), r.foldl (fun a q => a ||| q.2) acc.2)) (lanesOf x.value.toNat w n, 0#6)

/-- A step at another core. -/
def atCore (s : State) (r : Nat) (f : State → State) : State := { f { s with rank := r } with rank := s.rank }

/-- The VMAXX that a core waits for completes with its elements (10_vector.md R322, R323); a flag that is enabled
traps. -/
def maxxFinish (s : State) (o : VOut) (clearEn : Bool) : State :=
  match s.me.maxx with
  | some { op := .vmaxx w, caps := l, .. } =>
    let s1 := s.modMe fun c =>
      let c1 := { c with maxx := none }
      if clearEn then c1.modCtl fun q => { q with scgrp := setField q.scgrp 31 1 0 } else c1
    match vFinish s1 (.vmaxx w) w (capsOf (vFields w) l) l (maxxForm w) o with
    | .ok t => t
    | .trap t s2 => takeTrap s2 s2.rank t
    | .hold _ s2 => s2
  | _ => s

/-- VMAXX_RELEASE (10_vector.md R322, R324): the round of the core is decided, and every word that waits in it
completes. -/
def execVmaxxRelease (s : State) : Host.Outcome State Fault Refusal :=
  .next (match s.maxx.find? (fun (x : Contribution) => x.core == s.rank && (s.me.maxx.map (·.round)) == some x.round) with
    | none => s
    | some x =>
      match maxxDecided s x with
      | none => s
      | some (l, bad) =>
        let differ : Bool := l.any fun y => y.fmt != x.fmt
        let s1 : State :=
          { s with maxx := s.maxx.filter fun y => !l.contains y, maxxBad := if bad then l.foldl noteMismatch s.maxxBad else s.maxxBad }
        l.foldl (fun t (y : Contribution) =>
          let f := y.fmt.toNat
          let o : VOut :=
            if bad || differ then { res := List.replicate (1024 / fmtBits f) (maxxBad f), flags := fNV }
            else let m := maxxMax f l; { res := m.1, flags := m.2 }
          atCore t y.core fun u =>
            if u.me.maxx.map (·.round) = some y.round then maxxFinish u o bad else u) s1)

/-- Whether a core's count against the watchdog pauses (10_vector.md R323): a member serves a trap, has its rank in
transit, or belongs to a swapped-out partition. -/
def maxxPaused (s : State) (r : Nat) : Bool :=
  let c := s.coreAt r
  (groupRect r (groupShape (field c.ctl.scgrp 0 3) (c.ctl.scgrp.getLsbD 3))).any fun m =>
    let q := s.coreAt m.1
    q.depth != 0 || rankMoves (s.rankAt (ifaceOf r) m.1) || (match s.part? q.pid with | some p => !p.resident | none => false)

/-- VMAXX_WATCHDOG_EXPIRY (10_vector.md R323): the word fails with machine check, its destination unwritten and EN
cleared. -/
def execVmaxxWatchdogExpiry (s : State) : Host.Outcome State Fault Refusal :=
  let c := s.me
  .next (match c.maxx with
    | some m =>
      if c.ctl.grpwd.toNat ≤ m.waited ∧ maxxPaused s s.rank = false then
        let s1 : State := { s with maxx := s.maxx.filter fun (y : Contribution) => !(y.core == s.rank && y.round == m.round) }
        let s2 := s1.modMe fun c =>
          { c.modCtl fun q => { q with scgrp := setField q.scgrp 31 1 0 } with maxx := none }
        takeTrap s2 s.rank (mkTrap .v 0x0D 0#64)
      else s
    | none => s)

end Sys2Proof.Machine
end

