-- ==== Sys2Proof/Machine/Dispatch.lean ====
section
/-! DEFINITION. The dispatch: one arm per constructor of `Instr`, each a direct call of its meaning. -/

namespace Sys2Proof.Machine

/-- The meaning of an instruction or step. A word acts at the core `s.rank`, a Kettle word at `s.kid`; a step of the hub,
the host or the module names what it acts on. -/
def exec (i : Instr) (s : State) : Host.Outcome State Fault Refusal :=
  match i with
  | .add d a b => Sys2Proof.Machine.execAdd d a b s
  | .sub d a b => Sys2Proof.Machine.execSub d a b s
  | .mul d a b => Sys2Proof.Machine.execMul d a b s
  | .mulh d a b => Sys2Proof.Machine.execMulh d a b s
  | .div d a b => Sys2Proof.Machine.execDiv d a b s
  | .rem d a b => Sys2Proof.Machine.execRem d a b s
  | .and d a b => Sys2Proof.Machine.execAnd d a b s
  | .or d a b => Sys2Proof.Machine.execOr d a b s
  | .xor d a b => Sys2Proof.Machine.execXor d a b s
  | .sll d a b => Sys2Proof.Machine.execSll d a b s
  | .srl d a b => Sys2Proof.Machine.execSrl d a b s
  | .sra d a b => Sys2Proof.Machine.execSra d a b s
  | .slt d a b => Sys2Proof.Machine.execSlt d a b s
  | .sltu d a b => Sys2Proof.Machine.execSltu d a b s
  | .min d a b => Sys2Proof.Machine.execMin d a b s
  | .max d a b => Sys2Proof.Machine.execMax d a b s
  | .clz d a => Sys2Proof.Machine.execClz d a s
  | .popc d a => Sys2Proof.Machine.execPopc d a s
  | .mov d a => Sys2Proof.Machine.execMov d a s
  | .addi d a imm => Sys2Proof.Machine.execAddi d a imm s
  | .andi d a imm => Sys2Proof.Machine.execAndi d a imm s
  | .ori d a imm => Sys2Proof.Machine.execOri d a imm s
  | .xori d a imm => Sys2Proof.Machine.execXori d a imm s
  | .slli d a sh => Sys2Proof.Machine.execSlli d a sh s
  | .srli d a sh => Sys2Proof.Machine.execSrli d a sh s
  | .srai d a sh => Sys2Proof.Machine.execSrai d a sh s
  | .lih d imm => Sys2Proof.Machine.execLih d imm s
  | .widf d a n => Sys2Proof.Machine.execWidf d a n s
  | .capBnd d a b => Sys2Proof.Machine.execCapBnd d a b s
  | .capPerm d a b => Sys2Proof.Machine.execCapPerm d a b s
  | .capInc d a b => Sys2Proof.Machine.execCapInc d a b s
  | .capSeal d a b => Sys2Proof.Machine.execCapSeal d a b s
  | .capMov d a => Sys2Proof.Machine.execCapMov d a s
  | .capClr d a => Sys2Proof.Machine.execCapClr d a s
  | .capGet d a sel => Sys2Proof.Machine.execCapGet d a sel s
  | .beq a b off => Sys2Proof.Machine.execBeq a b off s
  | .bne a b off => Sys2Proof.Machine.execBne a b off s
  | .blt a b off => Sys2Proof.Machine.execBlt a b off s
  | .bge a b off => Sys2Proof.Machine.execBge a b off s
  | .bltu a b off => Sys2Proof.Machine.execBltu a b off s
  | .bgeu a b off => Sys2Proof.Machine.execBgeu a b off s
  | .jal d off => Sys2Proof.Machine.execJal d off s
  | .jalr d a off => Sys2Proof.Machine.execJalr d a off s
  | .nest e a words levels => Sys2Proof.Machine.execNest e a words levels s
  | .safept idx => Sys2Proof.Machine.execSafept idx s
  | .syncw mask => Sys2Proof.Machine.execSyncw mask s
  | .mfc d idx => Sys2Proof.Machine.execMfc d idx s
  | .mtc src idx => Sys2Proof.Machine.execMtc src idx s
  | .mset src idx => Sys2Proof.Machine.execMset src idx s
  | .mclr src idx => Sys2Proof.Machine.execMclr src idx s
  | .ldB d a off => Sys2Proof.Machine.execLdB d a off s
  | .ldH d a off => Sys2Proof.Machine.execLdH d a off s
  | .ldW d a off => Sys2Proof.Machine.execLdW d a off s
  | .ldD d a off => Sys2Proof.Machine.execLdD d a off s
  | .ldQ d a off => Sys2Proof.Machine.execLdQ d a off s
  | .stB d a off => Sys2Proof.Machine.execStB d a off s
  | .stH d a off => Sys2Proof.Machine.execStH d a off s
  | .stW d a off => Sys2Proof.Machine.execStW d a off s
  | .stD d a off => Sys2Proof.Machine.execStD d a off s
  | .stQ d a off => Sys2Proof.Machine.execStQ d a off s
  | .ldloc width upd d a inc => Sys2Proof.Machine.execLdloc width upd d a inc s
  | .stloc width upd d a inc => Sys2Proof.Machine.execStloc width upd d a inc s
  | .pref lvl a off => Sys2Proof.Machine.execPref lvl a off s
  | .clwb a off => Sys2Proof.Machine.execClwb a off s
  | .clinv a off => Sys2Proof.Machine.execClinv a off s
  | .clinvI a off => Sys2Proof.Machine.execClinvI a off s
  | .fence scope => Sys2Proof.Machine.execFence scope s
  | .ldacq width scope d a => Sys2Proof.Machine.execLdacq width scope d a s
  | .strel width scope d a => Sys2Proof.Machine.execStrel width scope d a s
  | .amoAdd ord scope d a b => Sys2Proof.Machine.execAmoAdd ord scope d a b s
  | .amoAnd ord scope d a b => Sys2Proof.Machine.execAmoAnd ord scope d a b s
  | .amoOr ord scope d a b => Sys2Proof.Machine.execAmoOr ord scope d a b s
  | .amoXor ord scope d a b => Sys2Proof.Machine.execAmoXor ord scope d a b s
  | .amoMin ord scope d a b => Sys2Proof.Machine.execAmoMin ord scope d a b s
  | .amoMax ord scope d a b => Sys2Proof.Machine.execAmoMax ord scope d a b s
  | .amoSwp ord scope d a b => Sys2Proof.Machine.execAmoSwp ord scope d a b s
  | .amoCas ord scope d a b => Sys2Proof.Machine.execAmoCas ord scope d a b s
  | .take d a off => Sys2Proof.Machine.execTake d a off s
  | .peek d a off => Sys2Proof.Machine.execPeek d a off s
  | .trytake d a off => Sys2Proof.Machine.execTrytake d a off s
  | .putf d a off => Sys2Proof.Machine.execPutf d a off s
  | .putw d a off => Sys2Proof.Machine.execPutw d a off s
  | .empty a off => Sys2Proof.Machine.execEmpty a off s
  | .full a off => Sys2Proof.Machine.execFull a off s
  | .ptest d a off => Sys2Proof.Machine.execPtest d a off s
  | .mbinc a b => Sys2Proof.Machine.execMbinc a b s
  | .mbincRel scope a b => Sys2Proof.Machine.execMbincRel scope a b s
  | .mbwait d a b => Sys2Proof.Machine.execMbwait d a b s
  | .mbrd d a => Sys2Proof.Machine.execMbrd d a s
  | .mbset a b => Sys2Proof.Machine.execMbset a b s
  | .barinit a b => Sys2Proof.Machine.execBarinit a b s
  | .bararv d a => Sys2Proof.Machine.execBararv d a s
  | .barwait a b => Sys2Proof.Machine.execBarwait a b s
  | .bartest d a => Sys2Proof.Machine.execBartest d a s
  | .bartwait d a b => Sys2Proof.Machine.execBartwait d a b s
  | .barjoin a slot => Sys2Proof.Machine.execBarjoin a slot s
  | .monarm a off => Sys2Proof.Machine.execMonarm a off s
  | .monwait d a => Sys2Proof.Machine.execMonwait d a s
  | .spawn a => Sys2Proof.Machine.execSpawn a s
  | .spawnr a b => Sys2Proof.Machine.execSpawnr a b s
  | .codlt a b => Sys2Proof.Machine.execCodlt a b s
  | .cdec a b => Sys2Proof.Machine.execCdec a b s
  | .amsg n d a b => Sys2Proof.Machine.execAmsg n d a b s
  | .compose tall size d => Sys2Proof.Machine.execCompose tall size d s
  | .gang size d => Sys2Proof.Machine.execGang size d s
  | .pfxl d a b => Sys2Proof.Machine.execPfxl d a b s
  | .pfxi d a b => Sys2Proof.Machine.execPfxi d a b s
  | .pfxdrop a b => Sys2Proof.Machine.execPfxdrop a b s
  | .kvmap d a b => Sys2Proof.Machine.execKvmap d a b s
  | .kvtrnc a b => Sys2Proof.Machine.execKvtrnc a b s
  | .kvpin a b => Sys2Proof.Machine.execKvpin a b s
  | .kvunpin a b => Sys2Proof.Machine.execKvunpin a b s
  | .attg a => Sys2Proof.Machine.execAttg a s
  | .fcall d a b => Sys2Proof.Machine.execFcall d a b s
  | .fwait d a => Sys2Proof.Machine.execFwait d a s
  | .ftest d a => Sys2Proof.Machine.execFtest d a s
  | .fcancel d a => Sys2Proof.Machine.execFcancel d a s
  | .fdone a b => Sys2Proof.Machine.execFdone a b s
  | .rngsv d => Sys2Proof.Machine.execRngsv d s
  | .rngld a => Sys2Proof.Machine.execRngld a s
  | .trap code => Sys2Proof.Machine.execTrap code s
  | .svc imm => Sys2Proof.Machine.execSvc imm s
  | .brk imm => Sys2Proof.Machine.execBrk imm s
  | .rdcyc d => Sys2Proof.Machine.execRdcyc d s
  | .rdptp d => Sys2Proof.Machine.execRdptp d s
  | .psave a => Sys2Proof.Machine.execPsave a s
  | .prest a => Sys2Proof.Machine.execPrest a s
  | .tlbfl scope a b => Sys2Proof.Machine.execTlbfl scope a b s
  | .fqtake d a => Sys2Proof.Machine.execFqtake d a s
  | .fqdone a b => Sys2Proof.Machine.execFqdone a b s
  | .ctxkill a => Sys2Proof.Machine.execCtxkill a s
  | .capgrant d a b => Sys2Proof.Machine.execCapgrant d a b s
  | .vadd w => Sys2Proof.Machine.execVadd w s
  | .vsub w => Sys2Proof.Machine.execVsub w s
  | .vmul w => Sys2Proof.Machine.execVmul w s
  | .vfma w => Sys2Proof.Machine.execVfma w s
  | .vfms w => Sys2Proof.Machine.execVfms w s
  | .vfnma w => Sys2Proof.Machine.execVfnma w s
  | .vmin w => Sys2Proof.Machine.execVmin w s
  | .vmax w => Sys2Proof.Machine.execVmax w s
  | .vabs w => Sys2Proof.Machine.execVabs w s
  | .vneg w => Sys2Proof.Machine.execVneg w s
  | .vcmp w => Sys2Proof.Machine.execVcmp w s
  | .vsel w => Sys2Proof.Machine.execVsel w s
  | .vand w => Sys2Proof.Machine.execVand w s
  | .vor w => Sys2Proof.Machine.execVor w s
  | .vxor w => Sys2Proof.Machine.execVxor w s
  | .vnot w => Sys2Proof.Machine.execVnot w s
  | .vshl w => Sys2Proof.Machine.execVshl w s
  | .vshr w => Sys2Proof.Machine.execVshr w s
  | .vsra w => Sys2Proof.Machine.execVsra w s
  | .vcvt w => Sys2Proof.Machine.execVcvt w s
  | .vqnt w => Sys2Proof.Machine.execVqnt w s
  | .vdqnt w => Sys2Proof.Machine.execVdqnt w s
  | .vmaxx w => Sys2Proof.Machine.execVmaxx w s
  | .vsum w => Sys2Proof.Machine.execVsum w s
  | .vrmax w => Sys2Proof.Machine.execVrmax w s
  | .vrmin w => Sys2Proof.Machine.execVrmin w s
  | .vperm w => Sys2Proof.Machine.execVperm w s
  | .vbcast w => Sys2Proof.Machine.execVbcast w s
  | .vslide w => Sys2Proof.Machine.execVslide w s
  | .viota w => Sys2Proof.Machine.execViota w s
  | .vexp w => Sys2Proof.Machine.execVexp w s
  | .vlog w => Sys2Proof.Machine.execVlog w s
  | .vrcp w => Sys2Proof.Machine.execVrcp w s
  | .vrsq w => Sys2Proof.Machine.execVrsq w s
  | .vsqrt w => Sys2Proof.Machine.execVsqrt w s
  | .vdiv w => Sys2Proof.Machine.execVdiv w s
  | .vsin w => Sys2Proof.Machine.execVsin w s
  | .vcos w => Sys2Proof.Machine.execVcos w s
  | .vtanh w => Sys2Proof.Machine.execVtanh w s
  | .vsig w => Sys2Proof.Machine.execVsig w s
  | .vrng w => Sys2Proof.Machine.execVrng w s
  | .vld w => Sys2Proof.Machine.execVld w s
  | .vlds w => Sys2Proof.Machine.execVlds w s
  | .vst w => Sys2Proof.Machine.execVst w s
  | .vsts w => Sys2Proof.Machine.execVsts w s
  | .vgth w => Sys2Proof.Machine.execVgth w s
  | .vsct w => Sys2Proof.Machine.execVsct w s
  | .vmovgs w => Sys2Proof.Machine.execVmovgs w s
  | .vmovsg w => Sys2Proof.Machine.execVmovsg w s
  | .pand w => Sys2Proof.Machine.execPand w s
  | .por w => Sys2Proof.Machine.execPor w s
  | .pnot w => Sys2Proof.Machine.execPnot w s
  | .pcnt w => Sys2Proof.Machine.execPcnt w s
  | .tcfg w => Sys2Proof.Machine.execTcfg w s
  | .tld w => Sys2Proof.Machine.execTld w s
  | .tst w => Sys2Proof.Machine.execTst w s
  | .tzero w => Sys2Proof.Machine.execTzero w s
  | .ttr w => Sys2Proof.Machine.execTtr w s
  | .mma w => Sys2Proof.Machine.execMma w s
  | .mmam w => Sys2Proof.Machine.execMmam w s
  | .accld w => Sys2Proof.Machine.execAccld w s
  | .accst w => Sys2Proof.Machine.execAccst w s
  | .acccvt w => Sys2Proof.Machine.execAcccvt w s
  | .ngo w => Sys2Proof.Machine.execNgo w s
  | .nwait w => Sys2Proof.Machine.execNwait w s
  | .dcpy w => Sys2Proof.Machine.execDcpy w s
  | .dredAdd w => Sys2Proof.Machine.execDredAdd w s
  | .dredMax w => Sys2Proof.Machine.execDredMax w s
  | .dredMin w => Sys2Proof.Machine.execDredMin w s
  | .dgth w => Sys2Proof.Machine.execDgth w s
  | .dsct w => Sys2Proof.Machine.execDsct w s
  | .dgetMb w => Sys2Proof.Machine.execDgetMb w s
  | .dgetEv w => Sys2Proof.Machine.execDgetEv w s
  | .dput w => Sys2Proof.Machine.execDput w s
  | .dputF w => Sys2Proof.Machine.execDputF w s
  | .dstrm w => Sys2Proof.Machine.execDstrm w s
  | .dunb w => Sys2Proof.Machine.execDunb w s
  | .dshd w => Sys2Proof.Machine.execDshd w s
  | .dpub w => Sys2Proof.Machine.execDpub w s
  | .dstamp w => Sys2Proof.Machine.execDstamp w s
  | .dwaitAll w => Sys2Proof.Machine.execDwaitAll w s
  | .dwaitTok w => Sys2Proof.Machine.execDwaitTok w s
  | .dsig w => Sys2Proof.Machine.execDsig w s
  | .kvwr w => Sys2Proof.Machine.execKvwr w s
  | .ktTake rd rs => Sys2Proof.Machine.execKtTake rd rs s
  | .ktMark rd rs => Sys2Proof.Machine.execKtMark rd rs s
  | .kettleCompletionSwap entry value rd => Sys2Proof.Machine.execKettleCompletionSwap entry value rd s
  | .branchOutcomeConsume e => Sys2Proof.Machine.execBranchOutcomeConsume e s
  | .nestReplayIteration e => Sys2Proof.Machine.execNestReplayIteration e s
  | .trapEntry t => Sys2Proof.Machine.execTrapEntry t s
  | .interruptTake walk => Sys2Proof.Machine.execInterruptTake walk s
  | .postedStoreArrive w => Sys2Proof.Machine.execPostedStoreArrive w s
  | .remoteAccessArrive r => Sys2Proof.Machine.execRemoteAccessArrive r s
  | .taggedArrival arr => Sys2Proof.Machine.execTaggedArrival arr s
  | .mailboxIncrementArrive idx amount => Sys2Proof.Machine.execMailboxIncrementArrive idx amount s
  | .stealProbe victim => Sys2Proof.Machine.execStealProbe victim s
  | .stealServe thief => Sys2Proof.Machine.execStealServe thief s
  | .stealRecordsArrive recs => Sys2Proof.Machine.execStealRecordsArrive recs s
  | .remotePushArrive src r => Sys2Proof.Machine.execRemotePushArrive src r s
  | .codltApply off r => Sys2Proof.Machine.execCodltApply off r s
  | .cdecApply off n => Sys2Proof.Machine.execCdecApply off n s
  | .amsgArrive m => Sys2Proof.Machine.execAmsgArrive m s
  | .amsgRefusalArrive seq why => Sys2Proof.Machine.execAmsgRefusalArrive seq why s
  | .streamStripFetch reg => Sys2Proof.Machine.execStreamStripFetch reg s
  | .streamStripReturn reg => Sys2Proof.Machine.execStreamStripReturn reg s
  | .dCommandComplete idx => Sys2Proof.Machine.execDCommandComplete idx s
  | .reductionUnitApply idx => Sys2Proof.Machine.execReductionUnitApply idx s
  | .reductionEndNotice id => Sys2Proof.Machine.execReductionEndNotice id s
  | .futureTimeout entry => Sys2Proof.Machine.execFutureTimeout entry s
  | .fellPropose pid tree => Sys2Proof.Machine.execFellPropose pid tree s
  | .fellDeadlineExpiry entry => Sys2Proof.Machine.execFellDeadlineExpiry entry s
  | .lpbk => Sys2Proof.Machine.execLpbk s
  | .barexit => Sys2Proof.Machine.execBarexit s
  | .yield => Sys2Proof.Machine.execYield s
  | .exit => Sys2Proof.Machine.execExit s
  | .split => Sys2Proof.Machine.execSplit s
  | .disband => Sys2Proof.Machine.execDisband s
  | .eret => Sys2Proof.Machine.execEret s
  | .halt => Sys2Proof.Machine.execHalt s
  | .blaze => Sys2Proof.Machine.execBlaze s
  | .kettleTestedAccess acc => Sys2Proof.Machine.execKettleTestedAccess acc s
  | .sWalkerPassWord => Sys2Proof.Machine.execSWalkerPassWord s
  | .sLoadReturn n mix => Sys2Proof.Machine.execSLoadReturn n mix s
  | .pageWalkComplete e => Sys2Proof.Machine.execPageWalkComplete e s
  | .cycleCompareMatch => Sys2Proof.Machine.execCycleCompareMatch s
  | .safePointOverrun => Sys2Proof.Machine.execSafePointOverrun s
  | .ownershipFlipRequest pid va host => Sys2Proof.Machine.execOwnershipFlipRequest pid va host s
  | .ownershipFlipComplete => Sys2Proof.Machine.execOwnershipFlipComplete s
  | .ownershipStallTimeout => Sys2Proof.Machine.execOwnershipStallTimeout s
  | .heldArrivalOverrun => Sys2Proof.Machine.execHeldArrivalOverrun s
  | .presenceWaitResend => Sys2Proof.Machine.execPresenceWaitResend s
  | .bartwaitTimeout => Sys2Proof.Machine.execBartwaitTimeout s
  | .monwaitWake key n => Sys2Proof.Machine.execMonwaitWake key n s
  | .monwaitTimeout => Sys2Proof.Machine.execMonwaitTimeout s
  | .taskStart => Sys2Proof.Machine.execTaskStart s
  | .remotePushResend => Sys2Proof.Machine.execRemotePushResend s
  | .parkTimeout => Sys2Proof.Machine.execParkTimeout s
  | .gangSliceInstant pid => Sys2Proof.Machine.execGangSliceInstant pid s
  | .partitionSwap out inn => Sys2Proof.Machine.execPartitionSwap out inn s
  | .groupWatchdogExpiry => Sys2Proof.Machine.execGroupWatchdogExpiry s
  | .vmaxxRelease => Sys2Proof.Machine.execVmaxxRelease s
  | .vmaxxWatchdogExpiry => Sys2Proof.Machine.execVmaxxWatchdogExpiry s
  | .mWordStart => Sys2Proof.Machine.execMWordStart s
  | .mWordComplete n => Sys2Proof.Machine.execMWordComplete n s
  | .mNestIteration => Sys2Proof.Machine.execMNestIteration s
  | .dCommandStart => Sys2Proof.Machine.execDCommandStart s
  | .reductionResend => Sys2Proof.Machine.execReductionResend s
  | .injectGranule => Sys2Proof.Machine.execInjectGranule s
  | .remoteCompletion m => Sys2Proof.Machine.execRemoteCompletion m s
  | .kvPrefetchServe => Sys2Proof.Machine.execKvPrefetchServe s
  | .fellExecute => Sys2Proof.Machine.execFellExecute s
  | .fellactConfirm entry => Sys2Proof.Machine.execFellactConfirm entry s
  | .fellactVeto entry => Sys2Proof.Machine.execFellactVeto entry s
  | .fellactMoveFront entry => Sys2Proof.Machine.execFellactMoveFront entry s
  | .rankTableWrite iface rank v => Sys2Proof.Machine.execRankTableWrite iface rank v s
  | .dbgctlHaltreq => Sys2Proof.Machine.execDbgctlHaltreq s
  | .dbgctlResume => Sys2Proof.Machine.execDbgctlResume s
  | .dbgctlStep => Sys2Proof.Machine.execDbgctlStep s
  | .debugStepDone => Sys2Proof.Machine.execDebugStepDone s
  | .debugViewWrite off v => Sys2Proof.Machine.execDebugViewWrite off v s
  | .doorbellWrite => Sys2Proof.Machine.execDoorbellWrite s
  | .coreResumeWrite => Sys2Proof.Machine.execCoreResumeWrite s
  | .ctxSuspend ctx => Sys2Proof.Machine.execCtxSuspend ctx s
  | .ctxResume ctx => Sys2Proof.Machine.execCtxResume ctx s
  | .ctxBeginTeardown ctx => Sys2Proof.Machine.execCtxBeginTeardown ctx s
  | .toolRingWrite ring v => Sys2Proof.Machine.execToolRingWrite ring v s
  | .fqringWrite v => Sys2Proof.Machine.execFqringWrite v s
  | .ppringWrite v => Sys2Proof.Machine.execPpringWrite v s
  | .ppputWrite v => Sys2Proof.Machine.execPpputWrite v s
  | .pptakeRead d => Sys2Proof.Machine.execPptakeRead d s
  | .hostQueuePost v => Sys2Proof.Machine.execHostQueuePost v s
  | .sqcfgWrite v => Sys2Proof.Machine.execSqcfgWrite v s
  | .sqTailWrite v => Sys2Proof.Machine.execSqTailWrite v s
  | .storageRequestComplete idx data err => Sys2Proof.Machine.execStorageRequestComplete idx data err s
  | .extentGrantInstall slot g verified => Sys2Proof.Machine.execExtentGrantInstall slot g verified s
  | .attestationRequest nonce => Sys2Proof.Machine.execAttestationRequest nonce s
  | .ldrdbWrite v => Sys2Proof.Machine.execLdrdbWrite v s
  | .loaderEntry key => Sys2Proof.Machine.execLoaderEntry key s
  | .hostdbWrite core => Sys2Proof.Machine.execHostdbWrite core s
  | .blztrigWrite => Sys2Proof.Machine.execBlztrigWrite s
  | .blzctlUnlock => Sys2Proof.Machine.execBlzctlUnlock s
  | .blazePinTrigger => Sys2Proof.Machine.execBlazePinTrigger s
  | .blazeTimeTrigger => Sys2Proof.Machine.execBlazeTimeTrigger s
  | .blazeLatch => Sys2Proof.Machine.execBlazeLatch s
  | .powerOnBringUp b => Sys2Proof.Machine.execPowerOnBringUp b s
  | .junctionThrottle region => Sys2Proof.Machine.execJunctionThrottle region s
  | .clockStepRestore region => Sys2Proof.Machine.execClockStepRestore region s
  | .thermalTrip => Sys2Proof.Machine.execThermalTrip s
  | .lowFlowTrip => Sys2Proof.Machine.execLowFlowTrip s
  | .inputDisconnect => Sys2Proof.Machine.execInputDisconnect s
  | .overvoltageEvent => Sys2Proof.Machine.execOvervoltageEvent s
  | .coolantEvent => Sys2Proof.Machine.execCoolantEvent s
  | .slackThrottle cluster slack => Sys2Proof.Machine.execSlackThrottle cluster slack s
  | .marginReplan cluster millivolt => Sys2Proof.Machine.execMarginReplan cluster millivolt s
  | .linkFlitRetry plane seq => Sys2Proof.Machine.execLinkFlitRetry plane seq s
  | .planeOutOfService plane => Sys2Proof.Machine.execPlaneOutOfService plane s
  | .uePacketArrival p => Sys2Proof.Machine.execUePacketArrival p s
  | .slipwWrite v => Sys2Proof.Machine.execSlipwWrite v s
  | .cwwinWrite v => Sys2Proof.Machine.execCwwinWrite v s
  | .scgrpWrite v => Sys2Proof.Machine.execScgrpWrite v s
  | .mxcfgWrite v => Sys2Proof.Machine.execMxcfgWrite v s
  | .kvdirWrite v => Sys2Proof.Machine.execKvdirWrite v s
  | .intpendClear v => Sys2Proof.Machine.execIntpendClear v s
  | .registerWrite idx v => Sys2Proof.Machine.execRegisterWrite idx v s
  | .timeServoLockLoss => Sys2Proof.Machine.execTimeServoLockLoss s
  | .timeServoLockRegain ps => Sys2Proof.Machine.execTimeServoLockRegain ps s
  | .partitionUnbind pid => Sys2Proof.Machine.execPartitionUnbind pid s
  | .shadowReservationChange die ways => Sys2Proof.Machine.execShadowReservationChange die ways s
  | .spareCoreReplacement prow pcol => Sys2Proof.Machine.execSpareCoreReplacement prow pcol s
  | .moduleReset => Sys2Proof.Machine.execModuleReset s
  | .hostCoherentAccess addr store n => Sys2Proof.Machine.execHostCoherentAccess addr store n s
  | .storeBufferPerform n => Sys2Proof.Machine.execStoreBufferPerform n s

end Sys2Proof.Machine
end

