-- ==== Sys2Proof/Machine/Run.lean ====
section
/-! DEFINITION. How the machine goes on: time, the walkers of a core, the interface of the cores, the hub, the network,
and the choices that `step` takes from the agenda (04_scalar.md R112 to R118, R122; 15_system.md R427 to R430, R436, R451;
log entries 3, 4 and 5). -/

namespace Sys2Proof.Machine

/-! Outcomes. -/

/-- What follows a next state. -/
def andThen (x : Host.Outcome State Fault Refusal) (f : State → State) : Host.Outcome State Fault Refusal :=
  match x with
  | .next t => .next (f t)
  | .fault e => .fault e
  | .refused e => .refused e

/-- A step given to one core; the core whose turn it is stays. -/
def atRank (s : State) (r : Nat) (f : State → Host.Outcome State Fault Refusal) : Host.Outcome State Fault Refusal :=
  andThen (f { s with rank := r }) fun t => { t with rank := s.rank }

/-! Time. -/

/-- Whether a hold is a stall on a page or a rank in transit (05_memory.md R155, 06_ordering.md R206). -/
def Hold.transit : Hold → Bool
  | .ownTransit _ => true
  | .rankTransit => true
  | _ => false

/-- Whether the S walker waits for the other engines. -/
def Core.waitsEngines (c : Core) : Bool := match c.hold with | some (.engines, _) => true | _ => false

/-- Whether a core stalls on a page or a rank in transit: its S walker does, or waits for an engine that does. -/
def Core.inStall (c : Core) : Bool :=
  (match c.hold with | some (h, _) => h.transit | none => false) || (c.waitsEngines && c.stalls.any fun x => x.2.1.transit)

/-- Whether the S walker waits for the other engines while a V word waits for a channel, which counts as blocked
(10_vector.md R302). -/
def Core.vBlocked (c : Core) : Bool := c.vwait.isSome && c.waitsEngines

/-- Whether a cycle counts in SPDIST.COUNT (04_scalar.md R126). -/
def Core.counts (c : Core) : Bool := c.runs && c.depth == 0 && c.blocked.isNone && !c.inStall && !c.vBlocked

/-- Whether a member does not answer for a reason that pauses the watchdog (09_compose.md R285). -/
def Core.excused (c : Core) : Bool := c.blocked.isSome || c.inStall || c.vBlocked || c.pendTrap.isSome

/-- The S walker in the loop of NEST.s (04_scalar.md R122): where it stands in the body, which holds S words alone; after
the last word of the last iteration the loop is over. -/
def Core.nestAt (c : Core) : Core :=
  match c.nestS with
  | none => c
  | some n =>
    let p := (c.pc - ((n.body.head?).map (·.pc)).getD c.pc).toNat / 4
    if n.words ≤ p ∧ (nextIndex n.desc n.index 0).isNone then { c with nestS := none }
    else { c with nestS := some { n with pos := p } }

/-- The place of an iteration among those of its nest, the innermost level first. -/
def iterPlace (l : List Nat) : Nat := l.foldr (fun i a => a * 2 ^ 32 + i) 0

/-- Whether the S walker of a core has stepped further along a gang's text than another's (09_compose.md R280). -/
def Core.ahead (a b : Core) : Bool :=
  let far : Bool := decide (0 < (a.posS - b.posS).toInt)
  match a.nestAt.nestS, b.nestAt.nestS with
  | some m, some n => decide (iterPlace n.index < iterPlace m.index) || (m.index == n.index && far)
  | _, _ => far

/-- The members of a group that owe its leader an answer: the followers of a gang that stand behind the leader, else the leader
itself (09_compose.md R285). -/
def lateMembers (s : State) (c : Core) : List Core :=
  match c.group with
  | .gangLead ms => let l := (ms.map s.coreAt).filter fun m => c.ahead m; if l.isEmpty then [c] else l
  | .composeLead _ => [c]
  | _ => []

/-- The watchdog count of a group's leader after n cycles, with the places of its members' S walkers, any of which that moves is
an answer (09_compose.md R285). -/
def owedAfter (s : State) (n : Nat) (c : Core) : Nat × List (BitVec 32) :=
  match lateMembers s c with
  | [] => (0, [])
  | l =>
    let at_ := match c.group with | .gangLead ms => c.posS :: ms.map fun m => (s.coreAt m).posS | _ => [c.posS]
    (if at_ ≠ c.owedPos then 0 else if l.all Core.excused then c.owed else c.owed + n, at_)

/-- n cycles at one core: SPDIST.COUNT, the wait of a VMAXX, and the group watchdog. -/
def tickCore (s : State) (n r : Nat) (c : Core) : Core :=
  let c1 := if c.counts then
      c.modCtl fun k => { k with spdist := setField k.spdist 16 16 (min 65535 (field k.spdist 16 16 + n)) }
    else c
  let o := owedAfter s n c
  { c1 with
    owed := o.1, owedPos := o.2
    maxx := c.maxx.map fun (m : MaxxWait) => if maxxPaused s r then m else { m with waited := m.waited + n } }

/-- What n cycles take off a difference between the package's time and the servo's: at most a rate of less than a cycle per cycle,
so that the time never steps backward (15_system.md R455, log entry 108). -/
def slewed (d : Int) (n : Nat) : Int :=
  let most : Int := (Config.slewRate % 1063 + 1 : Nat) * n
  max (-most) (min most d)

/-- n cycles pass (01_machine.md R14, 15_system.md R455): 1,064 ps each, and what slews the time onto the servo's. -/
def tick (s : State) (n : Nat) : State :=
  { s with cycle := s.cycle + n
           ptp := if s.slew = 0 then s.ptp + 1064 * n else ((s.ptp : Int) + (1064 * n : Nat) + slewed s.slew n).toNat
           slew := if s.slew = 0 then 0 else s.slew - slewed s.slew n
           cores := s.cores.map fun (e : Nat × Core) => (e.1, tickCore s n e.1 e.2) }

/-- What the cores and their interfaces do in every cycle: a MONWAIT whose limit has passed ends, arrivals that have been held
too long are overruns, and waiters on a barrier whose generation has moved on are served (07_sync.md R216, R232, R235). -/
def housekeep (s : State) : State :=
  let s0 : State := { s with cores := s.cores.map fun (e : Nat × Core) => (e.1, e.2.monLate s.cycle) }
  s.cores.foldl (fun t e =>
    let u := if e.2.held.isEmpty then t else expireHeld t e.1
    if e.2.waitq.isEmpty then u else serveBars e.1 e.2.waitq.length u) s0

/-! The S walker. -/

/-- What an S word loads, stores or synchronises on in the core's own local memory (04_scalar.md R116); a presence word counts
as a read and a write (07_sync.md R224). -/
def sTouches (s : State) : Instr → List Touch
  | .ldB _ a off => at_ a off 1 false
  | .ldH _ a off => at_ a off 2 false
  | .ldW _ a off => at_ a off 4 false
  | .ldD _ a off => at_ a off 8 false
  | .stB _ a off => at_ a off 1 true
  | .stH _ a off => at_ a off 2 true
  | .stW _ a off => at_ a off 4 true
  | .stD _ a off => at_ a off 8 true
  | .stQ _ a off | .putf _ a off | .putw _ a off | .take _ a off | .peek _ a off | .trytake _ a off => at_ a off 16 true
  | .ldQ _ a off => at_ a off 16 false
  | .ptest _ a off | .empty a off | .full a off => granule a off true
  | .ldloc n _ _ a _ | .ldacq n _ _ a => reg a (widthBytes n) false
  | .stloc n _ _ a _ | .strel n _ _ a => reg a (widthBytes n) true
  | .amoAdd _ _ _ a _ | .amoAnd _ _ _ a _ | .amoOr _ _ _ a _ | .amoXor _ _ _ a _ | .amoMin _ _ _ a _ | .amoMax _ _ _ a _
  | .amoSwp _ _ _ a _ | .amoCas _ _ _ a _ => reg a 8 true
  | .nest _ a _ lv => reg a (nestBytes (lv.toNat + 1)) false
  | .barwait a _ | .bartest _ a | .bartwait _ a _ | .spawn a | .spawnr a _ | .attg a | .fcall _ a _ => reg a 64 false
  | .barinit a _ | .bararv _ a | .barjoin a _ | .cdec a _ | .psave a | .prest a => reg a 64 true
  | .codlt a b => reg a 64 true ++ reg b 64 false
  | .fqtake _ a => reg a 32 true
  | .pfxl _ a b =>
    match prefixReq (s.me.rg b).word true with
    | some (_, _, n) => reg a (8 * spans n + chainOff n) true
    | none => []
  | .pfxi _ a b => match prefixReq (s.me.rg b).word false with | some (_, _, n) => reg a (4 * n) false | none => []
  | _ => []
where
  /-- n bytes at a base and an offset. -/
  at_ (a : GIdx) (off : BitVec 11) (n : Nat) (wr : Bool) : List Touch :=
    touchAt s ((s.me.base a).word + off.signExtend 64) n wr
  /-- n bytes at a register's address. -/
  reg (a : GIdx) (n : Nat) (wr : Bool) : List Touch := touchAt s (s.me.base a).word n wr
  /-- The granule at a base and an offset. -/
  granule (a : GIdx) (off : BitVec 11) (wr : Bool) : List Touch :=
    touchAt s (((s.me.base a).word + off.signExtend 64) &&& ~~~63#64) 64 wr

/-- Whether an S word may make its accesses (04_scalar.md R116). It waits behind a PUTF of the core itself that is held, but for
PUTF and PUTW, which are held at the interface behind it (07_sync.md R216, R224). -/
def sMay (s : State) (i : Instr) : Bool :=
  match i with
  | .putf _ _ _ => engClear s .s s.me.posS (sTouches s i)
  | .putw _ _ _ => engClear s .s s.me.posS (sTouches s i)
  | i => admits s .s s.me.posS (sTouches s i)

/-- The registers that an S word reads or writes, whose outstanding loads return before it issues (04_scalar.md R103,
05_memory.md R164). -/
def sRegs : Instr → List GIdx
  | .add d a b | .sub d a b | .mul d a b | .mulh d a b | .div d a b | .rem d a b | .and d a b | .or d a b | .xor d a b
  | .sll d a b | .srl d a b | .sra d a b | .slt d a b | .sltu d a b | .min d a b | .max d a b | .capBnd d a b
  | .capPerm d a b | .capInc d a b | .capSeal d a b | .mbwait d a b | .bartwait d a b | .pfxl d a b | .pfxi d a b
  | .kvmap d a b | .fcall d a b | .capgrant d a b => [d, a, b]
  | .clz d a | .popc d a | .mov d a | .addi d a _ | .andi d a _ | .ori d a _ | .xori d a _ | .slli d a _ | .srli d a _
  | .srai d a _ | .widf d a _ | .capMov d a | .capClr d a | .capGet d a _ | .jalr d a _ | .ldB d a _ | .ldH d a _
  | .ldW d a _ | .ldD d a _ | .ldQ d a _ | .stB d a _ | .stH d a _ | .stW d a _ | .stD d a _ | .stQ d a _
  | .ldloc _ _ d a _ | .stloc _ _ d a _ | .ldacq _ _ d a | .strel _ _ d a | .take d a _ | .peek d a _
  | .putf d a _ | .putw d a _ | .ptest d a _ | .mbrd d a | .bararv d a | .bartest d a | .monwait d a | .fwait d a
  | .ftest d a | .fcancel d a | .fqtake d a => [d, a]
  | .trytake d a _ => [d, d + 1#6, a]
  | .beq a b _ | .bne a b _ | .blt a b _ | .bge a b _ | .bltu a b _ | .bgeu a b _ | .mbinc a b | .mbincRel _ a b
  | .mbset a b | .barinit a b | .barwait a b | .spawnr a b | .codlt a b | .cdec a b | .pfxdrop a b | .kvtrnc a b
  | .kvpin a b | .kvunpin a b | .fdone a b | .tlbfl _ a b | .fqdone a b => [a, b]
  | .amoAdd _ _ d a b | .amoAnd _ _ d a b | .amoOr _ _ d a b | .amoXor _ _ d a b | .amoMin _ _ d a b
  | .amoMax _ _ d a b | .amoSwp _ _ d a b | .amoCas _ _ d a b => [d, a, b]
  | .amsg n d a b => d :: a :: b :: (List.range n.toNat).map fun i => a + BitVec.ofNat 6 (i + 1)
  | .lih d _ | .jal d _ | .nest _ d _ _ | .mfc d _ | .mtc d _ | .mset d _ | .mclr d _ | .pref _ d _ | .clwb d _
  | .clinv d _ | .clinvI d _ | .empty d _ | .full d _ | .barjoin d _ | .monarm d _ | .spawn d | .compose _ _ d | .gang _ d
  | .attg d | .rngsv d | .rngld d | .rdcyc d | .rdptp d | .psave d | .prest d | .ctxkill d => [d]
  | _ => []

/-- The loads that an S word needs return. -/
def landFor (s : State) (i : Instr) : State := landRegs s s.rank (sRegs i)

/-- Whether a load into a register that an S word names goes on waiting for a rank in transit (05_memory.md R155). -/
def awaitsRank (s : State) (i : Instr) : Bool := s.me.loads.any fun l => (sRegs i).contains l.d

/-- An S word issues, or holds for a load or for the engines. -/
def sIssue (s : State) (i : Instr) : Host.Outcome State Fault Refusal :=
  let t := landFor s i
  if awaitsRank t i then settle t (.hold .rankTransit t)
  else if sMay t i then exec i t else settle t (.hold .engines t)

/-- The debug step ends with its S word (15_system.md R451). -/
def stepEnd (x : Host.Outcome State Fault Refusal) : Host.Outcome State Fault Refusal :=
  match x with
  | .next t => if t.me.stepping && t.me.hold.isNone && t.me.blocked.isNone then execDebugStepDone t else .next t
  | x => x

/-- The word joins the loop buffer of NEST.s in the first iteration (04_scalar.md R122). -/
def sRecord (s : State) (i : Instr) : State :=
  match s.me.nestS with
  | some n =>
    if n.body.length = n.pos then
      s.modMe fun c => { c with nestS := some { n with body := n.body ++ [{ op := i, pc := c.pc, caps := [] }] } }
    else s
  | none => s

/-- Whether a gang's leader has stepped past the word at a follower's S walker. -/
def leadPassed (s : State) : Bool := match s.me.group with | .member lead true => (s.coreAt lead).ahead s.me | _ => true

/-- The word of the text at the S walker: a word of another engine is passed, an illegal word traps, and an S word issues
(02_encoding.md R42 to R49). A gang's leader sends it to its followers, which take the outcome of a branch word from the leader
(09_compose.md R279). -/
def sText (s : State) : Host.Outcome State Fault Refusal :=
  match sFetch s with
  | .ok (w, u) =>
    if wordEngine w = .s then
      if s.me.follows ∧ isBranchWord w = true ∧ leadPassed s = false then .next s
      else
        let t := sendWord u w
        match decodeWord w with
        | .ok i => stepEnd (sIssue (sRecord t i) i)
        | .error _ => .next (takeTrap t t.rank (trapS 0x01 0#64))
    else execSWalkerPassWord u
  | .trap e t => settle s (.trap e t)
  | .hold h t => settle s (.hold h t)

/-- The next word of the S walker: of the loop buffer, or of the text. -/
def sRun (s : State) : Host.Outcome State Fault Refusal :=
  match s.me.nestS with
  | some n =>
    if n.between then execNestReplayIteration .s s
    else
      match n.body[n.pos]? with
      | some b => stepEnd (sIssue s b.op)
      | none => sText s
  | none => sText s

/-- A hold that goes on keeps the cycle at which it began. -/
def keepHold (old : Option (Hold × Nat)) (t : State) : State :=
  t.modMe fun c =>
    match old, c.hold with
    | some (h, since), some (k, _) => if h = k then { c with hold := some (h, since) } else c
    | _, _ => c

/-- The S walker as it comes to its next word. -/
def sReady (s : State) : State := s.modMe fun c => { c.nestAt with hold := none }

/-- Whether slip holds the S walker (04_scalar.md R115); in composed mode no other walker runs. -/
def Core.slipHeld (c : Core) : Bool := !c.composed && decide ((c.ctl.slipw.toNat : Int) ≤ c.slip)

/-- The cause of a killed context (15_system.md R443). -/
def killTrap : Trap := { walker := none, cause := 0x12#8, addr := 0#64, info := 0#64, kind := .load }

/-- What is taken at an S boundary before the next word, in the order of 15_system.md R427; what a sent VMAXX of the gang has
deferred waits for its release (09_compose.md R283, 10_vector.md R323). Safe-point overrun is the leader's in a gang, whose
followers step with it: a follower's own is never taken (DESIGN CHOICE, log entry 40). -/
def sBoundary (s : State) : Option (Host.Outcome State Fault Refusal) :=
  let c := s.me
  match c.pendTrap, c.pendHalt with
  | some t, _ => some (.next (if s.gangMaxx s.rank then s else takeTrap (s.modMe fun c => { c with pendTrap := none }) s.rank t))
  | none, some why =>
    some (.next (if s.gangMaxx s.rank then s else debugHalt (s.modMe fun c => { c with pendHalt := none }) s.rank why))
  | none, none =>
    if c.atHub then none
    else if c.killed && !atFence s then some (.next (takeTrap (s.modMe fun c => { c with killed := false }) s.rank killTrap))
    else if c.overrunDue && !c.follows && !c.killed then some (execSafePointOverrun s)
    else if (interruptDue s s.rank).isSome && !atFence s then some (execInterruptTake none s)
    else none

/-- Whether the S walker of a gang's member waits for the others: it has stepped further than one of them (09_compose.md
R280). -/
def gangWaits (s : State) : Bool :=
  match s.me.group with
  | .gangLead ms => ms.any fun m => s.me.ahead (s.coreAt m)
  | .member lead true => s.me.ahead (s.coreAt lead)
  | _ => false

/-- Whether the S walker may come to its next word: nothing is due at its boundary, and nothing holds it there (04_scalar.md R115,
09_compose.md R280, 15_system.md R427). -/
def sFree (s : State) : Bool :=
  s.me.runs && (sBoundary s).isNone && s.me.blocked.isNone && !s.me.slipHeld && !gangWaits s

/-- One step of the S walker. -/
def sStep (s : State) : Host.Outcome State Fault Refusal :=
  if s.me.runs = false then .next s
  else
    match sBoundary s with
    | some x => x
    | none =>
      if s.me.blocked.isSome || s.me.slipHeld || gangWaits s then .next s
      else andThen (sRun (sReady s)) (keepHold s.me.hold)

/-! What shows that a core went on. -/

/-- The places, queues and counts of a core. -/
def Core.mark (c : Core) : List Nat :=
  let nest (n : Option Nest) : List Nat := match n with | some n => n.pos :: n.body.length :: n.index | none => []
  [c.pc.toNat, c.posS.toNat, c.pcV.toNat, c.posV.toNat, c.pcM.toNat, c.posM.toNat, c.pcD.toNat, c.posD.toNat,
   c.ctl.tstate.toNat, c.halt.isSome.toNat, c.task.isSome.toNat, c.blocked.isSome.toNat, c.maxx.isSome.toNat,
   c.passing.toNat, c.capV.length, c.capM.length, c.capD.length, c.mwords.length, (c.loads.map (·.parts.length)).sum,
   (c.stores.map (·.pieces.length)).sum, c.loads.length, c.stores.length, c.sent.length, c.pendTrap.isSome.toNat,
   c.pendHalt.isSome.toNat, c.vwait.isSome.toNat, (c.hold.map (·.2 + 1)).getD 0] ++
    nest c.nestS ++ nest c.nestV ++ nest c.nestM ++ nest c.nestD ++
    (c.dq.map fun q => 4 * q.done + (match q.phase with | .queued => 0 | .moving => 1 | .refused => 2 | .moved => 3)) ++
    (c.binds.toList.map fun b => b.asked + b.ahead.length)

/-- A stall that goes on keeps the cycle at which it began, and one whose engine went on ends, where `drop` says so. -/
def keepStall (e : Engine) (drop : Bool) (s t : State) : State :=
  t.modMe fun c =>
    match s.me.stalls.find? fun x => x.1 == e, c.stalls.find? fun x => x.1 == e with
    | some (_, h, since), some (_, k, now) =>
      if since ≠ now then (if h = k then c.stall e h since else c)
      else if drop ∧ c.mark ≠ s.me.mark then { c with stalls := c.stalls.filter fun x => x.1 != e }
      else c
    | _, _ => c

/-! The V, M and D walkers. -/

/-- Whether the S walker has passed the word at a walker (04_scalar.md R112). -/
def Core.passed (c : Core) (e : Engine) : Bool :=
  match e with
  | .m => c.mHead.isSome
  | e => (c.engCaptured e).isSome

/-- At a word that traps after the body of an armed M nest, the nest is discarded (11_matrix.md R339). -/
def dropArmed (s : State) (e : Engine) : State :=
  s.modMe fun c =>
    match e, c.nestM with
    | .m, some n => if !n.going && decide (n.words ≤ n.body.length) then { c with nestM := none } else c
    | _, _ => c

/-- A V, M or D walker at a word of the text (02_encoding.md R42, R43). The M walker takes no illegal word while the address
generators run a nest (11_matrix.md R339). -/
def eText (s : State) (e : Engine) : Host.Outcome State Fault Refusal :=
  match wordAt s e with
  | none => .next s
  | some w =>
    if wordEngine w = e then
      match decodeWord w with
      | .ok i => exec i s
      | .error _ => .next (if s.me.passed e && !(e == .m && s.me.nestGoing) then takeTrap (dropArmed s e) s.rank (mkTrap e 0x01 0#64) else s)
    else if isBranchWord w then execBranchOutcomeConsume e s
    else .next (skipWord s e w)

/-- A walker at its next word: of the loop buffer, or of the text; while the address generators run a nest, the M walker goes on to
its next M word, and the nest then (04_scalar.md R122, 11_matrix.md R339). -/
def eRun (s : State) (e : Engine) : Host.Outcome State Fault Refusal :=
  match s.me.nestOf e with
  | some n =>
    if n.going then
      (match eText s e with
       | .next t => if t.me.mark = s.me.mark then execMNestIteration s else .next t
       | x => x)
    else if e ≠ .m ∧ n.replays = true then
      if n.between then execNestReplayIteration e s
      else
        match n.body[n.pos]? with
        | some b => exec b.op s
        | none => .next s
    else eText s e
  | none => eText s e

/-- Whether the S walker stands beyond a walker, or waits for the word that it passes (04_scalar.md R114, R115). -/
def Core.behind (c : Core) (e : Engine) : Bool :=
  decide (0 < (c.posS - c.walkerPos e).toInt) || (e == .v && c.passing)

/-- Whether a V, M or D walker may run: not in composed mode (09_compose.md R273), before a pending trap, the V walker
behind a sent VMAXX (10_vector.md R322), before an outstanding acquire's read (06_ordering.md R194), or, in a debug step, beyond the S walker (15_system.md R451). -/
def Core.eMay (c : Core) (e : Engine) : Bool :=
  c.runs && !c.composed && c.pendTrap.isNone && !(e == .v && c.maxx.isSome) && !(c.loads.any (·.acq)) &&
    (!c.stepping || c.behind e)

/-- One step of a walker of this core. -/
def walkerStep (s : State) (e : Engine) : Host.Outcome State Fault Refusal :=
  match e with
  | .s => sStep s
  | e =>
    if s.me.eMay e then
      andThen (eRun s e) (keepStall e (e != .d || s.me.dq.all fun q => q.phase == .moved) s)
    else .next s

/-! The turn of a core. -/

/-- The first of a list of steps by which this core goes on; the last stands as it is. -/
def firstMove (s : State) : List (State → Host.Outcome State Fault Refusal) → Host.Outcome State Fault Refusal
  | [] => .next s
  | [f] => f s
  | f :: l =>
    match f s with
    | .next t => if t.me.mark = s.me.mark then firstMove s l else .next t
    | x => x

/-- A step of the D engine's commands; of a core whose task does not run, one that would trap waits (12_copy.md R350, 15_system.md
R451). -/
def dMove (f : State → Host.Outcome State Fault Refusal) (s : State) : Host.Outcome State Fault Refusal :=
  match f s with
  | .next t => .next (if (s.me.runs && s.me.pendTrap.isNone) || t.me.dq.length == s.me.dq.length then keepStall .d true s t else s)
  | x => x

/-- The next unit of the i-th D command (12_copy.md R353 to R356). -/
def unitStep (i : Nat) (s : State) : Host.Outcome State Fault Refusal :=
  match s.me.dq[i]? with
  | some q => dMove (if isRed q.op then execReductionUnitApply i else copyStep i) s
  | none => .next s

/-- The steps of a core's engines other than its walkers: what has started completes, what is queued starts, strips are
read, and the S engine's accesses are performed. -/
def engineMoves (c : Core) : List (State → Host.Outcome State Fault Refusal) :=
  (if c.mwords.isEmpty then [] else [execMWordComplete 0]) ++
    (match c.dq.findIdx? fun q => q.phase == .moved with | some i => [execDCommandComplete i] | none => []) ++
    (match c.dq.findIdx? fun q => q.phase == .moving with | some i => [unitStep i] | none => []) ++
    (if c.dq.isEmpty then [] else [dMove execDCommandStart]) ++
    ((List.range 8).filter fun i => (c.rbind (BitVec.ofNat 3 i)).mode == 1#2 && c.runs).flatMap (fun i =>
      [execStreamStripReturn (BitVec.ofNat 3 i), execStreamStripFetch (BitVec.ofNat 3 i)]) ++
    (match (List.range c.loads.length).find? (loadMay c) with | some i => [execSLoadReturn i 0] | none => []) ++
    (match (List.range c.stores.length).find? (storeMay c.stores) with | some i => [execStoreBufferPerform i] | none => [])

/-- The steps of the walkers that stand behind the S walker. -/
def walkerMoves (c : Core) : List (State → Host.Outcome State Fault Refusal) :=
  ([Engine.m, .d, .v].filter fun e => c.behind e || (e == .m && c.nestGoing)).map
    fun e s => walkerStep s e

/-- The steps of one core in the order in which its turn tries them. -/
def coreMoves (c : Core) : List (State → Host.Outcome State Fault Refusal) :=
  engineMoves c ++ (if c.runs then walkerMoves c else [])

/-- The cores that take their turn together, a gang with its leader first, else the core alone. -/
def turnCores (s : State) (r : Nat) : List Nat := s.gangOf r

/-- The order in which the S walkers of such cores are tried: those that stand behind the leader, the leader, and the others
(09_compose.md R280). -/
def sOrder (s : State) (r : Nat) : List Nat :=
  match (s.coreAt r).group with
  | .gangLead ms =>
    let behind := ms.filter fun m => (s.coreAt r).ahead (s.coreAt m)
    behind ++ r :: ms.filter fun m => !behind.contains m
  | _ => [r]

/-- The first step by which one of a list of cores goes on, from the steps that `f` lists for it. -/
def firstTurn (s : State) (f : Core → List (State → Host.Outcome State Fault Refusal)) :
    List Nat → Option (Host.Outcome State Fault Refusal)
  | [] => none
  | r :: l =>
    match atRank s r fun t => firstMove t (f t.me ++ [Host.Outcome.next]) with
    | .next t => if (t.coreAt r).mark = (s.coreAt r).mark then firstTurn s f l else some (.next t)
    | x => some x

/-- The turn of the core of this step, or of the gang that it leads or follows: its engines and the walkers behind S, then its S
walkers. -/
def coreTurn (s : State) : Host.Outcome State Fault Refusal :=
  let r := match s.me.group with | .member lead true => lead | _ => s.rank
  match (firstTurn s coreMoves (turnCores s r)).or (firstTurn s (fun _ => [sStep]) ((sOrder s r).dropLast)) with
  | some x => x
  | none => atRank s ((sOrder s r).getLastD r) sStep

/-! The turn of a Kettle core. -/

/-- A Kettle core fetches the word at its program counter: the sandbox tests the fetch, the two words of 14_futures.md R423
run, a word of an absent extension is illegal, a word on a custom register has its effect, LR and SC make and use a reservation,
and another word of the base RISC-V set has a free effect (R419, R420; log entry 12). -/
def kettleTurn (s : State) : Host.Outcome State Fault Refusal :=
  let k := s.kettle
  let a := k.pc.toNat
  if k.tested = true ∧ ((List.range 4).all fun i => k.byteOk .fetch (a + i)) = false then .next (s.setKettle (k.except_ 1 a))
  else
    let w := s.mem.readNat a 4
    match decodeKettle w with
    | .ok i => exec i s
    | .error _ => .next (
      if kettleAbsent w then kettleIllegal s
      else
        match csrWord k w, reserveWord w with
        | some (n, rd, v), _ => kettleCsr s n v rd
        | none, some (sc, n) => kettleReserve s w sc n
        | none, none => kettleBaseWord s)

/-! What a core owes. -/

/-- A pending switch at a word that waits (04_scalar.md R126, R127; 09_compose.md R278, R282). -/
def waitSwitch (s : State) (r : Nat) : Option State :=
  let c := s.coreAt r
  match c.group with
  | .single =>
    if c.slice && c.waits then some (s.modCore r Core.stopHere) else none
  | .composeLead _ => if composedDue c && c.waits then some (endComposed (abandon s r) r 2) else none
  | .gangLead ms =>
    if gangDue s c && !s.gangMaxx r && c.pendTrap.isNone && (c.waits || ms.any fun m => (s.coreAt m).waits) then some (gangSwitch s r) else none
  | .member _ _ => none

/-- Whether a resume record takes over a core whose V word waits for a channel (10_vector.md R302). -/
def vResumeDue (s : State) (r : Nat) : Bool := vParks s r && (s.coreAt r).parkPending

/-- Whether a MONWAIT of a core has reached its limit (07_sync.md R235). -/
def Core.monDue (c : Core) (now : Nat) : Bool :=
  match c.blocked with
  | some { op := .monwait _, deadline := some t, .. } => decide (t ≤ now)
  | _ => false

/-- The core whose BARTWAIT limit has passed, among the requests that a core keeps or sends again. -/
def lateSrc (s : State) (c : Core) : Option Nat :=
  let late (q : WaitReq) : Option Nat := if lateBar s q.src q then some q.src else none
  (c.waitq.findSome? late).or (c.resend.findSome? fun x => match x with | .wait _ q => late q | .push _ _ => none)

/-- Whether a VMAXX that a core waits for is decided, or has waited too long (10_vector.md R322 to R324). -/
def maxxDue (s : State) (r : Nat) : Option (State → Host.Outcome State Fault Refusal) :=
  match (s.coreAt r).maxx with
  | none => none
  | some m =>
    if s.maxx.any fun x => x.core == r && x.round == m.round && (maxxDecided s x).isSome then some execVmaxxRelease
    else if decide ((s.coreAt r).ctl.grpwd.toNat ≤ m.waited) && !maxxPaused s r then some execVmaxxWatchdogExpiry
    else none

/-- What an interface sends again every 64 cycles (07_sync.md R221, 08_tasks.md R247, 12_copy.md R355). -/
def resendDue (s : State) (c : Core) : Option (State → Host.Outcome State Fault Refusal) :=
  if s.cycle % 64 ≠ 0 then none
  else if (firstWait s c).isSome then some execPresenceWaitResend
  else if (firstResend s c).isSome then some execRemotePushResend
  else if c.dq.any fun q => q.phase == .refused then some execReductionResend
  else none

/-- A step of this core that does not depend on its walkers, if one is due. -/
def coreDue (s : State) (r : Nat) (c : Core) : Option (State → Host.Outcome State Fault Refusal) :=
  if c.monDue s.cycle then some execMonwaitTimeout
  else if (waitSwitch s r).isSome then some fun t => .next ((waitSwitch t t.rank).getD t)
  else if parkDue s r || vParkDue s r then some execParkTimeout
  else if resumeDue s r then some fun t => .next (parkBlocked t t.rank 3)
  else if vResumeDue s r then some fun t => .next ((switchOut t t.rank 3 liveAll).getD t)
  else if (ownStalled s c).isSome then some execOwnershipStallTimeout
  else if c.watchdogDue && !s.gangMaxx r then some execGroupWatchdogExpiry
  else if mayStart s r && (!c.resumes.isEmpty || !dequeEmpty c) then some execTaskStart
  else (maxxDue s r).or (resendDue s c)

/-- The first core for which a step is due, with the step. -/
def someCoreDue (s : State) : Option (Nat × (State → Host.Outcome State Fault Refusal)) :=
  s.cores.findSome? fun e =>
    match lateSrc s e.2 with
    | some q => some (q, execBartwaitTimeout)
    | none => (coreDue s e.1 e.2).map fun f => (e.1, f)

/-! What the hub owes. -/

/-- A pending future whose deadline has passed; the engine looks at them once in a microsecond (14_futures.md R412). -/
def lateFuture (s : State) : Option Nat :=
  (s.futs.find? fun e =>
    e.2.state == 1#3 && e.2.deadline != 0#64 && decide (e.2.deadline.toNat ≤ s.ptp / 1000000 * 1000)).map (·.1)

/-- The end of a walk that is under way, if there is one (05_memory.md R170). -/
def walkDue (s : State) : Option (State → Host.Outcome State Fault Refusal) :=
  s.mmus.findSome? fun e =>
    match e.2.misses with
    | m :: _ =>
      match m.waits with
      | w :: _ => some fun t => atRank t w.core fun u => execPageWalkComplete (walkEnd u w.core w.walk) u
      | [] => some fun t => .next (missDone t e.1)
    | [] => none

/-- A step of the page walkers, of the endpoint or of the hub, if one is due. -/
def hubDue (s : State) : Option (State → Host.Outcome State Fault Refusal) :=
  (((walkDue s).or (nextPacket s)).or (linkDue s)).or (requestDue s)
where
  /-- A request that stands at the hub, or a step of its engines. -/
  requestDue (s : State) : Option (State → Host.Outcome State Fault Refusal) :=
    match hubWaits s with
    | some i => some fun t => .next (hubServe t i)
    | none => engineDue s
  /-- A step of the hub's engines. -/
  engineDue (s : State) : Option (State → Host.Outcome State Fault Refusal) :=
  if blazeTimeDue s then some execBlazeTimeTrigger
  else if (match s.blzDue with | some t => decide (t ≤ s.cycle) | none => false) then some execBlazeLatch
  else if (flipping s).isSome then some execOwnershipFlipComplete
  else if (nextInject s).isSome then some execInjectGranule
  else
    match lateFuture s, s.prefetch, proposeDue s, s.fells.findIdx? (fun e => !e.expired && decide (e.due ≤ s.cycle)) with
    | some i, _, _, _ => some (execFutureTimeout (BitVec.ofNat 14 i))
    | none, _ :: _, _, _ => some execKvPrefetchServe
    | none, [], some t, _ => some (execFellPropose t.pid t.index)
    | none, [], none, some i => some (execFellDeadlineExpiry (BitVec.ofNat 6 i))
    | none, [], none, none =>
      match s.fells with
      | e :: _ => if e.confirmed || e.expired then some execFellExecute else none
      | [] => none

/-! The network. -/

/-- Whether a message keeps its place among those of its pair of cores (06_ordering.md R189, R194). -/
def isOrdered (i : Instr) : Bool := isPosted i || isPush i

/-- Whether a message is an active message for a partition that is swapped out, whose queue takes it (08_tasks.md R260). -/
def NetMsg.overflows (m : NetMsg) (s : State) : Bool :=
  (match m.ev with | .amsgArrive _ => true | _ => false) && (match s.part? m.pid with | some p => !p.resident | none => false)

/-- Whether a message may reach its destination: its rank is bound to its partition and not in transit, and no earlier message of
the same pair of cores stands before it (05_memory.md R155, 06_ordering.md R189). -/
def deliverable (s : State) (i : Nat) (m : NetMsg) : Bool :=
  (m.may s || m.overflows s) &&
    !(isOrdered m.ev && (s.net.take i).any fun q => isOrdered q.ev && q.src == m.src && q.dst == m.dst && q.pid == m.pid)

/-- The i-th message reaches its destination, if it may. -/
def deliverAt (s : State) (i : Nat) : Host.Outcome State Fault Refusal :=
  match s.net[i]? with
  | some m =>
    if deliverable s i m then
      let t : State := { s with net := s.net.eraseIdx i }
      if isPosted m.ev then .next (applyMsg t m) else atRank t m.dst (exec m.ev)
    else .next s
  | none => .next s

/-- The oldest message that may reach its destination. -/
def nextMsg (s : State) : Option Nat :=
  (List.range s.net.length).find? fun i => match s.net[i]? with | some m => deliverable s i m | none => false

/-! The agenda. -/

/-- Whether an instruction is a step of the opcode table without an encoding. -/
def isEvent (i : Instr) : Bool := (encode i).isNone

/-- A line of program text in generic memory enters an instruction cache of 512 lines (01_machine.md R15, 05_memory.md R161). -/
def fillLine (s : State) (va : Word64) : State :=
  match resolve s .s va 4 permExecute with
  | .ok (.bytes [k], t) =>
    let a := k.key / 64 * 64
    if t.poisoned a 64 || (keyCore a).isSome then s
    else
      t.modMe fun c =>
        let keep := c.icache.filter fun l => l.addr != a
        let line : ILine := { addr := a, bytes := t.mem.read a 64 }
        { c with icache := (keep ++ [line]).drop (keep.length - 511) }
  | _ => s

/-- A prefetch of a core starts a walk, or joins one (05_memory.md R170). -/
def startWalk (s : State) (r : Nat) (va : Word64) (k : AccessKind) : State :=
  match (s.mmuAt (clusterOf r)).miss (s.coreAt r).pid { core := r, walk := { va := va, kind := k } } with
  | some m => s.modMmu (clusterOf r) fun _ => m
  | none => s

/-- Whether a step of the opcode table that a walker makes may be taken now. -/
def eventMay (s : State) : Instr → Bool
  | .sWalkerPassWord | .nestReplayIteration .s => sFree s
  | .nestReplayIteration e | .branchOutcomeConsume e => s.me.eMay e
  | .mNestIteration => s.me.eMay .m
  | _ => true

/-- One choice of the agenda. -/
def act (s : State) : Action → Host.Outcome State Fault Refusal
  | .event r i => if isEvent i then atRank s r fun t => if eventMay t i then exec i t else .next t else .next s
  | .walker r e => atRank s r fun t => walkerStep t e
  | .turn a r k => .next { s with cur := a, rank := r, kid := k }
  | .elapse n => .next (tick s n)
  | .setLazy b => .next { s with lazy := b }
  | .deliver i => deliverAt s i
  | .tlbFill r va k => .next (fillTlb s r va k [r])
  | .tlb2Drop c i => .next (s.modMmu c fun m => { m with tlb := m.tlb.eraseIdx i })
  | .ptrDrop c i => .next (s.modMmu c fun m => { m with ptrs := m.ptrs.eraseIdx i })
  | .tlbBypass r b => .next (s.modCore r fun c => { c with bypass := b })
  | .walkStart r va k => .next (startWalk s r va k)
  | .unit r i => atRank s r (unitStep i)
  | .mRead r i => .next (s.modCore r (·.mRead i))
  | .lineLost r => .next (s.modCore r fun c => c.lineLost s.cycle)
  | .clockSet r ps => .next (setClock s r ps)
  | .throttle r w => .next (throttle s r w)
  | .inputSet mv => inputSet mv s
  | .linkAck p => .next (linkAck s p)
  | .fellctlSet v => .next (fellctlWrite s v)
  | .hubServe i => .next (hubServe s i)
  | .tlbDrop r i => .next (s.modCore r fun c => { c with tlb := c.tlb.eraseIdx i })
  | .lineFill r va => atRank s r fun t => .next (fillLine t va)
  | .lineDrop r i => .next (s.modCore r fun c => { c with icache := c.icache.eraseIdx i })
  | .poison key n => .next (s.markPoison ((List.range n).map (key + ·)))
  | .residue r col => .next (s.modCore r fun c => { c with residue := c.residue ++ [col] })
  | .bar0Write off n v => bar0Write off n v s
  | .hostStore a bs => .next (s.store (hostKey a) bs)
  | .kettleCsr k n w rd => .next { kettleCsr { s with kid := k } n w rd with kid := s.kid }
  | .kettleBase k x => .next { kettleBase { s with kid := k } x with kid := s.kid }
  | .blazeSet b t => .next { s with blzTask := b, blzTime := t }

/-! The next step. -/

/-- What bring-up finds when nothing fails and the firmware's values are those that the hub holds (19_integration.md
R493; log entry 3). -/
def plainBringUp (s : State) : BringUp :=
  { fail := none, svn := s.svn, owners := s.ownerKeys, places := s.enabled.toList, cxl := s.hostCxl, hostSize := s.hostSize
    rate := if s.hostCxl then 64#8 else 128#8, pkg := s.pkgRank, fwHash := s.fwHash, recHash := s.recHash
    down := s.planes, ps := s.ptp, repair := s.hbmRepair }

/-- The agent whose turn it is; the bring-up of a module that is off first shows that it boots (19_integration.md R483, R493). -/
def turnStep (s : State) : Host.Outcome State Fault Refusal :=
  match s.cur with
  | .boot =>
    if field s.bootstat 0 8 = 0 then .next { s with bootstat := setField s.bootstat 0 8 1 } else execPowerOnBringUp (plainBringUp s) s
  | .core => coreTurn s
  | .kettle => kettleTurn s
  | .none => .next s

/-- What goes on by itself: messages on their way, then what the cores' interfaces and the hub owe, then the agent whose
turn it is. -/
def background (s : State) : Host.Outcome State Fault Refusal :=
  match nextMsg s with
  | some i => deliverAt s i
  | none =>
    match someCoreDue s, hubDue s with
    | some (r, f), _ => atRank s r f
    | none, some f => f s
    | none, none => turnStep s

/-- Without power on the compute dies no engine executes; bring-up has its effect, and so has what the host does to its own memory
and the supply does to the module's input (19_integration.md R480, R481, R493). -/
def unpowered (s : State) : Host.Outcome State Fault Refusal :=
  match s.agenda with
  | .event r (.powerOnBringUp b) :: rest => atRank { s with agenda := rest } r (execPowerOnBringUp b)
  | .hostStore a bs :: rest => .next ({ s with agenda := rest }.store (hostKey a) bs)
  | .inputSet mv :: rest => inputSet mv { s with agenda := rest }
  | _ :: rest => .next { s with agenda := rest }
  | [] => .next s

/-- A step: a cycle passes, and the head of the agenda, or else what goes on by itself, takes place. -/
def stepRun (s : State) : Host.Outcome State Fault Refusal :=
  if s.power = false then unpowered (tick s 1)
  else
    let t := housekeep (tick s 1)
    match t.agenda with
    | a :: rest => act { t with agenda := rest } a
    | [] => background t

/-! A word where the next step fetches it. -/

/-- The virtual address and the physical address of the word, and the place of the table that maps it: one level-1 leaf
maps the LPDDR6 row (05_memory.md R165, R166). -/
abbrev probeVa : Nat := 0
abbrev probePa : Nat := 0x0100_0000_0000
abbrev probeTable : Nat := 0x10000
/-- V, L, R, W, X, A and D of the leaf. -/
abbrev probeLeaf : Nat := probePa + 0x7F
/-- The partition of the word's core. -/
abbrev probePid : Nat := 1

/-- The code capability over the mapped TiB (04_scalar.md R131). -/
def probeCode : GVal := (mintCap 0 (2 ^ 40) 0 0x005#12).getD GVal.zero

/-- The bound partition. -/
def probePart : Part :=
  { pid := probePid, clusters := [0], ctxFirst := 0, ctxCount := 0, futQuota := 0, shadow := 0, ranges := []
    ptroot := BitVec.ofNat 64 (probePid * 2 ^ 48 + probeTable), ctxbase := 0#64, code := probeCode, digest := 0#256
    resident := true, saved := [], maxx := [], maxxBad := []
    fq := { ring := none, mb := 0#64, posted := 0#32, done := 0#32, lost := 0#64, nextSeq := 1#32, entries := [] }
    pool := { ring := none, head := 0, free := 0, inUse := 0, refused := 0#16 }
    sq := { cfg := 0#64, tail := 0#16, head := 0#16, ignored := 0#16, reqs := [] }
    hostSeq := 0#32, pending := false, flip := none, flipStat := 0#8, kvRead := false, killed := [], overflow := [] }

/-- The core that runs a task at partition level at the word; for a word of another engine the S walker and the other
walkers stand behind it, and its capture entry is queued (04_scalar.md R112). -/
def probeCore (c : Core) (w : Nat) : Core :=
  let c1 := ({ c with codecap := probeCode, task := some Record.zero, halt := none, blocked := none, hold := none
                      pendTrap := none, killed := false, swap := false, slice := false, group := .single, stepping := false }.modCtl fun k =>
    { k with ptroot := probePart.ptroot, tstate := 1#32, inten := 0#32 }).clearDist.alignWalkers (BitVec.ofNat 64 probeVa)
  let e := wordEngine w
  let p : BitVec 32 := BitVec.ofNat 32 (wordParcels w)
  if e = .s then c1
  else
    let past (x : Core) (f : Engine) : Core := if f = e then x else x.moveWalker f (wordLen w) p
    ([Engine.s, .v, .m, .d].foldl past c1).pushCap e (.vals ((capturedOf (rawFields w)).map c1.rg))

/-- A Dorvan word of nbits bits placed at core 0. -/
def probeDorvan (s : State) (w : Nat) : State :=
  let s1 := (s.storeNat probeTable 8 probeLeaf).storeNat probePa 24 w
  let s2 := { s1 with
    parts := probePart :: s1.parts.filter fun p => p.pid != probePid
    ranks := Table.set s1.ranks 0 (BitVec.ofNat 32 (2 ^ 31 + probePid * 2 ^ 16))
    power := true, net := [], cur := .core, rank := 0, agenda := [.walker 0 (wordEngine w)] }
  s2.setCore 0 (probeCore (s2.coreAt 0) w)

/-- A Kettle word placed at Kettle core 0 in HS-mode. -/
def probeKettle (s : State) (w : Nat) : State :=
  let s1 := { (s.storeNat probePa 4 w) with power := true, net := [], agenda := [], cur := .kettle, rank := 0, kid := 0 }
  s1.setKettle { s1.kettle with pc := BitVec.ofNat 64 probePa, level := .hs, on := false }

/-- The state with the instruction of an opcode-table row where the next step fetches its instruction (log entry 3). -/
def probe (s : State) (nbits w : Nat) : State :=
  let v := w % 2 ^ nbits
  match decodeTableWord nbits w with
  | some (.ktTake _ _) => probeKettle s v
  | some (.ktMark _ _) => probeKettle s v
  | _ => probeDorvan s v

end Sys2Proof.Machine
end

