-- ==== Sys2Proof/Machine/Step.lean ====
section
/-! DEFINITION. The step of the machine, and the placing of a word where the next step fetches it. -/

namespace Sys2Proof.Machine

/-- One step of the machine (log entries 3, 4 and 5). -/
def step (s : State) : Host.Outcome State Fault Refusal := stepRun s

/-- The state with the instruction of an opcode-table row where `step` fetches its next instruction (log entry 3). -/
def State.withFetchWord (s : State) (nbits w : Nat) : State := probe s nbits w

end Sys2Proof.Machine
end

