-- ==== Sys2Proof/Laws/Bits.lean ====
section
/-! SUPPORT. The fields of encoded words: what the decoder reads of what the encoder writes, and little-endian bytes. -/

namespace Sys2Proof

theorem leBytes_length (n v : Nat) : (leBytes n v).length = n := by
  induction n generalizing v with
  | zero => rfl
  | succ n ih => simp [leBytes, ih]

theorem leNat_leBytes (n v : Nat) : leNat (leBytes n v) = v % 256 ^ n := by
  induction n generalizing v with
  | zero => simp [leBytes, leNat, Nat.mod_one]
  | succ n ih =>
    simp only [leBytes, leNat, ih, BitVec.toNat_ofNat]
    rw [show (256 : Nat) ^ (n + 1) = 256 * 256 ^ n by rw [Nat.pow_succ, Nat.mul_comm], Nat.mod_mul]

theorem leBytes_take (n m v : Nat) (h : m ≤ n) : (leBytes n v).take m = leBytes m v := by
  induction m generalizing n v with
  | zero => simp [leBytes]
  | succ m ih =>
    match n, h with
    | n + 1, h => simp [leBytes, ih n (v / 256) (by omega)]

/-- The word that the decoder reads at the start of 24 bytes. -/
theorem decode_leBytes (v : Nat) :
    decode (leBytes 24 v) = decodeWord (v % 256 ^ (4 * wordParcels (v % 256))) := by
  have hn : 4 * wordParcels (v % 256) ≤ 24 := by
    unfold wordParcels; split <;> omega
  have e : leBytes 24 v = BitVec.ofNat 8 v :: leBytes 23 (v / 256) := rfl
  have hl := leBytes_length 24 v
  have ht := leBytes_take 24 _ v hn
  unfold decode
  rw [e] at *
  simp only [BitVec.toNat_ofNat, show (2 : Nat) ^ 8 = 256 from rfl] at *
  rw [if_neg (by omega), ht, leNat_leBytes]

theorem wordParcels_mod (v : Nat) : wordParcels (v % 256) = wordParcels v := by
  unfold wordParcels
  have : v % 256 % 4 = v % 4 := by omega
  rw [this]

/-- A row's word of one parcel decodes as its fields do. -/
theorem table_s {v : Nat} {i : Instr} (hv : v < 2 ^ 32) (ht : v % 4 = 0) (hd : decodeFieldsS v = .ok i)
    (hw : wellFormed i = true) : decodeTableWord 32 v = some i := by
  have e : decode (leBytes 24 (v % 2 ^ 32)) = .ok i := by
    rw [Nat.mod_eq_of_lt hv, decode_leBytes, wordParcels_mod]
    have : wordParcels v = 1 := by simp [wordParcels, ht]
    rw [this, Nat.mod_eq_of_lt (by simpa using hv)]
    unfold decodeWord decodeFields
    rw [ht]
    simp only [Nat.mod_eq_of_lt hv, hd, hw, if_true]
  simp only [decodeTableWord, e]

/-- A row's V word decodes as its fields do. -/
theorem table_v {v : Nat} {i : Instr} (hv : v < 2 ^ 96) (ht : v % 4 = 1) (hd : decodeV v = .ok i)
    (hw : wellFormed i = true) : decodeTableWord 96 v = some i := by
  have e : decode (leBytes 24 (v % 2 ^ 96)) = .ok i := by
    rw [Nat.mod_eq_of_lt hv, decode_leBytes, wordParcels_mod]
    have : wordParcels v = 3 := by simp [wordParcels, ht]
    rw [this, Nat.mod_eq_of_lt (by simpa using hv)]
    unfold decodeWord decodeFields
    rw [ht]
    simp only [Nat.mod_eq_of_lt hv, hd, hw, if_true]
  simp only [decodeTableWord, e]

/-- A row's M word decodes as its fields do. -/
theorem table_m {v : Nat} {i : Instr} (hv : v < 2 ^ 192) (ht : v % 4 = 2) (hd : decodeM v = .ok i)
    (hw : wellFormed i = true) : decodeTableWord 192 v = some i := by
  have e : decode (leBytes 24 (v % 2 ^ 192)) = .ok i := by
    rw [Nat.mod_eq_of_lt hv, decode_leBytes, wordParcels_mod]
    have : wordParcels v = 6 := by simp [wordParcels, ht]
    rw [this, Nat.mod_eq_of_lt (by simpa using hv)]
    unfold decodeWord decodeFields
    rw [ht]
    simp only [Nat.mod_eq_of_lt hv, hd, hw, if_true]
  simp only [decodeTableWord, e]

/-- A row's D word decodes as its fields do. -/
theorem table_d {v : Nat} {i : Instr} (hv : v < 2 ^ 96) (ht : v % 4 = 3) (hd : decodeD v = .ok i)
    (hw : wellFormed i = true) : decodeTableWord 96 v = some i := by
  have e : decode (leBytes 24 (v % 2 ^ 96)) = .ok i := by
    rw [Nat.mod_eq_of_lt hv, decode_leBytes, wordParcels_mod]
    have : wordParcels v = 3 := by simp [wordParcels, ht]
    rw [this, Nat.mod_eq_of_lt (by simpa using hv)]
    unfold decodeWord decodeFields
    rw [ht]
    simp only [Nat.mod_eq_of_lt hv, hd, hw, if_true]
  simp only [decodeTableWord, e]

theorem bits_eq {n w lo : Nat} (x : BitVec n) (h : w / 2 ^ lo % 2 ^ n = x.toNat) : bits n w lo = x := by
  apply BitVec.eq_of_toNat_eq
  simp [bits, h]

theorem flag_eq {w lo : Nat} (b : Bool) (h : w / 2 ^ lo % 2 = b.toNat) : flag w lo = b := by
  cases b <;> simp_all [flag]

/-! The codes of small sets read back. -/

theorem Width.code_lt (x : Width) : x.code < 5 := by cases x <;> decide
theorem Update.code_lt (x : Update) : x.code < 3 := by cases x <;> decide
theorem Scope.code_lt (x : Scope) : x.code < 5 := by cases x <;> decide
theorem Order.code_lt (x : Order) : x.code < 4 := by cases x <;> decide
theorem Engine.code_lt (x : Engine) : x.code < 4 := by cases x <;> decide
theorem Width.decode (x : Width) : decodeWidth x.code = some x := by cases x <;> rfl
theorem Update.decode (x : Update) : decodeUpdate x.code = some x := by cases x <;> rfl
theorem Scope.decode (x : Scope) : decodeScope x.code = some x := by cases x <;> rfl
theorem Order.decode (x : Order) : decodeOrder x.code = x := by cases x <;> rfl
theorem Engine.decode (x : Engine) : decodeEngine x.code = x := by cases x <;> rfl
theorem zeroed_ok (i : Instr) : zeroed 0 i = .ok i := rfl

/-! The fields of S words (02_encoding.md R51). -/

section SWords
variable {op fn imm w : Nat} {d a b : GIdx}

theorem sa_lt (ho : op < 128) (hf : fn < 32) : encSA op d a b fn < 2 ^ 32 := by
  have := d.isLt; have := a.isLt; have := b.isLt; unfold encSA; omega
theorem sa_tag : encSA op d a b fn % 4 = 0 := by unfold encSA; omega
theorem sa_op (ho : op < 128) (h : encSA op d a b fn = w) : num 7 w 2 = op := by
  have := d.isLt; have := a.isLt; have := b.isLt; subst h; unfold num encSA; omega
theorem sa_nd (ho : op < 128) (h : encSA op d a b fn = w) : num 6 w 9 = d.toNat := by
  have := d.isLt; have := a.isLt; have := b.isLt; subst h; unfold num encSA; omega
theorem sa_na (ho : op < 128) (h : encSA op d a b fn = w) : num 6 w 15 = a.toNat := by
  have := d.isLt; have := a.isLt; have := b.isLt; subst h; unfold num encSA; omega
theorem sa_nb (ho : op < 128) (h : encSA op d a b fn = w) : num 6 w 21 = b.toNat := by
  have := d.isLt; have := a.isLt; have := b.isLt; subst h; unfold num encSA; omega
theorem sa_bd (ho : op < 128) (h : encSA op d a b fn = w) : bits 6 w 9 = d := bits_eq d (sa_nd ho h)
theorem sa_ba (ho : op < 128) (h : encSA op d a b fn = w) : bits 6 w 15 = a := bits_eq a (sa_na ho h)
theorem sa_bb (ho : op < 128) (h : encSA op d a b fn = w) : bits 6 w 21 = b := bits_eq b (sa_nb ho h)
theorem sa_fn (ho : op < 128) (hf : fn < 32) (h : encSA op d a b fn = w) : num 5 w 27 = fn := by
  have := d.isLt; have := a.isLt; have := b.isLt; subst h; unfold num encSA; omega
theorem sb_lt (ho : op < 128) (hi : imm < 2048) : encSB op d a imm < 2 ^ 32 := by
  have := d.isLt; have := a.isLt; unfold encSB; omega
theorem sb_tag : encSB op d a imm % 4 = 0 := by unfold encSB; omega
theorem sb_op (ho : op < 128) (h : encSB op d a imm = w) : num 7 w 2 = op := by
  have := d.isLt; have := a.isLt; subst h; unfold num encSB; omega
theorem sb_nd (ho : op < 128) (h : encSB op d a imm = w) : num 6 w 9 = d.toNat := by
  have := d.isLt; have := a.isLt; subst h; unfold num encSB; omega
theorem sb_na (ho : op < 128) (h : encSB op d a imm = w) : num 6 w 15 = a.toNat := by
  have := d.isLt; have := a.isLt; subst h; unfold num encSB; omega
theorem sb_bd (ho : op < 128) (h : encSB op d a imm = w) : bits 6 w 9 = d := bits_eq d (sb_nd ho h)
theorem sb_ba (ho : op < 128) (h : encSB op d a imm = w) : bits 6 w 15 = a := bits_eq a (sb_na ho h)
theorem sb_im {x : BitVec 11} (ho : op < 128) (h : encSB op d a x.toNat = w) : bits 11 w 21 = x := by
  have := d.isLt; have := a.isLt; have := x.isLt; subst h; refine bits_eq x ?_; unfold encSB; omega
theorem sc_lt (ho : op < 128) (hi : imm < 131072) : encSC op d imm < 2 ^ 32 := by
  have := d.isLt; unfold encSC; omega
theorem sc_tag : encSC op d imm % 4 = 0 := by unfold encSC; omega
theorem sc_op (ho : op < 128) (h : encSC op d imm = w) : num 7 w 2 = op := by
  have := d.isLt; subst h; unfold num encSC; omega
theorem sc_nd (ho : op < 128) (h : encSC op d imm = w) : num 6 w 9 = d.toNat := by
  have := d.isLt; subst h; unfold num encSC; omega
theorem sc_bd (ho : op < 128) (h : encSC op d imm = w) : bits 6 w 9 = d := bits_eq d (sc_nd ho h)
theorem sc_im {x : BitVec 17} (ho : op < 128) (h : encSC op d x.toNat = w) : bits 17 w 15 = x := by
  have := d.isLt; have := x.isLt; subst h; refine bits_eq x ?_; unfold encSC; omega
theorem sc_n0 (ho : op < 128) (h : encSC op d 0 = w) : num 17 w 15 = 0 := by
  have := d.isLt; subst h; unfold num encSC; omega

end SWords

/-! Specifiers read back (02_encoding.md R59, R65). -/

theorem encodeVSpec_lt (x : VSpec) : encodeVSpec x < 2 ^ 21 := by
  cases x with
  | vreg v => have := v.isLt; simp only [encodeVSpec]; omega
  | cap1 => decide
  | cap2 => decide
  | preg p => have := p.isLt; simp only [encodeVSpec]; omega
  | loc base off stride post =>
    have := base.isLt; have := off.isLt; have := stride.isLt; have := Bool.toNat_lt post
    simp only [encodeVSpec]; omega

theorem decodeVSpec_encode (x : VSpec) : decodeVSpec (encodeVSpec x) = some x := by
  cases x with
  | vreg v =>
    have := v.isLt
    simp only [encodeVSpec]
    have h1 : flag v.toNat 20 = false := flag_eq _ (by simp only [Bool.toNat_false]; omega)
    have h2 : num 2 v.toNat 18 = 0 := by unfold num; omega
    have h3 : num 13 v.toNat 5 = 0 := by unfold num; omega
    have h4 : bits 5 v.toNat 0 = v := bits_eq _ (by omega)
    simp [decodeVSpec, h1, h2, h3, h4]
  | cap1 => rfl
  | cap2 => rfl
  | preg p =>
    have := p.isLt
    simp only [encodeVSpec]
    generalize hx : 3 * 2 ^ 18 + p.toNat = x
    have h1 : flag x 20 = false := flag_eq _ (by simp only [Bool.toNat_false]; omega)
    have h2 : num 2 x 18 = 3 := by unfold num; omega
    have h3 : num 15 x 3 = 0 := by unfold num; omega
    have h4 : bits 3 x 0 = p := bits_eq _ (by omega)
    simp [decodeVSpec, h1, h2, h3, h4]
  | loc base off stride post =>
    have := base.isLt; have := off.isLt; have := stride.isLt; have := Bool.toNat_lt post
    simp only [encodeVSpec]
    generalize hx : post.toNat * 2 + stride.toNat * 2 ^ 2 + off.toNat * 2 ^ 8 + base.toNat * 2 ^ 16 + 2 ^ 20 = x
    have h1 : flag x 20 = true := flag_eq _ (by simp only [Bool.toNat_true]; omega)
    have h2 : flag x 0 = false := flag_eq _ (by simp only [Bool.toNat_false]; omega)
    have h3 : bits 4 x 16 = base := bits_eq _ (by omega)
    have h4 : bits 8 x 8 = off := bits_eq _ (by omega)
    have h5 : bits 6 x 2 = stride := bits_eq _ (by omega)
    have h6 : flag x 1 = post := flag_eq _ (by omega)
    simp [decodeVSpec, h1, h2, h3, h4, h5, h6]

theorem encodeMSpec_lt (x : MSpec) : encodeMSpec x < 2 ^ 32 := by
  cases x with
  | absent => decide
  | reg n => have := n.isLt; simp only [encodeMSpec]; omega
  | loc base off fmt => have := base.isLt; have := off.isLt; have := fmt.isLt; simp only [encodeMSpec]; omega
  | cap g off fmt => have := g.isLt; have := off.isLt; have := fmt.isLt; simp only [encodeMSpec]; omega

theorem decodeMSpec_encode (x : MSpec) : decodeMSpec (encodeMSpec x) = some x := by
  cases x with
  | absent => rfl
  | reg n =>
    have := n.isLt
    simp only [encodeMSpec]
    generalize hx : n.toNat + 2 ^ 30 = x
    have h1 : num 2 x 30 = 1 := by unfold num; omega
    have h2 : num 25 x 5 = 0 := by unfold num; omega
    have h3 : bits 5 x 0 = n := bits_eq _ (by omega)
    simp [decodeMSpec, h1, h2, h3]
  | loc base off fmt =>
    have := base.isLt; have := off.isLt; have := fmt.isLt
    simp only [encodeMSpec]
    generalize hx : fmt.toNat + off.toNat * 2 ^ 7 + base.toNat * 2 ^ 26 + 2 * 2 ^ 30 = x
    have h1 : num 2 x 30 = 2 := by unfold num; omega
    have h2 : num 2 x 5 = 0 := by unfold num; omega
    have h3 : bits 4 x 26 = base := bits_eq _ (by omega)
    have h4 : bits 19 x 7 = off := bits_eq _ (by omega)
    have h5 : bits 5 x 0 = fmt := bits_eq _ (by omega)
    simp [decodeMSpec, h1, h2, h3, h4, h5]
  | cap g off fmt =>
    have := g.isLt; have := off.isLt; have := fmt.isLt
    simp only [encodeMSpec]
    generalize hx : fmt.toNat + off.toNat * 2 ^ 5 + g.toNat * 2 ^ 24 + 3 * 2 ^ 30 = x
    have h1 : num 2 x 30 = 3 := by unfold num; omega
    have h3 : bits 6 x 24 = g := bits_eq _ (by omega)
    have h4 : bits 19 x 5 = off := bits_eq _ (by omega)
    have h5 : bits 5 x 0 = fmt := bits_eq _ (by omega)
    simp [decodeMSpec, h1, h3, h4, h5]

/-! Whole words read back (02_encoding.md R58, R64 to R66). -/

theorem encodeV_tag (op : Nat) (w : VWord) : encodeV op w % 4 = 1 := by unfold encodeV; omega
theorem encodeM_tag (op : Nat) (w : MWord) : encodeM op w % 4 = 2 := by unfold encodeM; omega
theorem encodeD_tag (op fn : Nat) (w : DWord) : encodeD op fn w % 4 = 3 := by unfold encodeD; omega

theorem decodeV_encode {op : Nat} {f : VWord → Instr} (w : VWord) (hf : vOpcode op = some f) (ho : op < 128) :
    encodeV op w < 2 ^ 96 ∧ decodeV (encodeV op w) = .ok (f w) := by
  have := w.fmt.isLt; have := w.rnd.isLt; have := w.pred.isLt; have := w.cap1.isLt; have := w.cap2.isLt
  have := Bool.toNat_lt w.pz; have := encodeVSpec_lt w.d; have := encodeVSpec_lt w.a; have := encodeVSpec_lt w.b
  generalize hv : encodeV op w = v
  unfold encodeV at hv
  simp only [Nat.reducePow] at *
  refine ⟨by omega, ?_⟩
  have h0 : num 7 v 2 = op := by simp only [num, Nat.reducePow]; omega
  have h1 : flag v 95 = false := flag_eq _ (by simp only [Bool.toNat_false, Nat.reducePow]; omega)
  have h2 : num 21 v 32 = encodeVSpec w.d := by simp only [num, Nat.reducePow]; omega
  have h3 : num 21 v 53 = encodeVSpec w.a := by simp only [num, Nat.reducePow]; omega
  have h4 : num 21 v 74 = encodeVSpec w.b := by simp only [num, Nat.reducePow]; omega
  have h5 : flag v 31 = w.pz := flag_eq _ (by simp only [Nat.reducePow]; omega)
  have h6 : bits 6 v 25 = w.cap2 := bits_eq _ (by simp only [Nat.reducePow]; omega)
  have h7 : bits 6 v 19 = w.cap1 := bits_eq _ (by simp only [Nat.reducePow]; omega)
  have h8 : bits 3 v 16 = w.pred := bits_eq _ (by simp only [Nat.reducePow]; omega)
  have h9 : bits 3 v 13 = w.rnd := bits_eq _ (by simp only [Nat.reducePow]; omega)
  have h10 : bits 4 v 9 = w.fmt := bits_eq _ (by simp only [Nat.reducePow]; omega)
  rw [decodeV, h0, hf, h1, h2, h3, h4, decodeVSpec_encode, decodeVSpec_encode, decodeVSpec_encode, h5, h6, h7, h8, h9, h10]
  rfl

theorem decodeM_encode {op : Nat} {f : MWord → Instr} (w : MWord) (hf : mOpcode op = some f) (ho : op < 128) :
    encodeM op w < 2 ^ 192 ∧ decodeM (encodeM op w) = .ok (f w) := by
  have := w.wait.isLt; have := w.sig.isLt; have := w.cap1.isLt; have := w.cap2.isLt; have := Bool.toNat_lt w.nb
  have := encodeMSpec_lt w.d; have := encodeMSpec_lt w.a; have := encodeMSpec_lt w.b
  have := w.shape.fmt.isLt; have := w.shape.rows.isLt; have := w.shape.cols.isLt
  have := w.mask.off.isLt; have := w.mask.base.isLt; have := Bool.toNat_lt w.mask.enable
  generalize hv : encodeM op w = v
  unfold encodeM at hv
  simp only [Nat.reducePow] at *
  refine ⟨by omega, ?_⟩
  have h0 : num 7 v 2 = op := by simp only [num, Nat.reducePow]; omega
  have h1 : num 2 v 30 + num 13 v 147 + num 1 v 190 + num 7 v 160 = 0 := by simp only [num, Nat.reducePow]; omega
  have h2 : num 32 v 32 = encodeMSpec w.d := by simp only [num, Nat.reducePow]; omega
  have h3 : num 32 v 64 = encodeMSpec w.a := by simp only [num, Nat.reducePow]; omega
  have h4 : num 32 v 96 = encodeMSpec w.b := by simp only [num, Nat.reducePow]; omega
  have h5 : flag v 29 = w.nb := flag_eq _ (by simp only [Nat.reducePow]; omega)
  have h6 : bits 6 v 23 = w.cap2 := bits_eq _ (by simp only [Nat.reducePow]; omega)
  have h7 : bits 6 v 17 = w.cap1 := bits_eq _ (by simp only [Nat.reducePow]; omega)
  have h8 : bits 4 v 13 = w.sig := bits_eq _ (by simp only [Nat.reducePow]; omega)
  have h9 : bits 4 v 9 = w.wait := bits_eq _ (by simp only [Nat.reducePow]; omega)
  have h10 : bits 7 v 140 = w.shape.cols := bits_eq _ (by simp only [Nat.reducePow]; omega)
  have h11 : bits 7 v 133 = w.shape.rows := bits_eq _ (by simp only [Nat.reducePow]; omega)
  have h12 : bits 5 v 128 = w.shape.fmt := bits_eq _ (by simp only [Nat.reducePow]; omega)
  have h13 : flag v 191 = w.mask.enable := flag_eq _ (by simp only [Nat.reducePow]; omega)
  have h14 : bits 4 v 186 = w.mask.base := bits_eq _ (by simp only [Nat.reducePow]; omega)
  have h15 : bits 19 v 167 = w.mask.off := bits_eq _ (by simp only [Nat.reducePow]; omega)
  rw [decodeM, h0, hf, h1, h2, h3, h4, decodeMSpec_encode, decodeMSpec_encode, decodeMSpec_encode, h5, h6, h7, h8, h9, h10,
    h11, h12, h13, h14, h15]
  rfl

theorem decodeD_encode {op fn : Nat} {f : DWord → Instr} (w : DWord) (hf : dOpcode op fn = some f) (ho : op < 128)
    (hn : fn < 4) : encodeD op fn w < 2 ^ 96 ∧ decodeD (encodeD op fn w) = .ok (f w) := by
  have := w.wait.isLt; have := w.sig.isLt; have := w.cap1.isLt; have := w.cap2.isLt; have := Bool.toNat_lt w.nb
  have := encodeMSpec_lt w.d; have := encodeMSpec_lt w.s
  generalize hv : encodeD op fn w = v
  unfold encodeD at hv
  simp only [Nat.reducePow] at *
  refine ⟨by omega, ?_⟩
  have h0 : num 7 v 2 = op := by simp only [num, Nat.reducePow]; omega
  have h1 : num 2 v 30 = fn := by simp only [num, Nat.reducePow]; omega
  have h2 : num 32 v 32 = encodeMSpec w.d := by simp only [num, Nat.reducePow]; omega
  have h3 : num 32 v 64 = encodeMSpec w.s := by simp only [num, Nat.reducePow]; omega
  have h5 : flag v 29 = w.nb := flag_eq _ (by simp only [Nat.reducePow]; omega)
  have h6 : bits 6 v 23 = w.cap2 := bits_eq _ (by simp only [Nat.reducePow]; omega)
  have h7 : bits 6 v 17 = w.cap1 := bits_eq _ (by simp only [Nat.reducePow]; omega)
  have h8 : bits 4 v 13 = w.sig := bits_eq _ (by simp only [Nat.reducePow]; omega)
  have h9 : bits 4 v 9 = w.wait := bits_eq _ (by simp only [Nat.reducePow]; omega)
  rw [decodeD, h0, h1, hf, h2, h3, decodeMSpec_encode, decodeMSpec_encode, h5, h6, h7, h8, h9]

end Sys2Proof
end

