-- ==== Sys2Proof/Laws/PerInstr.lean ====
section
/-! SUPPORT. The family RoundTrip: the decoder reads an encoded well-formed instruction back (02_encoding.md R40 to R68,
14_futures.md R423). -/

set_option Elab.async false

namespace Sys2Proof.Laws.RoundTrip

/-- The word that the encoder gives a well-formed instruction decodes to that instruction. -/
def Statement (i : Instr) : Prop :=
  wellFormed i = true → ∀ n w, encode i = some (n, w) → decodeTableWord n w = some i

theorem s_word {i : Instr} {v : Nat} (he : encode i = some (32, v)) (hv : v < 2 ^ 32) (ht : v % 4 = 0)
    (hd : ∀ w, v = w → decodeFieldsS w = .ok i) : Statement i := by
  intro hw n x h
  rw [he] at h
  cases h
  exact table_s hv ht (hd v rfl) hw

theorem v_word {op : Nat} {f : VWord → Instr} {w : VWord} (hf : vOpcode op = some f)
    (he : encode (f w) = some (96, encodeV op w)) (ho : op < 128) : Statement (f w) := by
  intro hw n x h
  rw [he] at h
  cases h
  exact table_v (decodeV_encode w hf ho).1 (encodeV_tag op w) (decodeV_encode w hf ho).2 hw

theorem m_word {op : Nat} {f : MWord → Instr} {w : MWord} (hf : mOpcode op = some f)
    (he : encode (f w) = some (192, encodeM op w)) (ho : op < 128) : Statement (f w) := by
  intro hw n x h
  rw [he] at h
  cases h
  exact table_m (decodeM_encode w hf ho).1 (encodeM_tag op w) (decodeM_encode w hf ho).2 hw

theorem d_word {op fn : Nat} {f : DWord → Instr} {w : DWord} (hf : dOpcode op fn = some f)
    (he : encode (f w) = some (96, encodeD op fn w)) (ho : op < 128) (hn : fn < 4) : Statement (f w) := by
  intro hw n x h
  rw [he] at h
  cases h
  exact table_d (decodeD_encode w hf ho hn).1 (encodeD_tag op fn w) (decodeD_encode w hf ho hn).2 hw

/-- A Kettle word is no D word. -/
theorem kettle_word {i : Instr} {v : Nat} (hv : v < 2 ^ 20) (ht : v % 128 = 0x0B) (hk : decodeKettle v = .ok i) :
    decodeTableWord 32 v = some i := by
  have e : ∃ x, decode (leBytes 24 (v % 2 ^ 32)) = .error x := by
    rw [Nat.mod_eq_of_lt (by omega), decode_leBytes, wordParcels_mod]
    have h3 : v % 4 = 3 := by omega
    have : wordParcels v = 3 := by simp [wordParcels, h3]
    rw [this, Nat.mod_eq_of_lt (by omega)]
    unfold decodeWord decodeFields
    rw [h3]
    simp only [Nat.mod_eq_of_lt (show v < 2 ^ 96 by omega)]
    have h0 : num 7 v 2 % 32 = 2 := by unfold num; omega
    have h1 : num 2 v 30 = 0 := by unfold num; omega
    have h2 : num 32 v 32 = 0 := by unfold num; omega
    have h4 : num 32 v 64 = 0 := by unfold num; omega
    by_cases h5 : num 7 v 2 = 2
    · have hd : ∃ w : DWord, w.d = .absent ∧ decodeD v = .ok (.dredAdd w) := by
        rw [decodeD, h5, h1, h2, h4]
        exact ⟨_, rfl, rfl⟩
      obtain ⟨w, ha, hd⟩ := hd
      rw [hd]
      have hw : wellFormed (.dredAdd w) = false := by
        show w.okRed = false
        simp [DWord.okRed, ha, MSpec.isMem, MSpec.isLocal, MSpec.isCap]
      exact ⟨_, by simp only [hw]; rfl⟩
    · have h6 : dOpcode (num 7 v 2) (num 2 v 30) = none := by
        rw [h1]
        generalize num 7 v 2 = o at *
        unfold dOpcode
        split <;> first | rfl | omega
      rw [decodeD, h6]
      simp
  obtain ⟨x, e⟩ := e
  rw [decodeTableWord, e, Nat.mod_eq_of_lt (show v < 2 ^ 32 by omega), hk]
  rfl

theorem add (d : GIdx) (a : GIdx) (b : GIdx) : Statement (.add d a b) := by
  refine s_word rfl (sa_lt (by decide) (by decide)) sa_tag fun w h => ?_
  have h0 : num 7 w 2 = 1 := sa_op (by decide) h
  have h1 : bits 6 w 9 = d := sa_bd (by decide) h
  have h2 : bits 6 w 15 = a := sa_ba (by decide) h
  have h3 : bits 6 w 21 = b := sa_bb (by decide) h
  have h4 : num 5 w 27 = 0 := sa_fn (by decide) (by decide) h
  unfold decodeFieldsS
  rw [h0]
  show (decodeInt (num 5 w 27) (bits 6 w 9) (bits 6 w 15) (bits 6 w 21) : Except DecodeError Instr) = _
  rw [h1, h2, h3, h4]
  rfl

theorem sub (d : GIdx) (a : GIdx) (b : GIdx) : Statement (.sub d a b) := by
  refine s_word rfl (sa_lt (by decide) (by decide)) sa_tag fun w h => ?_
  have h0 : num 7 w 2 = 1 := sa_op (by decide) h
  have h1 : bits 6 w 9 = d := sa_bd (by decide) h
  have h2 : bits 6 w 15 = a := sa_ba (by decide) h
  have h3 : bits 6 w 21 = b := sa_bb (by decide) h
  have h4 : num 5 w 27 = 1 := sa_fn (by decide) (by decide) h
  unfold decodeFieldsS
  rw [h0]
  show (decodeInt (num 5 w 27) (bits 6 w 9) (bits 6 w 15) (bits 6 w 21) : Except DecodeError Instr) = _
  rw [h1, h2, h3, h4]
  rfl

theorem mul (d : GIdx) (a : GIdx) (b : GIdx) : Statement (.mul d a b) := by
  refine s_word rfl (sa_lt (by decide) (by decide)) sa_tag fun w h => ?_
  have h0 : num 7 w 2 = 1 := sa_op (by decide) h
  have h1 : bits 6 w 9 = d := sa_bd (by decide) h
  have h2 : bits 6 w 15 = a := sa_ba (by decide) h
  have h3 : bits 6 w 21 = b := sa_bb (by decide) h
  have h4 : num 5 w 27 = 2 := sa_fn (by decide) (by decide) h
  unfold decodeFieldsS
  rw [h0]
  show (decodeInt (num 5 w 27) (bits 6 w 9) (bits 6 w 15) (bits 6 w 21) : Except DecodeError Instr) = _
  rw [h1, h2, h3, h4]
  rfl

theorem mulh (d : GIdx) (a : GIdx) (b : GIdx) : Statement (.mulh d a b) := by
  refine s_word rfl (sa_lt (by decide) (by decide)) sa_tag fun w h => ?_
  have h0 : num 7 w 2 = 1 := sa_op (by decide) h
  have h1 : bits 6 w 9 = d := sa_bd (by decide) h
  have h2 : bits 6 w 15 = a := sa_ba (by decide) h
  have h3 : bits 6 w 21 = b := sa_bb (by decide) h
  have h4 : num 5 w 27 = 3 := sa_fn (by decide) (by decide) h
  unfold decodeFieldsS
  rw [h0]
  show (decodeInt (num 5 w 27) (bits 6 w 9) (bits 6 w 15) (bits 6 w 21) : Except DecodeError Instr) = _
  rw [h1, h2, h3, h4]
  rfl

theorem div (d : GIdx) (a : GIdx) (b : GIdx) : Statement (.div d a b) := by
  refine s_word rfl (sa_lt (by decide) (by decide)) sa_tag fun w h => ?_
  have h0 : num 7 w 2 = 1 := sa_op (by decide) h
  have h1 : bits 6 w 9 = d := sa_bd (by decide) h
  have h2 : bits 6 w 15 = a := sa_ba (by decide) h
  have h3 : bits 6 w 21 = b := sa_bb (by decide) h
  have h4 : num 5 w 27 = 4 := sa_fn (by decide) (by decide) h
  unfold decodeFieldsS
  rw [h0]
  show (decodeInt (num 5 w 27) (bits 6 w 9) (bits 6 w 15) (bits 6 w 21) : Except DecodeError Instr) = _
  rw [h1, h2, h3, h4]
  rfl

theorem rem (d : GIdx) (a : GIdx) (b : GIdx) : Statement (.rem d a b) := by
  refine s_word rfl (sa_lt (by decide) (by decide)) sa_tag fun w h => ?_
  have h0 : num 7 w 2 = 1 := sa_op (by decide) h
  have h1 : bits 6 w 9 = d := sa_bd (by decide) h
  have h2 : bits 6 w 15 = a := sa_ba (by decide) h
  have h3 : bits 6 w 21 = b := sa_bb (by decide) h
  have h4 : num 5 w 27 = 5 := sa_fn (by decide) (by decide) h
  unfold decodeFieldsS
  rw [h0]
  show (decodeInt (num 5 w 27) (bits 6 w 9) (bits 6 w 15) (bits 6 w 21) : Except DecodeError Instr) = _
  rw [h1, h2, h3, h4]
  rfl

theorem and (d : GIdx) (a : GIdx) (b : GIdx) : Statement (.and d a b) := by
  refine s_word rfl (sa_lt (by decide) (by decide)) sa_tag fun w h => ?_
  have h0 : num 7 w 2 = 1 := sa_op (by decide) h
  have h1 : bits 6 w 9 = d := sa_bd (by decide) h
  have h2 : bits 6 w 15 = a := sa_ba (by decide) h
  have h3 : bits 6 w 21 = b := sa_bb (by decide) h
  have h4 : num 5 w 27 = 6 := sa_fn (by decide) (by decide) h
  unfold decodeFieldsS
  rw [h0]
  show (decodeInt (num 5 w 27) (bits 6 w 9) (bits 6 w 15) (bits 6 w 21) : Except DecodeError Instr) = _
  rw [h1, h2, h3, h4]
  rfl

theorem or (d : GIdx) (a : GIdx) (b : GIdx) : Statement (.or d a b) := by
  refine s_word rfl (sa_lt (by decide) (by decide)) sa_tag fun w h => ?_
  have h0 : num 7 w 2 = 1 := sa_op (by decide) h
  have h1 : bits 6 w 9 = d := sa_bd (by decide) h
  have h2 : bits 6 w 15 = a := sa_ba (by decide) h
  have h3 : bits 6 w 21 = b := sa_bb (by decide) h
  have h4 : num 5 w 27 = 7 := sa_fn (by decide) (by decide) h
  unfold decodeFieldsS
  rw [h0]
  show (decodeInt (num 5 w 27) (bits 6 w 9) (bits 6 w 15) (bits 6 w 21) : Except DecodeError Instr) = _
  rw [h1, h2, h3, h4]
  rfl

theorem xor (d : GIdx) (a : GIdx) (b : GIdx) : Statement (.xor d a b) := by
  refine s_word rfl (sa_lt (by decide) (by decide)) sa_tag fun w h => ?_
  have h0 : num 7 w 2 = 1 := sa_op (by decide) h
  have h1 : bits 6 w 9 = d := sa_bd (by decide) h
  have h2 : bits 6 w 15 = a := sa_ba (by decide) h
  have h3 : bits 6 w 21 = b := sa_bb (by decide) h
  have h4 : num 5 w 27 = 8 := sa_fn (by decide) (by decide) h
  unfold decodeFieldsS
  rw [h0]
  show (decodeInt (num 5 w 27) (bits 6 w 9) (bits 6 w 15) (bits 6 w 21) : Except DecodeError Instr) = _
  rw [h1, h2, h3, h4]
  rfl

theorem sll (d : GIdx) (a : GIdx) (b : GIdx) : Statement (.sll d a b) := by
  refine s_word rfl (sa_lt (by decide) (by decide)) sa_tag fun w h => ?_
  have h0 : num 7 w 2 = 1 := sa_op (by decide) h
  have h1 : bits 6 w 9 = d := sa_bd (by decide) h
  have h2 : bits 6 w 15 = a := sa_ba (by decide) h
  have h3 : bits 6 w 21 = b := sa_bb (by decide) h
  have h4 : num 5 w 27 = 9 := sa_fn (by decide) (by decide) h
  unfold decodeFieldsS
  rw [h0]
  show (decodeInt (num 5 w 27) (bits 6 w 9) (bits 6 w 15) (bits 6 w 21) : Except DecodeError Instr) = _
  rw [h1, h2, h3, h4]
  rfl

theorem srl (d : GIdx) (a : GIdx) (b : GIdx) : Statement (.srl d a b) := by
  refine s_word rfl (sa_lt (by decide) (by decide)) sa_tag fun w h => ?_
  have h0 : num 7 w 2 = 1 := sa_op (by decide) h
  have h1 : bits 6 w 9 = d := sa_bd (by decide) h
  have h2 : bits 6 w 15 = a := sa_ba (by decide) h
  have h3 : bits 6 w 21 = b := sa_bb (by decide) h
  have h4 : num 5 w 27 = 10 := sa_fn (by decide) (by decide) h
  unfold decodeFieldsS
  rw [h0]
  show (decodeInt (num 5 w 27) (bits 6 w 9) (bits 6 w 15) (bits 6 w 21) : Except DecodeError Instr) = _
  rw [h1, h2, h3, h4]
  rfl

theorem sra (d : GIdx) (a : GIdx) (b : GIdx) : Statement (.sra d a b) := by
  refine s_word rfl (sa_lt (by decide) (by decide)) sa_tag fun w h => ?_
  have h0 : num 7 w 2 = 1 := sa_op (by decide) h
  have h1 : bits 6 w 9 = d := sa_bd (by decide) h
  have h2 : bits 6 w 15 = a := sa_ba (by decide) h
  have h3 : bits 6 w 21 = b := sa_bb (by decide) h
  have h4 : num 5 w 27 = 11 := sa_fn (by decide) (by decide) h
  unfold decodeFieldsS
  rw [h0]
  show (decodeInt (num 5 w 27) (bits 6 w 9) (bits 6 w 15) (bits 6 w 21) : Except DecodeError Instr) = _
  rw [h1, h2, h3, h4]
  rfl

theorem slt (d : GIdx) (a : GIdx) (b : GIdx) : Statement (.slt d a b) := by
  refine s_word rfl (sa_lt (by decide) (by decide)) sa_tag fun w h => ?_
  have h0 : num 7 w 2 = 1 := sa_op (by decide) h
  have h1 : bits 6 w 9 = d := sa_bd (by decide) h
  have h2 : bits 6 w 15 = a := sa_ba (by decide) h
  have h3 : bits 6 w 21 = b := sa_bb (by decide) h
  have h4 : num 5 w 27 = 12 := sa_fn (by decide) (by decide) h
  unfold decodeFieldsS
  rw [h0]
  show (decodeInt (num 5 w 27) (bits 6 w 9) (bits 6 w 15) (bits 6 w 21) : Except DecodeError Instr) = _
  rw [h1, h2, h3, h4]
  rfl

theorem sltu (d : GIdx) (a : GIdx) (b : GIdx) : Statement (.sltu d a b) := by
  refine s_word rfl (sa_lt (by decide) (by decide)) sa_tag fun w h => ?_
  have h0 : num 7 w 2 = 1 := sa_op (by decide) h
  have h1 : bits 6 w 9 = d := sa_bd (by decide) h
  have h2 : bits 6 w 15 = a := sa_ba (by decide) h
  have h3 : bits 6 w 21 = b := sa_bb (by decide) h
  have h4 : num 5 w 27 = 13 := sa_fn (by decide) (by decide) h
  unfold decodeFieldsS
  rw [h0]
  show (decodeInt (num 5 w 27) (bits 6 w 9) (bits 6 w 15) (bits 6 w 21) : Except DecodeError Instr) = _
  rw [h1, h2, h3, h4]
  rfl

theorem min (d : GIdx) (a : GIdx) (b : GIdx) : Statement (.min d a b) := by
  refine s_word rfl (sa_lt (by decide) (by decide)) sa_tag fun w h => ?_
  have h0 : num 7 w 2 = 1 := sa_op (by decide) h
  have h1 : bits 6 w 9 = d := sa_bd (by decide) h
  have h2 : bits 6 w 15 = a := sa_ba (by decide) h
  have h3 : bits 6 w 21 = b := sa_bb (by decide) h
  have h4 : num 5 w 27 = 14 := sa_fn (by decide) (by decide) h
  unfold decodeFieldsS
  rw [h0]
  show (decodeInt (num 5 w 27) (bits 6 w 9) (bits 6 w 15) (bits 6 w 21) : Except DecodeError Instr) = _
  rw [h1, h2, h3, h4]
  rfl

theorem max (d : GIdx) (a : GIdx) (b : GIdx) : Statement (.max d a b) := by
  refine s_word rfl (sa_lt (by decide) (by decide)) sa_tag fun w h => ?_
  have h0 : num 7 w 2 = 1 := sa_op (by decide) h
  have h1 : bits 6 w 9 = d := sa_bd (by decide) h
  have h2 : bits 6 w 15 = a := sa_ba (by decide) h
  have h3 : bits 6 w 21 = b := sa_bb (by decide) h
  have h4 : num 5 w 27 = 15 := sa_fn (by decide) (by decide) h
  unfold decodeFieldsS
  rw [h0]
  show (decodeInt (num 5 w 27) (bits 6 w 9) (bits 6 w 15) (bits 6 w 21) : Except DecodeError Instr) = _
  rw [h1, h2, h3, h4]
  rfl

theorem clz (d : GIdx) (a : GIdx) : Statement (.clz d a) := by
  refine s_word rfl (sa_lt (by decide) (by decide)) sa_tag fun w h => ?_
  have h0 : num 7 w 2 = 1 := sa_op (by decide) h
  have h1 : bits 6 w 9 = d := sa_bd (by decide) h
  have h2 : bits 6 w 15 = a := sa_ba (by decide) h
  have h3 : bits 6 w 21 = 0#6 := sa_bb (by decide) h
  have h4 : num 5 w 27 = 16 := sa_fn (by decide) (by decide) h
  unfold decodeFieldsS
  rw [h0]
  show (decodeInt (num 5 w 27) (bits 6 w 9) (bits 6 w 15) (bits 6 w 21) : Except DecodeError Instr) = _
  rw [h1, h2, h3, h4]
  rfl

theorem popc (d : GIdx) (a : GIdx) : Statement (.popc d a) := by
  refine s_word rfl (sa_lt (by decide) (by decide)) sa_tag fun w h => ?_
  have h0 : num 7 w 2 = 1 := sa_op (by decide) h
  have h1 : bits 6 w 9 = d := sa_bd (by decide) h
  have h2 : bits 6 w 15 = a := sa_ba (by decide) h
  have h3 : bits 6 w 21 = 0#6 := sa_bb (by decide) h
  have h4 : num 5 w 27 = 17 := sa_fn (by decide) (by decide) h
  unfold decodeFieldsS
  rw [h0]
  show (decodeInt (num 5 w 27) (bits 6 w 9) (bits 6 w 15) (bits 6 w 21) : Except DecodeError Instr) = _
  rw [h1, h2, h3, h4]
  rfl

theorem mov (d : GIdx) (a : GIdx) : Statement (.mov d a) := by
  refine s_word rfl (sa_lt (by decide) (by decide)) sa_tag fun w h => ?_
  have h0 : num 7 w 2 = 1 := sa_op (by decide) h
  have h1 : bits 6 w 9 = d := sa_bd (by decide) h
  have h2 : bits 6 w 15 = a := sa_ba (by decide) h
  have h3 : bits 6 w 21 = 0#6 := sa_bb (by decide) h
  have h4 : num 5 w 27 = 18 := sa_fn (by decide) (by decide) h
  unfold decodeFieldsS
  rw [h0]
  show (decodeInt (num 5 w 27) (bits 6 w 9) (bits 6 w 15) (bits 6 w 21) : Except DecodeError Instr) = _
  rw [h1, h2, h3, h4]
  rfl

theorem addi (d : GIdx) (a : GIdx) (imm : BitVec 11) : Statement (.addi d a imm) := by
  have := d.isLt
  have := a.isLt
  have := imm.isLt
  refine s_word rfl (sb_lt (by decide) (by omega)) sb_tag fun w h => ?_
  have h0 : num 7 w 2 = 2 := sb_op (by decide) h
  have h1 : bits 6 w 9 = d := sb_bd (by decide) h
  have h2 : bits 6 w 15 = a := sb_ba (by decide) h
  have h3 : bits 11 w 21 = imm := sb_im (by decide) h
  unfold decodeFieldsS
  rw [h0]
  show (.ok (.addi (bits 6 w 9 : GIdx) (bits 6 w 15 : GIdx) (bits 11 w 21 : BitVec 11)) : Except DecodeError Instr) = _
  rw [h1, h2, h3]

theorem andi (d : GIdx) (a : GIdx) (imm : BitVec 11) : Statement (.andi d a imm) := by
  have := d.isLt
  have := a.isLt
  have := imm.isLt
  refine s_word rfl (sb_lt (by decide) (by omega)) sb_tag fun w h => ?_
  have h0 : num 7 w 2 = 3 := sb_op (by decide) h
  have h1 : bits 6 w 9 = d := sb_bd (by decide) h
  have h2 : bits 6 w 15 = a := sb_ba (by decide) h
  have h3 : bits 11 w 21 = imm := sb_im (by decide) h
  unfold decodeFieldsS
  rw [h0]
  show (.ok (.andi (bits 6 w 9 : GIdx) (bits 6 w 15 : GIdx) (bits 11 w 21 : BitVec 11)) : Except DecodeError Instr) = _
  rw [h1, h2, h3]

theorem ori (d : GIdx) (a : GIdx) (imm : BitVec 11) : Statement (.ori d a imm) := by
  have := d.isLt
  have := a.isLt
  have := imm.isLt
  refine s_word rfl (sb_lt (by decide) (by omega)) sb_tag fun w h => ?_
  have h0 : num 7 w 2 = 4 := sb_op (by decide) h
  have h1 : bits 6 w 9 = d := sb_bd (by decide) h
  have h2 : bits 6 w 15 = a := sb_ba (by decide) h
  have h3 : bits 11 w 21 = imm := sb_im (by decide) h
  unfold decodeFieldsS
  rw [h0]
  show (.ok (.ori (bits 6 w 9 : GIdx) (bits 6 w 15 : GIdx) (bits 11 w 21 : BitVec 11)) : Except DecodeError Instr) = _
  rw [h1, h2, h3]

theorem xori (d : GIdx) (a : GIdx) (imm : BitVec 11) : Statement (.xori d a imm) := by
  have := d.isLt
  have := a.isLt
  have := imm.isLt
  refine s_word rfl (sb_lt (by decide) (by omega)) sb_tag fun w h => ?_
  have h0 : num 7 w 2 = 5 := sb_op (by decide) h
  have h1 : bits 6 w 9 = d := sb_bd (by decide) h
  have h2 : bits 6 w 15 = a := sb_ba (by decide) h
  have h3 : bits 11 w 21 = imm := sb_im (by decide) h
  unfold decodeFieldsS
  rw [h0]
  show (.ok (.xori (bits 6 w 9 : GIdx) (bits 6 w 15 : GIdx) (bits 11 w 21 : BitVec 11)) : Except DecodeError Instr) = _
  rw [h1, h2, h3]

theorem slli (d : GIdx) (a : GIdx) (sh : BitVec 7) : Statement (.slli d a sh) := by
  have := d.isLt
  have := a.isLt
  have := sh.isLt
  refine s_word rfl (sb_lt (by decide) (by omega)) sb_tag fun w h => ?_
  have h0 : num 7 w 2 = 6 := sb_op (by decide) h
  have h1 : bits 6 w 9 = d := sb_bd (by decide) h
  have h2 : bits 6 w 15 = a := sb_ba (by decide) h
  simp only [encSB] at h
  have h3 : bits 7 w 21 = sh := bits_eq _ (by omega)
  have h4 : num 4 w 28 = 0 := by unfold num; omega
  unfold decodeFieldsS
  rw [h0]
  show (zeroed (num 4 w 28) (.slli (bits 6 w 9 : GIdx) (bits 6 w 15 : GIdx) (bits 7 w 21)) : Except DecodeError Instr) = _
  rw [h1, h2, h3, h4]
  rfl

theorem srli (d : GIdx) (a : GIdx) (sh : BitVec 7) : Statement (.srli d a sh) := by
  have := d.isLt
  have := a.isLt
  have := sh.isLt
  refine s_word rfl (sb_lt (by decide) (by omega)) sb_tag fun w h => ?_
  have h0 : num 7 w 2 = 7 := sb_op (by decide) h
  have h1 : bits 6 w 9 = d := sb_bd (by decide) h
  have h2 : bits 6 w 15 = a := sb_ba (by decide) h
  simp only [encSB] at h
  have h3 : bits 7 w 21 = sh := bits_eq _ (by omega)
  have h4 : num 4 w 28 = 0 := by unfold num; omega
  unfold decodeFieldsS
  rw [h0]
  show (zeroed (num 4 w 28) (.srli (bits 6 w 9 : GIdx) (bits 6 w 15 : GIdx) (bits 7 w 21)) : Except DecodeError Instr) = _
  rw [h1, h2, h3, h4]
  rfl

theorem srai (d : GIdx) (a : GIdx) (sh : BitVec 7) : Statement (.srai d a sh) := by
  have := d.isLt
  have := a.isLt
  have := sh.isLt
  refine s_word rfl (sb_lt (by decide) (by omega)) sb_tag fun w h => ?_
  have h0 : num 7 w 2 = 8 := sb_op (by decide) h
  have h1 : bits 6 w 9 = d := sb_bd (by decide) h
  have h2 : bits 6 w 15 = a := sb_ba (by decide) h
  simp only [encSB] at h
  have h3 : bits 7 w 21 = sh := bits_eq _ (by omega)
  have h4 : num 4 w 28 = 0 := by unfold num; omega
  unfold decodeFieldsS
  rw [h0]
  show (zeroed (num 4 w 28) (.srai (bits 6 w 9 : GIdx) (bits 6 w 15 : GIdx) (bits 7 w 21)) : Except DecodeError Instr) = _
  rw [h1, h2, h3, h4]
  rfl

theorem lih (d : GIdx) (imm : BitVec 17) : Statement (.lih d imm) := by
  have := d.isLt
  have := imm.isLt
  refine s_word rfl (sc_lt (by decide) (by omega)) sc_tag fun w h => ?_
  have h0 : num 7 w 2 = 9 := sc_op (by decide) h
  have h1 : bits 6 w 9 = d := sc_bd (by decide) h
  have h2 : bits 17 w 15 = imm := sc_im (by decide) h
  unfold decodeFieldsS
  rw [h0]
  show (.ok (.lih (bits 6 w 9 : GIdx) (bits 17 w 15 : BitVec 17)) : Except DecodeError Instr) = _
  rw [h1, h2]

theorem widf (d : GIdx) (a : GIdx) (n : BitVec 3) : Statement (.widf d a n) := by
  have := d.isLt
  have := a.isLt
  have := n.isLt
  refine s_word rfl (sb_lt (by decide) (by omega)) sb_tag fun w h => ?_
  have h0 : num 7 w 2 = 10 := sb_op (by decide) h
  have h1 : bits 6 w 9 = d := sb_bd (by decide) h
  have h2 : bits 6 w 15 = a := sb_ba (by decide) h
  simp only [encSB] at h
  have h3 : bits 3 w 21 = n := bits_eq _ (by omega)
  have h4 : num 8 w 24 = 0 := by unfold num; omega
  unfold decodeFieldsS
  rw [h0]
  show (zeroed (num 8 w 24) (.widf (bits 6 w 9 : GIdx) (bits 6 w 15 : GIdx) (bits 3 w 21)) : Except DecodeError Instr) = _
  rw [h1, h2, h3, h4]
  rfl

theorem capBnd (d : GIdx) (a : GIdx) (b : GIdx) : Statement (.capBnd d a b) := by
  refine s_word rfl (sa_lt (by decide) (by decide)) sa_tag fun w h => ?_
  have h0 : num 7 w 2 = 11 := sa_op (by decide) h
  have h1 : bits 6 w 9 = d := sa_bd (by decide) h
  have h2 : bits 6 w 15 = a := sa_ba (by decide) h
  have h3 : bits 6 w 21 = b := sa_bb (by decide) h
  have h4 : num 5 w 27 = 0 := sa_fn (by decide) (by decide) h
  unfold decodeFieldsS
  rw [h0]
  show (decodeCapability (num 5 w 27) (bits 6 w 9) (bits 6 w 15) (bits 6 w 21) : Except DecodeError Instr) = _
  rw [h1, h2, h3, h4]
  rfl

theorem capPerm (d : GIdx) (a : GIdx) (b : GIdx) : Statement (.capPerm d a b) := by
  refine s_word rfl (sa_lt (by decide) (by decide)) sa_tag fun w h => ?_
  have h0 : num 7 w 2 = 11 := sa_op (by decide) h
  have h1 : bits 6 w 9 = d := sa_bd (by decide) h
  have h2 : bits 6 w 15 = a := sa_ba (by decide) h
  have h3 : bits 6 w 21 = b := sa_bb (by decide) h
  have h4 : num 5 w 27 = 1 := sa_fn (by decide) (by decide) h
  unfold decodeFieldsS
  rw [h0]
  show (decodeCapability (num 5 w 27) (bits 6 w 9) (bits 6 w 15) (bits 6 w 21) : Except DecodeError Instr) = _
  rw [h1, h2, h3, h4]
  rfl

theorem capInc (d : GIdx) (a : GIdx) (b : GIdx) : Statement (.capInc d a b) := by
  refine s_word rfl (sa_lt (by decide) (by decide)) sa_tag fun w h => ?_
  have h0 : num 7 w 2 = 11 := sa_op (by decide) h
  have h1 : bits 6 w 9 = d := sa_bd (by decide) h
  have h2 : bits 6 w 15 = a := sa_ba (by decide) h
  have h3 : bits 6 w 21 = b := sa_bb (by decide) h
  have h4 : num 5 w 27 = 2 := sa_fn (by decide) (by decide) h
  unfold decodeFieldsS
  rw [h0]
  show (decodeCapability (num 5 w 27) (bits 6 w 9) (bits 6 w 15) (bits 6 w 21) : Except DecodeError Instr) = _
  rw [h1, h2, h3, h4]
  rfl

theorem capSeal (d : GIdx) (a : GIdx) (b : GIdx) : Statement (.capSeal d a b) := by
  refine s_word rfl (sa_lt (by decide) (by decide)) sa_tag fun w h => ?_
  have h0 : num 7 w 2 = 11 := sa_op (by decide) h
  have h1 : bits 6 w 9 = d := sa_bd (by decide) h
  have h2 : bits 6 w 15 = a := sa_ba (by decide) h
  have h3 : bits 6 w 21 = b := sa_bb (by decide) h
  have h4 : num 5 w 27 = 3 := sa_fn (by decide) (by decide) h
  unfold decodeFieldsS
  rw [h0]
  show (decodeCapability (num 5 w 27) (bits 6 w 9) (bits 6 w 15) (bits 6 w 21) : Except DecodeError Instr) = _
  rw [h1, h2, h3, h4]
  rfl

theorem capMov (d : GIdx) (a : GIdx) : Statement (.capMov d a) := by
  refine s_word rfl (sa_lt (by decide) (by decide)) sa_tag fun w h => ?_
  have h0 : num 7 w 2 = 11 := sa_op (by decide) h
  have h1 : bits 6 w 9 = d := sa_bd (by decide) h
  have h2 : bits 6 w 15 = a := sa_ba (by decide) h
  have h3 : bits 6 w 21 = 0#6 := sa_bb (by decide) h
  have h4 : num 5 w 27 = 4 := sa_fn (by decide) (by decide) h
  unfold decodeFieldsS
  rw [h0]
  show (decodeCapability (num 5 w 27) (bits 6 w 9) (bits 6 w 15) (bits 6 w 21) : Except DecodeError Instr) = _
  rw [h1, h2, h3, h4]
  rfl

theorem capClr (d : GIdx) (a : GIdx) : Statement (.capClr d a) := by
  refine s_word rfl (sa_lt (by decide) (by decide)) sa_tag fun w h => ?_
  have h0 : num 7 w 2 = 11 := sa_op (by decide) h
  have h1 : bits 6 w 9 = d := sa_bd (by decide) h
  have h2 : bits 6 w 15 = a := sa_ba (by decide) h
  have h3 : bits 6 w 21 = 0#6 := sa_bb (by decide) h
  have h4 : num 5 w 27 = 5 := sa_fn (by decide) (by decide) h
  unfold decodeFieldsS
  rw [h0]
  show (decodeCapability (num 5 w 27) (bits 6 w 9) (bits 6 w 15) (bits 6 w 21) : Except DecodeError Instr) = _
  rw [h1, h2, h3, h4]
  rfl

theorem capGet (d : GIdx) (a : GIdx) (sel : BitVec 3) : Statement (.capGet d a sel) := by
  have := d.isLt
  have := a.isLt
  have := sel.isLt
  refine s_word rfl (sb_lt (by decide) (by omega)) sb_tag fun w h => ?_
  have h0 : num 7 w 2 = 12 := sb_op (by decide) h
  have h1 : bits 6 w 9 = d := sb_bd (by decide) h
  have h2 : bits 6 w 15 = a := sb_ba (by decide) h
  simp only [encSB] at h
  have h3 : bits 3 w 21 = sel := bits_eq _ (by omega)
  have h4 : num 8 w 24 = 0 := by unfold num; omega
  unfold decodeFieldsS
  rw [h0]
  show (zeroed (num 8 w 24) (.capGet (bits 6 w 9 : GIdx) (bits 6 w 15 : GIdx) (bits 3 w 21)) : Except DecodeError Instr) = _
  rw [h1, h2, h3, h4]
  rfl

theorem beq (a : GIdx) (b : GIdx) (off : BitVec 11) : Statement (.beq a b off) := by
  have := a.isLt
  have := b.isLt
  have := off.isLt
  refine s_word rfl (sb_lt (by decide) (by omega)) sb_tag fun w h => ?_
  have h0 : num 7 w 2 = 16 := sb_op (by decide) h
  have h1 : bits 6 w 9 = a := sb_bd (by decide) h
  have h2 : bits 6 w 15 = b := sb_ba (by decide) h
  have h3 : bits 11 w 21 = off := sb_im (by decide) h
  unfold decodeFieldsS
  rw [h0]
  show (.ok (.beq (bits 6 w 9 : GIdx) (bits 6 w 15 : GIdx) (bits 11 w 21 : BitVec 11)) : Except DecodeError Instr) = _
  rw [h1, h2, h3]

theorem bne (a : GIdx) (b : GIdx) (off : BitVec 11) : Statement (.bne a b off) := by
  have := a.isLt
  have := b.isLt
  have := off.isLt
  refine s_word rfl (sb_lt (by decide) (by omega)) sb_tag fun w h => ?_
  have h0 : num 7 w 2 = 17 := sb_op (by decide) h
  have h1 : bits 6 w 9 = a := sb_bd (by decide) h
  have h2 : bits 6 w 15 = b := sb_ba (by decide) h
  have h3 : bits 11 w 21 = off := sb_im (by decide) h
  unfold decodeFieldsS
  rw [h0]
  show (.ok (.bne (bits 6 w 9 : GIdx) (bits 6 w 15 : GIdx) (bits 11 w 21 : BitVec 11)) : Except DecodeError Instr) = _
  rw [h1, h2, h3]

theorem blt (a : GIdx) (b : GIdx) (off : BitVec 11) : Statement (.blt a b off) := by
  have := a.isLt
  have := b.isLt
  have := off.isLt
  refine s_word rfl (sb_lt (by decide) (by omega)) sb_tag fun w h => ?_
  have h0 : num 7 w 2 = 18 := sb_op (by decide) h
  have h1 : bits 6 w 9 = a := sb_bd (by decide) h
  have h2 : bits 6 w 15 = b := sb_ba (by decide) h
  have h3 : bits 11 w 21 = off := sb_im (by decide) h
  unfold decodeFieldsS
  rw [h0]
  show (.ok (.blt (bits 6 w 9 : GIdx) (bits 6 w 15 : GIdx) (bits 11 w 21 : BitVec 11)) : Except DecodeError Instr) = _
  rw [h1, h2, h3]

theorem bge (a : GIdx) (b : GIdx) (off : BitVec 11) : Statement (.bge a b off) := by
  have := a.isLt
  have := b.isLt
  have := off.isLt
  refine s_word rfl (sb_lt (by decide) (by omega)) sb_tag fun w h => ?_
  have h0 : num 7 w 2 = 19 := sb_op (by decide) h
  have h1 : bits 6 w 9 = a := sb_bd (by decide) h
  have h2 : bits 6 w 15 = b := sb_ba (by decide) h
  have h3 : bits 11 w 21 = off := sb_im (by decide) h
  unfold decodeFieldsS
  rw [h0]
  show (.ok (.bge (bits 6 w 9 : GIdx) (bits 6 w 15 : GIdx) (bits 11 w 21 : BitVec 11)) : Except DecodeError Instr) = _
  rw [h1, h2, h3]

theorem bltu (a : GIdx) (b : GIdx) (off : BitVec 11) : Statement (.bltu a b off) := by
  have := a.isLt
  have := b.isLt
  have := off.isLt
  refine s_word rfl (sb_lt (by decide) (by omega)) sb_tag fun w h => ?_
  have h0 : num 7 w 2 = 20 := sb_op (by decide) h
  have h1 : bits 6 w 9 = a := sb_bd (by decide) h
  have h2 : bits 6 w 15 = b := sb_ba (by decide) h
  have h3 : bits 11 w 21 = off := sb_im (by decide) h
  unfold decodeFieldsS
  rw [h0]
  show (.ok (.bltu (bits 6 w 9 : GIdx) (bits 6 w 15 : GIdx) (bits 11 w 21 : BitVec 11)) : Except DecodeError Instr) = _
  rw [h1, h2, h3]

theorem bgeu (a : GIdx) (b : GIdx) (off : BitVec 11) : Statement (.bgeu a b off) := by
  have := a.isLt
  have := b.isLt
  have := off.isLt
  refine s_word rfl (sb_lt (by decide) (by omega)) sb_tag fun w h => ?_
  have h0 : num 7 w 2 = 21 := sb_op (by decide) h
  have h1 : bits 6 w 9 = a := sb_bd (by decide) h
  have h2 : bits 6 w 15 = b := sb_ba (by decide) h
  have h3 : bits 11 w 21 = off := sb_im (by decide) h
  unfold decodeFieldsS
  rw [h0]
  show (.ok (.bgeu (bits 6 w 9 : GIdx) (bits 6 w 15 : GIdx) (bits 11 w 21 : BitVec 11)) : Except DecodeError Instr) = _
  rw [h1, h2, h3]

theorem jal (d : GIdx) (off : BitVec 17) : Statement (.jal d off) := by
  have := d.isLt
  have := off.isLt
  refine s_word rfl (sc_lt (by decide) (by omega)) sc_tag fun w h => ?_
  have h0 : num 7 w 2 = 22 := sc_op (by decide) h
  have h1 : bits 6 w 9 = d := sc_bd (by decide) h
  have h2 : bits 17 w 15 = off := sc_im (by decide) h
  unfold decodeFieldsS
  rw [h0]
  show (.ok (.jal (bits 6 w 9 : GIdx) (bits 17 w 15 : BitVec 17)) : Except DecodeError Instr) = _
  rw [h1, h2]

theorem jalr (d : GIdx) (a : GIdx) (off : BitVec 11) : Statement (.jalr d a off) := by
  have := d.isLt
  have := a.isLt
  have := off.isLt
  refine s_word rfl (sb_lt (by decide) (by omega)) sb_tag fun w h => ?_
  have h0 : num 7 w 2 = 23 := sb_op (by decide) h
  have h1 : bits 6 w 9 = d := sb_bd (by decide) h
  have h2 : bits 6 w 15 = a := sb_ba (by decide) h
  have h3 : bits 11 w 21 = off := sb_im (by decide) h
  unfold decodeFieldsS
  rw [h0]
  show (.ok (.jalr (bits 6 w 9 : GIdx) (bits 6 w 15 : GIdx) (bits 11 w 21 : BitVec 11)) : Except DecodeError Instr) = _
  rw [h1, h2, h3]

theorem nest (e : Engine) (a : GIdx) (words : BitVec 5) (levels : BitVec 3) : Statement (.nest e a words levels) := by
  have := e.code_lt
  have := a.isLt
  have := words.isLt
  have := levels.isLt
  refine s_word rfl (sb_lt (by decide) (by omega)) sb_tag fun w h => ?_
  have h0 : num 7 w 2 = 24 := sb_op (by decide) h
  have h2 : bits 6 w 15 = a := sb_ba (by decide) h
  have h5 : num 6 w 9 = 0 := sb_nd (by decide) h
  simp only [encSB, BitVec.ofNat_eq_ofNat, BitVec.toNat_ofNat] at h
  have h1 : num 2 w 21 = e.code := by unfold num; omega
  have h3 : bits 5 w 23 = words := bits_eq _ (by omega)
  have h4 : bits 3 w 28 = levels := bits_eq _ (by omega)
  have h6 : num 1 w 31 = 0 := by unfold num; omega
  unfold decodeFieldsS
  rw [h0]
  show (zeroed ((num 6 w 9) + num 1 w 31) (.nest (decodeEngine (num 2 w 21)) (bits 6 w 15 : GIdx) (bits 5 w 23) (bits 3 w 28)) : Except DecodeError Instr) = _
  rw [h1, h2, h3, h4, h5, h6]
  cases e <;> rfl

theorem safept (idx : BitVec 17) : Statement (.safept idx) := by
  have := idx.isLt
  refine s_word rfl (sc_lt (by decide) (by omega)) sc_tag fun w h => ?_
  have h0 : num 7 w 2 = 25 := sc_op (by decide) h
  have h1 : bits 17 w 15 = idx := sc_im (by decide) h
  have h2 : num 6 w 9 = 0 := sc_nd (by decide) h
  unfold decodeFieldsS
  rw [h0]
  show (zeroed (num 6 w 9) (.safept (bits 17 w 15 : BitVec 17)) : Except DecodeError Instr) = _
  rw [h1, h2]
  rfl

theorem syncw (mask : BitVec 4) : Statement (.syncw mask) := by
  have := mask.isLt
  refine s_word rfl (sc_lt (by decide) (by omega)) sc_tag fun w h => ?_
  have h0 : num 7 w 2 = 26 := sc_op (by decide) h
  have h2 : num 6 w 9 = 0 := sc_nd (by decide) h
  simp only [encSC, BitVec.ofNat_eq_ofNat, BitVec.toNat_ofNat] at h
  have h1 : bits 4 w 15 = mask := bits_eq _ (by omega)
  have h3 : num 13 w 19 = 0 := by unfold num; omega
  unfold decodeFieldsS
  rw [h0]
  show (zeroed ((num 6 w 9) + num 13 w 19) (.syncw (bits 4 w 15)) : Except DecodeError Instr) = _
  rw [h1, h2, h3]
  rfl

theorem mfc (d : GIdx) (idx : BitVec 11) : Statement (.mfc d idx) := by
  have := d.isLt
  have := idx.isLt
  refine s_word rfl (sb_lt (by decide) (by omega)) sb_tag fun w h => ?_
  have h0 : num 7 w 2 = 27 := sb_op (by decide) h
  have h1 : bits 6 w 9 = d := sb_bd (by decide) h
  have h2 : bits 11 w 21 = idx := sb_im (by decide) h
  have h3 : num 6 w 15 = 0 := sb_na (by decide) h
  unfold decodeFieldsS
  rw [h0]
  show (zeroed (num 6 w 15) (.mfc (bits 6 w 9 : GIdx) (bits 11 w 21 : BitVec 11)) : Except DecodeError Instr) = _
  rw [h1, h2, h3]
  rfl

theorem mtc (d : GIdx) (idx : BitVec 11) : Statement (.mtc d idx) := by
  have := d.isLt
  have := idx.isLt
  refine s_word rfl (sb_lt (by decide) (by omega)) sb_tag fun w h => ?_
  have h0 : num 7 w 2 = 28 := sb_op (by decide) h
  have h1 : bits 6 w 9 = d := sb_bd (by decide) h
  have h2 : bits 11 w 21 = idx := sb_im (by decide) h
  have h3 : num 6 w 15 = 0 := sb_na (by decide) h
  unfold decodeFieldsS
  rw [h0]
  show (zeroed (num 6 w 15) (.mtc (bits 6 w 9 : GIdx) (bits 11 w 21 : BitVec 11)) : Except DecodeError Instr) = _
  rw [h1, h2, h3]
  rfl

theorem mset (d : GIdx) (idx : BitVec 11) : Statement (.mset d idx) := by
  have := d.isLt
  have := idx.isLt
  refine s_word rfl (sb_lt (by decide) (by omega)) sb_tag fun w h => ?_
  have h0 : num 7 w 2 = 29 := sb_op (by decide) h
  have h1 : bits 6 w 9 = d := sb_bd (by decide) h
  have h2 : bits 11 w 21 = idx := sb_im (by decide) h
  have h3 : num 6 w 15 = 0 := sb_na (by decide) h
  unfold decodeFieldsS
  rw [h0]
  show (zeroed (num 6 w 15) (.mset (bits 6 w 9 : GIdx) (bits 11 w 21 : BitVec 11)) : Except DecodeError Instr) = _
  rw [h1, h2, h3]
  rfl

theorem mclr (d : GIdx) (idx : BitVec 11) : Statement (.mclr d idx) := by
  have := d.isLt
  have := idx.isLt
  refine s_word rfl (sb_lt (by decide) (by omega)) sb_tag fun w h => ?_
  have h0 : num 7 w 2 = 30 := sb_op (by decide) h
  have h1 : bits 6 w 9 = d := sb_bd (by decide) h
  have h2 : bits 11 w 21 = idx := sb_im (by decide) h
  have h3 : num 6 w 15 = 0 := sb_na (by decide) h
  unfold decodeFieldsS
  rw [h0]
  show (zeroed (num 6 w 15) (.mclr (bits 6 w 9 : GIdx) (bits 11 w 21 : BitVec 11)) : Except DecodeError Instr) = _
  rw [h1, h2, h3]
  rfl

theorem ldB (d : GIdx) (a : GIdx) (off : BitVec 11) : Statement (.ldB d a off) := by
  have := d.isLt
  have := a.isLt
  have := off.isLt
  refine s_word rfl (sb_lt (by decide) (by omega)) sb_tag fun w h => ?_
  have h0 : num 7 w 2 = 32 := sb_op (by decide) h
  have h1 : bits 6 w 9 = d := sb_bd (by decide) h
  have h2 : bits 6 w 15 = a := sb_ba (by decide) h
  have h3 : bits 11 w 21 = off := sb_im (by decide) h
  unfold decodeFieldsS
  rw [h0]
  show (.ok (.ldB (bits 6 w 9 : GIdx) (bits 6 w 15 : GIdx) (bits 11 w 21 : BitVec 11)) : Except DecodeError Instr) = _
  rw [h1, h2, h3]

theorem ldH (d : GIdx) (a : GIdx) (off : BitVec 11) : Statement (.ldH d a off) := by
  have := d.isLt
  have := a.isLt
  have := off.isLt
  refine s_word rfl (sb_lt (by decide) (by omega)) sb_tag fun w h => ?_
  have h0 : num 7 w 2 = 33 := sb_op (by decide) h
  have h1 : bits 6 w 9 = d := sb_bd (by decide) h
  have h2 : bits 6 w 15 = a := sb_ba (by decide) h
  have h3 : bits 11 w 21 = off := sb_im (by decide) h
  unfold decodeFieldsS
  rw [h0]
  show (.ok (.ldH (bits 6 w 9 : GIdx) (bits 6 w 15 : GIdx) (bits 11 w 21 : BitVec 11)) : Except DecodeError Instr) = _
  rw [h1, h2, h3]

theorem ldW (d : GIdx) (a : GIdx) (off : BitVec 11) : Statement (.ldW d a off) := by
  have := d.isLt
  have := a.isLt
  have := off.isLt
  refine s_word rfl (sb_lt (by decide) (by omega)) sb_tag fun w h => ?_
  have h0 : num 7 w 2 = 34 := sb_op (by decide) h
  have h1 : bits 6 w 9 = d := sb_bd (by decide) h
  have h2 : bits 6 w 15 = a := sb_ba (by decide) h
  have h3 : bits 11 w 21 = off := sb_im (by decide) h
  unfold decodeFieldsS
  rw [h0]
  show (.ok (.ldW (bits 6 w 9 : GIdx) (bits 6 w 15 : GIdx) (bits 11 w 21 : BitVec 11)) : Except DecodeError Instr) = _
  rw [h1, h2, h3]

theorem ldD (d : GIdx) (a : GIdx) (off : BitVec 11) : Statement (.ldD d a off) := by
  have := d.isLt
  have := a.isLt
  have := off.isLt
  refine s_word rfl (sb_lt (by decide) (by omega)) sb_tag fun w h => ?_
  have h0 : num 7 w 2 = 35 := sb_op (by decide) h
  have h1 : bits 6 w 9 = d := sb_bd (by decide) h
  have h2 : bits 6 w 15 = a := sb_ba (by decide) h
  have h3 : bits 11 w 21 = off := sb_im (by decide) h
  unfold decodeFieldsS
  rw [h0]
  show (.ok (.ldD (bits 6 w 9 : GIdx) (bits 6 w 15 : GIdx) (bits 11 w 21 : BitVec 11)) : Except DecodeError Instr) = _
  rw [h1, h2, h3]

theorem ldQ (d : GIdx) (a : GIdx) (off : BitVec 11) : Statement (.ldQ d a off) := by
  have := d.isLt
  have := a.isLt
  have := off.isLt
  refine s_word rfl (sb_lt (by decide) (by omega)) sb_tag fun w h => ?_
  have h0 : num 7 w 2 = 36 := sb_op (by decide) h
  have h1 : bits 6 w 9 = d := sb_bd (by decide) h
  have h2 : bits 6 w 15 = a := sb_ba (by decide) h
  have h3 : bits 11 w 21 = off := sb_im (by decide) h
  unfold decodeFieldsS
  rw [h0]
  show (.ok (.ldQ (bits 6 w 9 : GIdx) (bits 6 w 15 : GIdx) (bits 11 w 21 : BitVec 11)) : Except DecodeError Instr) = _
  rw [h1, h2, h3]

theorem stB (d : GIdx) (a : GIdx) (off : BitVec 11) : Statement (.stB d a off) := by
  have := d.isLt
  have := a.isLt
  have := off.isLt
  refine s_word rfl (sb_lt (by decide) (by omega)) sb_tag fun w h => ?_
  have h0 : num 7 w 2 = 37 := sb_op (by decide) h
  have h1 : bits 6 w 9 = d := sb_bd (by decide) h
  have h2 : bits 6 w 15 = a := sb_ba (by decide) h
  have h3 : bits 11 w 21 = off := sb_im (by decide) h
  unfold decodeFieldsS
  rw [h0]
  show (.ok (.stB (bits 6 w 9 : GIdx) (bits 6 w 15 : GIdx) (bits 11 w 21 : BitVec 11)) : Except DecodeError Instr) = _
  rw [h1, h2, h3]

theorem stH (d : GIdx) (a : GIdx) (off : BitVec 11) : Statement (.stH d a off) := by
  have := d.isLt
  have := a.isLt
  have := off.isLt
  refine s_word rfl (sb_lt (by decide) (by omega)) sb_tag fun w h => ?_
  have h0 : num 7 w 2 = 38 := sb_op (by decide) h
  have h1 : bits 6 w 9 = d := sb_bd (by decide) h
  have h2 : bits 6 w 15 = a := sb_ba (by decide) h
  have h3 : bits 11 w 21 = off := sb_im (by decide) h
  unfold decodeFieldsS
  rw [h0]
  show (.ok (.stH (bits 6 w 9 : GIdx) (bits 6 w 15 : GIdx) (bits 11 w 21 : BitVec 11)) : Except DecodeError Instr) = _
  rw [h1, h2, h3]

theorem stW (d : GIdx) (a : GIdx) (off : BitVec 11) : Statement (.stW d a off) := by
  have := d.isLt
  have := a.isLt
  have := off.isLt
  refine s_word rfl (sb_lt (by decide) (by omega)) sb_tag fun w h => ?_
  have h0 : num 7 w 2 = 39 := sb_op (by decide) h
  have h1 : bits 6 w 9 = d := sb_bd (by decide) h
  have h2 : bits 6 w 15 = a := sb_ba (by decide) h
  have h3 : bits 11 w 21 = off := sb_im (by decide) h
  unfold decodeFieldsS
  rw [h0]
  show (.ok (.stW (bits 6 w 9 : GIdx) (bits 6 w 15 : GIdx) (bits 11 w 21 : BitVec 11)) : Except DecodeError Instr) = _
  rw [h1, h2, h3]

theorem stD (d : GIdx) (a : GIdx) (off : BitVec 11) : Statement (.stD d a off) := by
  have := d.isLt
  have := a.isLt
  have := off.isLt
  refine s_word rfl (sb_lt (by decide) (by omega)) sb_tag fun w h => ?_
  have h0 : num 7 w 2 = 40 := sb_op (by decide) h
  have h1 : bits 6 w 9 = d := sb_bd (by decide) h
  have h2 : bits 6 w 15 = a := sb_ba (by decide) h
  have h3 : bits 11 w 21 = off := sb_im (by decide) h
  unfold decodeFieldsS
  rw [h0]
  show (.ok (.stD (bits 6 w 9 : GIdx) (bits 6 w 15 : GIdx) (bits 11 w 21 : BitVec 11)) : Except DecodeError Instr) = _
  rw [h1, h2, h3]

theorem stQ (d : GIdx) (a : GIdx) (off : BitVec 11) : Statement (.stQ d a off) := by
  have := d.isLt
  have := a.isLt
  have := off.isLt
  refine s_word rfl (sb_lt (by decide) (by omega)) sb_tag fun w h => ?_
  have h0 : num 7 w 2 = 41 := sb_op (by decide) h
  have h1 : bits 6 w 9 = d := sb_bd (by decide) h
  have h2 : bits 6 w 15 = a := sb_ba (by decide) h
  have h3 : bits 11 w 21 = off := sb_im (by decide) h
  unfold decodeFieldsS
  rw [h0]
  show (.ok (.stQ (bits 6 w 9 : GIdx) (bits 6 w 15 : GIdx) (bits 11 w 21 : BitVec 11)) : Except DecodeError Instr) = _
  rw [h1, h2, h3]

theorem ldloc (x : Width) (u : Update) (d : GIdx) (a : GIdx) (inc : BitVec 6) : Statement (.ldloc x u d a inc) := by
  have := x.code_lt
  have := u.code_lt
  have := d.isLt
  have := a.isLt
  have := inc.isLt
  refine s_word rfl (sb_lt (by decide) (by omega)) sb_tag fun w h => ?_
  have h0 : num 7 w 2 = 42 := sb_op (by decide) h
  have h1 : bits 6 w 9 = d := sb_bd (by decide) h
  have h2 : bits 6 w 15 = a := sb_ba (by decide) h
  simp only [encSB] at h
  have h3 : bits 6 w 26 = inc := bits_eq _ (by omega)
  have h4 : num 3 w 21 = x.code := by unfold num; omega
  have h5 : num 2 w 24 = u.code := by unfold num; omega
  unfold decodeFieldsS
  rw [h0]
  show (ofWidth (num 3 w 21) fun x => ofUpdate (num 2 w 24) fun u => .ok (.ldloc x u (bits 6 w 9 : GIdx) (bits 6 w 15 : GIdx) (bits 6 w 26)) : Except DecodeError Instr) = _
  rw [h1, h2, h3, h4, h5]
  cases x <;> cases u <;> rfl

theorem stloc (x : Width) (u : Update) (d : GIdx) (a : GIdx) (inc : BitVec 6) : Statement (.stloc x u d a inc) := by
  have := x.code_lt
  have := u.code_lt
  have := d.isLt
  have := a.isLt
  have := inc.isLt
  refine s_word rfl (sb_lt (by decide) (by omega)) sb_tag fun w h => ?_
  have h0 : num 7 w 2 = 43 := sb_op (by decide) h
  have h1 : bits 6 w 9 = d := sb_bd (by decide) h
  have h2 : bits 6 w 15 = a := sb_ba (by decide) h
  simp only [encSB] at h
  have h3 : bits 6 w 26 = inc := bits_eq _ (by omega)
  have h4 : num 3 w 21 = x.code := by unfold num; omega
  have h5 : num 2 w 24 = u.code := by unfold num; omega
  unfold decodeFieldsS
  rw [h0]
  show (ofWidth (num 3 w 21) fun x => ofUpdate (num 2 w 24) fun u => .ok (.stloc x u (bits 6 w 9 : GIdx) (bits 6 w 15 : GIdx) (bits 6 w 26)) : Except DecodeError Instr) = _
  rw [h1, h2, h3, h4, h5]
  cases x <;> cases u <;> rfl

theorem pref (lvl : BitVec 2) (a : GIdx) (off : BitVec 11) : Statement (.pref lvl a off) := by
  have := lvl.isLt
  have := a.isLt
  have := off.isLt
  refine s_word rfl (sb_lt (by decide) (by omega)) sb_tag fun w h => ?_
  have h0 : num 7 w 2 = 44 := sb_op (by decide) h
  have h2 : bits 6 w 15 = a := sb_ba (by decide) h
  have h3 : bits 11 w 21 = off := sb_im (by decide) h
  simp only [encSB, BitVec.toNat_setWidth] at h
  have h1 : bits 2 w 9 = lvl := bits_eq _ (by omega)
  have h4 : num 4 w 11 = 0 := by unfold num; omega
  unfold decodeFieldsS
  rw [h0]
  show (zeroed (num 4 w 11) (.pref (bits 2 w 9) (bits 6 w 15 : GIdx) (bits 11 w 21 : BitVec 11)) : Except DecodeError Instr) = _
  rw [h1, h2, h3, h4]
  rfl

theorem clwb (a : GIdx) (off : BitVec 11) : Statement (.clwb a off) := by
  have := a.isLt
  have := off.isLt
  refine s_word rfl (sb_lt (by decide) (by omega)) sb_tag fun w h => ?_
  have h0 : num 7 w 2 = 45 := sb_op (by decide) h
  have h1 : bits 6 w 15 = a := sb_ba (by decide) h
  have h2 : bits 11 w 21 = off := sb_im (by decide) h
  have h3 : num 6 w 9 = 0 := sb_nd (by decide) h
  unfold decodeFieldsS
  rw [h0]
  show (zeroed (num 6 w 9) (.clwb (bits 6 w 15 : GIdx) (bits 11 w 21 : BitVec 11)) : Except DecodeError Instr) = _
  rw [h1, h2, h3]
  rfl

theorem clinv (a : GIdx) (off : BitVec 11) : Statement (.clinv a off) := by
  have := a.isLt
  have := off.isLt
  refine s_word rfl (sb_lt (by decide) (by omega)) sb_tag fun w h => ?_
  have h0 : num 7 w 2 = 46 := sb_op (by decide) h
  have h1 : bits 6 w 15 = a := sb_ba (by decide) h
  have h2 : bits 11 w 21 = off := sb_im (by decide) h
  simp only [encSB, BitVec.ofNat_eq_ofNat, BitVec.toNat_ofNat] at h
  have h3 : num 5 w 10 = 0 := by unfold num; omega
  have h4 : flag w 9 = false := flag_eq _ (by simp only [Bool.toNat_false]; omega)
  unfold decodeFieldsS
  rw [h0]
  show (zeroed (num 5 w 10) (if flag w 9 then .clinvI (bits 6 w 15 : GIdx) (bits 11 w 21 : BitVec 11) else .clinv (bits 6 w 15 : GIdx) (bits 11 w 21 : BitVec 11)) : Except DecodeError Instr) = _
  rw [h1, h2, h3, h4]
  rfl

theorem clinvI (a : GIdx) (off : BitVec 11) : Statement (.clinvI a off) := by
  have := a.isLt
  have := off.isLt
  refine s_word rfl (sb_lt (by decide) (by omega)) sb_tag fun w h => ?_
  have h0 : num 7 w 2 = 46 := sb_op (by decide) h
  have h1 : bits 6 w 15 = a := sb_ba (by decide) h
  have h2 : bits 11 w 21 = off := sb_im (by decide) h
  simp only [encSB, BitVec.ofNat_eq_ofNat, BitVec.toNat_ofNat] at h
  have h3 : num 5 w 10 = 0 := by unfold num; omega
  have h4 : flag w 9 = true := flag_eq _ (by simp only [Bool.toNat_true]; omega)
  unfold decodeFieldsS
  rw [h0]
  show (zeroed (num 5 w 10) (if flag w 9 then .clinvI (bits 6 w 15 : GIdx) (bits 11 w 21 : BitVec 11) else .clinv (bits 6 w 15 : GIdx) (bits 11 w 21 : BitVec 11)) : Except DecodeError Instr) = _
  rw [h1, h2, h3, h4]
  rfl

theorem fence (s : Scope) : Statement (.fence s) := by
  have := s.code_lt
  refine s_word rfl (sc_lt (by decide) (by omega)) sc_tag fun w h => ?_
  have h0 : num 7 w 2 = 48 := sc_op (by decide) h
  have h2 : num 6 w 9 = 0 := sc_nd (by decide) h
  simp only [encSC, BitVec.ofNat_eq_ofNat, BitVec.toNat_ofNat] at h
  have h1 : num 3 w 15 = s.code := by unfold num; omega
  have h3 : num 14 w 18 = 0 := by unfold num; omega
  unfold decodeFieldsS
  rw [h0]
  show (inScope (num 3 w 15) fun s => zeroed ((num 6 w 9) + num 14 w 18) (.fence s) : Except DecodeError Instr) = _
  rw [h1, h2, h3]
  cases s <;> rfl

theorem ldacq (x : Width) (s : Scope) (d : GIdx) (a : GIdx) : Statement (.ldacq x s d a) := by
  have := x.code_lt
  have := s.code_lt
  have := d.isLt
  have := a.isLt
  refine s_word rfl (sb_lt (by decide) (by omega)) sb_tag fun w h => ?_
  have h0 : num 7 w 2 = 49 := sb_op (by decide) h
  have h1 : bits 6 w 9 = d := sb_bd (by decide) h
  have h2 : bits 6 w 15 = a := sb_ba (by decide) h
  simp only [encSB] at h
  have h3 : num 3 w 21 = x.code := by unfold num; omega
  have h4 : num 3 w 24 = s.code := by unfold num; omega
  have h5 : num 5 w 27 = 0 := by unfold num; omega
  unfold decodeFieldsS
  rw [h0]
  show (ofWidth (num 3 w 21) fun x => inScope (num 3 w 24) fun s => zeroed (num 5 w 27) (.ldacq x s (bits 6 w 9 : GIdx) (bits 6 w 15 : GIdx)) : Except DecodeError Instr) = _
  rw [h1, h2, h3, h4, h5]
  cases x <;> cases s <;> rfl

theorem strel (x : Width) (s : Scope) (d : GIdx) (a : GIdx) : Statement (.strel x s d a) := by
  have := x.code_lt
  have := s.code_lt
  have := d.isLt
  have := a.isLt
  refine s_word rfl (sb_lt (by decide) (by omega)) sb_tag fun w h => ?_
  have h0 : num 7 w 2 = 50 := sb_op (by decide) h
  have h1 : bits 6 w 9 = d := sb_bd (by decide) h
  have h2 : bits 6 w 15 = a := sb_ba (by decide) h
  simp only [encSB] at h
  have h3 : num 3 w 21 = x.code := by unfold num; omega
  have h4 : num 3 w 24 = s.code := by unfold num; omega
  have h5 : num 5 w 27 = 0 := by unfold num; omega
  unfold decodeFieldsS
  rw [h0]
  show (ofWidth (num 3 w 21) fun x => inScope (num 3 w 24) fun s => zeroed (num 5 w 27) (.strel x s (bits 6 w 9 : GIdx) (bits 6 w 15 : GIdx)) : Except DecodeError Instr) = _
  rw [h1, h2, h3, h4, h5]
  cases x <;> cases s <;> rfl

theorem amoAdd (o : Order) (s : Scope) (d : GIdx) (a : GIdx) (b : GIdx) : Statement (.amoAdd o s d a b) := by
  have := o.code_lt
  have := s.code_lt
  have := d.isLt
  have := a.isLt
  have := b.isLt
  refine s_word rfl (sa_lt (by decide) (by omega)) sa_tag fun w h => ?_
  have h0 : num 7 w 2 = 52 := sa_op (by decide) h
  have h2 : bits 6 w 9 = d := sa_bd (by decide) h
  have h3 : bits 6 w 15 = a := sa_ba (by decide) h
  have h4 : bits 6 w 21 = b := sa_bb (by decide) h
  simp only [encSA] at h
  have h1 : num 2 w 30 = o.code := by unfold num; omega
  have h5 : num 3 w 27 = s.code := by unfold num; omega
  unfold decodeFieldsS
  rw [h0]
  show (inScope (num 3 w 27) fun s => .ok (.amoAdd (decodeOrder (num 2 w 30)) s (bits 6 w 9 : GIdx) (bits 6 w 15 : GIdx) (bits 6 w 21 : GIdx)) : Except DecodeError Instr) = _
  rw [h1, h2, h3, h4, h5]
  cases o <;> cases s <;> rfl

theorem amoAnd (o : Order) (s : Scope) (d : GIdx) (a : GIdx) (b : GIdx) : Statement (.amoAnd o s d a b) := by
  have := o.code_lt
  have := s.code_lt
  have := d.isLt
  have := a.isLt
  have := b.isLt
  refine s_word rfl (sa_lt (by decide) (by omega)) sa_tag fun w h => ?_
  have h0 : num 7 w 2 = 53 := sa_op (by decide) h
  have h2 : bits 6 w 9 = d := sa_bd (by decide) h
  have h3 : bits 6 w 15 = a := sa_ba (by decide) h
  have h4 : bits 6 w 21 = b := sa_bb (by decide) h
  simp only [encSA] at h
  have h1 : num 2 w 30 = o.code := by unfold num; omega
  have h5 : num 3 w 27 = s.code := by unfold num; omega
  unfold decodeFieldsS
  rw [h0]
  show (inScope (num 3 w 27) fun s => .ok (.amoAnd (decodeOrder (num 2 w 30)) s (bits 6 w 9 : GIdx) (bits 6 w 15 : GIdx) (bits 6 w 21 : GIdx)) : Except DecodeError Instr) = _
  rw [h1, h2, h3, h4, h5]
  cases o <;> cases s <;> rfl

theorem amoOr (o : Order) (s : Scope) (d : GIdx) (a : GIdx) (b : GIdx) : Statement (.amoOr o s d a b) := by
  have := o.code_lt
  have := s.code_lt
  have := d.isLt
  have := a.isLt
  have := b.isLt
  refine s_word rfl (sa_lt (by decide) (by omega)) sa_tag fun w h => ?_
  have h0 : num 7 w 2 = 54 := sa_op (by decide) h
  have h2 : bits 6 w 9 = d := sa_bd (by decide) h
  have h3 : bits 6 w 15 = a := sa_ba (by decide) h
  have h4 : bits 6 w 21 = b := sa_bb (by decide) h
  simp only [encSA] at h
  have h1 : num 2 w 30 = o.code := by unfold num; omega
  have h5 : num 3 w 27 = s.code := by unfold num; omega
  unfold decodeFieldsS
  rw [h0]
  show (inScope (num 3 w 27) fun s => .ok (.amoOr (decodeOrder (num 2 w 30)) s (bits 6 w 9 : GIdx) (bits 6 w 15 : GIdx) (bits 6 w 21 : GIdx)) : Except DecodeError Instr) = _
  rw [h1, h2, h3, h4, h5]
  cases o <;> cases s <;> rfl

theorem amoXor (o : Order) (s : Scope) (d : GIdx) (a : GIdx) (b : GIdx) : Statement (.amoXor o s d a b) := by
  have := o.code_lt
  have := s.code_lt
  have := d.isLt
  have := a.isLt
  have := b.isLt
  refine s_word rfl (sa_lt (by decide) (by omega)) sa_tag fun w h => ?_
  have h0 : num 7 w 2 = 55 := sa_op (by decide) h
  have h2 : bits 6 w 9 = d := sa_bd (by decide) h
  have h3 : bits 6 w 15 = a := sa_ba (by decide) h
  have h4 : bits 6 w 21 = b := sa_bb (by decide) h
  simp only [encSA] at h
  have h1 : num 2 w 30 = o.code := by unfold num; omega
  have h5 : num 3 w 27 = s.code := by unfold num; omega
  unfold decodeFieldsS
  rw [h0]
  show (inScope (num 3 w 27) fun s => .ok (.amoXor (decodeOrder (num 2 w 30)) s (bits 6 w 9 : GIdx) (bits 6 w 15 : GIdx) (bits 6 w 21 : GIdx)) : Except DecodeError Instr) = _
  rw [h1, h2, h3, h4, h5]
  cases o <;> cases s <;> rfl

theorem amoMin (o : Order) (s : Scope) (d : GIdx) (a : GIdx) (b : GIdx) : Statement (.amoMin o s d a b) := by
  have := o.code_lt
  have := s.code_lt
  have := d.isLt
  have := a.isLt
  have := b.isLt
  refine s_word rfl (sa_lt (by decide) (by omega)) sa_tag fun w h => ?_
  have h0 : num 7 w 2 = 56 := sa_op (by decide) h
  have h2 : bits 6 w 9 = d := sa_bd (by decide) h
  have h3 : bits 6 w 15 = a := sa_ba (by decide) h
  have h4 : bits 6 w 21 = b := sa_bb (by decide) h
  simp only [encSA] at h
  have h1 : num 2 w 30 = o.code := by unfold num; omega
  have h5 : num 3 w 27 = s.code := by unfold num; omega
  unfold decodeFieldsS
  rw [h0]
  show (inScope (num 3 w 27) fun s => .ok (.amoMin (decodeOrder (num 2 w 30)) s (bits 6 w 9 : GIdx) (bits 6 w 15 : GIdx) (bits 6 w 21 : GIdx)) : Except DecodeError Instr) = _
  rw [h1, h2, h3, h4, h5]
  cases o <;> cases s <;> rfl

theorem amoMax (o : Order) (s : Scope) (d : GIdx) (a : GIdx) (b : GIdx) : Statement (.amoMax o s d a b) := by
  have := o.code_lt
  have := s.code_lt
  have := d.isLt
  have := a.isLt
  have := b.isLt
  refine s_word rfl (sa_lt (by decide) (by omega)) sa_tag fun w h => ?_
  have h0 : num 7 w 2 = 57 := sa_op (by decide) h
  have h2 : bits 6 w 9 = d := sa_bd (by decide) h
  have h3 : bits 6 w 15 = a := sa_ba (by decide) h
  have h4 : bits 6 w 21 = b := sa_bb (by decide) h
  simp only [encSA] at h
  have h1 : num 2 w 30 = o.code := by unfold num; omega
  have h5 : num 3 w 27 = s.code := by unfold num; omega
  unfold decodeFieldsS
  rw [h0]
  show (inScope (num 3 w 27) fun s => .ok (.amoMax (decodeOrder (num 2 w 30)) s (bits 6 w 9 : GIdx) (bits 6 w 15 : GIdx) (bits 6 w 21 : GIdx)) : Except DecodeError Instr) = _
  rw [h1, h2, h3, h4, h5]
  cases o <;> cases s <;> rfl

theorem amoSwp (o : Order) (s : Scope) (d : GIdx) (a : GIdx) (b : GIdx) : Statement (.amoSwp o s d a b) := by
  have := o.code_lt
  have := s.code_lt
  have := d.isLt
  have := a.isLt
  have := b.isLt
  refine s_word rfl (sa_lt (by decide) (by omega)) sa_tag fun w h => ?_
  have h0 : num 7 w 2 = 58 := sa_op (by decide) h
  have h2 : bits 6 w 9 = d := sa_bd (by decide) h
  have h3 : bits 6 w 15 = a := sa_ba (by decide) h
  have h4 : bits 6 w 21 = b := sa_bb (by decide) h
  simp only [encSA] at h
  have h1 : num 2 w 30 = o.code := by unfold num; omega
  have h5 : num 3 w 27 = s.code := by unfold num; omega
  unfold decodeFieldsS
  rw [h0]
  show (inScope (num 3 w 27) fun s => .ok (.amoSwp (decodeOrder (num 2 w 30)) s (bits 6 w 9 : GIdx) (bits 6 w 15 : GIdx) (bits 6 w 21 : GIdx)) : Except DecodeError Instr) = _
  rw [h1, h2, h3, h4, h5]
  cases o <;> cases s <;> rfl

theorem amoCas (o : Order) (s : Scope) (d : GIdx) (a : GIdx) (b : GIdx) : Statement (.amoCas o s d a b) := by
  have := o.code_lt
  have := s.code_lt
  have := d.isLt
  have := a.isLt
  have := b.isLt
  refine s_word rfl (sa_lt (by decide) (by omega)) sa_tag fun w h => ?_
  have h0 : num 7 w 2 = 59 := sa_op (by decide) h
  have h2 : bits 6 w 9 = d := sa_bd (by decide) h
  have h3 : bits 6 w 15 = a := sa_ba (by decide) h
  have h4 : bits 6 w 21 = b := sa_bb (by decide) h
  simp only [encSA] at h
  have h1 : num 2 w 30 = o.code := by unfold num; omega
  have h5 : num 3 w 27 = s.code := by unfold num; omega
  unfold decodeFieldsS
  rw [h0]
  show (inScope (num 3 w 27) fun s => .ok (.amoCas (decodeOrder (num 2 w 30)) s (bits 6 w 9 : GIdx) (bits 6 w 15 : GIdx) (bits 6 w 21 : GIdx)) : Except DecodeError Instr) = _
  rw [h1, h2, h3, h4, h5]
  cases o <;> cases s <;> rfl

theorem take (d : GIdx) (a : GIdx) (off : BitVec 11) : Statement (.take d a off) := by
  have := d.isLt
  have := a.isLt
  have := off.isLt
  refine s_word rfl (sb_lt (by decide) (by omega)) sb_tag fun w h => ?_
  have h0 : num 7 w 2 = 64 := sb_op (by decide) h
  have h1 : bits 6 w 9 = d := sb_bd (by decide) h
  have h2 : bits 6 w 15 = a := sb_ba (by decide) h
  have h3 : bits 11 w 21 = off := sb_im (by decide) h
  unfold decodeFieldsS
  rw [h0]
  show (.ok (.take (bits 6 w 9 : GIdx) (bits 6 w 15 : GIdx) (bits 11 w 21 : BitVec 11)) : Except DecodeError Instr) = _
  rw [h1, h2, h3]

theorem peek (d : GIdx) (a : GIdx) (off : BitVec 11) : Statement (.peek d a off) := by
  have := d.isLt
  have := a.isLt
  have := off.isLt
  refine s_word rfl (sb_lt (by decide) (by omega)) sb_tag fun w h => ?_
  have h0 : num 7 w 2 = 65 := sb_op (by decide) h
  have h1 : bits 6 w 9 = d := sb_bd (by decide) h
  have h2 : bits 6 w 15 = a := sb_ba (by decide) h
  have h3 : bits 11 w 21 = off := sb_im (by decide) h
  unfold decodeFieldsS
  rw [h0]
  show (.ok (.peek (bits 6 w 9 : GIdx) (bits 6 w 15 : GIdx) (bits 11 w 21 : BitVec 11)) : Except DecodeError Instr) = _
  rw [h1, h2, h3]

theorem trytake (d : GIdx) (a : GIdx) (off : BitVec 11) : Statement (.trytake d a off) := by
  have := d.isLt
  have := a.isLt
  have := off.isLt
  refine s_word rfl (sb_lt (by decide) (by omega)) sb_tag fun w h => ?_
  have h0 : num 7 w 2 = 66 := sb_op (by decide) h
  have h1 : bits 6 w 9 = d := sb_bd (by decide) h
  have h2 : bits 6 w 15 = a := sb_ba (by decide) h
  have h3 : bits 11 w 21 = off := sb_im (by decide) h
  unfold decodeFieldsS
  rw [h0]
  show (.ok (.trytake (bits 6 w 9 : GIdx) (bits 6 w 15 : GIdx) (bits 11 w 21 : BitVec 11)) : Except DecodeError Instr) = _
  rw [h1, h2, h3]

theorem putf (d : GIdx) (a : GIdx) (off : BitVec 11) : Statement (.putf d a off) := by
  have := d.isLt
  have := a.isLt
  have := off.isLt
  refine s_word rfl (sb_lt (by decide) (by omega)) sb_tag fun w h => ?_
  have h0 : num 7 w 2 = 67 := sb_op (by decide) h
  have h1 : bits 6 w 9 = d := sb_bd (by decide) h
  have h2 : bits 6 w 15 = a := sb_ba (by decide) h
  have h3 : bits 11 w 21 = off := sb_im (by decide) h
  unfold decodeFieldsS
  rw [h0]
  show (.ok (.putf (bits 6 w 9 : GIdx) (bits 6 w 15 : GIdx) (bits 11 w 21 : BitVec 11)) : Except DecodeError Instr) = _
  rw [h1, h2, h3]

theorem putw (d : GIdx) (a : GIdx) (off : BitVec 11) : Statement (.putw d a off) := by
  have := d.isLt
  have := a.isLt
  have := off.isLt
  refine s_word rfl (sb_lt (by decide) (by omega)) sb_tag fun w h => ?_
  have h0 : num 7 w 2 = 68 := sb_op (by decide) h
  have h1 : bits 6 w 9 = d := sb_bd (by decide) h
  have h2 : bits 6 w 15 = a := sb_ba (by decide) h
  have h3 : bits 11 w 21 = off := sb_im (by decide) h
  unfold decodeFieldsS
  rw [h0]
  show (.ok (.putw (bits 6 w 9 : GIdx) (bits 6 w 15 : GIdx) (bits 11 w 21 : BitVec 11)) : Except DecodeError Instr) = _
  rw [h1, h2, h3]

theorem empty (a : GIdx) (off : BitVec 11) : Statement (.empty a off) := by
  have := a.isLt
  have := off.isLt
  refine s_word rfl (sb_lt (by decide) (by omega)) sb_tag fun w h => ?_
  have h0 : num 7 w 2 = 69 := sb_op (by decide) h
  have h1 : bits 6 w 15 = a := sb_ba (by decide) h
  have h2 : bits 11 w 21 = off := sb_im (by decide) h
  have h3 : num 6 w 9 = 0 := sb_nd (by decide) h
  unfold decodeFieldsS
  rw [h0]
  show (zeroed (num 6 w 9) (.empty (bits 6 w 15 : GIdx) (bits 11 w 21 : BitVec 11)) : Except DecodeError Instr) = _
  rw [h1, h2, h3]
  rfl

theorem full (a : GIdx) (off : BitVec 11) : Statement (.full a off) := by
  have := a.isLt
  have := off.isLt
  refine s_word rfl (sb_lt (by decide) (by omega)) sb_tag fun w h => ?_
  have h0 : num 7 w 2 = 70 := sb_op (by decide) h
  have h1 : bits 6 w 15 = a := sb_ba (by decide) h
  have h2 : bits 11 w 21 = off := sb_im (by decide) h
  have h3 : num 6 w 9 = 0 := sb_nd (by decide) h
  unfold decodeFieldsS
  rw [h0]
  show (zeroed (num 6 w 9) (.full (bits 6 w 15 : GIdx) (bits 11 w 21 : BitVec 11)) : Except DecodeError Instr) = _
  rw [h1, h2, h3]
  rfl

theorem ptest (d : GIdx) (a : GIdx) (off : BitVec 11) : Statement (.ptest d a off) := by
  have := d.isLt
  have := a.isLt
  have := off.isLt
  refine s_word rfl (sb_lt (by decide) (by omega)) sb_tag fun w h => ?_
  have h0 : num 7 w 2 = 71 := sb_op (by decide) h
  have h1 : bits 6 w 9 = d := sb_bd (by decide) h
  have h2 : bits 6 w 15 = a := sb_ba (by decide) h
  have h3 : bits 11 w 21 = off := sb_im (by decide) h
  unfold decodeFieldsS
  rw [h0]
  show (.ok (.ptest (bits 6 w 9 : GIdx) (bits 6 w 15 : GIdx) (bits 11 w 21 : BitVec 11)) : Except DecodeError Instr) = _
  rw [h1, h2, h3]

theorem mbinc (a : GIdx) (b : GIdx) : Statement (.mbinc a b) := by
  refine s_word rfl (sa_lt (by decide) (by decide)) sa_tag fun w h => ?_
  have h0 : num 7 w 2 = 72 := sa_op (by decide) h
  have := a.isLt
  have := b.isLt
  have h1 : bits 6 w 15 = a := sa_ba (by decide) h
  have h2 : bits 6 w 21 = b := sa_bb (by decide) h
  have h4 : num 6 w 9 = 0 := sa_nd (by decide) h
  have h5 : num 5 w 27 = 0 := sa_fn (by decide) (by decide) h
  simp only [encSA, BitVec.ofNat_eq_ofNat, BitVec.toNat_ofNat] at h
  have h3 : flag w 31 = false := flag_eq _ (by simp only [Bool.toNat_false]; omega)
  unfold decodeFieldsS
  rw [h0]
  show (if flag w 31 then inScope (num 3 w 27) fun s => zeroed ((num 6 w 9) + num 1 w 30) (.mbincRel s (bits 6 w 15 : GIdx) (bits 6 w 21 : GIdx)) else zeroed ((num 6 w 9) + (num 5 w 27)) (.mbinc (bits 6 w 15 : GIdx) (bits 6 w 21 : GIdx)) : Except DecodeError Instr) = _
  rw [h1, h2, h3, h4, h5]
  rfl

theorem mbincRel (s : Scope) (a : GIdx) (b : GIdx) : Statement (.mbincRel s a b) := by
  have := s.code_lt
  have := a.isLt
  have := b.isLt
  refine s_word rfl (sa_lt (by decide) (by omega)) sa_tag fun w h => ?_
  have h0 : num 7 w 2 = 72 := sa_op (by decide) h
  have h1 : bits 6 w 15 = a := sa_ba (by decide) h
  have h2 : bits 6 w 21 = b := sa_bb (by decide) h
  have h5 : num 6 w 9 = 0 := sa_nd (by decide) h
  simp only [encSA, BitVec.ofNat_eq_ofNat, BitVec.toNat_ofNat] at h
  have h3 : num 3 w 27 = s.code := by unfold num; omega
  have h4 : flag w 31 = true := flag_eq _ (by simp only [Bool.toNat_true]; omega)
  have h6 : num 1 w 30 = 0 := by unfold num; omega
  unfold decodeFieldsS
  rw [h0]
  show (if flag w 31 then inScope (num 3 w 27) fun s => zeroed ((num 6 w 9) + num 1 w 30) (.mbincRel s (bits 6 w 15 : GIdx) (bits 6 w 21 : GIdx)) else zeroed ((num 6 w 9) + (num 5 w 27)) (.mbinc (bits 6 w 15 : GIdx) (bits 6 w 21 : GIdx)) : Except DecodeError Instr) = _
  rw [h1, h2, h3, h4, h5, h6]
  cases s <;> rfl

theorem mbwait (d : GIdx) (a : GIdx) (b : GIdx) : Statement (.mbwait d a b) := by
  refine s_word rfl (sa_lt (by decide) (by decide)) sa_tag fun w h => ?_
  have h0 : num 7 w 2 = 73 := sa_op (by decide) h
  have h1 : bits 6 w 9 = d := sa_bd (by decide) h
  have h2 : bits 6 w 15 = a := sa_ba (by decide) h
  have h3 : bits 6 w 21 = b := sa_bb (by decide) h
  have h4 : num 5 w 27 = 0 := sa_fn (by decide) (by decide) h
  unfold decodeFieldsS
  rw [h0]
  show (zeroed ((num 5 w 27)) (.mbwait (bits 6 w 9 : GIdx) (bits 6 w 15 : GIdx) (bits 6 w 21 : GIdx)) : Except DecodeError Instr) = _
  rw [h1, h2, h3, h4]
  rfl

theorem mbrd (d : GIdx) (a : GIdx) : Statement (.mbrd d a) := by
  refine s_word rfl (sa_lt (by decide) (by decide)) sa_tag fun w h => ?_
  have h0 : num 7 w 2 = 74 := sa_op (by decide) h
  have h1 : bits 6 w 9 = d := sa_bd (by decide) h
  have h2 : bits 6 w 15 = a := sa_ba (by decide) h
  have h3 : num 6 w 21 = 0 := sa_nb (by decide) h
  have h4 : num 5 w 27 = 0 := sa_fn (by decide) (by decide) h
  unfold decodeFieldsS
  rw [h0]
  show (zeroed ((num 6 w 21) + (num 5 w 27)) (.mbrd (bits 6 w 9 : GIdx) (bits 6 w 15 : GIdx)) : Except DecodeError Instr) = _
  rw [h1, h2, h3, h4]
  rfl

theorem mbset (a : GIdx) (b : GIdx) : Statement (.mbset a b) := by
  refine s_word rfl (sa_lt (by decide) (by decide)) sa_tag fun w h => ?_
  have h0 : num 7 w 2 = 75 := sa_op (by decide) h
  have h1 : bits 6 w 15 = a := sa_ba (by decide) h
  have h2 : bits 6 w 21 = b := sa_bb (by decide) h
  have h3 : num 6 w 9 = 0 := sa_nd (by decide) h
  have h4 : num 5 w 27 = 0 := sa_fn (by decide) (by decide) h
  unfold decodeFieldsS
  rw [h0]
  show (zeroed ((num 6 w 9) + (num 5 w 27)) (.mbset (bits 6 w 15 : GIdx) (bits 6 w 21 : GIdx)) : Except DecodeError Instr) = _
  rw [h1, h2, h3, h4]
  rfl

theorem barinit (a : GIdx) (b : GIdx) : Statement (.barinit a b) := by
  refine s_word rfl (sa_lt (by decide) (by decide)) sa_tag fun w h => ?_
  have h0 : num 7 w 2 = 76 := sa_op (by decide) h
  have h1 : bits 6 w 15 = a := sa_ba (by decide) h
  have h2 : bits 6 w 21 = b := sa_bb (by decide) h
  have h3 : num 6 w 9 = 0 := sa_nd (by decide) h
  have h4 : num 5 w 27 = 0 := sa_fn (by decide) (by decide) h
  unfold decodeFieldsS
  rw [h0]
  show (zeroed ((num 6 w 9) + (num 5 w 27)) (.barinit (bits 6 w 15 : GIdx) (bits 6 w 21 : GIdx)) : Except DecodeError Instr) = _
  rw [h1, h2, h3, h4]
  rfl

theorem bararv (d : GIdx) (a : GIdx) : Statement (.bararv d a) := by
  refine s_word rfl (sa_lt (by decide) (by decide)) sa_tag fun w h => ?_
  have h0 : num 7 w 2 = 77 := sa_op (by decide) h
  have h1 : bits 6 w 9 = d := sa_bd (by decide) h
  have h2 : bits 6 w 15 = a := sa_ba (by decide) h
  have h3 : num 6 w 21 = 0 := sa_nb (by decide) h
  have h4 : num 5 w 27 = 0 := sa_fn (by decide) (by decide) h
  unfold decodeFieldsS
  rw [h0]
  show (zeroed ((num 6 w 21) + (num 5 w 27)) (.bararv (bits 6 w 9 : GIdx) (bits 6 w 15 : GIdx)) : Except DecodeError Instr) = _
  rw [h1, h2, h3, h4]
  rfl

theorem barwait (a : GIdx) (b : GIdx) : Statement (.barwait a b) := by
  refine s_word rfl (sa_lt (by decide) (by decide)) sa_tag fun w h => ?_
  have h0 : num 7 w 2 = 78 := sa_op (by decide) h
  have h1 : bits 6 w 15 = a := sa_ba (by decide) h
  have h2 : bits 6 w 21 = b := sa_bb (by decide) h
  have h3 : num 6 w 9 = 0 := sa_nd (by decide) h
  have h4 : num 5 w 27 = 0 := sa_fn (by decide) (by decide) h
  unfold decodeFieldsS
  rw [h0]
  show (zeroed ((num 6 w 9) + (num 5 w 27)) (.barwait (bits 6 w 15 : GIdx) (bits 6 w 21 : GIdx)) : Except DecodeError Instr) = _
  rw [h1, h2, h3, h4]
  rfl

theorem bartest (d : GIdx) (a : GIdx) : Statement (.bartest d a) := by
  refine s_word rfl (sa_lt (by decide) (by decide)) sa_tag fun w h => ?_
  have h0 : num 7 w 2 = 79 := sa_op (by decide) h
  have h1 : bits 6 w 9 = d := sa_bd (by decide) h
  have h2 : bits 6 w 15 = a := sa_ba (by decide) h
  have h3 : num 6 w 21 = 0 := sa_nb (by decide) h
  have h4 : num 5 w 27 = 0 := sa_fn (by decide) (by decide) h
  unfold decodeFieldsS
  rw [h0]
  show (zeroed ((num 6 w 21) + (num 5 w 27)) (.bartest (bits 6 w 9 : GIdx) (bits 6 w 15 : GIdx)) : Except DecodeError Instr) = _
  rw [h1, h2, h3, h4]
  rfl

theorem bartwait (d : GIdx) (a : GIdx) (b : GIdx) : Statement (.bartwait d a b) := by
  refine s_word rfl (sa_lt (by decide) (by decide)) sa_tag fun w h => ?_
  have h0 : num 7 w 2 = 80 := sa_op (by decide) h
  have h1 : bits 6 w 9 = d := sa_bd (by decide) h
  have h2 : bits 6 w 15 = a := sa_ba (by decide) h
  have h3 : bits 6 w 21 = b := sa_bb (by decide) h
  have h4 : num 5 w 27 = 0 := sa_fn (by decide) (by decide) h
  unfold decodeFieldsS
  rw [h0]
  show (zeroed ((num 5 w 27)) (.bartwait (bits 6 w 9 : GIdx) (bits 6 w 15 : GIdx) (bits 6 w 21 : GIdx)) : Except DecodeError Instr) = _
  rw [h1, h2, h3, h4]
  rfl

theorem barjoin (a : GIdx) (slot : BitVec 2) : Statement (.barjoin a slot) := by
  have := a.isLt
  have := slot.isLt
  refine s_word rfl (sb_lt (by decide) (by omega)) sb_tag fun w h => ?_
  have h0 : num 7 w 2 = 81 := sb_op (by decide) h
  have h1 : bits 6 w 15 = a := sb_ba (by decide) h
  have h3 : num 6 w 9 = 0 := sb_nd (by decide) h
  simp only [encSB, BitVec.ofNat_eq_ofNat, BitVec.toNat_ofNat] at h
  have h2 : bits 2 w 21 = slot := bits_eq _ (by omega)
  have h4 : num 9 w 23 = 0 := by unfold num; omega
  unfold decodeFieldsS
  rw [h0]
  show (zeroed ((num 6 w 9) + num 9 w 23) (.barjoin (bits 6 w 15 : GIdx) (bits 2 w 21)) : Except DecodeError Instr) = _
  rw [h1, h2, h3, h4]
  rfl

theorem monarm (a : GIdx) (off : BitVec 11) : Statement (.monarm a off) := by
  have := a.isLt
  have := off.isLt
  refine s_word rfl (sb_lt (by decide) (by omega)) sb_tag fun w h => ?_
  have h0 : num 7 w 2 = 83 := sb_op (by decide) h
  have h1 : bits 6 w 15 = a := sb_ba (by decide) h
  have h2 : bits 11 w 21 = off := sb_im (by decide) h
  have h3 : num 6 w 9 = 0 := sb_nd (by decide) h
  unfold decodeFieldsS
  rw [h0]
  show (zeroed (num 6 w 9) (.monarm (bits 6 w 15 : GIdx) (bits 11 w 21 : BitVec 11)) : Except DecodeError Instr) = _
  rw [h1, h2, h3]
  rfl

theorem monwait (d : GIdx) (a : GIdx) : Statement (.monwait d a) := by
  refine s_word rfl (sa_lt (by decide) (by decide)) sa_tag fun w h => ?_
  have h0 : num 7 w 2 = 84 := sa_op (by decide) h
  have h1 : bits 6 w 9 = d := sa_bd (by decide) h
  have h2 : bits 6 w 15 = a := sa_ba (by decide) h
  have h3 : num 6 w 21 = 0 := sa_nb (by decide) h
  have h4 : num 5 w 27 = 0 := sa_fn (by decide) (by decide) h
  unfold decodeFieldsS
  rw [h0]
  show (zeroed ((num 6 w 21) + (num 5 w 27)) (.monwait (bits 6 w 9 : GIdx) (bits 6 w 15 : GIdx)) : Except DecodeError Instr) = _
  rw [h1, h2, h3, h4]
  rfl

theorem spawn (a : GIdx) : Statement (.spawn a) := by
  refine s_word rfl (sa_lt (by decide) (by decide)) sa_tag fun w h => ?_
  have h0 : num 7 w 2 = 85 := sa_op (by decide) h
  have h1 : bits 6 w 15 = a := sa_ba (by decide) h
  have h2 : num 6 w 9 = 0 := sa_nd (by decide) h
  have h3 : num 6 w 21 = 0 := sa_nb (by decide) h
  have h4 : num 5 w 27 = 0 := sa_fn (by decide) (by decide) h
  unfold decodeFieldsS
  rw [h0]
  show (zeroed ((num 6 w 9) + (num 6 w 21) + (num 5 w 27)) (.spawn (bits 6 w 15 : GIdx)) : Except DecodeError Instr) = _
  rw [h1, h2, h3, h4]
  rfl

theorem spawnr (a : GIdx) (b : GIdx) : Statement (.spawnr a b) := by
  refine s_word rfl (sa_lt (by decide) (by decide)) sa_tag fun w h => ?_
  have h0 : num 7 w 2 = 86 := sa_op (by decide) h
  have h1 : bits 6 w 15 = a := sa_ba (by decide) h
  have h2 : bits 6 w 21 = b := sa_bb (by decide) h
  have h3 : num 6 w 9 = 0 := sa_nd (by decide) h
  have h4 : num 5 w 27 = 0 := sa_fn (by decide) (by decide) h
  unfold decodeFieldsS
  rw [h0]
  show (zeroed ((num 6 w 9) + (num 5 w 27)) (.spawnr (bits 6 w 15 : GIdx) (bits 6 w 21 : GIdx)) : Except DecodeError Instr) = _
  rw [h1, h2, h3, h4]
  rfl

theorem codlt (a : GIdx) (b : GIdx) : Statement (.codlt a b) := by
  refine s_word rfl (sa_lt (by decide) (by decide)) sa_tag fun w h => ?_
  have h0 : num 7 w 2 = 87 := sa_op (by decide) h
  have h1 : bits 6 w 15 = a := sa_ba (by decide) h
  have h2 : bits 6 w 21 = b := sa_bb (by decide) h
  have h3 : num 6 w 9 = 0 := sa_nd (by decide) h
  have h4 : num 5 w 27 = 0 := sa_fn (by decide) (by decide) h
  unfold decodeFieldsS
  rw [h0]
  show (zeroed ((num 6 w 9) + (num 5 w 27)) (.codlt (bits 6 w 15 : GIdx) (bits 6 w 21 : GIdx)) : Except DecodeError Instr) = _
  rw [h1, h2, h3, h4]
  rfl

theorem cdec (a : GIdx) (b : GIdx) : Statement (.cdec a b) := by
  refine s_word rfl (sa_lt (by decide) (by decide)) sa_tag fun w h => ?_
  have h0 : num 7 w 2 = 88 := sa_op (by decide) h
  have h1 : bits 6 w 15 = a := sa_ba (by decide) h
  have h2 : bits 6 w 21 = b := sa_bb (by decide) h
  have h3 : num 6 w 9 = 0 := sa_nd (by decide) h
  have h4 : num 5 w 27 = 0 := sa_fn (by decide) (by decide) h
  unfold decodeFieldsS
  rw [h0]
  show (zeroed ((num 6 w 9) + (num 5 w 27)) (.cdec (bits 6 w 15 : GIdx) (bits 6 w 21 : GIdx)) : Except DecodeError Instr) = _
  rw [h1, h2, h3, h4]
  rfl

theorem amsg (n : BitVec 3) (d : GIdx) (a : GIdx) (b : GIdx) : Statement (.amsg n d a b) := by
  have := n.isLt
  have := d.isLt
  have := a.isLt
  have := b.isLt
  refine s_word rfl (sa_lt (by decide) (by omega)) sa_tag fun w h => ?_
  have h0 : num 7 w 2 = 89 := sa_op (by decide) h
  have h2 : bits 6 w 9 = d := sa_bd (by decide) h
  have h3 : bits 6 w 15 = a := sa_ba (by decide) h
  have h4 : bits 6 w 21 = b := sa_bb (by decide) h
  simp only [encSA] at h
  have h1 : bits 3 w 27 = n := bits_eq _ (by omega)
  have h5 : num 2 w 30 = 0 := by unfold num; omega
  unfold decodeFieldsS
  rw [h0]
  show (zeroed (num 2 w 30) (.amsg (bits 3 w 27) (bits 6 w 9 : GIdx) (bits 6 w 15 : GIdx) (bits 6 w 21 : GIdx)) : Except DecodeError Instr) = _
  rw [h1, h2, h3, h4, h5]
  rfl

theorem compose (tall : Bool) (size : BitVec 2) (d : GIdx) : Statement (.compose tall size d) := by
  have := Bool.toNat_lt tall
  have := size.isLt
  have := d.isLt
  refine s_word rfl (sb_lt (by decide) (by omega)) sb_tag fun w h => ?_
  have h0 : num 7 w 2 = 92 := sb_op (by decide) h
  have h3 : bits 6 w 9 = d := sb_bd (by decide) h
  have h4 : num 6 w 15 = 0 := sb_na (by decide) h
  simp only [encSB, BitVec.ofNat_eq_ofNat, BitVec.toNat_ofNat] at h
  have h1 : flag w 23 = tall := flag_eq _ (by omega)
  have h2 : bits 2 w 21 = size := bits_eq _ (by omega)
  have h5 : num 8 w 24 = 0 := by unfold num; omega
  unfold decodeFieldsS
  rw [h0]
  show (zeroed ((num 6 w 15) + num 8 w 24) (.compose (flag w 23) (bits 2 w 21) (bits 6 w 9 : GIdx)) : Except DecodeError Instr) = _
  rw [h1, h2, h3, h4, h5]
  rfl

theorem gang (size : BitVec 2) (d : GIdx) : Statement (.gang size d) := by
  have := size.isLt
  have := d.isLt
  refine s_word rfl (sb_lt (by decide) (by omega)) sb_tag fun w h => ?_
  have h0 : num 7 w 2 = 94 := sb_op (by decide) h
  have h2 : bits 6 w 9 = d := sb_bd (by decide) h
  have h3 : num 6 w 15 = 0 := sb_na (by decide) h
  simp only [encSB, BitVec.ofNat_eq_ofNat, BitVec.toNat_ofNat] at h
  have h1 : bits 2 w 21 = size := bits_eq _ (by omega)
  have h4 : num 9 w 23 = 0 := by unfold num; omega
  unfold decodeFieldsS
  rw [h0]
  show (zeroed ((num 6 w 15) + num 9 w 23) (.gang (bits 2 w 21) (bits 6 w 9 : GIdx)) : Except DecodeError Instr) = _
  rw [h1, h2, h3, h4]
  rfl

theorem pfxl (d : GIdx) (a : GIdx) (b : GIdx) : Statement (.pfxl d a b) := by
  refine s_word rfl (sa_lt (by decide) (by decide)) sa_tag fun w h => ?_
  have h0 : num 7 w 2 = 96 := sa_op (by decide) h
  have h1 : bits 6 w 9 = d := sa_bd (by decide) h
  have h2 : bits 6 w 15 = a := sa_ba (by decide) h
  have h3 : bits 6 w 21 = b := sa_bb (by decide) h
  have h4 : num 5 w 27 = 0 := sa_fn (by decide) (by decide) h
  unfold decodeFieldsS
  rw [h0]
  show (zeroed ((num 5 w 27)) (.pfxl (bits 6 w 9 : GIdx) (bits 6 w 15 : GIdx) (bits 6 w 21 : GIdx)) : Except DecodeError Instr) = _
  rw [h1, h2, h3, h4]
  rfl

theorem pfxi (d : GIdx) (a : GIdx) (b : GIdx) : Statement (.pfxi d a b) := by
  refine s_word rfl (sa_lt (by decide) (by decide)) sa_tag fun w h => ?_
  have h0 : num 7 w 2 = 97 := sa_op (by decide) h
  have h1 : bits 6 w 9 = d := sa_bd (by decide) h
  have h2 : bits 6 w 15 = a := sa_ba (by decide) h
  have h3 : bits 6 w 21 = b := sa_bb (by decide) h
  have h4 : num 5 w 27 = 0 := sa_fn (by decide) (by decide) h
  unfold decodeFieldsS
  rw [h0]
  show (zeroed ((num 5 w 27)) (.pfxi (bits 6 w 9 : GIdx) (bits 6 w 15 : GIdx) (bits 6 w 21 : GIdx)) : Except DecodeError Instr) = _
  rw [h1, h2, h3, h4]
  rfl

theorem pfxdrop (a : GIdx) (b : GIdx) : Statement (.pfxdrop a b) := by
  refine s_word rfl (sa_lt (by decide) (by decide)) sa_tag fun w h => ?_
  have h0 : num 7 w 2 = 98 := sa_op (by decide) h
  have h1 : bits 6 w 15 = a := sa_ba (by decide) h
  have h2 : bits 6 w 21 = b := sa_bb (by decide) h
  have h3 : num 6 w 9 = 0 := sa_nd (by decide) h
  have h4 : num 5 w 27 = 0 := sa_fn (by decide) (by decide) h
  unfold decodeFieldsS
  rw [h0]
  show (zeroed ((num 6 w 9) + (num 5 w 27)) (.pfxdrop (bits 6 w 15 : GIdx) (bits 6 w 21 : GIdx)) : Except DecodeError Instr) = _
  rw [h1, h2, h3, h4]
  rfl

theorem kvmap (d : GIdx) (a : GIdx) (b : GIdx) : Statement (.kvmap d a b) := by
  refine s_word rfl (sa_lt (by decide) (by decide)) sa_tag fun w h => ?_
  have h0 : num 7 w 2 = 99 := sa_op (by decide) h
  have h1 : bits 6 w 9 = d := sa_bd (by decide) h
  have h2 : bits 6 w 15 = a := sa_ba (by decide) h
  have h3 : bits 6 w 21 = b := sa_bb (by decide) h
  have h4 : num 5 w 27 = 0 := sa_fn (by decide) (by decide) h
  unfold decodeFieldsS
  rw [h0]
  show (zeroed ((num 5 w 27)) (.kvmap (bits 6 w 9 : GIdx) (bits 6 w 15 : GIdx) (bits 6 w 21 : GIdx)) : Except DecodeError Instr) = _
  rw [h1, h2, h3, h4]
  rfl

theorem kvtrnc (a : GIdx) (b : GIdx) : Statement (.kvtrnc a b) := by
  refine s_word rfl (sa_lt (by decide) (by decide)) sa_tag fun w h => ?_
  have h0 : num 7 w 2 = 100 := sa_op (by decide) h
  have h1 : bits 6 w 15 = a := sa_ba (by decide) h
  have h2 : bits 6 w 21 = b := sa_bb (by decide) h
  have h3 : num 6 w 9 = 0 := sa_nd (by decide) h
  have h4 : num 5 w 27 = 0 := sa_fn (by decide) (by decide) h
  unfold decodeFieldsS
  rw [h0]
  show (zeroed ((num 6 w 9) + (num 5 w 27)) (.kvtrnc (bits 6 w 15 : GIdx) (bits 6 w 21 : GIdx)) : Except DecodeError Instr) = _
  rw [h1, h2, h3, h4]
  rfl

theorem kvpin (a : GIdx) (b : GIdx) : Statement (.kvpin a b) := by
  refine s_word rfl (sa_lt (by decide) (by decide)) sa_tag fun w h => ?_
  have h0 : num 7 w 2 = 101 := sa_op (by decide) h
  have h1 : bits 6 w 15 = a := sa_ba (by decide) h
  have h2 : bits 6 w 21 = b := sa_bb (by decide) h
  have h3 : num 6 w 9 = 0 := sa_nd (by decide) h
  have h4 : num 5 w 27 = 0 := sa_fn (by decide) (by decide) h
  unfold decodeFieldsS
  rw [h0]
  show (zeroed ((num 6 w 9) + (num 5 w 27)) (.kvpin (bits 6 w 15 : GIdx) (bits 6 w 21 : GIdx)) : Except DecodeError Instr) = _
  rw [h1, h2, h3, h4]
  rfl

theorem kvunpin (a : GIdx) (b : GIdx) : Statement (.kvunpin a b) := by
  refine s_word rfl (sa_lt (by decide) (by decide)) sa_tag fun w h => ?_
  have h0 : num 7 w 2 = 102 := sa_op (by decide) h
  have h1 : bits 6 w 15 = a := sa_ba (by decide) h
  have h2 : bits 6 w 21 = b := sa_bb (by decide) h
  have h3 : num 6 w 9 = 0 := sa_nd (by decide) h
  have h4 : num 5 w 27 = 0 := sa_fn (by decide) (by decide) h
  unfold decodeFieldsS
  rw [h0]
  show (zeroed ((num 6 w 9) + (num 5 w 27)) (.kvunpin (bits 6 w 15 : GIdx) (bits 6 w 21 : GIdx)) : Except DecodeError Instr) = _
  rw [h1, h2, h3, h4]
  rfl

theorem attg (a : GIdx) : Statement (.attg a) := by
  refine s_word rfl (sa_lt (by decide) (by decide)) sa_tag fun w h => ?_
  have h0 : num 7 w 2 = 103 := sa_op (by decide) h
  have h1 : bits 6 w 15 = a := sa_ba (by decide) h
  have h2 : num 6 w 9 = 0 := sa_nd (by decide) h
  have h3 : num 6 w 21 = 0 := sa_nb (by decide) h
  have h4 : num 5 w 27 = 0 := sa_fn (by decide) (by decide) h
  unfold decodeFieldsS
  rw [h0]
  show (zeroed ((num 6 w 9) + (num 6 w 21) + (num 5 w 27)) (.attg (bits 6 w 15 : GIdx)) : Except DecodeError Instr) = _
  rw [h1, h2, h3, h4]
  rfl

theorem fcall (d : GIdx) (a : GIdx) (b : GIdx) : Statement (.fcall d a b) := by
  refine s_word rfl (sa_lt (by decide) (by decide)) sa_tag fun w h => ?_
  have h0 : num 7 w 2 = 104 := sa_op (by decide) h
  have h1 : bits 6 w 9 = d := sa_bd (by decide) h
  have h2 : bits 6 w 15 = a := sa_ba (by decide) h
  have h3 : bits 6 w 21 = b := sa_bb (by decide) h
  have h4 : num 5 w 27 = 0 := sa_fn (by decide) (by decide) h
  unfold decodeFieldsS
  rw [h0]
  show (zeroed ((num 5 w 27)) (.fcall (bits 6 w 9 : GIdx) (bits 6 w 15 : GIdx) (bits 6 w 21 : GIdx)) : Except DecodeError Instr) = _
  rw [h1, h2, h3, h4]
  rfl

theorem fwait (d : GIdx) (a : GIdx) : Statement (.fwait d a) := by
  refine s_word rfl (sa_lt (by decide) (by decide)) sa_tag fun w h => ?_
  have h0 : num 7 w 2 = 105 := sa_op (by decide) h
  have h1 : bits 6 w 9 = d := sa_bd (by decide) h
  have h2 : bits 6 w 15 = a := sa_ba (by decide) h
  have h3 : num 6 w 21 = 0 := sa_nb (by decide) h
  have h4 : num 5 w 27 = 0 := sa_fn (by decide) (by decide) h
  unfold decodeFieldsS
  rw [h0]
  show (zeroed ((num 6 w 21) + (num 5 w 27)) (.fwait (bits 6 w 9 : GIdx) (bits 6 w 15 : GIdx)) : Except DecodeError Instr) = _
  rw [h1, h2, h3, h4]
  rfl

theorem ftest (d : GIdx) (a : GIdx) : Statement (.ftest d a) := by
  refine s_word rfl (sa_lt (by decide) (by decide)) sa_tag fun w h => ?_
  have h0 : num 7 w 2 = 106 := sa_op (by decide) h
  have h1 : bits 6 w 9 = d := sa_bd (by decide) h
  have h2 : bits 6 w 15 = a := sa_ba (by decide) h
  have h3 : num 6 w 21 = 0 := sa_nb (by decide) h
  have h4 : num 5 w 27 = 0 := sa_fn (by decide) (by decide) h
  unfold decodeFieldsS
  rw [h0]
  show (zeroed ((num 6 w 21) + (num 5 w 27)) (.ftest (bits 6 w 9 : GIdx) (bits 6 w 15 : GIdx)) : Except DecodeError Instr) = _
  rw [h1, h2, h3, h4]
  rfl

theorem fcancel (d : GIdx) (a : GIdx) : Statement (.fcancel d a) := by
  refine s_word rfl (sa_lt (by decide) (by decide)) sa_tag fun w h => ?_
  have h0 : num 7 w 2 = 107 := sa_op (by decide) h
  have h1 : bits 6 w 9 = d := sa_bd (by decide) h
  have h2 : bits 6 w 15 = a := sa_ba (by decide) h
  have h3 : num 6 w 21 = 0 := sa_nb (by decide) h
  have h4 : num 5 w 27 = 0 := sa_fn (by decide) (by decide) h
  unfold decodeFieldsS
  rw [h0]
  show (zeroed ((num 6 w 21) + (num 5 w 27)) (.fcancel (bits 6 w 9 : GIdx) (bits 6 w 15 : GIdx)) : Except DecodeError Instr) = _
  rw [h1, h2, h3, h4]
  rfl

theorem fdone (a : GIdx) (b : GIdx) : Statement (.fdone a b) := by
  refine s_word rfl (sa_lt (by decide) (by decide)) sa_tag fun w h => ?_
  have h0 : num 7 w 2 = 108 := sa_op (by decide) h
  have h1 : bits 6 w 15 = a := sa_ba (by decide) h
  have h2 : bits 6 w 21 = b := sa_bb (by decide) h
  have h3 : num 6 w 9 = 0 := sa_nd (by decide) h
  have h4 : num 5 w 27 = 0 := sa_fn (by decide) (by decide) h
  unfold decodeFieldsS
  rw [h0]
  show (zeroed ((num 6 w 9) + (num 5 w 27)) (.fdone (bits 6 w 15 : GIdx) (bits 6 w 21 : GIdx)) : Except DecodeError Instr) = _
  rw [h1, h2, h3, h4]
  rfl

theorem rngsv (d : GIdx) : Statement (.rngsv d) := by
  refine s_word rfl (sa_lt (by decide) (by decide)) sa_tag fun w h => ?_
  have h0 : num 7 w 2 = 109 := sa_op (by decide) h
  have h1 : bits 6 w 9 = d := sa_bd (by decide) h
  have h2 : num 6 w 15 = 0 := sa_na (by decide) h
  have h3 : num 6 w 21 = 0 := sa_nb (by decide) h
  have h4 : num 5 w 27 = 0 := sa_fn (by decide) (by decide) h
  unfold decodeFieldsS
  rw [h0]
  show (zeroed ((num 6 w 15) + (num 6 w 21) + (num 5 w 27)) (.rngsv (bits 6 w 9 : GIdx)) : Except DecodeError Instr) = _
  rw [h1, h2, h3, h4]
  rfl

theorem rngld (a : GIdx) : Statement (.rngld a) := by
  refine s_word rfl (sa_lt (by decide) (by decide)) sa_tag fun w h => ?_
  have h0 : num 7 w 2 = 110 := sa_op (by decide) h
  have h1 : bits 6 w 15 = a := sa_ba (by decide) h
  have h2 : num 6 w 9 = 0 := sa_nd (by decide) h
  have h3 : num 6 w 21 = 0 := sa_nb (by decide) h
  have h4 : num 5 w 27 = 0 := sa_fn (by decide) (by decide) h
  unfold decodeFieldsS
  rw [h0]
  show (zeroed ((num 6 w 9) + (num 6 w 21) + (num 5 w 27)) (.rngld (bits 6 w 15 : GIdx)) : Except DecodeError Instr) = _
  rw [h1, h2, h3, h4]
  rfl

theorem trap (code : BitVec 8) : Statement (.trap code) := by
  have := code.isLt
  refine s_word rfl (sc_lt (by decide) (by omega)) sc_tag fun w h => ?_
  have h0 : num 7 w 2 = 111 := sc_op (by decide) h
  have h2 : num 6 w 9 = 0 := sc_nd (by decide) h
  simp only [encSC, BitVec.ofNat_eq_ofNat, BitVec.toNat_ofNat] at h
  have h1 : bits 8 w 15 = code := bits_eq _ (by omega)
  have h3 : num 9 w 23 = 0 := by unfold num; omega
  unfold decodeFieldsS
  rw [h0]
  show (zeroed ((num 6 w 9) + num 9 w 23) (.trap (bits 8 w 15)) : Except DecodeError Instr) = _
  rw [h1, h2, h3]
  rfl

theorem svc (imm : BitVec 17) : Statement (.svc imm) := by
  have := imm.isLt
  refine s_word rfl (sc_lt (by decide) (by omega)) sc_tag fun w h => ?_
  have h0 : num 7 w 2 = 113 := sc_op (by decide) h
  have h1 : bits 17 w 15 = imm := sc_im (by decide) h
  have h2 : num 6 w 9 = 0 := sc_nd (by decide) h
  unfold decodeFieldsS
  rw [h0]
  show (zeroed (num 6 w 9) (.svc (bits 17 w 15 : BitVec 17)) : Except DecodeError Instr) = _
  rw [h1, h2]
  rfl

theorem brk (imm : BitVec 17) : Statement (.brk imm) := by
  have := imm.isLt
  refine s_word rfl (sc_lt (by decide) (by omega)) sc_tag fun w h => ?_
  have h0 : num 7 w 2 = 115 := sc_op (by decide) h
  have h1 : bits 17 w 15 = imm := sc_im (by decide) h
  have h2 : num 6 w 9 = 0 := sc_nd (by decide) h
  unfold decodeFieldsS
  rw [h0]
  show (zeroed (num 6 w 9) (.brk (bits 17 w 15 : BitVec 17)) : Except DecodeError Instr) = _
  rw [h1, h2]
  rfl

theorem rdcyc (d : GIdx) : Statement (.rdcyc d) := by
  refine s_word rfl (sc_lt (by decide) (by decide)) sc_tag fun w h => ?_
  have h0 : num 7 w 2 = 117 := sc_op (by decide) h
  have h1 : bits 6 w 9 = d := sc_bd (by decide) h
  have h2 : num 17 w 15 = 0 := sc_n0 (by decide) h
  unfold decodeFieldsS
  rw [h0]
  show (zeroed (num 17 w 15) (.rdcyc (bits 6 w 9 : GIdx)) : Except DecodeError Instr) = _
  rw [h1, h2]
  rfl

theorem rdptp (d : GIdx) : Statement (.rdptp d) := by
  refine s_word rfl (sc_lt (by decide) (by decide)) sc_tag fun w h => ?_
  have h0 : num 7 w 2 = 118 := sc_op (by decide) h
  have h1 : bits 6 w 9 = d := sc_bd (by decide) h
  have h2 : num 17 w 15 = 0 := sc_n0 (by decide) h
  unfold decodeFieldsS
  rw [h0]
  show (zeroed (num 17 w 15) (.rdptp (bits 6 w 9 : GIdx)) : Except DecodeError Instr) = _
  rw [h1, h2]
  rfl

theorem psave (a : GIdx) : Statement (.psave a) := by
  refine s_word rfl (sa_lt (by decide) (by decide)) sa_tag fun w h => ?_
  have h0 : num 7 w 2 = 119 := sa_op (by decide) h
  have h1 : bits 6 w 15 = a := sa_ba (by decide) h
  have h2 : num 6 w 9 = 0 := sa_nd (by decide) h
  have h3 : num 6 w 21 = 0 := sa_nb (by decide) h
  have h4 : num 5 w 27 = 0 := sa_fn (by decide) (by decide) h
  unfold decodeFieldsS
  rw [h0]
  show (zeroed ((num 6 w 9) + (num 6 w 21) + (num 5 w 27)) (.psave (bits 6 w 15 : GIdx)) : Except DecodeError Instr) = _
  rw [h1, h2, h3, h4]
  rfl

theorem prest (a : GIdx) : Statement (.prest a) := by
  refine s_word rfl (sa_lt (by decide) (by decide)) sa_tag fun w h => ?_
  have h0 : num 7 w 2 = 120 := sa_op (by decide) h
  have h1 : bits 6 w 15 = a := sa_ba (by decide) h
  have h2 : num 6 w 9 = 0 := sa_nd (by decide) h
  have h3 : num 6 w 21 = 0 := sa_nb (by decide) h
  have h4 : num 5 w 27 = 0 := sa_fn (by decide) (by decide) h
  unfold decodeFieldsS
  rw [h0]
  show (zeroed ((num 6 w 9) + (num 6 w 21) + (num 5 w 27)) (.prest (bits 6 w 15 : GIdx)) : Except DecodeError Instr) = _
  rw [h1, h2, h3, h4]
  rfl

theorem tlbfl (s : Scope) (a : GIdx) (b : GIdx) : Statement (.tlbfl s a b) := by
  have := s.code_lt
  have := a.isLt
  have := b.isLt
  refine s_word rfl (sa_lt (by decide) (by omega)) sa_tag fun w h => ?_
  have h0 : num 7 w 2 = 121 := sa_op (by decide) h
  have h1 : bits 6 w 15 = a := sa_ba (by decide) h
  have h2 : bits 6 w 21 = b := sa_bb (by decide) h
  have h4 : num 6 w 9 = 0 := sa_nd (by decide) h
  simp only [encSA, BitVec.ofNat_eq_ofNat, BitVec.toNat_ofNat] at h
  have h3 : num 3 w 27 = s.code := by unfold num; omega
  have h5 : num 2 w 30 = 0 := by unfold num; omega
  unfold decodeFieldsS
  rw [h0]
  show (inScope (num 3 w 27) fun s => zeroed ((num 6 w 9) + num 2 w 30) (.tlbfl s (bits 6 w 15 : GIdx) (bits 6 w 21 : GIdx)) : Except DecodeError Instr) = _
  rw [h1, h2, h3, h4, h5]
  cases s <;> rfl

theorem fqtake (d : GIdx) (a : GIdx) : Statement (.fqtake d a) := by
  refine s_word rfl (sa_lt (by decide) (by decide)) sa_tag fun w h => ?_
  have h0 : num 7 w 2 = 122 := sa_op (by decide) h
  have h1 : bits 6 w 9 = d := sa_bd (by decide) h
  have h2 : bits 6 w 15 = a := sa_ba (by decide) h
  have h3 : num 6 w 21 = 0 := sa_nb (by decide) h
  have h4 : num 5 w 27 = 0 := sa_fn (by decide) (by decide) h
  unfold decodeFieldsS
  rw [h0]
  show (zeroed ((num 6 w 21) + (num 5 w 27)) (.fqtake (bits 6 w 9 : GIdx) (bits 6 w 15 : GIdx)) : Except DecodeError Instr) = _
  rw [h1, h2, h3, h4]
  rfl

theorem fqdone (a : GIdx) (b : GIdx) : Statement (.fqdone a b) := by
  refine s_word rfl (sa_lt (by decide) (by decide)) sa_tag fun w h => ?_
  have h0 : num 7 w 2 = 123 := sa_op (by decide) h
  have h1 : bits 6 w 15 = a := sa_ba (by decide) h
  have h2 : bits 6 w 21 = b := sa_bb (by decide) h
  have h3 : num 6 w 9 = 0 := sa_nd (by decide) h
  have h4 : num 5 w 27 = 0 := sa_fn (by decide) (by decide) h
  unfold decodeFieldsS
  rw [h0]
  show (zeroed ((num 6 w 9) + (num 5 w 27)) (.fqdone (bits 6 w 15 : GIdx) (bits 6 w 21 : GIdx)) : Except DecodeError Instr) = _
  rw [h1, h2, h3, h4]
  rfl

theorem ctxkill (a : GIdx) : Statement (.ctxkill a) := by
  refine s_word rfl (sa_lt (by decide) (by decide)) sa_tag fun w h => ?_
  have h0 : num 7 w 2 = 124 := sa_op (by decide) h
  have h1 : bits 6 w 15 = a := sa_ba (by decide) h
  have h2 : num 6 w 9 = 0 := sa_nd (by decide) h
  have h3 : num 6 w 21 = 0 := sa_nb (by decide) h
  have h4 : num 5 w 27 = 0 := sa_fn (by decide) (by decide) h
  unfold decodeFieldsS
  rw [h0]
  show (zeroed ((num 6 w 9) + (num 6 w 21) + (num 5 w 27)) (.ctxkill (bits 6 w 15 : GIdx)) : Except DecodeError Instr) = _
  rw [h1, h2, h3, h4]
  rfl

theorem capgrant (d : GIdx) (a : GIdx) (b : GIdx) : Statement (.capgrant d a b) := by
  refine s_word rfl (sa_lt (by decide) (by decide)) sa_tag fun w h => ?_
  have h0 : num 7 w 2 = 125 := sa_op (by decide) h
  have h1 : bits 6 w 9 = d := sa_bd (by decide) h
  have h2 : bits 6 w 15 = a := sa_ba (by decide) h
  have h3 : bits 6 w 21 = b := sa_bb (by decide) h
  have h4 : num 5 w 27 = 0 := sa_fn (by decide) (by decide) h
  unfold decodeFieldsS
  rw [h0]
  show (zeroed ((num 5 w 27)) (.capgrant (bits 6 w 9 : GIdx) (bits 6 w 15 : GIdx) (bits 6 w 21 : GIdx)) : Except DecodeError Instr) = _
  rw [h1, h2, h3, h4]
  rfl

theorem vadd (w : VWord) : Statement (.vadd w) := v_word rfl rfl (by decide)

theorem vsub (w : VWord) : Statement (.vsub w) := v_word rfl rfl (by decide)

theorem vmul (w : VWord) : Statement (.vmul w) := v_word rfl rfl (by decide)

theorem vfma (w : VWord) : Statement (.vfma w) := v_word rfl rfl (by decide)

theorem vfms (w : VWord) : Statement (.vfms w) := v_word rfl rfl (by decide)

theorem vfnma (w : VWord) : Statement (.vfnma w) := v_word rfl rfl (by decide)

theorem vmin (w : VWord) : Statement (.vmin w) := v_word rfl rfl (by decide)

theorem vmax (w : VWord) : Statement (.vmax w) := v_word rfl rfl (by decide)

theorem vabs (w : VWord) : Statement (.vabs w) := v_word rfl rfl (by decide)

theorem vneg (w : VWord) : Statement (.vneg w) := v_word rfl rfl (by decide)

theorem vcmp (w : VWord) : Statement (.vcmp w) := v_word rfl rfl (by decide)

theorem vsel (w : VWord) : Statement (.vsel w) := v_word rfl rfl (by decide)

theorem vand (w : VWord) : Statement (.vand w) := v_word rfl rfl (by decide)

theorem vor (w : VWord) : Statement (.vor w) := v_word rfl rfl (by decide)

theorem vxor (w : VWord) : Statement (.vxor w) := v_word rfl rfl (by decide)

theorem vnot (w : VWord) : Statement (.vnot w) := v_word rfl rfl (by decide)

theorem vshl (w : VWord) : Statement (.vshl w) := v_word rfl rfl (by decide)

theorem vshr (w : VWord) : Statement (.vshr w) := v_word rfl rfl (by decide)

theorem vsra (w : VWord) : Statement (.vsra w) := v_word rfl rfl (by decide)

theorem vcvt (w : VWord) : Statement (.vcvt w) := v_word rfl rfl (by decide)

theorem vqnt (w : VWord) : Statement (.vqnt w) := v_word rfl rfl (by decide)

theorem vdqnt (w : VWord) : Statement (.vdqnt w) := v_word rfl rfl (by decide)

theorem vmaxx (w : VWord) : Statement (.vmaxx w) := v_word rfl rfl (by decide)

theorem vsum (w : VWord) : Statement (.vsum w) := v_word rfl rfl (by decide)

theorem vrmax (w : VWord) : Statement (.vrmax w) := v_word rfl rfl (by decide)

theorem vrmin (w : VWord) : Statement (.vrmin w) := v_word rfl rfl (by decide)

theorem vperm (w : VWord) : Statement (.vperm w) := v_word rfl rfl (by decide)

theorem vbcast (w : VWord) : Statement (.vbcast w) := v_word rfl rfl (by decide)

theorem vslide (w : VWord) : Statement (.vslide w) := v_word rfl rfl (by decide)

theorem viota (w : VWord) : Statement (.viota w) := v_word rfl rfl (by decide)

theorem vexp (w : VWord) : Statement (.vexp w) := v_word rfl rfl (by decide)

theorem vlog (w : VWord) : Statement (.vlog w) := v_word rfl rfl (by decide)

theorem vrcp (w : VWord) : Statement (.vrcp w) := v_word rfl rfl (by decide)

theorem vrsq (w : VWord) : Statement (.vrsq w) := v_word rfl rfl (by decide)

theorem vsqrt (w : VWord) : Statement (.vsqrt w) := v_word rfl rfl (by decide)

theorem vdiv (w : VWord) : Statement (.vdiv w) := v_word rfl rfl (by decide)

theorem vsin (w : VWord) : Statement (.vsin w) := v_word rfl rfl (by decide)

theorem vcos (w : VWord) : Statement (.vcos w) := v_word rfl rfl (by decide)

theorem vtanh (w : VWord) : Statement (.vtanh w) := v_word rfl rfl (by decide)

theorem vsig (w : VWord) : Statement (.vsig w) := v_word rfl rfl (by decide)

theorem vrng (w : VWord) : Statement (.vrng w) := v_word rfl rfl (by decide)

theorem vld (w : VWord) : Statement (.vld w) := v_word rfl rfl (by decide)

theorem vlds (w : VWord) : Statement (.vlds w) := v_word rfl rfl (by decide)

theorem vst (w : VWord) : Statement (.vst w) := v_word rfl rfl (by decide)

theorem vsts (w : VWord) : Statement (.vsts w) := v_word rfl rfl (by decide)

theorem vgth (w : VWord) : Statement (.vgth w) := v_word rfl rfl (by decide)

theorem vsct (w : VWord) : Statement (.vsct w) := v_word rfl rfl (by decide)

theorem vmovgs (w : VWord) : Statement (.vmovgs w) := v_word rfl rfl (by decide)

theorem vmovsg (w : VWord) : Statement (.vmovsg w) := v_word rfl rfl (by decide)

theorem pand (w : VWord) : Statement (.pand w) := v_word rfl rfl (by decide)

theorem por (w : VWord) : Statement (.por w) := v_word rfl rfl (by decide)

theorem pnot (w : VWord) : Statement (.pnot w) := v_word rfl rfl (by decide)

theorem pcnt (w : VWord) : Statement (.pcnt w) := v_word rfl rfl (by decide)

theorem tcfg (w : MWord) : Statement (.tcfg w) := m_word rfl rfl (by decide)

theorem tld (w : MWord) : Statement (.tld w) := m_word rfl rfl (by decide)

theorem tst (w : MWord) : Statement (.tst w) := m_word rfl rfl (by decide)

theorem tzero (w : MWord) : Statement (.tzero w) := m_word rfl rfl (by decide)

theorem ttr (w : MWord) : Statement (.ttr w) := m_word rfl rfl (by decide)

theorem mma (w : MWord) : Statement (.mma w) := m_word rfl rfl (by decide)

theorem mmam (w : MWord) : Statement (.mmam w) := m_word rfl rfl (by decide)

theorem accld (w : MWord) : Statement (.accld w) := m_word rfl rfl (by decide)

theorem accst (w : MWord) : Statement (.accst w) := m_word rfl rfl (by decide)

theorem acccvt (w : MWord) : Statement (.acccvt w) := m_word rfl rfl (by decide)

theorem ngo (w : MWord) : Statement (.ngo w) := m_word rfl rfl (by decide)

theorem nwait (w : MWord) : Statement (.nwait w) := m_word rfl rfl (by decide)

theorem dcpy (w : DWord) : Statement (.dcpy w) := d_word rfl rfl (by decide) (by decide)

theorem dredAdd (w : DWord) : Statement (.dredAdd w) := d_word rfl rfl (by decide) (by decide)

theorem dredMax (w : DWord) : Statement (.dredMax w) := d_word rfl rfl (by decide) (by decide)

theorem dredMin (w : DWord) : Statement (.dredMin w) := d_word rfl rfl (by decide) (by decide)

theorem dgth (w : DWord) : Statement (.dgth w) := d_word rfl rfl (by decide) (by decide)

theorem dsct (w : DWord) : Statement (.dsct w) := d_word rfl rfl (by decide) (by decide)

theorem dgetMb (w : DWord) : Statement (.dgetMb w) := d_word rfl rfl (by decide) (by decide)

theorem dgetEv (w : DWord) : Statement (.dgetEv w) := d_word rfl rfl (by decide) (by decide)

theorem dput (w : DWord) : Statement (.dput w) := d_word rfl rfl (by decide) (by decide)

theorem dputF (w : DWord) : Statement (.dputF w) := d_word rfl rfl (by decide) (by decide)

theorem dstrm (w : DWord) : Statement (.dstrm w) := d_word rfl rfl (by decide) (by decide)

theorem dunb (w : DWord) : Statement (.dunb w) := d_word rfl rfl (by decide) (by decide)

theorem dshd (w : DWord) : Statement (.dshd w) := d_word rfl rfl (by decide) (by decide)

theorem dpub (w : DWord) : Statement (.dpub w) := d_word rfl rfl (by decide) (by decide)

theorem dstamp (w : DWord) : Statement (.dstamp w) := d_word rfl rfl (by decide) (by decide)

theorem dwaitAll (w : DWord) : Statement (.dwaitAll w) := d_word rfl rfl (by decide) (by decide)

theorem dwaitTok (w : DWord) : Statement (.dwaitTok w) := d_word rfl rfl (by decide) (by decide)

theorem dsig (w : DWord) : Statement (.dsig w) := d_word rfl rfl (by decide) (by decide)

theorem kvwr (w : DWord) : Statement (.kvwr w) := d_word rfl rfl (by decide) (by decide)

theorem ktTake (rd rs : BitVec 5) : Statement (.ktTake rd rs) := by
  intro hw n w h
  simp only [encode, Option.some.injEq, Prod.mk.injEq] at h
  obtain ⟨rfl, h⟩ := h
  have := rd.isLt
  have := rs.isLt
  refine kettle_word (by omega) (by omega) ?_
  have h0 : num 7 w 0 = 0x0B := by unfold num; omega
  have h1 : num 3 w 12 = 0 := by unfold num; omega
  have h2 : num 12 w 20 = 0 := by unfold num; omega
  have h3 : bits 5 w 7 = rd := bits_eq _ (by omega)
  have h4 : bits 5 w 15 = rs := bits_eq _ (by omega)
  unfold decodeKettle
  simp only [h0, h1, h2, h3, h4, if_true, zeroed_ok]

theorem ktMark (rd rs : BitVec 5) : Statement (.ktMark rd rs) := by
  intro hw n w h
  simp only [encode, Option.some.injEq, Prod.mk.injEq] at h
  obtain ⟨rfl, h⟩ := h
  have := rd.isLt
  have := rs.isLt
  refine kettle_word (by omega) (by omega) ?_
  have h0 : num 7 w 0 = 0x0B := by unfold num; omega
  have h1 : num 3 w 12 = 1 := by unfold num; omega
  have h2 : num 12 w 20 = 0 := by unfold num; omega
  have h3 : bits 5 w 7 = rd := bits_eq _ (by omega)
  have h4 : bits 5 w 15 = rs := bits_eq _ (by omega)
  unfold decodeKettle
  simp only [h0, h1, h2, h3, h4, if_true, zeroed_ok]

theorem kettleCompletionSwap (entry : BitVec 14) (value : BitVec 32) (rd : BitVec 5) : Statement (.kettleCompletionSwap entry value rd) := fun _ _ _ h => nomatch h

theorem branchOutcomeConsume (e : Engine) : Statement (.branchOutcomeConsume e) := fun _ _ _ h => nomatch h

theorem nestReplayIteration (e : Engine) : Statement (.nestReplayIteration e) := fun _ _ _ h => nomatch h

theorem trapEntry (t : Trap) : Statement (.trapEntry t) := fun _ _ _ h => nomatch h

theorem interruptTake (walk : Option Walk) : Statement (.interruptTake walk) := fun _ _ _ h => nomatch h

theorem postedStoreArrive (w : PostedStore) : Statement (.postedStoreArrive w) := fun _ _ _ h => nomatch h

theorem remoteAccessArrive (r : RemoteAccess) : Statement (.remoteAccessArrive r) := fun _ _ _ h => nomatch h

theorem taggedArrival (arr : Arrival) : Statement (.taggedArrival arr) := fun _ _ _ h => nomatch h

theorem mailboxIncrementArrive (idx : BitVec 8) (amount : BitVec 32) : Statement (.mailboxIncrementArrive idx amount) := fun _ _ _ h => nomatch h

theorem stealProbe (victim : Nat) : Statement (.stealProbe victim) := fun _ _ _ h => nomatch h

theorem stealServe (thief : Nat) : Statement (.stealServe thief) := fun _ _ _ h => nomatch h

theorem stealRecordsArrive (recs : List Record) : Statement (.stealRecordsArrive recs) := fun _ _ _ h => nomatch h

theorem remotePushArrive (src : Nat) (r : Record) : Statement (.remotePushArrive src r) := fun _ _ _ h => nomatch h

theorem codltApply (off : BitVec 19) (r : Record) : Statement (.codltApply off r) := fun _ _ _ h => nomatch h

theorem cdecApply (off : BitVec 19) (n : BitVec 32) : Statement (.cdecApply off n) := fun _ _ _ h => nomatch h

theorem amsgArrive (m : AMsg) : Statement (.amsgArrive m) := fun _ _ _ h => nomatch h

theorem amsgRefusalArrive (seq : BitVec 32) (why : BitVec 4) : Statement (.amsgRefusalArrive seq why) := fun _ _ _ h => nomatch h

theorem streamStripFetch (reg : BitVec 3) : Statement (.streamStripFetch reg) := fun _ _ _ h => nomatch h

theorem streamStripReturn (reg : BitVec 3) : Statement (.streamStripReturn reg) := fun _ _ _ h => nomatch h

theorem dCommandComplete (i : Nat) : Statement (.dCommandComplete i) := fun _ _ _ h => nomatch h

theorem reductionUnitApply (i : Nat) : Statement (.reductionUnitApply i) := fun _ _ _ h => nomatch h

theorem reductionEndNotice (id : RedId) : Statement (.reductionEndNotice id) := fun _ _ _ h => nomatch h

theorem futureTimeout (entry : BitVec 14) : Statement (.futureTimeout entry) := fun _ _ _ h => nomatch h

theorem fellPropose (pid : Nat) (tree : Nat) : Statement (.fellPropose pid tree) := fun _ _ _ h => nomatch h

theorem fellDeadlineExpiry (entry : BitVec 6) : Statement (.fellDeadlineExpiry entry) := fun _ _ _ h => nomatch h

theorem lpbk  : Statement (.lpbk) := by
  refine s_word rfl (sc_lt (by decide) (by decide)) sc_tag fun w h => ?_
  have h0 : num 7 w 2 = 51 := sc_op (by decide) h
  have h1 : num 6 w 9 = 0 := sc_nd (by decide) h
  have h2 : num 17 w 15 = 0 := sc_n0 (by decide) h
  unfold decodeFieldsS
  rw [h0]
  show (zeroed ((num 6 w 9) + num 17 w 15) .lpbk : Except DecodeError Instr) = _
  rw [h1, h2]
  rfl

theorem barexit  : Statement (.barexit) := by
  refine s_word rfl (sc_lt (by decide) (by decide)) sc_tag fun w h => ?_
  have h0 : num 7 w 2 = 82 := sc_op (by decide) h
  have h1 : num 6 w 9 = 0 := sc_nd (by decide) h
  have h2 : num 17 w 15 = 0 := sc_n0 (by decide) h
  unfold decodeFieldsS
  rw [h0]
  show (zeroed ((num 6 w 9) + num 17 w 15) .barexit : Except DecodeError Instr) = _
  rw [h1, h2]
  rfl

theorem yield  : Statement (.yield) := by
  refine s_word rfl (sc_lt (by decide) (by decide)) sc_tag fun w h => ?_
  have h0 : num 7 w 2 = 90 := sc_op (by decide) h
  have h1 : num 6 w 9 = 0 := sc_nd (by decide) h
  have h2 : num 17 w 15 = 0 := sc_n0 (by decide) h
  unfold decodeFieldsS
  rw [h0]
  show (zeroed ((num 6 w 9) + num 17 w 15) .yield : Except DecodeError Instr) = _
  rw [h1, h2]
  rfl

theorem exit  : Statement (.exit) := by
  refine s_word rfl (sc_lt (by decide) (by decide)) sc_tag fun w h => ?_
  have h0 : num 7 w 2 = 91 := sc_op (by decide) h
  have h1 : num 6 w 9 = 0 := sc_nd (by decide) h
  have h2 : num 17 w 15 = 0 := sc_n0 (by decide) h
  unfold decodeFieldsS
  rw [h0]
  show (zeroed ((num 6 w 9) + num 17 w 15) .exit : Except DecodeError Instr) = _
  rw [h1, h2]
  rfl

theorem split  : Statement (.split) := by
  refine s_word rfl (sc_lt (by decide) (by decide)) sc_tag fun w h => ?_
  have h0 : num 7 w 2 = 93 := sc_op (by decide) h
  have h1 : num 6 w 9 = 0 := sc_nd (by decide) h
  have h2 : num 17 w 15 = 0 := sc_n0 (by decide) h
  unfold decodeFieldsS
  rw [h0]
  show (zeroed ((num 6 w 9) + num 17 w 15) .split : Except DecodeError Instr) = _
  rw [h1, h2]
  rfl

theorem disband  : Statement (.disband) := by
  refine s_word rfl (sc_lt (by decide) (by decide)) sc_tag fun w h => ?_
  have h0 : num 7 w 2 = 95 := sc_op (by decide) h
  have h1 : num 6 w 9 = 0 := sc_nd (by decide) h
  have h2 : num 17 w 15 = 0 := sc_n0 (by decide) h
  unfold decodeFieldsS
  rw [h0]
  show (zeroed ((num 6 w 9) + num 17 w 15) .disband : Except DecodeError Instr) = _
  rw [h1, h2]
  rfl

theorem eret  : Statement (.eret) := by
  refine s_word rfl (sc_lt (by decide) (by decide)) sc_tag fun w h => ?_
  have h0 : num 7 w 2 = 112 := sc_op (by decide) h
  have h1 : num 6 w 9 = 0 := sc_nd (by decide) h
  have h2 : num 17 w 15 = 0 := sc_n0 (by decide) h
  unfold decodeFieldsS
  rw [h0]
  show (zeroed ((num 6 w 9) + num 17 w 15) .eret : Except DecodeError Instr) = _
  rw [h1, h2]
  rfl

theorem halt  : Statement (.halt) := by
  refine s_word rfl (sc_lt (by decide) (by decide)) sc_tag fun w h => ?_
  have h0 : num 7 w 2 = 114 := sc_op (by decide) h
  have h1 : num 6 w 9 = 0 := sc_nd (by decide) h
  have h2 : num 17 w 15 = 0 := sc_n0 (by decide) h
  unfold decodeFieldsS
  rw [h0]
  show (zeroed ((num 6 w 9) + num 17 w 15) .halt : Except DecodeError Instr) = _
  rw [h1, h2]
  rfl

theorem blaze  : Statement (.blaze) := by
  refine s_word rfl (sc_lt (by decide) (by decide)) sc_tag fun w h => ?_
  have h0 : num 7 w 2 = 116 := sc_op (by decide) h
  have h1 : num 6 w 9 = 0 := sc_nd (by decide) h
  have h2 : num 17 w 15 = 0 := sc_n0 (by decide) h
  unfold decodeFieldsS
  rw [h0]
  show (zeroed ((num 6 w 9) + num 17 w 15) .blaze : Except DecodeError Instr) = _
  rw [h1, h2]
  rfl

theorem kettleTestedAccess (acc : KAccess) : Statement (.kettleTestedAccess acc) := fun _ _ _ h => nomatch h

theorem sWalkerPassWord  : Statement (.sWalkerPassWord) := fun _ _ _ h => nomatch h

theorem sLoadReturn (i mix : Nat) : Statement (.sLoadReturn i mix) := fun _ _ _ h => nomatch h

theorem pageWalkComplete (e : WalkEnd) : Statement (.pageWalkComplete e) := fun _ _ _ h => nomatch h

theorem cycleCompareMatch  : Statement (.cycleCompareMatch) := fun _ _ _ h => nomatch h

theorem safePointOverrun  : Statement (.safePointOverrun) := fun _ _ _ h => nomatch h

theorem ownershipFlipRequest (pid : Nat) (va : BitVec 64) (host : Bool) : Statement (.ownershipFlipRequest pid va host) := fun _ _ _ h => nomatch h

theorem ownershipFlipComplete  : Statement (.ownershipFlipComplete) := fun _ _ _ h => nomatch h

theorem ownershipStallTimeout  : Statement (.ownershipStallTimeout) := fun _ _ _ h => nomatch h

theorem heldArrivalOverrun  : Statement (.heldArrivalOverrun) := fun _ _ _ h => nomatch h

theorem presenceWaitResend  : Statement (.presenceWaitResend) := fun _ _ _ h => nomatch h

theorem bartwaitTimeout  : Statement (.bartwaitTimeout) := fun _ _ _ h => nomatch h

theorem monwaitWake (key : Nat) (n : Nat) : Statement (.monwaitWake key n) := fun _ _ _ h => nomatch h

theorem monwaitTimeout  : Statement (.monwaitTimeout) := fun _ _ _ h => nomatch h

theorem taskStart  : Statement (.taskStart) := fun _ _ _ h => nomatch h

theorem remotePushResend  : Statement (.remotePushResend) := fun _ _ _ h => nomatch h

theorem parkTimeout  : Statement (.parkTimeout) := fun _ _ _ h => nomatch h

theorem gangSliceInstant (pid : Nat) : Statement (.gangSliceInstant pid) := fun _ _ _ h => nomatch h

theorem partitionSwap (out : Nat) (inn : Nat) : Statement (.partitionSwap out inn) := fun _ _ _ h => nomatch h

theorem groupWatchdogExpiry  : Statement (.groupWatchdogExpiry) := fun _ _ _ h => nomatch h

theorem vmaxxRelease  : Statement (.vmaxxRelease) := fun _ _ _ h => nomatch h

theorem vmaxxWatchdogExpiry  : Statement (.vmaxxWatchdogExpiry) := fun _ _ _ h => nomatch h

theorem mWordStart  : Statement (.mWordStart) := fun _ _ _ h => nomatch h

theorem mWordComplete (i : Nat) : Statement (.mWordComplete i) := fun _ _ _ h => nomatch h

theorem mNestIteration  : Statement (.mNestIteration) := fun _ _ _ h => nomatch h

theorem dCommandStart  : Statement (.dCommandStart) := fun _ _ _ h => nomatch h

theorem reductionResend  : Statement (.reductionResend) := fun _ _ _ h => nomatch h

theorem injectGranule  : Statement (.injectGranule) := fun _ _ _ h => nomatch h

theorem remoteCompletion (m : RemoteDone) : Statement (.remoteCompletion m) := fun _ _ _ h => nomatch h

theorem kvPrefetchServe  : Statement (.kvPrefetchServe) := fun _ _ _ h => nomatch h

theorem fellExecute  : Statement (.fellExecute) := fun _ _ _ h => nomatch h

theorem fellactConfirm (entry : BitVec 6) : Statement (.fellactConfirm entry) := fun _ _ _ h => nomatch h

theorem fellactVeto (entry : BitVec 6) : Statement (.fellactVeto entry) := fun _ _ _ h => nomatch h

theorem fellactMoveFront (entry : BitVec 6) : Statement (.fellactMoveFront entry) := fun _ _ _ h => nomatch h

theorem rankTableWrite (iface : BitVec 3) (rank : BitVec 12) (v : BitVec 32) : Statement (.rankTableWrite iface rank v) := fun _ _ _ h => nomatch h

theorem dbgctlHaltreq  : Statement (.dbgctlHaltreq) := fun _ _ _ h => nomatch h

theorem dbgctlResume  : Statement (.dbgctlResume) := fun _ _ _ h => nomatch h

theorem dbgctlStep  : Statement (.dbgctlStep) := fun _ _ _ h => nomatch h

theorem debugStepDone  : Statement (.debugStepDone) := fun _ _ _ h => nomatch h

theorem debugViewWrite (off : BitVec 14) (v : BitVec 64) : Statement (.debugViewWrite off v) := fun _ _ _ h => nomatch h

theorem doorbellWrite  : Statement (.doorbellWrite) := fun _ _ _ h => nomatch h

theorem coreResumeWrite  : Statement (.coreResumeWrite) := fun _ _ _ h => nomatch h

theorem ctxSuspend (ctx : BitVec 16) : Statement (.ctxSuspend ctx) := fun _ _ _ h => nomatch h

theorem ctxResume (ctx : BitVec 16) : Statement (.ctxResume ctx) := fun _ _ _ h => nomatch h

theorem ctxBeginTeardown (ctx : BitVec 16) : Statement (.ctxBeginTeardown ctx) := fun _ _ _ h => nomatch h

theorem toolRingWrite (ring : BitVec 6) (v : BitVec 64) : Statement (.toolRingWrite ring v) := fun _ _ _ h => nomatch h

theorem fqringWrite (v : BitVec 64) : Statement (.fqringWrite v) := fun _ _ _ h => nomatch h

theorem ppringWrite (v : BitVec 64) : Statement (.ppringWrite v) := fun _ _ _ h => nomatch h

theorem ppputWrite (v : BitVec 64) : Statement (.ppputWrite v) := fun _ _ _ h => nomatch h

theorem pptakeRead (d : GIdx) : Statement (.pptakeRead d) := fun _ _ _ h => nomatch h

theorem hostQueuePost (v : BitVec 64) : Statement (.hostQueuePost v) := fun _ _ _ h => nomatch h

theorem sqcfgWrite (v : BitVec 64) : Statement (.sqcfgWrite v) := fun _ _ _ h => nomatch h

theorem sqTailWrite (v : BitVec 64) : Statement (.sqTailWrite v) := fun _ _ _ h => nomatch h

theorem storageRequestComplete (i : Nat) (data : List Byte) (err : Bool) : Statement (.storageRequestComplete i data err) := fun _ _ _ h => nomatch h

theorem extentGrantInstall (slot : BitVec 8) (g : ExtentGrant) (verified : Bool) : Statement (.extentGrantInstall slot g verified) := fun _ _ _ h => nomatch h

theorem attestationRequest (nonce : BitVec 256) : Statement (.attestationRequest nonce) := fun _ _ _ h => nomatch h

theorem ldrdbWrite (v : BitVec 64) : Statement (.ldrdbWrite v) := fun _ _ _ h => nomatch h

theorem loaderEntry (key : RsaKey) : Statement (.loaderEntry key) := fun _ _ _ h => nomatch h

theorem hostdbWrite (core : BitVec 12) : Statement (.hostdbWrite core) := fun _ _ _ h => nomatch h

theorem blztrigWrite  : Statement (.blztrigWrite) := fun _ _ _ h => nomatch h

theorem blzctlUnlock  : Statement (.blzctlUnlock) := fun _ _ _ h => nomatch h

theorem blazePinTrigger  : Statement (.blazePinTrigger) := fun _ _ _ h => nomatch h

theorem blazeTimeTrigger  : Statement (.blazeTimeTrigger) := fun _ _ _ h => nomatch h

theorem blazeLatch  : Statement (.blazeLatch) := fun _ _ _ h => nomatch h

theorem powerOnBringUp (b : BringUp) : Statement (.powerOnBringUp b) := fun _ _ _ h => nomatch h

theorem junctionThrottle (region : Nat) : Statement (.junctionThrottle region) := fun _ _ _ h => nomatch h

theorem clockStepRestore (region : Nat) : Statement (.clockStepRestore region) := fun _ _ _ h => nomatch h

theorem thermalTrip  : Statement (.thermalTrip) := fun _ _ _ h => nomatch h

theorem lowFlowTrip  : Statement (.lowFlowTrip) := fun _ _ _ h => nomatch h

theorem inputDisconnect  : Statement (.inputDisconnect) := fun _ _ _ h => nomatch h

theorem overvoltageEvent  : Statement (.overvoltageEvent) := fun _ _ _ h => nomatch h

theorem coolantEvent  : Statement (.coolantEvent) := fun _ _ _ h => nomatch h

theorem slackThrottle (cluster : Nat) (slack : Nat) : Statement (.slackThrottle cluster slack) := fun _ _ _ h => nomatch h

theorem marginReplan (cluster : Nat) (millivolt : Nat) : Statement (.marginReplan cluster millivolt) := fun _ _ _ h => nomatch h

theorem linkFlitRetry (plane : Nat) (seq : Nat) : Statement (.linkFlitRetry plane seq) := fun _ _ _ h => nomatch h

theorem planeOutOfService (plane : Nat) : Statement (.planeOutOfService plane) := fun _ _ _ h => nomatch h

theorem uePacketArrival (p : UePacket) : Statement (.uePacketArrival p) := fun _ _ _ h => nomatch h

theorem slipwWrite (v : BitVec 64) : Statement (.slipwWrite v) := fun _ _ _ h => nomatch h

theorem cwwinWrite (v : BitVec 64) : Statement (.cwwinWrite v) := fun _ _ _ h => nomatch h

theorem scgrpWrite (v : BitVec 64) : Statement (.scgrpWrite v) := fun _ _ _ h => nomatch h

theorem mxcfgWrite (v : BitVec 64) : Statement (.mxcfgWrite v) := fun _ _ _ h => nomatch h

theorem kvdirWrite (v : BitVec 64) : Statement (.kvdirWrite v) := fun _ _ _ h => nomatch h

theorem intpendClear (v : BitVec 64) : Statement (.intpendClear v) := fun _ _ _ h => nomatch h

theorem registerWrite (idx : BitVec 11) (v : BitVec 128) : Statement (.registerWrite idx v) := fun _ _ _ h => nomatch h

theorem timeServoLockLoss  : Statement (.timeServoLockLoss) := fun _ _ _ h => nomatch h

theorem timeServoLockRegain (ps : Nat) : Statement (.timeServoLockRegain ps) := fun _ _ _ h => nomatch h

theorem partitionUnbind (pid : Nat) : Statement (.partitionUnbind pid) := fun _ _ _ h => nomatch h

theorem shadowReservationChange (die : Nat) (ways : Nat) : Statement (.shadowReservationChange die ways) := fun _ _ _ h => nomatch h

theorem spareCoreReplacement (prow : BitVec 6) (pcol : BitVec 5) : Statement (.spareCoreReplacement prow pcol) := fun _ _ _ h => nomatch h

theorem moduleReset  : Statement (.moduleReset) := fun _ _ _ h => nomatch h

theorem hostCoherentAccess (addr : Nat) (store : Option (List Byte)) (n : Nat) : Statement (.hostCoherentAccess addr store n) := fun _ _ _ h => nomatch h

theorem storeBufferPerform (i : Nat) : Statement (.storeBufferPerform i) := fun _ _ _ h => nomatch h

end Sys2Proof.Laws.RoundTrip
end

