-- ==== Sys2Proof/Safety.lean ====
section
/-! DEFINITION. What counts as a safe run, and the canonical form of a state. -/

namespace Sys2Proof.Machine

/-- The canonical form of memory: strictly rising keys, and no entry equal to what an unlisted key reads as. -/
abbrev Memory.wf (m : Mem) : Bool := m.wf

/-- The answer of a step is a next state. -/
def Goes (x : Host.Outcome State Fault Refusal) : Prop := ∃ t, x = .next t

/-- Whether the hub has logged a double fault of some core (15_system.md R429). -/
def State.doubleFaulted (s : State) : Bool :=
  s.logs.any fun e => match e with | .doubleFault _ => true | _ => false

/-- A run of k steps is safe: every step answers a next state, and no core has taken a double fault. -/
def SafeRun (s : State) : Nat → Prop
  | 0 => s.doubleFaulted = false
  | k + 1 => ∃ t, step s = .next t ∧ SafeRun t k

/-! Frames. -/

/-- Every core but that of the step, and everything outside the cores, stands. -/
def OnlyMe (s t : State) : Prop := t = s.setMe t.me

/-- Every byte of memory reads as before. -/
def SameBytes (s t : State) : Prop := ∀ a, t.mem.get a = s.mem.get a

/-- Of a core, at most the general file and the place of the S walker differ: every vector, predicate, tile, accumulator,
mailbox and presence register, every control register and every queue stands, and of the general file every register
that a list does not name. -/
def OnlyRegs (ds : List GIdx) (c e : Core) : Prop :=
  e = { c with g := e.g, codecap := c.codecap.withWord e.pc, posS := e.posS } ∧ ∀ j, j ∉ ds → e.rg j = c.rg j

/-- The frame of an S word that writes at most the registers of a list. -/
def RegFrame (ds : List GIdx) (s t : State) : Prop := OnlyMe s t ∧ OnlyRegs ds s.me t.me ∧ SameBytes s t

/-! Operands. -/

/-- A word's access of n bytes through c at x passes its tests and lies at offset o of core r's local memory; t is the state
after the core's earlier accesses to those bytes are performed (05_memory.md R174, 06_ordering.md R189). -/
def LocalAt (s : State) (c : GVal) (x : Word64) (n : Nat) (need : BitVec 12) (align r o : Nat) (t : State) : Prop :=
  r < 4096 ∧ o < 2 ^ 19 ∧ ∃ u k, access s .s c x n need align .local_ = .ok (.bytes [k], u) ∧ k.key = localKey r o ∧
    t = settleFor u s.rank x [k]

/-- The operand of a mailbox word names counter i of core r of this package (07_sync.md R225, R227); t is the state after the
core's earlier posted accesses to that core are performed. -/
def MailAt (s : State) (a : GIdx) (need : BitVec 12) (r : Nat) (i : BitVec 8) (t : State) : Prop :=
  let x : Word64 := (s.me.rg a).word
  ∃ u, access s .s (s.me.rg a) x 4 need 1 .any = .ok (.window x, u) ∧ region x = 0xE ∧ field x 49 3 = 0 ∧ field x 10 9 = 0 ∧
    coordPkg x = s.me.ctl.pkg ∧ r = (coordCore x).toNat ∧ i = x.extractLsb' 2 8 ∧ t = flushTo u s.rank r

/-- A word's record image: ga names 64 readable bytes of the core's own local memory that pass the check of a record, and x is
the record they hold (08_tasks.md R243, R253). -/
def RecordAt (s : State) (a : GIdx) (x : Record) (t : State) : Prop :=
  ∃ u k, access s .s (s.me.rg a) (s.me.rg a).word 64 permLoad 64 .own = .ok (.bytes [k], u) ∧
    t = settleFor u s.rank (s.me.rg a).word [k] ∧ t.poisoned k.key 64 = false ∧
    x = recordAt t k.key ∧ recordOk t x = true

/-- A rank that the rank table gives to a core's partition, not in transit (05_memory.md R154, R155). -/
def RankFree (s : State) (r : Nat) : Prop :=
  field (s.rankEntry r) 31 1 = 1 ∧ field (s.rankEntry r) 16 10 = s.me.pid ∧ field (s.rankEntry r) 30 1 = 0

/-- A word that the hub carries out on request q, made in the state u that its checks leave (13_kv.md R385): while accesses wait,
its request stands at the hub and the walker waits for the reply; otherwise it completes with the hub's status and value, with
status 2 and value 0 where something cannot be reached, and takes a machine check at a break. -/
def HubAnswers (s u : State) (i : Instr) (q : HubReq) : Prop :=
  let done (w : State) (code v : Nat) : Host.Outcome State Fault Refusal :=
    .next (w.modMe fun c => ((q.answered c code).wg q.d (GVal.ofNat v)).nextSafe)
  (u.lazy = true → exec i s = .next (({ u with hubReqs := u.hubReqs ++ [q] } : State).modMe fun c =>
    { c with blocked := some { op := .hub, since := u.cycle, deadline := none } })) ∧
  (u.lazy = false →
    (∀ w code v, hubStep u q = (.ok (code, v), w) → exec i s = done w code v) ∧
    (∀ w, hubStep u q = (.error .unreached, w) → exec i s = done w 2 0) ∧
    (∀ w, hubStep u q = (.error .broken, w) → exec i s = .next (takeTrap w s.rank (trapS 0x0D q.x))))

/-! V and M words. -/

/-- The state in which a V word reads: the core's S accesses that its own follow are performed (04_scalar.md R116). -/
def vAt (s : State) (op : Instr) (l : List GVal) : State := settleTouches s (vTouches s op l)

/-- A V word that computes may run (10_vector.md R292, R300, R304; 04_scalar.md R112, R116, R122): its values are captured,
its nest, its group and the order of the engines let it go, its checks pass, and i is what it reads. -/
def VRuns (s : State) (op : Instr) (w : VWord) (f : VForm) (l : List GVal) (i : VIn) : Prop :=
  s.me.engCaptured .v = some l ∧ (s.me.nestV = none ∨ w.bumps = false) ∧ s.me.maxx = none ∧ vReady s op w l = true ∧
    vRead (vAt s op l) w (capsOf (vFields w) l) f = .ok (some i)

/-- No flag traps (03_numbers.md R74). -/
def FlagsMasked (s : State) : Prop := (s.me.ctl.arflg >>> 16) &&& 0x3F#32 = 0#32

/-- A V word completes with what it has computed: exec answers the state of vFinish (10_vector.md R304). -/
def VEnds (s : State) (op : Instr) (w : VWord) (f : VForm) (l : List GVal) (o : VOut) : Prop :=
  ∃ t, exec op s = .next t ∧ vFinish (vAt s op l) op w (capsOf (vFields w) l) l f o = .ok t

/-- The state in which an M word outside a nest starts: the core's S accesses that its own follow are performed (04_scalar.md
R116). -/
def mAt (s : State) (op : Instr) (l : List GVal) : State :=
  settleTouches s (mTouch s (fun i => (s.me.shape i).bytes) noDisp op l)

/-- An M word stands at the M walker, captured, outside a nest, and may start (11_matrix.md R332, R333). -/
def MStarts (s : State) (op : Instr) (l : List GVal) : Prop :=
  s.me.mHead = some l ∧ s.me.nestM = none ∧ mReady s s.me.posM noDisp op l = true

/-- The state after an M word has started with some flags: it is past its word, and completes later (11_matrix.md R332). -/
def MAfter (t : State) (op : Instr) (flags : BitVec 6) : Host.Outcome State Fault Refusal :=
  .next (t.modMe fun c => c.mPast.mStarted op flags c.posM)

end Sys2Proof.Machine
end

