-- ==== Sys2Proof/Certificates/Slice0/Obligations.lean ====
section
/-! DEFINITION. The statements for the provers, each after a rule of the spec. -/

open Sys2Proof Sys2Proof.Machine

/-- 04_scalar.md R106 and R132 to R135: what each integer word writes; none of them traps. The word writes 64 bits
with zero above and the tag clear, and the S walker steps to the next word. 04_scalar.md R132, R135: CLZ counts the
zeros above the highest 1 bit, POPC the 1 bits, and WIDF extracts field n, 1 to 6, of the work identifier, its fields
packed from bit 63 downward, or 0 where the widths exceed 64 bits. -/
def Obligations.IntegerAndBitFieldResults : Prop :=
  (∀ (s : State) (d a b : GIdx),
    let x : Word64 := (s.me.rg a).word
    let y : Word64 := (s.me.rg b).word
    let put (v : Word64) : Host.Outcome State Fault Refusal :=
      .next (s.setMe (s.me.wg d { bits := v.setWidth 128, tag := false }).next)
    exec (.add d a b) s = put (x + y) ∧ exec (.sub d a b) s = put (x - y) ∧ exec (.mul d a b) s = put (x * y) ∧
    exec (.mulh d a b) s = put (BitVec.ofInt 64 (x.toInt * y.toInt / 2 ^ 64)) ∧
    exec (.div d a b) s = put (if y = 0#64 then BitVec.ofInt 64 (-1)
      else if x.toInt = -(2 ^ 63) ∧ y.toInt = -1 then BitVec.ofInt 64 (-(2 ^ 63)) else BitVec.ofInt 64 (x.toInt.tdiv y.toInt)) ∧
    exec (.rem d a b) s = put (if y = 0#64 then x
      else if x.toInt = -(2 ^ 63) ∧ y.toInt = -1 then 0#64
      else BitVec.ofInt 64 (x.toInt - y.toInt * x.toInt.tdiv y.toInt)) ∧
    exec (.and d a b) s = put (x &&& y) ∧ exec (.or d a b) s = put (x ||| y) ∧ exec (.xor d a b) s = put (x ^^^ y) ∧
    exec (.sll d a b) s = put (x <<< (y.toNat % 128)) ∧ exec (.srl d a b) s = put (x >>> (y.toNat % 128)) ∧
    exec (.sra d a b) s = put (x.sshiftRight (y.toNat % 128)) ∧
    exec (.slt d a b) s = put (if x.toInt < y.toInt then 1#64 else 0#64) ∧
    exec (.sltu d a b) s = put (if x.toNat < y.toNat then 1#64 else 0#64) ∧
    exec (.min d a b) s = put (BitVec.ofInt 64 (min x.toInt y.toInt)) ∧
    exec (.max d a b) s = put (BitVec.ofInt 64 (max x.toInt y.toInt)) ∧
    exec (.mov d a) s = .next (s.setMe (s.me.wg d { bits := (s.me.rg a).bits, tag := false }).next) ∧
    (∀ imm : BitVec 11,
      exec (.addi d a imm) s = put (x + imm.signExtend 64) ∧ exec (.andi d a imm) s = put (x &&& imm.signExtend 64) ∧
      exec (.ori d a imm) s = put (x ||| imm.signExtend 64) ∧ exec (.xori d a imm) s = put (x ^^^ imm.signExtend 64)) ∧
    (∀ sh : BitVec 7,
      exec (.slli d a sh) s = put (x <<< sh.toNat) ∧ exec (.srli d a sh) s = put (x >>> sh.toNat) ∧
      exec (.srai d a sh) s = put (x.sshiftRight sh.toNat)) ∧
    (∀ imm : BitVec 17,
      exec (.lih d imm) s = .next (s.setMe
        (s.me.wg d { bits := ((s.me.rg d).word <<< 17 ||| imm.setWidth 64).setWidth 128, tag := false }).next))) ∧
  (∀ (s : State) (d a : GIdx),
    let x : Word64 := (s.me.rg a).word
    let put (v : Nat) : Host.Outcome State Fault Refusal :=
      .next (s.setMe (s.me.wg d { bits := BitVec.ofNat 128 v, tag := false }).next)
    (∃ n, n ≤ 64 ∧ x.toNat < 2 ^ (64 - n) ∧ (n < 64 → 2 ^ (63 - n) ≤ x.toNat) ∧ exec (.clz d a) s = put n) ∧
    exec (.popc d a) s = put ((List.range 64).countP fun i => x.getLsbD i) ∧
    ∀ n : BitVec 3, n ≠ 0#3 → n ≠ 7#3 →
      let w (k : Nat) : Nat := s.me.ctl.widw.toNat / 2 ^ (7 * (k - 1)) % 128
      let above : Nat := ((List.range (n.toNat - 1)).map fun j => w (j + 1)).sum
      exec (.widf d a n) s = put (
        if 64 < ((List.range 6).map fun j => w (j + 1)).sum then 0
        else x.toNat / 2 ^ (64 - above - w n.toNat) % 2 ^ w n.toNat))

/-- The frame of the integer words (04_scalar.md R106, 02_encoding.md R52): at most gd, the place of the S walker and
nothing else; with gd = g0 no register at all. -/
def Obligations.IntegerFrame : Prop :=
  ∀ (s t : State) (i : Instr) (d : GIdx),
    (∃ (a b : GIdx) (imm : BitVec 11) (sh : BitVec 7) (k : BitVec 17) (n : BitVec 3),
      i ∈ [.add d a b, .sub d a b, .mul d a b, .mulh d a b, .div d a b, .rem d a b, .and d a b, .or d a b, .xor d a b,
        .sll d a b, .srl d a b, .sra d a b, .slt d a b, .sltu d a b, .min d a b, .max d a b, .clz d a, .popc d a, .mov d a,
        .addi d a imm, .andi d a imm, .ori d a imm, .xori d a imm, .slli d a sh, .srli d a sh, .srai d a sh, .lih d k,
        .widf d a n, .capMov d a, .capClr d a]) →
    exec i s = .next t →
    RegFrame [d] s t ∧ t.me.pc = s.me.pc + 4#64 ∧ (d = 0#6 → t.me.g = s.me.g)

/-- 04_scalar.md R137, R138, R139, R141, R142: what each capability word writes on the operands on which it does not
trap. A capability has PERM in bits [127:116], OTYPE in [115:100] and its address in [63:0] (R107). 04_scalar.md R140:
at the least exponent e of 0 to 48 at which the rounded range has at most 255 units of 2^e, inside the bounds of ga,
CAP.BND writes ga with that exponent and the mantissas of that range. -/
def Obligations.CapabilityResults : Prop :=
  (∀ (s : State) (d a b : GIdx),
    let c : GVal := s.me.rg a
    let k : GVal := s.me.rg b
    let put (v : GVal) : Host.Outcome State Fault Refusal := .next (s.setMe (s.me.wg d v).next)
    exec (.capMov d a) s = put c ∧
    exec (.capClr d a) s = put { bits := c.word.setWidth 128, tag := false } ∧
    (c.tag = true → c.bits.extractLsb' 100 16 = 0#16 →
      exec (.capPerm d a b) s =
        put { bits := (c.bits.extractLsb' 116 12 &&& k.bits.extractLsb' 0 12) ++ c.bits.extractLsb' 0 116, tag := true }) ∧
    (c.tag = false → exec (.capInc d a b) s = put { bits := (c.word + k.word).setWidth 128, tag := false }) ∧
    (c.tag = true → c.bits.extractLsb' 100 16 = 0#16 →
      let y : Word64 := c.word + k.word
      let base : Int := (capBounds c.bits).1
      exec (.capInc d a b) s =
        put { bits := c.bits.extractLsb' 64 64 ++ y
              tag := decide (y.toNat < 2 ^ 56 ∧ base ≤ y.toNat ∧ (y.toNat : Int) < base + 2 ^ (capExp c.bits + 8)) }) ∧
    (c.tag = true → k.tag = true → c.bits.extractLsb' 100 16 = 0#16 → k.bits.extractLsb' 100 16 = 0#16 →
      k.bits.getLsbD 126 = true → 0 < k.word.toNat → k.word.toNat ≤ 0xFFFF →
      (capBounds k.bits).1 ≤ k.word.toNat → (k.word.toNat : Int) < (capBounds k.bits).2 →
      exec (.capSeal d a b) s =
        put { bits := c.bits.extractLsb' 116 12 ++ k.bits.extractLsb' 0 16 ++ c.bits.extractLsb' 0 100, tag := true }) ∧
    ∀ sel : BitVec 3, sel.toNat ≤ 5 →
      exec (.capGet d a sel) s = put { bits := (BitVec.ofNat 64 (match sel.toNat with
        | 0 => c.word.toNat
        | 1 => if c.tag then (capBounds c.bits).1.toNat else 0
        | 2 => if c.tag then ((capBounds c.bits).2 - (capBounds c.bits).1).toNat else 0
        | 3 => if c.tag then (c.bits.extractLsb' 116 12).toNat else 0
        | 4 => if c.tag then 1 else 0
        | _ => if c.tag then (c.bits.extractLsb' 100 16).toNat else 0)).setWidth 128, tag := false }) ∧
  (∀ (s : State) (d a b : GIdx) (e : Nat),
    let c : GVal := s.me.rg a
    let x : Nat := c.word.toNat
    let l : Nat := (s.me.rg b).word.toNat
    let nb (e : Nat) : Nat := x / 2 ^ e * 2 ^ e
    let nt (e : Nat) : Nat := (x + l + 2 ^ e - 1) / 2 ^ e * 2 ^ e
    c.tag = true → c.bits.extractLsb' 100 16 = 0#16 → (capBounds c.bits).1 ≤ x → ((x + l : Nat) : Int) ≤ (capBounds c.bits).2 →
    e ≤ 48 → (nt e - nb e) / 2 ^ e ≤ 255 → (∀ f, f < e → 255 < (nt f - nb f) / 2 ^ f) →
    (capBounds c.bits).1 ≤ nb e → (nt e : Int) ≤ (capBounds c.bits).2 →
    exec (.capBnd d a b) s = .next (s.setMe (s.me.wg d
      { bits := c.bits.extractLsb' 100 28 ++ BitVec.ofNat 6 e ++ BitVec.ofNat 8 (nb e / 2 ^ e) ++
          BitVec.ofNat 8 ((nt e - nb e) / 2 ^ e) ++ c.bits.extractLsb' 0 78
        tag := true }).next))

/-- 04_scalar.md R138, R140: no word widens a capability. What CAP.BND answers covers the range asked for, lies inside
the bounds of ga, and keeps its address, permissions and tag; what CAP.PERM answers has no permission that ga has not.
-/
def Obligations.CapabilityNeverGrows : Prop :=
  ∀ (c v : GVal) (l : Word64) (m : BitVec 12),
    (capBnd c l = .ok v →
      (capBounds c.bits).1 ≤ (capBounds v.bits).1 ∧ (capBounds v.bits).1 ≤ c.word.toNat ∧
      (c.word.toNat : Int) + l.toNat ≤ (capBounds v.bits).2 ∧ (capBounds v.bits).2 ≤ (capBounds c.bits).2 ∧
      v.word = c.word ∧ capPerms v.bits = capPerms c.bits ∧ v.tag = true ∧ capOtype v.bits = 0) ∧
    capPerms (capMask c m).bits = capPerms c.bits &&& m ∧ capBounds (capMask c m).bits = capBounds c.bits ∧
    (capMask c m).word = c.word ∧ (capMask c m).tag = c.tag ∧ capOtype (capMask c m).bits = capOtype c.bits

/-- 04_scalar.md R136, R138 to R141: a capability word whose source fails a check takes the trap that the first
failing check names, with the address of ga. -/
def Obligations.CapabilityTraps : Prop :=
  ∀ (s : State) (d a b : GIdx),
    let c : GVal := s.me.rg a
    let k : GVal := s.me.rg b
    let trap (cause : Nat) : Host.Outcome State Fault Refusal := .next (takeTrap s s.rank (trapS cause c.word))
    (c.tag = false → exec (.capPerm d a b) s = trap 0x02 ∧ exec (.capBnd d a b) s = trap 0x02 ∧
      exec (.capSeal d a b) s = trap 0x02) ∧
    (c.tag = true → c.bits.extractLsb' 100 16 ≠ 0#16 →
      exec (.capPerm d a b) s = trap 0x04 ∧ exec (.capBnd d a b) s = trap 0x04 ∧ exec (.capInc d a b) s = trap 0x04) ∧
    (c.tag = true → c.bits.extractLsb' 100 16 = 0#16 →
      ((capBounds c.bits).2 < (c.word.toNat : Int) + k.word.toNat ∨ (c.word.toNat : Int) < (capBounds c.bits).1) →
      exec (.capBnd d a b) s = trap 0x03) ∧
    (k.tag = false → exec (.capSeal d a b) s = trap 0x02) ∧
    (c.tag = true → k.tag = true →
      ((k.word.toNat : Int) < (capBounds k.bits).1 ∨ (capBounds k.bits).2 ≤ k.word.toNat ∨ k.word.toNat = 0 ∨
        0xFFFF < k.word.toNat) → exec (.capSeal d a b) s = trap 0x03)

/-- 04_scalar.md R143 to R145: a branch or a jump pushes its outcome and goes on at the target or at the next word. It
needs room in the outcome queue (R113); in composed mode nothing is pushed (09_compose.md R273). 04_scalar.md R113,
R145, 09_compose.md R279: where a branch or a jump does not take its own outcome. A full outcome queue holds it, a
misaligned JALR target traps with 0x05, and a gang's follower takes its leader's outcome. -/
def Obligations.BranchResults : Prop :=
  (∀ (s : State) (d a b : GIdx),
    let c : Core := s.me
    let x : Word64 := (c.rg a).word
    let y : Word64 := (c.rg b).word
    let push (taken : Bool) (t : Word64) : Core :=
      let e : Core := { c with lastOut := some (taken, t), outcomes := if c.composed then c.outcomes
        else c.outcomes ++ [{ taken := taken, target := t, byV := false, byM := false, byD := false }] }
      { e.setPc (if taken then t else c.pc + 4#64) with posS := c.posS + 1#32 }
    let link : GVal := { bits := c.codecap.bits.extractLsb' 64 64 ++ (c.pc + 4#64), tag := c.codecap.tag }
    c.outcomes.length < 16 → leadOutcome s = none →
    (∀ off : BitVec 11,
      let go (taken : Bool) : Host.Outcome State Fault Refusal := .next (s.setMe (push taken (c.pc + 4#64 * off.signExtend 64)))
      exec (.beq a b off) s = go (decide (x = y)) ∧ exec (.bne a b off) s = go (decide (x ≠ y)) ∧
      exec (.blt a b off) s = go (decide (x.toInt < y.toInt)) ∧ exec (.bge a b off) s = go (decide (y.toInt ≤ x.toInt)) ∧
      exec (.bltu a b off) s = go (decide (x.toNat < y.toNat)) ∧ exec (.bgeu a b off) s = go (decide (y.toNat ≤ x.toNat))) ∧
    (∀ off : BitVec 17,
      exec (.jal d off) s = .next (s.setMe ((push true (c.pc + 4#64 * off.signExtend 64)).wg d link))) ∧
    ∀ off : BitVec 11,
      let t : Word64 := x + 4#64 * off.signExtend 64
      t.toNat % 4 = 0 →
      ((c.rg a).tag = false → exec (.jalr d a off) s = .next (s.setMe ((push true t).wg d link))) ∧
      ((c.rg a).tag = true → (capBounds (c.rg a).bits).1 ≤ t.toNat → (t.toNat : Int) + 4 ≤ (capBounds (c.rg a).bits).2 →
        (c.rg a).bits.extractLsb' 100 16 = 0#16 → (c.rg a).bits.getLsbD 118 = true →
        exec (.jalr d a off) s = .next (s.setMe
          (({ push true t with codecap := { bits := (c.rg a).bits.extractLsb' 64 64 ++ t, tag := true } }).wg d link)))) ∧
  (∀ (s : State) (d a b : GIdx) (off : BitVec 11) (far : BitVec 17),
    let c : Core := s.me
    (16 ≤ c.outcomes.length → ∀ i ∈ [Instr.beq a b off, .bne a b off, .blt a b off, .bge a b off, .bltu a b off,
        .bgeu a b off, .jal d far, .jalr d a off],
      exec i s = .next (s.setMe { c with hold := some (.queueFull, s.cycle) })) ∧
    (c.outcomes.length < 16 → leadOutcome s = none → ((c.rg a).word + 4#64 * off.signExtend 64).toNat % 4 ≠ 0 →
      exec (.jalr d a off) s =
        .next (takeTrap s s.rank (trapS 0x05 ((c.rg a).word + 4#64 * off.signExtend 64)))) ∧
    (c.outcomes.length < 16 → ∀ taken t, leadOutcome s = some (taken, t) →
      ∀ i ∈ [Instr.beq a b off, .bne a b off, .blt a b off, .bge a b off, .bltu a b off, .bgeu a b off],
        ∃ u, exec i s = .next u ∧ OnlyMe s u ∧ u.me.pc = (if taken then t else c.pc + 4#64) ∧ u.me.lastOut = some (taken, t)))

/-- 02_encoding.md R42, R43, 04_scalar.md R113: a V, M or D walker at a branch word takes the first outcome that it
has not consumed, and goes where it says. The outcome retires with the third walker. 04_scalar.md R112, R114,
09_compose.md R279: the S walker at a V, M or D word, which a gang's leader sends to its followers, pushes the
captured g registers of the word, once the loads into them and into its destination have returned; it passes the word,
or waits for the engine at a word that writes a g register. -/
def Obligations.WalkersFollowBranches : Prop :=
  (∀ (s : State) (e : Engine) (o : BranchOut), e ≠ .s → s.me.outcomes.find? (fun o => !o.eaten e) = some o →
    exec (.branchOutcomeConsume e) s = .next (s.setMe
      ({ s.me with outcomes := eatFirst e s.me.outcomes }.moveWalker e
        (if o.taken then o.target else s.me.walkerPc e + 4#64) 1#32)) ∧
    (eatFirst e s.me.outcomes).length ≤ s.me.outcomes.length ∧
    s.me.outcomes.length ≤ (eatFirst e s.me.outcomes).length + 1 ∧
    ((eatFirst e s.me.outcomes).length + 1 = s.me.outcomes.length ↔ ((o.eat e).byV && (o.eat e).byM && (o.eat e).byD) = true)) ∧
  (∀ (s f : State) (w : Nat),
    let e : Engine := wordEngine w
    let t : State := sendWord f w
    sFetch s = .ok (w, f) → e ≠ .s →
    (t.me.composed = true → exec .sWalkerPassWord s = .next (takeTrap t s.rank (trapS 0x0E 0#64))) ∧
    (t.me.composed = false → t.me.passing = false → (t.me.capQ e).length < 16 →
      let l : List GIdx := (rawFields w).filter fun i => i != 0#6
      let u : State := landRegs t t.rank (l ++ rawDest w)
      (∀ x ∈ u.me.loads, x.d ∉ l ++ rawDest w) →
      let c : Core := u.me.pushCap e (.vals (l.map u.me.rg) (decodeWord w).toOption t.me.posS)
      (wordWritesG w = false → exec .sWalkerPassWord s =
        .next (u.setMe { c.setPc (t.me.pc + wordLen w) with posS := c.posS + BitVec.ofNat 32 (wordParcels w) })) ∧
      (wordWritesG w = true → exec .sWalkerPassWord s = .next (u.setMe { c with passing := true }))))

/-- 04_scalar.md R119 to R121: NEST reads a descriptor of 8 + 16 × levels bytes of the core's own memory through its
address register; with a descriptor within the limits and a span without branch or NEST words, NEST.s starts the loop
buffer and the others push the descriptor to their engine. 04_scalar.md R122: between two iterations of a nest whose
body an engine holds, the walker goes back to the first body word with the next index vector. (Model's choices: A word
of the span that cannot be fetched ends its check (log entry 88).) -/
def Obligations.ScalarNests : Prop :=
  (∀ (s t : State) (e : Engine) (a : GIdx) (words : BitVec 5) (levels : BitVec 3) (l : List Chunk),
    let lv : Nat := levels.toNat + 1
    let n : Nat := words.toNat + 1
    let d : List Byte := t.readChunks l
    (s.me.composed = false ∨ e = .s) → (e = .s ∨ (s.me.capQ e).length < 16) →
    access s .s (s.me.rg a) (s.me.rg a).word (8 + 16 * lv) (permLoad ||| permLocal) 8 .nest = .ok (.bytes l, t) →
    t.chunksPoisoned l = false → nestOk d lv e = true →
    (s.me.follows = true ∨ spanOk t e spanFuel n (s.me.pc + 4#64) = .ok true) →
    exec (.nest e a words levels) s = .next (t.setMe (
      if e = .s then ({ t.me with nestS := some { desc := d, words := n, levels := lv, body := [], index := List.replicate lv 0
                                                  pos := 0, going := false, sig := 0#4 } }).next
      else (t.me.pushCap e (.nest d)).next))) ∧
  (∀ (s : State) (e : Engine) (n : Nest) (w : BodyWord) (l : List BodyWord) (i : List Nat),
    e ≠ .m → s.me.nestOf e = some n → n.words ≤ n.pos → n.words ≤ n.body.length → n.body = w :: l →
    nextIndex n.desc n.index 0 = some i →
    ∃ t, exec (.nestReplayIteration e) s = .next t ∧ OnlyMe s t ∧
      t.me.nestOf e = some { n with index := i, pos := 0 } ∧ t.me.walkerPc e = w.pc ∧ (∀ j, t.me.rg j = s.me.rg j))

/-- 04_scalar.md R126: at a safe point with an index within SPTLEN and no switch pending, SPIDX takes the index with
its valid bit, SPDIST.COUNT is cleared, and the walker steps on. 04_scalar.md R146: SYNCW waits for the earlier words
of the engines that its mask names, and completes when they are done: for the S engine its loads, none of which may
wait for a rank in transit (05_memory.md R155), and stores are performed, for the V engine its results land. -/
def Obligations.SafePointAndSync : Prop :=
  (∀ (s : State) (idx : BitVec 17),
    idx.toNat < s.me.ctl.sptlen.toNat % 2 ^ 17 → gangDue s s.me = false → composedDue s.me = false → switchReady s = false →
    ∃ t, exec (.safept idx) s = .next t ∧ OnlyMe s t ∧ t.me.pc = s.me.pc + 4#64 ∧
      t.me = { s.me with ctl := t.me.ctl, codecap := t.me.codecap, posS := s.me.posS + 1#32 } ∧
      t.me.ctl = { s.me.ctl with spidx := BitVec.ofNat 32 (idx.toNat + 2 ^ 31), spdist := setField s.me.ctl.spdist 16 16 0 }) ∧
  (∀ (s : State) (mask : BitVec 4),
    let t : State := if mask.getLsbD 0 then drainS s s.rank else s
    let u : State := if mask.getLsbD 1 then t.modMe Core.landLatches else t
    (s.me.done mask = true → (mask.getLsbD 0 = true → s.landed s.rank = true) →
      exec (.syncw mask) s = .next (u.modMe Core.next)) ∧
    (s.me.done mask = false ∨ (mask.getLsbD 0 = true ∧ s.landed s.rank = false) → exec (.syncw mask) s = .next (s.setMe { s.me with hold := some (.engines, s.cycle) })))

/-- 04_scalar.md R128: the words that read and write a control register. MFC reads CODECAP with its tag and every
other register as plain data; MTC writes a g register's bits, MSET sets and MCLR clears the bits that it has set.
04_scalar.md R128: an index that names no control register is an illegal encoding. 04_scalar.md R118, R128, R129,
05_memory.md R159, 10_vector.md R321, 11_matrix.md R331, 13_kv.md R378, 15_system.md R435: the events that write a
control register. Each is the write of its register; a register that is not named, or that an engine must still read,
stands. A write leaves memory and every general register, and INTPEND is cleared bit by bit. KVDIR, one register of
the partition, takes bits [55:6] of the value at partition level, until the hub has read a directory entry, and no
other core changes that is not of the partition. (Model's choices: That KVDIR is one register of the partition is log
entry 33.) -/
def Obligations.ControlRegisters : Prop :=
  (∀ (s : State) (d : GIdx) (idx : BitVec 11),
    let i : Nat := idx.toNat
    let v : Nat := (s.me.rg d).bits.toNat
    let old : Nat := (ctlRead s s.rank i).getD 0
    let read (x : GVal) : Prop := exec (.mfc d idx) s = .next (s.setMe (s.me.wg d x).next)
    ctlNamed i = true →
    (i = 0x015 → read s.me.codecap) ∧
    (i ≠ 0x015 → (i = 0x042 → s.me.level ≠ 0) → read { bits := BitVec.ofNat 128 old, tag := false }) ∧
    (i = 0x042 → s.me.level = 0 → read { bits := 0#128, tag := false }) ∧
    (ctlDenied s.me i = false → ctlReady s.me i = true →
      exec (.mtc d idx) s = .next ((ctlWrite s s.rank i v).modMe Core.next) ∧
      exec (.mset d idx) s = .next ((ctlWrite s s.rank i (old ||| v)).modMe Core.next) ∧
      exec (.mclr d idx) s = .next ((ctlWrite s s.rank i (old &&& (2 ^ 128 - 1 - v))).modMe Core.next)) ∧
    (ctlDenied s.me i = true → ∀ w ∈ [Instr.mtc d idx, .mset d idx, .mclr d idx],
      exec w s = .next (takeTrap s s.rank (trapS 0x07 0#64)))) ∧
  (∀ (s : State) (d : GIdx) (idx : BitVec 11), ctlNamed idx.toNat = false →
    ∀ w ∈ [Instr.mfc d idx, .mtc d idx, .mset d idx, .mclr d idx],
      exec w s = .next (takeTrap s s.rank (trapS 0x01 0#64))) ∧
  (∀ (s : State) (v : BitVec 64) (w : BitVec 128) (i : BitVec 11),
    exec (.slipwWrite v) s = exec (.registerWrite 0x010#11 (v.setWidth 128)) s ∧
    exec (.cwwinWrite v) s = exec (.registerWrite 0x022#11 (v.setWidth 128)) s ∧
    exec (.scgrpWrite v) s = exec (.registerWrite 0x043#11 (v.setWidth 128)) s ∧
    exec (.mxcfgWrite v) s = exec (.registerWrite 0x078#11 (v.setWidth 128)) s ∧
    exec (.kvdirWrite v) s = exec (.registerWrite 0x090#11 (v.setWidth 128)) s ∧
    exec (.intpendClear v) s = exec (.registerWrite 0x0B4#11 (v.setWidth 128)) s ∧
    (ctlNamed i.toNat = false ∨ ctlReady s.me i.toNat = false → exec (.registerWrite i w) s = .next s) ∧
    (ctlNamed i.toNat = true → ctlReady s.me i.toNat = true → i ≠ 0x090#11 →
      ∃ t, exec (.registerWrite i w) s = .next t ∧ OnlyMe s t ∧ SameBytes s t ∧ t.me = ctlWriteCore s.me i.toNat w.toNat) ∧
    (s.me.atTask = true ∨ s.kvLocked s.rank = true → exec (.kvdirWrite v) s = .next s) ∧
    (s.me.atTask = false → s.kvLocked s.rank = false → ctlReady s.me 0x090 = true →
      ∃ t, exec (.kvdirWrite v) s = .next t ∧ SameBytes s t ∧ t.me.ctl.kvdir = v &&& 0xFF_FFFF_FFFF_FFC0#64 ∧
        t.me = { s.me with ctl := { s.me.ctl with kvdir := v &&& 0xFF_FFFF_FFFF_FFC0#64 } } ∧
        ∀ r, r ≠ s.rank → (s.coreAt r).pid ≠ s.me.pid → t.coreAt r = s.coreAt r) ∧
    (∃ t, exec (.intpendClear v) s = .next t ∧ OnlyMe s t ∧ (∀ j, t.me.rg j = s.me.rg j) ∧
      ∀ b, b < 32 → t.me.ctl.intpend.getLsbD b =
        (s.me.ctl.intpend.getLsbD b && !(v.getLsbD b && (b == 1 || b == 2 || b == 3 || b == 5)))))

/-- 04_scalar.md R110, 05_memory.md R174, R498: the tests of an access, in their order, each with the cause of its
trap; the address of the trap is the address of the access. 05_memory.md R148, R150, R155: where an access to local
memory lies. The alias names the core's own 512 KiB, whatever the core; a coordinate address of this package names the
core of its rank, which the rank table must give to the partition. -/
def Obligations.AccessTestsAndPlace : Prop :=
  (∀ (s : State) (w : Engine) (c : GVal) (x : Word64) (n : Nat) (need : BitVec 12) (align : Nat) (al : Allow),
    let need2 : BitVec 12 := need ||| (if al = .nest then 0#12 else regionPerms s x)
    let inside : Prop := x.toNat < 2 ^ 56 ∧ (capBounds c.bits).1 ≤ x.toNat ∧ (x.toNat : Int) + n ≤ (capBounds c.bits).2
    let unsealed : Prop := c.bits.extractLsb' 100 16 = 0#16
    let permitted : Prop := c.bits.extractLsb' 116 12 &&& need2 = need2
    let window : Prop := region x = 0xE ∨ region x = 0xF
    let aligned : Prop := x.toNat % align = 0
    let fits : Prop := window → n ≤ 8 ∧ x.toNat % n = 0
    let whole : Prop := al = .nest → s.isOwn (x + BitVec.ofNat 64 (n - 1)) = true
    let stop (cause : Nat) : Prop := access s w c x n need align al = .trap (mkTrap w cause x) s
    (c.tag = false → stop 0x02) ∧
    (c.tag = true → ¬inside → stop 0x03) ∧
    (c.tag = true → inside → (¬unsealed ∨ ¬permitted) → stop 0x04) ∧
    (c.tag = true → inside → unsealed → permitted → ¬aligned → stop 0x05) ∧
    (c.tag = true → inside → unsealed → permitted → aligned → allowed s al x = false → stop 0x07) ∧
    (c.tag = true → inside → unsealed → permitted → aligned → allowed s al x = true → ¬whole → stop 0x07) ∧
    (c.tag = true → inside → unsealed → permitted → aligned → allowed s al x = true → whole → ¬fits → stop 0x05) ∧
    (c.tag = true → inside → unsealed → permitted → aligned → allowed s al x = true → whole → fits →
      access s w c x n need align al = resolve s w x n need)) ∧
  (∀ (s : State) (w : Engine) (x : Word64) (n : Nat) (need : BitVec 12), 0 < n →
    let here (r : Nat) : Res (Target × State) :=
      .ok (.bytes [{ key := 0xC * 2 ^ 52 + r * 2 ^ 19 + x.toNat % 2 ^ 19, len := n, host := false, hostOwn := false }], s)
    (x.toNat / 2 ^ 52 % 16 = 0xD → x.toNat % 2 ^ 52 + n ≤ 2 ^ 19 → resolve s w x n need = here s.rank) ∧
    ∀ r, r < 4096 → x.toNat % 2 ^ 56 = 0xC * 2 ^ 52 + s.me.ctl.pkg.toNat * 2 ^ 31 + r * 2 ^ 19 + x.toNat % 2 ^ 19 →
      x.toNat % 2 ^ 19 + n ≤ 2 ^ 19 → field (s.rankEntry r) 31 1 = 1 → field (s.rankEntry r) 16 10 = s.me.pid →
      field (s.rankEntry r) 30 1 = 0 → resolve s w x n need = here r)

/-- 05_memory.md R175, R164: a load whose access passes its checks reads its bytes after the core's own earlier stores
to them, traps on a poisoned byte, and writes them with zero above and, for a tagged 16-byte unit, its tag. While
accesses wait it joins the loads on their way, of which 32 may be outstanding, and 32 in each slice in composed mode
(09_compose.md R276). It holds while an arming or a decrement of its bytes that the core has sent is on its way
(06_ordering.md R185). 05_memory.md R177, 06_ordering.md R196, R199: LDLOC loads from local memory and then moves its
address register; LDACQ, after the core's own release writes, loads at its own alignment. (Model's choices: That
accesses wait at all is the model's lazy mode (log entry 4).) -/
def Obligations.LoadResults : Prop :=
  (∀ (s u : State) (d a : GIdx) (off : BitVec 11) (l : List Chunk),
    let c : GVal := s.me.base a
    let x : Word64 := c.word + off.signExtend 64
    let t : State := settleFor u s.rank x l
    let waits : Prop := s.lazy = true ∧ u.chunksPoisoned l = false
    let sent : Bool := slotPending u s.rank (runsOf l)
    ∀ p ∈ [(Instr.ldB d a off, 1), (.ldH d a off, 2), (.ldW d a off, 4), (.ldD d a off, 8), (.ldQ d a off, 16)],
      access s .s c x p.2 permLoad (if p.2 = 16 then 16 else 1) .any = .ok (.bytes l, u) →
      (sent = true → exec p.1 s = .next (u.modCore s.rank fun m => { m with hold := some (.engines, s.cycle) })) ∧
      (sent = false → ¬waits → t.chunksPoisoned l = true → exec p.1 s = .next (takeTrap t s.rank (trapS 0x0D x))) ∧
      (sent = false → ¬waits → t.chunksPoisoned l = false →
        exec p.1 s = .next (t.setMe (t.me.wg d
          { bits := BitVec.ofNat 128 (leNat (t.readChunks l))
            tag := p.2 == 16 && (l.all (fun k => !k.host && t.ctag k.key) && capHas c.bits permLoadCap) }).next)) ∧
      (sent = false → waits → u.me.loadRoom ((u.atoms l).map (·.1)) = false →
        exec p.1 s = .next (u.modCore s.rank fun m => { m with hold := some (.queueFull, s.cycle) })) ∧
      (sent = false → waits → u.me.loadRoom ((u.atoms l).map (·.1)) = true →
        ∃ q : PendingLoad, exec p.1 s = .next (u.setMe ({ u.me with loads := u.me.loads ++ [q] } : Core).next) ∧ q.d = d ∧
          q.got = [] ∧ (q.parts.map (·.2)).flatten = u.readChunks l ∧ q.byAlias = viaAlias x ∧
          q.tag = (p.2 == 16 && (l.all (fun k => !k.host) && capHas c.bits permLoadCap)))) ∧
  (∀ (s u v : State) (d a : GIdx) (wd : Width) (upd : Update) (inc : BitVec 6) (scope : Scope) (l m : List Chunk),
    let c : GVal := s.me.base a
    let n : Nat := widthBytes wd
    let got (t : State) : GVal :=
      { bits := BitVec.ofNat 128 (leNat (t.readChunks l))
        tag := n == 16 && (l.all (fun k => !k.host && t.ctag k.key) && capHas c.bits permLoadCap) }
    (access s .s c c.word n permLoad (if n = 16 then 16 else 1) .local_ = .ok (.bytes l, u) →
      slotPending u s.rank (runsOf l) = false →
      let t : State := settleFor u s.rank c.word l
      (s.lazy = false → t.chunksPoisoned l = false →
        exec (.ldloc wd upd d a inc) s = .next (t.setMe (updated (t.me.wg d (got t)) a wd upd inc).next)) ∧
      (s.lazy = true → u.chunksPoisoned l = false → u.me.loadRoom ((u.atoms l).map (·.1)) = true →
        ∃ q : PendingLoad, q.d = d ∧ (q.parts.map (·.2)).flatten = u.readChunks l ∧
          q.upd = (if d = a then some (wd, upd, inc) else none) ∧
          let c1 : Core := { u.me with loads := u.me.loads ++ [q] }
          exec (.ldloc wd upd d a inc) s = .next (u.setMe (if d = a then c1 else updated c1 a wd upd inc).next))) ∧
    (access s .s c c.word n permLoad n .any = .ok (.bytes m, v) → (n = 16 → m.any (·.host) = false) →
      s.pushesDone s.rank = true → dReleasing s s.me.posS = false → acquireReady s s.rank = true →
      access (acquire s s.rank) .s c c.word n permLoad n .any = .ok (.bytes l, u) →
      slotPending u (acquire s s.rank).rank (runsOf l) = false →
      ((acquire s s.rank).lazy = false ∨ scopeAlone s s.rank scope = false) →
      let t : State := settleFor u (acquire s s.rank).rank c.word l
      t.chunksPoisoned l = false → exec (.ldacq wd scope d a) s = .next (t.setMe (t.me.wg d (got t)).next)))

/-- 05_memory.md R176, R153: a store whose access passes its checks performs the core's earlier accesses to the same
bytes and its buffered stores, and then writes the low bytes of the register, with the tag of a tagged ST.Q; while
accesses wait it joins the store buffer, or goes on its way to another core's local memory. 05_memory.md R177,
06_ordering.md R194, R199: STLOC stores to local memory and then moves its address register; STREL waits for the
earlier words of every engine, performs the core's earlier accesses at its scope, and stores. 05_memory.md R158: the
post-update of a local address without column wrap adds the increment, scaled by the width, to the address alone, by
the rule of CAP.INC; with column wrap it is taken modulo the window of CWWIN, and what leaves the window moves the
core rank. 05_memory.md R150, R152, R176: what a store through the alias leaves while no access waits: its n bytes
read as stored, every other byte as before; the capability tag of a 16-byte unit that it touches is clear, but for a
tagged ST.Q, and the others stand; no register changes. -/
def Obligations.StoreResults : Prop :=
  (∀ (s u : State) (d a : GIdx) (off : BitVec 11) (l : List Chunk),
    let c : GVal := s.me.base a
    let x : Word64 := c.word + off.signExtend 64
    let v : GVal := s.me.rg d
    let w : State := landOver u u.rank (viaAlias x) (runsOf l)
    ∀ p ∈ [(Instr.stB d a off, 1), (.stH d a off, 2), (.stW d a off, 4), (.stD d a off, 8), (.stQ d a off, 16)],
      access s .s c x p.2 permStore (if p.2 = 16 then 16 else 1) .any = .ok (.bytes l, u) →
      let tag : Bool := p.2 == 16 && v.tag
      let t : State := storeNow (drainStores (settleFor w u.rank x l) u.rank) l (leBytes p.2 v.bits.toNat) tag
      ((tag = true → tagCause u c v x (l.any (·.host)) = none) → slotPending u u.rank (runsOf l) = false →
        (u.lazy = false → exec p.1 s = .next (t.setMe t.me.next)) ∧
        (u.lazy = true → ∀ k, l = [k] → k.len = p.2 →
          (k.far u.rank = none → w.me.storeRoom ((w.atoms l).map (·.1)) = true →
            ∃ b : Buffered, exec p.1 s = .next (w.setMe ({ w.me with stores := w.me.stores ++ [b] } : Core).next) ∧
              (b.pieces.map (·.2)).flatten = leBytes p.2 v.bits.toNat ∧ b.tag = tag ∧ b.byAlias = viaAlias x ∧ b.rel = false) ∧
          ∀ q, k.far u.rank = some q → ∃ e, exec p.1 s = .next ({ w with net := w.net ++ e }.setMe w.me.next) ∧
            ∀ m ∈ e, m.src = w.rank ∧ m.dst = q ∧ isPosted m.ev = true)) ∧
      ∀ cause, tag = true → tagCause u c v x (l.any (·.host)) = some cause →
        exec p.1 s = .next (takeTrap u s.rank (trapS cause x))) ∧
  (∀ (s u : State) (d a : GIdx) (wd : Width) (upd : Update) (inc : BitVec 6) (scope : Scope) (l : List Chunk),
    let c : GVal := s.me.base a
    let n : Nat := widthBytes wd
    let put (v : GVal) : State :=
      storeNow (drainStores (settleFor (landOver u u.rank (viaAlias c.word) (runsOf l)) u.rank c.word l) u.rank) l
        (leBytes n v.bits.toNat) (n == 16 && v.tag)
    let may (v : GVal) : Prop := (n == 16 && v.tag) = true → tagCause u c v c.word (l.any (·.host)) = none
    (access s .s c c.word n permStore (if n = 16 then 16 else 1) .local_ = .ok (.bytes l, u) → u.lazy = false →
      slotPending u u.rank (runsOf l) = false →
      let v : GVal := s.me.rg d
      may v → exec (.stloc wd upd d a inc) s = .next ((put v).setMe (updated (put v).me a wd upd inc).next)) ∧
    (releaseReady s scope = false →
      exec (.strel wd scope d a) s = .next (s.setMe { s.me with hold := some (.engines, s.cycle) })) ∧
    (releaseReady s scope = true →
      let w : State := perform s scope
      access w .s c c.word n permStore n .any = .ok (.bytes l, u) → u.lazy = false →
      slotPending u u.rank (runsOf l) = false → (n = 16 → l.any (·.host) = false) →
      let v : GVal := w.me.rg d
      may v → exec (.strel wd scope d a) s = .next ((put v).setMe (put v).me.next))) ∧
  (∀ (c : Core) (a : GIdx) (wd : Width) (inc : BitVec 6),
    updated c a wd .stay inc = c ∧
    updated c a wd .pi inc =
      c.wg a (moveCap (c.rg a) ((c.rg a).word + BitVec.ofInt 64 (inc.toInt * widthBytes wd))) ∧
    ∀ (w : BitVec 32) (x : Word64) (d : Int),
      let base : Nat := w.toNat % 2 ^ 19
      let size : Nat := 2 ^ (w.toNat / 2 ^ 19 % 32)
      let o : Nat := x.toNat % 2 ^ 19
      x.toNat / 2 ^ 52 % 16 = 0xC → size ≤ 2 ^ 19 → base ≤ o → o < base + size → base + size ≤ 2 ^ 19 →
        (postUpdate w x d true).toNat % 2 ^ 19 = base + ((o : Int) - base + d).emod size ∧
        (postUpdate w x d true).toNat / 2 ^ 31 = x.toNat / 2 ^ 31 ∧
        ((postUpdate w x d true).toNat / 2 ^ 19 % 4096 : Int) =
          ((x.toNat / 2 ^ 19 % 4096 : Nat) + ((o : Int) - base + d).fdiv size).emod 4096) ∧
  (∀ (s : State) (d a : GIdx) (off : BitVec 11),
    let c : GVal := s.me.base a
    let x : Word64 := c.word + off.signExtend 64
    let v : GVal := s.me.rg d
    let key : Nat := localKey s.rank (x.toNat % 2 ^ 19)
    ∀ p ∈ [(Instr.stB d a off, 1), (.stH d a off, 2), (.stW d a off, 4), (.stD d a off, 8), (.stQ d a off, 16)],
      precheck s c x p.2 permStore (if p.2 = 16 then 16 else 1) .any = none → x.toNat / 2 ^ 52 % 16 = 0xD →
      x.toNat % 2 ^ 52 + p.2 ≤ 2 ^ 19 → s.lazy = false → s.me.stores = [] → s.me.loads = [] → s.me.blocked = none →
      slotPending s s.rank [(key, p.2)] = false →
      (p.2 = 16 → v.tag = true → tagCause s c v x false = none) →
      ∃ t, exec p.1 s = .next t ∧
        t.mem.readNat key p.2 = v.bits.toNat % 256 ^ p.2 ∧
        (∀ k, (k < key ∨ key + p.2 ≤ k) → t.mem.get k = s.mem.get k) ∧
        (∀ k, key ≤ k → k < key + p.2 → t.ctag k = (p.2 == 16 && v.tag)) ∧
        (∀ k, (k / 16 < key / 16 ∨ (key + p.2 + 15) / 16 ≤ k / 16) → t.ctag k = s.ctag k) ∧
        (∀ j, t.me.rg j = s.me.rg j) ∧ t.me.pc = s.me.pc + 4#64)

/-- 06_ordering.md R200: an atomic on bytes of this package reads 64 bits, writes the new value of its operation (CAS
only where the old value is the expected one, which gd holds) and returns the old value; with a release it first waits
for every engine and performs the earlier accesses, and with an acquire it comes after the core's own releases. While
accesses wait, one of order none, and one whose scope holds no other agent (log entry 76), joins the outstanding
loads. 05_memory.md R178 to R180, 06_ordering.md R194, R198, R202: PREF has no effect; CLWB and CLINV check their
operand and perform the core's stores to its line, and CLINV takes every L1's copy of it; CLINV.i drops the lines of
its bytes from the instruction cache; FENCE waits for every engine and performs the core's earlier accesses, and
beyond .core waits for what only another core can take; LPBK waits for the engines' earlier accesses to the own local
memory and performs those of the S engine. (Model's choices: A scope too small orders no less, and an acquire whose
scope holds no other agent joins the outstanding loads (log entry 76); that the caches hold nothing more is log entry
75.) -/
def Obligations.AtomicsAndFences : Prop :=
  (∀ (s u : State) (ord : Order) (scope : Scope) (d a b : GIdx) (l : List Chunk),
    let c : GVal := s.me.base a
    let y : Word64 := (s.me.rg b).word
    let e : Word64 := (s.me.rg d).word
    let rel : Bool := ord == .rl || ord == .aqrl
    let acq : Bool := ord == .aq || ord == .aqrl
    let r : State := if rel then perform u scope else u
    let w : State := if acq then acquire r r.rank else r
    let small : Bool := ord == .aq && scopeAlone s s.rank scope
    let key : Nat := (l.head?.map (·.key)).getD 0
    let t : State := settleFor w w.rank c.word l
    let old : Word64 := BitVec.ofNat 64 (leNat (t.readChunks l))
    access s .s c c.word 8 (permLoad ||| permStore ||| permAtomic) 8 .any = .ok (.bytes l, u) →
    l.any (·.hostOwn) = false → (rel = true → releaseReady u scope = true) →
    (acq = true → r.pushesDone r.rank = true ∧ dReleasing r r.me.posS = false ∧ acquireReady r r.rank = true) →
    slotPending w w.rank (runsOf l) = false →
    let later (i : Instr) (op : Nat) : Prop := ∃ q : PendingLoad,
      exec i s = .next (w.setMe ({ w.me with loads := w.me.loads ++ [q] } : Core).next) ∧ q.d = d ∧ q.amo = some (op, y, e) ∧
        q.acq = small ∧ (q.parts.map (·.2)).flatten = w.readChunks l
    (w.lazy = true → (rel = false ∧ acq = false ∨ small = true) → w.chunksPoisoned l = false →
      w.me.loadRoom ((w.atoms l).map (·.1)) = true →
      later (.amoAdd ord scope d a b) 0 ∧ later (.amoAnd ord scope d a b) 1 ∧ later (.amoOr ord scope d a b) 2 ∧
      later (.amoXor ord scope d a b) 3 ∧ later (.amoMin ord scope d a b) 4 ∧ later (.amoMax ord scope d a b) 5 ∧
      later (.amoSwp ord scope d a b) 6 ∧ later (.amoCas ord scope d a b) 7) ∧
    ((w.lazy = false ∨ ((rel = true ∨ acq = true) ∧ small = false)) → t.chunksPoisoned l = false →
    let ends (i : Instr) (v : Option Word64) : Prop :=
      let t1 : State := if (keyCore key).isNone then t.notify key 8 else t
      let t2 : State := match v with | some v => t1.storeNat key 8 v.toNat | none => t1
      exec i s = .next (t2.setMe (t2.me.wg d { bits := old.setWidth 128, tag := false }).next)
    ends (.amoAdd ord scope d a b) (some (old + y)) ∧ ends (.amoAnd ord scope d a b) (some (old &&& y)) ∧
    ends (.amoOr ord scope d a b) (some (old ||| y)) ∧ ends (.amoXor ord scope d a b) (some (old ^^^ y)) ∧
    ends (.amoMin ord scope d a b) (some (if y.slt old then y else old)) ∧
    ends (.amoMax ord scope d a b) (some (if old.slt y then y else old)) ∧
    ends (.amoSwp ord scope d a b) (some y) ∧ ends (.amoCas ord scope d a b) (if old = e then some y else none))) ∧
  (∀ (s u : State) (lvl : BitVec 2) (a : GIdx) (off : BitVec 11) (scope : Scope) (l : List Chunk),
    let c : GVal := s.me.base a
    let x : Word64 := c.word + off.signExtend 64
    exec (.pref lvl a off) s = .next (s.setMe s.me.next) ∧
    ((region x = 0xC ∨ region x = 0xD ∨ region x = 0xE) → precheck s c x 1 permLoad 1 .any = none →
      exec (.clwb a off) s = .next (s.setMe s.me.next) ∧ exec (.clinv a off) s = .next (s.setMe s.me.next)) ∧
    (∀ k, region x = 0x0 → access s .s c x 1 permLoad 1 .any = .ok (.bytes (k :: l), u) →
      let t : State := performOver u s.rank false [(k.key / 64 * 64, 64)]
      let q : State := t.notify (k.key / 64 * 64) 64
      exec (.clwb a off) s = .next (t.setMe t.me.next) ∧ exec (.clinv a off) s = .next (q.setMe q.me.next)) ∧
    (∀ k, access s .s c x 1 permExecute 1 .any = .ok (.bytes [k], u) → s.rank = u.rank → u.me.composed = false →
      exec (.clinvI a off) s = .next (u.setMe
        { u.me with icache := u.me.icache.filter fun l => l.addr != k.key / 64 * 64 }.next)) ∧
    (s.me.quiet = true →
      (scope = .core ∨ s.released s.rank = true →
        exec (.fence scope) s = .next ((perform s scope).setMe (perform s scope).me.next))) ∧
    (s.me.quiet = true → scope ≠ .core → s.released s.rank = false →
      exec (.fence scope) s = .next (s.setMe { s.me with hold := some (.engines, s.cycle) })) ∧
    (s.me.quiet = false → exec (.fence scope) s = .next (s.setMe { s.me with hold := some (.engines, s.cycle) })) ∧
    (let left : List Touch := vPending s s.me.posS ++ mPending s s.me.posS ++ dPending s s.me.posS
     let t : State := performWhere (returnWhere s s.rank fun q => q.parts.any fun p => s.ownKey p.1) s.rank fun b =>
       b.pieces.any fun p => s.ownKey p.1
     (left = [] → exec .lpbk s = .next (t.setMe t.me.next)) ∧
     (left ≠ [] → exec .lpbk s = .next (s.setMe { s.me with hold := some (.engines, s.cycle) }))))

/-- 07_sync.md R220: the presence words on a granule of this package. On a full granule TAKE and TRYTAKE return its 16
bytes as plain data and empty it, and PEEK returns them; on an empty one TAKE and PEEK block and TRYTAKE returns 0;
each is an acquire where it reads (06_ordering.md R208), which waits while a release write of the core waits for a
rank in transit (05_memory.md R155), and TAKE and PEEK start the distance anew (04_scalar.md R126). EMPTY and FULL
write the tag and PTEST reads it. 07_sync.md R220, R223, 06_ordering.md R208: PUTF and PUTW wait for the earlier words
of every engine, perform the core's earlier accesses, and send a tagged arrival with the 16 bytes of gd; PUTW then
waits until it is applied. 07_sync.md R215, R216, R221: a tagged arrival at an empty granule of a core whose rank is
not in transit, with nothing held or waiting there, writes its bytes and turns the tag full in one step, and every
other byte and tag stands. At a full granule it is held for 4,096 cycles and writes nothing; with 32 held it is an
overrun, which PRSOVF counts (R217). (Model's choices: ADDR of a PUTW's overrun is log entry 78.) -/
def Obligations.PresenceWords : Prop :=
  (∀ (s t : State) (d a : GIdx) (off : BitVec 11) (r o : Nat),
    let c : GVal := s.me.base a
    let x : Word64 := c.word + off.signExtend 64
    let u : State := acquire t s.rank
    let v (q : State) : GVal := { bits := BitVec.ofNat 128 (q.mem.readNat (localKey r o) 16), tag := false }
    let got (e : Core) : State := t.setMe e.next
    (acquireReady t t.rank = false →
      (LocalAt s c x 16 (permLoad ||| permAtomic) 16 r o t →
        exec (.take d a off) s = .next (t.modCore s.rank fun m => { m with hold := some (.rankTransit, s.cycle) })) ∧
      (LocalAt s c x 16 permLoad 16 r o t →
        exec (.peek d a off) s = .next (t.modCore s.rank fun m => { m with hold := some (.rankTransit, s.cycle) }))) ∧
    (LocalAt s c x 16 (permLoad ||| permAtomic) 16 r o t → acquireReady t t.rank = true →
      ((u.coreAt r).full (o / 64) = true → u.poisoned (localKey r o) 16 = false →
        exec (.take d a off) s = .next (markGranule (u.setMe (u.me.wg d (v u)).next.clearDist) r (o / 64) false)) ∧
      ((t.coreAt r).full (o / 64) = true → t.poisoned (localKey r o) 16 = false →
        exec (.trytake d a off) s =
          .next (markGranule (u.setMe ((u.me.wg (d + 1#6) (v u)).wg d { bits := 1#128, tag := false }).next) r (o / 64) false)) ∧
      ((t.coreAt r).full (o / 64) = false →
        exec (.trytake d a off) s = .next (got (t.me.wg d { bits := 0#128, tag := false }))) ∧
      ((u.coreAt r).full (o / 64) = false → exec (.take d a off) s = .next (waitAt u r o (.take d) none))) ∧
    (LocalAt s c x 16 permLoad 16 r o t → acquireReady t t.rank = true →
      ((u.coreAt r).full (o / 64) = true → u.poisoned (localKey r o) 16 = false →
        exec (.peek d a off) s = .next (u.setMe (u.me.wg d (v u)).next.clearDist)) ∧
      ((u.coreAt r).full (o / 64) = false → exec (.peek d a off) s = .next (waitAt u r o (.peek d) none))) ∧
    (LocalAt s c x 1 (permStore ||| permAtomic) 1 r o t →
      let e : State := markGranule t r (o / 64) false
      let f : State := markGranule t r (o / 64) true
      exec (.empty a off) s = .next (e.setMe e.me.next) ∧ exec (.full a off) s = .next (f.setMe f.me.next)) ∧
    (LocalAt s c x 1 permLoad 1 r o t →
      exec (.ptest d a off) s =
        .next (got (t.me.wg d { bits := if (t.coreAt r).full (o / 64) then 1#128 else 0#128, tag := false })))) ∧
  (∀ (s t : State) (d a : GIdx) (off : BitVec 11) (r o : Nat),
    let c : GVal := s.me.base a
    let x : Word64 := c.word + off.signExtend 64
    let u : State := perform t .sys
    let arr (k : ArrivalKind) : Arrival :=
      { dst := BitVec.ofNat 12 r, off := BitVec.ofNat 19 o, bytes := leBytes 16 (u.me.rg d).bits.toNat, kind := k
        srcPkg := u.me.ctl.pkg.setWidth 32, srcCore := BitVec.ofNat 16 u.rank, entry := 0#14, byAlias := region x == 0xD }
    LocalAt s c x 16 (permStore ||| permAtomic) 16 r o t → releaseReady t .sys = true → u.lazy = false →
    (let f : State := arrive u (arr .putf)
     exec (.putf d a off) s = .next (f.setMe f.me.next)) ∧
    exec (.putw d a off) s = .next (arrive (waitAt u r o .putw none) (arr .putw))) ∧
  (∀ (s : State) (a : Arrival),
    let r : Nat := a.dst.toNat
    let c : Core := s.coreAt r
    let key : Nat := localKey r a.off.toNat
    s.inTransit s.rank = false →
    (c.full (a.off.toNat / 64) = false → c.held = [] → c.waitq = [] → a.kind = .putf →
      ∃ t, exec (.taggedArrival a) s = .next t ∧ t.mem.read key a.bytes.length = a.bytes ∧
        (∀ k, (k < key ∨ key + a.bytes.length ≤ k) → t.mem.get k = s.mem.get k) ∧
        (∀ g, g < 8192 → (t.coreAt r).full g = (g == a.off.toNat / 64 || c.full g)) ∧
        ∀ q, q ≠ r → (t.coreAt q).pres = (s.coreAt q).pres) ∧
    (c.full (a.off.toNat / 64) = true → c.held.length < 32 → (∀ h ∈ c.held, s.cycle < h.until_) →
      exec (.taggedArrival a) s =
        .next (s.setCore r { c with held := c.held ++ [{ arr := a, until_ := s.cycle + 4096 }] })) ∧
    (c.full (a.off.toNat / 64) = true → 32 ≤ c.held.length → (∀ h ∈ c.held, s.cycle < h.until_) → a.kind = .putf →
      ∃ t, exec (.taggedArrival a) s = .next t ∧ (t.coreAt r).pres = c.pres ∧ (t.coreAt r).held = c.held ∧
        (t.coreAt r).ctl.prsovf = setField (setField c.ctl.prsovf 0 13 (a.off.toNat / 64)) 16 16
          (min 65535 (field c.ctl.prsovf 16 16 + 1))))

/-- 07_sync.md R226, R227: the mailbox words on a counter of this package. MBRD reads it, MBSET writes it, MBINC adds
modulo 2^32 (MBINC.rel after a release), and MBWAIT returns at once where the counter has reached its target and
blocks where not. 07_sync.md R226: an increment that arrives at a core whose rank is not in transit adds to its
counter modulo 2^32, and with no MBWAIT on the counter changes nothing else. -/
def Obligations.MailboxWords : Prop :=
  (∀ (s t : State) (d a b : GIdx) (scope : Scope) (r : Nat) (i : BitVec 8),
    let v : BitVec 32 := (t.coreAt r).rmail i
    let n (u : State) : BitVec 32 := (u.me.rg b).word.setWidth 32
    let q : State := acquire t s.rank
    let y : BitVec 32 := (q.coreAt r).rmail i
    (MailAt s a permLoad r i t →
      exec (.mbrd d a) s = .next (t.setMe (t.me.wg d { bits := v.setWidth 128, tag := false }).next) ∧
      (acquireReady t t.rank = true → 0 ≤ (y - n s).toInt → exec (.mbwait d a b) s =
        .next (q.setMe (q.me.wg d { bits := y.setWidth 128, tag := false }).next.clearDist)) ∧
      (acquireReady t t.rank = true → (y - n s).toInt < 0 → exec (.mbwait d a b) s = .next (waitAt q r i.toNat (.mbwait d (n s)) none))) ∧
    (MailAt s a permStore r i t →
      let u : State := setMail t r i (n s)
      exec (.mbset a b) s = .next (u.setMe u.me.next)) ∧
    (MailAt s a (permStore ||| permAtomic) r i t → t.lazy = false →
      let u : State := incMail t r i (n t)
      exec (.mbinc a b) s = .next (u.setMe u.me.next) ∧
      (let p : State := perform t scope
       let w : State := incMail p r i (n p)
       releaseReady t scope = true → p.lazy = false → exec (.mbincRel scope a b) s = .next (w.setMe w.me.next)))) ∧
  (∀ (s : State) (i : BitVec 8) (n : BitVec 32), s.inTransit s.rank = false → s.me.waitq = [] →
    exec (.mailboxIncrementArrive i n) s = .next (s.setMe (s.me.wmail i (s.me.rmail i + n))) ∧
    (s.me.wmail i (s.me.rmail i + n)).rmail i = s.me.rmail i + n ∧
    ∀ j, j ≠ i → (s.me.wmail i (s.me.rmail i + n)).rmail j = s.me.rmail j)

/-- 07_sync.md R229: completion of a barrier object is the loop of the rule. It ends phases one after another, as long
as the object is not retired and both counts reach what they expect, and no longer; a retired object never completes.
-/
def Obligations.BarrierCompletion : Prop :=
  ∀ o : Bar,
    let due (o : Bar) : Prop := o.retired = false ∧ o.expt ≤ o.arrt ∧ o.expb ≤ o.arrb
    let once (o : Bar) : Bar :=
      let e : Nat := o.expt - o.wdrn
      { o with arrt := o.arrt - o.expt, arrb := o.arrb - o.expb, gen := o.gen + 1#32, expt := e, wdrn := 0
               retired := decide (e = 0 ∧ o.expb = 0) }
    (∃ k, o.complete = once^[k] o ∧ (∀ j, j < k → due (once^[j] o)) ∧ ¬due (once^[k] o)) ∧
    (o.retired = true → o.complete = o)

/-- 07_sync.md R231, R232: the barrier words on an object of this package that holds no poisoned byte; one that does
is a machine check (01_machine.md R37). -/
def Obligations.BarrierResults : Prop :=
  ∀ (s t : State) (d a b : GIdx) (slot : BitVec 2) (r o : Nat),
    let c : GVal := s.me.rg a
    let v : Word64 := (s.me.rg b).word
    let obj (u : State) : Bar := barLoad u.mem (localKey r o)
    let word (g : BitVec 32) : GVal := { bits := g.setWidth 128, tag := false }
    let full : BitVec 12 := permLoad ||| permStore ||| permAtomic
    (LocalAt s c c.word 64 full 64 r o t →
      (let fresh : Bar := { gen := 0#32, retired := false, wrapped := false, expt := v.toNat % 2 ^ 32, arrt := 0
                            expb := v.toNat / 2 ^ 32, arrb := 0, wdrn := 0 }
       let u : State := barStore (t.store (localKey r o) (List.replicate 64 0#8)) r o fresh.complete
       exec (.barinit a b) s = .next (u.setMe u.me.next)) ∧
      (releaseReady t .sys = true → barBad (perform t .sys) r o = false →
        let u : State := perform t .sys
        exec (.bararv d a) s = .next (barUpdate
          (u.setMe ((u.me.slotsArrive (slotAddr u c.word) (obj u).gen).wg d (word (obj u).gen)).next) r o Bar.arrive)) ∧
      (let joins (u w : State) : Prop := barBad w r o = false →
         exec (.barjoin a slot) s = .next (barUpdate
           (w.setMe (w.me.wslot slot (slotValue (slotAddr u c.word) (obj w).gen)).next) r o
           fun b => { b with expt := (b.expt + 1) % 2 ^ 32 })
       ((s.me.rslot slot).getLsbD 127 = false → joins t (withdrawSlot t t.rank slot)) ∧
       ((s.me.rslot slot).getLsbD 127 = true → releaseReady t .sys = true →
         let u : State := perform t .sys
         joins u (withdrawSlot u u.rank slot)) ∧
       ((t.me.rslot slot).getLsbD 127 = false → withdrawSlot t t.rank slot = t))) ∧
    (LocalAt s c c.word 64 permLoad 64 r o t →
      (barBad t r o = false → exec (.bartest d a) s = .next (t.setMe (t.me.wg d (word (obj t).gen)).next)) ∧
      (barBad t r o = true → exec (.bartest d a) s = .next (takeTrap t s.rank (trapS 0x0D c.word))) ∧
      let q : State := acquire t s.rank
      acquireReady t t.rank = true → barBad q r o = false →
      ((obj q).gen ≠ v.setWidth 32 →
        exec (.barwait a b) s = .next (q.setMe q.me.next.clearDist) ∧
        exec (.bartwait d a b) s = .next (q.setMe (q.me.wg d { bits := 1#128, tag := false }).next.clearDist)) ∧
      ((obj q).gen = v.setWidth 32 →
        exec (.barwait a b) s = .next (waitAt q r o (.barwait (v.setWidth 32)) none) ∧
        (v.toNat / 2 ^ 32 = 0 →
          exec (.bartwait d a b) s = .next (q.setMe (q.me.wg d { bits := 0#128, tag := false }).next.clearDist)) ∧
        (v.toNat / 2 ^ 32 ≠ 0 → exec (.bartwait d a b) s =
          .next (waitAt q r o (.bartwait d (v.setWidth 32)) (some (s.cycle + v.toNat / 2 ^ 32)))))) ∧
    (releaseReady s .sys = true →
      let u : State := withdrawAll (perform s .sys) (perform s .sys).rank
      exec .barexit s = .next (u.setMe u.me.next))

/-- 07_sync.md R234, R235: MONARM arms the monitor on the 64-byte line of its operand; MONWAIT returns 2 with no
monitor, 1 after a hit, 0 with a limit of 0, and waits otherwise; a write to the line before its limit wakes it with
1, and its limit ends it with 0. -/
def Obligations.MonitorResults : Prop :=
  ∀ (s u : State) (d a : GIdx) (off : BitVec 11) (k : Chunk) (key n : Nat),
    let x : Word64 := (s.me.base a).word + off.signExtend 64
    let lim : Nat := (s.me.rg a).word.toNat % 2 ^ 32
    let armed : Bool := s.me.ctl.monctl.getLsbD 63
    let hit : Bool := s.me.ctl.monctl.getLsbD 62
    let ends (i : Instr) (code : Nat) : Prop :=
      ∃ t, exec i s = .next t ∧ OnlyMe s t ∧ (d ≠ 0#6 → t.me.rg d = { bits := BitVec.ofNat 128 code, tag := false }) ∧
        t.me.pc = s.me.pc + 4#64 ∧ t.me.monLine = none ∧ t.me.ctl.monctl.getLsbD 63 = false ∧
        ∀ j, j ≠ d → t.me.rg j = s.me.rg j
    (access s .s (s.me.base a) x 1 permLoad 1 .any = .ok (.bytes [k], u) → k.far s.rank = none →
      exec (.monarm a off) s = .next (u.setMe
        { (u.me.modCtl fun r => { r with monctl := BitVec.ofNat 64 (2 ^ 63 + x.toNat % 2 ^ 56) }).next with
          monLine := some (k.key / 64 * 64, 64) })) ∧
    (armed = false → ends (.monwait d a) 2) ∧ (armed = true → hit = true → ends (.monwait d a) 1) ∧
    (armed = true → hit = false → lim = 0 → ends (.monwait d a) 0) ∧
    (armed = true → hit = false → lim ≠ 0 → exec (.monwait d a) s = .next (s.setMe
      { s.me with blocked := some { op := .monwait d, since := s.cycle, deadline := some (s.cycle + lim) } })) ∧
    (∀ b, s.me.blocked = some b → b.op = .monwait d →
      (∀ l m, s.me.monLine = some (l, m) → l < key + n → key < l + m →
        ((∀ t, b.deadline = some t → s.cycle < t) → ends (.monwaitWake key n) 1) ∧
        ((∃ t, b.deadline = some t ∧ t ≤ s.cycle) → ends (.monwaitWake key n) 0)) ∧
      (∀ t, b.deadline = some t → t ≤ s.cycle → ends .monwaitTimeout 0))

/-- 08_tasks.md R253 to R255: SPAWN, SPAWNR, CODLT and CDEC wait for the earlier words of every engine; then SPAWN
pushes the record at the young end of the core's deque, or waits while it is full or records wait before it, SPAWNR
pushes it at another core of the partition, CODLT arms a slot with it and CDEC decrements a slot. 08_tasks.md R259:
AMSG takes the next sequence number of the core, returns it, and sends its arguments to the core that its destination
names, after the earlier words of every engine. -/
def Obligations.SpawnAndMessageResults : Prop :=
  (∀ (s t w : State) (a b : GIdx) (x : Record) (r o : Nat),
    let u : State := perform t .pkg
    let d : Nat := (s.me.rg b).word.toNat
    (RecordAt s a x t → releaseReady t .pkg = true →
      (dequeFull u.me = false → u.me.push = [] → u.me.hw.length < 32 → x.pin = false → x.msg = false → x.resume = false →
        exec (.spawn a) s = .next (u.setMe ({ u.me with hw := u.me.hw ++ [x] } : Core).next)) ∧
      (dequeFull u.me = true ∨ u.me.push ≠ [] → exec (.spawn a) s = .next (waitAt u u.rank 0 (.push [x] false) none)) ∧
      (d % 2 ^ 16 = 0 → d / 2 ^ 46 = 0 → (s.me.rg b).word.extractLsb' 28 18 = s.me.ctl.pkg → t.me = s.me → u.me.ctl = s.me.ctl →
        d / 2 ^ 16 % 4096 ≠ s.rank → Machine.Record.mayLeave x = true → RankFree t (d / 2 ^ 16 % 4096) → u.lazy = false →
        let v : State := remotePush u u.rank (d / 2 ^ 16 % 4096) x
        exec (.spawnr a b) s = .next (v.setMe v.me.next))) ∧
    (LocalAt s (s.me.rg a) (s.me.rg a).word 64 (permStore ||| permAtomic) 64 r o w →
      (RecordAt w b x t → (s.isOwn (s.me.rg a).word = true ∨ Machine.Record.mayLeave x = true) → releaseReady t .pkg = true →
        u.lazy = false →
        exec (.codlt a b) s = .next ((applyCodlt u r o x).setMe (applyCodlt u r o x).me.next)) ∧
      (releaseReady w .pkg = true →
        let v : State := sendCdec (perform w .pkg) (perform w .pkg).rank (s.me.rg a).word ((s.me.rg b).word.setWidth 32)
        exec (.cdec a b) s = .next (v.setMe v.me.next)))) ∧
  (∀ (s : State) (n : BitVec 3) (d a b : GIdx),
    let w : Nat := (s.me.rg b).word.toNat
    let dst : Nat := w / 2 ^ 16 % 4096
    let seq : BitVec 32 := BitVec.ofNat 32 (field s.me.ctl.amsgst 64 32)
    let m : AMsg :=
      { entry := (s.me.rg a).word, ctx := BitVec.ofNat 16 w, dst := BitVec.ofNat 12 dst, src := BitVec.ofNat 12 s.rank, seq := seq
        pkg := s.me.ctl.pkg, pid := BitVec.ofNat 10 s.me.pid
        args := (List.range n.toNat).map fun i => s.me.rg (a + BitVec.ofNat 6 (i + 1)) }
    let u : State := perform s .sys
    let v : State := u.modMe fun c => ((c.modCtl fun k => { k with amsgst := setField k.amsgst 64 32 (seq.toNat + 1) }).wg d
      { bits := seq.setWidth 128, tag := false }).next
    capCheck s.me.codecap m.entry 4 permExecute = none → w / 2 ^ 46 = 0 →
    (s.me.rg b).word.extractLsb' 28 18 = s.me.ctl.pkg → u.me.ctl.pkg = s.me.ctl.pkg →
    (dst = s.rank ∨ m.args.any GVal.stays = false) → RankFree s dst → releaseReady s .sys = true → v.lazy = false →
    exec (.amsg n d a b) s = .next (arriveMsg v m))

/-- 08_tasks.md R256, R257: YIELD with nothing else to run steps on and has no other effect; EXIT of a task that owes
nothing leaves the core without a task, with its registers as the task left them, and stores nothing. (Model's
choices: The check of DONE before the end is log entry 81.) -/
def Obligations.TaskEndResults : Prop :=
  ∀ (s : State),
    (gangDue s s.me = false → s.me.composed = false → s.me.slice = false → yieldParks s = false →
      exec .yield s = .next (s.setMe s.me.next)) ∧
    ∀ x, s.me.depth = 0 → s.me.quiet = true → s.me.group = .single → s.me.maxx = none → s.me.blocked = none →
      s.me.task = some x → x.msg = false → x.done = 0#64 →
      s.me.ctl.barslot = Vector.replicate 4 0#128 → s.me.hw = [] → s.me.ringN = 0 → s.me.push = [] → s.me.waitq = [] →
      s.me.resend = [] → s.me.resumes = [] → s.me.stores = [] → s.me.loads = [] → s.net = [] → s.me.latches = [] →
      ∃ t, exec .exit s = .next t ∧ t.me.task = none ∧ (∀ j, t.me.rg j = s.me.rg j) ∧ t.me.v = s.me.v ∧ t.me.p = s.me.p ∧
        t.me.tile = s.me.tile ∧ t.me.acc = s.me.acc ∧ t.me.ctl.rngctr = s.me.ctl.rngctr ∧ t.me.ctl.arflg = s.me.ctl.arflg ∧
        SameBytes s t

/-- 08_tasks.md R244: a record that starts gives the core its arguments in g1 and g2 with their tags, its work
identifier in g3 and its context in g4, every other general register zero, and the walker at its entry; the record
leaves the young end of the deque. (Model's choices: Which registers a start leaves zero follows log entry 28.) -/
def Obligations.TaskStartEffect : Prop :=
  ∀ (s : State) (l : List Record) (x : Record) (p : Part),
    mayStart s s.rank = true → s.me.resumes = [] → s.me.hw = l ++ [x] → s.me.push = [] → s.me.waitq = [] → x.resume = false →
    s.part? s.me.pid = some p → x.bad = false → x.ctx = 0#16 →
    ∃ t, exec .taskStart s = .next t ∧ t.me.rg 1#6 = x.argA ∧ t.me.rg 2#6 = x.argB ∧
      t.me.rg 3#6 = { bits := x.wid.setWidth 128, tag := false } ∧ t.me.rg 4#6 = { bits := 0#128, tag := false } ∧
      (∀ j, 4 < j.toNat → t.me.rg j = GVal.zero) ∧ t.me.pc = x.entry ∧ t.me.hw = l ∧ t.me.task = some x ∧
      field t.me.ctl.slipw 0 13 = 512 ∧ t.me.ctl.arflg = 0#32 ∧ field t.me.ctl.spdist 16 16 = 0 ∧ SameBytes s t

/-- 08_tasks.md R250: what a probe takes from a list of records, oldest first: the oldest n of those without PIN, in
their order; the pinned ones stay, and so does the order of the rest. -/
def Obligations.StealTakesOldest : Prop :=
  ∀ (n : Nat) (l : List Record),
    let p := takeStealable n l
    p.1 = (l.filter fun x => !x.pin).take n ∧ p.2.filter (fun x => x.pin) = l.filter (fun x => x.pin) ∧
    p.2.filter (fun x => !x.pin) = (l.filter fun x => !x.pin).drop n ∧ p.2.Sublist l ∧
    stealCount n = (if 32 ≤ n then 16 else (n + 1) / 2)

/-- 08_tasks.md R249, R250: an idle core sends its probe to a victim that its cycle allows; a victim that is not
halted, not in transit and of the same partition answers it with the records it gives up; and the thief takes them
into its deque. 08_tasks.md R247, R254, R255, R261: what reaches a core whose rank is not in transit. A record is
pushed at the young end of its deque while there is room, joins the push buffer while that has room, and is sent again
by its source otherwise; a slot is armed or, with a count of 0, fires; a decrement below the count of an armed slot
lowers it, and one of a slot that is not armed counts in CDECERR; a refusal is recorded in AMSGST. 08_tasks.md R260: a
message that reaches a core of its sender's resident partition, for context 0 and with a message slot free, becomes a
pinned message task of that core; one of another partition is refused with WHY 3. (Model's choices: The order of
events is that of the agenda (log entry 4); the LFSR of victims has no body (log entry 16); a message for context 0 is
refused by log entry 34.) -/
def Obligations.DequeArrivals : Prop :=
  (∀ (s : State) (victim thief : Nat) (l : List Record),
    (s.me.idle = true → mayStart s s.rank = true → s.me.probing = false → (probeFits s s.rank victim).1 = true →
      s.lazy = true →
      ∃ t, exec (.stealProbe victim) s = .next t ∧ t.net = s.net ++ [{ src := s.rank, dst := victim, ev := .stealServe s.rank, pid := s.me.pid }] ∧
        t.me.probing = true ∧ SameBytes s t) ∧
    ((s.coreAt thief).probing = true → s.me.halt = none → s.inTransit s.rank = false → s.me.pid = (s.coreAt thief).pid →
      exec (.stealServe thief) s =
        .next ((stealFrom s s.rank).2.sendNet s.rank thief (.stealRecordsArrive (stealFrom s s.rank).1))) ∧
    (s.me.probing = true → s.me.push = [] → s.me.hw.length + l.length ≤ 32 →
      (∀ x ∈ l, x.pin = false ∧ x.msg = false ∧ x.resume = false) →
      let u : State := s.setMe { s.me with probing := false, hw := s.me.hw ++ l }
      exec (.stealRecordsArrive l) s = .next (if mayStart s s.rank then startNext u s.rank else u))) ∧
  (∀ (s : State) (src : Nat) (x : Record) (off : BitVec 19) (n seq : BitVec 32) (why : BitVec 4),
    let k : Nat := localKey s.rank off.toNat
    s.inTransit s.rank = false →
    (x.pin = false → x.msg = false → x.resume = false →
      (s.me.hw.length < 32 → s.me.push = [] →
        exec (.remotePushArrive src x) s = .next (s.setMe { s.me with hw := s.me.hw ++ [x] })) ∧
      (dequeFull s.me = true → s.me.push.length < 32 →
        exec (.remotePushArrive src x) s = .next (s.setMe { s.me with push := s.me.push ++ [x] })) ∧
      (dequeFull s.me = true → 32 ≤ s.me.push.length →
        exec (.remotePushArrive src x) s =
          .next (s.modCore src fun c => { c with resend := c.resend ++ [.push s.rank x] }))) ∧
    (x.count ≠ 0#32 → exec (.codltApply off x) s = .next (putRecord s k { x with flags := x.flags ||| 0x0008#16 })) ∧
    (x.count = 0#32 → ∃ t, exec (.codltApply off x) s = .next t ∧
      t = ownerPush (putRecord s k { x with flags := x.flags &&& 0xFFF7#16 }) s.rank { x with flags := x.flags &&& 0xFFF7#16 }) ∧
    ((recordAt s k).armed = true → n.toNat < (recordAt s k).count.toNat →
      ∃ t, exec (.cdecApply off n) s = .next t ∧
        t.mem.readNat (k + 60) 4 = (recordAt s k).count.toNat - n.toNat ∧
        ∀ a, (a < k + 60 ∨ k + 64 ≤ a) → t.mem.get a = s.mem.get a) ∧
    ((recordAt s k).armed = false → ∃ t, exec (.cdecApply off n) s = .next t ∧ SameBytes s t ∧
      field t.me.ctl.cdecerr 16 16 = min 65535 (field s.me.ctl.cdecerr 16 16 + 1)) ∧
    (∃ t, exec (.amsgRefusalArrive seq why) s = .next t ∧ OnlyMe s t ∧ field t.me.ctl.amsgst 96 32 = seq.toNat ∧
      field t.me.ctl.amsgst 48 16 = min 65535 (field s.me.ctl.amsgst 48 16 + 1) ∧ field t.me.ctl.amsgst 0 4 = why.toNat ∧
      field t.me.ctl.amsgst 64 32 = field s.me.ctl.amsgst 64 32)) ∧
  (∀ (s : State) (m : AMsg) (p : Part) (i : Nat),
    let r : Nat := m.dst.toNat
    let off : Nat := msgOff (s.coreAt r) i
    s.part? m.pid.toNat = some p → p.resident = true →
    ((s.coreAt r).pid = p.pid → m.ctx = 0#16 → freeMsg (s.coreAt r) = some i →
      exec (.amsgArrive m) s = .next (ownerPush ((putUnits s (localKey r off) (msgArgs m)).modCore r fun c =>
          { c with msgUsed := c.msgUsed ||| (1#256 <<< i), msgNext := (i + 1) % msgSlots c }) r
        { Record.zero with argA := (mintCap (0xD * 2 ^ 52 + off) 64 (0xD * 2 ^ 52 + off) 0x049#12).getD GVal.zero
                           entry := m.entry, ctx := m.ctx, flags := 0x0003#16 })) ∧
    ((s.coreAt r).pid ≠ p.pid → m.pkg = s.pkgRank → s.lazy = true →
      exec (.amsgArrive m) s = .next { s with
        net := s.net ++ [{ src := r, dst := m.src.toNat, ev := .amsgRefusalArrive m.seq 3#4, pid := m.pid.toNat }] }))

/-- 09_compose.md R270, R271, R288: COMPOSE and GANG. A core in a group answers 2 and stays in it; one whose rectangle
holds a core that does not grant its reservation answers 1 and stays single; else the group forms and answers 0.
09_compose.md R278, R283, R289: SPLIT and DISBAND on a core in no group only step on; SPLIT hands a composed group
back with ENDWHY 1, and DISBAND ends a gang with ENDWHY 1 once every member has completed its earlier words. -/
def Obligations.GroupWords : Prop :=
  (∀ (s : State) (tall : Bool) (size : BitVec 2) (d : GIdx),
    let k : Nat := size.toNat + 1
    let others (w : Bool) : List (Nat × Nat) := (groupRect s.rank (groupShape k w)).filter fun m => m.1 != s.rank
    let t : State := (drainS s s.rank).modMe Core.landLatches
    let answer (u : State) (n : Nat) : Host.Outcome State Fault Refusal :=
      .next (u.setMe (u.me.wg d { bits := BitVec.ofNat 128 n, tag := false }).next)
    (field s.me.ctl.grpstat 30 2 ≠ 0 →
      exec (.compose tall size d) s = answer s 2 ∧ exec (.gang size d) s = answer s 2) ∧
    (field s.me.ctl.grpstat 30 2 = 0 → s.me.quiet = true →
      (((others tall).all fun m => (t.coreAt m.1).grants) = false → exec (.compose tall size d) s = answer t 1) ∧
      (((others false).all fun m => (t.coreAt m.1).grants) = false → exec (.gang size d) s = answer t 1) ∧
      (((others tall).all fun m => (t.coreAt m.1).grants) = true →
        ∃ u, exec (.compose tall size d) s = .next u ∧
          (u.coreAt s.rank).group = .composeLead ((others tall).map (·.1)) ∧
          (d ≠ 0#6 → (u.coreAt s.rank).rg d = { bits := 0#128, tag := false })) ∧
      (((others false).all fun m => (t.coreAt m.1).grants) = true →
        ∃ u, exec (.gang size d) s = .next u ∧
          (u.coreAt s.rank).group = .gangLead ((others false).map (·.1)) ∧
          (d ≠ 0#6 → (u.coreAt s.rank).rg d = { bits := 0#128, tag := false })))) ∧
  (∀ (s : State),
    (s.me.group = .single → exec .split s = .next (s.setMe s.me.next) ∧ exec .disband s = .next (s.setMe s.me.next)) ∧
    (∀ ms, s.me.group = .composeLead ms → exec .split s = .next ((endComposed s s.rank 1).modMe Core.next) ∧
      ((endComposed s s.rank 1).coreAt s.rank).group = .single) ∧
    (∀ ms, s.me.group = .gangLead ms →
      (s.me.quiet = true → (∀ r ∈ ms, (s.coreAt r).quiet = true) →
        exec .disband s = .next ((endGang (settleMembers s (s.rank :: ms)) s.rank 1 0 0 0).modMe Core.next)) ∧
      (s.me.quiet = false → exec .disband s = .next (s.setMe { s.me with hold := some (.engines, s.cycle) }))))

/-- 15_system.md R428: what taking a trap does to a core that is in no group and waits for no VMAXX, at a depth below
2: the depth grows by one, the cause and the partition level stand in TSTATE, the walkers stand at TRAPBASE's address
with their queues empty, g1 covers the frame and g2 holds the cause; every other general register, every vector,
predicate, tile and accumulator register keeps its value. 15_system.md R428, R431, R434: what a trap saves, a return
restores. The registers read back from the frame that taking a trap writes are those of the core before it: every
general register's bits, every predicate register, every vector register, and the address of the S walker's word.
(Model's choices: The areas of a frame in a form of their own hold the model's handles (log entry 7).) -/
def Obligations.TrapFrames : Prop :=
  (∀ (s : State) (t : Trap),
    let c : Core := s.me
    let pc : Word64 := BitVec.ofNat 64 (c.ctl.trapbase.toNat / 4 % 2 ^ 54 * 4)
    let f : Nat := field c.ctl.framebase 14 5 * 16384 + 16384 * c.depth
    c.group = .single → c.maxx = none → c.halt = none → c.depth < 2 → c.loads = [] → c.blocked = none → t.cause ≠ 0x06#8 →
    t.cause ≠ 0x0D#8 →
    ∃ u, exec (.trapEntry t) s = .next u ∧
      u.me.level = 1 ∧ u.me.depth = c.depth + 1 ∧ field u.me.ctl.tstate 8 8 = t.cause.toNat ∧
      u.me.pc = pc ∧ u.me.pcV = pc ∧ u.me.pcM = pc ∧ u.me.pcD = pc ∧
      u.me.posV = c.posS ∧ u.me.posM = c.posS ∧ u.me.posD = c.posS ∧ u.me.posS = c.posS ∧
      u.me.outcomes = [] ∧ u.me.capV = [] ∧ u.me.capM = [] ∧ u.me.capD = [] ∧ u.me.dq = [] ∧ u.me.latches = [] ∧
      u.me.nestS = none ∧ u.me.nestV = none ∧ u.me.nestM = none ∧ u.me.nestD = none ∧ u.me.monLine = none ∧
      u.me.rg 1#6 = (mintCap (0xD * 2 ^ 52 + f) 16384 (0xD * 2 ^ 52 + f) 0x25B#12).getD GVal.zero ∧
      u.me.rg 2#6 = { bits := t.cause.setWidth 128, tag := false } ∧
      (∀ j, j ≠ 1#6 → j ≠ 2#6 → u.me.rg j = c.rg j) ∧ u.me.v = c.v ∧ u.me.p = c.p ∧ u.me.tile = c.tile ∧ u.me.acc = c.acc ∧
      ∀ k, (k < localKey s.rank f ∨ localKey s.rank f + 16384 ≤ k) → u.mem.get k = s.mem.get k) ∧
  (∀ (s : State) (t : Trap) (c : Core) (j : GIdx) (i : BitVec 5) (p : BitVec 3),
    let k : Nat := localKey s.rank (field s.me.ctl.framebase 14 5 * 16384 + 16384 * s.me.depth)
    s.me.group = .single → s.me.maxx = none → s.me.halt = none → s.me.depth < 2 → s.me.loads = [] → s.me.blocked = none →
    t.cause ≠ 0x06#8 → t.cause ≠ 0x0D#8 →
    ∃ u, exec (.trapEntry t) s = .next u ∧
      ((c.restoreRegs u k liveAll).rg j).bits = (s.me.rg j).bits ∧ (c.restoreRegs u k liveAll).rv i = s.me.rv i ∧
      (c.restoreRegs u k liveAll).rp p = s.me.rp p ∧ u.mem.readNat (k + 0x20) 8 = s.me.pc.toNat)

/-- 15_system.md R428, R429: a trap at depth 2 is a double fault: the core halts with WHY 6 and the hub logs it. An
absent page is still reported at the fault queue, where one without a ring or a pending entry counts it as lost
(05_memory.md R171, 15_system.md R438). -/
def Obligations.DoubleFault : Prop :=
  ∀ (s : State) (t : Trap), s.me.group = .single → s.me.maxx = none → s.me.halt = none → s.me.depth = 2 → s.me.loads = [] →
    s.me.blocked = none → t.cause ≠ 0x0D#8 →
    ∃ u, exec (.trapEntry t) s = .next u ∧ u.me.halt = some 6#4 ∧ u.logs = s.logs ++ [.doubleFault s.rank] ∧
      (t.cause ≠ 0x06#8 → SameBytes s u) ∧
      (t.cause = 0x06#8 → t.asked = false → ∀ p, (s.part? s.me.pid) = some p → p.fq.ring = none →
        (∀ e ∈ p.fq.entries, e.status ≠ 0#8) → ∃ q, u.part? s.me.pid = some q ∧ q.fq.lost = p.fq.lost + 1#64)

/-- 15_system.md R457: TRAP, SVC and BRK step past their word and then trap, with the cause of TRAP's code, 0x11 or
0x10; a code that is reserved or an interrupt is an illegal encoding; BRK halts the core instead while DBGCTL.BRKEN is
set. 15_system.md R434, R446, R453: ERET at partition level, with a live frame whose header keeps its limits, every
engine done and no park asked for, restores the frame and lowers the depth; HALT halts the core with WHY 5 past its
word; BLAZE triggers a blaze 64 cycles on where the snapshots are not locked and none is due. (Model's choices: That
TRAP refuses code 0, its INFO 0, and that a blaze trigger joins one under way are log entries 38, 14 and 44.) -/
def Obligations.TrapAndReturnWords : Prop :=
  (∀ (s : State) (code : BitVec 8) (imm : BitVec 17),
    let ask (cause : BitVec 8) (info : Nat) : State :=
      takeTrap (s.setMe s.me.next) s.rank
        { walker := some .s, cause := cause, addr := 0#64, info := BitVec.ofNat 64 info, kind := .load, asked := true }
    let named : Prop := 1 ≤ code.toNat ∧ code.toNat ≤ 0x13 ∧ code ≠ 0x0A#8
    (named → exec (.trap code) s = .next (ask code 0)) ∧
    (¬named → exec (.trap code) s = .next (takeTrap s s.rank (trapS 0x01 0#64))) ∧
    exec (.svc imm) s = .next (ask 0x11#8 imm.toNat) ∧
    (s.me.brken = false → exec (.brk imm) s = .next (ask 0x10#8 imm.toNat)) ∧
    (s.me.brken = true → exec (.brk imm) s = .next (debugHalt (s.setMe s.me.next) s.rank 2#4))) ∧
  (∀ (s : State),
    let t : State := syncAll s
    let k : Nat := frameKey t s.rank (s.me.depth - 1)
    (s.me.level ≠ 0 → s.me.depth ≠ 0 → s.me.quiet = true → s.landed s.rank = true → s.walking s.rank = false → frameOk t k = true →
      t.poisoned k (if t.mem.readNat (k + 3) 1 / 2 % 2 = 1 then frSize else frShort) = false →
      field t.me.ctl.parkon 63 1 = 0 → exec .eret s = .next (returnTo t s.rank k)) ∧
    (s.me.level ≠ 0 → s.me.depth = 0 → exec .eret s = .next (takeTrap s s.rank (trapS 0x07 0#64))) ∧
    (s.me.level ≠ 0 → s.me.quiet = true → s.landed s.rank = true → s.gangMaxx s.rank = false → t.me.group = .single →
      t.rank = s.rank → exec .halt s = .next (t.setMe ({ t.me with halt := some 5#4, stepping := false } : Core).next)) ∧
    ((s.me.level ≠ 0 ∨ s.blzTask = true) →
      (s.blzLock = false → exec .blaze s =
        .next ({ s with blzDue := some (s.blzDue.getD (s.cycle + 64)) }.setMe s.me.next)) ∧
      (s.blzLock = true → ∃ u, exec .blaze s = .next u ∧
        u.blzMissed.toNat = min 0xFFFF (s.blzMissed.toNat + 1) ∧ u.blzDue = s.blzDue)))

/-- 15_system.md R430, R435, R436: the interrupt that a core takes is the lowest that is pending and enabled, at task
level or at partition level outside a handler with the enable of bit 31; it is a trap without a walker. Nothing is
taken where none is due, at a FENCE that holds (06_ordering.md R197), at a word that the hub has accepted (13_kv.md
R385), nor where a fault, a kill or a safe-point overrun comes first (R427), and bit 0 of INTPEND follows the
comparison of the cycle count. -/
def Obligations.InterruptTake : Prop :=
  ∀ (s : State) (w : Option Walk),
    (∀ i, interruptDue s s.rank = some i →
      i < 16 ∧ (s.intpend s.rank).getLsbD i = true ∧ s.me.ctl.inten.getLsbD i = true ∧
      (∀ j, j < i → ((s.intpend s.rank).getLsbD j && s.me.ctl.inten.getLsbD j) = false) ∧
      (s.me.level = 0 ∨ (s.me.level = 1 ∧ s.me.depth = 0 ∧ s.me.ctl.inten.getLsbD 31 = true)) ∧
      (atFence s = true ∨ s.me.atHub = true ∨ s.me.firstDue = true → exec (.interruptTake w) s = .next s) ∧
      (atFence s = false → s.me.atHub = false → s.me.firstDue = false → (w = none ∨ awaitedWalk s s.rank = w) →
        exec (.interruptTake w) s = .next (takeTrap s s.rank
        { walker := none, cause := BitVec.ofNat 8 (0x20 + i), addr := 0#64, info := BitVec.ofNat 64 (0x20 + i), kind := .load }))) ∧
    (interruptDue s s.rank = none → exec (.interruptTake w) s = .next s) ∧
    ∃ t, exec .cycleCompareMatch s = .next t ∧ OnlyMe s t ∧ t.me.ctl.intpend.getLsbD 0 = (s.intpend s.rank).getLsbD 0 ∧
      ∀ j, t.me.rg j = s.me.rg j

/-- 15_system.md R425, 05_memory.md R174: the partition-level words at task level take access permission and do
nothing else. -/
def Obligations.PartitionLevelWords : Prop :=
  ∀ (s : State) (d a b : GIdx) (scope : Scope), s.me.level = 0 →
    ∀ i ∈ [Instr.eret, .halt, .psave a, .prest a, .tlbfl scope a b, .fqtake d a, .fqdone a b, .ctxkill a, .capgrant d a b],
      exec i s = .next (takeTrap s s.rank (trapS 0x07 0#64))

/-- 15_system.md R440, R442, R443, R446 to R448, R455, 03_numbers.md R89: the other system words at partition level on
operands that pass their checks, and the words of the clocks and of the random number registers. 15_system.md R446:
PSAVE and PREST read a descriptor in the core's own local memory, which names a core and an image in generic memory;
of a halted core of the partition the image is saved or loaded, with code 0, and of another core code 1 or 2 is stored
and nothing is moved. (Model's choices: The areas of an image in a form of their own hold the model's handles (log
entry 7); the second TLB in scope .core is log entry 82.) -/
def Obligations.SystemWords : Prop :=
  (∀ (s t : State) (d a b : GIdx) (scope : Scope) (e : FaultEntry) (k : Chunk) (v : GVal),
    let x : BitVec 128 := (s.me.rg a).bits
    let y : BitVec 128 := (s.me.rg b).bits
    exec (.rdcyc d) s = .next (s.setMe (s.me.wg d { bits := BitVec.ofNat 128 (s.cycle % 2 ^ 64), tag := false }).next) ∧
    exec (.rdptp d) s = .next (s.setMe (s.me.wg d
      { bits := BitVec.ofNat 128 (s.now % 2 ^ 64 + (if s.locked then 2 ^ 127 else 0)), tag := false }).next) ∧
    (s.me.level ≠ 0 →
      (capGrant s (s.me.rg a) (s.me.rg b) = .ok v → exec (.capgrant d a b) s = .next (s.setMe (s.me.wg d v).next)) ∧
      (y.toNat % 2 ^ 64 < 2 → walksIn s scope s.rank s.me.pid = false →
        exec (.tlbfl scope a b) s = .next ((flushTlbs s scope s.rank s.me.pid
          (if y.getLsbD 0 then none else some (x.toNat % 2 ^ 52))).modMe Core.next)) ∧
      (access s .s (s.me.rg a) (s.me.rg a).word 32 permStore 32 .own = .ok (.bytes [k], t) →
        (oldestPending t s.me.pid = none →
          exec (.fqtake d a) s = .next (t.setMe (t.me.wg d GVal.zero).next)) ∧
        (oldestPending t s.me.pid = some e →
          let u : State := (setFault (settleFor t s.rank (s.me.rg a).word [k]) s.me.pid { e with status := 1#8 }).store k.key
            (faultBytes s.me.pid { e with status := 1#8 })
          exec (.fqtake d a) s = .next (u.setMe (u.me.wg d { bits := e.seq.setWidth 128, tag := false }).next))) ∧
      (x.toNat < 2 ^ 32 → y.toNat < 2 → releaseReady s .pkg = true →
        let u : State := perform s .pkg
        (faultEntryOf u s.me.pid (x.setWidth 32) = none → exec (.fqdone a b) s = .next (u.setMe u.me.next)) ∧
        (faultEntryOf u s.me.pid (x.setWidth 32) = some e → e.status = 1#8 →
          exec (.fqdone a b) s = .next ((endEntry u s.me.pid e (y.getLsbD 0)).modMe Core.next))) ∧
      (∀ p q, x.toNat < 2 ^ 16 → x.toNat ≠ 0 → s.part? s.me.pid = some p → ctxOf p (BitVec.ofNat 16 x.toNat) = true →
        HubAnswers s s (.ctxkill a) (hubReq s 0#6 (BitVec.ofNat 16 x.toNat) 0#64 false .kill) ∧
        (ctxEntry s p (BitVec.ofNat 16 x.toNat) .store = (some q, t) → s.lazy = false →
          let u : State := if (ctxQueue t q).state = 0 then t else killCtx t p (BitVec.ofNat 16 x.toNat) q
          exec (.ctxkill a) s = .next (u.setMe u.me.next.clearDist))))) ∧
  (∀ (s t q : State) (a : GIdx) (k : Chunk) (l : List Chunk),
    let x : Word64 := (s.me.rg a).word
    let u : State := settleFor t s.rank x [k]
    let img : GVal := u.loadUnit (k.key + 16)
    let core : Nat := u.mem.readNat k.key 2
    let ends (w : State) (code : Nat) : Host.Outcome State Fault Refusal :=
      .next ((w.storeNat (k.key + 4) 4 code).modMe fun c => c.clearDist.next)
    s.me.level ≠ 0 → access s .s (s.me.rg a) x 64 (permLoad ||| permStore) 64 .own = .ok (.bytes [k], t) →
    u.poisoned k.key 64 = false → l.any (·.host) = false →
    (access u .s img img.word imageSize (permStore ||| permStoreCap) 64 .generic = .ok (.bytes l, q) →
      (q.coreOf s.me.pid core = true → (q.coreAt core).halt.isSome = true → exec (.psave a) s = ends (saveImage q core l) 0) ∧
      (q.coreOf s.me.pid core = true → (q.coreAt core).halt.isSome = false → exec (.psave a) s = ends q 1) ∧
      (q.coreOf s.me.pid core = false → exec (.psave a) s = ends q 2)) ∧
    (access u .s img img.word imageSize (permLoad ||| permLoadCap) 64 .generic = .ok (.bytes l, q) →
      (q.coreOf s.me.pid core = true → (q.coreAt core).halt.isSome = true → q.chunksPoisoned l = false →
        exec (.prest a) s = ends (loadImage q core l) 0) ∧
      (q.coreOf s.me.pid core = true → (q.coreAt core).halt.isSome = false → exec (.prest a) s = ends q 1) ∧
      (q.coreOf s.me.pid core = false → exec (.prest a) s = ends q 2)))

/-- 14_futures.md R406 to R409: FCALL on a descriptor that reads and keeps its limits goes to its end. It writes gd
the handle and the status in bits 39:32: 0 where the call stands in its ring, and 1 to 5 with a zero handle where
nothing is called: the quota, no entry, no slot, a window refused, a remote call refused. 14_futures.md R401, R403,
R415: the waiting words on a handle with zero high bits, no injection being under way. A stale handle gives the value
7. A final future gives its state, its status, its place in the prefill queue and its reply length, and is freed under
the next generation. On a pending one FTEST gives its value, FCANCEL cancels it and gives 4, and FWAIT gives 6 where a
waiter stands and waits where none does. (Model's choices: The lowest free entry is taken (log entry 20), generations
start at 1 (log entry 21), and AUTH has no body (log entry 9).) -/
def Obligations.FutureCallAndWait : Prop :=
  (∀ (s t0 u0 : State) (d a b : GIdx) (k : Chunk) (p : Part) (key : Nat) (cont : Option Record),
    let x : Word64 := (s.me.rg a).word
    let y : Word64 := (s.me.rg b).word
    let t : State := settleFor t0 s.rank x [k]
    let desc : CallDesc := callDesc u0.mem k.key
    let u : State :=
      if desc.cont.getLsbD 31 then settleFor u0 s.rank x [ownChunk s.rank (desc.cont.toNat / 2 ^ 6 % 2 ^ 13 * 64) 64] else u0
    let w : List CallWin × Bool × State :=
      callWindows u p (BitVec.ofNat 64 (u.mem.readNat (key + 48) 8)) (desc.wins.take desc.wincnt)
    let v : State := w.2.2
    let status : Nat := callStatus desc w.1 w.2.1
    let fails (n : Nat) (v : State) : Prop :=
      exec (.fcall d a b) s = .next (v.modMe fun m => (m.wg d (GVal.ofNat (n * 2 ^ 32))).next)
    let full : Prop := v.mem.readNat (key + 58) 2 ≤ allocated v (fun f => f.ctx == y.setWidth 16 && f.pid == p.pid) ∨
      p.futQuota ≤ allocated v (fun f => f.pid == p.pid)
    let rid : Nat := v.mem.readNat (key + 57) 1
    access s .s (s.me.rg a) x 64 permLoad 64 .own = .ok (.bytes [k], t0) → field y 16 48 = 0 → u.poisoned k.key 64 = false →
    ctxCheck t (y.setWidth 16) = (some (p, key), u0) → desc.ok (u.mem.readNat (key + 56) 1) = true →
    contImage u desc (u.mem.readNat (key + 2) 2 % 4096) x = .ok cont →
    (status ≠ 0 → fails status v) ∧
    (status = 0 →
      (full → fails 1 v) ∧
      (¬full → freeEntry v = none → fails 2 v) ∧
      (∀ i, ¬full → freeEntry v = some i →
        (desc.remote = false → callSlot v p.pid rid = none → fails 3 v) ∧
        (∀ slot, callSlot v p.pid rid = some slot ∨ desc.remote = true →
          ∃ q f sl, exec (.fcall d a b) s = .next q ∧ (desc.remote = false → sl = slot) ∧
            f = callEntry v p.pid (y.setWidth 16) (BitVec.ofNat 12 (v.mem.readNat (key + 2) 2)) desc w.1 rid sl (v.futAt i).gen cont ∧
            q = (placeCall { v.setFut i f with fresh := v.fresh + 1, futOrder := v.futOrder + 1 } i f rid sl desc).modMe
              fun m => (m.wg d (GVal.ofNat (futHandle i f))).next)))) ∧
  (∀ (s : State) (d a : GIdx) (i : Nat) (f : Fut),
    let h : Word64 := (s.me.rg a).word
    let gives (u : State) (n : Nat) : State := u.modMe fun c => (c.wg d { bits := BitVec.ofNat 128 n, tag := false }).next
    let all (u : State) (n : Nat) : Prop :=
      exec (.ftest d a) s = .next (gives u n) ∧ exec (.fcancel d a) s = .next (gives u n) ∧
      exec (.fwait d a) s = .next ((gives u n).modMe Core.clearDist)
    field h 32 32 = 0 →
    (liveFut s h.toNat false = none → all s 7) ∧
    (liveFut s h.toNat false = some (i, f) → injecting s i = false →
      (f.state ≠ 1#3 →
        all (s.setFut i { Fut.reset with gen := nextGen (s.futAt i).gen })
          (f.state.toNat + f.rstatus.toNat * 2 ^ 8 + f.pfqpos.toNat % 4096 * 2 ^ 16 + f.replylen.toNat % 2 ^ 24 * 2 ^ 32)) ∧
      (f.state = 1#3 →
        exec (.ftest d a) s = .next (gives s (futValue f)) ∧ exec (.fcancel d a) s = .next (gives (leaveFut s i 4 0 0) 4) ∧
        (f.waiter.isSome = true → exec (.fwait d a) s = .next ((gives s 6).modMe Core.clearDist)) ∧
        (f.waiter = none → (s.me.parks && poolFree s s.me.pid) = false →
          exec (.fwait d a) s = .next ((s.setFut i { f with waiter := some { core := s.rank, frame := none, d := d } }).modMe
            fun c => { c with blocked := some { op := .fwait d (BitVec.ofNat 14 i), since := s.cycle, deadline := none } })))))

/-- 14_futures.md R416, R424: FDONE, past its release, writes FUTST the code of the outcome: 1 a stale handle, 2 a
future that is not pending, 3 more tokens than the reply window holds, 0 the future resolved with them; RNGSV and
RNGLD move the counter of the random engine, waiting for the engines that use it. 14_futures.md R410 to R413, R418:
the events of the future engine. A pending future whose deadline has passed times out, and one without a deadline
never; an injection under way sends its next granule, or ends when none is left; a remote completion is answered with
its code, and resolves the future only with code 0. 14_futures.md R410: a future that leaves pending with no injection
ends in one step: its state, its status and its reply length are written, its call's ring slot is let go, a
continuation is pushed once, and a waiter is served the value while the entry is freed; with no waiter the entry stays
for a later word. 14_futures.md R411: the granules of an injection hold the tokens in order and then ones up to the
end of the last granule, which ends with at least one token of ones. -/
def Obligations.FutureResolution : Prop :=
  (∀ (s : State) (d a b : GIdx),
    let h : Word64 := (s.me.rg a).word
    let v : Word64 := (s.me.rg b).word
    let u : State := perform s .pkg
    let code : Nat := doneCode u h.toNat (field v 32 24)
    let w : State := u.modMe fun c => (c.modCtl fun k => { k with futst := BitVec.ofNat 64 code }).next
    let held (u : State) : State := u.modMe fun c => { c with hold := some (.engines, s.cycle) }
    (field h 32 32 = 0 → field v 8 24 = 0 → field v 56 8 = 0 → releaseReady s .pkg = true →
      exec (.fdone a b) s =
        .next (if code = 0 then leaveFut w (h.toNat % 2 ^ 14) 2 (field v 0 8) (field v 32 24) else w) ∧
      (liveFut u h.toNat true = none → code = 1) ∧
      (∀ i f, liveFut u h.toNat true = some (i, f) →
        code = if f.state ≠ 1#3 then 2 else if replyRoom f < 4 * field v 32 24 then 3 else 0)) ∧
    (field h 32 32 ≠ 0 ∨ field v 8 24 ≠ 0 ∨ field v 56 8 ≠ 0 → exec (.fdone a b) s = .next (takeTrap s s.rank (trapS 0x07 0#64))) ∧
    (field h 32 32 = 0 → field v 8 24 = 0 → field v 56 8 = 0 → releaseReady s .pkg = false → exec (.fdone a b) s = .next (held s)) ∧
    (ctlReady s.me 0x041 = true →
      exec (.rngsv d) s = .next (s.setMe (s.me.wg d { bits := s.me.ctl.rngctr, tag := false }).next) ∧
      exec (.rngld a) s = .next (s.setMe (s.me.modCtl fun k => { k with rngctr := (s.me.rg a).bits }).next)) ∧
    (ctlReady s.me 0x041 = false → exec (.rngsv d) s = .next (held s) ∧ exec (.rngld a) s = .next (held s))) ∧
  (∀ (s : State) (n : BitVec 14) (m : RemoteDone) (j : Injection),
    let f : Fut := s.futAt n.toNat
    let code : Nat := remoteCode s m
    let w : State := { s with outbox := s.outbox ++ [.answer m.handle (BitVec.ofNat 8 code)] }
    let g : Fut := s.futAt (m.handle.toNat % 2 ^ 14)
    (f.state = 1#3 → f.deadline ≠ 0#64 → f.deadline.toNat ≤ s.now →
      exec (.futureTimeout n) s = .next (leaveFut s n.toNat 3 0 0)) ∧
    (f.state ≠ 1#3 ∨ f.deadline = 0#64 ∨ s.now < f.deadline.toNat → exec (.futureTimeout n) s = .next s) ∧
    (nextInject s = some j → j.left = [] → exec .injectGranule s = .next (endInject s j)) ∧
    (∀ g l, nextInject s = some j → j.left = g :: l →
      let entry : Option Nat × State := if j.next = j.first then futEntry s j.pid j.ctx .load else (none, s)
      let pos : Nat := match entry.1 with | some k => entry.2.mem.readNat (k + 64) 4 % 2 ^ j.log | none => j.next
      let first : Nat := if j.next = j.first then pos else j.first
      let on : Injection := { j with left := l, first := first, next := pos + 1, wait := true }
      let t : State := { entry.2 with injects := entry.2.injects.map fun x => if x.entry = j.entry then on else x }
      let u : State := t.setFut j.entry { t.futAt j.entry with pfqpos := BitVec.ofNat 32 first }
      let a : Arrival :=
        { dst := j.home, off := BitVec.ofNat 19 (j.off + 64 * (pos % 2 ^ j.log)), bytes := g.1, kind := .inject
          srcPkg := (s.coreAt j.home.toNat).ctl.pkg.setWidth 32, srcCore := 0xFFFF#16, entry := BitVec.ofNat 14 j.entry, bad := g.2 }
      (j.next = j.first → entry.1 = none → exec .injectGranule s = .next (failInject entry.2 j)) ∧
      (j.next ≠ j.first ∨ entry.1.isSome = true →
        exec .injectGranule s = .next (if 2 ^ 19 < j.off + 64 * 2 ^ j.log then overrun u a
          else u.hubTo j.pid j.home.toNat (.taggedArrival a) fun v => arrive v a))) ∧
    (nextInject s = none → exec .injectGranule s = .next s) ∧
    (code ≠ 0 → exec (.remoteCompletion m) s = .next w) ∧
    (code = 0 → exec (.remoteCompletion m) s =
      .next (leaveFut (w.store (((g.wins[g.replywin.toNat]?).map (·.base)).getD 0) m.tokens) (m.handle.toNat % 2 ^ 14) 2
        m.rstatus.toNat (m.tokens.length / 4)) ∧ g.state = 1#3 ∧ g.remote = true ∧ m.auth = g.auth)) ∧
  (∀ (s : State) (i state rstatus n : Nat),
    let f : Fut := s.futAt i
    i < 16384 → f.inject = false → (state = 2 ∨ state = 4) →
    (∀ p, s.part? f.pid = some p → p.resident = true) →
    let g : Fut := { f with
      state := BitVec.ofNat 3 state, rstatus := BitVec.ofNat 8 rstatus
      replylen := if state = 2 then BitVec.ofNat 32 n else f.replylen }
    let e : Fut := { g with taken := false, cont := none }
    let ring : ToolRing := s.ringAt f.ring.toNat
    (f.waiter = none → f.cont = none →
      (leaveFut s i state rstatus n).futAt i = e ∧
      (f.remote = true → leaveFut s i state rstatus n = (s.setFut i g).setFut i e) ∧
      (f.remote = false → (leaveFut s i state rstatus n).ringAt f.ring.toNat = { ring with used := ring.used.filter fun u => u.2 != i })) ∧
    (∀ r, f.waiter = none → f.cont = some r → f.remote = true →
      leaveFut s i state rstatus n = ((s.setFut i g).hubTo f.pid f.home.toNat (.remotePushArrive f.home.toNat r)
        fun t => remotePush t f.home.toNat f.home.toNat r).setFut i e) ∧
    (∀ w, f.waiter = some w → w.frame = none → f.cont = none →
      ((leaveFut s i state rstatus n).futAt i).state = 0#3 ∧ ((leaveFut s i state rstatus n).futAt i).gen = nextGen f.gen ∧
      ((leaveFut s i state rstatus n).coreAt w.core) = (s.coreAt w.core).finish w.d (GVal.ofNat (futValue e)))) ∧
  (∀ (tokens : List Byte) (bad : List Nat),
    let l : List (List Byte × List Nat) := injectBytes tokens bad
    l.length = tokens.length / 64 + 1 ∧ (∀ g ∈ l, g.1.length = 64) ∧
    (l.map (·.1)).flatten = tokens ++ List.replicate (64 * l.length - tokens.length) 0xFF#8)

/-- 13_kv.md R385 to R389: a prefix word whose request keeps its format, whose buffer is readable bytes of the own
local memory and whose context passes ctxcheck makes its request of the hub, and completes with the hub's answer:
KVSTAT takes the status, and PFXL and PFXI give gd a value. Without a valid tree, and where something cannot be
reached, the status is 2 and the value 0; poisoned tokens, and a match that meets a free record, are a machine check.
PFXL: a probe stamps the nodes that the match passes and writes the chain, its value is the match's length and its
spans; a lookup that is no probe does so for an empty view only, with a reference and an entry for every record and
the view's length set, and has status 3 and value 0 for another. PFXI: more tokens than the view holds have status 7;
an insertion that finds its nodes and records has status 0 and the number of tokens added, which are those beyond the
match, and one that finds no node has status 4 and value 0 and changes nothing. PFXDROP: a match of the whole sequence
at a node with END clears it and removes the nodes above that keep nothing, with status 0; any other has status 1 and
changes nothing. 13_kv.md R386: the match is a prefix of the sequence, made of the whole runs of the nodes of its path
and a first part of the last one's; it has a live record for each of its spans. (Model's choices: Which nodes are
stamped is log entry 48; the lowest free node and record are taken (log entry 20); what a node that loses END keeps,
and a directory entry whose root cannot be written, are log entries 105 and 104.) -/
def Obligations.PrefixWords : Prop :=
  (∀ (s t u : State) (d a b : GIdx) (k : Chunk) (c : BitVec 16) (probe : Bool) (n : Nat) (e : Part × Nat),
    let x : Word64 := (s.me.rg a).word
    let y : Word64 := (s.me.rg b).word
    let toks : List (BitVec 32) := tokensAt u.mem k.key n
    let req (r : GIdx) (op : HubOp) : HubReq := hubReq u r c x (u.poisoned k.key (4 * n)) op
    ctxCheck (settleFor t s.rank x [k]) c = (some e, u) →
    (prefixReq y true = some (c, probe, n) →
      access s .s (s.me.rg a) x (8 * ((n + 63) / 64) + 8 * ((4 * n + 7) / 8)) (permLoad ||| permStore) 8 .own = .ok (.bytes [k], t) →
      HubAnswers s u (.pfxl d a b) (req d (.lookup k.key toks probe))) ∧
    (prefixReq y false = some (c, probe, n) → access s .s (s.me.rg a) x (4 * n) permLoad 8 .own = .ok (.bytes [k], t) →
      HubAnswers s u (.pfxi d a b) (req d (.insert toks)) ∧ HubAnswers s u (.pfxdrop a b) (req 0#6 (.remove toks)))) ∧
  (∀ (s u : State) (q : HubReq) (p : Part) (v : View) (t : Tree) (toks : List (BitVec 32)) (key : Nat) (probe : Bool),
    let f : Match := t.match_ toks
    let n : Nat := toks.length
    let z1 : Tree := t.stamp u.hubTime (t.passed f)
    let made (x : Bool × State) (code m : Nat) : KvAns (Nat × Nat) := (if x.1 then .ok (code, m) else .error .unreached, x.2)
    let looks : Prop := q.op = .lookup key toks probe
    let inserts : Prop := q.op = .insert toks
    let removes : Prop := q.op = .remove toks
    s.part? q.pid = some p →
    (looks ∨ inserts ∨ removes →
      (hubView s p q.ctx = (.error .unreached, u) → hubStep s q = (.error .unreached, u)) ∧
      (hubView s p q.ctx = (.ok (v, t), u) → q.bad = true → hubStep s q = (.error .broken, u))) ∧
    (hubView s p q.ctx = (.ok (v, t), u) → q.bad = false →
      (looks → t.met f = none → hubStep s q = (.error .broken, u)) ∧
      (∀ l, looks → t.met f = some l →
        let z2 : Tree := l.foldl (fun t r => t.adjust r fun i => { i with ref := i.ref + 1 }) z1
        let view : List (Nat × List Byte) :=
          (ctxAddr p v.ctx + 40, leBytes 4 f.m) :: l.zipIdx.map fun e => entryWrite v e.2 (min 64 (f.m - 64 * e.2)) e.1
        let m : Nat := f.m + l.length * 2 ^ 32
        (probe = true → (commit u p t z1 []).1 = true → hubStep s q = (.ok (0, m), writeChain z1 key n l (commit u p t z1 []).2)) ∧
        (probe = true → (commit u p t z1 []).1 = false → hubStep s q = (.error .unreached, (commit u p t z1 []).2)) ∧
        (probe = false → v.len ≠ 0 → hubStep s q = made (commit u p t z1 []) 3 0) ∧
        (probe = false → v.len = 0 → (commit u p t z2 view).1 = true →
          hubStep s q = (.ok (0, m), writeChain z2 key n l (commit u p t z2 view).2)) ∧
        (probe = false → v.len = 0 → (commit u p t z2 view).1 = false →
          hubStep s q = (.error .unreached, (commit u p t z2 view).2))) ∧
      (inserts → v.len < n → hubStep s q = (.ok (7, 0), u)) ∧
      (inserts → n ≤ v.len → t.met f = none → hubStep s q = (.error .broken, u)) ∧
      (inserts → n ≤ v.len → (t.met f).isSome = true → z1.splitAt f = none → hubStep s q = (.ok (4, 0), u)) ∧
      (∀ z2 cur e z3 z4 w, inserts → n ≤ v.len → (t.met f).isSome = true → z1.splitAt f = some (z2, cur) →
        z2.extend (n + 1) cur f.m (toks.drop f.m) = e → e.2.2.2.2 = true →
        z3 = (match e.1.node e.2.1 with | some i => if i.index = 0 then e.1 else e.1.setNode { i with final := true } | none => e.1) →
        attach u p v z3 (f.path.map (·.index) ++ [cur] ++ e.2.2.1) = (.ok z4, w) →
        hubStep s q = made (commit w p t z4 []) 0 (n - f.m)) ∧
      (removes → t.met f = none → hubStep s q = (.error .broken, u)) ∧
      (∀ i, removes → (t.met f).isSome = true → z1.node f.last.index = some i →
        let here : Prop := f.m = n ∧ f.k = i.run.length ∧ i.final = true ∧ i.index ≠ 0
        (here → hubStep s q = made (commit u p t ((z1.unmark i).prune false (t.nodes.length + 1) i.index) []) 0 0) ∧
        (¬here → hubStep s q = (.ok (1, 0), u))))) ∧
  (∀ (t : Tree) (toks : List (BitVec 32)),
    let x : Match := t.match_ toks
    x.m ≤ toks.length ∧ x.k ≤ x.last.run.length ∧ x.path.getLast? = some x.last ∧
    (x.path.tail.dropLast.map (·.run)).flatten ++ x.last.run.take x.k = toks.take x.m ∧
    (t.childWith ((t.node 0).getD Node.root) (toks.headD 0#32) = none → x.m = 0) ∧
    ∀ l, t.recsOf x = some l → l.length = (x.m + 63) / 64 ∧ ∀ r ∈ l, t.live r = true)

/-- 13_kv.md R390, R391: KVMAP gives the address of a position's row in its page set with the entry's VIEW above it,
and zero beyond the view's end; KVTRNC asks the hub, which cuts the view's length and entries, and releases the
records of the spans that are cut, with status 0, or 7 for a length beyond the view's. 13_kv.md R382, R392: KVPIN and
KVUNPIN with a plain gb change HOLD of the record that the operand names, saturating at 2^32 - 1 and at 0; a free
record or another generation has status 1 and changes nothing, too large a decrement status 6, and a tree that is not
valid status 2. -/
def Obligations.ViewAndHoldWords : Prop :=
  (∀ (s u w1 w2 : State) (d a b : GIdx) (p : Part) (key : Nat) (e1 e2 : List Byte),
    let x : BitVec 128 := (s.me.rg a).bits
    let y : BitVec 128 := (s.me.rg b).bits
    let pos : Nat := x.toNat % 2 ^ 23
    let l : Nat := y.toNat % 2 ^ 12
    let ctx : BitVec 16 := x.extractLsb' 32 16
    let num (o n : Nat) : Nat := leNat ((e1.drop o).take n)
    let v : View := { ctx := ctx, tab := num 0 8, len := num 8 4, tree := num 12 1 % 16 }
    let t : Tree := { dirTree p.pid v.tree e2 with recs := ((w2.keptTree p.pid v.tree).map (·.recs)).getD [] }
    (field x 23 9 = 0 → field x 48 80 = 0 → field y 12 4 = 0 → field y 17 111 = 0 → ctxCheck s ctx = (some (p, key), u) →
      u.pushesDone u.rank = true → dReleasing u u.me.posS = false → acquireReady u u.rank = true →
      engineLoad (acquire u u.rank) (ctxAddr p ctx + 32) 16 = .ok (e1, w1) →
      engineLoad w1 (w1.kvdirOf p + 64 * v.tree) 64 = .ok (e2, w2) →
      (t.valid = false ∨ t.layers ≤ l → exec (.kvmap d a b) s = .next (takeTrap w2 s.rank (trapS 0x07 0#64))) ∧
      (t.valid = true → l < t.layers → v.len ≤ pos → exec (.kvmap d a b) s = .next (w2.setMe (w2.me.wg d GVal.zero).next)) ∧
      (∀ e3 w3 r, t.valid = true → l < t.layers → pos < v.len →
        engineLoad w2 (v.tab + 8 * (pos / 64)) 8 = .ok (e3, w3) → entryRec v t (pos / 64) e3 = .ok r →
        let n : Nat := (t.pset r + (2 * l + field y 16 1) * 65536 + pos % 64 * 1024) % 2 ^ 64 + viewOf v.len (pos / 64) * 2 ^ 64
        exec (.kvmap d a b) s = .next (w3.setMe (w3.me.wg d { bits := BitVec.ofNat 128 n, tag := false }).next))) ∧
    (field x 16 112 = 0 → field y 23 105 = 0 → ctxCheck s (x.setWidth 16) = (some (p, key), u) →
      HubAnswers s u (.kvtrnc a b) (hubReq u 0#6 (x.setWidth 16) 0#64 false (.truncate y.toNat)))) ∧
  (∀ (s u : State) (q : HubReq) (p : Part) (v : View) (t : Tree) (n : Nat),
    let keep : Nat := (n + 63) / 64
    let cut : List Nat := (List.range ((v.len + 63) / 64 - keep)).map (· + keep)
    let made (x : Bool × State) : KvAns (Nat × Nat) := (if x.1 then .ok (0, 0) else .error .unreached, x.2)
    s.part? q.pid = some p → q.op = .truncate n → q.bad = false →
    (hubView s p q.ctx = (.error .unreached, u) → hubStep s q = (.error .unreached, u)) ∧
    (hubView s p q.ctx = (.ok (v, t), u) →
      (v.len < n → hubStep s q = (.ok (7, 0), u)) ∧
      (∀ rs w, n ≤ v.len → readEntries u p v t cut = (.ok rs, w) →
        let z : Tree := rs.foldl (fun t r => t.adjust r fun x => { x with ref := x.ref - 1 }) t
        let writes : List (Nat × List Byte) :=
          (ctxAddr p v.ctx + 40, leBytes 4 n) :: cut.map fun j => (v.tab + 8 * j, leBytes 8 0)
        (keep = 0 → hubStep s q = made (commit w p t z writes)) ∧
        (∀ r w1, keep ≠ 0 → readEntry w p v t (keep - 1) = (.ok r, w1) →
          hubStep s q = made (commit w1 p t z (writes ++ [entryWrite v (keep - 1) (n - 64 * (keep - 1)) r])))))) ∧
  (∀ (s u : State) (a b : GIdx) (p : Part) (t : Tree),
    let x : Word64 := (s.me.rg a).word
    let y : Word64 := (s.me.rg b).word
    let r : Nat := x.toNat % 2 ^ 24
    let n : Nat := y.toNat % 2 ^ 32
    let stale : Prop := t.live r = false ∨ (t.srec r).gen ≠ x.extractLsb' 28 16
    let up : Tree := t.adjust r fun z => { z with hold := min (2 ^ 32 - 1) (z.hold + n) }
    let down : Tree := t.adjust r fun z => { z with hold := z.hold - n }
    let ask (op : Nat → Nat → BitVec 16 → Nat → HubOp) : HubReq :=
      hubReq s 0#6 0#16 0#64 false (op (field x 24 4) r (x.extractLsb' 28 16) n)
    let made (x : Bool × State) (code : Nat) : KvAns (Nat × Nat) := (if x.1 then .ok (code, 0) else .error .unreached, x.2)
    ((s.me.rg b).tag = false → field x 44 20 = 0 → field y 32 32 = 0 →
      HubAnswers s s (.kvpin a b) (ask .pin) ∧ HubAnswers s s (.kvunpin a b) (ask .unpin)) ∧
    (s.part? s.me.pid = some p →
      (validTree s p (field x 24 4) = (none, u) →
        hubStep s (ask .pin) = (.error .unreached, u) ∧ hubStep s (ask .unpin) = (.error .unreached, u)) ∧
      (validTree s p (field x 24 4) = (some t, u) →
        (stale → hubStep s (ask .pin) = (.ok (1, 0), u) ∧ hubStep s (ask .unpin) = (.ok (1, 0), u)) ∧
        (¬stale → hubStep s (ask .pin) = made (commit u p t up []) 0 ∧
          hubStep s (ask .unpin) = made (commit u p t down []) (if n ≤ (t.srec r).hold then 0 else 6)))))

/-- 13_kv.md R392: KVPIN with a tagged gb posts a prefetch, which KV_PREFETCH_SERVE takes oldest first to the hub; its
status granule goes to the destination as a tagged arrival, with status 2 without a valid tree, 1 for a free record,
another generation or a layer that the tree has not, and else 0 and the page set. 13_kv.md R394 to R396: the felling
engine. A tree below its low mark gets proposals, a deadline confirms by expiry, an action of firmware confirms,
vetoes (LASTUSE of the node is then now) or moves an entry to the front, and the head is felled only when it is
confirmed or expired and its node is still a candidate with the same record and generation: its node is removed, and
upward those that keep nothing. 13_kv.md R397, R398: ATTG on a descriptor that keeps its limits, with a map and
entries that read, raises the hold of every block's record and pushes one codelet per block that is computed, after
the merge record is written; with no block computed the merge record itself is pushed. While the deque is full the
word waits with the records that are left. (Model's choices: That ATTG pushes its records one by one, and waits in the
word while the deque is full, is log entry 25.) -/
def Obligations.PrefetchFellingAttention : Prop :=
  (∀ (s t : State) (a b : GIdx) (r o : Nat) (q : Prefetch) (l : List Prefetch),
    let x : Word64 := (s.me.rg a).word
    let w : Prefetch :=
      { pid := s.me.pid, tree := field x 24 4, record := field x 0 24, gen := x.extractLsb' 28 16, layer := field x 44 12
        pkg := s.me.ctl.pkg, dst := BitVec.ofNat 12 r, off := BitVec.ofNat 19 o }
    ((s.me.rg b).tag = true → field x 56 8 = 0 →
      localOperand s (s.me.rg b) (s.me.rg b).word 64 (permStore ||| permAtomic) 64 = .ok (.here r o, t) →
      (s.lazy = true → exec (.kvpin a b) s = .next ({ t with prefetch := t.prefetch ++ [w] }.modMe Core.next)) ∧
      (s.lazy = false → exec (.kvpin a b) s = .next ((servePrefetch t w).modMe Core.next)) ∧
      exec (.kvunpin a b) s = .next (takeTrap s s.rank (trapS 0x07 0#64))) ∧
    (∀ p u t, s.prefetch = q :: l → s.part? q.pid = some p →
      let sends (w : State) (code pset : Nat) : Prop :=
        let g : Arrival :=
          { dst := q.dst, off := q.off, kind := .pin, srcPkg := s.me.ctl.pkg.setWidth 32, srcCore := 0xFFFF#16, entry := 0#14
            bytes := leBytes 1 code ++ List.replicate 7 0#8 ++ leBytes 8 pset ++ List.replicate 48 0#8 }
        (q.pkg = s.me.ctl.pkg →
          exec .kvPrefetchServe s = .next (w.hubTo q.pid q.dst.toNat (.taggedArrival g) fun v => arrive v g)) ∧
        (q.pkg ≠ s.me.ctl.pkg → exec .kvPrefetchServe s = .next (w.launch q.pid hubRank q.pkg q.dst (.tagged g)))
      let stale : Prop := t.live q.record = false ∨ (t.srec q.record).gen ≠ q.gen ∨ t.layers ≤ q.layer
      let t1 : Tree := t.adjust q.record fun r => { r with hold := min (2 ^ 32 - 1) (r.hold + 1) }
      let t2 : Tree := t1.adjust q.record fun r => { r with hold := r.hold - 1 }
      (validTree { s with prefetch := l } p q.tree = (none, u) → sends u 2 0) ∧
      (validTree { s with prefetch := l } p q.tree = (some t, u) →
        (stale → sends u 1 0) ∧
        (∀ u1 u2, ¬stale → commit u p t t1 [] = (true, u1) → commit u1 p t1 t2 [] = (true, u2) → sends u2 0 (t.pset q.record)))) ∧
    (s.prefetch = q :: l → exec .kvPrefetchServe s = .next (servePrefetch { s with prefetch := l } q)) ∧
    (s.prefetch = [] → exec .kvPrefetchServe s = .next s)) ∧
  (∀ (s : State) (pid tree : Nat) (i : BitVec 6) (e : FellEntry) (l : List FellEntry),
    (∀ t, (s.trees.find? fun t => t.pid == pid && t.index == tree) = some t →
      (t.valid = false ∨ t.lowmark ≤ t.freeRecs → exec (.fellPropose pid tree) s = .next s) ∧
      (t.valid = true → t.freeRecs < t.lowmark → ∃ u, exec (.fellPropose pid tree) s = .next u ∧
        u.fells.length ≤ max s.fells.length 64 ∧ s.fells <+: u.fells ∧ u.trees = s.trees ∧
        ∀ x ∈ u.fells, x ∉ s.fells → x.confirmed = false ∧ x.due = s.cycle + s.fellctl.toNat ∧ queued s t x.record = false)) ∧
    (s.fells[i.toNat]? = some e →
      exec (.fellDeadlineExpiry i) s = .next { s with
        fells := s.fells.set i.toNat (if e.due ≤ s.cycle then { e with expired := true } else e) } ∧
      exec (.fellactConfirm i) s = .next { s with fells := s.fells.set i.toNat { e with confirmed := true } } ∧
      exec (.fellactMoveFront i) s = .next { s with fells := e :: s.fells.eraseIdx i.toNat } ∧
      (∃ u, exec (.fellactVeto i) s = .next u ∧ u.fells = s.fells.eraseIdx i.toNat) ∧
      (∀ t n p, (s.trees.find? fun t => t.pid == e.pid && t.index == e.tree) = some t → t.node e.node = some n →
        s.part? e.pid = some p → exec (.fellactVeto i) s = .next (commit { s with fells := s.fells.eraseIdx i.toNat } p t
          (t.setNode { n with lastUse := BitVec.ofNat 32 (s.cycle / 1024) }) []).2)) ∧
    (s.fells[i.toNat]? = none → exec (.fellDeadlineExpiry i) s = .next s ∧ exec (.fellactConfirm i) s = .next s ∧
      exec (.fellactMoveFront i) s = .next s ∧ exec (.fellactVeto i) s = .next s) ∧
    (s.fells = e :: l →
      (e.confirmed = false → e.expired = false → exec .fellExecute s = .next s) ∧
      (e.confirmed = true ∨ e.expired = true → fellable s e = none → exec .fellExecute s = .next { s with fells := l }) ∧
      (∀ t n p, e.confirmed = true ∨ e.expired = true → fellable s e = some (t, n) → s.part? e.pid = some p →
        exec .fellExecute s = .next
          (commit { s with fells := l } p t ((t.remove n).prune true (t.nodes.length + 1) n.parent) []).2) ∧
      (e.confirmed = true ∨ e.expired = true → ∃ u, exec .fellExecute s = .next u ∧ u.fells = l))) ∧
  (∀ (s t r q w1 w2 : State) (a : GIdx) (k : Chunk) (p : Part) (key : Nat) (v : View) (z : Tree) (rs : List Nat),
    let x : Word64 := (s.me.rg a).word
    let e : State := settleFor t s.rank x [k]
    let g : AttDesc := attDesc e k.key
    let map : Nat := localKey q.rank g.map
    let m : State := settleFor q q.rank (BitVec.ofNat 64 (0xD * 2 ^ 52 + g.map)) [ownChunk q.rank g.map ((g.blocks + 3) / 4)]
    let bad : Bool := q.poisoned k.key 64 || m.poisoned map ((g.blocks + 3) / 4)
    let bl : List (Nat × Nat) := attBlocks m map g.blocks
    let u : State := perform m .pkg
    let z1 : Tree := rs.foldl (fun t r => t.adjust r fun y => { y with hold := min (2 ^ 32 - 1) (y.hold + 1) }) z
    access s .s (s.me.rg a) x 64 permLoad 64 .own = .ok (.bytes [k], t) →
    ctxCheck e g.ctx = (some (p, key), r) → hubView r p g.ctx = (.ok (v, z), q) →
    (attOk g v z = false → exec (.attg a) s = .next (takeTrap q s.rank (trapS 0x07 x))) ∧
    (attOk g v z = true →
      ((∃ i, i < g.blocks ∧ coarse m map i = 3) →
        exec (.attg a) s = .next (takeTrap m s.rank (trapS 0x13 (BitVec.ofNat 64 (0xD * 2 ^ 52 + g.map))))) ∧
      ((∀ i, i < g.blocks → coarse m map i ≠ 3) → bad = true → exec (.attg a) s = .next (takeTrap m s.rank (trapS 0x0D x))) ∧
      ((∀ i, i < g.blocks → coarse m map i ≠ 3) → bad = false → releaseReady m .pkg = true → u.pushesDone u.rank = true →
        dReleasing u u.me.posS = false → acquireReady u u.rank = true →
        readEntries (acquire u u.rank) p v z (bl.map fun b => g.first + b.1) = (.ok rs, w1) → commit w1 p z z1 [] = (true, w2) →
        let slot : Nat := localKey w2.rank g.work
        let merge : Record :=
          { Record.zero with
            argA := g.arg, argB := GVal.ofNat (g.first + g.blocks * 2 ^ 32), entry := g.merge, wid := BitVec.ofNat 64 bl.length
            done := g.done, ctx := g.ctx, count := BitVec.ofNat 32 bl.length, flags := if bl = [] then 0#16 else 0x0008#16 }
        let block (b : (Nat × Nat) × Nat) : Record :=
          { Record.zero with
            argA := g.arg
            argB := GVal.ofNat ((z1.pset b.2 + 2 * g.layer * 65536) % 2 ^ 64 + viewOf v.len (g.first + b.1.1) * 2 ^ 64 + b.1.2 * 2 ^ 80 +
              z1.operand b.2 * 2 ^ 84)
            entry := g.entry, wid := BitVec.ofNat 64 (g.first + b.1.1), done := w2.coordAddr w2.rank g.work, ctx := g.ctx }
        let all : List (Nat × Record) := (bl.zip rs).reverse.map fun b => (slot + 64 + 64 * b.1.1, block b)
        (bl = [] → exec (.attg a) s = .next (pushOwn (putRecord w2 slot merge) [merge])) ∧
        (bl ≠ [] → exec (.attg a) s =
          .next (pushOwn (all.foldl (fun u y => putRecord u y.1 y.2) (putRecord w2 slot merge)) (all.map (·.2)))))) ∧
    (∀ (s : State) (l : List Record),
      (l = [] → pushOwn s l = s.modMe Core.next) ∧
      (∀ y t, l = y :: t → dequeFull s.me = true ∨ s.me.push ≠ [] → pushOwn s l = waitAt s s.rank 0 (.push l true) none) ∧
      (∀ y t, l = y :: t → dequeFull s.me = false → s.me.push = [] → y.pin = false → y.msg = false → y.resume = false →
        pushOwn s l = pushOwn (pushYoung s s.rank y) t)))

/-- 10_vector.md R305 to R311, R313 to R315: every element-wise V word, with masked flags, completes with element j of
its result the word's function of element j of its operands, where it is active and 0 where not, and with the flags of
the active elements and no others (03_numbers.md R82); the table gives the function, the format and the counter's
advance. (Model's choices: The last precision of a special function settles it (log entry 11).) -/
def Obligations.VectorElements : Prop :=
  ∀ (s : State) (w : VWord) (l : List GVal) (i : VIn),
    let N : Nat := w.fmtN
    let W : Nat := w.width
    let two : VForm := { n := w.lanes, wd := W, wa := W, wb := W, ra := .active, rb := .active, lat := 2 }
    let one : VForm := { two with rb := .none }
    let r (j : Nat) : Rnd := rndOf w.rnd.toNat (if w.rnd.toNat = 4 then draw i.ctr i.key j else 0)
    let ar (int : Nat → Nat → Nat → Int) (fp : Nat → Nat → Nat → Rnd → Nat × BitVec 6) (j a b d : Nat) : Nat × BitVec 6 :=
      if isInt N then ((int a b d % 2 ^ W).toNat, 0#6) else fp a b d (r j)
    let plain (f : Nat → Nat → Nat) (_j a b _d : Nat) : Nat × BitVec 6 := (f a b, 0#6)
    let special (f : Special) (_j a _b _d : Nat) : Nat × BitVec 6 := f.eval N a
    let code : Nat := w.cvtCode.toNat
    let q : Nat := 1024 / max W 32
    ∀ e ∈ ([
      (Instr.vadd w, two, w.draws w.lanes, ar (fun a b _ => a + b) fun a b _ m => addF N a b m),
      (.vsub w, two, w.draws w.lanes, ar (fun a b _ => a - b) fun a b _ m =>
        let x := addVal (unpack N a) (unpack N b).negate m
        let y := roundVal N x.1 m
        (y.1, x.2 ||| y.2)),
      (.vmul w, { two with lat := 4 }, w.draws w.lanes, ar (fun a b _ => a * b) fun a b _ m => mulF N a b m),
      (.vfma w, { two with lat := 4, rd := true }, w.draws w.lanes, ar (fun a b d => a * b + d) fun a b d m => fmaF N a b d false false m),
      (.vfms w, { two with lat := 4, rd := true }, w.draws w.lanes, ar (fun a b d => a * b - d) fun a b d m => fmaF N a b d false true m),
      (.vfnma w, { two with lat := 4, rd := true }, w.draws w.lanes,
        ar (fun a b d => (d : Int) - a * b) fun a b d m => fmaF N a b d true false m),
      (.vrcp w, { one with lat := 12 }, w.draws w.lanes, ar (fun a _ _ => a) fun a _ _ m => divVal N (.fin false 1 0) (unpack N a) m),
      (.vsqrt w, { one with lat := 12 }, w.draws w.lanes, ar (fun a _ _ => a) fun a _ _ m => sqrtVal N (unpack N a) m),
      (.vdiv w, { two with lat := 12 }, w.draws w.lanes, ar (fun a _ _ => a) fun a b _ m => divVal N (unpack N a) (unpack N b) m)] ++
      [(.vmin w, two, 0, fun _ a b _ => minMax N false a b), (.vmax w, two, 0, fun _ a b _ => minMax N true a b),
      (.vabs w, one, 0, plain fun a _ => absBits N a), (.vneg w, one, 0, plain fun a _ => negBits N a),
      (.vcmp w, two, 0, fun _ a b _ =>
        let x := compare_ w.rnd.toNat (unpack N a) (unpack N b)
        (x.1.toNat, x.2)),
      (.vsel w, { two with sel := true }, 0, fun j a b _ => (if (s.me.rp w.pred).getLsbD j then a else b, 0#6)),
      (.vand w, two, 0, plain fun a b => a &&& b), (.vor w, two, 0, plain fun a b => a ||| b),
      (.vxor w, two, 0, plain fun a b => a ^^^ b), (.vnot w, one, 0, plain fun a _ => 2 ^ W - 1 - a),
      (.vshl w, two, 0, plain fun a b => if W ≤ b then 0 else a * 2 ^ b % 2 ^ W),
      (.vshr w, two, 0, plain fun a b => if W ≤ b then 0 else a / 2 ^ b),
      (.vsra w, two, 0, plain fun a b => sraBits W a b)] ++
      [(.vexp w, { one with lat := 12 }, 0, special .exp), (.vlog w, { one with lat := 12 }, 0, special .log),
      (.vsin w, { one with lat := 12 }, 0, special .sin), (.vcos w, { one with lat := 12 }, 0, special .cos),
      (.vtanh w, { one with lat := 12 }, 0, special .tanh), (.vsig w, { one with lat := 12 }, 0, special .sig),
      (.vrsq w, { one with lat := 12 }, 0, fun _ a _ _ => rsqrtVal N (unpack N a)),
      (.vqnt w, { n := q, wd := W, wa := 32, wb := 32, ra := .active, rb := .active, lat := 4 }, w.draws q,
        fun j a b _ => vqnt N (unpack 10 a) (unpack 10 b) (r j)),
      (.vdqnt w, { n := q, wd := 32, wa := W, wb := 32, ra := .active, rb := .active, lat := 4 }, w.draws q,
        fun j a b _ => vdqnt (unpack N a) (unpack 10 b) (r j)),
      (.viota w, { one with ra := .none }, 0, fun j _ _ _ => (if isInt N then j else (roundVal N (Val.ofInt j) .rne).1, 0#6))] ++
      [(.vperm w, { two with ra := .all, lat := 4 }, 0, fun j _ _ _ => (i.a.getD (i.b.getD j 0 % w.lanes) 0, 0#6)),
      (.vbcast w, { two with ra := .all, rb := .first }, 0, fun _ _ _ _ => (i.a.getD (i.b.getD 0 0 % w.lanes) 0, 0#6)),
      (.vslide w, { two with ra := .all, rb := .first }, 0, fun j _ _ _ =>
        let k : Int := (j : Int) + (BitVec.ofNat W (i.b.getD 0 0)).toInt
        (if 0 ≤ k ∧ k < w.lanes then i.a.getD k.toNat 0 else 0, 0#6)),
      (.pand w, { n := 128, wd := 1, wa := 1, wb := 1, ra := .all, rb := .all, lat := 1 }, 0, plain fun a b => a * b),
      (.por w, { n := 128, wd := 1, wa := 1, wb := 1, ra := .all, rb := .all, lat := 1 }, 0, plain fun a b => max a b),
      (.pnot w, { n := 128, wd := 1, wa := 1, wb := 1, ra := .all, rb := .none, lat := 1 }, 0, plain fun a _ => 1 - a)] ++
      (if (blockM code).isNone then
        let n : Nat := 1024 / max W (fmtBits code)
        [(.vcvt w, { n := n, wd := fmtBits code, wa := W, wb := W, ra := .active, rb := .none, lat := 4 }, w.draws n,
          fun j a _ _ => convert N code a (r j))]
      else []) : List (Instr × VForm × Nat × (Nat → Nat → Nat → Nat → Nat × BitVec 6))),
      VRuns s e.1 w e.2.1 l i → FlagsMasked (vAt s e.1 l) →
      ∃ o, VEnds s e.1 w e.2.1 l o ∧ o.adv = e.2.2.1 ∧ o.whole = none ∧ o.res.length = e.2.1.n ∧
        (∀ j, j < e.2.1.n → o.res.getD j 0 =
          if i.act.getD j false then (e.2.2.2 j (i.a.getD j 0) (i.b.getD j 0) (i.d.getD j 0)).1 else 0) ∧
        ∀ b, o.flags.getLsbD b = true ↔ ∃ j, j < e.2.1.n ∧ i.act.getD j false = true ∧
          (e.2.2.2 j (i.a.getD j 0) (i.b.getD j 0) (i.d.getD j 0)).2.getLsbD b = true

/-- 10_vector.md R310, R312, R316 to R320, R322: the other V words on operands that pass. A reduction folds the active
elements in ascending order into lane 0; VRNG draws the counter's bits and moves it by 8; the moves carry elements of
A; a block conversion makes 32 elements a block; VMOVGS writes one lane of D; VMOVSG and PCNT write their general
register; VMAXX outside a group copies A and in a group sends its contribution and waits. -/
def Obligations.VectorWords : Prop :=
  ∀ (s : State) (w : VWord) (l : List GVal) (i : VIn),
    let N : Nat := w.fmtN
    let W : Nat := w.width
    let one : VForm := { n := w.lanes, wd := W, wa := W, wb := W, ra := .active, rb := .none, lat := 12 }
    let k : Caps := capsOf (vFields w) l
    let fold (empty : Nat) (g : Nat → Nat → Nat × BitVec 6) : VOut :=
      let live : List Nat := ((i.a.zip i.act).filter (·.2)).map (·.1)
      let r : Nat × BitVec 6 := match live with
        | [] => (empty, 0#6)
        | x :: t => t.foldl (fun y z => let q := g y.1 z; (q.1, y.2 ||| q.2)) (x, 0#6)
      { res := r.1 :: List.replicate (w.lanes - 1) 0, flags := r.2 }
    let runs (op : Instr) (f : VForm) : Prop := VRuns s op w f l i ∧ FlagsMasked (vAt s op l)
    (let f : VForm := { one with full := true, lat := 8 }
     (runs (.vsum w) f →
       VEnds s (.vsum w) w f l (fold 0 fun x y => if isInt N then ((x + y) % 2 ^ W, 0#6) else addF N x y (rndOf w.rnd.toNat 0))) ∧
     (runs (.vrmax w) f → VEnds s (.vrmax w) w f l
        (fold (if isInt N then (intMin N % 2 ^ W).toNat else infBits N true) fun x y => minMax N true x y)) ∧
     (runs (.vrmin w) f → VEnds s (.vrmin w) w f l
        (fold (if isInt N then (intMax N % 2 ^ W).toNat else infBits N false) fun x y => minMax N false x y))) ∧
    (runs (.vrng w) { one with ra := .none, lat := 4 } →
       VEnds s (.vrng w) w { one with ra := .none, lat := 4 } l { res := lanesOf (randomReg i.ctr i.key) W w.lanes, adv := 8 }) ∧
    (∀ e ∈ [(Instr.vld w, { one with lat := 6, mem := true }), (.vlds w, { one with lat := 6, mem := true }),
       (.vst w, { one with lat := 1, mem := true }), (.vsts w, { one with lat := 1, mem := true }),
       (.vgth w, { one with rb := .active, lat := 8, idxA := true, mem := true }),
       (.vsct w, { one with rb := .active, lat := 1, idxD := true, mem := true })],
       runs e.1 e.2 → VEnds s e.1 w e.2 l { res := i.a }) ∧
    (∀ m, blockM w.cvtCode.toNat = some m → runs (.vcvt w) { one with lat := 4 } →
       let bound : List Val := if w.cap1 = 0#6 then [] else [unpack 10 (k.c1.bits.toNat % 2 ^ 32)]
       let r : List Byte × BitVec 6 := blocksOf i w m bound (w.lanes / 32) 0
       VEnds s (.vcvt w) w { one with lat := 4 } l
        { res := [], whole := some (leNat r.1), flags := r.2, adv := w.draws w.lanes }) ∧
    (runs (.vmovgs w) { one with ra := .none, rd := true, lat := 2 } →
       VEnds s (.vmovgs w) w { one with ra := .none, rd := true, lat := 2 } l
        { res := i.d.set (k.c2.bits.toNat % w.lanes) (k.c1.bits.toNat % 2 ^ W) }) ∧
    (let u : State := vAt s (.vmaxx w) l
     runs (.vmaxx w) { one with ra := .all, lat := 1 } →
      (u.me.ctl.scgrp.getLsbD 31 = false → VEnds s (.vmaxx w) w { one with ra := .all, lat := 1 } l { res := i.a }) ∧
      (u.me.ctl.scgrp.getLsbD 31 = true → ∃ t x, exec (.vmaxx w) s = .next t ∧ x ∈ t.maxx ∧
        x.core = u.rank ∧ x.fmt = w.fmt ∧ x.value = BitVec.ofNat 1024 (joinLanes W i.a) ∧
        x.round.toNat = field u.me.ctl.scgrp 16 8 ∧ t.me.maxx.isSome = true ∧ t.me.v = u.me.v ∧
        field t.me.ctl.scgrp 16 8 = (field u.me.ctl.scgrp 16 8 + 1) % 256)) ∧
    (let cd : Caps := capsOf (vDestFields w) l
     let run (op : Instr) (f : VForm) : Prop :=
       s.me.engCaptured .v = some l ∧ s.me.nestV = none ∧ s.me.maxx = none ∧ vReady s op w l = true ∧
       vRead (vAt s op l) w cd f = .ok (some i) ∧ popsOf (vAt s op l).me w f = []
     let gives (u t : State) (n : Nat) : Prop :=
       OnlyMe u t ∧ SameBytes u t ∧ (w.cap1 ≠ 0#6 → t.me.rg w.cap1 = { bits := BitVec.ofNat 128 n, tag := false }) ∧
       (∀ j, j ≠ w.cap1 → t.me.rg j = u.me.rg j) ∧ (u.me.nestV = none → t.me.pcV = u.me.pcV + 12#64) ∧ t.me.ctl = u.me.ctl
     (run (.vmovsg w) { one with ra := .all, lat := 1 } →
       ∃ t, exec (.vmovsg w) s = .next t ∧ gives (vAt s (.vmovsg w) l) t (i.a.getD (cd.c2.bits.toNat % w.lanes) 0)) ∧
     (run (.pcnt w) { n := w.lanes, wd := 1, wa := 1, wb := 1, ra := .all, rb := .none, lat := 1 } →
       ∃ t, exec (.pcnt w) s = .next t ∧ gives (vAt s (.pcnt w) l) t (((i.a.zip i.act).filter fun x => x.1 == 1 && x.2).length)))

/-- 10_vector.md R291, R292, R295: what a V word reads. With register operands it reads their lanes and no check is
made; a capture register gives every lane its low bits, a predicate register lane j bit j. An element in local memory
is read at its own address; of several that fail their checks the trap is that of the lowest cause, and of those of
the lowest element; a poisoned element is a machine check. (Model's choices: The order of specifiers at equal causes
and elements is log entry 50.) -/
def Obligations.VectorOperands : Prop :=
  ∀ (s : State) (w : VWord) (k : Caps) (f : VForm),
    let c : Core := s.me
    let act : List Bool := actBits f.n (vActive w c f) false
    let val (sp : VSpec) (wd j : Nat) : Nat := match sp with
      | .vreg v => (c.rv v).toNat / 2 ^ (wd * j) % 2 ^ wd
      | .cap1 => k.c1.bits.toNat % 2 ^ wd
      | .cap2 => k.c2.bits.toNat % 2 ^ wd
      | .preg p => (c.rp p).toNat / 2 ^ j % 2
      | .loc _ _ _ _ => 0
    let accs : List Acc × List Acc × List Acc := wordAccs s w k f
    let all : List Acc := accs.1 ++ accs.2.1 ++ accs.2.2
    0 < f.n → popsOf c w f = [] → boundDest c w.d = false →
    (w.local_ = false → ∃ i, vRead s w k f = .ok (some i) ∧ i.act = act ∧ i.ctr = c.ctl.rngctr ∧ i.key = c.ctl.rngkey ∧
      (∀ j, j < f.n → (f.ra ≠ .none → i.a.getD j 0 = val w.a f.wa j) ∧ (f.rb ≠ .none → i.b.getD j 0 = val w.b f.wb j) ∧
        (f.rd = true → i.d.getD j 0 = val w.d f.wd j))) ∧
    (∀ j, j < f.n → (act.getD j false = true ↔ (w.pred = 0#3 ∨ f.sel = true ∨ (c.rp w.pred).getLsbD j = true))) ∧
    (∀ a ∈ all, ∀ t u, a.check s = .trap t u → ∃ x, vRead s w k f = .trap x s ∧ x.cause.toNat ≤ t.cause.toNat ∧
      ∃ b ∈ all, (∃ v, b.check s = .trap x v) ∧ (x.cause = t.cause → b.i ≤ a.i)) ∧
    ((∀ a ∈ all, ∃ x, a.check s = .ok x) →
      ((∀ a ∈ all, a.reads = true → s.poisoned (a.place s) a.n = false) →
        ∃ i, vRead s w k f = .ok (some i) ∧
          (w.a.isLoc = true → f.ra ≠ .none → ∀ a ∈ accs.2.1, i.a.getD a.i 0 = s.mem.readNat (a.place s) a.n)) ∧
      (∀ a ∈ all, a.reads = true → s.poisoned (a.place s) a.n = true → ∃ x, vRead s w k f = .trap (mkTrap .v 0x0D x) s))

/-- 10_vector.md R293 to R297, R304, 03_numbers.md R73, R74, R88: the effects of a V word that has computed its
elements. With an enabled flag it traps with its flags set and writes nothing else. Otherwise its flags are set, the
counter moves, an active element of the destination takes its result and an inactive one keeps its value, or is zero
with the zeroing form; a register takes them through a latch after the word's latency; a register destination leaves
every byte of memory and a local one every byte outside its elements; the general file changes only by post-updates
(or where a store wakes a core that waits on a monitor); every older latch comes one step nearer. -/
def Obligations.VectorEffect : Prop :=
  ∀ (s : State) (op : Instr) (w : VWord) (k : Caps) (l : List GVal) (f : VForm) (o : VOut),
    let lat : Nat := f.lat + (if !f.mem && (w.a.isLoc || w.b.isLoc) then 6 else 0)
    let act : List Bool := actBits f.n (vActive w s.me f) f.full
    let accs : List Acc := (wordAccs s w k f).1
    let new (old wd j : Nat) : Nat :=
      if act.getD j false then o.res.getD j 0 % 2 ^ wd else if w.pz then 0 else old / 2 ^ (wd * j) % 2 ^ wd
    let trapped : Prop := o.flags.setWidth 32 &&& (s.me.ctl.arflg >>> 16) &&& 0x3F#32 ≠ 0#32
    (trapped → vFinish s op w k l f o = .trap (mkTrap .v 0x0B 0#64)
      (s.modMe fun c => c.modCtl fun r => { r with arflg := r.arflg ||| o.flags.setWidth 32 })) ∧
    (¬trapped → popsOf s.me w f = [] → 0 < f.wd → 0 < f.n → f.n * f.wd ≤ 1024 → o.res.length = f.n →
      ∃ t, vFinish s op w k l f o = .ok t ∧
        t.me.ctl.arflg = s.me.ctl.arflg ||| o.flags.setWidth 32 ∧ t.me.ctl.rngctr = s.me.ctl.rngctr + BitVec.ofNat 128 o.adv ∧
        t.me.tile = s.me.tile ∧ t.me.acc = s.me.acc ∧ t.me.mail = s.me.mail ∧ t.me.pres = s.me.pres ∧ t.me.hw = s.me.hw ∧
        t.rank = s.rank ∧ (∀ q, q ≠ s.rank → (t.coreAt q).v = (s.coreAt q).v ∧
          ((s.coreAt q).blocked = none → (t.coreAt q).g = (s.coreAt q).g)) ∧
        ((w.d.isLoc = false ∨ s.me.blocked = none) → ∀ g, g ∉ (w.d.postBase.toList ++ w.a.postBase.toList ++ w.b.postBase.toList).map (·.setWidth 6) → t.me.rg g = s.me.rg g) ∧
        (w.d.isLoc = false → OnlyMe s t ∧ SameBytes s t) ∧
        (w.d.isLoc = true →
          t.mem = accs.foldl (fun m (a : Acc) => m.write (a.place s) (leBytes a.n (o.res.getD a.i 0))) s.mem ∧
          ∀ x, (∀ a ∈ accs, x < a.place s ∨ a.place s + a.n ≤ x) → t.mem.get x = s.mem.get x) ∧
        (∀ v, w.d = .vreg v → o.whole = none → ∃ y : VReg,
          (∀ j, j < f.n → y.toNat / 2 ^ (f.wd * j) % 2 ^ f.wd = new (s.me.rv v).toNat f.wd j) ∧
          (1 < lat → { isPred := false, index := v, remain := lat - 1, value := y } ∈ t.me.latches) ∧
          (lat = 1 → t.me.rv v = y)) ∧
        (∀ p, w.d = .preg p → o.whole = none → f.n ≤ 128 → ∃ y : BitVec 128,
          (∀ j, j < f.n → y.toNat / 2 ^ j % 2 = new (s.me.rp p).toNat 1 j) ∧
          (1 < lat → { isPred := true, index := p.setWidth 5, remain := lat - 1, value := y.setWidth 1024 } ∈ t.me.latches) ∧
          (lat = 1 → t.me.rp p = y)) ∧
        (∀ x ∈ s.me.latches, 2 ≤ x.remain → { x with remain := x.remain - 1 } ∈ t.me.latches) ∧
        (∀ v, (∀ x ∈ s.me.latches, x.isPred = false → x.index = v → 2 ≤ x.remain) → (w.d = .vreg v → 1 < lat) →
          t.me.rv v = s.me.rv v))

/-- 10_vector.md R322 to R324, 12_copy.md R363: the events of the V engine. VMAXX_RELEASE releases a round only when
it is decided, and then both members of a group of two take the element-wise maximum of their contributions and go on;
the watchdog fails the waiting word with machine check after GRPWD cycles and leaves its destination; the D engine
asks for at most 4 strips ahead of a stream's pops, reads them after every access before the binding, and a strip that
has been read stands behind the others; one whose page is in transit waits, and is marked with cause 0x0C at the limit
(06_ordering.md R206). (Model's choices: The answer of a clash of groups is log entry 37, and that a disagreement is
over when every member has its answer log entry 84.) -/
def Obligations.VectorEvents : Prop :=
  ∀ (s : State) (m : MaxxWait) (x : Contribution) (i : BitVec 3),
    let b : Binding := s.me.rbind i
    (s.me.maxx = none → exec .vmaxxWatchdogExpiry s = .next s) ∧
    (s.me.maxx = some m → maxxPaused s s.rank = false → s.me.ctl.grpwd.toNat ≤ m.waited →
      exec .vmaxxWatchdogExpiry s = .next (takeTrap
        ({ s with maxx := s.maxx.filter fun y => !(y.core == s.rank && y.round == m.round) }.modMe fun c =>
          { c.modCtl fun q => { q with scgrp := setField q.scgrp 31 1 0 } with maxx := none }) s.rank (mkTrap .v 0x0D 0#64))) ∧
    (s.me.maxx = some m → maxxPaused s s.rank = true ∨ m.waited < s.me.ctl.grpwd.toNat →
      exec .vmaxxWatchdogExpiry s = .next s) ∧
    ((s.maxx.find? fun y => y.core == s.rank && (s.me.maxx.map (·.round)) == some y.round) = some x →
      (maxxDecided s x = none → exec .vmaxxRelease s = .next s) ∧
      ∀ (y : Contribution) (w u : VWord) (k l : List GVal) (g h : Nat) (p q : BitVec 5),
        let c : Core := s.coreAt y.core
        let W : Nat := fmtBits x.fmt.toNat
        let lane (v : VReg) (j : Nat) : Nat := v.toNat / 2 ^ (W * j) % 2 ^ W
        maxxDecided s x = some ([x, y], false) → y.core ≠ s.rank → y.fmt = x.fmt → s.me.nestV = none → c.nestV = none →
        s.me.maxx = some { op := .vmaxx w, caps := k, round := x.round, waited := g } →
        c.maxx = some { op := .vmaxx u, caps := l, round := y.round, waited := h } →
        (∀ e ∈ [(s.me, w, p), (c, u, q)], popsOf e.1 e.2.1 (maxxForm e.2.1) = [] ∧ e.2.1.d = .vreg e.2.2 ∧ e.2.1.a.isLoc = false ∧
          e.2.1.b.isLoc = false ∧ e.2.1.pred = 0#3 ∧ e.2.1.fmt = x.fmt ∧ (e.1.ctl.arflg >>> 16) &&& 0x3F#32 = 0#32) →
        ∃ t, exec .vmaxxRelease s = .next t ∧ t.maxx = s.maxx.filter (fun z => !x.same z) ∧
          t.me.maxx = none ∧ (t.coreAt y.core).maxx = none ∧
          t.me.pcV = s.me.pcV + 12#64 ∧ (t.coreAt y.core).pcV = c.pcV + 12#64 ∧
          ∀ j, j < 1024 / W → lane (t.me.rv p) j = (minMax x.fmt.toNat true (lane x.value j) (lane y.value j)).1 ∧
            lane ((t.coreAt y.core).rv q) j = (minMax x.fmt.toNat true (lane x.value j) (lane y.value j)).1) ∧
    (b.mode = 1#2 → b.asked < b.count + 4 → b.asked < strmTotal b.desc → b.stopped = false →
      exec (.streamStripFetch i) s = .next (s.setMe (s.me.wbind i { b with asked := b.asked + 1 }))) ∧
    (b.mode ≠ 1#2 ∨ b.count + 4 ≤ b.asked ∨ strmTotal b.desc ≤ b.asked ∨ b.stopped = true →
      exec (.streamStripFetch i) s = .next s) ∧
    (let t : State := stripOrder s i
     let z : Binding := t.me.rbind i
     let k : Nat := z.count + z.ahead.length
     (b.after = none → t = s) ∧
     (∀ p, b.after = some p → stripReady s p = true → z.after = none) ∧
     (z.after ≠ none → exec (.streamStripReturn i) s = .next t) ∧
     (z.mode = 1#2 → k < z.asked → z.stopped = false → z.after = none → stripHeld t z k = none →
       let y : Strip × State := readStrip t z k
       exec (.streamStripReturn i) s = .next (y.2.modMe fun c => c.wbind i { z with ahead := z.ahead ++ [y.1], since := none })) ∧
     (∀ va, z.mode = 1#2 → k < z.asked → z.stopped = false → z.after = none → stripHeld t z k = some (.ownTransit va) →
       exec (.streamStripReturn i) s = .next (t.modMe fun c => c.wbind i
         (if z.since.getD t.cycle + c.ctl.ownwait.toNat ≤ t.cycle then
            { z with ahead := z.ahead ++ [.faulted (mkTrap .v 0x0C va)], since := none }
          else { z with since := some (z.since.getD t.cycle) }))))

/-- 11_matrix.md R330, R332 to R334, R343, R345, R346, R348, R349: the M words that touch no memory, or memory that
answers with bytes, at a walker where they may start: the word has its effect, stands among the started words with its
flags and token, and the walker is past it. TCFG sets a shape, TZERO clears, TTR transposes, TLD and TST move a tile's
image, ACCLD and ACCST a whole accumulator, ACCCVT a converted window into a tile. (Model's choices: The effect of an
M word happens when it starts (log entry 6); FP32 NaNs in ACCCVT are log entry 57, and its codes 4 to 7 of RND are a
free draw (log entry 96).) -/
def Obligations.MatrixResults : Prop :=
  ∀ (s u : State) (w : MWord) (l : List GVal) (t : Target),
    let k : Caps := capsOf (mFields w) l
    let xa : Shape := s.me.shape (tileOf w.a)
    w.nb = false →
    (MStarts s (.tcfg w) l → exec (.tcfg w) s = MAfter (s.modMe fun c => c.setShape (tileOf w.d)
      (BitVec.ofNat 32 (w.shape.fmt.toNat + w.shape.rows.toNat * 2 ^ 5 + w.shape.cols.toNat * 2 ^ 12))) (.tcfg w) 0#6) ∧
    (MStarts s (.tzero w) l → exec (.tzero w) s = MAfter (s.modMe fun c =>
      if w.d.isTile then c.wtile (tileOf w.d) [] else c.wacc (accOf w.d) []) (.tzero w) 0#6) ∧
    (MStarts s (.ttr w) l →
      (xa.fmt = 0 ∨ (blockM xa.fmt).isSome = true → exec (.ttr w) s = .next (takeTrap s s.rank (mkTrap .m 0x01 0#64))) ∧
      (xa.fmt ≠ 0 → (blockM xa.fmt).isSome = false → ∃ v, exec (.ttr w) s = MAfter v (.ttr w) 0#6 ∧ OnlyMe s v ∧ SameBytes s v ∧
        v.me.shape (tileOf w.d) = { fmt := xa.fmt, rows := xa.cols, cols := xa.rows } ∧
        ∀ i j, i < xa.rows → j < xa.cols →
          let b : Nat := fmtBits xa.fmt / 8
          (v.me.rtile (tileOf w.d)).readNat (b * (xa.rows * j + i)) b = (s.me.rtile (tileOf w.a)).readNat (b * (xa.cols * i + j)) b)) ∧
    (MStarts s (.tld w) l →
      let s0 : State := mAt s (.tld w) l
      ((s0.me.shape (tileOf w.d)).fmt = 0 ∨ fmtMatches w.a (s0.me.shape (tileOf w.d)) = false →
        exec (.tld w) s = .next (takeTrap s0 s.rank (mkTrap .m 0x01 0#64))) ∧
      ((s0.me.shape (tileOf w.d)).fmt ≠ 0 → fmtMatches w.a (s0.me.shape (tileOf w.d)) = true →
      let n : Nat := (s0.me.shape (tileOf w.d)).bytes
      ∀ c, mspec s0 none w.a k.a n permLoad = .ok (.bytes [c], u) → c.len = n →
      let v : State := engSettle u (specAddr none w.a k.a) [c]
      (v.chunksPoisoned [c] = true → exec (.tld w) s = .next (takeTrap v s.rank (mkTrap .m 0x0D (specAddr none w.a k.a)))) ∧
      (v.chunksPoisoned [c] = false →
      ∃ z, exec (.tld w) s = MAfter z (.tld w) 0#6 ∧ z = v.modMe (fun e => e.wtile (tileOf w.d) (z.me.rtile (tileOf w.d))) ∧
        (∀ b, b < n → (z.me.rtile (tileOf w.d)).get b = v.mem.get (c.key + b)) ∧
        ∀ b, n ≤ b → (z.me.rtile (tileOf w.d)).get b = (v.me.rtile (tileOf w.d)).get b))) ∧
    (MStarts s (.tst w) l →
      let s0 : State := mAt s (.tst w) l
      (s0.me.shape (tileOf w.a)).fmt ≠ 0 → fmtMatches w.d (s0.me.shape (tileOf w.a)) = true →
      let n : Nat := (s0.me.shape (tileOf w.a)).bytes
      mspec s0 none w.d k.d n permStore = .ok (t, u) →
      exec (.tst w) s =
        MAfter (engWrite u (specAddr none w.d k.d) n t { bytes := (s0.me.rtile (tileOf w.a)).slice 0 n }) (.tst w) 0#6) ∧
    (MStarts s (.accld w) l → ∀ c, mspec (mAt s (.accld w) l) none w.a k.a 65536 permLoad = .ok (.bytes [c], u) → c.len = 65536 →
      let v : State := engSettle u (specAddr none w.a k.a) [c]
      v.chunksPoisoned [c] = false →
      ∃ z, exec (.accld w) s = MAfter z (.accld w) 0#6 ∧ z = v.modMe (fun e => e.wacc (accOf w.d) (z.me.racc (accOf w.d))) ∧
        ∀ b, b < 65536 → (z.me.racc (accOf w.d)).get b = v.mem.get (c.key + b)) ∧
    (MStarts s (.accst w) l →
      let s0 : State := mAt s (.accst w) l
      mspec s0 none w.d k.d 65536 permStore = .ok (t, u) →
      exec (.accst w) s = MAfter (engWrite u (specAddr none w.d k.d) 65536 t { bytes := s0.me.racc (accOf w.a) }) (.accst w) 0#6) ∧
    (MStarts s (.acccvt w) l →
      let s0 : State := mAt s (.acccvt w) l
      let o : Word64 := k.c1.word
      let x : Shape := s0.me.shape (tileOf w.d)
      let scale : Bool := s0.me.ctl.mxcfg.getLsbD 31
      let key : Nat := localKey s0.rank (64 * field s0.me.ctl.mxcfg 6 13)
      let rows : List (List Byte × BitVec 6) := (List.range x.rows).map fun j =>
        cvtRow (s0.me.racc (accOf w.a)) (if scale then some (s0.mem.slice key 512) else none) x (field o 16 7 + j) (field o 0 7)
          (rndOf (field s0.me.ctl.mxcfg 24 3) (Config.mxDraw (field s0.me.ctl.mxcfg 24 3)))
      x.fmt ≠ 0 → field o 23 41 = 0 → field o 7 9 = 0 →
      (128 < field o 16 7 + x.rows ∨ 128 < field o 0 7 + x.cols →
        exec (.acccvt w) s = .next (takeTrap s0 s.rank (mkTrap .m 0x07 0#64))) ∧
      (field o 16 7 + x.rows ≤ 128 → field o 0 7 + x.cols ≤ 128 → (scale = true → s0.poisoned key 512 = false) →
        exec (.acccvt w) s = MAfter (s0.modMe fun c => c.wtile (tileOf w.d)
            ((c.rtile (tileOf w.d)).write 0 (rows.map (·.1)).flatten)) (.acccvt w) (rows.foldl (fun f q => f ||| q.2) 0#6)))

/-- 03_numbers.md R98 to R100, 11_matrix.md R347: MMA on configured operand tiles, with no residue mismatch, adds to
every element of the accumulator within both row counts the rounded sum of the products of its two operand rows, and
leaves every other element; a tile that is not configured as an operand is an illegal encoding. 11_matrix.md R342,
R347: MMAM reads its mask record. With both halves 0 it computes nothing; a half of code 1 computes all of its
elements, and of code 2 those of its bitmap; a reserved code is a format error. (Model's choices: Residue mismatches
are an input (log entry 55).) -/
def Obligations.MatrixStep : Prop :=
  (∀ (s : State) (w : MWord) (l : List GVal),
    let ta : Mem := s.me.rtile (tileOf w.a)
    let tb : Mem := s.me.rtile (tileOf w.b)
    let xa : Shape := s.me.shape (tileOf w.a)
    let xb : Shape := s.me.shape (tileOf w.b)
    let old : Mem := s.me.racc (accOf w.d)
    w.nb = false → MStarts s (.mma w) l →
    (xa.stepOk = false ∨ xb.stepOk = false → exec (.mma w) s = .next (takeTrap s s.rank (mkTrap .m 0x01 0#64))) ∧
    (xa.stepOk = true → xb.stepOk = true → s.me.residue = [] →
      ∃ t f, exec (.mma w) s = MAfter t (.mma w) f ∧
        t = s.modMe (fun c => c.wacc (accOf w.d) (t.me.racc (accOf w.d))) ∧
        (∀ i j, i < xa.rows → j < xb.rows → (t.me.racc (accOf w.d)).readNat (512 * i + 4 * j) 4 =
          (stepElement (old.readNat (512 * i + 4 * j) 4) (operandRow ta xa i) (operandRow tb xb j)).1 % 2 ^ 32) ∧
        (∀ b, (xa.rows ≤ b / 512 ∨ 4 * xb.rows ≤ b % 512) → (t.me.racc (accOf w.d)).get b = old.get b)) ∧
    (xa.stepOk = true → xb.stepOk = true → ∀ j j2 r, s.me.residue = j :: j2 :: r →
      ∃ t, exec (.mma w) s = .next (takeTrap t s.rank (mkTrap .m 0x0D 0#64)) ∧ t.me.acc = s.me.acc)) ∧
  (∀ (s u v : State) (w : MWord) (l : List GVal) (t : Target) (m : Mem) (h0 h1 : Half × State),
    let k : Caps := capsOf (mFields w) l
    let s0 : State := mAt s (.mmam w) l
    let x : Word64 := maskAddr none w k.m
    let b : Nat := (m.get 0).toNat
    w.nb = false → MStarts s (.mmam w) l → stepTiles s0.me w = true →
    mspecAt s0 k.m x 64 permLoad true = .ok (t, u) → engRead u .m x 64 t = .ok (m, v) →
    (16 ≤ b ∨ b % 4 = 3 ∨ b / 4 = 3 → exec (.mmam w) s = .next (takeTrap v s.rank (mkTrap .m 0x13 x))) ∧
    (b = 0 → exec (.mmam w) s = MAfter v (.mmam w) 0#6) ∧
    (b < 16 → b % 4 ≠ 3 → b / 4 ≠ 3 → b ≠ 0 → maskHalf v k.m x 0 (b % 4) = .ok h0 → maskHalf h0.2 k.m x 1 (b / 4) = .ok h1 →
      (∀ z f, tileStep w h0.1 h1.1 h1.2 = .ok (z, f) → exec (.mmam w) s = MAfter z (.mmam w) f) ∧
      (h1.2.me.residue = [] → ∃ z f, tileStep w h0.1 h1.1 h1.2 = .ok (z, f)) ∧
      (∀ i j, h0.1.on i j = (b % 4 == 1 || (b % 4 == 2 && (h0.1.bits.get (8 * i + j % 64 / 8)).getLsbD (j % 8))))))

/-- 11_matrix.md R332, R333, R336, R339 to R341, 04_scalar.md R121: nests and the order of M words. A body word of an
armed nest joins its loop buffer and has no effect of its own; NGO past a whole body hands the nest to the address
generators; NGO and NWAIT without a nest start and complete; a nest body word where no nest is armed, and any other
word behind a whole body, are illegal encodings. A started word completes, in any order, with its flags, the NGO of a
nest after the nest's words; a running nest starts its body words one by one, moves its indices, and signals NGO's
token after the last. MWordStart is the step in which the word at the M walker starts. (Model's choices: That a
running nest starts one body word a step is log entry 54.) -/
def Obligations.MatrixNests : Prop :=
  ∀ (s : State) (w : MWord) (l : List GVal) (n : Nest) (m : MStarted) (i : Nat),
    let past (c : Core) : Core := { c with capM := c.capM.drop 1, pcM := c.pcM + 24#64, posM := c.posM + 6#32 }
    (s.me.mHead = some l → s.me.nestM = some n → n.going = false → n.body.length < n.words →
      ∀ i ∈ [Instr.tld w, .tst w, .mma w, .mmam w, .accld w, .accst w, .acccvt w, .tzero w],
        (w.nb = true → ∃ t, exec i s = .next t ∧ OnlyMe s t ∧ t.me.acc = s.me.acc ∧ t.me.tile = s.me.tile ∧ t.me.pcM = (past s.me).pcM ∧
          t.me.nestM = some { n with body := n.body ++ [{ op := i, pc := s.me.pcM, caps := l, pos := s.me.posM }] }) ∧
        (w.nb = false → exec i s = .next (takeTrap s s.rank (mkTrap .m 0x01 0#64)))) ∧
    (s.me.mHead = some l → s.me.nestM = none → w.nb = true → ∀ i ∈ [Instr.tld w, .tst w, .mma w, .mmam w, .accld w, .accst w],
      exec i s = .next (takeTrap s s.rank (mkTrap .m 0x01 0#64))) ∧
    (s.me.mHead = some l → s.me.nestM = some n → n.going = false → n.words ≤ n.body.length → w.nb = false →
      (mTokenDone s.me w.wait s.me.posM = true →
        ∃ t, exec (.ngo w) s = .next t ∧ OnlyMe s t ∧ t.me.pcM = (past s.me).pcM ∧ t.me.mwords = s.me.dropNest.mwords ∧
          t.me.nestM = some { n with going := true, pos := 0, sig := w.sig, ngo := s.me.posM }) ∧
      (mTokenDone s.me w.wait s.me.posM = false → exec (.ngo w) s = .next s)) ∧
    (s.me.mHead = some l → s.me.nestM = some n → n.going = false → n.words ≤ n.body.length →
      ∀ i ∈ [Instr.tcfg w, .tld w, .tst w, .tzero w, .ttr w, .mma w, .mmam w, .accld w, .accst w, .acccvt w],
        exec i s = .next (takeTrap (s.modMe fun c => { c with nestM := none }) s.rank (mkTrap .m 0x01 0#64))) ∧
    (w.nb = false → MStarts s (.ngo w) l → exec (.ngo w) s = MAfter s (.ngo w) 0#6) ∧
    (w.nb = false → MStarts s (.nwait w) l →
      ((∀ y ∈ s.me.mwords, y.nest = false) → exec (.nwait w) s = MAfter s (.nwait w) 0#6) ∧
      ((∃ y ∈ s.me.mwords, y.nest = true) → exec (.nwait w) s = .next s)) ∧
    (s.me.mHead = some l → s.me.nestM = some n → n.going = true → exec (.nwait w) s = .next s) ∧
    (s.me.mwords[i]? = some m → m.ngo = some m.pos → (∃ y ∈ s.me.mwords, y.ngo = m.ngo ∧ y.pos ≠ m.pos) →
      exec (.mWordComplete i) s = .next s) ∧
    (s.me.mwords[i]? = some m → (m.ngo = some m.pos → ∀ y ∈ s.me.mwords, y.ngo = m.ngo → y.pos = m.pos) →
      ∃ t, exec (.mWordComplete i) s = .next t ∧ OnlyMe s t ∧ t.me.mwords = s.me.mwords.eraseIdx i ∧
      t.me.ctl = { s.me.ctl with arflg := s.me.ctl.arflg ||| m.flags.setWidth 32 } ∧ t.me.acc = s.me.acc ∧ t.me.tile = s.me.tile) ∧
    (∀ b, s.me.nestM = some n → n.going = true → n.body[n.pos]? = some b →
      (mReady s (n.place b) n.disp b.op b.caps = false → exec .mNestIteration s = .next s) ∧
      (mReady s (n.place b) n.disp b.op b.caps = true →
      (∀ x u, mStart s (some n) b.op b.caps = .trap x u → exec .mNestIteration s = .next (takeTrap u s.rank x)) ∧
      ∀ u f, mStart s (some n) b.op b.caps = .ok (u, f) →
        ∃ t, exec .mNestIteration s = .next t ∧ t = u.setMe t.me ∧ t.me.acc = u.me.acc ∧ t.me.tile = u.me.tile ∧
          (n.pos + 1 < n.words → t.me.nestM = some { n with pos := n.pos + 1 }) ∧
          (n.words ≤ n.pos + 1 → ∀ i, nextIndex n.desc n.index 0 = some i → t.me.nestM = some { n with index := i, pos := 0 }) ∧
          (n.words ≤ n.pos + 1 → nextIndex n.desc n.index 0 = none → t.me.nestM = none ∧
            t.me.mwords = u.me.mwords ++
              [{ sig := sigOf b.op, flags := f, pos := n.place b, nest := true, use := mUse b.op, ngo := some n.ngo },
               { sig := n.sig, flags := 0#6, pos := n.ngo, nest := true, ngo := some n.ngo }]))) ∧
    (∀ x op, (wordAt s .m).bind (fun w => (decodeWord w).toOption) = some op →
      (op ∈ [Instr.tcfg x, .tld x, .tst x, .tzero x, .ttr x, .mma x, .mmam x, .accld x, .accst x, .acccvt x] →
        exec .mWordStart s = exec op s ∧
        (x.nb = false → MStarts s op l →
          (∀ r f, mStart s none op l = .ok (r, f) → exec .mWordStart s = MAfter r op f) ∧
          (op = .tcfg x → exec .mWordStart s = MAfter (s.modMe fun c => c.setShape (tileOf x.d)
            (BitVec.ofNat 32 (x.shape.fmt.toNat + x.shape.rows.toNat * 2 ^ 5 + x.shape.cols.toNat * 2 ^ 12))) op 0#6) ∧
          (op = .tzero x → exec .mWordStart s = MAfter (s.modMe fun c =>
            if x.d.isTile then c.wtile (tileOf x.d) [] else c.wacc (accOf x.d) []) op 0#6))) ∧
      (op = .ngo x ∨ op = .nwait x → exec .mWordStart s = .next s))

/-- 12_copy.md R350 to R352, 04_scalar.md R121: a D word that queues, captured, outside a nest or marked as a body
word inside one. With a place in the queue and every check passed its command stands queued behind the others and the
walker is past it; a failed check traps with the lowest cause among the failures; a full queue makes it wait, and a
wrong mark is an illegal encoding. 12_copy.md R351, R362 to R365, R375: the words that the D walker executes itself,
captured and outside nest bodies, once their token is satisfied. DWAIT.tok steps on, DWAIT.all when the queue is
empty; DUNB unbinds its register, which reads zero; DSTRM binds it to the stream or the channel that its descriptor
names. (Model's choices: Checks of zero lengths, equal formats, element sizes and RAW lengths are log entries 31, 35,
36 and 61.) -/
def Obligations.DataIssueAndWalker : Prop :=
  (∀ (s : State) (w : DWord) (l : List GVal),
    let words : List Instr := [.dcpy w, .dredAdd w, .dredMax w, .dredMin w, .dgth w, .dsct w, .dgetMb w, .dgetEv w, .dput w,
      .dputF w, .dpub w, .dstamp w, .dsig w, .kvwr w]
    let c : Core := s.me
    let cmd (i : Instr) : DCmd :=
      { op := i, pc := c.pcD, pos := c.posD, caps := l, dispD := specDisp c.nestD (dSpecs i).1
        dispS := specDisp c.nestD (dSpecs i).2, num := c.dnum, phase := .queued, done := 0, flags := 0#6, core := BitVec.ofNat 12 s.rank }
    c.engCaptured .d = some l →
    (w.nb ≠ c.nestD.isSome → ∀ i ∈ .dshd w :: words, exec i s = .next (takeTrap s s.rank (mkTrap .d 0x01 0#64))) ∧
    (w.nb = c.nestD.isSome → 16 ≤ c.dq.length → ∀ i ∈ .dshd w :: words, exec i s = .next s) ∧
    (w.nb = c.nestD.isSome → c.dq.length < 16 → ∀ i ∈ words,
      ((dChecks s c.nestD i l).all (·.isNone) = true → ∃ t, exec i s = .next t ∧ OnlyMe s t ∧ SameBytes s t ∧
        t.me.dq = c.dq ++ [cmd i] ∧
        t.me.dnum = c.dnum + 1#16 ∧ t.me.g = c.g ∧ t.me.v = c.v ∧ t.me.ctl = c.ctl ∧
        (c.nestD = none → t.me.pcD = c.pcD + 12#64)) ∧
      (∀ x ∈ dChecks s c.nestD i l, ∀ cause a, x = some (cause, a) →
        ∃ y b, exec i s = .next (takeTrap s s.rank (mkTrap .d y b)) ∧ y ≤ cause ∧ some (y, b) ∈ dChecks s c.nestD i l)) ∧
    (w.nb = c.nestD.isSome → c.dq.length < 16 →
      let k : Caps := capsOf (dFields w) l
      let n : Nat := k.c1.word.toNat
      let others : Option (Nat × Word64) := Checks.worst [lenFail n, copyLen w.s.format w.d.format n,
        dspec s c.nestD w.s k.a n permLoad (elemAlign w.s.format), barFail s w k.c2]
      ∀ g t, resolve s .d k.d.word 64 permLoad = .ok (g, t) →
      let z := shadowBuf (engSettle s k.d.word (match g with | .bytes h => h | _ => [])) c.nestD w k.d
        (copyBytes w.s.format w.d.format n) (elemAlign w.d.format)
      (∀ x, worseTrap (others.map fun f => mkTrap .d f.1 f.2) z.1 = some x → exec (.dshd w) s = .next (takeTrap z.2.2 s.rank x)) ∧
      (others = none → z.1 = none → exec (.dshd w) s = .next (dQueue z.2.2 (.dshd w) l (l ++ [z.2.1]))))) ∧
  (∀ (s : State) (w : DWord) (l : List GVal),
    let c : Core := s.me
    let on (t : State) : Prop := OnlyMe s t ∧ SameBytes s t ∧ t.me.pcD = c.pcD + 12#64 ∧ t.me.dq = c.dq ∧ t.me.g = c.g
    let v : BitVec 5 := streamOf w.d
    let k : Caps := capsOf (dFields w) l
    let x : Word64 := specAddr none w.s k.a
    let s0 : State := settleTouches s (touchAt s x 64 false)
    let key : Nat := localKey s0.rank (coordOff x)
    let d : List Byte := s0.mem.read key 64
    let src : GVal := s0.loadUnit (key + 32)
    c.engCaptured .d = some l →
    (w.nb = true ∨ c.nestD.isSome = true → ∀ i ∈ [Instr.dwaitAll w, .dwaitTok w, .dunb w, .dstrm w],
      exec i s = .next (takeTrap s s.rank (mkTrap .d 0x01 0#64))) ∧
    (w.nb = false → c.nestD = none →
      (dTokenDone c c.dq w.wait c.posD = false → ∀ i ∈ [Instr.dwaitAll w, .dwaitTok w, .dunb w, .dstrm w], exec i s = .next s) ∧
      (dTokenDone c c.dq w.wait c.posD = true →
        (∃ t, exec (.dwaitTok w) s = .next t ∧ on t ∧ t.me.v = c.v) ∧
        (c.dq = [] → ∃ t, exec (.dwaitAll w) s = .next t ∧ on t ∧ t.me.v = c.v) ∧
        (c.dq ≠ [] → exec (.dwaitAll w) s = .next s) ∧
        (vNaming c v c.posD = false → ∃ t, exec (.dunb w) s = .next t ∧ on t ∧ t.me.rv v = 0#1024 ∧ t.me.rbind (v.setWidth 3) = Binding.none ∧
          (∀ j, j ≠ v → t.me.rv j = c.rv j) ∧ ∀ j, j ≠ v.setWidth 3 → t.me.rbind j = c.rbind j) ∧
        (vNaming c v c.posD = true → exec (.dunb w) s = .next s ∧ exec (.dstrm w) s = .next s) ∧
        (admits s .d c.posD (cmdTouch s (newCmd 0#12 c (.dstrm w) l)) = false → exec (.dstrm w) s = .next s) ∧
        (vNaming c v c.posD = false → admits s .d c.posD (cmdTouch s (newCmd 0#12 c (.dstrm w) l)) = true → dspecAt s0 k.a x 64 (permLoad ||| permLoadCap) 64 true = none → s0.poisoned key 64 = false →
          (strmOk d = true → strmFail d src = none → ∃ t, exec (.dstrm w) s = .next t ∧ t.mem = s0.mem ∧
            t.me.rbind (v.setWidth 3) = { mode := 1#2, desc := d, src := src, count := 0, asked := 0, ahead := [], after := some s0.me.posD } ∧
            t.me.pcD = s0.me.pcD + 12#64) ∧
          (strmOk d = false → chanOk d = true → ∃ t, exec (.dstrm w) s = .next t ∧ t.mem = s0.mem ∧
            t.me.rbind (v.setWidth 3) = { mode := 2#2, desc := d, src := GVal.zero, count := 0, asked := 0, ahead := [] }) ∧
          (strmOk d = false → chanOk d = false → exec (.dstrm w) s = .next (takeTrap s s.rank (mkTrap .d 0x07 x)))))))

/-- 12_copy.md R350, R353, R358, R368, R369: D_COMMAND_START starts the first command in program order that is still
queued, when it may start. A reduction, and any command while accesses wait, moves unit by unit in later steps, a
reduction whose destination overlaps its source having read all of it; another command performs its units at once, in
one step of reads and then writes where its source and destination overlap. A fault at a unit stops the command with
its progress. D_COMMAND_COMPLETE ends one that is performed and that may end, with its flags and its notice. A RAW
copy whose destination lies in the core's own memory or in generic memory leaves at each byte of the destination what
the source held, and changes no other byte. DPUB, after the release, flips CUR and counts GEN of a handle; a reserved
SCOPE traps 0x07, and a poisoned handle 0x0D. 12_copy.md R354 to R356: a unit of a reduction is applied in one step:
each element of the destination becomes the operation of its old value and the source's, no other byte changes, and
the interface marks the unit, so that the same unit once more changes nothing. With 64 records of other commands in
use it is refused and sent again later; the end notice retires the command's records. (Model's choices: An overlapping
copy goes as one unit (log entry 58); the home slice of a line has no body (log entry 77).) -/
def Obligations.DataTransfersAndReductions : Prop :=
  (∀ (s : State) (q : DCmd) (i : Nat),
    let c : Core := s.me
    let s0 : State := settleTouches s (cmdTouch s q)
    let q1 : DCmd := { q with whole := cmdOverlaps s0 q }
    let kv : Prop := ∃ w, q.op = .kvwr w
    let redWord (op : Instr) : Option DWord := match op with | .dredAdd w | .dredMax w | .dredMin w => some w | _ => none
    let sets (t : State) (x : DCmd) : State := t.modMe fun e => e.setCmd i x
    (c.dq[i]? = some q → (∀ j, j < i → ∀ y, c.dq[j]? = some y → y.phase ≠ .queued) → q.phase = .queued →
      (startReady s i q = false → exec .dCommandStart s = .next s) ∧
      (startReady s i q = true → ¬kv →
        (cmdOverlaps s0 q = true → isRed q.op = false →
          (∀ t f, cmdWhole s0 q1 = .ok (t, f) → exec .dCommandStart s =
            .next (sets t { q1 with phase := .moved, done := cmdUnits q, flags := q.flags ||| f })) ∧
          (∀ x u, cmdWhole s0 q1 = .trap x u → exec .dCommandStart s = .next (takeTrap
            ({ s0 with fresh := u.fresh }.modMe fun e => { e.setCmd i { q1 with phase := .moving } with dfault := some i }) s.rank x))) ∧
        (cmdOverlaps s0 q = true → ∀ w ∈ redWord q.op, ∀ g t, dRead s0 (cmdOps q w).sx (cmdOps q w).n = .ok (g, t) →
          exec .dCommandStart s = .next (sets t { q with phase := .moving, whole := false, taken := some (g.bytes, g.bad) })) ∧
        (cmdOverlaps s0 q = false → (s.lazy = true ∨ isRed q.op = true) → exec .dCommandStart s =
          .next (sets s0 { q1 with phase := if cmdUnits q ≤ q.done then .moved else .moving })) ∧
        (cmdOverlaps s0 q = false → s.lazy = false → isRed q.op = false → q.done = 0 →
          (cmdUnits q = 0 → exec .dCommandStart s = .next (sets s0 { q1 with phase := .moved })) ∧
          (0 < cmdUnits q →
            (∀ t f, cmdUnit s0 q1 0 = .ok (t, f) →
              (cmdUnits q = 1 → exec .dCommandStart s = .next (sets t { q1 with phase := .moved, done := 1, flags := q.flags ||| f })) ∧
              ∀ u g, cmdUnits q = 2 → cmdUnit t { q1 with done := 1, flags := q.flags ||| f } 1 = .ok (u, g) →
                exec .dCommandStart s = .next (sets u { q1 with phase := .moved, done := 2, flags := q.flags ||| f ||| g })) ∧
            (∀ x u, cmdUnit s0 q1 0 = .trap x u → exec .dCommandStart s = .next (takeTrap
              ({ s0 with fresh := u.fresh }.modMe fun e => { e.setCmd i { q1 with phase := .moving } with dfault := some i }) s.rank x))))) ∧
      (startReady s i q = true → s.lazy = true → ∀ w, q.op = .kvwr w →
        (∀ y t, kvUnit s0 i q w = .ok (some y, t) → exec .dCommandStart s =
          .next (sets t { y with phase := if y.kv = .done then .moved else .moving })) ∧
        (∀ x t, kvUnit s0 i q w = .trap x t → exec .dCommandStart s = .next (takeTrap
          (t.modMe fun e => { e.setCmd i { q with phase := .moving } with dfault := some i }) s.rank x)))) ∧
    ((∀ y ∈ c.dq, y.phase ≠ .queued) → exec .dCommandStart s = .next s) ∧
    (c.dq[i]? = some q → q.phase = .moved → cmdMayEnd s i q = true → exec (.dCommandComplete i) s =
      .next ((cmdNotice s q).modMe fun e =>
        { e.modCtl (fun k => { k with arflg := k.arflg ||| q.flags.setWidth 32 }) with dq := e.dq.eraseIdx i })) ∧
    (c.dq[i]? = some q → (q.phase ≠ .moved ∨ cmdMayEnd s i q = false) → exec (.dCommandComplete i) s = .next s) ∧
    (∀ (u z : State) (sx dx : Word64) (n : Nat) (a b : Chunk), 0 < n → a.len = n → b.len = n →
      resolve s .d sx n permLoad = .ok (.bytes [a], u) →
      let v : State := engSettle u sx [a]
      resolve v .d dx n permStore = .ok (.bytes [b], z) →
      let w : State := engSettle z dx [b]
      b.far w.rank = none → ∃ t, copyMove s rawFormat rawFormat sx dx n false = .ok (t, 0#6) ∧
        (∀ o, o < n → t.mem.get (b.key + o) = v.mem.get (a.key + o)) ∧
        ∀ o, (o < b.key ∨ b.key + n ≤ o) → t.mem.get o = w.mem.get o) ∧
    (∀ (x : GVal) (h : Chunk) (u : State), resolve (releaseAll_ s) .d x.word 64 (permLoad ||| permStore) = .ok (.bytes [h], u) →
      let cur : Nat := u.mem.readNat h.key 4
      (5 ≤ cur / 4 % 8 → publish s x = .trap (mkTrap .d 0x07 x.word) u) ∧
      (cur / 4 % 8 < 5 → u.poisoned h.key 8 = true → publish s x = .trap (mkTrap .d 0x0D x.word) u) ∧
      (cur / 4 % 8 < 5 → u.poisoned h.key 8 = false → ∃ t, publish s x = .ok t ∧
        t.mem.readNat h.key 4 = (if cur % 2 = 1 then cur - 1 else cur + 1) ∧
        t.mem.readNat (h.key + 4) 4 = (u.mem.readNat (h.key + 4) 4 + 1) % 2 ^ 32 ∧
        ∀ o, (o < h.key ∨ h.key + 8 ≤ o) → t.mem.get o = u.mem.get o))) ∧
  (∀ (s u v z : State) (q : DCmd) (w : DWord) (i k n o : Nat) (sx dx : Word64) (a b : Chunk) (src : Mem) (id : RedId),
    let e : Nat := elemBytes w.d.format
    let x : Word64 := sx + BitVec.ofNat 64 o
    let y : State := engSettle z dx [b]
    let recs : List Applied := y.appliedAt b.key
    let known : Bool := recs.any fun r => r.id == redId s q
    let done : Bool := recs.any fun r => r.id == redId s q && r.has k
    (q.taken = none → resolve s .d x n permLoad = .ok (.bytes [a], u) → a.len = n → (engSettle u x [a]).chunksPoisoned [a] = false →
      ∃ m, redSource s q sx o n = .ok (m, engSettle u x [a]) ∧ ∀ j, j < n → m.get j = (engSettle u x [a]).mem.get (a.key + j)) ∧
    (∀ m bad, q.taken = some (m, bad) → (∀ j ∈ bad, j < o ∨ o + n ≤ j) →
      ∃ r, redSource s q sx o n = .ok (r, s) ∧ ∀ j, j < n → r.get j = m.get (o + j)) ∧
    (∀ op ∈ [Instr.dredAdd w, .dredMax w, .dredMin w], q.op = op → b.len = n → 0 < e → n % e = 0 →
      redSource s q sx o n = .ok (src, v) → resolve v .d dx n (permLoad ||| permStore) = .ok (.bytes [b], z) →
      (∀ r ∈ recs, ∀ z ∈ recs, r.id = z.id → r = z) →
      (known = false → 64 ≤ recs.length → applyUnit s q w.d.format k sx dx o n = .ok (.refused, y)) ∧
      (done = true → applyUnit s q w.d.format k sx dx o n = .ok (.applied 0#6, y)) ∧
      (done = false → (known = true ∨ recs.length < 64) →
        (y.chunksPoisoned [b] = true → applyUnit s q w.d.format k sx dx o n =
          .trap (mkTrap .d 0x0D dx) (if (keyCore b.key).isNone then y.notify b.key n else y)) ∧
        (y.chunksPoisoned [b] = false → ∃ t f, applyUnit s q w.d.format k sx dx o n = .ok (.applied f, t) ∧
          (∀ j, j < n / e → t.mem.readNat (b.key + e * j) e =
            (redElem (match op with | .dredAdd _ => 0 | .dredMax _ => 1 | _ => 2) w.d.format.toNat (y.mem.readNat (b.key + e * j) e)
              (src.readNat (e * j) e)).1 % 256 ^ e) ∧
          (∀ p, (p < b.key ∨ b.key + n ≤ p) → t.mem.get p = y.mem.get p) ∧
          (∃ r ∈ t.appliedAt b.key, r.id = redId s q ∧ r.has k = true)))) ∧
    (s.me.dq[i]? = some q → (q.op = .dredAdd w ∨ q.op = .dredMax w ∨ q.op = .dredMin w) → q.phase = .moving →
      (∀ t, redStep s i q w = .ok t → exec (.reductionUnitApply i) s = .next t) ∧
      (∀ t z, redStep s i q w = .trap t z → exec (.reductionUnitApply i) s = .next (takeTrap z s.rank t))) ∧
    (s.me.dq[i]? = none → exec (.reductionUnitApply i) s = .next s) ∧
    (∃ t, exec .reductionResend s = .next t ∧ OnlyMe s t ∧ t.me.dq = s.me.dq.map (fun q =>
      if q.phase = .refused then { q with phase := .moving } else q) ∧ t.me.g = s.me.g) ∧
    (∃ t, exec (.reductionEndNotice id) s = .next t ∧ SameBytes s t ∧ (∀ r ∈ t.applied, r.2.id ≠ id) ∧
      (∀ c ∈ t.cores, ∀ r ∈ c.2.applied, r.id ≠ id) ∧ (∀ r ∈ s.applied, r.2.id ≠ id → r ∈ t.applied) ∧
      ∀ k, Table.find s.cores k ≠ none → (t.coreAt k).applied = (s.coreAt k).applied.filter fun r => r.id != id))

/-- 14_futures.md R423: kt.take at the runtime's level with no call held takes the oldest call of the first ring with
one, from above the last ring upward, and answers its handle; with none it answers 0, with a call held all ones; at
another level it is illegal. kt.mark writes the reply length of the held pending call: 0 done, 1 nothing held, 2 too
long; a future that is no longer the held pending call keeps its own. 14_futures.md R421, R422: a tested access at a
byte that no window and not the code window grants takes an access fault with its address; one that is granted and
mapped is performed, a load zero-extending (log entry 12). A swap of the completion word of the held pending call
answers 0 and resolves the future with the word's status; of one that is not pending it answers 2 (log entry 103), of
a pending one by a stale generation 1, and of a pending one not held 3. (Model's choices: The delivery of faults, trap
values and the extension of loads are log entry 12; the physical address is an argument (log entry 63); M-mode may not
use the words (log entry 74); a completion of a future that is no longer pending answers 2 (log entry 103).) -/
def Obligations.KettleResults : Prop :=
  (∀ (s : State) (rd rs : BitVec 5) (i : Nat) (f : Fut) (h : KHold),
    let k : Kettle := s.kettle
    let gives (t : State) (v : Word64) : Host.Outcome State Fault Refusal := .next (t.setKettle { k.wx rd v with pc := k.pc + 4#64 })
    let mask : Word64 := if rs = 0#5 then k.kring else k.kring &&& k.rx rs
    let n : Nat := (k.rx rs).toNat
    (k.level ≠ .hs → exec (.ktTake rd rs) s = .next (kettleIllegal s)) ∧
    (k.level = .hs →
      (k.hold.isSome = true → exec (.ktTake rd rs) s = gives s (BitVec.ofNat 64 (2 ^ 64 - 1))) ∧
      (k.hold = none → scanRings s mask k.lastRing = none → exec (.ktTake rd rs) s = gives s 0#64) ∧
      (k.hold = none → scanRings s mask k.lastRing = some (i, f) → ∃ t y, exec (.ktTake rd rs) s = .next t ∧
        t = (s.setFut i { f with taker := s.kid.setWidth 16, taken := true }).setKettle t.kettle ∧
        t.kettle.hold = some y ∧ y.entry = i ∧ y.handle = BitVec.ofNat 32 (futHandle i f) ∧ y.wins = f.wins ∧
        t.kettle.lastRing = f.ring.setWidth 6 ∧ t.kettle.pc = k.pc + 4#64 ∧
        (rd ≠ 0#5 → t.kettle.rx rd = (BitVec.ofNat 32 (futHandle i f)).setWidth 64) ∧
        ∀ j, j ≠ rd → t.kettle.rx j = k.rx j) ∧
      (scanRings s mask k.lastRing = some (i, f) →
        let from_ (r : BitVec 16) : Nat := (r.toNat + 63 - k.lastRing.toNat) % 64
        (i, f) ∈ s.futs ∧ f.state = 1#3 ∧ f.remote = false ∧ f.taker = 0xFFFF#16 ∧ mask.getLsbD f.ring.toNat = true ∧
        ∀ e ∈ s.futs, e.2.state = 1#3 → e.2.remote = false → e.2.taker = 0xFFFF#16 → mask.getLsbD e.2.ring.toNat = true →
          from_ f.ring < from_ e.2.ring ∨ (f.ring = e.2.ring ∧ f.order ≤ e.2.order))) ∧
    (k.level = .m → exec (.ktMark rd rs) s = .next (kettleIllegal s)) ∧
    (k.level ≠ .m →
      (k.hold = none → exec (.ktMark rd rs) s = gives s 1#64) ∧
      (k.hold = some h →
        let room : Nat := ((h.wins[h.replywin.toNat]?).map (·.len)).getD 0
        let g : Fut := s.futAt h.entry
        (room < 4 * n → exec (.ktMark rd rs) s = gives s 2#64) ∧
        (4 * n ≤ room → g.state = 1#3 → futHandle h.entry g = h.handle.toNat →
          exec (.ktMark rd rs) s = .next ((s.setKettle { k.wx rd 0#64 with pc := k.pc + 4#64 }).setFut h.entry
            { g with replylen := BitVec.ofNat 32 n })) ∧
        (4 * n ≤ room → g.state ≠ 1#3 ∨ futHandle h.entry g ≠ h.handle.toNat → exec (.ktMark rd rs) s = gives s 0#64)))) ∧
  (∀ (s : State) (acc : KAccess) (n : BitVec 14) (value : BitVec 32) (rd : BitVec 5),
    let k : Kettle := s.kettle
    let granted : Prop := ∀ i, i < acc.n → k.byteOk acc.kind (acc.pa + i) = true
    let there : Prop := ∀ i, i < acc.n → (s.row (acc.pa + i)).isSome = true
    let f : Fut := s.futAt n.toNat
    let code : Nat := swapCode s n.toNat value
    ((k.tested = true ∧ ¬granted) ∨ ¬there → exec (.kettleTestedAccess acc) s =
      .next (s.setKettle (k.except_ (match acc.kind with | .fetch => 1 | .load => 5 | .store => 7) acc.addr.toNat))) ∧
    ((k.tested = false ∨ granted) → there →
      (acc.kind = .load → exec (.kettleTestedAccess acc) s =
        .next (s.setKettle { k.wx acc.rd (BitVec.ofNat 64 (s.mem.readNat acc.pa acc.n)) with pc := k.pc + 4#64 })) ∧
      (acc.kind = .store → ∃ t, exec (.kettleTestedAccess acc) s = .next t ∧ t.mem = s.mem.write acc.pa (acc.data.take acc.n) ∧
        t.kettle = { k with pc := k.pc + 4#64 }) ∧
      (acc.kind = .fetch → exec (.kettleTestedAccess acc) s = .next s)) ∧
    (k.tested = false ∨ k.hold.map (·.entry) = some n.toNat →
      (f.state ≠ 1#3 → code = 2) ∧
      (f.state = 1#3 → f.gen.toNat ≠ value.toNat / 2 ^ 14 → code = 1) ∧
      (f.state = 1#3 → f.gen.toNat = value.toNat / 2 ^ 14 →
        (k.hold = none → code = 3) ∧
        (∀ h, k.hold = some h → h.entry ≠ n.toNat ∨ h.handle.toNat ≠ futHandle n.toNat f → code = 3) ∧
        (∀ h, k.hold = some h → h.entry = n.toNat → h.handle.toNat = futHandle n.toNat f → code = 0)) ∧
      ∃ t, t.mem = s.mem ∧ t.futs = s.futs ∧ t.kettle.rx rd = (k.wx rd (BitVec.ofNat 64 code)).rx rd ∧ t.kettle.pc = k.pc + 4#64 ∧
        (∀ h, k.hold = some h → t.kettle.hold = if h.handle.toNat = n.toNat + value.toNat / 2 ^ 14 * 2 ^ 14 then none else some h) ∧
        exec (.kettleCompletionSwap n value rd) s =
          .next (if code = 0 then leaveFut t n.toNat 2 (value.toNat % 256) f.replylen.toNat else t)) ∧
    (k.tested = true → k.hold.map (·.entry) ≠ some n.toNat → ∃ v, exec (.kettleCompletionSwap n value rd) s =
      .next { s.setKettle (k.except_ 7 v) with fresh := s.fresh + 1 }))

/-- 05_memory.md R155, R156, R164, R167, R170, R173, R176, 06_ordering.md R189: what returns or arrives. A waiting
load reads its next piece, and after its last puts its value in its register; a buffered store writes its next piece,
and an arriving posted store its bytes, and no others; a request of another package is carried out where the core is
bound to the partition it names, and logged or answered with an error where not; what would reach a core whose rank is
in transit waits; a walk ends as its tables give. 07_sync.md R216, R217, R221, R232, 08_tasks.md R247, R263,
10_vector.md R302: limits and repetitions of waits. A held arrival past its limit is an overrun and leaves the queue;
a refused request or push whose owner is not in transit is sent again, the oldest first, and what stood behind an
overrun is served; a BARTWAIT of the core past its limit ends with 0, or with 1 where the generation has moved on; a
task that may park after PARKT cycles parks. (Model's choices: That accesses wait at all is the model's lazy mode (log
entry 4); a walk ends by the tables as they stand (log entry 71).) -/
def Obligations.ArrivalsAndWaitLimits : Prop :=
  (∀ (s : State) (l : PendingLoad) (b : Buffered) (ls : List PendingLoad) (w : PostedStore) (r : RemoteAccess) (off : BitVec 19)
    (i n mix k : Nat) (bs : List Byte) (ps : List (Nat × List Byte)) (e : WalkEnd) (m : Miss) (ms : List Miss) (x : MissWait)
    (xs : List MissWait),
    let place : Nat := localKey w.dst.toNat w.off.toNat
    let own : BitVec 32 := s.rankAt (ifaceOf s.rank) s.rank
    let has (q : Nat) : Prop := q < 4096 ∧ field (s.rankAt (ifaceOf q) q) 31 1 = 1 ∧ field (s.rankAt (ifaceOf q) q) 16 10 = r.pid
    let bound : Prop := ∀ q ∈ reqCores r, has q
    let one : Prop := reqCores r = [r.core.toNat]
    let there : Nat := localKey r.core.toNat off.toNat
    let at_ : Nat := clusterOf s.rank
    (s.me.loads = [] → exec (.sLoadReturn i mix) s = .next s) ∧
    (s.me.loads[i]? = some l → (loadMay s.me i = false ∨ s.loadHeld s.rank l = true) → exec (.sLoadReturn i mix) s = .next s) ∧
    (s.me.loads = l :: ls → l.parts = (k, bs) :: ps → l.waits = [] → s.loadHeld s.rank l = false → l.upd = none → l.amo = none →
      s.poisoned k bs.length = false →
      let got : List Byte := l.got ++ sBytes s s.me l.byAlias mix k bs.length
      let tag : Bool := l.tag && (mix == 0 && sTag s s.me l.byAlias k)
      ∃ t, exec (.sLoadReturn 0 mix) s = .next t ∧ OnlyMe s t ∧ t.mem = s.mem ∧
        (ps = [] → t.me.loads = ls ∧ (l.d ≠ 0#6 → t.me.rg l.d = { bits := BitVec.ofNat 128 (leNat got), tag := tag }) ∧
          ∀ j, j ≠ l.d → t.me.rg j = s.me.rg j) ∧
        (ps ≠ [] → t.me.loads = { l with parts := ps, got := got, tag := tag } :: ls ∧ t.me.g = s.me.g)) ∧
    (∀ op b2 e2, s.me.loads = l :: ls → l.parts = [(k, bs)] → bs.length = 8 → l.got = [] → l.waits = [] → s.loadHeld s.rank l = false →
      l.upd = none → l.amo = some (op, b2, e2) → s.me.stores = [] → s.poisoned k 8 = false →
      let old : Word64 := BitVec.ofNat 64 (s.mem.readNat k 8)
      ∃ t, exec (.sLoadReturn 0 mix) s = .next t ∧ t.me.loads = ls ∧ (l.d ≠ 0#6 → (t.me.rg l.d).bits = old.setWidth 128) ∧
        t.mem = match amoNew op old b2 e2 with | some v => s.mem.write k (leBytes 8 v.toNat) | none => s.mem) ∧
    (s.me.stores[i]? = some b → b.pieces = (k, bs) :: ps →
      (storeMay s.me.stores i = true → ∃ t, exec (.storeBufferPerform i) s = .next t ∧ t.mem = s.mem.write k bs ∧
        t.me.stores = (if ps = [] then s.me.stores.eraseIdx i else s.me.stores.set i { b with pieces := ps }) ∧
        (s.me.blocked = none → t.me.g = s.me.g)) ∧
      (storeMay s.me.stores i = false → exec (.storeBufferPerform i) s = .next s)) ∧
    (s.me.stores = [] → exec (.storeBufferPerform i) s = .next s) ∧
    (field own 30 1 = 1 → exec (.postedStoreArrive w) s = .next { s with
      net := s.net ++ [{ src := s.rank, dst := s.rank, ev := .postedStoreArrive w, pid := field own 16 10 }] }) ∧
    (field own 30 1 = 0 → ∃ t, exec (.postedStoreArrive w) s = .next t ∧ t.mem = s.mem.write place w.bytes ∧
      (w.tag = true → t.ctag place = true) ∧ (w.tag = false → w.tags = [] → 0 < w.bytes.length → t.ctag place = false) ∧
      (∀ o ∈ w.tags, t.ctag (place + o) = true) ∧ ∀ o ∈ w.bad, t.poisoned (place + o) 1 = true) ∧
    ((∀ y, r.req ≠ .amsg y) →
      (¬bound → reqAnswered r.req = true → exec (.remoteAccessArrive r) s = .next { s with outbox := s.outbox ++ [.reply none] }) ∧
      (¬bound → reqAnswered r.req = false → exec (.remoteAccessArrive r) s =
        .next { s with logs := s.logs ++ [.rejected r.core (reqOffset r.req)] }) ∧
      (bound → (∃ q ∈ reqCores r, field (s.rankAt (ifaceOf q) q) 30 1 = 1) → exec (.remoteAccessArrive r) s = .next { s with
        net := s.net ++ [{ src := 4096, dst := r.core.toNat, ev := .remoteAccessArrive r, pid := r.pid }] })) ∧
    (one → has r.core.toNat → field (s.rankAt (ifaceOf r.core.toNat) r.core.toNat) 30 1 = 0 →
      (∀ y z, r.req = .store off bs y z → ∃ t, exec (.remoteAccessArrive r) s = .next t ∧ t.mem = s.mem.write there bs ∧
        (∀ o ∈ y, t.ctag (there + o) = true) ∧ ∀ o ∈ z, t.poisoned (there + o) 1 = true) ∧
      (r.req = .load off n → n < 16 → exec (.remoteAccessArrive r) s = .next { s with
        outbox := s.outbox ++ [.reply (if s.poisoned there n then none else some (s.mem.read there n))] }) ∧
      (∀ op y z, r.req = .amo off op y z → s.poisoned there 8 = false →
        let old : Word64 := BitVec.ofNat 64 (s.mem.readNat there 8)
        ∃ t, exec (.remoteAccessArrive r) s = .next t ∧ t.outbox = s.outbox ++ [.reply (some (leBytes 8 old.toNat))] ∧
          t.mem = match amoNew op old y z with | some v => s.mem.write there (leBytes 8 v.toNat) | none => s.mem)) ∧
    ((s.mmuAt at_).misses = m :: ms → m.waits = x :: xs →
      (e = walkEnd s x.core x.walk → exec (.pageWalkComplete e) s = .next (((x :: xs).filter fun y =>
          (s.coreAt y.core).pid == m.pid).foldl walkDone
        (s.modMmu at_ fun u => { u with misses := ms ++ u.queue.take 1, queue := u.queue.drop 1 }))) ∧
      (e ≠ walkEnd s x.core x.walk → exec (.pageWalkComplete e) s = .next s)) ∧
    ((s.mmuAt at_).misses = [] → exec (.pageWalkComplete e) s = .next s)) ∧
  (∀ (s : State) (h : Held) (d : Nat) (q : WaitReq) (x : Record),
    ((∀ y ∈ s.me.held, s.cycle < y.until_) → exec .heldArrivalOverrun s = .next s) ∧
    (s.me.held.filter (fun y => decide (y.until_ ≤ s.cycle)) = [h] →
      let u : State := overrun (s.modMe fun c => { c with held := c.held.erase h }) h.arr
      (nextPut (u.coreAt s.rank) h.arr = none → exec .heldArrivalOverrun s = .next u) ∧
      (∀ g, nextPut (u.coreAt s.rank) h.arr = some g → exec .heldArrivalOverrun s =
        .next (settleGranule s.rank g (2 * ((u.coreAt s.rank).held.length + (u.coreAt s.rank).waitq.length) + 2) u))) ∧
    (firstWait s s.me = some (d, q) → exec .presenceWaitResend s =
      .next (retryWait (s.modMe fun c => { c with resend := c.resend.erase (.wait d q) }) d q)) ∧
    (firstWait s s.me = none → exec .presenceWaitResend s = .next s) ∧
    (firstResend s s.me = some (d, x) → exec .remotePushResend s =
      .next (remotePush (s.modMe fun c => { c with resend := c.resend.erase (.push d x) }) s.rank d x)) ∧
    (firstResend s s.me = none → exec .remotePushResend s = .next s) ∧
    (∀ g lim, lateBarAt s s.rank = some (d, q) → q.op = .bartwait g lim →
      let u : State := s.modCore d fun c => { c with waitq := c.waitq.erase q }
      (BitVec.ofNat 32 (s.mem.readNat (localKey d q.off) 4) = lim → barBad s d q.off = false →
        exec .bartwaitTimeout s = .next (replyValue u q g { bits := 0#128, tag := false })) ∧
      (BitVec.ofNat 32 (s.mem.readNat (localKey d q.off) 4) ≠ lim ∨ barBad s d q.off = true → exec .bartwaitTimeout s = .next (replyBar u q))) ∧
    ((∀ c ∈ s.cores, ∀ y ∈ c.2.waitq, lateBar s s.rank y = false) → (∀ y ∈ s.me.resend, ∀ o z, y = .wait o z → lateBar s s.rank z = false) →
      exec .bartwaitTimeout s = .next s) ∧
    (parkDue s s.rank = true → exec .parkTimeout s = .next (parkBlocked s s.rank 1)) ∧
    (parkDue s s.rank = false → vParkDue s s.rank = true → exec .parkTimeout s = .next (vPark s s.rank)) ∧
    (parkDue s s.rank = false → vParkDue s s.rank = false → exec .parkTimeout s = .next s))

/-- 04_scalar.md R126, 06_ordering.md R205, R206, 09_compose.md R285: the limits that end in a trap, and the ownership
flip. An overrun traps with cause 0x09 when the distance register is at its limit, a stall on a page in transit for
OWNWAIT cycles with cause 0x0C, and a group that has owed an answer for GRPWD cycles with cause 0x0D after it has
ended; before its limit each does nothing. A flip sets TRANSIT of the host page's leaf at its request, and at its end
clears it and sets the owner. 15_system.md R446, R449, R451, R452: debugging. HALTREQ halts a running core with WHY 1,
and the register file stands; RESUME and STEP let a halted core go on, STEP for one S word, after which it halts with
WHY 3; a write of the debug view of a halted core writes eight bytes of a register, in the g area as plain data, or
cancels or reschedules a latch, of a running one nothing; a doorbell raises bit 2 of INTPEND, and CORE_RESUME lets
only a core that HALT stopped go on. (Model's choices: That a write of the view of a running core changes nothing is
log entry 22.) -/
def Obligations.LimitsFlipsAndDebug : Prop :=
  (∀ (s : State) (pid : Nat) (va : BitVec 64) (host : Bool) (p : Part) (f : Flip),
    (s.me.overrunDue = true → s.me.follows = false → s.me.pendTrap = none → s.me.killed = false →
      exec .safePointOverrun s = .next (takeTrap s s.rank (trapS 0x09 0#64))) ∧
    (s.me.overrunDue = false ∨ s.me.follows = true ∨ s.me.pendTrap.isSome = true ∨ s.me.killed = true →
      exec .safePointOverrun s = .next s) ∧
    (let late (y : Hold × Nat) (x : Word64) : Prop := y.1 = .ownTransit x ∧ y.2 + s.me.ctl.ownwait.toNat ≤ s.cycle
     let stalled (w : Engine) : List (Engine × Hold × Nat) := s.me.stalls.filter fun y => y.1 != w
     (s.me.pendTrap = none → ∀ y x, s.me.hold = some y → late y x → exec .ownershipStallTimeout s =
       .next (takeTrap (s.setMe { s.me with stalls := stalled .s }) s.rank (mkTrap .s 0x0C x))) ∧
     (s.me.pendTrap = none → (∀ y x, s.me.hold = some y → ¬late y x) → ∀ before w y after x,
       s.me.stalls = before ++ (w, y) :: after → (∀ z ∈ before, ∀ v, ¬late z.2 v) → late y x →
       exec .ownershipStallTimeout s = .next (takeTrap (s.setMe { s.me with
         stalls := stalled w, dfault := if w = .d then stalledCmd s x else s.me.dfault }) s.rank (mkTrap w 0x0C x))) ∧
     (s.me.pendTrap.isSome = true ∨ ((∀ y x, s.me.hold = some y → ¬late y x) ∧ ∀ z ∈ s.me.stalls, ∀ v, ¬late z.2 v) →
       exec .ownershipStallTimeout s = .next s)) ∧
    (s.me.watchdogDue = true → s.gangMaxx s.rank = false →
      exec .groupWatchdogExpiry s = .next (enterTrap (endGang (endComposed s s.rank 7) s.rank 7 0 0 0) s.rank (trapS 0x0D 0#64))) ∧
    (s.me.watchdogDue = false ∨ s.gangMaxx s.rank = true → exec .groupWatchdogExpiry s = .next s) ∧
    (s.part? pid = some p →
      let at_ : Nat := va.toNat / 2 ^ 16 % 2 ^ 36 * 2 ^ 16
      (p.flip.isSome = true → exec (.ownershipFlipRequest pid va host) s =
        .next (s.modPart pid fun p => { p with flipStat := 2#8 })) ∧
      (p.flip = none → findLeaf s at_ walkLevels (field p.ptroot 16 32 * 2 ^ 16) = none →
        exec (.ownershipFlipRequest pid va host) s = .next (s.modPart pid fun p => { p with flipStat := 3#8 })) ∧
      (p.flip = none → ∀ key e n, findLeaf s at_ walkLevels (field p.ptroot 16 32 * 2 ^ 16) = some (key, e, n) →
        (n ≠ 16 → exec (.ownershipFlipRequest pid va host) s = .next (s.modPart pid fun p => { p with flipStat := 3#8 })) ∧
        (n = 16 → s.row (field e 16 32 * 2 ^ 16) ≠ some .host →
          exec (.ownershipFlipRequest pid va host) s = .next (s.modPart pid fun p => { p with flipStat := 4#8 })) ∧
        (n = 16 → s.row (field e 16 32 * 2 ^ 16) = some .host → e.getLsbD 60 = true →
          exec (.ownershipFlipRequest pid va host) s = .next (s.modPart pid fun p => { p with flipStat := 2#8 }))) ∧
      (p.flip = none → ∀ key e, findLeaf s at_ walkLevels (field p.ptroot 16 32 * 2 ^ 16) = some (key, e, 16) →
        s.row (field e 16 32 * 2 ^ 16) = some .host → e.getLsbD 60 = false →
        ∃ t, exec (.ownershipFlipRequest pid va host) s = .next t ∧
          t.mem.readNat key 8 = (setField e 60 1 1).toNat ∧ (∀ a, (a < key ∨ key + 8 ≤ a) → t.mem.get a = s.mem.get a) ∧
          ∀ q, t.part? pid = some q → q.flip = some { leaf := key, va := at_, host := host } ∧ q.flipStat = 1#8)) ∧
    (flipping s = none → exec .ownershipFlipComplete s = .next s) ∧
    (flipping s = some pid → s.part? pid = some p → p.flip = some f → ∃ t, exec .ownershipFlipComplete s = .next t ∧
      t.mem.readNat f.leaf 8 =
        (setField (setField (BitVec.ofNat 64 ((drainPart s pid).mem.readNat f.leaf 8)) 60 1 0) 59 1 f.host.toNat).toNat ∧
      ∀ q, t.part? pid = some q → q.flip = none ∧ q.flipStat = 0#8)) ∧
  (∀ (s : State) (off : BitVec 14) (v : BitVec 64),
    (s.me.halt = none → s.me.group = .single → s.me.maxx.isSome = true →
      exec .dbgctlHaltreq s = .next (s.setMe { s.me with pendHalt := some 1#4 })) ∧
    (s.me.halt = none → s.me.group = .single → s.me.maxx = none → s.me.loads = [] → s.me.blocked = none →
      ∃ t, exec .dbgctlHaltreq s = .next t ∧ OnlyMe s t ∧ SameBytes s t ∧ t.me.halt = some 1#4 ∧ t.me.g = s.me.g ∧ t.me.v = s.me.v ∧
        t.me.pc = s.me.pc ∧ t.me.depth = s.me.depth) ∧
    (s.me.halt = none → s.gangMaxx s.rank = true → exec .dbgctlHaltreq s = .next (s.setMe { s.me with pendHalt := some 1#4 }) ∧
      (s.me.stepping = true → exec .debugStepDone s = .next (s.setMe { s.me with pendHalt := some 3#4 }))) ∧
    (s.me.halt = none → s.gangMaxx s.rank = false →
      let t : State := (abandon (landLoads (endForDebug s s.rank) s.rank) s.rank).modCore s.rank Core.completeM
      exec .dbgctlHaltreq s = .next (haltCore t s.rank 1#4) ∧
      (s.me.stepping = true → exec .debugStepDone s = .next (haltCore t s.rank 3#4))) ∧
    (s.me.halt.isSome = true → exec .dbgctlHaltreq s = .next s ∧
      exec .dbgctlStep s = .next (s.setMe { s.me with halt := none, stepping := true })) ∧
    (s.me.halt = none → exec .dbgctlStep s = .next s ∧ exec (.debugViewWrite off v) s = .next (s.setMe s.me)) ∧
    exec .dbgctlResume s = .next (startNext (s.setMe { s.me with halt := none, stepping := false }) s.rank) ∧
    (s.me.stepping = false → exec .debugStepDone s = .next s) ∧
    (s.me.stepping = true → s.me.halt = none → s.me.group = .single → s.me.maxx = none → s.me.loads = [] → s.me.blocked = none →
      ∃ t, exec .debugStepDone s = .next t ∧ OnlyMe s t ∧ t.me.halt = some 3#4 ∧ t.me.g = s.me.g) ∧
    (∀ i : GIdx, i ≠ 0#6 → s.me.halt.isSome = true → off.toNat = frG + 16 * i.toNat →
      ∃ t, exec (.debugViewWrite off v) s = .next t ∧ OnlyMe s t ∧ (t.me.rg i).tag = false ∧
        (t.me.rg i).word = v ∧ (t.me.rg i).bits >>> 64 = (s.me.rg i).bits >>> 64 ∧ ∀ j, j ≠ i → t.me.rg j = s.me.rg j) ∧
    (∀ (i : GIdx) (j : BitVec 3) (m : BitVec 5) (h n : Nat), s.me.halt.isSome = true →
      (h < 2 → off.toNat = frG + 16 * i.toNat + 8 * h → exec (.debugViewWrite off v) s =
        .next (s.setMe (s.me.wg i { bits := setField (s.me.rg i).bits (64 * h) 64 v.toNat, tag := false }))) ∧
      (h < 2 → off.toNat = frP + 16 * j.toNat + 8 * h → exec (.debugViewWrite off v) s =
        .next (s.setMe (s.me.wp j (setField (s.me.rp j) (64 * h) 64 v.toNat)))) ∧
      (h < 16 → off.toNat = frV + 128 * m.toNat + 8 * h → exec (.debugViewWrite off v) s =
        .next (s.setMe (s.me.wv m (setField (s.me.rv m) (64 * h) 64 v.toNat)))) ∧
      (n < 20 → off.toNat = frLatch + 144 * n →
        let ls : List Latch :=
          if field v 0 8 = 0 then s.me.latches.eraseIdx n
          else if 1 ≤ field v 16 8 ∧ field v 16 8 ≤ 18 then s.me.latches.modify n fun l => { l with remain := field v 16 8 }
          else s.me.latches
        exec (.debugViewWrite off v) s = .next (s.setMe { s.me with latches := ls })) ∧
      (off.toNat < frP → (∀ e, e < 20 → off.toNat ≠ frLatch + 144 * e) → exec (.debugViewWrite off v) s = .next (s.setMe s.me))) ∧
    (∃ t, exec .doorbellWrite s = .next t ∧ OnlyMe s t ∧ t.me.ctl = { s.me.ctl with intpend := setField s.me.ctl.intpend 2 1 1 } ∧
      t.me.g = s.me.g) ∧
    (s.me.halt = some 5#4 → exec .coreResumeWrite s =
      .next (startNext (s.setMe { s.me with halt := none, stepping := false }) s.rank)) ∧
    (s.me.halt ≠ some 5#4 → exec .coreResumeWrite s = .next s))

/-- 08_tasks.md R264, 14_futures.md R408, 15_system.md R438, R449, R450, 19_integration.md R485, R495: the windows of
region 0xF for the core's partition. A context goes from active to suspended, back, or to teardown, at which its
pending futures are cancelled, and from no other state; a ring in use and a queue in use keep their configuration; the
pool of frames takes a frame that fits and gives the oldest; a word is posted to the host queue with its partition,
core and sequence number, or counted as dropped. (Model's choices: The event PPTAKE_READ names its register (log entry
70); the host's memory lies in the window (log entry 30).) -/
def Obligations.WindowEvents : Prop :=
  ∀ (s t : State) (p q : Part) (ctx : BitVec 16) (ring : BitVec 6) (v : BitVec 64) (d : GIdx) (fa : Nat),
    let x : ToolRing := s.ringAt ring.toNat
    let new : ToolRing :=
      { valid := v.getLsbD 63, pid := s.me.pid, base := v.toNat / 2 ^ 6 % 2 ^ 42 * 64, log := v.toNat / 2 ^ 58 % 16 + 4
        used := [], next := 0 }
    s.part? s.me.pid = some p →
    (ctxOf p ctx = false → exec (.ctxSuspend ctx) s = .next s ∧ exec (.ctxBeginTeardown ctx) s = .next s ∧
      exec (.ctxResume ctx) s = .next (deliverOverflow s s.me.pid ctx)) ∧
    (∀ u, ctxOf p ctx = true → ctxEntry s p ctx .store = (none, u) → exec (.ctxSuspend ctx) s = .next u ∧
      exec (.ctxBeginTeardown ctx) s = .next u ∧ exec (.ctxResume ctx) s = .next (deliverOverflow u s.me.pid ctx)) ∧
    (∀ k u, ctxOf p ctx = true → ctxEntry s p ctx .store = (some k, u) →
      let b : Nat := u.mem.readNat k 1
      let puts (n : Nat) : State := u.storeNat k 1 (b / 8 % 2 * 8 + n)
      (b % 8 = 1 → exec (.ctxSuspend ctx) s = .next (puts 2)) ∧ (b % 8 ≠ 1 → exec (.ctxSuspend ctx) s = .next u) ∧
      (b % 8 = 1 ∨ b % 8 = 2 → exec (.ctxBeginTeardown ctx) s = .next (cancelFuts (puts 3) s.me.pid ctx)) ∧
      (b % 8 ≠ 1 → b % 8 ≠ 2 → exec (.ctxBeginTeardown ctx) s = .next u) ∧
      (b % 8 = 2 → exec (.ctxResume ctx) s = .next (deliverOverflow (puts 1) s.me.pid ctx)) ∧
      (b % 8 ≠ 2 → exec (.ctxResume ctx) s = .next (deliverOverflow u s.me.pid ctx))) ∧
    ((x.valid = true ∧ x.pid ≠ s.me.pid) ∨ x.used ≠ [] → exec (.toolRingWrite ring v) s = .next s) ∧
    ((x.valid = false ∨ x.pid = s.me.pid) → x.used = [] → ∃ u, exec (.toolRingWrite ring v) s = .next u ∧
      u.ringAt ring.toNat = new ∧ u.mem = s.mem ∧ u.cores = s.cores) ∧
    (∃ u, exec (.fqringWrite v) s = .next u ∧ u.mem = s.mem ∧ u.cores = s.cores ∧ (u.part? s.me.pid = some q →
      q.fq.ring = if p.fq.entries.all (fun e => e.status == 2#8) then
        some (v.toNat / 2 ^ 5 % 2 ^ 43 * 32, max 4 (min 12 (v.toNat / 2 ^ 48 % 32))) else p.fq.ring)) ∧
    (∃ u, exec (.ppringWrite v) s = .next u ∧ u.mem = s.mem ∧ u.cores = s.cores ∧ (u.part? s.me.pid = some q →
      q.pool.ring = if p.pool.free = 0 ∧ p.pool.inUse = 0 then
        some (v.toNat / 2 ^ 3 % 2 ^ 45 * 8, max 4 (min 16 (v.toNat / 2 ^ 48 % 32))) else p.pool.ring)) ∧
    (∀ base lg, p.pool.ring = some (base, lg) →
      let room : Bool := decide (p.pool.free < 2 ^ lg) && frameFits s p (v.toNat / 2 ^ 6 % 2 ^ 42 * 64)
      (room = true → exec (.ppputWrite v) s = .next (putFrame s s.me.pid (v.toNat / 2 ^ 6 % 2 ^ 42 * 64))) ∧
      (room = false → ∃ u, exec (.ppputWrite v) s = .next u ∧ u.mem = s.mem ∧ (u.part? s.me.pid = some q →
        q.pool.refused.toNat = min 0xFFFF (p.pool.refused.toNat + 1) ∧ q.pool.free = p.pool.free))) ∧
    (takeFrame s s.me.pid = none → exec (.pptakeRead d) s = .next (s.setMe (s.me.wg d { bits := 0#128, tag := false }))) ∧
    (takeFrame s s.me.pid = some (fa, t) → ∃ u, exec (.pptakeRead d) s = .next u ∧ u.mem = t.mem ∧
      (d ≠ 0#6 → u.me.rg d = { bits := BitVec.ofNat 128 fa, tag := false }) ∧ ∀ j, j ≠ d → u.me.rg j = t.me.rg j) ∧
    (let n : Nat := 2 ^ (field s.hqcfg 0 4 + 4)
     let tail : Nat := field s.hqptr 0 16
     let head : Nat := field s.hqptr 32 16
     (n ≤ (tail + 65536 - head) % 65536 → exec (.hostQueuePost v) s =
      .next { s with hqptr := setField s.hqptr 48 16 (min 65535 (field s.hqptr 48 16 + 1)) }) ∧
     ((tail + 65536 - head) % 65536 < n → ∃ u, exec (.hostQueuePost v) s = .next u ∧
      u.mem = s.mem.write (hostKey (field s.hqcfg 4 48 * 16 + 16 * (tail % n)))
        (leBytes 8 v.toNat ++ leBytes 2 s.me.pid ++ leBytes 2 s.rank ++ leBytes 4 p.hostSeq.toNat) ∧
      u.hqptr = setField s.hqptr 0 16 (tail + 1))) ∧
    (∃ u, exec (.sqcfgWrite v) s = .next u ∧ u.mem = s.mem ∧ (u.part? s.me.pid = some q →
      q.sq.cfg = if p.sq.head = p.sq.tail then v &&& 0x801F_FFFF_FFFF_FFC0#64 else p.sq.cfg)) ∧
    ((sqRing p.sq).2.1 < (v.setWidth 16 - p.sq.head).toNat → ∃ u, exec (.sqTailWrite v) s = .next u ∧ u.mem = s.mem ∧
      (u.part? s.me.pid = some q → q.sq.tail = p.sq.tail ∧ q.sq.ignored.toNat = min 0xFFFF (p.sq.ignored.toNat + 1))) ∧
    ((v.setWidth 16 - p.sq.head).toNat ≤ (sqRing p.sq).2.1 → exec (.sqTailWrite v) s =
      .next (sqRead s.me.pid 1024 (s.modPart s.me.pid fun p => { p with sq := { p.sq with tail := v.setWidth 16 } })))

/-- 01_machine.md R23, R34, 05_memory.md R154, R157, 08_tasks.md R267, R268: ranks, slices, swaps and what a partition
holds. A write of a rank entry keeps its writable fields; a slice stops the cores of a resident partition; a swap
saves the cores of the one that goes only when every one has stopped, and loads the one that comes only on free
clusters; unbinding frees everything that the partition held; the rank of a stopped core moves to a free spare; a
reservation of ways stays within its limits. 08_tasks.md R238, R239, 19_integration.md R483, R484: the loader takes
one entry of its ring on a ready device: it answers with the code of the first check that fails, or 0 with the
partition that is bound then, and moves its head on; without an entry, or before the device is ready, it does nothing.
The codes follow the checks in their order. (Model's choices: The codes' reading and the PID are log entries 66 and
64; the form of a hashed key is log entry 8.) -/
def Obligations.PartitionsAndLoader : Prop :=
  (∀ (s : State) (rank : BitVec 12) (v : BitVec 32) (pid inn dieOf ways : Nat) (p : Part) (row : BitVec 6) (col : BitVec 5)
    (iface : BitVec 3),
    let die : BitVec 2 := BitVec.ofNat 2 (s.rank / 1024)
    (iface.toNat ≤ 4 → ∃ t, exec (.rankTableWrite iface rank v) s = .next t ∧
      t.rankAt iface.toNat rank.toNat = (v &&& 0xC3FF_FF1F#32) ∧ t.cores = s.cores ∧ t.mem = s.mem ∧
      ∀ k, k ≠ iface.toNat * 4096 + rank.toNat → Table.find t.ranks k = Table.find s.ranks k) ∧
    (4 < iface.toNat → exec (.rankTableWrite iface rank v) s = .next s) ∧
    (s.part? pid = some p →
      (p.resident = true → exec (.gangSliceInstant pid) s = .next (sliceAll s (coresOf p.clusters))) ∧
      (p.resident = false → exec (.gangSliceInstant pid) s = .next s) ∧
      (p.resident = true → (∃ r ∈ coresOf p.clusters, (s.coreAt r).stopped = false) →
        exec (.partitionSwap pid inn) s = .next (swapIn s inn)) ∧
      (p.resident = true → (∀ r ∈ coresOf p.clusters, (s.coreAt r).stopped = true) → s.part? inn = none →
        ∃ t q, exec (.partitionSwap pid inn) s = .next t ∧ t.part? pid = some q ∧ q.resident = false ∧
          q.saved.map (·.rank) = coresOf p.clusters ∧ ∀ c ∈ t.cores, c.1 ∉ coresOf p.clusters) ∧
      (∃ t, exec (.partitionUnbind pid) s = .next t ∧ t.mem = s.mem ∧ t.part? pid = none ∧
        (∀ f ∈ t.futs, f.2.pid = pid → f.2.state = 0#3) ∧ (∀ r ∈ t.rings, r.2.pid ≠ pid) ∧ (∀ x ∈ t.trees, x.pid ≠ pid) ∧
        (∀ x ∈ t.extents, x.2.pid ≠ pid) ∧ ∀ r ∈ coresOf p.clusters, s.hubCore pid r = true →
          ∀ i, i < 5 → field (t.rankAt i r) 31 1 = 0)) ∧
    (s.part? pid = none → exec (.gangSliceInstant pid) s = .next s ∧ exec (.partitionUnbind pid) s = .next s) ∧
    (spareFree s die row.toNat col.toNat = true → residentOn s s.rank = none → ∃ t,
      exec (.spareCoreReplacement row col) s = .next t ∧ t.cores = s.cores ∧ t.mem = s.mem ∧
      ∀ i, i < 5 → field (t.rankAt i s.rank) 8 6 = row.toNat ∧ field (t.rankAt i s.rank) 0 5 = col.toNat ∧
        field (t.rankAt i s.rank) 14 18 = field (s.rankAt i s.rank) 14 18) ∧
    (spareFree s die row.toNat col.toNat = true → residentOn s s.rank = some p → s.part? p.pid = some p → p.resident = true →
      ((∃ r ∈ coresOf p.clusters, (s.coreAt r).stopped = false) → exec (.spareCoreReplacement row col) s = .next s) ∧
      ((∀ r ∈ coresOf p.clusters, (s.coreAt r).stopped = true) → exec (.spareCoreReplacement row col) s =
        .next (swapIn (movePlace (swapOut s p.pid) s.rank row.toNat col.toNat) p.pid))) ∧
    (spareFree s die row.toNat col.toNat = false → exec (.spareCoreReplacement row col) s = .next s) ∧
    (∃ t, exec (.shadowReservationChange dieOf ways) s = .next t ∧ t.mem = s.mem ∧
      (dieOf < 4 → ways ≤ 7 → shadowUsed s dieOf ≤ ways * 256 → t.shadow[dieOf]? = some ways) ∧
      (4 ≤ dieOf ∨ 7 < ways ∨ ways * 256 < shadowUsed s dieOf → t.shadow = s.shadow))) ∧
  (∀ (s : State) (v : BitVec 64) (key : RsaKey),
    let n : Nat := 2 ^ max 2 (min 8 (field s.ldrq 0 6))
    let e : Nat := hostKey (field s.ldrq 6 46 * 64 + 32 * (s.ldrHead.toNat % n))
    let len : Nat := s.mem.readNat (e + 8) 8
    let m : Mem := s.mem.slice (hostKey (s.mem.readNat e 8)) len
    let signed : Bool := s.ownerKeys.contains (keyHash key) &&
      rsaVerify key (sha256 (m.read 0 (len - 384))) (m.read (len - 384) 384)
    let code : Nat := loadCode s m len signed
    exec (.ldrdbWrite v) s = .next { s with ldrTail := v } ∧
    (s.ready = false ∨ s.ldrHead = s.ldrTail → exec (.loaderEntry key) s = .next s) ∧
    (s.ready = true → s.ldrHead ≠ s.ldrTail → ∃ t, exec (.loaderEntry key) s = .next t ∧ t.ldrHead = s.ldrHead + 1#64 ∧
      t.mem.readNat (e + 16) 2 = code ∧ t.mem.readNat (e + 31) 1 = 1 ∧
      (code ≠ 0 → t.parts = s.parts ∧ ∀ a, (a < e + 16 ∨ e + 32 ≤ a) → t.mem.get a = s.mem.get a) ∧
      (code = 0 → ∃ p ∈ t.parts, p.pid = nextPid s ∧ p.resident = true ∧ p.clusters = (imageOf m).clusters)) ∧
    (checkForm (imageOf m) (launchOf m) len = false → code = 1) ∧
    (checkForm (imageOf m) (launchOf m) len = true → signed = false → code = 2))

/-- 15_system.md R453 to R455, 19_integration.md R483, R492, R494, R495, R497: the host's events. A grant is installed
only when it verifies; a report names the measurements and is signed; a doorbell raises interrupt bit 3 of a core that
is bound, in its saved state while its partition is swapped out; a blaze trigger is missed while the snapshots are
locked and else falls due 64 cycles on; the latch, when due, gives every core its snapshot and locks; time is slewed
onto the servo's and never stepped back. 06_ordering.md R204, 19_integration.md R488, R489, R495: what comes from
outside. A packet of a pair is applied once, by its number and in its turn, and one of an unsupported operation is
refused; a remote host must quote an entry that grants its bytes, and is else refused; a coherent access stays in one
line of the window and in CXL mode; a storage request moves its bytes and ends with status 0, with 2 where its buffer
does not translate, and with 3 where the device reports an error. (Model's choices: The verdict on a grant and the
signature of a report are log entry 8; triggers join (log entry 44); packets of a pair are applied in its order (log
entry 68); the rate of the slew has no body (log entry 108).) -/
def Obligations.HostAndOutsideEvents : Prop :=
  (∀ (s : State) (slot : BitVec 8) (g : ExtentGrant) (nonce : BitVec 256) (core : BitVec 12) (ps due : Nat),
    exec (.extentGrantInstall slot g false) s = .next s ∧
    (∃ t x, exec (.extentGrantInstall slot g true) s = .next t ∧ Table.find t.extents slot.toNat = some x ∧ x.pid = g.pid.toNat ∧
      x.dev = g.dev ∧ x.first = g.first ∧ x.count = g.count ∧ x.rd = g.rd ∧ x.wr = g.wr ∧ t.mem = s.mem) ∧
    (let sig : BitVec 3072 := Config.sign (sha256 (reportBytes s nonce))
     let report : OutMsg := .report nonce s.recHash s.fwHash (s.parts.map fun p => (p.pid, p.digest)) s.pkgRank sig
     exec (.attestationRequest nonce) s = .next { s with outbox := s.outbox ++ [report] }) ∧
    (field (s.rankAt 4 core.toNat) 31 1 = 0 → exec (.hostdbWrite core) s = .next s) ∧
    (field (s.rankAt 4 core.toNat) 31 1 = 1 → residentOn s core.toNat = none → ∀ p m,
      s.part? (field (s.rankAt 4 core.toNat) 16 10) = some p → m ∈ p.saved → m.rank = core.toNat →
      ∃ t q k, exec (.hostdbWrite core) s = .next t ∧ t.cores = s.cores ∧ t.mem = s.mem ∧ t.part? p.pid = some q ∧ k ∈ q.saved ∧
        k.rank = m.rank ∧ k.core.ctl.intpend = setField m.core.ctl.intpend 3 1 1) ∧
    (field (s.rankAt 4 core.toNat) 31 1 = 1 → (residentOn s core.toNat).isSome = true → ∃ t, exec (.hostdbWrite core) s = .next t ∧
      (t.coreAt core.toNat).ctl.intpend = setField (s.coreAt core.toNat).ctl.intpend 3 1 1 ∧ t.mem = s.mem ∧
      ∀ q, q ≠ core.toNat → t.coreAt q = s.coreAt q) ∧
    (s.blzLock = true → ∀ i ∈ [Instr.blztrigWrite, .blazePinTrigger], ∃ t, exec i s = .next t ∧ t.blzDue = s.blzDue ∧
      t.blzMissed.toNat = min 0xFFFF (s.blzMissed.toNat + 1)) ∧
    (s.blzLock = false → ∀ i ∈ [Instr.blztrigWrite, .blazePinTrigger],
      exec i s = .next { s with blzDue := some (s.blzDue.getD (s.cycle + 64)) }) ∧
    (s.blzLock = false → blazeTimeDue s = true →
      exec .blazeTimeTrigger s = .next { s with blzTime := none, blzDue := some (s.blzDue.getD (s.cycle + 64)) }) ∧
    (blazeTimeDue s = false → exec .blazeTimeTrigger s = .next s) ∧
    exec .blzctlUnlock s = .next { s with blzLock := false } ∧
    (s.blzDue = none → exec .blazeLatch s = .next s) ∧
    (s.blzDue = some due → s.cycle < due → exec .blazeLatch s = .next s) ∧
    (s.blzDue = some due → due ≤ s.cycle → (∀ e ∈ s.cores, e.2.blzhalt = false) → ∃ t, exec .blazeLatch s = .next t ∧
      t.blzLock = true ∧ t.blzDue = none ∧ t.blzSeq = s.blzSeq + 1#32 ∧ t.mem = s.mem ∧
      ∀ r, (t.coreAt r).g = (s.coreAt r).g ∧ (t.coreAt r).snap.pcS = (s.coreAt r).pc ∧
        (t.coreAt r).snap.cycle = BitVec.ofNat 64 s.cycle ∧ (t.coreAt r).snap.seq = s.blzSeq + 1#32 ∧
        (t.coreAt r).ctl.intpend = setField (s.coreAt r).ctl.intpend 1 1 1) ∧
    exec .timeServoLockLoss s = .next { s with locked := false, slew := 0 } ∧
    exec (.timeServoLockRegain ps) s = .next { s with locked := true, slew := (ps : Int) - s.ptp } ∧
    (let u : State := tick s due
     s.ptp ≤ u.ptp ∧ (u.ptp : Int) + u.slew = s.ptp + 1064 * due + s.slew ∧
      (0 ≤ s.slew → 0 ≤ u.slew ∧ u.slew ≤ s.slew) ∧ (s.slew ≤ 0 → s.slew ≤ u.slew ∧ u.slew ≤ 0))) ∧
  (∀ (s : State) (k : UePacket) (addr n i : Nat) (bs : List Byte) (p : Part) (q : StorageReq),
    let moves : Prop := region k.addr = 0xC ∧ coordPkg k.addr = s.pkgRank ∧ field (s.rankAt 4 (coordCore k.addr).toNat) 30 1 = 1
    let resent (pair : Nat) : Prop := (pair, k.seq) ∈ s.ueRetry
    let again : Prop := ∃ pair, k.pair = some pair ∧
      ((k.seq < stepsOf s.ueSeq pair ∧ ¬resent pair) ∨ ∃ q ∈ s.packets, q.pair = k.pair ∧ q.seq = k.seq)
    let turn : Prop := ∀ pair, k.pair = some pair → k.seq = stepsOf s.ueSeq pair ∨ resent pair
    (k.op = .unsupported → exec (.uePacketArrival k) s = .next { s with outbox := s.outbox ++ [.nack k.seq] }) ∧
    (k.op ≠ .unsupported →
      (again → exec (.uePacketArrival k) s = .next s) ∧
      (¬again → (¬turn ∨ moves) → exec (.uePacketArrival k) s = .next { s with packets := s.packets ++ [k] }) ∧
      (¬again → turn → ¬moves →
        (∀ pair, k.pair = some pair →
          (¬resent pair → ∀ ok t, packetIn { s with ueSeq := Table.set s.ueSeq pair (k.seq + 1) } (k.key.toNat % 1024) k = (ok, t) →
            exec (.uePacketArrival k) s = .next (if ok then t else refusePacket t k)) ∧
          (resent pair → ∀ ok t, packetIn { s with ueRetry := s.ueRetry.erase (pair, k.seq) } (k.key.toNat % 1024) k = (ok, t) →
            exec (.uePacketArrival k) s = .next (if ok then t else refusePacket t k))) ∧
        (k.pair = none →
          ((∀ e ∈ s.keys, e.grants k.key k.addr.toNat (UeOp.needs k.op).1 (UeOp.needs k.op).2 = false) →
            exec (.uePacketArrival k) s = .next { s with outbox := s.outbox ++ [.nack k.seq] }) ∧
          (∀ e, s.keys.find? (fun e => e.grants k.key k.addr.toNat (UeOp.needs k.op).1 (UeOp.needs k.op).2) = some e →
            ∀ place, coordPlace s (field e.lo 0 16) k.addr = some place → k.op = .write bs →
              ∃ t, exec (.uePacketArrival k) s = .next t ∧ t.mem = s.mem.write place bs)))) ∧
    (s.hostCxl = true → s.link = true →
      (addr + bs.length ≤ s.hostSize → addr % 64 + bs.length ≤ 64 → ∃ t, exec (.hostCoherentAccess addr (some bs) n) s = .next t ∧
        t.mem = s.mem.write (hostKey addr) bs) ∧
      (addr + n ≤ s.hostSize → addr % 64 + n ≤ 64 → exec (.hostCoherentAccess addr none n) s = .next { s with outbox := s.outbox ++
        [.reply (if s.poisoned (hostKey addr) n then none else some (s.mem.read (hostKey addr) n))] })) ∧
    (s.hostCxl = false ∨ s.link = false ∨ s.hostSize < addr + bs.length ∨ 64 < addr % 64 + bs.length →
      exec (.hostCoherentAccess addr (some bs) n) s = .next s) ∧
    (s.part? s.me.pid = some p → p.sq.reqs[i]? = some q →
      (q.status.isSome = true → exec (.storageRequestComplete i bs false) s = .next s) ∧
      (q.status = none → exec (.storageRequestComplete i bs true) s = .next (storageEnd s p.pid i q 3)) ∧
      (q.status = none → q.write = true → ∀ t,
        (∀ x, hubRead s p.ptroot q.buf.toNat q.len = (some x, t) → exec (.storageRequestComplete i bs false) s =
          .next (storageEnd { t with outbox := t.outbox ++ [.storage p.pid q.index x] } p.pid i q 0)) ∧
        (hubRead s p.ptroot q.buf.toNat q.len = (none, t) → exec (.storageRequestComplete i bs false) s =
          .next (storageEnd t p.pid i q 2))) ∧
      (q.status = none → q.write = false → ∀ ok t,
        hubWrite s p.ptroot q.buf.toNat ((bs ++ List.replicate q.len 0#8).take q.len) = (ok, t) →
        exec (.storageRequestComplete i bs false) s = .next (storageEnd t p.pid i q (if ok then 0 else 2)))))

/-- 19_integration.md R480, R481, R486, R487, R493, R496, 01_machine.md R28: power and clocks. Bring-up on a module
that is not ready ends ready with every step done, or failed at its step; a trip takes power and the contents of the
dies and is logged; a throttle lowers a clock by one step and a restoration raises it, within its range and not while
the input is low; a flit is taken only by its number; a plane goes out of service once; module reset and the loss of
input leave the reset state, with the protected version, the certificate and the host's own memory. (Model's choices:
What fails in bring-up is an argument (log entry 8); the configuration record's reset is log entry 2; what a trip
leaves is log entry 92.) -/
def Obligations.PowerEvents : Prop :=
  ∀ (s : State) (b : BringUp) (region cluster slack mv plane seq : Nat),
    let hosts (t : State) : Prop := ∀ a, t.mem.get a =
      if 0x1000_0000_0000 ≤ a ∧ a < 0xC * 2 ^ 52 then s.mem.get a else 0#8
    (s.ready = true → exec (.powerOnBringUp b) s = .next s) ∧
    (s.ready = false →
      (failStep s b = 9 → ∃ t, exec (.powerOnBringUp b) s = .next t ∧ t.ready = true ∧ t.power = true ∧ t.pkgRank = b.pkg ∧
        t.locked = true ∧ t.ptp = b.ps ∧ t.slew = 0 ∧ t.link = true ∧ field t.bootstat 32 8 = trainedRate b ∧ t.recHash = b.recHash ∧ t.fwHash = b.fwHash ∧ t.svn.toNat = max s.svn.toNat b.svn.toNat) ∧
      (1 ≤ failStep s b → failStep s b < 9 → ∃ t, exec (.powerOnBringUp b) s = .next t ∧ t.ready = false ∧ field t.bootstat 0 8 = 3 ∧
        field t.bootstat 8 8 = failStep s b - 1 ∧ field t.bootstat 16 8 = failStep s b)) ∧
    (∃ t, exec .moduleReset s = .next t ∧ t.svn = s.svn ∧ t.cert = s.cert ∧ t.logs = s.logs ∧ t.cores = State.reset.cores ∧ hosts t ∧
      t.parts = [] ∧ t.cycle = 0) ∧
    (∃ t, exec .inputDisconnect s = .next t ∧ t.svn = s.svn ∧ t.cert = s.cert ∧ t.power = false ∧ hosts t ∧ t.logs = [] ∧
      t.cores = State.reset.cores) ∧
    (∀ e ∈ [(Instr.thermalTrip, LogEvent.thermalTrip), (.lowFlowTrip, .lowFlowTrip)], ∃ t, exec e.1 s = .next t ∧ t.power = false ∧
      field t.bootstat 0 8 = 4 ∧ t.link = false ∧ t.cores = [] ∧ t.logs = s.logs ++ [e.2] ∧ ∀ a,
        t.mem.get a = if 0x0090_0000_0000 ≤ a ∧ a < 0xC * 2 ^ 52 then s.mem.get a else 0#8) ∧
    exec .overvoltageEvent s = .next { s with logs := s.logs ++ [.overVoltage] } ∧
    exec .coolantEvent s = .next { s with logs := s.logs ++ [.coolant] } ∧
    (∃ t, exec (.junctionThrottle region) s = .next t ∧ stepsOf t.clocks region = min 15 (stepsOf s.clocks region + 1) ∧
      t.cores = s.cores ∧ t.mem = s.mem) ∧
    (s.input < 44000 → exec (.clockStepRestore region) s = .next s) ∧
    (44000 ≤ s.input → ∃ t, exec (.clockStepRestore region) s = .next t ∧ stepsOf t.clocks region = stepsOf s.clocks region - 1 ∧
      t.cores = s.cores ∧ t.mem = s.mem) ∧
    (∃ t, exec (.slackThrottle cluster slack) s = .next t ∧ stepsOf t.slacks cluster = (if slack < 12 then 1 else 0) ∧ t.mem = s.mem) ∧
    (550 ≤ mv → mv ≤ 800 → ∃ t, exec (.marginReplan cluster mv) s = .next t ∧ stepsOf t.volts cluster = mv ∧
      (stepsOf s.volts cluster < mv → stepsOf t.slacks cluster = 0)) ∧
    (mv < 550 ∨ 800 < mv → exec (.marginReplan cluster mv) s = .next s) ∧
    (seq ≠ stepsOf s.linkSeq plane → exec (.linkFlitRetry plane seq) s = .next s) ∧
    (seq = stepsOf s.linkSeq plane → ∃ t, exec (.linkFlitRetry plane seq) s = .next t ∧ stepsOf t.linkSeq plane = seq + 1) ∧
    (∃ t, exec (.planeOutOfService plane) s = .next t ∧ plane ∈ t.planes ∧ (∀ q, q ≠ plane → (q ∈ t.planes ↔ q ∈ s.planes)) ∧
      ∀ a b, planeOf t a b = plane → ∀ i, i < 24 → (24 * (a / 1024) + ((a + b) % 24 + i) % 24) ∈ t.planes)

/-- 03_numbers.md R80: an IEEE operation on a NaN answers the canonical NaN of the format, and raises NV exactly for a
signalling one; so do ∞ − ∞, 0 × ∞ and the root of a negative number, with NV; x / 0 raises DZ. -/
def Obligations.NanResults : Prop :=
  ∀ (f a b : Nat) (m : Rnd), f ∈ [8, 9, 10, 11] →
    let x : Val := unpack f a
    let y : Val := unpack f b
    let nv (p : Prop) (r : Nat × BitVec 6) : Prop := r.1 = canonNan f ∧ (r.2 = fNV ↔ p) ∧ (r.2 = 0#6 ↔ ¬p)
    (x.isNan = true ∨ y.isNan = true →
      nv (x.snan = true ∨ y.snan = true) (addF f a b m) ∧ nv (x.snan = true ∨ y.snan = true) (mulF f a b m) ∧
      nv (x.snan = true ∨ y.snan = true) (divVal f x y m)) ∧
    (x.isNan = true → nv (x.snan = true) (sqrtVal f x m)) ∧
    (x.isInf = true → y.isInf = true → x.neg ≠ y.neg → addF f a b m = (canonNan f, fNV)) ∧
    ((x.isInf = true ∧ y.isZero = true) ∨ (x.isZero = true ∧ y.isInf = true) → mulF f a b m = (canonNan f, fNV)) ∧
    (x.isNan = false → x.neg = true → x.isZero = false → sqrtVal f x m = (canonNan f, fNV)) ∧
    (∀ n p e, x = .fin n (p + 1) e → y.isZero = true → divVal f x y m = (infBits f (n != y.neg), fDZ)) ∧
    canonNan 11 = 0x7FF8_0000_0000_0000 ∧ canonNan 10 = 0x7FC0_0000 ∧ canonNan 8 = 0x7E00 ∧ canonNan 9 = 0x7FC0

/-- 03_numbers.md R85: a value that a format represents rounds to itself in every mode, and no flag is set. -/
def Obligations.RepresentableExact : Prop :=
  ∀ (f a : Nat) (m : Rnd), f ∈ [8, 9, 10, 11] → a < 2 ^ fmtBits f → (unpack f a).isNan = false →
    roundVal f (unpack f a) m = (a, 0#6)

/-- 04_scalar.md R112, R115, R116, 15_system.md R427: a step that the agenda gives to the walker of a core runs the
word that it decodes. At the S walker, outside a loop, with the task running, nothing taken at the boundary and no
hold: the step is exec of the decoded instruction, on the state after the fetch and after the loads that it needs,
with the debug step and the hold around it, or the word holds for the engines or for a load from a rank in transit. At
another walker it is exec of the word there. A step of the table without an encoding is exec of it at its core, where
a walker that makes it may go on. With an empty agenda and nothing due it is the turn of the agent whose turn it is;
without power nothing runs. (Model's choices: The agenda and the order without one are the model's choice (log entry
4).) -/
def Obligations.StepRunsWord : Prop :=
  ∀ (s u : State) (r w : Nat) (i : Instr) (e : Engine) (rest : List Action),
    let h : State := housekeep (tick s 1)
    let t : State := { h with agenda := rest, rank := r }
    let v : State := sReady t
    let y : State := sendWord u w
    let z : State := landFor y i
    let back (x : Host.Outcome State Fault Refusal) : Host.Outcome State Fault Refusal := andThen x fun q => { q with rank := h.rank }
    (s.power = false → s.agenda = [] → step s = .next (tick s 1)) ∧
    (s.power = true →
      (h.agenda = .walker r .s :: rest → t.me.runs = true → sBoundary t = none → t.me.blocked = none → t.me.slipHeld = false →
        gangWaits t = false → v.me.nestS = none → sFetch v = .ok (w, u) → wordEngine w = .s → decodeWord w = .ok i →
        (v.me.follows = true → isBranchWord w = true → leadPassed v = true) → y.me.nestS = none →
        (awaitsRank z i = true → step s = back (andThen (stepEnd (.next (z.setMe { z.me with hold := some (.rankTransit, z.cycle) })))
          (keepHold t.me.hold))) ∧
        (awaitsRank z i = false → sMay z i = true → step s = back (andThen (stepEnd (exec i z)) (keepHold t.me.hold))) ∧
        (awaitsRank z i = false → sMay z i = false → step s = back (andThen (stepEnd (.next (z.setMe { z.me with hold := some (.engines, z.cycle) })))
          (keepHold t.me.hold)))) ∧
      (h.agenda = .walker r e :: rest → e ≠ .s → t.me.eMay e = true → t.me.nestOf e = none →
        wordAt t e = some w → wordEngine w = e → decodeWord w = .ok i →
        step s = back (andThen (exec i t) (keepStall e (e != .d || t.me.dq.all fun q => q.phase == .moved) t))) ∧
      (h.agenda = .event r i :: rest → encode i = none → step s = back (if eventMay t i then exec i t else .next t)) ∧
      (h.agenda = [] → nextMsg h = none → someCoreDue h = none → hubDue h = none → step s = turnStep h)) ∧
    (∀ k : State, k.kettle.tested = false → decodeKettle (k.mem.readNat k.kettle.pc.toNat 4) = .ok i → k.cur = .kettle →
      turnStep k = exec i k)

/-- 02_encoding.md: decode of encode is the instruction, for every well-formed instruction that has an encoding. -/
def Obligations.RoundTrip : Prop :=
  ∀ i : Instr, Sys2Proof.Laws.RoundTrip.Statement i

/-- 02_encoding.md R55 to R69 with its Example 1, 04_scalar.md Example 3, 14_futures.md R423: words that the spec
writes out, or that are written from its tables, are the instructions they stand for. -/
def Obligations.WordsDecode : Prop :=
  decodeTableWord 32 0x0080_0A08 = some (.addi 5#6 0#6 4#11) ∧
  decodeTableWord 32 0xFFE2_8A08 = some (.addi 5#6 5#6 0x7FF#11) ∧
  decodeTableWord 32 0x0000_0004 = some (.add 0#6 0#6 0#6) ∧
  decodeTableWord 32 0xFF80_0A44 = some (.bne 5#6 0#6 0x7FC#11) ∧
  decodeTableWord 32 0x0000_016C = some .exit ∧
  decodeTableWord 32 0x0061_082C = some (.capBnd 4#6 2#6 3#6) ∧
  decodeTableWord 32 0x10C2_0A2C = some (.capInc 5#6 4#6 6#6) ∧
  decodeTableWord 96 0x1000_0240_00C0_0001_0038_1411 = some (.vfma
    { pz := false, cap2 := 0#6, cap1 := 7#6, pred := 0#3, rnd := 0#3, fmt := 0xA#4, d := .vreg 1#5
      a := .loc 2#4 0#8 1#6 true, b := .cap1 }) ∧
  decodeTableWord 192 0x4000_0002_4000_0001_4000_0008_0000_0022 = some (.mma
    { nb := false, cap2 := 0#6, cap1 := 0#6, sig := 0#4, wait := 0#4, d := .reg 8#5, a := .reg 1#5, b := .reg 2#5
      shape := { cols := 0#7, rows := 0#7, fmt := 0#5 }, mask := { enable := false, base := 0#4, off := 0#19 } }) ∧
  decodeTableWord 96 0x8C00_2018_8800_0018_0006_2407 = some (.dcpy
    { nb := false, cap2 := 0#6, cap1 := 3#6, sig := 1#4, wait := 2#4, d := .loc 2#4 0#19 0x18#5, s := .loc 3#4 0x40#19 0x18#5 }) ∧
  decodeTableWord 32 0x0002_858B = some (.ktTake 11#5 5#5) ∧ decodeTableWord 32 0x0002_958B = some (.ktMark 11#5 5#5) ∧
  decodeTableWord 32 0 = none

/-- 04_scalar.md R130, 05_memory.md R160, 06_ordering.md R206, 07_sync.md R214, 08_tasks.md R248, R252, R266,
09_compose.md R286, 12_copy.md R361, 15_system.md R437, R455: what reset leaves where the spec gives it: the limits
and offsets of the control registers, empty presence tags, no partition, no task, no future, the cycle count 0; memory
lists nothing and has its canonical form. Every core of a rank that nothing has touched stands so. (Model's choices:
That memory lists nothing and reads 0 is log entry 1; that registers without a reset value are zero is log entry 2 and
is not stated.) -/
def Obligations.ResetState : Prop :=
  let s : State := State.reset
  s.mem.wf = true ∧ s.mem = [] ∧ s.cycle = 0 ∧ s.parts = [] ∧ s.futs = [] ∧ s.fellctl = 18800#32 ∧
  ∀ r, let c : Core := s.coreAt r
    c.pres = 0#8192 ∧ c.task = none ∧ c.hw = [] ∧ c.halt = none ∧ c.group = .single ∧ c.ctl.slipw = 512#32 ∧
    field c.ctl.spdist 0 15 = 16384 ∧ field c.ctl.spdist 16 16 = 0 ∧ field c.ctl.cwwin 19 5 = 19 ∧ field c.ctl.cwwin 0 19 = 0 ∧
    c.ctl.ownwait = 4096#32 ∧ c.ctl.arflg = 0#32 ∧ c.ctl.parkt = 4096#32 ∧ c.ctl.grpwd = 65536#32 ∧
    field c.ctl.dqcfg 19 5 = 8 ∧ field c.ctl.dqcfg 6 13 = 0x1E00 ∧ field c.ctl.msgcfg 24 3 = 4 ∧ field c.ctl.msgcfg 6 13 = 0x1F00 ∧
    field c.ctl.stealcfg 0 8 = 4 ∧ field c.ctl.stealcfg 8 8 = 8 ∧ field c.ctl.stealcfg 16 8 = 16 ∧
    field c.ctl.framebase 14 5 = 26 ∧ c.ctl.cyccmp = 0xFFFF_FFFF_FFFF_FFFF#64 ∧ c.ctl.inten = 0#32 ∧ c.depth = 0 ∧
    (∀ i, c.rbind i = Binding.none) ∧ ∀ i, c.rmail i = 0#32

/-- 05_memory.md R150, R152: memory answers what was last written. A store leaves its bytes, little-endian, at its key
and every other byte, clears the capability tag of every unit that it touches and no other, clears poison, and keeps
the canonical form; a 16-byte unit stored with its tag reads back as it was stored. -/
def Obligations.MemoryLaws : Prop :=
  ∀ (s : State) (k n v : Nat) (bs : List Byte) (x : GVal) (p : Mem),
    let t : State := s.store k bs
    (s.mem.wf = true → t.mem.wf = true ∧ (p.wf = true → (s.storeSparse k n p).mem.wf = true)) ∧
    t.mem.read k bs.length = bs ∧ (s.storeNat k n v).mem.readNat k n = v % 256 ^ n ∧
    (∀ a, (a < k ∨ k + bs.length ≤ a) → t.mem.get a = s.mem.get a) ∧
    (bs ≠ [] → ∀ a, t.ctag a = true ↔ s.ctag a = true ∧ ¬(k / 16 ≤ a / 16 ∧ a / 16 ≤ (k + bs.length - 1) / 16)) ∧
    (t.poisoned k bs.length = false) ∧
    (k % 16 = 0 → let u : State := s.storeTagged k (leBytes 16 x.bits.toNat) x.tag
      u.loadUnit k = x ∧ u.mem.wf = (s.mem.write k (leBytes 16 x.bits.toNat)).wf) ∧
    (∀ i, i < n → (s.storeNat k n v).mem.get (k + i) = BitVec.ofNat 8 (v / 256 ^ i))
end

