-- ==== Sys2Proof/Laws/Mem.lean ====
section
/-! SUPPORT. The laws of sparse bytes: what a read finds after a write or an overlay, and that every operation on memory
keeps its canonical form. -/

namespace Sys2Proof.Machine

/-! One byte. -/

theorem Mem.get_append_none {m p : Mem} {a : Nat} (h : ∀ c ∈ m, c.1 ≠ a) : Mem.get (m ++ p) a = Mem.get p a := by
  induction m with
  | nil => rfl
  | cons c t ih =>
    obtain ⟨k, b⟩ := c
    have hk : k ≠ a := h (k, b) (by simp)
    simp only [List.cons_append, Mem.get, if_neg hk]
    exact ih fun c hc => h c (by simp [hc])

theorem Mem.get_none {m : Mem} {a : Nat} (h : ∀ c ∈ m, c.1 ≠ a) : Mem.get m a = 0#8 := by
  have := Mem.get_append_none (p := []) h
  simpa [Mem.get] using this

theorem Mem.get_append_left {m p : Mem} {a : Nat} (h : ∀ c ∈ p, c.1 ≠ a) : Mem.get (m ++ p) a = Mem.get m a := by
  induction m with
  | nil => simpa [Mem.get] using Mem.get_none h
  | cons c t ih =>
    obtain ⟨k, b⟩ := c
    simp only [List.cons_append, Mem.get, ih]

theorem Mem.get_filter {m : Mem} {a : Nat} (f : Nat × Byte → Bool) (h : ∀ b, f (a, b) = true) :
    Mem.get (m.filter f) a = Mem.get m a := by
  induction m with
  | nil => rfl
  | cons c t ih =>
    obtain ⟨k, b⟩ := c
    by_cases hk : k = a
    · subst hk
      simp [Mem.get, h]
    · by_cases hf : f (k, b) = true
      · simp [hf, Mem.get, hk, ih]
      · simp [hf, Mem.get, hk, ih]

theorem Mem.get_below {m : Mem} {a k : Nat} (h : k < a) : Mem.get (m.below a) k = Mem.get m k :=
  Mem.get_filter _ (by simp [h])

theorem Mem.get_above {m : Mem} {a k : Nat} (h : a ≤ k) : Mem.get (m.above a) k = Mem.get m k :=
  Mem.get_filter _ (by simp [h])

theorem Mem.below_key {m : Mem} {a : Nat} : ∀ c ∈ m.below a, c.1 < a := by
  intro c hc
  simpa using (List.mem_filter.mp hc).2

theorem Mem.above_key {m : Mem} {a : Nat} : ∀ c ∈ m.above a, a ≤ c.1 := by
  intro c hc
  simpa using (List.mem_filter.mp hc).2

theorem Mem.cells_key {bs : List Byte} {a : Nat} : ∀ c ∈ Mem.cells a bs, a ≤ c.1 ∧ c.1 < a + bs.length := by
  induction bs generalizing a with
  | nil => intro c hc; simp [Mem.cells] at hc
  | cons b t ih =>
    intro c hc
    simp only [Mem.cells] at hc
    split at hc
    · have := ih c hc; simp only [List.length_cons]; omega
    · rcases List.mem_cons.mp hc with rfl | hc
      · simp
      · have := ih c hc; simp only [List.length_cons]; omega

theorem Mem.get_cells {bs : List Byte} {a i : Nat} (h : i < bs.length) : Mem.get (Mem.cells a bs) (a + i) = bs[i] := by
  induction bs generalizing a i with
  | nil => simp at h
  | cons b t ih =>
    cases i with
    | zero =>
      simp only [Mem.cells]
      split
      · rename_i hb
        rw [Mem.get_none]
        · simp [hb]
        · intro c hc; have := Mem.cells_key c hc; omega
      · simp [Mem.get]
    | succ i =>
      have hi : i < t.length := by simpa using h
      have := ih (a := a + 1) hi
      simp only [Mem.cells, List.getElem_cons_succ]
      rw [show a + (i + 1) = a + 1 + i by omega]
      split
      · exact this
      · rw [Mem.get, if_neg (by omega)]
        exact this

/-- A read of a byte that was written gives the byte written. -/
theorem Mem.get_write_in {m : Mem} {a i : Nat} {bs : List Byte} (h : i < bs.length) :
    Mem.get (m.write a bs) (a + i) = bs[i] := by
  unfold Mem.write
  rw [Mem.get_append_left (by intro c hc; have := Mem.above_key c hc; omega),
    Mem.get_append_none (by intro c hc; have := Mem.below_key c hc; omega), Mem.get_cells h]

/-- A write leaves every other byte as it was. -/
theorem Mem.get_write_out {m : Mem} {a k : Nat} {bs : List Byte} (h : k < a ∨ a + bs.length ≤ k) :
    Mem.get (m.write a bs) k = Mem.get m k := by
  unfold Mem.write
  rcases h with h | h
  · rw [Mem.get_append_left (by intro c hc; have := Mem.above_key c hc; omega),
      Mem.get_append_left (by intro c hc; have := Mem.cells_key c hc; omega), Mem.get_below h]
  · rw [Mem.get_append_none (by
      intro c hc
      rcases List.mem_append.mp hc with hc | hc
      · have := Mem.below_key c hc; omega
      · have := Mem.cells_key c hc; omega), Mem.get_above h]

/-! Bytes of a range. -/

theorem Mem.read_length (m : Mem) (a n : Nat) : (m.read a n).length = n := by
  induction n generalizing a with
  | zero => rfl
  | succ n ih => simp [Mem.read, ih]

theorem Mem.read_get (m : Mem) (a n i : Nat) (h : i < n) : (m.read a n)[i]'(by rw [Mem.read_length]; exact h) = Mem.get m (a + i) := by
  induction n generalizing a i with
  | zero => omega
  | succ n ih =>
    cases i with
    | zero => simp [Mem.read]
    | succ i =>
      simp only [Mem.read, List.getElem_cons_succ]
      rw [ih (a + 1) i (by omega), show a + 1 + i = a + (i + 1) by omega]

/-- Two memories that agree on a range read alike there. -/
theorem Mem.read_congr {m p : Mem} {a n : Nat} (h : ∀ k, a ≤ k → k < a + n → Mem.get m k = Mem.get p k) :
    m.read a n = p.read a n := by
  induction n generalizing a with
  | zero => rfl
  | succ n ih =>
    simp only [Mem.read]
    rw [h a (by omega) (by omega), ih fun k h1 h2 => h k (by omega) (by omega)]

/-- A read after a write to the same place gives what was written. -/
theorem Mem.read_write_same (m : Mem) (a : Nat) (bs : List Byte) : (m.write a bs).read a bs.length = bs := by
  apply List.ext_getElem
  · exact Mem.read_length _ _ _
  · intro i h1 h2
    rw [Mem.read_get _ _ _ _ h2, Mem.get_write_in h2]

/-- A read apart from what was written gives what it gave. -/
theorem Mem.read_write_out {m : Mem} {a b n : Nat} {bs : List Byte} (h : b + n ≤ a ∨ a + bs.length ≤ b) :
    (m.write a bs).read b n = m.read b n :=
  Mem.read_congr fun k _ _ => Mem.get_write_out (by omega)

/-- The number that was written is read back, modulo the width of the access. -/
theorem Mem.readNat_write (m : Mem) (a n v : Nat) : (m.write a (leBytes n v)).readNat a n = v % 256 ^ n := by
  have h := Mem.read_write_same m a (leBytes n v)
  rw [leBytes_length] at h
  unfold Mem.readNat
  rw [h, leNat_leBytes]

/-! The canonical form. -/

theorem Mem.wfFrom_mono {lo hi : Nat} {m : Mem} (h : hi ≤ lo) (w : Mem.wfFrom lo m = true) : Mem.wfFrom hi m = true := by
  cases m with
  | nil => rfl
  | cons c t =>
    obtain ⟨k, b⟩ := c
    simp only [Mem.wfFrom, Bool.and_eq_true, decide_eq_true_eq] at *
    exact ⟨⟨by omega, w.1.2⟩, w.2⟩

theorem Mem.wfFrom_filter {lo : Nat} {m : Mem} (f : Nat × Byte → Bool) (w : Mem.wfFrom lo m = true) :
    Mem.wfFrom lo (m.filter f) = true := by
  induction m generalizing lo with
  | nil => rfl
  | cons c t ih =>
    obtain ⟨k, b⟩ := c
    simp only [Mem.wfFrom, Bool.and_eq_true, decide_eq_true_eq] at w
    by_cases hf : f (k, b) = true
    · simp only [List.filter_cons, hf, if_true, Mem.wfFrom, Bool.and_eq_true, decide_eq_true_eq]
      exact ⟨w.1, ih w.2⟩
    · simp only [List.filter_cons, hf]
      exact Mem.wfFrom_mono (by omega) (ih w.2)

theorem Mem.wfFrom_append {lo mid : Nat} {m p : Mem} (hm : Mem.wfFrom lo m = true) (hk : ∀ c ∈ m, c.1 < mid)
    (hp : Mem.wfFrom mid p = true) (hl : lo ≤ mid) : Mem.wfFrom lo (m ++ p) = true := by
  induction m generalizing lo with
  | nil => exact Mem.wfFrom_mono hl hp
  | cons c t ih =>
    obtain ⟨k, b⟩ := c
    simp only [Mem.wfFrom, Bool.and_eq_true, decide_eq_true_eq] at hm
    simp only [List.cons_append, Mem.wfFrom, Bool.and_eq_true, decide_eq_true_eq]
    have := hk (k, b) (by simp)
    exact ⟨hm.1, ih hm.2 (fun c hc => hk c (by simp [hc])) (by simpa using this)⟩

theorem Mem.wfFrom_cells (a : Nat) (bs : List Byte) : Mem.wfFrom a (Mem.cells a bs) = true := by
  induction bs generalizing a with
  | nil => rfl
  | cons b t ih =>
    simp only [Mem.cells]
    split
    · exact Mem.wfFrom_mono (by omega) (ih (a + 1))
    · rename_i hb
      simp [Mem.wfFrom, hb, ih]

theorem Mem.wfFrom_above {m : Mem} {lo a : Nat} (w : Mem.wfFrom lo m = true) : Mem.wfFrom a (m.above a) = true := by
  induction m generalizing lo with
  | nil => rfl
  | cons c t ih =>
    obtain ⟨k, b⟩ := c
    simp only [Mem.wfFrom, Bool.and_eq_true, decide_eq_true_eq] at w
    unfold Mem.above
    by_cases hk : a ≤ k
    · simp only [List.filter_cons, hk, decide_true, if_true, Mem.wfFrom, Bool.and_eq_true]
      exact ⟨⟨trivial, w.1.2⟩, Mem.wfFrom_filter _ w.2⟩
    · simp only [List.filter_cons, hk, decide_false]
      exact ih w.2

/-- A write keeps the canonical form. -/
theorem Mem.wf_write {m : Mem} (h : m.wf = true) (a : Nat) (bs : List Byte) : (m.write a bs).wf = true := by
  unfold Mem.wf Mem.write at *
  rw [List.append_assoc]
  refine Mem.wfFrom_append (mid := a) (Mem.wfFrom_filter _ h) Mem.below_key ?_ (by omega)
  exact Mem.wfFrom_append (mid := a + bs.length) (Mem.wfFrom_cells a bs) (fun c hc => (Mem.cells_key c hc).2)
    (Mem.wfFrom_above h) (by omega)

theorem Mem.wfFrom_shift {m : Mem} {lo : Nat} (a : Nat) (w : Mem.wfFrom lo m = true) :
    Mem.wfFrom (a + lo) (m.map fun c => (a + c.1, c.2)) = true := by
  induction m generalizing lo with
  | nil => rfl
  | cons c t ih =>
    obtain ⟨k, b⟩ := c
    simp only [Mem.wfFrom, Bool.and_eq_true, decide_eq_true_eq] at w
    simp only [List.map_cons, Mem.wfFrom, Bool.and_eq_true, decide_eq_true_eq]
    exact ⟨⟨by omega, w.1.2⟩, by simpa [Nat.add_assoc] using ih w.2⟩

theorem Mem.wfFrom_unshift {m : Mem} {lo : Nat} (a : Nat) (h : a ≤ lo) (w : Mem.wfFrom lo m = true) :
    Mem.wfFrom (lo - a) (m.map fun c => (c.1 - a, c.2)) = true := by
  induction m generalizing lo with
  | nil => rfl
  | cons c t ih =>
    obtain ⟨k, b⟩ := c
    simp only [Mem.wfFrom, Bool.and_eq_true, decide_eq_true_eq] at w
    simp only [List.map_cons, Mem.wfFrom, Bool.and_eq_true, decide_eq_true_eq]
    have := ih (lo := k + 1) (by omega) w.2
    rw [show k + 1 - a = k - a + 1 by omega] at this
    exact ⟨⟨by omega, w.1.2⟩, this⟩

/-- A range taken out keeps the canonical form. -/
theorem Mem.wf_slice {m : Mem} (h : m.wf = true) (a n : Nat) : (m.slice a n).wf = true := by
  unfold Mem.wf Mem.slice Mem.below at *
  have := Mem.wfFrom_unshift a (le_refl a) (Mem.wfFrom_filter (fun c => decide (c.1 < a + n)) (Mem.wfFrom_above (a := a) h))
  simpa using this

/-- A range replaced keeps the canonical form. -/
theorem Mem.wf_overlay {m p : Mem} (h : m.wf = true) (hp : p.wf = true) (a n : Nat) : (m.overlay a n p).wf = true := by
  unfold Mem.wf Mem.overlay at *
  rw [List.append_assoc]
  refine Mem.wfFrom_append (mid := a) (Mem.wfFrom_filter _ h) Mem.below_key ?_ (by omega)
  refine Mem.wfFrom_append (mid := a + n) ?_ ?_ (Mem.wfFrom_above h) (by omega)
  · exact Mem.wfFrom_shift (lo := 0) a (Mem.wfFrom_filter _ hp)
  · intro c hc
    obtain ⟨d, hd, rfl⟩ := List.mem_map.mp hc
    have := Mem.below_key d hd
    simp only
    omega

/-- Memory after reset is in canonical form. -/
theorem reset_mem_wf : State.reset.mem.wf = true := rfl

/-! Stores. -/

/-- What a store writes, and nothing else. -/
@[simp] theorem State.store_mem (s : State) (key : Nat) (bs : List Byte) : (s.store key bs).mem = s.mem.write key bs := rfl
@[simp] theorem State.storeNat_mem (s : State) (key n v : Nat) : (s.storeNat key n v).mem = s.mem.write key (leBytes n v) := rfl
@[simp] theorem State.storeSparse_mem (s : State) (key n : Nat) (p : Mem) :
    (s.storeSparse key n p).mem = s.mem.overlay key n p := rfl
@[simp] theorem State.storeTagged_mem (s : State) (key : Nat) (bs : List Byte) (tag : Bool) :
    (s.storeTagged key bs tag).mem = s.mem.write key bs := by
  unfold State.storeTagged; cases tag <;> rfl

theorem State.store_wf {s : State} (h : s.mem.wf = true) (key : Nat) (bs : List Byte) : (s.store key bs).mem.wf = true :=
  Mem.wf_write h key bs
theorem State.storeNat_wf {s : State} (h : s.mem.wf = true) (key n v : Nat) : (s.storeNat key n v).mem.wf = true :=
  Mem.wf_write h key _
theorem State.storeTagged_wf {s : State} (h : s.mem.wf = true) (key : Nat) (bs : List Byte) (tag : Bool) :
    (s.storeTagged key bs tag).mem.wf = true := by
  rw [State.storeTagged_mem]; exact Mem.wf_write h key bs
theorem State.storeSparse_wf {s : State} {p : Mem} (h : s.mem.wf = true) (hp : p.wf = true) (key n : Nat) :
    (s.storeSparse key n p).mem.wf = true := Mem.wf_overlay h hp key n

/-! Tables and sorted keys. -/

theorem Table.find_set {α : Type} (l : List (Nat × α)) (a b : Nat) (v : α) :
    Table.find (Table.set l a v) b = if a = b then some v else Table.find l b := by
  induction l with
  | nil => simp [Table.set, Table.find]
  | cons c t ih =>
    obtain ⟨k, w⟩ := c
    unfold Table.set
    by_cases hk : k = a
    · subst hk
      by_cases hb : k = b <;> simp [Table.find, hb]
    · by_cases hb : k = b
      · subst hb
        simp [Table.find, hk, Ne.symm hk]
      · simp [Table.find, hk, hb, ih]

theorem Keys.mem_clear {l : List Nat} {a n k : Nat} : k ∈ Keys.clear l a n ↔ k ∈ l ∧ (k < a ∨ a + n ≤ k) := by
  simp [Keys.clear, List.mem_filter]

theorem Keys.mem_insert {l : List Nat} {a k : Nat} : k ∈ Keys.insert l a ↔ k = a ∨ k ∈ l := by
  induction l with
  | nil => simp [Keys.insert]
  | cons h t ih =>
    unfold Keys.insert
    split
    · simp
    · split
      · rename_i h1; subst h1; simp
      · simp [ih]; tauto

end Sys2Proof.Machine
end

