-- ==== Sys2Proof/Laws/State.lean ====
section
/-! SUPPORT. The laws of the state: what each update of a core, of a state or of a register leaves in each field, so that
no later proof unfolds a record update. -/

set_option Elab.async false

namespace Sys2Proof.Machine

/-! One core of the state. -/

@[simp] theorem State.setCore_agenda (s : State) (r : Nat) (c : Core) : (s.setCore r c).agenda = s.agenda := rfl
@[simp] theorem State.setMe_agenda (s : State) (c : Core) : (s.setMe c).agenda = s.agenda := rfl
@[simp] theorem State.modCore_agenda (s : State) (r : Nat) (f : Core → Core) : (s.modCore r f).agenda = s.agenda := rfl
@[simp] theorem State.modMe_agenda (s : State) (f : Core → Core) : (s.modMe f).agenda = s.agenda := rfl
@[simp] theorem State.setCore_net (s : State) (r : Nat) (c : Core) : (s.setCore r c).net = s.net := rfl
@[simp] theorem State.setMe_net (s : State) (c : Core) : (s.setMe c).net = s.net := rfl
@[simp] theorem State.modCore_net (s : State) (r : Nat) (f : Core → Core) : (s.modCore r f).net = s.net := rfl
@[simp] theorem State.modMe_net (s : State) (f : Core → Core) : (s.modMe f).net = s.net := rfl
@[simp] theorem State.setCore_lazy (s : State) (r : Nat) (c : Core) : (s.setCore r c).lazy = s.lazy := rfl
@[simp] theorem State.setMe_lazy (s : State) (c : Core) : (s.setMe c).lazy = s.lazy := rfl
@[simp] theorem State.modCore_lazy (s : State) (r : Nat) (f : Core → Core) : (s.modCore r f).lazy = s.lazy := rfl
@[simp] theorem State.modMe_lazy (s : State) (f : Core → Core) : (s.modMe f).lazy = s.lazy := rfl
@[simp] theorem State.setCore_cur (s : State) (r : Nat) (c : Core) : (s.setCore r c).cur = s.cur := rfl
@[simp] theorem State.setMe_cur (s : State) (c : Core) : (s.setMe c).cur = s.cur := rfl
@[simp] theorem State.modCore_cur (s : State) (r : Nat) (f : Core → Core) : (s.modCore r f).cur = s.cur := rfl
@[simp] theorem State.modMe_cur (s : State) (f : Core → Core) : (s.modMe f).cur = s.cur := rfl
@[simp] theorem State.setCore_rank (s : State) (r : Nat) (c : Core) : (s.setCore r c).rank = s.rank := rfl
@[simp] theorem State.setMe_rank (s : State) (c : Core) : (s.setMe c).rank = s.rank := rfl
@[simp] theorem State.modCore_rank (s : State) (r : Nat) (f : Core → Core) : (s.modCore r f).rank = s.rank := rfl
@[simp] theorem State.modMe_rank (s : State) (f : Core → Core) : (s.modMe f).rank = s.rank := rfl
@[simp] theorem State.setCore_kid (s : State) (r : Nat) (c : Core) : (s.setCore r c).kid = s.kid := rfl
@[simp] theorem State.setMe_kid (s : State) (c : Core) : (s.setMe c).kid = s.kid := rfl
@[simp] theorem State.modCore_kid (s : State) (r : Nat) (f : Core → Core) : (s.modCore r f).kid = s.kid := rfl
@[simp] theorem State.modMe_kid (s : State) (f : Core → Core) : (s.modMe f).kid = s.kid := rfl
@[simp] theorem State.setCore_fresh (s : State) (r : Nat) (c : Core) : (s.setCore r c).fresh = s.fresh := rfl
@[simp] theorem State.setMe_fresh (s : State) (c : Core) : (s.setMe c).fresh = s.fresh := rfl
@[simp] theorem State.modCore_fresh (s : State) (r : Nat) (f : Core → Core) : (s.modCore r f).fresh = s.fresh := rfl
@[simp] theorem State.modMe_fresh (s : State) (f : Core → Core) : (s.modMe f).fresh = s.fresh := rfl
@[simp] theorem State.setCore_saved (s : State) (r : Nat) (c : Core) : (s.setCore r c).saved = s.saved := rfl
@[simp] theorem State.setMe_saved (s : State) (c : Core) : (s.setMe c).saved = s.saved := rfl
@[simp] theorem State.modCore_saved (s : State) (r : Nat) (f : Core → Core) : (s.modCore r f).saved = s.saved := rfl
@[simp] theorem State.modMe_saved (s : State) (f : Core → Core) : (s.modMe f).saved = s.saved := rfl
@[simp] theorem State.setCore_images (s : State) (r : Nat) (c : Core) : (s.setCore r c).images = s.images := rfl
@[simp] theorem State.setMe_images (s : State) (c : Core) : (s.setMe c).images = s.images := rfl
@[simp] theorem State.modCore_images (s : State) (r : Nat) (f : Core → Core) : (s.modCore r f).images = s.images := rfl
@[simp] theorem State.modMe_images (s : State) (f : Core → Core) : (s.modMe f).images = s.images := rfl
@[simp] theorem State.setCore_mem (s : State) (r : Nat) (c : Core) : (s.setCore r c).mem = s.mem := rfl
@[simp] theorem State.setMe_mem (s : State) (c : Core) : (s.setMe c).mem = s.mem := rfl
@[simp] theorem State.modCore_mem (s : State) (r : Nat) (f : Core → Core) : (s.modCore r f).mem = s.mem := rfl
@[simp] theorem State.modMe_mem (s : State) (f : Core → Core) : (s.modMe f).mem = s.mem := rfl
@[simp] theorem State.setCore_ctags (s : State) (r : Nat) (c : Core) : (s.setCore r c).ctags = s.ctags := rfl
@[simp] theorem State.setMe_ctags (s : State) (c : Core) : (s.setMe c).ctags = s.ctags := rfl
@[simp] theorem State.modCore_ctags (s : State) (r : Nat) (f : Core → Core) : (s.modCore r f).ctags = s.ctags := rfl
@[simp] theorem State.modMe_ctags (s : State) (f : Core → Core) : (s.modMe f).ctags = s.ctags := rfl
@[simp] theorem State.setCore_poison (s : State) (r : Nat) (c : Core) : (s.setCore r c).poison = s.poison := rfl
@[simp] theorem State.setMe_poison (s : State) (c : Core) : (s.setMe c).poison = s.poison := rfl
@[simp] theorem State.modCore_poison (s : State) (r : Nat) (f : Core → Core) : (s.modCore r f).poison = s.poison := rfl
@[simp] theorem State.modMe_poison (s : State) (f : Core → Core) : (s.modMe f).poison = s.poison := rfl
@[simp] theorem State.setCore_ranks (s : State) (r : Nat) (c : Core) : (s.setCore r c).ranks = s.ranks := rfl
@[simp] theorem State.setMe_ranks (s : State) (c : Core) : (s.setMe c).ranks = s.ranks := rfl
@[simp] theorem State.modCore_ranks (s : State) (r : Nat) (f : Core → Core) : (s.modCore r f).ranks = s.ranks := rfl
@[simp] theorem State.modMe_ranks (s : State) (f : Core → Core) : (s.modMe f).ranks = s.ranks := rfl
@[simp] theorem State.setCore_cycle (s : State) (r : Nat) (c : Core) : (s.setCore r c).cycle = s.cycle := rfl
@[simp] theorem State.setMe_cycle (s : State) (c : Core) : (s.setMe c).cycle = s.cycle := rfl
@[simp] theorem State.modCore_cycle (s : State) (r : Nat) (f : Core → Core) : (s.modCore r f).cycle = s.cycle := rfl
@[simp] theorem State.modMe_cycle (s : State) (f : Core → Core) : (s.modMe f).cycle = s.cycle := rfl
@[simp] theorem State.setCore_ptp (s : State) (r : Nat) (c : Core) : (s.setCore r c).ptp = s.ptp := rfl
@[simp] theorem State.setMe_ptp (s : State) (c : Core) : (s.setMe c).ptp = s.ptp := rfl
@[simp] theorem State.modCore_ptp (s : State) (r : Nat) (f : Core → Core) : (s.modCore r f).ptp = s.ptp := rfl
@[simp] theorem State.modMe_ptp (s : State) (f : Core → Core) : (s.modMe f).ptp = s.ptp := rfl
@[simp] theorem State.setCore_locked (s : State) (r : Nat) (c : Core) : (s.setCore r c).locked = s.locked := rfl
@[simp] theorem State.setMe_locked (s : State) (c : Core) : (s.setMe c).locked = s.locked := rfl
@[simp] theorem State.modCore_locked (s : State) (r : Nat) (f : Core → Core) : (s.modCore r f).locked = s.locked := rfl
@[simp] theorem State.modMe_locked (s : State) (f : Core → Core) : (s.modMe f).locked = s.locked := rfl
@[simp] theorem State.setCore_parts (s : State) (r : Nat) (c : Core) : (s.setCore r c).parts = s.parts := rfl
@[simp] theorem State.setMe_parts (s : State) (c : Core) : (s.setMe c).parts = s.parts := rfl
@[simp] theorem State.modCore_parts (s : State) (r : Nat) (f : Core → Core) : (s.modCore r f).parts = s.parts := rfl
@[simp] theorem State.modMe_parts (s : State) (f : Core → Core) : (s.modMe f).parts = s.parts := rfl
@[simp] theorem State.setCore_futs (s : State) (r : Nat) (c : Core) : (s.setCore r c).futs = s.futs := rfl
@[simp] theorem State.setMe_futs (s : State) (c : Core) : (s.setMe c).futs = s.futs := rfl
@[simp] theorem State.modCore_futs (s : State) (r : Nat) (f : Core → Core) : (s.modCore r f).futs = s.futs := rfl
@[simp] theorem State.modMe_futs (s : State) (f : Core → Core) : (s.modMe f).futs = s.futs := rfl
@[simp] theorem State.setCore_futOrder (s : State) (r : Nat) (c : Core) : (s.setCore r c).futOrder = s.futOrder := rfl
@[simp] theorem State.setMe_futOrder (s : State) (c : Core) : (s.setMe c).futOrder = s.futOrder := rfl
@[simp] theorem State.modCore_futOrder (s : State) (r : Nat) (f : Core → Core) : (s.modCore r f).futOrder = s.futOrder := rfl
@[simp] theorem State.modMe_futOrder (s : State) (f : Core → Core) : (s.modMe f).futOrder = s.futOrder := rfl
@[simp] theorem State.setCore_rings (s : State) (r : Nat) (c : Core) : (s.setCore r c).rings = s.rings := rfl
@[simp] theorem State.setMe_rings (s : State) (c : Core) : (s.setMe c).rings = s.rings := rfl
@[simp] theorem State.modCore_rings (s : State) (r : Nat) (f : Core → Core) : (s.modCore r f).rings = s.rings := rfl
@[simp] theorem State.modMe_rings (s : State) (f : Core → Core) : (s.modMe f).rings = s.rings := rfl
@[simp] theorem State.setCore_injects (s : State) (r : Nat) (c : Core) : (s.setCore r c).injects = s.injects := rfl
@[simp] theorem State.setMe_injects (s : State) (c : Core) : (s.setMe c).injects = s.injects := rfl
@[simp] theorem State.modCore_injects (s : State) (r : Nat) (f : Core → Core) : (s.modCore r f).injects = s.injects := rfl
@[simp] theorem State.modMe_injects (s : State) (f : Core → Core) : (s.modMe f).injects = s.injects := rfl
@[simp] theorem State.setCore_trees (s : State) (r : Nat) (c : Core) : (s.setCore r c).trees = s.trees := rfl
@[simp] theorem State.setMe_trees (s : State) (c : Core) : (s.setMe c).trees = s.trees := rfl
@[simp] theorem State.modCore_trees (s : State) (r : Nat) (f : Core → Core) : (s.modCore r f).trees = s.trees := rfl
@[simp] theorem State.modMe_trees (s : State) (f : Core → Core) : (s.modMe f).trees = s.trees := rfl
@[simp] theorem State.setCore_fells (s : State) (r : Nat) (c : Core) : (s.setCore r c).fells = s.fells := rfl
@[simp] theorem State.setMe_fells (s : State) (c : Core) : (s.setMe c).fells = s.fells := rfl
@[simp] theorem State.modCore_fells (s : State) (r : Nat) (f : Core → Core) : (s.modCore r f).fells = s.fells := rfl
@[simp] theorem State.modMe_fells (s : State) (f : Core → Core) : (s.modMe f).fells = s.fells := rfl
@[simp] theorem State.setCore_fellctl (s : State) (r : Nat) (c : Core) : (s.setCore r c).fellctl = s.fellctl := rfl
@[simp] theorem State.setMe_fellctl (s : State) (c : Core) : (s.setMe c).fellctl = s.fellctl := rfl
@[simp] theorem State.modCore_fellctl (s : State) (r : Nat) (f : Core → Core) : (s.modCore r f).fellctl = s.fellctl := rfl
@[simp] theorem State.modMe_fellctl (s : State) (f : Core → Core) : (s.modMe f).fellctl = s.fellctl := rfl
@[simp] theorem State.setCore_prefetch (s : State) (r : Nat) (c : Core) : (s.setCore r c).prefetch = s.prefetch := rfl
@[simp] theorem State.setMe_prefetch (s : State) (c : Core) : (s.setMe c).prefetch = s.prefetch := rfl
@[simp] theorem State.modCore_prefetch (s : State) (r : Nat) (f : Core → Core) : (s.modCore r f).prefetch = s.prefetch := rfl
@[simp] theorem State.modMe_prefetch (s : State) (f : Core → Core) : (s.modMe f).prefetch = s.prefetch := rfl
@[simp] theorem State.setCore_kettles (s : State) (r : Nat) (c : Core) : (s.setCore r c).kettles = s.kettles := rfl
@[simp] theorem State.setMe_kettles (s : State) (c : Core) : (s.setMe c).kettles = s.kettles := rfl
@[simp] theorem State.modCore_kettles (s : State) (r : Nat) (f : Core → Core) : (s.modCore r f).kettles = s.kettles := rfl
@[simp] theorem State.modMe_kettles (s : State) (f : Core → Core) : (s.modMe f).kettles = s.kettles := rfl
@[simp] theorem State.setCore_maxx (s : State) (r : Nat) (c : Core) : (s.setCore r c).maxx = s.maxx := rfl
@[simp] theorem State.setMe_maxx (s : State) (c : Core) : (s.setMe c).maxx = s.maxx := rfl
@[simp] theorem State.modCore_maxx (s : State) (r : Nat) (f : Core → Core) : (s.modCore r f).maxx = s.maxx := rfl
@[simp] theorem State.modMe_maxx (s : State) (f : Core → Core) : (s.modMe f).maxx = s.maxx := rfl
@[simp] theorem State.setCore_applied (s : State) (r : Nat) (c : Core) : (s.setCore r c).applied = s.applied := rfl
@[simp] theorem State.setMe_applied (s : State) (c : Core) : (s.setMe c).applied = s.applied := rfl
@[simp] theorem State.modCore_applied (s : State) (r : Nat) (f : Core → Core) : (s.modCore r f).applied = s.applied := rfl
@[simp] theorem State.modMe_applied (s : State) (f : Core → Core) : (s.modMe f).applied = s.applied := rfl
@[simp] theorem State.setCore_outbox (s : State) (r : Nat) (c : Core) : (s.setCore r c).outbox = s.outbox := rfl
@[simp] theorem State.setMe_outbox (s : State) (c : Core) : (s.setMe c).outbox = s.outbox := rfl
@[simp] theorem State.modCore_outbox (s : State) (r : Nat) (f : Core → Core) : (s.modCore r f).outbox = s.outbox := rfl
@[simp] theorem State.modMe_outbox (s : State) (f : Core → Core) : (s.modMe f).outbox = s.outbox := rfl
@[simp] theorem State.setCore_logs (s : State) (r : Nat) (c : Core) : (s.setCore r c).logs = s.logs := rfl
@[simp] theorem State.setMe_logs (s : State) (c : Core) : (s.setMe c).logs = s.logs := rfl
@[simp] theorem State.modCore_logs (s : State) (r : Nat) (f : Core → Core) : (s.modCore r f).logs = s.logs := rfl
@[simp] theorem State.modMe_logs (s : State) (f : Core → Core) : (s.modMe f).logs = s.logs := rfl
@[simp] theorem State.setCore_blzSeq (s : State) (r : Nat) (c : Core) : (s.setCore r c).blzSeq = s.blzSeq := rfl
@[simp] theorem State.setMe_blzSeq (s : State) (c : Core) : (s.setMe c).blzSeq = s.blzSeq := rfl
@[simp] theorem State.modCore_blzSeq (s : State) (r : Nat) (f : Core → Core) : (s.modCore r f).blzSeq = s.blzSeq := rfl
@[simp] theorem State.modMe_blzSeq (s : State) (f : Core → Core) : (s.modMe f).blzSeq = s.blzSeq := rfl
@[simp] theorem State.setCore_blzLock (s : State) (r : Nat) (c : Core) : (s.setCore r c).blzLock = s.blzLock := rfl
@[simp] theorem State.setMe_blzLock (s : State) (c : Core) : (s.setMe c).blzLock = s.blzLock := rfl
@[simp] theorem State.modCore_blzLock (s : State) (r : Nat) (f : Core → Core) : (s.modCore r f).blzLock = s.blzLock := rfl
@[simp] theorem State.modMe_blzLock (s : State) (f : Core → Core) : (s.modMe f).blzLock = s.blzLock := rfl
@[simp] theorem State.setCore_blzMissed (s : State) (r : Nat) (c : Core) : (s.setCore r c).blzMissed = s.blzMissed := rfl
@[simp] theorem State.setMe_blzMissed (s : State) (c : Core) : (s.setMe c).blzMissed = s.blzMissed := rfl
@[simp] theorem State.modCore_blzMissed (s : State) (r : Nat) (f : Core → Core) : (s.modCore r f).blzMissed = s.blzMissed := rfl
@[simp] theorem State.modMe_blzMissed (s : State) (f : Core → Core) : (s.modMe f).blzMissed = s.blzMissed := rfl
@[simp] theorem State.setCore_blzDue (s : State) (r : Nat) (c : Core) : (s.setCore r c).blzDue = s.blzDue := rfl
@[simp] theorem State.setMe_blzDue (s : State) (c : Core) : (s.setMe c).blzDue = s.blzDue := rfl
@[simp] theorem State.modCore_blzDue (s : State) (r : Nat) (f : Core → Core) : (s.modCore r f).blzDue = s.blzDue := rfl
@[simp] theorem State.modMe_blzDue (s : State) (f : Core → Core) : (s.modMe f).blzDue = s.blzDue := rfl
@[simp] theorem State.setCore_blzTask (s : State) (r : Nat) (c : Core) : (s.setCore r c).blzTask = s.blzTask := rfl
@[simp] theorem State.setMe_blzTask (s : State) (c : Core) : (s.setMe c).blzTask = s.blzTask := rfl
@[simp] theorem State.modCore_blzTask (s : State) (r : Nat) (f : Core → Core) : (s.modCore r f).blzTask = s.blzTask := rfl
@[simp] theorem State.modMe_blzTask (s : State) (f : Core → Core) : (s.modMe f).blzTask = s.blzTask := rfl
@[simp] theorem State.setCore_blzTime (s : State) (r : Nat) (c : Core) : (s.setCore r c).blzTime = s.blzTime := rfl
@[simp] theorem State.setMe_blzTime (s : State) (c : Core) : (s.setMe c).blzTime = s.blzTime := rfl
@[simp] theorem State.modCore_blzTime (s : State) (r : Nat) (f : Core → Core) : (s.modCore r f).blzTime = s.blzTime := rfl
@[simp] theorem State.modMe_blzTime (s : State) (f : Core → Core) : (s.modMe f).blzTime = s.blzTime := rfl
@[simp] theorem State.setCore_bootstat (s : State) (r : Nat) (c : Core) : (s.setCore r c).bootstat = s.bootstat := rfl
@[simp] theorem State.setMe_bootstat (s : State) (c : Core) : (s.setMe c).bootstat = s.bootstat := rfl
@[simp] theorem State.modCore_bootstat (s : State) (r : Nat) (f : Core → Core) : (s.modCore r f).bootstat = s.bootstat := rfl
@[simp] theorem State.modMe_bootstat (s : State) (f : Core → Core) : (s.modMe f).bootstat = s.bootstat := rfl
@[simp] theorem State.setCore_ldrq (s : State) (r : Nat) (c : Core) : (s.setCore r c).ldrq = s.ldrq := rfl
@[simp] theorem State.setMe_ldrq (s : State) (c : Core) : (s.setMe c).ldrq = s.ldrq := rfl
@[simp] theorem State.modCore_ldrq (s : State) (r : Nat) (f : Core → Core) : (s.modCore r f).ldrq = s.ldrq := rfl
@[simp] theorem State.modMe_ldrq (s : State) (f : Core → Core) : (s.modMe f).ldrq = s.ldrq := rfl
@[simp] theorem State.setCore_ldrTail (s : State) (r : Nat) (c : Core) : (s.setCore r c).ldrTail = s.ldrTail := rfl
@[simp] theorem State.setMe_ldrTail (s : State) (c : Core) : (s.setMe c).ldrTail = s.ldrTail := rfl
@[simp] theorem State.modCore_ldrTail (s : State) (r : Nat) (f : Core → Core) : (s.modCore r f).ldrTail = s.ldrTail := rfl
@[simp] theorem State.modMe_ldrTail (s : State) (f : Core → Core) : (s.modMe f).ldrTail = s.ldrTail := rfl
@[simp] theorem State.setCore_ldrHead (s : State) (r : Nat) (c : Core) : (s.setCore r c).ldrHead = s.ldrHead := rfl
@[simp] theorem State.setMe_ldrHead (s : State) (c : Core) : (s.setMe c).ldrHead = s.ldrHead := rfl
@[simp] theorem State.modCore_ldrHead (s : State) (r : Nat) (f : Core → Core) : (s.modCore r f).ldrHead = s.ldrHead := rfl
@[simp] theorem State.modMe_ldrHead (s : State) (f : Core → Core) : (s.modMe f).ldrHead = s.ldrHead := rfl
@[simp] theorem State.setCore_hqcfg (s : State) (r : Nat) (c : Core) : (s.setCore r c).hqcfg = s.hqcfg := rfl
@[simp] theorem State.setMe_hqcfg (s : State) (c : Core) : (s.setMe c).hqcfg = s.hqcfg := rfl
@[simp] theorem State.modCore_hqcfg (s : State) (r : Nat) (f : Core → Core) : (s.modCore r f).hqcfg = s.hqcfg := rfl
@[simp] theorem State.modMe_hqcfg (s : State) (f : Core → Core) : (s.modMe f).hqcfg = s.hqcfg := rfl
@[simp] theorem State.setCore_hqptr (s : State) (r : Nat) (c : Core) : (s.setCore r c).hqptr = s.hqptr := rfl
@[simp] theorem State.setMe_hqptr (s : State) (c : Core) : (s.setMe c).hqptr = s.hqptr := rfl
@[simp] theorem State.modCore_hqptr (s : State) (r : Nat) (f : Core → Core) : (s.modCore r f).hqptr = s.hqptr := rfl
@[simp] theorem State.modMe_hqptr (s : State) (f : Core → Core) : (s.modMe f).hqptr = s.hqptr := rfl
@[simp] theorem State.setCore_svn (s : State) (r : Nat) (c : Core) : (s.setCore r c).svn = s.svn := rfl
@[simp] theorem State.setMe_svn (s : State) (c : Core) : (s.setMe c).svn = s.svn := rfl
@[simp] theorem State.modCore_svn (s : State) (r : Nat) (f : Core → Core) : (s.modCore r f).svn = s.svn := rfl
@[simp] theorem State.modMe_svn (s : State) (f : Core → Core) : (s.modMe f).svn = s.svn := rfl
@[simp] theorem State.setCore_hostCxl (s : State) (r : Nat) (c : Core) : (s.setCore r c).hostCxl = s.hostCxl := rfl
@[simp] theorem State.setMe_hostCxl (s : State) (c : Core) : (s.setMe c).hostCxl = s.hostCxl := rfl
@[simp] theorem State.modCore_hostCxl (s : State) (r : Nat) (f : Core → Core) : (s.modCore r f).hostCxl = s.hostCxl := rfl
@[simp] theorem State.modMe_hostCxl (s : State) (f : Core → Core) : (s.modMe f).hostCxl = s.hostCxl := rfl
@[simp] theorem State.setCore_hostSize (s : State) (r : Nat) (c : Core) : (s.setCore r c).hostSize = s.hostSize := rfl
@[simp] theorem State.setMe_hostSize (s : State) (c : Core) : (s.setMe c).hostSize = s.hostSize := rfl
@[simp] theorem State.modCore_hostSize (s : State) (r : Nat) (f : Core → Core) : (s.modCore r f).hostSize = s.hostSize := rfl
@[simp] theorem State.modMe_hostSize (s : State) (f : Core → Core) : (s.modMe f).hostSize = s.hostSize := rfl
@[simp] theorem State.setCore_pkgRank (s : State) (r : Nat) (c : Core) : (s.setCore r c).pkgRank = s.pkgRank := rfl
@[simp] theorem State.setMe_pkgRank (s : State) (c : Core) : (s.setMe c).pkgRank = s.pkgRank := rfl
@[simp] theorem State.modCore_pkgRank (s : State) (r : Nat) (f : Core → Core) : (s.modCore r f).pkgRank = s.pkgRank := rfl
@[simp] theorem State.modMe_pkgRank (s : State) (f : Core → Core) : (s.modMe f).pkgRank = s.pkgRank := rfl
@[simp] theorem State.setCore_fwHash (s : State) (r : Nat) (c : Core) : (s.setCore r c).fwHash = s.fwHash := rfl
@[simp] theorem State.setMe_fwHash (s : State) (c : Core) : (s.setMe c).fwHash = s.fwHash := rfl
@[simp] theorem State.modCore_fwHash (s : State) (r : Nat) (f : Core → Core) : (s.modCore r f).fwHash = s.fwHash := rfl
@[simp] theorem State.modMe_fwHash (s : State) (f : Core → Core) : (s.modMe f).fwHash = s.fwHash := rfl
@[simp] theorem State.setCore_recHash (s : State) (r : Nat) (c : Core) : (s.setCore r c).recHash = s.recHash := rfl
@[simp] theorem State.setMe_recHash (s : State) (c : Core) : (s.setMe c).recHash = s.recHash := rfl
@[simp] theorem State.modCore_recHash (s : State) (r : Nat) (f : Core → Core) : (s.modCore r f).recHash = s.recHash := rfl
@[simp] theorem State.modMe_recHash (s : State) (f : Core → Core) : (s.modMe f).recHash = s.recHash := rfl
@[simp] theorem State.setCore_ownerKeys (s : State) (r : Nat) (c : Core) : (s.setCore r c).ownerKeys = s.ownerKeys := rfl
@[simp] theorem State.setMe_ownerKeys (s : State) (c : Core) : (s.setMe c).ownerKeys = s.ownerKeys := rfl
@[simp] theorem State.modCore_ownerKeys (s : State) (r : Nat) (f : Core → Core) : (s.modCore r f).ownerKeys = s.ownerKeys := rfl
@[simp] theorem State.modMe_ownerKeys (s : State) (f : Core → Core) : (s.modMe f).ownerKeys = s.ownerKeys := rfl
@[simp] theorem State.setCore_enabled (s : State) (r : Nat) (c : Core) : (s.setCore r c).enabled = s.enabled := rfl
@[simp] theorem State.setMe_enabled (s : State) (c : Core) : (s.setMe c).enabled = s.enabled := rfl
@[simp] theorem State.modCore_enabled (s : State) (r : Nat) (f : Core → Core) : (s.modCore r f).enabled = s.enabled := rfl
@[simp] theorem State.modMe_enabled (s : State) (f : Core → Core) : (s.modMe f).enabled = s.enabled := rfl
@[simp] theorem State.setCore_power (s : State) (r : Nat) (c : Core) : (s.setCore r c).power = s.power := rfl
@[simp] theorem State.setMe_power (s : State) (c : Core) : (s.setMe c).power = s.power := rfl
@[simp] theorem State.modCore_power (s : State) (r : Nat) (f : Core → Core) : (s.modCore r f).power = s.power := rfl
@[simp] theorem State.modMe_power (s : State) (f : Core → Core) : (s.modMe f).power = s.power := rfl
@[simp] theorem State.setCore_clocks (s : State) (r : Nat) (c : Core) : (s.setCore r c).clocks = s.clocks := rfl
@[simp] theorem State.setMe_clocks (s : State) (c : Core) : (s.setMe c).clocks = s.clocks := rfl
@[simp] theorem State.modCore_clocks (s : State) (r : Nat) (f : Core → Core) : (s.modCore r f).clocks = s.clocks := rfl
@[simp] theorem State.modMe_clocks (s : State) (f : Core → Core) : (s.modMe f).clocks = s.clocks := rfl
@[simp] theorem State.setCore_volts (s : State) (r : Nat) (c : Core) : (s.setCore r c).volts = s.volts := rfl
@[simp] theorem State.setMe_volts (s : State) (c : Core) : (s.setMe c).volts = s.volts := rfl
@[simp] theorem State.modCore_volts (s : State) (r : Nat) (f : Core → Core) : (s.modCore r f).volts = s.volts := rfl
@[simp] theorem State.modMe_volts (s : State) (f : Core → Core) : (s.modMe f).volts = s.volts := rfl
@[simp] theorem State.setCore_slacks (s : State) (r : Nat) (c : Core) : (s.setCore r c).slacks = s.slacks := rfl
@[simp] theorem State.setMe_slacks (s : State) (c : Core) : (s.setMe c).slacks = s.slacks := rfl
@[simp] theorem State.modCore_slacks (s : State) (r : Nat) (f : Core → Core) : (s.modCore r f).slacks = s.slacks := rfl
@[simp] theorem State.modMe_slacks (s : State) (f : Core → Core) : (s.modMe f).slacks = s.slacks := rfl
@[simp] theorem State.setCore_shadow (s : State) (r : Nat) (c : Core) : (s.setCore r c).shadow = s.shadow := rfl
@[simp] theorem State.setMe_shadow (s : State) (c : Core) : (s.setMe c).shadow = s.shadow := rfl
@[simp] theorem State.modCore_shadow (s : State) (r : Nat) (f : Core → Core) : (s.modCore r f).shadow = s.shadow := rfl
@[simp] theorem State.modMe_shadow (s : State) (f : Core → Core) : (s.modMe f).shadow = s.shadow := rfl
@[simp] theorem State.setCore_planes (s : State) (r : Nat) (c : Core) : (s.setCore r c).planes = s.planes := rfl
@[simp] theorem State.setMe_planes (s : State) (c : Core) : (s.setMe c).planes = s.planes := rfl
@[simp] theorem State.modCore_planes (s : State) (r : Nat) (f : Core → Core) : (s.modCore r f).planes = s.planes := rfl
@[simp] theorem State.modMe_planes (s : State) (f : Core → Core) : (s.modMe f).planes = s.planes := rfl
@[simp] theorem State.setCore_linkSeq (s : State) (r : Nat) (c : Core) : (s.setCore r c).linkSeq = s.linkSeq := rfl
@[simp] theorem State.setMe_linkSeq (s : State) (c : Core) : (s.setMe c).linkSeq = s.linkSeq := rfl
@[simp] theorem State.modCore_linkSeq (s : State) (r : Nat) (f : Core → Core) : (s.modCore r f).linkSeq = s.linkSeq := rfl
@[simp] theorem State.modMe_linkSeq (s : State) (f : Core → Core) : (s.modMe f).linkSeq = s.linkSeq := rfl
@[simp] theorem State.setCore_ueSeq (s : State) (r : Nat) (c : Core) : (s.setCore r c).ueSeq = s.ueSeq := rfl
@[simp] theorem State.setMe_ueSeq (s : State) (c : Core) : (s.setMe c).ueSeq = s.ueSeq := rfl
@[simp] theorem State.modCore_ueSeq (s : State) (r : Nat) (f : Core → Core) : (s.modCore r f).ueSeq = s.ueSeq := rfl
@[simp] theorem State.modMe_ueSeq (s : State) (f : Core → Core) : (s.modMe f).ueSeq = s.ueSeq := rfl
@[simp] theorem State.setCore_extents (s : State) (r : Nat) (c : Core) : (s.setCore r c).extents = s.extents := rfl
@[simp] theorem State.setMe_extents (s : State) (c : Core) : (s.setMe c).extents = s.extents := rfl
@[simp] theorem State.modCore_extents (s : State) (r : Nat) (f : Core → Core) : (s.modCore r f).extents = s.extents := rfl
@[simp] theorem State.modMe_extents (s : State) (f : Core → Core) : (s.modMe f).extents = s.extents := rfl
@[simp] theorem State.setCore_keys (s : State) (r : Nat) (c : Core) : (s.setCore r c).keys = s.keys := rfl
@[simp] theorem State.setMe_keys (s : State) (c : Core) : (s.setMe c).keys = s.keys := rfl
@[simp] theorem State.modCore_keys (s : State) (r : Nat) (f : Core → Core) : (s.modCore r f).keys = s.keys := rfl
@[simp] theorem State.modMe_keys (s : State) (f : Core → Core) : (s.modMe f).keys = s.keys := rfl
@[simp] theorem State.setCore_blank (s : State) (r : Nat) (c : Core) : (s.setCore r c).blank = s.blank := rfl
@[simp] theorem State.setMe_blank (s : State) (c : Core) : (s.setMe c).blank = s.blank := rfl
@[simp] theorem State.modCore_blank (s : State) (r : Nat) (f : Core → Core) : (s.modCore r f).blank = s.blank := rfl
@[simp] theorem State.modMe_blank (s : State) (f : Core → Core) : (s.modMe f).blank = s.blank := rfl
@[simp] theorem State.setCore_mmus (s : State) (r : Nat) (c : Core) : (s.setCore r c).mmus = s.mmus := rfl
@[simp] theorem State.setMe_mmus (s : State) (c : Core) : (s.setMe c).mmus = s.mmus := rfl
@[simp] theorem State.modCore_mmus (s : State) (r : Nat) (f : Core → Core) : (s.modCore r f).mmus = s.mmus := rfl
@[simp] theorem State.modMe_mmus (s : State) (f : Core → Core) : (s.modMe f).mmus = s.mmus := rfl
@[simp] theorem State.setCore_maxxBad (s : State) (r : Nat) (c : Core) : (s.setCore r c).maxxBad = s.maxxBad := rfl
@[simp] theorem State.setMe_maxxBad (s : State) (c : Core) : (s.setMe c).maxxBad = s.maxxBad := rfl
@[simp] theorem State.modCore_maxxBad (s : State) (r : Nat) (f : Core → Core) : (s.modCore r f).maxxBad = s.maxxBad := rfl
@[simp] theorem State.modMe_maxxBad (s : State) (f : Core → Core) : (s.modMe f).maxxBad = s.maxxBad := rfl
@[simp] theorem State.setCore_periods (s : State) (r : Nat) (c : Core) : (s.setCore r c).periods = s.periods := rfl
@[simp] theorem State.setMe_periods (s : State) (c : Core) : (s.setMe c).periods = s.periods := rfl
@[simp] theorem State.modCore_periods (s : State) (r : Nat) (f : Core → Core) : (s.modCore r f).periods = s.periods := rfl
@[simp] theorem State.modMe_periods (s : State) (f : Core → Core) : (s.modMe f).periods = s.periods := rfl
@[simp] theorem State.setCore_packets (s : State) (r : Nat) (c : Core) : (s.setCore r c).packets = s.packets := rfl
@[simp] theorem State.setMe_packets (s : State) (c : Core) : (s.setMe c).packets = s.packets := rfl
@[simp] theorem State.modCore_packets (s : State) (r : Nat) (f : Core → Core) : (s.modCore r f).packets = s.packets := rfl
@[simp] theorem State.modMe_packets (s : State) (f : Core → Core) : (s.modMe f).packets = s.packets := rfl
@[simp] theorem State.setCore_slew (s : State) (r : Nat) (c : Core) : (s.setCore r c).slew = s.slew := rfl
@[simp] theorem State.setMe_slew (s : State) (c : Core) : (s.setMe c).slew = s.slew := rfl
@[simp] theorem State.modCore_slew (s : State) (r : Nat) (f : Core → Core) : (s.modCore r f).slew = s.slew := rfl
@[simp] theorem State.modMe_slew (s : State) (f : Core → Core) : (s.modMe f).slew = s.slew := rfl
@[simp] theorem State.setCore_hubReqs (s : State) (r : Nat) (c : Core) : (s.setCore r c).hubReqs = s.hubReqs := rfl
@[simp] theorem State.setMe_hubReqs (s : State) (c : Core) : (s.setMe c).hubReqs = s.hubReqs := rfl
@[simp] theorem State.modCore_hubReqs (s : State) (r : Nat) (f : Core → Core) : (s.modCore r f).hubReqs = s.hubReqs := rfl
@[simp] theorem State.modMe_hubReqs (s : State) (f : Core → Core) : (s.modMe f).hubReqs = s.hubReqs := rfl
@[simp] theorem State.setCore_link (s : State) (r : Nat) (c : Core) : (s.setCore r c).link = s.link := rfl
@[simp] theorem State.setMe_link (s : State) (c : Core) : (s.setMe c).link = s.link := rfl
@[simp] theorem State.modCore_link (s : State) (r : Nat) (f : Core → Core) : (s.modCore r f).link = s.link := rfl
@[simp] theorem State.modMe_link (s : State) (f : Core → Core) : (s.modMe f).link = s.link := rfl
@[simp] theorem State.setCore_input (s : State) (r : Nat) (c : Core) : (s.setCore r c).input = s.input := rfl
@[simp] theorem State.setMe_input (s : State) (c : Core) : (s.setMe c).input = s.input := rfl
@[simp] theorem State.modCore_input (s : State) (r : Nat) (f : Core → Core) : (s.modCore r f).input = s.input := rfl
@[simp] theorem State.modMe_input (s : State) (f : Core → Core) : (s.modMe f).input = s.input := rfl
@[simp] theorem State.setCore_cert (s : State) (r : Nat) (c : Core) : (s.setCore r c).cert = s.cert := rfl
@[simp] theorem State.setMe_cert (s : State) (c : Core) : (s.setMe c).cert = s.cert := rfl
@[simp] theorem State.modCore_cert (s : State) (r : Nat) (f : Core → Core) : (s.modCore r f).cert = s.cert := rfl
@[simp] theorem State.modMe_cert (s : State) (f : Core → Core) : (s.modMe f).cert = s.cert := rfl
@[simp] theorem State.setCore_devKey (s : State) (r : Nat) (c : Core) : (s.setCore r c).devKey = s.devKey := rfl
@[simp] theorem State.setMe_devKey (s : State) (c : Core) : (s.setMe c).devKey = s.devKey := rfl
@[simp] theorem State.modCore_devKey (s : State) (r : Nat) (f : Core → Core) : (s.modCore r f).devKey = s.devKey := rfl
@[simp] theorem State.modMe_devKey (s : State) (f : Core → Core) : (s.modMe f).devKey = s.devKey := rfl
@[simp] theorem State.setCore_hbmRepair (s : State) (r : Nat) (c : Core) : (s.setCore r c).hbmRepair = s.hbmRepair := rfl
@[simp] theorem State.setMe_hbmRepair (s : State) (c : Core) : (s.setMe c).hbmRepair = s.hbmRepair := rfl
@[simp] theorem State.modCore_hbmRepair (s : State) (r : Nat) (f : Core → Core) : (s.modCore r f).hbmRepair = s.hbmRepair := rfl
@[simp] theorem State.modMe_hbmRepair (s : State) (f : Core → Core) : (s.modMe f).hbmRepair = s.hbmRepair := rfl
@[simp] theorem State.setCore_linkSent (s : State) (r : Nat) (c : Core) : (s.setCore r c).linkSent = s.linkSent := rfl
@[simp] theorem State.setMe_linkSent (s : State) (c : Core) : (s.setMe c).linkSent = s.linkSent := rfl
@[simp] theorem State.modCore_linkSent (s : State) (r : Nat) (f : Core → Core) : (s.modCore r f).linkSent = s.linkSent := rfl
@[simp] theorem State.modMe_linkSent (s : State) (f : Core → Core) : (s.modMe f).linkSent = s.linkSent := rfl
@[simp] theorem State.setCore_linkAcked (s : State) (r : Nat) (c : Core) : (s.setCore r c).linkAcked = s.linkAcked := rfl
@[simp] theorem State.setMe_linkAcked (s : State) (c : Core) : (s.setMe c).linkAcked = s.linkAcked := rfl
@[simp] theorem State.modCore_linkAcked (s : State) (r : Nat) (f : Core → Core) : (s.modCore r f).linkAcked = s.linkAcked := rfl
@[simp] theorem State.modMe_linkAcked (s : State) (f : Core → Core) : (s.modMe f).linkAcked = s.linkAcked := rfl
@[simp] theorem State.setCore_linkq (s : State) (r : Nat) (c : Core) : (s.setCore r c).linkq = s.linkq := rfl
@[simp] theorem State.setMe_linkq (s : State) (c : Core) : (s.setMe c).linkq = s.linkq := rfl
@[simp] theorem State.modCore_linkq (s : State) (r : Nat) (f : Core → Core) : (s.modCore r f).linkq = s.linkq := rfl
@[simp] theorem State.modMe_linkq (s : State) (f : Core → Core) : (s.modMe f).linkq = s.linkq := rfl
@[simp] theorem State.setCore_outSeq (s : State) (r : Nat) (c : Core) : (s.setCore r c).outSeq = s.outSeq := rfl
@[simp] theorem State.setMe_outSeq (s : State) (c : Core) : (s.setMe c).outSeq = s.outSeq := rfl
@[simp] theorem State.modCore_outSeq (s : State) (r : Nat) (f : Core → Core) : (s.modCore r f).outSeq = s.outSeq := rfl
@[simp] theorem State.modMe_outSeq (s : State) (f : Core → Core) : (s.modMe f).outSeq = s.outSeq := rfl
@[simp] theorem State.setCore_ueRetry (s : State) (r : Nat) (c : Core) : (s.setCore r c).ueRetry = s.ueRetry := rfl
@[simp] theorem State.setMe_ueRetry (s : State) (c : Core) : (s.setMe c).ueRetry = s.ueRetry := rfl
@[simp] theorem State.modCore_ueRetry (s : State) (r : Nat) (f : Core → Core) : (s.modCore r f).ueRetry = s.ueRetry := rfl
@[simp] theorem State.modMe_ueRetry (s : State) (f : Core → Core) : (s.modMe f).ueRetry = s.ueRetry := rfl

@[simp] theorem State.coreAt_setCore (s : State) (r q : Nat) (c : Core) :
    (s.setCore r c).coreAt q = if q = r then c else s.coreAt q := by
  simp only [State.coreAt, State.setCore, Table.find_set, eq_comm (a := q)]
  split <;> rfl

@[simp] theorem State.coreAt_modCore (s : State) (r q : Nat) (f : Core → Core) :
    (s.modCore r f).coreAt q = if q = r then f (s.coreAt r) else s.coreAt q := by
  simp only [State.modCore, State.coreAt_setCore]

@[simp] theorem State.me_setMe (s : State) (c : Core) : (s.setMe c).me = c := by
  simp only [State.me, State.setMe, State.setCore_rank, State.coreAt_setCore, if_pos]

@[simp] theorem State.me_modMe (s : State) (f : Core → Core) : (s.modMe f).me = f s.me := by
  simp only [State.modMe, State.me_setMe]

@[simp] theorem State.coreAt_setMe (s : State) (q : Nat) (c : Core) :
    (s.setMe c).coreAt q = if q = s.rank then c else s.coreAt q := by
  simp only [State.setMe, State.coreAt_setCore]

@[simp] theorem State.coreAt_modMe (s : State) (q : Nat) (f : Core → Core) :
    (s.modMe f).coreAt q = if q = s.rank then f s.me else s.coreAt q := by
  simp only [State.modMe, State.coreAt_setMe]

theorem Table.set_set {α : Type} (l : List (Nat × α)) (a : Nat) (v w : α) :
    Table.set (Table.set l a v) a w = Table.set l a w := by
  induction l with
  | nil => simp [Table.set]
  | cons x t ih =>
    obtain ⟨k, u⟩ := x
    simp only [Table.set]
    split
    · simp [Table.set]
    · rename_i h
      simp [Table.set, h, ih]

@[simp] theorem State.setMe_setMe (s : State) (c e : Core) : (s.setMe c).setMe e = s.setMe e := by
  simp only [State.setMe, State.setCore, Table.set_set]

@[simp] theorem State.setMe_modMe (s : State) (f : Core → Core) (e : Core) : (s.modMe f).setMe e = s.setMe e := by
  simp only [State.modMe, State.setMe_setMe]

@[simp] theorem State.modMe_modMe (s : State) (f g : Core → Core) : (s.modMe f).modMe g = s.modMe fun c => g (f c) := by
  simp only [State.modMe, State.me_setMe, State.setMe_setMe]

/-- A state with one core replaced differs from another in that core alone. -/
theorem State.setMe_me (s : State) (c : Core) : s.setMe c = s.setMe (s.setMe c).me := by rw [State.me_setMe]

/-! One register of a core. -/

@[simp] theorem Core.wg_v (c : Core) (i : GIdx) (x : GVal) : (c.wg i x).v = c.v := by unfold Core.wg; split <;> rfl
@[simp] theorem Core.wg_p (c : Core) (i : GIdx) (x : GVal) : (c.wg i x).p = c.p := by unfold Core.wg; split <;> rfl
@[simp] theorem Core.wg_tile (c : Core) (i : GIdx) (x : GVal) : (c.wg i x).tile = c.tile := by unfold Core.wg; split <;> rfl
@[simp] theorem Core.wg_acc (c : Core) (i : GIdx) (x : GVal) : (c.wg i x).acc = c.acc := by unfold Core.wg; split <;> rfl
@[simp] theorem Core.wg_mail (c : Core) (i : GIdx) (x : GVal) : (c.wg i x).mail = c.mail := by unfold Core.wg; split <;> rfl
@[simp] theorem Core.wg_pres (c : Core) (i : GIdx) (x : GVal) : (c.wg i x).pres = c.pres := by unfold Core.wg; split <;> rfl
@[simp] theorem Core.wg_ctl (c : Core) (i : GIdx) (x : GVal) : (c.wg i x).ctl = c.ctl := by unfold Core.wg; split <;> rfl
@[simp] theorem Core.wg_codecap (c : Core) (i : GIdx) (x : GVal) : (c.wg i x).codecap = c.codecap := by unfold Core.wg; split <;> rfl
@[simp] theorem Core.wg_pcV (c : Core) (i : GIdx) (x : GVal) : (c.wg i x).pcV = c.pcV := by unfold Core.wg; split <;> rfl
@[simp] theorem Core.wg_pcM (c : Core) (i : GIdx) (x : GVal) : (c.wg i x).pcM = c.pcM := by unfold Core.wg; split <;> rfl
@[simp] theorem Core.wg_pcD (c : Core) (i : GIdx) (x : GVal) : (c.wg i x).pcD = c.pcD := by unfold Core.wg; split <;> rfl
@[simp] theorem Core.wg_posS (c : Core) (i : GIdx) (x : GVal) : (c.wg i x).posS = c.posS := by unfold Core.wg; split <;> rfl
@[simp] theorem Core.wg_posV (c : Core) (i : GIdx) (x : GVal) : (c.wg i x).posV = c.posV := by unfold Core.wg; split <;> rfl
@[simp] theorem Core.wg_posM (c : Core) (i : GIdx) (x : GVal) : (c.wg i x).posM = c.posM := by unfold Core.wg; split <;> rfl
@[simp] theorem Core.wg_posD (c : Core) (i : GIdx) (x : GVal) : (c.wg i x).posD = c.posD := by unfold Core.wg; split <;> rfl
@[simp] theorem Core.wg_outcomes (c : Core) (i : GIdx) (x : GVal) : (c.wg i x).outcomes = c.outcomes := by unfold Core.wg; split <;> rfl
@[simp] theorem Core.wg_capV (c : Core) (i : GIdx) (x : GVal) : (c.wg i x).capV = c.capV := by unfold Core.wg; split <;> rfl
@[simp] theorem Core.wg_capM (c : Core) (i : GIdx) (x : GVal) : (c.wg i x).capM = c.capM := by unfold Core.wg; split <;> rfl
@[simp] theorem Core.wg_capD (c : Core) (i : GIdx) (x : GVal) : (c.wg i x).capD = c.capD := by unfold Core.wg; split <;> rfl
@[simp] theorem Core.wg_nestS (c : Core) (i : GIdx) (x : GVal) : (c.wg i x).nestS = c.nestS := by unfold Core.wg; split <;> rfl
@[simp] theorem Core.wg_nestV (c : Core) (i : GIdx) (x : GVal) : (c.wg i x).nestV = c.nestV := by unfold Core.wg; split <;> rfl
@[simp] theorem Core.wg_nestM (c : Core) (i : GIdx) (x : GVal) : (c.wg i x).nestM = c.nestM := by unfold Core.wg; split <;> rfl
@[simp] theorem Core.wg_nestD (c : Core) (i : GIdx) (x : GVal) : (c.wg i x).nestD = c.nestD := by unfold Core.wg; split <;> rfl
@[simp] theorem Core.wg_latches (c : Core) (i : GIdx) (x : GVal) : (c.wg i x).latches = c.latches := by unfold Core.wg; split <;> rfl
@[simp] theorem Core.wg_maxx (c : Core) (i : GIdx) (x : GVal) : (c.wg i x).maxx = c.maxx := by unfold Core.wg; split <;> rfl
@[simp] theorem Core.wg_vwait (c : Core) (i : GIdx) (x : GVal) : (c.wg i x).vwait = c.vwait := by unfold Core.wg; split <;> rfl
@[simp] theorem Core.wg_mwords (c : Core) (i : GIdx) (x : GVal) : (c.wg i x).mwords = c.mwords := by unfold Core.wg; split <;> rfl
@[simp] theorem Core.wg_residue (c : Core) (i : GIdx) (x : GVal) : (c.wg i x).residue = c.residue := by unfold Core.wg; split <;> rfl
@[simp] theorem Core.wg_dq (c : Core) (i : GIdx) (x : GVal) : (c.wg i x).dq = c.dq := by unfold Core.wg; split <;> rfl
@[simp] theorem Core.wg_dnum (c : Core) (i : GIdx) (x : GVal) : (c.wg i x).dnum = c.dnum := by unfold Core.wg; split <;> rfl
@[simp] theorem Core.wg_binds (c : Core) (i : GIdx) (x : GVal) : (c.wg i x).binds = c.binds := by unfold Core.wg; split <;> rfl
@[simp] theorem Core.wg_stores (c : Core) (i : GIdx) (x : GVal) : (c.wg i x).stores = c.stores := by unfold Core.wg; split <;> rfl
@[simp] theorem Core.wg_loads (c : Core) (i : GIdx) (x : GVal) : (c.wg i x).loads = c.loads := by unfold Core.wg; split <;> rfl
@[simp] theorem Core.wg_icache (c : Core) (i : GIdx) (x : GVal) : (c.wg i x).icache = c.icache := by unfold Core.wg; split <;> rfl
@[simp] theorem Core.wg_tlb (c : Core) (i : GIdx) (x : GVal) : (c.wg i x).tlb = c.tlb := by unfold Core.wg; split <;> rfl
@[simp] theorem Core.wg_held (c : Core) (i : GIdx) (x : GVal) : (c.wg i x).held = c.held := by unfold Core.wg; split <;> rfl
@[simp] theorem Core.wg_waitq (c : Core) (i : GIdx) (x : GVal) : (c.wg i x).waitq = c.waitq := by unfold Core.wg; split <;> rfl
@[simp] theorem Core.wg_resend (c : Core) (i : GIdx) (x : GVal) : (c.wg i x).resend = c.resend := by unfold Core.wg; split <;> rfl
@[simp] theorem Core.wg_applied (c : Core) (i : GIdx) (x : GVal) : (c.wg i x).applied = c.applied := by unfold Core.wg; split <;> rfl
@[simp] theorem Core.wg_evqSeq (c : Core) (i : GIdx) (x : GVal) : (c.wg i x).evqSeq = c.evqSeq := by unfold Core.wg; split <;> rfl
@[simp] theorem Core.wg_monLine (c : Core) (i : GIdx) (x : GVal) : (c.wg i x).monLine = c.monLine := by unfold Core.wg; split <;> rfl
@[simp] theorem Core.wg_hw (c : Core) (i : GIdx) (x : GVal) : (c.wg i x).hw = c.hw := by unfold Core.wg; split <;> rfl
@[simp] theorem Core.wg_ringHead (c : Core) (i : GIdx) (x : GVal) : (c.wg i x).ringHead = c.ringHead := by unfold Core.wg; split <;> rfl
@[simp] theorem Core.wg_ringN (c : Core) (i : GIdx) (x : GVal) : (c.wg i x).ringN = c.ringN := by unfold Core.wg; split <;> rfl
@[simp] theorem Core.wg_push (c : Core) (i : GIdx) (x : GVal) : (c.wg i x).push = c.push := by unfold Core.wg; split <;> rfl
@[simp] theorem Core.wg_resumes (c : Core) (i : GIdx) (x : GVal) : (c.wg i x).resumes = c.resumes := by unfold Core.wg; split <;> rfl
@[simp] theorem Core.wg_task (c : Core) (i : GIdx) (x : GVal) : (c.wg i x).task = c.task := by unfold Core.wg; split <;> rfl
@[simp] theorem Core.wg_blocked (c : Core) (i : GIdx) (x : GVal) : (c.wg i x).blocked = c.blocked := by unfold Core.wg; split <;> rfl
@[simp] theorem Core.wg_hold (c : Core) (i : GIdx) (x : GVal) : (c.wg i x).hold = c.hold := by unfold Core.wg; split <;> rfl
@[simp] theorem Core.wg_passing (c : Core) (i : GIdx) (x : GVal) : (c.wg i x).passing = c.passing := by unfold Core.wg; split <;> rfl
@[simp] theorem Core.wg_slice (c : Core) (i : GIdx) (x : GVal) : (c.wg i x).slice = c.slice := by unfold Core.wg; split <;> rfl
@[simp] theorem Core.wg_swap (c : Core) (i : GIdx) (x : GVal) : (c.wg i x).swap = c.swap := by unfold Core.wg; split <;> rfl
@[simp] theorem Core.wg_groupEnd (c : Core) (i : GIdx) (x : GVal) : (c.wg i x).groupEnd = c.groupEnd := by unfold Core.wg; split <;> rfl
@[simp] theorem Core.wg_killed (c : Core) (i : GIdx) (x : GVal) : (c.wg i x).killed = c.killed := by unfold Core.wg; split <;> rfl
@[simp] theorem Core.wg_msgUsed (c : Core) (i : GIdx) (x : GVal) : (c.wg i x).msgUsed = c.msgUsed := by unfold Core.wg; split <;> rfl
@[simp] theorem Core.wg_stealPos (c : Core) (i : GIdx) (x : GVal) : (c.wg i x).stealPos = c.stealPos := by unfold Core.wg; split <;> rfl
@[simp] theorem Core.wg_sweep (c : Core) (i : GIdx) (x : GVal) : (c.wg i x).sweep = c.sweep := by unfold Core.wg; split <;> rfl
@[simp] theorem Core.wg_lfsr (c : Core) (i : GIdx) (x : GVal) : (c.wg i x).lfsr = c.lfsr := by unfold Core.wg; split <;> rfl
@[simp] theorem Core.wg_probing (c : Core) (i : GIdx) (x : GVal) : (c.wg i x).probing = c.probing := by unfold Core.wg; split <;> rfl
@[simp] theorem Core.wg_group (c : Core) (i : GIdx) (x : GVal) : (c.wg i x).group = c.group := by unfold Core.wg; split <;> rfl
@[simp] theorem Core.wg_reserved (c : Core) (i : GIdx) (x : GVal) : (c.wg i x).reserved = c.reserved := by unfold Core.wg; split <;> rfl
@[simp] theorem Core.wg_lastOut (c : Core) (i : GIdx) (x : GVal) : (c.wg i x).lastOut = c.lastOut := by unfold Core.wg; split <;> rfl
@[simp] theorem Core.wg_owed (c : Core) (i : GIdx) (x : GVal) : (c.wg i x).owed = c.owed := by unfold Core.wg; split <;> rfl
@[simp] theorem Core.wg_pendTrap (c : Core) (i : GIdx) (x : GVal) : (c.wg i x).pendTrap = c.pendTrap := by unfold Core.wg; split <;> rfl
@[simp] theorem Core.wg_halt (c : Core) (i : GIdx) (x : GVal) : (c.wg i x).halt = c.halt := by unfold Core.wg; split <;> rfl
@[simp] theorem Core.wg_brken (c : Core) (i : GIdx) (x : GVal) : (c.wg i x).brken = c.brken := by unfold Core.wg; split <;> rfl
@[simp] theorem Core.wg_blzhalt (c : Core) (i : GIdx) (x : GVal) : (c.wg i x).blzhalt = c.blzhalt := by unfold Core.wg; split <;> rfl
@[simp] theorem Core.wg_stepping (c : Core) (i : GIdx) (x : GVal) : (c.wg i x).stepping = c.stepping := by unfold Core.wg; split <;> rfl
@[simp] theorem Core.wg_snap (c : Core) (i : GIdx) (x : GVal) : (c.wg i x).snap = c.snap := by unfold Core.wg; split <;> rfl
@[simp] theorem Core.wg_dfault (c : Core) (i : GIdx) (x : GVal) : (c.wg i x).dfault = c.dfault := by unfold Core.wg; split <;> rfl
@[simp] theorem Core.wg_bypass (c : Core) (i : GIdx) (x : GVal) : (c.wg i x).bypass = c.bypass := by unfold Core.wg; split <;> rfl
@[simp] theorem Core.wg_rootRing (c : Core) (i : GIdx) (x : GVal) : (c.wg i x).rootRing = c.rootRing := by unfold Core.wg; split <;> rfl
@[simp] theorem Core.wg_stalls (c : Core) (i : GIdx) (x : GVal) : (c.wg i x).stalls = c.stalls := by unfold Core.wg; split <;> rfl
@[simp] theorem Core.wg_msgNext (c : Core) (i : GIdx) (x : GVal) : (c.wg i x).msgNext = c.msgNext := by unfold Core.wg; split <;> rfl
@[simp] theorem Core.wg_sent (c : Core) (i : GIdx) (x : GVal) : (c.wg i x).sent = c.sent := by unfold Core.wg; split <;> rfl
@[simp] theorem Core.wg_owedPos (c : Core) (i : GIdx) (x : GVal) : (c.wg i x).owedPos = c.owedPos := by unfold Core.wg; split <;> rfl
@[simp] theorem Core.wg_pendHalt (c : Core) (i : GIdx) (x : GVal) : (c.wg i x).pendHalt = c.pendHalt := by unfold Core.wg; split <;> rfl
@[simp] theorem Core.setPc_g (c : Core) (a : Word64) : (c.setPc a).g = c.g := rfl
@[simp] theorem Core.setPc_v (c : Core) (a : Word64) : (c.setPc a).v = c.v := rfl
@[simp] theorem Core.setPc_p (c : Core) (a : Word64) : (c.setPc a).p = c.p := rfl
@[simp] theorem Core.setPc_tile (c : Core) (a : Word64) : (c.setPc a).tile = c.tile := rfl
@[simp] theorem Core.setPc_acc (c : Core) (a : Word64) : (c.setPc a).acc = c.acc := rfl
@[simp] theorem Core.setPc_mail (c : Core) (a : Word64) : (c.setPc a).mail = c.mail := rfl
@[simp] theorem Core.setPc_pres (c : Core) (a : Word64) : (c.setPc a).pres = c.pres := rfl
@[simp] theorem Core.setPc_ctl (c : Core) (a : Word64) : (c.setPc a).ctl = c.ctl := rfl
@[simp] theorem Core.setPc_pcV (c : Core) (a : Word64) : (c.setPc a).pcV = c.pcV := rfl
@[simp] theorem Core.setPc_pcM (c : Core) (a : Word64) : (c.setPc a).pcM = c.pcM := rfl
@[simp] theorem Core.setPc_pcD (c : Core) (a : Word64) : (c.setPc a).pcD = c.pcD := rfl
@[simp] theorem Core.setPc_posS (c : Core) (a : Word64) : (c.setPc a).posS = c.posS := rfl
@[simp] theorem Core.setPc_posV (c : Core) (a : Word64) : (c.setPc a).posV = c.posV := rfl
@[simp] theorem Core.setPc_posM (c : Core) (a : Word64) : (c.setPc a).posM = c.posM := rfl
@[simp] theorem Core.setPc_posD (c : Core) (a : Word64) : (c.setPc a).posD = c.posD := rfl
@[simp] theorem Core.setPc_outcomes (c : Core) (a : Word64) : (c.setPc a).outcomes = c.outcomes := rfl
@[simp] theorem Core.setPc_capV (c : Core) (a : Word64) : (c.setPc a).capV = c.capV := rfl
@[simp] theorem Core.setPc_capM (c : Core) (a : Word64) : (c.setPc a).capM = c.capM := rfl
@[simp] theorem Core.setPc_capD (c : Core) (a : Word64) : (c.setPc a).capD = c.capD := rfl
@[simp] theorem Core.setPc_nestS (c : Core) (a : Word64) : (c.setPc a).nestS = c.nestS := rfl
@[simp] theorem Core.setPc_nestV (c : Core) (a : Word64) : (c.setPc a).nestV = c.nestV := rfl
@[simp] theorem Core.setPc_nestM (c : Core) (a : Word64) : (c.setPc a).nestM = c.nestM := rfl
@[simp] theorem Core.setPc_nestD (c : Core) (a : Word64) : (c.setPc a).nestD = c.nestD := rfl
@[simp] theorem Core.setPc_latches (c : Core) (a : Word64) : (c.setPc a).latches = c.latches := rfl
@[simp] theorem Core.setPc_maxx (c : Core) (a : Word64) : (c.setPc a).maxx = c.maxx := rfl
@[simp] theorem Core.setPc_vwait (c : Core) (a : Word64) : (c.setPc a).vwait = c.vwait := rfl
@[simp] theorem Core.setPc_mwords (c : Core) (a : Word64) : (c.setPc a).mwords = c.mwords := rfl
@[simp] theorem Core.setPc_residue (c : Core) (a : Word64) : (c.setPc a).residue = c.residue := rfl
@[simp] theorem Core.setPc_dq (c : Core) (a : Word64) : (c.setPc a).dq = c.dq := rfl
@[simp] theorem Core.setPc_dnum (c : Core) (a : Word64) : (c.setPc a).dnum = c.dnum := rfl
@[simp] theorem Core.setPc_binds (c : Core) (a : Word64) : (c.setPc a).binds = c.binds := rfl
@[simp] theorem Core.setPc_stores (c : Core) (a : Word64) : (c.setPc a).stores = c.stores := rfl
@[simp] theorem Core.setPc_loads (c : Core) (a : Word64) : (c.setPc a).loads = c.loads := rfl
@[simp] theorem Core.setPc_icache (c : Core) (a : Word64) : (c.setPc a).icache = c.icache := rfl
@[simp] theorem Core.setPc_tlb (c : Core) (a : Word64) : (c.setPc a).tlb = c.tlb := rfl
@[simp] theorem Core.setPc_held (c : Core) (a : Word64) : (c.setPc a).held = c.held := rfl
@[simp] theorem Core.setPc_waitq (c : Core) (a : Word64) : (c.setPc a).waitq = c.waitq := rfl
@[simp] theorem Core.setPc_resend (c : Core) (a : Word64) : (c.setPc a).resend = c.resend := rfl
@[simp] theorem Core.setPc_applied (c : Core) (a : Word64) : (c.setPc a).applied = c.applied := rfl
@[simp] theorem Core.setPc_evqSeq (c : Core) (a : Word64) : (c.setPc a).evqSeq = c.evqSeq := rfl
@[simp] theorem Core.setPc_monLine (c : Core) (a : Word64) : (c.setPc a).monLine = c.monLine := rfl
@[simp] theorem Core.setPc_hw (c : Core) (a : Word64) : (c.setPc a).hw = c.hw := rfl
@[simp] theorem Core.setPc_ringHead (c : Core) (a : Word64) : (c.setPc a).ringHead = c.ringHead := rfl
@[simp] theorem Core.setPc_ringN (c : Core) (a : Word64) : (c.setPc a).ringN = c.ringN := rfl
@[simp] theorem Core.setPc_push (c : Core) (a : Word64) : (c.setPc a).push = c.push := rfl
@[simp] theorem Core.setPc_resumes (c : Core) (a : Word64) : (c.setPc a).resumes = c.resumes := rfl
@[simp] theorem Core.setPc_task (c : Core) (a : Word64) : (c.setPc a).task = c.task := rfl
@[simp] theorem Core.setPc_blocked (c : Core) (a : Word64) : (c.setPc a).blocked = c.blocked := rfl
@[simp] theorem Core.setPc_hold (c : Core) (a : Word64) : (c.setPc a).hold = c.hold := rfl
@[simp] theorem Core.setPc_passing (c : Core) (a : Word64) : (c.setPc a).passing = c.passing := rfl
@[simp] theorem Core.setPc_slice (c : Core) (a : Word64) : (c.setPc a).slice = c.slice := rfl
@[simp] theorem Core.setPc_swap (c : Core) (a : Word64) : (c.setPc a).swap = c.swap := rfl
@[simp] theorem Core.setPc_groupEnd (c : Core) (a : Word64) : (c.setPc a).groupEnd = c.groupEnd := rfl
@[simp] theorem Core.setPc_killed (c : Core) (a : Word64) : (c.setPc a).killed = c.killed := rfl
@[simp] theorem Core.setPc_msgUsed (c : Core) (a : Word64) : (c.setPc a).msgUsed = c.msgUsed := rfl
@[simp] theorem Core.setPc_stealPos (c : Core) (a : Word64) : (c.setPc a).stealPos = c.stealPos := rfl
@[simp] theorem Core.setPc_sweep (c : Core) (a : Word64) : (c.setPc a).sweep = c.sweep := rfl
@[simp] theorem Core.setPc_lfsr (c : Core) (a : Word64) : (c.setPc a).lfsr = c.lfsr := rfl
@[simp] theorem Core.setPc_probing (c : Core) (a : Word64) : (c.setPc a).probing = c.probing := rfl
@[simp] theorem Core.setPc_group (c : Core) (a : Word64) : (c.setPc a).group = c.group := rfl
@[simp] theorem Core.setPc_reserved (c : Core) (a : Word64) : (c.setPc a).reserved = c.reserved := rfl
@[simp] theorem Core.setPc_lastOut (c : Core) (a : Word64) : (c.setPc a).lastOut = c.lastOut := rfl
@[simp] theorem Core.setPc_owed (c : Core) (a : Word64) : (c.setPc a).owed = c.owed := rfl
@[simp] theorem Core.setPc_pendTrap (c : Core) (a : Word64) : (c.setPc a).pendTrap = c.pendTrap := rfl
@[simp] theorem Core.setPc_halt (c : Core) (a : Word64) : (c.setPc a).halt = c.halt := rfl
@[simp] theorem Core.setPc_brken (c : Core) (a : Word64) : (c.setPc a).brken = c.brken := rfl
@[simp] theorem Core.setPc_blzhalt (c : Core) (a : Word64) : (c.setPc a).blzhalt = c.blzhalt := rfl
@[simp] theorem Core.setPc_stepping (c : Core) (a : Word64) : (c.setPc a).stepping = c.stepping := rfl
@[simp] theorem Core.setPc_snap (c : Core) (a : Word64) : (c.setPc a).snap = c.snap := rfl
@[simp] theorem Core.setPc_dfault (c : Core) (a : Word64) : (c.setPc a).dfault = c.dfault := rfl
@[simp] theorem Core.setPc_bypass (c : Core) (a : Word64) : (c.setPc a).bypass = c.bypass := rfl
@[simp] theorem Core.setPc_rootRing (c : Core) (a : Word64) : (c.setPc a).rootRing = c.rootRing := rfl
@[simp] theorem Core.setPc_stalls (c : Core) (a : Word64) : (c.setPc a).stalls = c.stalls := rfl
@[simp] theorem Core.setPc_msgNext (c : Core) (a : Word64) : (c.setPc a).msgNext = c.msgNext := rfl
@[simp] theorem Core.setPc_sent (c : Core) (a : Word64) : (c.setPc a).sent = c.sent := rfl
@[simp] theorem Core.setPc_owedPos (c : Core) (a : Word64) : (c.setPc a).owedPos = c.owedPos := rfl
@[simp] theorem Core.setPc_pendHalt (c : Core) (a : Word64) : (c.setPc a).pendHalt = c.pendHalt := rfl
@[simp] theorem Core.modCtl_g (c : Core) (f : Ctl → Ctl) : (c.modCtl f).g = c.g := rfl
@[simp] theorem Core.modCtl_v (c : Core) (f : Ctl → Ctl) : (c.modCtl f).v = c.v := rfl
@[simp] theorem Core.modCtl_p (c : Core) (f : Ctl → Ctl) : (c.modCtl f).p = c.p := rfl
@[simp] theorem Core.modCtl_tile (c : Core) (f : Ctl → Ctl) : (c.modCtl f).tile = c.tile := rfl
@[simp] theorem Core.modCtl_acc (c : Core) (f : Ctl → Ctl) : (c.modCtl f).acc = c.acc := rfl
@[simp] theorem Core.modCtl_mail (c : Core) (f : Ctl → Ctl) : (c.modCtl f).mail = c.mail := rfl
@[simp] theorem Core.modCtl_pres (c : Core) (f : Ctl → Ctl) : (c.modCtl f).pres = c.pres := rfl
@[simp] theorem Core.modCtl_codecap (c : Core) (f : Ctl → Ctl) : (c.modCtl f).codecap = c.codecap := rfl
@[simp] theorem Core.modCtl_pcV (c : Core) (f : Ctl → Ctl) : (c.modCtl f).pcV = c.pcV := rfl
@[simp] theorem Core.modCtl_pcM (c : Core) (f : Ctl → Ctl) : (c.modCtl f).pcM = c.pcM := rfl
@[simp] theorem Core.modCtl_pcD (c : Core) (f : Ctl → Ctl) : (c.modCtl f).pcD = c.pcD := rfl
@[simp] theorem Core.modCtl_posS (c : Core) (f : Ctl → Ctl) : (c.modCtl f).posS = c.posS := rfl
@[simp] theorem Core.modCtl_posV (c : Core) (f : Ctl → Ctl) : (c.modCtl f).posV = c.posV := rfl
@[simp] theorem Core.modCtl_posM (c : Core) (f : Ctl → Ctl) : (c.modCtl f).posM = c.posM := rfl
@[simp] theorem Core.modCtl_posD (c : Core) (f : Ctl → Ctl) : (c.modCtl f).posD = c.posD := rfl
@[simp] theorem Core.modCtl_outcomes (c : Core) (f : Ctl → Ctl) : (c.modCtl f).outcomes = c.outcomes := rfl
@[simp] theorem Core.modCtl_capV (c : Core) (f : Ctl → Ctl) : (c.modCtl f).capV = c.capV := rfl
@[simp] theorem Core.modCtl_capM (c : Core) (f : Ctl → Ctl) : (c.modCtl f).capM = c.capM := rfl
@[simp] theorem Core.modCtl_capD (c : Core) (f : Ctl → Ctl) : (c.modCtl f).capD = c.capD := rfl
@[simp] theorem Core.modCtl_nestS (c : Core) (f : Ctl → Ctl) : (c.modCtl f).nestS = c.nestS := rfl
@[simp] theorem Core.modCtl_nestV (c : Core) (f : Ctl → Ctl) : (c.modCtl f).nestV = c.nestV := rfl
@[simp] theorem Core.modCtl_nestM (c : Core) (f : Ctl → Ctl) : (c.modCtl f).nestM = c.nestM := rfl
@[simp] theorem Core.modCtl_nestD (c : Core) (f : Ctl → Ctl) : (c.modCtl f).nestD = c.nestD := rfl
@[simp] theorem Core.modCtl_latches (c : Core) (f : Ctl → Ctl) : (c.modCtl f).latches = c.latches := rfl
@[simp] theorem Core.modCtl_maxx (c : Core) (f : Ctl → Ctl) : (c.modCtl f).maxx = c.maxx := rfl
@[simp] theorem Core.modCtl_vwait (c : Core) (f : Ctl → Ctl) : (c.modCtl f).vwait = c.vwait := rfl
@[simp] theorem Core.modCtl_mwords (c : Core) (f : Ctl → Ctl) : (c.modCtl f).mwords = c.mwords := rfl
@[simp] theorem Core.modCtl_residue (c : Core) (f : Ctl → Ctl) : (c.modCtl f).residue = c.residue := rfl
@[simp] theorem Core.modCtl_dq (c : Core) (f : Ctl → Ctl) : (c.modCtl f).dq = c.dq := rfl
@[simp] theorem Core.modCtl_dnum (c : Core) (f : Ctl → Ctl) : (c.modCtl f).dnum = c.dnum := rfl
@[simp] theorem Core.modCtl_binds (c : Core) (f : Ctl → Ctl) : (c.modCtl f).binds = c.binds := rfl
@[simp] theorem Core.modCtl_stores (c : Core) (f : Ctl → Ctl) : (c.modCtl f).stores = c.stores := rfl
@[simp] theorem Core.modCtl_loads (c : Core) (f : Ctl → Ctl) : (c.modCtl f).loads = c.loads := rfl
@[simp] theorem Core.modCtl_icache (c : Core) (f : Ctl → Ctl) : (c.modCtl f).icache = c.icache := rfl
@[simp] theorem Core.modCtl_tlb (c : Core) (f : Ctl → Ctl) : (c.modCtl f).tlb = c.tlb := rfl
@[simp] theorem Core.modCtl_held (c : Core) (f : Ctl → Ctl) : (c.modCtl f).held = c.held := rfl
@[simp] theorem Core.modCtl_waitq (c : Core) (f : Ctl → Ctl) : (c.modCtl f).waitq = c.waitq := rfl
@[simp] theorem Core.modCtl_resend (c : Core) (f : Ctl → Ctl) : (c.modCtl f).resend = c.resend := rfl
@[simp] theorem Core.modCtl_applied (c : Core) (f : Ctl → Ctl) : (c.modCtl f).applied = c.applied := rfl
@[simp] theorem Core.modCtl_evqSeq (c : Core) (f : Ctl → Ctl) : (c.modCtl f).evqSeq = c.evqSeq := rfl
@[simp] theorem Core.modCtl_monLine (c : Core) (f : Ctl → Ctl) : (c.modCtl f).monLine = c.monLine := rfl
@[simp] theorem Core.modCtl_hw (c : Core) (f : Ctl → Ctl) : (c.modCtl f).hw = c.hw := rfl
@[simp] theorem Core.modCtl_ringHead (c : Core) (f : Ctl → Ctl) : (c.modCtl f).ringHead = c.ringHead := rfl
@[simp] theorem Core.modCtl_ringN (c : Core) (f : Ctl → Ctl) : (c.modCtl f).ringN = c.ringN := rfl
@[simp] theorem Core.modCtl_push (c : Core) (f : Ctl → Ctl) : (c.modCtl f).push = c.push := rfl
@[simp] theorem Core.modCtl_resumes (c : Core) (f : Ctl → Ctl) : (c.modCtl f).resumes = c.resumes := rfl
@[simp] theorem Core.modCtl_task (c : Core) (f : Ctl → Ctl) : (c.modCtl f).task = c.task := rfl
@[simp] theorem Core.modCtl_blocked (c : Core) (f : Ctl → Ctl) : (c.modCtl f).blocked = c.blocked := rfl
@[simp] theorem Core.modCtl_hold (c : Core) (f : Ctl → Ctl) : (c.modCtl f).hold = c.hold := rfl
@[simp] theorem Core.modCtl_passing (c : Core) (f : Ctl → Ctl) : (c.modCtl f).passing = c.passing := rfl
@[simp] theorem Core.modCtl_slice (c : Core) (f : Ctl → Ctl) : (c.modCtl f).slice = c.slice := rfl
@[simp] theorem Core.modCtl_swap (c : Core) (f : Ctl → Ctl) : (c.modCtl f).swap = c.swap := rfl
@[simp] theorem Core.modCtl_groupEnd (c : Core) (f : Ctl → Ctl) : (c.modCtl f).groupEnd = c.groupEnd := rfl
@[simp] theorem Core.modCtl_killed (c : Core) (f : Ctl → Ctl) : (c.modCtl f).killed = c.killed := rfl
@[simp] theorem Core.modCtl_msgUsed (c : Core) (f : Ctl → Ctl) : (c.modCtl f).msgUsed = c.msgUsed := rfl
@[simp] theorem Core.modCtl_stealPos (c : Core) (f : Ctl → Ctl) : (c.modCtl f).stealPos = c.stealPos := rfl
@[simp] theorem Core.modCtl_sweep (c : Core) (f : Ctl → Ctl) : (c.modCtl f).sweep = c.sweep := rfl
@[simp] theorem Core.modCtl_lfsr (c : Core) (f : Ctl → Ctl) : (c.modCtl f).lfsr = c.lfsr := rfl
@[simp] theorem Core.modCtl_probing (c : Core) (f : Ctl → Ctl) : (c.modCtl f).probing = c.probing := rfl
@[simp] theorem Core.modCtl_group (c : Core) (f : Ctl → Ctl) : (c.modCtl f).group = c.group := rfl
@[simp] theorem Core.modCtl_reserved (c : Core) (f : Ctl → Ctl) : (c.modCtl f).reserved = c.reserved := rfl
@[simp] theorem Core.modCtl_lastOut (c : Core) (f : Ctl → Ctl) : (c.modCtl f).lastOut = c.lastOut := rfl
@[simp] theorem Core.modCtl_owed (c : Core) (f : Ctl → Ctl) : (c.modCtl f).owed = c.owed := rfl
@[simp] theorem Core.modCtl_pendTrap (c : Core) (f : Ctl → Ctl) : (c.modCtl f).pendTrap = c.pendTrap := rfl
@[simp] theorem Core.modCtl_halt (c : Core) (f : Ctl → Ctl) : (c.modCtl f).halt = c.halt := rfl
@[simp] theorem Core.modCtl_brken (c : Core) (f : Ctl → Ctl) : (c.modCtl f).brken = c.brken := rfl
@[simp] theorem Core.modCtl_blzhalt (c : Core) (f : Ctl → Ctl) : (c.modCtl f).blzhalt = c.blzhalt := rfl
@[simp] theorem Core.modCtl_stepping (c : Core) (f : Ctl → Ctl) : (c.modCtl f).stepping = c.stepping := rfl
@[simp] theorem Core.modCtl_snap (c : Core) (f : Ctl → Ctl) : (c.modCtl f).snap = c.snap := rfl
@[simp] theorem Core.modCtl_dfault (c : Core) (f : Ctl → Ctl) : (c.modCtl f).dfault = c.dfault := rfl
@[simp] theorem Core.modCtl_bypass (c : Core) (f : Ctl → Ctl) : (c.modCtl f).bypass = c.bypass := rfl
@[simp] theorem Core.modCtl_rootRing (c : Core) (f : Ctl → Ctl) : (c.modCtl f).rootRing = c.rootRing := rfl
@[simp] theorem Core.modCtl_stalls (c : Core) (f : Ctl → Ctl) : (c.modCtl f).stalls = c.stalls := rfl
@[simp] theorem Core.modCtl_msgNext (c : Core) (f : Ctl → Ctl) : (c.modCtl f).msgNext = c.msgNext := rfl
@[simp] theorem Core.modCtl_sent (c : Core) (f : Ctl → Ctl) : (c.modCtl f).sent = c.sent := rfl
@[simp] theorem Core.modCtl_owedPos (c : Core) (f : Ctl → Ctl) : (c.modCtl f).owedPos = c.owedPos := rfl
@[simp] theorem Core.modCtl_pendHalt (c : Core) (f : Ctl → Ctl) : (c.modCtl f).pendHalt = c.pendHalt := rfl
@[simp] theorem Core.next_g (c : Core) : c.next.g = c.g := rfl
@[simp] theorem Core.next_v (c : Core) : c.next.v = c.v := rfl
@[simp] theorem Core.next_p (c : Core) : c.next.p = c.p := rfl
@[simp] theorem Core.next_tile (c : Core) : c.next.tile = c.tile := rfl
@[simp] theorem Core.next_acc (c : Core) : c.next.acc = c.acc := rfl
@[simp] theorem Core.next_mail (c : Core) : c.next.mail = c.mail := rfl
@[simp] theorem Core.next_pres (c : Core) : c.next.pres = c.pres := rfl
@[simp] theorem Core.next_ctl (c : Core) : c.next.ctl = c.ctl := rfl
@[simp] theorem Core.next_pcV (c : Core) : c.next.pcV = c.pcV := rfl
@[simp] theorem Core.next_pcM (c : Core) : c.next.pcM = c.pcM := rfl
@[simp] theorem Core.next_pcD (c : Core) : c.next.pcD = c.pcD := rfl
@[simp] theorem Core.next_posV (c : Core) : c.next.posV = c.posV := rfl
@[simp] theorem Core.next_posM (c : Core) : c.next.posM = c.posM := rfl
@[simp] theorem Core.next_posD (c : Core) : c.next.posD = c.posD := rfl
@[simp] theorem Core.next_outcomes (c : Core) : c.next.outcomes = c.outcomes := rfl
@[simp] theorem Core.next_capV (c : Core) : c.next.capV = c.capV := rfl
@[simp] theorem Core.next_capM (c : Core) : c.next.capM = c.capM := rfl
@[simp] theorem Core.next_capD (c : Core) : c.next.capD = c.capD := rfl
@[simp] theorem Core.next_nestS (c : Core) : c.next.nestS = c.nestS := rfl
@[simp] theorem Core.next_nestV (c : Core) : c.next.nestV = c.nestV := rfl
@[simp] theorem Core.next_nestM (c : Core) : c.next.nestM = c.nestM := rfl
@[simp] theorem Core.next_nestD (c : Core) : c.next.nestD = c.nestD := rfl
@[simp] theorem Core.next_latches (c : Core) : c.next.latches = c.latches := rfl
@[simp] theorem Core.next_maxx (c : Core) : c.next.maxx = c.maxx := rfl
@[simp] theorem Core.next_vwait (c : Core) : c.next.vwait = c.vwait := rfl
@[simp] theorem Core.next_mwords (c : Core) : c.next.mwords = c.mwords := rfl
@[simp] theorem Core.next_residue (c : Core) : c.next.residue = c.residue := rfl
@[simp] theorem Core.next_dq (c : Core) : c.next.dq = c.dq := rfl
@[simp] theorem Core.next_dnum (c : Core) : c.next.dnum = c.dnum := rfl
@[simp] theorem Core.next_binds (c : Core) : c.next.binds = c.binds := rfl
@[simp] theorem Core.next_stores (c : Core) : c.next.stores = c.stores := rfl
@[simp] theorem Core.next_loads (c : Core) : c.next.loads = c.loads := rfl
@[simp] theorem Core.next_icache (c : Core) : c.next.icache = c.icache := rfl
@[simp] theorem Core.next_tlb (c : Core) : c.next.tlb = c.tlb := rfl
@[simp] theorem Core.next_held (c : Core) : c.next.held = c.held := rfl
@[simp] theorem Core.next_waitq (c : Core) : c.next.waitq = c.waitq := rfl
@[simp] theorem Core.next_resend (c : Core) : c.next.resend = c.resend := rfl
@[simp] theorem Core.next_applied (c : Core) : c.next.applied = c.applied := rfl
@[simp] theorem Core.next_evqSeq (c : Core) : c.next.evqSeq = c.evqSeq := rfl
@[simp] theorem Core.next_monLine (c : Core) : c.next.monLine = c.monLine := rfl
@[simp] theorem Core.next_hw (c : Core) : c.next.hw = c.hw := rfl
@[simp] theorem Core.next_ringHead (c : Core) : c.next.ringHead = c.ringHead := rfl
@[simp] theorem Core.next_ringN (c : Core) : c.next.ringN = c.ringN := rfl
@[simp] theorem Core.next_push (c : Core) : c.next.push = c.push := rfl
@[simp] theorem Core.next_resumes (c : Core) : c.next.resumes = c.resumes := rfl
@[simp] theorem Core.next_task (c : Core) : c.next.task = c.task := rfl
@[simp] theorem Core.next_blocked (c : Core) : c.next.blocked = c.blocked := rfl
@[simp] theorem Core.next_hold (c : Core) : c.next.hold = c.hold := rfl
@[simp] theorem Core.next_passing (c : Core) : c.next.passing = c.passing := rfl
@[simp] theorem Core.next_slice (c : Core) : c.next.slice = c.slice := rfl
@[simp] theorem Core.next_swap (c : Core) : c.next.swap = c.swap := rfl
@[simp] theorem Core.next_groupEnd (c : Core) : c.next.groupEnd = c.groupEnd := rfl
@[simp] theorem Core.next_killed (c : Core) : c.next.killed = c.killed := rfl
@[simp] theorem Core.next_msgUsed (c : Core) : c.next.msgUsed = c.msgUsed := rfl
@[simp] theorem Core.next_stealPos (c : Core) : c.next.stealPos = c.stealPos := rfl
@[simp] theorem Core.next_sweep (c : Core) : c.next.sweep = c.sweep := rfl
@[simp] theorem Core.next_lfsr (c : Core) : c.next.lfsr = c.lfsr := rfl
@[simp] theorem Core.next_probing (c : Core) : c.next.probing = c.probing := rfl
@[simp] theorem Core.next_group (c : Core) : c.next.group = c.group := rfl
@[simp] theorem Core.next_reserved (c : Core) : c.next.reserved = c.reserved := rfl
@[simp] theorem Core.next_lastOut (c : Core) : c.next.lastOut = c.lastOut := rfl
@[simp] theorem Core.next_owed (c : Core) : c.next.owed = c.owed := rfl
@[simp] theorem Core.next_pendTrap (c : Core) : c.next.pendTrap = c.pendTrap := rfl
@[simp] theorem Core.next_halt (c : Core) : c.next.halt = c.halt := rfl
@[simp] theorem Core.next_brken (c : Core) : c.next.brken = c.brken := rfl
@[simp] theorem Core.next_blzhalt (c : Core) : c.next.blzhalt = c.blzhalt := rfl
@[simp] theorem Core.next_stepping (c : Core) : c.next.stepping = c.stepping := rfl
@[simp] theorem Core.next_snap (c : Core) : c.next.snap = c.snap := rfl
@[simp] theorem Core.next_dfault (c : Core) : c.next.dfault = c.dfault := rfl
@[simp] theorem Core.next_bypass (c : Core) : c.next.bypass = c.bypass := rfl
@[simp] theorem Core.next_rootRing (c : Core) : c.next.rootRing = c.rootRing := rfl
@[simp] theorem Core.next_stalls (c : Core) : c.next.stalls = c.stalls := rfl
@[simp] theorem Core.next_msgNext (c : Core) : c.next.msgNext = c.msgNext := rfl
@[simp] theorem Core.next_sent (c : Core) : c.next.sent = c.sent := rfl
@[simp] theorem Core.next_owedPos (c : Core) : c.next.owedPos = c.owedPos := rfl
@[simp] theorem Core.next_pendHalt (c : Core) : c.next.pendHalt = c.pendHalt := rfl

@[simp] theorem GVal.word_withWord (v : GVal) (a : Word64) : (v.withWord a).word = a := by
  simp only [GVal.word, GVal.withWord]
  exact BitVec.setWidth_append_eq_right

@[simp] theorem Core.modCtl_ctl (c : Core) (f : Ctl → Ctl) : (c.modCtl f).ctl = f c.ctl := rfl
@[simp] theorem Core.setPc_pc (c : Core) (a : Word64) : (c.setPc a).pc = a := GVal.word_withWord _ _
@[simp] theorem Core.next_pc (c : Core) : c.next.pc = c.pc + 4#64 := GVal.word_withWord _ _
@[simp] theorem Core.next_posS (c : Core) : c.next.posS = c.posS + 1#32 := rfl
@[simp] theorem Core.wg_pc (c : Core) (i : GIdx) (x : GVal) : (c.wg i x).pc = c.pc := by simp only [Core.pc, Core.wg_codecap]
@[simp] theorem Core.setPc_rg (c : Core) (a : Word64) (i : GIdx) : (c.setPc a).rg i = c.rg i := rfl
@[simp] theorem Core.next_rg (c : Core) (i : GIdx) : c.next.rg i = c.rg i := rfl
@[simp] theorem Core.modCtl_rg (c : Core) (f : Ctl → Ctl) (i : GIdx) : (c.modCtl f).rg i = c.rg i := rfl
@[simp] theorem Core.modCtl_pc (c : Core) (f : Ctl → Ctl) : (c.modCtl f).pc = c.pc := rfl

@[simp] theorem Core.rg_zero (c : Core) : c.rg 0#6 = GVal.zero := rfl

@[simp] theorem Core.rg_wg (c : Core) (i j : GIdx) (x : GVal) :
    (c.wg i x).rg j = if j = 0#6 then GVal.zero else if j = i then x else c.rg j := by
  simp only [Core.rg, Core.wg]
  by_cases hj : j = 0#6
  · simp [hj]
  · by_cases hi : i = 0#6
    · subst hi
      simp [hj]
    · simp only [hi, if_false, hj, Vector.getElem_set]
      by_cases h : j = i
      · subst h; simp
      · have : i.toNat ≠ j.toNat := fun e => h (BitVec.eq_of_toNat_eq e.symm)
        simp [h, this]

end Sys2Proof.Machine
end

