-- ==== Sys2Proof/Tests/Slice0.lean ====
section
/-! SUPPORT. The model's own tests. -/

set_option Elab.async false

namespace Sys2Proof.Tests

open Sys2Proof Sys2Proof.Machine

/-! Decoding. Each word is written from the fields of spec/opcode_table.json (S and Kettle words) or from the tables of
02_encoding.md R58 to R68 (V, M and D words), with operand values that fill their fields unevenly. The fields of a V word stand in the order pz, cap2, cap1, pred,
rnd, fmt, D, A, B; of an M word nb, cap2, cap1, sig, wait, D, A, B, (columns, rows, format), (enable, base, offset); of a D word
nb, cap2, cap1, sig, wait, destination, source. -/

/-- A word, its length in bits, and the instruction it stands for: the decoder reads it and the encoder writes it. -/
def wordOk (x : Nat × Nat × Instr) : Bool :=
  decide (decodeTableWord x.1 x.2.1 = some x.2.2) && decide (encode x.2.2 = some (x.1, x.2.1))

def wordsS0 : List (Nat × Nat × Instr) :=
  [(32, 0x02248A04, .add 5#6 9#6 17#6),
   (32, 0x0A248A04, .sub 5#6 9#6 17#6),
   (32, 0x12248A04, .mul 5#6 9#6 17#6),
   (32, 0x1A248A04, .mulh 5#6 9#6 17#6),
   (32, 0x22248A04, .div 5#6 9#6 17#6),
   (32, 0x2A248A04, .rem 5#6 9#6 17#6),
   (32, 0x32248A04, .and 5#6 9#6 17#6),
   (32, 0x3A248A04, .or 5#6 9#6 17#6),
   (32, 0x42248A04, .xor 5#6 9#6 17#6),
   (32, 0x4A248A04, .sll 5#6 9#6 17#6),
   (32, 0x52248A04, .srl 5#6 9#6 17#6),
   (32, 0x5A248A04, .sra 5#6 9#6 17#6),
   (32, 0x62248A04, .slt 5#6 9#6 17#6),
   (32, 0x6A248A04, .sltu 5#6 9#6 17#6),
   (32, 0x72248A04, .min 5#6 9#6 17#6),
   (32, 0x7A248A04, .max 5#6 9#6 17#6),
   (32, 0x80048A04, .clz 5#6 9#6),
   (32, 0x88048A04, .popc 5#6 9#6)]

theorem test_wordsS0_decode : wordsS0.all wordOk = true := by decide +kernel

def wordsS1 : List (Nat × Nat × Instr) :=
  [(32, 0x90048A04, .mov 5#6 9#6),
   (32, 0xB4648A08, .addi 5#6 9#6 0x5A3#11),
   (32, 0xB4648A0C, .andi 5#6 9#6 0x5A3#11),
   (32, 0xB4648A10, .ori 5#6 9#6 0x5A3#11),
   (32, 0xB4648A14, .xori 5#6 9#6 0x5A3#11),
   (32, 0x08A48A18, .slli 5#6 9#6 0x45#7),
   (32, 0x08A48A1C, .srli 5#6 9#6 0x45#7),
   (32, 0x08A48A20, .srai 5#6 9#6 0x45#7),
   (32, 0xD2E18A24, .lih 5#6 0x1A5C3#17),
   (32, 0x00648A28, .widf 5#6 9#6 0x3#3),
   (32, 0x02248A2C, .capBnd 5#6 9#6 17#6),
   (32, 0x0A248A2C, .capPerm 5#6 9#6 17#6),
   (32, 0x12248A2C, .capInc 5#6 9#6 17#6),
   (32, 0x1A248A2C, .capSeal 5#6 9#6 17#6),
   (32, 0x20048A2C, .capMov 5#6 9#6),
   (32, 0x28048A2C, .capClr 5#6 9#6),
   (32, 0x00A48A30, .capGet 5#6 9#6 0x5#3),
   (32, 0x98E89240, .beq 9#6 17#6 0x4C7#11)]

theorem test_wordsS1_decode : wordsS1.all wordOk = true := by decide +kernel

def wordsS2 : List (Nat × Nat × Instr) :=
  [(32, 0x98E89244, .bne 9#6 17#6 0x4C7#11),
   (32, 0x98E89248, .blt 9#6 17#6 0x4C7#11),
   (32, 0x98E8924C, .bge 9#6 17#6 0x4C7#11),
   (32, 0x98E89250, .bltu 9#6 17#6 0x4C7#11),
   (32, 0x98E89254, .bgeu 9#6 17#6 0x4C7#11),
   (32, 0xD2E18A58, .jal 5#6 0x1A5C3#17),
   (32, 0x98E48A5C, .jalr 5#6 9#6 0x4C7#11),
   (32, 0x23448060, .nest .m 9#6 0x6#5 0x2#3),
   (32, 0xD2E18064, .safept 0x1A5C3#17),
   (32, 0x00058068, .syncw 0xB#4),
   (32, 0x54A00A6C, .mfc 5#6 0x2A5#11),
   (32, 0x54A04270, .mtc 33#6 0x2A5#11),
   (32, 0x54A04274, .mset 33#6 0x2A5#11),
   (32, 0x54A04278, .mclr 33#6 0x2A5#11),
   (32, 0x98E48A80, .ldB 5#6 9#6 0x4C7#11),
   (32, 0x98E48A84, .ldH 5#6 9#6 0x4C7#11),
   (32, 0x98E48A88, .ldW 5#6 9#6 0x4C7#11),
   (32, 0x98E48A8C, .ldD 5#6 9#6 0x4C7#11)]

theorem test_wordsS2_decode : wordsS2.all wordOk = true := by decide +kernel

def wordsS3 : List (Nat × Nat × Instr) :=
  [(32, 0x98E48A90, .ldQ 5#6 9#6 0x4C7#11),
   (32, 0x98E48A94, .stB 5#6 9#6 0x4C7#11),
   (32, 0x98E48A98, .stH 5#6 9#6 0x4C7#11),
   (32, 0x98E48A9C, .stW 5#6 9#6 0x4C7#11),
   (32, 0x98E48AA0, .stD 5#6 9#6 0x4C7#11),
   (32, 0x98E48AA4, .stQ 5#6 9#6 0x4C7#11),
   (32, 0xF6648AA8, .ldloc .d .cw 5#6 9#6 0x3D#6),
   (32, 0xF6648AAC, .stloc .d .cw 5#6 9#6 0x3D#6),
   (32, 0x98E484B0, .pref 0x2#2 9#6 0x4C7#11),
   (32, 0x98E480B4, .clwb 9#6 0x4C7#11),
   (32, 0x98E480B8, .clinv 9#6 0x4C7#11),
   (32, 0x98E482B8, .clinvI 9#6 0x4C7#11),
   (32, 0x000180C0, .fence .pkg),
   (32, 0x03648AC4, .ldacq .d .pkg 5#6 9#6),
   (32, 0x03648AC8, .strel .d .pkg 5#6 9#6),
   (32, 0x000000CC, .lpbk),
   (32, 0x9A248AD0, .amoAdd .rl .pkg 5#6 9#6 17#6),
   (32, 0x9A248AD4, .amoAnd .rl .pkg 5#6 9#6 17#6)]

theorem test_wordsS3_decode : wordsS3.all wordOk = true := by decide +kernel

def wordsS4 : List (Nat × Nat × Instr) :=
  [(32, 0x9A248AD8, .amoOr .rl .pkg 5#6 9#6 17#6),
   (32, 0x9A248ADC, .amoXor .rl .pkg 5#6 9#6 17#6),
   (32, 0x9A248AE0, .amoMin .rl .pkg 5#6 9#6 17#6),
   (32, 0x9A248AE4, .amoMax .rl .pkg 5#6 9#6 17#6),
   (32, 0x9A248AE8, .amoSwp .rl .pkg 5#6 9#6 17#6),
   (32, 0x9A248AEC, .amoCas .rl .pkg 5#6 9#6 17#6),
   (32, 0x98E48B00, .take 5#6 9#6 0x4C7#11),
   (32, 0x98E48B04, .peek 5#6 9#6 0x4C7#11),
   (32, 0x98E48B08, .trytake 5#6 9#6 0x4C7#11),
   (32, 0x98E48B0C, .putf 5#6 9#6 0x4C7#11),
   (32, 0x98E48B10, .putw 5#6 9#6 0x4C7#11),
   (32, 0x98E48114, .empty 9#6 0x4C7#11),
   (32, 0x98E48118, .full 9#6 0x4C7#11),
   (32, 0x98E48B1C, .ptest 5#6 9#6 0x4C7#11),
   (32, 0x02248120, .mbinc 9#6 17#6),
   (32, 0x9A248120, .mbincRel .pkg 9#6 17#6),
   (32, 0x02248B24, .mbwait 5#6 9#6 17#6),
   (32, 0x00048B28, .mbrd 5#6 9#6)]

theorem test_wordsS4_decode : wordsS4.all wordOk = true := by decide +kernel

def wordsS5 : List (Nat × Nat × Instr) :=
  [(32, 0x0224812C, .mbset 9#6 17#6),
   (32, 0x02248130, .barinit 9#6 17#6),
   (32, 0x00048B34, .bararv 5#6 9#6),
   (32, 0x02248138, .barwait 9#6 17#6),
   (32, 0x00048B3C, .bartest 5#6 9#6),
   (32, 0x02248B40, .bartwait 5#6 9#6 17#6),
   (32, 0x00448144, .barjoin 9#6 0x2#2),
   (32, 0x00000148, .barexit),
   (32, 0x98E4814C, .monarm 9#6 0x4C7#11),
   (32, 0x00048B50, .monwait 5#6 9#6),
   (32, 0x00048154, .spawn 9#6),
   (32, 0x02248158, .spawnr 9#6 17#6),
   (32, 0x0224815C, .codlt 9#6 17#6),
   (32, 0x02248160, .cdec 9#6 17#6),
   (32, 0x1A248B64, .amsg 0x3#3 5#6 9#6 17#6),
   (32, 0x00000168, .yield),
   (32, 0x0000016C, .exit),
   (32, 0x00C00B70, .compose true 0x2#2 5#6)]

theorem test_wordsS5_decode : wordsS5.all wordOk = true := by decide +kernel

def wordsS6 : List (Nat × Nat × Instr) :=
  [(32, 0x00000174, .split),
   (32, 0x00400B78, .gang 0x2#2 5#6),
   (32, 0x0000017C, .disband),
   (32, 0x02248B80, .pfxl 5#6 9#6 17#6),
   (32, 0x02248B84, .pfxi 5#6 9#6 17#6),
   (32, 0x02248188, .pfxdrop 9#6 17#6),
   (32, 0x02248B8C, .kvmap 5#6 9#6 17#6),
   (32, 0x02248190, .kvtrnc 9#6 17#6),
   (32, 0x02248194, .kvpin 9#6 17#6),
   (32, 0x02248198, .kvunpin 9#6 17#6),
   (32, 0x0004819C, .attg 9#6),
   (32, 0x02248BA0, .fcall 5#6 9#6 17#6),
   (32, 0x00048BA4, .fwait 5#6 9#6),
   (32, 0x00048BA8, .ftest 5#6 9#6),
   (32, 0x00048BAC, .fcancel 5#6 9#6),
   (32, 0x022481B0, .fdone 9#6 17#6),
   (32, 0x00000BB4, .rngsv 5#6),
   (32, 0x000481B8, .rngld 9#6)]

theorem test_wordsS6_decode : wordsS6.all wordOk = true := by decide +kernel

def wordsS7 : List (Nat × Nat × Instr) :=
  [(32, 0x000981BC, .trap 0x13#8),
   (32, 0x000001C0, .eret),
   (32, 0xD2E181C4, .svc 0x1A5C3#17),
   (32, 0x000001C8, .halt),
   (32, 0xD2E181CC, .brk 0x1A5C3#17),
   (32, 0x000001D0, .blaze),
   (32, 0x00000BD4, .rdcyc 5#6),
   (32, 0x00000BD8, .rdptp 5#6),
   (32, 0x000481DC, .psave 9#6),
   (32, 0x000481E0, .prest 9#6),
   (32, 0x1A2481E4, .tlbfl .pkg 9#6 17#6),
   (32, 0x00048BE8, .fqtake 5#6 9#6),
   (32, 0x022481EC, .fqdone 9#6 17#6),
   (32, 0x000481F0, .ctxkill 9#6),
   (32, 0x02248BF4, .capgrant 5#6 9#6 17#6),
   (32, 0x0003058B, .ktTake 0xB#5 0x6#5),
   (32, 0x0003158B, .ktMark 0xB#5 0x6#5)]

theorem test_wordsS7_decode : wordsS7.all wordOk = true := by decide +kernel

def wordsV0 : List (Nat × Nat × Instr) :=
  [(96, 0x2000008000000007D4AD7605,
      .vadd ⟨true, 42#6, 21#6, 5#3, 3#3, 0xB#4, .vreg 7#5, .cap1, .cap2⟩),
   (96, 0x2000008000000007D4AD7609,
      .vsub ⟨true, 42#6, 21#6, 5#3, 3#3, 0xB#4, .vreg 7#5, .cap1, .cap2⟩),
   (96, 0x2000008000000007D4AD760D,
      .vmul ⟨true, 42#6, 21#6, 5#3, 3#3, 0xB#4, .vreg 7#5, .cap1, .cap2⟩),
   (96, 0x2000008000000007D4AD7611,
      .vfma ⟨true, 42#6, 21#6, 5#3, 3#3, 0xB#4, .vreg 7#5, .cap1, .cap2⟩),
   (96, 0x2000008000000007D4AD7615,
      .vfms ⟨true, 42#6, 21#6, 5#3, 3#3, 0xB#4, .vreg 7#5, .cap1, .cap2⟩),
   (96, 0x2000008000000007D4AD7619,
      .vfnma ⟨true, 42#6, 21#6, 5#3, 3#3, 0xB#4, .vreg 7#5, .cap1, .cap2⟩),
   (96, 0x4E07E00003D2057E0001041D,
      .vmin ⟨false, 0#6, 0#6, 1#3, 0#3, 0x2#4, .loc 2#4 0x5#8 0x1F#6 true, .vreg 30#5, .loc 3#4 0x81#8 0x3E#6 false⟩),
   (96, 0x4E07E00003D2057E00010421,
      .vmax ⟨false, 0#6, 0#6, 1#3, 0#3, 0x2#4, .loc 2#4 0x5#8 0x1F#6 true, .vreg 30#5, .loc 3#4 0x81#8 0x3E#6 false⟩),
   (96, 0x4E07E00003D2057E00010441,
      .vand ⟨false, 0#6, 0#6, 1#3, 0#3, 0x2#4, .loc 2#4 0x5#8 0x1F#6 true, .vreg 30#5, .loc 3#4 0x81#8 0x3E#6 false⟩),
   (96, 0x4E07E00003D2057E00010445,
      .vor ⟨false, 0#6, 0#6, 1#3, 0#3, 0x2#4, .loc 2#4 0x5#8 0x1F#6 true, .vreg 30#5, .loc 3#4 0x81#8 0x3E#6 false⟩),
   (96, 0x4E07E00003D2057E00010449,
      .vxor ⟨false, 0#6, 0#6, 1#3, 0#3, 0x2#4, .loc 2#4 0x5#8 0x1F#6 true, .vreg 30#5, .loc 3#4 0x81#8 0x3E#6 false⟩),
   (96, 0x4E07E00003D2057E0001048D,
      .vperm ⟨false, 0#6, 0#6, 1#3, 0#3, 0x2#4, .loc 2#4 0x5#8 0x1F#6 true, .vreg 30#5, .loc 3#4 0x81#8 0x3E#6 false⟩),
   (96, 0x4E07E00003D2057E00010491,
      .vbcast ⟨false, 0#6, 0#6, 1#3, 0#3, 0x2#4, .loc 2#4 0x5#8 0x1F#6 true, .vreg 30#5, .loc 3#4 0x81#8 0x3E#6 false⟩),
   (96, 0x4E07E00003D2057E00010495,
      .vslide ⟨false, 0#6, 0#6, 1#3, 0#3, 0x2#4, .loc 2#4 0x5#8 0x1F#6 true, .vreg 30#5, .loc 3#4 0x81#8 0x3E#6 false⟩)]

theorem test_wordsV0_decode : wordsV0.all wordOk = true := by decide +kernel

def wordsV1 : List (Nat × Nat × Instr) :=
  [(96, 0x00000C000040000180060A51,
      .vshl ⟨true, 0#6, 0#6, 6#3, 0#3, 0x5#4, .vreg 1#5, .vreg 2#5, .vreg 3#5⟩),
   (96, 0x00000C000040000180060A55,
      .vshr ⟨true, 0#6, 0#6, 6#3, 0#3, 0x5#4, .vreg 1#5, .vreg 2#5, .vreg 3#5⟩),
   (96, 0x00000C000040000180060A59,
      .vsra ⟨true, 0#6, 0#6, 6#3, 0#3, 0x5#4, .vreg 1#5, .vreg 2#5, .vreg 3#5⟩),
   (96, 0x000003FFF040000F00070625,
      .vabs ⟨false, 0#6, 0#6, 7#3, 0#3, 0x3#4, .vreg 15#5, .loc 15#4 0xFF#8 0x20#6 true, .vreg 0#5⟩),
   (96, 0x000003FFF040000F00070629,
      .vneg ⟨false, 0#6, 0#6, 7#3, 0#3, 0x3#4, .vreg 15#5, .loc 15#4 0xFF#8 0x20#6 true, .vreg 0#5⟩),
   (96, 0x000003FFF040000F0007064D,
      .vnot ⟨false, 0#6, 0#6, 7#3, 0#3, 0x3#4, .vreg 15#5, .loc 15#4 0xFF#8 0x20#6 true, .vreg 0#5⟩),
   (96, 0x00002400010C00060000D02D,
      .vcmp ⟨false, 0#6, 0#6, 0#3, 6#3, 0x8#4, .preg 6#3, .vreg 8#5, .vreg 9#5⟩),
   (96, 0x1000000000A0000401FA1231,
      .vsel ⟨false, 0#6, 63#6, 2#3, 0#3, 0x9#4, .vreg 4#5, .vreg 5#5, .cap1⟩),
   (96, 0x0000500000A0000400009461,
      .vcvt ⟨false, 0#6, 0#6, 0#3, 4#3, 0xA#4, .vreg 4#5, .vreg 5#5, .vreg 20#5⟩),
   (96, 0x1000000000A0000400082065,
      .vqnt ⟨false, 0#6, 1#6, 0#3, 1#3, 0x0#4, .vreg 4#5, .vreg 5#5, .cap1⟩),
   (96, 0x2000000000A0000404004269,
      .vdqnt ⟨false, 2#6, 0#6, 0#3, 2#3, 0x1#4, .vreg 4#5, .vreg 5#5, .cap2⟩),
   (96, 0x0000000000A000040000166D,
      .vmaxx ⟨false, 0#6, 0#6, 0#3, 0#3, 0xB#4, .vreg 4#5, .vreg 5#5, .vreg 0#5⟩),
   (96, 0x000000000240001100030E81,
      .vsum ⟨false, 0#6, 0#6, 3#3, 0#3, 0x7#4, .vreg 17#5, .vreg 18#5, .vreg 0#5⟩),
   (96, 0x000000000240001100030E85,
      .vrmax ⟨false, 0#6, 0#6, 3#3, 0#3, 0x7#4, .vreg 17#5, .vreg 18#5, .vreg 0#5⟩)]

theorem test_wordsV1_decode : wordsV1.all wordOk = true := by decide +kernel

def wordsV2 : List (Nat × Nat × Instr) :=
  [(96, 0x000000000240001100030E89,
      .vrmin ⟨false, 0#6, 0#6, 3#3, 0#3, 0x7#4, .vreg 17#5, .vreg 18#5, .vreg 0#5⟩),
   (96, 0x000000000000001300040899,
      .viota ⟨false, 0#6, 0#6, 4#3, 0#3, 0x4#4, .vreg 19#5, .vreg 0#5, .vreg 0#5⟩),
   (96, 0x0000000002A00014800114A1,
      .vexp ⟨true, 0#6, 0#6, 1#3, 0#3, 0xA#4, .vreg 20#5, .vreg 21#5, .vreg 0#5⟩),
   (96, 0x0000000002A00014800114A5,
      .vlog ⟨true, 0#6, 0#6, 1#3, 0#3, 0xA#4, .vreg 20#5, .vreg 21#5, .vreg 0#5⟩),
   (96, 0x0000000002A00014800114AD,
      .vrsq ⟨true, 0#6, 0#6, 1#3, 0#3, 0xA#4, .vreg 20#5, .vreg 21#5, .vreg 0#5⟩),
   (96, 0x0000000002A00014800114B9,
      .vsin ⟨true, 0#6, 0#6, 1#3, 0#3, 0xA#4, .vreg 20#5, .vreg 21#5, .vreg 0#5⟩),
   (96, 0x0000000002A00014800114BD,
      .vcos ⟨true, 0#6, 0#6, 1#3, 0#3, 0xA#4, .vreg 20#5, .vreg 21#5, .vreg 0#5⟩),
   (96, 0x0000000002A00014800114C1,
      .vtanh ⟨true, 0#6, 0#6, 1#3, 0#3, 0xA#4, .vreg 20#5, .vreg 21#5, .vreg 0#5⟩),
   (96, 0x0000000002A00014800114C5,
      .vsig ⟨true, 0#6, 0#6, 1#3, 0#3, 0xA#4, .vreg 20#5, .vreg 21#5, .vreg 0#5⟩),
   (96, 0x0000010000000016120050A9,
      .vrcp ⟨false, 9#6, 0#6, 0#3, 2#3, 0x8#4, .vreg 22#5, .cap2, .vreg 0#5⟩),
   (96, 0x0000010000000016120050B1,
      .vsqrt ⟨false, 9#6, 0#6, 0#3, 2#3, 0x8#4, .vreg 22#5, .cap2, .vreg 0#5⟩),
   (96, 0x0000540002C00017000096B5,
      .vdiv ⟨false, 0#6, 0#6, 0#3, 4#3, 0xB#4, .vreg 23#5, .vreg 22#5, .vreg 21#5⟩),
   (96, 0x000000000000000900000CC9,
      .vrng ⟨false, 0#6, 0#6, 0#3, 0#3, 0x6#4, .vreg 9#5, .vreg 0#5, .vreg 0#5⟩),
   (96, 0x0000022800C0000A000204E1,
      .vld ⟨false, 0#6, 0#6, 2#3, 0#3, 0x2#4, .vreg 10#5, .loc 1#4 0x40#8 0x1#6 true, .vreg 0#5⟩)]

theorem test_wordsV2_decode : wordsV2.all wordOk = true := by decide +kernel

def wordsV3 : List (Nat × Nat × Instr) :=
  [(96, 0x000002281F80000A800204E9,
      .vlds ⟨true, 0#6, 0#6, 2#3, 0#3, 0x2#4, .vreg 10#5, .loc 1#4 0x40#8 0x3F#6 false, .vreg 0#5⟩),
   (96, 0x0000000001740306000014E5,
      .vst ⟨false, 0#6, 0#6, 0#3, 0#3, 0xA#4, .loc 4#4 0x3#8 0x1#6 true, .vreg 11#5, .vreg 0#5⟩),
   (96, 0x000000000174031C000114ED,
      .vsts ⟨false, 0#6, 0#6, 1#3, 0#3, 0xA#4, .loc 4#4 0x3#8 0x7#6 false, .vreg 11#5, .vreg 0#5⟩),
   (96, 0x000036A00000000C000004F1,
      .vgth ⟨false, 0#6, 0#6, 0#3, 0#3, 0x2#4, .vreg 12#5, .loc 5#4 0x0#8 0x0#6 false, .vreg 13#5⟩),
   (96, 0x00003C0001D6090000000CF5,
      .vsct ⟨false, 0#6, 0#6, 0#3, 0#3, 0x6#4, .loc 6#4 0x9#8 0x0#6 false, .vreg 14#5, .vreg 15#5⟩),
   (96, 0x0000000000000010103806F9,
      .vmovgs ⟨false, 8#6, 7#6, 0#3, 0#3, 0x3#4, .vreg 16#5, .vreg 0#5, .vreg 0#5⟩),
   (96, 0x0000000002200000103806FD,
      .vmovsg ⟨false, 8#6, 7#6, 0#3, 0#3, 0x3#4, .vreg 0#5, .vreg 17#5, .vreg 0#5⟩),
   (96, 0x30001D80004C000100000101,
      .pand ⟨false, 0#6, 0#6, 0#3, 0#3, 0x0#4, .preg 1#3, .preg 2#3, .preg 7#3⟩),
   (96, 0x30001580000C000300000105,
      .por ⟨false, 0#6, 0#6, 0#3, 0#3, 0x0#4, .preg 3#3, .preg 0#3, .preg 5#3⟩),
   (96, 0x0000018000CC000400000109,
      .pnot ⟨false, 0#6, 0#6, 0#3, 0#3, 0x0#4, .preg 4#3, .preg 6#3, .vreg 0#5⟩),
   (96, 0x0000018000A000000163130D,
      .pcnt ⟨false, 0#6, 44#6, 3#3, 0#3, 0x9#4, .vreg 0#5, .preg 5#3, .vreg 0#5⟩)]

theorem test_wordsV3_decode : wordsV3.all wordOk = true := by decide +kernel

def wordsM0 : List (Nat × Nat × Instr) :=
  [(192, 0x000000000001FC730000000000000000400000030000D206,
      .tcfg ⟨false, 0#6, 0#6, 6#4, 9#4, .reg 3#5, .absent, .absent,
        ⟨0x1F#7, 0x63#7, 0x13#5⟩, ⟨false, 0#4, 0x0#19⟩⟩),
   (192, 0x000000000000000000000000ED800818400000052000D20A,
      .tld ⟨true, 0#6, 0#6, 6#4, 9#4, .reg 5#5, .cap 45#6 0x40040#19 0x18#5, .absent,
        ⟨0x0#7, 0x0#7, 0x0#5⟩, ⟨false, 0#4, 0x0#19⟩⟩),
   (192, 0x00000000000000000000000040000006B20040080000D20E,
      .tst ⟨false, 0#6, 0#6, 6#4, 9#4, .loc 12#4 0x40080#19 0x8#5, .reg 6#5, .absent,
        ⟨0x0#7, 0x0#7, 0x0#5⟩, ⟨false, 0#4, 0x0#19⟩⟩),
   (192, 0x00000000000000000000000000000000400000090000D212,
      .tzero ⟨false, 0#6, 0#6, 6#4, 9#4, .reg 9#5, .absent, .absent,
        ⟨0x0#7, 0x0#7, 0x0#5⟩, ⟨false, 0#4, 0x0#19⟩⟩),
   (192, 0x000000000000000000000000400000024000000100001216,
      .ttr ⟨false, 0#6, 0#6, 0#4, 9#4, .reg 1#5, .reg 2#5, .absent,
        ⟨0x0#7, 0x0#7, 0x0#5⟩, ⟨false, 0#4, 0x0#19⟩⟩),
   (192, 0x00000000000000004000000640000007400000082000C022,
      .mma ⟨true, 0#6, 0#6, 6#4, 0#4, .reg 8#5, .reg 7#5, .reg 6#5,
        ⟨0x0#7, 0x0#7, 0x0#5⟩, ⟨false, 0#4, 0x0#19⟩⟩)]

theorem test_wordsM0_decode : wordsM0.all wordOk = true := by decide +kernel

def wordsM1 : List (Nat × Nat × Instr) :=
  [(192, 0xAEAAC000000000004000000140000000400000090000D226,
      .mmam ⟨false, 0#6, 0#6, 6#4, 9#4, .reg 9#5, .reg 0#5, .reg 1#5,
        ⟨0x0#7, 0x0#7, 0x0#5⟩, ⟨true, 11#4, 0x55580#19⟩⟩),
   (192, 0x0000000000000000000000008C80200A400000080000D232,
      .accld ⟨false, 0#6, 0#6, 6#4, 9#4, .reg 8#5, .loc 3#4 0x10040#19 0xA#5, .absent,
        ⟨0x0#7, 0x0#7, 0x0#5⟩, ⟨false, 0#4, 0x0#19⟩⟩),
   (192, 0x00000000000000000000000040000009E1FFF8180000D236,
      .accst ⟨false, 0#6, 0#6, 6#4, 9#4, .cap 33#6 0x7FFC0#19 0x18#5, .reg 9#5, .absent,
        ⟨0x0#7, 0x0#7, 0x0#5⟩, ⟨false, 0#4, 0x0#19⟩⟩),
   (192, 0x00000000000000000000000040000008400000040036D23A,
      .acccvt ⟨false, 0#6, 27#6, 6#4, 9#4, .reg 4#5, .reg 8#5, .absent,
        ⟨0x0#7, 0x0#7, 0x0#5⟩, ⟨false, 0#4, 0x0#19⟩⟩),
   (192, 0x00000000000000000000000000000000000000000000D242,
      .ngo ⟨false, 0#6, 0#6, 6#4, 9#4, .absent, .absent, .absent,
        ⟨0x0#7, 0x0#7, 0x0#5⟩, ⟨false, 0#4, 0x0#19⟩⟩),
   (192, 0x00000000000000000000000000000000000000000000DE46,
      .nwait ⟨false, 0#6, 0#6, 6#4, 15#4, .absent, .absent, .absent,
        ⟨0x0#7, 0x0#7, 0x0#5⟩, ⟨false, 0#4, 0x0#19⟩⟩)]

theorem test_wordsM1_decode : wordsM1.all wordOk = true := by decide +kernel

def wordsD0 : List (Nat × Nat × Instr) :=
  [(96, 0xF2E2468A9C91A2962642B407,
      .dcpy ⟨true, 12#6, 33#6, 5#4, 10#4, .loc 7#4 0x12345#19 0x16#5, .cap 50#6 0x71234#19 0xA#5⟩),
   (96, 0x9C91A00AF2E2468A0642B40B,
      .dredAdd ⟨false, 12#6, 33#6, 5#4, 10#4, .cap 50#6 0x71234#19 0xA#5, .loc 7#4 0x12340#19 0xA#5⟩),
   (96, 0x9C91A00AF2E2468A4642B40B,
      .dredMax ⟨false, 12#6, 33#6, 5#4, 10#4, .cap 50#6 0x71234#19 0xA#5, .loc 7#4 0x12340#19 0xA#5⟩),
   (96, 0x9C91A00AF2E2468A8642B40B,
      .dredMin ⟨false, 12#6, 33#6, 5#4, 10#4, .cap 50#6 0x71234#19 0xA#5, .loc 7#4 0x12340#19 0xA#5⟩),
   (96, 0xF2E246989C91A2980206B40F,
      .dgth ⟨false, 4#6, 3#6, 5#4, 10#4, .loc 7#4 0x12345#19 0x18#5, .cap 50#6 0x71234#19 0x18#5⟩),
   (96, 0x9C91A298F2E246980206B413,
      .dsct ⟨false, 4#6, 3#6, 5#4, 10#4, .cap 50#6 0x71234#19 0x18#5, .loc 7#4 0x12345#19 0x18#5⟩),
   (96, 0xF2E246989C91A2980206B417,
      .dgetMb ⟨false, 4#6, 3#6, 5#4, 10#4, .loc 7#4 0x12345#19 0x18#5, .cap 50#6 0x71234#19 0x18#5⟩),
   (96, 0xF2E246989C91A2984206B417,
      .dgetEv ⟨false, 4#6, 3#6, 5#4, 10#4, .loc 7#4 0x12345#19 0x18#5, .cap 50#6 0x71234#19 0x18#5⟩),
   (96, 0x9C91A298F2E246980206B41B,
      .dput ⟨false, 4#6, 3#6, 5#4, 10#4, .cap 50#6 0x71234#19 0x18#5, .loc 7#4 0x12345#19 0x18#5⟩),
   (96, 0x9C91A298F2E246984006B41B,
      .dputF ⟨false, 0#6, 3#6, 5#4, 10#4, .cap 50#6 0x71234#19 0x18#5, .loc 7#4 0x12345#19 0x18#5⟩)]

theorem test_wordsD0_decode : wordsD0.all wordOk = true := by decide +kernel

def wordsD1 : List (Nat × Nat × Instr) :=
  [(96, 0x9C91A298400000180000B423,
      .dstrm ⟨false, 0#6, 0#6, 5#4, 10#4, .reg 24#5, .loc 7#4 0x12345#19 0x18#5⟩),
   (96, 0x000000004000001F0000B427,
      .dunb ⟨false, 0#6, 0#6, 5#4, 10#4, .reg 31#5, .absent⟩),
   (96, 0x9C91A298F2E24698007CB433,
      .dshd ⟨false, 0#6, 62#6, 5#4, 10#4, .cap 50#6 0x71234#19 0x18#5, .loc 7#4 0x12345#19 0x18#5⟩),
   (96, 0x0000000000000000007AB437,
      .dpub ⟨false, 0#6, 61#6, 5#4, 10#4, .absent, .absent⟩),
   (96, 0x9C91A2989C91A2981DF8B43B,
      .dstamp ⟨false, 59#6, 60#6, 5#4, 10#4, .loc 7#4 0x12345#19 0x18#5, .loc 7#4 0x12345#19 0x18#5⟩),
   (96, 0x00000000000000000000A043,
      .dwaitAll ⟨false, 0#6, 0#6, 5#4, 0#4, .absent, .absent⟩),
   (96, 0x00000000000000004000AE43,
      .dwaitTok ⟨false, 0#6, 0#6, 5#4, 7#4, .absent, .absent⟩),
   (96, 0x00000000000000000074B447,
      .dsig ⟨false, 0#6, 58#6, 5#4, 10#4, .absent, .absent⟩),
   (96, 0x9C91A298000000001C72B463,
      .kvwr ⟨false, 56#6, 57#6, 5#4, 10#4, .absent, .loc 7#4 0x12345#19 0x18#5⟩)]

theorem test_wordsD1_decode : wordsD1.all wordOk = true := by decide +kernel

/-- 02_encoding.md, Example 1: the words that the spec writes out, and NOP. -/
theorem test_spec_words :
    [(32, 0x0080_0A08, Instr.addi 5#6 0#6 4#11), (32, 0xFFE2_8A08, .addi 5#6 5#6 0x7FF#11), (32, 0xFF80_0A44, .bne 5#6 0#6 0x7FC#11),
     (32, 0x0000_016C, .exit), (32, 0x0000_0004, .add 0#6 0#6 0#6), (32, 0x0061_082C, .capBnd 4#6 2#6 3#6),
     (32, 0x10C2_0A2C, .capInc 5#6 4#6 6#6)].all wordOk = true := by decide +kernel

/-- 02_encoding.md R47, R50: words that no opcode takes, and words with a reserved bit set: fn of the integer words, gb of
CLZ, gd of BARINIT and SAFEPT, bit 63 of a V operand field, bits 31:30 of an M word, fn2 of DCPY, and the high bits of a register
specifier. -/
theorem test_reserved_words_refused :
    [(32, 0x0000_0000), (32, 0x0000_01FC), (32, 0xFFFF_FFFF), (32, 0x0000_0034), (32, 0x9800_0004), (32, 0x8020_0004),
     (32, 0x0000_0332), (32, 0x0800_0128), (32, 0x0000_0264), (32, 0x8000_0194), (32, 0x0000_0330), (32, 0x0800_016C),
     (96, 0x8000_0000_0000_0000_0000_0405), (96, 0x0000_0000_0000_0000_0000_1805), (96, 0x0000_0000_0000_0020_0000_0405),
     (192, 0x4000_0001_4000_0002_4000_0008_8000_0022), (192, 0x4000_0001_4000_0042_4000_0008_0000_0022),
     (96, 0x8C00_2018_8800_0018_4006_2407), (96, 0x8C00_2038_8800_0018_0006_2407), (32, 0x0000_258B), (32, 0x0010_058B)].all
      (fun x => (decodeTableWord x.1 x.2).isNone) = true := by decide +kernel
/-! The checks of a legal encoding: for each, a term that it refuses (02_encoding.md R47, R54 to R68). -/

/-- A legal VADD, from which the ill-formed V words differ in one field. -/
def okV : VWord :=
  { pz := false, cap2 := 0#6, cap1 := 0#6, pred := 1#3, rnd := 0#3, fmt := 10#4, d := .vreg 1#5, a := .vreg 2#5, b := .vreg 3#5 }

/-- A legal MMA. -/
def okM : MWord :=
  { nb := false, cap2 := 0#6, cap1 := 0#6, sig := 0#4, wait := 0#4, d := .reg 8#5, a := .reg 0#5, b := .reg 1#5
    shape := { cols := 0#7, rows := 0#7, fmt := 0#5 }, mask := { enable := false, base := 0#4, off := 0#19 } }

/-- A legal DCPY. -/
def okD : DWord :=
  { nb := false, cap2 := 0#6, cap1 := 3#6, sig := 0#4, wait := 0#4, d := .loc 2#4 0#19 0x18#5, s := .cap 3#6 0x40#19 0x18#5 }

/-- S words: WIDF's field, CAP.GET's selector, NEST's levels, a plain LDLOC or STLOC with an increment, PREF's level, a scope
without an order, TRYTAKE into g63, AMSG's count and last argument, GANG of 16, TRAP's codes. -/
theorem test_ill_formed_s :
    [Instr.widf 1#6 2#6 0#3, .widf 1#6 2#6 7#3, .capGet 1#6 2#6 6#3, .capGet 1#6 2#6 7#3, .nest .s 1#6 0#5 6#3, .nest .v 1#6 0#5 7#3,
     .ldloc .w .stay 1#6 2#6 1#6, .stloc .q .stay 1#6 2#6 63#6, .pref 3#2 1#6 0#11, .amoAdd .plain .clu 1#6 2#6 3#6,
     .amoAnd .plain .sys 1#6 2#6 3#6, .amoOr .plain .die 1#6 2#6 3#6, .amoXor .plain .pkg 1#6 2#6 3#6,
     .amoMin .plain .clu 1#6 2#6 3#6, .amoMax .plain .clu 1#6 2#6 3#6, .amoSwp .plain .clu 1#6 2#6 3#6,
     .amoCas .plain .clu 1#6 2#6 3#6, .trytake 63#6 1#6 0#11, .amsg 5#3 1#6 2#6 3#6, .amsg 4#3 1#6 60#6 3#6, .gang 3#2 1#6,
     .trap 0#8, .trap 0x0A#8, .trap 0x14#8, .trap 0x20#8].all (fun i => !wellFormed i) = true := by decide

/-- V words: the format, pz without a predicate, a base updated twice, the rounding mode, a specifier kind in each place,
VCMP's condition, VSEL's predicate and pz, VCVT's code and the limits of a block, pz and .rsr of a reduction, VMAXX under a
predicate, the stride and the kinds of VLD, VST, VGTH and VSCT, and the words on predicates. -/
theorem test_ill_formed_v :
    wellFormed (.vadd okV) = true ∧
    [Instr.vadd { okV with fmt := 12#4 }, .vadd { okV with pred := 0#3, pz := true },
     .vadd { okV with d := .loc 1#4 0#8 1#6 true, a := .loc 1#4 4#8 1#6 true },
     .vadd { okV with d := .loc 1#4 0#8 1#6 true, b := .loc 1#4 4#8 1#6 true },
     .vadd { okV with a := .loc 1#4 0#8 1#6 true, b := .loc 1#4 4#8 1#6 true },
     .vadd { okV with rnd := 5#3 }, .vadd { okV with fmt := 2#4, rnd := 1#3 }, .vadd { okV with d := .cap1 },
     .vadd { okV with a := .preg 1#3 }, .vadd { okV with b := .preg 1#3 }, .vadd { okV with d := .preg 0#3 }].all
      (fun i => !wellFormed i) = true ∧
    [Instr.vmin { okV with rnd := 1#3 }, .vabs okV, .vabs { okV with rnd := 1#3, b := .vreg 0#5 }, .vshl okV, .vcmp okV,
     .vcmp { okV with d := .preg 1#3, rnd := 7#3 }, .vsel { okV with pred := 0#3 }, .vsel { okV with pz := true },
     .vcvt { okV with b := .vreg 0x0C#5 }, .vcvt { okV with b := .vreg 0x17#5, pred := 0#3 },
     .vcvt { okV with b := .vreg 0x10#5 }, .vcvt { okV with b := .vreg 0x10#5, pred := 0#3, fmt := 11#4 },
     .vcvt { okV with b := .vreg 0x10#5, pred := 0#3, d := .loc 0#4 0#8 1#6 false }, .vcvt { okV with b := .cap1 },
     .vqnt okV, .vdqnt { okV with fmt := 0#4, rnd := 5#3 }, .vmaxx { okV with b := .vreg 0#5 },
     .vsum { okV with b := .vreg 0#5, rnd := 4#3 }, .vsum { okV with b := .vreg 0#5, pz := true },
     .vrmax { okV with b := .vreg 0#5, pz := true }, .viota okV, .vexp { okV with fmt := 2#4, b := .vreg 0#5 },
     .vrcp { okV with fmt := 2#4, b := .vreg 0#5 }, .vdiv { okV with fmt := 7#4 }].all (fun i => !wellFormed i) = true ∧
    [Instr.vld { okV with a := .loc 1#4 0#8 2#6 false, b := .vreg 0#5 }, .vld { okV with b := .vreg 0#5 },
     .vlds { okV with b := .vreg 0#5 }, .vst { okV with d := .loc 1#4 0#8 0#6 false, b := .vreg 0#5 },
     .vsts { okV with b := .vreg 0#5 }, .vgth { okV with a := .loc 1#4 0#8 1#6 false },
     .vgth { okV with a := .loc 1#4 0#8 0#6 true }, .vsct { okV with d := .loc 1#4 0#8 1#6 false },
     .vmovgs { okV with a := .vreg 0#5, b := .vreg 0#5 }, .vmovsg { okV with d := .vreg 0#5, b := .vreg 0#5 },
     .vmovsg { okV with pred := 0#3, b := .vreg 0#5 },
     .pand { okV with fmt := 0#4, pred := 0#3, d := .preg 1#3, a := .preg 2#3 },
     .pand { okV with fmt := 1#4, pred := 0#3, d := .preg 1#3, a := .preg 2#3, b := .preg 3#3 },
     .pnot { okV with fmt := 0#4, d := .preg 1#3, a := .preg 2#3, b := .vreg 0#5 },
     .pcnt { okV with pz := true, d := .vreg 0#5, a := .preg 2#3, b := .vreg 0#5 }].all (fun i => !wellFormed i) = true := by
  decide

/-- M words: captures, parcels 4 and 5, a shape that R327 does not list, and a specifier kind in each place. -/
theorem test_ill_formed_m :
    wellFormed (.mma okM) = true ∧
    [Instr.mma { okM with cap1 := 1#6 }, .mma { okM with cap2 := 1#6 }, .mma { okM with shape := { cols := 1#7, rows := 0#7, fmt := 0#5 } },
     .mma { okM with mask := { enable := true, base := 0#4, off := 0#19 } }, .mma { okM with d := .reg 7#5 },
     .mma { okM with a := .reg 8#5 }, .mma { okM with b := .absent }, .mmam okM,
     .tcfg { okM with d := .reg 0#5, a := .absent, b := .absent }, .tld okM, .tst okM, .tzero okM, .ttr okM, .accld okM,
     .accld { okM with a := .loc 0#4 0#19 8#5, b := .absent }, .accst okM, .acccvt okM, .ngo okM, .nwait okM,
     .tcfg { okM with d := .reg 0#5, a := .absent, b := .absent, shape := { cols := 127#7, rows := 127#7, fmt := 10#5 } },
     .tcfg { okM with d := .reg 0#5, a := .absent, b := .absent, shape := { cols := 30#7, rows := 0#7, fmt := 0x16#5 } }].all
      (fun i => !wellFormed i) = true := by decide

/-- D words: a format that is not listed, specifier kinds, equal formats, RAW, no captures, a stream register, and the token of
DWAIT.tok. -/
theorem test_ill_formed_d :
    wellFormed (.dcpy okD) = true ∧
    [Instr.dcpy { okD with d := .loc 2#4 0#19 0x0C#5 }, .dcpy { okD with s := .absent }, .dredAdd okD,
     .dredMax { okD with d := .loc 2#4 0#19 0x0A#5, s := .cap 3#6 0#19 0x0B#5 }, .dredMin { okD with d := .absent },
     .dgth { okD with d := .cap 3#6 0#19 0x18#5 }, .dgth { okD with s := .cap 3#6 0#19 8#5 }, .dsct okD,
     .dgetMb { okD with s := .loc 2#4 0#19 0x18#5 }, .dgetEv { okD with d := .loc 2#4 0#19 8#5 }, .dput okD, .dputF okD,
     .dstrm { okD with cap1 := 0#6, d := .reg 23#5, s := .loc 2#4 0#19 0x18#5 },
     .dstrm { okD with d := .reg 24#5, s := .loc 2#4 0#19 0x18#5 }, .dunb { okD with cap1 := 0#6, d := .reg 24#5 }, .dshd okD,
     .dpub { okD with cap2 := 1#6, d := .absent, s := .absent }, .dpub okD, .dstamp okD, .dwaitAll okD,
     .dwaitTok { okD with cap1 := 0#6, d := .absent, s := .absent }, .dsig okD, .kvwr okD].all (fun i => !wellFormed i) = true := by
  decide

/-! Witnesses. For each statement with hypotheses a state and operands that meet them together, and for a statement of
several clauses a witness of each. -/

/-- A capability over [a, a + l) at an address, with every permission. -/
def capAt (a l at_ : Nat) : GVal := (mintCap a l at_ 0xFFF#12).getD GVal.zero

/-- A capability over the core's own local memory, at an offset. -/
def own (off : Nat) : GVal := capAt (0xD * 2 ^ 52) (2 ^ 19) (0xD * 2 ^ 52 + off)

/-- Partition 1, with the page tables and the code of a placed word. -/
def part (f : Part → Part) : Part := f probePart

/-- A core of partition 1 after reset, changed. -/
def coreOf1 (f : Core → Core) : Core := f (Core.reset.modCtl fun k => { k with ptroot := probePart.ptroot })

/-- A machine of the cores 0 and 1, both of partition 1, with one page of generic memory mapped at 2^16. -/
def pair (f g : Core → Core) : State :=
  { State.reset with
    cores := [(0, coreOf1 f), (1, coreOf1 g)], parts := [probePart], mem := Mem.write [] probeTable (leBytes 8 probeLeaf)
    ranks := [(0, 0x8001_0000#32), (1, 0x8001_0000#32), (16384, 0x8001_0000#32), (16385, 0x8001_0000#32)], cur := .core }

/-- The same with core 0 changed alone. -/
def one (f : Core → Core) : State := pair f id

/-- A core with registers written in the order of a list. -/
def regs (l : List (GIdx × GVal)) (c : Core) : Core := l.foldl (fun c x => c.wg x.1 x.2) c

/-- Whether an answer is a next state with a property. -/
def goesB (x : Host.Outcome State Fault Refusal) (p : State → Bool) : Bool := match x with | .next t => p t | _ => false

theorem goes_of {x : Host.Outcome State Fault Refusal} {p : State → Bool} (h : goesB x p = true) :
    ∃ t, x = .next t ∧ p t = true := by
  match x with
  | .next t => exact ⟨t, rfl, h⟩
  | .fault _ => simp [goesB] at h
  | .refused _ => simp [goesB] at h

/-- Whether a check passes with a value of a property. -/
def okB {α : Type} (x : Res α) (p : α → Bool) : Bool := match x with | .ok a => p a | _ => false

theorem ok_of {α : Type} {x : Res α} {p : α → Bool} (h : okB x p = true) : ∃ a, x = .ok a ∧ p a = true := by
  match x with
  | .ok a => exact ⟨a, rfl, h⟩
  | .trap _ _ => simp [okB] at h
  | .hold _ _ => simp [okB] at h

/-- Whether a check passes with bytes of memory of a property. -/
def bytesB (x : Res (Target × State)) (p : List Chunk → State → Bool) : Bool :=
  match x with | .ok (.bytes l, u) => p l u | _ => false

theorem bytes_of {x : Res (Target × State)} {p : List Chunk → State → Bool} (h : bytesB x p = true) :
    ∃ l u, x = .ok (.bytes l, u) ∧ p l u = true := by
  match x with
  | .ok (.bytes l, u) => exact ⟨l, u, rfl, h⟩
  | .ok (.remote _ _ _, _) => simp [bytesB] at h
  | .ok (.window _, _) => simp [bytesB] at h
  | .trap _ _ => simp [bytesB] at h
  | .hold _ _ => simp [bytesB] at h

/-- Whether a check answers a trap of a cause. -/
def trapB {α : Type} (x : Res α) (n : Nat) : Bool := match x with | .trap t _ => t.cause.toNat == n | _ => false

/-! Integer and capability words. -/

/-- WIDF's fields at both ends, and a work identifier whose widths exceed 64 bits. -/
theorem witness_IntegerAndBitFieldResults : ∀ n ∈ [1#3, 6#3], n ≠ 0#3 ∧ n ≠ 7#3 := by decide

/-- 04_scalar.md R106, R107: division rounds towards zero and by zero gives all ones. -/
theorem test_div :
    goesB (exec (.div 5#6 6#6 7#6) (one (regs [(6#6, .ofWord (-7#64)), (7#6, .ofWord 2#64)])))
      (fun t => t.me.rg 5#6 == .ofWord (-3#64)) = true ∧
    goesB (exec (.div 5#6 6#6 0#6) (one (regs [(6#6, .ofWord 9#64)]))) (fun t => t.me.rg 5#6 == .ofWord (-1#64)) = true := by
  decide +kernel

theorem witness_IntegerFrame : ∃ t, exec (.add 5#6 6#6 7#6) (one id) = .next t ∧ (t.me.pc == 4#64) = true :=
  goes_of (by decide +kernel)

/-- The operands of the capability words: a capability, sealing permission at an object type, and CAP.BND at exponent 0
and, rounded, at exponent 1. -/
theorem witness_CapabilityResults :
    (let c : GVal := own 0x41
    c.tag && (c.bits.extractLsb' 100 16 == 0#16) && !GVal.zero.tag &&
    ([capAt 1 0xFFFF 1, capAt 1 0xFFFF 0xFFFF].all fun k => k.tag && (k.bits.extractLsb' 100 16 == 0#16) && k.bits.getLsbD 126 &&
      decide (0 < k.word.toNat ∧ k.word.toNat ≤ 0xFFFF ∧ (capBounds k.bits).1 ≤ k.word.toNat ∧
        (k.word.toNat : Int) < (capBounds k.bits).2)) &&
    ([(0, 255), (1, 300)].all fun p =>
      let x : Nat := c.word.toNat
      let e : Nat := p.1
      let nb (e : Nat) : Nat := x / 2 ^ e * 2 ^ e
      let nt (e : Nat) : Nat := (x + p.2 + 2 ^ e - 1) / 2 ^ e * 2 ^ e
      decide ((capBounds c.bits).1 ≤ x ∧ ((x + p.2 : Nat) : Int) ≤ (capBounds c.bits).2 ∧ e ≤ 48 ∧ (nt e - nb e) / 2 ^ e ≤ 255 ∧
      (∀ f, f < e → 255 < (nt f - nb f) / 2 ^ f) ∧ (capBounds c.bits).1 ≤ nb e ∧ (nt e : Int) ≤ (capBounds c.bits).2))) = true := by
  decide +kernel

theorem witness_CapabilityNeverGrows : (capBnd (own 0x40) 0x100#64).toOption.isSome = true := by decide +kernel

/-- A sealed capability, and lengths and object types outside the bounds. -/
theorem witness_CapabilityTraps :
    (let c : GVal := own 0x40
    let z : GVal := { c with bits := setField c.bits 100 16 5 }
    !GVal.zero.tag && z.tag && (z.bits.extractLsb' 100 16 != 0#16) && (c.bits.extractLsb' 100 16 == 0#16) &&
    decide ((capBounds c.bits).2 < (c.word.toNat : Int) + 2 ^ 19) &&
    ([capAt 16 16 15, capAt 16 16 32, capAt 0 16 0, capAt 0xF000 0x2000 0x1_0000].all fun k => k.tag &&
      decide ((k.word.toNat : Int) < (capBounds k.bits).1 ∨ (capBounds k.bits).2 ≤ k.word.toNat ∨ k.word.toNat = 0 ∨
        0xFFFF < k.word.toNat))) = true := by
  decide +kernel

/-! Control words. -/

/-- A core with n branch outcomes that no walker has consumed. -/
def outs (n : Nat) (c : Core) : Core :=
  { c with outcomes := List.replicate n { taken := true, target := 64#64, byV := false, byM := false, byD := false } }

/-- Fifteen outcomes leave room; a tagged jump target inside its capability and a misaligned one; a full queue; and a
follower of a gang whose leader has an outcome. -/
theorem witness_BranchResults :
    (let s : State := one (outs 15 ∘ regs [(1#6, capAt 0x1000 0x100 0x1000), (2#6, .ofWord 2#64)])
    let c : GVal := s.me.rg 1#6
    decide (s.me.outcomes.length < 16) && (leadOutcome s).isNone && decide ((c.word + 4#64).toNat % 4 = 0) && c.tag &&
    decide ((capBounds c.bits).1 ≤ (c.word + 4#64).toNat ∧ ((c.word + 4#64).toNat : Int) + 4 ≤ (capBounds c.bits).2) &&
    (c.bits.extractLsb' 100 16 == 0#16) && c.bits.getLsbD 118 && !(s.me.rg 2#6).tag &&
    decide (((s.me.rg 2#6).word + 4#64).toNat % 4 ≠ 0) && decide (16 ≤ (one (outs 16)).me.outcomes.length) &&
    (leadOutcome (pair (fun c => { c with group := .member 1 true }) fun c => { c with lastOut := some (true, 64#64) }) ==
      some (true, 64#64))) = true := by
  decide +kernel

/-- A placed V word, with the S walker before it. -/
def atV (w : Nat) : State :=
  (State.reset.withFetchWord 96 w).modMe fun c =>
    { c with codecap := c.codecap.withWord (BitVec.ofNat 64 probeVa), capV := [], posS := 0#32 }

/-- The word of an instruction that has an encoding. -/
def wordOf (i : Instr) : Nat := ((encode i).map (·.2)).getD 0

/-- VMOVSG g7 from lane 0 of v2, whose result the S walker waits for. -/
def movsg : VWord := { okV with pred := 0#3, cap1 := 7#6, d := .vreg 0#5, b := .vreg 0#5 }

theorem witness_WalkersFollowBranches :
    ((one (outs 2)).me.outcomes.find? (fun o => !o.eaten .v)).isSome = true ∧
    ([(Instr.vadd okV, false), (.vmovsg movsg, true)].all fun x => okB (fetchWord (atV (wordOf x.1)) (atV (wordOf x.1)).me.pc) fun r =>
      (wordEngine r.1 != .s) && !r.2.me.composed && !r.2.me.passing && decide ((r.2.me.capQ (wordEngine r.1)).length < 16) &&
      (wordWritesG r.1 == x.2)) = true := by
  decide +kernel

/-- A nest descriptor that binds g5, of some levels of two iterations. -/
def desc (levels : Nat) : List Byte := leBytes 8 0x0501 ++ (List.replicate levels (leBytes 16 2)).flatten

/-- A nest of two body words at its last position. -/
def atLast : Nest :=
  { desc := desc 1, words := 2, levels := 1, body := List.replicate 2 { op := .add 1#6 1#6 1#6, pc := 8#64, caps := [] }
    index := [0], pos := 2, going := false, sig := 0#4 }

theorem witness_ScalarNests :
    ([(Engine.s, 1, 1), (.v, 1, 32), (.m, 6, 1)].all fun x =>
      let s : State := ((one (regs [(1#6, own 64)])).store (localKey 0 64) (desc x.2.1)).storeNat (probePa + 4) 4 4
      (!s.me.composed || x.1 == .s) && (x.1 == .s || decide ((s.me.capQ x.1).length < 16)) &&
      bytesB (access s .s (s.me.rg 1#6) (s.me.rg 1#6).word (8 + 16 * x.2.1) (permLoad ||| permLocal) 8 .nest) fun l t =>
        !t.chunksPoisoned l && nestOk (t.readChunks l) x.2.1 x.1 &&
          okB (spanOk t x.1 spanFuel (if x.1 = .s then 1 else 0) (s.me.pc + 4#64)) (fun b => b)) = true ∧
    (let s : State := one fun c => { c with nestS := some atLast, group := .member 1 true }
     s.me.follows && (s.me.nestOf .s == some atLast) && decide (atLast.words ≤ atLast.pos ∧ atLast.words ≤ atLast.body.length) &&
     (nextIndex atLast.desc atLast.index 0).isSome) = true := by
  decide +kernel

/-- A state in which core 1 is in transit and core 0 has a load from its memory on its way. -/
def fromTransit (s : State) : State :=
  { s with ranks := [(0, 0x8001_0000#32), (1, 0xC001_0000#32), (16384, 0x8001_0000#32), (16385, 0xC001_0000#32)] }.modMe fun c =>
    { c with loads := [{ d := 9#6, parts := [(localKey 1 64, [0#8])] }] }

/-- A core whose V walker has a word to execute yet. -/
def behind (c : Core) : Core := { c with posS := 1#32, capV := [.vals []] }

theorem witness_SafePointAndSync :
    (let s : State := one fun c => c.modCtl fun k => { k with sptlen := 1#32 }
    decide ((0#17).toNat < s.me.ctl.sptlen.toNat % 2 ^ 17) && !gangDue s s.me && !composedDue s.me && !switchReady s &&
    (one id).me.done 0xF#4 && !(one behind).me.done 2#4 && s.landed s.rank && !(fromTransit s).landed 0) = true := by
  decide +kernel

/-- CODECAP, RNGKEY, SLIPW at task level and at partition level, a denied write of PKG, and an index without a register. -/
theorem witness_ControlRegisters :
    (let s : State := one id
    let t : State := one fun c => c.modCtl fun k => { k with tstate := 1#32 }
    ([0x015, 0x042, 0x010, 0x022, 0x090].all ctlNamed) && (s.me.level == 0) && (t.me.level != 0) &&
    ([0x010, 0x022, 0x043].all fun i => !ctlDenied s.me i && ctlReady s.me i) && ctlDenied s.me 0x011 && !ctlNamed 0x7FF &&
    s.me.atTask && !t.me.atTask && !t.kvLocked t.rank && ctlReady t.me 0x090 && ctlReady s.me 0x090 &&
    ({ t with parts := [{ probePart with kvRead := true }] } : State).kvLocked t.rank &&
    !ctlReady (one behind).me 0x041) = true := by
  decide +kernel

/-- Each test of an access fails alone, and none; places by the alias and by a coordinate, at the last byte. -/
theorem witness_AccessTestsAndPlace :
    (let s : State := one id
    let c : GVal := own 0
    let z : GVal := { c with bits := setField c.bits 100 16 5 }
    let stop (c : GVal) (x : Nat) (n align : Nat) (al : Allow) (k : Nat) : Bool :=
      precheck s c (BitVec.ofNat 64 x) n permLoad align al == some k
    stop GVal.zero 0 4 1 .any 2 && stop c 0 4 1 .any 3 && stop z (0xD * 2 ^ 52) 4 1 .any 4 && stop c (0xD * 2 ^ 52 + 4) 16 16 .any 5 &&
    stop c (0xD * 2 ^ 52) 4 1 .generic 7 && (precheck s c (BitVec.ofNat 64 (0xD * 2 ^ 52 + 0x7FFFF)) 1 permLoad 1 .own).isNone &&
    bytesB (resolve s .s (BitVec.ofNat 64 (0xD * 2 ^ 52 + 0x7FFFF)) 1 permLoad) (fun l _ => l.length == 1) &&
    bytesB (resolve s .s (BitVec.ofNat 64 (0xC * 2 ^ 52 + 0xFFFFF)) 1 permLoad) fun l _ => l.length == 1) = true := by
  decide +kernel

/-- A machine with capabilities to local memory in g1, to generic memory in g2 and to core 1's memory in g3, and data in g5
and g6. -/
def mem1 (f : Core → Core) : State :=
  one (f ∘ regs [(1#6, own 64), (2#6, capAt 0 0x10000 0x100), (3#6, capAt (0xC * 2 ^ 52) (2 ^ 20) (0xC * 2 ^ 52 + 2 ^ 19 + 64)),
    (5#6, .ofWord 0x1122#64), (6#6, .ofWord 3#64)])

/-- Whether an access through register a for n bytes passes, with a property of its chunks. -/
def acc (s : State) (a : GIdx) (n : Nat) (need : BitVec 12) (align : Nat) (al : Allow) (p : List Chunk → State → Bool) : Bool :=
  bytesB (access s .s (s.me.base a) (s.me.base a).word n need align al) p

/-- A core with 32 loads on their way. -/
def waiting (c : Core) : Core := { c with loads := List.replicate 32 { d := 9#6, parts := [(0, [0#8])] } }

/-- A state in which a decrement of the slot at offset 64 of core 1 is on its way from core 0. -/
def sentCdec (s : State) : State := { s with net := [{ src := 0, dst := 1, ev := .cdecApply 64#19 1#32, pid := 1 }] }

/-- Loads of every width: at once, of a poisoned byte, waiting, with room and without, and behind a decrement; LDLOC and
LDACQ. -/
theorem witness_LoadResults :
    (let s : State := mem1 id
    let z : State := { s with lazy := true }
    ([1, 2, 4, 8, 16].all fun n => ([1#6, 2#6, 3#6].all fun a =>
      acc s a n permLoad (if n = 16 then 16 else 1) .any fun l u => !(settleFor u s.rank (s.me.base a).word l).chunksPoisoned l)) &&
    acc (s.markPoison [localKey 0 64]) 1#6 1 permLoad 1 .any (fun l u => (settleFor u s.rank (s.me.base 1#6).word l).chunksPoisoned l) &&
    ([(z, true), (z.modMe waiting, false)].all fun y => [2#6, 3#6].all fun a => acc y.1 a 4 permLoad 1 .any fun l u =>
      !u.chunksPoisoned l && (u.me.loadRoom ((u.atoms l).map (·.1)) == y.2) && !slotPending u s.rank (runsOf l)) &&
    acc (sentCdec s) 3#6 4 permLoad 1 .any (fun l u => slotPending u s.rank (runsOf l)) &&
    s.pushesDone s.rank && !dReleasing s s.me.posS && acquireReady s s.rank && !(acquire s s.rank).lazy &&
    ([1, 2, 4, 8, 16].all fun n => acc s 3#6 n permLoad (if n = 16 then 16 else 1) .local_ (fun l u =>
        !(settleFor u s.rank (s.me.base 3#6).word l).chunksPoisoned l) &&
      acc z 3#6 n permLoad (if n = 16 then 16 else 1) .local_ (fun l u => !u.chunksPoisoned l && u.me.loadRoom ((u.atoms l).map (·.1)) &&
        !slotPending u s.rank (runsOf l)) &&
      acc s 2#6 n permLoad n .any (fun l _ => !l.any (·.host)) &&
      acc (acquire s s.rank) 2#6 n permLoad n .any fun l u =>
        !(settleFor u (acquire s s.rank).rank (s.me.base 2#6).word l).chunksPoisoned l)) = true := by
  decide +kernel

/-- The chunks of an access through register a, and the state after it. -/
def got (s : State) (a : GIdx) (n : Nat) (need : BitVec 12) (align : Nat) (al : Allow) : List Chunk × State :=
  match access s .s (s.me.base a) (s.me.base a).word n need align al with | .ok (.bytes l, u) => (l, u) | _ => ([], s)

/-- Stores of every width, with and without a tag, and a tag that may not leave the core; waiting in the store buffer, and on
their way to core 1; STLOC, STREL with an engine behind and with none; a post-update that wraps at both ends of the window; a store through the alias at the last bytes. -/
theorem witness_StoreResults :
    (let c (n : Nat) (f : Core → Core) : State := mem1 (f ∘ fun c => c.wg 5#6 (if n = 16 then own 0 else c.rg 5#6))
    let noGlobal : GVal := { own 0 with bits := (own 0).bits &&& ~~~(1#128 <<< 121) }
    ([1, 2, 4, 8, 16].all fun n =>
      let s : State := c n id
      ([1#6, 2#6, 3#6].all fun a => acc s a n permStore (if n = 16 then 16 else 1) .any fun l u =>
        !u.lazy && (tagCause u (s.me.base a) (s.me.rg 5#6) (s.me.base a).word (l.any (·.host))).isNone && !slotPending u u.rank (runsOf l)) &&
      ([1#6, 3#6].all fun a => acc s a n permStore (if n = 16 then 16 else 1) .local_ fun _ u => u == s) &&
      !releaseReady (c n behind) .sys &&
      ([(2#6, none), (3#6, some 1)].all fun x => acc { s with lazy := true } x.1 n permStore (if n = 16 then 16 else 1) .any fun l u =>
        match l with
        | [k] => (k.len == n) && (k.far u.rank == x.2) && u.lazy && (tagCause u (s.me.base x.1) (s.me.rg 5#6) (s.me.base x.1).word k.host).isNone &&
          (let w : State := landOver u u.rank false (runsOf l)
           w.me.storeRoom ((w.atoms l).map (·.1)) && !slotPending u u.rank (runsOf l))
        | _ => false) &&
      (let w : State := perform s .sys
       (got s 1#6 n permStore n .any == got w 1#6 n permStore n .any) && (w.me.base 1#6 == s.me.base 1#6) && !w.lazy && releaseReady s .sys &&
        acc w 2#6 n permStore n .any fun l _ => !l.any (·.host)) &&
      (let o : Nat := 0x80000 - n
       let s : State := s.modMe fun e => e.wg 1#6 (own o)
       (precheck s (own o) (own o).word n permStore (if n = 16 then 16 else 1) .any).isNone &&
       decide ((own o).word.toNat / 2 ^ 52 % 16 = 0xD ∧ (own o).word.toNat % 2 ^ 52 + n ≤ 2 ^ 19) && s.me.stores.isEmpty && s.me.loads.isEmpty && s.me.blocked.isNone &&
         !slotPending s s.rank [(localKey s.rank o, n)])) &&
    (tagCause (c 16 id) ((c 16 id).me.rg 3#6) noGlobal ((c 16 id).me.rg 3#6).word false == some 4)) = true ∧
    (∀ o ∈ [0x1000, 0x10FF], 0xC * 2 ^ 52 / 2 ^ 52 % 16 = 0xC ∧ 2 ^ 8 ≤ 2 ^ 19 ∧ 0x1000 ≤ o ∧ o < 0x1000 + 2 ^ 8 ∧ 0x1000 + 2 ^ 8 ≤ 2 ^ 19 ∧
      (0x0040_1000 % 2 ^ 19, 0x0040_1000 / 2 ^ 19 % 32) = (0x1000, 8)) := by
  decide +kernel

/-- Column wrap within a window of 256 bytes from 0x1000: past its end the next core, before its start the one before
(05_memory.md R158). -/
theorem test_column_wrap :
    postUpdate 0x0040_1000#32 (BitVec.ofNat 64 (0xC * 2 ^ 52 + 7 * 2 ^ 19 + 0x10F8)) 16 true =
      BitVec.ofNat 64 (0xC * 2 ^ 52 + 8 * 2 ^ 19 + 0x1008) ∧
    postUpdate 0x0040_1000#32 (BitVec.ofNat 64 (0xC * 2 ^ 52 + 7 * 2 ^ 19 + 0x1008)) (-16) true =
      BitVec.ofNat 64 (0xC * 2 ^ 52 + 6 * 2 ^ 19 + 0x10F8) := by decide +kernel

/-- The state with a push of core 0 on its way. -/
def sentPush (s : State) : State :=
  { s with net := [{ src := 0, dst := 1, ev := .remotePushArrive 1 Record.zero, pid := 1 }] }

/-- Atomics on own, generic and another core's memory, plain, as an acquire and as a release; CLWB and CLINV in local and
generic memory; a FENCE with nothing on its way, with a push on its way, and with an engine behind. -/
theorem witness_AtomicsAndFences :
    (let s : State := mem1 id
    ([1#6, 2#6, 3#6].all fun a => acc s a 8 (permLoad ||| permStore ||| permAtomic) 8 .any fun l u =>
      !l.any (·.hostOwn) && releaseReady u .sys &&
        ([u, acquire u s.rank, perform u .sys].all fun w => !(settleFor w w.rank (s.me.base a).word l).chunksPoisoned l &&
          !slotPending w w.rank (runsOf l)) && u.pushesDone u.rank && !dReleasing u u.me.posS && acquireReady u u.rank) &&
    (let z : State := { s with lazy := true }
     acc z 2#6 8 (permLoad ||| permStore ||| permAtomic) 8 .any fun l u => u.lazy && !u.chunksPoisoned l && !l.any (·.hostOwn) &&
       [u, acquire u u.rank].all fun w => w.lazy && w.me.loadRoom ((w.atoms l).map (·.1)) && !slotPending w w.rank (runsOf l) && !w.chunksPoisoned l) &&
    scopeAlone s s.rank .core && !scopeAlone s s.rank .sys && (vPending s s.me.posS ++ mPending s s.me.posS ++ dPending s s.me.posS).isEmpty &&
    ([1#6, 3#6].all fun a => decide (region (s.me.base a).word = 0xC ∨ region (s.me.base a).word = 0xD) &&
      (precheck s (s.me.base a) (s.me.base a).word 1 permLoad 1 .any).isNone) &&
    (region (s.me.base 2#6).word == 0) && acc s 2#6 1 permLoad 1 .any (fun _ _ => true) &&
    ([1#6, 2#6].all fun a => acc s a 1 permExecute 1 .any fun l u => decide (l.length = 1) && (s.rank == u.rank) && !u.me.composed) &&
    s.me.quiet && s.released s.rank && !(mem1 behind).me.quiet && !(sentPush s).released s.rank && (sentPush s).me.quiet) = true := by
  decide +kernel

/-! Synchronization words. -/

/-- The chunks of an access are one, at offset o of core r's local memory. -/
def placed (s : State) (a : GIdx) (n : Nat) (need : BitVec 12) (align r o : Nat) (p : State → Bool) : Bool :=
  acc s a n need align .local_ fun l u => match l with
    | [k] => (k.key == localKey r o) && p (settleFor u s.rank (s.me.base a).word [k])
    | _ => false

/-- A tagged arrival at an offset of core 1. -/
def arrivalAt (off : Nat) (k : ArrivalKind) : Arrival :=
  { dst := 1#12, off := BitVec.ofNat 19 off, bytes := List.replicate 64 7#8, kind := k, srcPkg := 0#32, srcCore := 0#16, entry := 0#14 }

/-- A core whose granule of an offset is full. -/
def fullAt (off : Nat) (c : Core) : Core := c.setFull (off / 64) true

/-- A state in which core 1 is in transit and a tagged arrival from core 0 is on its way there. -/
def sentRelease (s : State) : State :=
  { s with
    ranks := [(0, 0x8001_0000#32), (1, 0xC001_0000#32), (16384, 0x8001_0000#32), (16385, 0xC001_0000#32)]
    net := [{ src := 0, dst := 1, ev := .taggedArrival (arrivalAt 0x40 .putf), pid := 1 }] }

/-- The presence words on full and empty granules of the own core and of core 1, and behind a release that waits; arrivals at the last granule, empty, full
and full with 32 held. -/
theorem witness_PresenceWords :
    ([(1#6, 0), (3#6, 1)].all fun x => [true, false].all fun f =>
      let mark : Core → Core := if f then fullAt 64 else id
      let s : State := (mem1 mark).modCore 1 mark
      ([permLoad ||| permAtomic, permLoad, permStore ||| permAtomic].all fun need => placed s x.1 16 need 16 x.2 64 fun t =>
        ((t.coreAt x.2).full 1 == f) && !t.poisoned (localKey x.2 64) 16 &&
        (((acquire t s.rank).coreAt x.2).full 1 == f) && !(acquire t s.rank).poisoned (localKey x.2 64) 16 &&
        acquireReady t t.rank && releaseReady t .sys && !(perform t .sys).lazy) &&
      ([permLoad ||| permAtomic, permLoad].all fun need => placed (sentRelease s) 1#6 16 need 16 0 64 fun t => !acquireReady t t.rank) &&
      placed s x.1 1 (permStore ||| permAtomic) 1 x.2 64 (fun _ => true) && placed s x.1 1 permLoad 1 x.2 64 fun _ => true) = true ∧
    (let a : Arrival := arrivalAt 0x7FFC0 .putf
     let h : Held := { arr := a, until_ := 1 }
     let c : Core := (one id).coreAt 1
     let d (n : Nat) : Core := (pair id fun c => fullAt 0x7FFC0 { c with held := List.replicate n h }).coreAt 1
     !(one id).inTransit 0 && !c.full (a.off.toNat / 64) && c.held.isEmpty && c.waitq.isEmpty && (a.kind == .putf) &&
     ((d 31).held.all fun x => decide ((one id).cycle < x.until_)) && decide ((d 31).held.length < 32) &&
     (d 32).full (a.off.toNat / 64) && decide (32 ≤ (d 32).held.length)) = true := by
  decide +kernel

/-- A full granule answers its bytes with the tag clear and turns empty; an empty one answers 0 (07_sync.md R220). -/
theorem test_trytake :
    goesB (exec (.trytake 5#6 1#6 0#11) ((mem1 (fullAt 64)).storeNat (localKey 0 64) 8 0x77))
      (fun t => (t.me.rg 5#6 == GVal.ofNat 1) && (t.me.rg 6#6 == GVal.ofNat 0x77) && !(t.me.full 1)) = true ∧
    goesB (exec (.trytake 5#6 1#6 0#11) (mem1 id)) (fun t => (t.me.rg 5#6 == GVal.ofNat 0) && (t.me.rg 6#6 == GVal.ofNat 3)) = true := by
  decide +kernel

/-- A machine with a capability to mailbox counter i of core r in g1 and n in g2. -/
def mbox (r i n : Nat) (f : Core → Core) : State :=
  one (f ∘ regs [(1#6, capAt (0xE * 2 ^ 52) (2 ^ 20) (0xE * 2 ^ 52 + r * 2 ^ 19 + 4 * i)), (2#6, .ofWord (BitVec.ofNat 64 n))])

/-- The first and the last counter, of the own core and of core 1; a counter at its target and one before it. -/
theorem witness_MailboxWords :
    ([(0, 0), (1, 255)].all fun x => [permLoad, permStore, permStore ||| permAtomic].all fun need =>
      let s : State := mbox x.1 x.2 0 id
      let w : Word64 := (s.me.rg 1#6).word
      (match access s .s (s.me.rg 1#6) w 4 need 1 .any with
       | .ok (.window y, u) => (y == w) && !(flushTo u s.rank x.1).lazy && releaseReady (flushTo u s.rank x.1) .sys &&
          !(perform (flushTo u s.rank x.1) .sys).lazy && acquireReady (flushTo u s.rank x.1) (flushTo u s.rank x.1).rank
       | _ => false) && (region w == 0xE) && (field w 49 3 == 0) && (field w 10 9 == 0) && (coordPkg w == s.me.ctl.pkg) &&
      ((coordCore w).toNat == x.1) && ((w.extractLsb' 2 8).toNat == x.2)) = true ∧
    (0 ≤ (0#32 - 0#32).toInt ∧ (0#32 - 1#32).toInt < 0) ∧ (one id).inTransit 0 = false ∧ (one id).me.waitq = [] := by
  decide +kernel

/-- A barrier object that completes one phase, and one that is retired. -/
theorem witness_BarrierCompletion :
    (let o : Bar := { gen := 6#32, retired := false, wrapped := false, expt := 2, arrt := 2, expb := 0, arrb := 0, wdrn := 0 }
     let r : Bar := { o with retired := true }
     decide (o.retired = false ∧ o.expt ≤ o.arrt ∧ o.expb ≤ o.arrb) && (o.complete.gen == 7#32) && (o.complete.arrt == 0) &&
     (r.complete == r)) = true := by decide +kernel

/-- The barrier words on an object of the own core and of core 1, of the generation that gb names and of another, with and
without a limit, and a free join slot. -/
theorem witness_BarrierResults :
    ([(1#6, 0), (3#6, 1)].all fun x =>
      let s : State := mem1 id
      ([permLoad ||| permStore ||| permAtomic, permLoad].all fun need => placed s x.1 64 need 64 x.2 64 fun t =>
        releaseReady t .sys && acquireReady t t.rank && !(t.me.rslot 3#2).getLsbD 127 &&
        ([t, perform t .sys, acquire t s.rank, withdrawSlot t t.rank 3#2].all fun u => !barBad u x.2 64) &&
        barBad (t.markPoison [localKey x.2 80]) x.2 64 && ((barLoad t.mem (localKey x.2 64)).gen == 0#32) &&
        ((barLoad (acquire t s.rank).mem (localKey x.2 64)).gen == 0#32)) &&
      !(s.me.rslot 3#2).getLsbD 127 && ((mem1 (Core.wslot · 3#2 (1#128 <<< 127))).me.rslot 3#2).getLsbD 127 && releaseReady s .sys) = true ∧
    (0#64).setWidth 32 = 0#32 ∧ 0#32 ≠ (1#64).setWidth 32 ∧ (0#64).toNat / 2 ^ 32 = 0 ∧ (0x1_0000_0000#64).setWidth 32 = 0#32 ∧
      (0x1_0000_0000#64).toNat / 2 ^ 32 ≠ 0 := by
  decide +kernel

/-- A core whose monitor is armed on a line at the key 64 of its memory, hit or not. -/
def armed (hit : Bool) (c : Core) : Core :=
  { c.modCtl fun k => { k with monctl := if hit then 0xC000_0000_0000_0000#64 else 0x8000_0000_0000_0000#64 } with
    monLine := some (localKey 0 64, 64) }

theorem witness_MonitorResults :
    acc (mem1 id) 1#6 1 permLoad 1 .any (fun l _ => match l with | [k] => (k.far 0).isNone | _ => false) = true ∧
    ((mem1 id).me.ctl.monctl.getLsbD 63 = false ∧ (mem1 (armed true)).me.ctl.monctl.getLsbD 63 = true ∧
      (mem1 (armed true)).me.ctl.monctl.getLsbD 62 = true ∧ (mem1 (armed false)).me.ctl.monctl.getLsbD 62 = false ∧
      ((mem1 id).me.rg 0#6).word.toNat % 2 ^ 32 = 0 ∧ ((mem1 id).me.rg 6#6).word.toNat % 2 ^ 32 ≠ 0) ∧
    (let b : Blocked := { op := .monwait 5#6, since := 0, deadline := some 0 }
     let s : State := mem1 fun c => { armed false c with blocked := some b }
     (s.me.blocked == some b) && (s.me.monLine == some (localKey 0 64, 64)) &&
     let y : State := mem1 fun c => { armed false c with blocked := some { b with deadline := some 1 } }
     decide (localKey 0 64 < localKey 0 127 + 1 ∧ localKey 0 127 < localKey 0 64 + 64) && decide (0 ≤ s.cycle ∧ y.cycle < 1)) = true := by
  decide +kernel

/-! Tasks. -/

/-- A machine with capabilities to a record image in g1, to a slot in g2 and to a slot of core 1 in g3, and the destination
core 1 in g4. -/
def task1 (f : Core → Core) : State :=
  one (f ∘ regs [(1#6, own 0x100), (2#6, own 0x200), (3#6, capAt (0xC * 2 ^ 52) (2 ^ 20) (0xC * 2 ^ 52 + 2 ^ 19 + 0x200)),
    (4#6, .ofWord 0x1_0000#64), (5#6, .ofWord 0x1_0000#64)])

/-- A core whose deque holds 32 records in hardware and as many in memory as it may. -/
def fullDeque (c : Core) : Core := { c with hw := List.replicate 32 Record.zero, ringN := ringCap c }

/-- A record in the own memory, pushed here with room and without, and to core 1; a slot here and at core 1; a message of
four arguments to the own core and to core 1. -/
theorem witness_SpawnAndMessageResults :
    ([id, fullDeque].all fun f =>
      let s : State := task1 f
      acc s 1#6 64 permLoad 64 .own (fun l t => match l with
        | [k] =>
          let t : State := settleFor t s.rank (s.me.rg 1#6).word [k]
          !t.poisoned k.key 64 && recordOk t (recordAt t k.key) && releaseReady t .pkg && Machine.Record.mayLeave (recordAt t k.key) &&
          (t.me == s.me) && ((perform t .pkg).me.ctl == s.me.ctl) && !(perform t .pkg).lazy
        | _ => false)) = true ∧
    (let s : State := task1 id
     !dequeFull s.me && s.me.push.isEmpty && decide (s.me.hw.length < 32) && dequeFull (task1 fullDeque).me &&
     ((s.me.rg 4#6).word.extractLsb' 28 18 == s.me.ctl.pkg) &&
     decide ((s.me.rg 4#6).word.toNat % 2 ^ 16 = 0 ∧ (s.me.rg 4#6).word.toNat / 2 ^ 46 = 0 ∧ (s.me.rg 4#6).word.toNat / 2 ^ 16 % 4096 = 1) &&
     ([0, 1].all fun r => (field (s.rankEntry r) 31 1 == 1) && (field (s.rankEntry r) 16 10 == s.me.pid) && (field (s.rankEntry r) 30 1 == 0)) &&
     ([(2#6, 0), (3#6, 1)].all fun x => placed s x.1 64 (permStore ||| permAtomic) 64 x.2 0x200 fun w => releaseReady w .pkg &&
      (s.isOwn (s.me.rg x.1).word == (x.2 == 0)) && acc w 1#6 64 permLoad 64 .own fun l t => match l with | [k] => recordOk t (recordAt t k.key) && Machine.Record.mayLeave (recordAt t k.key) && releaseReady t .pkg | _ => false)) = true ∧
    (let s : State := task1 fun c => { c with codecap := capAt 0 0x1000 0 }
     (capCheck s.me.codecap 0#64 4 permExecute).isNone && releaseReady s .sys && !(perform s .sys).lazy && !([GVal.zero].any GVal.stays)) = true := by
  decide +kernel

/-- A core that runs a task. -/
def busy (c : Core) : Core := { c with task := some Record.zero, codecap := (capAt 0 0x1000 0).withWord 0x40#64 }

theorem witness_TaskEndResults :
    (let s : State := task1 busy
    !gangDue s s.me && !s.me.composed && !s.me.slice && !yieldParks s && decide (s.me.depth = 0) && s.me.quiet &&
    (s.me.group == .single) && (s.me.task == some Record.zero) && !Record.zero.msg && (Record.zero.done == 0#64) &&
    (s.me.ctl.barslot == Vector.replicate 4 0#128) && s.me.hw.isEmpty && (s.me.ringN == 0) && s.me.push.isEmpty && s.me.waitq.isEmpty &&
    s.me.resumes.isEmpty && s.me.stores.isEmpty && s.me.loads.isEmpty && s.net.isEmpty && s.me.maxx.isNone && s.me.blocked.isNone &&
    s.me.resend.isEmpty && s.me.latches.isEmpty) = true := by
  decide +kernel

/-- An EXIT leaves the core idle, and its registers as they stand (08_tasks.md R256). -/
theorem test_exit : goesB (exec .exit (task1 busy)) (fun t => t.me.task.isNone && (t.me.rg 4#6 == .ofWord 0x1_0000#64)) = true := by
  decide +kernel

/-- A record with arguments, an entry and a work identifier. -/
def rec1 : Record := { Record.zero with argA := .ofWord 5#64, argB := own 0, entry := 0x80#64, wid := 9#64 }

/-- A core that holds a record. -/
def holds (l : List Record) (c : Core) : Core := { c with hw := l }

theorem witness_TaskStartEffect :
    (let s : State := one (holds [Record.zero, rec1])
    mayStart s s.rank && s.me.resumes.isEmpty && (s.me.hw == [Record.zero] ++ [rec1]) && s.me.push.isEmpty && s.me.waitq.isEmpty &&
    !rec1.resume && (s.part? s.me.pid == some probePart) && !rec1.bad && (rec1.ctx == 0#16)) = true := by
  decide +kernel

theorem test_task_start : goesB (exec .taskStart (one (holds [Record.zero, rec1])))
    (fun t => (t.me.rg 1#6 == .ofWord 5#64) && (t.me.rg 2#6 == own 0) && (t.me.pc == 0x80#64) && (t.me.hw == [Record.zero])) = true := by
  decide +kernel

/-- Of five records with one pinned, a probe takes the oldest two that are not (08_tasks.md R250). -/
theorem test_steal :
    (let r (n : Nat) (f : Nat) : Record := { Record.zero with wid := BitVec.ofNat 64 n, flags := BitVec.ofNat 16 f }
    let p := takeStealable (stealCount 4) [r 0 0, r 1 1, r 2 0, r 3 0, r 4 0]
    decide (p = ([r 0 0, r 2 0], [r 1 1, r 3 0, r 4 0]))) = true := by decide +kernel

/-- An idle core with a victim, a thief that waits, and one that takes records; pushes with room, into the push buffer and
to be sent again; an armed slot at and above a decrement, and one that is not armed; a message to a free slot and one of
another partition. -/
theorem witness_DequeArrivals :
    (let s : State := one id
     s.me.idle && mayStart s s.rank && !s.me.probing && (probeFits s s.rank 1).1 && { s with lazy := true }.lazy) = true ∧
    (let s : State := pair (holds [rec1]) fun c => { c with probing := true }
     (s.coreAt 1).probing && s.me.halt.isNone && !s.inTransit s.rank && decide (s.me.pid = (s.coreAt 1).pid) &&
     ({ s with rank := 1 }.me.probing && { s with rank := 1 }.me.push.isEmpty && decide ((pair id id).me.hw.length + 1 ≤ 32)) && !rec1.pin &&
     !rec1.msg && !rec1.resume) = true ∧
    (let s : State := one id
     let t : State := one fun c => { fullDeque c with push := List.replicate 31 Record.zero }
     let u : State := one fun c => { fullDeque c with push := List.replicate 32 Record.zero }
     let x : Record := { rec1 with count := 2#32, flags := 8#16 }
     let w : State := putRecord s (localKey s.rank 0x7FFC0) x
     !s.inTransit s.rank && decide (s.me.hw.length < 32) && s.me.push.isEmpty && dequeFull t.me && decide (t.me.push.length < 32) &&
     dequeFull u.me && decide (32 ≤ u.me.push.length) && (x.count != 0#32) && (rec1.count == 0#32) &&
     (recordAt w (localKey w.rank 0x7FFC0)).armed && decide ((1#32).toNat < (recordAt w (localKey w.rank 0x7FFC0)).count.toNat) &&
     !(recordAt s (localKey s.rank 0)).armed) = true ∧
    (let s : State := one id
     let m : AMsg := { entry := 0x80#64, ctx := 0#16, dst := 1#12, src := 0#12, pkg := s.pkgRank, pid := 1#10, seq := 7#32, args := [] }
     let z : State := { s.modCore 1 (fun c => c.modCtl fun k => { k with ptroot := 2#64 <<< 48 }) with
       parts := [probePart, { probePart with pid := 2 }], lazy := true }
     (s.part? m.pid.toNat == some probePart) && decide ((s.coreAt m.dst.toNat).pid = probePart.pid) && probePart.resident &&
     (freeMsg (s.coreAt m.dst.toNat) == some 0) && decide ((z.coreAt m.dst.toNat).pid ≠ probePart.pid) && z.lazy && (m.pkg == z.pkgRank) &&
     (z.part? m.pid.toNat == some probePart)) = true := by
  decide +kernel

/-- A decrement of an armed slot, and one of a slot that is not armed (08_tasks.md R255). -/
theorem test_cdec_apply :
    (let s : State := putRecord (one id) (localKey 0 0x40) { rec1 with count := 2#32, flags := 8#16 }
    goesB (exec (.cdecApply 0x40#19 1#32) s) (fun t => decide (t.mem.readNat (localKey 0 0x7C) 4 = 1)) &&
    goesB (exec (.cdecApply 0x80#19 1#32) s) fun t => decide (field t.me.ctl.cdecerr 16 16 = 1)) = true := by decide +kernel

/-- GRPSTAT of a core in a group; two cores that grant each other, and one that is busy; the leaders of a composed group
and of a gang. -/
theorem witness_GroupWords :
    (let s : State := one id
     (field (one fun c => c.modCtl fun k => { k with grpstat := 0x4000_0000#64 }).me.ctl.grpstat 30 2 != 0) &&
     (field s.me.ctl.grpstat 30 2 == 0) && s.me.quiet &&
     ([(1, false), (1, true), (4, false)].all fun x =>
      ((groupRect s.rank (groupShape x.1 x.2)).filter fun m => m.1 != s.rank).all fun m => (s.coreAt m.1).grants) &&
     !(((groupRect 0 (groupShape 1 false)).filter fun m => m.1 != 0).all fun m => ((pair id busy).coreAt m.1).grants)) = true ∧
    (let g : State := pair (fun c => { busy c with group := .gangLead [1] }) fun c => { busy c with group := .member 0 true }
     (g.me.group == .gangLead [1]) && g.me.quiet && (g.coreAt 1).quiet && (g.modMe behind).me.group == .gangLead [1] &&
     !(g.modMe behind).me.quiet && ((one fun c => { busy c with group := .composeLead [1] }).me.group == .composeLead [1])) = true := by
  decide +kernel

/-- COMPOSE with a free neighbour forms, and with a busy one answers 1 (09_compose.md R288). -/
theorem test_compose :
    goesB (exec (.compose false 0#2 5#6) (pair busy id)) (fun t => (t.me.group == .composeLead [1]) && (t.me.rg 5#6 == .ofNat 0) &&
      (t.coreAt 1).reserved) = true ∧
    goesB (exec (.compose false 0#2 5#6) (pair busy busy)) (fun t => (t.me.group == .single) && (t.me.rg 5#6 == .ofNat 1)) = true := by
  decide +kernel

/-! Traps and the system. -/

/-- A core at partition level, with some live frames. -/
def atPart (depth : Nat) (c : Core) : Core := c.modCtl fun k => { k with tstate := BitVec.ofNat 32 (4 * depth + 1) }

theorem witness_TrapFrames :
    (let s : State := one busy
    let d : State := one (atPart 1 ∘ busy)
    [s, d].all fun s => (s.me.group == .single) && s.me.maxx.isNone && s.me.halt.isNone && decide (s.me.depth < 2) && s.me.loads.isEmpty &&
      s.me.blocked.isNone && ((trapS 0x07 0#64).cause != 6#8) && ((trapS 0x07 0#64).cause != 0xD#8)) = true := by decide +kernel

/-- A trap saves the word's address in the frame, and g2 holds the cause (15_system.md R428). -/
theorem test_trap_entry : goesB (exec (.trapEntry (trapS 0x07 0#64)) (one busy)) (fun t =>
    (t.me.rg 2#6 == .ofNat 7) && decide (t.mem.readNat (localKey 0 0x68020) 8 = 0x40) && (t.me.depth == 1)) = true := by decide +kernel

theorem witness_DoubleFault :
    (let s : State := one (atPart 2 ∘ busy)
    (s.me.group == .single) && s.me.maxx.isNone && s.me.halt.isNone && decide (s.me.depth = 2) && s.me.loads.isEmpty && s.me.blocked.isNone &&
    ((trapS 0x07 0#64).cause != 0xD#8) && ((trapS 0x06 0#64).cause == 6#8) && !(trapS 0x06 0#64).asked && (s.part? s.me.pid == some probePart) &&
    probePart.fq.ring.isNone && probePart.fq.entries.isEmpty) = true := by decide +kernel

/-- The codes of TRAP at the ends of their ranges; BRK with and without BRKEN; ERET with a frame and without; BLAZE with the
snapshots locked and not. -/
theorem witness_TrapAndReturnWords :
    ((∀ c ∈ [1#8, 9#8, 0x0B#8, 0x13#8], 1 ≤ c.toNat ∧ c.toNat ≤ 0x13 ∧ c ≠ 0x0A#8) ∧
      ∀ c ∈ [0#8, 0x0A#8, 0x14#8, 0x20#8], ¬(1 ≤ c.toNat ∧ c.toNat ≤ 0x13 ∧ c ≠ 0x0A#8)) ∧
    (let s : State := one (atPart 1 ∘ busy)
     let t : State := syncAll s
     !(one id).me.brken && (one fun c => { c with brken := true }).me.brken && decide (s.me.level ≠ 0 ∧ s.me.depth ≠ 0) && s.me.quiet &&
     s.landed s.rank && !s.gangMaxx s.rank && !s.walking s.rank && frameOk t (frameKey t s.rank 0) && !t.poisoned (frameKey t s.rank 0) frSize &&
     !t.poisoned (frameKey t s.rank 0) frShort && decide (field t.me.ctl.parkon 63 1 = 0) &&
     decide ((one (atPart 0)).me.level ≠ 0 ∧ (one (atPart 0)).me.depth = 0) && (t.me.group == .single) && (t.rank == s.rank) &&
     !s.blzLock && { s with blzLock := true }.blzLock && { one id with blzTask := true }.blzTask) = true := by
  decide +kernel

/-- SVC traps past its word (15_system.md R457). -/
theorem test_svc : goesB (exec (.svc 7#17) (one busy)) (fun t =>
    (t.me.rg 2#6 == .ofNat 0x11) && decide (t.mem.readNat (localKey 0 0x68010) 8 = 7 ∧ t.mem.readNat (localKey 0 0x68020) 8 = 0x44)) = true := by
  decide +kernel

/-- A core with some interrupts pending and enabled, at task level, and in partition-level code with them on. -/
def irq (pend en : Nat) (c : Core) : Core :=
  c.modCtl fun k => { k with intpend := BitVec.ofNat 32 pend, inten := BitVec.ofNat 32 en }

theorem witness_InterruptTake :
    interruptDue (one (irq 0x28 0x8000_FFFF ∘ busy)) 0 = some 3 ∧ interruptDue (one (irq 0x8000 0x8000_8000 ∘ atPart 0 ∘ busy)) 0 = some 15 ∧
    interruptDue (one (irq 0x28 0x10 ∘ busy)) 0 = none ∧
    (let s (f : Core → Core) : State := one (f ∘ irq 0x28 0x8000_FFFF ∘ busy)
     let t : State := s fun c => { c with pendTrap := some (trapS 0x07 0#64) }
     let h : State := s fun c => { c with blocked := some { op := .hub, since := 0, deadline := none } }
     let f : State := (State.reset.withFetchWord 32 (wordOf (.fence .pkg))).modMe fun c => { irq 0x28 0x8000_FFFF c with hold := some (.engines, 0) }
     ([s id, t, h, f].all fun u => interruptDue u u.rank == some 3) && atFence f && !atFence (s id) && !(s id).me.atHub && !(s id).me.firstDue && t.me.firstDue &&
       h.me.atHub) = true := by decide +kernel

theorem witness_PartitionLevelWords : (one busy).me.level = 0 := by decide +kernel

/-- The bytes of a context entry: STATE, HOME, CAPTAB at VA 0x4000, CAPLOG, the ring and FUTQ. -/
def ctxBytes (st home caplog ring futq : Nat) : List Byte :=
  leBytes 2 st ++ leBytes 2 home ++ List.replicate 44 0#8 ++ leBytes 8 0x4000 ++ leBytes 1 caplog ++ leBytes 1 ring ++ leBytes 2 futq

/-- A partition with the contexts 1 and 2, whose entries stand at VA 0x1000 and of which 1 is active. -/
def ctxPart : Part := { probePart with ctxFirst := 1, ctxCount := 2, ctxbase := 0x1000#64, futQuota := 2 }

/-- A machine of that partition, with a task of context 1 at core 0. -/
def ctx1 (f : Core → Core) : State :=
  { (task1 (f ∘ fun c => { busy c with task := some { Record.zero with ctx := 1#16 } })).store (probePa + 0x1080) (ctxBytes 1 0 0 3 1) with
    parts := [ctxPart] }

/-- A fault-queue entry of a sequence number and a status. -/
def faultAt (seq : Nat) (st : Nat) : FaultEntry :=
  { seq := BitVec.ofNat 32 seq, slot := 0, page := 0#64, ctx := 0#16, core := 0#16, kind := .load, walker := .s, status := BitVec.ofNat 8 st
    merged := 1#32, waiters := [] }

/-- Partition-level operands: a grant, a flush of a page and of all, a fault entry to take and none, one to end and none, a
context to kill; PSAVE and PREST of a halted core, a running one and one of no partition. -/
theorem witness_SystemWords :
    (let s : State := ctx1 (atPart 0)
     let z : GVal := { own 0 with bits := setField (own 0).bits 100 16 5 }
     let q (l : List FaultEntry) : State := { s with parts := [{ ctxPart with fq := { ctxPart.fq with entries := l } }] }
     decide (s.me.level ≠ 0) && (capGrant s z GVal.zero).toOption.isSome && decide (field (0#64) 0 64 < 2) &&
     !walksIn s .pkg s.rank s.me.pid &&
     ([[], [faultAt 1 0]].all fun l => acc (q l) 1#6 32 permStore 32 .own fun k t => decide (k.length = 1) &&
        ((oldestPending t s.me.pid).isSome == !l.isEmpty)) &&
     releaseReady s .pkg && (faultEntryOf (perform s .pkg) s.me.pid 1#32).isNone && (faultEntryOf (perform (q [faultAt 1 1]) .pkg) s.me.pid 1#32 == some (faultAt 1 1)) &&
     (match ctxEntry s ctxPart 1#16 .store with | (some k, t) => (ctxQueue t k).state != 0 | (none, _) => false) && !s.lazy && (s.part? s.me.pid == some ctxPart) &&
     ctxOf ctxPart 1#16) = true ∧
    ([(0, true), (1, true), (1, false), (2, true)].all fun x =>
      let f (c : Core) : Core := if x.2 then { c with halt := some 1#4 } else c
      let s : State := ((pair (atPart 0 ∘ regs [(1#6, own 0x100)]) f).storeNat (localKey 0 0x100) 2 x.1).storeTagged (localKey 0 0x110)
        (leBytes 16 (capAt 0 0x100000 0x40).bits.toNat) true
      acc s 1#6 64 (permLoad ||| permStore) 64 .own fun l t => match l with
        | [k] =>
          let t : State := settleFor t s.rank (s.me.rg 1#6).word [k]
          !t.poisoned k.key 64 && (let img : GVal := t.loadUnit (k.key + 16)
            [permStore ||| permStoreCap, permLoad ||| permLoadCap].all fun need => bytesB (access t .s img img.word imageSize need 64 .generic) fun l q =>
              !l.any (·.host) && !q.chunksPoisoned l && (q.coreOf s.me.pid x.1 == decide (x.1 < 2)) && ((q.coreAt x.1).halt.isSome == (x.2 && x.1 == 1)))
        | _ => false) = true := by
  decide +kernel

/-! Futures. -/

/-- A future of partition 1 and context 1 in a state, with its waiter. -/
def fut1 (st : Nat) (w : Option FutWaiter) : Fut :=
  { Fut.reset with state := BitVec.ofNat 3 st, gen := 7#18, ctx := 1#16, pid := 1, waiter := w }

/-- The machine with entries of the future table and tool ring 3 of partition 1, and gb naming context 1. -/
def fut (l : List (Nat × Fut)) (ring : Bool) (f : Core → Core) : State :=
  { ctx1 (f ∘ regs [(7#6, .ofWord 1#64)]) with
    futs := l, rings := [(3, { ToolRing.reset with valid := ring, pid := 1, base := probePa + 0x8000 })] }

/-- What FCALL's checks give for a descriptor in the own memory at 0x100. -/
def callB (s : State) (p : State → Nat → CallDesc → Nat → Bool) : Bool :=
  acc s 1#6 64 permLoad 64 .own fun l t => match l with
    | [k] => !t.poisoned k.key 64 && decide (field ((s.me.rg 7#6).word) 16 48 = 0) && (match ctxCheck t 1#16 with
      | (some (_, key), u) =>
        let d : CallDesc := callDesc u.mem k.key
        let w : List CallWin × Bool × State := callWindows u ctxPart (BitVec.ofNat 64 (u.mem.readNat (key + 48) 8)) (d.wins.take d.wincnt)
        d.ok (u.mem.readNat (key + 56) 1) && okB (contImage u d (u.mem.readNat (key + 2) 2 % 4096) (s.me.rg 1#6).word) (fun _ => true) &&
          !u.poisoned k.key 64 && p w.2.2 key d (callStatus d w.1 w.2.1)
      | (none, _) => false)
    | _ => false

/-- A call that has room in its ring; with its quota reached; without a slot; a window refused; and a remote call without a
host. A stale handle, a final future, and a pending one with a waiter and without. -/
theorem witness_FutureCallAndWait :
    (let room (v : State) (key : Nat) : Bool := decide (allocated v (fun f => f.ctx == 1#16 && f.pid == 1) < v.mem.readNat (key + 58) 2 ∧
        allocated v (fun f => f.pid == 1) < ctxPart.futQuota)
     callB (fut [] true id) (fun v key _ n => decide (n = 0) && room v key && (freeEntry v == some 0) && (callSlot v 1 3).isSome) &&
     callB (fut [(0, fut1 1 none)] true id) (fun v key _ n => decide (n = 0) && !room v key) &&
     callB (fut [] false id) (fun v key _ n => decide (n = 0) && room v key && (callSlot v 1 3).isNone) &&
     callB ((fut [] true id).storeNat (localKey 0 0x103) 1 1) (fun _ _ _ n => decide (n = 4)) &&
     callB ((fut [] true id).storeNat (localKey 0 0x102) 1 1) (fun _ _ d n => decide (n = 5) && d.remote)) = true ∧
    (let h : Nat := 7 * 2 ^ 14 + 16383
     let w : FutWaiter := { core := 1, frame := none, d := 5#6 }
     decide (field (BitVec.ofNat 64 h) 32 32 = 0) && (liveFut (fut [] true id) h false).isNone &&
     ([(2, none), (1, none), (1, some w)].all fun x => let s : State := fut [(16383, fut1 x.1 x.2)] true id
      (liveFut s h false == some (16383, fut1 x.1 x.2)) && !injecting s 16383 && !(s.me.parks && poolFree s s.me.pid))) = true := by
  decide +kernel

/-- A call takes the lowest free entry and answers its handle of generation 1 (14_futures.md R401, R407; log entries 20 and
21). -/
theorem test_fcall : goesB (exec (.fcall 5#6 1#6 7#6) (fut [] true id)) (fun t =>
    (t.me.rg 5#6 == .ofNat 0x4000) && ((t.futAt 0).state == 1#3)) = true := by
  decide +kernel

/-- The codes of FDONE; a deadline that has passed, one that has not, and none; an injection with granules and without; the
codes of a remote completion; a future that leaves pending with a waiter and without. -/
theorem witness_FutureResolution :
    (let h : Nat := 7 * 2 ^ 14 + 5
     let f : Fut := { fut1 1 none with wins := [{ base := probePa + 0x9000, len := 64, rd := true, wr := true, ex := false }] }
     let s (l : List (Nat × Fut)) : State := fut l true id
     let late : State := { s [(5, { f with deadline := 9#64 }), (6, { f with deadline := 10#64 }), (7, f)] with ptp := 9999 }
     let j (left : List (List Byte × List Nat)) : Injection :=
       { entry := 5, pid := 1, ctx := 1#16, home := 0#12, off := 0, log := 4, left := left, first := 0, next := 0, wait := false }
     let m (a : Nat) : RemoteDone := { handle := BitVec.ofNat 32 h, auth := BitVec.ofNat 64 a, rstatus := 0#8, tokens := leBytes 8 1 }
     decide (field (BitVec.ofNat 64 h) 32 32 = 0 ∧ field (16#64 <<< 32) 8 24 = 0 ∧ field (16#64 <<< 32) 56 8 = 0) && releaseReady (s []) .pkg &&
     (liveFut (perform (s []) .pkg) h true).isNone &&
     ([(1, 16, 0), (1, 17, 3), (2, 16, 2)].all fun x => doneCode (perform (s [(5, { f with state := BitVec.ofNat 3 x.1 })]) .pkg) h x.2.1 == x.2.2) &&
     ctlReady (s []).me 0x041 &&
     decide ((late.futAt 5).state = 1#3 ∧ (late.futAt 5).deadline ≠ 0#64 ∧ (late.futAt 5).deadline.toNat ≤ late.now) &&
     decide (late.now < (late.futAt 6).deadline.toNat ∧ (late.futAt 7).deadline = 0#64 ∧ (late.futAt 8).state ≠ 1#3) &&
     ([[], [(leBytes 64 1, [])]].all fun l => nextInject { s [(5, f)] with injects := [j l] } == some (j l)) && (nextInject (s [])).isNone &&
     (remoteCode (s [(5, { f with remote := true })]) (m 0) == 0) && (remoteCode (s [(5, { f with remote := true })]) (m 1) == 3) &&
     decide (field (BitVec.ofNat 64 (2 ^ 32 + h)) 32 32 ≠ 0 ∧ field (0x100#64) 8 24 ≠ 0 ∧ field (1#64 <<< 56) 56 8 ≠ 0) &&
     !releaseReady ((s []).modMe fun c => { c with posS := 1#32, capM := [.vals []] }) .pkg && !ctlReady ((s []).modMe fun c => { c with posS := 1#32, capV := [.vals []] }).me 0x041 &&
     ([(0, 0), (15, 1)].all fun x => let k : Injection := { j [(leBytes 64 1, [])] with next := x.1, first := 0, off := if x.2 = 0 then 0 else 2 ^ 19 - 960 }
        (nextInject { s [(5, f)] with injects := [k] } == some k) && (decide (2 ^ 19 < k.off + 64 * 2 ^ k.log) == (x.2 == 1)) &&
        (futEntry { s [(5, f)] with injects := [k] } k.pid k.ctx .load).1.isSome && (futEntry { s [(5, f)] with injects := [k] } 9 k.ctx .load).1.isNone) &&
     ([(none, none), (some rec1, none), (none, some { core := 1, frame := none, d := 5#6 })].all fun x => [true, false].all fun away =>
        let g : Fut := { f with remote := away, waiter := x.2, cont := x.1 }
        (((s [(5, g)]).futAt 5).waiter == x.2) && !((s [(5, g)]).futAt 5).inject && (((s [(5, g)]).futAt 5).cont == x.1) &&
        (((s [(5, g)]).part? 1).map (·.resident) == some true))) = true := by
  decide +kernel

/-! Key-value storage. -/

/-- A tree of partition 1 that holds the tokens 7, 8 in a final node that carries record 0. -/
def tree1 (low : Nat) (valid : Bool) : Tree :=
  { pid := 1, index := 0, valid := valid, nodebase := 0x20000, nodecnt := 16, spancnt := 2, spanbase := 0x30000, pagebase := 0x40000
    layers := 2, lowmark := low
    nodes := [{ Node.root with children := [1] },
      { Node.root with index := 1, run := [7#32, 8#32], final := true, span := some 0, depth := 2 }]
    recs := [{ SpanRec.none 0 with ref := 1, nodes := 1, free := false }] }

/-- The machine with that tree, a view of n tokens whose first entry is record 0, and the tokens 7, 8, 9 at 0x100. -/
def kv (n : Nat) (valid : Bool) (f : Core → Core) : State :=
  let s : State := ((((fut [] false f).storeNat (probePa + 0x1080 + 32) 8 0x5000).storeNat (probePa + 0x1080 + 40) 4 n).store (localKey 0 0x100)
    (leBytes 4 7 ++ leBytes 4 8 ++ leBytes 4 9)).store (probePa + 0x5000) (if n = 0 then [] else entryBytes n 0)
  { s with trees := [tree1 0 valid] }

/-- The bytes of that tree's directory entry. -/
def dirBytes (layers : Nat) : List Byte :=
  List.replicate 8 0#8 ++ leBytes 8 0x20000 ++ leBytes 4 16 ++ leBytes 4 2 ++ leBytes 8 0x30000 ++ leBytes 8 0x40000 ++ leBytes 2 layers ++
    leBytes 1 1 ++ List.replicate 21 0#8

/-- The hub's answer to a request of context 1: a status and a value, 99 where something cannot be reached, none at a break. -/
def hubAns (s : State) (bad : Bool) (op : HubOp) : Option (Nat × Nat) :=
  match (hubStep s (hubReq s 5#6 1#16 0#64 bad op)).1 with | .ok r => some r | .error .unreached => some (99, 0) | .error .broken => none

/-- Whether a context's view and tree are read, with a property. -/
def viewB (s : State) (p : State → Option (View × Tree) → Bool) : Bool :=
  match hubView s ctxPart 1#16 with
  | (.ok x, u) => p u (some x)
  | (.error .unreached, u) => p u none
  | (.error .broken, _) => false

/-- A prefix request of n tokens at 0x100. -/
def prefixB (s : State) (n : Nat) (look : Bool) (p : State → Option (View × Tree) → List (BitVec 32) → Bool) : Bool :=
  (prefixReq (BitVec.ofNat 64 (1 + n * 2 ^ 24)) look == some (1#16, false, n)) &&
    acc s 1#6 (if look then 8 * ((n + 63) / 64) + 8 * ((4 * n + 7) / 8) else 4 * n) (if look then permLoad ||| permStore else permLoad) 8 .own fun l t =>
      match l with
      | [k] =>
        (match ctxCheck (settleFor t s.rank (s.me.rg 1#6).word [k]) 1#16 with
        | (some e, u) => (e == (ctxPart, probePa + 0x1080)) && !u.poisoned k.key (4 * n) && (u.part? u.me.pid == some ctxPart) &&
          viewB u fun v z => p v z (tokensAt u.mem k.key n)
        | (none, _) => false)
      | _ => false

/-- Lookups of a context without a valid tree, of a record that matches, of a tree whose node has no record, of poisoned tokens,
and of a tree that cannot be written; insertions beyond the view and within it; removals; a request that stands at the hub. -/
theorem witness_PrefixWords :
    (let l (n : Nat) : List (BitVec 32) := [7#32, 8#32, 9#32].take n
    let look (n : Nat) : HubOp := .lookup (localKey 0 0x100) (l n) false
    prefixB (kv 0 false id) 2 true (fun _ z _ => z.isNone) && prefixB (kv 0 false id) 2 false (fun _ z _ => z.isNone) &&
    prefixB (kv 0 true id) 3 true (fun u z toks => z.isSome && (toks == l 3) && !u.lazy && (hubAns u false (look 3) == some (0, 2 + 2 ^ 32)) &&
      (hubAns u true (look 3)).isNone) &&
    prefixB { kv 0 true id with trees := [{ tree1 0 true with recs := [] }] } 2 true
      (fun u z toks => (hubAns u false (look 2)).isNone && (z.any fun z => (z.2.met (z.2.match_ toks)).isNone)) &&
    prefixB { kv 0 true id with trees := [{ tree1 0 true with nodebase := 2 ^ 52 }] } 2 true
      (fun u z _ => z.isSome && (hubAns { u with cycle := 1024 } false (look 2) == some (99, 0))) &&
    prefixB (kv 2 true id) 3 false (fun u z _ => z.any (fun z => decide (z.1.len < 3)) && (hubAns u false (.insert (l 3)) == some (7, 0))) &&
    prefixB (kv 2 true id) 2 false (fun u z _ => z.isSome && (hubAns u false (.insert (l 2)) == some (0, 0)) &&
      (hubAns u false (.remove (l 2)) == some (0, 0)) && (hubAns u false (.remove (l 1)) == some (1, 0))) &&
    prefixB { kv 2 true id with lazy := true } 2 false fun u _ _ => u.lazy) = true := by
  decide +kernel

/-- The machine whose tree holds a run in its one node, with or without a free node, in a place that can be written or not. -/
def kvRun (n : Nat) (run : List (BitVec 32)) (nodes : Nat) (reached : Bool) : State :=
  let z : Tree := { tree1 0 true with nodecnt := nodes, nodebase := if reached then 0x20000 else 2 ^ 52 }
  { kv n true id with cycle := 1024, trees := [{ z with nodes := z.nodes.map fun x => if x.index = 1 then { x with run := run } else x }] }

/-- A probe, a lookup of a view that is not empty and one of an empty view, each on a tree that can be written and on one that
cannot; an insertion that splits a run, with a free node and without; a removal of a whole sequence, on both trees, and of one
that goes beyond the match. -/
theorem witness_PrefixWords_commits :
    (prefixReq (BitVec.ofNat 64 (1 + 2 ^ 16 + 2 * 2 ^ 24)) true == some (1#16, true, 2)) = true ∧
    ([true, false].all fun ok => [0, 2].all fun n => prefixB (kvRun n [7#32, 8#32] 16 ok) 2 true fun u x toks => match x with
      | some (v, z) =>
        let z1 : Tree := z.stamp u.hubTime (z.passed (z.match_ toks))
        (match z.met (z.match_ toks) with
        | some l =>
          let z2 : Tree := l.foldl (fun t r => t.adjust r fun i => { i with ref := i.ref + 1 }) z1
          (l == [0]) && (v.len == n) && ((commit u ctxPart z z1 []).1 == ok) &&
            ((commit u ctxPart z z2 ((ctxAddr ctxPart v.ctx + 40, leBytes 4 2) :: l.zipIdx.map fun e =>
              entryWrite v e.2 (min 64 ((z.match_ toks).m - 64 * e.2)) e.1)).1 == ok)
        | none => false)
      | none => false) = true ∧
    ([(2, true), (16, true), (16, false)].all fun x => prefixB (kvRun 2 [7#32, 5#32] x.1 x.2) 2 false fun u y toks => match y with
      | some (v, z) =>
        let f : Match := z.match_ toks
        let z1 : Tree := z.stamp u.hubTime (z.passed f)
        (f.m == 1) && decide (toks.length ≤ v.len) && (z.met f).isSome && ((z1.splitAt f).isSome == (x.1 == 16)) &&
        (match z1.splitAt f with
        | some (z2, cur) =>
          let e : Tree × Nat × List Nat × Nat × Bool := z2.extend 3 cur f.m (toks.drop f.m)
          let z3 : Tree := match e.1.node e.2.1 with | some i => if i.index = 0 then e.1 else e.1.setNode { i with final := true } | none => e.1
          e.2.2.2.2 && (match attach u ctxPart v z3 (f.path.map (·.index) ++ [cur] ++ e.2.2.1) with
            | (.ok z4, w) => (commit w ctxPart z z4 []).1 == x.2
            | (.error _, _) => false)
        | none => true)
      | none => false) = true ∧
    ([(2, true), (2, false), (3, true)].all fun x => prefixB (kvRun 2 [7#32, 8#32] 16 x.2) x.1 false fun u y toks => match y with
      | some (_, z) =>
        let f : Match := z.match_ toks
        let z1 : Tree := z.stamp u.hubTime (z.passed f)
        (match z1.node f.last.index with
        | some i =>
          let z2 : Tree := (z1.unmark i).prune false (z.nodes.length + 1) i.index
          (z.met f).isSome && (decide (f.m = x.1 ∧ f.k = i.run.length ∧ i.final = true ∧ i.index ≠ 0) == (x.1 == 2)) && ((commit u ctxPart z z2 []).1 == x.2)
        | none => false)
      | none => false) = true := by
  decide +kernel

/-- A match of two tokens out of three in one run; of no token. -/
theorem test_match : ((tree1 0 true).match_ [7#32, 8#32, 9#32]).m = 2 ∧ ((tree1 0 true).match_ [8#32]).m = 0 ∧
    (tree1 0 true).recsOf ((tree1 0 true).match_ [7#32, 8#32]) = some [0] ∧
    (tree1 0 true).childWith (((tree1 0 true).node 0).getD Node.root) 8#32 = none := by decide +kernel

/-- KVMAP of a tree that is not valid, of a layer that the tree has not, at the view's end and at its last position; KVTRNC
without a tree, beyond the view and within it; a hold of a live record, of a generation that has passed, and of no tree. -/
theorem witness_ViewAndHoldWords :
    decide (field (0x1_0000_0001#128) 23 9 = 0 ∧ field (0x1_0000_0001#128) 48 80 = 0 ∧ field (0#128) 12 4 = 0 ∧ field (0#128) 17 111 = 0 ∧
      (0x1_0000_0001#128).extractLsb' 32 16 = 1#16 ∧ field (1#128) 16 112 = 0 ∧ field (2#128) 23 105 = 0) = true ∧
    ([0, 2].all fun layers =>
      let s : State := (kv 2 true id).store probePa (dirBytes layers)
      (match ctxCheck s 1#16 with
      | (some (p, key), u) => (p == ctxPart) && (key == probePa + 0x1080) && u.pushesDone u.rank && !dReleasing u u.me.posS && acquireReady u u.rank &&
        okB (engineLoad (acquire u u.rank) (ctxAddr p 1#16 + 32) 16) fun e1 => okB (engineLoad e1.2 (e1.2.kvdirOf p) 64) fun e2 =>
          let t : Tree := { dirTree 1 0 e2.1 with recs := ((e2.2.keptTree 1 0).map (·.recs)).getD [] }
          let v : View := { ctx := 1#16, tab := leNat (e1.1.take 8), len := leNat ((e1.1.drop 8).take 4), tree := leNat ((e1.1.drop 12).take 1) % 16 }
          (t.valid == (layers == 2)) && (v == { ctx := 1#16, tab := 0x5000, len := 2, tree := 0 }) &&
            okB (engineLoad e2.2 0x5000 8) fun e3 => layers == 0 || (match entryRec v t 0 e3.1 with | .ok r => r == 0 | .error _ => false)
      | (none, _) => false)) = true ∧
    (viewB (kv 2 false id) (fun u z => z.isNone && (hubAns u false (.truncate 0) == some (99, 0)) && (u.part? u.me.pid == some ctxPart)) &&
     viewB (kv 2 true id) (fun u z => match z with
      | some (v, t) => (v.len == 2) && (hubAns u false (.truncate 0) == some (0, 0)) && (hubAns u false (.truncate 1) == some (0, 0)) &&
        (hubAns u false (.truncate 3) == some (7, 0)) && (match readEntry u ctxPart v t 0 with | (.ok r, _) => r == 0 | _ => false)
      | none => false)) = true ∧
    (let x : Word64 := 0#64
     let s : State := kv 2 true id
     let z : Tree := tree1 0 true
     decide (field x 44 20 = 0 ∧ field (5#64) 32 32 = 0 ∧ (s.me.rg 7#6).tag = false) && (s.part? s.me.pid == some ctxPart) && !s.lazy &&
     ({ s with lazy := true } : State).lazy && ((validTree s ctxPart 0).1 == some z) && (validTree (kv 2 false id) ctxPart 0).1.isNone && z.live 0 && !z.live 1 &&
     ((z.srec 0).gen == 0#16) && ((z.srec 0).gen != 1#16) && (hubAns s false (.pin 0 0 0#16 5) == some (0, 0)) &&
     (hubAns s false (.pin 0 0 1#16 5) == some (1, 0)) && (hubAns s false (.unpin 0 0 0#16 5) == some (6, 0)) &&
     (hubAns (kv 2 false id) false (.pin 0 0 0#16 5) == some (99, 0)) &&
     ([z.adjust 0 fun y => { y with hold := 5 }, z.adjust 0 fun y => { y with hold := 0 }].all fun t => (commit s ctxPart z t []).1)) = true := by
  decide +kernel

/-- A prefetch to a granule here; the felling engine with too few free records, at its low mark, and with an entry that is
waiting, confirmed and no more fellable; a graph of two blocks with one computed, with none, and one with a reserved code; pushes
with room and without. -/
theorem witness_PrefetchFellingAttention :
    (let s : State := kv 2 true (regs [(7#6, own 0x40)])
     (s.me.rg 7#6).tag && decide (field (0#64) 56 8 = 0) &&
     okB (localOperand s (s.me.rg 7#6) (s.me.rg 7#6).word 64 (permStore ||| permAtomic) 64) (fun t => match t.1 with | .here r o => decide (r = 0 ∧ o = 0x40) | _ => false) &&
     !s.lazy && ({ s with lazy := true } : State).lazy && s.prefetch.isEmpty && (s.part? 1 == some ctxPart) &&
     ([(true, 0, 0#16, 0), (false, 0, 0#16, 0), (true, 1, 0#16, 0), (true, 0, 1#16, 0), (true, 0, 0#16, 2)].all fun x =>
        let q : Prefetch := { pid := 1, tree := 0, record := x.2.1, gen := x.2.2.1, layer := x.2.2.2, pkg := 0#18, dst := 0#12, off := 0#19 }
        let v : State := { kv 2 x.1 id with prefetch := [q] }
        (v.prefetch == [q]) && (q.pkg == v.me.ctl.pkg) && ({ q with pkg := 1#18 }.pkg != v.me.ctl.pkg) && ((validTree { v with prefetch := [] } ctxPart 0).1.isSome == x.1) &&
        (match validTree { v with prefetch := [] } ctxPart 0 with
        | (some t, u) => (t.live q.record == (q.record == 0)) && (((t.srec q.record).gen == q.gen) == (q.gen == 0#16)) && (decide (t.layers ≤ q.layer) == (q.layer == 2)) &&
          (let t1 : Tree := t.adjust 0 fun r => { r with hold := r.hold + 1 }
           (commit u ctxPart t t1 []).1 && (commit (commit u ctxPart t t1 []).2 ctxPart t1 (t1.adjust 0 fun r => { r with hold := r.hold - 1 }) []).1)
        | (none, _) => true))) = true ∧
    (let s : State := kv 2 true id
     let e : FellEntry := { pid := 1, tree := 0, record := 0, gen := 0#16, node := 1, confirmed := true, expired := false, due := 0 }
     let low : State := { s with trees := [tree1 2 true], fells := [{ e with confirmed := false }] }
     let hi : State := { s with fells := [e] }
     (((low.trees.find? fun t => t.pid == 1 && t.index == 0).map fun t => t.valid && decide (t.freeRecs < t.lowmark)) == some true) &&
     (((s.trees.find? fun t => t.pid == 1 && t.index == 0).map fun t => decide (t.lowmark ≤ t.freeRecs)) == some true) &&
     (low.fells[0]?).isSome && (low.fells[63]?).isNone && !({ e with confirmed := false }.confirmed || e.expired) && (fellable hi e).isSome &&
     (fellable hi { e with gen := 1#16 }).isNone && (hi.part? e.pid == some ctxPart) && ((tree1 0 true).node e.node).isSome &&
     (match fellable hi e with
      | some (t, n) => (commit { hi with fells := [] } ctxPart t ((t.remove n).prune true (t.nodes.length + 1) n.parent) []).1
      | none => false)) = true ∧
    (let d (code : Nat) : State := (kv 2 true id).store (localKey 0 0x100)
       (leBytes 4 1 ++ leBytes 4 0 ++ leBytes 4 1 ++ leBytes 4 0x300 ++ List.replicate 40 0#8 ++ leBytes 4 0x400 ++ leBytes 4 0) |>.storeNat (localKey 0 0x300) 1 code
     [(1, false), (0, false), (3, false), (1, true)].all fun x =>
       let s : State := if x.2 then (d 1).storeNat (localKey 0 0x108) 4 0 else d x.1
       acc s 1#6 64 permLoad 64 .own fun l t => match l with
       | [k] =>
         let e : State := settleFor t s.rank (s.me.rg 1#6).word [k]
         let g : AttDesc := attDesc e k.key
         (match ctxCheck e g.ctx with
          | (some _, r) => (match hubView r ctxPart g.ctx with
            | (.ok (v, z), q) =>
              let map : Nat := localKey q.rank g.map
              let m : State := settleFor q q.rank (BitVec.ofNat 64 (0xD * 2 ^ 52 + g.map)) [ownChunk q.rank g.map ((g.blocks + 3) / 4)]
              let u : State := perform m .pkg
              (attOk g v z == !x.2) && !q.poisoned k.key 64 && !m.poisoned map ((g.blocks + 3) / 4) && (x.2 || coarse m map 0 == x.1) &&
              releaseReady m .pkg && u.pushesDone u.rank && !dReleasing u u.me.posS && acquireReady u u.rank &&
              ((attBlocks m map g.blocks == [(0, 1)]) == (x.1 == 1 && !x.2)) &&
              (match readEntries (acquire u u.rank) ctxPart v z [g.first] with
               | (.ok [0], w) => (commit w ctxPart z (z.adjust 0 fun y => { y with hold := min (2 ^ 32 - 1) (y.hold + 1) }) []).1
               | _ => false)
            | _ => false)
          | _ => false)
       | _ => false) = true ∧
    (let s : State := kv 2 true id
     !dequeFull s.me && s.me.push.isEmpty && dequeFull (kv 2 true fullDeque).me && !s.me.composed) = true := by
  decide +kernel

/-! Vector words. -/

/-- VADD on registers with all lanes active. -/
def vw (fmt : Nat) : VWord := { okV with pred := 0#3, fmt := BitVec.ofNat 4 fmt }

/-- A placed V word, captured at the V walker, on a core that stands as given. -/
def vState (w : VWord) (f : Core → Core) : State := ((one (f ∘ regs [(3#6, own 0x1000), (7#6, .ofWord 5#64)])).withFetchWord 96 (wordOf (.vadd w))).modMe f

/-- Whether a V word of a form may run. -/
def vRunsB (s : State) (op : Instr) (w : VWord) (f : VForm) (fields : List GIdx := vFields w) : Bool :=
  match s.me.engCaptured .v with
  | some l => s.me.nestV.isNone && s.me.maxx.isNone && vReady s op w l && okB (vRead (vAt s op l) w (capsOf fields l) f) (·.isSome)
  | none => false

/-- The forms of the element-wise words, each with a word of it. -/
def forms (w : VWord) : List (Instr × VForm) :=
  let W : Nat := w.width
  let two : VForm := { n := w.lanes, wd := W, wa := W, wb := W, ra := .active, rb := .active, lat := 2 }
  let q : Nat := 1024 / max W 32
  [(.vadd w, two), (.vmul w, { two with lat := 4 }), (.vfma w, { two with lat := 4, rd := true }), (.vrcp w, { two with rb := .none, lat := 12 }),
   (.vdiv w, { two with lat := 12 }), (.vsel w, { two with sel := true }), (.vabs w, { two with rb := .none }),
   (.vqnt w, { n := q, wd := W, wa := 32, wb := 32, ra := .active, rb := .active, lat := 4 }),
   (.vdqnt w, { n := q, wd := 32, wa := W, wb := 32, ra := .active, rb := .active, lat := 4 }),
   (.viota w, { two with ra := .none, rb := .none }), (.vperm w, { two with ra := .all, lat := 4 }), (.vslide w, { two with ra := .all, rb := .first }),
   (.pand w, { n := 128, wd := 1, wa := 1, wb := 1, ra := .all, rb := .all, lat := 1 }),
   (.pnot w, { n := 128, wd := 1, wa := 1, wb := 1, ra := .all, rb := .none, lat := 1 }),
   (.vcvt w, { n := q, wd := W, wa := W, wb := W, ra := .active, rb := .none, lat := 4 })]

/-- Every form on registers, in FP32 and in INT32, under a predicate and without, and with A in local memory. -/
theorem witness_VectorElements :
    ([vw 10, vw 2, okV, { vw 10 with a := .loc 3#4 0#8 1#6 false }].all fun w =>
      let s : State := vState w id
      (forms w).all fun f => (w.a.isLoc && f.2.wa == 1) ||
        (decide ((vAt s f.1 ((s.me.engCaptured .v).getD [])).me.ctl.arflg >>> 16 &&& 0x3F#32 = 0#32) && vRunsB s f.1 w f.2)) = true := by decide +kernel

/-- The forms of reductions, draws, moves through memory, VMOVGS, and VMAXX with its group in use and not; VMOVSG and
PCNT. -/
theorem witness_VectorWords :
    (let one (w : VWord) : VForm := { n := w.lanes, wd := w.width, wa := w.width, wb := w.width, ra := .active, rb := .none, lat := 12 }
    let ld : VWord := { vw 10 with a := .loc 3#4 0#8 1#6 true }
    let st : VWord := { vw 10 with d := .loc 3#4 0#8 1#6 false }
    let v : VWord := vw 10
    let g : VWord := { v with cap1 := 7#6 }
    ([(Instr.vsum v, v, { one v with full := true, lat := 8 }), (.vrng v, v, { one v with ra := .none, lat := 4 }),
      (.vld ld, ld, { one ld with lat := 6, mem := true }), (.vst st, st, { one st with lat := 1, mem := true }),
      (.vgth ld, ld, { one ld with rb := .active, lat := 8, idxA := true, mem := true }),
      (.vsct st, st, { one st with rb := .active, lat := 1, idxD := true, mem := true }), (.vcvt v, v, { one v with lat := 4 }),
      (.vmovgs v, v, { one v with ra := .none, rd := true, lat := 2 }), (.vmaxx v, v, { one v with ra := .all, lat := 1 })].all
        fun x => vRunsB (vState x.2.1 id) x.1 x.2.1 x.2.2) &&
    vRunsB (vState g id) (.vmovsg g) g { one g with ra := .all, lat := 1 } (vDestFields g) &&
    vRunsB (vState g id) (.pcnt g) g { n := 32, wd := 1, wa := 1, wb := 1, ra := .all, rb := .none, lat := 1 } (vDestFields g) &&
    ((vState v id).me.ctl.scgrp.getLsbD 31 == false) &&
    (let s : State := vState v fun c => c.modCtl fun k => { k with scgrp := 0x8000_0001#32 }
     s.me.ctl.scgrp.getLsbD 31 && vRunsB s (.vmaxx v) v { one v with ra := .all, lat := 1 }) &&
    (popsOf (vState (vw 10) id).me (vw 10) { one (vw 10) with ra := .all, lat := 1 }).isEmpty && (blockM 17).isSome) = true := by decide +kernel

/-- Registers, captures and predicates; elements in local memory that pass, that fail at element 3, and one that is
poisoned. -/
theorem witness_VectorOperands :
    (let f : VForm := { n := 32, wd := 32, wa := 32, wb := 32, ra := .active, rb := .active, lat := 2 }
    let w : VWord := { vw 10 with a := .loc 3#4 0#8 1#6 false }
    let s : State := vState w id
    let k (c : GVal) : Caps := { c1 := GVal.zero, c2 := GVal.zero, d := GVal.zero, a := c, b := GVal.zero, m := GVal.zero }
    let passes (c : GVal) (s : State) (p : Acc → Bool) : Bool := (wordAccs s w (k c) f).2.1.all fun a => okB (a.check s) fun _ => p a
    decide (0 < f.n) && (popsOf s.me w f).isEmpty && !boundDest s.me w.d && !(vw 10).local_ &&
    passes (own 0x1000) s (fun a => !s.poisoned (a.place s) a.n) && ((wordAccs s w (k (own 0x1000)) f).2.1.length == 32) &&
    ((wordAccs s w (k (own 0x7FFF4)) f).2.1.map (fun a => trapB (a.check s) 3) == List.replicate 3 false ++ List.replicate 29 true) &&
    (let s : State := s.markPoison [localKey 0 0x1010]
     passes (own 0x1000) s (fun _ => true) && (wordAccs s w (k (own 0x1000)) f).2.1.any fun a => a.reads && s.poisoned (a.place s) a.n)) = true := by
  decide +kernel

/-- A flag that traps and flags that do not; a register, a predicate and a local destination; a latch that lands and one that
does not. -/
theorem witness_VectorEffect :
    (let s (w : VWord) (x : Nat) : State := vState w fun c => { c.modCtl fun k => { k with arflg := BitVec.ofNat 32 x } with
      latches := [{ isPred := false, index := 2#5, remain := 1, value := 5#1024 }, { isPred := false, index := 1#5, remain := 2, value := 5#1024 }] }
    let trapped (x : Nat) : Bool := (1#6).setWidth 32 &&& ((s (vw 10) x).me.ctl.arflg >>> 16) &&& 0x3F#32 != 0#32
    trapped 0x1_0000 && !trapped 0x2_0000 && ([vw 10, { vw 10 with d := .preg 1#3 }, { vw 10 with d := .loc 3#4 0#8 1#6 false }].all fun w =>
      ((forms w).all fun f => (popsOf (s w 0).me w f.2).isEmpty) && (s w 0).me.blocked.isNone) &&
    decide (0 < 32 ∧ 32 * 32 ≤ 1024 ∧ (List.replicate 32 0).length = 32) && ((s (vw 10) 0).me.latches.any fun x => 2 ≤ x.remain)) = true := by decide +kernel

/-- Two cores that wait in round 0 of their group of two, with 3.0 and 1.0 in lane 1 and -1.0 and 5.5 in lane 0. -/
def maxxPair : State :=
  let w (d : BitVec 5) : VWord := { vw 10 with d := .vreg d, b := .vreg 0#5 }
  let wait (d : BitVec 5) (c : Core) : Core :=
    { c with capV := [.vals []], pcV := 24#64, maxx := some { op := .vmaxx (w d), caps := [], round := 0#8, waited := 0 } }
  let con (r v : Nat) : Contribution := { core := r, round := 0#8, logn := 1#3, tall := false, fmt := 10#4, value := BitVec.ofNat 1024 v }
  { pair (wait 4#5) (wait 7#5) with maxx := [con 0 0x40400000_BF800000, con 1 0x3F800000_40B00000] }

/-- A stream register with 3 strips asked of 8, and with as many as may be. -/
def strm (asked : Nat) : Binding :=
  { mode := 1#2, desc := leBytes 8 0x101 ++ leBytes 4 8 ++ leBytes 8 0 ++ leBytes 4 128 ++ leBytes 8 0 ++ List.replicate 32 0#8, src := own 0x2000
    count := 0, asked := asked, ahead := [] }

/-- A VMAXX that waits within its limit, beyond it, and with a member that serves a trap; a decided round of two cores and an
undecided one; a stream with room for a strip, without, and with one to return. -/
theorem witness_VectorEvents :
    (let s : State := maxxPair
     let late : State := s.modMe fun c => { c with maxx := c.maxx.map fun m => { m with waited := 65536 } }
     (one id).me.maxx.isNone && s.me.maxx.isSome && !maxxPaused late 0 && (late.me.maxx.map fun m => decide (late.me.ctl.grpwd.toNat ≤ m.waited)) == some true &&
     decide (0 < s.me.ctl.grpwd.toNat) &&
     maxxPaused (late.modCore 1 (atPart 1)) 0 &&
     (match s.maxx with
      | [x, y] => ((s.maxx.find? fun y => y.core == s.rank && (s.me.maxx.map (·.round)) == some y.round) == some x) &&
        (maxxDecided s x == some ([x, y], false)) && (y.core != s.rank) && (y.fmt == x.fmt) && (maxxDecided { s with maxx := [x] } x).isNone
      | _ => false) &&
     ([0, 1].all fun r => let c : Core := s.coreAt r
      c.nestV.isNone && (c.ctl.arflg >>> 16 &&& 0x3F#32 == 0#32) && (match c.maxx with
        | some { op := .vmaxx w, .. } => (popsOf c w (maxxForm w)).isEmpty && !w.a.isLoc && !w.b.isLoc && (w.pred == 0#3) && (w.fmt == 10#4)
        | _ => false))) = true ∧
    (let s : State := one id
     decide (strmTotal (strm 3).desc = 8 ∧ (strm 3).asked < (strm 3).count + 4 ∧ (strm 4).count + 4 ≤ (strm 4).asked ∧ (strm 4).count + (strm 4).ahead.length < (strm 4).asked) &&
     !(strm 4).stopped && (stripHeld s (strm 4) 0).isNone && (stripOrder s 0#3 == s)) = true := by
  decide +kernel

/-- A stream of core 0 on a page of the host's memory that is in transit, and strips asked of it. -/
def strmHost (after : Option (BitVec 32)) (owner : Nat) : State :=
  let s : State := ((({ one id with hostCxl := true, hostSize := 0x100000 }.storeNat 0x10000 8 0x20001).storeNat 0x20000 8 0x30001).storeNat
    0x30008 8 (0x1000_0000_0047 + owner))
  s.modMe fun c => (c.wbind 0#3 { strm 4 with src := capAt 0 (2 ^ 47) 0x10000, after := after }).modCtl fun k => { k with ptroot := 0x1_0000#64 }

/-- A stream that follows accesses that are made, and accesses that are not; a strip whose page is in transit, before the limit of
the stall and at it. -/
theorem witness_VectorEvents_strips :
    (let follows (f : Core → Core) (p : BitVec 32) : State := one fun c => (f c).wbind 0#3 { strm 4 with after := some p }
     stripReady (follows id 0#32) 0#32 && (((stripOrder (follows id 0#32) 0#3).me.rbind 0#3).after).isNone &&
     (((stripOrder (follows (fun c => { c with capV := [.vals []], posS := 9#32 }) 6#32) 0#3).me.rbind 0#3).after).isSome &&
     (let s : State := strmHost none (2 ^ 60)
      let b : Binding := s.me.rbind 0#3
      (b.mode == 1#2) && decide (b.count + b.ahead.length < b.asked) && !b.stopped && (stripHeld s b 0 == some (.ownTransit 0x10000#64)) && b.since.isNone &&
      decide (s.cycle < s.cycle + s.me.ctl.ownwait.toNat ∧ 0 + s.me.ctl.ownwait.toNat ≤ ({ s with cycle := 4096 } : State).cycle)) &&
     (stripHeld (strmHost none 0) (strm 4) 0).isNone) = true := by
  decide +kernel

/-- Both members take the maximum of each lane (10_vector.md R322). -/
theorem test_vmaxx_release : goesB (exec .vmaxxRelease maxxPair) (fun t => t.me.maxx.isNone && (t.coreAt 1).maxx.isNone &&
    (t.me.rv 4#5 == 0x40400000_40B00000#1024) && ((t.coreAt 1).rv 7#5 == 0x40400000_40B00000#1024)) = true := by decide +kernel

/-- VADD in FP32: 1.5 + 2.25 = 3.75 in lane 0, visible after its latency of 2 (10_vector.md R299). -/
theorem test_vadd :
    (let s : State := vState (vw 10) fun c => (c.wv 2#5 0x3FC00000#1024).wv 3#5 0x40100000#1024
     goesB (exec (.vadd (vw 10)) s) fun t => t.me.latches == [{ isPred := false, index := 1#5, remain := 1, value := 0x40700000#1024 }]) = true := by
  decide +kernel

/-! Matrix words. -/

/-- A tile's shape. -/
def shaped (i : BitVec 3) (fmt rows cols : Nat) (c : Core) : Core :=
  c.setShape i ({ fmt := fmt, rows := rows, cols := cols } : Shape).bits

/-- A placed M word, captured at the M walker, on a core that stands as given, with capabilities in g3, an offset word in g4
and g5. -/
def mState (i : Instr) (f : Core → Core) : State :=
  ((one (regs [(3#6, own 0x1000), (2#6, own 0x10000), (4#6, .ofWord 0x10_0040#64), (5#6, .ofWord 0x60_0000#64)])).withFetchWord 192
    (wordOf i)).modMe f

/-- Whether an M word starts, with a property of its captured values. -/
def mStartsB (s : State) (i : Instr) (w : MWord) (p : Caps → Bool) : Bool :=
  s.me.nestM.isNone && match s.me.mHead with | some l => mReady s s.me.posM noDisp i l && p (capsOf (mFields w) l) | none => false

/-- The state in which a captured M word starts. -/
def mBegin (s : State) (i : Instr) : State := mAt s i (s.me.mHead.getD [])

/-- Whether an operand of a word passes for n bytes, with a property of its chunk. -/
def mPasses (s : State) (i : Instr) (sp : MSpec) (c : GVal) (n : Nat) (need : BitVec 12) (p : Chunk → State → Bool) : Bool :=
  bytesB (mspec (mBegin s i) none sp c n need) fun l u => match l with | [x] => p x u | _ => false

/-- Local memory through g3 and g2. -/
def loc3 : MSpec := .loc 3#4 0#19 0x18#5
def loc2 : MSpec := .loc 2#4 0#19 0x18#5

theorem witness_MatrixResults :
    (let cfg : MWord := { okM with a := .absent, b := .absent, d := .reg 1#5, shape := { cols := 31#7, rows := 15#7, fmt := 8#5 } }
    mStartsB (mState (.tcfg cfg) id) (.tcfg cfg) cfg (fun _ => true) &&
    ([MSpec.reg 1#5, .reg 9#5].all fun d =>
      let w : MWord := { okM with d := d, a := .absent, b := .absent }
      mStartsB (mState (.tzero w) id) (.tzero w) w fun _ => true)) = true ∧
    (let w : MWord := { okM with d := .reg 1#5, a := .reg 0#5, b := .absent }
    [0, 17, 8].all fun fmt =>
      let s : State := mState (.ttr w) (shaped 0#3 fmt 16 32)
      mStartsB s (.ttr w) w (fun _ => true) && (decide ((s.me.shape 0#3).fmt = 0) || (blockM fmt).isSome || fmt == 8) && ((blockM 17).isSome)) = true ∧
    (let ld : MWord := { okM with d := .reg 1#5, a := loc3, b := .absent }
    let st : MWord := { okM with d := loc3, a := .reg 1#5, b := .absent }
    let s (i : Instr) : State := mState i (shaped 1#3 8 16 32)
    let n : Nat := ((mBegin (s (.tld ld)) (.tld ld)).me.shape 1#3).bytes
    decide (n = 1024) && fmtMatches loc3 ((mBegin (s (.tld ld)) (.tld ld)).me.shape 1#3) && fmtMatches loc3 ((mBegin (s (.tst st)) (.tst st)).me.shape 1#3) &&
    decide (((mBegin (mState (.tld ld) id) (.tld ld)).me.shape 1#3).fmt = 0) && mStartsB (mState (.tld ld) id) (.tld ld) ld (fun _ => true) &&
    ([false, true].all fun bad =>
      let s : State := if bad then (s (.tld ld)).markPoison [localKey 0 0x1000] else s (.tld ld)
      mStartsB s (.tld ld) ld fun k => mPasses s (.tld ld) loc3 k.a n permLoad fun c u =>
        decide (c.len = n) && ((engSettle u (specAddr none loc3 k.a) [c]).chunksPoisoned [c] == bad)) &&
    (mStartsB (s (.tst st)) (.tst st) st fun k => mPasses (s (.tst st)) (.tst st) loc3 k.d n permStore fun _ _ => true)) = true ∧
    (let ld : MWord := { okM with d := .reg 8#5, a := loc2, b := .absent }
    let st : MWord := { okM with d := loc2, a := .reg 8#5, b := .absent }
    (mStartsB (mState (.accld ld) id) (.accld ld) ld fun k => mPasses (mState (.accld ld) id) (.accld ld) loc2 k.a 65536 permLoad fun c u =>
      decide (c.len = 65536) && !(engSettle u (specAddr none loc2 k.a) [c]).chunksPoisoned [c]) &&
    (mStartsB (mState (.accst st) id) (.accst st) st fun k => mPasses (mState (.accst st) id) (.accst st) loc2 k.d 65536 permStore fun _ _ => true)) = true := by
  decide +kernel

/-- ACCCVT of rows 16 to 31 and columns 64 to 95, with a scale vector in sound memory and without one, and one that starts in
row 96 and ends beyond row 127. -/
theorem witness_MatrixResults_converts :
    ([(4#6, false), (4#6, true), (5#6, false)].all fun x =>
      let w : MWord := { okM with d := .reg 1#5, a := .reg 8#5, b := .absent, cap1 := x.1 }
      let s : State := mState (.acccvt w) fun c => (shaped 1#3 8 (if x.1 = 4#6 then 16 else 33) 32 c).modCtl fun k =>
        { k with mxcfg := if x.2 then 0x8000_0000#32 else 0#32 }
      let s0 : State := mBegin s (.acccvt w)
      mStartsB s (.acccvt w) w fun k =>
        let o : Word64 := k.c1.word
        let y : Shape := s0.me.shape 1#3
        decide (y.fmt ≠ 0 ∧ field o 23 41 = 0 ∧ field o 7 9 = 0) && (s0.me.ctl.mxcfg.getLsbD 31 == x.2) &&
        (if x.1 = 5#6 then decide (128 < field o 16 7 + y.rows) else decide (field o 16 7 + y.rows ≤ 128 ∧ field o 0 7 + y.cols ≤ 128)) &&
        !s0.poisoned (localKey s0.rank (64 * field s0.me.ctl.mxcfg 6 13)) 512) = true := by
  decide +kernel

/-- A core whose tiles 0 and 1 are step operands of 2 and 3 rows, with residue mismatches. -/
def stepping (l : List (BitVec 7)) (c : Core) : Core := { shaped 1#3 9 3 32 (shaped 0#3 8 2 32 c) with residue := l }

theorem witness_MatrixStep :
    (let s (f : Core → Core) : State := mState (.mma okM) f
    ([id, stepping [], stepping [1#7, 2#7]].all fun f => mStartsB (s f) (.mma okM) okM fun _ => true) &&
    !((s id).me.shape 0#3).stepOk && stepTiles (s (stepping [])).me okM && (s (stepping [])).me.residue.isEmpty &&
    ((s (stepping [1#7, 2#7])).me.residue == [1#7, 2#7])) = true ∧
    (let w : MWord := { okM with mask := { enable := true, base := 3#4, off := 0#19 } }
    [0, 5, 3, 16, 12, 9, 6, 10].all fun code =>
      let s : State := (mState (.mmam w) (stepping [])).storeNat (localKey 0 0x1000) 1 code
      let s0 : State := mBegin s (.mmam w)
      stepTiles s0.me w && mStartsB s (.mmam w) w fun k =>
        match mspecAt s0 k.m (maskAddr none w k.m) 64 permLoad true with
        | .ok (t, u) => (match engRead u .m (maskAddr none w k.m) 64 t with
          | .ok (m, v) => let b : Nat := (m.get 0).toNat
            (b == code) && (decide (16 ≤ b ∨ b % 4 = 3 ∨ b / 4 = 3 ∨ b = 0) ||
              okB (maskHalf v k.m (maskAddr none w k.m) 0 (b % 4)) fun h0 => okB (maskHalf h0.2 k.m (maskAddr none w k.m) 1 (b / 4)) fun h1 =>
                h1.2.me.residue.isEmpty)
          | _ => false)
        | _ => false) = true := by
  decide +kernel

/-- An armed nest of one body word, with its body captured or not. -/
def armedNest (body : List BodyWord) (going : Bool) : Nest :=
  { desc := desc 1, words := 1, levels := 1, body := body, index := [0], pos := 0, going := going, sig := 3#4 }

/-- A body word that touches no memory. -/
def body1 : BodyWord := { op := .mma { okM with nb := true }, pc := 8#64, caps := List.replicate 6 GVal.zero }

theorem witness_MatrixNests :
    (let nest (l : List BodyWord) (going : Bool) (c : Core) : Core := { stepping [] c with nestM := some (armedNest l going) }
    let w : MWord := { okM with nb := true }
    let go : MWord := { okM with d := .absent, a := .absent, b := .absent }
    ([okM, w].all fun w => let s : State := mState (.mma w) (nest [] false)
      s.me.mHead.isSome && (s.me.nestM == some (armedNest [] false)) && decide ((armedNest [] false).body.length < (armedNest [] false).words)) &&
    ((mState (.mma w) id).me.mHead.isSome && (mState (.mma w) id).me.nestM.isNone) &&
    (let s : State := mState (.ngo go) (nest [body1] false)
     s.me.mHead.isSome && mTokenDone s.me go.wait s.me.posM &&
     !mTokenDone (s.me.mStarted (.mma { okM with sig := 5#4 }) 0#6 (s.me.posM - 6#32)) 5#4 s.me.posM && decide ((armedNest [body1] false).words ≤ [body1].length)) &&
    mStartsB (mState (.ngo go) id) (.ngo go) go (fun _ => true) && mStartsB (mState (.nwait go) id) (.nwait go) go (fun _ => true) &&
    ([Option.none, some 6#32].all fun ngo => let s : State := mState (.nwait go) fun c => c.mStarted (.mma okM) 1#6 0#32 ngo
      mStartsB s (.nwait go) go (fun _ => true) && (s.me.mwords.any (·.nest) == ngo.isSome)) &&
    (let s : State := mState (.ngo go) (nest [body1] true)
     let n : Nest := armedNest [body1] true
     n.going && (n.body[n.pos]? == some body1) && mReady s (n.place body1) n.disp body1.op body1.caps && okB (mStart s (some n) body1.op body1.caps) (fun _ => true) &&
     (nextIndex n.desc n.index 0).isSome && (nextIndex n.desc [1] 0).isNone && decide (n.words ≤ n.pos + 1)) &&
     (let s : State := mState (.mma okM) (nest [body1] false)
      s.me.mHead.isSome && (s.me.nestM == some (armedNest [body1] false)))) = true := by
  decide +kernel

/-- The places of words of a nest before which its NGO may not complete, and when it may; a running nest whose next word waits,
and one that traps; words at the M walker. -/
theorem witness_MatrixNests_order :
    (let ngo (p : BitVec 32) : MStarted := { sig := 0#4, flags := 0#6, pos := p, nest := true, ngo := some 6#32 }
     let ends (l : List MStarted) : Bool := l.any fun y => (y.ngo == some 6#32) && (y.pos != 6#32)
     let s (l : List MStarted) : State := one fun c => { c with mwords := l }
     let w : MWord := { okM with nb := true }
     let go : MWord := { okM with d := .absent, a := .absent, b := .absent }
     let running (f : Core → Core) : State := mState (.nwait go) fun c => f { stepping [] c with nestM := some (armedNest [body1] true) }
     let n : Nest := armedNest [body1] true
     ((s [ngo 0#32, ngo 6#32]).me.mwords[1]? == some (ngo 6#32)) && ends (s [ngo 0#32, ngo 6#32]).me.mwords && !ends (s [ngo 6#32]).me.mwords &&
     ((s [ngo 0#32, ngo 6#32]).me.mwords[0]? == some (ngo 0#32)) && ((ngo 0#32).ngo != some (ngo 0#32).pos) &&
     !mReady (running fun c => c.mStarted (.mma w) 0#6 0#32) (n.place body1) n.disp body1.op body1.caps &&
     trapB (mStart (running fun c => c.setShape 0#3 0#32) (some n) body1.op body1.caps) 1 && (running id).me.mHead.isSome) = true ∧
    (let cfg : MWord := { okM with a := .absent, b := .absent, d := .reg 1#5, shape := { cols := 31#7, rows := 15#7, fmt := 8#5 } }
     let zero : MWord := { okM with d := .reg 9#5, a := .absent, b := .absent }
     let go : MWord := { okM with d := .absent, a := .absent, b := .absent }
     [(Instr.mma okM, okM), (.tcfg cfg, cfg), (.tzero zero, zero), (.ngo go, go), (.nwait go, go)].all fun x =>
       let s : State := mState x.1 (stepping [])
       ((wordAt s .m).bind (fun w => (decodeWord w).toOption) == some x.1) && mStartsB s x.1 x.2 (fun _ => true) &&
       okB (mStart s none x.1 (s.me.mHead.getD [])) fun _ => true) = true := by
  decide +kernel

/-- MMA of FP32 ones: row 0 of tile 0 and row 1 of tile 1 hold 1.0 in column 0, so the accumulator takes 1.0 in row 0, column 1
(11_matrix.md R347). -/
theorem test_mma :
    (let s : State := mState (.mma okM) fun c =>
      (((shaped 1#3 8 2 32 (shaped 0#3 8 2 32 c)).wtile 0#3 (Mem.write [] 0 (leBytes 2 0x3C00))).wtile 1#3 (Mem.write [] 64 (leBytes 2 0x3C00)))
    goesB (exec (.mma okM) s) fun t => (t.me.racc 0#1).readNat 4 4 == 0x3F800000 && (t.me.racc 0#1).readNat 0 4 == 0) = true := by decide +kernel

/-! Data words. -/

/-- The registers of a D word: local memory in g2 and g3, a length in g4, a barrier in g6, a shadow handle in g7, a mailbox
counter in g8, an index list in g9, and a length beyond the limit in g10, an address
without a page in g5. -/
def dRegs : List (GIdx × GVal) :=
  [(2#6, own 0x2000), (3#6, own 0x1000), (4#6, .ofWord 64#64), (6#6, own 0x400), (7#6, own 0x800), (8#6, capAt (0xE * 2 ^ 52) (2 ^ 20) (0xE * 2 ^ 52)),
   (9#6, own 0x1800), (10#6, .ofWord (1#64 <<< 32)), (11#6, .ofWord 1#64),
   (12#6, .ofWord 128#64), (5#6, capAt 0 (2 ^ 47) (2 ^ 46))]

/-- A placed D word, captured at the D walker, on a core that stands as given. -/
def dState (i : Instr) (f : Core → Core) : State := ((one (regs dRegs)).withFetchWord 96 (wordOf i)).modMe f

/-- A copy of 64 bytes within the own memory that credits a barrier. -/
def copy64 : DWord := { okD with cap1 := 4#6, cap2 := 6#6, d := loc2, s := loc3 }

/-- A word of every kind that queues, with its operands. -/
def dWords : List (Instr × DWord) :=
  let red : DWord := { copy64 with d := .loc 2#4 0#19 10#5, s := .loc 3#4 0#19 10#5 }
  let idx : DWord := { copy64 with cap1 := 11#6, cap2 := 9#6 }
  let mb : DWord := { copy64 with cap2 := 8#6 }
  let none_ : DWord := { okD with d := .absent, s := .absent }
  [(.dcpy copy64, copy64), (.dredAdd red, red), (.dredMax red, red), (.dredMin red, red), (.dgth idx, idx), (.dsct idx, idx), (.dgetMb mb, mb),
   (.dgetEv { copy64 with cap2 := 0#6 }, { copy64 with cap2 := 0#6 }), (.dput copy64, copy64), (.dputF copy64, copy64),
   (.dpub { none_ with cap1 := 7#6 }, { none_ with cap1 := 7#6 }), (.dstamp copy64, copy64), (.dsig { none_ with cap1 := 8#6 }, { none_ with cap1 := 8#6 }),
   (.kvwr { copy64 with cap1 := 0#6, cap2 := 0#6, d := .absent }, { copy64 with cap1 := 0#6, cap2 := 0#6, d := .absent })]

/-- An armed D nest. -/
def nestOf1 (c : Core) : Core := { c with nestD := some { desc := desc 1, words := 1, levels := 1, body := [], index := [0], pos := 0, going := false, sig := 0#4 } }

/-- A queued copy. -/
def queued (l : List GVal) : DCmd :=
  { op := .dcpy copy64, pc := 0#64, pos := 0#32, caps := l, dispD := 0, dispS := 0, num := 0#16, phase := .queued, done := 0, flags := 0#6 }

/-- A full command queue. -/
def fullQueue (c : Core) : Core := { c with dq := List.replicate 16 (queued []) }

/-- Whether a D word stands captured, with a property of its captured values. -/
def dCapB (s : State) (p : List GVal → Bool) : Bool := match s.me.engCaptured .d with | some l => p l | none => false

/-- Every word that queues with every check passed, outside a nest and as a body word; a failing check; a full queue; a wrong
mark; and a shadow handle of a buffer of 4,096 bytes. -/
theorem witness_DataIssueAndWalker_issue :
    (dWords.all fun x =>
      ([id, nestOf1].all fun f => let s : State := dState x.1 f
        dCapB s fun l => decide (s.me.dq.length < 16) && (dChecks s s.me.nestD x.1 l).all (·.isNone)) &&
      (dCapB (dState x.1 fullQueue) fun _ => decide (16 ≤ (dState x.1 fullQueue).me.dq.length)) && (x.2.nb != (dState x.1 nestOf1).me.nestD.isSome) &&
      (x.2.nb == (dState x.1 id).me.nestD.isSome)) = true ∧
    (let w : DWord := { copy64 with cap1 := 10#6 }
     dCapB (dState (.dcpy w) id) fun l => (dChecks (dState (.dcpy w) id) none (.dcpy w) l).any (·.isSome)) = true ∧
    (let w : DWord := { copy64 with d := .cap 7#6 0#19 0x18#5 }
     let s : State := (dState (.dshd w) id).storeNat (localKey 0 0x800) 16 (4096 * 2 ^ 64)
     let s : State := { (s.storeNat (localKey 0 0x820) 16 (own 0x3000).bits.toNat) with ctags := [localKey 0 0x820 / 16] }
     dCapB s fun l => let k : Caps := capsOf (dFields w) l
       let n : Nat := k.c1.word.toNat
       let others : Option (Nat × Word64) := Checks.worst [lenFail n, copyLen w.s.format w.d.format n,
         dspec s s.me.nestD w.s k.a n permLoad (elemAlign w.s.format), barFail s w k.c2]
       others.isNone && [(s, true), (s.storeNat (localKey 0 0x800) 16 0, false)].all fun y =>
         bytesB (resolve y.1 .d k.d.word 64 permLoad) fun h _ =>
           let z := shadowBuf (engSettle y.1 k.d.word h) y.1.me.nestD w k.d (copyBytes w.s.format w.d.format n) (elemAlign w.d.format)
           (z.1.isNone == y.2) && (!y.2 || z.2.1.word == (own 0x3000).word) && ((worseTrap (others.map fun f => mkTrap .d f.1 f.2) z.1).isSome == !y.2)) = true ∧
    (let w : DWord := { copy64 with cap1 := 10#6, d := .cap 7#6 0#19 0x18#5 }
     let s : State := dState (.dshd w) id
     dCapB s fun l => let k : Caps := capsOf (dFields w) l
       let n : Nat := k.c1.word.toNat
       (Checks.worst [lenFail n, copyLen w.s.format w.d.format n, dspec s s.me.nestD w.s k.a n permLoad (elemAlign w.s.format), barFail s w k.c2]).isSome) = true := by
  decide +kernel

/-- A descriptor of a stream of 8 strips of g2's memory, and one of a channel, at g3. -/
def strmAt (chan : Bool) (s : State) : State :=
  if chan then s.storeNat (localKey 0 0x1000) 12 (0x302 + 0x2000 * 2 ^ 64)
  else
    let t : State := (s.storeNat (localKey 0 0x1000) 24 (0x101 + 8 * 2 ^ 64 + 128 * 2 ^ 160)).storeNat (localKey 0 0x1020) 16 (own 0x2000).bits.toNat
    { t with ctags := [localKey 0 0x1020 / 16] }

theorem witness_DataIssueAndWalker_walker :
    (let w : DWord := { okD with cap1 := 0#6, d := .absent, s := .absent }
     let v : DWord := { w with d := .reg 24#5 }
     let d : DWord := { v with s := loc3 }
     let plain (s : State) (w : DWord) (empty : Bool) : Bool :=
       dCapB s (fun _ => s.me.nestD.isNone && !w.nb && dTokenDone s.me s.me.dq w.wait s.me.posD && (s.me.dq.isEmpty == empty))
     let tok (c : Core) : Core := { c with dq := [{ queued [] with op := .dcpy { copy64 with sig := 3#4 }, pos := c.posD - 3#32 }] }
     plain (dState (.dwaitAll w) id) w true && plain (dState (.dwaitAll w) fun c => { c with dq := [queued []] }) w false &&
     (dCapB (dState (.dwaitTok { w with wait := 3#4 }) tok) fun _ => 
       let c : Core := (dState (.dwaitTok { w with wait := 3#4 }) tok).me
       !dTokenDone c c.dq 3#4 c.posD) && (dCapB (dState (.dwaitAll w) nestOf1) fun _ => true) &&
     (let behind (c : Core) : Core := { c with capV := [.vals [] (some (.vadd { okV with d := .vreg 24#5 })) (c.posD - 3#32)] }
      plain (dState (.dunb v) id) v true && ([Instr.dunb v, .dstrm d].all fun i =>
        let c (f : Core → Core) : Core := (dState i f).me
        !vNaming (c id) 24#5 (c id).posD && vNaming (c behind) 24#5 (c behind).posD)) &&
     (let s : State := dState (.dstrm d) fun c =>
        { c with capM := [.vals [own 0x1000] (some (.accst { okM with d := loc3, a := .reg 8#5, b := .absent })) (c.posD - 6#32)] }
      dCapB s fun l => !admits s .d s.me.posD (cmdTouch s (newCmd 0#12 s.me (.dstrm d) l))) &&
     ([some false, some true, none].all fun kind =>
       let s0 : State := dState (.dstrm d) id
       let s : State := match kind with | some b => strmAt b s0 | none => s0
       plain s d true && dCapB s fun l =>
         let k : Caps := capsOf (dFields d) l
         let x : Word64 := specAddr none d.s k.a
         let b : State := settleTouches s (touchAt s x 64 false)
         let key : Nat := localKey b.rank (coordOff x)
         let e : List Byte := b.mem.read key 64
         admits s .d s.me.posD (cmdTouch s (newCmd 0#12 s.me (.dstrm d) l)) && (dspecAt b k.a x 64 (permLoad ||| permLoadCap) 64 true).isNone && !b.poisoned key 64 && (strmOk e == (kind == some false)) &&
         (chanOk e == (kind == some true)) && (kind != some false || (strmFail e (b.loadUnit (key + 32))).isNone))) = true := by
  decide +kernel

/-- LPBK behind a copy that has not started. -/
theorem witness_AtomicsAndFences_loopback :
    (let s : State := (dState (.dcpy copy64) id).modMe fun c => { c with dq := [queued ((dFields copy64).map c.rg)], posS := c.posD + 3#32 }
     !(vPending s s.me.posS ++ mPending s s.me.posS ++ dPending s s.me.posS).isEmpty) = true := by decide +kernel

/-- The queue of a command, whose operands are those of its word. -/
def withCmd (i : Instr) (w : DWord) (ph : DPhase) (pos : BitVec 32 → BitVec 32) : State :=
  (dState i id).modMe fun c => { c with dq := [{ queued ((dFields w).map c.rg) with op := i, phase := ph, pos := pos c.posD }] }

/-- Whether the first command of the queue may start, with a property of it and of the state in which it does. -/
def cmdB (s : State) (p : State → DCmd → Bool) : Bool :=
  match s.me.dq[0]? with
  | some q => (q.phase == .queued) && startReady s 0 q && p (settleTouches s (cmdTouch s q)) q
  | none => false

/-- Commands of every kind; copies of no unit, one and two, over themselves, and of a page that is not there; a queue with four
that move; a copy in local memory, and a handle. -/
theorem witness_DataTransfersAndReductions_transfers :
    (dWords.all fun x => cmdB (withCmd x.1 x.2 .queued id) fun _ _ => true) = true ∧
    (let one (w : DWord) : State := withCmd (.dcpy w) w .queued id
     let away : MSpec := .cap 5#6 0#19 0x18#5
     ([(0#6, 0), (4#6, 1), (12#6, 2)].all fun x => cmdB (one { copy64 with cap1 := x.1 }) fun s q =>
       !cmdOverlaps s q && decide (cmdUnits q = x.2 ∧ q.done = 0) && !s.lazy && !isRed q.op &&
       (x.2 == 0 || okB (cmdUnit s { q with whole := false } 0) fun r =>
         x.2 == 1 || okB (cmdUnit r.1 { q with whole := false, done := 1, flags := q.flags ||| r.2 } 1) fun _ => true)) &&
     (cmdB (one { copy64 with s := away }) fun s q => !cmdOverlaps s q && trapB (cmdUnit s { q with whole := false } 0) 6) &&
     (cmdB (one { copy64 with s := .loc 2#4 0x20#19 0x18#5 }) fun s q => cmdOverlaps s q && okB (cmdWhole s { q with whole := true }) fun _ => true) &&
     (cmdB (one { copy64 with s := away, d := .cap 5#6 0x20#19 0x18#5 }) fun s q => cmdOverlaps s q && trapB (cmdWhole s { q with whole := true }) 6)) = true ∧
    (let four : State := (dState (.dcpy copy64) id).modMe fun c => { c with dq := List.replicate 4 { queued [] with phase := .moving } ++ [queued []] }
     (match four.me.dq[4]? with | some q => !startReady four 4 q && ((List.range 4).all fun j => four.me.dq[j]? != some q) | none => false) &&
     ((withCmd (.dcpy copy64) copy64 .moved id).me.dq.all fun y => y.phase != .queued)) = true ∧
    (let s : State := dState (.dcpy copy64) id
     (match resolve s .d (own 0x1000).word 64 permLoad with
      | .ok (.bytes [a], u) =>
        let v : State := engSettle u (own 0x1000).word [a]
        (match resolve v .d (own 0x2000).word 64 permStore with
         | .ok (.bytes [b], z) => decide (a.len = 64 ∧ b.len = 64) && (b.far (engSettle z (own 0x2000).word [b]).rank).isNone
         | _ => false)
      | _ => false) &&
     ([(s, 0, false), (s.storeNat (localKey 0 0x800) 4 20, 5, false), (s.markPoison [localKey 0 0x804], 0, true)].all fun x =>
       match resolve (releaseAll_ x.1) .d (own 0x800).word 64 (permLoad ||| permStore) with
       | .ok (.bytes [h], u) => decide (u.mem.readNat h.key 4 / 4 % 8 = x.2.1) && (u.poisoned h.key 8 == x.2.2)
       | _ => false)) = true := by
  decide +kernel

/-- Commands that move in later steps: a reduction, one over its own source, a copy while accesses wait, and a KVWR that reads and one
that traps; commands that may end and that may not. -/
theorem witness_DataTransfersAndReductions_later :
    (let lazily (s : State) : State := { s with lazy := true }
     let red (o : Nat) : DWord := { copy64 with d := .loc 2#4 0#19 10#5, s := .loc 2#4 (BitVec.ofNat 19 o) 10#5 }
     let kvw : DWord := { copy64 with cap1 := 0#6, cap2 := 0#6, d := .absent }
     let kv (k : KvStage) (p : Res (Option DCmd × State) → Bool) : Bool :=
       cmdB ((lazily (withCmd (.kvwr kvw) kvw .queued id)).modMe fun c => { c with dq := c.dq.map fun q => { q with kv := k } }) fun s q => s.lazy && p (kvUnit s 0 q kvw)
     let idx : DWord := { copy64 with cap1 := 11#6, cap2 := 9#6 }
     (cmdB (withCmd (.dredAdd (red 0x40)) (red 0x40) .queued id) fun s q => !cmdOverlaps s q && isRed q.op && !s.lazy) &&
     (cmdB (withCmd (.dredAdd (red 0x20)) (red 0x20) .queued id) fun s q => cmdOverlaps s q &&
       okB (dRead s (cmdOps q (red 0x20)).sx (cmdOps q (red 0x20)).n) fun _ => true) &&
     (cmdB (lazily (withCmd (.dcpy copy64) copy64 .queued id)) fun s q => !cmdOverlaps s q && s.lazy) &&
     kv .read (fun x => okB x fun y => y.1.isSome) && kv .decide (fun x => trapB x 7) &&
     (let s : State := withCmd (.dsct idx) idx .moved id
      let t : State := { s with net := [{ src := 0, dst := 0, ev := .postedStoreArrive { dst := 0#12, off := 0x2000#19, bytes := [7#8], tag := false }, pid := 1 }] }
      match s.me.dq[0]? with
      | some q => (q.phase == .moved) && cmdMayEnd s 0 q && (t.me.dq[0]? == some q) && !cmdMayEnd t 0 q && ((withCmd (.dcpy copy64) copy64 .moving id).me.dq.all fun y => y.phase != .moved)
      | none => false)) = true := by
  decide +kernel

/-- A reduction's records at core 0, n of other commands and the own one with units, if there is one. -/
def recs (n : Nat) (own : Option (List Nat)) (s : State) : State :=
  s.modMe fun c => { c with applied := ((List.range n).map fun i => { id := { pkg := 0#18, core := 5#12, num := BitVec.ofNat 32 i }, low := 0, above := [] }) ++
    (match own with | some l => [{ id := redId s (queued []), low := 0, above := l }] | none => []) }

theorem witness_DataTransfersAndReductions_reductions :
    (let w : DWord := { copy64 with d := .loc 2#4 0#19 10#5, s := .loc 3#4 0#19 10#5 }
    let e : Nat := elemBytes w.d.format
    let q : DCmd := { queued [] with op := .dredAdd w }
    [(64, none), (0, none), (5, some [0]), (63, some [1])].all fun x =>
      let s : State := recs x.1 x.2 (withCmd (.dredAdd w) w .moving id)
      decide (0 < e ∧ 64 % e = 0) &&
      (match resolve s .d (own 0x1000).word 64 permLoad, resolve s .d (own 0x2000).word 64 (permLoad ||| permStore) with
       | .ok (.bytes [a], u), .ok (.bytes [b], z) =>
         let v : State := engSettle u (own 0x1000).word [a]
         let y : State := engSettle z (own 0x2000).word [b]
         let l : List Applied := y.appliedAt b.key
         okB (redSource s q (own 0x1000).word 0 64) (fun r => r.2 == v) &&
         okB (redSource s { q with taken := some ([], [64]) } (own 0x1000).word 0 64) (fun _ => true) &&
         (v == s) && (y == s) && decide (a.len = 64 ∧ b.len = 64) && !v.chunksPoisoned [a] && !y.chunksPoisoned [b] &&
         (s.markPoison [b.key]).chunksPoisoned [b] && (l.all fun r => l.all fun z => r.id != z.id || r == z) && (l.any (fun r => r.id == redId s q) == x.2.isSome) &&
         (l.any (fun r => r.id == redId s q && r.has 0) == (x.2 == some [0])) && (decide (64 ≤ l.length) == decide (64 ≤ x.1 + x.2.toList.length))
       | _, _ => false) &&
      (match s.me.dq[0]? with | some q => (q.op == .dredAdd w) && (q.phase == .moving) && s.me.dq[1]?.isNone && okB (redStep s 0 q w) (fun _ => true) | none => false)) =
      true := by
  decide +kernel

/-- DCPY moves the bytes of its source (12_copy.md R369). -/
theorem test_dcpy :
    goesB (exec .dCommandStart ((withCmd (.dcpy copy64) copy64 .queued id).storeNat (localKey 0 0x1010) 8 0x1122334455667788)) (fun t =>
      t.mem.readNat (localKey 0 0x2010) 8 == 0x1122334455667788) = true := by decide +kernel

/-! Kettle words and events. -/

/-- Kettle core 0 of the machine, changed. -/
def ket (l : List (Nat × Fut)) (f : Kettle → Kettle) : State :=
  let s : State := { fut l true id with cur := .kettle }
  s.setKettle (f { Kettle.reset with level := .hs, pc := 0x100#64, kring := 0xFF#64 })

/-- A held call of entry 5 with a reply window of 64 bytes. -/
def kheld : KHold :=
  { entry := 5, handle := BitVec.ofNat 32 (futHandle 5 (fut1 1 none)), ring := 3#6
    wins := [{ base := probePa + 0x9000, len := 64, rd := true, wr := true, ex := false }], recAddr := 0#48, replywin := 0#4 }

theorem witness_KettleResults :
    (let f : Fut := { fut1 1 none with ring := 3#16 }
    let s : State := ket [(5, f)] id
    let h : State := ket [(5, f)] fun k => { k with hold := some kheld }
    (s.kettle.level == .hs) && s.kettle.hold.isNone && ((ket [] fun k => { k with level := .u }).kettle.level == .u) &&
    ((ket [] fun k => { k with level := .m }).kettle.level == .m) && (scanRings (ket [] id) 0xFF#64 63#6).isNone &&
    (scanRings s s.kettle.kring s.kettle.lastRing == some (5, f)) && (h.kettle.hold == some kheld) &&
    (((kheld.wins[kheld.replywin.toNat]?).map (·.len)).getD 0 == 64) && decide (64 < 4 * 17 ∧ 4 * 16 ≤ 64) && (f.state == 1#3) &&
    (futHandle 5 (h.futAt 5) == kheld.handle.toNat) && ((ket [(5, fut1 2 none)] fun k => { k with hold := some kheld }).futAt 5).state != 1#3) = true ∧
    (let acc (kind : AccessKind) (a n : Nat) : KAccess := { kind := kind, addr := 0x50#64, pa := a, n := n, data := leBytes n 7, rd := 3#5 }
    let s (on : Bool) (f : Nat) : State := ket [(5, fut1 f none)] fun k => { k with hold := some kheld, on := on, level := .u, kcode := BitVec.ofNat 64 (probePa + 0x100), kcodelen := 64#64 }
    let granted (a : KAccess) : Bool := (List.range a.n).all fun i => (s true 1).kettle.byteOk a.kind (a.pa + i)
    let there (a : KAccess) : Bool := (List.range a.n).all fun i => ((s true 1).row (a.pa + i)).isSome
    let w : Nat := 7 * 2 ^ 14 + 5
    (s true 1).kettle.tested && !(s false 1).kettle.tested && ([acc .load (probePa + 0x9000) 8, acc .store (probePa + 0x9038) 8, acc .fetch (probePa + 0x13C) 4].all fun a =>
      granted a && there a) && !granted (acc .load (probePa + 0x9039) 8) && !there (acc .load (2 ^ 46) 1) &&
    ((s true 1).kettle.hold.map (·.entry) == some 5) && ([(1, w, 0), (2, w, 2), (0, w, 2), (1, w + 2 ^ 14, 1)].all fun x =>
      swapCode (s true x.1) 5 (BitVec.ofNat 32 x.2.1) == x.2.2) &&
    (swapCode (ket [(5, fut1 1 none)] id) 5 (BitVec.ofNat 32 w) == 3) &&
    (swapCode (ket [(5, fut1 1 none)] fun k => { k with hold := some { kheld with entry := 6 } }) 5 (BitVec.ofNat 32 w) == 3) &&
    (swapCode (ket [(5, { fut1 1 none with gen := 8#18 })] fun k => { k with hold := some kheld }) 5 (BitVec.ofNat 32 (w + 2 ^ 14)) == 3) &&
    (kheld.handle.toNat == 5 + w / 2 ^ 14 * 2 ^ 14) && (kheld.handle.toNat != 5 + (w + 2 ^ 14) / 2 ^ 14 * 2 ^ 14) &&
    ((s true 1).kettle.hold.map (·.entry) != some 6) &&
    (futHandle 5 ((ket [(5, { fut1 1 none with gen := 8#18 })] id).futAt 5) != kheld.handle.toNat)) = true := by
  decide +kernel

/-! Events of a core and of its interface. -/

/-- A partition with one free frame in its pool. -/
def poolPart : Part :=
  { probePart with pool := { ring := some (probePa + 0x20000, 4), head := 0, free := 1, inUse := 0, refused := 0#16 } }

/-- A BARTWAIT of core 0 whose limit is over. -/
def late : WaitReq := { src := 0, frame := none, op := .bartwait 5#6 0#32, off := 64, deadline := some 0 }

theorem witness_ArrivalsAndWaitLimits :
    (let piece (k : Nat) : Nat × List Byte := (localKey 0 k, leBytes 8 7)
    let l : PendingLoad := { d := 5#6, parts := [piece 64] }
    let b : Buffered := { pieces := [piece 64] }
    let k (va : Word64) : Walk := { va := va, kind := .load }
    let x (va : Word64) : MissWait := { core := 0, walk := k va }
    let m (va : Word64) : Miss := { pid := 1, page := 4, waits := [x va] }
    let s : State := one fun c => { c with loads := [l], stores := [b, { pieces := [piece 128, piece 64] }] }
    let u (va : Word64) : State := { s with mmus := [(0, { Mmu.reset with misses := [m va] })] }
    let swap : PendingLoad := { l with amo := some (0, 1#64, 0#64) }
    (s.me.loads == [l]) && loadMay s.me 0 && !s.loadHeld s.rank l && l.upd.isNone && l.amo.isNone && !loadMay (one fun c => { c with loads := [l, l] }).me 1 &&
    (fromTransit s).loadHeld 0 { l with parts := [(localKey 1 64, [0#8])] } && ((one fun c => { c with loads := [swap] }).me.stores.isEmpty) &&
    ((piece 64).2.length == 8) && !s.poisoned (localKey 0 64) 8 && l.waits.isEmpty && ({ l with parts := [piece 64, piece 72] }.parts == [piece 64, piece 72]) &&
    (s.me.stores[0]? == some b) && storeMay s.me.stores 0 && storeMay s.me.stores 1 && !storeMay [b, b] 1 && s.me.blocked.isNone && (one id).me.loads.isEmpty &&
    (one id).me.stores.isEmpty && ((u 0x40#64).mmuAt (clusterOf 0)).misses == [m 0x40#64] && ((one id).mmuAt (clusterOf 0)).misses.isEmpty &&
    (walkEnd s s.rank (k 0x40#64) == .found) && (walkEnd s s.rank (k (1#64 <<< 46)) == .absent)) = true ∧
    (let at_ (e : BitVec 32) : State := { one id with ranks := [(0, e)] }
    let r (pid : Nat) (q : PkgReq) : RemoteAccess := { pid := pid, srcPkg := 3#18, srcCore := 9#12, core := 0#12, req := q }
    let has (s : State) (q : Nat) : Bool := decide (q < 4096) && (field (s.rankAt (ifaceOf q) q) 31 1 == 1) && (field (s.rankAt (ifaceOf q) q) 16 10 == 1)
    let moves (s : State) (q : Nat) : Bool := field (s.rankAt (ifaceOf q) q) 30 1 == 1
    ([PkgReq.load 0x7FFF8#19 8, .store 0#19 [7#8] [] [], .amo 0#19 0 1#64 0#64].all fun q => (reqCores (r 1 q) == [0]) && (reqCores (r 1 q)).all (has (one id)) && !moves (one id) 0) &&
    (reqCores (r 1 (.load 0x7FFF8#19 16)) == [0, 1]) && (reqCores (r 1 (.load 0x7FFF8#19 16))).all (has (fromTransit (one id))) && moves (fromTransit (one id)) 1 &&
    !(reqCores (r 1 (.load 0x7FFF8#19 16))).all (has (at_ 0x8001_0000#32)) &&
    let own (s : State) : BitVec 32 := s.rankAt (ifaceOf s.rank) s.rank
    (field (own (at_ 0x8001_0000#32)) 30 1 == 0) && (field (own (at_ 0xC001_0000#32)) 30 1 == 1) && (field (own (at_ 0x8001_0000#32)) 31 1 == 1) &&
    ([PkgReq.load 0x7FFF8#19 8, .amo 0#19 0 1#64 0#64].all reqAnswered) && !reqAnswered (.store 0#19 [7#8] [] []) &&
    (field (own (at_ 0x8001_0000#32)) 16 10 == (r 1 .abandon).pid) && (field (own (at_ 0x8001_0000#32)) 16 10 != (r 2 .abandon).pid) &&
    !(at_ 0x8001_0000#32).poisoned (localKey 0 0) 8) = true ∧
    (let held (t : Nat) (c : Core) : Core := { c with held := [{ arr := arrivalAt 64 .putf, until_ := t }] }
    let again (l : List Resend) (c : Core) : Core := { c with resend := l }
    let waits (c : Core) : Core := { c with waitq := [late] }
    let b : Blocked := { op := .take 5#6, since := 0, deadline := none }
    let parks (f : Core → Core) : State := { one (f ∘ busy) with parts := [poolPart], cycle := 5000 }
    ((one (held 0)).me.held.filter (fun h => decide (h.until_ ≤ (one id).cycle))).length == 1 &&
    ((one (held 9)).me.held.all fun h => decide ((one id).cycle < h.until_)) &&
    (let a : Arrival := arrivalAt 64 .dputf
     let u : State := one fun c => { c with held := [{ arr := a, until_ := 0 }, { arr := arrivalAt 128 .dputf, until_ := 9 }] }
     ((u.me.held.filter fun y => decide (y.until_ ≤ u.cycle)).length == 1) &&
     (nextPut (overrun ((one (held 0)).modMe fun c => { c with held := [] }) (arrivalAt 64 .putf)).me (arrivalAt 64 .putf)).isNone &&
     (nextPut (overrun (u.modMe fun c => { c with held := c.held.drop 1 }) a).me a).isSome) &&
    ([0, 1].all fun n => barBad (if n == 0 then pair id waits else (pair id waits).markPoison [localKey 1 64]) 1 64 == (n == 1)) &&
    (firstWait (one (again [.wait 1 late])) (one (again [.wait 1 late])).me == some (1, late)) && (firstWait (one id) (one id).me).isNone &&
    (firstResend (one (again [.push 1 rec1])) (one (again [.push 1 rec1])).me == some (1, rec1)) && (firstResend (one id) (one id).me).isNone &&
    (lateBarAt (pair id waits) 0 == some (1, late)) && ([(1, false), (0, true)].all fun x =>
      (BitVec.ofNat 32 (((pair id waits).storeNat (localKey 1 64) 4 x.1).mem.readNat (localKey 1 late.off) 4) == 0#32) == x.2) &&
    ((one id).cores.all fun c => c.2.waitq.isEmpty && c.2.resend.isEmpty) && !lateBar (one id) 0 { late with deadline := some 1 } &&
    parkDue (parks fun c => { c with blocked := some b }) 0 && !parkDue (parks id) 0 && !vParkDue (parks id) 0 &&
    vParkDue (parks fun c => { c with vwait := some 0 }) 0) = true := by
  decide +kernel

/-- A machine whose page 2^16 of partition 1 is a page of the host's memory, owned by the module, with a flip under way or
none. -/
def hostPage (flip : Option Flip) : State :=
  let s : State := ((({ State.reset with mem := [] }.storeNat 0x10000 8 0x20001).storeNat 0x20000 8 0x30001).storeNat 0x30008 8 0x1000_0000_0003)
  { s with parts := [{ probePart with flip := flip }], hostCxl := true, hostSize := 0x100000 }

theorem witness_LimitsFlipsAndDebug :
    (let ran (c : Core) : Core := busy (c.modCtl fun k => { k with spdist := BitVec.ofNat 32 (2 ^ 14 + 2 ^ 14 * 2 ^ 16) })
    let at_ : Hold := .ownTransit 0x40#64
    let stalls (c : Core) : Core := { c with hold := some (at_, 0) }
    let late (s : State) (y : Hold × Nat) : Bool := (y.1 == at_) && decide (y.2 + s.me.ctl.ownwait.toNat ≤ s.cycle)
    let owes (c : Core) : Core := { c with group := .gangLead [1], owed := 65536 }
    let f : Flip := { leaf := 0x30008, va := 0x10000, host := true }
    let tree (e n : Nat) : State := ((hostPage none).storeNat 0x30008 8 e).storeNat 0x20000 8 n
    let none? (s : State) : Bool := (findLeaf s 0x10000 walkLevels (field probePart.ptroot 16 32 * 2 ^ 16)).isNone
    (one ran).me.overrunDue && !(one ran).me.follows && (one ran).me.pendTrap.isNone && !(one ran).me.killed && !(one id).me.overrunDue && (one owes).me.watchdogDue && !(one id).me.watchdogDue && !(one owes).gangMaxx 0 &&
    (let m (c : Core) : Core := { owes c with maxx := some { op := .vmaxx okV, caps := [], round := 0#8, waited := 0 } }; (one m).me.watchdogDue && (one m).gangMaxx 0) &&
    ([Engine.v, .d].all fun w => let s : State := { one fun c => { c with stalls := [(.m, at_, 9), (w, at_, 0)] } with cycle := 4096 }
      s.me.pendTrap.isNone && s.me.hold.isNone && !late s (at_, 9) && late s (at_, 0)) &&
    (let s : State := { one stalls with cycle := 4096 }; s.me.pendTrap.isNone && (s.me.hold == some (at_, 0)) && late s (at_, 0)) &&
    ((one fun c => { stalls c with pendTrap := some (mkTrap .v 0x06 0#64) }).me.pendTrap.isSome) && !late (one stalls) (at_, 0) &&
    (one id).me.stalls.isEmpty && none? (tree 0 0) &&
    (match findLeaf (tree 0x1000_0000_0003 0x1000_0000_0003) 0x10000 walkLevels (field probePart.ptroot 16 32 * 2 ^ 16) with | some (_, _, n) => n != 16 | none => false) &&
    (match findLeaf (tree 0x100_0000_0003 0x30001) 0x10000 walkLevels (field probePart.ptroot 16 32 * 2 ^ 16) with
     | some (_, e, n) => (n == 16) && ((tree 0 0).row (field e 16 32 * 2 ^ 16) != some .host) | none => false) &&
    (match findLeaf (tree (0x1000_0000_0003 + 2 ^ 60) 0x30001) 0x10000 walkLevels (field probePart.ptroot 16 32 * 2 ^ 16) with
     | some (_, e, n) => (n == 16) && ((tree 0 0).row (field e 16 32 * 2 ^ 16) == some .host) && e.getLsbD 60 | none => false) &&
    ((one stalls).me.ctl.ownwait.toNat == 4096) && ((one id).me.hold == none) &&
    ((hostPage none).part? 1).isSome && (((hostPage (some f)).part? 1).map (·.flip) == some (some f)) &&
    (match findLeaf (hostPage none) 0x10000 walkLevels (field probePart.ptroot 16 32 * 2 ^ 16) with
     | some (key, e, 16) => (key == 0x30008) && ((hostPage none).row (field e 16 32 * 2 ^ 16) == some .host) && !e.getLsbD 60
     | _ => false) && (flipping (hostPage none)).isNone && (flipping (hostPage (some f)) == some 1)) = true ∧
    (let c : Core := (one id).me
    c.halt.isNone && (c.group == .single) && c.loads.isEmpty && c.blocked.isNone && !c.stepping &&
    ((one fun c => { c with halt := some 1#4 }).me.halt == some 1#4) && ((one fun c => { c with halt := some 5#4 }).me.halt == some 5#4) &&
    c.maxx.isNone && (one fun c => { c with stepping := true }).me.stepping && ((BitVec.ofNat 14 (frG + 16 * 63)).toNat == frG + 16 * 63) &&
    ([frG + 16 * 63 + 8, frP + 16 * 7 + 8, frV + 128 * 31 + 8 * 15, frLatch + 144 * 19].all fun n => (BitVec.ofNat 14 n).toNat == n) &&
    (field (18#64 <<< 16) 16 8 == 18) && (field (19#64 <<< 16) 16 8 == 19) && decide (0 < frP ∧ frLatch + 144 * 19 ≠ 0)) = true := by
  decide +kernel

theorem witness_WindowEvents :
    (let s (f : Part → Part) : State := { one id with parts := [f probePart] }
    let pool (free : Nat) (p : Part) : Part :=
      { p with pool := { p.pool with ring := some (probePa, 4), free := free }, ranges := [{ base := probePa, len := 2 ^ 24, perm := 0xFFF#12 }] }
    let r (x : ToolRing) : State := { one id with rings := [(3, x)] }
    let x : ToolRing := { ToolRing.reset with valid := true, pid := 1 }
    ([1, 2, 3].all fun n => let z : State := (ctx1 id).store (probePa + 0x1080) (ctxBytes n 0 0 3 1)
      (z.part? z.me.pid == some ctxPart) && ctxOf ctxPart 1#16 && !ctxOf ctxPart 3#16 &&
      (match ctxEntry z ctxPart 1#16 .store with | (some k, u) => u.mem.readNat k 1 % 8 == n | _ => false) &&
      (ctxEntry z { ctxPart with ctxbase := BitVec.ofNat 64 (2 ^ 46) } 1#16 .store).1.isNone) &&
    ((s id).part? (s id).me.pid == some probePart) && ((r { x with pid := 2 }).ringAt 3 == { x with pid := 2 }) &&
    ((r { x with used := [(0, 5)] }).ringAt 3).used != [] && ((r x).ringAt 3 == x) && !((s id).ringAt 3).valid && ((s id).ringAt 3).used.isEmpty &&
    (let p : Part := pool 1 probePart
     decide (p.pool.free < 2 ^ 4) && frameFits (s (pool 1)) p (probePa + 0x4000) && decide (¬16 < 2 ^ 4)) &&
    (takeFrame (s id) 1).isNone && (takeFrame (s (pool 1)) 1).isSome &&
    decide (16 ≤ (16 + 65536 - 0) % 65536 ∧ (15 + 65536 - 0) % 65536 < 16) && ((sqRing probePart.sq).2.1 == 4) &&
    decide (4 < (5#16 - probePart.sq.head).toNat ∧ (4#16 - probePart.sq.head).toNat ≤ 4)) = true := by
  decide +kernel

/-! Events of the module and of the host. -/

/-- A machine whose partition 1 has its 16 cores stopped for a swap. -/
def stoppedPart : State := { one id with cores := (coresOf [0]).map fun r => (r, { coreOf1 id with swap := true }) }

/-- A loader that is ready, with one entry that names an image of 1,024 bytes at host address 0x1000: cluster 5, one memory
range with its page tables, and 64 bytes of text. -/
def loading (magic : Nat) : State :=
  let h (a n v : Nat) (s : State) : State := s.storeNat (hostKey a) n v
  let image (o n v : Nat) : State → State := h (0x1000 + o) n v
  let pa : Nat := 0x100_0000_0000
  let s : State := { State.reset with bootstat := 2#64, ldrTail := 1#64 }
  (h 0 8 0x1000 ∘ h 8 8 1024 ∘ image 0 4 magic ∘ image 4 4 1 ∘ image 8 8 1024 ∘ image 16 1 32 ∘ image 60 4 (pa / 65536 + 1) ∘ image 64 6 pa ∘
    image 70 6 0x100000 ∘ image 384 4 5 ∘ image 392 8 576 ∘ image 400 8 64 ∘ image 408 8 (pa + 0x10000) ∘ image 416 4 1 ∘ image 424 8 512 ∘
    image 432 8 64 ∘ image 440 8 0x30000 ∘ image 576 8 probeLeaf) s

/-- The image of a loader's entry. -/
def loadingImage (s : State) : Mem := s.mem.slice (hostKey 0x1000) 1024

/-- The hash of the image's signed part, a key under which the number 2 is its signature, the key's hash, and a loader whose
image is signed under the key. -/
def imageHash : BitVec 256 := 0x92de8cddb665e4ae21491d4601d17b31cb27ee6f0853bd33004f0a1f7fac04e7#256
def plainKey : RsaKey := { n := BitVec.ofNat 3072 (2 ^ 3071 - pkcs1 imageHash), e := 3071#64 }
def plainHash : BitVec 256 := 0x9b1381a54fcd66031ae9a51ac23c1cf78b49ef5c91c62b67eccaf9cffe59a772#256
def signed : State := { (loading 0x58434953).store (hostKey (0x1000 + 1023)) [2#8] with ownerKeys := [plainHash] }

/-- SHA-256 of "abc", the example of the standard that the spec names (19_integration.md R491). -/
theorem test_sha256 : sha256 [0x61#8, 0x62#8, 0x63#8] = 0xba7816bf8f01cfea414140de5dae2223b00361a396177a9cb410ff61f20015ad#256 := by
  decide +kernel

theorem witness_PartitionsAndLoader :
    (let s : State := one id
    let t : State := stoppedPart
    let off (s : State) : State := { s with parts := [{ probePart with resident := false }] }
    ((s.part? 1).map (·.resident) == some true) && (((off s).part? 1).map (·.resident) == some false) &&
    (coresOf probePart.clusters).any (fun r => !(s.coreAt r).stopped) && (coresOf probePart.clusters).all (fun r => (t.coreAt r).stopped) &&
    (s.part? 2).isNone && s.hubCore 1 0 && spareFree t 0 33 31 && (residentOn t t.rank == t.part? 1) && (residentOn (off s) 0).isNone && spareFree (off s) 0 33 31 &&
    (let u : State := movePlace t 1 33 31; !spareFree u 0 33 31) &&
    decide (shadowUsed s 0 ≤ 7 * 256) && (shadowUsed { s with parts := [{ probePart with shadow := 300 }] } 0 == 300)) = true := by
  decide +kernel

/-- A loader with nothing to do, and images of a wrong form and of no valid signature. -/
theorem witness_PartitionsAndLoader_codes :
    (let s : State := loading 0x58434953
    let z : State := loading 0
    s.ready && !(one id).ready && (s.ldrHead != s.ldrTail) && (s.mem.readNat (hostKey 8) 8 == 1024) && (s.mem.readNat (hostKey 0) 8 == 0x1000) &&
    checkForm (imageOf (loadingImage s)) (launchOf (loadingImage s)) 1024 && !checkForm (imageOf (loadingImage z)) (launchOf (loadingImage z)) 1024 &&
    s.ownerKeys.isEmpty && (loadCode s (loadingImage s) 1024 false == 2)) = true := by
  decide +kernel

/-- An image that is signed under an owner's key and passes every check. -/
theorem witness_PartitionsAndLoader_key : (keyHash plainKey == plainHash) = true := by
  decide +kernel

theorem witness_PartitionsAndLoader_hash : (sha256 ((loadingImage (loading 0x58434953)).read 0 640) == imageHash) = true := by
  decide +kernel

theorem witness_PartitionsAndLoader_bound :
    (let m : Mem := loadingImage signed
     signed.ownerKeys.contains plainHash && (m.read 0 640 == (loadingImage (loading 0x58434953)).read 0 640) &&
     rsaVerify plainKey imageHash (m.read 640 384) && (loadCode signed m 1024 true == 0)) = true := by
  decide +kernel

theorem witness_HostAndOutsideEvents :
    (let s : State := one id
    (field (s.rankAt 4 0) 31 1 == 1) && (field (s.rankAt 4 7) 31 1 == 0) && !s.blzLock && blazeTimeDue { s with blzTime := some 0 } && !blazeTimeDue s &&
    s.blzDue.isNone && (s.cores.all fun e => !e.2.blzhalt) && decide ((0 : Nat) ≤ s.cycle ∧ s.cycle < 64)) = true ∧
    (let s : State := { one id with hostCxl := true, hostSize := 4096 }
    let key : RemoteKey := { index := 0, lo := BitVec.ofNat 64 (1 + 9 * 2 ^ 16 + 7 * 2 ^ 48), hi := BitVec.ofNat 64 (0xC * 2 ^ 52 + 2 ^ 57) }
    let k (pair : Option Nat) (seq : Nat) : UePacket := { pair := pair, seq := seq, key := 9#32, addr := BitVec.ofNat 64 (0xC * 2 ^ 52 + 64), op := .write (leBytes 8 7) }
    let t : State := { s with keys := [key] }
    let a : BitVec 64 := (k none 0).addr
    let moves (e : BitVec 32) : Bool := region a == 0xC && coordPkg a == s.pkgRank && field (({ s with ranks := [(16384, e)] } : State).rankAt 4 (coordCore a).toNat) 30 1 == 1
    (stepsOf s.ueSeq 3 == 0) && decide (0 < stepsOf ({ s with ueSeq := [(3, 1)] } : State).ueSeq 3) && (({ s with packets := [k (some 3) 1] } : State).packets.any fun q =>
      q.pair == some 3 && q.seq == 1) && s.packets.isEmpty && moves 0xC001_0000#32 && !moves 0x8001_0000#32 && s.keys.isEmpty &&
    (t.keys.find? (fun e => e.grants 9#32 a.toNat (UeOp.needs (k none 0).op).1 (UeOp.needs (k none 0).op).2) == some key) &&
    (coordPlace t (field key.lo 0 16) a == some (localKey 0 64)) && decide (4088 + 8 ≤ 4096 ∧ 4088 % 64 + 8 ≤ 64) &&
    !s.poisoned (hostKey 4088) 8 && !(one id).hostCxl) = true ∧
    (let q (st : Option (BitVec 8)) : StorageReq := { index := 0#16, status := st, write := false, buf := 0x40#64, len := 512, mb := none }
    let s (st : Option (BitVec 8)) : State := { one id with parts := [{ probePart with sq := { probePart.sq with reqs := [q st] } }] }
    ([none, some 0#8].all fun st => match (s st).part? (s st).me.pid with | some p => p.sq.reqs[0]? == some (q st) | none => false) &&
    [(0x40, true), (2 ^ 46, false)].all fun x => ((hubWrite (s none) probePart.ptroot x.1 (List.replicate 512 0#8)).1 == x.2) &&
      ((hubRead (s none) probePart.ptroot x.1 512).1.isSome == x.2)) = true := by
  decide +kernel

/-- Packets of a pair: of a number that has come, of one that is sent again after an overrun, that waits already, and at their turn,
accepted and refused; and a core whose partition is swapped out. -/
theorem witness_HostAndOutsideEvents_pairs :
    (let s : State := { one id with hostCxl := true, hostSize := 4096, link := true }
     let a : BitVec 64 := BitVec.ofNat 64 (0xC * 2 ^ 52 + 64)
     let k (seq : Nat) (pid : Nat) : UePacket := { pair := some 3, seq := seq, key := BitVec.ofNat 32 pid, addr := a, op := .write (leBytes 8 7) }
     let u : State := { s with ueSeq := [(3, 1)], ueRetry := [(3, 0)] }
     let moves (s : State) : Bool := region a == 0xC && coordPkg a == s.pkgRank && field (s.rankAt 4 (coordCore a).toNat) 30 1 == 1
     let out (c : Part) : State := { one id with parts := [c], ranks := [(16384, 0x8001_0000#32)] }
     let p : Part := { probePart with resident := false, saved := [{ rank := 0, core := Core.reset, mem := [], ctags := [], poison := [] }] }
     decide (0 < stepsOf u.ueSeq 3) && u.ueRetry.contains (3, 0) && !({ u with ueRetry := [] } : State).ueRetry.contains (3, 0) && !moves s && u.packets.isEmpty &&
     ([(1, true), (2, false)].all fun x => ((packetIn { s with ueSeq := Table.set s.ueSeq 3 1 } ((k 0 x.1).key.toNat % 1024) (k 0 x.1)).1 == x.2) &&
       ((packetIn { u with ueRetry := u.ueRetry.erase (3, 0) } ((k 0 x.1).key.toNat % 1024) (k 0 x.1)).1 == x.2)) &&
     s.hostCxl && s.link && !({ s with link := false } : State).link && (residentOn s 0).isSome &&
     (residentOn (out p) 0).isNone && (field ((out p).rankAt 4 0) 31 1 == 1) && ((out p).part? (field ((out p).rankAt 4 0) 16 10) == some p) &&
     (p.saved.any fun m => m.rank == 0)) = true := by
  decide +kernel

/-- A bring-up that fails at a step, or at none. -/
def bring (fail : Option (BitVec 4)) : BringUp :=
  { fail := fail, svn := 1#32, owners := [], places := List.replicate 4 enabledReset, cxl := false, hostSize := 0, rate := 0#8, pkg := 5#18, fwHash := 0#256
    recHash := 0#256, down := [], ps := 9 }

theorem witness_PowerEvents :
    (let s : State := State.reset
    !s.ready && ({ s with bootstat := 2#64 } : State).ready && (failStep s (bring none) == 9) && (failStep s (bring (some 1#4)) == 1) &&
    (failStep s (bring (some 8#4)) == 8) && decide ((0 : Nat) = stepsOf s.linkSeq 3 ∧ 1 ≠ stepsOf s.linkSeq 3) && decide (stepsOf s.volts 3 < 550) &&
    decide (44000 ≤ s.input ∧ ({ s with input := 43999 } : State).input < 44000)) = true := by
  decide +kernel

/-! Arithmetic and the machine as a whole. -/

/-- Quiet and signalling NaNs, infinities of both signs, zeros, a negative number and 1, in each IEEE format: the sign bit,
the exponent and the quiet bit of the format. -/
theorem witness_NanResults :
    ([(8, 0x8000, 0x7C00, 0x200, 0x3C00), (9, 0x8000, 0x7F80, 0x40, 0x3F80), (10, 0x8000_0000, 0x7F80_0000, 0x40_0000, 0x3F80_0000),
      (11, 0x8000_0000_0000_0000, 0x7FF0_0000_0000_0000, 0x8_0000_0000_0000, 0x3FF0_0000_0000_0000)].all fun x =>
      let (f, sign, inf, quiet, one) := x
      (unpack f (inf + quiet)).isNan && !(unpack f (inf + quiet)).snan && (unpack f (inf + 1)).snan && (unpack f inf).isInf && (unpack f (sign + inf)).isInf &&
      ((unpack f inf).neg != (unpack f (sign + inf)).neg) && (unpack f 0).isZero && (unpack f (sign + one)).neg && !(unpack f (sign + one)).isNan &&
      !(unpack f (sign + one)).isZero && (match unpack f one with | .fin _ (_ + 1) _ => true | _ => false)) = true := by
  decide +kernel

/-- The least and the greatest bit patterns, a subnormal and an infinity. -/
theorem witness_RepresentableExact :
    ([(8, 0), (9, 1), (10, 0x7F80_0000), (10, 0xFF80_0000), (11, 0x3FF0_0000_0000_0000)].all fun x =>
      decide (x.1 ∈ [8, 9, 10, 11]) && decide (x.2 < 2 ^ fmtBits x.1) && !(unpack x.1 x.2).isNan) = true := by
  decide +kernel

/-- A placed S word that may go and one that holds for the engines, a V word and an event, a machine with nothing to do, and
a Kettle word. -/
theorem witness_StepRunsWord :
    (let s (i : Instr) (f : Core → Core) : State := (State.reset.withFetchWord 32 (wordOf i)).modMe f
    let runs (i : Instr) (f : Core → Core) (may : Bool) : Bool :=
      let s : State := s i f
      let h : State := housekeep (tick s 1)
      let t : State := { h with agenda := [], rank := 0 }
      let v : State := sReady t
      s.power && (h.agenda == [.walker 0 .s]) && t.me.runs && (sBoundary t).isNone && t.me.blocked.isNone && !t.me.slipHeld && !gangWaits t &&
      v.me.nestS.isNone && okB (sFetch v) fun r => (wordEngine r.1 == .s) && ((decodeWord r.1).toOption == some i) && !r.2.me.follows &&
        (sendWord r.2 r.1).me.nestS.isNone && (sMay (landFor (sendWord r.2 r.1) i) i == may)
    let copying (off : Nat) (c : Core) : Core :=
      { regs [(1#6, own off)] c with dq := (withCmd (.dcpy copy64) copy64 .queued id).me.dq, posS := 1#32 }
    (let i : Instr := .add 5#6 9#6 17#6
     let s (n : Nat) : State := { s i (fun c => { c with loads := [{ d := 9#6, parts := [(localKey 1 64, [0#8])] }] }) with ranks := [(1, BitVec.ofNat 32 n)], lazy := true }
     let z (n : Nat) : State := sReady { housekeep (tick (s n) 1) with agenda := [], rank := 0 }
     okB (sFetch (z 0xC001_0000)) (fun r => awaitsRank (landFor (sendWord r.2 r.1) i) i) && okB (sFetch (z 0x8001_0000)) fun r => !awaitsRank (landFor (sendWord r.2 r.1) i) i) &&
    runs (.add 5#6 9#6 17#6) id true && runs (.stD 5#6 1#6 0#11) (copying 0x2040) true && runs (.stD 5#6 1#6 0#11) (copying 0x203F) false) = true ∧
    (let i : Instr := .vadd okV
    let s : State := State.reset.withFetchWord 96 (wordOf i)
    let h : State := housekeep (tick s 1)
    let t : State := { h with agenda := [], rank := 0 }
    s.power && (h.agenda == [.walker 0 .v]) && t.me.eMay .v && (t.me.nestOf .v).isNone && ((wordAt t .v).any fun w =>
      (wordEngine w == .v) && ((decodeWord w).toOption == some i))) = true ∧
    (let s : State := one id
    let h : State := housekeep (tick s 1)
    let k : State := { ket [] id with mem := Mem.write [] 0x100 (leBytes 4 0x0002_858B) }
    (encode .taskStart).isNone && ((housekeep (tick { s with agenda := [.event 0 .taskStart] } 1)).agenda == [.event 0 .taskStart]) && s.power && h.agenda.isEmpty && (nextMsg h).isNone && (someCoreDue h).isNone && (hubDue h).isNone &&
    !k.kettle.tested && (k.cur == .kettle) && ((decodeKettle (k.mem.readNat k.kettle.pc.toNat 4)).toOption == some (.ktTake 11#5 5#5))) = true := by
  decide +kernel

/-- A well-formed instruction of each length, with its word. -/
theorem witness_RoundTrip :
    ([Instr.add 5#6 9#6 17#6, .vadd okV, .mma okM, .dcpy okD, .ktTake 11#5 5#5].all fun i => wellFormed i && (encode i).isSome) = true := by
  decide +kernel

theorem witness_MemoryLaws :
    (one id).mem.wf = true ∧ (Mem.write [] 5 [7#8]).wf = true ∧ leBytes 2 0x102 ≠ [] ∧ localKey 4095 0x7FFF0 % 16 = 0 := by
  decide +kernel

/-! A future table without a free entry. -/

/-- A table whose 16,384 entries are pending, of partition 2. -/
def fullTable : List (Nat × Fut) := (List.range 16384).map fun i => (i, { fut1 1 none with pid := 2 })

/-- A table that has every key and whose entries are all of one property answers an entry of that property. -/
theorem find_of_keys {α : Type} (p : α → Bool) (l : List (Nat × α)) (h : l.all (fun e => p e.2) = true) (i : Nat) (hi : i ∈ l.map (·.1)) :
    ∃ x, Table.find l i = some x ∧ p x = true := by
  induction l with
  | nil => simp at hi
  | cons e t ih =>
    simp only [List.all_cons, Bool.and_eq_true] at h
    by_cases hk : e.1 = i
    · exact ⟨e.2, by simp [Table.find, hk], h.1⟩
    · obtain ⟨x, hx, hp⟩ := ih h.2 (by simpa [Ne.symm hk] using hi)
      exact ⟨x, by simp [Table.find, hk] at hx ⊢; exact hx, hp⟩

/-- A call that finds no entry: its quota is not reached, and every entry of the table that its check leaves is in use. -/
theorem witness_FutureCallAndWait_full :
    callB (fut fullTable true id) (fun v key _ n => decide (n = 0) && decide (allocated v (fun f => f.ctx == 1#16 && f.pid == 1) < v.mem.readNat (key + 58) 2 ∧
      allocated v (fun f => f.pid == 1) < ctxPart.futQuota) && (v.futs.map (·.1) == List.range 16384) && v.futs.all (fun e => e.2.state != 0#3)) = true ∧
    ∀ v : State, v.futs.map (·.1) = List.range 16384 → v.futs.all (fun e => e.2.state != 0#3) = true → freeEntry v = none := by
  refine ⟨by decide +kernel, fun v hk ha => ?_⟩
  rw [freeEntry, List.find?_eq_none]
  intro i hi
  obtain ⟨x, hx, hp⟩ := find_of_keys (fun f : Fut => f.state != 0#3) v.futs ha i (by rw [hk]; exact hi)
  simp [State.futAt, hx] at hp ⊢
  exact hp

end Sys2Proof.Tests
end

section
/-! SUPPORT. What the S accesses of a core leave of the bound partitions: every one of them. A swap performs them before it saves
a core (08_tasks.md R268). -/

namespace Sys2Proof.Machine

/-! Stores and marks. -/

@[simp] theorem State.store_parts (s : State) (key : Nat) (bs : List Byte) : (s.store key bs).parts = s.parts := rfl
@[simp] theorem State.storeNat_parts (s : State) (key n v : Nat) : (s.storeNat key n v).parts = s.parts := rfl
@[simp] theorem State.notify_parts (s : State) (key n : Nat) : (s.notify key n).parts = s.parts := rfl
@[simp] theorem State.markPoison_parts (s : State) (l : List Nat) : (s.markPoison l).parts = s.parts := rfl
@[simp] theorem State.answer_parts (s : State) (bs : Option (List Byte)) : (s.answer bs).parts = s.parts := rfl

@[simp] theorem State.storeTagged_parts (s : State) (key : Nat) (bs : List Byte) (tag : Bool) :
    (s.storeTagged key bs tag).parts = s.parts := by
  unfold State.storeTagged
  cases tag <;> rfl

@[simp] theorem State.tagUnits_parts (s : State) (l : List (Nat × Bool)) : (s.tagUnits l).parts = s.parts := by
  induction l generalizing s with
  | nil => rfl
  | cons u l ih =>
    obtain ⟨k, b⟩ := u
    cases b <;> simp [State.tagUnits, ih]

/-- A fold whose steps leave the partitions leaves them. -/
theorem foldl_parts {α : Type} (f : State → α → State) (hf : ∀ t x, (f t x).parts = t.parts) (l : List α) (s : State) :
    (l.foldl f s).parts = s.parts := by
  induction l generalizing s with
  | nil => rfl
  | cons x l ih => rw [List.foldl_cons, ih, hf]

/-! The answers of waiting requests. -/

@[simp] theorem groupPending_parts (s : State) (r : Nat) : (groupPending s r).parts = s.parts := by
  unfold groupPending
  split <;> simp

@[simp] theorem pushResume_parts (s : State) (r frame : Nat) : (pushResume s r frame).parts = s.parts := by
  simp [pushResume]

@[simp] theorem replyFrame_parts (s : State) (fa : Nat) (d : GIdx) (x : GVal) : (replyFrame s fa d x).parts = s.parts := by
  simp only [replyFrame, State.storeNat_parts]
  split <;> simp

@[simp] theorem faultFrame_parts (s : State) (fa : Nat) (w : Engine) (cause seq : Nat) :
    (faultFrame s fa w cause seq).parts = s.parts := by
  simp [faultFrame]

@[simp] theorem replyValue_parts (s : State) (q : WaitReq) (d : GIdx) (x : GVal) : (replyValue s q d x).parts = s.parts := by
  unfold replyValue
  split <;> simp

@[simp] theorem replyTrap_parts (s : State) (q : WaitReq) (cause : Nat) (addr : Word64) :
    (replyTrap s q cause addr).parts = s.parts := by
  unfold replyTrap
  split <;> simp

@[simp] theorem replyAgain_parts (s : State) (q : WaitReq) : (replyAgain s q).parts = s.parts := by
  unfold replyAgain
  split <;> simp

@[simp] theorem dropReq_parts (s : State) (r : Nat) (q : WaitReq) : (dropReq s r q).parts = s.parts := rfl

/-! Arrivals and counters. -/

@[simp] theorem eventRecord_parts (s : State) (r kind arrival user : Nat) (addr : Word64) (srcPkg : BitVec 32)
    (srcCore : BitVec 16) : (eventRecord s r kind arrival user addr srcPkg srcCore).parts = s.parts := by
  simp only [eventRecord]
  split <;> simp

@[simp] theorem injectAcked_parts (s : State) (a : Arrival) : (injectAcked s a).parts = s.parts := rfl

@[simp] theorem overrun_parts (s : State) (a : Arrival) : (overrun s a).parts = s.parts := by
  simp only [overrun]
  split
  · split <;> simp
  · split <;> simp

@[simp] theorem applyArrival_parts (s : State) (a : Arrival) : (applyArrival s a).parts = s.parts := by
  simp only [applyArrival]
  split <;> simp

@[simp] theorem settleGranule_parts (fuel r gr : Nat) (s : State) : (settleGranule r gr fuel s).parts = s.parts := by
  induction fuel generalizing gr s with
  | zero => rfl
  | succ fuel ih =>
    simp only [settleGranule]
    repeat' split
    all_goals simp [ih]

@[simp] theorem overrunHeld_parts (r : Nat) (s : State) (h : Held) : (expireHeld.overrunHeld r s h).parts = s.parts := by
  simp only [expireHeld.overrunHeld]
  split <;> simp

@[simp] theorem expireHeld_parts (s : State) (r : Nat) : (expireHeld s r).parts = s.parts :=
  foldl_parts _ (fun t h => overrunHeld_parts r t h) _ s

@[simp] theorem serveGranule_parts (s : State) (r gr : Nat) : (serveGranule s r gr).parts = s.parts := by
  simp [serveGranule]

@[simp] theorem arrive_parts (s : State) (a : Arrival) : (arrive s a).parts = s.parts := by
  simp only [arrive]
  repeat' split
  all_goals simp

@[simp] theorem serveMail_parts (r : Nat) (i : BitVec 8) (fuel : Nat) (s : State) : (serveMail r i fuel s).parts = s.parts := by
  induction fuel generalizing s with
  | zero => rfl
  | succ fuel ih =>
    simp only [serveMail]
    repeat' split
    all_goals simp [ih]

@[simp] theorem incMail_parts (s : State) (r : Nat) (i : BitVec 8) (amount : BitVec 32) :
    (incMail s r i amount).parts = s.parts := by
  simp [incMail, setMail]

/-! Posted messages, buffered stores and outstanding loads. -/

@[simp] theorem landPosted_parts (s : State) (w : PostedStore) : (landPosted s w).parts = s.parts := by
  simp [landPosted]

@[simp] theorem applyPosted_parts (s : State) (dst : Nat) (i : Instr) : (applyPosted s dst i).parts = s.parts := by
  unfold applyPosted
  split <;> simp

@[simp] theorem applyMsg_parts (s : State) (m : NetMsg) : (applyMsg s m).parts = s.parts := by
  simp [applyMsg]

@[simp] theorem flushSome_parts (r dst n : Nat) (s : State) : (flushSome r dst n s).parts = s.parts := by
  induction n generalizing s with
  | zero => rfl
  | succ n ih =>
    simp only [flushSome]
    repeat' split
    all_goals simp [ih]

@[simp] theorem performAll_parts (s : State) (b : Buffered) : (performAll s b).parts = s.parts := by
  unfold performAll
  exact foldl_parts _ (fun t p => by simp) _ s

@[simp] theorem performOver_parts (s : State) (r : Nat) (al : Bool) (l : List (Nat × Nat)) :
    (performOver s r al l).parts = s.parts := by
  simp [performOver, performWhere, foldl_parts _ performAll_parts]

@[simp] theorem drainStores_parts (s : State) (r : Nat) : (drainStores s r).parts = s.parts := by
  simp [drainStores, foldl_parts _ performAll_parts]

@[simp] theorem beforeLoad_parts (s : State) (r : Nat) (l : PendingLoad) : (beforeLoad s r l).parts = s.parts := by
  unfold beforeLoad
  exact foldl_parts _ (fun t e => by simp) _ s

@[simp] theorem beforeAmo_parts (s : State) (r : Nat) (l : PendingLoad) : (beforeAmo s r l).parts = s.parts := by
  unfold beforeAmo
  split <;> simp

@[simp] theorem amoWrite_parts (s : State) (key : Nat) (op : Nat × Word64 × Word64) (old : Word64) :
    (amoWrite s key op old).parts = s.parts := by
  simp only [amoWrite]
  repeat' split
  all_goals simp

@[simp] theorem landPiece_parts (s : State) (r mix : Nat) (l : PendingLoad) : (landPiece s r mix l).2.parts = s.parts := by
  unfold landPiece
  repeat' split
  all_goals simp

@[simp] theorem landPieces_parts (r n : Nat) (x : PendingLoad × State) : (landPieces r n x).parts = x.2.parts := by
  induction n generalizing x with
  | zero => rfl
  | succ n ih => simp [landPieces, ih]

@[simp] theorem landLoads_parts (s : State) (r : Nat) : (landLoads s r).parts = s.parts := by
  simp only [landLoads, returnWhere]
  rw [foldl_parts _ fun t l => by simp [landLoad], State.modCore_parts]

@[simp] theorem drainAll_parts (s : State) (l : List Nat) : (drainAll s l).parts = s.parts := by
  induction l generalizing s with
  | nil => rfl
  | cons r l ih => simp [drainAll, drainS, ih]

/-! Pushes. -/

@[simp] theorem putRecord_parts (s : State) (k : Nat) (x : Record) : (putRecord s k x).parts = s.parts := by
  simp only [putRecord]
  split <;> simp

@[simp] theorem ringWrite_parts (s : State) (r i : Nat) (l : List Record) : (ringWrite s r i l).parts = s.parts := by
  induction l generalizing s i with
  | nil => rfl
  | cons x l ih => simp [ringWrite, ringPut, ih]

@[simp] theorem pushYoung_parts (s : State) (r : Nat) (x : Record) : (pushYoung s r x).parts = s.parts := by
  unfold pushYoung
  split <;> simp [spill]

@[simp] theorem pushRoots_parts (l : Launch) (text : Nat) (data : GVal) (s : State) (cores : List Nat) :
    (pushRoots l text data s cores).parts = s.parts := by
  unfold pushRoots
  exact foldl_parts _ (fun t x => by simp) _ s

end Sys2Proof.Machine
end

section
/-! SUPPORT. Fields of words, the rank tables, and the partitions of a state. -/

namespace Sys2Proof.Machine

/-! Fields: what a field reads once it, or another, is replaced. -/

/-- A number with the n bits from bit lo upward replaced, as `setField` computes it. -/
def replaceBits (x lo n v : Nat) : Nat := x - x / 2 ^ lo % 2 ^ n * 2 ^ lo + v % 2 ^ n * 2 ^ lo

/-- A number is its bits below a field, those of the field, and those above it. -/
theorem bits_split (x lo n : Nat) : x = x % 2 ^ lo + 2 ^ lo * (x / 2 ^ lo % 2 ^ n + 2 ^ n * (x / 2 ^ (lo + n))) := by
  rw [Nat.pow_add, ← Nat.div_div_eq_div_mul, Nat.mod_add_div, Nat.mod_add_div]

theorem replaceBits_eq (x lo n v : Nat) :
    replaceBits x lo n v = x % 2 ^ lo + 2 ^ lo * (v % 2 ^ n + 2 ^ n * (x / 2 ^ (lo + n))) := by
  have h := bits_split x lo n
  rw [Nat.mul_add] at h ⊢
  rw [replaceBits, Nat.mul_comm (_ % _) (2 ^ lo), Nat.mul_comm (v % _) (2 ^ lo)]
  omega

theorem replaceBits_mod (x lo n v : Nat) : replaceBits x lo n v % 2 ^ lo = x % 2 ^ lo := by
  rw [replaceBits_eq, Nat.add_mul_mod_self_left, Nat.mod_mod]

theorem replaceBits_div (x lo n v : Nat) : replaceBits x lo n v / 2 ^ lo = v % 2 ^ n + 2 ^ n * (x / 2 ^ (lo + n)) := by
  rw [replaceBits_eq, Nat.add_mul_div_left _ _ (Nat.two_pow_pos lo), Nat.div_eq_of_lt (Nat.mod_lt _ (Nat.two_pow_pos lo)),
    Nat.zero_add]

theorem replaceBits_div_end (x lo n v : Nat) : replaceBits x lo n v / 2 ^ (lo + n) = x / 2 ^ (lo + n) := by
  rw [Nat.pow_add, ← Nat.div_div_eq_div_mul, replaceBits_div, Nat.add_mul_div_left _ _ (Nat.two_pow_pos n),
    Nat.div_eq_of_lt (Nat.mod_lt _ (Nat.two_pow_pos n)), Nat.zero_add, Nat.pow_add]

theorem replaceBits_lt {w x lo n : Nat} (v : Nat) (hx : x < 2 ^ w) (hw : lo + n ≤ w) : replaceBits x lo n v < 2 ^ w := by
  obtain ⟨k, rfl⟩ := Nat.exists_eq_add_of_le hw
  rw [Nat.pow_add, Nat.mul_comm, ← Nat.div_lt_iff_lt_mul (Nat.two_pow_pos _)] at hx ⊢
  rwa [replaceBits_div_end]

theorem setField_toNat {w : Nat} (x : BitVec w) {lo n : Nat} (v : Nat) (hw : lo + n ≤ w) :
    (setField x lo n v).toNat = replaceBits x.toNat lo n v := by
  rw [setField, BitVec.toNat_ofNat]
  exact Nat.mod_eq_of_lt (replaceBits_lt v x.isLt hw)

/-- A field that was replaced reads the new value, cut to its bits. -/
theorem field_setField {w : Nat} (x : BitVec w) {lo n : Nat} (v : Nat) (hw : lo + n ≤ w) :
    field (setField x lo n v) lo n = v % 2 ^ n := by
  rw [field, setField_toNat x v hw, replaceBits_div, Nat.add_mul_mod_self_left, Nat.mod_mod]

/-- A field above one that was replaced stands. -/
theorem field_setField_above {w : Nat} (x : BitVec w) {lo n k : Nat} (v m : Nat) (hw : lo + n ≤ w) (hk : lo + n ≤ k) :
    field (setField x lo n v) k m = field x k m := by
  obtain ⟨d, rfl⟩ := Nat.exists_eq_add_of_le hk
  rw [field, setField_toNat x v hw, field, Nat.pow_add, ← Nat.div_div_eq_div_mul, replaceBits_div_end,
    Nat.div_div_eq_div_mul]

/-- A field below one that was replaced stands. -/
theorem field_setField_below {w : Nat} (x : BitVec w) {lo n k m : Nat} (v : Nat) (hw : lo + n ≤ w) (hk : k + m ≤ lo) :
    field (setField x lo n v) k m = field x k m := by
  have cut (y : Nat) : y / 2 ^ k % 2 ^ m = y % 2 ^ lo % 2 ^ (k + m) / 2 ^ k := by
    rw [Nat.mod_mod_of_dvd _ (Nat.pow_dvd_pow 2 hk), Nat.pow_add, Nat.mod_mul_right_div_self]
  rw [field, setField_toNat x v hw, field, cut, cut, replaceBits_mod]

/-! Tables. -/

/-- A run of replacements leaves at a key a value of a property where it replaces that key, or the table had such a value there,
and every value that it places there has the property. -/
theorem Table.find_foldl_set {α : Type} (P : α → Prop) (k : Nat → Nat) (g : Nat → α) (a : Nat) (l : List Nat)
    (t : List (Nat × α)) (hg : ∀ j ∈ l, k j = a → P (g j)) (h : a ∈ l.map k ∨ ∃ v, Table.find t a = some v ∧ P v) :
    ∃ v, Table.find (l.foldl (fun t i => Table.set t (k i) (g i)) t) a = some v ∧ P v := by
  induction l generalizing t with
  | nil => simpa using h
  | cons i l ih =>
    refine ih _ (fun j hj => hg j (by simp [hj])) ?_
    by_cases hi : k i = a
    · exact .inr ⟨g i, by simp [Table.find_set, hi], hg i (by simp) hi⟩
    · simpa [Table.find_set, hi, Ne.symm hi] using h

/-! The rank tables. -/

/-- After a rank's entries change, that of interface i is the change of what it was. -/
theorem rankAt_eachRank (s : State) (r : Nat) (f : BitVec 32 → BitVec 32) {i : Nat} (hi : i < 5) :
    (eachRank s r f).rankAt i r = f (s.rankAt i r) := by
  obtain ⟨v, hv, rfl⟩ := Table.find_foldl_set (· = f (s.rankAt i r)) (fun j => j * 4096 + r) (fun j => f (s.rankAt j r))
    (i * 4096 + r) (List.range 5) s.ranks (fun j _ hj => by rw [show j = i by omega])
    (.inl (List.mem_map.mpr ⟨i, List.mem_range.mpr hi, rfl⟩))
  rw [State.rankAt, show Table.find (eachRank s r f).ranks (i * 4096 + r) = _ from hv, Option.getD_some]

/-- Whether a table lists an entry at a key and its VALID bit is clear. -/
def EntryCleared (t : List (Nat × BitVec 32)) (a : Nat) : Prop := ∃ v, Table.find t a = some v ∧ field v 31 1 = 0

theorem EntryCleared.rankAt {s : State} {i r : Nat} (h : EntryCleared s.ranks (i * 4096 + r)) : field (s.rankAt i r) 31 1 = 0 := by
  obtain ⟨v, hv, hz⟩ := h
  simpa [State.rankAt, hv] using hz

/-- A change of a rank's entries that clears VALID clears it in all five, and leaves it clear in every other entry, whatever keys
the rank's entries share with another's. -/
theorem entryCleared_eachRank (s : State) (r a : Nat) (f : BitVec 32 → BitVec 32) (hf : ∀ e, field (f e) 31 1 = 0)
    (h : (∃ i, i < 5 ∧ a = i * 4096 + r) ∨ EntryCleared s.ranks a) : EntryCleared (eachRank s r f).ranks a := by
  refine Table.find_foldl_set (fun v => field v 31 1 = 0) (fun j => j * 4096 + r) (fun j => f (s.rankAt j r)) a (List.range 5)
    s.ranks (fun j _ _ => hf _) (h.imp_left ?_)
  rintro ⟨i, hi, rfl⟩
  exact List.mem_map.mpr ⟨i, List.mem_range.mpr hi, rfl⟩

theorem entryCleared_setRank (s : State) (r pid a : Nat) (transit : Bool)
    (h : (∃ i, i < 5 ∧ a = i * 4096 + r) ∨ EntryCleared s.ranks a) :
    EntryCleared (setRank s r pid false transit).ranks a := by
  refine entryCleared_eachRank s r a _ (fun e => ?_) h
  rw [field_setField_above _ _ _ (by omega) (by omega), field_setField_above _ _ _ (by omega) (by omega),
    field_setField _ _ (by omega)]
  rfl

theorem entryCleared_setRanks (s : State) (pid a : Nat) (transit : Bool) (l : List Nat)
    (h : (∃ r ∈ l, ∃ i, i < 5 ∧ a = i * 4096 + r) ∨ EntryCleared s.ranks a) :
    EntryCleared (setRanks s pid false transit l).ranks a := by
  induction l generalizing s with
  | nil => simpa [setRanks] using h
  | cons r l ih =>
    refine ih _ ?_
    rcases h with ⟨q, hq, hi⟩ | hc
    · rcases List.mem_cons.mp hq with rfl | hq
      · exact .inr (entryCleared_setRank s q pid a transit (.inl hi))
      · exact .inl ⟨q, hq, hi⟩
    · exact .inr (entryCleared_setRank s r pid a transit (.inr hc))

/-- The entries of a list of ranks are all that changes with them. -/
theorem setRanks_frame (s : State) (pid : Nat) (valid transit : Bool) (l : List Nat) :
    setRanks s pid valid transit l = { s with ranks := (setRanks s pid valid transit l).ranks } := by
  induction l generalizing s with
  | nil => rfl
  | cons r l ih =>
    rw [setRanks, ih]
    rfl

@[simp] theorem setRanks_mem (s : State) (pid : Nat) (valid transit : Bool) (l : List Nat) :
    (setRanks s pid valid transit l).mem = s.mem := by
  rw [setRanks_frame]
@[simp] theorem setRanks_cores (s : State) (pid : Nat) (valid transit : Bool) (l : List Nat) :
    (setRanks s pid valid transit l).cores = s.cores := by
  rw [setRanks_frame]
@[simp] theorem setRanks_parts (s : State) (pid : Nat) (valid transit : Bool) (l : List Nat) :
    (setRanks s pid valid transit l).parts = s.parts := by
  rw [setRanks_frame]

/-! The partitions of a state. -/

theorem State.part?_congr {s t : State} (h : t.parts = s.parts) (pid : Nat) : t.part? pid = s.part? pid := by
  rw [State.part?, h, State.part?]

/-- A change of a partition that keeps its identifier is what the next search of that identifier finds, and the search of
another finds what it did. -/
theorem State.part?_modPart (s : State) (pid i : Nat) (f : Part → Part) (hf : ∀ p, (f p).pid = p.pid) :
    (s.modPart pid f).part? i = if i = pid then (s.part? i).map f else s.part? i := by
  have keeps : (fun p => p.pid == i) ∘ (fun p => if p.pid == pid then f p else p) = fun p => p.pid == i := by
    funext p
    simp only [Function.comp_apply]
    split <;> simp [hf]
  rw [State.part?, State.modPart, List.find?_map, keeps, State.part?]
  cases h : s.parts.find? fun p => p.pid == i with
  | none => simp
  | some p =>
    have hp : p.pid = i := by simpa using List.find?_some h
    by_cases hi : i = pid <;> simp [hp, hi]

end Sys2Proof.Machine
end

section
/-! PROOF. Ranks, slices, swaps, unbinding, spares and reservations (01_machine.md R23, R34; 05_memory.md R154, R157; 08_tasks.md
R267, R268). -/

namespace Sys2Proof.Machine

/-! Writes of a rank table. -/

theorem exec_rankTableWrite (s : State) (iface : BitVec 3) (rank : BitVec 12) (v : BitVec 32) (h : iface.toNat ≤ 4) :
    ∃ t, exec (.rankTableWrite iface rank v) s = .next t ∧ t.rankAt iface.toNat rank.toNat = (v &&& 0xC3FF_FF1F#32) ∧
      t.cores = s.cores ∧ t.mem = s.mem ∧
      ∀ k, k ≠ iface.toNat * 4096 + rank.toNat → Table.find t.ranks k = Table.find s.ranks k := by
  refine ⟨_, congrArg Host.Outcome.next (if_pos h), ?_, rfl, rfl, fun k hk => ?_⟩
  · simp [State.rankAt, Table.find_set]
  · simp [Table.find_set, Ne.symm hk]

theorem exec_rankTableWrite_outside (s : State) (iface : BitVec 3) (rank : BitVec 12) (v : BitVec 32) (h : 4 < iface.toNat) :
    exec (.rankTableWrite iface rank v) s = .next s :=
  congrArg Host.Outcome.next (if_neg (Nat.not_le.mpr h))

/-! Slices. -/

theorem exec_gangSliceInstant {s : State} {pid : Nat} {p : Part} (hp : s.part? pid = some p) :
    exec (.gangSliceInstant pid) s = .next (if p.resident then sliceAll s (coresOf p.clusters) else s) := by
  rw [show exec (.gangSliceInstant pid) s = execGangSliceInstant pid s from rfl, execGangSliceInstant, hp]

theorem exec_gangSliceInstant_none {s : State} {pid : Nat} (h : s.part? pid = none) :
    exec (.gangSliceInstant pid) s = .next s := by
  rw [show exec (.gangSliceInstant pid) s = execGangSliceInstant pid s from rfl, execGangSliceInstant, h]

/-! Swaps. -/

theorem exec_partitionSwap (s : State) (pid inn : Nat) :
    exec (.partitionSwap pid inn) s = .next (swapIn (swapOut s pid) inn) := rfl

/-- Whether a swap saves a partition: it is resident and every core of its clusters has stopped (08_tasks.md R268). -/
def Part.saves (p : Part) (s : State) : Bool := p.resident && (coresOf p.clusters).all fun r => (s.coreAt r).stopped

/-- A partition as a swap leaves it: resident no longer, with what the state s holds for a list of cores. -/
def Part.out (p : Part) (s : State) (l : List Nat) : Part :=
  { p with resident := false, saved := l.map (saveCore s), maxx := s.maxx.filter fun x => l.contains x.core
           maxxBad := s.maxxBad.filter fun x => l.contains x.core
           applied := s.applied.filter fun x => l.contains x.2.id.core.toNat }

/-- A partition of which some core has not stopped, or that is not resident, stays as it is. -/
theorem swapOut_of_stays {s : State} {pid : Nat} {p : Part} (hp : s.part? pid = some p) (h : p.saves s = false) :
    swapOut s pid = s := by
  simp only [swapOut, hp]
  exact if_neg (by simpa [Part.saves] using h)

/-- A partition that saves leaves with the bytes of its cores' accesses in place, and takes its cores along. -/
theorem swapOut_of_saves {s : State} {pid : Nat} {p : Part} (hp : s.part? pid = some p) (h : p.saves s = true) :
    let l : List Nat := coresOf p.clusters
    (swapOut s pid).parts = ((drainAll s l).modPart pid fun p => p.out (drainAll s l) l).parts ∧
      (swapOut s pid).cores = (drainAll s l).cores.filter fun e => !l.contains e.1 := by
  simp only [swapOut, hp]
  rw [Part.saves] at h
  rw [if_pos h, setRanks_parts, setRanks_cores]
  exact ⟨rfl, rfl⟩

/-- The partition that saves is found as it leaves; a search of another identifier finds what it did. -/
theorem part?_swapOut_of_saves {s : State} {pid : Nat} {p : Part} (hp : s.part? pid = some p) (h : p.saves s = true) (i : Nat) :
    (swapOut s pid).part? i =
      if i = pid then (s.part? i).map fun p' => p'.out (drainAll s (coresOf p.clusters)) (coresOf p.clusters) else s.part? i := by
  rw [State.part?_congr (swapOut_of_saves hp h).1, State.part?_modPart _ pid i (fun p' => p'.out _ _) fun _ => rfl,
    State.part?_congr (drainAll_parts _ _)]

theorem saves_of_stopped {s : State} {p : Part} (hr : p.resident = true)
    (hs : ∀ r ∈ coresOf p.clusters, (s.coreAt r).stopped = true) : p.saves s = true := by
  simpa [Part.saves, hr] using hs

theorem not_saves_of_running {s : State} {p : Part} (h : ∃ r ∈ coresOf p.clusters, (s.coreAt r).stopped = false) :
    p.saves s = false := by
  obtain ⟨r, hr, hf⟩ := h
  exact Bool.eq_false_iff.mpr fun hs => by simpa [hf] using List.all_eq_true.mp (Bool.and_eq_true_iff.mp hs).2 r hr

/-- A resident partition whose cores have all stopped is resident no longer: its cores are saved, and the state holds them no
more. -/
theorem swapOut_stopped {s : State} {pid : Nat} {p : Part} (hp : s.part? pid = some p) (hr : p.resident = true)
    (hs : ∀ r ∈ coresOf p.clusters, (s.coreAt r).stopped = true) :
    ∃ q, (swapOut s pid).part? pid = some q ∧ q.resident = false ∧ q.saved.map (·.rank) = coresOf p.clusters ∧
      ∀ c ∈ (swapOut s pid).cores, c.1 ∉ coresOf p.clusters := by
  have saves : p.saves s = true := saves_of_stopped hr hs
  refine ⟨_, by rw [part?_swapOut_of_saves hp saves, if_pos rfl, hp, Option.map_some], rfl, ?_, fun c hc => ?_⟩
  · rw [Part.out, List.map_map]
    exact List.map_id _
  · rw [(swapOut_of_saves hp saves).2] at hc
    simpa using (List.mem_filter.mp hc).2

/-- A swap binds no partition. -/
theorem swapOut_part?_none {s : State} {pid i : Nat} {p : Part} (hp : s.part? pid = some p) (hi : s.part? i = none) :
    (swapOut s pid).part? i = none := by
  cases h : p.saves s with
  | false => rw [swapOut_of_stays hp h, hi]
  | true => simp [part?_swapOut_of_saves hp h, hi]

/-- Where no partition of the identifier is bound, none is loaded. -/
theorem swapIn_none {s : State} {pid : Nat} (h : s.part? pid = none) : swapIn s pid = s := by
  simp [swapIn, h]

/-! Unbinding. -/

/-- The futures of an unbound partition are free, and the others stand (05_memory.md R154). -/
theorem futs_unbound {pid : Nat} (l : List (Nat × Fut)) : ∀ f ∈ l.map fun e =>
      if e.2.pid = pid ∧ e.2.state ≠ 0#3 then (e.1, { Fut.reset with gen := nextGen e.2.gen }) else e,
    f.2.pid = pid → f.2.state = 0#3 := by
  intro f hf hpid
  obtain ⟨e, -, rfl⟩ := List.mem_map.mp hf
  by_cases hn : e.2.pid = pid ∧ e.2.state ≠ 0#3
  · rw [if_pos hn]
    rfl
  · rw [if_neg hn] at hpid ⊢
    exact not_not.mp fun hs => hn ⟨hpid, hs⟩

theorem exec_partitionUnbind (s : State) (pid : Nat) {p : Part} (hp : s.part? pid = some p) :
    ∃ t, exec (.partitionUnbind pid) s = .next t ∧ t.mem = s.mem ∧ t.part? pid = none ∧
      (∀ f ∈ t.futs, f.2.pid = pid → f.2.state = 0#3) ∧ (∀ r ∈ t.rings, r.2.pid ≠ pid) ∧ (∀ x ∈ t.trees, x.pid ≠ pid) ∧
      (∀ x ∈ t.extents, x.2.pid ≠ pid) ∧ ∀ r ∈ coresOf p.clusters, s.hubCore pid r = true →
        ∀ i, i < 5 → field (t.rankAt i r) 31 1 = 0 := by
  rw [show exec (.partitionUnbind pid) s = execPartitionUnbind pid s from rfl]
  simp only [execPartitionUnbind, hp]
  refine ⟨_, rfl, setRanks_mem _ _ _ _ _, ?_, futs_unbound _, ?_, ?_, ?_, ?_⟩
  · exact List.find?_eq_none.mpr fun q hq => by simpa using (List.mem_filter.mp hq).2
  · exact fun x hx => by simpa using (List.mem_filter.mp hx).2
  · exact fun x hx => by simpa using (List.mem_filter.mp hx).2
  · exact fun x hx => by simpa using (List.mem_filter.mp hx).2
  · intro r hr hub i hi
    exact EntryCleared.rankAt
      (entryCleared_setRanks s pid _ false _ (.inl ⟨r, List.mem_filter.mpr ⟨hr, hub⟩, i, hi, rfl⟩))

theorem exec_partitionUnbind_none (s : State) (pid : Nat) (h : s.part? pid = none) :
    exec (.partitionUnbind pid) s = .next s := by
  rw [show exec (.partitionUnbind pid) s = execPartitionUnbind pid s from rfl, execPartitionUnbind, h]

/-! Spares. -/

section
variable {s : State} {row : BitVec 6} {col : BitVec 5}
  (hf : spareFree s (BitVec.ofNat 2 (s.rank / 1024)) row.toNat col.toNat = true)
include hf

theorem exec_spareCoreReplacement_alone (hres : residentOn s s.rank = none) :
    exec (.spareCoreReplacement row col) s = .next (movePlace s s.rank row.toNat col.toNat) := by
  rw [show exec (.spareCoreReplacement row col) s = execSpareCoreReplacement row col s from rfl]
  simp [execSpareCoreReplacement, hf, hres]

theorem exec_spareCoreReplacement_resident {p : Part} (hres : residentOn s s.rank = some p) :
    exec (.spareCoreReplacement row col) s = .next
      (if (((swapOut s p.pid).part? p.pid).map (·.resident)).getD true then s
        else swapIn (movePlace (swapOut s p.pid) s.rank row.toNat col.toNat) p.pid) := by
  rw [show exec (.spareCoreReplacement row col) s = execSpareCoreReplacement row col s from rfl]
  simp only [execSpareCoreReplacement, hf, hres, Bool.true_eq_false, if_false]

end

theorem exec_spareCoreReplacement_taken (s : State) (row : BitVec 6) (col : BitVec 5)
    (hf : spareFree s (BitVec.ofNat 2 (s.rank / 1024)) row.toNat col.toNat = false) :
    exec (.spareCoreReplacement row col) s = .next s :=
  congrArg Host.Outcome.next (if_pos hf)

/-- A place's row and column in an entry of a rank table, with what an entry keeps when its place changes. -/
theorem rankAt_movePlace (s : State) (r : Nat) (row : BitVec 6) (col : BitVec 5) {i : Nat} (hi : i < 5) :
    field ((movePlace s r row.toNat col.toNat).rankAt i r) 8 6 = row.toNat ∧
      field ((movePlace s r row.toNat col.toNat).rankAt i r) 0 5 = col.toNat ∧
      field ((movePlace s r row.toNat col.toNat).rankAt i r) 14 18 = field (s.rankAt i r) 14 18 := by
  rw [movePlace, rankAt_eachRank s r _ hi]
  refine ⟨?_, ?_, ?_⟩
  · rw [field_setField_above _ _ _ (by omega) (by omega), field_setField _ _ (by omega), Nat.mod_eq_of_lt row.isLt]
  · rw [field_setField _ _ (by omega), Nat.mod_eq_of_lt col.isLt]
  · rw [field_setField_above _ _ _ (by omega) (by omega), field_setField_above _ _ _ (by omega) (by omega)]

/-! Reservations. -/

theorem exec_shadowReservationChange (s : State) (die ways : Nat) :
    ∃ t, exec (.shadowReservationChange die ways) s = .next t ∧ t.mem = s.mem ∧
      (die < 4 → ways ≤ 7 → shadowUsed s die ≤ ways * 256 → t.shadow[die]? = some ways) ∧
      (4 ≤ die ∨ 7 < ways ∨ ways * 256 < shadowUsed s die → t.shadow = s.shadow) := by
  rw [show exec (.shadowReservationChange die ways) s = execShadowReservationChange die ways s from rfl,
    execShadowReservationChange]
  by_cases hd : die < 4
  · by_cases hw : ways ≤ 7 ∧ shadowUsed s die ≤ ways * 256
    · rw [dif_pos hd, if_pos hw]
      exact ⟨_, rfl, rfl, fun _ _ _ => by simp [hd], fun h => by omega⟩
    · rw [dif_pos hd, if_neg hw]
      exact ⟨_, rfl, rfl, fun _ h7 hu => absurd ⟨h7, hu⟩ hw, fun _ => rfl⟩
  · rw [dif_neg hd]
    exact ⟨_, rfl, rfl, fun h => absurd h hd, fun _ => rfl⟩

end Sys2Proof.Machine
end

section
/-! PROOF. The loader (08_tasks.md R238, R239; 19_integration.md R483, R484), and obligation O51 from its parts. -/

namespace Sys2Proof.Machine

/-! The codes of the checks. -/

theorem loadCode_of_form_fails {s : State} {m : Mem} {len : Nat} {verified : Bool}
    (h : checkForm (imageOf m) (launchOf m) len = false) : loadCode s m len verified = 1 := if_pos h

theorem loadCode_of_unverified {s : State} {m : Mem} {len : Nat} {verified : Bool}
    (h : checkForm (imageOf m) (launchOf m) len = true) (hv : verified = false) : loadCode s m len verified = 2 := by
  simp [loadCode, h, hv]

theorem loadCode_le (s : State) (m : Mem) (len : Nat) (verified : Bool) : loadCode s m len verified ≤ 8 := by
  simp only [loadCode]
  repeat' split
  all_goals omega

/-! The answer in an entry of the loader's ring. -/

/-- The first bytes of a write are read back. -/
theorem Mem.read_write_append (m : Mem) (a : Nat) (xs ys : List Byte) : (m.write a (xs ++ ys)).read a xs.length = xs := by
  refine List.ext_getElem (Mem.read_length _ _ _) fun i _ hi => ?_
  rw [Mem.read_get _ _ _ _ hi, Mem.get_write_in (by rw [List.length_append]; omega), List.getElem_append_left hi]

/-- The answer to the entry at a key: the code of its checks and a partition, its last byte, which says that it is there, and the
loader's new head (19_integration.md R484). -/
def State.answerEntry (s : State) (e code pid : Nat) (head : BitVec 64) : State :=
  { (s.store (e + 16) (leBytes 2 code ++ leBytes 2 pid)).storeNat (e + 31) 1 1 with ldrHead := head }

section
variable (s : State) (e code pid : Nat) (head : BitVec 64)

@[simp] theorem State.answerEntry_parts : (s.answerEntry e code pid head).parts = s.parts := by
  simp [State.answerEntry]

@[simp] theorem State.answerEntry_ldrHead : (s.answerEntry e code pid head).ldrHead = head := by
  simp [State.answerEntry]

theorem State.answerEntry_mem : (s.answerEntry e code pid head).mem =
    (s.mem.write (e + 16) (leBytes 2 code ++ leBytes 2 pid)).write (e + 31) (leBytes 1 1) := by
  simp [State.answerEntry]

theorem State.answerEntry_code (h : code < 2 ^ 16) : (s.answerEntry e code pid head).mem.readNat (e + 16) 2 = code := by
  have first := Mem.read_write_append s.mem (e + 16) (leBytes 2 code) (leBytes 2 pid)
  rw [leBytes_length] at first
  rw [State.answerEntry_mem, Mem.readNat, Mem.read_write_out (.inl (by omega)), first, leNat_leBytes]
  exact Nat.mod_eq_of_lt h

theorem State.answerEntry_done : (s.answerEntry e code pid head).mem.readNat (e + 31) 1 = 1 := by
  rw [State.answerEntry_mem, Mem.readNat_write]
  rfl

theorem State.answerEntry_get {a : Nat} (h : a < e + 16 ∨ e + 32 ≤ a) :
    (s.answerEntry e code pid head).mem.get a = s.mem.get a := by
  rw [State.answerEntry_mem, Mem.get_write_out (by rw [leBytes_length]; omega),
    Mem.get_write_out (by rw [List.length_append, leBytes_length, leBytes_length]; omega)]

end

/-! Binding. -/

/-- The partition that an image binds is resident, on the image's clusters (08_tasks.md R239). -/
theorem bindImage_binds (s : State) (m : Mem) (pid : Nat) :
    ∃ p ∈ (bindImage s m pid).parts, p.pid = pid ∧ p.resident = true ∧ p.clusters = (imageOf m).clusters := by
  simp only [bindImage, pushRoots_parts]
  exact ⟨_, List.mem_append_right _ (List.mem_singleton_self _), rfl, rfl, rfl⟩

/-! An entry of the ring. -/

/-- The key of the loader's next entry (19_integration.md R484). -/
def State.loaderSlot (s : State) : Nat :=
  hostKey (field s.ldrq 6 46 * 64 + 32 * (s.ldrHead.toNat % 2 ^ max 2 (min 8 (field s.ldrq 0 6))))

/-- The length that the entry gives. -/
def State.loaderLen (s : State) : Nat := s.mem.readNat (s.loaderSlot + 8) 8

/-- The image that the entry names. -/
def State.loaderImage (s : State) : Mem := s.mem.slice (hostKey (s.mem.readNat s.loaderSlot 8)) s.loaderLen

/-- The code of the image's checks under a key. -/
def State.loaderCode (s : State) (key : RsaKey) : Nat :=
  loadCode s s.loaderImage s.loaderLen (imageVerified s key s.loaderImage s.loaderLen)

theorem exec_loaderEntry (s : State) (key : RsaKey) (hr : s.ready = true) (hn : s.ldrHead ≠ s.ldrTail) :
    exec (.loaderEntry key) s = .next
      ((if s.loaderCode key = 0 then bindImage s s.loaderImage (nextPid s) else s).answerEntry s.loaderSlot (s.loaderCode key)
        (if s.loaderCode key = 0 then nextPid s else 0) (s.ldrHead + 1#64)) :=
  congrArg Host.Outcome.next (if_pos ⟨hr, hn⟩)

theorem exec_loaderEntry_idle (s : State) (key : RsaKey) (h : s.ready = false ∨ s.ldrHead = s.ldrTail) :
    exec (.loaderEntry key) s = .next s := by
  refine congrArg Host.Outcome.next (if_neg fun hs => ?_)
  rcases h with h | h
  · simp [h] at hs
  · exact hs.2 h

theorem exec_loaderEntry_answers (s : State) (key : RsaKey) (hr : s.ready = true) (hn : s.ldrHead ≠ s.ldrTail) :
    ∃ t, exec (.loaderEntry key) s = .next t ∧ t.ldrHead = s.ldrHead + 1#64 ∧
      t.mem.readNat (s.loaderSlot + 16) 2 = s.loaderCode key ∧ t.mem.readNat (s.loaderSlot + 31) 1 = 1 ∧
      (s.loaderCode key ≠ 0 → t.parts = s.parts ∧
        ∀ a, (a < s.loaderSlot + 16 ∨ s.loaderSlot + 32 ≤ a) → t.mem.get a = s.mem.get a) ∧
      (s.loaderCode key = 0 → ∃ p ∈ t.parts, p.pid = nextPid s ∧ p.resident = true ∧
        p.clusters = (imageOf s.loaderImage).clusters) := by
  have small : s.loaderCode key < 2 ^ 16 := Nat.lt_of_le_of_lt (loadCode_le _ _ _ _) (by omega)
  refine ⟨_, exec_loaderEntry s key hr hn, State.answerEntry_ldrHead _ _ _ _ _, State.answerEntry_code _ _ _ _ _ small,
    State.answerEntry_done _ _ _ _ _, fun hc => ?_, fun hc => ?_⟩
  · rw [if_neg hc, State.answerEntry_parts]
    exact ⟨rfl, fun a ha => State.answerEntry_get _ _ _ _ _ ha⟩
  · rw [if_pos hc, State.answerEntry_parts]
    exact bindImage_binds s s.loaderImage (nextPid s)

/-- Settles O51: each clause is what one event does, by the cases of its definition; a swap keeps every partition bound because
the accesses that it performs change none. -/
theorem partitionsAndLoader : Obligations.PartitionsAndLoader := by
  unfold Obligations.PartitionsAndLoader
  refine ⟨fun s rank v pid inn dieOf ways p row col iface => ?_, fun s v key => ?_⟩
  · refine ⟨exec_rankTableWrite s iface rank v, exec_rankTableWrite_outside s iface rank v, fun hp => ⟨?_, ?_, ?_, ?_, ?_⟩,
      fun hn => ⟨exec_gangSliceInstant_none hn, exec_partitionUnbind_none s pid hn⟩, fun hf hres => ?_,
      fun hf hres hp hr => ⟨fun hrun => ?_, fun hstop => ?_⟩, exec_spareCoreReplacement_taken s row col, exec_shadowReservationChange s dieOf ways⟩
    · exact fun hr => by simp [exec_gangSliceInstant hp, hr]
    · exact fun hr => by simp [exec_gangSliceInstant hp, hr]
    · exact fun _ hrun => by rw [exec_partitionSwap, swapOut_of_stays hp (not_saves_of_running hrun)]
    · intro hr hstop hinn
      obtain ⟨q, hq, hres, hsaved, hcores⟩ := swapOut_stopped hp hr hstop
      exact ⟨_, q, by rw [exec_partitionSwap, swapIn_none (swapOut_part?_none hp hinn)], hq, hres, hsaved, hcores⟩
    · exact exec_partitionUnbind s pid hp
    · exact ⟨_, exec_spareCoreReplacement_alone hf hres, rfl, rfl, fun i hi => rankAt_movePlace s s.rank row col hi⟩
    · simp [exec_spareCoreReplacement_resident hf hres, swapOut_of_stays hp (not_saves_of_running hrun), hp, hr]
    · obtain ⟨q, hq, hout, -, -⟩ := swapOut_stopped hp hr hstop
      simp [exec_spareCoreReplacement_resident hf hres, hq, hout]
  · exact ⟨rfl, exec_loaderEntry_idle s key, exec_loaderEntry_answers s key, loadCode_of_form_fails, loadCode_of_unverified⟩

end Sys2Proof.Machine
end

section
/-! PROOF. Outcomes and captures: the walkers of the other engines take the outcomes of branches, and the S walker passes their
words (02_encoding.md R42, R43; 04_scalar.md R112 to R114; 09_compose.md R279). -/

namespace Sys2Proof.Machine

/-! The outcome queue. -/

/-- The first outcome that a walker has not consumed is marked, or retires where the other two have consumed it; those around it
stand (04_scalar.md R113). -/
theorem eatFirst_append {e : Engine} {pre : List BranchOut} (hpre : ∀ x ∈ pre, x.eaten e = true) {o : BranchOut}
    (ho : o.eaten e = false) (post : List BranchOut) :
    eatFirst e (pre ++ o :: post) =
      pre ++ if (o.eat e).byV && (o.eat e).byM && (o.eat e).byD then post else o.eat e :: post := by
  induction pre with
  | nil => simp [eatFirst, ho]
  | cons x xs ih =>
    obtain ⟨hx, hxs⟩ := List.forall_mem_cons.mp hpre
    simp [eatFirst, hx, ih hxs]

/-- The queue loses one outcome where the consumed one retires, and else none. -/
theorem length_eatFirst {e : Engine} {o : BranchOut} {l : List BranchOut} (h : l.find? (fun o => !o.eaten e) = some o) :
    (eatFirst e l).length + (if (o.eat e).byV && (o.eat e).byM && (o.eat e).byD then 1 else 0) = l.length := by
  obtain ⟨ho, pre, post, rfl, hpre⟩ := List.find?_eq_some_iff_append.mp h
  rw [eatFirst_append (by simpa using hpre) (by simpa using ho)]
  split <;> simp +arith

theorem exec_branchOutcomeConsume {s : State} {e : Engine} {o : BranchOut} (he : e ≠ .s)
    (h : s.me.outcomes.find? (fun o => !o.eaten e) = some o) :
    exec (.branchOutcomeConsume e) s = .next (s.setMe
      ({ s.me with outcomes := eatFirst e s.me.outcomes }.moveWalker e
        (if o.taken then o.target else s.me.walkerPc e + 4#64) 1#32)) := by
  rw [show exec (.branchOutcomeConsume e) s = execBranchOutcomeConsume e s from rfl, execBranchOutcomeConsume]
  simp only [h, he, if_false]

/-! The S walker at a word of another engine, which it has fetched and, as a gang's leader, sent to its followers. -/

section
variable {s f : State} {w : Nat} (hf : sFetch s = .ok (w, f)) (he : wordEngine w ≠ .s)
include hf he

theorem exec_sWalkerPassWord_composed (hc : (sendWord f w).me.composed = true) :
    exec .sWalkerPassWord s = .next (takeTrap (sendWord f w) s.rank (trapS 0x0E 0#64)) := by
  rw [show exec .sWalkerPassWord s = execSWalkerPassWord s from rfl, execSWalkerPassWord, hf]
  simp only [Res.bind, he, hc, if_false, if_true, settle]

/-- The word captures its fields in u, where no load into a register that it names is outstanding, and the walker waits only at a
word that writes a g register (04_scalar.md R112, R114). -/
theorem exec_sWalkerPassWord_captures (hc : (sendWord f w).me.composed = false) (hp : (sendWord f w).me.passing = false)
    (hq : ((sendWord f w).me.capQ (wordEngine w)).length < 16) {u : State}
    (hu : u = landRegs (sendWord f w) (sendWord f w).rank (capturedOf (rawFields w) ++ rawDest w))
    (hl : ∀ x ∈ u.me.loads, x.d ∉ capturedOf (rawFields w) ++ rawDest w) :
    exec .sWalkerPassWord s = .next (u.setMe (
      let c : Core := u.me.pushCap (wordEngine w)
        (.vals ((capturedOf (rawFields w)).map u.me.rg) (decodeWord w).toOption (sendWord f w).me.posS)
      if wordWritesG w then { c with passing := true }
      else c.moveWalker .s ((sendWord f w).me.pc + wordLen w) (BitVec.ofNat 32 (wordParcels w)))) := by
  have landed : (u.me.loads.any fun x => (capturedOf (rawFields w) ++ rawDest w).contains x.d) = false := by
    simpa using hl
  rw [show exec .sWalkerPassWord s = execSWalkerPassWord s from rfl, execSWalkerPassWord, hf]
  simp only [Res.bind, he, hc, hp, Nat.not_le.mpr hq, ← hu, landed, Bool.false_eq_true, if_false]
  split <;> rfl

end

/-- Settles O7: what a walker takes is the first outcome that it has not consumed, and the S walker's pass is the branch of its
definition that the word's hypotheses choose. -/
theorem walkersFollowBranches : Obligations.WalkersFollowBranches := by
  unfold Obligations.WalkersFollowBranches
  refine ⟨fun s e o he ho => ⟨exec_branchOutcomeConsume he ho, ?_⟩, fun s f w => ?_⟩
  · have retires := length_eatFirst ho
    split at retires
    case isTrue hr => exact ⟨by omega, by omega, fun _ => hr, fun _ => retires⟩
    case isFalse hr => exact ⟨by omega, by omega, fun _ => by omega, fun h => absurd h hr⟩
  · intro e t hf he
    refine ⟨exec_sWalkerPassWord_composed hf he, fun hc hp hq => ?_⟩
    intro l u hl c
    have passes := exec_sWalkerPassWord_captures hf he hc hp hq rfl hl
    constructor <;> intro hg <;> rw [hg] at passes <;> exact passes

end Sys2Proof.Machine
end

section
/-! PROOF. Words that the spec writes out (02_encoding.md R55 to R69; 14_futures.md R423). -/

namespace Sys2Proof.Laws

/-- Settles O58: the encoder writes each word from the fields of its instruction, and the decoder reads an encoded word back; the
word 0 has no row. -/
theorem wordsDecode : Obligations.WordsDecode := by
  unfold Obligations.WordsDecode
  exact ⟨RoundTrip.addi 5#6 0#6 4#11 rfl _ _ rfl,
    RoundTrip.addi 5#6 5#6 0x7FF#11 rfl _ _ rfl,
    RoundTrip.add 0#6 0#6 0#6 rfl _ _ rfl,
    RoundTrip.bne 5#6 0#6 0x7FC#11 rfl _ _ rfl,
    RoundTrip.exit rfl _ _ rfl,
    RoundTrip.capBnd 4#6 2#6 3#6 rfl _ _ rfl,
    RoundTrip.capInc 5#6 4#6 6#6 rfl _ _ rfl,
    RoundTrip.vfma _ rfl _ _ rfl,
    RoundTrip.mma _ rfl _ _ rfl,
    RoundTrip.dcpy _ rfl _ _ rfl,
    RoundTrip.ktTake 11#5 5#5 rfl _ _ rfl,
    RoundTrip.ktMark 11#5 5#5 rfl _ _ rfl,
    rfl⟩

end Sys2Proof.Laws
end

section
/-! PROOF. IEEE formats: what a NaN operand, an invalid operation and a zero divisor answer, and that a value which a format
represents rounds to itself (03_numbers.md R79, R80, R85). -/

namespace Sys2Proof.Machine

/-! NaNs, invalid operations and division by zero. -/

theorem Val.eq_nan_of_isNan {x : Val} (h : x.isNan = true) : x = .nan x.snan := by
  match x, h with
  | .nan _, _ => rfl

theorem Val.eq_inf_of_isInf {x : Val} (h : x.isInf = true) : x = .inf x.neg := by
  match x, h with
  | .inf _, _ => rfl

theorem Val.eq_fin_of_isZero {x : Val} (h : x.isZero = true) : ∃ e, x = .fin x.neg 0 e := by
  match x, h with
  | .fin _ 0 e, _ => exact ⟨e, rfl⟩

/-- A sum with a NaN operand is a quiet NaN, and is invalid where an operand signals. -/
theorem addVal_of_isNan {x y : Val} (h : x.isNan = true ∨ y.isNan = true) (m : Rnd) :
    addVal x y m = (.nan false, flagIf (x.snan || y.snan) fNV) := by
  obtain h | h := h
  · rw [Val.eq_nan_of_isNan h]
    rfl
  · rw [Val.eq_nan_of_isNan h]
    cases x <;> simp [addVal, Val.snan]

/-- A product with a NaN operand is a quiet NaN, and is invalid where an operand signals. -/
theorem mulVal_of_isNan {x y : Val} (h : x.isNan = true ∨ y.isNan = true) :
    mulVal x y = (.nan false, flagIf (x.snan || y.snan) fNV) := by
  obtain h | h := h
  · rw [Val.eq_nan_of_isNan h]
    rfl
  · rw [Val.eq_nan_of_isNan h]
    cases x <;> simp [mulVal, Val.snan]

/-- A quotient with a NaN operand is the canonical NaN, and is invalid where an operand signals. -/
theorem divVal_of_isNan {x y : Val} (h : x.isNan = true ∨ y.isNan = true) (f : Nat) (m : Rnd) :
    divVal f x y m = (canonNan f, flagIf (x.snan || y.snan) fNV) := by
  obtain h | h := h
  · rw [Val.eq_nan_of_isNan h]
    rfl
  · rw [Val.eq_nan_of_isNan h]
    cases x <;> simp [divVal, Val.snan]

theorem sqrtVal_of_isNan {x : Val} (h : x.isNan = true) (f : Nat) (m : Rnd) :
    sqrtVal f x m = (canonNan f, flagIf x.snan fNV) := by
  rw [Val.eq_nan_of_isNan h]
  rfl

/-- The sum of infinities of opposite signs is invalid. -/
theorem addVal_inf_opposite {x y : Val} (hx : x.isInf = true) (hy : y.isInf = true) (h : x.neg ≠ y.neg) (m : Rnd) :
    addVal x y m = (.nan false, fNV) := by
  rw [Val.eq_inf_of_isInf hx, Val.eq_inf_of_isInf hy, addVal, if_neg h]

/-- The product of an infinity and a zero, in either order, is invalid. -/
theorem mulVal_inf_zero {x y : Val}
    (h : (x.isInf = true ∧ y.isZero = true) ∨ (x.isZero = true ∧ y.isInf = true)) : mulVal x y = (.nan false, fNV) := by
  obtain ⟨hi, hz⟩ | ⟨hz, hi⟩ := h
  all_goals
    obtain ⟨e, hz⟩ := Val.eq_fin_of_isZero hz
    rw [Val.eq_inf_of_isInf hi, hz]
    rfl

/-- The root of a negative number other than −0, an infinity included, is invalid. -/
theorem sqrtVal_of_neg {x : Val} (hx : x.isNan = false) (hn : x.neg = true) (hz : x.isZero = false) (f : Nat) (m : Rnd) :
    sqrtVal f x m = (canonNan f, fNV) := by
  match x, hx, hn, hz with
  | .inf true, _, _, _ => rfl
  | .fin true (p + 1) e, _, _, _ => rfl

theorem divVal_zero {y : Val} (hy : y.isZero = true) (f : Nat) (n : Bool) (p : Nat) (e : Int) (m : Rnd) :
    divVal f (.fin n (p + 1) e) y m = (infBits f (n != y.neg), fDZ) := by
  obtain ⟨k, hk⟩ := Val.eq_fin_of_isZero hy
  rw [hk]
  rfl

/-- Where the exact sum is a quiet NaN, addF answers the canonical NaN with the flags of the sum. -/
theorem addF_of_nan {f a b : Nat} {m : Rnd} {g : BitVec 6} (h : addVal (unpack f a) (unpack f b) m = (.nan false, g)) :
    addF f a b m = (canonNan f, g) := by
  rw [addF, h]
  simp [roundVal, flagIf]

/-- Where the exact product is a quiet NaN, mulF answers the canonical NaN with the flags of the product. -/
theorem mulF_of_nan {f a b : Nat} {m : Rnd} {g : BitVec 6} (h : mulVal (unpack f a) (unpack f b) = (.nan false, g)) :
    mulF f a b m = (canonNan f, g) := by
  rw [mulF, h]
  simp [roundVal, flagIf]

/-- NV on a condition is NV exactly where it holds, and no flag exactly where it does not. -/
theorem flagIf_fNV (b : Bool) : (flagIf b fNV = fNV ↔ b = true) ∧ (flagIf b fNV = 0#6 ↔ ¬b = true) := by
  cases b <;> decide

/-- Settles O54: a NaN operand, ∞ − ∞ and 0 × ∞ make the exact result a quiet NaN, which rounds to the canonical one without a
flag of its own; quotients and roots answer it directly. -/
theorem nanResults : Obligations.NanResults := by
  unfold Obligations.NanResults
  intro f a b m _ x y nv
  have quiet (g : Bool) (p : Prop) (hp : g = true ↔ p) : nv p (canonNan f, flagIf g fNV) :=
    ⟨rfl, (flagIf_fNV g).1.trans hp, (flagIf_fNV g).2.trans (not_congr hp)⟩
  have either : (x.snan || y.snan) = true ↔ x.snan = true ∨ y.snan = true := Bool.or_eq_true _ _ |>.to_iff
  refine ⟨fun h => ⟨?_, ?_, ?_⟩, fun h => ?_, fun hx hy h => addF_of_nan (addVal_inf_opposite hx hy h m),
    fun h => mulF_of_nan (mulVal_inf_zero h), fun hx hn hz => sqrtVal_of_neg hx hn hz f m,
    fun n p e hx hy => hx ▸ divVal_zero hy f n p e m, rfl, rfl, rfl, rfl⟩
  · exact addF_of_nan (addVal_of_isNan h m) ▸ quiet _ _ either
  · exact mulF_of_nan (mulVal_of_isNan h) ▸ quiet _ _ either
  · exact divVal_of_isNan h f m ▸ quiet _ _ either
  · exact sqrtVal_of_isNan h f m ▸ quiet _ _ Iff.rfl

/-! Representable values. -/

/-- The largest exponent field, which infinities and NaNs have, is above the fields of 1 and of the subnormals. -/
theorem one_lt_maxExponent (f : Nat) : (1 : Int) < 2 ^ expBits f - 1 := by
  unfold expBits
  split <;> norm_num

/-- An IEEE format has a sign bit above its exponent and fraction fields (03_numbers.md R79). -/
theorem two_pow_fmtBits {f : Nat} (hf : f ∈ [8, 9, 10, 11]) : 2 ^ fmtBits f = 2 * signBit f := by
  simp only [List.mem_cons, List.not_mem_nil, or_false] at hf
  obtain rfl | rfl | rfl | rfl := hf <;> rfl

theorem isIeee_of_mem {f : Nat} (hf : f ∈ [8, 9, 10, 11]) : isIeee f = true := by
  simp only [List.mem_cons, List.not_mem_nil, or_false] at hf
  obtain rfl | rfl | rfl | rfl := hf <;> rfl

/-- A bit pattern of an IEEE format is its sign, its exponent field and its fraction field (03_numbers.md R79). -/
theorem bits_eq_fields {f a : Nat} (ha : a < 2 * signBit f) :
    (if decide (signBit f ≤ a) then signBit f else 0) + a / 2 ^ fracBits f % 2 ^ expBits f * 2 ^ fracBits f +
      a % 2 ^ fracBits f = a := by
  have fields : signBit f = 2 ^ fracBits f * 2 ^ expBits f := by rw [signBit, pow_add, Nat.mul_comm]
  have exponent : a / 2 ^ fracBits f % 2 ^ expBits f * 2 ^ fracBits f + a % 2 ^ fracBits f = a % signBit f := by
    rw [fields, Nat.mod_mul, Nat.mul_comm, Nat.add_comm]
  have sign : a % signBit f = if signBit f ≤ a then a - signBit f else a := by
    split
    case isTrue h => rw [Nat.mod_eq_sub_mod h, Nat.mod_eq_of_lt (by omega)]
    case isFalse h => exact Nat.mod_eq_of_lt (by omega)
  rw [Nat.add_assoc, exponent, sign]
  simp only [decide_eq_true_eq]
  split <;> omega

/-- A magnitude that is a multiple of the unit already, in its own scale, is left and is exact. -/
theorem roundAt_self (neg : Bool) (m : Nat) (e : Int) (mode : Rnd) : roundAt neg m e false e mode = (m, false) := by
  cases mode <;> simp [roundAt]

/-- The leading bit of a significand with its hidden bit is the hidden bit. -/
theorem topExp_normal {p fr : Nat} (h : fr < 2 ^ p) (e : Int) : topExp (2 ^ p + fr) e = p + e := by
  have : Nat.log2 (2 ^ p + fr) = p := (Nat.log2_eq_iff (by positivity)).2 ⟨by omega, by rw [pow_succ]; omega⟩
  rw [topExp, this]

/-- A significand in the scale in which its format holds it, hidden bit included, is packed as it stands, without a flag. -/
theorem roundTo_of_scaled {f m : Nat} {e : Int} (hm : m < 2 ^ (fracBits f + 1))
    (hscale : m ≠ 0 → max (topExp m e - fracBits f) (1 - fbias f - fracBits f) = e)
    (hex : e + fracBits f + fbias f < 2 ^ expBits f - 1) (neg : Bool) (mode : Rnd) :
    roundTo f neg m e false mode =
      ((if neg then signBit f else 0) + (if m < 2 ^ fracBits f then 0 else e + fracBits f + fbias f).toNat * 2 ^ fracBits f +
        m % 2 ^ fracBits f, 0#6) := by
  by_cases hz : m = 0
  · simp [roundTo, hz]
  · have emax := one_lt_maxExponent f
    have inRange : ¬ (2 ^ expBits f - 1 : Int) ≤ if m < 2 ^ fracBits f then 0 else e + fracBits f + fbias f := by
      split <;> omega
    simp [roundTo, hz, hscale hz, roundAt_self, Nat.not_le.mpr hm, inRange, flagIf]

/-- A subnormal significand rounds to itself in the scale of the subnormals (03_numbers.md R79, R85). -/
theorem roundTo_subnormal {f fr : Nat} (h : fr < 2 ^ fracBits f) (neg : Bool) (mode : Rnd) :
    roundTo f neg fr (1 - fbias f - fracBits f) false mode = ((if neg then signBit f else 0) + fr, 0#6) := by
  have emax := one_lt_maxExponent f
  rw [roundTo_of_scaled (by rw [pow_succ]; omega) (fun hz => ?_) (by omega), if_pos h, Nat.mod_eq_of_lt h]
  · simp
  · have := (Nat.log2_lt hz).2 h
    rw [topExp]
    omega

/-- A normal significand rounds to itself in the scale of its exponent field (03_numbers.md R79, R85). -/
theorem roundTo_normal {f fr ex : Nat} (h : fr < 2 ^ fracBits f) (h0 : ex ≠ 0) (h1 : ex < 2 ^ expBits f - 1) (neg : Bool)
    (mode : Rnd) :
    roundTo f neg (2 ^ fracBits f + fr) (ex - fbias f - fracBits f) false mode =
      ((if neg then signBit f else 0) + ex * 2 ^ fracBits f + fr, 0#6) := by
  have finite : (ex : Int) + 1 < 2 ^ expBits f := by exact_mod_cast Nat.add_lt_of_lt_sub h1
  rw [roundTo_of_scaled (by rw [pow_succ]; omega) (fun _ => by rw [topExp_normal h]; omega) (by omega),
    if_neg (by omega : ¬2 ^ fracBits f + fr < 2 ^ fracBits f), Nat.add_mod_left, Nat.mod_eq_of_lt h,
    show (ex - fbias f - fracBits f + fracBits f + fbias f : Int) = ex by omega, Int.toNat_natCast]

/-- Settles O55: an infinity is its own bits, a subnormal or a zero its fraction field, a normal its exponent field and its fraction
under the hidden bit; each is in the scale in which the rounding keeps it. -/
theorem representableExact : Obligations.RepresentableExact := by
  unfold Obligations.RepresentableExact
  intro f a m hf ha hn
  rw [two_pow_fmtBits hf] at ha
  have fields := bits_eq_fields ha
  have fraction := Nat.mod_lt a (show 0 < 2 ^ fracBits f by positivity)
  have exponent := Nat.mod_lt (a / 2 ^ fracBits f) (show 0 < 2 ^ expBits f by positivity)
  simp only [unpack, isIeee_of_mem hf, if_true, Nat.mod_eq_of_lt ha] at hn ⊢
  split at hn
  case isTrue htop =>
    split at hn
    case isTrue hzero =>
      rw [if_pos htop, if_pos hzero, roundVal, infBits]
      rw [htop, hzero] at fields
      exact congrArg (·, 0#6) fields
    case isFalse => cases hn
  case isFalse htop =>
    rw [if_neg htop]
    split
    case isTrue hsub =>
      rw [roundVal, roundTo_subnormal fraction]
      rw [hsub] at fields
      simpa using fields
    case isFalse hnormal =>
      rw [roundVal, roundTo_normal fraction hnormal (by omega), fields]

end Sys2Proof.Machine
end

section
/-! PROOF. Tile steps: the words at the M walker that start, the rows of an accumulator after a step, and the mask record of MMAM
(03_numbers.md R98 to R100; 11_matrix.md R332, R338, R342, R347). -/

namespace Sys2Proof.Machine

/-- A check that follows another answers a value only where both do. -/
theorem Res.bind_eq_ok {α β : Type} {x : Res α} {f : α → Res β} {b : β} (h : x.bind f = .ok b) :
    ∃ a, x = .ok a ∧ f a = .ok b := by
  cases x with
  | ok a => exact ⟨a, rfl, h⟩
  | trap t s => cases h
  | hold k s => cases h

/-! M words that start. -/

/-- An M word that may start has its effect, and the walker steps past it (11_matrix.md R332). -/
theorem mExec_of_mStarts {s : State} {op : Instr} {l : List GVal} (h : MStarts s op l) :
    mExec s op false =
      (mStart s none op l).bind fun r => .ok (r.1.modMe fun c => c.mPast.mStarted op r.2 c.posM) := by
  obtain ⟨hhead, hnest, hready⟩ := h
  simp [mExec, hhead, hnest, hready]

section
variable {s t : State} {op : Instr} {l : List GVal} {nb : Bool} (hnb : nb = false) (hs : MStarts s op l)
include hnb hs

/-- An M word whose effect is carried out stands among the started words (11_matrix.md R332). -/
theorem settleE_mExec_of_ok {f : BitVec 6} (he : mStart s none op l = .ok (t, f)) :
    settleE .m s (mExec s op nb) = MAfter t op f := by
  rw [hnb, mExec_of_mStarts hs, he]
  rfl

theorem settleE_mExec_of_trap {x : Trap} (he : mStart s none op l = .trap x t) :
    settleE .m s (mExec s op nb) = .next (takeTrap t s.rank x) := by
  rw [hnb, mExec_of_mStarts hs, he]
  rfl
end

theorem exec_mma (w : MWord) (s : State) : exec (.mma w) s = settleE .m s (mExec s (.mma w) w.nb) := rfl

theorem exec_mmam (w : MWord) (s : State) : exec (.mmam w) s = settleE .m s (mExec s (.mmam w) w.nb) := rfl

/-! Accumulators and rows of bytes. -/

@[simp] theorem Core.racc_wacc (c : Core) (i : BitVec 1) (m : Mem) : (c.wacc i m).racc i = m := by
  simp [Core.racc, Core.wacc]

/-- A tile has at most 128 rows (11_matrix.md R330). -/
theorem Core.shape_rows_le (c : Core) (i : BitVec 3) : (c.shape i).rows ≤ 128 := by
  have : (c.shape i).rows = field (c.ctl.tshp[i.toNat]'(by have := i.isLt; omega)) 5 7 + 1 := rfl
  have := Nat.mod_lt ((c.ctl.tshp[i.toNat]'(by have := i.isLt; omega)).toNat / 2 ^ 5) (show 0 < 2 ^ 7 by decide)
  simp only [field] at *
  omega

theorem Mem.readNat_congr {m p : Mem} {a n : Nat} (h : ∀ k, a ≤ k → k < a + n → Mem.get m k = Mem.get p k) :
    m.readNat a n = p.readNat a n := by
  rw [Mem.readNat, Mem.read_congr h, Mem.readNat]

/-- A read of a middle part of what was written gives that part. -/
theorem Mem.read_write_mid (m : Mem) (a : Nat) (xs ys zs : List Byte) :
    (m.write a (xs ++ (ys ++ zs))).read (a + xs.length) ys.length = ys := by
  refine List.ext_getElem (Mem.read_length _ _ _) fun i _ hi => ?_
  rw [Mem.read_get _ _ _ _ hi, Nat.add_assoc, Mem.get_write_in (by simp only [List.length_append]; omega)]
  simp [List.getElem_append_right, List.getElem_append_left hi]

theorem length_flatten_leBytes (n : Nat) (l : List Nat) : (l.map (leBytes n)).flatten.length = n * l.length := by
  induction l with
  | nil => rfl
  | cons v l ih => simp [ih, leBytes_length, Nat.mul_succ, Nat.add_comm]

/-- Number j of a written run of numbers of n bytes is read back. -/
theorem Mem.readNat_write_flatten (m : Mem) (a n : Nat) {l : List Nat} {j : Nat} (hj : j < l.length) :
    (m.write a (l.map (leBytes n)).flatten).readNat (a + n * j) n = l[j] % 256 ^ n := by
  have cut : (l.map (leBytes n)).flatten = ((l.take j).map (leBytes n)).flatten ++
      (leBytes n l[j] ++ ((l.drop (j + 1)).map (leBytes n)).flatten) := by
    conv_lhs => rw [← List.take_append_drop j l, List.drop_eq_getElem_cons hj]
    rw [List.map_append, List.map_cons, List.flatten_append, List.flatten_cons]
  have mid := Mem.read_write_mid m a ((l.take j).map (leBytes n)).flatten (leBytes n l[j])
    ((l.drop (j + 1)).map (leBytes n)).flatten
  rw [← cut, length_flatten_leBytes, leBytes_length, List.length_take_of_le hj.le] at mid
  rw [Mem.readNat, mid, leNat_leBytes]

/-! A tile step, element by element. -/

/-- What a tile step leaves in element (i, j) of an accumulator, with its flags: the sum where the half of column j computes the
element, else the element (11_matrix.md R342, R347). -/
def stepValue (acc : Mem) (i j : Nat) (a b : Block × Nat × BitVec 6) (h0 h1 : Half) : Nat × BitVec 6 :=
  let old := acc.readNat (512 * i + 4 * j) 4
  if (if j < 64 then h0 else h1).on i j then stepElement old a b else (old, 0#6)

/-- The value of an element depends on the accumulator at that element only. -/
theorem stepValue_congr {acc acc' : Mem} {i j : Nat} (h : acc.readNat (512 * i + 4 * j) 4 = acc'.readNat (512 * i + 4 * j) 4)
    (a b : Block × Nat × BitVec 6) (h0 h1 : Half) : stepValue acc i j a b h0 h1 = stepValue acc' i j a b h0 h1 := by
  rw [stepValue, stepValue, h]

section
variable (a : Block × Nat × BitVec 6) (bs : List (Block × Nat × BitVec 6)) (h0 h1 : Half)

theorem stepRow_bytes (acc : Mem) (i : Nat) :
    (stepRow acc i a bs h0 h1).1 =
      ((bs.zipIdx.map fun x => (stepValue acc i x.2 a x.1 h0 h1).1).map (leBytes 4)).flatten := by
  simp only [stepRow, List.map_map]
  rfl

theorem stepRow_length (acc : Mem) (i : Nat) : (stepRow acc i a bs h0 h1).1.length = 4 * bs.length := by
  rw [stepRow_bytes, length_flatten_leBytes, List.length_map, List.length_zipIdx]

theorem readNat_write_stepRow (acc : Mem) (i : Nat) {j : Nat} (hj : j < bs.length) :
    (acc.write (512 * i) (stepRow acc i a bs h0 h1).1).readNat (512 * i + 4 * j) 4 =
      (stepValue acc i j a bs[j] h0 h1).1 % 2 ^ 32 := by
  rw [stepRow_bytes, Mem.readNat_write_flatten _ _ _ (by simpa using hj)]
  simp
end

section
variable {ta : Mem} {xa : Shape} {bs : List (Block × Nat × BitVec 6)} {h0 h1 : Half} {n : Nat}

/-- The last n rows of a step leave the bytes of the other rows and of the columns that have no operand row. -/
theorem stepRows_get_out (hb : bs.length ≤ 128) (hn : n ≤ xa.rows) {k : Nat}
    (hk : k / 512 < xa.rows - n ∨ xa.rows ≤ k / 512 ∨ 4 * bs.length ≤ k % 512) (acc : Mem) (f : BitVec 6) :
    (stepRows ta xa bs h0 h1 n acc f).1.get k = acc.get k := by
  induction n generalizing acc f with
  | zero => rfl
  | succ n ih =>
    rw [stepRows, ih (by omega) (by omega), Mem.get_write_out (by rw [stepRow_length]; omega)]

/-- The last n rows of a step leave in each of their elements its value. -/
theorem readNat_stepRows (hb : bs.length ≤ 128) (hn : n ≤ xa.rows) {i j : Nat} (hi : xa.rows - n ≤ i) (hrow : i < xa.rows)
    (hj : j < bs.length) (acc : Mem) (f : BitVec 6) :
    (stepRows ta xa bs h0 h1 n acc f).1.readNat (512 * i + 4 * j) 4 =
      (stepValue acc i j (operandRow ta xa i) bs[j] h0 h1).1 % 2 ^ 32 := by
  induction n generalizing acc f with
  | zero => omega
  | succ n ih =>
    rw [stepRows]
    by_cases first : i = xa.rows - (n + 1)
    · rw [Mem.readNat_congr fun k _ _ => stepRows_get_out hb (by omega) (by omega) _ _, ← first]
      exact readNat_write_stepRow _ _ _ _ acc i hj
    · rw [ih (by omega) (by omega)]
      have apart : (acc.write (512 * (xa.rows - (n + 1))) (stepRow acc (xa.rows - (n + 1))
          (operandRow ta xa (xa.rows - (n + 1))) bs h0 h1).1).readNat (512 * i + 4 * j) 4 = acc.readNat (512 * i + 4 * j) 4 :=
        Mem.readNat_congr fun k _ _ => Mem.get_write_out (by rw [stepRow_length]; omega)
      rw [stepValue_congr apart]
end

/-- The accumulator and the flags of a tile step on a core's tiles (03_numbers.md R98 to R100). -/
def Core.stepped (c : Core) (w : MWord) (h0 h1 : Half) : Mem × BitVec 6 :=
  let xa := c.shape (tileOf w.a)
  let xb := c.shape (tileOf w.b)
  let bs := (List.range xb.rows).map fun j => operandRow (c.rtile (tileOf w.b)) xb j
  stepRows (c.rtile (tileOf w.a)) xa bs h0 h1 xa.rows (c.racc (accOf w.d)) (bs.foldl (fun f b => f ||| b.2.2) 0#6)

section
variable (c : Core) (w : MWord) (h0 h1 : Half)

theorem Core.readNat_stepped {i j : Nat} (hi : i < (c.shape (tileOf w.a)).rows) (hj : j < (c.shape (tileOf w.b)).rows) :
    (c.stepped w h0 h1).1.readNat (512 * i + 4 * j) 4 =
      (stepValue (c.racc (accOf w.d)) i j (operandRow (c.rtile (tileOf w.a)) (c.shape (tileOf w.a)) i)
        (operandRow (c.rtile (tileOf w.b)) (c.shape (tileOf w.b)) j) h0 h1).1 % 2 ^ 32 := by
  rw [Core.stepped, readNat_stepRows (by simpa using c.shape_rows_le _) le_rfl (by omega) hi (by simpa using hj)]
  simp

theorem Core.get_stepped_out {k : Nat} (hk : (c.shape (tileOf w.a)).rows ≤ k / 512 ∨ 4 * (c.shape (tileOf w.b)).rows ≤ k % 512) :
    (c.stepped w h0 h1).1.get k = (c.racc (accOf w.d)).get k :=
  stepRows_get_out (by simpa using c.shape_rows_le _) le_rfl (.inr (by simpa using hk)) _ _

/-- A step without a residue mismatch writes the accumulator once (11_matrix.md R338). -/
theorem tileStep_of_residue_nil {s : State} (h : s.me.residue = []) :
    tileStep w h0 h1 s =
      .ok (s.modMe fun c => c.wacc (accOf w.d) (s.me.stepped w h0 h1).1, (s.me.stepped w h0 h1).2) := by
  simp only [tileStep, h]
  rfl

/-- A second mismatch is a machine check that leaves the accumulators (11_matrix.md R338). -/
theorem tileStep_of_two_mismatches {s : State} {j j2 : BitVec 7} {r : List (BitVec 7)} (h : s.me.residue = j :: j2 :: r) :
    ∃ t, tileStep w h0 h1 s = .trap (mkTrap .m 0x0D 0#64) t ∧ t.me.acc = s.me.acc := by
  simp only [tileStep, h]
  exact ⟨_, rfl, by simp [Core.retry, Core.modCtl]⟩
end

/-! MMA. -/

/-- Both halves of an unmasked step compute every element (11_matrix.md R347). -/
def wholeHalf : Half := { code := 1, bits := [] }

theorem stepValue_whole (acc : Mem) (i j : Nat) (a b : Block × Nat × BitVec 6) :
    stepValue acc i j a b wholeHalf wholeHalf = stepElement (acc.readNat (512 * i + 4 * j) 4) a b := by
  simp [stepValue, wholeHalf, Half.on]

/-- An MMA touches no memory: it starts in the state in which it stands. -/
theorem mStart_mma (s : State) (w : MWord) (l : List GVal) : mStart s none (.mma w) l =
    if stepTiles s.me w then tileStep w wholeHalf wholeHalf s else .trap (mkTrap .m 0x01 0#64) s := rfl

/-! MMAM. -/

/-- What maskHalf answers has the code that it was asked for (11_matrix.md R342). -/
theorem maskHalf_code {s : State} {cap : GVal} {x : Word64} {h code : Nat} {r : Half × State}
    (e : maskHalf s cap x h code = .ok r) : r.1.code = code := by
  unfold maskHalf at e
  split at e
  · obtain ⟨t, -, e⟩ := Res.bind_eq_ok e
    obtain ⟨q, -, e⟩ := Res.bind_eq_ok e
    cases e
    rfl
  · cases e
    rfl

/-- A half computes every element where its code is 1, and those of its bitmap where its code is 2 (11_matrix.md R342). -/
theorem Half.on_of_code {h : Half} {code : Nat} (hc : h.code = code) (i j : Nat) :
    h.on i j = (code == 1 || (code == 2 && (h.bits.get (8 * i + j % 64 / 8)).getLsbD (j % 8))) := by
  rw [Half.on, hc]

section
variable {s u v : State} {w : MWord} {k : Caps} {t : Target} {m : Mem}

/-- The mask record's first byte, once the record is read, decides between a format error and the halves of the step
(11_matrix.md R342, R347). -/
theorem mmamEffect_of_record (htiles : stepTiles s.me w = true)
    (hspec : mspecAt s k.m (maskAddr none w k.m) 64 permLoad true = .ok (t, u))
    (hread : engRead u .m (maskAddr none w k.m) 64 t = .ok (m, v)) :
    mmamEffect w none k s =
      let b := (m.get 0).toNat
      if 16 ≤ b ∨ b % 4 = 3 ∨ b / 4 = 3 then .trap (mkTrap .m 0x13 (maskAddr none w k.m)) v
      else
        (maskHalf v k.m (maskAddr none w k.m) 0 (b % 4)).bind fun h0 =>
          (maskHalf h0.2 k.m (maskAddr none w k.m) 1 (b / 4)).bind fun h1 =>
            if b = 0 then .ok (h1.2, 0#6) else tileStep w h0.1 h1.1 h1.2 := by
  simp only [mmamEffect, htiles, hspec, hread, Res.bind, if_true]
end

/-- An MMAM starts in the state that the accesses to its mask record leave (04_scalar.md R116). -/
theorem mStart_mmam (s : State) (w : MWord) (l : List GVal) :
    mStart s none (.mmam w) l = mmamEffect w none (capsOf (mFields w) l) (mAt s (.mmam w) l) := rfl

/-! The statement, in its two parts. -/

/-- 03_numbers.md R98 to R100, 11_matrix.md R347: MMA adds to the elements within both row counts and leaves the others. -/
theorem exec_mma_adds {s : State} {w : MWord} {l : List GVal} (hnb : w.nb = false) (hs : MStarts s (.mma w) l)
    (ha : (s.me.shape (tileOf w.a)).stepOk = true) (hb : (s.me.shape (tileOf w.b)).stepOk = true) (hr : s.me.residue = []) :
    ∃ t f, exec (.mma w) s = MAfter t (.mma w) f ∧
      t = s.modMe (fun c => c.wacc (accOf w.d) (t.me.racc (accOf w.d))) ∧
      (∀ i j, i < (s.me.shape (tileOf w.a)).rows → j < (s.me.shape (tileOf w.b)).rows →
        (t.me.racc (accOf w.d)).readNat (512 * i + 4 * j) 4 =
          (stepElement ((s.me.racc (accOf w.d)).readNat (512 * i + 4 * j) 4)
            (operandRow (s.me.rtile (tileOf w.a)) (s.me.shape (tileOf w.a)) i)
            (operandRow (s.me.rtile (tileOf w.b)) (s.me.shape (tileOf w.b)) j)).1 % 2 ^ 32) ∧
      ∀ b, ((s.me.shape (tileOf w.a)).rows ≤ b / 512 ∨ 4 * (s.me.shape (tileOf w.b)).rows ≤ b % 512) →
        (t.me.racc (accOf w.d)).get b = (s.me.racc (accOf w.d)).get b := by
  have starts : mStart s none (.mma w) l =
      .ok (s.modMe fun c => c.wacc (accOf w.d) (s.me.stepped w wholeHalf wholeHalf).1, (s.me.stepped w wholeHalf wholeHalf).2) := by
    have fit : stepTiles s.me w = true := Bool.and_eq_true_iff.2 ⟨ha, hb⟩
    rw [mStart_mma, fit, if_pos rfl, tileStep_of_residue_nil _ _ _ hr]
  refine ⟨_, _, exec_mma w s ▸ settleE_mExec_of_ok hnb hs starts, by simp, fun i j hi hj => ?_, fun b h => ?_⟩
  · rw [State.me_modMe, Core.racc_wacc, Core.readNat_stepped _ _ _ _ hi hj, stepValue_whole]
  · rw [State.me_modMe, Core.racc_wacc, Core.get_stepped_out _ _ _ _ h]

/-- Settles O43: an MMA is one step with whole halves, row by row; an MMAM is decided by the first byte of its mask record. -/
theorem matrixStep : Obligations.MatrixStep := by
  unfold Obligations.MatrixStep
  constructor
  · intro s w l ta tb xa xb old hnb hs
    refine ⟨fun h => ?_, exec_mma_adds hnb hs, fun ha hb j j2 r hr => ?_⟩
    · have unfit : stepTiles s.me w = false := Bool.and_eq_false_iff.2 h
      rw [exec_mma, settleE_mExec_of_trap hnb hs (by rw [mStart_mma, unfit]; rfl)]
    · obtain ⟨t, ht, hacc⟩ := tileStep_of_two_mismatches w wholeHalf wholeHalf hr
      have fit : stepTiles s.me w = true := Bool.and_eq_true_iff.2 ⟨ha, hb⟩
      exact ⟨t, by rw [exec_mma, settleE_mExec_of_trap hnb hs (by rw [mStart_mma, fit, if_pos rfl, ht])], hacc⟩
  · intro s u v w l t m h0 h1 k s0 x b hnb hs htiles hspec hread
    have effect := (mStart_mmam s w l).trans (mmamEffect_of_record htiles hspec hread)
    simp only [show (m.get 0).toNat = b from rfl] at effect
    rw [exec_mmam]
    refine ⟨fun h => settleE_mExec_of_trap hnb hs (effect.trans (if_pos h)), fun h => settleE_mExec_of_ok hnb hs ?_,
      fun hlt hlo hhi hne e0 e1 => ⟨fun z f hz => settleE_mExec_of_ok hnb hs ?_,
        fun hr => ⟨_, _, tileStep_of_residue_nil _ _ _ hr⟩, Half.on_of_code (maskHalf_code e0)⟩⟩
    · rw [effect, h]
      rfl
    · rw [effect, if_neg (by omega), e0, Res.bind, e1, Res.bind, if_neg hne, hz]

end Sys2Proof.Machine
end

section
/-! PROOF. The laws of stores: the bytes, the capability tags and the poison marks that a store leaves (05_memory.md R150,
R152), and obligation O60 from them. -/

namespace Sys2Proof.Machine

/-! Bytes of a number. -/

theorem leBytes_getElem {n v i : Nat} (h : i < (leBytes n v).length) : (leBytes n v)[i] = BitVec.ofNat 8 (v / 256 ^ i) := by
  induction n generalizing v i with
  | zero => simp [leBytes] at h
  | succ n ih =>
    cases i with
    | zero => simp [leBytes]
    | succ i => simp only [leBytes, List.getElem_cons_succ, ih, Nat.div_div_eq_div_mul, Nat.pow_succ']

theorem State.storeNat_get (s : State) (k v : Nat) {n i : Nat} (h : i < n) :
    (s.storeNat k n v).mem.get (k + i) = BitVec.ofNat 8 (v / 256 ^ i) := by
  rw [State.storeNat_mem, Mem.get_write_in (by rwa [leBytes_length]), leBytes_getElem]

/-! Capability tags. -/

theorem State.ctag_iff (s : State) (a : Nat) : s.ctag a = true ↔ a / 16 ∈ s.ctags := by
  simp [State.ctag]

theorem State.store_ctag_iff (s : State) (k : Nat) {bs : List Byte} (h : bs ≠ []) (a : Nat) :
    (s.store k bs).ctag a = true ↔ s.ctag a = true ∧ ¬(k / 16 ≤ a / 16 ∧ a / 16 ≤ (k + bs.length - 1) / 16) := by
  have := List.length_pos_iff.2 h
  rw [State.ctag_iff, State.ctag_iff]
  refine Keys.mem_clear.trans (and_congr_right fun _ => ?_)
  simp only [unitSpan]
  omega

/-- A store clears the tag of the unit in which it begins. -/
theorem State.store_ctag_same (s : State) (k : Nat) {bs : List Byte} (h : bs ≠ []) : (s.store k bs).ctag k = false := by
  have := List.length_pos_iff.2 h
  rw [Bool.eq_false_iff, Ne, State.store_ctag_iff s k h, not_and, not_not]
  exact fun _ => ⟨le_rfl, Nat.div_le_div_right (by omega)⟩

theorem State.storeTagged_ctag_true (s : State) (k : Nat) (bs : List Byte) : (s.storeTagged k bs true).ctag k = true :=
  (State.ctag_iff _ _).2 (Keys.mem_insert.2 (.inl rfl))

/-- A store with a tag leaves the unit in which it begins with that tag. -/
theorem State.storeTagged_ctag_same (s : State) (k : Nat) {bs : List Byte} (h : bs ≠ []) (tag : Bool) :
    (s.storeTagged k bs tag).ctag k = tag := by
  cases tag with
  | false => exact State.store_ctag_same s k h
  | true => exact State.storeTagged_ctag_true s k bs

/-- A unit stored with its tag reads back as it was stored (05_memory.md R152). -/
theorem State.loadUnit_storeTagged (s : State) (k : Nat) (x : GVal) :
    (s.storeTagged k (leBytes 16 x.bits.toNat) x.tag).loadUnit k = x := by
  have bytes : (s.mem.write k (leBytes 16 x.bits.toNat)).readNat k 16 = x.bits.toNat :=
    (Mem.readNat_write ..).trans (Nat.mod_eq_of_lt x.bits.isLt)
  have tag := State.storeTagged_ctag_same s k (bs := leBytes 16 x.bits.toNat) (by simp [leBytes]) x.tag
  simp only [State.loadUnit, State.storeTagged_mem, bytes, tag, BitVec.ofNat_toNat, BitVec.setWidth_eq]

/-! Poison marks. -/

theorem State.poisoned_iff (s : State) (k n : Nat) : s.poisoned k n = true ↔ ∃ a ∈ s.poison, k ≤ a ∧ a < k + n := by
  simp [State.poisoned, Keys.any]

/-- A store leaves none of its bytes poisoned (01_machine.md R37). -/
theorem State.store_not_poisoned (s : State) (k : Nat) (bs : List Byte) : (s.store k bs).poisoned k bs.length = false := by
  rw [Bool.eq_false_iff, Ne, State.poisoned_iff]
  rintro ⟨a, ha, hlo, hhi⟩
  have := (Keys.mem_clear.1 ha).2
  omega

/-- Settles O60: each clause is a law of one store. -/
theorem memoryLaws : Obligations.MemoryLaws := by
  unfold Obligations.MemoryLaws
  intro s k n v bs x p
  refine ⟨fun h => ⟨State.store_wf h k bs, fun hp => State.storeSparse_wf h hp k n⟩, Mem.read_write_same s.mem k bs,
    Mem.readNat_write s.mem k n v, fun a ha => Mem.get_write_out ha, fun h => State.store_ctag_iff s k h,
    State.store_not_poisoned s k bs, fun _ => ⟨State.loadUnit_storeTagged s k x, ?_⟩, fun i hi => State.storeNat_get s k v hi⟩
  rw [State.storeTagged_mem]

end Sys2Proof.Machine
end

section
/-! PROOF. Loads: what a load of checked bytes answers (05_memory.md R164, R175; 06_ordering.md R185; 09_compose.md R276), and
obligation O12 for LD, LDLOC and LDACQ. -/

namespace Sys2Proof.Machine

/-! The pieces of a load. -/

theorem Mem.read_append (m : Mem) (a i j : Nat) : m.read a i ++ m.read (a + i) j = m.read a (i + j) := by
  induction i generalizing a with
  | zero => simp [Mem.read]
  | succ i ih => rw [Nat.add_right_comm, Mem.read, Mem.read, List.cons_append, ← ih, Nat.add_assoc, Nat.add_comm 1]

/-- The single-copy atomic pieces of a run hold the bytes of the run (06_ordering.md R191). -/
theorem flatten_read_atomsOf (m : Mem) {b : Nat} (hb : 0 < b) {fuel n : Nat} (hn : n ≤ fuel) (key : Nat) :
    ((atomsOf b fuel key n).map fun p => m.read p.1 p.2).flatten = m.read key n := by
  induction fuel generalizing key n with
  | zero => rw [Nat.le_zero.1 hn]; rfl
  | succ fuel ih =>
    rw [atomsOf]
    split
    case isTrue h => rw [h]; rfl
    case isFalse h =>
      have := Nat.mod_lt key hb
      rw [List.map_cons, List.flatten_cons, ih (by omega), Mem.read_append, Nat.add_sub_cancel' (Nat.min_le_left _ _)]

theorem State.atomSize_pos (s : State) (key : Nat) : 0 < s.atomSize key := by
  unfold State.atomSize
  repeat' split
  all_goals decide

/-- The pieces of a load hold the bytes of its chunks (05_memory.md R173). -/
theorem flatten_loadParts (s : State) (l : List Chunk) : ((loadParts s l).map (·.2)).flatten = s.readChunks l := by
  rw [loadParts, State.atoms, List.map_map]
  induction l with
  | nil => rfl
  | cons k l ih =>
    rw [List.map_cons, List.flatten_cons, List.map_append, List.flatten_append, ih]
    exact congrArg (· ++ _) (flatten_read_atomsOf s.mem (s.atomSize_pos k.key) le_rfl k.key)

theorem loadParts_keys (s : State) (l : List Chunk) : (loadParts s l).map (·.1) = (s.atoms l).map (·.1) := by
  rw [loadParts, List.map_map]
  rfl

/-! A load that ends. -/

/-- What a load of n bytes through a capability reads of the chunks l: the number, with zero above, and for 16 bytes the tag of the
unit (05_memory.md R175). -/
def State.readVal (s : State) (c : GVal) (n : Nat) (l : List Chunk) : GVal :=
  { bits := BitVec.ofNat 128 (leNat (s.readChunks l))
    tag := n == 16 && (l.all (fun k => !k.host && s.ctag k.key) && capHas c.bits permLoadCap) }

/-- The load of register d that has read a value, with its post-update. -/
def loadWith (d : GIdx) (v : GVal) (upd : Option (Width × Update × BitVec 6)) : PendingLoad :=
  { d := d, parts := [], got := leBytes 16 v.bits.toNat, tag := v.tag, upd := upd }

theorem ofNat_leNat_leBytes (x : BitVec 128) : BitVec.ofNat 128 (leNat (leBytes 16 x.toNat)) = x := by
  rw [leNat_leBytes, Nat.mod_eq_of_lt (by exact x.isLt), BitVec.ofNat_toNat, BitVec.setWidth_eq]

theorem Core.loaded_loadWith_none (c : Core) (d : GIdx) (v : GVal) : c.loaded (loadWith d v none) = c.wg d v := by
  simp only [Core.loaded, loadWith, ofNat_leNat_leBytes]

theorem Core.loaded_loadWith_some (c : Core) (d : GIdx) (v : GVal) (wd : Width) (upd : Update) (inc : BitVec 6) :
    c.loaded (loadWith d v (some (wd, upd, inc))) = updated (c.wg d v) d wd upd inc := by
  simp only [Core.loaded, loadWith, ofNat_leNat_leBytes]

/-- The post-update that a load brings to its register (05_memory.md R177). -/
def LoadKind.post : LoadKind → Option (Width × Update × BitVec 6)
  | .upd u => some u
  | _ => none

@[simp] theorem LoadKind.post_plain : LoadKind.post .plain = none := rfl
@[simp] theorem LoadKind.post_upd (u : Width × Update × BitVec 6) : LoadKind.post (.upd u) = some u := rfl
@[simp] theorem LoadKind.post_acq (b : Bool) : LoadKind.post (.acq b) = none := rfl

/-! A load of checked bytes. -/

/-- The load that waits in a state for the bytes of chunks. -/
def LoadKind.pending (kind : LoadKind) (s : State) (d : GIdx) (c : GVal) (x : Word64) (n : Nat) (l : List Chunk) : PendingLoad :=
  { loadOf s d x l (n == 16 && (l.all fun k => !k.host) && capHas c.bits permLoadCap) with
    upd := kind.post, acq := kind == .acq true }

section
variable {s u : State} {d : GIdx} {c : GVal} {x : Word64} {n align : Nat} {al : Allow} {l : List Chunk}
  (checked : access s .s c x n permLoad align al = .ok (.bytes l, u))
include checked

/-- A load waits for an arming or a decrement of its bytes (06_ordering.md R185). -/
theorem loadAt_of_slotPending (h : slotPending u s.rank (runsOf l) = true) (kind : LoadKind) :
    loadAt s kind d c x n align al = .hold .engines u := by
  simp only [loadAt, checked, Res.bind, h, if_true]

section
variable (unsent : slotPending u s.rank (runsOf l) = false)
include unsent

section
variable {kind : LoadKind} (hwait : s.lazy = true ∧ kind ≠ .acq false ∧ u.chunksPoisoned l = false)
include hwait

theorem loadAt_of_waits : loadAt s kind d c x n align al = waitLoad u (kind.pending u d c x n l) := by
  simp only [loadAt, checked, Res.bind, unsent, Bool.false_eq_true, if_false, if_pos hwait]
  cases kind <;> rfl

theorem loadAt_of_full (full : u.me.loadRoom ((u.atoms l).map (·.1)) = false) :
    loadAt s kind d c x n align al = .hold .queueFull u := by
  rw [loadAt_of_waits checked unsent hwait, waitLoad, if_neg]
  exact Bool.eq_false_iff.1 (loadParts_keys u l ▸ full)

theorem loadAt_of_room (room : u.me.loadRoom ((u.atoms l).map (·.1)) = true) :
    loadAt s kind d c x n align al =
      .ok (u.modMe fun m => { m with loads := m.loads ++ [kind.pending u d c x n l] }) := by
  rw [loadAt_of_waits checked unsent hwait, waitLoad, if_pos]
  exact loadParts_keys u l ▸ room
end

section
variable {kind : LoadKind} (now : ¬(s.lazy = true ∧ kind ≠ .acq false ∧ u.chunksPoisoned l = false))
include now

theorem loadAt_of_poisoned (bad : (settleFor u s.rank x l).chunksPoisoned l = true) :
    loadAt s kind d c x n align al = .trap (trapS 0x0D x) (settleFor u s.rank x l) := by
  simp only [loadAt, checked, Res.bind, unsent, Bool.false_eq_true, if_false, if_neg now, bad, if_true]

/-- A load that is made at once puts what it reads in its register (05_memory.md R175). -/
theorem loadAt_of_clean (good : (settleFor u s.rank x l).chunksPoisoned l = false) :
    loadAt s kind d c x n align al = .ok ((settleFor u s.rank x l).modMe fun m =>
      m.loaded (loadWith d ((settleFor u s.rank x l).readVal c n l) kind.post)) := by
  simp only [loadAt, checked, Res.bind, unsent, Bool.false_eq_true, if_false, if_neg now, good]
  have tag : loadVal n (leNat ((settleFor u s.rank x l).readChunks l))
      (n == 16 && (l.all fun k => !k.host && (settleFor u s.rank x l).ctag k.key) && capHas c.bits permLoadCap) =
        (settleFor u s.rank x l).readVal c n l := by
    simp only [loadVal, State.readVal, Bool.and_assoc, Bool.and_self_left]
  rw [tag]
  cases kind <;> rfl
end
end
end

/-! Words that load. -/

theorem Res.next_ok (t : State) : (Res.ok t).next = .ok (t.setMe t.me.next) := rfl

/-- A core changed by a word and then by its walker's step is changed once. -/
theorem State.setMe_next_modMe (s : State) (f : Core → Core) : (s.modMe f).setMe (s.modMe f).me.next = s.setMe (f s.me).next := by
  rw [State.me_modMe, State.setMe_modMe]

/-- Each LD is the load of its width (05_memory.md R175). -/
theorem exec_ld {d a : GIdx} {off : BitVec 11} {p : Instr × Nat}
    (hp : p ∈ [(Instr.ldB d a off, 1), (.ldH d a off, 2), (.ldW d a off, 4), (.ldD d a off, 8), (.ldQ d a off, 16)]) (s : State) :
    exec p.1 s = settle s
      (loadAt s .plain d (s.me.base a) ((s.me.base a).word + off.signExtend 64) p.2 (sAlign p.2) .any).next := by
  simp only [List.mem_cons, List.not_mem_nil, or_false] at hp
  obtain rfl | rfl | rfl | rfl | rfl := hp <;> rfl

theorem exec_ldloc (wd : Width) (upd : Update) (d a : GIdx) (inc : BitVec 6) (s : State) :
    exec (.ldloc wd upd d a inc) s = execLdloc wd upd d a inc s := rfl

theorem exec_ldacq (wd : Width) (scope : Scope) (d a : GIdx) (s : State) :
    exec (.ldacq wd scope d a) s = execLdacq wd scope d a s := rfl

/-- LDLOC that reads at once leaves its register and then moves its address register, whether they are one register or two
(05_memory.md R177). -/
theorem exec_ldloc_of_clean {s u : State} {d a : GIdx} {wd : Width} {upd : Update} {inc : BitVec 6} {l : List Chunk}
    (checked : access s .s (s.me.base a) (s.me.base a).word (widthBytes wd) permLoad (sAlign (widthBytes wd)) .local_ =
      .ok (.bytes l, u))
    (unsent : slotPending u s.rank (runsOf l) = false) (eager : s.lazy = false) {t : State}
    (ht : settleFor u s.rank (s.me.base a).word l = t) (good : t.chunksPoisoned l = false) :
    exec (.ldloc wd upd d a inc) s =
      .next (t.setMe (updated (t.me.wg d (t.readVal (s.me.base a) (widthBytes wd) l)) a wd upd inc).next) := by
  subst ht
  rw [exec_ldloc, execLdloc]
  split
  case isTrue h =>
    rw [loadAt_of_clean checked unsent (by simp [eager]) good, Res.next_ok, State.setMe_next_modMe, LoadKind.post,
      Core.loaded_loadWith_some, h]
    rfl
  case isFalse h =>
    rw [loadAt_of_clean checked unsent (by simp [eager]) good, Res.bind, State.modMe_modMe, LoadKind.post_plain]
    simp only [Core.loaded_loadWith_none]
    rfl

/-- LDLOC that waits moves another address register at once, and its own with the value (05_memory.md R164, R177). -/
theorem exec_ldloc_of_room {s u : State} {d a : GIdx} {wd : Width} {upd : Update} {inc : BitVec 6} {l : List Chunk}
    (checked : access s .s (s.me.base a) (s.me.base a).word (widthBytes wd) permLoad (sAlign (widthBytes wd)) .local_ =
      .ok (.bytes l, u))
    (unsent : slotPending u s.rank (runsOf l) = false) (lazy : s.lazy = true) (good : u.chunksPoisoned l = false)
    (room : u.me.loadRoom ((u.atoms l).map (·.1)) = true) :
    ∃ q : PendingLoad, q.d = d ∧ (q.parts.map (·.2)).flatten = u.readChunks l ∧
      q.upd = (if d = a then some (wd, upd, inc) else none) ∧
      let c1 : Core := { u.me with loads := u.me.loads ++ [q] }
      exec (.ldloc wd upd d a inc) s = .next (u.setMe (if d = a then c1 else updated c1 a wd upd inc).next) := by
  by_cases h : d = a
  · refine ⟨LoadKind.pending (.upd (wd, upd, inc)) u d (s.me.base a) (s.me.base a).word (widthBytes wd) l, rfl,
      flatten_loadParts u l, by rw [if_pos h]; rfl, ?_⟩
    intro c1
    rw [exec_ldloc, execLdloc, if_pos h, if_pos h, loadAt_of_room checked unsent ⟨lazy, by simp, good⟩ room, Res.next_ok,
      State.setMe_next_modMe]
    rfl
  · refine ⟨LoadKind.pending .plain u d (s.me.base a) (s.me.base a).word (widthBytes wd) l, rfl, flatten_loadParts u l,
      by rw [if_neg h]; rfl, ?_⟩
    intro c1
    rw [exec_ldloc, execLdloc, if_neg h, if_neg h, loadAt_of_room checked unsent ⟨lazy, by simp, good⟩ room, Res.bind,
      State.modMe_modMe]
    rfl

/-- Once its width passes and the core's release writes are performed, LDACQ is a load (06_ordering.md R196, R199). -/
theorem exec_ldacq_of_ready {s v : State} {d a : GIdx} {wd : Width} {scope : Scope} {m : List Chunk}
    (wide : access s .s (s.me.base a) (s.me.base a).word (widthBytes wd) permLoad (widthBytes wd) .any = .ok (.bytes m, v))
    (memory : widthBytes wd = 16 → m.any (·.host) = false) (pushed : s.pushesDone s.rank = true)
    (released : dReleasing s s.me.posS = false) (ready : acquireReady s s.rank = true) :
    exec (.ldacq wd scope d a) s = settle s (loadAt (acquire s s.rank) (.acq (scopeAlone s s.rank scope)) d (s.me.base a)
      (s.me.base a).word (widthBytes wd) (widthBytes wd) .any).next := by
  have fits : ¬(widthBytes wd = 16 ∧ m.any (·.host) = true) := fun h => Bool.false_ne_true ((memory h.1).symm.trans h.2)
  have quiet : ¬(s.pushesDone s.rank = false ∨ dReleasing s s.me.posS = true) := by simp [pushed, released]
  rw [exec_ldacq, execLdacq, wideHost, wide, Res.bind]
  simp only [if_neg fits, Res.bind, afterReleases, if_neg quiet, withAcquire, if_pos ready]

/-- Settles O12: LD, LDLOC and LDACQ are one load of checked bytes, which waits, traps, or reads at once. -/
theorem loadResults : Obligations.LoadResults := by
  unfold Obligations.LoadResults
  refine ⟨?_, ?_⟩
  · intro s u d a off l c x t waits sent p hp checked
    have word : exec p.1 s = settle s (loadAt s .plain d c x p.2 (if p.2 = 16 then 16 else 1) .any).next := exec_ld hp s
    rw [word]
    have eager (h : ¬waits) : ¬(s.lazy = true ∧ LoadKind.plain ≠ .acq false ∧ u.chunksPoisoned l = false) :=
      fun h' => h ⟨h'.1, h'.2.2⟩
    have lazy (h : waits) : s.lazy = true ∧ LoadKind.plain ≠ .acq false ∧ u.chunksPoisoned l = false :=
      ⟨h.1, by simp, h.2⟩
    refine ⟨fun hs => ?_, fun hs hw bad => ?_, fun hs hw good => ?_, fun hs hw full => ?_, fun hs hw room => ?_⟩
    · rw [loadAt_of_slotPending checked hs]
      rfl
    · rw [loadAt_of_poisoned checked hs (eager hw) bad]
      rfl
    · rw [loadAt_of_clean checked hs (eager hw) good, Res.next_ok, State.setMe_next_modMe, LoadKind.post_plain,
        Core.loaded_loadWith_none]
      rfl
    · rw [loadAt_of_full checked hs (lazy hw) full]
      rfl
    · rw [loadAt_of_room checked hs (lazy hw) room, Res.next_ok, State.setMe_next_modMe]
      exact ⟨_, rfl, rfl, rfl, flatten_loadParts u l, rfl, Bool.and_assoc ..⟩
  · intro s u v d a wd upd inc scope l m c n got
    refine ⟨fun checked unsent => ⟨fun eager good => exec_ldloc_of_clean checked unsent eager rfl good,
      exec_ldloc_of_room checked unsent⟩, ?_⟩
    intro wide memory pushed released ready checked unsent kind t good
    have now : ¬((acquire s s.rank).lazy = true ∧ LoadKind.acq (scopeAlone s s.rank scope) ≠ .acq false ∧
        u.chunksPoisoned l = false) := by
      rcases kind with h | h <;> simp [h]
    rw [exec_ldacq_of_ready wide memory pushed released ready, loadAt_of_clean checked unsent now good, Res.next_ok,
      State.setMe_next_modMe, LoadKind.post_acq, Core.loaded_loadWith_none]
    rfl

end Sys2Proof.Machine
end

section
/-! PROOF. The accesses of the S engine that wait: a load that returns, piece by piece, and a buffered store that performs
(05_memory.md R164, R173, R176; 06_ordering.md R186, R201), with what a write does to the monitors (07_sync.md R234). -/

namespace Sys2Proof.Machine

/-! Monitors. -/

@[simp] theorem Core.nextSafe_loads (c : Core) : c.nextSafe.loads = c.loads := by
  rw [Core.nextSafe, Core.clearDist, Core.modCtl_loads, Core.next_loads]

@[simp] theorem Core.nextSafe_stores (c : Core) : c.nextSafe.stores = c.stores := by
  rw [Core.nextSafe, Core.clearDist, Core.modCtl_stores, Core.next_stores]

@[simp] theorem Core.finish_loads (c : Core) (d : GIdx) (x : GVal) : (c.finish d x).loads = c.loads :=
  have written : (c.finish d x).loads = (c.wg d x).nextSafe.loads := rfl
  written.trans ((Core.nextSafe_loads _).trans (Core.wg_loads c d x))

@[simp] theorem Core.finish_stores (c : Core) (d : GIdx) (x : GVal) : (c.finish d x).stores = c.stores :=
  have written : (c.finish d x).stores = (c.wg d x).nextSafe.stores := rfl
  written.trans ((Core.nextSafe_stores _).trans (Core.wg_stores c d x))

/-- What a write does to the core that watches it: nothing, a hit, or the end of its MONWAIT. -/
theorem Core.monHit_cases (c : Core) (now key n : Nat) :
    c.monHit now key n = c ∨ (∃ f, c.monHit now key n = c.modCtl f) ∨
      ∃ d x f, c.blocked ≠ none ∧ c.monHit now key n = { (c.finish d x).modCtl f with monLine := none } := by
  unfold Core.monHit
  split
  · exact .inl rfl
  · split
    · split
      · rename_i hb
        exact .inr (.inr ⟨_, _, _, by simp [hb], rfl⟩)
      · exact .inr (.inl ⟨_, rfl⟩)
    · exact .inl rfl

@[simp] theorem Core.monHit_loads (c : Core) (now key n : Nat) : (c.monHit now key n).loads = c.loads := by
  obtain h | ⟨f, h⟩ | ⟨d, x, f, -, h⟩ := c.monHit_cases now key n <;> simp [h]

@[simp] theorem Core.monHit_stores (c : Core) (now key n : Nat) : (c.monHit now key n).stores = c.stores := by
  obtain h | ⟨f, h⟩ | ⟨d, x, f, -, h⟩ := c.monHit_cases now key n <;> simp [h]

/-- A write leaves the registers of a core whose word does not wait. -/
theorem Core.monHit_g {c : Core} (hb : c.blocked = none) (now key n : Nat) : (c.monHit now key n).g = c.g := by
  obtain h | ⟨f, h⟩ | ⟨d, x, f, hw, -⟩ := c.monHit_cases now key n
  · rw [h]
  · rw [h, Core.modCtl_g]
  · exact absurd hb hw

theorem Table.find_map {α β : Type} (f : α → β) (l : List (Nat × α)) (a : Nat) :
    Table.find (l.map fun e => (e.1, f e.2)) a = (Table.find l a).map f := by
  induction l with
  | nil => rfl
  | cons e l ih =>
    simp only [List.map_cons, Table.find, ih]
    split <;> rfl

theorem State.me_modCore_modCore {s : State} {r : Nat} (h : s.rank = r) (f g : Core → Core) :
    ((s.modCore r f).modCore r g).me = g (f (s.coreAt r)) := by
  subst h
  exact (congrArg State.me (State.modMe_modMe s f g)).trans (State.me_modMe s _)

/-- What of a core a hit leaves, a write leaves. -/
theorem State.coreAt_notify_eq {α : Type} (p : Core → α) (s : State) {r key n : Nat}
    (h : p ((s.coreAt r).monHit s.cycle key n) = p (s.coreAt r)) : p ((s.notify key n).coreAt r) = p (s.coreAt r) := by
  unfold State.coreAt at *
  simp only [State.notify]
  rw [Table.find_map fun c : Core => c.monHit s.cycle key n]
  cases hc : Table.find s.cores r with
  | none => rfl
  | some c => simpa [hc] using h

theorem State.coreAt_store (s : State) (r key : Nat) (bs : List Byte) :
    (s.store key bs).coreAt r = (s.notify key bs.length).coreAt r := rfl

theorem State.coreAt_storeNat (s : State) (r key n v : Nat) : (s.storeNat key n v).coreAt r = (s.notify key n).coreAt r := by
  rw [State.storeNat, State.coreAt_store, leBytes_length]

@[simp] theorem State.storeNat_rank (s : State) (key n v : Nat) : (s.storeNat key n v).rank = s.rank := rfl

theorem State.coreAt_storeTagged (s : State) (r key : Nat) (bs : List Byte) (tag : Bool) :
    (s.storeTagged key bs tag).coreAt r = (s.notify key bs.length).coreAt r := by
  unfold State.storeTagged
  cases tag <;> rfl

@[simp] theorem State.storeTagged_rank (s : State) (key : Nat) (bs : List Byte) (tag : Bool) :
    (s.storeTagged key bs tag).rank = s.rank := by
  unfold State.storeTagged
  cases tag <;> rfl

/-! Loads that return. -/

theorem returnLoad_of_none {s : State} {r i : Nat} (h : (s.coreAt r).loads[i]? = none) (mix : Nat) : returnLoad s r i mix = s := by
  simp only [returnLoad, h]

theorem returnLoad_of_stays {s : State} {r i : Nat} {l : PendingLoad} (hl : (s.coreAt r).loads[i]? = some l)
    (h : loadMay (s.coreAt r) i = false ∨ s.loadHeld r l = true) (mix : Nat) : returnLoad s r i mix = s := by
  have stays : ¬(loadMay (s.coreAt r) i && !s.loadHeld r l) = true := by
    rcases h with h | h <;> simp [h]
  simp only [returnLoad, hl, if_neg stays]

/-- The loads of a core after a return of its first one: without it once it has no piece left. -/
def Core.returned (q : PendingLoad) (c : Core) : Core :=
  { c with loads := if q.parts.isEmpty then c.loads.eraseIdx 0 else c.loads.set 0 q }

theorem Core.returned_loads_last {q : PendingLoad} (h : q.parts = []) (c : Core) : (c.returned q).loads = c.loads.eraseIdx 0 := by
  simp only [Core.returned, h, List.isEmpty_nil, if_true]

theorem Core.returned_loads_more {q : PendingLoad} (h : q.parts ≠ []) (c : Core) : (c.returned q).loads = c.loads.set 0 q := by
  simp only [Core.returned, List.isEmpty_iff, if_neg h]

section
variable {s : State} {r mix : Nat} {l : PendingLoad} {ls : List PendingLoad}

/-- The first load of a core may return where it waits for no posted store. -/
theorem returnLoad_first (hl : (s.coreAt r).loads = l :: ls) (hw : l.waits = []) (hh : s.loadHeld r l = false) :
    returnLoad s r 0 mix = (landPiece s r mix l).2.modCore r (Core.returned (landPiece s r mix l).1) := by
  have first : (s.coreAt r).loads[0]? = some l := by rw [hl]; rfl
  have may : (loadMay (s.coreAt r) 0 && !s.loadHeld r l) = true := by simp [loadMay, first, hw, hh]
  simp only [returnLoad, first, if_pos may]
  rfl

/-- A load with the bytes of its next piece as the S engine of a core reads them (05_memory.md R173). -/
def PendingLoad.took (l : PendingLoad) (s : State) (r mix k n : Nat) (ps : List (Nat × List Byte)) : PendingLoad :=
  { l with
    parts := ps, got := l.got ++ sBytes s (s.coreAt r) l.byAlias mix k n
    tag := l.tag && (mix == 0 && sTag s (s.coreAt r) l.byAlias k) }

variable {k : Nat} {bs : List Byte} {ps : List (Nat × List Byte)}

theorem landPiece_of_load (hp : l.parts = (k, bs) :: ps) (ha : l.amo = none) (good : s.poisoned k bs.length = false) :
    landPiece s r mix l = (l.took s r mix k bs.length ps,
      if ps.isEmpty then s.modCore r (·.loaded (l.took s r mix k bs.length ps)) else s) := by
  simp only [landPiece, hp, beforeAmo, ha, Option.isSome_none, Bool.false_eq_true, if_false, good]
  split <;> simp only [PendingLoad.took, ha]

end

theorem Core.loaded_of_upd_none {l : PendingLoad} (h : l.upd = none) (c : Core) :
    c.loaded l = c.wg l.d { bits := BitVec.ofNat 128 (leNat l.got), tag := l.tag } := by
  simp only [Core.loaded, h]

/-- The register of a load takes its value, and no other register changes (05_memory.md R175). -/
theorem Core.rg_loaded {l : PendingLoad} (h : l.upd = none) (c : Core) :
    (l.d ≠ 0#6 → (c.loaded l).rg l.d = { bits := BitVec.ofNat 128 (leNat l.got), tag := l.tag }) ∧
      ∀ j, j ≠ l.d → (c.loaded l).rg j = c.rg j := by
  rw [Core.loaded_of_upd_none h]
  refine ⟨fun hd => by rw [Core.rg_wg, if_neg hd, if_pos rfl], fun j hj => ?_⟩
  rw [Core.rg_wg, if_neg hj]
  split
  case isTrue h0 => rw [h0, Core.rg_zero]
  case isFalse => rfl

theorem Core.loaded_loads {l : PendingLoad} (h : l.upd = none) (c : Core) : (c.loaded l).loads = c.loads := by
  rw [Core.loaded_of_upd_none h, Core.wg_loads]

theorem exec_sLoadReturn (i mix : Nat) (s : State) : exec (.sLoadReturn i mix) s = .next (returnLoad s s.rank i mix) := rfl

section
variable {s : State} {mix : Nat} {l : PendingLoad} {ls : List PendingLoad} {k : Nat} {bs : List Byte} {ps : List (Nat × List Byte)}

/-- A load reads its next piece, and after its last puts its value in its register (05_memory.md R164, R173, R175). -/
theorem exec_sLoadReturn_of_load (hl : s.me.loads = l :: ls) (hp : l.parts = (k, bs) :: ps) (hw : l.waits = [])
    (hh : s.loadHeld s.rank l = false) (hu : l.upd = none) (ha : l.amo = none) (good : s.poisoned k bs.length = false) :
    let got : List Byte := l.got ++ sBytes s s.me l.byAlias mix k bs.length
    let tag : Bool := l.tag && (mix == 0 && sTag s s.me l.byAlias k)
    ∃ t, exec (.sLoadReturn 0 mix) s = .next t ∧ OnlyMe s t ∧ t.mem = s.mem ∧
      (ps = [] → t.me.loads = ls ∧ (l.d ≠ 0#6 → (t.me.rg l.d) = { bits := BitVec.ofNat 128 (leNat got), tag := tag }) ∧
        ∀ j, j ≠ l.d → t.me.rg j = s.me.rg j) ∧
      (ps ≠ [] → t.me.loads = { l with parts := ps, got := got, tag := tag } :: ls ∧ t.me.g = s.me.g) := by
  intro got tag
  let q : PendingLoad := l.took s s.rank mix k bs.length ps
  have read : landPiece s s.rank mix l = (q, if ps.isEmpty then s.modMe (·.loaded q) else s) := landPiece_of_load hp ha good
  rw [exec_sLoadReturn, returnLoad_first hl hw hh, read]
  by_cases last : ps = []
  · have ends : (if ps.isEmpty then s.modMe (·.loaded q) else s) = s.modMe (·.loaded q) := by rw [last]; rfl
    obtain ⟨value, others⟩ := Core.rg_loaded (l := q) hu s.me
    refine ⟨s.modMe fun c => (c.loaded q).returned q, ?_, State.setMe_me s _, rfl, fun _ => ?_, fun h => absurd last h⟩
    · rw [ends]
      exact congrArg Host.Outcome.next (State.modMe_modMe s (·.loaded q) (Core.returned q))
    · rw [State.me_modMe]
      refine ⟨?_, value, others⟩
      rw [Core.returned_loads_last last, Core.loaded_loads (l := q) hu, hl]
      rfl
  · have stays : (if ps.isEmpty then s.modMe (·.loaded q) else s) = s := by simp [last]
    refine ⟨s.modMe (Core.returned q), ?_, State.setMe_me s _, rfl, fun h => absurd h last, fun _ => ?_⟩
    · rw [stays]
      rfl
    · rw [State.me_modMe]
      exact ⟨by rw [Core.returned_loads_more last, hl]; rfl, rfl⟩
end

/-! Atomics that return. -/

/-- The memory that an atomic leaves at its home, where it read a number (06_ordering.md R201). -/
def Mem.amo (m : Mem) (k op : Nat) (old b e : Word64) : Mem :=
  match amoNew op old b e with
  | some v => m.write k (leBytes 8 v.toNat)
  | none => m

/-- The state in which an atomic finds its home: the L1 copies of a line outside the local memories are lost first (06_ordering.md
R201). -/
def State.atHome (s : State) (k : Nat) : State := if (keyCore k).isNone then s.notify k 8 else s

@[simp] theorem State.atHome_mem (s : State) (k : Nat) : (s.atHome k).mem = s.mem := by
  unfold State.atHome
  split <;> rfl

@[simp] theorem State.atHome_rank (s : State) (k : Nat) : (s.atHome k).rank = s.rank := by
  unfold State.atHome
  split <;> rfl

theorem State.notify_loads (s : State) (r key n : Nat) : ((s.notify key n).coreAt r).loads = (s.coreAt r).loads :=
  State.coreAt_notify_eq (·.loads) s (Core.monHit_loads _ _ _ _)

theorem State.atHome_loads (s : State) (r k : Nat) : ((s.atHome k).coreAt r).loads = (s.coreAt r).loads := by
  unfold State.atHome
  split
  · exact s.notify_loads r k 8
  · rfl

section
variable (s : State) (k op : Nat) (b e old : Word64)

theorem amoWrite_cases : (∃ v, amoNew op old b e = some v ∧ amoWrite s k (op, b, e) old = (s.atHome k).storeNat k 8 v.toNat) ∨
    amoNew op old b e = none ∧ amoWrite s k (op, b, e) old = s.atHome k := by
  cases h : amoNew op old b e with
  | some v => exact .inl ⟨v, rfl, by simp only [amoWrite, h]; rfl⟩
  | none => exact .inr ⟨rfl, by simp only [amoWrite, h]; rfl⟩

theorem amoWrite_mem : (amoWrite s k (op, b, e) old).mem = s.mem.amo k op old b e := by
  obtain ⟨v, hv, h⟩ | ⟨hv, h⟩ := amoWrite_cases s k op b e old
  · rw [h, State.storeNat_mem, State.atHome_mem, Mem.amo, hv]
  · rw [h, State.atHome_mem, Mem.amo, hv]

theorem amoWrite_rank : (amoWrite s k (op, b, e) old).rank = s.rank := by
  obtain ⟨v, -, h⟩ | ⟨-, h⟩ := amoWrite_cases s k op b e old
  · rw [h, State.storeNat_rank, State.atHome_rank]
  · rw [h, State.atHome_rank]

theorem amoWrite_loads (r : Nat) : ((amoWrite s k (op, b, e) old).coreAt r).loads = (s.coreAt r).loads := by
  obtain ⟨v, -, h⟩ | ⟨-, h⟩ := amoWrite_cases s k op b e old
  · rw [h, State.coreAt_storeNat, State.notify_loads, State.atHome_loads]
  · rw [h, State.atHome_loads]
end

/-- Without buffered stores the S engine of a core reads memory (06_ordering.md R186). -/
theorem sBytes_of_no_stores {c : Core} (h : c.stores = []) (s : State) (al : Bool) (mix k n : Nat) :
    sBytes s c al mix k n = s.mem.read k n := by
  refine List.ext_getElem (by simp [sBytes, Mem.read_length]) fun i hi _ => ?_
  have hn : i < n := by simpa [sBytes] using hi
  rw [Mem.read_get _ _ _ _ hn]
  simp [sBytes, sByte, Core.storedByte, h]

theorem performOver_of_no_stores {s : State} {r : Nat} (h : (s.coreAt r).stores = []) (al : Bool) (l : List (Nat × Nat)) :
    performOver s r al l = s.modCore r fun c => { c with stores := [] } := by
  simp only [performOver, performWhere, h, pick, List.foldl_nil]

/-- The last piece of an atomic of order none is the atomic at its home (06_ordering.md R200, R201). -/
theorem landPiece_of_amo {s u : State} {r mix k : Nat} {l : PendingLoad} {bs : List Byte} {op : Nat × Word64 × Word64}
    (hp : l.parts = [(k, bs)]) (ha : l.amo = some op) (before : beforeAmo s r l = u) (good : u.poisoned k bs.length = false) :
    landPiece s r mix l = (l.took u r mix k bs.length [],
      (amoWrite u k op (BitVec.ofNat 64 (leNat (sBytes u (u.coreAt r) l.byAlias mix k bs.length)))).modCore r
        (·.loaded (l.took u r mix k bs.length []))) := by
  simp only [landPiece, hp, before, ha, good, Bool.false_eq_true, if_false, List.isEmpty_nil, if_true, PendingLoad.took]

theorem leNat_lt (l : List Byte) : leNat l < 256 ^ l.length := by
  induction l with
  | nil => exact Nat.one_pos
  | cons b l ih =>
    have := b.isLt
    rw [leNat, List.length_cons, Nat.pow_succ]
    omega

/-- Where a core has no buffered stores, an atomic reads its home, writes it, and puts what it read in its register. -/
theorem exec_sLoadReturn_of_amo {s : State} {mix k op : Nat} {l : PendingLoad} {ls : List PendingLoad} {bs : List Byte}
    {b e : Word64} (hl : s.me.loads = l :: ls) (hp : l.parts = [(k, bs)]) (hn : bs.length = 8) (hg : l.got = []) (hw : l.waits = [])
    (hh : s.loadHeld s.rank l = false) (hu : l.upd = none) (ha : l.amo = some (op, b, e)) (hs : s.me.stores = [])
    (good : s.poisoned k 8 = false) :
    let old : Word64 := BitVec.ofNat 64 (s.mem.readNat k 8)
    ∃ t, exec (.sLoadReturn 0 mix) s = .next t ∧ t.me.loads = ls ∧ (l.d ≠ 0#6 → (t.me.rg l.d).bits = old.setWidth 128) ∧
      t.mem = s.mem.amo k op old b e := by
  intro old
  let u : State := s.modCore s.rank fun c => { c with stores := [] }
  have before : beforeAmo s s.rank l = u := by
    simp only [beforeAmo, ha, Option.isSome_some, if_true, performOver_of_no_stores hs, u]
  have bytes : sBytes u (u.coreAt s.rank) l.byAlias mix k 8 = s.mem.read k 8 :=
    sBytes_of_no_stores (by rw [State.coreAt_modCore, if_pos rfl]) u _ _ _ _
  have piece := landPiece_of_amo (mix := mix) hp ha before (hn ▸ good)
  rw [hn, bytes] at piece
  have me := State.me_modCore_modCore (amoWrite_rank u k op b e old) (·.loaded (l.took u s.rank mix k 8 []))
    (Core.returned (l.took u s.rank mix k 8 []))
  obtain ⟨value, -⟩ := Core.rg_loaded (l := l.took u s.rank mix k 8 []) hu ((amoWrite u k (op, b, e) old).coreAt s.rank)
  rw [exec_sLoadReturn, returnLoad_first hl hw hh, piece]
  refine ⟨_, rfl, (congrArg Core.loads me).trans ?_, fun hd => (congrArg (fun c => (c.rg l.d).bits) me).trans ?_,
    amoWrite_mem u k op b e old⟩
  · rw [Core.returned_loads_last rfl, Core.loaded_loads (l := l.took u s.rank mix k 8 []) hu, State.modCore_rank, amoWrite_loads,
      State.coreAt_modCore, if_pos rfl]
    exact congrArg (·.eraseIdx 0) hl
  · rw [State.modCore_rank]
    refine (congrArg GVal.bits (value hd)).trans (BitVec.eq_of_toNat_eq ?_)
    have small := leNat_lt (s.mem.read k 8)
    rw [Mem.read_length] at small
    simp only [PendingLoad.took, bytes, hg, List.nil_append, old, Mem.readNat, BitVec.toNat_ofNat, BitVec.toNat_setWidth]
    omega

/-! Buffered stores that perform. -/

theorem exec_storeBufferPerform (i : Nat) (s : State) : exec (.storeBufferPerform i) s = .next (performStore s s.rank i) := rfl

theorem performStore_of_none {s : State} {r i : Nat} (h : (s.coreAt r).stores[i]? = none) : performStore s r i = s := by
  simp only [performStore, h]

section
variable {s : State} {r i : Nat} {b : Buffered} (hb : (s.coreAt r).stores[i]? = some b)
include hb

theorem performStore_of_not_may (h : storeMay (s.coreAt r).stores i = false) : performStore s r i = s := by
  simp only [performStore, hb, h, Bool.false_eq_true, if_false]

/-- A store that may perform writes its next piece, and leaves the buffer with its last (05_memory.md R173, R176). -/
theorem performStore_of_may {k : Nat} {bs : List Byte} {ps : List (Nat × List Byte)} (hp : b.pieces = (k, bs) :: ps)
    (h : storeMay (s.coreAt r).stores i = true) :
    performStore s r i = (s.modCore r fun c => { c with stores :=
      (if ps = [] then (s.coreAt r).stores.eraseIdx i else (s.coreAt r).stores.set i { b with pieces := ps }) }).storeTagged
        k bs b.tag := by
  have last : ((k, bs) :: ps).length ≤ 1 ↔ ps = [] := by rw [List.length_cons, ← List.length_eq_zero_iff]; omega
  simp only [performStore, hb, h, if_true, last, performAll, hp, List.take_succ_cons, List.take_zero, List.drop_succ_cons,
    List.drop_zero, List.foldl_cons, List.foldl_nil]
end

theorem exec_storeBufferPerform_of_may {s : State} {i k : Nat} {b : Buffered} {bs : List Byte} {ps : List (Nat × List Byte)}
    (hb : s.me.stores[i]? = some b) (hp : b.pieces = (k, bs) :: ps) (h : storeMay s.me.stores i = true) :
    ∃ t, exec (.storeBufferPerform i) s = .next t ∧ t.mem = s.mem.write k bs ∧
      t.me.stores = (if ps = [] then s.me.stores.eraseIdx i else s.me.stores.set i { b with pieces := ps }) ∧
      (s.me.blocked = none → t.me.g = s.me.g) := by
  rw [exec_storeBufferPerform, performStore_of_may hb hp h]
  refine ⟨_, rfl, State.storeTagged_mem _ _ _ _, ?_, fun free => ?_⟩
  all_goals rw [State.me, State.storeTagged_rank, State.modCore_rank, State.coreAt_storeTagged]
  · refine (State.coreAt_notify_eq (·.stores) _ (Core.monHit_stores _ _ _ _)).trans ?_
    rw [State.coreAt_modCore, if_pos rfl]
    rfl
  · refine (State.coreAt_notify_eq (·.g) _ (Core.monHit_g ?_ _ _ _)).trans ?_
    · rwa [State.coreAt_modCore, if_pos rfl]
    · rw [State.coreAt_modCore, if_pos rfl]
      rfl

end Sys2Proof.Machine
end

section
/-! PROOF. What arrives at a core: posted stores, requests of other packages, the ends of walks, and the limits and repetitions of
waits (05_memory.md R155, R156, R167, R170; 07_sync.md R216, R217, R221, R232; 08_tasks.md R247, R263; 10_vector.md R302). -/

namespace Sys2Proof.Machine

/-! Posted stores. -/

theorem Keys.mem_foldl_insert {l m : List Nat} {k : Nat} : k ∈ l.foldl Keys.insert m ↔ k ∈ l ∨ k ∈ m := by
  induction l generalizing m with
  | nil => simp
  | cons a l ih => rw [List.foldl_cons, ih, Keys.mem_insert, List.mem_cons]; tauto

/-- A byte that is marked is poisoned (01_machine.md R37). -/
theorem State.poisoned_markPoison {s : State} {l : List Nat} {a : Nat} (h : a ∈ l) : (s.markPoison l).poisoned a 1 = true :=
  (State.poisoned_iff _ _ _).2 ⟨a, Keys.mem_foldl_insert.2 (.inl h), le_rfl, Nat.lt_succ_self a⟩

/-- The first key of a posted store. -/
def postedKey (w : PostedStore) : Nat := localKey w.dst.toNat w.off.toNat

section
variable (s : State) (w : PostedStore)

theorem landPosted_mem : (landPosted s w).mem = s.mem.write (postedKey w) w.bytes :=
  State.storeTagged_mem s (postedKey w) w.bytes w.tag

theorem landPosted_ctag_iff (a : Nat) : (landPosted s w).ctag a = true ↔
    (∃ o ∈ w.tags, (postedKey w + o) / 16 = a / 16) ∨ (s.storeTagged (postedKey w) w.bytes w.tag).ctag a = true := by
  rw [State.ctag_iff, State.ctag_iff]
  exact Keys.mem_foldl_insert.trans (or_congr_left List.mem_map)

theorem landPosted_ctag_of_tag (h : w.tag = true) : (landPosted s w).ctag (postedKey w) = true := by
  refine (landPosted_ctag_iff s w _).2 (.inr ?_)
  rw [h]
  exact State.storeTagged_ctag_true s (postedKey w) w.bytes

/-- A store without a tag leaves its first unit without one (05_memory.md R152). -/
theorem landPosted_ctag_of_plain (h : w.tag = false) (ht : w.tags = []) (hb : 0 < w.bytes.length) :
    (landPosted s w).ctag (postedKey w) = false := by
  rw [Bool.eq_false_iff, Ne, landPosted_ctag_iff, State.storeTagged_ctag_same s _ (List.length_pos_iff.1 hb), ht, h]
  simp

theorem landPosted_ctag_of_mem : ∀ o ∈ w.tags, (landPosted s w).ctag (postedKey w + o) = true :=
  fun o ho => (landPosted_ctag_iff s w _).2 (.inl ⟨o, ho, rfl⟩)

theorem landPosted_poisoned : ∀ o ∈ w.bad, (landPosted s w).poisoned (postedKey w + o) 1 = true :=
  fun _ ho => State.poisoned_markPoison (List.mem_map_of_mem ho)
end

theorem exec_postedStoreArrive_of_moves {s : State} (w : PostedStore)
    (h : field (s.rankAt (ifaceOf s.rank) s.rank) 30 1 = 1) :
    exec (.postedStoreArrive w) s = .next { s with
      net := s.net ++
        [{ src := s.rank, dst := s.rank, ev := .postedStoreArrive w, pid := field (s.rankAt (ifaceOf s.rank) s.rank) 16 10 }] } := by
  have moves : rankMoves (s.rankAt (ifaceOf s.rank) s.rank) = true := beq_iff_eq.2 h
  exact congrArg _ (if_pos moves)

theorem exec_postedStoreArrive_of_stays {s : State} (w : PostedStore)
    (h : field (s.rankAt (ifaceOf s.rank) s.rank) 30 1 = 0) :
    exec (.postedStoreArrive w) s = .next (landPosted s w) := by
  have stays : ¬rankMoves (s.rankAt (ifaceOf s.rank) s.rank) = true := by simp [rankMoves, h]
  exact congrArg _ (if_neg stays)

/-! Requests of other packages. -/

/-- Whether a core is bound to the partition that a request names (05_memory.md R156). -/
def boundAt (s : State) (r : RemoteAccess) (q : Nat) : Prop :=
  q < 4096 ∧ field (s.rankAt (ifaceOf q) q) 31 1 = 1 ∧ field (s.rankAt (ifaceOf q) q) 16 10 = r.pid

section
variable {s : State} {r : RemoteAccess}

theorem unbound_iff : ((reqCores r).any fun q => decide (4096 ≤ q) || !rankHas (s.rankAt (ifaceOf q) q) r.pid) = true ↔
    ¬∀ q ∈ reqCores r, boundAt s r q := by
  simp only [List.any_eq_true, Bool.or_eq_true, decide_eq_true_eq, Bool.not_eq_true', rankHas, Bool.and_eq_false_iff,
    beq_eq_false_iff_ne, not_forall, boundAt, not_and_or, not_lt, exists_prop]

theorem moving_iff : ((reqCores r).any fun q => rankMoves (s.rankAt (ifaceOf q) q)) = true ↔
    ∃ q ∈ reqCores r, field (s.rankAt (ifaceOf q) q) 30 1 = 1 := by
  simp only [List.any_eq_true, rankMoves, beq_iff_eq]

variable (hm : ∀ y, r.req ≠ .amsg y)
include hm

/-- A request of another package, but an active message, is turned away, waits, or is carried out (05_memory.md R155, R156). -/
theorem exec_remoteAccessArrive : exec (.remoteAccessArrive r) s = .next
    (if (reqCores r).any fun q => decide (4096 ≤ q) || !rankHas (s.rankAt (ifaceOf q) q) r.pid then
      (if reqAnswered r.req then s.answer none else { s with logs := s.logs ++ [.rejected r.core (reqOffset r.req)] })
    else if (reqCores r).any fun q => rankMoves (s.rankAt (ifaceOf q) q) then
      { s with net := s.net ++ [{ src := hubRank, dst := r.core.toNat, ev := .remoteAccessArrive r, pid := r.pid }] }
    else serveAway s r) := by
  refine congrArg Host.Outcome.next ?_
  split
  · rename_i y hy
    exact absurd hy (hm y)
  · rfl

theorem exec_remoteAccessArrive_of_unbound (h : ¬∀ q ∈ reqCores r, boundAt s r q) :
    exec (.remoteAccessArrive r) s = .next (if reqAnswered r.req then s.answer none
      else { s with logs := s.logs ++ [.rejected r.core (reqOffset r.req)] }) := by
  rw [exec_remoteAccessArrive hm, if_pos (unbound_iff.2 h)]

theorem exec_remoteAccessArrive_of_moving (h : ∀ q ∈ reqCores r, boundAt s r q)
    (moves : ∃ q ∈ reqCores r, field (s.rankAt (ifaceOf q) q) 30 1 = 1) :
    exec (.remoteAccessArrive r) s =
      .next { s with net := s.net ++ [{ src := hubRank, dst := r.core.toNat, ev := .remoteAccessArrive r, pid := r.pid }] } := by
  rw [exec_remoteAccessArrive hm, if_neg fun h' => unbound_iff.1 h' h, if_pos (moving_iff.2 moves)]

/-- A request that reaches one core, which its partition holds and which stands, is carried out there. -/
theorem exec_remoteAccessArrive_of_stands (one : reqCores r = [r.core.toNat]) (h : boundAt s r r.core.toNat)
    (stands : field (s.rankAt (ifaceOf r.core.toNat) r.core.toNat) 30 1 = 0) :
    exec (.remoteAccessArrive r) s = .next (serveAway s r) := by
  rw [exec_remoteAccessArrive hm, if_neg, if_neg]
  · rw [moving_iff]
    simp [one, stands]
  · rw [unbound_iff, not_not]
    simpa [one] using h
end

section
variable {s : State} {r : RemoteAccess} {off : BitVec 19}

theorem serveAway_store {bs : List Byte} {tags bad : List Nat} (h : r.req = .store off bs tags bad) :
    serveAway s r = landPosted s { dst := r.core, off := off, bytes := bs, tag := false, bad := bad, tags := tags } := by
  simp only [serveAway, h]

/-- A load that reaches one core runs on no further (05_memory.md R173). -/
theorem localChunks_of_one {n : Nat} (one : reqCores r = [r.core.toNat]) (h : r.req = .load off n) :
    localChunks r.core.toNat off.toNat n =
      [{ key := localKey r.core.toNat off.toNat, len := n, host := false, hostOwn := false }] := by
  have inside : (off.toNat + (n - 1)) / 2 ^ 19 = 0 := by
    have := congrArg List.length one
    simpa [reqCores, h] using this
  have fits : n ≤ localSize - off.toNat := by
    have := off.isLt
    simp only [localSize]
    omega
  simp [localChunks, Nat.min_eq_left fits]

/-- Fewer than 16 bytes hold no whole unit but where they begin one (05_memory.md R152). -/
theorem unitTags_of_short (s : State) (k : Nat) {n : Nat} (hn : n < 16) : unitTags s k n = [] := by
  have none : (k + n) / 16 - (k + 15) / 16 = 0 := by omega
  simp only [unitTags, none, List.range_zero, List.map_nil]

theorem serveAway_load {n : Nat} (one : reqCores r = [r.core.toNat]) (h : r.req = .load off n) (hn : n < 16) :
    serveAway s r = s.answer (if s.poisoned (localKey r.core.toNat off.toNat) n then none
      else some (s.mem.read (localKey r.core.toNat off.toNat) n)) := by
  simp only [serveAway, h, localChunks_of_one one h, unitTags_of_short _ _ hn, State.chunksPoisoned, State.readChunks,
    List.any_cons, List.any_nil, Bool.or_false, List.append_nil]

theorem serveAway_amo {op : Nat} {b e : Word64} (h : r.req = .amo off op b e)
    (good : s.poisoned (localKey r.core.toNat off.toNat) 8 = false) :
    let k : Nat := localKey r.core.toNat off.toNat
    let old : Word64 := BitVec.ofNat 64 (s.mem.readNat k 8)
    (serveAway s r).outbox = s.outbox ++ [.reply (some (leBytes 8 old.toNat))] ∧
      (serveAway s r).mem = s.mem.amo k op old b e := by
  intro k old
  simp only [serveAway, h, good, Bool.false_eq_true, if_false, Mem.amo]
  cases amoNew op old b e <;> exact ⟨rfl, rfl⟩
end

/-! The ends of walks. -/

section
variable {s : State} {e : WalkEnd} {m : Miss} {ms : List Miss} {x : MissWait} {xs : List MissWait}

theorem exec_pageWalkComplete_of_none (h : (s.mmuAt (clusterOf s.rank)).misses = []) : exec (.pageWalkComplete e) s = .next s := by
  refine congrArg Host.Outcome.next ?_
  simp only [h]

variable (hm : (s.mmuAt (clusterOf s.rank)).misses = m :: ms) (hx : m.waits = x :: xs)
include hm hx

/-- The oldest walk of a cluster ends as the tables give, and in no other way (05_memory.md R167, R170). -/
theorem exec_pageWalkComplete : exec (.pageWalkComplete e) s =
    .next (if e = walkEnd s x.core x.walk then missDone s (clusterOf s.rank) else s) := by
  obtain ⟨pid, page, waits⟩ := m
  subst hx
  refine congrArg Host.Outcome.next ?_
  simp only [hm]

theorem missDone_of_cons : missDone s (clusterOf s.rank) = ((x :: xs).filter fun y => (s.coreAt y.core).pid == m.pid).foldl walkDone
    (s.modMmu (clusterOf s.rank) fun u => { u with misses := ms ++ u.queue.take 1, queue := u.queue.drop 1 }) := by
  simp only [missDone, hm, hx]
end

/-! Limits and repetitions of waits. -/

section
variable {s : State} {h : Held}

theorem exec_heldArrivalOverrun (s : State) : exec .heldArrivalOverrun s = .next (expireHeld s s.rank) := rfl

theorem exec_heldArrivalOverrun_of_early (early : ∀ y ∈ s.me.held, s.cycle < y.until_) :
    exec .heldArrivalOverrun s = .next s := by
  have none_late : (s.coreAt s.rank).held.filter (fun y => decide (y.until_ ≤ s.cycle)) = [] :=
    List.filter_eq_nil_iff.2 fun y hy => by simpa using early y hy
  rw [exec_heldArrivalOverrun, expireHeld, none_late, List.foldl_nil]

/-- One arrival held past its limit is an overrun, with what stood behind it (07_sync.md R216, R217). -/
theorem exec_heldArrivalOverrun_of_one (late : s.me.held.filter (fun y => decide (y.until_ ≤ s.cycle)) = [h]) :
    exec .heldArrivalOverrun s = .next (expireHeld.overrunHeld s.rank s h) := by
  have late' : (s.coreAt s.rank).held.filter (fun y => decide (y.until_ ≤ s.cycle)) = [h] := late
  rw [exec_heldArrivalOverrun, expireHeld, late', List.foldl_cons, List.foldl_nil]
end

/-- The state that the overrun of an arrival held by a core leaves, before what stood behind it. -/
def overrunOf (s : State) (r : Nat) (h : Held) : State := overrun (s.modCore r fun c => { c with held := c.held.erase h }) h.arr

section
variable {s : State} {r : Nat} {h : Held}

theorem overrunHeld_of_none (last : nextPut ((overrunOf s r h).coreAt r) h.arr = none) :
    expireHeld.overrunHeld r s h = overrunOf s r h := by
  rw [overrunOf] at last ⊢
  simp only [expireHeld.overrunHeld, last]

theorem overrunHeld_of_some {g : Nat} (next : nextPut ((overrunOf s r h).coreAt r) h.arr = some g) :
    expireHeld.overrunHeld r s h = settleGranule r g
      (2 * (((overrunOf s r h).coreAt r).held.length + ((overrunOf s r h).coreAt r).waitq.length) + 2) (overrunOf s r h) := by
  rw [overrunOf] at next ⊢
  simp only [expireHeld.overrunHeld, next]
end

section
variable {s : State} {d : Nat} {q : WaitReq} {x : Record}

theorem exec_presenceWaitResend_of_some (h : firstWait s s.me = some (d, q)) : exec .presenceWaitResend s =
    .next (retryWait (s.modMe fun c => { c with resend := c.resend.erase (.wait d q) }) d q) := by
  refine congrArg Host.Outcome.next ?_
  simp only [h]

theorem exec_presenceWaitResend_of_none (h : firstWait s s.me = none) : exec .presenceWaitResend s = .next s := by
  refine congrArg Host.Outcome.next ?_
  simp only [h]

theorem exec_remotePushResend_of_some (h : firstResend s s.me = some (d, x)) : exec .remotePushResend s =
    .next (remotePush (s.modMe fun c => { c with resend := c.resend.erase (.push d x) }) s.rank d x) := by
  refine congrArg Host.Outcome.next ?_
  simp only [h]

theorem exec_remotePushResend_of_none (h : firstResend s s.me = none) : exec .remotePushResend s = .next s := by
  refine congrArg Host.Outcome.next ?_
  simp only [h]

theorem exec_bartwaitTimeout_of_some (h : lateBarAt s s.rank = some (d, q)) :
    exec .bartwaitTimeout s = .next (barLate (dropReq s d q) d q) := by
  refine congrArg Host.Outcome.next ?_
  simp only [h]

/-- A late BARTWAIT ends with 0 where its object stands at the generation that it leaves and is not poisoned, and else as a
BARTWAIT that is served (07_sync.md R232). -/
theorem barLate_of_bartwait {g : GIdx} {gen : BitVec 32} (h : q.op = .bartwait g gen) : barLate s d q =
    if BitVec.ofNat 32 (s.mem.readNat (localKey d q.off) 4) = gen ∧ barBad s d q.off = false then replyValue s q g GVal.zero
    else replyBar s q := by
  simp only [barLate, barMoved, h, Bool.or_eq_true, bne_iff_ne, ne_eq, eq_comm (a := gen)]
  by_cases hg : BitVec.ofNat 32 (s.mem.readNat (localKey d q.off) 4) = gen <;> cases barBad s d q.off <;> simp [hg]

theorem exec_bartwaitTimeout_of_none (owners : ∀ c ∈ s.cores, ∀ y ∈ c.2.waitq, lateBar s s.rank y = false)
    (refused : ∀ y ∈ s.me.resend, ∀ o z, y = .wait o z → lateBar s s.rank z = false) :
    exec .bartwaitTimeout s = .next s := by
  have none_kept : lateBarAt s s.rank = none := by
    simp only [lateBarAt, List.findSome?_eq_none_iff, Option.map_eq_none_iff, List.find?_eq_none]
    exact fun c hc y hy => Bool.eq_false_iff.1 (owners c hc y hy)
  refine congrArg Host.Outcome.next ?_
  simp only [none_kept]
  split
  case h_2 => rfl
  case h_1 found =>
    obtain ⟨y, hy, found⟩ := List.exists_of_findSome?_eq_some found
    cases y with
    | wait o z => simp [refused _ hy o z rfl] at found
    | push o z => simp at found

theorem exec_parkTimeout (s : State) : exec .parkTimeout s =
    .next (if parkDue s s.rank then parkBlocked s s.rank 1 else if vParkDue s s.rank then vPark s s.rank else s) := rfl
end

/-! The statement, in its two parts. -/

/-- Settles O48: each clause is one step, which a load, a store, an arrival, a walk or a limit of a wait takes. -/
theorem arrivalsAndWaitLimits : Obligations.ArrivalsAndWaitLimits := by
  unfold Obligations.ArrivalsAndWaitLimits
  constructor
  · intro s l b ls w r off i n mix k bs ps e m ms x xs place own has bound one there at_
    refine ⟨fun h => ?_, fun hl h => ?_, exec_sLoadReturn_of_load, fun op b2 e2 => exec_sLoadReturn_of_amo,
      fun hb hp => ⟨exec_storeBufferPerform_of_may hb hp, fun h => ?_⟩, fun h => ?_, exec_postedStoreArrive_of_moves w,
      fun h => ?_, fun hm => ⟨fun hu ha => ?_, fun hu ha => ?_, exec_remoteAccessArrive_of_moving hm⟩,
      fun h1 hb hs => ⟨fun y z hr => ?_, fun hr hn => ?_, fun op y z hr good => ?_⟩,
      fun hm hx => ⟨fun he => ?_, fun he => ?_⟩, exec_pageWalkComplete_of_none⟩
    · rw [exec_sLoadReturn, returnLoad_of_none (by rw [show (s.coreAt s.rank).loads = [] from h]; rfl)]
    · rw [exec_sLoadReturn, returnLoad_of_stays hl h]
    · rw [exec_storeBufferPerform, performStore_of_not_may hb h]
    · rw [exec_storeBufferPerform, performStore_of_none (by rw [show (s.coreAt s.rank).stores = [] from h]; rfl)]
    · exact ⟨_, exec_postedStoreArrive_of_stays w h, landPosted_mem s w, landPosted_ctag_of_tag s w,
        landPosted_ctag_of_plain s w, landPosted_ctag_of_mem s w, landPosted_poisoned s w⟩
    · rw [exec_remoteAccessArrive_of_unbound hm hu, if_pos ha]
      rfl
    · rw [exec_remoteAccessArrive_of_unbound hm hu, ha]
      rfl
    · refine ⟨_, exec_remoteAccessArrive_of_stands (by simp [hr]) h1 hb hs, ?_⟩
      let p : PostedStore := { dst := r.core, off := off, bytes := bs, tag := false, bad := z, tags := y }
      rw [serveAway_store hr]
      exact ⟨landPosted_mem s p, landPosted_ctag_of_mem s p, landPosted_poisoned s p⟩
    · rw [exec_remoteAccessArrive_of_stands (by simp [hr]) h1 hb hs, serveAway_load h1 hr hn]
      rfl
    · exact ⟨_, exec_remoteAccessArrive_of_stands (by simp [hr]) h1 hb hs, serveAway_amo hr good⟩
    · rw [exec_pageWalkComplete hm hx, if_pos he, missDone_of_cons hm hx]
    · rw [exec_pageWalkComplete hm hx, if_neg he]
  · intro s h d q x
    refine ⟨exec_heldArrivalOverrun_of_early, fun late => ?_, exec_presenceWaitResend_of_some, exec_presenceWaitResend_of_none,
      exec_remotePushResend_of_some, exec_remotePushResend_of_none, fun g lim hl hq => ?_, exec_bartwaitTimeout_of_none,
      fun h => ?_, fun h hv => ?_, fun h hv => ?_⟩
    · rw [exec_heldArrivalOverrun_of_one late]
      exact ⟨fun last => congrArg _ (overrunHeld_of_none last), fun g next => congrArg _ (overrunHeld_of_some next)⟩
    · rw [exec_bartwaitTimeout_of_some hl, barLate_of_bartwait hq]
      exact ⟨fun same clean => congrArg _ (if_pos ⟨same, clean⟩), fun moved => congrArg _ (if_neg fun ⟨same, clean⟩ =>
        moved.elim (absurd same) (Bool.eq_false_iff.1 clean))⟩
    · rw [exec_parkTimeout, if_pos h]
    · rw [exec_parkTimeout, if_neg (Bool.eq_false_iff.1 h), if_pos hv]
    · rw [exec_parkTimeout, if_neg (Bool.eq_false_iff.1 h), if_neg (Bool.eq_false_iff.1 hv)]

end Sys2Proof.Machine
end

section
/-! PROOF. Atomics, cache words and fences (06_ordering.md R194, R198, R200, R202; 05_memory.md R178 to R180): what a release and an
acquire let through, what an atomic of checked bytes answers, and obligation O14. -/

namespace Sys2Proof.Machine

/-! Words that hold as a release or an acquire. -/

section
variable {s : State} {scope : Scope} {f : State → Res State}

theorem afterRelease_of_ready (h : releaseReady s scope = true) : afterRelease s scope f = f (perform s scope) := if_pos h

theorem afterRelease_of_not_ready (h : releaseReady s scope = false) : afterRelease s scope f = .hold .engines s :=
  if_neg (Bool.eq_false_iff.1 h)

/-- An acquire comes after the core's own release writes (06_ordering.md R196). -/
theorem afterReleases_of_ready (pushed : s.pushesDone s.rank = true) (released : dReleasing s s.me.posS = false)
    (ready : acquireReady s s.rank = true) : afterReleases s f = f (acquire s s.rank) := by
  have idle : ¬(s.pushesDone s.rank = false ∨ dReleasing s s.me.posS = true) := by simp [pushed, released]
  rw [afterReleases, if_neg idle, withAcquire, if_pos ready]

theorem releaseReady_of_quiet (quiet : s.me.quiet = true) (h : scope = .core ∨ s.released s.rank = true) :
    releaseReady s scope = true := by
  simpa [releaseReady, quiet] using h

theorem releaseReady_of_unreleased (far : scope ≠ .core) (h : s.released s.rank = false) : releaseReady s scope = false := by
  simp [releaseReady, far, h]

theorem releaseReady_of_busy (busy : s.me.quiet = false) : releaseReady s scope = false := by
  simp [releaseReady, busy]
end

theorem orderRel_eq (ord : Order) : orderRel ord = (ord == .rl || ord == .aqrl) := by cases ord <;> rfl

theorem orderAcq_eq (ord : Order) : orderAcq ord = (ord == .aq || ord == .aqrl) := by cases ord <;> rfl

/-! The step of an atomic at its home. -/

/-- The key of an atomic's bytes. -/
def homeKey (l : List Chunk) : Nat := (l.head?.map (·.key)).getD 0

/-- The atomic that waits in a state for the bytes of chunks: its code, its operand and what CAS expects (06_ordering.md R200). -/
def waitingAmo (s : State) (op : Nat) (small : Bool) (x : Word64) (l : List Chunk) (d : GIdx) (b e : Word64) : PendingLoad :=
  { loadOf s d x l false with amo := some (op, b, e), acq := small }

section
variable {s : State} {op : Nat} {plain small : Bool} {x : Word64} {l : List Chunk} {d : GIdx} {b e : Word64}
  (unsent : slotPending s s.rank (runsOf l) = false)
include unsent

/-- An atomic that need not hold the walker joins the outstanding loads (06_ordering.md R200; log entry 76). -/
theorem amoStep_of_room (lazy : s.lazy = true) (early : plain = true ∨ small = true) (good : s.chunksPoisoned l = false)
    (room : s.me.loadRoom ((s.atoms l).map (·.1)) = true) :
    amoStep s op plain small x l d b e =
      .ok (s.setMe ({ s.me with loads := s.me.loads ++ [waitingAmo s op small x l d b e] } : Core).next) := by
  have room' : s.me.loadRoom ((waitingAmo s op small x l d b e).parts.map (·.1)) = true := loadParts_keys s l ▸ room
  simp only [amoStep, unsent, Bool.false_eq_true, if_false, if_pos (And.intro lazy (And.intro early good))]
  exact (congrArg Res.next (if_pos room')).trans ((Res.next_ok _).trans (congrArg Res.ok (State.setMe_next_modMe _ _)))

/-- Any other atomic reads and writes its bytes at once (06_ordering.md R200). -/
theorem amoStep_of_clean (now : s.lazy = false ∨ plain = false ∧ small = false)
    (good : (settleFor s s.rank x l).chunksPoisoned l = false) :
    amoStep s op plain small x l d b e =
      let t : State := settleFor s s.rank x l
      let old : Word64 := BitVec.ofNat 64 (leNat (t.readChunks l))
      .ok ((amoWrite t (homeKey l) (op, b, e) old).modMe fun c => (c.wg d (GVal.ofWord old)).next) := by
  have eager : ¬(s.lazy = true ∧ (plain = true ∨ small = true) ∧ s.chunksPoisoned l = false) := by
    rcases now with h | ⟨hp, hs⟩ <;> simp [*]
  simp only [amoStep, unsent, Bool.false_eq_true, if_false, if_neg eager, good, homeKey]
end

/-! An atomic of checked bytes. -/

/-- The state that the release of an order leaves, where it holds one (06_ordering.md R194). -/
def afterOrderRel (u : State) (ord : Order) (scope : Scope) : State := if orderRel ord then perform u scope else u

/-- The state that the acquire of an order leaves, where it holds one (06_ordering.md R196). -/
def afterOrderAcq (r : State) (ord : Order) : State := if orderAcq ord then acquire r r.rank else r

/-- What an order waits for has come (06_ordering.md R194, R196). -/
def OrderReady (u : State) (ord : Order) (scope : Scope) : Prop :=
  let r : State := afterOrderRel u ord scope
  (orderRel ord = true → releaseReady u scope = true) ∧
    (orderAcq ord = true → r.pushesDone r.rank = true ∧ dReleasing r r.me.posS = false ∧ acquireReady r r.rank = true)

theorem afterOrderAcq_of_ready {r : State} {ord : Order} {f : State → Res State}
    (h : orderAcq ord = true → r.pushesDone r.rank = true ∧ dReleasing r r.me.posS = false ∧ acquireReady r r.rank = true) :
    (if orderAcq ord then afterReleases r f else f r) = f (afterOrderAcq r ord) := by
  unfold afterOrderAcq
  split
  case isTrue ha =>
    obtain ⟨pushed, released, ready⟩ := h ha
    exact afterReleases_of_ready pushed released ready
  case isFalse => rfl

/-- A word holds as the release and then as the acquire of its order. -/
theorem order_of_ready {u : State} {ord : Order} {scope : Scope} {f : State → Res State} (ready : OrderReady u ord scope) :
    (if orderRel ord then afterRelease u scope fun r => if orderAcq ord then afterReleases r f else f r
      else if orderAcq ord then afterReleases u f else f u) = f (afterOrderAcq (afterOrderRel u ord scope) ord) := by
  obtain ⟨release, acquires⟩ := ready
  rw [← afterOrderAcq_of_ready (f := f) acquires]
  unfold afterOrderRel
  split
  case isTrue hr => exact afterRelease_of_ready (release hr)
  case isFalse => rfl

/-- Once what its order waits for has come, an atomic on bytes of this package takes its step at their home (06_ordering.md R200). -/
theorem amo_of_ready {s u : State} {op : Nat} {ord : Order} {scope : Scope} {d a b : GIdx} {l : List Chunk}
    (checked : access s .s (s.me.base a) (s.me.base a).word 8 (permLoad ||| permStore ||| permAtomic) 8 .any = .ok (.bytes l, u))
    (memory : l.any (·.hostOwn) = false) (ready : OrderReady u ord scope) :
    amo s op ord scope d a b = amoStep (afterOrderAcq (afterOrderRel u ord scope) ord) op (!orderRel ord && !orderAcq ord)
      (ord == .aq && scopeAlone s s.rank scope) (s.me.base a).word l d (s.me.rg b).word (s.me.rg d).word := by
  simp only [amo, checked, Res.bind, memory, Bool.false_eq_true, if_false]
  exact order_of_ready ready

/-! Cache maintenance. -/

/-- The line of a key (05_memory.md R179). -/
def lineOf (key : Nat) : Nat := key / 64 * 64

/-- A core whose instruction cache has lost a line (05_memory.md R180). -/
def Core.loseLine (c : Core) (line : Nat) : Core := { c with icache := c.icache.filter fun l => l.addr != line }

theorem dropLine_of_alone {s : State} {r key : Nat} (alone : (s.coreAt r).composed = false) :
    dropLine s r key = s.modCore r (·.loseLine (lineOf key)) := by
  unfold dropLine
  split
  case h_1 ms lead => simp [Core.composed, lead] at alone
  case h_2 => rfl

theorem exec_clwb (a : GIdx) (off : BitVec 11) (s : State) :
    exec (.clwb a off) s = settle s (maintain s a off fun t _ => t) := rfl

theorem exec_clinv (a : GIdx) (off : BitVec 11) (s : State) :
    exec (.clinv a off) s = settle s (maintain s a off fun t k => t.notify k 64) := rfl

section
variable {s u : State} {a : GIdx} {off : BitVec 11} {x : Word64} (at_ : (s.me.base a).word + off.signExtend 64 = x)
include at_

/-- Local memory and its windows are not cached (05_memory.md R179). -/
theorem maintain_of_local (f : State → Nat → State) (place : region x = 0xC ∨ region x = 0xD ∨ region x = 0xE)
    (checked : precheck s (s.me.base a) x 1 permLoad 1 .any = none) : maintain s a off f = .ok (s.modMe Core.next) := by
  simp only [maintain, at_, if_pos place, checked]

theorem maintain_of_generic (f : State → Nat → State) {k : Chunk} {l : List Chunk} (place : region x = 0x0)
    (checked : access s .s (s.me.base a) x 1 permLoad 1 .any = .ok (.bytes (k :: l), u)) :
    maintain s a off f = .ok ((f (performOver u s.rank false [(lineOf k.key, 64)]) (lineOf k.key)).modMe Core.next) := by
  have generic : ¬(region x = 0xC ∨ region x = 0xD ∨ region x = 0xE) := by simp [place]
  simp only [maintain, at_, if_neg generic, checked, Res.bind, lineOf]

/-- CLINV.i takes its line from the instruction cache of a core that leads no composed group (05_memory.md R180). -/
theorem exec_clinvI_of_alone {k : Chunk}
    (checked : access s .s (s.me.base a) x 1 permExecute 1 .any = .ok (.bytes [k], u))
    (rank : s.rank = u.rank) (alone : u.me.composed = false) :
    exec (.clinvI a off) s = .next (u.setMe (u.me.loseLine (lineOf k.key)).next) := by
  have word : exec (.clinvI a off) s = .next ((dropLine u s.rank k.key).modMe Core.next) := by
    change execClinvI a off s = _
    simp only [execClinvI, at_, checked, Res.bind, List.foldl_cons, List.foldl_nil, settle]
  rw [word, rank, dropLine_of_alone alone]
  exact congrArg _ (State.modMe_modMe u (·.loseLine (lineOf k.key)) Core.next)
end

/-! Fences. -/

theorem exec_fence_of_ready {s : State} {scope : Scope} (h : releaseReady s scope = true) :
    exec (.fence scope) s = .next ((perform s scope).setMe (perform s scope).me.next) :=
  congrArg (settle s) (afterRelease_of_ready h)

theorem exec_fence_of_not_ready {s : State} {scope : Scope} (h : releaseReady s scope = false) :
    exec (.fence scope) s = .next (s.setMe { s.me with hold := some (.engines, s.cycle) }) :=
  congrArg (settle s) (afterRelease_of_not_ready h)

/-- What the engines have still to access of the own local memory before LPBK (06_ordering.md R202). -/
def loopbackLeft (s : State) : List Touch := vPending s s.me.posS ++ mPending s s.me.posS ++ dPending s s.me.posS

/-- The S engine's accesses to the own local memory, performed (06_ordering.md R202). -/
def loopbackDone (s : State) : State :=
  performWhere (returnWhere s s.rank fun q => q.parts.any fun p => s.ownKey p.1) s.rank fun b => b.pieces.any fun p => s.ownKey p.1

theorem exec_lpbk (s : State) : exec .lpbk s = settle s
    (if !(loopbackLeft s).isEmpty then .hold .engines s else .ok ((loopbackDone s).modMe Core.next)) := rfl

theorem exec_lpbk_of_done {s : State} (h : loopbackLeft s = []) :
    exec .lpbk s = .next ((loopbackDone s).setMe (loopbackDone s).me.next) := by
  rw [exec_lpbk, h]
  rfl

theorem exec_lpbk_of_left {s : State} (h : loopbackLeft s ≠ []) :
    exec .lpbk s = .next (s.setMe { s.me with hold := some (.engines, s.cycle) }) := by
  have left : (!(loopbackLeft s).isEmpty) = true := by simpa using h
  rw [exec_lpbk, if_pos left]
  rfl

/-- Settles O14: an atomic of checked bytes is one step at their home, which waits or is made at once; a cache word and a fence are
one branch of their definition each. -/
theorem atomicsAndFences : Obligations.AtomicsAndFences := by
  unfold Obligations.AtomicsAndFences
  constructor
  · intro s u ord scope d a b l c y e rel acq r w small key t old checked memory hrel hacq unsent
    have rel_eq : orderRel ord = rel := orderRel_eq ord
    have acq_eq : orderAcq ord = acq := orderAcq_eq ord
    have ordered : afterOrderAcq (afterOrderRel u ord scope) ord = w := by rw [afterOrderAcq, afterOrderRel, rel_eq, acq_eq]
    have ready : OrderReady u ord scope := by
      rw [OrderReady, afterOrderRel, rel_eq, acq_eq]
      exact ⟨hrel, hacq⟩
    have word {i : Instr} {op : Nat} (hi : exec i s = settle s (amo s op ord scope d a b)) :
        exec i s = settle s (amoStep w op (!rel && !acq) small c.word l d y e) := by
      rw [hi, amo_of_ready checked memory ready, ordered, rel_eq, acq_eq]
    intro later
    constructor
    · intro lazy early good room
      have early' : (!rel && !acq) = true ∨ small = true := by simpa using early
      have joins (i : Instr) (op : Nat) (hi : exec i s = settle s (amo s op ord scope d a b)) : later i op :=
        ⟨waitingAmo w op small c.word l d y e, by rw [word hi, amoStep_of_room unsent lazy early' good room]; rfl, rfl, rfl, rfl,
          flatten_loadParts w l⟩
      exact ⟨joins _ 0 rfl, joins _ 1 rfl, joins _ 2 rfl, joins _ 3 rfl, joins _ 4 rfl, joins _ 5 rfl, joins _ 6 rfl, joins _ 7 rfl⟩
    · intro now good ends
      have now' : w.lazy = false ∨ (!rel && !acq) = false ∧ small = false := by
        refine now.imp_right fun ⟨held, wide⟩ => ⟨?_, wide⟩
        rcases held with h | h <;> simp [h]
      have done (i : Instr) (op : Nat) (hi : exec i s = settle s (amo s op ord scope d a b)) : ends i (amoNew op old y e) := by
        change exec i s = _
        rw [word hi, amoStep_of_clean unsent now' good]
        rfl
      exact ⟨done _ 0 rfl, done _ 1 rfl, done _ 2 rfl, done _ 3 rfl, done _ 4 rfl, done _ 5 rfl, done _ 6 rfl, done _ 7 rfl⟩
  · intro s u lvl a off scope l c x
    refine ⟨rfl, fun place checked => ⟨?_, ?_⟩, fun k place checked => ⟨?_, ?_⟩, fun k => exec_clinvI_of_alone rfl,
      fun quiet h => exec_fence_of_ready (releaseReady_of_quiet quiet h),
      fun _ far h => exec_fence_of_not_ready (releaseReady_of_unreleased far h),
      fun busy => exec_fence_of_not_ready (releaseReady_of_busy busy), exec_lpbk_of_done, exec_lpbk_of_left⟩
    · rw [exec_clwb, maintain_of_local rfl _ place checked]
      rfl
    · rw [exec_clinv, maintain_of_local rfl _ place checked]
      rfl
    · rw [exec_clwb, maintain_of_generic rfl _ place checked]
      rfl
    · rw [exec_clinv, maintain_of_generic rfl _ place checked]
      rfl

end Sys2Proof.Machine
end

section
/-! PROOF. Completion of a barrier object (07_sync.md R229), and obligation O17. -/

namespace Sys2Proof.Machine

/-- Whether an object's current phase ends (07_sync.md R229). -/
def Bar.Due (o : Bar) : Prop := o.retired = false ∧ o.expt ≤ o.arrt ∧ o.expb ≤ o.arrb

/-- The body of the loop of 07_sync.md R229, whose object is not retired. -/
def Bar.endPhase (o : Bar) : Bar :=
  let e : Nat := o.expt - o.wdrn
  { o with arrt := o.arrt - o.expt, arrb := o.arrb - o.expb, gen := o.gen + 1#32, expt := e, wdrn := 0
           retired := decide (e = 0 ∧ o.expb = 0) }

/-- What the loop of 07_sync.md R229 makes of an object: phases end as long as they are due, and no longer. -/
def Bar.LoopEnds (o x : Bar) : Prop :=
  ∃ k, x = Bar.endPhase^[k] o ∧ (∀ j, j < k → (Bar.endPhase^[j] o).Due) ∧ ¬(Bar.endPhase^[k] o).Due

theorem Bar.due_iff (o : Bar) : o.due = true ↔ o.Due := by
  simp [Bar.due, Bar.Due, and_assoc]

theorem Bar.phase_of_not_retired {o : Bar} (h : o.retired = false) : o.phase = o.endPhase := by
  simp [Bar.phase, Bar.endPhase, h, beq_eq_decide]

theorem Bar.loopEnds_of_not_due {o : Bar} (h : ¬o.Due) : o.LoopEnds o :=
  ⟨0, rfl, fun _ hj => absurd hj (Nat.not_lt_zero _), h⟩

theorem Bar.loopEnds_of_due {o x : Bar} (h : o.Due) (rest : o.endPhase.LoopEnds x) : o.LoopEnds x := by
  obtain ⟨k, result, before, after⟩ := rest
  refine ⟨k + 1, result, fun j hj => ?_, after⟩
  cases j with
  | zero => exact h
  | succ j => exact before j (Nat.lt_of_succ_lt_succ hj)

/-- An object k phases on, where its expectations stand. -/
def Bar.ahead (o : Bar) (k : Nat) : Bar :=
  { o with arrt := o.arrt - k * o.expt, arrb := o.arrb - k * o.expb, gen := o.gen + BitVec.ofNat 32 k }

/-- An object that is not retired, expects something and takes no withdrawal: its phases end with unchanged expectations. -/
structure Bar.Steady (o : Bar) : Prop where
  open_ : o.retired = false
  expects : ¬(o.expt = 0 ∧ o.expb = 0)
  stays : o.wdrn = 0

section
variable {o : Bar} (h : o.Steady)
include h

theorem Bar.iterate_endPhase_of_steady (k : Nat) : Bar.endPhase^[k] o = o.ahead k := by
  obtain ⟨open_, expects, stays⟩ := h
  induction k with
  | zero => simp [Bar.ahead]
  | succ k ih =>
    rw [Function.iterate_succ_apply', ih]
    simp [Bar.endPhase, Bar.ahead, open_, expects, stays, Nat.sub_sub, Nat.succ_mul, BitVec.add_assoc, BitVec.ofNat_add]

/-- The arrivals of a steady object fill as many phases as `Bar.more` counts. -/
theorem Bar.due_ahead_iff (k : Nat) : (o.ahead k).Due ↔ k < o.more := by
  obtain ⟨open_, expects, -⟩ := h
  have fills {e a : Nat} (he : e ≠ 0) : e ≤ a - k * e ↔ k < a / e := by
    rw [Nat.lt_div_iff_mul_lt (Nat.pos_of_ne_zero he)]
    omega
  simp only [Bar.Due, Bar.ahead, Bar.more, open_, true_and]
  split
  case isTrue ht => rw [ht, fills (fun hb => expects ⟨ht, hb⟩)]; simp
  case isFalse ht =>
    rw [fills ht]
    split
    case isTrue hb => simp [hb]
    case isFalse hb => rw [fills hb, lt_min_iff]

theorem Bar.loopEnds_of_steady : o.LoopEnds (o.ahead o.more) := by
  refine ⟨o.more, (Bar.iterate_endPhase_of_steady h _).symm, fun j hj => ?_, ?_⟩
  · rwa [Bar.iterate_endPhase_of_steady h, Bar.due_ahead_iff h]
  · rw [Bar.iterate_endPhase_of_steady h, Bar.due_ahead_iff h]
    exact Nat.lt_irrefl _
end

/-- After its phase has ended, an object that is not retired is steady. -/
theorem Bar.endPhase_steady {o : Bar} (h : o.endPhase.retired = false) : o.endPhase.Steady :=
  ⟨h, of_decide_eq_false h, rfl⟩

theorem Bar.complete_of_not_due {o : Bar} (h : ¬o.Due) : o.complete = o :=
  if_neg fun d => h (o.due_iff.1 d)

theorem Bar.complete_of_due {o : Bar} (h : o.Due) :
    o.complete = if o.endPhase.due then o.endPhase.ahead o.endPhase.more else o.endPhase := by
  rw [Bar.complete, if_pos (o.due_iff.2 h), Bar.phase_of_not_retired h.1]
  rfl

/-- complete(o) of 07_sync.md R229 is its loop. -/
theorem Bar.loopEnds_complete (o : Bar) : o.LoopEnds o.complete := by
  by_cases h : o.Due
  · refine Bar.loopEnds_of_due h ?_
    rw [Bar.complete_of_due h]
    split
    case isTrue again => exact Bar.loopEnds_of_steady (Bar.endPhase_steady ((Bar.due_iff _).1 again).1)
    case isFalse done => exact Bar.loopEnds_of_not_due fun d => done ((Bar.due_iff _).2 d)
  · rw [Bar.complete_of_not_due h]
    exact Bar.loopEnds_of_not_due h

/-- Settles O17: the phases that `Bar.complete` ends at once are those of the loop, one by one. -/
theorem barrierCompletion : Obligations.BarrierCompletion := by
  unfold Obligations.BarrierCompletion
  intro o
  refine ⟨o.loopEnds_complete, fun retired => Bar.complete_of_not_due fun due => ?_⟩
  obtain ⟨open_, -, -⟩ := due
  exact Bool.false_ne_true (open_.symm.trans retired)

end Sys2Proof.Machine
end

section
/-! SUPPORT. What the accesses of cores, the arrivals at their local memories and the answers to their requests leave of a state,
stated once for all of it: every field but the cores, the bytes with their marks, and what is on its way. -/

namespace Sys2Proof.Machine

/-- A state without what an access, an arrival or an answer may change. -/
def State.aside (s : State) : State :=
  { s with cores := [], kettles := [], mem := [], ctags := [], poison := [], net := [], outbox := [], injects := [], ueRetry := [] }

/-- The core whose step it is stands aside. -/
theorem State.rank_of_aside {s t : State} (h : t.aside = s.aside) : t.rank = s.rank :=
  have kept : t.aside.rank = s.aside.rank := congrArg State.rank h
  kept

/-! Cores, stores and marks. -/

@[simp] theorem State.setCore_aside (s : State) (r : Nat) (c : Core) : (s.setCore r c).aside = s.aside := rfl
@[simp] theorem State.modCore_aside (s : State) (r : Nat) (f : Core → Core) : (s.modCore r f).aside = s.aside := rfl
@[simp] theorem State.notify_aside (s : State) (key n : Nat) : (s.notify key n).aside = s.aside := rfl
@[simp] theorem State.store_aside (s : State) (key : Nat) (bs : List Byte) : (s.store key bs).aside = s.aside := rfl
@[simp] theorem State.storeNat_aside (s : State) (key n v : Nat) : (s.storeNat key n v).aside = s.aside := rfl
@[simp] theorem State.markPoison_aside (s : State) (l : List Nat) : (s.markPoison l).aside = s.aside := rfl
@[simp] theorem State.answer_aside (s : State) (bs : Option (List Byte)) : (s.answer bs).aside = s.aside := rfl

@[simp] theorem State.storeTagged_aside (s : State) (key : Nat) (bs : List Byte) (tag : Bool) :
    (s.storeTagged key bs tag).aside = s.aside := by
  unfold State.storeTagged
  cases tag <;> rfl

@[simp] theorem State.net_aside (s : State) (l : List NetMsg) : ({ s with net := l } : State).aside = s.aside := rfl

/-- A fold leaves what each of its steps leaves. -/
theorem foldl_aside {α : Type} (f : State → α → State) (hf : ∀ t x, (f t x).aside = t.aside) (l : List α) (s : State) :
    (l.foldl f s).aside = s.aside := by
  induction l generalizing s with
  | nil => rfl
  | cons x l ih => rw [List.foldl_cons, ih, hf]

/-! The answers of waiting requests. -/

@[simp] theorem pushResume_aside (s : State) (r frame : Nat) : (pushResume s r frame).aside = s.aside := by
  unfold pushResume groupPending
  split <;> simp

@[simp] theorem replyFrame_aside (s : State) (fa : Nat) (d : GIdx) (x : GVal) : (replyFrame s fa d x).aside = s.aside := by
  simp only [replyFrame, State.storeNat_aside]
  split <;> simp

@[simp] theorem replyValue_aside (s : State) (q : WaitReq) (d : GIdx) (x : GVal) : (replyValue s q d x).aside = s.aside := by
  unfold replyValue
  split <;> simp

@[simp] theorem replyTrap_aside (s : State) (q : WaitReq) (cause : Nat) (addr : Word64) :
    (replyTrap s q cause addr).aside = s.aside := by
  unfold replyTrap
  split <;> simp [faultFrame]

@[simp] theorem replyAgain_aside (s : State) (q : WaitReq) : (replyAgain s q).aside = s.aside := by
  unfold replyAgain
  split <;> simp

@[simp] theorem dropReq_aside (s : State) (r : Nat) (q : WaitReq) : (dropReq s r q).aside = s.aside := rfl

/-! Arrivals and counters. -/

@[simp] theorem eventRecord_aside (s : State) (r kind arrival user : Nat) (addr : Word64) (srcPkg : BitVec 32)
    (srcCore : BitVec 16) : (eventRecord s r kind arrival user addr srcPkg srcCore).aside = s.aside := by
  simp only [eventRecord]
  split <;> simp

@[simp] theorem injectAcked_aside (s : State) (a : Arrival) : (injectAcked s a).aside = s.aside := rfl

/-- The control registers of a core that an overrun at a granule has been counted in (07_sync.md R217). -/
def Ctl.overran (k : Ctl) (gr : Nat) : Ctl :=
  { k with prsovf := setField (setField k.prsovf 0 13 gr) 16 16 (min 65535 (field k.prsovf 16 16 + 1))
           intpend := if field k.prsovf 16 16 = 65535 then k.intpend else setField k.intpend 5 1 1 }

/-- The state in which an overrun of an arrival has been counted (07_sync.md R217). -/
def overrunCounted (s : State) (a : Arrival) : State :=
  s.modCore a.dst.toNat fun c => c.modCtl fun k => Ctl.overran k (a.off.toNat / 64)

/-- The state in which the transport of an arrival, where it came by one, has been told of its overrun (19_integration.md R489). -/
def State.toldTransport (s : State) (ue : Option (Option Nat × Nat)) : State :=
  match ue with
  | none => s
  | some (pair, n) =>
    { s with
      outbox := s.outbox ++ [.nack n]
      ueRetry := match pair with | some p => s.ueRetry ++ [(p, n)] | none => s.ueRetry }

@[simp] theorem State.toldTransport_aside (s : State) (ue : Option (Option Nat × Nat)) : (s.toldTransport ue).aside = s.aside := by
  unfold State.toldTransport
  split <;> rfl

/-- The overrun of a posted arrival: it is counted, recorded and reported (07_sync.md R217, R223). -/
theorem overrun_of_posted (s : State) {a : Arrival} (h : a.kind ≠ .putw) :
    overrun s a = (injectAcked (eventRecord (overrunCounted s a) a.dst.toNat 2 a.kind.code (a.off.toNat / 64) 0#64 a.srcPkg
      a.srcCore) a).toldTransport a.ue := by
  cases kind : a.kind with
  | putw => exact absurd kind h
  | putf | dputf | inject | pin | ue =>
    simp only [overrun, kind]
    rfl

@[simp] theorem overrun_aside (s : State) (a : Arrival) : (overrun s a).aside = s.aside := by
  by_cases h : a.kind = .putw
  · simp only [overrun, h]
    split <;> simp
  · simp [overrun_of_posted s h, overrunCounted]

@[simp] theorem applyArrival_aside (s : State) (a : Arrival) : (applyArrival s a).aside = s.aside := by
  simp only [applyArrival]
  split <;> simp

@[simp] theorem settleGranule_aside (fuel r gr : Nat) (s : State) : (settleGranule r gr fuel s).aside = s.aside := by
  induction fuel generalizing gr s with
  | zero => rfl
  | succ fuel ih =>
    simp only [settleGranule]
    repeat' split
    all_goals simp [ih]

@[simp] theorem expireHeld_aside (s : State) (r : Nat) : (expireHeld s r).aside = s.aside := by
  refine foldl_aside _ (fun t h => ?_) _ s
  simp only [expireHeld.overrunHeld]
  split <;> simp

@[simp] theorem serveGranule_aside (s : State) (r gr : Nat) : (serveGranule s r gr).aside = s.aside := by
  simp [serveGranule]

@[simp] theorem arrive_aside (s : State) (a : Arrival) : (arrive s a).aside = s.aside := by
  simp only [arrive]
  repeat' split
  all_goals simp

@[simp] theorem serveMail_aside (r : Nat) (i : BitVec 8) (fuel : Nat) (s : State) : (serveMail r i fuel s).aside = s.aside := by
  induction fuel generalizing s with
  | zero => rfl
  | succ fuel ih =>
    simp only [serveMail]
    repeat' split
    all_goals simp [ih]

@[simp] theorem incMail_aside (s : State) (r : Nat) (i : BitVec 8) (amount : BitVec 32) :
    (incMail s r i amount).aside = s.aside := by
  simp [incMail, setMail]

/-! Posted messages, buffered stores and outstanding loads. -/

@[simp] theorem landPosted_aside (s : State) (w : PostedStore) : (landPosted s w).aside = s.aside :=
  s.storeTagged_aside (postedKey w) w.bytes w.tag

@[simp] theorem applyMsg_aside (s : State) (m : NetMsg) : (applyMsg s m).aside = s.aside := by
  unfold applyMsg applyPosted
  split <;> simp

@[simp] theorem flushNet_aside (s : State) (p : NetMsg → Bool) : (flushNet s p).aside = s.aside :=
  foldl_aside _ applyMsg_aside _ { s with net := s.net.filter fun m => !(isPosted m.ev && m.may s && p m) }

@[simp] theorem flushSome_aside (r dst n : Nat) (s : State) : (flushSome r dst n s).aside = s.aside := by
  induction n generalizing s with
  | zero => rfl
  | succ n ih =>
    simp only [flushSome]
    repeat' split
    all_goals simp [ih]

@[simp] theorem performAll_aside (s : State) (b : Buffered) : (performAll s b).aside = s.aside := by
  unfold performAll
  exact foldl_aside _ (fun t p => State.storeTagged_aside ..) _ s

@[simp] theorem performWhere_aside (s : State) (r : Nat) (p : Buffered → Bool) : (performWhere s r p).aside = s.aside := by
  simp [performWhere, foldl_aside _ performAll_aside]

@[simp] theorem amoWrite_aside (s : State) (k : Nat) (op : Nat × Word64 × Word64) (old : Word64) :
    (amoWrite s k op old).aside = s.aside := by
  simp only [amoWrite]
  repeat' split
  all_goals simp

@[simp] theorem landPiece_aside (s : State) (r mix : Nat) (l : PendingLoad) : (landPiece s r mix l).2.aside = s.aside := by
  simp only [landPiece, beforeAmo, performOver]
  repeat' split
  all_goals simp

@[simp] theorem landPieces_aside (r n : Nat) (x : PendingLoad × State) : (landPieces r n x).aside = x.2.aside := by
  induction n generalizing x with
  | zero => rfl
  | succ n ih => simp [landPieces, ih, beforeLoad, foldl_aside]

@[simp] theorem returnWhere_aside (s : State) (r : Nat) (p : PendingLoad → Bool) : (returnWhere s r p).aside = s.aside := by
  simp [returnWhere, landLoad, foldl_aside]

@[simp] theorem flushTo_aside (s : State) (r dst : Nat) : (flushTo s r dst).aside = s.aside := flushNet_aside s _

/-- The accesses that come before one of a core change nothing but what accesses may change (05_memory.md R164, 06_ordering.md R185,
R189). -/
@[simp] theorem settleFor_aside (s : State) (r : Nat) (x : Word64) (l : List Chunk) : (settleFor s r x l).aside = s.aside := by
  unfold settleFor
  refine (foldl_aside _ (fun t c => ?_) l _).trans ?_
  · split <;> simp
  · simp [performOver, landOver]

end Sys2Proof.Machine
end

section
/-! PROOF. The operands of words on objects at their owners (07_sync.md R220, R227, R232): where a checked operand lies, and in which
state its word goes on. -/

namespace Sys2Proof.Machine

/-! Accesses that translate nothing. -/

theorem access_eq_ok {s t : State} {w : Engine} {c : GVal} {x : Word64} {n align : Nat} {need : BitVec 12} {al : Allow} {g : Target}
    (h : access s w c x n need align al = .ok (g, t)) :
    precheck s c x n need align al = none ∧ resolve s w x n need = .ok (g, t) := by
  unfold access at h
  split at h
  case h_1 => cases h
  case h_2 passed => exact ⟨passed, h⟩

theorem allowed_of_precheck {s : State} {c : GVal} {x : Word64} {n align : Nat} {need : BitVec 12} {al : Allow}
    (h : precheck s c x n need align al = none) : allowed s al x = true := by
  unfold precheck at h
  split at h
  case h_1 => cases h
  case h_2 =>
    cases denied : allowed s al x with
    | true => rfl
    | false =>
      simp only [denied, if_true] at h
      split at h <;> cases h

/-- An access outside generic memory translates no page, and leaves the state (05_memory.md R174). -/
theorem resolve_state {s t : State} {w : Engine} {x : Word64} {n : Nat} {need : BitVec 12} {g : Target} (far : region x ≠ 0x0)
    (h : resolve s w x n need = .ok (g, t)) : t = s := by
  simp only [resolve] at h
  split at h
  case h_1 generic => exact absurd generic far
  case h_2 =>
    split at h <;> cases h
    rfl
  case h_3 =>
    split at h
    · cases h
    · split at h
      · split at h <;> cases h
        rfl
      · split at h
        · cases h
        · obtain ⟨-, -, h⟩ := Res.bind_eq_ok h
          obtain ⟨-, -, h⟩ := Res.bind_eq_ok h
          cases h
          rfl
  case h_4 =>
    split at h
    · split at h <;> cases h
      rfl
    · obtain ⟨-, -, h⟩ := Res.bind_eq_ok h
      cases h
      rfl
  case h_5 =>
    split at h <;> cases h
    rfl
  case h_6 => cases h

/-! Operands in local memory. -/

theorem region_of_allowed_local {s : State} {x : Word64} (h : allowed s .local_ x = true) : region x ≠ 0x0 := by
  intro generic
  simp [allowed, generic] at h

theorem access_local_state {s u : State} {w : Engine} {c : GVal} {x : Word64} {n align : Nat} {need : BitVec 12} {g : Target}
    (h : access s w c x n need align .local_ = .ok (g, u)) : u = s := by
  obtain ⟨passed, found⟩ := access_eq_ok h
  exact resolve_state (region_of_allowed_local (allowed_of_precheck passed)) found

/-- A key of a core's local memory names its core and its offset. -/
theorem ownerOf_localKey {r o : Nat} (hr : r < 4096) (ho : o < 2 ^ 19) {k : Chunk} (hk : k.key = localKey r o) :
    ownerOf (.bytes [k]) = some (.here r o) := by
  have core : keyCore k.key = some r := by
    rw [hk, keyCore, localKey, if_pos (by omega)]
    congr 1
    omega
  have off : (k.key - 0xC * 2 ^ 52) % 2 ^ 19 = o := by
    rw [hk, localKey]
    omega
  simp only [ownerOf, core, off]

section
variable {s t : State} {c : GVal} {x : Word64} {n align r o : Nat} {need : BitVec 12} (h : LocalAt s c x n need align r o t)
include h

theorem LocalAt.operand : localOperand s c x n need align = .ok (.here r o, t) := by
  obtain ⟨hr, ho, u, k, checked, hk, rfl⟩ := h
  simp only [localOperand, checked, Res.bind, ownerOf_localKey hr ho hk]

/-- The word goes on as a word of the same core. -/
theorem LocalAt.rank : t.rank = s.rank := by
  obtain ⟨-, -, u, k, checked, -, rfl⟩ := h
  obtain rfl := access_local_state checked
  exact State.rank_of_aside (settleFor_aside ..)
end

/-! Operands in mailboxes. -/

section
variable {s t : State} {a : GIdx} {need : BitVec 12} {r : Nat} {i : BitVec 8} (h : MailAt s a need r i t)
include h

theorem MailAt.operand : mailOperand s a need = .ok (some (r, i), t) := by
  obtain ⟨u, checked, place, high, low, pkg, rfl, rfl, rfl⟩ := h
  have here : ¬(region (s.me.rg a).word ≠ 0xE ∨ field (s.me.rg a).word 49 3 ≠ 0 ∨ field (s.me.rg a).word 10 9 ≠ 0) := by
    simp [place, high, low]
  simp only [mailOperand, checked, Res.bind, if_neg here, pkg, ne_eq, not_true, if_false]

theorem MailAt.rank : t.rank = s.rank := by
  obtain ⟨u, checked, place, -, -, -, rfl, -, rfl⟩ := h
  obtain ⟨-, found⟩ := access_eq_ok checked
  obtain rfl := resolve_state (by simp [place]) found
  exact State.rank_of_aside (flushTo_aside ..)
end

/-! Acquires. -/

section
variable {s : State} {f : State → Res State}

theorem withAcquire_of_ready (h : acquireReady s s.rank = true) : withAcquire s f = f (acquire s s.rank) := if_pos h

theorem withAcquire_of_not_ready (h : acquireReady s s.rank = false) : withAcquire s f = .hold .rankTransit s :=
  if_neg (Bool.eq_false_iff.1 h)
end

end Sys2Proof.Machine
end

section
/-! PROOF. Mailbox words and increments (07_sync.md R226, R227), and obligation O16. -/

namespace Sys2Proof.Machine

/-- A number of at most 128 bits as plain data. -/
theorem GVal.ofNat_toNat {w : Nat} (x : BitVec w) : GVal.ofNat x.toNat = { bits := x.setWidth 128, tag := false } := by
  rw [GVal.ofNat, BitVec.ofNat_toNat]

/-! Words on a counter of this package. -/

section
variable {s t : State} {d a b : GIdx} {r : Nat} {i : BitVec 8}

theorem exec_mbrd_of_mailAt (h : MailAt s a permLoad r i t) :
    exec (.mbrd d a) s = .next (t.setMe (t.me.wg d { bits := ((t.coreAt r).rmail i).setWidth 128, tag := false }).next) := by
  change execMbrd d a s = _
  simp only [execMbrd, h.operand, Res.bind, settle, GVal.ofNat_toNat]
  rfl

theorem exec_mbset_of_mailAt (h : MailAt s a permStore r i t) :
    exec (.mbset a b) s = .next ((setMail t r i ((s.me.rg b).word.setWidth 32)).modMe Core.next) := by
  change execMbset a b s = _
  simp only [execMbset, h.operand, Res.bind, settle]

/-- An increment that does not wait is applied at once (07_sync.md R227). -/
theorem mailIncrement_of_eager (eager : t.lazy = false) (rel : Bool) :
    mailIncrement t a b (some (r, i)) rel = (incMail t r i ((t.me.rg b).word.setWidth 32)).modMe Core.next := by
  simp [mailIncrement, sendMail, eager]

section
variable (h : MailAt s a (permStore ||| permAtomic) r i t)
include h

theorem exec_mbinc_of_mailAt (eager : t.lazy = false) :
    exec (.mbinc a b) s = .next ((incMail t r i ((t.me.rg b).word.setWidth 32)).modMe Core.next) := by
  change execMbinc a b s = _
  simp only [execMbinc, h.operand, Res.bind, settle, mailIncrement_of_eager eager]

theorem exec_mbincRel_of_mailAt {scope : Scope} (ready : releaseReady t scope = true) (eager : (perform t scope).lazy = false) :
    exec (.mbincRel scope a b) s =
      .next ((incMail (perform t scope) r i (((perform t scope).me.rg b).word.setWidth 32)).modMe Core.next) := by
  change execMbincRel scope a b s = _
  simp only [execMbincRel, h.operand, Res.bind, settle, afterRelease_of_ready ready, mailIncrement_of_eager eager]
end

/-- MBWAIT, once its acquire may be made, returns the counter that has reached its target, and else waits at its owner (07_sync.md
R227). -/
theorem exec_mbwait_of_mailAt (h : MailAt s a permLoad r i t) (ready : acquireReady t t.rank = true) :
    exec (.mbwait d a b) s =
      let q : State := acquire t s.rank
      let y : BitVec 32 := (q.coreAt r).rmail i
      let n : BitVec 32 := (s.me.rg b).word.setWidth 32
      .next (if mailReached y n then q.setMe (q.me.wg d { bits := y.setWidth 128, tag := false }).nextSafe
        else waitAt q r i.toNat (.mbwait d n) none) := by
  change execMbwait d a b s = _
  simp only [execMbwait, h.operand, Res.bind, withAcquire_of_ready ready, h.rank, GVal.ofNat_toNat]
  split <;> rfl
end

/-! Increments that arrive. -/

@[simp] theorem Core.rmail_wmail (c : Core) (i j : BitVec 8) (x : BitVec 32) :
    (c.wmail i x).rmail j = if j = i then x else c.rmail j := by
  simp only [Core.rmail, Core.wmail, Vector.getElem_set, ← BitVec.toNat_inj, eq_comm]

/-- Where nothing waits at a core, a counter takes its value and serves no one (07_sync.md R226). -/
theorem setMail_of_no_wait {s : State} {r : Nat} (h : (s.coreAt r).waitq = []) (i : BitVec 8) (x : BitVec 32) :
    setMail s r i x = s.modCore r fun c => c.wmail i x := by
  have idle : ((s.modCore r fun c => c.wmail i x).coreAt r).waitq = [] := by simpa [Core.wmail] using h
  simp only [setMail, idle, List.length_nil, serveMail]

theorem exec_mailboxIncrementArrive_of_stays {s : State} (stays : s.inTransit s.rank = false) (i : BitVec 8) (n : BitVec 32) :
    exec (.mailboxIncrementArrive i n) s = .next (incMail s s.rank i n) :=
  congrArg Host.Outcome.next (if_neg (Bool.eq_false_iff.1 stays))

/-- Settles O16: a word on a counter goes on at its owner; an increment with no one waiting writes one counter. -/
theorem mailboxWords : Obligations.MailboxWords := by
  unfold Obligations.MailboxWords
  refine ⟨fun s t d a b scope r i => ?_, fun s i n stays idle => ⟨?_, by simp, fun j hj => by simp [hj]⟩⟩
  · refine ⟨fun h => ⟨exec_mbrd_of_mailAt h, fun ready reached => ?_, fun ready short => ?_⟩, exec_mbset_of_mailAt,
      fun h eager => ⟨exec_mbinc_of_mailAt h eager, exec_mbincRel_of_mailAt h⟩⟩
    · rw [exec_mbwait_of_mailAt h ready]
      exact congrArg _ (if_pos (decide_eq_true reached))
    · rw [exec_mbwait_of_mailAt h ready]
      exact congrArg _ (if_neg (by simpa [mailReached] using short))
  · rw [exec_mailboxIncrementArrive_of_stays stays, incMail, setMail_of_no_wait idle]
    rfl

end Sys2Proof.Machine
end

section
/-! PROOF. Monitors (07_sync.md R234, R235), and obligation O19. -/

namespace Sys2Proof.Machine

/-- A bit that is replaced by 0 reads 0. -/
theorem getLsbD_setField_zero {w : Nat} (x : BitVec w) {i : Nat} (hi : i < w) : (setField x i 1 0).getLsbD i = false := by
  have bit : field (setField x i 1 0) i 1 = 0 := field_setField x 0 hi
  rw [BitVec.getLsbD, Nat.testBit_eq_decide_div_mod_eq]
  simpa [field] using bit

/-! What a core is after a wait on its monitor. -/

@[simp] theorem Core.nextSafe_pc (c : Core) : c.nextSafe.pc = c.pc + 4#64 := by
  rw [Core.nextSafe, Core.clearDist, Core.modCtl_pc, Core.next_pc]

@[simp] theorem Core.nextSafe_rg (c : Core) (i : GIdx) : c.nextSafe.rg i = c.rg i := by
  rw [Core.nextSafe, Core.clearDist, Core.modCtl_rg, Core.next_rg]

/-- A core e that has returned a code to register d and has stepped past its MONWAIT, with its monitor off. -/
structure Core.MonEnded (c e : Core) (d : GIdx) (code : Nat) : Prop where
  value : d ≠ 0#6 → e.rg d = GVal.ofNat code
  pc : e.pc = c.pc + 4#64
  line : e.monLine = none
  off : e.ctl.monctl.getLsbD 63 = false
  others : ∀ j, j ≠ d → e.rg j = c.rg j

/-- A written register reads its value, and every other what it did. -/
theorem Core.rg_wg_self (c : Core) {d : GIdx} (h : d ≠ 0#6) (x : GVal) : (c.wg d x).rg d = x := by
  rw [Core.rg_wg, if_neg h, if_pos rfl]

theorem Core.rg_wg_other (c : Core) {d j : GIdx} (h : j ≠ d) (x : GVal) : (c.wg d x).rg j = c.rg j := by
  rw [Core.rg_wg, if_neg h]
  split
  case isTrue zero => rw [zero, Core.rg_zero]
  case isFalse => rfl

/-- A core that has lost the line of its monitor, with its control registers changed. -/
def Core.loseMonitor (c : Core) (g : Ctl → Ctl) : Core := { c.modCtl g with monLine := none }

section
variable (c : Core) (g : Ctl → Ctl)

@[simp] theorem Core.loseMonitor_rg (i : GIdx) : (c.loseMonitor g).rg i = c.rg i := rfl
@[simp] theorem Core.loseMonitor_pc : (c.loseMonitor g).pc = c.pc := rfl
@[simp] theorem Core.loseMonitor_monLine : (c.loseMonitor g).monLine = none := rfl
@[simp] theorem Core.loseMonitor_ctl : (c.loseMonitor g).ctl = g c.ctl := rfl
end

/-- Control registers whose monitor is off, with MONCTL otherwise changed (07_sync.md R235). -/
def Ctl.disarmed (f : BitVec 64 → BitVec 64) (k : Ctl) : Ctl := { k with monctl := setField (f k.monctl) 63 1 0 }

theorem Ctl.disarmed_monctl (f : BitVec 64 → BitVec 64) (k : Ctl) : (k.disarmed f).monctl = setField (f k.monctl) 63 1 0 := rfl

@[simp] theorem Core.finish_rg (c : Core) (d i : GIdx) (x : GVal) : (c.finish d x).rg i = (c.wg d x).rg i := by
  rw [← Core.nextSafe_rg (c.wg d x)]
  rfl

@[simp] theorem Core.finish_pc (c : Core) (d : GIdx) (x : GVal) : (c.finish d x).pc = c.pc + 4#64 := by
  rw [← Core.wg_pc c d x, ← Core.nextSafe_pc]
  rfl

/-- A core that has written its register, stepped on and turned its monitor off has ended its MONWAIT. -/
theorem Core.monEnded_of_loseMonitor {c e : Core} {d : GIdx} {code : Nat} {f : BitVec 64 → BitVec 64} (hpc : e.pc = c.pc + 4#64)
    (hrg : ∀ i, e.rg i = (c.wg d (GVal.ofNat code)).rg i) : c.MonEnded (e.loseMonitor (Ctl.disarmed f)) d code where
  value hd := by rw [Core.loseMonitor_rg, hrg, Core.rg_wg_self c hd]
  pc := by rw [Core.loseMonitor_pc, hpc]
  line := Core.loseMonitor_monLine e (Ctl.disarmed f)
  off := by rw [Core.loseMonitor_ctl, Ctl.disarmed_monctl, getLsbD_setField_zero _ (by decide)]
  others j hj := by rw [Core.loseMonitor_rg, hrg, Core.rg_wg_other c hj]

section
variable (c : Core) (d : GIdx) (code : Nat)

/-- MONWAIT that returns at once ends so. -/
theorem Core.monEnded_monReturn : c.MonEnded (c.monReturn d code) d code := by
  have off : c.monReturn d code = (c.wg d (GVal.ofNat code)).nextSafe.loseMonitor (Ctl.disarmed id) := rfl
  rw [off]
  exact Core.monEnded_of_loseMonitor (by rw [Core.nextSafe_pc, Core.wg_pc]) fun i => Core.nextSafe_rg _ i

/-- A MONWAIT that has waited ends so. -/
theorem Core.monEnded_finish (f : BitVec 64 → BitVec 64) :
    c.MonEnded ((c.finish d (GVal.ofNat code)).loseMonitor (Ctl.disarmed f)) d code :=
  Core.monEnded_of_loseMonitor (Core.finish_pc c d _) fun i => Core.finish_rg c d i _
end

/-! The monitor words. -/

/-- MONARM arms the line of a byte that no other core holds (07_sync.md R234). -/
theorem exec_monarm_of_near {s u : State} {a : GIdx} {off : BitVec 11} {k : Chunk}
    (checked : access s .s (s.me.base a) ((s.me.base a).word + off.signExtend 64) 1 permLoad 1 .any = .ok (.bytes [k], u))
    (near : k.far s.rank = none) :
    exec (.monarm a off) s = .next (u.modMe fun m =>
      { (m.modCtl fun r => { r with
          monctl := BitVec.ofNat 64 (2 ^ 63 + field ((s.me.base a).word + off.signExtend 64) 0 56) }).next with
        monLine := some (k.key / 64 * 64, 64) }) := by
  change execMonarm a off s = _
  simp only [execMonarm, presAddr, checked, Res.bind, if_pos near, settle]

section
variable {s : State} (d a : GIdx)

/-- A core that begins to wait on its monitor, with a limit in cycles. -/
def Core.monWaits (c : Core) (d : GIdx) (now limit : Nat) : Core :=
  { c with blocked := some { op := .monwait d, since := now, deadline := some (now + limit) } }

theorem exec_monwait : exec (.monwait d a) s =
    .next (if s.me.ctl.monctl.getLsbD 63 = false then s.setMe (s.me.monReturn d 2)
      else if s.me.ctl.monctl.getLsbD 62 then s.setMe (s.me.monReturn d 1)
      else if field (s.me.rg a).word 0 32 = 0 then s.setMe (s.me.monReturn d 0)
      else s.setMe (s.me.monWaits d s.cycle (field (s.me.rg a).word 0 32))) := rfl

theorem exec_monwait_of_unarmed (off : s.me.ctl.monctl.getLsbD 63 = false) :
    exec (.monwait d a) s = .next (s.setMe (s.me.monReturn d 2)) := by
  rw [exec_monwait, if_pos off]

section
variable (armed : s.me.ctl.monctl.getLsbD 63 = true)
include armed

theorem exec_monwait_of_hit (hit : s.me.ctl.monctl.getLsbD 62 = true) :
    exec (.monwait d a) s = .next (s.setMe (s.me.monReturn d 1)) := by
  rw [exec_monwait, if_neg (by simp [armed]), if_pos hit]

section
variable (clear : s.me.ctl.monctl.getLsbD 62 = false)
include clear

theorem exec_monwait_of_no_limit (limit : (s.me.rg a).word.toNat % 2 ^ 32 = 0) :
    exec (.monwait d a) s = .next (s.setMe (s.me.monReturn d 0)) := by
  have limit' : field (s.me.rg a).word 0 32 = 0 := by simpa [field] using limit
  rw [exec_monwait, if_neg (by simp [armed]), if_neg (Bool.eq_false_iff.1 clear), if_pos limit']

theorem exec_monwait_of_limit (limit : (s.me.rg a).word.toNat % 2 ^ 32 ≠ 0) :
    exec (.monwait d a) s = .next (s.setMe (s.me.monWaits d s.cycle ((s.me.rg a).word.toNat % 2 ^ 32))) := by
  have limit' : field (s.me.rg a).word 0 32 = (s.me.rg a).word.toNat % 2 ^ 32 := by simp [field]
  rw [exec_monwait, if_neg (by simp [armed]), if_neg (Bool.eq_false_iff.1 clear), limit', if_neg limit]
end
end
end

/-! The ends of a wait. -/

/-- The code of a MONWAIT that a write of this cycle ends: 1 before its limit (07_sync.md R235). -/
def hitCode (now : Nat) : Option Nat → Nat
  | some t => (decide (now < t)).toNat
  | none => 1

theorem hitCode_of_early {now : Nat} {lim : Option Nat} (h : ∀ t, lim = some t → now < t) : hitCode now lim = 1 := by
  cases lim with
  | none => rfl
  | some t => simp [hitCode, h t rfl]

theorem hitCode_of_late {now : Nat} {lim : Option Nat} (h : ∃ t, lim = some t ∧ t ≤ now) : hitCode now lim = 0 := by
  obtain ⟨t, rfl, late⟩ := h
  simp [hitCode, late]

section
variable {c : Core} {b : Blocked} {d : GIdx} (waits : c.blocked = some b) (op : b.op = .monwait d)
include waits op

/-- A write to the line of a MONWAIT ends it. -/
theorem Core.monEnded_monHit {l m key n : Nat} (line : c.monLine = some (l, m)) (h1 : l < key + n) (h2 : key < l + m) (now : Nat) :
    c.MonEnded (c.monHit now key n) d (hitCode now b.deadline) := by
  obtain ⟨bop, since, deadline⟩ := b
  subst op
  have meets : overlaps l m key n = true := by simp [overlaps, h1, h2]
  have ends : c.monHit now key n = (c.finish d (GVal.ofNat (hitCode now deadline))).loseMonitor
      (Ctl.disarmed fun x => setField x 62 1 (hitCode now deadline)) := by
    simp only [Core.monHit, line, meets, if_true, waits]
    rfl
  rw [ends]
  exact c.monEnded_finish ..

/-- The limit of a MONWAIT ends it with 0. -/
theorem Core.monEnded_monLate {t now : Nat} (limit : b.deadline = some t) (late : t ≤ now) : c.MonEnded (c.monLate now) d 0 := by
  obtain ⟨bop, since, deadline⟩ := b
  subst op
  subst limit
  have ends : c.monLate now = (c.finish d (GVal.ofNat 0)).loseMonitor (Ctl.disarmed id) := by
    simp only [Core.monLate, waits, if_pos late]
    rfl
  rw [ends]
  exact c.monEnded_finish ..
end

theorem exec_monwaitWake (s : State) (key n : Nat) : exec (.monwaitWake key n) s = .next (s.setMe (s.me.monHit s.cycle key n)) := rfl

theorem exec_monwaitTimeout (s : State) : exec .monwaitTimeout s = .next (s.setMe (s.me.monLate s.cycle)) := rfl

/-- A word or an event after which MONWAIT has ended with a code, and nothing else of the state has changed. -/
theorem ends_of_monEnded {s : State} {i : Instr} {e : Core} {d : GIdx} {code : Nat} (word : exec i s = .next (s.setMe e))
    (h : s.me.MonEnded e d code) :
    ∃ t, exec i s = .next t ∧ OnlyMe s t ∧ (d ≠ 0#6 → t.me.rg d = { bits := BitVec.ofNat 128 code, tag := false }) ∧
      t.me.pc = s.me.pc + 4#64 ∧ t.me.monLine = none ∧ t.me.ctl.monctl.getLsbD 63 = false ∧ ∀ j, j ≠ d → t.me.rg j = s.me.rg j := by
  obtain ⟨value, pc, line, off, others⟩ := h
  refine ⟨_, word, State.setMe_me s e, ?_⟩
  rw [State.me_setMe]
  exact ⟨value, pc, line, off, others⟩

/-- Settles O19: MONWAIT decides by the monitor and its limit; what it returns, now or after a wait, is one change of the core. -/
theorem monitorResults : Obligations.MonitorResults := by
  unfold Obligations.MonitorResults
  intro s u d a off k key n x lim armed hit ends
  refine ⟨fun checked near => ?_,
    fun unarmed => ends_of_monEnded (exec_monwait_of_unarmed d a unarmed) (s.me.monEnded_monReturn d 2),
    fun on struck => ends_of_monEnded (exec_monwait_of_hit d a on struck) (s.me.monEnded_monReturn d 1),
    fun on clear none => ends_of_monEnded (exec_monwait_of_no_limit d a on clear none) (s.me.monEnded_monReturn d 0),
    exec_monwait_of_limit d a, fun b waits op => ⟨fun l m line h1 h2 => ?_, fun t limit late => ?_⟩⟩
  · have line : field x 0 56 = x.toNat % 2 ^ 56 := by simp [field]
    rw [exec_monarm_of_near checked near, line]
    rfl
  · have ended := Core.monEnded_monHit waits op line h1 h2 s.cycle
    exact ⟨fun early => ends_of_monEnded (exec_monwaitWake s key n) (hitCode_of_early early ▸ ended),
      fun late => ends_of_monEnded (exec_monwaitWake s key n) (hitCode_of_late late ▸ ended)⟩
  · exact ends_of_monEnded (exec_monwaitTimeout s) (Core.monEnded_monLate waits op limit late)

end Sys2Proof.Machine
end

section
/-! PROOF. Barrier words (07_sync.md R231, R232; 01_machine.md R37), and obligation O18. -/

namespace Sys2Proof.Machine

/-! Clean objects and slots that are not valid. -/

theorem cleanBar_of_clean {s : State} {r o : Nat} {x : Word64} {f : Bar → Res State} (clean : barBad s r o = false) :
    cleanBar s r o x f = f (barLoad s.mem (localKey r o)) := if_neg (Bool.eq_false_iff.1 clean)

theorem cleanBar_of_bad {s : State} {r o : Nat} {x : Word64} {f : Bar → Res State} (bad : barBad s r o = true) :
    cleanBar s r o x f = .trap (trapS 0x0D x) s := if_pos bad

theorem field_one_eq_zero {w : Nat} {x : BitVec w} {i : Nat} (h : x.getLsbD i = false) : field x i 1 = 0 := by
  rw [BitVec.getLsbD, Nat.testBit_eq_decide_div_mod_eq] at h
  simpa [field] using h

/-- A slot that is not valid is not withdrawn (07_sync.md R231). -/
theorem withdrawSlot_of_invalid {s : State} {r : Nat} {i : BitVec 2} (h : ((s.coreAt r).rslot i).getLsbD 127 = false) :
    withdrawSlot s r i = s := by
  simp only [withdrawSlot, field_one_eq_zero h, if_true]

/-! Words that change an object of this package. -/

section
variable {s t : State} {d a b : GIdx} {slot : BitVec 2} {r o : Nat}

/-- The object that BARINIT starts from, before its first phases end (07_sync.md R232). -/
def freshBar (v : Word64) : Bar :=
  { gen := 0#32, retired := false, wrapped := false, expt := v.toNat % 2 ^ 32, arrt := 0
    expb := v.toNat / 2 ^ 32, arrb := 0, wdrn := 0 }

theorem field_low (v : Word64) : field v 0 32 = v.toNat % 2 ^ 32 := by simp [field]

theorem field_high (v : Word64) : field v 32 32 = v.toNat / 2 ^ 32 := Nat.mod_eq_of_lt (by have := v.isLt; omega)

/-- What BARJOIN does at its object once the slot that it takes is withdrawn (07_sync.md R231, R232). -/
def joinedBar (u w : State) (x : Word64) (slot : BitVec 2) (r o : Nat) : State :=
  barUpdate (w.modMe fun m => (m.wslot slot (slotValue (slotAddr u x) (barLoad w.mem (localKey r o)).gen)).next) r o
    fun b => { b with expt := (b.expt + 1) % 2 ^ 32 }

section
variable (h : LocalAt s (s.me.rg a) (s.me.rg a).word 64 permBar 64 r o t)
include h

theorem exec_barinit_of_localAt :
    exec (.barinit a b) s = .next ((barStore (t.store (localKey r o) (List.replicate 64 0#8)) r o
      (freshBar (s.me.rg b).word).complete).modMe Core.next) := by
  change execBarinit a b s = _
  simp only [execBarinit, barOperand, h.operand, Res.bind, settle, field_low, field_high]
  rfl

/-- BARARV reads the generation of its arrival into its register and its slots, and arrives (07_sync.md R232). -/
theorem exec_bararv_of_localAt (ready : releaseReady t .sys = true) (clean : barBad (perform t .sys) r o = false) :
    let u : State := perform t .sys
    let g : BitVec 32 := (barLoad u.mem (localKey r o)).gen
    exec (.bararv d a) s = .next (barUpdate (u.modMe fun m =>
      ((m.slotsArrive (slotAddr u (s.me.rg a).word) g).wg d { bits := g.setWidth 128, tag := false }).next) r o Bar.arrive) := by
  change execBararv d a s = _
  simp only [execBararv, barOperand, h.operand, Res.bind, settle, afterRelease_of_ready ready, cleanBar_of_clean clean,
    GVal.ofNat_toNat]

theorem exec_barjoin_of_invalid (free : (s.me.rslot slot).getLsbD 127 = false)
    (clean : barBad (withdrawSlot t t.rank slot) r o = false) :
    exec (.barjoin a slot) s = .next (joinedBar t (withdrawSlot t t.rank slot) (s.me.rg a).word slot r o) := by
  change execBarjoin a slot s = _
  simp only [execBarjoin, barOperand, h.operand, Res.bind, free, Bool.false_eq_true, if_false, cleanBar_of_clean clean, settle]
  rfl

/-- The withdrawal of a valid slot is a release (07_sync.md R232). -/
theorem exec_barjoin_of_valid (valid : (s.me.rslot slot).getLsbD 127 = true) (ready : releaseReady t .sys = true)
    (clean : barBad (withdrawSlot (perform t .sys) (perform t .sys).rank slot) r o = false) :
    exec (.barjoin a slot) s = .next (joinedBar (perform t .sys) (withdrawSlot (perform t .sys) (perform t .sys).rank slot)
      (s.me.rg a).word slot r o) := by
  change execBarjoin a slot s = _
  simp only [execBarjoin, barOperand, h.operand, Res.bind, valid, if_true, afterRelease_of_ready ready, cleanBar_of_clean clean,
    settle]
  rfl
end

/-! Words that read an object of this package. -/

section
variable (h : LocalAt s (s.me.rg a) (s.me.rg a).word 64 permLoad 64 r o t)
include h

theorem exec_bartest_of_clean (clean : barBad t r o = false) :
    exec (.bartest d a) s =
      .next (t.modMe fun m => (m.wg d { bits := (barLoad t.mem (localKey r o)).gen.setWidth 128, tag := false }).next) := by
  change execBartest d a s = _
  simp only [execBartest, barOperand, h.operand, Res.bind, cleanBar_of_clean clean, settle, GVal.ofNat_toNat]

theorem exec_bartest_of_bad (bad : barBad t r o = true) :
    exec (.bartest d a) s = .next (takeTrap t s.rank (trapS 0x0D (s.me.rg a).word)) := by
  change execBartest d a s = _
  simp only [execBartest, barOperand, h.operand, Res.bind, cleanBar_of_bad bad, settle]

section
variable (ready : acquireReady t t.rank = true) (clean : barBad (acquire t s.rank) r o = false)
include ready clean

/-- BARWAIT goes on where its object has left the generation, and else waits at its owner (07_sync.md R232). -/
theorem exec_barwait_of_clean :
    let q : State := acquire t s.rank
    let g : BitVec 32 := (s.me.rg b).word.setWidth 32
    exec (.barwait a b) s = .next (if (barLoad q.mem (localKey r o)).gen ≠ g then q.modMe Core.nextSafe
      else waitAt q r o (.barwait g) none) := by
  change execBarwait a b s = _
  simp only [execBarwait, barOperand, h.operand, Res.bind, withAcquire_of_ready ready, h.rank, cleanBar_of_clean clean, settle]

/-- BARTWAIT does so too, and returns 1; with a limit of 0 it returns 0 in place of waiting (07_sync.md R232). -/
theorem exec_bartwait_of_clean :
    let q : State := acquire t s.rank
    let v : Word64 := (s.me.rg b).word
    exec (.bartwait d a b) s = .next (
      if (barLoad q.mem (localKey r o)).gen ≠ v.setWidth 32 then q.modMe fun m => (m.wg d (GVal.ofNat 1)).nextSafe
      else if v.toNat / 2 ^ 32 = 0 then q.modMe fun m => (m.wg d (GVal.ofNat 0)).nextSafe
      else waitAt q r o (.bartwait d (v.setWidth 32)) (some (s.cycle + v.toNat / 2 ^ 32))) := by
  change execBartwait d a b s = _
  simp only [execBartwait, barOperand, h.operand, Res.bind, withAcquire_of_ready ready, h.rank, cleanBar_of_clean clean, field_high]
  repeat' split
  all_goals rfl
end
end
end

theorem exec_barexit_of_ready {s : State} (ready : releaseReady s .sys = true) :
    exec .barexit s = .next ((withdrawAll (perform s .sys) (perform s .sys).rank).modMe Core.next) :=
  congrArg (settle s) (afterRelease_of_ready ready)

/-- Settles O18: a barrier word on an object of this package is one step at its owner, after the release or the acquire that it is. -/
theorem barrierResults : Obligations.BarrierResults := by
  unfold Obligations.BarrierResults
  intro s t d a b slot r o c v obj word full
  refine ⟨fun h => ⟨exec_barinit_of_localAt h, exec_bararv_of_localAt h,
      fun free => exec_barjoin_of_invalid h free,
      fun valid ready => exec_barjoin_of_valid h valid ready, withdrawSlot_of_invalid⟩,
    fun h => ⟨exec_bartest_of_clean h, exec_bartest_of_bad h, fun ready clean => ⟨fun moved => ?_, fun same => ?_⟩⟩,
    exec_barexit_of_ready⟩
  · rw [exec_barwait_of_clean h ready clean, exec_bartwait_of_clean h ready clean]
    exact ⟨congrArg _ (if_pos moved), congrArg _ (if_pos moved)⟩
  · have stays : ¬(obj (acquire t s.rank)).gen ≠ v.setWidth 32 := not_not.2 same
    rw [exec_barwait_of_clean h ready clean, exec_bartwait_of_clean h ready clean]
    exact ⟨congrArg _ (if_neg stays), fun none => congrArg _ ((if_neg stays).trans (if_pos none)),
      fun some => congrArg _ ((if_neg stays).trans (if_neg some))⟩

end Sys2Proof.Machine
end

section
/-! PROOF. Tagged arrivals (07_sync.md R215 to R217, R221): what writes leave of the presence tags, the held arrivals and the waiting
requests at a core, and what an arrival does at its granule. -/

namespace Sys2Proof.Machine

/-! What a core keeps for its local memory. -/

/-- The presence tags, the held arrivals, the waiting requests and PRSOVF of a core. -/
def Core.presence (c : Core) : BitVec 8192 × List Held × List WaitReq × BitVec 32 := (c.pres, c.held, c.waitq, c.ctl.prsovf)

theorem Core.presence_eq_iff {c e : Core} : e.presence = c.presence ↔
    e.pres = c.pres ∧ e.held = c.held ∧ e.waitq = c.waitq ∧ e.ctl.prsovf = c.ctl.prsovf := by
  simp [Core.presence]

theorem Core.modCtl_presence {f : Ctl → Ctl} (hf : ∀ k, (f k).prsovf = k.prsovf) (c : Core) :
    (c.modCtl f).presence = c.presence := by
  simp [Core.presence, hf]

theorem Ctl.prsovf_spdist (k : Ctl) (x : BitVec 32) : ({ k with spdist := x } : Ctl).prsovf = k.prsovf := rfl
theorem Ctl.prsovf_evqptr (k : Ctl) (x : BitVec 64) : ({ k with evqptr := x } : Ctl).prsovf = k.prsovf := rfl

theorem Core.moved_presence (c : Core) (cap : GVal) (pos : BitVec 32) :
    ({ c with codecap := cap, posS := pos } : Core).presence = c.presence := rfl

@[simp] theorem Core.nextSafe_presence (c : Core) : c.nextSafe.presence = c.presence := by
  have steps : c.nextSafe.presence = c.next.presence :=
    Core.modCtl_presence (f := fun k => { k with spdist := setField k.spdist 16 16 0 }) (fun k => Ctl.prsovf_spdist k _) c.next
  exact steps.trans (Core.moved_presence c _ _)

theorem Core.unblocked_presence (c : Core) (b : Option Blocked) (stepping : Bool) (halt : Option (BitVec 4)) :
    ({ c with blocked := b, stepping := stepping, halt := halt } : Core).presence = c.presence := rfl

@[simp] theorem Core.finish_presence (c : Core) (d : GIdx) (x : GVal) : (c.finish d x).presence = c.presence := by
  rw [Core.finish, Core.unblocked_presence, Core.nextSafe_presence]
  simp [Core.presence]

/-- Control registers with MONCTL changed. -/
def Ctl.setMon (f : BitVec 64 → BitVec 64) (k : Ctl) : Ctl := { k with monctl := f k.monctl }

theorem Ctl.setMon_prsovf (f : BitVec 64 → BitVec 64) (k : Ctl) : (k.setMon f).prsovf = k.prsovf := rfl

/-- Of the control registers of the core that watches it, a write changes at most MONCTL and the distance. -/
theorem Core.monHit_setMon (c : Core) (now key n : Nat) :
    c.monHit now key n = c ∨ (∃ f, c.monHit now key n = c.modCtl (Ctl.setMon f)) ∨
      ∃ d x f, c.monHit now key n = (c.finish d x).loseMonitor (Ctl.setMon f) := by
  unfold Core.monHit
  split
  · exact .inl rfl
  · split
    · split
      · exact .inr (.inr ⟨_, _, fun y => setField (setField y 62 1 _) 63 1 0, rfl⟩)
      · exact .inr (.inl ⟨fun y => setField y 62 1 1, rfl⟩)
    · exact .inl rfl

theorem Core.loseMonitor_presence (c : Core) (g : Ctl → Ctl) : (c.loseMonitor g).presence = (c.modCtl g).presence := rfl

/-- A write to the line of a monitor leaves what its core keeps for its local memory (07_sync.md R234). -/
theorem Core.monHit_presence (c : Core) (now key n : Nat) : (c.monHit now key n).presence = c.presence := by
  obtain h | ⟨f, h⟩ | ⟨d, x, f, h⟩ := c.monHit_setMon now key n
  · rw [h]
  · rw [h, Core.modCtl_presence (Ctl.setMon_prsovf f)]
  · rw [h, Core.loseMonitor_presence, Core.modCtl_presence (Ctl.setMon_prsovf f), Core.finish_presence]

theorem State.notify_presence (s : State) (r key n : Nat) : ((s.notify key n).coreAt r).presence = (s.coreAt r).presence :=
  State.coreAt_notify_eq Core.presence s (Core.monHit_presence _ _ _ _)

theorem State.store_presence (s : State) (r key : Nat) (bs : List Byte) :
    ((s.store key bs).coreAt r).presence = (s.coreAt r).presence := by
  rw [State.coreAt_store, State.notify_presence]

/-! Granules. -/

/-- After a granule's tag is set, it reads full and every other what it did. -/
theorem Core.full_setFull (c : Core) {gr g : Nat} (hg : g < 8192) : (c.setFull gr true).full g = (g == gr || c.full g) := by
  have one : (1#8192 <<< gr).getLsbD g = (g == gr) := by
    simp only [BitVec.getLsbD_shiftLeft, BitVec.getLsbD_one, hg, decide_true, Bool.true_and]
    grind
  simp only [Core.full, Core.setFull, if_true, BitVec.getLsbD_or, one, Bool.or_comm]

section
variable {s : State} {r : Nat}

/-- No arrival is given up before its limit (07_sync.md R216). -/
theorem expireHeld_of_early (early : ∀ y ∈ (s.coreAt r).held, s.cycle < y.until_) : expireHeld s r = s := by
  have none_late : (s.coreAt r).held.filter (fun y => decide (y.until_ ≤ s.cycle)) = [] :=
    List.filter_eq_nil_iff.2 fun y hy => by simpa using early y hy
  rw [expireHeld, none_late, List.foldl_nil]

/-- A full granule on which no one waits stays as it is. -/
theorem settleGranule_of_idle {gr : Nat} (full : (s.coreAt r).full gr = true) (idle : (s.coreAt r).waitq = []) (fuel : Nat) :
    settleGranule r gr fuel s = s := by
  cases fuel with
  | zero => rfl
  | succ fuel => simp only [settleGranule, full, if_true, firstConsumer, idle, List.find?_nil]
end

/-! The application of an arrival. -/

/-- An arrival at its granule: its bytes and marks are written, the tag is full, and what it acknowledges goes on (07_sync.md R215). -/
def landArrival (s : State) (a : Arrival) : State :=
  let r := a.dst.toNat
  injectAcked ((((s.store (localKey r a.off.toNat) a.bytes).markPoison (a.bad.map (localKey r a.off.toNat + ·))).modCore r
    fun c => c.setFull (a.off.toNat / 64) true).notify (localKey r (a.off.toNat / 64 * 64)) 64) a

theorem applyArrival_of_posted (s : State) {a : Arrival} (h : a.kind ≠ .putw) : applyArrival s a = landArrival s a := by
  simp only [applyArrival, putwReq, if_neg h]
  rfl

theorem landArrival_mem (s : State) (a : Arrival) :
    (landArrival s a).mem = s.mem.write (localKey a.dst.toNat a.off.toNat) a.bytes := rfl

theorem landArrival_presence (s : State) (a : Arrival) (q : Nat) : ((landArrival s a).coreAt q).presence =
    (if q = a.dst.toNat then (s.coreAt q).setFull (a.off.toNat / 64) true else s.coreAt q).presence := by
  let k : Nat := localKey a.dst.toNat a.off.toNat
  let u : State := (s.store k a.bytes).markPoison (a.bad.map (k + ·))
  have stored (p : Nat) : (u.coreAt p).presence = (s.coreAt p).presence := s.store_presence p k a.bytes
  have told : ((landArrival s a).coreAt q).presence =
      ((u.modCore a.dst.toNat fun c => c.setFull (a.off.toNat / 64) true).coreAt q).presence := State.notify_presence _ _ _ _
  rw [told, State.coreAt_modCore]
  split
  case isTrue here =>
    obtain ⟨pres, held, waitq, prsovf⟩ := Core.presence_eq_iff.1 (stored q)
    rw [Core.presence_eq_iff, ← here]
    exact ⟨by simp only [Core.setFull, pres], held, waitq, prsovf⟩
  case isFalse => exact stored q

/-! Where an arrival finds its granule. -/

section
variable {s : State} {a : Arrival}

/-- An arrival at an empty granule at which nothing is held or waits is applied (07_sync.md R215). -/
theorem arrive_of_empty (empty : (s.coreAt a.dst.toNat).full (a.off.toNat / 64) = false)
    (alone : (s.coreAt a.dst.toNat).held = []) (idle : (s.coreAt a.dst.toNat).waitq = []) (posted : a.kind ≠ .putw) :
    arrive s a = landArrival s a := by
  have first : expireHeld s a.dst.toNat = s := expireHeld_of_early (by simp [alone])
  have granule : a.off.toNat / 64 < 8192 := by have := a.off.isLt; omega
  have lands := landArrival_presence s a a.dst.toNat
  rw [if_pos rfl] at lands
  obtain ⟨pres, held, waitq, -⟩ := Core.presence_eq_iff.1 lands
  have full : ((landArrival s a).coreAt a.dst.toNat).full (a.off.toNat / 64) = true := by
    have set := (s.coreAt a.dst.toNat).full_setFull (gr := a.off.toNat / 64) granule
    rw [beq_self_eq_true, Bool.true_or] at set
    rwa [Core.full, pres]
  have served : serveGranule (landArrival s a) a.dst.toNat (a.off.toNat / 64) = landArrival s a := by
    have early : expireHeld (landArrival s a) a.dst.toNat = landArrival s a :=
      expireHeld_of_early (by rw [held]; simp [Core.setFull, alone])
    rw [serveGranule, early]
    exact settleGranule_of_idle full (waitq.trans idle) _
  have takes : (s.coreAt a.dst.toNat).full (a.off.toNat / 64) = false ∧ firstHeld (s.coreAt a.dst.toNat) (a.off.toNat / 64) = none ∧
      (s.coreAt a.dst.toNat).behindPut a = false := by simp [empty, firstHeld, Core.behindPut, alone]
  simp only [arrive, first, if_pos takes, applyArrival_of_posted s posted, served]

section
variable (full : (s.coreAt a.dst.toNat).full (a.off.toNat / 64) = true)
  (early : ∀ y ∈ (s.coreAt a.dst.toNat).held, s.cycle < y.until_)
include full early

/-- At a full granule an arrival is held for 4,096 cycles (07_sync.md R216). -/
theorem arrive_of_full (room : (s.coreAt a.dst.toNat).held.length < 32) : arrive s a = s.setCore a.dst.toNat
    { s.coreAt a.dst.toNat with held := (s.coreAt a.dst.toNat).held ++ [{ arr := a, until_ := s.cycle + 4096 }] } := by
  simp only [arrive, expireHeld_of_early early, full, Bool.true_eq_false, false_and, if_false, if_neg (Nat.not_le_of_lt room)]
  rfl

/-- With 32 held it is an overrun (07_sync.md R217). -/
theorem arrive_of_no_room (room : 32 ≤ (s.coreAt a.dst.toNat).held.length) : arrive s a = overrun s a := by
  simp only [arrive, expireHeld_of_early early, full, Bool.true_eq_false, false_and, if_false, if_pos room]
end
end

/-! Overruns. -/

theorem Ctl.overran_prsovf (k : Ctl) (gr : Nat) : (k.overran gr).prsovf =
    setField (setField k.prsovf 0 13 gr) 16 16 (min 65535 (field k.prsovf 16 16 + 1)) := rfl

theorem State.modCore_presence {f : Core → Core} (hf : ∀ c, (f c).presence = c.presence) (s : State) (r q : Nat) :
    ((s.modCore r f).coreAt q).presence = (s.coreAt q).presence := by
  rw [State.coreAt_modCore]
  split
  case isTrue here => rw [hf, here]
  case isFalse => rfl

theorem Core.evqSeq_presence (c : Core) (n : BitVec 64) : ({ c with evqSeq := n } : Core).presence = c.presence := rfl

theorem eventRecord_presence (s : State) (r kind arrival user : Nat) (addr : Word64) (srcPkg : BitVec 32) (srcCore : BitVec 16)
    (q : Nat) : ((eventRecord s r kind arrival user addr srcPkg srcCore).coreAt q).presence = (s.coreAt q).presence := by
  simp only [eventRecord]
  split
  · refine State.modCore_presence (fun c => ?_) s r q
    exact Core.modCtl_presence (fun k => Ctl.prsovf_evqptr k _) c
  · refine (State.modCore_presence (fun c => ?_) _ r q).trans (s.store_presence q _ _)
    rw [Core.evqSeq_presence]
    exact Core.modCtl_presence (fun k => Ctl.prsovf_evqptr k _) c

theorem State.toldTransport_presence (s : State) (ue : Option (Option Nat × Nat)) (q : Nat) :
    ((s.toldTransport ue).coreAt q).presence = (s.coreAt q).presence := by
  unfold State.toldTransport
  split <;> rfl

/-- The overrun of a posted arrival counts in PRSOVF, and leaves the tags and what is held (07_sync.md R217). -/
theorem overrun_presence (s : State) {a : Arrival} (posted : a.kind ≠ .putw) :
    ((overrun s a).coreAt a.dst.toNat).presence =
      ((s.coreAt a.dst.toNat).modCtl fun k => Ctl.overran k (a.off.toNat / 64)).presence := by
  have acked (t : State) : ((injectAcked t a).coreAt a.dst.toNat).presence = (t.coreAt a.dst.toNat).presence := rfl
  rw [overrun_of_posted s posted, State.toldTransport_presence, acked, eventRecord_presence, overrunCounted, State.coreAt_modCore,
    if_pos rfl]

theorem exec_taggedArrival_of_stays {s : State} (stays : s.inTransit s.rank = false) (a : Arrival) :
    exec (.taggedArrival a) s = .next (arrive s a) :=
  congrArg Host.Outcome.next (if_neg (Bool.eq_false_iff.1 stays))

end Sys2Proof.Machine
end

section
/-! PROOF. Presence words (07_sync.md R220, R223; 06_ordering.md R208; 05_memory.md R155), and obligation O15. -/

namespace Sys2Proof.Machine

/-! TAKE and PEEK. -/

section
variable {s t : State} {d a : GIdx} {off : BitVec 11} {r o : Nat}

/-- The permissions that TAKE and PEEK need (07_sync.md R220). -/
def permRead (take : Bool) : BitVec 12 := if take then permLoad ||| permAtomic else permLoad

section
variable {take : Bool}
  (h : LocalAt s (s.me.base a) ((s.me.base a).word + off.signExtend 64) 16 (permRead take) 16 r o t)
include h

/-- TAKE and PEEK are an acquire before they see the tag of their granule (06_ordering.md R208). -/
theorem takeOrPeek_of_not_ready (waits : acquireReady t t.rank = false) : takeOrPeek s d a off take = .hold .rankTransit t := by
  have operand := h.operand
  rw [permRead] at operand
  simp only [takeOrPeek, presAddr, operand, Res.bind, withAcquire_of_not_ready waits]

section
variable (ready : acquireReady t t.rank = true)
include ready

theorem takeOrPeek_of_full (full : ((acquire t s.rank).coreAt r).full (o / 64) = true)
    (clean : (acquire t s.rank).poisoned (localKey r o) 16 = false) :
    takeOrPeek s d a off take =
      let u : State := acquire t s.rank
      let s1 : State := u.modMe fun m => (m.wg d (unitAt u r o)).nextSafe
      .ok (if take then markGranule s1 r (o / 64) false else s1) := by
  have operand := h.operand
  rw [permRead] at operand
  simp only [takeOrPeek, presAddr, operand, Res.bind, withAcquire_of_ready ready, h.rank, full, clean, Bool.false_eq_true, if_false,
    if_true]
  rfl

theorem takeOrPeek_of_empty (empty : ((acquire t s.rank).coreAt r).full (o / 64) = false) :
    takeOrPeek s d a off take = .ok (waitAt (acquire t s.rank) r o (if take then .take d else .peek d) none) := by
  have operand := h.operand
  rw [permRead] at operand
  simp only [takeOrPeek, presAddr, operand, Res.bind, withAcquire_of_ready ready, h.rank, empty, Bool.false_eq_true, if_false]
end
end

theorem exec_take (d a : GIdx) (off : BitVec 11) (s : State) : exec (.take d a off) s = settle s (takeOrPeek s d a off true) := rfl

theorem exec_peek (d a : GIdx) (off : BitVec 11) (s : State) : exec (.peek d a off) s = settle s (takeOrPeek s d a off false) := rfl

/-! TRYTAKE. -/

section
variable (h : LocalAt s (s.me.base a) ((s.me.base a).word + off.signExtend 64) 16 (permLoad ||| permAtomic) 16 r o t)
include h

/-- TRYTAKE is an acquire only where it reads (06_ordering.md R208). -/
theorem exec_trytake_of_full (ready : acquireReady t t.rank = true) (full : (t.coreAt r).full (o / 64) = true)
    (clean : t.poisoned (localKey r o) 16 = false) :
    exec (.trytake d a off) s =
      let u : State := acquire t s.rank
      .next (markGranule (u.modMe fun m => m.tryTaken d (some (unitAt u r o))) r (o / 64) false) := by
  change execTrytake d a off s = _
  simp only [execTrytake, presAddr, h.operand, Res.bind, full, clean, Bool.false_eq_true, if_false, if_true,
    withAcquire_of_ready ready, h.rank, settle]
  rfl

theorem exec_trytake_of_empty (empty : (t.coreAt r).full (o / 64) = false) :
    exec (.trytake d a off) s = .next (t.modMe fun m => m.tryTaken d none) := by
  change execTrytake d a off s = _
  simp only [execTrytake, presAddr, h.operand, Res.bind, empty, Bool.false_eq_true, if_false, settle]
end

/-! Tags. -/

theorem setTag_of_localAt
    (h : LocalAt s (s.me.base a) ((s.me.base a).word + off.signExtend 64) 1 (permStore ||| permAtomic) 1 r o t) (b : Bool) :
    setTag s a off b = .ok ((markGranule t r (o / 64) b).modMe Core.next) := by
  simp only [setTag, presAddr, h.operand, Res.bind]

theorem exec_ptest_of_localAt (h : LocalAt s (s.me.base a) ((s.me.base a).word + off.signExtend 64) 1 permLoad 1 r o t) :
    exec (.ptest d a off) s = .next (t.modMe fun m => (m.wg d (GVal.ofNat ((t.coreAt r).full (o / 64)).toNat)).next) := by
  change execPtest d a off s = _
  simp only [execPtest, presAddr, h.operand, Res.bind, settle]

/-! PUTF and PUTW. -/

/-- The tagged arrival of a word at the address that it computes (07_sync.md R215). -/
def wordArrival (u : State) (kind : ArrivalKind) (r o : Nat) (x : Word64) (d : GIdx) : Arrival :=
  { putArrival u kind r o (u.me.rg d) with byAlias := region x == 0xD }

section
variable (h : LocalAt s (s.me.base a) ((s.me.base a).word + off.signExtend 64) 16 (permStore ||| permAtomic) 16 r o t)
  (ready : releaseReady t .sys = true)
include h ready

theorem exec_putf_of_eager (eager : (perform t .sys).lazy = false) :
    exec (.putf d a off) s = .next ((arrive (perform t .sys)
      (wordArrival (perform t .sys) .putf r o ((s.me.base a).word + off.signExtend 64) d)).modMe Core.next) := by
  change execPutf d a off s = _
  simp only [execPutf, presAddr, h.operand, Res.bind, afterRelease_of_ready ready, sendArrival, eager, Bool.false_eq_true, false_and,
    if_false, settle]
  rfl

/-- PUTW waits at its owner before its arrival is made there (07_sync.md R223). -/
theorem exec_putw_of_localAt :
    exec (.putw d a off) s = .next (arrive (waitAt (perform t .sys) r o .putw none)
      (wordArrival (perform t .sys) .putw r o ((s.me.base a).word + off.signExtend 64) d)) := by
  change execPutw d a off s = _
  simp only [execPutw, presAddr, h.operand, Res.bind, afterRelease_of_ready ready, settle]
  rfl
end
end

/-- The tag that PTEST reads is a number. -/
theorem GVal.ofNat_toNat_bool (b : Bool) : GVal.ofNat b.toNat = { bits := if b then 1#128 else 0#128, tag := false } := by
  cases b <;> rfl

/-- 07_sync.md R215: an arrival that is applied writes its bytes and sets its tag, and leaves every other byte and tag. -/
theorem exec_taggedArrival_of_empty {s : State} {a : Arrival} (stays : s.inTransit s.rank = false)
    (empty : (s.coreAt a.dst.toNat).full (a.off.toNat / 64) = false) (alone : (s.coreAt a.dst.toNat).held = [])
    (idle : (s.coreAt a.dst.toNat).waitq = []) (kind : a.kind = .putf) :
    ∃ t, exec (.taggedArrival a) s = .next t ∧
      t.mem.read (localKey a.dst.toNat a.off.toNat) a.bytes.length = a.bytes ∧
      (∀ k, (k < localKey a.dst.toNat a.off.toNat ∨ localKey a.dst.toNat a.off.toNat + a.bytes.length ≤ k) →
        t.mem.get k = s.mem.get k) ∧
      (∀ g, g < 8192 → (t.coreAt a.dst.toNat).full g = (g == a.off.toNat / 64 || (s.coreAt a.dst.toNat).full g)) ∧
      ∀ q, q ≠ a.dst.toNat → (t.coreAt q).pres = (s.coreAt q).pres := by
  have pres (q : Nat) := (Core.presence_eq_iff.1 (landArrival_presence s a q)).1
  refine ⟨landArrival s a, ?_, ?_, fun k hk => ?_, fun g hg => ?_, fun q hq => ?_⟩
  · rw [exec_taggedArrival_of_stays stays, arrive_of_empty empty alone idle (by simp [kind])]
  · rw [landArrival_mem, Mem.read_write_same]
  · rw [landArrival_mem, Mem.get_write_out hk]
  · rw [Core.full, pres, if_pos rfl]
    exact Core.full_setFull _ hg
  · rw [pres, if_neg hq]

/-- Settles O15: each presence word is one step at its granule, after the acquire or the release that it is; an arrival is applied,
held or an overrun by the tag of its granule. -/
theorem presenceWords : Obligations.PresenceWords := by
  unfold Obligations.PresenceWords
  refine ⟨?_, ?_, ?_⟩
  · intro s t d a off r o c x u v got
    refine ⟨fun waits => ⟨fun h => ?_, fun h => ?_⟩,
      fun h ready => ⟨fun full clean => ?_, exec_trytake_of_full h ready, exec_trytake_of_empty h, fun empty => ?_⟩,
      fun h ready => ⟨fun full clean => ?_, fun empty => ?_⟩, fun h => ⟨?_, ?_⟩, fun h => ?_⟩
    · rw [exec_take, takeOrPeek_of_not_ready (take := true) h waits]
      rfl
    · rw [exec_peek, takeOrPeek_of_not_ready (take := false) h waits]
      rfl
    · rw [exec_take, takeOrPeek_of_full (take := true) h ready full clean]
      rfl
    · rw [exec_take, takeOrPeek_of_empty (take := true) h ready empty]
      rfl
    · rw [exec_peek, takeOrPeek_of_full (take := false) h ready full clean]
      rfl
    · rw [exec_peek, takeOrPeek_of_empty (take := false) h ready empty]
      rfl
    · exact congrArg (settle s) (setTag_of_localAt h false)
    · exact congrArg (settle s) (setTag_of_localAt h true)
    · rw [exec_ptest_of_localAt h, GVal.ofNat_toNat_bool]
      rfl
  · intro s t d a off r o c x u arr h ready eager
    exact ⟨exec_putf_of_eager h ready eager, exec_putw_of_localAt h ready⟩
  · intro s a r c key stays
    refine ⟨exec_taggedArrival_of_empty stays, fun full room early => ?_, fun full none early kind => ?_⟩
    · rw [exec_taggedArrival_of_stays stays, arrive_of_full full early room]
    · refine ⟨overrun s a, ?_, ?_⟩
      · rw [exec_taggedArrival_of_stays stays, arrive_of_no_room full early none]
      · obtain ⟨pres, held, -, counted⟩ := Core.presence_eq_iff.1 (overrun_presence s (a := a) (by simp [kind]))
        rw [Core.modCtl_pres] at pres
        rw [Core.modCtl_held] at held
        rw [Core.modCtl_ctl, Ctl.overran_prsovf] at counted
        exact ⟨pres, held, counted⟩

end Sys2Proof.Machine
end

section
/-! SUPPORT. The laws of a deque (08_tasks.md R244 to R247): what a push does with room and without, what a pop takes, and how a core
goes on to its next record. -/

namespace Sys2Proof.Machine

/-- A core changed twice is changed once. -/
theorem State.modCore_modCore (s : State) (r : Nat) (f g : Core → Core) :
    (s.modCore r f).modCore r g = s.modCore r fun c => g (f c) := by
  simp only [State.modCore, State.setCore, State.coreAt, Table.find_set, if_true, Option.getD_some, Table.set_set]

/-! Pushes. -/

/-- A core with records at the young end of its hardware deque (08_tasks.md R245). -/
def Core.pushed (c : Core) (l : List Record) : Core := { c with hw := c.hw ++ l }

theorem Core.pushed_pushed (c : Core) (l m : List Record) : (c.pushed l).pushed m = c.pushed (l ++ m) :=
  congrArg (fun h => ({ c with hw := h } : Core)) (List.append_assoc ..)

theorem Core.pushed_nil (c : Core) : c.pushed [] = c := congrArg (fun h => ({ c with hw := h } : Core)) (List.append_nil _)

section
variable {s : State} {r : Nat} {x : Record}

/-- A deque with room in its hardware is not full (08_tasks.md R245, R247). -/
theorem dequeFull_of_room {c : Core} (room : c.hw.length < 32) : dequeFull c = false := by
  simp [dequeFull, Nat.not_le.2 room]

/-- With room in the hardware nothing spills (08_tasks.md R245). -/
theorem pushYoung_of_room (room : (s.coreAt r).hw.length < 32) :
    pushYoung s r x = s.modCore r fun c => c.pushed [x] := by
  rw [pushYoung, if_neg (Nat.not_le.2 room)]
  rfl

/-- Only a pinned record, a message task or a resume record makes a switch pending (09_compose.md R272). -/
theorem pushedTo_of_plain (hp : x.pin = false) (hm : x.msg = false) (hr : x.resume = false) : pushedTo s r x = s := by
  simp [pushedTo, hp, hm, hr]

section
variable (hp : x.pin = false) (hm : x.msg = false) (hr : x.resume = false)
include hp hm hr

theorem remotePush_of_room (src : Nat) (room : (s.coreAt r).hw.length < 32) (first : (s.coreAt r).push = []) :
    remotePush s src r x = s.modCore r fun c => c.pushed [x] := by
  simp only [remotePush, dequeFull_of_room room, first, and_self, if_true, pushYoung_of_room room, pushedTo_of_plain hp hm hr]

theorem remotePush_of_full (src : Nat) (full : dequeFull (s.coreAt r) = true) (room : (s.coreAt r).push.length < 32) :
    remotePush s src r x = s.modCore r fun c => { c with push := c.push ++ [x] } := by
  simp only [remotePush, full, Bool.true_eq_false, false_and, if_false, room, if_true, pushedTo_of_plain hp hm hr]
end

/-- A push that finds the deque and its buffer full is sent again by its source (08_tasks.md R247). -/
theorem remotePush_of_no_room (src : Nat) (full : dequeFull (s.coreAt r) = true) (crowded : 32 ≤ (s.coreAt r).push.length) :
    remotePush s src r x = s.modCore src fun c => { c with resend := c.resend ++ [.push r x] } := by
  simp only [remotePush, full, Bool.true_eq_false, false_and, if_false, Nat.not_lt.2 crowded]
end

/-! Pops. -/

section
variable {s : State} {r : Nat}

/-- Where no push waits, room in the deque serves no one (08_tasks.md R247). -/
theorem serveDeque_of_no_wait (push : (s.coreAt r).push = []) (waitq : (s.coreAt r).waitq = []) : serveDeque s r = s := by
  simp only [serveDeque, push, waitq, List.length_nil, List.map_nil, List.sum_nil]
  rfl

theorem popYoung_of_hw {l : List Record} {x : Record} (hw : (s.coreAt r).hw = l ++ [x]) (push : (s.coreAt r).push = [])
    (waitq : (s.coreAt r).waitq = []) : popYoung s r = some (x, s.modCore r fun c => { c with hw := c.hw.dropLast }) := by
  have full : refill s r = s := by simp [refill, hw]
  simp only [popYoung, full, hw, List.getLast?_concat]
  rw [serveDeque_of_no_wait (by simpa using push) (by simpa using waitq)]

theorem popYoung_of_empty (hw : (s.coreAt r).hw = []) (ring : (s.coreAt r).ringN = 0) : popYoung s r = none := by
  simp [popYoung, refill, hw, ring, ringRead]

/-! The next record. -/

/-- A core with neither a resume nor a record stays idle (08_tasks.md R256). -/
theorem startNext_of_nothing (resumes : (s.coreAt r).resumes = []) (hw : (s.coreAt r).hw = []) (ring : (s.coreAt r).ringN = 0) :
    startNext s r = s := by
  simp only [startNext, resumes, popYoung_of_empty hw ring]
  split <;> rfl

/-- A core that may start a record holds no task, and neither halts nor belongs to others (08_tasks.md R244). -/
theorem free_of_mayStart (h : mayStart s r = true) : (s.coreAt r).task = none ∧ (s.coreAt r).halt = none ∧
    (s.coreAt r).reserved = false ∧ (s.coreAt r).swap = false ∧ (s.coreAt r).group = .single := by
  simp only [mayStart, Bool.and_eq_true, Option.isNone_iff_eq_none, Bool.not_eq_true', beq_iff_eq] at h
  obtain ⟨⟨⟨⟨⟨⟨⟨task, halt⟩, reserved⟩, swap⟩, -⟩, group⟩, -⟩, -⟩ := h
  exact ⟨task, halt, reserved, swap, group⟩

/-- A core that may start, with no resume pending, starts the record at the young end of its deque (08_tasks.md R244, R256). -/
theorem startNext_of_record {l : List Record} {x : Record} (free : mayStart s r = true) (resumes : (s.coreAt r).resumes = [])
    (hw : (s.coreAt r).hw = l ++ [x]) (push : (s.coreAt r).push = []) (waitq : (s.coreAt r).waitq = []) (plain : x.resume = false) :
    startNext s r = startRecord (s.modCore r fun c => { c with hw := c.hw.dropLast }) r x := by
  obtain ⟨task, halt, reserved, swap, group⟩ := free_of_mayStart free
  simp only [startNext, task, halt, reserved, swap, group, Option.isSome_none, Bool.false_eq_true, ne_eq, not_true, or_self, if_false,
    resumes, popYoung_of_hw hw push waitq, plain]

/-- A whole record of context 0 of a bound partition (08_tasks.md R244). -/
theorem startRecord_of_plain {x : Record} {p : Part} (hp : s.part? (s.coreAt r).pid = some p) (good : x.bad = false)
    (ctx : x.ctx = 0#16) : startRecord s r x = s.setCore r ((s.coreAt r).startWith x p.code) := by
  simp only [startRecord, hp, good, Bool.false_eq_true, if_false, ctx, if_true]

end

end Sys2Proof.Machine
end

section
/-! PROOF. Task words (08_tasks.md R253 to R255, R259): records that a word names, the release before they leave, and obligation
O20. -/

namespace Sys2Proof.Machine

/-! Operands. -/

/-- The record that a word names passes its check (08_tasks.md R243). -/
theorem RecordAt.image {s t : State} {a : GIdx} {x : Record} (h : RecordAt s a x t) : recordImage s a = .ok (x, t) := by
  obtain ⟨u, k, checked, rfl, clean, rfl, ok⟩ := h
  simp only [recordImage, checked, Res.bind, clean, Bool.false_eq_true, if_false, ok, if_true]

/-- A core of this package whose rank is the partition's and not in transit may be reached (05_memory.md R155). -/
theorem destination_of_rankFree {s : State} {r : Nat} {pkg : BitVec 18} (here : pkg = s.me.ctl.pkg) (free : RankFree s r)
    (x : Word64) : destination s pkg r x = .ok () := by
  obtain ⟨valid, pid, stays⟩ := free
  simp [destination, here, rankCheck, valid, pid, stays]

/-- The bits of a destination word that must be zero (08_tasks.md R253, R259). -/
theorem field_high_of_div {d : Word64} (h : d.toNat / 2 ^ 46 = 0) : field d 46 18 = 0 := by
  rw [field, h, Nat.zero_mod]

/-! SPAWN. -/

section
variable {u : State} {x : Record}

theorem pushHere_of_room (room : u.me.hw.length < 32) (first : u.me.push = []) (hp : x.pin = false) (hm : x.msg = false)
    (hr : x.resume = false) : pushHere u x = u.modMe fun c => (c.pushed [x]).next := by
  simp only [pushHere, dequeFull_of_room room, first, Bool.false_eq_true, ne_eq, not_true, or_self, if_false,
    pushYoung_of_room (s := u) (r := u.rank) room, pushedTo_of_plain hp hm hr]
  exact State.modMe_modMe u (fun c => c.pushed [x]) Core.next

theorem pushHere_of_wait (h : dequeFull u.me = true ∨ u.me.push ≠ []) : pushHere u x = waitAt u u.rank 0 (.push [x] false) none :=
  if_pos h
end

section
variable {s t w : State} {a b : GIdx} {x : Record} {r o : Nat}

theorem exec_spawn_of_recordAt (h : RecordAt s a x t) (ready : releaseReady t .pkg = true) :
    exec (.spawn a) s = .next (pushHere (perform t .pkg) x) := by
  change execSpawn a s = _
  simp only [execSpawn, h.image, Res.bind, afterRelease_of_ready ready, settle]

/-- SPAWNR to another core of the partition (08_tasks.md R253). -/
theorem exec_spawnr_of_rankFree (h : RecordAt s a x t) (ready : releaseReady t .pkg = true)
    (low : (s.me.rg b).word.toNat % 2 ^ 16 = 0) (high : (s.me.rg b).word.toNat / 2 ^ 46 = 0)
    (pkg : (s.me.rg b).word.extractLsb' 28 18 = s.me.ctl.pkg) (same : t.me = s.me) (ctl : (perform t .pkg).me.ctl = s.me.ctl)
    (other : (s.me.rg b).word.toNat / 2 ^ 16 % 4096 ≠ s.rank) (leaves : Record.mayLeave x = true)
    (free : RankFree t ((s.me.rg b).word.toNat / 2 ^ 16 % 4096)) (eager : (perform t .pkg).lazy = false) :
    exec (.spawnr a b) s = .next ((remotePush (perform t .pkg) (perform t .pkg).rank ((s.me.rg b).word.toNat / 2 ^ 16 % 4096)
      x).modMe Core.next) := by
  change execSpawnr a b s = _
  have dst : field (s.me.rg b).word 16 12 = (s.me.rg b).word.toNat / 2 ^ 16 % 4096 := rfl
  have low : field (s.me.rg b).word 0 16 = 0 := by simpa [field] using low
  have away : (s.me.ctl.pkg == s.me.ctl.pkg && (s.me.rg b).word.toNat / 2 ^ 16 % 4096 == s.rank) = false := by simpa using other
  simp only [execSpawnr, h.image, Res.bind, dst, pkg, away, field_high_of_div high, low, leaves,
    destination_of_rankFree (congrArg (·.ctl.pkg) same.symm) free, afterRelease_of_ready ready, ctl, eager, settle, ne_eq,
    not_true, or_self, if_false, Bool.true_eq_false, and_false, Bool.false_eq_true]

/-! Codelets. -/

section
variable (h : LocalAt s (s.me.rg a) (s.me.rg a).word 64 (permStore ||| permAtomic) 64 r o w)
include h

theorem exec_codlt_of_localAt (image : RecordAt w b x t)
    (leaves : s.isOwn (s.me.rg a).word = true ∨ Record.mayLeave x = true) (ready : releaseReady t .pkg = true)
    (eager : (perform t .pkg).lazy = false) :
    exec (.codlt a b) s = .next ((applyCodlt (perform t .pkg) r o x).modMe Core.next) := by
  change execCodlt a b s = _
  have may : ¬(s.isOwn (s.me.rg a).word = false ∧ Record.mayLeave x = false) :=
    fun ⟨far, stays⟩ => leaves.elim (by simp [far]) (by simp [stays])
  simp only [execCodlt, slotOperand, h.operand, Res.bind, image.image, if_neg may, afterRelease_of_ready ready, eager,
    Bool.false_eq_true, false_and, if_false, settle]

theorem exec_cdec_of_localAt (ready : releaseReady w .pkg = true) :
    exec (.cdec a b) s = .next ((sendCdec (perform w .pkg) (perform w .pkg).rank (s.me.rg a).word
      ((s.me.rg b).word.setWidth 32)).modMe Core.next) := by
  change execCdec a b s = _
  simp only [execCdec, slotOperand, h.operand, Res.bind, afterRelease_of_ready ready, settle]
end
end

/-! AMSG. -/

/-- The message that AMSG sends, field by field (08_tasks.md R259). -/
theorem amsgOf_eq (s : State) (n : Nat) (a b : GIdx) : amsgOf s n a b =
    { entry := (s.me.rg a).word, ctx := BitVec.ofNat 16 (s.me.rg b).word.toNat
      dst := BitVec.ofNat 12 ((s.me.rg b).word.toNat / 2 ^ 16 % 4096), src := BitVec.ofNat 12 s.rank
      seq := BitVec.ofNat 32 (field s.me.ctl.amsgst 64 32), pkg := s.me.ctl.pkg, pid := BitVec.ofNat 10 s.me.pid
      args := (List.range n).map fun i => s.me.rg (a + BitVec.ofNat 6 (i + 1)) } := by
  have ctx : (s.me.rg b).word.setWidth 16 = BitVec.ofNat 16 (s.me.rg b).word.toNat := by bv_omega
  have dst : (s.me.rg b).word.extractLsb' 16 12 = BitVec.ofNat 12 ((s.me.rg b).word.toNat / 2 ^ 16 % 4096) := by
    apply BitVec.eq_of_toNat_eq
    simp [BitVec.extractLsb'_toNat, Nat.shiftRight_eq_div_pow]
  rw [amsgOf, ctx, dst]
  rfl

/-- A core after AMSG has taken a sequence number (08_tasks.md R259). -/
def Core.numbered (c : Core) (d : GIdx) (seq : BitVec 32) : Core :=
  ((c.modCtl fun k => { k with amsgst := setField k.amsgst 64 32 (seq.toNat + 1) }).wg d (GVal.ofNat seq.toNat)).next

/-- AMSG to a core of this package, at which the message arrives at once (08_tasks.md R259). -/
theorem exec_amsg_of_rankFree {s : State} {n : BitVec 3} {d a b : GIdx}
    (cap : capCheck s.me.codecap (s.me.rg a).word 4 permExecute = none)
    (high : (s.me.rg b).word.toNat / 2 ^ 46 = 0) (pkg : (s.me.rg b).word.extractLsb' 28 18 = s.me.ctl.pkg)
    (ctl : (perform s .sys).me.ctl.pkg = s.me.ctl.pkg)
    (leaves : (amsgOf s n.toNat a b).dst.toNat = s.rank ∨ (amsgOf s n.toNat a b).args.any GVal.stays = false)
    (free : RankFree s (amsgOf s n.toNat a b).dst.toNat) (ready : releaseReady s .sys = true)
    (eager : (perform s .sys).lazy = false) :
    exec (.amsg n d a b) s = .next
      (arriveMsg ((perform s .sys).modMe fun c => c.numbered d (amsgOf s n.toNat a b).seq) (amsgOf s n.toNat a b)) := by
  change execAmsg n d a b s = _
  have entry : (amsgOf s n.toNat a b).entry = (s.me.rg a).word := rfl
  have may : ¬((s.me.ctl.pkg == s.me.ctl.pkg && (amsgOf s n.toNat a b).dst.toNat == s.rank) = false ∧
      (amsgOf s n.toNat a b).args.any GVal.stays = true) :=
    fun ⟨far, stays⟩ => leaves.elim (fun own => by simp [own] at far) (by simp [stays])
  simp only [execAmsg, entry, cap, field_high_of_div high, pkg, if_neg may, destination_of_rankFree rfl free, Res.bind,
    afterRelease_of_ready ready, ctl, State.modMe_lazy, eager, settle, ne_eq, not_true, if_false, Bool.false_eq_true]
  rfl

/-- Settles O20: each word is the operation at its target, in the state that its release leaves. -/
theorem spawnAndMessageResults : Obligations.SpawnAndMessageResults := by
  unfold Obligations.SpawnAndMessageResults
  refine ⟨fun s t w a b x r o => ⟨fun h ready => ⟨fun _ first room hp hm hr => ?_, fun wait => ?_,
    fun low high pkg same ctl other leaves free eager => exec_spawnr_of_rankFree h ready low high pkg same ctl other leaves free eager⟩,
    fun h => ⟨fun image leaves ready eager => exec_codlt_of_localAt h image leaves ready eager, exec_cdec_of_localAt h⟩⟩, ?_⟩
  · rw [exec_spawn_of_recordAt h ready, pushHere_of_room room first hp hm hr]
    rfl
  · rw [exec_spawn_of_recordAt h ready, pushHere_of_wait wait]
  · intro s n d a b w dst seq m u v cap high pkg ctl leaves free ready eager
    have sent : amsgOf s n.toNat a b = m := amsgOf_eq s n.toNat a b
    have target : m.dst.toNat = dst := by
      rw [BitVec.toNat_ofNat]
      exact Nat.mod_eq_of_lt (Nat.mod_lt _ (by decide))
    have number : v = u.modMe fun c => c.numbered d seq := by
      simp only [v, Core.numbered, GVal.ofNat_toNat]
    rw [exec_amsg_of_rankFree cap high pkg ctl (by rwa [sent, target]) (by rwa [sent, target]) ready eager, sent, number]

end Sys2Proof.Machine
end

section
/-! PROOF. How a task ends and starts: YIELD, EXIT and TASK_START (08_tasks.md R244, R256, R257), and obligations O21 and O22. -/

namespace Sys2Proof.Machine

/-! YIELD. -/

theorem exec_yield_of_no_other_work {s : State} (gang : gangDue s s.me = false) (single : s.me.composed = false)
    (slice : s.me.slice = false) (parks : yieldParks s = false) : exec .yield s = .next (s.setMe s.me.next) := by
  change execYield s = _
  simp only [execYield, gang, single, slice, parks, settle, Bool.false_eq_true, if_false, false_and, Bool.and_false, or_self]
  rfl

/-! What an EXIT waits for. -/

/-- A change that leaves a core as it is. -/
theorem State.modCore_of_eq {s : State} {r : Nat} {f : Core → Core} (h : f (s.coreAt r) = s.coreAt r) :
    s.modCore r f = s.setCore r (s.coreAt r) := congrArg (s.setCore r) h

theorem Core.landLatches_of_nil {c : Core} (h : c.latches = []) : c.landLatches = c := by
  cases c
  subst h
  rfl

section
variable {s : State} (loads : s.me.loads = []) (stores : s.me.stores = []) (net : s.net = [])
include loads stores net

/-- A core with no access on its way performs none. -/
theorem perform_of_settled (scope : Scope) : perform s scope = s.setMe s.me := by
  have landed : landLoads s s.rank = s.setMe s.me := by
    simp only [landLoads, returnWhere, show (s.coreAt s.rank).loads = [] from loads, pick, List.foldl_nil]
    exact State.modCore_of_eq (by rw [← loads]; rfl)
  have drained : drainS s s.rank = s.setMe s.me := by
    have me : (s.setMe s.me).coreAt s.rank = s.me := State.me_setMe s s.me
    simp only [drainS, landed, drainStores, me, stores, List.foldl_nil]
    rw [State.modCore_of_eq (by rw [me, ← stores]), me]
    exact State.setMe_setMe ..
  have flushed : flushFrom (s.setMe s.me) s.rank = s.setMe s.me := by
    simp only [flushFrom, flushNet, State.setMe_net, net, List.filter_nil, List.foldl_nil]
    rw [← net]
    rfl
  simp only [perform, drained, flushed, ite_self]

omit stores in
theorem releaseReady_of_settled (quiet : s.me.quiet = true) (resend : s.me.resend = []) (scope : Scope) :
    releaseReady s scope = true := by
  have resend : (s.coreAt s.rank).resend = [] := resend
  have loads : (s.coreAt s.rank).loads = [] := loads
  simp [releaseReady, quiet, State.released, State.pushesDone, State.landed, net, resend, loads]
end

section
variable {s : State} {r : Nat} (single : (s.coreAt r).group = .single)
include single

theorem endComposed_of_single (why : Nat) : endComposed s r why = s := by simp only [endComposed, single]

theorem endGang_of_single (why fidx fcause fseq : Nat) : endGang s r why fidx fcause fseq = s := by
  simp only [endGang, single]

theorem gangMaxx_of_single (maxx : (s.coreAt r).maxx = none) (blocked : (s.coreAt r).blocked = none) : s.gangMaxx r = false := by
  simp [State.gangMaxx, State.gangOf, single, maxx, Core.atHub, blocked]
end

/-- A task without join slots has no membership to withdraw (07_sync.md R231). -/
theorem withdrawAll_of_no_slots {s : State} {r : Nat} (h : (s.coreAt r).ctl.barslot = Vector.replicate 4 0#128) :
    withdrawAll s r = s := by
  have invalid (i : BitVec 2) : ((s.coreAt r).rslot i).getLsbD 127 = false := by simp [Core.rslot, h]
  rw [withdrawAll, withdrawSlot_of_invalid (invalid 0#2), withdrawSlot_of_invalid (invalid 1#2), withdrawSlot_of_invalid (invalid 2#2),
    withdrawSlot_of_invalid (invalid 3#2)]

/-! EXIT. -/

/-- A core without its task's walkers, queues and waits. -/
def Core.emptied (c : Core) : Core :=
  { c with task := none, blocked := none, hold := none, stalls := [], dfault := none, passing := false, vwait := none, killed := false
           dq := [], latches := [], outcomes := [], capV := [], capM := [], capD := [], nestS := none, nestV := none, nestM := none
           nestD := none }

/-- MONCTL after its monitor is lost (07_sync.md R234). -/
def Ctl.unwatched (k : Ctl) : Ctl := { k with monctl := setField k.monctl 62 2 0 }

theorem Core.leave_eq (c : Core) : c.leave = (c.loseMonitor Ctl.unwatched).emptied := rfl

/-- What a task that leaves its core does not take along, whatever becomes of the control registers. -/
theorem Core.emptied_loseMonitor (c : Core) (f : Ctl → Ctl) :
    let e : Core := (c.loseMonitor f).emptied
    e.task = none ∧ e.g = c.g ∧ e.v = c.v ∧ e.p = c.p ∧ e.tile = c.tile ∧ e.acc = c.acc ∧ e.ctl = f c.ctl ∧
      e.resumes = c.resumes ∧ e.hw = c.hw ∧ e.ringN = c.ringN := ⟨rfl, rfl, rfl, rfl, rfl, rfl, rfl, rfl, rfl, rfl⟩

/-- A task that owes nothing leaves its core, which has no other to start (08_tasks.md R256). -/
theorem finishTask_of_owing_nothing {s : State} {r : Nat} {x : Record} (slots : (s.coreAt r).ctl.barslot = Vector.replicate 4 0#128)
    (task : (s.coreAt r).task = some x) (msg : x.msg = false) (done : x.done = 0#64) (resumes : (s.coreAt r).resumes = [])
    (hw : (s.coreAt r).hw = []) (ring : (s.coreAt r).ringN = 0) : finishTask s r = s.modCore r Core.leave := by
  have left : (s.modCore r Core.leave).coreAt r = (s.coreAt r).leave := by simp only [State.coreAt_modCore, if_true]
  simp only [finishTask, withdrawAll_of_no_slots slots, task, msg, done, Bool.false_eq_true, if_false, if_true]
  obtain ⟨-, -, -, -, -, -, -, eresumes, ehw, ering⟩ := Core.emptied_loseMonitor (s.coreAt r) Ctl.unwatched
  rw [← Core.leave_eq, ← left] at eresumes ehw ering
  exact startNext_of_nothing (eresumes.trans resumes) (ehw.trans hw) (ering.trans ring)

/-- EXIT at task level, of a core in no group whose accesses are all performed (08_tasks.md R256). -/
theorem exec_exit_of_settled {s : State} {x : Record} (depth : s.me.depth = 0) (ready : releaseReady s .sys = true)
    (settled : perform s .sys = s.setMe s.me) (latches : s.me.latches = []) (single : s.me.group = .single) (maxx : s.me.maxx = none)
    (blocked : s.me.blocked = none) (task : s.me.task = some x) (done : x.done = 0#64) :
    exec .exit s = .next (finishTask (s.setMe s.me) s.rank) := by
  have me : (s.setMe s.me).coreAt s.rank = s.me := State.me_setMe s s.me
  have alone : s.gangMaxx s.rank = false := gangMaxx_of_single single maxx blocked
  have leads : s.me.isMember = false := by rw [Core.isMember, single]
  have owes : exitDest s = .ok () := by simp only [exitDest, task, Option.map_some, Option.getD_some, done, if_true]
  have landed : (perform s .sys).modMe Core.landLatches = s.setMe s.me := by
    rw [settled, State.modMe, State.me_setMe, State.setMe_setMe, Core.landLatches_of_nil latches]
  have composed : endComposed (s.setMe s.me) s.rank 6 = s.setMe s.me := endComposed_of_single (by rwa [me]) 6
  have gang : endGang (s.setMe s.me) s.rank 6 0 0 0 = s.setMe s.me := endGang_of_single (by rwa [me]) 6 0 0 0
  change execExit s = _
  simp only [execExit, depth, ready, alone, leads, owes, Res.bind, landed, composed, gang, settle, Bool.true_eq_false,
    Bool.false_eq_true, or_self, if_false, OfNat.zero_ne_ofNat, zero_ne_one]

/-- Settles O21: YIELD with nothing else to run is a step of the walker, and a core that owes nothing ends its EXIT as its task
leaves it. -/
theorem taskEndResults : Obligations.TaskEndResults := by
  unfold Obligations.TaskEndResults
  refine fun s => ⟨exec_yield_of_no_other_work, fun x depth quiet single maxx blocked task msg done slots hw ring _ _ resend resumes
    stores loads net latches => ?_⟩
  have me : (s.setMe s.me).coreAt s.rank = s.me := State.me_setMe s s.me
  have ends : finishTask (s.setMe s.me) s.rank = s.setMe s.me.leave := by
    rw [finishTask_of_owing_nothing (by rwa [me]) (by rwa [me]) msg done (by rwa [me]) (by rwa [me]) (by rwa [me]), State.modCore, me]
    exact State.setMe_setMe ..
  have word := exec_exit_of_settled depth (releaseReady_of_settled loads net quiet resend .sys)
    (perform_of_settled loads stores net .sys) latches single maxx blocked task done
  rw [ends] at word
  obtain ⟨etask, eg, ev, ep, etile, eacc, ectl, -, -, -⟩ := Core.emptied_loseMonitor s.me Ctl.unwatched
  rw [← Core.leave_eq] at etask eg ev ep etile eacc ectl
  refine ⟨_, word, ?_⟩
  rw [State.me_setMe]
  exact ⟨etask, fun j => by simp only [Core.rg, eg], ev, ep, etile, eacc, by rw [ectl, Ctl.unwatched], by rw [ectl, Ctl.unwatched],
    fun a => rfl⟩

/-! TASK_START. -/

/-- The core that a record starts on, before the record gives it its arguments (08_tasks.md R244). -/
def Core.fresh (c : Core) (x : Record) (code : GVal) : Core :=
  (({ c.clearTask with codecap := code.withWord x.entry, task := some x } : Core).alignWalkers x.entry).modCtl fun k =>
    { k with tstate := BitVec.ofNat 32 x.root.toNat }

section
variable (c : Core) (x : Record) (code : GVal)

theorem Core.startWith_eq : c.startWith x code = ((((c.fresh x code).wg 1#6 x.argA).wg 2#6 x.argB).wg 3#6 (GVal.ofWord x.wid)).wg 4#6
    (GVal.ofNat x.ctx.toNat) := rfl

@[simp] theorem Core.fresh_g : (c.fresh x code).g = Vector.replicate 64 GVal.zero := rfl
@[simp] theorem Core.fresh_codecap : (c.fresh x code).codecap = code.withWord x.entry := rfl
@[simp] theorem Core.fresh_hw : (c.fresh x code).hw = c.hw := rfl
@[simp] theorem Core.fresh_task : (c.fresh x code).task = some x := rfl
@[simp] theorem Core.fresh_slipw : (c.fresh x code).ctl.slipw = 512#32 := rfl
@[simp] theorem Core.fresh_arflg : (c.fresh x code).ctl.arflg = 0#32 := rfl
@[simp] theorem Core.fresh_spdist : (c.fresh x code).ctl.spdist = setField c.ctl.spdist 16 16 0 := rfl

@[simp] theorem Core.fresh_rg (j : GIdx) : (c.fresh x code).rg j = GVal.zero := by
  simp only [Core.rg, Core.fresh_g, Vector.getElem_replicate, ite_self]

/-- The general file of a core that starts a record (08_tasks.md R244). -/
theorem Core.startWith_rg (j : GIdx) : (c.startWith x code).rg j =
    if j = 0#6 then GVal.zero else if j = 4#6 then GVal.ofNat x.ctx.toNat else if j = 3#6 then GVal.ofWord x.wid
    else if j = 2#6 then x.argB else if j = 1#6 then x.argA else GVal.zero := by
  simp only [Core.startWith_eq, Core.rg_wg, Core.fresh_rg]
  split
  · rfl
  · rfl

theorem Core.startWith_pc : (c.startWith x code).pc = x.entry := by
  rw [Core.startWith_eq, Core.wg_pc, Core.wg_pc, Core.wg_pc, Core.wg_pc, Core.pc, Core.fresh_codecap, GVal.word_withWord]

theorem Core.startWith_ctl : (c.startWith x code).ctl = (c.fresh x code).ctl := by simp only [Core.startWith_eq, Core.wg_ctl]
theorem Core.startWith_hw : (c.startWith x code).hw = c.hw := by simp only [Core.startWith_eq, Core.wg_hw, Core.fresh_hw]
theorem Core.startWith_task : (c.startWith x code).task = some x := by simp only [Core.startWith_eq, Core.wg_task, Core.fresh_task]
end

/-- Settles O22: the record is popped from the young end and started, and each register reads what a start gives it. -/
theorem taskStartEffect : Obligations.TaskStartEffect := by
  unfold Obligations.TaskStartEffect
  intro s l x p free resumes hw push waitq plain hp good ctx
  let c : Core := { s.me with hw := s.me.hw.dropLast }
  have word : exec .taskStart s = .next ((s.setMe c).setMe (c.startWith x p.code)) := by
    have popped : (s.setMe c).coreAt s.rank = c := State.me_setMe s c
    refine congrArg Host.Outcome.next ((if_pos free).trans ?_)
    rw [startNext_of_record free resumes hw push waitq plain]
    exact (startRecord_of_plain (s := s.setMe c) (by rw [popped]; exact hp) good ctx).trans (by rw [popped]; rfl)
  have high (j : GIdx) (h : 4 < j.toNat) : (c.startWith x p.code).rg j = GVal.zero := by
    have other (i : GIdx) (hi : i.toNat ≤ 4) : j ≠ i := fun e => by rw [e] at h; omega
    simp only [Core.startWith_rg, other 4#6 (by decide), other 3#6 (by decide), other 2#6 (by decide), other 1#6 (by decide),
      if_false, ite_self]
  refine ⟨_, word, ?_⟩
  rw [State.me_setMe]
  refine ⟨?_, ?_, ?_, ?_, high, c.startWith_pc x _, ?_, c.startWith_task x _, ?_, ?_, ?_, fun a => rfl⟩
  · simp [Core.startWith_rg]
  · simp [Core.startWith_rg]
  · simp [Core.startWith_rg, GVal.ofWord]
  · simp [Core.startWith_rg, ctx, GVal.ofNat]
  · rw [Core.startWith_hw]
    exact (congrArg List.dropLast hw).trans List.dropLast_concat
  · rw [Core.startWith_ctl, Core.fresh_slipw]
    rfl
  · rw [Core.startWith_ctl, Core.fresh_arflg]
  · rw [Core.startWith_ctl, Core.fresh_spdist, field_setField _ _ (by omega)]
    rfl

end Sys2Proof.Machine
end

section
/-! PROOF. Steals and what arrives at a core's deque (08_tasks.md R247, R249, R250, R254, R255, R260, R261), and obligations O23 and
O24. -/

namespace Sys2Proof.Machine

/-! What a probe takes. -/

theorem takeStealable_zero (l : List Record) : takeStealable 0 l = ([], l) := by
  cases l <;> rfl

/-- A pinned record stays before whatever stays of the rest. -/
theorem takeStealable_of_pin (n : Nat) {x : Record} (h : x.pin = true) (l : List Record) :
    takeStealable n (x :: l) = ((takeStealable n l).1, x :: (takeStealable n l).2) := by
  cases n with
  | zero => simp only [takeStealable_zero]
  | succ n => simp only [takeStealable, h, if_true]

theorem takeStealable_of_free (n : Nat) {x : Record} (h : x.pin = false) (l : List Record) :
    takeStealable (n + 1) (x :: l) = (x :: (takeStealable n l).1, (takeStealable n l).2) := by
  simp only [takeStealable, h, Bool.false_eq_true, if_false]

/-- The records that a probe takes and those that stay, by the list (08_tasks.md R250). -/
theorem takeStealable_parts (n : Nat) (l : List Record) :
    (takeStealable n l).1 = (l.filter fun x => !x.pin).take n ∧
      (takeStealable n l).2.filter (fun x => x.pin) = l.filter (fun x => x.pin) ∧
      (takeStealable n l).2.filter (fun x => !x.pin) = (l.filter fun x => !x.pin).drop n ∧ (takeStealable n l).2.Sublist l := by
  induction l generalizing n with
  | nil => simp [takeStealable]
  | cons x l ih =>
    cases pin : x.pin with
    | true =>
      obtain ⟨taken, pinned, rest, order⟩ := ih n
      simp [takeStealable_of_pin n pin, pin, taken, pinned, rest, order]
    | false =>
      cases n with
      | zero => simp [takeStealable_zero]
      | succ n =>
        obtain ⟨taken, pinned, rest, order⟩ := ih n
        simp [takeStealable_of_free n pin, pin, taken, pinned, rest, order.cons x]

theorem stealCount_eq (n : Nat) : stealCount n = if 32 ≤ n then 16 else (n + 1) / 2 := by
  rw [stealCount]
  split <;> omega

/-- Settles O23, by induction on the list: each record stays or goes by its PIN. -/
theorem stealTakesOldest : Obligations.StealTakesOldest := by
  unfold Obligations.StealTakesOldest
  intro n l p
  obtain ⟨taken, pinned, rest, order⟩ := takeStealable_parts n l
  exact ⟨taken, pinned, rest, order, stealCount_eq n⟩

/-! Probes. -/

section
variable {s : State}

/-- The state in which a core's probe has set out to a victim (08_tasks.md R249). -/
def State.probeSent (s : State) (victim : Nat) : State :=
  (s.modMe fun c => c.probed (probeFits s s.rank victim).2).sendNet s.rank victim (.stealServe s.rank)

theorem State.probeSent_net (s : State) (victim : Nat) :
    (s.probeSent victim).net = s.net ++ [{ src := s.rank, dst := victim, ev := .stealServe s.rank, pid := s.me.pid }] := by
  have pid : ((s.modMe fun c => c.probed (probeFits s s.rank victim).2).coreAt s.rank).pid = s.me.pid :=
    (congrArg Core.pid (State.me_modMe s fun c => c.probed (probeFits s s.rank victim).2)).trans rfl
  simp only [State.probeSent, State.sendNet, pid, State.modMe_net]

theorem State.probeSent_probing (s : State) (victim : Nat) : (s.probeSent victim).me.probing = true :=
  congrArg Core.probing (State.me_modMe s fun c => c.probed (probeFits s s.rank victim).2)

/-- An idle core's probe sets out where messages queue (08_tasks.md R249). -/
theorem exec_stealProbe_of_lazy {victim : Nat} (idle : s.me.idle = true) (free : mayStart s s.rank = true)
    (waits : s.me.probing = false) (fits : (probeFits s s.rank victim).1 = true) (queues : s.lazy = true) :
    exec (.stealProbe victim) s = .next (s.probeSent victim) := by
  change execStealProbe victim s = _
  simp only [execStealProbe, idle, free, waits, fits, State.modMe_lazy, queues, Bool.not_false, Bool.and_self, if_true,
    State.probeSent]

theorem exec_stealServe_of_peer {thief : Nat} (asked : (s.coreAt thief).probing = true) (runs : s.me.halt = none)
    (stays : s.inTransit s.rank = false) (pid : s.me.pid = (s.coreAt thief).pid) :
    exec (.stealServe thief) s =
      .next ((stealFrom s s.rank).2.sendNet s.rank thief (.stealRecordsArrive (stealFrom s s.rank).1)) := by
  have served : serveProbe s thief s.rank = stealFrom s s.rank := by
    have runs : (s.coreAt s.rank).halt = none := runs
    have pid : (s.coreAt s.rank).pid = (s.coreAt thief).pid := pid
    simp [serveProbe, runs, stays, pid]
  change execStealServe thief s = _
  simp only [execStealServe, asked, if_true, served]

/-- Plain records that fit into the hardware are pushed in their order (08_tasks.md R250). -/
theorem pushAll_of_room {r : Nat} (l : List Record) (f : Core → Core) (first : (f (s.coreAt r)).push = [])
    (room : (f (s.coreAt r)).hw.length + l.length ≤ 32) (plain : ∀ x ∈ l, x.pin = false ∧ x.msg = false ∧ x.resume = false) :
    pushAll (s.modCore r f) r l = s.modCore r fun c => (f c).pushed l := by
  induction l generalizing f with
  | nil => simp only [pushAll, Core.pushed_nil]
  | cons x l ih =>
    obtain ⟨hp, hm, hr⟩ := plain x (by simp)
    have core : (s.modCore r f).coreAt r = f (s.coreAt r) := by simp only [State.coreAt_modCore, if_true]
    have fits : ((f (s.coreAt r)).pushed [x]).hw.length + l.length ≤ 32 := by
      simp only [Core.pushed, List.length_append, List.length_cons, List.length_nil] at room ⊢
      omega
    rw [List.length_cons] at room
    rw [pushAll, remotePush_of_room hp hm hr r (by rw [core]; omega) (by rw [core]; exact first), State.modCore_modCore,
      ih (fun c => (f c).pushed [x]) first fits fun y hy => plain y (by simp [hy])]
    simp only [Core.pushed_pushed, List.singleton_append]

/-- Records reach a thief with room for them, which then starts its next record if it may (08_tasks.md R250). -/
theorem exec_stealRecordsArrive_of_room {l : List Record} (asked : s.me.probing = true) (first : s.me.push = [])
    (room : s.me.hw.length + l.length ≤ 32) (plain : ∀ x ∈ l, x.pin = false ∧ x.msg = false ∧ x.resume = false) :
    let u : State := s.setMe { s.me with probing := false, hw := s.me.hw ++ l }
    exec (.stealRecordsArrive l) s = .next (if mayStart s s.rank then startNext u s.rank else u) := by
  intro u
  have pushed : pushAll (s.modCore s.rank fun c => { c with probing := false }) s.rank l = u :=
    pushAll_of_room l (fun c => { c with probing := false }) first room plain
  have may : mayStart u s.rank = mayStart s s.rank := by
    have me : u.coreAt s.rank = { s.me with probing := false, hw := s.me.hw ++ l } := State.me_setMe s _
    simp only [mayStart, me]
    rfl
  refine congrArg Host.Outcome.next ((if_pos asked).trans ?_)
  rw [stolen, pushed, may]

end

/-! Arrivals. -/

section
variable {s : State} (stays : s.inTransit s.rank = false)
include stays

/-- What reaches a core whose rank is not in transit is taken (05_memory.md R155). -/
theorem onArrival_of_stays (src : Nat) (ev : Instr) (t : State) : onArrival s src ev t = .next t :=
  congrArg Host.Outcome.next (if_neg (Bool.eq_false_iff.1 stays))

theorem exec_remotePushArrive_of_stays (src : Nat) {x : Record} (plain : x.resume = false) :
    exec (.remotePushArrive src x) s = .next (remotePush s src s.rank x) := by
  refine (onArrival_of_stays stays src _ _).trans ?_
  rw [plain]
  rfl

theorem exec_codltApply_of_stays (off : BitVec 19) (x : Record) :
    exec (.codltApply off x) s = .next (applyCodlt s s.rank off.toNat x) := onArrival_of_stays stays _ _ _

theorem exec_cdecApply_of_stays (off : BitVec 19) (n : BitVec 32) :
    exec (.cdecApply off n) s = .next (applyCdec s s.rank off.toNat n) := onArrival_of_stays stays _ _ _
end

/-! Slots. -/

section
variable {s : State} {r off : Nat}

theorem applyCodlt_of_count {x : Record} (h : x.count ≠ 0#32) :
    applyCodlt s r off x = putRecord s (localKey r off) { x with flags := x.flags ||| 0x0008#16 } := if_neg h

theorem applyCodlt_of_zero {x : Record} (h : x.count = 0#32) : applyCodlt s r off x =
    ownerPush (putRecord s (localKey r off) { x with flags := x.flags &&& 0xFFF7#16 }) r { x with flags := x.flags &&& 0xFFF7#16 } :=
  if_pos h

/-- A decrement below COUNT of an armed slot stores the difference and nothing else (08_tasks.md R255). -/
theorem applyCdec_mem_of_armed {n : BitVec 32} (armed : (recordAt s (localKey r off)).armed = true)
    (below : n.toNat < (recordAt s (localKey r off)).count.toNat) : (applyCdec s r off n).mem =
      s.mem.write (localKey r off + 60) (leBytes 4 ((recordAt s (localKey r off)).count.toNat - n.toNat)) := by
  simp only [applyCdec, armed, Bool.true_eq_false, if_false, below, if_true]
  split <;> rfl

theorem applyCdec_of_unarmed {n : BitVec 32} (h : (recordAt s (localKey r off)).armed = false) :
    applyCdec s r off n = cdecError s r := if_pos h
end

/-- What a core counts for a decrement of a slot that is not armed (08_tasks.md R255). -/
theorem cdecError_counts (s : State) : field (cdecError s s.rank).me.ctl.cdecerr 16 16 =
    min 65535 (field s.me.ctl.cdecerr 16 16 + 1) := by
  have me : (cdecError s s.rank).me.ctl.cdecerr =
      setField s.me.ctl.cdecerr 16 16 (min 65535 (field s.me.ctl.cdecerr 16 16 + 1)) :=
    congrArg (fun c : Core => c.ctl.cdecerr) (State.me_setMe ..)
  rw [me, field_setField _ _ (by omega)]
  exact Nat.mod_eq_of_lt (by omega)

/-! Messages. -/

/-- AMSGST after a refusal (08_tasks.md R261). -/
def refusedStat (x : BitVec 128) (seq : BitVec 32) (why : BitVec 4) : BitVec 128 :=
  setField (setField (setField x 96 32 seq.toNat) 48 16 (min 65535 (field x 48 16 + 1))) 0 4 why.toNat

theorem field_refusedStat (x : BitVec 128) (seq : BitVec 32) (why : BitVec 4) :
    field (refusedStat x seq why) 96 32 = seq.toNat ∧ field (refusedStat x seq why) 48 16 = min 65535 (field x 48 16 + 1) ∧
      field (refusedStat x seq why) 0 4 = why.toNat ∧ field (refusedStat x seq why) 64 32 = field x 64 32 := by
  refine ⟨?_, ?_, ?_, ?_⟩
  · rw [refusedStat, field_setField_above _ _ _ (by omega) (by omega), field_setField_above _ _ _ (by omega) (by omega),
      field_setField _ _ (by omega), Nat.mod_eq_of_lt seq.isLt]
  · rw [refusedStat, field_setField_above _ _ _ (by omega) (by omega), field_setField _ _ (by omega)]
    exact Nat.mod_eq_of_lt (by omega)
  · rw [refusedStat, field_setField _ _ (by omega), Nat.mod_eq_of_lt why.isLt]
  · rw [refusedStat, field_setField_above _ _ _ (by omega) (by omega), field_setField_above _ _ _ (by omega) (by omega),
      field_setField_below _ _ (by omega) (by omega)]

theorem exec_amsgRefusalArrive (s : State) (seq : BitVec 32) (why : BitVec 4) : exec (.amsgRefusalArrive seq why) s =
    .next (s.modMe fun c => c.modCtl fun k => { k with amsgst := refusedStat k.amsgst seq why }) := rfl

section
variable {s : State} {m : AMsg} {p : Part} (hp : s.part? m.pid.toNat = some p) (resident : p.resident = true)
include hp resident

/-- A message for context 0 of a core of its partition takes the free slot (08_tasks.md R260). -/
theorem arriveMsg_of_free {i : Nat} (pid : (s.coreAt m.dst.toNat).pid = p.pid) (ctx : m.ctx = 0#16)
    (free : freeMsg (s.coreAt m.dst.toNat) = some i) : arriveMsg s m = deliverMsg s m i := by
  simp [arriveMsg, hp, msgFits, resident, pid, ctx, free]

theorem arriveMsg_of_other_partition (pid : (s.coreAt m.dst.toNat).pid ≠ p.pid) : arriveMsg s m = refuseMsg s m 3#4 := by
  simp [arriveMsg, hp, msgFits, resident, pid]
end

theorem refuseMsg_of_lazy {s : State} {m : AMsg} (pkg : m.pkg = s.pkgRank) (queues : s.lazy = true) (why : BitVec 4) :
    refuseMsg s m why = { s with
      net := s.net ++ [{ src := m.dst.toNat, dst := m.src.toNat, ev := .amsgRefusalArrive m.seq why, pid := m.pid.toNat }] } := by
  simp [refuseMsg, pkg, queues]

theorem exec_amsgArrive (m : AMsg) (s : State) : exec (.amsgArrive m) s = .next (arriveMsg s m) := rfl

/-- Settles O24: each arrival is the operation at its core, by the cases of the deque, of the slot and of the message's partition. -/
theorem dequeArrivals : Obligations.DequeArrivals := by
  unfold Obligations.DequeArrivals
  refine ⟨fun s victim thief l => ⟨fun idle free waits fits queues => ?_, exec_stealServe_of_peer,
    exec_stealRecordsArrive_of_room⟩, ?_, ?_⟩
  · exact ⟨_, exec_stealProbe_of_lazy idle free waits fits queues, s.probeSent_net victim, s.probeSent_probing victim, fun a => rfl⟩
  · intro s src x off n seq why k stays
    refine ⟨fun hp hm hr => ⟨fun room first => ?_, fun full room => ?_, fun full crowded => ?_⟩, fun count => ?_, fun zero => ?_,
      fun armed below => ?_, fun unarmed => ?_, ?_⟩
    · rw [exec_remotePushArrive_of_stays stays src hr, remotePush_of_room hp hm hr src room first]
      rfl
    · rw [exec_remotePushArrive_of_stays stays src hr, remotePush_of_full hp hm hr src full room]
      rfl
    · rw [exec_remotePushArrive_of_stays stays src hr, remotePush_of_no_room src full crowded]
    · rw [exec_codltApply_of_stays stays, applyCodlt_of_count count]
    · exact ⟨_, exec_codltApply_of_stays stays off x, applyCodlt_of_zero zero⟩
    · refine ⟨_, exec_cdecApply_of_stays stays off n, ?_, fun a ha => ?_⟩
      · rw [applyCdec_mem_of_armed armed below, Mem.readNat_write]
        exact Nat.mod_eq_of_lt (Nat.lt_of_le_of_lt (Nat.sub_le _ _) (BitVec.isLt _))
      · rw [applyCdec_mem_of_armed armed below, Mem.get_write_out (by rw [leBytes_length]; omega)]
    · refine ⟨_, exec_cdecApply_of_stays stays off n, ?_⟩
      rw [applyCdec_of_unarmed unarmed]
      exact ⟨fun a => rfl, cdecError_counts s⟩
    · refine ⟨_, exec_amsgRefusalArrive s seq why, State.setMe_me s _, ?_⟩
      rw [State.me_modMe]
      exact field_refusedStat s.me.ctl.amsgst seq why
  · intro s m p i r off hp resident
    refine ⟨fun pid ctx free => ?_, fun pid pkg queues => ?_⟩
    · rw [exec_amsgArrive, arriveMsg_of_free hp resident pid ctx free, deliverMsg, ctx]
    · rw [exec_amsgArrive, arriveMsg_of_other_partition hp resident pid, refuseMsg_of_lazy pkg queues]

end Sys2Proof.Machine
end

section
/-! PROOF. The windows of region 0xF (08_tasks.md R264; 14_futures.md R408; 15_system.md R438, R449, R450; 19_integration.md R485,
R495), and obligation O50. -/

namespace Sys2Proof.Machine

/-! Changes of a partition. -/

/-- A change of a partition that keeps its identifier is what is found there. -/
theorem State.part?_modPart_self {s : State} {pid : Nat} {p : Part} (hp : s.part? pid = some p) {f : Part → Part}
    (hf : ∀ p, (f p).pid = p.pid) : (s.modPart pid f).part? pid = some (f p) := by
  rw [State.part?_modPart s pid pid f hf, if_pos rfl, hp, Option.map_some]

theorem State.eq_of_modPart {s : State} {pid : Nat} {p q : Part} (hp : s.part? pid = some p) {f : Part → Part}
    (hf : ∀ p, (f p).pid = p.pid) (hq : (s.modPart pid f).part? pid = some q) : q = f p :=
  (Option.some.inj ((State.part?_modPart_self hp hf).symm.trans hq)).symm

/-- A counter of 16 bits that counts one more, saturating. -/
theorem toNat_saturating (x : BitVec 16) :
    (if x = 0xFFFF#16 then x else x + 1#16).toNat = min 0xFFFF (x.toNat + 1) := by
  split <;> bv_omega

/-! Contexts. -/

section
variable {s : State} {pid : Nat} {p : Part} {ctx : BitVec 16} (hp : s.part? pid = some p) (was : List Nat) (st : Nat)
include hp

theorem ctxCommand_of_foreign (h : ctxOf p ctx = false) : ctxCommand s pid ctx was st = (false, s) := by
  simp only [ctxCommand, hp, h, if_true]

section
variable (own : ctxOf p ctx = true)
include own

theorem ctxCommand_of_unreadable {u : State} (h : ctxEntry s p ctx .store = (none, u)) :
    ctxCommand s pid ctx was st = (false, u) := by
  simp only [ctxCommand, hp, own, Bool.true_eq_false, if_false, h]

section
variable {k : Nat} {u : State} (h : ctxEntry s p ctx .store = (some k, u))
include h

/-- A command that fits STATE writes it, and leaves its PENDING bit (15_system.md R450). -/
theorem ctxCommand_of_fits (fits : u.mem.readNat k 1 % 8 ∈ was) :
    ctxCommand s pid ctx was st = (true, u.storeNat k 1 (u.mem.readNat k 1 / 8 % 2 * 8 + st)) := by
  simp only [ctxCommand, hp, own, Bool.true_eq_false, if_false, h]
  exact if_pos (List.contains_iff_mem.2 fits)

theorem ctxCommand_of_misfit (fits : u.mem.readNat k 1 % 8 ∉ was) : ctxCommand s pid ctx was st = (false, u) := by
  simp only [ctxCommand, hp, own, Bool.true_eq_false, if_false, h]
  exact if_neg (mt List.contains_iff_mem.1 fits)
end
end
end

/-- The commands on contexts, each by what it made of STATE (15_system.md R450). -/
theorem exec_ctx {s : State} (ctx : BitVec 16) :
    exec (.ctxSuspend ctx) s = .next (ctxCommand s s.me.pid ctx [1] 2).2 ∧
      exec (.ctxBeginTeardown ctx) s = .next (if (ctxCommand s s.me.pid ctx [1, 2] 3).1
        then cancelFuts (ctxCommand s s.me.pid ctx [1, 2] 3).2 s.me.pid ctx else (ctxCommand s s.me.pid ctx [1, 2] 3).2) ∧
      exec (.ctxResume ctx) s = .next (deliverOverflow (ctxCommand s s.me.pid ctx [2] 1).2 s.me.pid ctx) := ⟨rfl, rfl, rfl⟩

/-! Rings and queues. -/

/-- The entry that a write makes of a tool ring (14_futures.md R408). -/
def writtenRing (pid : Nat) (v : BitVec 64) : ToolRing :=
  { valid := v.getLsbD 63, pid := pid, base := v.toNat / 2 ^ 6 % 2 ^ 42 * 64, log := v.toNat / 2 ^ 58 % 16 + 4, used := [], next := 0 }

theorem exec_toolRingWrite (s : State) (ring : BitVec 6) (v : BitVec 64) : exec (.toolRingWrite ring v) s = .next
    (if ((s.ringAt ring.toNat).valid = true ∧ (s.ringAt ring.toNat).pid ≠ s.me.pid) ∨ (s.ringAt ring.toNat).used ≠ [] then s
      else { s with rings := Table.set s.rings ring.toNat (writtenRing s.me.pid v) }) := by
  change Host.Outcome.next (toolRingWrite s s.me.pid ring.toNat v.toNat) = _
  rw [toolRingWrite, BitVec.ofNat_toNat, BitVec.setWidth_eq]
  rfl

/-- A partition after a write of FQRING, which takes effect while no entry of the queue is pending or taken (15_system.md R449). -/
def Part.fqringSet (v : BitVec 64) (p : Part) : Part :=
  if p.fq.entries.all (fun e => e.status == 2#8) then
    { p with fq := { p.fq with ring := some (field v 5 43 * 32, max 4 (min 12 (field v 48 5))), entries := [] } }
  else p

/-- A partition after a write of PPRING, which takes effect while the pool holds and has given no frame (08_tasks.md R264). -/
def Part.ppringSet (v : BitVec 64) (p : Part) : Part :=
  if p.pool.free = 0 ∧ p.pool.inUse = 0 then
    { p with pool := { p.pool with ring := some (field v 3 45 * 8, max 4 (min 16 (field v 48 5))), head := 0 } }
  else p

/-- A partition after a write of SQCFG, which takes effect while the storage queue is empty (19_integration.md R495). -/
def Part.sqcfgSet (v : BitVec 64) (p : Part) : Part :=
  if p.sq.head = p.sq.tail then { p with sq := { p.sq with cfg := v &&& 0x801F_FFFF_FFFF_FFC0#64 } } else p

section
variable (v : BitVec 64) (p : Part)

theorem Part.fqringSet_pid : (p.fqringSet v).pid = p.pid := by
  unfold Part.fqringSet
  split <;> rfl

theorem Part.ppringSet_pid : (p.ppringSet v).pid = p.pid := by
  unfold Part.ppringSet
  split <;> rfl

theorem Part.sqcfgSet_pid : (p.sqcfgSet v).pid = p.pid := by
  unfold Part.sqcfgSet
  split <;> rfl

theorem Part.fqringSet_ring : (p.fqringSet v).fq.ring = if p.fq.entries.all (fun e => e.status == 2#8) then
    some (v.toNat / 2 ^ 5 % 2 ^ 43 * 32, max 4 (min 12 (v.toNat / 2 ^ 48 % 32))) else p.fq.ring := by
  unfold Part.fqringSet
  split <;> rfl

theorem Part.ppringSet_ring : (p.ppringSet v).pool.ring = if p.pool.free = 0 ∧ p.pool.inUse = 0 then
    some (v.toNat / 2 ^ 3 % 2 ^ 45 * 8, max 4 (min 16 (v.toNat / 2 ^ 48 % 32))) else p.pool.ring := by
  unfold Part.ppringSet
  split <;> rfl

theorem Part.sqcfgSet_cfg : (p.sqcfgSet v).sq.cfg =
    if p.sq.head = p.sq.tail then v &&& 0x801F_FFFF_FFFF_FFC0#64 else p.sq.cfg := by
  unfold Part.sqcfgSet
  split <;> rfl
end

section
variable (s : State) (v : BitVec 64)

theorem exec_fqringWrite : exec (.fqringWrite v) s = .next (s.modPart s.me.pid (Part.fqringSet v)) := by
  change Host.Outcome.next (fqringWrite s s.me.pid v.toNat) = _
  rw [fqringWrite, BitVec.ofNat_toNat, BitVec.setWidth_eq]
  rfl

theorem exec_ppringWrite : exec (.ppringWrite v) s = .next (s.modPart s.me.pid (Part.ppringSet v)) := by
  change Host.Outcome.next (ppringWrite s s.me.pid v.toNat) = _
  rw [ppringWrite, BitVec.ofNat_toNat, BitVec.setWidth_eq]
  rfl

theorem exec_sqcfgWrite : exec (.sqcfgWrite v) s = .next (s.modPart s.me.pid (Part.sqcfgSet v)) := by
  change Host.Outcome.next (sqcfgWrite s s.me.pid v.toNat) = _
  rw [sqcfgWrite, BitVec.ofNat_toNat, BitVec.setWidth_eq]
  rfl
end

/-- A partition whose pool cannot take a frame counts it (08_tasks.md R264). -/
def Part.frameRefused (p : Part) : Part := { p with pool := p.pool.refuse }

/-- A partition counts a store to SQTAIL that names more requests than its ring holds (19_integration.md R495). -/
def Part.tailIgnored (p : Part) : Part :=
  { p with sq := { p.sq with ignored := if p.sq.ignored = 0xFFFF#16 then p.sq.ignored else p.sq.ignored + 1#16 } }

theorem ParkPool.refuse_refused (p : ParkPool) : p.refuse.refused.toNat = min 0xFFFF (p.refused.toNat + 1) :=
  toNat_saturating p.refused

section
variable {s : State} {p : Part} (hp : s.part? s.me.pid = some p)
include hp

theorem exec_ppputWrite (v : BitVec 64) : exec (.ppputWrite v) s = .next
    (if p.pool.room && frameFits s p (v.toNat / 2 ^ 6 % 2 ^ 42 * 64) then putFrame s s.me.pid (v.toNat / 2 ^ 6 % 2 ^ 42 * 64)
      else s.modPart s.me.pid Part.frameRefused) := by
  change Host.Outcome.next (ppputWrite s s.me.pid v.toNat) = _
  rw [ppputWrite, BitVec.ofNat_toNat, BitVec.setWidth_eq]
  simp only [hp]
  rfl

theorem exec_sqTailWrite (v : BitVec 64) : exec (.sqTailWrite v) s = .next
    (if (sqRing p.sq).2.1 < (v.setWidth 16 - p.sq.head).toNat then s.modPart s.me.pid Part.tailIgnored
      else sqRead s.me.pid 1024 (s.modPart s.me.pid fun p => { p with sq := { p.sq with tail := v.setWidth 16 } })) := by
  change Host.Outcome.next (sqTailWrite s s.me.pid v.toNat) = _
  simp only [sqTailWrite, hp, BitVec.ofNat_toNat]
  rfl

end


/-! Frames of the pool. -/

theorem exec_pptakeRead_of_none {s : State} (empty : takeFrame s s.me.pid = none) (d : GIdx) :
    exec (.pptakeRead d) s = .next (s.setMe (s.me.wg d { bits := 0#128, tag := false })) := by
  change execPptakeRead d s = _
  simp only [execPptakeRead, pptakeRead, empty]
  rfl

/-- A pool that has given its oldest frame counts it out of use (08_tasks.md R264). -/
def State.frameTaken (t : State) (pid : Nat) : State :=
  t.modPart pid fun p => { p with pool := { p.pool with inUse := p.pool.inUse - 1 } }

theorem exec_pptakeRead_of_some {s t : State} {fa : Nat} (h : takeFrame s s.me.pid = some (fa, t)) (d : GIdx) :
    exec (.pptakeRead d) s = .next ((t.frameTaken s.me.pid).modMe fun c => c.wg d (GVal.ofNat fa)) := by
  change execPptakeRead d s = _
  simp only [execPptakeRead, pptakeRead, h]
  rfl

/-! The host queue. -/

section
variable {s : State} (v : BitVec 64)

theorem exec_hostQueuePost_of_full
    (full : 2 ^ (field s.hqcfg 0 4 + 4) ≤ (field s.hqptr 0 16 + 65536 - field s.hqptr 32 16) % 65536) :
    exec (.hostQueuePost v) s =
      .next { s with hqptr := setField s.hqptr 48 16 (min 65535 (field s.hqptr 48 16 + 1)) } :=
  congrArg Host.Outcome.next (if_pos full)

/-- The 16 bytes that a core's word takes in the host queue (19_integration.md R485). -/
def hostEntry (s : State) (p : Part) (v : BitVec 64) : List Byte :=
  leBytes 8 v.toNat ++ leBytes 2 s.me.pid ++ leBytes 2 s.rank ++ leBytes 4 p.hostSeq.toNat

theorem exec_hostQueuePost_of_room {p : Part} (hp : s.part? s.me.pid = some p)
    (room : (field s.hqptr 0 16 + 65536 - field s.hqptr 32 16) % 65536 < 2 ^ (field s.hqcfg 0 4 + 4)) :
    exec (.hostQueuePost v) s = .next
      { (s.store (hostKey (field s.hqcfg 4 48 * 16 + 16 * (field s.hqptr 0 16 % 2 ^ (field s.hqcfg 0 4 + 4))))
          (hostEntry s p v)).modPart s.me.pid (fun p => { p with hostSeq := p.hostSeq + 1#32 }) with
        hqptr := setField s.hqptr 0 16 (field s.hqptr 0 16 + 1) } := by
  have pid : (s.coreAt s.rank).pid = s.me.pid := rfl
  refine congrArg Host.Outcome.next ((if_neg (Nat.not_le.2 room)).trans ?_)
  simp only [pid, hp, Option.map_some, Option.getD_some]
  rfl
end

/-- The commands on an own context whose entry is read, by its STATE (15_system.md R450). -/
theorem exec_ctx_of_entry {s u : State} {p : Part} {ctx : BitVec 16} {k : Nat} (hp : s.part? s.me.pid = some p)
    (own : ctxOf p ctx = true) (h : ctxEntry s p ctx .store = (some k, u)) :
    let b : Nat := u.mem.readNat k 1
    let puts (n : Nat) : State := u.storeNat k 1 (b / 8 % 2 * 8 + n)
    (b % 8 = 1 → exec (.ctxSuspend ctx) s = .next (puts 2)) ∧ (b % 8 ≠ 1 → exec (.ctxSuspend ctx) s = .next u) ∧
      (b % 8 = 1 ∨ b % 8 = 2 → exec (.ctxBeginTeardown ctx) s = .next (cancelFuts (puts 3) s.me.pid ctx)) ∧
      (b % 8 ≠ 1 → b % 8 ≠ 2 → exec (.ctxBeginTeardown ctx) s = .next u) ∧
      (b % 8 = 2 → exec (.ctxResume ctx) s = .next (deliverOverflow (puts 1) s.me.pid ctx)) ∧
      (b % 8 ≠ 2 → exec (.ctxResume ctx) s = .next (deliverOverflow u s.me.pid ctx)) := by
  intro b puts
  obtain ⟨suspend, teardown, resume⟩ := exec_ctx (s := s) ctx
  refine ⟨fun active => ?_, fun other => ?_, fun began => ?_, fun active suspended => ?_, fun suspended => ?_, fun other => ?_⟩
  · rw [suspend, ctxCommand_of_fits hp _ _ own h (List.mem_singleton.2 active)]
  · rw [suspend, ctxCommand_of_misfit hp _ _ own h (mt List.mem_singleton.1 other)]
  · rw [teardown, ctxCommand_of_fits hp _ _ own h (List.mem_pair.2 began), if_pos rfl]
  · rw [teardown, ctxCommand_of_misfit hp _ _ own h (mt List.mem_pair.1 (not_or.2 ⟨active, suspended⟩)), if_neg Bool.false_ne_true]
  · rw [resume, ctxCommand_of_fits hp _ _ own h (List.mem_singleton.2 suspended)]
  · rw [resume, ctxCommand_of_misfit hp _ _ own h (mt List.mem_singleton.1 other)]

/-- Settles O50: each window's event is the operation of the core's partition, by the cases of its guard. -/
theorem windowEvents : Obligations.WindowEvents := by
  unfold Obligations.WindowEvents
  intro s t p q ctx ring v d fa x new hp
  obtain ⟨suspend, teardown, resume⟩ := exec_ctx (s := s) ctx
  refine ⟨fun foreign => ?_, fun u own h => ?_, fun k u => exec_ctx_of_entry hp, fun busy => ?_, fun mine idle => ?_, ?_, ?_,
    fun base lg ring => ⟨fun room => ?_, fun room => ?_⟩, fun empty => exec_pptakeRead_of_none empty d, fun given => ?_,
    ⟨exec_hostQueuePost_of_full v, fun room => ⟨_, exec_hostQueuePost_of_room v hp room, rfl, rfl⟩⟩, ?_,
    fun past => ?_, fun fits => ?_⟩
  · simp only [suspend, teardown, resume, ctxCommand_of_foreign hp _ _ foreign, Bool.false_eq_true, if_false, and_self]
  · simp only [suspend, teardown, resume, ctxCommand_of_unreadable hp _ _ own h, Bool.false_eq_true, if_false, and_self]
  · rw [exec_toolRingWrite, if_pos busy]
  · have free : ¬((x.valid = true ∧ x.pid ≠ s.me.pid) ∨ x.used ≠ []) :=
      not_or.2 ⟨fun ⟨valid, other⟩ => mine.elim (by simp [valid]) other, not_not.2 idle⟩
    refine ⟨_, (exec_toolRingWrite s ring v).trans (congrArg _ (if_neg free)), ?_, rfl, rfl⟩
    simp only [State.ringAt, Table.find_set, if_true, Option.getD_some]
    rfl
  · refine ⟨_, exec_fqringWrite s v, rfl, rfl, fun hq => ?_⟩
    rw [State.eq_of_modPart hp (Part.fqringSet_pid v) hq, Part.fqringSet_ring]
  · refine ⟨_, exec_ppringWrite s v, rfl, rfl, fun hq => ?_⟩
    rw [State.eq_of_modPart hp (Part.ppringSet_pid v) hq, Part.ppringSet_ring]
  · have fits : (p.pool.room && frameFits s p (v.toNat / 2 ^ 6 % 2 ^ 42 * 64)) = true := by rwa [ParkPool.room, ring]
    rw [exec_ppputWrite hp, if_pos fits]
  · have refused : ¬(p.pool.room && frameFits s p (v.toNat / 2 ^ 6 % 2 ^ 42 * 64)) = true := by
      rw [ParkPool.room, ring]
      exact Bool.eq_false_iff.1 room
    refine ⟨_, (exec_ppputWrite hp v).trans (congrArg _ (if_neg refused)), rfl, fun hq => ?_⟩
    rw [State.eq_of_modPart hp (f := Part.frameRefused) (fun _ => rfl) hq]
    exact ⟨p.pool.refuse_refused, rfl⟩
  · refine ⟨_, exec_pptakeRead_of_some given d, rfl, fun hd => ?_, fun j hj => ?_⟩
    · rw [State.me_modMe, Core.rg_wg_self _ hd, GVal.ofNat]
    · rw [State.me_modMe, Core.rg_wg_other _ hj]
      rfl
  · refine ⟨_, exec_sqcfgWrite s v, rfl, fun hq => ?_⟩
    rw [State.eq_of_modPart hp (Part.sqcfgSet_pid v) hq, Part.sqcfgSet_cfg]
  · refine ⟨_, (exec_sqTailWrite hp v).trans (congrArg _ (if_pos past)), rfl, fun hq => ?_⟩
    rw [State.eq_of_modPart hp (f := Part.tailIgnored) (fun _ => rfl) hq]
    exact ⟨rfl, toNat_saturating p.sq.ignored⟩
  · rw [exec_sqTailWrite hp, if_neg (Nat.not_lt.2 fits)]

end Sys2Proof.Machine
end

section
/-! PROOF. The words of groups: COMPOSE and GANG (09_compose.md R270, R271, R288), SPLIT and DISBAND (09_compose.md R278, R283, R289),
and obligation O25. -/

namespace Sys2Proof.Machine

/-! What the completed accesses of a core leave, and what changes of other cores leave. -/

@[simp] theorem drainStores_aside (s : State) (r : Nat) : (drainStores s r).aside = s.aside :=
  foldl_aside _ performAll_aside _ _

@[simp] theorem drainS_aside (s : State) (r : Nat) : (drainS s r).aside = s.aside :=
  (drainStores_aside _ r).trans (returnWhere_aside s r _)

theorem syncAll_rank (s : State) : (syncAll s).rank = s.rank := State.rank_of_aside (drainS_aside s s.rank)

/-- A core that no element of a list names keeps its place while the cores that they name change. -/
theorem State.coreAt_foldl_modCore {α : Type} (at_ : α → Nat) (f : α → Core → Core) {r : Nat} :
    ∀ (l : List α) (s : State), (∀ m ∈ l, at_ m ≠ r) → (l.foldl (fun t m => t.modCore (at_ m) (f m)) s).coreAt r = s.coreAt r
  | [], _, _ => rfl
  | m :: l, s, h => by
    obtain ⟨hm, hl⟩ := List.forall_mem_cons.1 h
    rw [List.foldl_cons, State.coreAt_foldl_modCore at_ f l _ hl, State.coreAt_modCore, if_neg hm.symm]

/-! The members of a group that forms. -/

/-- The cores that a core of rank r asks for their reservation, each with its member index (09_compose.md R270, R271). -/
def groupOthers (r k : Nat) (tall : Bool) : List (Nat × Nat) := (groupRect r (groupShape k tall)).filter fun m => m.1 != r

theorem ne_of_mem_groupOthers {r k : Nat} {tall : Bool} : ∀ m ∈ groupOthers r k tall, m.1 ≠ r := fun _ hm =>
  bne_iff_ne.1 (List.mem_filter.1 hm).2

/-- Whether every core asked for its reservation grants it (09_compose.md R271). -/
def allGrant (t : State) (l : List (Nat × Nat)) : Bool := l.all fun m => (t.coreAt m.1).grants

/-- What a leader holds of its group: the kind and the other members. -/
def leaderGroup (gang : Bool) (ranks : List Nat) : Group := if gang then .gangLead ranks else .composeLead ranks

/-- The leader of a group that forms: it answers 0 and steps on; COMPOSE aligns its walkers (09_compose.md R273, R288). -/
def Core.startLead (c : Core) (gang : Bool) (k : Nat) (tall : Bool) (d : GIdx) (idx : Nat) (ranks : List Nat) : Core :=
  let c1 := ((c.modCtl fun q => { q with grpstat := formStat q.grpstat gang k tall idx }).wg d (GVal.ofNat 0)).next
  { (if gang then c1 else { c1.alignWalkers c1.pc with nestS := c1.nestS }) with
    group := leaderGroup gang ranks, reserved := true, groupEnd := false, lastOut := none }

/-- What a core reads from its general file is that file's. -/
theorem Core.rg_congr {c e : Core} (h : c.g = e.g) (i : GIdx) : c.rg i = e.rg i := by simp only [Core.rg, h]

/-- A leader that starts writes one general register. -/
theorem Core.startLead_g (c : Core) (gang : Bool) (k : Nat) (tall : Bool) (d : GIdx) (idx : Nat) (ranks : List Nat) :
    (c.startLead gang k tall d idx ranks).g =
      ((c.modCtl fun q => { q with grpstat := formStat q.grpstat gang k tall idx }).wg d (GVal.ofNat 0)).g := by
  cases gang
  · simp only [Core.startLead, Bool.false_eq_true, if_false, Core.alignWalkers, Core.next_g]
  · simp only [Core.startLead, if_true, Core.next_g]

/-- The answer of a group that forms. -/
theorem Core.startLead_rg {d : GIdx} (hd : d ≠ 0#6) (c : Core) (gang : Bool) (k : Nat) (tall : Bool) (idx : Nat) (ranks : List Nat) :
    (c.startLead gang k tall d idx ranks).rg d = GVal.ofNat 0 :=
  (Core.rg_congr (c.startLead_g gang k tall d idx ranks) d).trans (Core.rg_wg_self _ hd _)

/-! Forming a group. -/

/-- The group that forms: its core leads with member index idx, and every other member changes as f says. -/
def groupFormed (s : State) (gang : Bool) (k : Nat) (tall : Bool) (d : GIdx) (idx : Nat) (f : Nat × Nat → Core → Core) : State :=
  (groupOthers s.rank k tall).foldl (fun t m => t.modCore m.1 (f m))
    ((syncAll s).modMe fun c => c.startLead gang k tall d idx ((groupOthers s.rank k tall).map (·.1)))

/-- No other member is the leader. -/
theorem groupFormed_coreAt_rank (s : State) (gang : Bool) (k : Nat) (tall : Bool) (d : GIdx) (idx : Nat) (f : Nat × Nat → Core → Core) :
    (groupFormed s gang k tall d idx f).coreAt s.rank =
      (syncAll s).me.startLead gang k tall d idx ((groupOthers s.rank k tall).map (·.1)) := by
  rw [groupFormed, State.coreAt_foldl_modCore (·.1) f _ _ ne_of_mem_groupOthers, State.coreAt_modMe, syncAll_rank, if_pos rfl]

section
variable {s : State}

theorem formGroup_of_grouped (grouped : field s.me.ctl.grpstat 30 2 ≠ 0) (gang : Bool) (k : Nat) (tall : Bool) (d : GIdx) :
    formGroup s gang k tall d = .ok (answer s d 2) := if_pos grouped

variable (free : field s.me.ctl.grpstat 30 2 = 0) (quiet : s.me.quiet = true)
include free quiet

/-- A core in no group whose engines have completed decides by the reservations (09_compose.md R271, R288). -/
theorem formGroup_of_ready (gang : Bool) (k : Nat) (tall : Bool) (d : GIdx) :
    ∃ (idx : Nat) (f : Nat × Nat → Core → Core), formGroup s gang k tall d =
      if allGrant (syncAll s) (groupOthers s.rank k tall) = true then .ok (groupFormed s gang k tall d idx f)
      else .ok (answer (syncAll s) d 1) := by
  rw [formGroup, if_neg (not_not.2 free), if_neg (by simp [quiet])]
  exact ⟨_, _, rfl⟩

theorem formGroup_of_refused {k : Nat} {tall : Bool} (refused : allGrant (syncAll s) (groupOthers s.rank k tall) = false)
    (gang : Bool) (d : GIdx) : formGroup s gang k tall d = .ok (answer (syncAll s) d 1) := by
  obtain ⟨_, _, decided⟩ := formGroup_of_ready free quiet gang k tall d
  rw [decided, refused, if_neg Bool.false_ne_true]

/-- A group that forms makes its core the leader of the others, with the answer 0. -/
theorem formGroup_of_granted {k : Nat} {tall : Bool} (granted : allGrant (syncAll s) (groupOthers s.rank k tall) = true)
    (gang : Bool) (d : GIdx) : ∃ u, formGroup s gang k tall d = .ok u ∧
      (u.coreAt s.rank).group = leaderGroup gang ((groupOthers s.rank k tall).map (·.1)) ∧
      (d ≠ 0#6 → (u.coreAt s.rank).rg d = GVal.ofNat 0) := by
  obtain ⟨idx, f, decided⟩ := formGroup_of_ready free quiet gang k tall d
  refine ⟨groupFormed s gang k tall d idx f, by rw [decided, if_pos granted], ?_, fun hd => ?_⟩
  · rw [groupFormed_coreAt_rank, Core.startLead]
  · rw [groupFormed_coreAt_rank, Core.startLead_rg hd]
end

theorem exec_compose_of_ok {s u : State} {size : BitVec 2} {tall : Bool} {d : GIdx}
    (h : formGroup s false (size.toNat + 1) tall d = .ok u) : exec (.compose tall size d) s = .next u := congrArg (settle s) h

theorem exec_gang_of_ok {s u : State} {size : BitVec 2} {d : GIdx}
    (h : formGroup s true (size.toNat + 1) false d = .ok u) : exec (.gang size d) s = .next u := congrArg (settle s) h

/-! Ending a group. -/

theorem exec_split (s : State) : exec .split s = .next ((endComposed s s.rank 1).modMe Core.next) := rfl

/-- The leader of a composed group is in no group once it is handed back (09_compose.md R278). -/
theorem endComposed_group {s : State} {r : Nat} {ms : List Nat} (lead : (s.coreAt r).group = .composeLead ms) (why : Nat) :
    ((endComposed s r why).coreAt r).group = .single := by
  simp only [endComposed, lead]
  rw [State.coreAt_modCore, if_pos rfl]
  rfl

theorem exec_disband_of_single {s : State} (single : s.me.group = .single) : exec .disband s = .next (s.setMe s.me.next) := by
  change execDisband s = _
  rw [execDisband, single]
  rfl

section
variable {s : State} {ms : List Nat} (lead : s.me.group = .gangLead ms)
include lead

theorem exec_disband_of_quiet (quiet : s.me.quiet = true) (members : ∀ r ∈ ms, (s.coreAt r).quiet = true) :
    exec .disband s = .next ((endGang (settleMembers s (s.rank :: ms)) s.rank 1 0 0 0).modMe Core.next) := by
  change execDisband s = _
  simp only [execDisband, lead, if_pos (And.intro quiet (List.all_eq_true.2 members)), settle]

theorem exec_disband_of_busy (busy : s.me.quiet = false) :
    exec .disband s = .next (s.setMe { s.me with hold := some (.engines, s.cycle) }) := by
  change execDisband s = _
  have waits : execDisband s = settle s (.hold .engines s) := by
    simp only [execDisband, lead, busy, Bool.false_eq_true, false_and, if_false]
  rw [waits]
  rfl
end

/-- Settles O25: COMPOSE and GANG are the three answers of forming a group, and SPLIT and DISBAND end what the core leads. -/
theorem groupWords : Obligations.GroupWords := by
  unfold Obligations.GroupWords
  refine ⟨fun s tall size d => ⟨fun grouped => ?_, fun free quiet => ⟨fun refused => ?_, fun refused => ?_, fun granted => ?_,
    fun granted => ?_⟩⟩, fun s => ⟨fun single => ⟨?_, exec_disband_of_single single⟩, fun ms lead => ⟨exec_split s, endComposed_group lead 1⟩,
    fun ms lead => ⟨exec_disband_of_quiet lead, exec_disband_of_busy lead⟩⟩⟩
  · exact ⟨exec_compose_of_ok (formGroup_of_grouped grouped ..), exec_gang_of_ok (formGroup_of_grouped grouped ..)⟩
  · exact exec_compose_of_ok (formGroup_of_refused free quiet refused ..)
  · exact exec_gang_of_ok (formGroup_of_refused free quiet refused ..)
  · obtain ⟨u, formed, parts⟩ := formGroup_of_granted free quiet granted false d
    exact ⟨u, exec_compose_of_ok formed, parts⟩
  · obtain ⟨u, formed, parts⟩ := formGroup_of_granted free quiet granted true d
    exact ⟨u, exec_gang_of_ok formed, parts⟩
  · rw [exec_split, endComposed_of_single single]
    rfl

end Sys2Proof.Machine
end

section
/-! SUPPORT. How a V word leaves its core (10_vector.md R296, R297; 02_encoding.md R42; 04_scalar.md R114, R115): the walkers step
on, V time goes on, and result latches land. -/

namespace Sys2Proof.Machine

/-! Vector and predicate registers. -/

theorem Core.rv_wv (c : Core) (i j : BitVec 5) (x : VReg) : (c.wv i x).rv j = if j = i then x else c.rv j := by
  simp only [Core.rv, Core.wv, Vector.getElem_set, BitVec.toNat_inj, eq_comm (a := j)]

theorem Core.rp_wp (c : Core) (i j : BitVec 3) (x : BitVec 128) : (c.wp i x).rp j = if j = i then x else c.rp j := by
  simp only [Core.rp, Core.wp, Vector.getElem_set, BitVec.toNat_inj, eq_comm (a := j)]

theorem Core.rv_congr {c e : Core} (h : c.v = e.v) (i : BitVec 5) : c.rv i = e.rv i := by simp only [Core.rv, h]

theorem Core.rp_congr {c e : Core} (h : c.p = e.p) (i : BitVec 3) : c.rp i = e.rp i := by simp only [Core.rp, h]

/-! Latches that land. -/

/-- The core with one latch landed. -/
def Core.landOne (c : Core) (x : Latch) : Core :=
  if x.isPred then c.wp (x.index.setWidth 3) (x.value.setWidth 128) else c.wv x.index x.value

theorem Core.land_append (c : Core) (l m : List Latch) : c.land (l ++ m) = (c.land l).land m := List.foldl_append

theorem Core.land_singleton (c : Core) (x : Latch) : c.land [x] = c.landOne x := rfl

theorem Core.landOne_frame (c : Core) (x : Latch) : ∃ v p, c.landOne x = { c with v := v, p := p } := by
  unfold Core.landOne
  split
  · exact ⟨c.v, _, rfl⟩
  · exact ⟨_, c.p, rfl⟩

theorem Core.land_frame (c : Core) (l : List Latch) : ∃ v p, c.land l = { c with v := v, p := p } := by
  induction l generalizing c with
  | nil => exact ⟨c.v, c.p, rfl⟩
  | cons x l ih =>
    obtain ⟨v, p, one⟩ := c.landOne_frame x
    obtain ⟨v', p', rest⟩ := ih (c.landOne x)
    exact ⟨v', p', rest.trans (by rw [one])⟩

/-- What lands in the registers depends on the registers alone. -/
theorem Core.land_congr {c e : Core} (hv : c.v = e.v) (hp : c.p = e.p) (l : List Latch) :
    (c.land l).v = (e.land l).v ∧ (c.land l).p = (e.land l).p := by
  induction l generalizing c e with
  | nil => exact ⟨hv, hp⟩
  | cons x l ih =>
    refine ih (c := c.landOne x) (e := e.landOne x) ?_ ?_
    · simp only [Core.landOne, Core.wv, Core.wp, hv]
      split <;> simp
    · simp only [Core.landOne, Core.wv, Core.wp, hp]
      split <;> simp

/-- Latches of other vector registers leave a register. -/
theorem Core.land_rv_of_others {l : List Latch} {v : BitVec 5} (others : ∀ x ∈ l, x.isPred = false → x.index ≠ v) (c : Core) :
    (c.land l).rv v = c.rv v := by
  induction l generalizing c with
  | nil => rfl
  | cons x l ih =>
    obtain ⟨hx, hl⟩ := List.forall_mem_cons.1 others
    refine (ih hl (c.landOne x)).trans ?_
    unfold Core.landOne
    split
    case isTrue => rfl
    case isFalse reg => rw [Core.rv_wv, if_neg (hx (by simpa using reg)).symm]

/-- The last latch of a list stands in the vector register that it writes. -/
theorem Core.land_rv_last (c : Core) (l : List Latch) {x : Latch} (reg : x.isPred = false) :
    (c.land (l ++ [x])).rv x.index = x.value := by
  rw [Core.land_append, Core.land_singleton, Core.landOne, if_neg (by simp [reg]), Core.rv_wv, if_pos rfl]

/-- The last latch of a list stands in the predicate register that it writes. -/
theorem Core.land_rp_last (c : Core) (l : List Latch) {x : Latch} (pred : x.isPred = true) {p : BitVec 3}
    (index : x.index = p.setWidth 5) : (c.land (l ++ [x])).rp p = x.value.setWidth 128 := by
  rw [Core.land_append, Core.land_singleton, Core.landOne, if_pos pred, Core.rp_wp, index, BitVec.setWidth_setWidth_of_le p (by decide),
    BitVec.setWidth_eq, if_pos rfl]

/-- A latch one step of V time later. -/
def Latch.nearer (x : Latch) : Latch := { x with remain := x.remain - 1 }

/-- The latches that still stand, and those that land, after a step of V time. -/
def laterLatches (l : List Latch) : List Latch := (l.map Latch.nearer).filter fun x => x.remain != 0
def dueLatches (l : List Latch) : List Latch := (l.map Latch.nearer).filter fun x => x.remain == 0

theorem Core.vTick_eq (c : Core) : c.vTick = ({ c with latches := laterLatches c.latches } : Core).land (dueLatches c.latches) := rfl

theorem mem_laterLatches {l : List Latch} {x : Latch} (mem : x ∈ l) (stays : 2 ≤ x.remain) : x.nearer ∈ laterLatches l :=
  List.mem_filter.2 ⟨List.mem_map_of_mem mem, by simp only [Latch.nearer, bne_iff_ne]; omega⟩

theorem mem_dueLatches {l : List Latch} {y : Latch} (mem : y ∈ dueLatches l) : ∃ x ∈ l, x.remain ≤ 1 ∧ y = x.nearer := by
  obtain ⟨later, due⟩ := List.mem_filter.1 mem
  obtain ⟨x, hx, rfl⟩ := List.mem_map.1 later
  simp only [Latch.nearer, beq_iff_eq] at due
  exact ⟨x, hx, by omega, rfl⟩

theorem dueLatches_append (l : List Latch) {x : Latch} (due : x.remain = 1) : dueLatches (l ++ [x]) = dueLatches l ++ [x.nearer] := by
  simp [dueLatches, Latch.nearer, due]

/-! The walkers. -/

theorem Core.passWord_frame (c : Core) : ∃ cap pos p, c.passWord = { c with codecap := cap, posS := pos, passing := p } := by
  unfold Core.passWord
  split
  · exact ⟨_, _, _, rfl⟩
  · exact ⟨_, _, _, rfl⟩

theorem Core.engAdvance_frame (c : Core) (op : Instr) (l : List GVal) :
    ∃ q pc pos n, c.engAdvance .v op l = { c with capV := q, pcV := pc, posV := pos, nestV := n } := by
  have popped (b : Bool) : ∃ q, (if b then c else c.popCap .v) = { c with capV := q } := by
    cases b
    · exact ⟨_, rfl⟩
    · exact ⟨_, rfl⟩
  unfold Core.engAdvance
  split
  · exact ⟨_, _, _, _, rfl⟩
  · rename_i n _
    obtain ⟨q, hq⟩ := popped n.replays
    simp only [hq]
    repeat' split
    all_goals exact ⟨_, _, _, _, rfl⟩

theorem Core.engAdvance_pcV {c : Core} (nest : c.nestV = none) (op : Instr) (l : List GVal) :
    (c.engAdvance .v op l).pcV = c.pcV + 12#64 := by
  simp only [Core.engAdvance, Core.nestOf, nest]
  rfl

/-- A core without what the end of a V word may change. -/
def Core.besideV (c : Core) : Core :=
  { c with v := Vector.replicate 32 0#1024, p := Vector.replicate 8 0#128, latches := [], codecap := GVal.zero, posS := 0#32
           passing := false, capV := [], pcV := 0#64, posV := 0#32, nestV := none, vwait := none }

section
variable {c e : Core} (h : e.besideV = c.besideV)
include h

theorem Core.g_of_besideV : e.g = c.g := (congrArg Core.g h :)
theorem Core.ctl_of_besideV : e.ctl = c.ctl := (congrArg Core.ctl h :)
theorem Core.maxx_of_besideV : e.maxx = c.maxx := (congrArg Core.maxx h :)
end

/-- What the core of a V word does once the word has its results: the S walker passes it where it writes the general file, the V
walker steps on, and V time goes on (04_scalar.md R114, R115; 10_vector.md R297). -/
def Core.pastWord (c : Core) (writesG : Bool) (op : Instr) (l : List GVal) : Core :=
  { (if writesG then c.passWord else c).engAdvance .v op l with vwait := none }.vTick

section
variable (c : Core) (b : Bool) (op : Instr) (l : List GVal)

/-- Before V time goes on, the registers and latches stand, and the V walker outside a nest is past the word. -/
theorem Core.pastWord_eq_vTick : ∃ e : Core, c.pastWord b op l = e.vTick ∧ e.v = c.v ∧ e.p = c.p ∧ e.latches = c.latches ∧
    e.besideV = c.besideV ∧ (c.nestV = none → e.pcV = c.pcV + 12#64) := by
  obtain ⟨cap, posS, passing, hp⟩ : ∃ cap pos p, (if b then c.passWord else c) = { c with codecap := cap, posS := pos, passing := p } := by
    cases b
    · exact ⟨_, _, _, rfl⟩
    · exact c.passWord_frame
  unfold Core.pastWord
  rw [hp]
  refine ⟨_, rfl, ?_⟩
  have past (nest : c.nestV = none) :=
    Core.engAdvance_pcV (c := { c with codecap := cap, posS := posS, passing := passing }) nest op l
  obtain ⟨q, pc, posV, n, ha⟩ := Core.engAdvance_frame { c with codecap := cap, posS := posS, passing := passing } op l
  rw [ha] at past ⊢
  exact ⟨rfl, rfl, rfl, rfl, past⟩

theorem Core.vTick_besideV : c.vTick.besideV = c.besideV := by
  obtain ⟨v, p, landed⟩ := Core.land_frame { c with latches := laterLatches c.latches } (dueLatches c.latches)
  rw [Core.vTick_eq, landed]
  rfl

theorem Core.pastWord_besideV : (c.pastWord b op l).besideV = c.besideV := by
  obtain ⟨e, tick, -, -, -, beside, -⟩ := c.pastWord_eq_vTick b op l
  rw [tick, Core.vTick_besideV, beside]

@[simp] theorem Core.pastWord_ctl : (c.pastWord b op l).ctl = c.ctl := Core.ctl_of_besideV (c.pastWord_besideV b op l)
@[simp] theorem Core.pastWord_maxx : (c.pastWord b op l).maxx = c.maxx := Core.maxx_of_besideV (c.pastWord_besideV b op l)
@[simp] theorem Core.pastWord_rg (i : GIdx) : (c.pastWord b op l).rg i = c.rg i :=
  Core.rg_congr (Core.g_of_besideV (c.pastWord_besideV b op l)) i

theorem Core.pastWord_latches : (c.pastWord b op l).latches = laterLatches c.latches := by
  obtain ⟨e, tick, -, -, latches, -, -⟩ := c.pastWord_eq_vTick b op l
  obtain ⟨v, p, landed⟩ := Core.land_frame { e with latches := laterLatches e.latches } (dueLatches e.latches)
  rw [tick, Core.vTick_eq, landed, ← latches]

theorem Core.pastWord_rv (i : BitVec 5) : (c.pastWord b op l).rv i = (c.land (dueLatches c.latches)).rv i := by
  obtain ⟨e, tick, hv, hp, latches, -, -⟩ := c.pastWord_eq_vTick b op l
  rw [tick, Core.vTick_eq, latches]
  refine Core.rv_congr (Core.land_congr ?_ ?_ _).1 i
  · exact hv
  · exact hp

theorem Core.pastWord_rp (i : BitVec 3) : (c.pastWord b op l).rp i = (c.land (dueLatches c.latches)).rp i := by
  obtain ⟨e, tick, hv, hp, latches, -, -⟩ := c.pastWord_eq_vTick b op l
  rw [tick, Core.vTick_eq, latches]
  refine Core.rp_congr (Core.land_congr ?_ ?_ _).2 i
  · exact hv
  · exact hp

theorem Core.pastWord_pcV (nest : c.nestV = none) : (c.pastWord b op l).pcV = c.pcV + 12#64 := by
  obtain ⟨e, tick, -, -, -, -, past⟩ := c.pastWord_eq_vTick b op l
  obtain ⟨v, p, landed⟩ := Core.land_frame { e with latches := laterLatches e.latches } (dueLatches e.latches)
  rw [tick, Core.vTick_eq, landed, ← past nest]
end

end Sys2Proof.Machine
end

section
/-! SUPPORT. What V words read and how they end (10_vector.md R290 to R297, R304): lanes as parts of one number, the active
elements, the operands of a word that pops nothing, and the state of a word that has computed. -/

namespace Sys2Proof.Machine

/-! Lanes. -/

theorem getD_map_range (f : Nat → Nat) {j n : Nat} (hj : j < n) : ((List.range n).map f).getD j 0 = f j := by simp [List.getD, hj]

theorem lanesOf_length (x w n : Nat) : (lanesOf x w n).length = n := by simp [lanesOf]

theorem lanesOf_getD (x w : Nat) {j n : Nat} (hj : j < n) : (lanesOf x w n).getD j 0 = x / 2 ^ (w * j) % 2 ^ w := getD_map_range _ hj

theorem lanesOf_lt {x w n : Nat} : ∀ v ∈ lanesOf x w n, v < 2 ^ w := fun v hv => by
  obtain ⟨i, -, rfl⟩ := List.mem_map.1 hv
  exact Nat.mod_lt _ (Nat.two_pow_pos w)

@[simp] theorem joinLanes_nil (w : Nat) : joinLanes w [] = 0 := rfl

theorem joinLanes_cons (w a : Nat) (l : List Nat) : joinLanes w (a :: l) = a + 2 ^ w * joinLanes w l := by
  have up (x : Nat × Nat) : x.1 * 2 ^ (w * (x.2 + 1)) = 2 ^ w * (x.1 * 2 ^ (w * x.2)) := by
    rw [Nat.mul_succ, Nat.pow_add]
    ac_rfl
  simp only [joinLanes, List.zipIdx_cons', List.map_cons, List.map_map, List.sum_cons, Function.comp_def, Prod.map, id, up]
  simp [List.sum_map_mul_left]

theorem joinLanes_lt {w : Nat} {l : List Nat} (small : ∀ v ∈ l, v < 2 ^ w) : joinLanes w l < 2 ^ (w * l.length) := by
  induction l with
  | nil => simp
  | cons a l ih =>
    obtain ⟨ha, hl⟩ := List.forall_mem_cons.1 small
    rw [joinLanes_cons, List.length_cons, Nat.mul_succ, Nat.pow_add, Nat.mul_comm _ (2 ^ w)]
    calc a + 2 ^ w * joinLanes w l < 2 ^ w * (joinLanes w l + 1) := by rw [Nat.mul_succ]; omega
      _ ≤ 2 ^ w * 2 ^ (w * l.length) := Nat.mul_le_mul_left _ (ih hl)

/-- A lane of joined lanes is the lane that was joined there. -/
theorem joinLanes_lane {w : Nat} {l : List Nat} (small : ∀ v ∈ l, v < 2 ^ w) {j : Nat} (hj : j < l.length) :
    joinLanes w l / 2 ^ (w * j) % 2 ^ w = l.getD j 0 := by
  induction l generalizing j with
  | nil => simp at hj
  | cons a l ih =>
    obtain ⟨ha, hl⟩ := List.forall_mem_cons.1 small
    rw [joinLanes_cons]
    cases j with
    | zero => simp [Nat.mod_eq_of_lt ha]
    | succ j =>
      rw [Nat.mul_succ, Nat.add_comm (w * j), Nat.pow_add, ← Nat.div_div_eq_div_mul, Nat.add_mul_div_left _ _ (Nat.two_pow_pos w),
        Nat.div_eq_of_lt ha, Nat.zero_add, ih hl (by simpa using hj), List.getD_cons_succ]

/-! Active elements. -/

theorem spread_length (i n : Nat) (l : List (Nat × Nat)) : (spread i n l).length = n := by
  induction n generalizing i l with
  | zero => simp [spread]
  | succ n ih =>
    cases l with
    | nil => simp [spread, ih]
    | cons x l =>
      rw [spread]
      split <;> simp [ih]

/-- A value that is dealt to a place stands there. -/
theorem spread_getD_of_mem {i n : Nat} {l : List (Nat × Nat)} (rising : l.Pairwise fun x y => x.1 < y.1) (low : ∀ x ∈ l, i ≤ x.1)
    {j v : Nat} (hj : j < n) (hv : (i + j, v) ∈ l) : (spread i n l).getD j 0 = v := by
  induction n generalizing i j l with
  | zero => omega
  | succ n ih =>
    obtain _ | ⟨⟨k, u⟩, l⟩ := l
    · simp at hv
    obtain ⟨first, rest⟩ := List.pairwise_cons.1 rising
    rw [spread]
    split
    case isTrue here =>
      subst here
      rcases List.mem_cons.1 hv with e | later
      · obtain ⟨hk, rfl⟩ := Prod.mk.inj e
        obtain rfl : j = 0 := by omega
        rfl
      · have := first _ later
        obtain ⟨j, rfl⟩ : ∃ m, j = m + 1 := ⟨j - 1, by omega⟩
        exact ih rest (fun x hx => first x hx) (by omega) (by rwa [show k + 1 + j = k + (j + 1) by omega])
    case isFalse there =>
      have above : ∀ x ∈ (k, u) :: l, i + 1 ≤ x.1 := by
        have := low (k, u) (by simp)
        intro x hx
        rcases List.mem_cons.1 hx with rfl | hx
        · change i + 1 ≤ k
          omega
        · have := first x hx
          omega
      have := above _ hv
      obtain ⟨j, rfl⟩ : ∃ m, j = m + 1 := ⟨j - 1, by omega⟩
      exact ih rising above (by omega) (by rwa [show i + 1 + j = i + (j + 1) by omega])

/-- A place to which nothing is dealt holds zero. -/
theorem spread_getD_of_not_mem {i n j : Nat} {l : List (Nat × Nat)} (none : ∀ v, (i + j, v) ∉ l) : (spread i n l).getD j 0 = 0 := by
  induction n generalizing i j l with
  | zero => simp [spread]
  | succ n ih =>
    have next (j : Nat) (m : List (Nat × Nat)) (none : ∀ v, (i + (j + 1), v) ∉ m) : (spread (i + 1) n m).getD j 0 = 0 :=
      ih fun v hv => none v (by rwa [show i + (j + 1) = i + 1 + j by omega])
    obtain _ | ⟨⟨k, u⟩, l⟩ := l
    · cases j with
      | zero => rfl
      | succ j => exact next j _ none
    rw [spread]
    split
    case isTrue here =>
      cases j with
      | zero => exact absurd (List.mem_cons_self) (here ▸ none u)
      | succ j => exact next j l fun v hv => none v (List.mem_cons_of_mem _ hv)
    case isFalse =>
      cases j with
      | zero => rfl
      | succ j => exact next j _ none

theorem actBits_length (n : Nat) (act : List Nat) (full : Bool) : (actBits n act full).length = n := by
  unfold actBits
  split <;> simp [spread_length]

/-- An element is active where its number stands among those of the mask, or where every element is written (10_vector.md R295). -/
theorem actBits_getD {n : Nat} {act : List Nat} (rising : act.Pairwise (· < ·)) (full : Bool) {j : Nat} (hj : j < n) :
    (actBits n act full).getD j false = true ↔ full = true ∨ j ∈ act := by
  cases full with
  | true => simp [actBits, List.getD, hj]
  | false =>
    have bit : (actBits n act false).getD j false = ((spread 0 n (act.map fun i => (i, 1))).getD j 0 == 1) := by
      simp [actBits, List.getD, spread_length, hj]
    rw [bit]
    by_cases mem : j ∈ act
    · rw [spread_getD_of_mem (by simpa [List.pairwise_map] using rising) (fun _ _ => Nat.zero_le _) hj (v := 1) (by simpa using mem)]
      simp [mem]
    · rw [spread_getD_of_not_mem (by simpa using fun h => absurd h mem)]
      simp [mem]

theorem vActive_rising (w : VWord) (c : Core) (f : VForm) : (vActive w c f).Pairwise (· < ·) := by
  unfold vActive
  split
  · exact List.pairwise_lt_range
  · exact List.pairwise_lt_range.filter _

theorem mem_vActive {w : VWord} {c : Core} {f : VForm} {j : Nat} :
    j ∈ vActive w c f ↔ j < f.n ∧ (w.pred = 0#3 ∨ f.sel = true ∨ (c.rp w.pred).getLsbD j = true) := by
  unfold vActive
  split
  case isTrue all => simp [← or_assoc, all]
  case isFalse masked => simp [← or_assoc, masked]

theorem vActive_actBits {w : VWord} {c : Core} {f : VForm} {j : Nat} (hj : j < f.n) :
    (actBits f.n (vActive w c f) false).getD j false = true ↔ w.pred = 0#3 ∨ f.sel = true ∨ (c.rp w.pred).getLsbD j = true := by
  rw [actBits_getD (vActive_rising w c f) false hj, mem_vActive]
  simp [hj]

/-- The elements that a choice of a source names, in rising order. -/
theorem Lanes.idx_rising (r : Lanes) (n : Nat) {act : List Nat} (rising : act.Pairwise (· < ·)) : (r.idx n act).Pairwise (· < ·) := by
  cases r
  case none => exact List.Pairwise.nil
  case active => exact rising
  case all => exact List.pairwise_lt_range
  case first => exact List.pairwise_singleton _ _

theorem Lanes.idx_lt (r : Lanes) {n : Nat} (hn : 0 < n) {act : List Nat} (low : ∀ j ∈ act, j < n) : ∀ j ∈ r.idx n act, j < n := by
  cases r
  case none => simp [Lanes.idx]
  case active => exact low
  case all => simp [Lanes.idx]
  case first => simpa [Lanes.idx] using hn

/-! Operands. -/

/-- The sources of a word whose elements have passed their checks (10_vector.md R291, R295). -/
def vSources (s : State) (w : VWord) (k : Caps) (f : VForm) : VIn :=
  { a := if f.ra = .none then [] else sourceVals s w.a k f.wa f.n (wordAccs s w k f).2.1
    b := if f.rb = .none then [] else sourceVals s w.b k f.wb f.n (wordAccs s w k f).2.2
    d := if f.rd then sourceVals s w.d k f.wd f.n (wordAccs s w k f).1 else []
    act := actBits f.n (vActive w s.me f) false
    k := k, ctr := s.me.ctl.rngctr, key := s.me.ctl.rngkey }

@[simp] theorem vSources_act (s : State) (w : VWord) (k : Caps) (f : VForm) :
    (vSources s w k f).act = actBits f.n (vActive w s.me f) false := rfl

/-- Every element access of a word, destination first. -/
def allAccs (s : State) (w : VWord) (k : Caps) (f : VForm) : List Acc :=
  (wordAccs s w k f).1 ++ (wordAccs s w k f).2.1 ++ (wordAccs s w k f).2.2

/-- A word that goes on reads its sources. -/
theorem vSources_of_vRead {s : State} {w : VWord} {k : Caps} {f : VForm} {i : VIn} (h : vRead s w k f = .ok (some i)) :
    i = vSources s w k f := by
  simp only [vRead] at h
  iterate 6 (split at h; · cases h)
  cases h
  rfl

section
variable {s : State} {w : VWord} {k : Caps} {f : VForm} (pops : popsOf s.me w f = []) (unbound : boundDest s.me w.d = false)
include pops

theorem vRead_of_worst {t : Trap} (worst : worstFail s (allAccs s w k f) = some t) : vRead s w k f = .trap t s := by
  unfold allAccs at worst
  simp [-List.append_assoc, -List.find?_append, vRead, pops, popWait, popTrap, worst]

include unbound

theorem vRead_of_clean (passes : worstFail s (allAccs s w k f) = none) (free : anyHeld s (allAccs s w k f) = false)
    (clean : ∀ a ∈ allAccs s w k f, a.reads = true → s.poisoned (a.place s) a.n = false) :
    vRead s w k f = .ok (some (vSources s w k f)) := by
  have none : ((allAccs s w k f).find? fun a => a.reads && s.poisoned (a.place s) a.n) = none :=
    List.find?_eq_none.2 fun a ha => by simpa using clean a ha
  unfold allAccs at passes free none
  simp [-List.append_assoc, -List.find?_append, vRead, pops, popWait, popTrap, passes, free, unbound, none, vSources]

theorem vRead_of_poisoned (passes : worstFail s (allAccs s w k f) = none) (free : anyHeld s (allAccs s w k f) = false)
    {a : Acc} (mem : a ∈ allAccs s w k f) (reads : a.reads = true) (bad : s.poisoned (a.place s) a.n = true) :
    ∃ x, vRead s w k f = .trap (mkTrap .v 0x0D x) s := by
  obtain ⟨b, found⟩ : ∃ b, ((allAccs s w k f).find? fun a => a.reads && s.poisoned (a.place s) a.n) = some b :=
    Option.isSome_iff_exists.1 (List.find?_isSome.2 ⟨a, mem, by simp [reads, bad]⟩)
  unfold allAccs at passes free found
  exact ⟨b.x, by simp [-List.append_assoc, -List.find?_append, vRead, pops, popWait, popTrap, passes, free, unbound, found]⟩
end

/-! Words that compute. -/

/-- A V word that may run answers what it does with what it reads. -/
theorem vIssue_of_runs {s : State} {op : Instr} {w : VWord} {writesG : Bool} {run : State → List GVal → Res State} {l : List GVal}
    (captured : s.me.engCaptured .v = some l) (nest : s.me.nestV = none ∨ writesG = false) (free : s.me.maxx = none)
    (ready : vReady s op w l = true) : vIssue s op w writesG run = run (vAt s op l) l := by
  have legal : ¬(s.me.nestV.isSome = true ∧ writesG = true) := by
    rcases nest with h | h <;> simp [h]
  simp [vIssue, captured, legal, free, ready, vAt]

theorem vCompute_of_runs {s : State} {op : Instr} {w : VWord} {f : VForm} {l : List GVal} {i : VIn} (runs : VRuns s op w f l i)
    (comp : VIn → VOut) : vCompute s op w f comp = vFinish (vAt s op l) op w (capsOf (vFields w) l) l f (comp i) := by
  obtain ⟨captured, nest, free, ready, reads⟩ := runs
  rw [vCompute, vIssue_of_runs captured nest free ready]
  simp only [reads, Res.bind]

/-- The state in which a word that takes no trap of its flags completes (10_vector.md R304). -/
def vDone (s : State) (op : Instr) (w : VWord) (k : Caps) (l : List GVal) (f : VForm) (o : VOut) : State :=
  let far : Bool := !f.mem && (w.a.isLoc || w.b.isLoc)
  let s1 := writeDest (s.modMe fun c => c.modCtl fun r => { r with arflg := r.arflg ||| o.flags.setWidth 32 }) w f
    (actBits f.n (vActive w s.me f) f.full) (wordAccs s w k f).1 o (f.lat + (if far then 6 else 0))
  let s2 := s1.modMe fun c => c.modCtl fun r => { r with rngctr := r.rngctr + BitVec.ofNat 128 o.adv }
  let s3 := s2.modMe fun c =>
    postBump (postBump (postBump c w.d k.d f.n (f.wd / 8)) w.a k.a f.n (f.wa / 8)) w.b k.b f.n (f.wb / 8)
  ((popsOf s.me w f).foldl popStrip s3).modMe fun c => c.pastWord w.bumps op l

section
variable (s : State) (op : Instr) (w : VWord) (k : Caps) (l : List GVal) (f : VForm) (o : VOut)

theorem vFinish_of_trapped (trapped : o.flags.setWidth 32 &&& (s.me.ctl.arflg >>> 16) &&& 0x3F#32 ≠ 0#32) :
    vFinish s op w k l f o = .trap (mkTrap .v 0x0B 0#64)
      (s.modMe fun c => c.modCtl fun r => { r with arflg := r.arflg ||| o.flags.setWidth 32 }) := if_pos trapped

theorem vFinish_of_untrapped (free : ¬o.flags.setWidth 32 &&& (s.me.ctl.arflg >>> 16) &&& 0x3F#32 ≠ 0#32) :
    vFinish s op w k l f o = .ok (vDone s op w k l f o) := if_neg free

variable {s}

theorem vFinish_of_masked (masked : FlagsMasked s) : vFinish s op w k l f o = .ok (vDone s op w k l f o) :=
  vFinish_of_untrapped s op w k l f o fun trapped => trapped <| by
    unfold FlagsMasked at masked
    rw [BitVec.and_assoc, masked, BitVec.and_zero]
end

/-- A word that is a computation, and may run with no flag enabled, ends with what it has computed. -/
theorem vEnds_of_runs {s : State} {op : Instr} {w : VWord} {f : VForm} {l : List GVal} {i : VIn} {comp : VIn → VOut}
    (computes : exec op s = settleE .v s (vCompute s op w f comp)) (runs : VRuns s op w f l i) (masked : FlagsMasked (vAt s op l)) :
    VEnds s op w f l (comp i) := by
  have ends := vFinish_of_masked op w (capsOf (vFields w) l) l f (comp i) masked
  refine ⟨_, ?_, ends⟩
  rw [computes, vCompute_of_runs runs, ends]
  rfl

/-- Of what a word that runs reads: how many activity bits it has, and its captured values. -/
theorem VRuns.act_length {s : State} {op : Instr} {w : VWord} {f : VForm} {l : List GVal} {i : VIn} (runs : VRuns s op w f l i) :
    i.act.length = f.n := by
  obtain ⟨-, -, -, -, reads⟩ := runs
  rw [vSources_of_vRead reads, vSources_act, actBits_length]

theorem VRuns.caps {s : State} {op : Instr} {w : VWord} {f : VForm} {l : List GVal} {i : VIn} (runs : VRuns s op w f l i) :
    i.k = capsOf (vFields w) l := by
  obtain ⟨-, -, -, -, reads⟩ := runs
  rw [vSources_of_vRead reads]
  rfl

end Sys2Proof.Machine
end

section
/-! PROOF. The element-wise V words (10_vector.md R305 to R315; 03_numbers.md R82), and obligation O37. -/

namespace Sys2Proof.Machine

theorem getLsbD_foldl_or {α : Type} {n : Nat} (f : α → BitVec n) (l : List α) (z : BitVec n) (b : Nat) :
    (l.foldl (fun a x => a ||| f x) z).getLsbD b = true ↔ z.getLsbD b = true ∨ ∃ x ∈ l, (f x).getLsbD b = true := by
  induction l generalizing z with
  | nil => simp
  | cons x l ih => simp [ih, or_assoc]

section
variable {i : VIn} {n : Nat} (f : Nat → Nat → Nat → Nat → Nat × BitVec 6)

/-- Element j of a computation and its flags: the function of element j of the sources where it is active, and zero where not. -/
def elementOf (i : VIn) (f : Nat → Nat → Nat → Nat → Nat × BitVec 6) (j : Nat) : Nat × BitVec 6 :=
  if i.act.getD j false then f j (i.a.getD j 0) (i.b.getD j 0) (i.d.getD j 0) else (0, 0#6)

variable (act : i.act.length = n)
include act

theorem elementwise_eq : elementwise i n f =
    (((List.range n).map (elementOf i f)).map (·.1), ((List.range n).map (elementOf i f)).foldl (fun a x => a ||| x.2) 0#6) := by
  have same : ((List.range n).zip i.act).map (fun x => if x.2 then f x.1 (i.a.getD x.1 0) (i.b.getD x.1 0) (i.d.getD x.1 0) else (0, 0#6)) =
      (List.range n).map (elementOf i f) := by
    refine List.ext_getElem (by simp [act]) fun j hj _ => ?_
    have hj : j < i.act.length := by simp_all
    simp [elementOf, List.getD, hj]
  simp only [elementwise, same]

theorem elementwise_length : (elementwise i n f).1.length = n := by simp [elementwise_eq f act]

theorem elementwise_getD {j : Nat} (hj : j < n) : (elementwise i n f).1.getD j 0 = (elementOf i f j).1 := by
  simp [elementwise_eq f act, List.getD, hj]

theorem elementwise_flag (b : Nat) : (elementwise i n f).2.getLsbD b = true ↔ ∃ j, j < n ∧ (elementOf i f j).2.getLsbD b = true := by
  simp [elementwise_eq f act, getLsbD_foldl_or (fun x : Nat × BitVec 6 => x.2)]
end

/-- A word of a form completes with the elements that a function gives, those that are active and no others, and with their flags
(03_numbers.md R82): what O37 states of each entry of its table. -/
def ComputesEach (s : State) (w : VWord) (l : List GVal) (i : VIn)
    (e : Instr × VForm × Nat × (Nat → Nat → Nat → Nat → Nat × BitVec 6)) : Prop :=
  VRuns s e.1 w e.2.1 l i → FlagsMasked (vAt s e.1 l) →
    ∃ o, VEnds s e.1 w e.2.1 l o ∧ o.adv = e.2.2.1 ∧ o.whole = none ∧ o.res.length = e.2.1.n ∧
      (∀ j, j < e.2.1.n → o.res.getD j 0 =
        if i.act.getD j false then (e.2.2.2 j (i.a.getD j 0) (i.b.getD j 0) (i.d.getD j 0)).1 else 0) ∧
      ∀ b, o.flags.getLsbD b = true ↔ ∃ j, j < e.2.1.n ∧ i.act.getD j false = true ∧
        (e.2.2.2 j (i.a.getD j 0) (i.b.getD j 0) (i.d.getD j 0)).2.getLsbD b = true

section
variable {s : State} {w : VWord} {l : List GVal} {i : VIn} {op : Instr} {f : VForm} {draws : Nat}
  {h : Nat → Nat → Nat → Nat → Nat × BitVec 6}

/-- A word whose meaning is an element-wise computation by a function that agrees with another computes what that one gives. -/
theorem computesEach_of_vMap {g : VIn → Nat → Nat → Nat → Nat → Nat × BitVec 6} (means : exec op s = vMap s op w f draws g)
    (agree : ∀ j a b d, g i j a b d = h j a b d) : ComputesEach s w l i (op, f, draws, h) := fun runs masked => by
  obtain rfl : g i = h := by
    funext j a b d
    exact agree j a b d
  have act := runs.act_length
  refine ⟨_, vEnds_of_runs means runs masked, rfl, rfl, elementwise_length (g i) act, fun j hj => ?_, fun b => ?_⟩
  · rw [elementwise_getD (g i) act hj, elementOf]
    split <;> rfl
  · rw [elementwise_flag (g i) act b]
    refine exists_congr fun j => and_congr_right fun _ => ?_
    rw [elementOf]
    split
    case isTrue on => exact (and_iff_right on).symm
    case isFalse off => exact iff_of_false (by simp) fun on => off on.1

/-- VSLIDE copies the element that stands its amount further on, and zero where none does (10_vector.md R313). -/
theorem exec_vslide : exec (.vslide w) s = vMap s (.vslide w) w (vForm w .all .first 2) 0 fun i j _ _ _ =>
    let k : Int := (j : Int) + (BitVec.ofNat w.width (i.b.getD 0 0)).toInt
    (if 0 ≤ k ∧ k < w.lanes then i.a.getD k.toNat 0 else 0, 0#6) := by
  change vMap s (.vslide w) w (vForm w .all .first 2) 0 _ = _
  congr
  funext i j _ _ _
  dsimp only
  split_ifs <;> rfl

/-- VCVT to a format that is no block format is element-wise (10_vector.md R309). -/
theorem exec_vcvt_of_elements {m : Nat} (code : w.cvtCode.toNat = m) (plain : blockM m = none) : exec (.vcvt w) s =
    vMap s (.vcvt w) w
      { n := 1024 / max w.width (fmtBits m), wd := fmtBits m, wa := w.width, wb := w.width, ra := .active, rb := .none, lat := 4 }
      (w.draws (1024 / max w.width (fmtBits m))) fun i j a _ _ => convert w.fmtN m a (i.mode w j) := by
  subst code
  change execVcvt w s = _
  simp only [execVcvt, plain]
end

/-- Settles O37: every entry of the table is the meaning of its word. -/
theorem vectorElements : Obligations.VectorElements := by
  unfold Obligations.VectorElements
  intro s w l i N W two one r ar plain special code q
  change ∀ e ∈ _, ComputesEach s w l i e
  refine List.forall_mem_append.2 ⟨List.forall_mem_append.2 ⟨List.forall_mem_append.2 ⟨List.forall_mem_append.2
    ⟨?rounding, ?plain⟩, ?special⟩, ?moves⟩, ?conversion⟩
  case rounding =>
    simp only [List.forall_mem_cons, List.not_mem_nil, false_imp_iff, implies_true, and_true]
    and_intros <;> exact computesEach_of_vMap rfl fun _ _ _ _ => rfl
  case plain =>
    simp only [List.forall_mem_cons, List.not_mem_nil, false_imp_iff, implies_true, and_true]
    and_intros <;> exact computesEach_of_vMap rfl fun _ _ _ _ => rfl
  case special =>
    simp only [List.forall_mem_cons, List.not_mem_nil, false_imp_iff, implies_true, and_true]
    and_intros <;> exact computesEach_of_vMap rfl fun _ _ _ _ => rfl
  case moves =>
    simp only [List.forall_mem_cons, List.not_mem_nil, false_imp_iff, implies_true, and_true]
    refine ⟨?_, ?_, ?slide, ?_, ?_, ?_⟩
    case slide => exact computesEach_of_vMap exec_vslide fun _ _ _ _ => rfl
    all_goals exact computesEach_of_vMap rfl fun _ _ _ _ => rfl
  case conversion =>
    split
    case isTrue plain =>
      exact List.forall_mem_singleton.2
        (computesEach_of_vMap (exec_vcvt_of_elements rfl (Option.isNone_iff_eq_none.1 plain)) fun _ _ _ _ => rfl)
    case isFalse => exact List.forall_mem_nil _
end Sys2Proof.Machine
end

section
/-! PROOF. The other V words (10_vector.md R310, R312, R316 to R320, R322), and obligation O38. -/

namespace Sys2Proof.Machine

/-! Reductions. -/

/-- The live elements of a list folded in ascending order, with the flags of every step; a value where none is live. -/
def foldLive (empty : Nat) (g : Nat → Nat → Nat × BitVec 6) : List Nat → Nat × BitVec 6
  | [] => (empty, 0#6)
  | x :: t => t.foldl (fun y z => ((g y.1 z).1, y.2 ||| (g y.1 z).2)) (x, 0#6)

section
variable (empty : Nat) (g : Nat → Nat → Nat × BitVec 6)

/-- The elements of a list that are active. -/
def liveOf (l : List (Nat × Bool)) : List Nat := (l.filter (·.2)).map (·.1)

theorem reduceLanes_some (l : List (Nat × Bool)) (y : Nat) (fl : BitVec 6) : reduceLanes empty g l (some y) fl =
    (liveOf l).foldl (fun y z => ((g y.1 z).1, y.2 ||| (g y.1 z).2)) (y, fl) := by
  induction l generalizing y fl with
  | nil => rfl
  | cons x l ih =>
    obtain ⟨x, act⟩ := x
    cases act with
    | false => exact ih y fl
    | true => exact ih (g y x).1 (fl ||| (g y x).2)

/-- A reduction folds the active elements in ascending order (10_vector.md R312). -/
theorem reduceLanes_none (l : List (Nat × Bool)) : reduceLanes empty g l none 0#6 = foldLive empty g (liveOf l) := by
  induction l with
  | nil => rfl
  | cons x l ih =>
    obtain ⟨x, act⟩ := x
    cases act with
    | false => exact ih
    | true => exact reduceLanes_some empty g l x 0#6

/-- What a reduction computes: the fold of the live elements in lane 0, and zero in every other (10_vector.md R312). -/
def reducedOut (w : VWord) (i : VIn) : VOut :=
  { res := (foldLive empty g (liveOf (i.a.zip i.act))).1 :: List.replicate (w.lanes - 1) 0
    flags := (foldLive empty g (liveOf (i.a.zip i.act))).2 }

theorem vEnds_of_vReduce {s : State} {op : Instr} {w : VWord} {l : List GVal} {i : VIn}
    (means : exec op s = vReduce s op w empty g) (runs : VRuns s op w { vForm w .active .none 8 with full := true } l i)
    (masked : FlagsMasked (vAt s op l)) :
    VEnds s op w { vForm w .active .none 8 with full := true } l (reducedOut empty g w i) := by
  rw [reducedOut, ← reduceLanes_none]
  exact vEnds_of_runs (comp := fun i =>
    let r := reduceLanes empty g (i.a.zip i.act) none 0#6
    { res := r.1 :: List.replicate (w.lanes - 1) 0, flags := r.2 }) means runs masked
end

/-! Block conversion. -/

/-- VCVT to a block format makes 32 elements a block (10_vector.md R310). -/
theorem exec_vcvt_of_blocks {s : State} {w : VWord} {m : Nat} (block : blockM w.cvtCode.toNat = some m) : exec (.vcvt w) s =
    settleE .v s (vCompute s (.vcvt w) w (vForm w .active .none 4) fun i =>
      let r := blocksOf i w m (if w.cap1 = 0#6 then [] else [unpack 10 (i.k.c1.bits.toNat % 2 ^ 32)]) (w.lanes / 32) 0
      { res := [], whole := some (leNat r.1), flags := r.2, adv := w.draws w.lanes }) := by
  change execVcvt w s = _
  simp only [execVcvt, block]
  rfl

/-! Words that write the general file. -/

theorem exec_of_vToG {s : State} {op : Instr} {w : VWord} {f : VForm} {val : VIn → Nat} {l : List GVal} {i : VIn}
    (means : exec op s = vToG s op w f val) (captured : s.me.engCaptured .v = some l) (nest : s.me.nestV = none)
    (free : s.me.maxx = none) (ready : vReady s op w l = true) (reads : vRead (vAt s op l) w (capsOf (vDestFields w) l) f = .ok (some i))
    (pops : popsOf (vAt s op l).me w f = []) : exec op s = .next ((vAt s op l).modMe fun c =>
      (c.wg w.cap1 (GVal.ofNat (val i))).pastWord true op l) := by
  rw [means, vToG, vIssue_of_runs captured (.inl nest) free ready]
  simp only [reads, Res.bind, pops, List.foldl_nil, settleE, State.modMe_modMe]
  rfl

theorem onlyMe_modMe (s : State) (f : Core → Core) : OnlyMe s (s.modMe f) := by
  rw [OnlyMe, State.me_modMe]
  rfl

theorem sameBytes_modMe (s : State) (f : Core → Core) : SameBytes s (s.modMe f) := fun _ => rfl

/-- A word that writes register cap1 changes nothing else of the general file, no byte of memory and no control register. -/
theorem writesG_frame (u : State) (w : VWord) (n : Nat) (op : Instr) (l : List GVal) :
    let t : State := u.modMe fun c => (c.wg w.cap1 (GVal.ofNat n)).pastWord true op l
    OnlyMe u t ∧ SameBytes u t ∧ (w.cap1 ≠ 0#6 → t.me.rg w.cap1 = { bits := BitVec.ofNat 128 n, tag := false }) ∧
      (∀ j, j ≠ w.cap1 → t.me.rg j = u.me.rg j) ∧ (u.me.nestV = none → t.me.pcV = u.me.pcV + 12#64) ∧ t.me.ctl = u.me.ctl := by
  refine ⟨onlyMe_modMe u _, sameBytes_modMe u _, fun hd => ?_, fun j hj => ?_, fun nest => ?_, ?_⟩
  · rw [State.me_modMe, Core.pastWord_rg, Core.rg_wg_self _ hd]
    rfl
  · rw [State.me_modMe, Core.pastWord_rg, Core.rg_wg_other _ hj]
  · rw [State.me_modMe, Core.pastWord_pcV _ _ _ _ (by simpa using nest), Core.wg_pcV]
  · rw [State.me_modMe, Core.pastWord_ctl, Core.wg_ctl]

/-! VMAXX. -/

section
variable {s : State} {w : VWord} {l : List GVal} {i : VIn}

theorem exec_vmaxx_of_runs (runs : VRuns s (.vmaxx w) w (maxxForm w) l i) :
    exec (.vmaxx w) s = settleE .v s (
      if (vAt s (.vmaxx w) l).me.ctl.scgrp.getLsbD 31 = false then
        vFinish (vAt s (.vmaxx w) l) (.vmaxx w) w (capsOf (vFields w) l) l (maxxForm w) { res := i.a }
      else
        let u := vAt s (.vmaxx w) l
        let x := maxxSend u.me u.rank w i.a
        .ok ({ u with maxx := u.maxx ++ [x] }.modMe fun c =>
          { c.modCtl fun q => { q with scgrp := setField q.scgrp 16 8 (field q.scgrp 16 8 + 1) } with
            maxx := some { op := .vmaxx w, caps := l, round := x.round, waited := 0 } })) := by
  obtain ⟨captured, nest, free, ready, reads⟩ := runs
  change settleE .v s (vIssue s (.vmaxx w) w w.bumps _) = _
  rw [vIssue_of_runs captured nest free ready]
  simp only [reads, Res.bind]

/-- Outside a group VMAXX copies A (10_vector.md R322). -/
theorem vEnds_vmaxx_of_alone (runs : VRuns s (.vmaxx w) w (maxxForm w) l i) (masked : FlagsMasked (vAt s (.vmaxx w) l))
    (alone : (vAt s (.vmaxx w) l).me.ctl.scgrp.getLsbD 31 = false) : VEnds s (.vmaxx w) w (maxxForm w) l { res := i.a } := by
  have ends := vFinish_of_masked (.vmaxx w) w (capsOf (vFields w) l) l (maxxForm w) { res := i.a } masked
  refine ⟨_, ?_, ends⟩
  rw [exec_vmaxx_of_runs runs, if_pos alone, ends]
  rfl

/-- The state in which a VMAXX has sent its contribution to its group and waits (10_vector.md R322). -/
def maxxWaits (u : State) (w : VWord) (l : List GVal) (a : List Nat) : State :=
  { u with maxx := u.maxx ++ [maxxSend u.me u.rank w a] }.modMe fun c =>
    { c.modCtl fun q => { q with scgrp := setField q.scgrp 16 8 (field q.scgrp 16 8 + 1) } with
      maxx := some { op := .vmaxx w, caps := l, round := (maxxSend u.me u.rank w a).round, waited := 0 } }

theorem exec_vmaxx_of_group (runs : VRuns s (.vmaxx w) w (maxxForm w) l i)
    (used : (vAt s (.vmaxx w) l).me.ctl.scgrp.getLsbD 31 = true) :
    exec (.vmaxx w) s = .next (maxxWaits (vAt s (.vmaxx w) l) w l i.a) := by
  rw [exec_vmaxx_of_runs runs, if_neg (by simp [used])]
  rfl

theorem maxxSend_round (c : Core) (r : Nat) (w : VWord) (a : List Nat) : (maxxSend c r w a).round.toNat = field c.ctl.scgrp 16 8 := by
  rw [maxxSend, BitVec.toNat_ofNat, field, Nat.mod_mod]

theorem maxxWaits_me (u : State) (w : VWord) (l : List GVal) (a : List Nat) :
    (maxxWaits u w l a).me.maxx.isSome = true ∧ (maxxWaits u w l a).me.v = u.me.v ∧
      field (maxxWaits u w l a).me.ctl.scgrp 16 8 = (field u.me.ctl.scgrp 16 8 + 1) % 256 := by
  rw [maxxWaits, State.me_modMe]
  exact ⟨rfl, rfl, field_setField _ _ (by decide)⟩
end

/-- Settles O38, family by family: the folds of the reductions (`reducedOut`), the draws of VRNG, the moves, the block
conversions, the lane that VMOVGS writes, VMAXX outside and inside a group, and the words whose result is a general register. -/
theorem vectorWords : Obligations.VectorWords := by
  unfold Obligations.VectorWords
  intro s w l i N W one k fold runs
  have folds (empty : Nat) (g : Nat → Nat → Nat × BitVec 6) : fold empty g = reducedOut empty g w i := rfl
  simp only [folds]
  refine ⟨⟨fun h => vEnds_of_vReduce _ _ rfl h.1 h.2, fun h => vEnds_of_vReduce _ _ rfl h.1 h.2,
    fun h => vEnds_of_vReduce _ _ rfl h.1 h.2⟩, ?draws, ?moves, ?blocks, ?vmovgs, ?vmaxx, ?general⟩
  case draws =>
    exact fun h => vEnds_of_runs (comp := fun i => { res := lanesOf (randomReg i.ctr i.key) w.width w.lanes, adv := 8 }) rfl h.1 h.2
  case moves =>
    simp only [List.forall_mem_cons, List.not_mem_nil, false_imp_iff, implies_true, and_true]
    and_intros <;> exact fun h => vEnds_of_runs (comp := fun i => { res := i.a }) rfl h.1 h.2
  case blocks =>
    intro m block h
    have ends := vEnds_of_runs (exec_vcvt_of_blocks block) h.1 h.2
    simp only [h.1.caps] at ends
    exact ends
  case vmovgs =>
    intro h
    have ends := vEnds_of_runs
      (comp := fun i => { res := i.d.set (i.k.c2.bits.toNat % w.lanes) (i.k.c1.bits.toNat % 2 ^ w.width) }) rfl h.1 h.2
    simp only [h.1.caps] at ends
    exact ends
  case vmaxx =>
    intro h
    refine ⟨vEnds_vmaxx_of_alone h.1 h.2, fun used => ?_⟩
    obtain ⟨waits, v, round⟩ := maxxWaits_me (vAt s (.vmaxx w) l) w l i.a
    exact ⟨_, _, exec_vmaxx_of_group h.1 used, List.mem_append_right _ (List.mem_singleton_self _), rfl, rfl, rfl,
      maxxSend_round _ _ _ _, waits, v, round⟩
  case general =>
    refine ⟨fun ⟨captured, nest, free, ready, reads, pops⟩ => ⟨_, exec_of_vToG rfl captured nest free ready reads pops, ?lane⟩,
      fun ⟨captured, nest, free, ready, reads, pops⟩ =>
        ⟨_, exec_of_vToG rfl captured nest free ready reads pops, writesG_frame _ w _ _ l⟩⟩
    have caps : i.k = capsOf (vDestFields w) l := by rw [vSources_of_vRead reads]; rfl
    rw [caps]
    exact writesG_frame _ w _ _ l

end Sys2Proof.Machine
end

section
/-! PROOF. What V words read of their operands (10_vector.md R291, R292, R295), and obligation O39. -/

namespace Sys2Proof.Machine

/-! The failure of highest precedence. -/

/-- One element more in the search for the failure of highest precedence, as `worstFail` folds it. -/
def worstStep (s : State) (o : Option (Nat × Trap)) (a : Acc) : Option (Nat × Trap) :=
  match a.check s with
  | .trap t _ =>
    (match o with
     | some (i, u) => if t.cause.toNat < u.cause.toNat ∨ (t.cause = u.cause ∧ a.i < i) then some (a.i, t) else o
     | none => some (a.i, t))
  | _ => o

theorem worstFail_eq (s : State) (l : List Acc) : worstFail s l = (l.foldl (worstStep s) none).map (·.2) := rfl

/-- A failure of an element goes before another: its cause is lower, or equal and its element no higher (10_vector.md R292). -/
def GoesBefore (p q : Nat × Trap) : Prop := p.2.cause.toNat < q.2.cause.toNat ∨ p.2.cause = q.2.cause ∧ p.1 ≤ q.1

theorem GoesBefore.refl (p : Nat × Trap) : GoesBefore p p := .inr ⟨rfl, le_rfl⟩

theorem GoesBefore.trans {p q r : Nat × Trap} (h : GoesBefore p q) (h' : GoesBefore q r) : GoesBefore p r := by
  unfold GoesBefore at *
  rcases h with h | ⟨h, hi⟩ <;> rcases h' with h' | ⟨h', hi'⟩
  · exact .inl (h.trans h')
  · exact .inl (h' ▸ h)
  · exact .inl (h ▸ h')
  · exact .inr ⟨h.trans h', hi.trans hi'⟩

section
variable {s : State} {a : Acc}

theorem worstStep_of_passes (passes : ∀ t u, a.check s ≠ .trap t u) (o : Option (Nat × Trap)) : worstStep s o a = o := by
  unfold worstStep
  split
  case h_1 t u h => exact absurd h (passes t u)
  case h_2 => rfl

/-- After an element that fails, the one held goes before it and before the one that was held, and is one of the two. -/
theorem worstStep_of_trap {t : Trap} {u : State} (fails : a.check s = .trap t u) (o : Option (Nat × Trap)) :
    ∃ p, worstStep s o a = some p ∧ (p = (a.i, t) ∨ o = some p) ∧ GoesBefore p (a.i, t) ∧ ∀ q, o = some q → GoesBefore p q := by
  simp only [worstStep, fails]
  cases o with
  | none => exact ⟨_, rfl, .inl rfl, .refl _, by simp⟩
  | some q =>
    obtain ⟨i, x⟩ := q
    dsimp only
    split
    case isTrue first =>
      refine ⟨_, rfl, .inl rfl, .refl _, fun q hq => ?_⟩
      cases hq
      exact first.imp_right fun h => ⟨h.1, h.2.le⟩
    case isFalse later =>
      refine ⟨_, rfl, .inr rfl, ?_, fun q hq => by cases hq; exact .refl _⟩
      unfold GoesBefore
      have same (h : t.cause.toNat = x.cause.toNat) : x.cause = t.cause := (BitVec.eq_of_toNat_eq h).symm
      by_cases eq : x.cause = t.cause
      · exact .inr ⟨eq, not_lt.1 fun h => later (.inr ⟨eq.symm, h⟩)⟩
      · exact .inl (lt_of_le_of_ne (not_lt.1 fun h => later (.inl h)) fun h => eq (same h.symm))
end

section
variable {s : State} {l : List Acc}

/-- The failure that a fold holds goes before every failure of its list and before the one that it held at first, and is one of
them. -/
theorem worst_foldl {o : Option (Nat × Trap)} (fails : o ≠ none ∨ ∃ a ∈ l, ∃ t u, a.check s = .trap t u) :
    ∃ p, l.foldl (worstStep s) o = some p ∧ (o = some p ∨ ∃ b ∈ l, b.i = p.1 ∧ ∃ v, b.check s = .trap p.2 v) ∧
      (∀ q, o = some q → GoesBefore p q) ∧ ∀ a ∈ l, ∀ t u, a.check s = .trap t u → GoesBefore p (a.i, t) := by
  induction l generalizing o with
  | nil =>
    obtain ⟨p, rfl⟩ := Option.ne_none_iff_exists'.1 (fails.resolve_right (by simp))
    exact ⟨p, rfl, .inl rfl, fun q hq => Option.some.inj hq ▸ .refl _, by simp⟩
  | cons a l ih =>
    rw [List.foldl_cons]
    by_cases trap : ∃ t u, a.check s = .trap t u
    · obtain ⟨t, u, trap⟩ := trap
      obtain ⟨p, step, from_, beats, beatsOld⟩ := worstStep_of_trap trap o
      obtain ⟨q, result, found, before, rest⟩ := ih (o := worstStep s o a) (.inl (by simp [step]))
      refine ⟨q, result, ?_, fun r hr => (before p step).trans (beatsOld r hr), List.forall_mem_cons.2 ⟨fun t' u' h => ?_, rest⟩⟩
      · rcases found with held | ⟨b, hb, fails⟩
        · obtain rfl : p = q := Option.some.inj (step.symm.trans held)
          exact from_.symm.imp_right fun h => ⟨a, List.mem_cons_self, by rw [h], u, by rw [h]; exact trap⟩
        · exact .inr ⟨b, List.mem_cons_of_mem _ hb, fails⟩
      · obtain ⟨rfl, -⟩ := Res.trap.inj (trap.symm.trans h)
        exact (before p step).trans beats
    · have passes : ∀ t u, a.check s ≠ .trap t u := fun t u h => trap ⟨t, u, h⟩
      rw [worstStep_of_passes passes]
      obtain ⟨p, result, found, before, rest⟩ := ih (o := o) (fails.imp_right fun ⟨b, hb, h⟩ => by
        rcases List.mem_cons.1 hb with rfl | hb
        · exact absurd h trap
        · exact ⟨b, hb, h⟩)
      exact ⟨p, result, found.imp_right fun ⟨b, hb, h⟩ => ⟨b, List.mem_cons_of_mem _ hb, h⟩, before,
        List.forall_mem_cons.2 ⟨fun t u h => absurd h (passes t u), rest⟩⟩

theorem worstFail_of_trap {a : Acc} (mem : a ∈ l) {t : Trap} {u : State} (fails : a.check s = .trap t u) :
    ∃ x, worstFail s l = some x ∧ x.cause.toNat ≤ t.cause.toNat ∧
      ∃ b ∈ l, (∃ v, b.check s = .trap x v) ∧ (x.cause = t.cause → b.i ≤ a.i) := by
  obtain ⟨p, result, found, -, before⟩ := worst_foldl (o := none) (.inr ⟨a, mem, t, u, fails⟩)
  obtain ⟨b, hb, number, v, trap⟩ := found.resolve_left (by simp)
  have first := before a mem t u fails
  refine ⟨p.2, by rw [worstFail_eq, result]; rfl, ?_, b, hb, ⟨v, trap⟩, fun same => ?_⟩
  · exact first.elim Nat.le_of_lt fun h => (congrArg BitVec.toNat h.1).le
  · exact number ▸ first.elim (fun h => absurd (congrArg BitVec.toNat same) h.ne) And.right

theorem worstFail_of_ok (passes : ∀ a ∈ l, ∃ x, a.check s = .ok x) : worstFail s l = none := by
  have stays : l.foldl (worstStep s) none = none := by
    induction l with
    | nil => rfl
    | cons a l ih =>
      obtain ⟨⟨x, ok⟩, rest⟩ := List.forall_mem_cons.1 passes
      rw [List.foldl_cons, worstStep_of_passes (by simp [ok]), ih rest]
  rw [worstFail_eq, stays]
  rfl

theorem anyHeld_of_ok (passes : ∀ a ∈ l, ∃ x, a.check s = .ok x) : anyHeld s l = false := by
  refine List.any_eq_false.2 fun a ha => ?_
  obtain ⟨x, ok⟩ := passes a ha
  simp [ok]
end

/-! Elements in local memory. -/

section
variable {c : Core} {sp : VSpec} {cap : GVal} {b : Nat} {need : BitVec 12} {idx : List Nat} {gather : Option (List Nat)}

theorem locAccs_of_register (h : sp.isLoc = false) : locAccs c sp cap b need idx gather = [] := by
  cases sp
  case loc => exact Bool.noConfusion h
  all_goals rfl

/-- The accesses of a local specifier go by its elements, in their order. -/
theorem locAccs_numbers (h : sp.isLoc = true) : (locAccs c sp cap b need idx gather).map (·.i) = idx := by
  cases sp
  case loc => exact (List.map_map ..).trans (List.map_id idx)
  all_goals exact Bool.noConfusion h
end

/-- The accesses of the first source, when it lies in local memory, go by the elements that the word reads of it. -/
theorem wordAccs_numbers {s : State} {w : VWord} {k : Caps} {f : VForm} (h : w.a.isLoc = true) :
    (wordAccs s w k f).2.1.map (·.i) = f.ra.idx f.n (vActive w s.me f) := locAccs_numbers h

theorem wordAccs_of_registers {s : State} {w : VWord} (registers : w.local_ = false) (k : Caps) (f : VForm) :
    wordAccs s w k f = ([], [], []) := by
  simp only [VWord.local_, Bool.or_eq_false_iff] at registers
  obtain ⟨⟨hd, ha⟩, hb⟩ := registers
  simp only [wordAccs, locAccs_of_register hd, locAccs_of_register ha, locAccs_of_register hb]

/-- An element of a source in local memory is what memory holds at its own address (10_vector.md R292). -/
theorem sourceVals_of_local {s : State} {sp : VSpec} {k : Caps} {wd n : Nat} {l : List Acc} (h : sp.isLoc = true)
    (rising : (l.map (·.i)).Pairwise (· < ·)) {a : Acc} (mem : a ∈ l) (low : a.i < n) :
    (sourceVals s sp k wd n l).getD a.i 0 = s.mem.readNat (a.place s) a.n := by
  cases sp
  case loc =>
    refine spread_getD_of_mem ?_ (fun _ _ => Nat.zero_le _) low ?_
    · simpa [List.pairwise_map] using rising
    · exact List.mem_map.2 ⟨a, mem, by rw [Nat.zero_add]⟩
  all_goals exact Bool.noConfusion h

/-! Registers. -/

theorem boundSource_of_no_pops {c : Core} {w : VWord} {f : VForm} (pops : popsOf c w f = []) :
    boundSource c w.a f.ra = [] ∧ boundSource c w.b f.rb = [] := by
  unfold popsOf at pops
  cases h : boundSource c w.a f.ra ++ boundSource c w.b f.rb with
  | nil => exact List.append_eq_nil_iff.1 h
  | cons x l => simp [h, List.eraseDups_cons] at pops

/-- Element j of a source in registers: a lane of a vector register, the low bits of a capture register, or a bit of a predicate
register (10_vector.md R291). -/
def registerElement (c : Core) (k : Caps) (sp : VSpec) (wd j : Nat) : Nat := match sp with
  | .vreg v => (c.rv v).toNat / 2 ^ (wd * j) % 2 ^ wd
  | .cap1 => k.c1.bits.toNat % 2 ^ wd
  | .cap2 => k.c2.bits.toNat % 2 ^ wd
  | .preg p => (c.rp p).toNat / 2 ^ j % 2
  | .loc _ _ _ _ => 0

theorem sourceVals_of_register {s : State} {sp : VSpec} {k : Caps} {wd n j : Nat} {l : List Acc} (register : sp.isLoc = false)
    (unbound : ∀ v, sp = .vreg v → s.me.boundReg v = none) (hj : j < n) :
    (sourceVals s sp k wd n l).getD j 0 = registerElement s.me k sp wd j := by
  cases sp
  case vreg v => rw [sourceVals, lanesOf_getD _ _ hj, regSource, unbound v rfl, registerElement]
  case cap1 => simp [sourceVals, registerElement, List.getD, hj]
  case cap2 => simp [sourceVals, registerElement, List.getD, hj]
  case preg p => rw [sourceVals, lanesOf_getD _ _ hj, Nat.one_mul, Nat.pow_one, registerElement]
  case loc => exact Bool.noConfusion register

theorem unbound_of_boundSource {c : Core} {sp : VSpec} {r : Lanes} (h : boundSource c sp r = []) (reads : r ≠ .none) :
    ∀ v, sp = .vreg v → c.boundReg v = none := fun v hv => by
  subst hv
  cases r
  case none => exact absurd rfl reads
  all_goals simpa [boundSource] using h

theorem unbound_of_boundDest {c : Core} {sp : VSpec} (h : boundDest c sp = false) : ∀ v, sp = .vreg v → c.boundReg v = none :=
  fun v hv => by
    subst hv
    simpa [boundDest] using h

/-- Settles O39: with register operands there is no element to check, and otherwise the failures and the poison of the elements
decide, and then their bytes are read. -/
theorem vectorOperands : Obligations.VectorOperands := by
  unfold Obligations.VectorOperands
  intro s w k f c act val accs all hn pops unbound
  obtain ⟨unboundA, unboundB⟩ := boundSource_of_no_pops pops
  have value (sp : VSpec) (wd j : Nat) : registerElement c k sp wd j = val sp wd j := by cases sp <;> rfl
  refine ⟨fun registers => ?registers, fun j hj => vActive_actBits hj, fun a mem t u fails => ?fails,
    fun passes => ⟨fun clean => ?clean, ?poisoned⟩⟩
  case registers =>
    have none : allAccs s w k f = [] := by rw [allAccs, wordAccs_of_registers registers]; rfl
    have reads := vRead_of_clean pops unbound (by rw [none]; rfl) (by rw [none]; rfl) (by simp [none])
    simp only [VWord.local_, Bool.or_eq_false_iff] at registers
    obtain ⟨⟨hd, ha⟩, hb⟩ := registers
    refine ⟨_, reads, rfl, rfl, rfl, fun j hj => ⟨fun ra => ?_, fun rb => ?_, fun rd => ?_⟩⟩
    · rw [vSources, if_neg ra, sourceVals_of_register ha (unbound_of_boundSource unboundA ra) hj, value]
    · rw [vSources, if_neg rb, sourceVals_of_register hb (unbound_of_boundSource unboundB rb) hj, value]
    · rw [vSources, if_pos rd, sourceVals_of_register hd (unbound_of_boundDest unbound) hj, value]
  case fails =>
    obtain ⟨x, worst, low, found⟩ := worstFail_of_trap mem fails
    exact ⟨x, vRead_of_worst pops worst, low, found⟩
  case clean =>
    refine ⟨_, vRead_of_clean pops unbound (worstFail_of_ok passes) (anyHeld_of_ok passes) clean, fun loc ra a mem => ?_⟩
    have numbers := wordAccs_numbers (s := s) (k := k) (f := f) loc
    have low : a.i ∈ f.ra.idx f.n (vActive w s.me f) := numbers ▸ List.mem_map_of_mem mem
    rw [vSources, if_neg ra, sourceVals_of_local loc (numbers ▸ f.ra.idx_rising _ (vActive_rising w s.me f)) mem
      (f.ra.idx_lt hn (fun j hj => (mem_vActive.1 hj).1) _ low)]
  case poisoned =>
    exact fun a mem reads bad => vRead_of_poisoned pops unbound (worstFail_of_ok passes) (anyHeld_of_ok passes) mem reads bad

end Sys2Proof.Machine
end

section
/-! SUPPORT. What stores to local memory leave of the cores (07_sync.md R234), and the lanes that a destination merges (10_vector.md
R294, R295, R309). -/

namespace Sys2Proof.Machine

/-! Stores. -/

/-- What no word of the V engine and no hit of a monitor changes of a core. -/
def Core.untouched (c : Core) : Vector Mem 8 × Vector Mem 2 × Vector (BitVec 32) 256 × BitVec 8192 × List Record :=
  (c.tile, c.acc, c.mail, c.pres, c.hw)

/-- What a hit of a monitor leaves of what V words work on. -/
structure Core.SameV (c e : Core) : Prop where
  v : e.v = c.v
  p : e.p = c.p
  latches : e.latches = c.latches
  untouched : e.untouched = c.untouched
  arflg : e.ctl.arflg = c.ctl.arflg
  rngctr : e.ctl.rngctr = c.ctl.rngctr

theorem Core.SameV.refl (c : Core) : c.SameV c := ⟨rfl, rfl, rfl, rfl, rfl, rfl⟩

theorem Core.SameV.trans {c e d : Core} (h : c.SameV e) (h' : e.SameV d) : c.SameV d :=
  ⟨h'.v.trans h.v, h'.p.trans h.p, h'.latches.trans h.latches, h'.untouched.trans h.untouched, h'.arflg.trans h.arflg,
    h'.rngctr.trans h.rngctr⟩

theorem Core.wg_sameV (c : Core) (d : GIdx) (x : GVal) : c.SameV (c.wg d x) := by
  unfold Core.wg
  split
  · exact .refl c
  · exact ⟨rfl, rfl, rfl, rfl, rfl, rfl⟩

theorem Core.nextSafe_sameV (c : Core) : c.SameV c.nextSafe := ⟨rfl, rfl, rfl, rfl, rfl, rfl⟩

theorem Core.freed_sameV (c : Core) (b : Option Blocked) (stepping : Bool) (halt : Option (BitVec 4)) :
    c.SameV { c with blocked := b, stepping := stepping, halt := halt } := ⟨rfl, rfl, rfl, rfl, rfl, rfl⟩

theorem Core.finish_sameV (c : Core) (d : GIdx) (x : GVal) : c.SameV (c.finish d x) := by
  rw [Core.finish]
  exact ((c.wg_sameV d x).trans (Core.nextSafe_sameV _)).trans (Core.freed_sameV _ _ _ _)

theorem Core.setMon_sameV (c : Core) (f : BitVec 64 → BitVec 64) : c.SameV (c.modCtl (Ctl.setMon f)) :=
  ⟨rfl, rfl, rfl, rfl, rfl, rfl⟩

theorem Core.loseMonitor_sameV (c : Core) (f : BitVec 64 → BitVec 64) : c.SameV (c.loseMonitor (Ctl.setMon f)) :=
  ⟨rfl, rfl, rfl, rfl, rfl, rfl⟩

theorem Core.monHit_sameV (c : Core) (now key n : Nat) : c.SameV (c.monHit now key n) := by
  obtain h | ⟨f, h⟩ | ⟨d, x, f, h⟩ := c.monHit_setMon now key n
  · rw [h]
    exact .refl c
  · rw [h]
    exact c.setMon_sameV f
  · rw [h]
    exact (c.finish_sameV d x).trans (Core.loseMonitor_sameV _ f)

theorem Core.monHit_of_free {c : Core} (free : c.blocked = none) (now key n : Nat) :
    (c.monHit now key n).g = c.g ∧ (c.monHit now key n).blocked = none := by
  obtain h | ⟨f, h⟩ | ⟨d, x, f, waits, -⟩ := c.monHit_cases now key n
  · rw [h]
    exact ⟨rfl, free⟩
  · rw [h]
    exact ⟨rfl, free⟩
  · exact absurd free waits

theorem State.coreAt_storeNat_cases (s : State) (r key n v : Nat) :
    (s.storeNat key n v).coreAt r = s.coreAt r ∨ (s.storeNat key n v).coreAt r = (s.coreAt r).monHit s.cycle key n := by
  rw [State.coreAt_storeNat]
  unfold State.coreAt
  simp only [State.notify]
  rw [Table.find_map fun c : Core => c.monHit s.cycle key n]
  cases Table.find s.cores r with
  | none => exact .inl rfl
  | some c => exact .inr rfl

/-- The stores of a run of elements (10_vector.md R294). -/
def State.storeAll (s : State) (at_ : Acc → Nat) (val : Acc → Nat) (l : List Acc) : State :=
  l.foldl (fun t a => t.storeNat (at_ a) a.n (val a)) s

section
variable (at_ val : Acc → Nat)

theorem State.storeAll_cons (s : State) (a : Acc) (l : List Acc) :
    s.storeAll at_ val (a :: l) = (s.storeNat (at_ a) a.n (val a)).storeAll at_ val l := rfl

@[simp] theorem State.storeAll_rank (s : State) (l : List Acc) : (s.storeAll at_ val l).rank = s.rank := by
  induction l generalizing s with
  | nil => rfl
  | cons a l ih => rw [State.storeAll_cons, ih, State.storeNat_rank]

/-- What a hit keeps of a core, a run of stores keeps. -/
theorem State.coreAt_storeAll {P : Core → Prop} (keeps : ∀ c now key n, P c → P (c.monHit now key n)) {s : State} {r : Nat}
    (h : P (s.coreAt r)) (l : List Acc) : P ((s.storeAll at_ val l).coreAt r) := by
  induction l generalizing s with
  | nil => exact h
  | cons a l ih =>
    refine ih (s := s.storeNat (at_ a) a.n (val a)) ?_
    rcases s.coreAt_storeNat_cases r (at_ a) a.n (val a) with e | e
    · rwa [e]
    · rw [e]
      exact keeps _ _ _ _ h

theorem State.storeAll_sameV (s : State) (r : Nat) (l : List Acc) : (s.coreAt r).SameV ((s.storeAll at_ val l).coreAt r) :=
  State.coreAt_storeAll at_ val (P := (s.coreAt r).SameV) (fun c now key n h => h.trans (c.monHit_sameV now key n)) (.refl _) l

theorem State.storeAll_g {s : State} {r : Nat} (free : (s.coreAt r).blocked = none) (l : List Acc) :
    ((s.storeAll at_ val l).coreAt r).g = (s.coreAt r).g :=
  (State.coreAt_storeAll at_ val (P := fun e => e.g = (s.coreAt r).g ∧ e.blocked = none) (fun _ now key n h =>
    have kept := Core.monHit_of_free h.2 now key n
    ⟨kept.1.trans h.1, kept.2⟩) ⟨rfl, free⟩ l).1

theorem State.storeAll_mem (s : State) (l : List Acc) :
    (s.storeAll at_ val l).mem = l.foldl (fun m a => m.write (at_ a) (leBytes a.n (val a))) s.mem := by
  induction l generalizing s with
  | nil => rfl
  | cons a l ih => rw [State.storeAll_cons, ih, List.foldl_cons, State.storeNat_mem]

/-- A byte outside every element keeps its value. -/
theorem State.storeAll_get {l : List Acc} {x : Nat} (outside : ∀ a ∈ l, x < at_ a ∨ at_ a + a.n ≤ x) (s : State) :
    (s.storeAll at_ val l).mem.get x = s.mem.get x := by
  induction l generalizing s with
  | nil => rfl
  | cons a l ih =>
    obtain ⟨ha, hl⟩ := List.forall_mem_cons.1 outside
    rw [State.storeAll_cons, ih hl, State.storeNat_mem, Mem.get_write_out (by rwa [leBytes_length])]
end

/-! Merged lanes. -/

/-- The lanes of a destination of n elements in a register of some lanes: a result where its element is active, and elsewhere zero
or the old lane (10_vector.md R295, R309). -/
def mergeLanes (res : List Nat) (acts : List Bool) (pz : Bool) (old wd n lanes : Nat) : Nat :=
  joinLanes wd (((res.zip acts).zip (lanesOf old wd n)).map fun x =>
    if x.1.2 then x.1.1 % 2 ^ wd else if pz then 0 else x.2) % 2 ^ (wd * lanes)

section
variable {res : List Nat} {acts : List Bool} {pz : Bool} {old wd n lanes : Nat}

theorem mergeLanes_lt : mergeLanes res acts pz old wd n lanes < 2 ^ (wd * lanes) := Nat.mod_lt _ (Nat.two_pow_pos _)

theorem mergeLanes_lane (hres : res.length = n) (hacts : acts.length = n) (fits : n ≤ lanes) {j : Nat} (hj : j < n) :
    mergeLanes res acts pz old wd n lanes / 2 ^ (wd * j) % 2 ^ wd =
      if acts.getD j false then res.getD j 0 % 2 ^ wd else if pz then 0 else old / 2 ^ (wd * j) % 2 ^ wd := by
  have length : (((res.zip acts).zip (lanesOf old wd n)).map fun x =>
      if x.1.2 then x.1.1 % 2 ^ wd else if pz then 0 else x.2).length = n := by simp [hres, hacts, lanesOf_length]
  have small : ∀ v ∈ ((res.zip acts).zip (lanesOf old wd n)).map fun x =>
      if x.1.2 then x.1.1 % 2 ^ wd else if pz then 0 else x.2, v < 2 ^ wd := by
    intro v hv
    obtain ⟨x, hx, rfl⟩ := List.mem_map.1 hv
    split_ifs
    · exact Nat.mod_lt _ (Nat.two_pow_pos wd)
    · exact Nat.two_pow_pos wd
    · exact lanesOf_lt _ (List.of_mem_zip hx).2
  have whole := (joinLanes_lt small).trans_le (Nat.pow_le_pow_right two_pos (Nat.mul_le_mul_left wd (length.trans_le fits)))
  rw [mergeLanes, Nat.mod_eq_of_lt whole, joinLanes_lane small (hj.trans_eq length.symm)]
  have old_lane : (lanesOf old wd n)[j]'(by rwa [lanesOf_length]) = old / 2 ^ (wd * j) % 2 ^ wd := by
    rw [← lanesOf_getD old wd hj]
    simp [List.getD, lanesOf_length, hj]
  simp [List.getD, hres, hacts, lanesOf_length, hj, old_lane]
end

end Sys2Proof.Machine
end

section
/-! PROOF. What a V word writes (10_vector.md R293 to R297, R304), and obligation O40. -/

namespace Sys2Proof.Machine

/-! Destinations. -/

/-- What a word gives a register destination of some lanes that holds an old value (10_vector.md R295, R309). -/
def destValue (w : VWord) (f : VForm) (acts : List Bool) (o : VOut) (old wd lanes : Nat) : Nat :=
  match o.whole with
  | some x => x
  | none => mergeLanes o.res acts w.pz old wd f.n lanes

/-- The latch that a word sets up for a register destination (10_vector.md R296). -/
def destLatches (c : Core) (w : VWord) (f : VForm) (acts : List Bool) (o : VOut) (lat : Nat) : List Latch :=
  match w.d with
  | .vreg v => [{ isPred := false, index := v, remain := lat
                  value := BitVec.ofNat 1024 (destValue w f acts o (c.rv v).toNat f.wd (1024 / f.wd)) }]
  | .preg p => [{ isPred := true, index := p.setWidth 5, remain := lat
                  value := BitVec.ofNat 1024 (destValue w f acts o (c.rp p).toNat 1 128) }]
  | _ => []

theorem destLatches_of_vreg {w : VWord} {v : BitVec 5} (h : w.d = .vreg v) (c : Core) (f : VForm) (acts : List Bool) (o : VOut)
    (lat : Nat) : destLatches c w f acts o lat = [{
      isPred := false, index := v, remain := lat
      value := BitVec.ofNat 1024 (destValue w f acts o (c.rv v).toNat f.wd (1024 / f.wd)) }] := by
  simp only [destLatches, h]

theorem destLatches_of_preg {w : VWord} {p : BitVec 3} (h : w.d = .preg p) (c : Core) (f : VForm) (acts : List Bool) (o : VOut)
    (lat : Nat) : destLatches c w f acts o lat = [{
      isPred := true, index := p.setWidth 5, remain := lat
      value := BitVec.ofNat 1024 (destValue w f acts o (c.rp p).toNat 1 128) }] := by
  simp only [destLatches, h]

theorem destLatches_of_local {w : VWord} (h : w.d.isLoc = true) (c : Core) (f : VForm) (acts : List Bool) (o : VOut) (lat : Nat) :
    destLatches c w f acts o lat = [] := by
  unfold destLatches
  split
  case h_1 d => rw [d] at h; exact Bool.noConfusion h
  case h_2 d => rw [d] at h; exact Bool.noConfusion h
  case h_3 => rfl

/-- A latch of a word goes to the vector register that is its destination. -/
theorem mem_destLatches_vector {c : Core} {w : VWord} {f : VForm} {acts : List Bool} {o : VOut} {lat : Nat} {x : Latch}
    (mem : x ∈ destLatches c w f acts o lat) (reg : x.isPred = false) : w.d = .vreg x.index ∧ x.remain = lat := by
  unfold destLatches at mem
  split at mem
  case h_1 d => obtain rfl := List.mem_singleton.1 mem; exact ⟨d, rfl⟩
  case h_2 => obtain rfl := List.mem_singleton.1 mem; exact Bool.noConfusion reg
  case h_3 => exact absurd mem List.not_mem_nil

theorem writeDest_of_register {w : VWord} (h : w.d.isLoc = false) (s : State) (g : Core → Core) (f : VForm) (acts : List Bool)
    (l : List Acc) (o : VOut) (lat : Nat) : writeDest (s.modMe g) w f acts l o lat =
      s.modMe fun c => { g c with latches := (g c).latches ++ destLatches (g s.me) w f acts o lat } := by
  cases hd : w.d with
  | vreg v =>
    rw [destLatches_of_vreg hd]
    simp only [writeDest, hd, State.modMe_modMe, State.me_modMe]
    rfl
  | preg p =>
    rw [destLatches_of_preg hd]
    simp only [writeDest, hd, State.modMe_modMe, State.me_modMe]
    rfl
  | loc => rw [hd] at h; exact Bool.noConfusion h
  | cap1 =>
    simp only [writeDest, destLatches, hd, List.append_nil]
  | cap2 =>
    simp only [writeDest, destLatches, hd, List.append_nil]

theorem writeDest_of_local {w : VWord} (h : w.d.isLoc = true) (s : State) (f : VForm) (acts : List Bool)
    (l : List Acc) (o : VOut) (lat : Nat) : writeDest s w f acts l o lat = s.storeAll (Acc.place s) (fun a => o.res.getD a.i 0) l := by
  cases hd : w.d with
  | loc =>
    simp only [writeDest, hd]
    rfl
  | _ => rw [hd] at h; exact Bool.noConfusion h

/-! Post-updates. -/

/-- The post-updates of a word's three specifiers (10_vector.md R293). -/
def postBumps (w : VWord) (k : Caps) (f : VForm) (c : Core) : Core :=
  postBump (postBump (postBump c w.d k.d f.n (f.wd / 8)) w.a k.a f.n (f.wa / 8)) w.b k.b f.n (f.wb / 8)

theorem postBump_frame (c : Core) (sp : VSpec) (cap : GVal) (n b : Nat) : ∃ g, postBump c sp cap n b = { c with g := g } := by
  unfold postBump
  split
  · unfold Core.wg
    split
    · exact ⟨c.g, rfl⟩
    · exact ⟨_, rfl⟩
  · exact ⟨c.g, rfl⟩

theorem postBumps_frame (w : VWord) (k : Caps) (f : VForm) (c : Core) : ∃ g, postBumps w k f c = { c with g := g } := by
  obtain ⟨g1, h1⟩ := postBump_frame c w.d k.d f.n (f.wd / 8)
  obtain ⟨g2, h2⟩ := postBump_frame { c with g := g1 } w.a k.a f.n (f.wa / 8)
  obtain ⟨g3, h3⟩ := postBump_frame { c with g := g2 } w.b k.b f.n (f.wb / 8)
  exact ⟨g3, by rw [postBumps, h1, h2, h3]⟩

/-- A post-update writes no register but the base that its specifier names. -/
theorem postBump_rg {sp : VSpec} {g : GIdx} (h : g ∉ sp.postBase.toList.map (·.setWidth 6)) (c : Core) (cap : GVal) (n b : Nat) :
    (postBump c sp cap n b).rg g = c.rg g := by
  unfold postBump
  split
  case h_1 base _ _ =>
    exact Core.rg_wg_other _ (by simpa [VSpec.postBase] using h) _
  case h_2 => rfl

theorem postBumps_rg {w : VWord} {g : GIdx}
    (h : g ∉ (w.d.postBase.toList ++ w.a.postBase.toList ++ w.b.postBase.toList).map (·.setWidth 6)) (k : Caps) (f : VForm) (c : Core) :
    (postBumps w k f c).rg g = c.rg g := by
  simp only [List.map_append, List.mem_append, not_or] at h
  obtain ⟨⟨hd, ha⟩, hb⟩ := h
  rw [postBumps, postBump_rg hb, postBump_rg ha, postBump_rg hd]

/-! The end of a word. -/

/-- The core of a word whose destination is written: the counter moves, the bases are updated, and the core is past the word. -/
def Core.vAfter (c : Core) (op : Instr) (w : VWord) (k : Caps) (l : List GVal) (f : VForm) (o : VOut) : Core :=
  (postBumps w k f (c.modCtl fun r => { r with rngctr := r.rngctr + BitVec.ofNat 128 o.adv })).pastWord w.bumps op l

section
variable (c : Core) (op : Instr) (w : VWord) (k : Caps) (l : List GVal) (f : VForm) (o : VOut)

theorem Core.vAfter_besideV : ∃ g, (c.vAfter op w k l f o).besideV =
    ({ c.modCtl fun r => { r with rngctr := r.rngctr + BitVec.ofNat 128 o.adv } with g := g } : Core).besideV := by
  obtain ⟨g, bumped⟩ := postBumps_frame w k f (c.modCtl fun r => { r with rngctr := r.rngctr + BitVec.ofNat 128 o.adv })
  exact ⟨g, by rw [Core.vAfter, Core.pastWord_besideV, bumped]⟩

theorem Core.vAfter_untouched : (c.vAfter op w k l f o).untouched = c.untouched := by
  obtain ⟨g, beside⟩ := c.vAfter_besideV op w k l f o
  exact (congrArg Core.untouched beside :)

theorem Core.vAfter_maxx : (c.vAfter op w k l f o).maxx = c.maxx := by
  obtain ⟨g, beside⟩ := c.vAfter_besideV op w k l f o
  exact (congrArg Core.maxx beside :)

theorem Core.vAfter_ctl : (c.vAfter op w k l f o).ctl = { c.ctl with rngctr := c.ctl.rngctr + BitVec.ofNat 128 o.adv } := by
  obtain ⟨g, beside⟩ := c.vAfter_besideV op w k l f o
  exact (congrArg Core.ctl beside :)

theorem Core.vAfter_rg {g : GIdx} (h : g ∉ (w.d.postBase.toList ++ w.a.postBase.toList ++ w.b.postBase.toList).map (·.setWidth 6)) :
    (c.vAfter op w k l f o).rg g = c.rg g := by
  rw [Core.vAfter, Core.pastWord_rg, postBumps_rg h, Core.modCtl_rg]

theorem Core.vAfter_latches : (c.vAfter op w k l f o).latches = laterLatches c.latches := by
  obtain ⟨g, bumped⟩ := postBumps_frame w k f (c.modCtl fun r => { r with rngctr := r.rngctr + BitVec.ofNat 128 o.adv })
  rw [Core.vAfter, Core.pastWord_latches, bumped, Core.modCtl_latches]

theorem Core.vAfter_rv (i : BitVec 5) : (c.vAfter op w k l f o).rv i = (c.land (dueLatches c.latches)).rv i := by
  obtain ⟨g, bumped⟩ := postBumps_frame w k f (c.modCtl fun r => { r with rngctr := r.rngctr + BitVec.ofNat 128 o.adv })
  rw [Core.vAfter, Core.pastWord_rv, bumped, Core.modCtl_latches]
  refine Core.rv_congr (Core.land_congr ?_ ?_ _).1 i <;> rfl

theorem Core.vAfter_rp (i : BitVec 3) : (c.vAfter op w k l f o).rp i = (c.land (dueLatches c.latches)).rp i := by
  obtain ⟨g, bumped⟩ := postBumps_frame w k f (c.modCtl fun r => { r with rngctr := r.rngctr + BitVec.ofNat 128 o.adv })
  rw [Core.vAfter, Core.pastWord_rp, bumped, Core.modCtl_latches]
  refine Core.rp_congr (Core.land_congr ?_ ?_ _).2 i <;> rfl

theorem Core.vAfter_pcV (nest : c.nestV = none) : (c.vAfter op w k l f o).pcV = c.pcV + 12#64 := by
  obtain ⟨g, bumped⟩ := postBumps_frame w k f (c.modCtl fun r => { r with rngctr := r.rngctr + BitVec.ofNat 128 o.adv })
  rw [Core.vAfter, bumped]
  exact Core.pastWord_pcV _ _ _ _ nest
end

/-! The destination is written. -/

/-- The steps until a word's results land (10_vector.md R299). -/
def VForm.latency (f : VForm) (w : VWord) : Nat := f.lat + (if !f.mem && (w.a.isLoc || w.b.isLoc) then 6 else 0)

/-- The flags of a word are set (03_numbers.md R73). -/
def Core.raise (c : Core) (flags : BitVec 6) : Core := c.modCtl fun r => { r with arflg := r.arflg ||| flags.setWidth 32 }

/-- The elements of its destination that a word writes. -/
def writtenBits (c : Core) (w : VWord) (f : VForm) : List Bool := actBits f.n (vActive w c f) f.full

/-- The core of a word whose destination is a register, its flags set and its latch in place (10_vector.md R296). -/
def Core.latched (c : Core) (w : VWord) (f : VForm) (o : VOut) : Core :=
  { c.raise o.flags with latches := c.latches ++ destLatches c w f (writtenBits c w f) o (f.latency w) }

theorem Core.latched_latches (c : Core) (w : VWord) (f : VForm) (o : VOut) :
    (c.latched w f o).latches = c.latches ++ destLatches c w f (writtenBits c w f) o (f.latency w) := rfl

/-- The state in which a word's flags are set and its destination is written. -/
def destWritten (s : State) (w : VWord) (k : Caps) (f : VForm) (o : VOut) : State :=
  writeDest (s.modMe fun c => c.raise o.flags) w f (writtenBits s.me w f) (wordAccs s w k f).1 o (f.latency w)

section
variable {s : State} {w : VWord} (k : Caps) (f : VForm) (o : VOut)

theorem vDone_of_no_pops (op : Instr) (l : List GVal) (pops : popsOf s.me w f = []) :
    vDone s op w k l f o = (destWritten s w k f o).modMe fun c => c.vAfter op w k l f o := by
  simp only [vDone, pops, List.foldl_nil, State.modMe_modMe]
  rfl

theorem destWritten_of_register (h : w.d.isLoc = false) : destWritten s w k f o = s.modMe fun c => c.latched w f o :=
  writeDest_of_register h s (fun c => c.raise o.flags) f _ _ o _

theorem destWritten_of_local (h : w.d.isLoc = true) : destWritten s w k f o =
    (s.modMe fun c => c.raise o.flags).storeAll (Acc.place s) (fun a => o.res.getD a.i 0) (wordAccs s w k f).1 :=
  writeDest_of_local h _ f _ _ o _
end

/-- What stands once a word's flags are set and its destination is written: a latch of its own beside the older ones, the
registers, and of the other cores all that a store leaves. -/
structure DestIsWritten (s u : State) (w : VWord) (q : List Latch) (o : VOut) : Prop where
  rank : u.rank = s.rank
  v : u.me.v = s.me.v
  p : u.me.p = s.me.p
  latches : u.me.latches = s.me.latches ++ q
  untouched : u.me.untouched = s.me.untouched
  arflg : u.me.ctl.arflg = s.me.ctl.arflg ||| o.flags.setWidth 32
  rngctr : u.me.ctl.rngctr = s.me.ctl.rngctr
  g : (w.d.isLoc = false ∨ s.me.blocked = none) → u.me.g = s.me.g
  others : ∀ r, r ≠ s.rank → (u.coreAt r).v = (s.coreAt r).v ∧ ((s.coreAt r).blocked = none → (u.coreAt r).g = (s.coreAt r).g)

theorem destIsWritten_of_register {s : State} {w : VWord} (h : w.d.isLoc = false) (k : Caps) (f : VForm) (o : VOut) :
    DestIsWritten s (destWritten s w k f o) w (destLatches s.me w f (writtenBits s.me w f) o (f.latency w)) o := by
  have me : (destWritten s w k f o).me = s.me.latched w f o := by rw [destWritten_of_register k f o h, State.me_modMe]
  refine ⟨?_, (congrArg Core.v me :), (congrArg Core.p me :), (congrArg Core.latches me :), (congrArg Core.untouched me :),
    (congrArg (·.ctl.arflg) me :), (congrArg (·.ctl.rngctr) me :), fun _ => (congrArg Core.g me :), fun r hr => ?_⟩
  · rw [destWritten_of_register k f o h]
    rfl
  · rw [destWritten_of_register k f o h, State.coreAt_modMe, if_neg hr]
    exact ⟨rfl, fun _ => rfl⟩

section
variable {s : State} {w : VWord} (h : w.d.isLoc = true) (k : Caps) (f : VForm) (o : VOut)
include h

theorem destWritten_rank_of_local : (destWritten s w k f o).rank = s.rank := by
  rw [destWritten_of_local k f o h, State.storeAll_rank]
  rfl

theorem destWritten_sameV_of_local : (s.me.raise o.flags).SameV (destWritten s w k f o).me := by
  have same := State.storeAll_sameV (Acc.place s) (fun a => o.res.getD a.i 0) (s.modMe fun c => c.raise o.flags) s.rank
    (wordAccs s w k f).1
  rw [State.coreAt_modMe, if_pos rfl] at same
  have me : (destWritten s w k f o).me = (destWritten s w k f o).coreAt s.rank :=
    congrArg (destWritten s w k f o).coreAt (destWritten_rank_of_local h k f o)
  rwa [me, destWritten_of_local k f o h]

theorem destWritten_others_of_local {r : Nat} (hr : r ≠ s.rank) : ((destWritten s w k f o).coreAt r).v = (s.coreAt r).v ∧
    ((s.coreAt r).blocked = none → ((destWritten s w k f o).coreAt r).g = (s.coreAt r).g) := by
  have there : (s.modMe fun c => c.raise o.flags).coreAt r = s.coreAt r := by rw [State.coreAt_modMe, if_neg hr]
  rw [destWritten_of_local k f o h, ← there]
  exact ⟨(State.storeAll_sameV _ _ _ r _).v, fun free => State.storeAll_g _ _ free _⟩

theorem destIsWritten_of_local : DestIsWritten s (destWritten s w k f o) w [] o where
  rank := destWritten_rank_of_local h k f o
  v := (destWritten_sameV_of_local h k f o).v
  p := (destWritten_sameV_of_local h k f o).p
  latches := (destWritten_sameV_of_local h k f o).latches.trans (List.append_nil _).symm
  untouched := (destWritten_sameV_of_local h k f o).untouched
  arflg := (destWritten_sameV_of_local h k f o).arflg
  rngctr := (destWritten_sameV_of_local h k f o).rngctr
  g standing := by
    have free : s.me.blocked = none := standing.resolve_left (by simp [h])
    have here : (s.modMe fun c => c.raise o.flags).coreAt s.rank = s.me.raise o.flags := by rw [State.coreAt_modMe, if_pos rfl]
    rw [State.me, destWritten_rank_of_local h, destWritten_of_local k f o h]
    refine (State.storeAll_g _ _ ?_ _).trans ?_
    · rw [here]
      exact free
    · rw [here]
      rfl
  others r hr := destWritten_others_of_local h k f o hr
end

theorem destIsWritten (s : State) (w : VWord) (k : Caps) (f : VForm) (o : VOut) : DestIsWritten s (destWritten s w k f o) w
    (destLatches s.me w f (writtenBits s.me w f) o (f.latency w)) o := by
  cases h : w.d.isLoc with
  | false => exact destIsWritten_of_register h k f o
  | true =>
    rw [destLatches_of_local h]
    exact destIsWritten_of_local h k f o

/-! What is written. -/

section
variable {w : VWord} {c : Core} {f : VForm} {o : VOut}

theorem writtenBits_length : (writtenBits c w f).length = f.n := actBits_length _ _ _

theorem toNat_ofNat_of_lanes {x wd m : Nat} (h : x < 2 ^ (wd * (m / wd))) : (BitVec.ofNat m x).toNat = x := by
  rw [BitVec.toNat_ofNat]
  exact Nat.mod_eq_of_lt (h.trans_le (Nat.pow_le_pow_right two_pos (Nat.mul_div_le m wd)))

/-- A lane of a vector register that is a destination (10_vector.md R295, R309). -/
theorem destValue_vector_lane (whole : o.whole = none) (hwd : 0 < f.wd) (fits : f.n * f.wd ≤ 1024) (length : o.res.length = f.n)
    (old : Nat) {j : Nat} (hj : j < f.n) :
    (BitVec.ofNat 1024 (destValue w f (writtenBits c w f) o old f.wd (1024 / f.wd))).toNat / 2 ^ (f.wd * j) % 2 ^ f.wd =
      if (writtenBits c w f).getD j false then o.res.getD j 0 % 2 ^ f.wd
      else if w.pz then 0 else old / 2 ^ (f.wd * j) % 2 ^ f.wd := by
  simp only [destValue, whole]
  rw [toNat_ofNat_of_lanes mergeLanes_lt, mergeLanes_lane length writtenBits_length ((Nat.le_div_iff_mul_le hwd).2 fits) hj]

/-- A bit of a predicate register that is a destination (10_vector.md R306, R320). -/
theorem destValue_predicate_bit (whole : o.whole = none) (fits : f.n ≤ 128) (length : o.res.length = f.n) (old : Nat)
    {j : Nat} (hj : j < f.n) :
    (BitVec.ofNat 128 (destValue w f (writtenBits c w f) o old 1 128)).toNat / 2 ^ j % 2 =
      if (writtenBits c w f).getD j false then o.res.getD j 0 % 2 ^ 1 else if w.pz then 0 else old / 2 ^ (1 * j) % 2 ^ 1 := by
  have lane := mergeLanes_lane (pz := w.pz) (old := old) (wd := 1) length (writtenBits_length (c := c) (w := w)) fits hj
  simp only [destValue, whole]
  rw [BitVec.toNat_ofNat, Nat.mod_eq_of_lt mergeLanes_lt, ← lane, Nat.one_mul, Nat.pow_one]

theorem destValue_predicate_lt (whole : o.whole = none) (old : Nat) (acts : List Bool) : destValue w f acts o old 1 128 < 2 ^ 128 := by
  simp only [destValue, whole]
  exact mergeLanes_lt
end

/-- Settles O40: an enabled flag stops the word before it writes; otherwise its destination is written, and its core is past it. -/
theorem vectorEffect : Obligations.VectorEffect := by
  unfold Obligations.VectorEffect
  intro s op w k l f o lat act accs new trapped
  refine ⟨vFinish_of_trapped s op w k l f o, fun free pops hwd hn fits length =>
    ⟨_, vFinish_of_untrapped s op w k l f o free, ?_⟩⟩
  rw [vDone_of_no_pops k f o op l pops]
  obtain ⟨rank, hv, hp, latches, untouched, arflg, rngctr, hg, others⟩ := destIsWritten s w k f o
  generalize hu : destWritten s w k f o = u at *
  have me : (u.modMe fun c => c.vAfter op w k l f o).me = u.me.vAfter op w k l f o := State.me_modMe u _
  have kept : (u.modMe fun c => c.vAfter op w k l f o).me.untouched = s.me.untouched := by rw [me, Core.vAfter_untouched, untouched]
  refine ⟨?arflg, ?rngctr, congrArg (·.1) kept, congrArg (·.2.1) kept, congrArg (·.2.2.1) kept, congrArg (·.2.2.2.1) kept,
    congrArg (·.2.2.2.2) kept, rank, ?others, ?g, ?register, ?local_, ?vector, ?predicate, ?nearer, ?standing⟩
  case arflg => rw [me, Core.vAfter_ctl, ← arflg]
  case rngctr => rw [me, Core.vAfter_ctl, ← rngctr]
  case others =>
    intro q hq
    rw [State.coreAt_modMe, if_neg (rank ▸ hq)]
    exact others q hq
  case g =>
    intro standing g hbase
    rw [me, Core.vAfter_rg _ _ _ _ _ _ _ hbase, Core.rg_congr (hg standing)]
  case register =>
    intro reg
    rw [← hu, destWritten_of_register k f o reg, State.modMe_modMe]
    exact ⟨onlyMe_modMe s _, sameBytes_modMe s _⟩
  case local_ =>
    intro loc
    rw [← hu, destWritten_of_local k f o loc, State.modMe_mem]
    exact ⟨State.storeAll_mem _ _ _ _, fun x outside => State.storeAll_get _ _ outside _⟩
  case vector =>
    intro v hd whole
    rw [destLatches_of_vreg hd] at latches
    refine ⟨_, fun j hj => destValue_vector_lane whole hwd fits length (s.me.rv v).toNat hj, fun late => ?_, fun now => ?_⟩
    · rw [me, Core.vAfter_latches, latches]
      exact mem_laterLatches (List.mem_append_right _ (List.mem_singleton_self _)) late
    · rw [me, Core.vAfter_rv, latches, dueLatches_append _ (by exact now)]
      exact Core.land_rv_last u.me (dueLatches s.me.latches) rfl
  case predicate =>
    intro p hd whole few
    rw [destLatches_of_preg hd] at latches
    have small := destValue_predicate_lt (w := w) (f := f) whole (s.me.rp p).toNat (writtenBits s.me w f)
    refine ⟨_, fun j hj => destValue_predicate_bit whole few length (s.me.rp p).toNat hj, fun late => ?_, fun now => ?_⟩
    · rw [me, Core.vAfter_latches, latches, BitVec.setWidth_ofNat_of_le_of_lt (by decide) small]
      exact mem_laterLatches (List.mem_append_right _ (List.mem_singleton_self _)) late
    · rw [me, Core.vAfter_rp, latches, dueLatches_append _ (by exact now)]
      exact (Core.land_rp_last u.me (dueLatches s.me.latches) rfl rfl).trans (BitVec.setWidth_ofNat_of_le (by decide) _)
  case nearer =>
    intro x mem stays
    rw [me, Core.vAfter_latches, latches]
    exact mem_laterLatches (List.mem_append_left _ mem) stays
  case standing =>
    intro v older own
    rw [me, Core.vAfter_rv, latches, Core.land_rv_of_others fun y hy reg index => ?_, Core.rv_congr hv]
    obtain ⟨x, mem, due, rfl⟩ := mem_dueLatches hy
    rcases List.mem_append.1 mem with old | mine
    · have := older x old reg index
      omega
    · obtain ⟨hd, remain⟩ := mem_destLatches_vector mine reg
      have : 1 < x.remain := remain ▸ own (index ▸ hd)
      omega
end Sys2Proof.Machine
end

section
/-! PROOF. The events of the V engine (10_vector.md R322 to R324; 12_copy.md R363; 06_ordering.md R206), and obligation O41. -/

namespace Sys2Proof.Machine

/-! The watchdog. -/

/-- The state in which the VMAXX of a core is withdrawn from its round, EN cleared (10_vector.md R323). -/
def maxxWithdrawn (s : State) (m : MaxxWait) : State :=
  { s with maxx := s.maxx.filter fun y => !(y.core == s.rank && y.round == m.round) }.modMe fun c =>
    { c.modCtl fun q => { q with scgrp := setField q.scgrp 31 1 0 } with maxx := none }

section
variable {s : State} {m : MaxxWait}

theorem exec_vmaxxWatchdogExpiry_of_none (none : s.me.maxx = none) : exec .vmaxxWatchdogExpiry s = .next s := by
  change execVmaxxWatchdogExpiry s = _
  simp only [execVmaxxWatchdogExpiry, none]

theorem exec_vmaxxWatchdogExpiry_of_late (waits : s.me.maxx = some m) (runs : maxxPaused s s.rank = false)
    (late : s.me.ctl.grpwd.toNat ≤ m.waited) :
    exec .vmaxxWatchdogExpiry s = .next (takeTrap (maxxWithdrawn s m) s.rank (mkTrap .v 0x0D 0#64)) := by
  change execVmaxxWatchdogExpiry s = _
  simp only [execVmaxxWatchdogExpiry, waits, late, runs, and_self, if_true]
  rfl

theorem exec_vmaxxWatchdogExpiry_of_early (waits : s.me.maxx = some m)
    (early : maxxPaused s s.rank = true ∨ m.waited < s.me.ctl.grpwd.toNat) : exec .vmaxxWatchdogExpiry s = .next s := by
  change execVmaxxWatchdogExpiry s = _
  have : ¬(s.me.ctl.grpwd.toNat ≤ m.waited ∧ maxxPaused s s.rank = false) := fun h =>
    early.elim (fun paused => by simp [paused] at h) fun before => absurd h.1 (not_le.2 before)
  simp only [execVmaxxWatchdogExpiry, waits, if_neg this]
end

/-! The members of a rectangle. -/

/-- A core of a cluster is its row and its column. -/
theorem clusterCore_inj {r row row' col col' : Nat} (h : clusterCore r row col = clusterCore r row' col') :
    row % 4 = row' % 4 ∧ col % 4 = col' % 4 := by
  have same := BitVec.eq_of_toNat_eq h
  have rows := congrArg (field · 5 2) same
  have cols := congrArg (field · 0 2) same
  simp only [field_setField_above _ _ _ (show 0 + 2 ≤ 12 by decide) (show 0 + 2 ≤ 5 by decide),
    field_setField _ _ (show 5 + 2 ≤ 12 by decide)] at rows
  simp only [field_setField _ _ (show 0 + 2 ≤ 12 by decide)] at cols
  exact ⟨rows, cols⟩

theorem two_le_groupShape (k : Nat) (tall : Bool) : 2 ≤ (groupShape k tall).1 * (groupShape k tall).2 := by
  unfold groupShape
  split <;> cases tall <;> decide

/-- A rectangle has two members at least (09_compose.md R270). -/
theorem groupRect_two (r : Nat) {shape : Nat × Nat} (size : 2 ≤ shape.1 * shape.2) :
    ∃ a ∈ (groupRect r shape).map (·.1), ∃ b ∈ (groupRect r shape).map (·.1), a ≠ b := by
  have member {j : Nat} (hj : j < shape.1 * shape.2) : clusterCore r (field (BitVec.ofNat 12 r) 5 2 / shape.1 * shape.1 + j / shape.2)
      (field (BitVec.ofNat 12 r) 0 2 / shape.2 * shape.2 + j % shape.2) ∈ (groupRect r shape).map (·.1) :=
    List.mem_map.2 ⟨_, List.mem_map.2 ⟨j, List.mem_range.2 hj, rfl⟩, rfl⟩
  refine ⟨_, member (j := 0) (by omega), _, member (j := 1) (by omega), fun same => ?_⟩
  obtain ⟨rows, cols⟩ := clusterCore_inj same
  rcases Nat.lt_or_ge 1 shape.2 with wide | narrow
  · rw [Nat.zero_mod, Nat.mod_eq_of_lt wide] at cols
    omega
  · obtain one : shape.2 = 1 := by
      have : shape.2 ≠ 0 := fun zero => by rw [zero, Nat.mul_zero] at size; omega
      omega
    rw [one] at rows
    omega

theorem members_two (x : Contribution) : ∃ a ∈ x.members, ∃ b ∈ x.members, a ≠ b := groupRect_two _ (two_le_groupShape _ _)

/-! Decided rounds. -/

/-- The contributions of a list that are tied to one of some, in one round of `maxxTied`. -/
def tiedStep (l a : List Contribution) : List Contribution := l.filter fun y => a.any fun x => x.same y || x.clash y

theorem mem_tiedStep {l a : List Contribution} {z : Contribution} :
    z ∈ tiedStep l a ↔ z ∈ l ∧ ∃ x ∈ a, x.same z = true ∨ x.clash z = true := by
  simp [tiedStep, List.mem_filter]

theorem tiedStep_mono {l a b : List Contribution} (h : a ⊆ b) : tiedStep l a ⊆ tiedStep l b := fun z hz => by
  obtain ⟨mem, x, hx, tie⟩ := mem_tiedStep.1 hz
  exact mem_tiedStep.2 ⟨mem, x, h hx, tie⟩

theorem maxxTied_succ (l a : List Contribution) (n : Nat) : maxxTied l (n + 1) a = maxxTied l n (tiedStep l a) := rfl

theorem singleton_subset_tiedStep {l : List Contribution} {x : Contribution} (mem : x ∈ l) (self : x.same x = true) :
    [x] ⊆ tiedStep l [x] := fun z hz => by
  obtain rfl := List.mem_singleton.1 hz
  exact mem_tiedStep.2 ⟨mem, z, List.mem_singleton_self z, .inl self⟩

/-- What a round keeps of some contributions, every later round keeps. -/
theorem subset_maxxTied {l a : List Contribution} (kept : a ⊆ tiedStep l a) (n : Nat) : a ⊆ maxxTied l n a := by
  induction n generalizing a with
  | zero => exact List.Subset.refl a
  | succ n ih => exact List.Subset.trans kept (ih (tiedStep_mono kept))

/-- What a round does not lead out of, no later round does. -/
theorem maxxTied_subset {l a b : List Contribution} (closed : tiedStep l b ⊆ b) (h : a ⊆ b) (n : Nat) : maxxTied l n a ⊆ b := by
  induction n generalizing a with
  | zero => exact h
  | succ n ih => exact ih (List.Subset.trans (tiedStep_mono h) closed)

section
variable {s : State} {x y : Contribution} (decided : maxxDecided s x = some ([x, y], false))
include decided

/-- A decided round of two is all that is tied, is no disagreement, and has a contribution of every member. -/
theorem maxxDecided_pair : maxxTied s.maxx (s.maxx.length + 1) [x] = [x, y] ∧ x.clash y = false ∧
    ∀ r ∈ x.members, r = x.core ∨ r = y.core := by
  unfold maxxDecided at decided
  dsimp only at decided
  split at decided
  case isTrue => exact Bool.noConfusion (congrArg Prod.snd (Option.some.inj decided))
  case isFalse agree =>
    split at decided
    case isFalse => cases decided
    case isTrue full =>
      have tied : maxxTied s.maxx (s.maxx.length + 1) [x] = [x, y] := congrArg Prod.fst (Option.some.inj decided)
      rw [tied] at agree full
      refine ⟨tied, ?_, fun r hr => ?_⟩
      · refine Bool.eq_false_iff.2 fun clash => agree (List.any_eq_true.2 ⟨x, by simp, ?_⟩)
        exact Bool.or_eq_true_iff.2 (.inl (List.any_eq_true.2 ⟨y, by simp, clash⟩))
      · obtain ⟨z, hz, core⟩ := List.any_eq_true.1 (List.all_eq_true.1 full r hr)
        obtain rfl := eq_of_beq core
        exact (List.mem_cons.1 hz).imp (congrArg _) fun h => congrArg _ (List.mem_singleton.1 h)

/-- Both cores are members of the rectangle. -/
theorem mem_members_pair : x.core ∈ x.members ∧ y.core ∈ x.members := by
  obtain ⟨-, -, full⟩ := maxxDecided_pair decided
  obtain ⟨a, ha, b, hb, ne⟩ := members_two x
  rcases full a ha with rfl | rfl <;> rcases full b hb with rfl | rfl
  · exact absurd rfl ne
  · exact ⟨ha, hb⟩
  · exact ⟨hb, ha⟩
  · exact absurd rfl ne

theorem same_self : x.same x = true := by
  simp [Contribution.same, (mem_members_pair decided).1]

/-- The other contribution is to the same rectangle and round. -/
theorem same_other (mem : x ∈ s.maxx) (ne : y ≠ x) : x.same y = true := by
  obtain ⟨tied, agree, -⟩ := maxxDecided_pair decided
  have self := singleton_subset_tiedStep mem (same_self decided)
  by_cases near : y ∈ tiedStep s.maxx [x]
  · obtain ⟨-, z, hz, tie⟩ := mem_tiedStep.1 near
    obtain rfl := List.mem_singleton.1 hz
    exact tie.resolve_right (by simp [agree])
  · -- Then nothing but x is tied to x, and no later round leads further.
    have kept : tiedStep s.maxx [x] ⊆ [x, y] := by
      rw [← tied, maxxTied_succ]
      exact subset_maxxTied (tiedStep_mono self) _
    have alone : tiedStep s.maxx [x] ⊆ [x] := fun z hz => by
      rcases List.mem_cons.1 (kept hz) with rfl | hy
      · exact List.mem_singleton_self _
      · exact absurd (List.mem_singleton.1 hy ▸ hz) near
    have : y ∈ [x] := maxxTied_subset alone (List.Subset.refl _) (s.maxx.length + 1) (tied ▸ by simp)
    exact absurd (List.mem_singleton.1 this) ne

/-- The contributions of a decided round of two are those to its rectangle and round. -/
theorem mem_pair_iff_same (mem : x ∈ s.maxx) (ne : y ≠ x) {z : Contribution} (hz : z ∈ s.maxx) : z ∈ [x, y] ↔ x.same z = true := by
  refine ⟨fun h => ?_, fun same => ?_⟩
  · rcases List.mem_cons.1 h with rfl | h
    · exact same_self decided
    · exact List.mem_singleton.1 h ▸ same_other decided mem ne
  · obtain ⟨tied, -, -⟩ := maxxDecided_pair decided
    have self := singleton_subset_tiedStep mem (same_self decided)
    rw [← tied, maxxTied_succ]
    exact subset_maxxTied (tiedStep_mono self) _
      (mem_tiedStep.2 ⟨hz, x, List.mem_singleton_self x, .inl same⟩)
end

/-! Formats. -/

theorem fmtBits_pos (f : Nat) : 0 < fmtBits f := by
  unfold fmtBits
  split <;> decide

theorem canonNan_lt {f : Nat} (ieee : isIeee f = true) : canonNan f < 2 ^ fmtBits f := by
  simp only [isIeee, Bool.and_eq_true, decide_eq_true_eq] at ieee
  obtain ⟨low, high⟩ := ieee
  interval_cases f <;> decide

/-- The maximum of two lanes is a lane. -/
theorem minMax_lt {f a b : Nat} (ha : a < 2 ^ fmtBits f) (hb : b < 2 ^ fmtBits f) (isMax : Bool) : (minMax f isMax a b).1 < 2 ^ fmtBits f := by
  unfold minMax
  split
  case isTrue ieee =>
    unfold minMaxF
    dsimp only
    split
    · exact canonNan_lt ieee
    · dsimp only
      split
      · exact ha
      · exact hb
  case isFalse =>
    unfold minMaxI
    dsimp only
    split
    · exact ha
    · exact hb

/-- The element-wise maximum of two contributions (10_vector.md R322). -/
theorem maxxMax_pair (f : Nat) (x y : Contribution) : (maxxMax f [x, y]).1 =
    ((lanesOf x.value.toNat (fmtBits f) (1024 / fmtBits f)).zip (lanesOf y.value.toNat (fmtBits f) (1024 / fmtBits f))).map
      fun q => (minMax f true q.1 q.2).1 := by
  simp only [maxxMax, List.foldl_cons, List.foldl_nil, List.map_map]
  rfl

theorem maxxMax_pair_length (f : Nat) (x y : Contribution) : (maxxMax f [x, y]).1.length = 1024 / fmtBits f := by
  simp [maxxMax_pair, lanesOf_length]

theorem maxxMax_pair_getD (f : Nat) (x y : Contribution) {j : Nat} (hj : j < 1024 / fmtBits f) :
    (maxxMax f [x, y]).1.getD j 0 = (minMax f true (x.value.toNat / 2 ^ (fmtBits f * j) % 2 ^ fmtBits f)
      (y.value.toNat / 2 ^ (fmtBits f * j) % 2 ^ fmtBits f)).1 := by
  rw [maxxMax_pair, ← lanesOf_getD _ _ hj, ← lanesOf_getD _ _ hj]
  simp [List.getD, lanesOf_length, hj]

/-! Release. -/

/-- A core whose VMAXX waits no longer. -/
def Core.leaveMaxx (c : Core) : Core := { c with maxx := none }

/-- The core of a VMAXX that has its elements, when its destination is a register (10_vector.md R322). -/
def Core.maxxDone (c : Core) (w : VWord) (l : List GVal) (o : VOut) : Core :=
  (c.leaveMaxx.latched w (maxxForm w) o).vAfter (.vmaxx w) w (capsOf (vFields w) l) l (maxxForm w) o

theorem maxxFinish_of_ok {u t : State} {w : VWord} {l : List GVal} {round : BitVec 8} {g : Nat}
    (waits : u.me.maxx = some { op := .vmaxx w, caps := l, round := round, waited := g }) {o : VOut}
    (done : vFinish (u.modMe Core.leaveMaxx) (.vmaxx w) w (capsOf (vFields w) l) l (maxxForm w) o = .ok t) :
    maxxFinish u o false = t := by
  unfold Core.leaveMaxx at done
  simp only [maxxFinish, waits, Bool.false_eq_true, if_false, done]

theorem vDone_maxx_of_register {u : State} {w : VWord} (pops : popsOf u.me w (maxxForm w) = []) (reg : w.d.isLoc = false)
    (l : List GVal) (o : VOut) : vDone (u.modMe Core.leaveMaxx) (.vmaxx w) w (capsOf (vFields w) l) l (maxxForm w) o =
      u.modMe fun c => c.maxxDone w l o := by
  have me : (u.modMe Core.leaveMaxx).me = u.me.leaveMaxx := State.me_modMe _ _
  rw [vDone_of_no_pops _ _ _ _ _ (by rw [me]; exact pops), destWritten_of_register _ _ _ reg, State.modMe_modMe, State.modMe_modMe]
  rfl

theorem maxxFinish_of_register {u : State} {w : VWord} {l : List GVal} {round : BitVec 8} {g : Nat}
    (waits : u.me.maxx = some { op := .vmaxx w, caps := l, round := round, waited := g })
    (pops : popsOf u.me w (maxxForm w) = []) (reg : w.d.isLoc = false) (masked : FlagsMasked u) (o : VOut) :
    maxxFinish u o false = u.modMe fun c => c.maxxDone w l o := by
  have still : FlagsMasked (u.modMe Core.leaveMaxx) := by
    rw [FlagsMasked, State.me_modMe]
    exact masked
  rw [maxxFinish_of_ok waits (vFinish_of_masked _ _ _ _ _ _ still), vDone_maxx_of_register pops reg]

section
variable {c : Core} {w : VWord} {l : List GVal} {o : VOut}

theorem Core.maxxDone_maxx : (c.maxxDone w l o).maxx = none := Core.vAfter_maxx _ _ _ _ _ _ _

theorem Core.maxxDone_pcV (nest : c.nestV = none) : (c.maxxDone w l o).pcV = c.pcV + 12#64 :=
  Core.vAfter_pcV (c.leaveMaxx.latched w (maxxForm w) o) _ _ _ _ _ _ nest

/-- With no predicate, every lane of the destination register takes its result at once. -/
theorem Core.maxxDone_lane {p : BitVec 5} (hd : w.d = .vreg p) (ha : w.a.isLoc = false) (hb : w.b.isLoc = false) (all : w.pred = 0#3)
    (whole : o.whole = none) (length : o.res.length = w.lanes) {j : Nat} (hj : j < w.lanes) :
    ((c.maxxDone w l o).rv p).toNat / 2 ^ (w.width * j) % 2 ^ w.width = o.res.getD j 0 % 2 ^ w.width := by
  have soon : (maxxForm w).latency w = 1 := by
    simp [VForm.latency, maxxForm, vForm, ha, hb]
  have active : (writtenBits c.leaveMaxx w (maxxForm w)).getD j false = true :=
    (actBits_getD (vActive_rising w _ (maxxForm w)) _ hj).2 (.inr (mem_vActive.2 ⟨hj, .inl all⟩))
  have landed := destValue_vector_lane (w := w) (c := c.leaveMaxx) (f := maxxForm w) whole (fmtBits_pos w.fmtN)
    (Nat.div_mul_le_self 1024 w.width) length (c.rv p).toNat hj
  rw [active, if_pos rfl] at landed
  rw [Core.maxxDone, Core.vAfter_rv, Core.latched_latches, destLatches_of_vreg hd, dueLatches_append _ (by exact soon)]
  have last := Core.land_rv_last (c.leaveMaxx.latched w (maxxForm w) o) (dueLatches c.leaveMaxx.latches) (x := Latch.nearer
    { isPred := false, index := p, remain := (maxxForm w).latency w
      value := BitVec.ofNat 1024 (destValue w (maxxForm w) (writtenBits c.leaveMaxx w (maxxForm w)) o (c.leaveMaxx.rv p).toNat
        (maxxForm w).wd (1024 / (maxxForm w).wd)) }) rfl
  exact (congrArg (fun y : VReg => y.toNat / 2 ^ (w.width * j) % 2 ^ w.width) last).trans landed
end

/-- The core of a contribution completes its VMAXX with the elements of the round, if it waits for that round. -/
def releaseAt (o : VOut) (t : State) (z : Contribution) : State :=
  atCore t z.core fun u => if u.me.maxx.map (·.round) = some z.round then maxxFinish u o false else u

/-- What a VMAXX of a decided round of two answers (10_vector.md R322). -/
def maxxAnswer (x y : Contribution) : VOut := { res := (maxxMax x.fmt.toNat [x, y]).1, flags := (maxxMax x.fmt.toNat [x, y]).2 }

/-- The state with the contributions to a decided round of two taken out of those that stand. -/
def State.dropMaxx (s : State) (x y : Contribution) : State := { s with maxx := s.maxx.filter fun z => !([x, y].contains z) }

theorem State.dropMaxx_coreAt (s : State) (x y : Contribution) (r : Nat) : (s.dropMaxx x y).coreAt r = s.coreAt r := rfl

section
variable {s : State} {x y : Contribution}
  (found : (s.maxx.find? fun y => y.core == s.rank && (s.me.maxx.map (·.round)) == some y.round) = some x)
include found

theorem exec_vmaxxRelease_of_undecided (undecided : maxxDecided s x = none) : exec .vmaxxRelease s = .next s := by
  change execVmaxxRelease s = _
  simp only [execVmaxxRelease, found, undecided]

theorem exec_vmaxxRelease_of_pair (decided : maxxDecided s x = some ([x, y], false)) (fmt : y.fmt = x.fmt) :
    exec .vmaxxRelease s = .next (releaseAt (maxxAnswer x y)
      (releaseAt (maxxAnswer x y) (s.dropMaxx x y) x) y) := by
  change execVmaxxRelease s = _
  simp only [execVmaxxRelease, found, decided, List.any_cons, List.any_nil, fmt, bne_self_eq_false, Bool.or_self, Bool.false_eq_true,
    if_false, List.foldl_cons, List.foldl_nil]
  rfl

theorem found_facts : x ∈ s.maxx ∧ x.core = s.rank ∧ s.me.maxx.map (·.round) = some x.round := by
  have holds := List.find?_some found
  simp only [Bool.and_eq_true, beq_iff_eq] at holds
  exact ⟨List.mem_of_find?_eq_some found, holds.1, holds.2⟩
end

/-- A core waits with a VMAXX for the round of a contribution, and takes the elements in a register with no flag enabled. -/
structure MaxxReady (c : Core) (z : Contribution) (w : VWord) (l : List GVal) : Prop where
  waits : ∃ g, c.maxx = some { op := .vmaxx w, caps := l, round := z.round, waited := g }
  pops : popsOf c w (maxxForm w) = []
  reg : w.d.isLoc = false
  masked : (c.ctl.arflg >>> 16) &&& 0x3F#32 = 0#32

/-- Such a core completes its VMAXX, and every other core stands. -/
theorem releaseAt_of_ready {t : State} {z : Contribution} {w : VWord} {l : List GVal} (ready : MaxxReady (t.coreAt z.core) z w l)
    (o : VOut) : releaseAt o t z = t.modCore z.core fun c => c.maxxDone w l o := by
  obtain ⟨⟨g, waits⟩, pops, reg, masked⟩ := ready
  have here : ({ t with rank := z.core } : State).me.maxx.map (·.round) = some z.round := congrArg (Option.map (·.round)) waits
  have done := maxxFinish_of_register (u := { t with rank := z.core }) waits pops reg masked o
  rw [releaseAt, atCore, if_pos here, done]
  rfl

section
variable {t v : State} {x y : Contribution} {w u : VWord} {k l : List GVal} {o : VOut} (apart : y.core ≠ x.core)
  (first : MaxxReady (t.coreAt x.core) x w k) (second : MaxxReady (t.coreAt y.core) y u l) (after : v = releaseAt o (releaseAt o t x) y)
include apart first second after

/-- The cores of two contributions complete their VMAXX, one after the other. -/
theorem releaseAt_pair : v = (t.modCore x.core fun c => c.maxxDone w k o).modCore y.core fun c => c.maxxDone u l o := by
  rw [after, releaseAt_of_ready first, releaseAt_of_ready]
  rwa [State.coreAt_modCore, if_neg apart]

theorem releaseAt_pair_maxx : v.maxx = t.maxx := by rw [releaseAt_pair apart first second after]; rfl

theorem releaseAt_pair_rank : v.rank = t.rank := by rw [releaseAt_pair apart first second after]; rfl

theorem releaseAt_pair_first : v.coreAt x.core = (t.coreAt x.core).maxxDone w k o := by
  rw [releaseAt_pair apart first second after, State.coreAt_modCore, if_neg apart.symm, State.coreAt_modCore, if_pos rfl]

theorem releaseAt_pair_second : v.coreAt y.core = (t.coreAt y.core).maxxDone u l o := by
  rw [releaseAt_pair apart first second after, State.coreAt_modCore, if_pos rfl, State.coreAt_modCore, if_neg apart]
end

/-- Every lane of the destination holds the maximum of the two contributions (10_vector.md R322). -/
theorem Core.maxxDone_pair_lane {c : Core} {w : VWord} {l : List GVal} {x y : Contribution} {p : BitVec 5} (hd : w.d = .vreg p)
    (ha : w.a.isLoc = false) (hb : w.b.isLoc = false) (all : w.pred = 0#3) (fmt : w.fmt = x.fmt) {j : Nat}
    (hj : j < 1024 / fmtBits x.fmt.toNat) :
    ((c.maxxDone w l (maxxAnswer x y)).rv p).toNat / 2 ^ (fmtBits x.fmt.toNat * j) % 2 ^ fmtBits x.fmt.toNat =
      (minMax x.fmt.toNat true (x.value.toNat / 2 ^ (fmtBits x.fmt.toNat * j) % 2 ^ fmtBits x.fmt.toNat)
        (y.value.toNat / 2 ^ (fmtBits x.fmt.toNat * j) % 2 ^ fmtBits x.fmt.toNat)).1 := by
  obtain width : w.width = fmtBits x.fmt.toNat := by rw [VWord.width, VWord.fmtN, fmt]
  have lanes : w.lanes = 1024 / fmtBits x.fmt.toNat := by rw [VWord.lanes, width]
  have length : (maxxAnswer x y).res.length = w.lanes := by rw [lanes]; exact maxxMax_pair_length _ x y
  have landed := Core.maxxDone_lane (c := c) (l := l) hd ha hb all rfl length (j := j) (by rwa [lanes])
  have answer : (maxxAnswer x y).res.getD j 0 = _ := maxxMax_pair_getD _ x y hj
  rw [width, answer] at landed
  exact landed.trans (Nat.mod_eq_of_lt (minMax_lt (Nat.mod_lt _ (Nat.two_pow_pos _)) (Nat.mod_lt _ (Nat.two_pow_pos _)) true))

/-! Streams. -/

theorem Core.rbind_wbind (c : Core) (i : BitVec 3) (b : Binding) : (c.wbind i b).rbind i = b := by
  simp [Core.rbind, Core.wbind]

section
variable {s : State} {i : BitVec 3}

theorem exec_streamStripFetch_of_room (mode : (s.me.rbind i).mode = 1#2) (ahead : (s.me.rbind i).asked < (s.me.rbind i).count + 4)
    (more : (s.me.rbind i).asked < strmTotal (s.me.rbind i).desc) (goes : (s.me.rbind i).stopped = false) :
    exec (.streamStripFetch i) s = .next (s.setMe (s.me.wbind i { s.me.rbind i with asked := (s.me.rbind i).asked + 1 })) := by
  change execStreamStripFetch i s = _
  rw [execStreamStripFetch, if_pos ⟨mode, ahead, more, goes⟩]
  rfl

theorem exec_streamStripFetch_of_none (none : (s.me.rbind i).mode ≠ 1#2 ∨ (s.me.rbind i).count + 4 ≤ (s.me.rbind i).asked ∨
    strmTotal (s.me.rbind i).desc ≤ (s.me.rbind i).asked ∨ (s.me.rbind i).stopped = true) : exec (.streamStripFetch i) s = .next s := by
  change execStreamStripFetch i s = _
  rw [execStreamStripFetch, if_neg]
  rintro ⟨mode, ahead, more, goes⟩
  rcases none with other | full | done | stopped
  · exact other mode
  · exact absurd ahead (not_lt.2 full)
  · exact absurd more (not_lt.2 done)
  · simp [goes] at stopped

theorem stripOrder_of_none (none : (s.me.rbind i).after = none) : stripOrder s i = s := by simp only [stripOrder, none]

theorem stripOrder_of_ready {p : BitVec 32} (after : (s.me.rbind i).after = some p) (ready : stripReady s p = true) :
    ((stripOrder s i).me.rbind i).after = none := by
  simp only [stripOrder, after, ready, if_true, State.me_modMe, Core.rbind_wbind]

theorem exec_streamStripReturn_of_ordered {t : State} {z : Binding} (order : stripOrder s i = t) (bound : t.me.rbind i = z) :
    (z.after ≠ none → exec (.streamStripReturn i) s = .next t) ∧
    (z.mode = 1#2 → z.count + z.ahead.length < z.asked → z.stopped = false → z.after = none →
      (stripHeld t z (z.count + z.ahead.length) = none → exec (.streamStripReturn i) s =
        .next ((readStrip t z (z.count + z.ahead.length)).2.modMe fun c =>
          c.wbind i { z with ahead := z.ahead ++ [(readStrip t z (z.count + z.ahead.length)).1], since := none })) ∧
      ∀ va, stripHeld t z (z.count + z.ahead.length) = some (.ownTransit va) → exec (.streamStripReturn i) s =
        .next (t.modMe fun c => c.wbind i
          (if z.since.getD t.cycle + c.ctl.ownwait.toNat ≤ t.cycle then
            { z with ahead := z.ahead ++ [.faulted (mkTrap .v 0x0C va)], since := none }
          else { z with since := some (z.since.getD t.cycle) }))) := by
  change (_ → execStreamStripReturn i s = _) ∧
    (_ → _ → _ → _ → (_ → execStreamStripReturn i s = _) ∧ ∀ _, _ → execStreamStripReturn i s = _)
  subst order bound
  unfold execStreamStripReturn
  dsimp only
  refine ⟨fun waits => ?_, fun mode asked goes free => ⟨fun now => ?_, fun va held => ?_⟩⟩
  · rw [if_neg fun h => waits h.2.2.2]
  · rw [if_pos ⟨mode, asked, goes, free⟩, now]
  · rw [if_pos ⟨mode, asked, goes, free⟩, held]
end

/-- Settles O41, word by word and arrival by arrival: the watchdog's three cases; a release, whose decided round of two holds the
contributions that stand to it and no others (`mem_pair_iff_same`), and whose two cores then complete one after the other
(`releaseAt_pair`); the strips asked for ahead and the strips that return. -/
theorem vectorEvents : Obligations.VectorEvents := by
  unfold Obligations.VectorEvents
  intro s m x i b
  have strips := exec_streamStripReturn_of_ordered (s := s) (i := i) rfl rfl
  refine ⟨exec_vmaxxWatchdogExpiry_of_none, exec_vmaxxWatchdogExpiry_of_late, exec_vmaxxWatchdogExpiry_of_early,
    fun found => ⟨exec_vmaxxRelease_of_undecided found, ?release⟩,
    exec_streamStripFetch_of_room, exec_streamStripFetch_of_none, stripOrder_of_none, fun p => stripOrder_of_ready, strips.1,
    fun mode asked goes free held => (strips.2 mode asked goes free).1 held,
    fun va mode asked goes free held => (strips.2 mode asked goes free).2 va held⟩
  case release =>
    intro y w u k l g h p q c W lane decided other fmt nest nest' waits waits' facts
    obtain ⟨mem, core, round⟩ := found_facts found
    obtain ⟨⟨pops, hd, ha, hb, all, hw, masked⟩, ⟨pops', hd', ha', hb', all', hw', masked'⟩⟩ :=
      (List.forall_mem_cons.1 facts).imp_right (List.forall_mem_singleton.1)
    have apart : y.core ≠ x.core := core ▸ other
    have ne : y ≠ x := fun same => apart (congrArg _ same)
    have first : MaxxReady ((s.dropMaxx x y).coreAt x.core) x w k := by
      rw [State.dropMaxx_coreAt, core]
      exact ⟨⟨g, waits⟩, pops, by rw [hd]; rfl, masked⟩
    have second : MaxxReady ((s.dropMaxx x y).coreAt y.core) y u l := ⟨⟨h, waits'⟩, pops', by rw [hd']; rfl, masked'⟩
    obtain ⟨t, after⟩ : ∃ t, t = releaseAt (maxxAnswer x y) (releaseAt (maxxAnswer x y) (s.dropMaxx x y) x) y := ⟨_, rfl⟩
    have kept : t.maxx = s.maxx.filter fun z => !x.same z :=
      (releaseAt_pair_maxx apart first second after).trans (List.filter_congr fun z hz =>
        congrArg (!·) (Bool.eq_iff_iff.2 (List.contains_iff_mem.trans (mem_pair_iff_same decided mem ne hz))))
    have mine : t.me = s.me.maxxDone w k (maxxAnswer x y) := by
      rw [State.me, releaseAt_pair_rank apart first second after, show (s.dropMaxx x y).rank = x.core from core.symm,
        releaseAt_pair_first apart first second after, State.dropMaxx_coreAt, core]
      rfl
    have theirs : t.coreAt y.core = c.maxxDone u l (maxxAnswer x y) := (releaseAt_pair_second apart first second after :)
    refine ⟨t, (exec_vmaxxRelease_of_pair found decided fmt).trans (after ▸ rfl), kept, ?_⟩
    rw [mine, theirs]
    exact ⟨Core.maxxDone_maxx, Core.maxxDone_maxx, Core.maxxDone_pcV nest, Core.maxxDone_pcV nest', fun j hj =>
      ⟨Core.maxxDone_pair_lane hd ha hb all hw hj, Core.maxxDone_pair_lane hd' ha' hb' all' hw' hj⟩⟩

end Sys2Proof.Machine
end

section
/-! PROOF. M words that move images: the bytes of a range replaced or taken out, shapes, transposed tiles, loads and stores of tiles
and accumulators, and converted windows (11_matrix.md R330 to R349), and obligation O42 from them. -/

namespace Sys2Proof.Machine

/-! Bytes of a range replaced or taken out. -/

/-- Bytes listed under new keys are found there, where no other key of the list becomes the one that is read. -/
theorem Mem.get_map_key {m : Mem} {f : Nat → Nat} {i : Nat} (apart : ∀ c ∈ m, f c.1 = f i → c.1 = i) :
    Mem.get (m.map fun c => (f c.1, c.2)) (f i) = m.get i := by
  induction m with
  | nil => rfl
  | cons c t ih =>
    obtain ⟨k, b⟩ := c
    have head : f k = f i ↔ k = i := ⟨apart (k, b) (by simp), congrArg f⟩
    simp only [List.map_cons, Mem.get, head, ih fun c hc => apart c (by simp [hc])]

theorem Mem.get_slice {m : Mem} {a n i : Nat} (hi : i < n) : (m.slice a n).get i = m.get (a + i) := by
  have shifted := Mem.get_map_key (m := (m.above a).below (a + n)) (f := (· - a)) (i := a + i) fun c hc e => by
    have := Mem.above_key c (List.mem_filter.1 hc).1
    omega
  rw [Nat.add_sub_cancel_left] at shifted
  rw [Mem.slice, shifted, Mem.get_below (by omega), Mem.get_above (by omega)]

/-- The keys of the bytes that an overlay places lie in its range. -/
theorem Mem.overlay_key {p : Mem} {a n : Nat} : ∀ c ∈ (p.below n).map (fun c => (a + c.1, c.2)), a ≤ c.1 ∧ c.1 < a + n := by
  intro c hc
  obtain ⟨d, hd, rfl⟩ := List.mem_map.1 hc
  have := Mem.below_key d hd
  exact ⟨by simp, by simpa using this⟩

theorem Mem.get_overlay_in {m p : Mem} {a n i : Nat} (hi : i < n) : (m.overlay a n p).get (a + i) = p.get i := by
  rw [Mem.overlay, Mem.get_append_left (fun c hc => by have := Mem.above_key c hc; omega),
    Mem.get_append_none (fun c hc => by have := Mem.below_key c hc; omega),
    Mem.get_map_key (f := (a + ·)) (fun c _ e => by simpa using e), Mem.get_below hi]

theorem Mem.get_overlay_out {m p : Mem} {a n k : Nat} (hk : k < a ∨ a + n ≤ k) : (m.overlay a n p).get k = m.get k := by
  rw [Mem.overlay]
  rcases hk with hk | hk
  · rw [Mem.get_append_left (fun c hc => by have := Mem.above_key c hc; omega),
      Mem.get_append_left (fun c hc => by have := Mem.overlay_key c hc; omega), Mem.get_below hk]
  · rw [Mem.get_append_none (fun c hc => ?_), Mem.get_above hk]
    rcases List.mem_append.1 hc with hc | hc
    · have := Mem.below_key c hc
      omega
    · have := Mem.overlay_key c hc
      omega

/-! Tiles and shapes. -/

@[simp] theorem Core.rtile_wtile (c : Core) (i : BitVec 3) (m : Mem) : (c.wtile i m).rtile i = m := by
  simp [Core.rtile, Core.wtile]

@[simp] theorem Core.rtile_setShape (c : Core) (i j : BitVec 3) (x : BitVec 32) : (c.setShape i x).rtile j = c.rtile j := rfl

/-- TSHP reads back a shape whose format, rows and columns fit its fields (11_matrix.md R330). -/
theorem Core.shape_setShape_bits (c : Core) (i : BitVec 3) {x : Shape} (fmt : x.fmt < 32) (rows : 0 < x.rows ∧ x.rows ≤ 128)
    (cols : 0 < x.cols ∧ x.cols ≤ 128) : (c.setShape i x.bits).shape i = x := by
  obtain ⟨f, r, k⟩ := x
  simp only [Core.shape, Core.setShape, Core.modCtl_ctl, Vector.getElem_set_self, Shape.bits, field, BitVec.toNat_ofNat,
    Shape.mk.injEq] at *
  omega

/-- The fields of TSHP bound a shape (11_matrix.md R330). -/
theorem Core.shape_bounds (c : Core) (i : BitVec 3) :
    (c.shape i).fmt < 32 ∧ (0 < (c.shape i).rows ∧ (c.shape i).rows ≤ 128) ∧ 0 < (c.shape i).cols ∧ (c.shape i).cols ≤ 128 := by
  simp only [Core.shape, field]
  omega

/-! Transposed images. -/

/-- Elements named by two numbers, in a row by one. -/
theorem flatten_map_range {α : Type} (f : Nat → Nat → α) (r c : Nat) :
    ((List.range c).map fun i => (List.range r).map (f i)).flatten = (List.range (r * c)).map fun q => f (q / r) (q % r) := by
  induction c with
  | zero => rfl
  | succ c ih =>
    rw [List.range_succ, List.map_append, List.flatten_append, ih, Nat.mul_succ, List.range_add, List.map_append]
    simp only [List.map_cons, List.map_nil, List.flatten_singleton, List.map_map]
    refine congrArg _ (List.map_congr_left fun x hx => ?_)
    have hx := List.mem_range.1 hx
    simp only [Function.comp, Nat.mul_add_mod, Nat.mod_eq_of_lt hx, Nat.mul_add_div (Nat.zero_lt_of_lt hx), Nat.div_eq_of_lt hx,
      Nat.add_zero]

/-- Piece j of written pieces of n bytes is read back. -/
theorem Mem.read_write_pieces (m : Mem) {a n : Nat} {ls : List (List Byte)} (len : ∀ x ∈ ls, x.length = n) {j : Nat}
    (hj : j < ls.length) : (m.write a ls.flatten).read (a + n * j) n = ls[j] := by
  have cut : ls.flatten = (ls.take j).flatten ++ (ls[j] ++ (ls.drop (j + 1)).flatten) := by
    conv_lhs => rw [← List.take_append_drop j ls, List.drop_eq_getElem_cons hj]
    rw [List.flatten_append, List.flatten_cons]
  have before : (ls.take j).flatten.length = n * j := by
    rw [List.length_flatten, List.map_eq_replicate_iff.2 fun x hx => len x (List.mem_of_mem_take hx), List.sum_replicate,
      List.length_take_of_le hj.le, smul_eq_mul, Nat.mul_comm]
  have mid := Mem.read_write_mid m a (ls.take j).flatten ls[j] (ls.drop (j + 1)).flatten
  rwa [← cut, before, len _ (List.getElem_mem hj)] at mid

/-- A transposed image, element by element: element q is that of row q mod r and column q div r (11_matrix.md R346). -/
theorem transposed_eq (m : Mem) (r c b : Nat) :
    transposed m r c b = ((List.range (r * c)).map fun q => m.read (b * (c * (q % r) + q / r)) b).flatten := by
  rw [← flatten_map_range (fun i j => m.read (b * (c * j + i)) b), List.flatten_flatten, List.map_map]
  rfl

/-- A transposed image written to a tile holds element (i, j) of its source as element (j, i) (11_matrix.md R346). -/
theorem Mem.readNat_write_transposed (m p : Mem) {r c b i j : Nat} (hi : i < r) (hj : j < c) :
    (p.write 0 (transposed m r c b)).readNat (b * (r * j + i)) b = m.readNat (b * (c * i + j)) b := by
  have within : r * j + i < r * c :=
    calc r * j + i < r * (j + 1) := by rw [Nat.mul_succ]; omega
      _ ≤ r * c := Nat.mul_le_mul_left r hj
  have piece := Mem.read_write_pieces p (a := 0) (n := b)
    (ls := (List.range (r * c)).map fun q => m.read (b * (c * (q % r) + q / r)) b) (by simp [Mem.read_length])
    (j := r * j + i) (by simpa using within)
  rw [← transposed_eq, Nat.zero_add, List.getElem_map, List.getElem_range, Nat.mul_add_mod, Nat.mod_eq_of_lt hi,
    Nat.mul_add_div (Nat.zero_lt_of_lt hi), Nat.div_eq_of_lt hi, Nat.add_zero] at piece
  rw [Mem.readNat, piece, Mem.readNat]

/-! Words that touch no memory. -/

section
variable {s : State} {w : MWord} {l : List GVal} (nb : w.nb = false)
include nb

theorem exec_tcfg_of_mStarts (hs : MStarts s (.tcfg w) l) : exec (.tcfg w) s = MAfter (s.modMe fun c => c.setShape (tileOf w.d)
    (BitVec.ofNat 32 (w.shape.fmt.toNat + w.shape.rows.toNat * 2 ^ 5 + w.shape.cols.toNat * 2 ^ 12))) (.tcfg w) 0#6 :=
  settleE_mExec_of_ok nb hs rfl

theorem exec_tzero_of_mStarts (hs : MStarts s (.tzero w) l) : exec (.tzero w) s = MAfter (s.modMe fun c =>
    if w.d.isTile then c.wtile (tileOf w.d) [] else c.wacc (accOf w.d) []) (.tzero w) 0#6 :=
  settleE_mExec_of_ok nb hs rfl

/-- A tile that is not configured, or holds blocks, is not transposed (11_matrix.md R334, R346). -/
theorem exec_ttr_of_illegal (hs : MStarts s (.ttr w) l)
    (bad : (s.me.shape (tileOf w.a)).fmt = 0 ∨ (blockM (s.me.shape (tileOf w.a)).fmt).isSome = true) :
    exec (.ttr w) s = .next (takeTrap s s.rank (mkTrap .m 0x01 0#64)) :=
  settleE_mExec_of_trap nb hs ((if_pos bad : ttrEffect w none (capsOf (mFields w) l) s = _) :)

/-- A tile that is transposed has its rows for columns, and each element in its turned place (11_matrix.md R346). -/
theorem exec_ttr_of_ieee (hs : MStarts s (.ttr w) l) (fmt : (s.me.shape (tileOf w.a)).fmt ≠ 0)
    (ieee : (blockM (s.me.shape (tileOf w.a)).fmt).isSome = false) :
    let x : Shape := s.me.shape (tileOf w.a)
    ∃ v, exec (.ttr w) s = MAfter v (.ttr w) 0#6 ∧ OnlyMe s v ∧ SameBytes s v ∧
      v.me.shape (tileOf w.d) = { fmt := x.fmt, rows := x.cols, cols := x.rows } ∧
      ∀ i j, i < x.rows → j < x.cols →
        let b : Nat := fmtBits x.fmt / 8
        (v.me.rtile (tileOf w.d)).readNat (b * (x.rows * j + i)) b = (s.me.rtile (tileOf w.a)).readNat (b * (x.cols * i + j)) b := by
  intro x
  obtain ⟨fits, rows, cols⟩ := s.me.shape_bounds (tileOf w.a)
  have effect : ttrEffect w none (capsOf (mFields w) l) s = _ := if_neg (by simp [fmt, ieee])
  refine ⟨_, settleE_mExec_of_ok nb hs effect, onlyMe_modMe _ _, sameBytes_modMe _ _, ?_, fun i j hi hj => ?_⟩
  · rw [State.me_modMe]
    exact Core.shape_setShape_bits _ _ (x := { fmt := x.fmt, rows := x.cols, cols := x.rows }) fits cols rows
  · rw [State.me_modMe, Core.rtile_setShape, Core.rtile_wtile]
    exact Mem.readNat_write_transposed _ _ hi hj

end

/-! Images in memory. -/

/-- The bytes of one chunk, as an engine reads them (11_matrix.md R335). -/
theorem State.get_sparseChunks_singleton (s : State) (c : Chunk) {b : Nat} (hb : b < c.len) :
    (s.sparseChunks [c] 0 []).get b = s.mem.get (c.key + b) := by
  have placed := Mem.get_overlay_in (m := []) (p := s.mem.slice c.key c.len) (a := 0) hb
  rwa [Nat.zero_add, Mem.get_slice hb] at placed

section
variable {u v : State} {e : Engine} {x : Word64} {n : Nat} {c : Chunk} (settled : engSettle u x [c] = v)
include settled

theorem engRead_of_poisoned (bad : v.chunksPoisoned [c] = true) : engRead u e x n (.bytes [c]) = .trap (mkTrap e 0x0D x) v := by
  rw [engRead, settled]
  exact if_pos bad

theorem engRead_of_sound (good : v.chunksPoisoned [c] = false) :
    engRead u e x n (.bytes [c]) = .ok (v.sparseChunks [c] 0 [], v) := by
  rw [engRead, settled]
  exact if_neg (by simp [good])
end

section
variable {s u v : State} {w : MWord} {k : Caps} {c : Chunk} {t : Target}

/-- A tile that is not configured, or of another format than the specifier, is not loaded (11_matrix.md R334). -/
theorem tldEffect_of_illegal (bad : (s.me.shape (tileOf w.d)).fmt = 0 ∨ fmtMatches w.a (s.me.shape (tileOf w.d)) = false) :
    tldEffect w none k s = .trap (mkTrap .m 0x01 0#64) s := if_pos bad

section
variable (fmt : (s.me.shape (tileOf w.d)).fmt ≠ 0) (same : fmtMatches w.a (s.me.shape (tileOf w.d)) = true)
  (spec : mspec s none w.a k.a (s.me.shape (tileOf w.d)).bytes permLoad = .ok (.bytes [c], u))
  (settled : engSettle u (specAddr none w.a k.a) [c] = v)
include fmt same spec settled

/-- A poisoned image is not loaded (11_matrix.md R335). -/
theorem tldEffect_of_poisoned (bad : v.chunksPoisoned [c] = true) :
    tldEffect w none k s = .trap (mkTrap .m 0x0D (specAddr none w.a k.a)) v := by
  rw [tldEffect, if_neg (by simp [fmt, same]), spec, Res.bind, engRead_of_poisoned settled bad]
  rfl

/-- A sound image is loaded over the tile's first bytes (11_matrix.md R344). -/
theorem tldEffect_of_sound (good : v.chunksPoisoned [c] = false) :
    tldEffect w none k s = .ok (v.modMe fun e => e.wtile (tileOf w.d)
      ((e.rtile (tileOf w.d)).overlay 0 (s.me.shape (tileOf w.d)).bytes (v.sparseChunks [c] 0 [])), 0#6) := by
  rw [tldEffect, if_neg (by simp [fmt, same]), spec, Res.bind, engRead_of_sound settled good]
  rfl
end

/-- A sound image is loaded into an accumulator (11_matrix.md R348). -/
theorem accldEffect_of_sound (spec : mspec s none w.a k.a accSize permLoad = .ok (.bytes [c], u))
    (settled : engSettle u (specAddr none w.a k.a) [c] = v) (good : v.chunksPoisoned [c] = false) :
    accldEffect w none k s = .ok (v.modMe fun e => e.wacc (accOf w.d) (v.sparseChunks [c] 0 []), 0#6) := by
  rw [accldEffect, spec, Res.bind, engRead_of_sound settled good]
  rfl

theorem tstEffect_of_spec (fmt : (s.me.shape (tileOf w.a)).fmt ≠ 0)
    (same : fmtMatches w.d (s.me.shape (tileOf w.a)) = true)
    (spec : mspec s none w.d k.d (s.me.shape (tileOf w.a)).bytes permStore = .ok (t, u)) :
    tstEffect w none k s = .ok (engWrite u (specAddr none w.d k.d) (s.me.shape (tileOf w.a)).bytes t
      { bytes := (s.me.rtile (tileOf w.a)).slice 0 (s.me.shape (tileOf w.a)).bytes }, 0#6) := by
  rw [tstEffect, if_neg (by simp [fmt, same]), spec, Res.bind]

theorem accstEffect_of_spec (spec : mspec s none w.d k.d accSize permStore = .ok (t, u)) :
    accstEffect w none k s =
      .ok (engWrite u (specAddr none w.d k.d) accSize t { bytes := s.me.racc (accOf w.a) }, 0#6) := by
  rw [accstEffect, spec, Res.bind]
end

/-! Converted windows. -/

/-- A window that reaches beyond the accumulator is not converted (11_matrix.md R349). -/
theorem acccvtEffect_of_beyond {s : State} {w : MWord} {k : Caps} (fmt : (s.me.shape (tileOf w.d)).fmt ≠ 0)
    (beyond : 128 < field k.c1.word 16 7 + (s.me.shape (tileOf w.d)).rows ∨ 128 < field k.c1.word 0 7 + (s.me.shape (tileOf w.d)).cols) :
    acccvtEffect w none k s = .trap (mkTrap .m 0x07 0#64) s := by
  rw [acccvtEffect, if_neg fmt, if_pos (.inr (.inr beyond))]

/-- Settles O42, word by word: the effect of each in the state in which it starts, and what that effect leaves in its tile or
accumulator. -/
theorem matrixResults : Obligations.MatrixResults := by
  unfold Obligations.MatrixResults
  intro s u w l t k xa nb
  refine ⟨exec_tcfg_of_mStarts nb, exec_tzero_of_mStarts nb,
    fun hs => ⟨exec_ttr_of_illegal nb hs, exec_ttr_of_ieee nb hs⟩, ?tld, ?tst, ?accld, ?accst, ?acccvt⟩
  case tld =>
    intro hs s0
    refine ⟨fun bad => settleE_mExec_of_trap nb hs (tldEffect_of_illegal bad), ?_⟩
    intro fmt same n c spec len v
    refine ⟨fun bad => ?_, fun good => ?_⟩
    · exact settleE_mExec_of_trap nb hs (tldEffect_of_poisoned fmt same spec rfl bad)
    · have effect := tldEffect_of_sound fmt same spec (v := v) rfl good
      refine ⟨_, settleE_mExec_of_ok nb hs effect, ?_, fun b hb => ?_, fun b hb => ?_⟩ <;> rw [State.me_modMe, Core.rtile_wtile]
      · rfl
      · have placed := Mem.get_overlay_in (m := v.me.rtile (tileOf w.d)) (p := v.sparseChunks [c] 0 []) (a := 0) hb
        rwa [Nat.zero_add, State.get_sparseChunks_singleton v c (len ▸ hb)] at placed
      · exact Mem.get_overlay_out (.inr (by rwa [Nat.zero_add]))
  case tst =>
    intro hs s0 fmt same n spec
    exact settleE_mExec_of_ok nb hs (tstEffect_of_spec fmt same spec)
  case accld =>
    intro hs c spec len v good
    have effect := accldEffect_of_sound spec (v := v) rfl good
    refine ⟨_, settleE_mExec_of_ok nb hs effect, ?_, fun b hb => ?_⟩ <;> rw [State.me_modMe, Core.racc_wacc]
    exact State.get_sparseChunks_singleton v c (len ▸ hb)
  case accst =>
    intro hs s0 spec
    exact settleE_mExec_of_ok nb hs (accstEffect_of_spec spec)
  case acccvt =>
    intro hs s0 o x scale key rows fmt high mid
    refine ⟨fun beyond => settleE_mExec_of_trap nb hs (acccvtEffect_of_beyond fmt beyond), fun fitRows fitCols sound =>
      settleE_mExec_of_ok nb hs (?_ : acccvtEffect w none k s0 = _)⟩
    have inside : ¬(field o 23 41 ≠ 0 ∨ field o 7 9 ≠ 0 ∨ 128 < field o 16 7 + x.rows ∨ 128 < field o 0 7 + x.cols) := by omega
    have clean : ¬((scale = true) ∧ s0.poisoned key 512 = true) := fun h => by simp [sound h.1] at h
    exact (if_neg fmt).trans ((if_neg inside).trans (if_neg clean))

end Sys2Proof.Machine
end

section
/-! PROOF. The completion of an NGO that waits for the words of its nest, and the refutation of obligation O44 at a core that the
state does not list (11_matrix.md R332, R340). -/

namespace Sys2Proof.Machine

/-- The NGO of a nest whose words have not all completed does not complete: its core is written back as it stands (11_matrix.md
R340). -/
theorem exec_mWordComplete_of_waiting {s : State} {m : MStarted} {i : Nat} (started : s.me.mwords[i]? = some m)
    (ngo : m.ngo = some m.pos) (waits : ∃ y ∈ s.me.mwords, y.ngo = m.ngo ∧ y.pos ≠ m.pos) :
    exec (.mWordComplete i) s = .next (s.setMe s.me) := by
  have waiting : (m.ngo == some m.pos && s.me.mwords.any fun x => x.ngo == m.ngo && x.pos != m.pos) = true := by
    obtain ⟨y, hy, same, apart⟩ := waits
    simpa [ngo] using ⟨y, hy, same.trans ngo, apart⟩
  change Host.Outcome.next (s.modMe fun c => _) = _
  simp only [State.modMe, started, waiting, if_true]

/-- A table in which a key's value is replaced by itself stands. -/
theorem Table.set_of_find {α : Type} {t : List (Nat × α)} {a : Nat} {v : α} (found : Table.find t a = some v) :
    Table.set t a v = t := by
  induction t with
  | nil => cases found
  | cons e t ih =>
    obtain ⟨k, w⟩ := e
    rw [Table.find] at found
    rw [Table.set]
    split at found
    case isTrue same => rw [if_pos same, same, Option.some.inj found]
    case isFalse other => rw [if_neg other, ih found]

/-- A core that the state lists is written back without a change. -/
theorem State.setMe_me_of_listed {s : State} (listed : (Table.find s.cores s.rank).isSome = true) : s.setMe s.me = s := by
  obtain ⟨c, found⟩ := Option.isSome_iff_exists.1 listed
  rw [State.me, State.coreAt, found, Option.getD_some, State.setMe, State.setCore, Table.set_of_find found]

/-- What O44 says of such an NGO holds at every core that the state lists. -/
theorem exec_mWordComplete_of_waiting_listed {s : State} {m : MStarted} {i : Nat} (listed : (Table.find s.cores s.rank).isSome = true)
    (started : s.me.mwords[i]? = some m) (ngo : m.ngo = some m.pos) (waits : ∃ y ∈ s.me.mwords, y.ngo = m.ngo ∧ y.pos ≠ m.pos) :
    exec (.mWordComplete i) s = .next s := by
  rw [exec_mWordComplete_of_waiting started ngo waits, State.setMe_me_of_listed listed]

/-- A started word of the nest that the NGO at position 6 runs. -/
def nestWord (pos : BitVec 32) : MStarted := { sig := 0#4, flags := 0#6, pos := pos, nest := true, ngo := some 6#32 }

/-- A state that lists no core, and whose unlisted cores stand with a word of a nest and with its NGO started. -/
def unlistedNest : State := { State.reset with blank := { Core.reset with mwords := [nestWord 0#32, nestWord 6#32] } }

/-- A word that uses nothing. -/
def idleWord : MWord :=
  { nb := false, cap2 := 0#6, cap1 := 0#6, sig := 0#4, wait := 0#4, d := .absent, a := .absent, b := .absent
    shape := { cols := 0#7, rows := 0#7, fmt := 0#5 }, mask := { enable := false, base := 0#4, off := 0#19 } }

/-- Refutes O44: an NGO that waits for a word of its nest is asked to leave the whole state as it is, and the step writes its core
back. At `unlistedNest`, whose list of cores is empty, that core is listed afterwards (with the same content), so the states
differ. At a core that is listed they do not (`exec_mWordComplete_of_waiting_listed`). -/
theorem not_matrixNests : ¬ Obligations.MatrixNests := by
  unfold Obligations.MatrixNests
  intro h
  have started : unlistedNest.me.mwords[1]? = some (nestWord 6#32) := rfl
  have waits : ∃ y ∈ unlistedNest.me.mwords, y.ngo = (nestWord 6#32).ngo ∧ y.pos ≠ (nestWord 6#32).pos :=
    ⟨nestWord 0#32, .head _, rfl, by decide⟩
  obtain ⟨-, -, -, -, -, -, -, stays, -⟩ := h unlistedNest idleWord [] (Nest.start [] 0 0) (nestWord 6#32) 1
  have same := (exec_mWordComplete_of_waiting started rfl waits).symm.trans (stays started rfl waits)
  have listed : [(unlistedNest.rank, unlistedNest.me)] = [] := congrArg State.cores (Host.Outcome.next.inj same)
  cases listed

end Sys2Proof.Machine
end

section
/-! PROOF. Decode of encode, over all constructors (obligation O57): each has its law under Laws/, and an event has no encoding. -/

namespace Sys2Proof.Laws.RoundTrip

/-- Settles O57: the law of each constructor; an event has no encoding. -/
theorem roundTrip : Obligations.RoundTrip
  | .add d a b => add d a b | .sub d a b => sub d a b | .mul d a b => mul d a b | .mulh d a b => mulh d a b
  | .div d a b => div d a b | .rem d a b => rem d a b | .and d a b => and d a b | .or d a b => or d a b
  | .xor d a b => xor d a b | .sll d a b => sll d a b | .srl d a b => srl d a b | .sra d a b => sra d a b
  | .slt d a b => slt d a b | .sltu d a b => sltu d a b | .min d a b => min d a b | .max d a b => max d a b
  | .clz d a => clz d a | .popc d a => popc d a | .mov d a => mov d a | .addi d a imm => addi d a imm
  | .andi d a imm => andi d a imm | .ori d a imm => ori d a imm | .xori d a imm => xori d a imm | .slli d a sh => slli d a sh
  | .srli d a sh => srli d a sh | .srai d a sh => srai d a sh | .lih d imm => lih d imm | .widf d a n => widf d a n
  | .capBnd d a b => capBnd d a b | .capPerm d a b => capPerm d a b | .capInc d a b => capInc d a b
  | .capSeal d a b => capSeal d a b | .capMov d a => capMov d a | .capClr d a => capClr d a | .capGet d a sel => capGet d a sel
  | .beq a b off => beq a b off | .bne a b off => bne a b off | .blt a b off => blt a b off | .bge a b off => bge a b off
  | .bltu a b off => bltu a b off | .bgeu a b off => bgeu a b off | .jal d off => jal d off | .jalr d a off => jalr d a off
  | .nest e a words levels => nest e a words levels | .safept idx => safept idx | .syncw mask => syncw mask
  | .mfc d idx => mfc d idx | .mtc d idx => mtc d idx | .mset d idx => mset d idx | .mclr d idx => mclr d idx
  | .ldB d a off => ldB d a off | .ldH d a off => ldH d a off | .ldW d a off => ldW d a off | .ldD d a off => ldD d a off
  | .ldQ d a off => ldQ d a off | .stB d a off => stB d a off | .stH d a off => stH d a off | .stW d a off => stW d a off
  | .stD d a off => stD d a off | .stQ d a off => stQ d a off | .ldloc x u d a inc => ldloc x u d a inc
  | .stloc x u d a inc => stloc x u d a inc | .pref lvl a off => pref lvl a off | .clwb a off => clwb a off
  | .clinv a off => clinv a off | .clinvI a off => clinvI a off | .fence s => fence s | .ldacq x s d a => ldacq x s d a
  | .strel x s d a => strel x s d a | .amoAdd o s d a b => amoAdd o s d a b | .amoAnd o s d a b => amoAnd o s d a b
  | .amoOr o s d a b => amoOr o s d a b | .amoXor o s d a b => amoXor o s d a b | .amoMin o s d a b => amoMin o s d a b
  | .amoMax o s d a b => amoMax o s d a b | .amoSwp o s d a b => amoSwp o s d a b | .amoCas o s d a b => amoCas o s d a b
  | .take d a off => take d a off | .peek d a off => peek d a off | .trytake d a off => trytake d a off
  | .putf d a off => putf d a off | .putw d a off => putw d a off | .empty a off => empty a off | .full a off => full a off
  | .ptest d a off => ptest d a off | .mbinc a b => mbinc a b | .mbincRel s a b => mbincRel s a b
  | .mbwait d a b => mbwait d a b | .mbrd d a => mbrd d a | .mbset a b => mbset a b | .barinit a b => barinit a b
  | .bararv d a => bararv d a | .barwait a b => barwait a b | .bartest d a => bartest d a | .bartwait d a b => bartwait d a b
  | .barjoin a slot => barjoin a slot | .monarm a off => monarm a off | .monwait d a => monwait d a | .spawn a => spawn a
  | .spawnr a b => spawnr a b | .codlt a b => codlt a b | .cdec a b => cdec a b | .amsg n d a b => amsg n d a b
  | .compose tall size d => compose tall size d | .gang size d => gang size d | .pfxl d a b => pfxl d a b
  | .pfxi d a b => pfxi d a b | .pfxdrop a b => pfxdrop a b | .kvmap d a b => kvmap d a b | .kvtrnc a b => kvtrnc a b
  | .kvpin a b => kvpin a b | .kvunpin a b => kvunpin a b | .attg a => attg a | .fcall d a b => fcall d a b
  | .fwait d a => fwait d a | .ftest d a => ftest d a | .fcancel d a => fcancel d a | .fdone a b => fdone a b
  | .rngsv d => rngsv d | .rngld a => rngld a | .trap code => trap code | .svc imm => svc imm | .brk imm => brk imm
  | .rdcyc d => rdcyc d | .rdptp d => rdptp d | .psave a => psave a | .prest a => prest a | .tlbfl s a b => tlbfl s a b
  | .fqtake d a => fqtake d a | .fqdone a b => fqdone a b | .ctxkill a => ctxkill a | .capgrant d a b => capgrant d a b
  | .vadd w => vadd w | .vsub w => vsub w | .vmul w => vmul w | .vfma w => vfma w | .vfms w => vfms w | .vfnma w => vfnma w
  | .vmin w => vmin w | .vmax w => vmax w | .vabs w => vabs w | .vneg w => vneg w | .vcmp w => vcmp w | .vsel w => vsel w
  | .vand w => vand w | .vor w => vor w | .vxor w => vxor w | .vnot w => vnot w | .vshl w => vshl w | .vshr w => vshr w
  | .vsra w => vsra w | .vcvt w => vcvt w | .vqnt w => vqnt w | .vdqnt w => vdqnt w | .vmaxx w => vmaxx w | .vsum w => vsum w
  | .vrmax w => vrmax w | .vrmin w => vrmin w | .vperm w => vperm w | .vbcast w => vbcast w | .vslide w => vslide w
  | .viota w => viota w | .vexp w => vexp w | .vlog w => vlog w | .vrcp w => vrcp w | .vrsq w => vrsq w | .vsqrt w => vsqrt w
  | .vdiv w => vdiv w | .vsin w => vsin w | .vcos w => vcos w | .vtanh w => vtanh w | .vsig w => vsig w | .vrng w => vrng w
  | .vld w => vld w | .vlds w => vlds w | .vst w => vst w | .vsts w => vsts w | .vgth w => vgth w | .vsct w => vsct w
  | .vmovgs w => vmovgs w | .vmovsg w => vmovsg w | .pand w => pand w | .por w => por w | .pnot w => pnot w | .pcnt w => pcnt w
  | .tcfg w => tcfg w | .tld w => tld w | .tst w => tst w | .tzero w => tzero w | .ttr w => ttr w | .mma w => mma w
  | .mmam w => mmam w | .accld w => accld w | .accst w => accst w | .acccvt w => acccvt w | .ngo w => ngo w
  | .nwait w => nwait w | .dcpy w => dcpy w | .dredAdd w => dredAdd w | .dredMax w => dredMax w | .dredMin w => dredMin w
  | .dgth w => dgth w | .dsct w => dsct w | .dgetMb w => dgetMb w | .dgetEv w => dgetEv w | .dput w => dput w
  | .dputF w => dputF w | .dstrm w => dstrm w | .dunb w => dunb w | .dshd w => dshd w | .dpub w => dpub w
  | .dstamp w => dstamp w | .dwaitAll w => dwaitAll w | .dwaitTok w => dwaitTok w | .dsig w => dsig w | .kvwr w => kvwr w
  | .ktTake rd rs => ktTake rd rs | .ktMark rd rs => ktMark rd rs | .lpbk => lpbk | .barexit => barexit | .yield => yield
  | .exit => exit | .split => split | .disband => disband | .eret => eret | .halt => halt | .blaze => blaze
  | .kettleCompletionSwap _ _ _ | .branchOutcomeConsume _ | .nestReplayIteration _ | .trapEntry _ | .interruptTake _
  | .postedStoreArrive _ | .remoteAccessArrive _ | .taggedArrival _ | .mailboxIncrementArrive _ _ | .stealProbe _
  | .stealServe _ | .stealRecordsArrive _ | .remotePushArrive _ _ | .codltApply _ _ | .cdecApply _ _ | .amsgArrive _
  | .amsgRefusalArrive _ _ | .streamStripFetch _ | .streamStripReturn _ | .dCommandComplete _ | .reductionUnitApply _
  | .reductionEndNotice _ | .futureTimeout _ | .fellPropose _ _ | .fellDeadlineExpiry _ | .kettleTestedAccess _
  | .sWalkerPassWord | .sLoadReturn _ _ | .pageWalkComplete _ | .cycleCompareMatch | .safePointOverrun
  | .ownershipFlipRequest _ _ _ | .ownershipFlipComplete | .ownershipStallTimeout | .heldArrivalOverrun | .presenceWaitResend
  | .bartwaitTimeout | .monwaitWake _ _ | .monwaitTimeout | .taskStart | .remotePushResend | .parkTimeout | .gangSliceInstant _
  | .partitionSwap _ _ | .groupWatchdogExpiry | .vmaxxRelease | .vmaxxWatchdogExpiry | .mWordStart | .mWordComplete _
  | .mNestIteration | .dCommandStart | .reductionResend | .injectGranule | .remoteCompletion _ | .kvPrefetchServe
  | .fellExecute | .fellactConfirm _ | .fellactVeto _ | .fellactMoveFront _ | .rankTableWrite _ _ _ | .dbgctlHaltreq
  | .dbgctlResume | .dbgctlStep | .debugStepDone | .debugViewWrite _ _ | .doorbellWrite | .coreResumeWrite | .ctxSuspend _
  | .ctxResume _ | .ctxBeginTeardown _ | .toolRingWrite _ _ | .fqringWrite _ | .ppringWrite _ | .ppputWrite _ | .pptakeRead _
  | .hostQueuePost _ | .sqcfgWrite _ | .sqTailWrite _ | .storageRequestComplete _ _ _ | .extentGrantInstall _ _ _
  | .attestationRequest _ | .ldrdbWrite _ | .loaderEntry _ | .hostdbWrite _ | .blztrigWrite | .blzctlUnlock | .blazePinTrigger
  | .blazeTimeTrigger | .blazeLatch | .powerOnBringUp _ | .junctionThrottle _ | .clockStepRestore _ | .thermalTrip
  | .lowFlowTrip | .inputDisconnect | .overvoltageEvent | .coolantEvent | .slackThrottle _ _ | .marginReplan _ _
  | .linkFlitRetry _ _ | .planeOutOfService _ | .uePacketArrival _ | .slipwWrite _ | .cwwinWrite _ | .scgrpWrite _
  | .mxcfgWrite _ | .kvdirWrite _ | .intpendClear _ | .registerWrite _ _ | .timeServoLockLoss | .timeServoLockRegain _
  | .partitionUnbind _ | .shadowReservationChange _ _ | .spareCoreReplacement _ _ | .moduleReset | .hostCoherentAccess _ _ _
  | .storeBufferPerform _ => fun _ _ _ h => nomatch h

end Sys2Proof.Laws.RoundTrip
end
section
/-! PROOF. The partition-level words at task level, TRAP, SVC, BRK, ERET, HALT and BLAZE, and the interrupt that a core takes
(obligations O30, O28, O29). -/

namespace Sys2Proof.Machine

/-! The partition level. -/

section
variable {s : State} (x : Res State)

theorem Core.atTask_iff {c : Core} : c.atTask = true ↔ c.level = 0 := beq_iff_eq

theorem partLevel_of_task (task : s.me.level = 0) : partLevel s x = .trap (trapS 0x07 0#64) s :=
  if_pos (Core.atTask_iff.2 task)

theorem partLevel_of_partition (part : s.me.level ≠ 0) : partLevel s x = x := if_neg fun h => part (Core.atTask_iff.1 h)

theorem settle_partLevel_of_task (task : s.me.level = 0) :
    settle s (partLevel s x) = .next (takeTrap s s.rank (trapS 0x07 0#64)) := by
  rw [partLevel_of_task x task]; rfl

end

/-- Settles O30: each of the words goes through `partLevel`. -/
theorem partitionLevelWords : Obligations.PartitionLevelWords := by
  unfold Obligations.PartitionLevelWords
  intro s d a b scope task i hi
  have traps := fun x => settle_partLevel_of_task x task
  simp only [List.mem_cons, List.not_mem_nil, or_false] at hi
  obtain rfl | rfl | rfl | rfl | rfl | rfl | rfl | rfl | rfl := hi
  · exact traps _
  · exact traps _
  · exact traps _
  · exact traps _
  · exact traps _
  · exact traps _
  · exact traps _
  · exact traps _
  · exact traps _

/-! Trapping words. -/

section
variable {s : State} {code : BitVec 8} {imm : BitVec 17}

theorem trapCode_iff : trapCode code.toNat = true ↔ 1 ≤ code.toNat ∧ code.toNat ≤ 0x13 ∧ code ≠ 0x0A#8 := by
  simp only [trapCode, Bool.and_eq_true, decide_eq_true_eq, bne_iff_ne, and_assoc, ne_eq, ← BitVec.toNat_inj]
  rfl

theorem exec_trap_of_named (named : trapCode code.toNat = true) : exec (.trap code) s = .next (askTrap s code 0) :=
  congrArg (settle s) (if_pos named)

theorem exec_trap_of_reserved (reserved : ¬trapCode code.toNat = true) :
    exec (.trap code) s = .next (takeTrap s s.rank (trapS 0x01 0#64)) :=
  congrArg (settle s) (if_neg reserved)

theorem exec_brk_of_plain (plain : s.me.brken = false) : exec (.brk imm) s = .next (askTrap s 0x10#8 imm.toNat) :=
  congrArg Host.Outcome.next (if_neg (Bool.eq_false_iff.1 plain))

theorem exec_brk_of_enabled (enabled : s.me.brken = true) :
    exec (.brk imm) s = .next (debugHalt (s.modMe Core.next) s.rank 2#4) :=
  congrArg Host.Outcome.next (if_pos enabled)

end

/-! ERET, HALT and BLAZE. -/

section
variable {s t : State} {k : Nat} (part : s.me.level ≠ 0)
include part

theorem exec_eret_of_no_depth (depth : s.me.depth = 0) : exec .eret s = .next (takeTrap s s.rank (trapS 0x07 0#64)) := by
  have eret_eq : eret s = .trap (trapS 0x07 0#64) s := if_pos depth
  exact (congrArg (settle s) ((partLevel_of_partition _ part).trans eret_eq))

theorem exec_eret_of_plain_frame (depth : s.me.depth ≠ 0) (quiet : s.me.quiet = true) (landed : s.landed s.rank = true)
    (walks : s.walking s.rank = false) (ht : syncAll s = t) (hk : frameKey t s.rank (s.me.depth - 1) = k)
    (ok : frameOk t k = true)
    (sound : t.poisoned k (if t.mem.readNat (k + 3) 1 / 2 % 2 = 1 then frSize else frShort) = false)
    (plain : field t.me.ctl.parkon 63 1 = 0) : exec .eret s = .next (returnTo t s.rank k) := by
  subst ht hk
  have eret_eq : eret s = .ok (returnTo (syncAll s) s.rank (frameKey (syncAll s) s.rank (s.me.depth - 1))) := by
    simp only [eret, depth, quiet, landed, walks, ok, sound, plain, Bool.true_eq_false, Bool.false_eq_true, or_self, if_false,
      zero_ne_one]
  exact congrArg (settle s) ((partLevel_of_partition _ part).trans eret_eq)

theorem exec_halt_of_done (quiet : s.me.quiet = true) (landed : s.landed s.rank = true) (alone : s.gangMaxx s.rank = false) :
    exec .halt s = .next (haltCore ((endForDebug (syncAll s) s.rank).modMe Core.next) s.rank 5#4) := by
  refine congrArg (settle s) ((partLevel_of_partition _ part).trans (if_neg ?_))
  simp only [quiet, landed, alone, Bool.true_eq_false, Bool.false_eq_true, or_self, not_false_eq_true]

end

theorem endForDebug_of_single {s : State} {r : Nat} (single : (s.coreAt r).group = .single) : endForDebug s r = s := by
  simp only [endForDebug, single]

theorem haltCore_next_of_rank {s : State} {r : Nat} (rank : s.rank = r) (why : BitVec 4) :
    haltCore (s.modMe Core.next) r why = s.setMe ({ s.me with halt := some why, stepping := false } : Core).next := by
  subst rank
  exact State.modCore_modCore s s.rank _ _

section
variable {s : State}

theorem blazeTrigger_me : (blazeTrigger s).me = s.me := by
  unfold blazeTrigger; split <;> rfl

theorem exec_blaze_of_allowed (may : s.me.level ≠ 0 ∨ s.blzTask = true) :
    exec .blaze s = .next ((blazeTrigger s).modMe Core.next) := by
  refine congrArg (settle s) (if_neg ?_)
  rintro ⟨task, barred⟩
  exact may.elim (fun part => part (Core.atTask_iff.1 task)) fun open_ => Bool.false_ne_true (barred.symm.trans open_)

theorem blazeTrigger_of_unlocked (free : s.blzLock = false) :
    blazeTrigger s = { s with blzDue := some (s.blzDue.getD (s.cycle + 64)) } := if_neg (Bool.eq_false_iff.1 free)

theorem blazeTrigger_of_locked (locked : s.blzLock = true) :
    blazeTrigger s = { s with blzMissed := if s.blzMissed = 0xFFFF#16 then s.blzMissed else s.blzMissed + 1#16 } := if_pos locked

end

/-- Settles O28: the equations of the words, case by case. -/
theorem trapAndReturnWords : Obligations.TrapAndReturnWords := by
  unfold Obligations.TrapAndReturnWords
  refine ⟨fun s code imm => ⟨fun named => exec_trap_of_named (trapCode_iff.2 named),
    fun reserved => exec_trap_of_reserved fun h => reserved (trapCode_iff.1 h), rfl, exec_brk_of_plain, exec_brk_of_enabled⟩,
    fun s => ⟨?_, exec_eret_of_no_depth, ?_, fun may => ⟨fun free => ?_, fun locked => ?_⟩⟩⟩
  · intro part depth quiet landed walks ok sound plain
    exact exec_eret_of_plain_frame part depth quiet landed walks rfl rfl ok sound plain
  · intro part quiet landed alone single rank
    rw [exec_halt_of_done part quiet landed alone, endForDebug_of_single (by rwa [← rank]), haltCore_next_of_rank rank]
  · rw [exec_blaze_of_allowed may, blazeTrigger_of_unlocked free]
    rfl
  · refine ⟨_, exec_blaze_of_allowed may, ?_⟩
    rw [blazeTrigger_of_locked locked]
    exact ⟨toNat_saturating _, rfl⟩

/-! Interrupts. -/

section
variable {s : State} {i : Nat}

/-- What it means that an interrupt is due (15_system.md R436). -/
theorem interruptDue_facts (due : interruptDue s s.rank = some i) :
    i < 16 ∧ (s.intpend s.rank).getLsbD i = true ∧ s.me.ctl.inten.getLsbD i = true ∧
      (∀ j, j < i → ((s.intpend s.rank).getLsbD j && s.me.ctl.inten.getLsbD j) = false) ∧
      (s.me.level = 0 ∨ (s.me.level = 1 ∧ s.me.depth = 0 ∧ s.me.ctl.inten.getLsbD 31 = true)) := by
  obtain ⟨runs, found⟩ := Option.ite_none_right_eq_some.1 due
  obtain ⟨bit, below, first⟩ := List.find?_range_eq_some.1 found
  have hi : i < 16 := List.mem_range.1 below
  have mask : ∀ j, j < 16 → (0xFFFF#32).getLsbD j = true := by decide
  simp only [BitVec.getLsbD_and, mask i hi, Bool.and_true, Bool.and_eq_true] at bit
  refine ⟨hi, bit.1, bit.2, fun j hj => ?_, ?_⟩
  · have unset := first j hj
    simp only [BitVec.getLsbD_and, mask j (by omega), Bool.and_true, Bool.not_eq_eq_eq_not, Bool.not_true] at unset
    exact unset
  · have level := (Bool.and_eq_true_iff.1 runs).2
    simp only [Bool.and_eq_true, Bool.or_eq_true, beq_iff_eq, and_assoc] at level
    exact level

theorem exec_interruptTake_of_none (w : Option Walk) (idle : interruptDue s s.rank = none) :
    exec (.interruptTake w) s = .next s := by
  change execInterruptTake w s = _
  rw [execInterruptTake, idle]

theorem exec_interruptTake_of_held (w : Option Walk) (due : interruptDue s s.rank = some i)
    (held : atFence s = true ∨ s.me.atHub = true ∨ s.me.firstDue = true) : exec (.interruptTake w) s = .next s := by
  change execInterruptTake w s = _
  rw [execInterruptTake, due]
  refine congrArg Host.Outcome.next (if_pos ?_)
  obtain h | h | h := held <;> simp only [h, Bool.or_true, Bool.true_or]

theorem exec_interruptTake_of_due {w : Option Walk} (due : interruptDue s s.rank = some i) (fence : atFence s = false)
    (hub : s.me.atHub = false) (first : s.me.firstDue = false) (walk : w = none ∨ awaitedWalk s s.rank = w) :
    exec (.interruptTake w) s = .next (takeTrap s s.rank
      { walker := none, cause := BitVec.ofNat 8 (0x20 + i), addr := 0#64, info := BitVec.ofNat 64 (0x20 + i), kind := .load }) := by
  change execInterruptTake w s = _
  rw [execInterruptTake, due]
  refine congrArg Host.Outcome.next (if_neg ?_)
  obtain rfl | rfl := walk <;> simp [fence, hub, first]

end

/-- A bit read as a field. -/
theorem getLsbD_eq_field {w : Nat} (x : BitVec w) (i : Nat) : x.getLsbD i = decide (field x i 1 = 1) := by
  rw [BitVec.getLsbD, Nat.testBit_eq_decide_div_mod_eq, field, pow_one]

theorem getLsbD_setField_field {w : Nat} (x y : BitVec w) {i : Nat} (hi : i < w) :
    (setField x i 1 (field y i 1)).getLsbD i = y.getLsbD i := by
  rw [getLsbD_eq_field, field_setField x _ hi, getLsbD_eq_field, field, Nat.mod_mod]

/-- Settles O29: what is due, by what `interruptDue` finds; what is taken, by the branches of the step. -/
theorem interruptTake : Obligations.InterruptTake := by
  unfold Obligations.InterruptTake
  intro s w
  refine ⟨fun i due => ?_, exec_interruptTake_of_none w, _, rfl, onlyMe_modMe s _, ?_, fun j => ?_⟩
  · obtain ⟨low, pending, enabled, lowest, level⟩ := interruptDue_facts due
    exact ⟨low, pending, enabled, lowest, level, exec_interruptTake_of_held w due, exec_interruptTake_of_due due⟩
  · rw [State.me_modMe]
    exact getLsbD_setField_field _ _ (by decide)
  · rw [State.me_modMe, Core.modCtl_rg]

end Sys2Proof.Machine
end
section
/-! PROOF. The words at the hub (13_kv.md R385), the other system words and the images of PSAVE and PREST (obligation O31). -/

namespace Sys2Proof.Machine

theorem settle_partLevel_of_ok {s t : State} {x : Res State} (part : s.me.level ≠ 0) (ok : x = .ok t) :
    settle s (partLevel s x) = .next t := by
  rw [partLevel_of_partition x part, ok]; rfl

/-! Requests of the hub. -/

section
variable {s u w : State} {q : HubReq} {step : State → HubReq → KvAns (Nat × Nat)}

theorem askHub_of_lazy (waits : u.lazy = true) :
    askHub step u q = .ok (({ u with hubReqs := u.hubReqs ++ [q] } : State).modMe fun c =>
      { c with blocked := some { op := .hub, since := u.cycle, deadline := none } }) := if_pos waits

theorem askHub_of_reply (now : u.lazy = false) {code v : Nat} (reply : (step u q).reply = some (code, v)) :
    askHub step u q = .ok ((step u q).2.modMe fun c => ((q.answered c code).wg q.d (GVal.ofNat v)).nextSafe) := by
  simp only [askHub, now, Bool.false_eq_true, if_false, reply]

theorem askHub_of_break (now : u.lazy = false) (reply : (step u q).reply = none) :
    askHub step u q = .trap (trapS 0x0D q.x) (step u q).2 := by
  simp only [askHub, now, Bool.false_eq_true, if_false, reply]

/-- A word whose answer is that of the hub completes as `HubAnswers` says. -/
theorem hubAnswers_of_askHub {i : Instr} (word : exec i s = settle s (askHub hubStep u q)) : HubAnswers s u i q := by
  refine ⟨fun waits => ?_, fun now => ⟨fun w code v h => ?_, fun w h => ?_, fun w h => ?_⟩⟩
  · rw [word, askHub_of_lazy waits]
    rfl
  · rw [word, askHub_of_reply (code := code) (v := v) now (by rw [h]; rfl), h]
    rfl
  · rw [word, askHub_of_reply (code := 2) (v := 0) now (by rw [h]; rfl), h]
    rfl
  · rw [word, askHub_of_break now (by rw [h]; rfl), h]
    rfl

/-- The request of a key-value word is answered by the step of the trees. -/
theorem hubStep_eq_kvHub (op : q.op ≠ .kill) : hubStep u q = kvHub u q := by
  unfold hubStep
  split
  · contradiction
  · rfl

theorem askHub_eq_hubWord (op : q.op ≠ .kill) : hubWord u q = askHub hubStep u q := by
  simp only [hubWord, askHub, hubStep_eq_kvHub op]

end

/-! CTXKILL. -/

section
variable {s t : State} {a : GIdx} {p : Part} {ctx : BitVec 16}

theorem Core.wg_absent (c : Core) (v : GVal) : c.wg 0#6 v = c := rfl

theorem hubStep_kill_of_entry {q : HubReq} {k : Nat} (op : q.op = .kill) (part : s.part? q.pid = some p)
    (entry : ctxEntry s p q.ctx .store = (some k, t)) :
    hubStep s q = (.ok (0, 0), if (ctxQueue t k).state = 0 then t else killCtx t p q.ctx k) := by
  simp only [hubStep, op, part, entry]

theorem exec_ctxkill_of_own (level : s.me.level ≠ 0) (wide : (s.me.rg a).bits.toNat < 2 ^ 16)
    (named : (s.me.rg a).bits.toNat ≠ 0) (part : s.part? s.me.pid = some p)
    (hctx : BitVec.ofNat 16 (s.me.rg a).bits.toNat = ctx) (own : ctxOf p ctx = true) :
    exec (.ctxkill a) s = settle s (askHub hubStep s (hubReq s 0#6 ctx 0#64 false .kill)) := by
  have cut : (s.me.rg a).bits.setWidth 16 = ctx := by rw [← hctx, BitVec.ofNat_toNat]
  have high : field (s.me.rg a).bits 16 112 = 0 := by
    rw [field, Nat.div_eq_of_lt wide, Nat.zero_mod]
  have some_ : ctx ≠ 0#16 := by
    rw [← hctx]
    exact fun h => named ((Nat.mod_eq_of_lt wide).symm.trans (congrArg BitVec.toNat h))
  refine congrArg (settle s) ((partLevel_of_partition _ level).trans ((if_neg (not_not.2 high)).trans ?_))
  simp only [part, cut, some_, own, Bool.true_eq_false, or_self, if_false]

theorem exec_ctxkill_of_entry (word : exec (.ctxkill a) s = settle s (askHub hubStep s (hubReq s 0#6 ctx 0#64 false .kill)))
    (part : s.part? s.me.pid = some p) {q : Nat} (entry : ctxEntry s p ctx .store = (some q, t)) (now : s.lazy = false) :
    exec (.ctxkill a) s =
      .next ((if (ctxQueue t q).state = 0 then t else killCtx t p ctx q).modMe fun c => c.next.clearDist) :=
  ((hubAnswers_of_askHub word).2 now).1 _ 0 0
    (hubStep_kill_of_entry (q := hubReq s 0#6 ctx 0#64 false .kill) rfl part entry)

end

/-! Flushes of the TLBs, the fault queue. -/

section
variable {s t u : State} {d a b : GIdx} {k : Chunk} {e : FaultEntry} (part : s.me.level ≠ 0)

section
include part

theorem exec_capgrant_of_ok {v : GVal} (granted : capGrant s (s.me.rg a) (s.me.rg b) = .ok v) :
    exec (.capgrant d a b) s = .next (putVal s d v) := by
  refine settle_partLevel_of_ok part ?_
  simp only [granted]

theorem exec_tlbfl_of_idle {scope : Scope} (flags : field (s.me.rg b).word 1 63 = 0)
    (idle : walksIn s scope s.rank s.me.pid = false) :
    exec (.tlbfl scope a b) s = .next ((flushTlbs s scope s.rank s.me.pid
      (if (s.me.rg b).word.getLsbD 0 then none else some (field (s.me.rg a).word 0 52))).modMe Core.next) := by
  refine congrArg (settle s) ((partLevel_of_partition _ part).trans ((if_neg (not_not.2 flags)).trans (if_neg ?_)))
  rw [idle]
  exact Bool.false_ne_true

section
variable (reads : access s .s (s.me.rg a) (s.me.rg a).word 32 permStore 32 .own = .ok (.bytes [k], t))
include reads

theorem exec_fqtake_of_none (none : oldestPending t s.me.pid = none) :
    exec (.fqtake d a) s = .next (putVal t d GVal.zero) := by
  refine settle_partLevel_of_ok part ?_
  simp only [reads, Res.bind, none]

theorem exec_fqtake_of_some (oldest : oldestPending t s.me.pid = some e)
    (hu : (setFault (settleFor t s.rank (s.me.rg a).word [k]) s.me.pid { e with status := 1#8 }).store k.key
      (faultBytes s.me.pid { e with status := 1#8 }) = u) :
    exec (.fqtake d a) s = .next (putVal u d (GVal.ofNat e.seq.toNat)) := by
  subst hu
  refine settle_partLevel_of_ok part ?_
  simp only [reads, Res.bind, oldest]

end

section
variable (seq : field (s.me.rg a).bits 32 96 = 0) (flag : field (s.me.rg b).bits 1 127 = 0) (ready : releaseReady s .pkg = true)
  (hu : perform s .pkg = u)
include seq flag ready hu

theorem exec_fqdone_of_none (none : faultEntryOf u s.me.pid ((s.me.rg a).bits.setWidth 32) = none) :
    exec (.fqdone a b) s = .next (u.modMe Core.next) := by
  subst hu
  refine settle_partLevel_of_ok part ?_
  simp only [seq, flag, ne_eq, not_true_eq_false, or_self, if_false, afterRelease_of_ready ready, none]

theorem exec_fqdone_of_taken (found : faultEntryOf u s.me.pid ((s.me.rg a).bits.setWidth 32) = some e)
    (taken : e.status = 1#8) :
    exec (.fqdone a b) s = .next ((endEntry u s.me.pid e ((s.me.rg b).bits.getLsbD 0)).modMe Core.next) := by
  subst hu
  refine settle_partLevel_of_ok part ?_
  simp only [seq, flag, ne_eq, not_true_eq_false, or_self, if_false, afterRelease_of_ready ready, found, taken, if_true]

end

end

/-- A value below 2^i has no bits from bit i on. -/
theorem field_of_lt {w : Nat} {x : BitVec w} {i n : Nat} (small : x.toNat < 2 ^ i) : field x i n = 0 := by
  rw [field, Nat.div_eq_of_lt small, Nat.zero_mod]

theorem GVal.word_toNat (v : GVal) : v.word.toNat = v.bits.toNat % 2 ^ 64 :=
  BitVec.toNat_setWidth _ _

theorem GVal.word_getLsbD (v : GVal) {i : Nat} (hi : i < 64) : v.word.getLsbD i = v.bits.getLsbD i := by
  simp [GVal.word, hi]

theorem GVal.field_word_low (v : GVal) {n : Nat} (hn : n ≤ 64) : field v.word 0 n = v.bits.toNat % 2 ^ n := by
  rw [field, GVal.word_toNat, pow_zero, Nat.div_one, Nat.mod_mod_of_dvd _ (Nat.pow_dvd_pow 2 hn)]

end

/-! PSAVE and PREST. -/

/-- The code that PSAVE and PREST store for a core (15_system.md R446). -/
def transferCode (q : State) (pid core : Nat) : Nat :=
  if q.coreOf pid core = false then 2 else if (q.coreAt core).halt.isNone then 1 else 0

section
variable {q : State} {pid core : Nat}

theorem transferCode_of_other (away : q.coreOf pid core = false) : transferCode q pid core = 2 := if_pos away

theorem transferCode_of_running (own : q.coreOf pid core = true) (runs : (q.coreAt core).halt.isSome = false) :
    transferCode q pid core = 1 := by
  simp [transferCode, own, Option.isSome_eq_false_iff.1 runs]

theorem transferCode_of_halted (own : q.coreOf pid core = true) (halted : (q.coreAt core).halt.isSome = true) :
    transferCode q pid core = 0 := by
  simp [transferCode, own, Option.isNone_eq_false_iff.2 halted]

end

section
variable {s t u q : State} {a : GIdx} {k : Chunk} {l : List Chunk} {need : BitVec 12} {f : State → Nat → List Chunk → State}

/-- The code that PSAVE and PREST store, and the state after the transfer (15_system.md R446). -/
theorem imageWord_of_reads (reads : access s .s (s.me.rg a) (s.me.rg a).word 64 (permLoad ||| permStore) 64 .own = .ok (.bytes [k], t))
    (hu : settleFor t s.rank (s.me.rg a).word [k] = u) (sound : u.poisoned k.key 64 = false)
    (plain : l.any (·.host) = false)
    (image : access u .s (u.loadUnit (k.key + 16)) (u.loadUnit (k.key + 16)).word imageSize need 64 .generic = .ok (.bytes l, q))
    {core code : Nat} (hcore : u.mem.readNat k.key 2 = core)
    (hcode : transferCode q s.me.pid core = code)
    (clean : code = 0 → need &&& permLoad = permLoad → q.chunksPoisoned l = false) :
    imageWord s a need f =
      .ok (((if code = 0 then f q core l else q).storeNat (k.key + 4) 4 code).modMe fun c => c.clearDist.next) := by
  subst hu hcore hcode
  simp only [imageWord, reads, Res.bind, sound, Bool.false_eq_true, if_false, image, plain]
  refine if_neg ?_
  rintro ⟨zero, loads, bad⟩
  exact Bool.false_ne_true ((clean zero loads).symm.trans bad)

end

/-- Settles O31: the equation of each word on operands that pass its checks. -/
theorem systemWords : Obligations.SystemWords := by
  unfold Obligations.SystemWords
  constructor
  · intro s t d a b scope e k v
    refine ⟨rfl, ?_, fun part => ⟨exec_capgrant_of_ok part, fun small idle => ?_, fun reads => ⟨exec_fqtake_of_none part reads,
      fun oldest => ?_⟩, fun small flag ready => ⟨?_, fun found taken => ?_⟩, fun p q wide named hp own => ?_⟩⟩
    · change Host.Outcome.next (putVal s d (GVal.ofNat (s.now % 2 ^ 64 + s.locked.toNat * 2 ^ 127))) = _
      cases s.locked <;> rfl
    · have flushed := exec_tlbfl_of_idle (a := a) part (field_of_lt ((GVal.word_toNat _).trans_lt small)) idle
      rwa [GVal.word_getLsbD _ (by decide), GVal.field_word_low _ (by decide)] at flushed
    · have taken := exec_fqtake_of_some (d := d) part reads oldest rfl
      rwa [GVal.ofNat_toNat] at taken
    · exact exec_fqdone_of_none part (field_of_lt small) (field_of_lt flag) ready rfl
    · exact exec_fqdone_of_taken part (field_of_lt small) (field_of_lt flag) ready rfl found taken
    · have word := exec_ctxkill_of_own part wide named hp rfl own
      exact ⟨hubAnswers_of_askHub word, fun entry now => exec_ctxkill_of_entry word hp entry now⟩
  · intro s t q a k l x u img core ends part reads sound plain
    have moves {f : State → Nat → List Chunk → State} {need : BitVec 12} {code : Nat}
        (image : access u .s img img.word imageSize need 64 .generic = .ok (.bytes l, q))
        (hcode : transferCode q s.me.pid core = code)
        (clean : code = 0 → need &&& permLoad = permLoad → q.chunksPoisoned l = false) :
        settle s (partLevel s (imageWord s a need f)) = ends (if code = 0 then f q core l else q) code :=
      settle_partLevel_of_ok part (imageWord_of_reads reads rfl sound plain image rfl hcode clean)
    have stores : (permStore ||| permStoreCap) &&& permLoad ≠ permLoad := by decide
    refine ⟨fun image => ⟨fun own halt => ?_, fun own halt => ?_, fun away => ?_⟩,
      fun image => ⟨fun own halt clean => ?_, fun own halt => ?_, fun away => ?_⟩⟩
    · exact moves image (transferCode_of_halted own halt) fun _ loads => absurd loads stores
    · exact moves image (transferCode_of_running own halt) fun zero => absurd zero one_ne_zero
    · exact moves image (transferCode_of_other away) fun zero => absurd zero two_ne_zero
    · exact moves image (transferCode_of_halted own halt) fun _ _ => clean
    · exact moves image (transferCode_of_running own halt) fun zero => absurd zero one_ne_zero
    · exact moves image (transferCode_of_other away) fun zero => absurd zero two_ne_zero

end Sys2Proof.Machine
end
section
/-! PROOF. Bring-up, trips, clocks, links and module reset (obligation O53). -/

namespace Sys2Proof.Machine

/-! Memory that a filter of keys keeps. -/

theorem Mem.get_filter_keys (m : Mem) (p : Nat → Bool) (a : Nat) :
    Mem.get (m.filter fun c => p c.1) a = if p a then m.get a else 0#8 := by
  split
  case isTrue kept => exact Mem.get_filter _ fun _ => kept
  case isFalse gone =>
    refine Mem.get_none fun c hc same => gone ?_
    rw [← same]
    exact (List.mem_filter.1 hc).2

/-! Tables of numbers. -/

theorem stepsOf_set (l : List (Nat × Nat)) (r n : Nat) : stepsOf (Table.set l r n) r = n := by
  rw [stepsOf, Table.find_set, if_pos rfl, Option.getD_some]

/-! Bring-up. -/

section
variable {rate fail step state : Nat} (hr : rate < 256) (hf : fail < 256) (hp : step < 256) (hs : state < 256)
include hr hf hp hs

theorem field_bootWord : field (bootWord rate fail step state) 0 8 = state ∧ field (bootWord rate fail step state) 8 8 = step ∧
    field (bootWord rate fail step state) 16 8 = fail ∧ field (bootWord rate fail step state) 32 8 = rate := by
  simp only [field, bootWord, BitVec.toNat_ofNat]
  omega

end

theorem trainedRate_lt (b : BringUp) : trainedRate b < 256 := (min_le_right _ _).trans_lt b.rate.isLt

section
variable {s : State} {b : BringUp} {k : Nat}

/-- The module from which bring-up goes on: as it is, or as a trip has left it. -/
def bootFrom (s : State) : State := if s.power then s else afterTrip s

theorem bootFrom_svn (s : State) : (bootFrom s).svn = s.svn := by
  unfold bootFrom; split <;> rfl

theorem exec_powerOnBringUp_of_ready (ready : s.ready = true) : exec (.powerOnBringUp b) s = .next s :=
  congrArg Host.Outcome.next (if_pos ready)

theorem exec_powerOnBringUp_of_step (down : s.ready = false) (hk : failStep s b = k) :
    exec (.powerOnBringUp b) s = .next { afterSteps (bootFrom s) b k with
      power := true, cur := .none
      bootstat := if k = 9 then bootWord (if 6 < k then trainedRate b else 0) 0 9 2
        else bootWord (if 6 < k then trainedRate b else 0) k (k - 1) 3 } := by
  subst hk
  exact congrArg Host.Outcome.next (if_neg (Bool.eq_false_iff.1 down))

theorem afterSteps_svn (s : State) (b : BringUp) : (afterSteps s b 9).svn.toNat = max s.svn.toNat b.svn.toNat := by
  change (if s.svn.toNat < b.svn.toNat then b.svn else s.svn).toNat = _
  split <;> omega

theorem bringUp_ends (down : s.ready = false) (all : failStep s b = 9) : ∃ t, exec (.powerOnBringUp b) s = .next t ∧
    t.ready = true ∧ t.power = true ∧ t.pkgRank = b.pkg ∧ t.locked = true ∧ t.ptp = b.ps ∧ t.slew = 0 ∧ t.link = true ∧
    field t.bootstat 32 8 = trainedRate b ∧ t.recHash = b.recHash ∧ t.fwHash = b.fwHash ∧
    t.svn.toNat = max s.svn.toNat b.svn.toNat := by
  obtain ⟨state, -, -, rate⟩ := field_bootWord (trainedRate_lt b) (Nat.zero_lt_succ 255 : 0 < 256) (by decide : 9 < 256)
    (by decide : 2 < 256)
  refine ⟨_, exec_powerOnBringUp_of_step down all, beq_iff_eq.2 state, rfl, rfl, rfl, rfl, rfl, rfl, rate, rfl, rfl, ?_⟩
  exact (afterSteps_svn _ b).trans (by rw [bootFrom_svn])

theorem bringUp_fails (down : s.ready = false) (hk : failStep s b = k) (low : 1 ≤ k) (high : k < 9) :
    ∃ t, exec (.powerOnBringUp b) s = .next t ∧ t.ready = false ∧ field t.bootstat 0 8 = 3 ∧ field t.bootstat 8 8 = k - 1 ∧
      field t.bootstat 16 8 = k := by
  have rate : (if 6 < k then trainedRate b else 0) < 256 := by
    have := trainedRate_lt b
    split <;> omega
  obtain ⟨state, step, fail, -⟩ := field_bootWord rate (by omega : k < 256) (by omega : k - 1 < 256) (by decide : 3 < 256)
  refine ⟨_, exec_powerOnBringUp_of_step down hk, ?_⟩
  rw [if_neg high.ne]
  refine ⟨?_, state, step, fail⟩
  exact beq_eq_false_iff_ne.2 fun h => absurd (state.symm.trans h) (by decide)

end

/-! Reset, loss of input and trips. -/

theorem wiped_hosts (s : State) (a : Nat) :
    (wiped s).mem.get a = if 0x1000_0000_0000 ≤ a ∧ a < 0xC * 2 ^ 52 then s.mem.get a else 0#8 := by
  refine (Mem.get_filter_keys s.mem (fun k => decide (0x1000_0000_0000 ≤ k) && decide (k < 0xC * 2 ^ 52)) a).trans ?_
  simp only [Bool.and_eq_true, decide_eq_true_eq]

/-- What a trip takes and what it leaves (19_integration.md R480, R481). -/
theorem tripped_facts (s : State) (e : LogEvent) :
    (tripped s e).power = false ∧ field (tripped s e).bootstat 0 8 = 4 ∧ (tripped s e).link = false ∧ (tripped s e).cores = [] ∧
      (tripped s e).logs = s.logs ++ [e] ∧ ∀ a, (tripped s e).mem.get a =
        if 0x0090_0000_0000 ≤ a ∧ a < 0xC * 2 ^ 52 then s.mem.get a else 0#8 := by
  refine ⟨rfl, ?_, rfl, rfl, rfl, fun a => ?_⟩
  · exact (field_setField_below _ _ (by decide) (by decide)).trans (field_setField _ _ (by decide))
  · refine (Mem.get_filter_keys s.mem (fun k => decide (0x0090_0000_0000 ≤ k ∧ k < 0xC * 2 ^ 52)) a).trans ?_
    simp only [decide_eq_true_eq]

/-! Clocks, voltages and links. -/

section
variable {s : State} {region cluster mv plane seq : Nat}

theorem exec_clockStepRestore_of_low (low : s.input < 44000) : exec (.clockStepRestore region) s = .next s :=
  congrArg Host.Outcome.next (if_pos low)

theorem exec_clockStepRestore_of_high (high : 44000 ≤ s.input) : exec (.clockStepRestore region) s =
    .next { s with clocks := Table.set s.clocks region (stepsOf s.clocks region - 1) } :=
  congrArg Host.Outcome.next (if_neg (Nat.not_lt.2 high))

theorem exec_marginReplan_of_inside (low : 550 ≤ mv) (high : mv ≤ 800) : exec (.marginReplan cluster mv) s =
    .next { s with volts := Table.set s.volts cluster mv
                   slacks := if stepsOf s.volts cluster < mv then Table.set s.slacks cluster 0 else s.slacks } :=
  congrArg Host.Outcome.next (if_pos ⟨low, high⟩)

theorem exec_marginReplan_of_outside (out : mv < 550 ∨ 800 < mv) : exec (.marginReplan cluster mv) s = .next s :=
  congrArg Host.Outcome.next (if_neg (by omega))

theorem exec_linkFlitRetry_of_other (other : seq ≠ stepsOf s.linkSeq plane) : exec (.linkFlitRetry plane seq) s = .next s :=
  congrArg Host.Outcome.next (if_neg other)

theorem exec_linkFlitRetry_of_next (next : seq = stepsOf s.linkSeq plane) :
    exec (.linkFlitRetry plane seq) s = .next { s with linkSeq := Table.set s.linkSeq plane (seq + 1) } :=
  congrArg Host.Outcome.next (if_pos next)

end

/-! Planes. -/

theorem mem_listed (l : List Nat) (x q : Nat) : q ∈ (if l.contains x then l else l ++ [x]) ↔ q ∈ l ∨ q = x := by
  split
  case isTrue listed =>
    have mem := List.contains_iff_mem.1 listed
    exact ⟨.inl, fun h => h.elim id fun same => same ▸ mem⟩
  case isFalse => rw [List.mem_append, List.mem_singleton]

/-- A pair of cores whose plane is out of service has every plane of its die out of service (19_integration.md R487). -/
theorem planes_of_planeOf {t : State} {a b : Nat} (out : planeOf t a b ∈ t.planes) {i : Nat} (hi : i < 24) :
    24 * (a / 1024) + ((a + b) % 24 + i) % 24 ∈ t.planes := by
  cases found : (planesOf a b).find? fun x => !t.planes.contains x with
  | some x =>
    have free := List.find?_some found
    rw [planeOf, found, Option.getD_some] at out
    simp [out] at free
  | none =>
    have all := List.find?_eq_none.1 found (24 * (a / 1024) + (a + b + i) % 24) (List.mem_map.2 ⟨i, List.mem_range.2 hi, rfl⟩)
    rw [Nat.mod_add_mod]
    simpa using all

/-- Settles O53: each event's equation, and what the state after it holds. -/
theorem powerEvents : Obligations.PowerEvents := by
  unfold Obligations.PowerEvents
  intro s b region cluster slack mv plane seq hosts
  refine ⟨exec_powerOnBringUp_of_ready, fun down => ⟨bringUp_ends down, bringUp_fails down rfl⟩,
    ⟨_, rfl, rfl, rfl, rfl, rfl, wiped_hosts s, rfl, rfl⟩, ⟨_, rfl, rfl, rfl, rfl, wiped_hosts s, rfl, rfl⟩, ?_, rfl, rfl,
    ⟨_, rfl, stepsOf_set _ _ _, rfl, rfl⟩, exec_clockStepRestore_of_low,
    fun high => ⟨_, exec_clockStepRestore_of_high high, stepsOf_set _ _ _, rfl, rfl⟩, ⟨_, rfl, stepsOf_set _ _ _, rfl⟩,
    fun low high => ⟨_, exec_marginReplan_of_inside low high, stepsOf_set _ _ _, fun raised => ?_⟩, exec_marginReplan_of_outside,
    exec_linkFlitRetry_of_other, fun next => ⟨_, exec_linkFlitRetry_of_next next, stepsOf_set _ _ _⟩, ⟨_, rfl, ?_, ?_, ?_⟩⟩
  · intro e he
    obtain rfl | rfl : e = (.thermalTrip, .thermalTrip) ∨ e = (.lowFlowTrip, .lowFlowTrip) := by simpa using he
    · exact ⟨_, rfl, tripped_facts s _⟩
    · exact ⟨_, rfl, tripped_facts s _⟩
  · exact (congrArg (stepsOf · cluster) (if_pos raised)).trans (stepsOf_set _ _ _)
  · exact (mem_listed s.planes plane plane).2 (.inr rfl)
  · exact fun q other => (mem_listed s.planes plane q).trans (or_iff_left other)
  · intro a b same i hi
    exact planes_of_planeOf (by rw [same]; exact (mem_listed s.planes plane plane).2 (.inr rfl)) hi

end Sys2Proof.Machine
end
section
/-! PROOF. The Kettle cores: kt.take, kt.mark, tested accesses and the completion swap (obligation O47). -/

namespace Sys2Proof.Machine

/-! A Kettle core's registers. -/

section
variable (k : Kettle) (i j : BitVec 5) (v : Word64)

@[simp] theorem Kettle.wx_pc : (k.wx i v).pc = k.pc := by unfold Kettle.wx; split <;> rfl

theorem Kettle.wx_next : (k.wx i v).next = { k.wx i v with pc := k.pc + 4#64 } := by rw [Kettle.next, Kettle.wx_pc]

theorem Kettle.rx_wx_self (nonzero : i ≠ 0#5) : (k.wx i v).rx i = v := by
  rw [Kettle.wx, if_neg nonzero]
  exact Vector.getElem_set_self _

theorem Kettle.rx_wx_other (other : j ≠ i) : (k.wx i v).rx j = k.rx j := by
  unfold Kettle.wx
  split
  · rfl
  · exact Vector.getElem_set_ne i.isLt j.isLt fun same => other (BitVec.eq_of_toNat_eq same.symm)

theorem State.kettle_setKettle (s : State) (k : Kettle) : (s.setKettle k).kettle = k := by
  change (Table.find (Table.set s.kettles s.kid.toNat k) s.kid.toNat).getD Kettle.reset = k
  rw [Table.find_set, if_pos rfl, Option.getD_some]

theorem Kettle.runtime_iff {l : KLevel} : l.runtime = true ↔ l = .hs := by cases l <;> decide

end

/-! The oldest call of a ring. -/

/-- Whether a future is a pending call of a ring that nothing has taken. -/
def Fut.untaken (f : Fut) (ring : Nat) : Bool :=
  f.state == 1#3 && !f.remote && f.ring.toNat == ring && f.taker == 0xFFFF#16

/-- The older of the call found so far and the next one. -/
def olderCall (o : Option (Nat × Fut)) (e : Nat × Fut) : Option (Nat × Fut) :=
  match o with
  | some x => if e.2.order < x.2.order then some e else some x
  | none => some e

theorem takable_eq (s : State) (ring : Nat) :
    takable s ring = (s.futs.filter fun e => e.2.untaken ring).foldl olderCall none := rfl

/-- The fold over calls from one that has been found gives one of them, no younger than any. -/
theorem foldl_olderCall_some (l : List (Nat × Fut)) (x : Nat × Fut) :
    ∃ y, l.foldl olderCall (some x) = some y ∧ (y = x ∨ y ∈ l) ∧ y.2.order ≤ x.2.order ∧ ∀ e ∈ l, y.2.order ≤ e.2.order := by
  induction l generalizing x with
  | nil => exact ⟨x, rfl, .inl rfl, le_rfl, by simp⟩
  | cons e l ih =>
    have step : ∃ z, olderCall (some x) e = some z ∧ (z = x ∨ z = e) ∧ z.2.order ≤ x.2.order ∧ z.2.order ≤ e.2.order := by
      by_cases younger : e.2.order < x.2.order
      · exact ⟨e, if_pos younger, .inr rfl, younger.le, le_rfl⟩
      · exact ⟨x, if_neg younger, .inl rfl, le_rfl, Nat.not_lt.1 younger⟩
    obtain ⟨z, hz, from_, hx, he⟩ := step
    obtain ⟨y, hy, mem, hyz, all⟩ := ih z
    refine ⟨y, by rw [List.foldl_cons, hz, hy], ?_, hyz.trans hx, ?_⟩
    · obtain rfl | mem := mem
      · exact from_.imp_right (List.mem_cons.2 <| .inl ·)
      · exact .inr (List.mem_cons_of_mem _ mem)
    · exact List.forall_mem_cons.2 ⟨hyz.trans he, all⟩

theorem takable_facts {s : State} {ring : Nat} {x : Nat × Fut} (found : takable s ring = some x) :
    x ∈ s.futs ∧ x.2.untaken ring = true ∧ ∀ e ∈ s.futs, e.2.untaken ring = true → x.2.order ≤ e.2.order := by
  rw [takable_eq] at found
  generalize hl : s.futs.filter (fun e => e.2.untaken ring) = l at found
  have mem (e : Nat × Fut) : e ∈ l ↔ e ∈ s.futs ∧ e.2.untaken ring = true := by rw [← hl, List.mem_filter]
  cases l with
  | nil => cases found
  | cons e l =>
    obtain ⟨y, hy, from_, hye, all⟩ := foldl_olderCall_some l e
    obtain rfl : y = x := Option.some.inj (hy.symm.trans found)
    obtain ⟨listed, untaken⟩ := (mem y).1 (from_.elim (fun same => same ▸ List.mem_cons_self) (List.mem_cons_of_mem _))
    exact ⟨listed, untaken, fun z hz hu => (List.mem_cons.1 ((mem z).2 ⟨hz, hu⟩)).elim (fun same => same ▸ hye) (all z)⟩

theorem takable_isSome {s : State} {ring : Nat} {e : Nat × Fut} (listed : e ∈ s.futs) (untaken : e.2.untaken ring = true) :
    takable s ring ≠ none := by
  rw [takable_eq]
  have mem : e ∈ s.futs.filter fun e => e.2.untaken ring := List.mem_filter.2 ⟨listed, untaken⟩
  generalize s.futs.filter (fun e => e.2.untaken ring) = l at mem
  cases l with
  | nil => cases mem
  | cons x l =>
    obtain ⟨y, hy, -⟩ := foldl_olderCall_some l x
    exact fun none => Option.some_ne_none y (hy.symm.trans none)

theorem Fut.untaken_iff {f : Fut} {ring : Nat} : f.untaken ring = true ↔
    f.state = 1#3 ∧ f.remote = false ∧ f.ring.toNat = ring ∧ f.taker = 0xFFFF#16 := by
  simp only [Fut.untaken, Bool.and_eq_true, beq_iff_eq, Bool.not_eq_true', and_assoc]

/-! The scan of the rings. -/

/-- The place of a ring in the scan that starts above the last one. -/
def scanPlace (last : BitVec 6) (ring : Nat) : Nat := (ring + 63 - last.toNat) % 64

theorem scanPlace_of_step {last : BitVec 6} {i : Nat} (hi : i < 64) : scanPlace last ((last.toNat + 1 + i) % 64) = i := by
  have := last.isLt
  unfold scanPlace
  omega

theorem step_of_scanPlace {last : BitVec 6} {ring : Nat} (small : ring < 64) :
    (last.toNat + 1 + scanPlace last ring) % 64 = ring := by
  have := last.isLt
  unfold scanPlace
  omega

/-- The first index of a range at which a function gives a value. -/
theorem findSome?_range {α : Type} {f : Nat → Option α} {n : Nat} {b : α} (found : (List.range n).findSome? f = some b) :
    ∃ i, i < n ∧ f i = some b ∧ ∀ j, j < i → f j = none := by
  obtain ⟨before, i, after, split, at_i, none_before⟩ := List.findSome?_eq_some_iff.1 found
  rw [List.range_eq_range', List.range'_eq_append_iff] at split
  obtain ⟨k, -, rfl, rest⟩ := split
  obtain ⟨rfl, more⟩ : k = i ∧ 0 < n - k := by
    cases hm : n - k with
    | zero => simp [hm] at rest
    | succ m =>
      rw [hm, List.range'_succ] at rest
      have head := (List.cons.inj rest).1
      omega
  exact ⟨k, by omega, at_i, fun j hj => none_before j (List.mem_range'_1.2 ⟨Nat.zero_le _, by omega⟩)⟩

/-- What a scan finds is takable in its ring, and no earlier ring of the mask has a takable call. -/
theorem scanRings_facts {s : State} {mask : Word64} {last : BitVec 6} {x : Nat × Fut} (found : scanRings s mask last = some x) :
    ∃ ring, ring < 64 ∧ mask.getLsbD ring = true ∧ takable s ring = some x ∧
      ∀ r, r < 64 → scanPlace last r < scanPlace last ring → mask.getLsbD r = true → takable s r = none := by
  rw [scanRings, List.findSome?_map] at found
  obtain ⟨i, small, at_i, none_before⟩ := findSome?_range found
  obtain ⟨masked, taken⟩ := Option.ite_none_right_eq_some.1 at_i
  refine ⟨_, Nat.mod_lt _ (by decide), masked, taken, fun r hr earlier open_ => ?_⟩
  rw [scanPlace_of_step small] at earlier
  have none_ := none_before _ earlier
  simpa only [Function.comp_apply, step_of_scanPlace hr, open_, if_true] using none_

/-- The call that a scan finds comes first among the takable calls of the mask: by its ring, and in a ring by its age. -/
theorem scanRings_first {s : State} {mask : Word64} {last : BitVec 6} {i : Nat} {f : Fut}
    (found : scanRings s mask last = some (i, f)) :
    (i, f) ∈ s.futs ∧ f.state = 1#3 ∧ f.remote = false ∧ f.taker = 0xFFFF#16 ∧ mask.getLsbD f.ring.toNat = true ∧
      ∀ e ∈ s.futs, e.2.state = 1#3 → e.2.remote = false → e.2.taker = 0xFFFF#16 → mask.getLsbD e.2.ring.toNat = true →
        scanPlace last f.ring.toNat < scanPlace last e.2.ring.toNat ∨ (f.ring = e.2.ring ∧ f.order ≤ e.2.order) := by
  obtain ⟨ring, small, masked, taken, earlier⟩ := scanRings_facts found
  obtain ⟨listed, untaken, oldest⟩ := takable_facts taken
  obtain ⟨state, near, same, free⟩ := Fut.untaken_iff.1 untaken
  simp only at same
  subst same
  refine ⟨listed, state, near, free, masked, fun e he state near free open_ => ?_⟩
  have hr : e.2.ring.toNat < 64 := by
    by_contra big
    rw [BitVec.getLsbD_of_ge _ _ (Nat.not_lt.1 big)] at open_
    cases open_
  have takes : e.2.untaken e.2.ring.toNat = true := Fut.untaken_iff.2 ⟨state, near, rfl, free⟩
  obtain before | before | before := Nat.lt_trichotomy (scanPlace last f.ring.toNat) (scanPlace last e.2.ring.toNat)
  · exact .inl before
  · have rings : f.ring.toNat = e.2.ring.toNat := by
      rw [← step_of_scanPlace (last := last) small, before, step_of_scanPlace hr]
    exact .inr ⟨BitVec.eq_of_toNat_eq rings, oldest e he (by rw [rings]; exact takes)⟩
  · exact absurd (earlier _ hr before open_) (takable_isSome he takes)

/-! kt.take and kt.mark. -/

/-- The call of a future that a Kettle core takes (14_futures.md R423). -/
def State.callHeld (s : State) (i : Nat) (f : Fut) : KHold :=
  { entry := i, handle := BitVec.ofNat 32 (futHandle i f), ring := f.ring.setWidth 6, wins := f.wins
    recAddr := BitVec.ofNat 48 ((s.ringAt f.ring.toNat).base + 64 * f.slot), replywin := f.replywin }

section
variable {s : State} {k : Kettle} {rd rs : BitVec 5} (hk : s.kettle = k)
include hk

theorem exec_ktTake_of_level (level : k.level ≠ .hs) : exec (.ktTake rd rs) s = .next (kettleIllegal s) := by
  subst hk
  exact congrArg Host.Outcome.next (if_pos (Bool.eq_false_iff.2 fun h => level (Kettle.runtime_iff.1 h)))

theorem exec_ktTake_of_held (level : k.level = .hs) (held : k.hold.isSome = true) :
    exec (.ktTake rd rs) s = .next (s.setKettle { k.wx rd (BitVec.ofNat 64 (2 ^ 64 - 1)) with pc := k.pc + 4#64 }) := by
  subst hk
  rw [← Kettle.wx_next]
  refine congrArg Host.Outcome.next ((if_neg ?_).trans (if_pos held))
  rw [level]
  decide

section
variable (level : k.level = .hs) (free : k.hold = none) {mask : Word64}
  (hm : (if rs = 0#5 then k.kring else k.kring &&& k.rx rs) = mask)
include level free hm

theorem exec_ktTake_of_none (none : scanRings s mask k.lastRing = none) :
    exec (.ktTake rd rs) s = .next (s.setKettle { k.wx rd 0#64 with pc := k.pc + 4#64 }) := by
  subst hk hm
  rw [← Kettle.wx_next]
  change execKtTake rd rs s = _
  simp only [execKtTake, level, free, none, KLevel.runtime, Bool.true_eq_false, Option.isSome_none, Bool.false_eq_true, if_false]

theorem exec_ktTake_of_call {i : Nat} {f : Fut} (found : scanRings s mask k.lastRing = some (i, f)) :
    exec (.ktTake rd rs) s = .next ((s.setFut i { f with taker := s.kid.setWidth 16, taken := true }).setKettle
      { k.wx rd ((s.callHeld i f).handle.setWidth 64) with
        pc := k.pc + 4#64, hold := some (s.callHeld i f), lastRing := f.ring.setWidth 6 }) := by
  subst hk hm
  change execKtTake rd rs s = _
  simp only [execKtTake, level, free, found, KLevel.runtime, Bool.true_eq_false, Option.isSome_none, Bool.false_eq_true, if_false,
    Kettle.wx_next]
  rfl

end

theorem exec_ktMark_of_level (level : k.level = .m) : exec (.ktMark rd rs) s = .next (kettleIllegal s) := by
  subst hk
  exact congrArg Host.Outcome.next (if_pos level)

section
variable (level : k.level ≠ .m)
include level

theorem exec_ktMark_of_none (none : k.hold = none) :
    exec (.ktMark rd rs) s = .next (s.setKettle { k.wx rd 1#64 with pc := k.pc + 4#64 }) := by
  subst hk
  rw [← Kettle.wx_next]
  refine congrArg Host.Outcome.next ((if_neg level).trans ?_)
  simp only [none]

section
variable {h : KHold} (held : k.hold = some h)
include held

theorem exec_ktMark_of_long (long : ((h.wins[h.replywin.toNat]?).map (·.len)).getD 0 < 4 * (k.rx rs).toNat) :
    exec (.ktMark rd rs) s = .next (s.setKettle { k.wx rd 2#64 with pc := k.pc + 4#64 }) := by
  subst hk
  rw [← Kettle.wx_next]
  refine congrArg Host.Outcome.next ((if_neg level).trans ?_)
  simp only [held, long, if_true]

variable (room : 4 * (k.rx rs).toNat ≤ ((h.wins[h.replywin.toNat]?).map (·.len)).getD 0)
include room

theorem exec_ktMark_of_pending (pending : (s.futAt h.entry).state = 1#3)
    (same : futHandle h.entry (s.futAt h.entry) = h.handle.toNat) :
    exec (.ktMark rd rs) s = .next ((s.setKettle { k.wx rd 0#64 with pc := k.pc + 4#64 }).setFut h.entry
      { s.futAt h.entry with replylen := BitVec.ofNat 32 (k.rx rs).toNat }) := by
  subst hk
  rw [← Kettle.wx_next]
  refine congrArg Host.Outcome.next ((if_neg level).trans ?_)
  simp only [held, Nat.not_lt.2 room, if_false, pending, same, and_self, if_true]

theorem exec_ktMark_of_gone (gone : (s.futAt h.entry).state ≠ 1#3 ∨ futHandle h.entry (s.futAt h.entry) ≠ h.handle.toNat) :
    exec (.ktMark rd rs) s = .next (s.setKettle { k.wx rd 0#64 with pc := k.pc + 4#64 }) := by
  subst hk
  rw [← Kettle.wx_next]
  refine congrArg Host.Outcome.next ((if_neg level).trans ?_)
  simp only [held, Nat.not_lt.2 room, if_false]
  exact if_neg fun both => gone.elim (· both.1) (· both.2)

end

end

end

/-! Tested accesses. -/

section
variable {s : State} {k : Kettle} {acc : KAccess} (hk : s.kettle = k)
include hk

theorem exec_kettleTestedAccess_of_fault
    (fault : (k.tested = true ∧ ¬∀ i, i < acc.n → k.byteOk acc.kind (acc.pa + i) = true) ∨
      ¬∀ i, i < acc.n → (s.row (acc.pa + i)).isSome = true) :
    exec (.kettleTestedAccess acc) s = .next (s.setKettle (k.except_ (accessCode acc.kind) acc.addr.toNat)) := by
  subst hk
  refine congrArg Host.Outcome.next (if_pos (fault.imp (And.imp_right fun some_ => ?_) fun some_ => ?_))
  · rw [← Bool.not_eq_true, List.all_eq_true]
    exact fun all => some_ fun i hi => all i (List.mem_range.2 hi)
  · by_contra none_
    refine some_ fun i hi => ?_
    by_contra absent
    exact none_ (List.any_eq_true.2 ⟨i, List.mem_range.2 hi, by simpa using absent⟩)

/-- A tested access that is granted and mapped, or one in the map that is not tested (14_futures.md R421). -/
theorem exec_kettleTestedAccess_of_granted
    (granted : k.tested = false ∨ ∀ i, i < acc.n → k.byteOk acc.kind (acc.pa + i) = true)
    (mapped : ∀ i, i < acc.n → (s.row (acc.pa + i)).isSome = true) :
    exec (.kettleTestedAccess acc) s = .next (match acc.kind with
      | .load => s.setKettle { k.wx acc.rd (BitVec.ofNat 64 (s.mem.readNat acc.pa acc.n)) with pc := k.pc + 4#64 }
      | .store => (s.store acc.pa (acc.data.take acc.n)).setKettle { k with pc := k.pc + 4#64 }
      | .fetch => s) := by
  subst hk
  rw [← Kettle.wx_next]
  refine congrArg Host.Outcome.next (if_neg ?_)
  rintro (⟨tested, some_⟩ | absent)
  · refine granted.elim (fun no => Bool.false_ne_true (no.symm.trans tested)) fun all => ?_
    refine Bool.false_ne_true (some_.symm.trans (List.all_eq_true.2 fun i hi => all i (List.mem_range.1 hi)))
  · obtain ⟨i, hi, none_⟩ := List.any_eq_true.1 absent
    rw [Option.isNone_iff_eq_none] at none_
    have there := mapped i (List.mem_range.1 hi)
    rw [none_] at there
    cases there

end

/-! The completion swap. -/

section
variable {s : State} {n : BitVec 14} {value : BitVec 32} {rd : BitVec 5}

theorem field_gen (value : BitVec 32) : field value 14 18 = value.toNat / 2 ^ 14 :=
  Nat.mod_eq_of_lt (by have := value.isLt; omega)

theorem swapCode_of_left {i : Nat} (left : (s.futAt i).state ≠ 1#3) : swapCode s i value = 2 := if_pos left

theorem swapCode_of_stale {i : Nat} (pending : (s.futAt i).state = 1#3) (stale : (s.futAt i).gen.toNat ≠ value.toNat / 2 ^ 14) :
    swapCode s i value = 1 :=
  (if_neg (not_not.2 pending)).trans (if_pos (by rwa [field_gen]))

theorem swapCode_of_current {i : Nat} (pending : (s.futAt i).state = 1#3) (gen : (s.futAt i).gen.toNat = value.toNat / 2 ^ 14) :
    swapCode s i value = match s.kettle.hold with
      | some h => if h.entry = i ∧ h.handle.toNat = futHandle i (s.futAt i) then 0 else 3
      | none => 3 :=
  (if_neg (not_not.2 pending)).trans (if_neg (by rw [field_gen]; exact not_not.2 gen))

/-- The Kettle core after a swap answers a code: the call that the word names is held no longer (14_futures.md R422). -/
def Kettle.swapped (k : Kettle) (n : BitVec 14) (value : BitVec 32) (rd : BitVec 5) (code : Nat) : Kettle :=
  let mine : Bool := match k.hold with | some h => h.handle.toNat == n.toNat + field value 14 18 * 2 ^ 14 | none => false
  { (k.wx rd (BitVec.ofNat 64 code)).next with hold := if mine then none else k.hold }

theorem Kettle.swapped_hold {k : Kettle} {code : Nat} {h : KHold} (held : k.hold = some h) :
    (k.swapped n value rd code).hold = if h.handle.toNat = n.toNat + value.toNat / 2 ^ 14 * 2 ^ 14 then none else some h := by
  simp only [Kettle.swapped, held, field_gen, beq_iff_eq]

theorem exec_kettleCompletionSwap_of_mine (mine : s.kettle.tested = false ∨ s.kettle.hold.map (·.entry) = some n.toNat) :
    exec (.kettleCompletionSwap n value rd) s = .next (if swapCode s n.toNat value = 0
      then leaveFut (s.setKettle (s.kettle.swapped n value rd (swapCode s n.toNat value))) n.toNat 2 (value.toNat % 256)
        (s.futAt n.toNat).replylen.toNat
      else s.setKettle (s.kettle.swapped n value rd (swapCode s n.toNat value))) := by
  have low : field value 0 8 = value.toNat % 256 := by simp [field]
  rw [← low]
  refine congrArg Host.Outcome.next (if_neg ?_)
  rintro ⟨tested, other⟩
  exact mine.elim (fun no => Bool.false_ne_true (no.symm.trans tested)) other

theorem exec_kettleCompletionSwap_of_other (tested : s.kettle.tested = true) (other : s.kettle.hold.map (·.entry) ≠ some n.toNat) :
    exec (.kettleCompletionSwap n value rd) s =
      .next { s.setKettle (s.kettle.except_ 7 (Config.kettleTval s.fresh).toNat) with fresh := s.fresh + 1 } :=
  congrArg Host.Outcome.next (if_pos ⟨tested, other⟩)

end

/-- Settles O47: each word's equations, and what the scan of the rings finds. -/
theorem kettleResults : Obligations.KettleResults := by
  unfold Obligations.KettleResults
  constructor
  · intro s rd rs i f h k gives mask n
    refine ⟨exec_ktTake_of_level rfl, fun level => ⟨exec_ktTake_of_held rfl level, fun free => exec_ktTake_of_none rfl level free rfl,
      fun free found => ?_, fun found => ?_⟩, exec_ktMark_of_level rfl, fun level => ⟨exec_ktMark_of_none rfl level,
      fun held => ⟨exec_ktMark_of_long rfl level held, exec_ktMark_of_pending rfl level held, exec_ktMark_of_gone rfl level held⟩⟩⟩
    · refine ⟨_, s.callHeld i f, exec_ktTake_of_call rfl level free rfl found, ?_⟩
      rw [State.kettle_setKettle]
      exact ⟨rfl, rfl, rfl, rfl, rfl, rfl, rfl, fun nonzero => Kettle.rx_wx_self k rd _ nonzero,
        fun j other => Kettle.rx_wx_other k rd j _ other⟩
    · exact scanRings_first found
  · intro s acc n value rd k granted there f code
    refine ⟨fun fault => ?_, fun ok mapped => ?_, fun mine => ⟨swapCode_of_left, swapCode_of_stale, fun pending gen => ?_,
      s.setKettle (k.swapped n value rd code), rfl, rfl, ?_⟩,
      fun tested other => ⟨_, exec_kettleCompletionSwap_of_other tested other⟩⟩
    · rw [exec_kettleTestedAccess_of_fault rfl fault]
      cases acc.kind <;> rfl
    · have done := exec_kettleTestedAccess_of_granted rfl ok mapped
      refine ⟨fun load => ?_, fun store => ⟨_, done, ?_⟩, fun fetch => ?_⟩
      · rw [done, load]
      · rw [store, State.kettle_setKettle]
        exact ⟨rfl, rfl⟩
      · rw [done, fetch]
    · have current := swapCode_of_current pending gen
      refine ⟨fun none_ => ?_, fun h held other => ?_, fun h held entry same => ?_⟩
      · exact current.trans (by rw [none_])
      · refine current.trans ?_
        rw [held]
        exact if_neg fun both => other.elim (· both.1) (· both.2)
      · refine current.trans ?_
        rw [held]
        exact if_pos ⟨entry, same⟩
    · rw [State.kettle_setKettle]
      refine ⟨rfl, ?_, fun h held => Kettle.swapped_hold held, exec_kettleCompletionSwap_of_mine mine⟩
      rw [Kettle.swapped, Kettle.wx_next]

end Sys2Proof.Machine
end
section
/-! PROOF. The events of the host, of remote packets and of storage, blazes and time (obligation O52). -/

namespace Sys2Proof.Machine

/-! Grants and doorbells. -/

section
variable {s : State} {core : BitVec 12}

/-- Bit 3 of INTPEND is raised: the host's doorbell (19_integration.md R483). -/
def Core.doorbell (c : Core) : Core := c.modCtl fun k => { k with intpend := setField k.intpend 3 1 1 }

/-- A saved core takes the doorbell of its rank. -/
def Part.doorbell (r : Nat) (p : Part) : Part :=
  { p with saved := p.saved.map fun m => if m.rank = r then { m with core := m.core.doorbell } else m }

theorem exec_hostdbWrite_of_unbound (unbound : field (s.rankAt 4 core.toNat) 31 1 = 0) : exec (.hostdbWrite core) s = .next s :=
  congrArg Host.Outcome.next (if_neg (by rw [unbound]; decide))

variable (bound : field (s.rankAt 4 core.toNat) 31 1 = 1)
include bound

theorem exec_hostdbWrite_of_saved (out : residentOn s core.toNat = none) :
    exec (.hostdbWrite core) s = .next (s.modPart (field (s.rankAt 4 core.toNat) 16 10) (Part.doorbell core.toNat)) :=
  congrArg Host.Outcome.next ((if_pos bound).trans (if_neg (by rw [out]; decide)))

theorem exec_hostdbWrite_of_resident (resident : (residentOn s core.toNat).isSome = true) :
    exec (.hostdbWrite core) s = .next (s.modCore core.toNat Core.doorbell) :=
  congrArg Host.Outcome.next ((if_pos bound).trans (if_pos resident))

end

theorem State.part?_pid {s : State} {pid : Nat} {p : Part} (hp : s.part? pid = some p) : p.pid = pid := by
  have found := List.find?_some hp
  exact beq_iff_eq.1 found

theorem mem_doorbell {p : Part} {m : CoreImage} (saved : m ∈ p.saved) :
    { m with core := m.core.doorbell } ∈ (p.doorbell m.rank).saved :=
  List.mem_map.2 ⟨m, saved, if_pos rfl⟩

/-! Blazes. -/

section
variable {s : State}

theorem exec_blazeTimeTrigger_of_due (due : blazeTimeDue s = true) :
    exec .blazeTimeTrigger s = .next (blazeTrigger { s with blzTime := none }) := congrArg Host.Outcome.next (if_pos due)

theorem exec_blazeTimeTrigger_of_early (early : blazeTimeDue s = false) : exec .blazeTimeTrigger s = .next s :=
  congrArg Host.Outcome.next (if_neg (Bool.eq_false_iff.1 early))

/-- Both triggers of the host are the same step of the hub. -/
theorem exec_blazeTrigger {i : Instr} (hi : i ∈ [Instr.blztrigWrite, .blazePinTrigger]) : exec i s = .next (blazeTrigger s) := by
  obtain rfl | rfl : i = .blztrigWrite ∨ i = .blazePinTrigger := by simpa using hi
  · rfl
  · rfl

theorem exec_blazeLatch_of_none (none : s.blzDue = none) : exec .blazeLatch s = .next s := by
  change execBlazeLatch s = _
  simp only [execBlazeLatch, none]

theorem exec_blazeLatch_of_early {due : Nat} (hdue : s.blzDue = some due) (early : s.cycle < due) :
    exec .blazeLatch s = .next s := by
  change execBlazeLatch s = _
  simp only [execBlazeLatch, hdue, early, if_true]

/-- The package as a blaze latches: every core has its snapshot, and the snapshots are locked (15_system.md R453, R454). -/
def State.latched (s : State) : State :=
  { s with
    blzDue := none, blzLock := true, blzSeq := s.blzSeq + 1#32
    cores := s.cores.map fun (e : Nat × Core) => (e.1, e.2.latchBlaze s.cycle (s.blzSeq + 1#32))
    blank := s.blank.latchBlaze s.cycle (s.blzSeq + 1#32) }

theorem State.latched_coreAt (s : State) (r : Nat) : s.latched.coreAt r = (s.coreAt r).latchBlaze s.cycle (s.blzSeq + 1#32) := by
  change (Table.find (s.cores.map fun (e : Nat × Core) => (e.1, e.2.latchBlaze s.cycle (s.blzSeq + 1#32))) r).getD _ = _
  rw [Table.find_map fun c : Core => c.latchBlaze s.cycle (s.blzSeq + 1#32)]
  exact Option.getD_map _ _ _

theorem exec_blazeLatch_of_due {due : Nat} (hdue : s.blzDue = some due) (late : due ≤ s.cycle) :
    exec .blazeLatch s = .next (blazeHalts s.latched (s.latched.cores.map (·.1))) := by
  change execBlazeLatch s = _
  simp only [execBlazeLatch, hdue, Nat.not_lt.2 late, if_false]
  rfl

theorem blazeHalts_of_none (l : List Nat) (none : ∀ r ∈ l, (s.coreAt r).blzhalt = false) : blazeHalts s l = s := by
  induction l with
  | nil => rfl
  | cons r l ih =>
    obtain ⟨first, rest⟩ := List.forall_mem_cons.1 none
    rw [blazeHalts, first, if_neg Bool.false_ne_true, ih rest]

theorem Table.find_of_mem_keys {α : Type} {l : List (Nat × α)} {a : Nat} (listed : a ∈ l.map (·.1)) :
    ∃ v, Table.find l a = some v ∧ (a, v) ∈ l := by
  induction l with
  | nil => cases listed
  | cons e l ih =>
    obtain ⟨b, w⟩ := e
    by_cases same : b = a
    · exact ⟨w, if_pos same, same ▸ List.mem_cons_self⟩
    · obtain ⟨v, found, mem⟩ := ih ((List.mem_cons.1 listed).resolve_left fun h => same h.symm)
      exact ⟨v, (if_neg same).trans found, List.mem_cons_of_mem _ mem⟩

theorem exec_blazeLatch_of_no_halt {due : Nat} (hdue : s.blzDue = some due) (late : due ≤ s.cycle)
    (runs : ∀ e ∈ s.cores, e.2.blzhalt = false) : exec .blazeLatch s = .next s.latched := by
  rw [exec_blazeLatch_of_due hdue late, blazeHalts_of_none]
  intro r listed
  have keys : s.latched.cores.map (·.1) = s.cores.map (·.1) := by
    rw [State.latched, List.map_map]
    rfl
  rw [keys] at listed
  obtain ⟨c, found, mem⟩ := Table.find_of_mem_keys listed
  rw [State.latched_coreAt]
  change (s.coreAt r).blzhalt = false
  rw [State.coreAt, found]
  exact runs _ mem

end

/-! Time. -/

/-- What is taken off a difference in n cycles: less than the time that passes, toward zero and not beyond. -/
theorem slewed_bounds (d : Int) (n : Nat) :
    -(1064 * n : Int) ≤ slewed d n ∧ (0 ≤ d → 0 ≤ slewed d n ∧ slewed d n ≤ d) ∧ (d ≤ 0 → d ≤ slewed d n ∧ slewed d n ≤ 0) := by
  have rate : (((Config.slewRate % 1063 + 1 : Nat) * n : Nat) : Int) ≤ ((1064 * n : Nat) : Int) :=
    Int.ofNat_le.2 (Nat.mul_le_mul_right n (by omega))
  rw [Nat.cast_mul] at rate
  have nonneg : (0 : Int) ≤ (Config.slewRate % 1063 + 1 : Nat) * n := by positivity
  unfold slewed
  generalize ((Config.slewRate % 1063 + 1 : Nat) * n : Int) = most at rate nonneg ⊢
  simp only
  omega

/-- Time passes by what the cycles make and by what is taken off the difference to the servo's (15_system.md R455). -/
theorem tick_time (s : State) (n : Nat) :
    s.ptp ≤ (tick s n).ptp ∧ ((tick s n).ptp : Int) + (tick s n).slew = s.ptp + 1064 * n + s.slew ∧
      (0 ≤ s.slew → 0 ≤ (tick s n).slew ∧ (tick s n).slew ≤ s.slew) ∧
      (s.slew ≤ 0 → s.slew ≤ (tick s n).slew ∧ (tick s n).slew ≤ 0) := by
  obtain ⟨low, up, down⟩ := slewed_bounds s.slew n
  by_cases even : s.slew = 0
  · simp only [tick, even, if_true]
    omega
  · simp only [tick, even, if_false]
    omega

/-! Packets. -/

section
variable {s : State} {k : UePacket}

theorem exec_uePacketArrival_of_unsupported (op : k.op = .unsupported) :
    exec (.uePacketArrival k) s = .next { s with outbox := s.outbox ++ [.nack k.seq] } := by
  refine congrArg Host.Outcome.next ((if_pos op).trans ?_)
  cases pair : k.pair <;> simp only [refusePacket, pair, op]

/-- The packet has come before: it is placed, or waits (19_integration.md R488). -/
theorem ueAgain_iff : ueAgain s k = true ↔ ∃ pair, k.pair = some pair ∧
    ((k.seq < stepsOf s.ueSeq pair ∧ ¬(pair, k.seq) ∈ s.ueRetry) ∨ ∃ q ∈ s.packets, q.pair = k.pair ∧ q.seq = k.seq) := by
  cases pair : k.pair <;> simp [ueAgain, ueResent, pair]

/-- The packet may be placed: it is its turn, and its rank is not in transit. -/
theorem ueMay_iff : ueMay s k = true ↔
    (∀ pair, k.pair = some pair → k.seq = stepsOf s.ueSeq pair ∨ (pair, k.seq) ∈ s.ueRetry) ∧
      ¬(region k.addr = 0xC ∧ coordPkg k.addr = s.pkgRank ∧ field (s.rankAt 4 (coordCore k.addr).toNat) 30 1 = 1) := by
  rw [ueMay, Bool.and_eq_true]
  refine and_congr ?_ ?_
  · cases pair : k.pair <;> simp [ueResent, pair]
  · simp [rankMoves, or_assoc, imp_iff_not_or, hubIface]

section
variable (known : k.op ≠ .unsupported)
include known

theorem exec_uePacketArrival_of_again (again : ueAgain s k = true) : exec (.uePacketArrival k) s = .next s :=
  congrArg Host.Outcome.next ((if_neg known).trans (if_pos again))

variable (new : ¬ueAgain s k = true)
include new

theorem exec_uePacketArrival_of_early (early : ¬ueMay s k = true) :
    exec (.uePacketArrival k) s = .next { s with packets := s.packets ++ [k] } :=
  congrArg Host.Outcome.next ((if_neg known).trans ((if_neg new).trans (if_neg early)))

theorem exec_uePacketArrival_of_may (may : ueMay s k = true) : exec (.uePacketArrival k) s = .next (placePacket s k) :=
  congrArg Host.Outcome.next ((if_neg known).trans ((if_neg new).trans (if_pos may)))

end

theorem packetDone_of_packetIn {t : State} {pid : Nat} {ok : Bool} (done : packetIn s pid k = (ok, t)) :
    packetDone s pid k = if ok then t else refusePacket t k := by
  rw [packetDone, done]

section
variable {pair : Nat} (paired : k.pair = some pair)
include paired

theorem placePacket_of_turn (first : ¬(pair, k.seq) ∈ s.ueRetry) :
    placePacket s k = packetDone { s with ueSeq := Table.set s.ueSeq pair (k.seq + 1) } (k.key.toNat % 1024) k := by
  simp [placePacket, paired, ueResent, first]

theorem placePacket_of_resent (resent : (pair, k.seq) ∈ s.ueRetry) :
    placePacket s k = packetDone { s with ueRetry := s.ueRetry.erase (pair, k.seq) } (k.key.toNat % 1024) k := by
  simp [placePacket, paired, ueResent, resent]

end

section
variable (host : k.pair = none)
include host

theorem placePacket_of_no_key
    (none : ∀ e ∈ s.keys, e.grants k.key k.addr.toNat (UeOp.needs k.op).1 (UeOp.needs k.op).2 = false) :
    placePacket s k = { s with outbox := s.outbox ++ [.nack k.seq] } := by
  have missing : s.keys.find? (fun e => e.grants k.key k.addr.toNat (UeOp.needs k.op).1 (UeOp.needs k.op).2) = Option.none :=
    List.find?_eq_none.2 fun e he => Bool.eq_false_iff.1 (none e he)
  simp only [placePacket, host, missing, refusePacket]

theorem placePacket_of_key {e : RemoteKey}
    (found : s.keys.find? (fun e => e.grants k.key k.addr.toNat (UeOp.needs k.op).1 (UeOp.needs k.op).2) = some e) :
    placePacket s k = packetDone s (field e.lo 0 16) k := by
  simp only [placePacket, host, found]

end

theorem packetDone_of_write {pid place : Nat} {bs : List Byte} (op : k.op = .write bs)
    (here : coordPlace s pid k.addr = some place) : packetDone s pid k = s.store place bs := by
  simp only [packetDone, packetIn, op, packetAccess, here, if_true]

end

/-! Coherent accesses and storage. -/

section
variable {s : State} {addr n : Nat} {bs : List Byte}

theorem exec_hostCoherentAccess_store (cxl : s.hostCxl = true) (link : s.link = true) (size : addr + bs.length ≤ s.hostSize)
    (line : addr % 64 + bs.length ≤ 64) :
    exec (.hostCoherentAccess addr (some bs) n) s = .next (s.store (hostKey addr) bs) :=
  congrArg Host.Outcome.next (if_pos ⟨cxl, link, size, line⟩)

theorem exec_hostCoherentAccess_load (cxl : s.hostCxl = true) (link : s.link = true) (size : addr + n ≤ s.hostSize)
    (line : addr % 64 + n ≤ 64) :
    exec (.hostCoherentAccess addr none n) s = .next { s with outbox := s.outbox ++
      [.reply (if s.poisoned (hostKey addr) n then none else some (s.mem.read (hostKey addr) n))] } :=
  congrArg Host.Outcome.next (if_pos ⟨cxl, link, size, line⟩)

theorem exec_hostCoherentAccess_of_refused
    (refused : s.hostCxl = false ∨ s.link = false ∨ s.hostSize < addr + bs.length ∨ 64 < addr % 64 + bs.length) :
    exec (.hostCoherentAccess addr (some bs) n) s = .next s := by
  refine congrArg Host.Outcome.next (if_neg ?_)
  rintro ⟨cxl, link, size, line⟩
  rw [cxl, link] at refused
  simp only at size line
  simp only [Bool.true_eq_false, false_or] at refused
  omega

end

section
variable {s t : State} {p : Part} {q : StorageReq} {i : Nat} {bs : List Byte} (part : s.part? s.me.pid = some p)
  (req : p.sq.reqs[i]? = some q)
include part req

theorem exec_storageRequestComplete_of_done (done : q.status.isSome = true) :
    exec (.storageRequestComplete i bs false) s = .next s := by
  change execStorageRequestComplete i bs false s = _
  simp only [execStorageRequestComplete, part, req, done, if_true]

variable (runs : q.status = none)
include runs

theorem exec_storageRequestComplete_of_error :
    exec (.storageRequestComplete i bs true) s = .next (storageEnd s p.pid i q 3) := by
  change execStorageRequestComplete i bs true s = _
  simp only [execStorageRequestComplete, part, req, runs, Option.isSome_none, Bool.false_eq_true, if_false, if_true]

theorem exec_storageRequestComplete_of_data {status : Nat} {taken : List Byte}
    (data : storageData s p q bs = (status, taken, t)) :
    exec (.storageRequestComplete i bs false) s = .next (storageEnd (if q.write = true ∧ status = 0
      then { t with outbox := t.outbox ++ [.storage p.pid q.index taken] } else t) p.pid i q status) := by
  change execStorageRequestComplete i bs false s = _
  simp only [execStorageRequestComplete, part, req, runs, Option.isSome_none, Bool.false_eq_true, if_false, data]

theorem exec_storageRequestComplete_of_read {x : List Byte} (write : q.write = true)
    (read : hubRead s p.ptroot q.buf.toNat q.len = (some x, t)) : exec (.storageRequestComplete i bs false) s =
      .next (storageEnd { t with outbox := t.outbox ++ [.storage p.pid q.index x] } p.pid i q 0) := by
  have data : storageData s p q bs = (0, x, t) := by simp only [storageData, write, if_true, read]
  rw [exec_storageRequestComplete_of_data part req runs data, if_pos ⟨write, rfl⟩]

theorem exec_storageRequestComplete_of_unread (write : q.write = true)
    (read : hubRead s p.ptroot q.buf.toNat q.len = (none, t)) :
    exec (.storageRequestComplete i bs false) s = .next (storageEnd t p.pid i q 2) := by
  have data : storageData s p q bs = (2, [], t) := by simp only [storageData, write, if_true, read]
  rw [exec_storageRequestComplete_of_data part req runs data, if_neg fun h => absurd h.2 (by decide)]

theorem exec_storageRequestComplete_of_write {ok : Bool} (reads : q.write = false)
    (wrote : hubWrite s p.ptroot q.buf.toNat ((bs ++ List.replicate q.len 0#8).take q.len) = (ok, t)) :
    exec (.storageRequestComplete i bs false) s = .next (storageEnd t p.pid i q (if ok then 0 else 2)) := by
  have data : storageData s p q bs = (if ok then 0 else 2, [], t) := by
    simp only [storageData, reads, Bool.false_eq_true, if_false, wrote]
  rw [exec_storageRequestComplete_of_data part req runs data, if_neg fun h => Bool.false_ne_true (reads.symm.trans h.1)]

end

/-- Settles O52: each event's equation, and what the state after it holds. -/
theorem hostAndOutsideEvents : Obligations.HostAndOutsideEvents := by
  unfold Obligations.HostAndOutsideEvents
  constructor
  · intro s slot g nonce core ps due
    refine ⟨rfl, ⟨_, { pid := g.pid.toNat, dev := g.dev, first := g.first, count := g.count, rd := g.rd, wr := g.wr }, rfl, ?_, rfl,
      rfl, rfl, rfl, rfl, rfl, rfl⟩, rfl, exec_hostdbWrite_of_unbound, fun bound out p m hp saved same => ?_,
      fun bound resident => ⟨_, exec_hostdbWrite_of_resident bound resident, ?_, rfl, fun q other => ?_⟩,
      fun locked i hi => ⟨_, exec_blazeTrigger hi, ?_⟩, fun free i hi => ?_, fun free due => ?_,
      exec_blazeTimeTrigger_of_early, rfl, exec_blazeLatch_of_none, exec_blazeLatch_of_early,
      fun hdue late runs => ⟨_, exec_blazeLatch_of_no_halt hdue late runs, rfl, rfl, rfl, rfl, fun r => ?_⟩, rfl, rfl, tick_time s due⟩
    · exact (Table.find_set _ _ _ _).trans (if_pos rfl)
    · have pid : p.pid = field (s.rankAt 4 core.toNat) 16 10 := State.part?_pid hp
      refine ⟨_, p.doorbell m.rank, _, exec_hostdbWrite_of_saved bound out, rfl, rfl, ?_, mem_doorbell saved, rfl, rfl⟩
      rw [pid, same]
      exact State.part?_modPart_self hp fun _ => rfl
    · rw [State.coreAt_modCore, if_pos rfl]
      rfl
    · rw [State.coreAt_modCore, if_neg other]
    · rw [blazeTrigger_of_locked locked]
      exact ⟨rfl, toNat_saturating _⟩
    · rw [exec_blazeTrigger hi, blazeTrigger_of_unlocked free]
    · rw [exec_blazeTimeTrigger_of_due due]
      exact congrArg Host.Outcome.next (blazeTrigger_of_unlocked (s := { s with blzTime := none }) free)
    · rw [State.latched_coreAt]
      exact ⟨rfl, rfl, rfl, rfl, rfl⟩
  · intro s k addr n i bs p q moves resent again turn
    refine ⟨exec_uePacketArrival_of_unsupported, fun known => ⟨fun h => exec_uePacketArrival_of_again known (ueAgain_iff.2 h),
      fun new early => exec_uePacketArrival_of_early known (fun h => new (ueAgain_iff.1 h)) fun may => ?_,
      fun new isTurn still => ?_⟩, fun cxl link => ⟨fun size line => ⟨_, exec_hostCoherentAccess_store cxl link size line, rfl⟩,
      exec_hostCoherentAccess_load cxl link⟩, exec_hostCoherentAccess_of_refused, fun part req =>
      ⟨exec_storageRequestComplete_of_done part req, exec_storageRequestComplete_of_error part req,
        fun runs write t => ⟨fun x => exec_storageRequestComplete_of_read part req runs write,
          exec_storageRequestComplete_of_unread part req runs write⟩,
        fun runs reads ok t => exec_storageRequestComplete_of_write part req runs reads⟩⟩
    · obtain ⟨isTurn, still⟩ := ueMay_iff.1 may
      exact early.elim (· isTurn) still
    · rw [exec_uePacketArrival_of_may known (fun h => new (ueAgain_iff.1 h)) (ueMay_iff.2 ⟨isTurn, still⟩)]
      refine ⟨fun pair paired => ⟨fun first ok t done => ?_, fun again ok t done => ?_⟩, fun host => ⟨fun none => ?_,
        fun e found place here op => ⟨_, rfl, ?_⟩⟩⟩
      · rw [placePacket_of_turn paired first, packetDone_of_packetIn done]
      · rw [placePacket_of_resent paired again, packetDone_of_packetIn done]
      · rw [placePacket_of_no_key host none]
      · rw [placePacket_of_key host found, packetDone_of_write op here]
        rfl

end Sys2Proof.Machine
end
section
/-! PROOF. Futures: the end of FCALL, the waiting words (obligation O32), FDONE, the events of the future engine, and how a future
ends (obligation O33). -/

namespace Sys2Proof.Machine

/-! FCALL. -/

section
variable {s t0 u0 u : State} {d a b : GIdx} {k : Chunk} {p : Part} {key : Nat} {cont : Option Record} {desc : CallDesc}
  {w : List CallWin × Bool × State}

/-- FCALL on a descriptor that reads and keeps its limits goes to the engine (14_futures.md R407). -/
theorem exec_fcall_of_reads
    (reads : access s .s (s.me.rg a) (s.me.rg a).word 64 permLoad 64 .own = .ok (.bytes [k], t0))
    (high : field (s.me.rg b).word 16 48 = 0)
    (check : ctxCheck (settleFor t0 s.rank (s.me.rg a).word [k]) ((s.me.rg b).word.setWidth 16) = (some (p, key), u0))
    (hdesc : callDesc u0.mem k.key = desc)
    (hu : (if desc.cont.getLsbD 31 then settleFor u0 s.rank (s.me.rg a).word [ownChunk s.rank (field desc.cont 6 13 * 64) 64]
      else u0) = u)
    (sound : u.poisoned k.key 64 = false) (ok : desc.ok (u.mem.readNat (key + 56) 1) = true)
    (image : contImage u desc (u.mem.readNat (key + 2) 2 % 4096) (s.me.rg a).word = .ok cont)
    (hw : callWindows u p (BitVec.ofNat 64 (u.mem.readNat (key + 48) 8)) (desc.wins.take desc.wincnt) = w)
    {status n : Nat} {v : State}
    (called : engineCall w.2.2 p ((s.me.rg b).word.setWidth 16) key desc w.1 (callStatus desc w.1 w.2.1) cont = (status, n, v)) :
    exec (.fcall d a b) s = .next (v.modMe fun m => (m.wg d (GVal.ofNat (n + status * 2 ^ 32))).next) := by
  subst hdesc hu hw
  change execFcall d a b s = _
  simp only [execFcall, high, ne_eq, not_true_eq_false, and_false, if_false, reads, Res.bind, check, ok, Bool.true_eq_false, image,
    sound, Bool.false_eq_true, called]
  rfl

end

/-! What the engine answers to a call. -/

section
variable {v : State} {p : Part} {ctx : BitVec 16} {key : Nat} {desc : CallDesc} {wins : List CallWin} {status : Nat}
  {cont : Option Record}

/-- The quota of a context or of its partition is used up (14_futures.md R407). -/
abbrev callFull (v : State) (p : Part) (ctx : BitVec 16) (key : Nat) : Prop :=
  v.mem.readNat (key + 58) 2 ≤ allocated v (fun f => f.ctx == ctx && f.pid == p.pid) ∨
    p.futQuota ≤ allocated v (fun f => f.pid == p.pid)

theorem engineCall_of_status (refused : status ≠ 0) : engineCall v p ctx key desc wins status cont = (status, 0, v) := if_pos refused

theorem engineCall_of_full (full : callFull v p ctx key) : engineCall v p ctx key desc wins 0 cont = (1, 0, v) := by
  rw [engineCall, if_neg (not_not.2 rfl), if_pos full]

section
variable (room : ¬callFull v p ctx key)
include room

theorem engineCall_of_no_entry (none : freeEntry v = none) : engineCall v p ctx key desc wins 0 cont = (2, 0, v) := by
  simp only [engineCall, if_neg room, none, ne_eq, not_true_eq_false, if_false]

variable {i : Nat} (free : freeEntry v = some i)
include free

theorem engineCall_of_no_slot (here : desc.remote = false) (none : callSlot v p.pid (v.mem.readNat (key + 57) 1) = none) :
    engineCall v p ctx key desc wins 0 cont = (3, 0, v) := by
  simp only [engineCall, if_neg room, ne_eq, not_true_eq_false, if_false, free, here, Bool.false_eq_true, none]

theorem engineCall_of_slot {slot rid : Nat} {f : Fut} (hr : v.mem.readNat (key + 57) 1 = rid)
    (place : (if desc.remote then some 0 else callSlot v p.pid rid) = some slot)
    (hf : callEntry v p.pid ctx (BitVec.ofNat 12 (v.mem.readNat (key + 2) 2)) desc wins rid slot (v.futAt i).gen cont = f) :
    engineCall v p ctx key desc wins 0 cont = (0, futHandle i f,
      placeCall { v.setFut i f with fresh := v.fresh + 1, futOrder := v.futOrder + 1 } i f rid slot desc) := by
  subst hr hf
  simp only [engineCall, if_neg room, ne_eq, not_true_eq_false, if_false, free, place]

/-- A call with an entry, and with a slot unless it is remote, stands in its ring or is sent (14_futures.md R407, R408). -/
theorem engineCall_places {slot rid : Nat} (hr : v.mem.readNat (key + 57) 1 = rid)
    (place : callSlot v p.pid rid = some slot ∨ desc.remote = true) : ∃ f sl, (desc.remote = false → sl = slot) ∧
      f = callEntry v p.pid ctx (BitVec.ofNat 12 (v.mem.readNat (key + 2) 2)) desc wins rid sl (v.futAt i).gen cont ∧
      engineCall v p ctx key desc wins 0 cont = (0, futHandle i f,
        placeCall { v.setFut i f with fresh := v.fresh + 1, futOrder := v.futOrder + 1 } i f rid sl desc) := by
  cases remote : desc.remote with
  | true =>
    exact ⟨_, 0, fun here => absurd here Bool.noConfusion, rfl, engineCall_of_slot room free hr (by rw [remote]; rfl) rfl⟩
  | false =>
    have found : callSlot v p.pid rid = some slot := place.resolve_right (by rw [remote]; exact Bool.false_ne_true)
    exact ⟨_, slot, fun _ => rfl, rfl, engineCall_of_slot room free hr (by rw [remote]; exact found) rfl⟩

end

end

/-! The waiting words. -/

section
variable {s : State} {d a : GIdx} {i : Nat} {f : Fut} (high : field (s.me.rg a).word 32 32 = 0)
include high

theorem onFuture_of_stale {g : Option (Nat × Fut) → Res State} (stale : liveFut s (s.me.rg a).word.toNat false = none) :
    onFuture s a g = g none := by
  refine (if_neg (not_not.2 high)).trans ?_
  simp only [stale]

theorem onFuture_of_live {g : Option (Nat × Fut) → Res State} (live : liveFut s (s.me.rg a).word.toNat false = some (i, f))
    (still : injecting s i = false) : onFuture s a g = g (some (i, f)) := by
  refine (if_neg (not_not.2 high)).trans ?_
  simp only [live, still, Bool.false_eq_true, if_false]

theorem settle_onFuture_of_stale {g : Option (Nat × Fut) → Res State} {t : State}
    (stale : liveFut s (s.me.rg a).word.toNat false = none) (ok : g none = .ok t) : settle s (onFuture s a g) = .next t := by
  rw [onFuture_of_stale high stale, ok]; rfl

theorem settle_onFuture_of_live {g : Option (Nat × Fut) → Res State} {t : State}
    (live : liveFut s (s.me.rg a).word.toNat false = some (i, f)) (still : injecting s i = false) (ok : g (some (i, f)) = .ok t) :
    settle s (onFuture s a g) = .next t := by
  rw [onFuture_of_live high live still, ok]; rfl

/-- Each waiting word on a stale handle (14_futures.md R401). -/
theorem exec_waits_of_stale (stale : liveFut s (s.me.rg a).word.toNat false = none) :
    exec (.ftest d a) s = .next (answer s d 7) ∧ exec (.fcancel d a) s = .next (answer s d 7) ∧
      exec (.fwait d a) s = .next ((answer s d 7).modMe Core.clearDist) := by
  refine ⟨settle_onFuture_of_stale high stale ?_, settle_onFuture_of_stale high stale ?_, settle_onFuture_of_stale high stale ?_⟩
  · rfl
  · rfl
  · rfl

section
variable (live : liveFut s (s.me.rg a).word.toNat false = some (i, f)) (still : injecting s i = false)
include live still

/-- Each waiting word on a final future (14_futures.md R403, R415). -/
theorem exec_waits_of_final (final : f.state ≠ 1#3) :
    exec (.ftest d a) s = .next (observe s d i f) ∧ exec (.fcancel d a) s = .next (observe s d i f) ∧
      exec (.fwait d a) s = .next ((observe s d i f).modMe Core.clearDist) := by
  refine ⟨settle_onFuture_of_live high live still ?_, settle_onFuture_of_live high live still ?_,
    settle_onFuture_of_live high live still ?_⟩
  · exact if_pos final
  · exact if_pos final
  · exact if_pos final

variable (pending : f.state = 1#3)
include pending

theorem exec_ftest_of_pending : exec (.ftest d a) s = .next (answer s d (futValue f)) := by
  refine settle_onFuture_of_live high live still ?_
  exact if_neg (not_not.2 pending)

theorem exec_fcancel_of_pending : exec (.fcancel d a) s = .next (answer (leaveFut s i 4 0 0) d 4) := by
  refine settle_onFuture_of_live high live still ?_
  exact if_neg (not_not.2 pending)

theorem exec_fwait_of_waiter (waiter : f.waiter.isSome = true) :
    exec (.fwait d a) s = .next ((answer s d 6).modMe Core.clearDist) := by
  refine settle_onFuture_of_live high live still ?_
  exact (if_neg (not_not.2 pending)).trans (if_pos waiter)

theorem exec_fwait_of_alone (alone : f.waiter = none) : exec (.fwait d a) s = .next (waitFut s d i f) := by
  refine settle_onFuture_of_live high live still ?_
  exact (if_neg (not_not.2 pending)).trans (if_neg (by rw [alone]; exact Bool.false_ne_true))

end

end

theorem waitFut_of_no_park {s : State} {d : GIdx} {i : Nat} {f : Fut} (stays : (s.me.parks && poolFree s s.me.pid) = false) :
    waitFut s d i f = (s.setFut i { f with waiter := some { core := s.rank, frame := none, d := d } }).modMe fun c =>
      { c with blocked := some { op := .fwait d (BitVec.ofNat 14 i), since := s.cycle, deadline := none } } := by
  simp only [waitFut, stays, Bool.false_eq_true, and_false, if_false]

/-- Settles O32: FCALL by what the engine answers, the waiting words by what their handle names. -/
theorem futureCallAndWait : Obligations.FutureCallAndWait := by
  unfold Obligations.FutureCallAndWait
  constructor
  · intro s t0 u0 d a b k p key cont x y t desc u w v status fails full rid reads high sound check ok image
    have ends {n m : Nat} {q : State} (called : engineCall v p (y.setWidth 16) key desc w.1 status cont = (n, m, q)) :
        exec (.fcall d a b) s = .next (q.modMe fun c => (c.wg d (GVal.ofNat (m + n * 2 ^ 32))).next) :=
      exec_fcall_of_reads reads high check rfl rfl sound ok image rfl called
    have failing {n : Nat} (called : engineCall v p (y.setWidth 16) key desc w.1 status cont = (n, 0, v)) : fails n v := by
      have done := ends called
      rwa [Nat.zero_add] at done
    refine ⟨fun refused => failing (engineCall_of_status refused), fun accepted => ?_⟩
    rw [accepted] at ends failing
    refine ⟨fun isFull => failing (engineCall_of_full isFull), fun room none => failing (engineCall_of_no_entry room none),
      fun i room free => ⟨fun here none => failing (engineCall_of_no_slot room free here none), fun slot place => ?_⟩⟩
    obtain ⟨f, sl, same, entry, called⟩ := engineCall_places (ctx := y.setWidth 16) (wins := w.1) (cont := cont) (rid := rid)
      room free rfl place
    have done := ends called
    simp only [Nat.zero_mul, Nat.add_zero] at done
    exact ⟨_, f, sl, done, same, entry, rfl⟩
  · intro s d a i f h gives all high
    refine ⟨exec_waits_of_stale high, fun live still => ⟨exec_waits_of_final high live still, fun pending =>
      ⟨exec_ftest_of_pending high live still pending, exec_fcancel_of_pending high live still pending,
        exec_fwait_of_waiter high live still pending, fun alone stays => ?_⟩⟩⟩
    rw [exec_fwait_of_alone high live still pending alone, waitFut_of_no_park stays]

/-! FDONE, RNGSV and RNGLD. -/

section
variable {s u : State} {d a b : GIdx} {code : Nat}

theorem doneCode_of_stale {h n : Nat} (stale : liveFut s h true = none) : doneCode s h n = 1 := by
  simp only [doneCode, stale]

theorem doneCode_of_live {h n i : Nat} {f : Fut} (live : liveFut s h true = some (i, f)) :
    doneCode s h n = if f.state ≠ 1#3 then 2 else if replyRoom f < 4 * n then 3 else 0 := by
  simp only [doneCode, live]

theorem exec_fdone_of_wrong (wrong : field (s.me.rg a).word 32 32 ≠ 0 ∨ field (s.me.rg b).word 8 24 ≠ 0 ∨
    field (s.me.rg b).word 56 8 ≠ 0) : exec (.fdone a b) s = .next (takeTrap s s.rank (trapS 0x07 0#64)) :=
  congrArg (settle s) (if_pos wrong)

section
variable (high : field (s.me.rg a).word 32 32 = 0) (low : field (s.me.rg b).word 8 24 = 0) (top : field (s.me.rg b).word 56 8 = 0)
include high low top

theorem exec_fdone_of_ready (ready : releaseReady s .pkg = true) (hu : perform s .pkg = u)
    (hcode : doneCode u (s.me.rg a).word.toNat (field (s.me.rg b).word 32 24) = code) :
    exec (.fdone a b) s = .next (if code = 0
      then leaveFut (u.modMe fun c => (c.modCtl fun k => { k with futst := BitVec.ofNat 64 code }).next)
        ((s.me.rg a).word.toNat % 2 ^ 14) 2 (field (s.me.rg b).word 0 8) (field (s.me.rg b).word 32 24)
      else u.modMe fun c => (c.modCtl fun k => { k with futst := BitVec.ofNat 64 code }).next) := by
  subst hu hcode
  refine congrArg (settle s) ((if_neg ?_).trans (afterRelease_of_ready ready))
  simp only [high, low, top, ne_eq, not_true_eq_false, or_self, not_false_eq_true]

theorem exec_fdone_of_waiting (waits : releaseReady s .pkg = false) :
    exec (.fdone a b) s = .next (s.modMe fun c => { c with hold := some (.engines, s.cycle) }) := by
  refine congrArg (settle s) ((if_neg ?_).trans (afterRelease_of_not_ready waits))
  simp only [high, low, top, ne_eq, not_true_eq_false, or_self, not_false_eq_true]

end

theorem exec_rng_of_ready (ready : ctlReady s.me 0x041 = true) :
    exec (.rngsv d) s = .next (s.setMe (s.me.wg d { bits := s.me.ctl.rngctr, tag := false }).next) ∧
      exec (.rngld a) s = .next (s.setMe (s.me.modCtl fun k => { k with rngctr := (s.me.rg a).bits }).next) :=
  ⟨congrArg (settle s) (if_pos ready), congrArg (settle s) (if_pos ready)⟩

theorem exec_rng_of_busy (busy : ctlReady s.me 0x041 = false) :
    exec (.rngsv d) s = .next (s.modMe fun c => { c with hold := some (.engines, s.cycle) }) ∧
      exec (.rngld a) s = .next (s.modMe fun c => { c with hold := some (.engines, s.cycle) }) :=
  ⟨congrArg (settle s) (if_neg (Bool.eq_false_iff.1 busy)), congrArg (settle s) (if_neg (Bool.eq_false_iff.1 busy))⟩

end

/-! The events of the future engine. -/

section
variable {s : State} {n : BitVec 14}

theorem exec_futureTimeout_of_late (pending : (s.futAt n.toNat).state = 1#3) (limit : (s.futAt n.toNat).deadline ≠ 0#64)
    (late : (s.futAt n.toNat).deadline.toNat ≤ s.now) : exec (.futureTimeout n) s = .next (leaveFut s n.toNat 3 0 0) :=
  congrArg Host.Outcome.next (if_pos ⟨pending, limit, late⟩)

theorem exec_futureTimeout_of_other (other : (s.futAt n.toNat).state ≠ 1#3 ∨ (s.futAt n.toNat).deadline = 0#64 ∨
    s.now < (s.futAt n.toNat).deadline.toNat) : exec (.futureTimeout n) s = .next s := by
  refine congrArg Host.Outcome.next (if_neg ?_)
  rintro ⟨pending, limit, late⟩
  exact other.elim (· pending) fun h => h.elim limit (Nat.not_lt.2 late)

theorem exec_injectGranule_of_none (none : nextInject s = none) : exec .injectGranule s = .next s := by
  change execInjectGranule s = _
  simp only [execInjectGranule, none]

theorem exec_injectGranule_of_some {j : Injection} (next : nextInject s = some j) :
    exec .injectGranule s = .next (sendGranule s j) := by
  change execInjectGranule s = _
  simp only [execInjectGranule, next]

theorem sendGranule_of_end {j : Injection} (done : j.left = []) : sendGranule s j = endInject s j := by
  simp only [sendGranule, done]

/-- A remote completion that is taken resolves a pending remote future that it authenticates (14_futures.md R418). -/
theorem remoteCode_eq_zero {m : RemoteDone} (zero : remoteCode s m = 0) :
    (s.futAt (m.handle.toNat % 2 ^ 14)).state = 1#3 ∧ (s.futAt (m.handle.toNat % 2 ^ 14)).remote = true ∧
      m.auth = (s.futAt (m.handle.toNat % 2 ^ 14)).auth := by
  simp only [remoteCode] at zero
  split at zero
  · cases zero
  split at zero
  · cases zero
  split at zero
  · cases zero
  split at zero
  · cases zero
  exact ⟨not_not.1 ‹_›, Bool.not_eq_false _ ▸ ‹_›, not_not.1 ‹_›⟩

end

/-! Granules of an injection. -/

/-- The injection after its granule g with the rest l has been sent to a place of the queue. -/
def Injection.sent (j : Injection) (l : List (List Byte × List Nat)) (first pos : Nat) : Injection :=
  { j with left := l, first := first, next := pos + 1, wait := true }

section
variable {s t u : State} {j : Injection} {g : List Byte × List Nat} {l : List (List Byte × List Nat)} {entry : Option Nat × State}
  (left : j.left = g :: l) (he : (if j.next = j.first then futEntry s j.pid j.ctx .load else (none, s)) = entry)
include left he

theorem sendGranule_of_unreadable (begins : j.next = j.first) (none : entry.1 = none) : sendGranule s j = failInject entry.2 j := by
  subst he
  simp only [begins, if_true] at none
  simp only [sendGranule, left, begins, beq_self_eq_true, if_true, none, Option.isNone_none, Bool.and_self]

theorem sendGranule_of_piece (goes : j.next ≠ j.first ∨ entry.1.isSome = true) {pos first : Nat}
    (hp : (match entry.1 with | some k => entry.2.mem.readNat (k + 64) 4 % 2 ^ j.log | none => j.next) = pos)
    (hf : (if j.next = j.first then pos else j.first) = first)
    (ht : ({ entry.2 with injects := entry.2.injects.map fun x => if x.entry = j.entry then j.sent l first pos else x } : State) = t)
    (hu : t.setFut j.entry { t.futAt j.entry with pfqpos := BitVec.ofNat 32 first } = u) {a : Arrival}
    (ha : { dst := j.home, off := BitVec.ofNat 19 (j.off + 64 * (pos % 2 ^ j.log)), bytes := g.1, kind := .inject,
            srcPkg := (s.coreAt j.home.toNat).ctl.pkg.setWidth 32, srcCore := 0xFFFF#16, entry := BitVec.ofNat 14 j.entry,
            bad := g.2 } = a) :
    sendGranule s j = if 2 ^ 19 < j.off + 64 * 2 ^ j.log then overrun u a
      else u.hubTo j.pid j.home.toNat (.taggedArrival a) fun v => arrive v a := by
  have begun : (j.next == j.first && entry.1.isNone) = false := by
    simpa [Option.isNone_eq_false_iff, or_iff_not_imp_left] using goes
  subst ha hu ht hf hp he
  simp only [sendGranule, left, beq_iff_eq, begun, Bool.false_eq_true, if_false]
  rfl

end

/-! A future that ends in one step. -/

section
variable {s : State} {i state rstatus n : Nat}

/-- The entry as a future leaves pending: its state, its status and its reply length are written (14_futures.md R410). -/
def Fut.left (f : Fut) (state rstatus n : Nat) : Fut :=
  { f with
    state := BitVec.ofNat 3 state, rstatus := BitVec.ofNat 8 rstatus
    replylen := if state = 2 then BitVec.ofNat 32 n else f.replylen }

/-- The entry once the call is let go and its continuation is pushed. -/
def Fut.letGo (f : Fut) : Fut := { f with taken := false, cont := none }

theorem State.futAt_setFut (s : State) (i : Nat) (f : Fut) : (s.setFut i f).futAt i = f := by
  change (Table.find (Table.set s.futs i f) i).getD Fut.reset = f
  rw [Table.find_set, if_pos rfl, Option.getD_some]

theorem laterSteps_of_resident (resident : ∀ p, s.part? (s.futAt i).pid = some p → p.resident = true) :
    laterSteps s i = finishFut s i := by
  refine if_pos ?_
  split
  · exact resident _ ‹_›
  · rfl

theorem leaveFut_of_no_inject (no : (s.futAt i).inject = false) (ends : state = 2 ∨ state = 4)
    (resident : ∀ p, s.part? (s.futAt i).pid = some p → p.resident = true) :
    leaveFut s i state rstatus n = finishFut (s.setFut i ((s.futAt i).left state rstatus n)) i := by
  have three : state ≠ 3 := by omega
  have asks : (state == 3) = false := beq_false_of_ne three
  rw [← laterSteps_of_resident (by rw [State.futAt_setFut]; exact resident)]
  simp only [leaveFut, no, asks, Bool.false_and, Bool.or_false, Bool.false_eq_true, if_false, false_and, three, Fut.left]

section
variable {f : Fut} (hf : s.futAt i = f)
include hf

theorem finishFut_of_plain (waiter : f.waiter = none) (cont : f.cont = none) :
    finishFut s i = (freeRingSlot s i f).setFut i f.letGo := by
  subst hf
  simp only [finishFut, Fut.letGo, waiter, cont]

theorem finishFut_of_cont {r : Record} (waiter : f.waiter = none) (cont : f.cont = some r) :
    finishFut s i = (freeRingSlot (s.hubTo f.pid f.home.toNat (.remotePushArrive f.home.toNat r)
      fun t => remotePush t f.home.toNat f.home.toNat r) i f).setFut i f.letGo := by
  subst hf
  simp only [finishFut, Fut.letGo, waiter, cont]

theorem finishFut_of_waiter {w : FutWaiter} (waiter : f.waiter = some w) (here : w.frame = none) (cont : f.cont = none) :
    finishFut s i = (freeFut ((freeRingSlot s i f).setFut i f.letGo) i).modCore w.core
      fun c => c.finish w.d (GVal.ofNat (futValue f)) := by
  subst hf
  simp only [finishFut, Fut.letGo, waiter, cont, here]

end

theorem freeRingSlot_of_remote {f : Fut} (remote : f.remote = true) : freeRingSlot s i f = s := if_pos remote

theorem freeRingSlot_ring {f : Fut} (here : f.remote = false) : (freeRingSlot s i f).ringAt f.ring.toNat =
    { s.ringAt f.ring.toNat with used := (s.ringAt f.ring.toNat).used.filter fun u => u.2 != i } := by
  rw [freeRingSlot, here, if_neg Bool.false_ne_true]
  change (Table.find (Table.set s.rings f.ring.toNat _) f.ring.toNat).getD ToolRing.reset = _
  rw [Table.find_set, if_pos rfl, Option.getD_some]

theorem freeRingSlot_cores (s : State) (i : Nat) (f : Fut) : (freeRingSlot s i f).cores = s.cores ∧ (freeRingSlot s i f).blank = s.blank := by
  unfold freeRingSlot
  split
  · exact ⟨rfl, rfl⟩
  · exact ⟨rfl, rfl⟩

theorem freeRingSlot_coreAt (s : State) (i r : Nat) (f : Fut) : (freeRingSlot s i f).coreAt r = s.coreAt r := by
  obtain ⟨cores, blank⟩ := freeRingSlot_cores s i f
  rw [State.coreAt, cores, blank, State.coreAt]

end

/-! The granules of a reply. -/

/-- The pieces of a list, each of 64, are its beginning. -/
theorem flatten_pieces {α : Type} (l : List α) (k : Nat) :
    ((List.range k).map fun j => (l.drop (64 * j)).take 64).flatten = l.take (64 * k) := by
  induction k with
  | zero => simp
  | succ k ih =>
    rw [List.range_succ, List.map_append, List.flatten_append, ih, Nat.mul_succ, List.take_add]
    simp

section
variable (tokens : List Byte) (bad : List Nat)

/-- The bytes of the granules: the tokens and then ones (14_futures.md R411). -/
def injectAll : List Byte := tokens ++ List.replicate (64 * (tokens.length / 64 + 1) - tokens.length) 0xFF#8

theorem injectAll_length : (injectAll tokens).length = 64 * (tokens.length / 64 + 1) := by
  rw [injectAll, List.length_append, List.length_replicate]
  omega

theorem injectBytes_map_fst : (injectBytes tokens bad).map (·.1) =
    (List.range (tokens.length / 64 + 1)).map fun j => ((injectAll tokens).drop (64 * j)).take 64 := by
  simp only [injectBytes, List.map_map]
  rfl

theorem injectBytes_length : (injectBytes tokens bad).length = tokens.length / 64 + 1 := by
  simp only [injectBytes, List.length_map, List.length_range]

theorem injectBytes_granule {g : List Byte × List Nat} (mem : g ∈ injectBytes tokens bad) : g.1.length = 64 := by
  have listed := List.mem_map_of_mem (f := (·.1)) mem
  rw [injectBytes_map_fst] at listed
  obtain ⟨j, hj, same⟩ := List.mem_map.1 listed
  have small := List.mem_range.1 hj
  rw [← same, List.length_take, List.length_drop, injectAll_length]
  omega

theorem injectBytes_flatten : ((injectBytes tokens bad).map (·.1)).flatten = injectAll tokens := by
  rw [injectBytes_map_fst, flatten_pieces, ← injectAll_length, List.take_length]

end

/-- Settles O33: FDONE and the counter by their checks, the events by their guards, and the end of a future step by step. -/
theorem futureResolution : Obligations.FutureResolution := by
  unfold Obligations.FutureResolution
  refine ⟨?_, ?_, ?_, ?_⟩
  · intro s d a b h v u code w held
    exact ⟨fun high low top ready => ⟨exec_fdone_of_ready high low top ready rfl rfl, doneCode_of_stale, fun i f => doneCode_of_live⟩,
      exec_fdone_of_wrong, exec_fdone_of_waiting, exec_rng_of_ready, exec_rng_of_busy⟩
  · intro s n m j f code w g
    refine ⟨exec_futureTimeout_of_late, exec_futureTimeout_of_other, fun next done => ?_, fun g l next left => ?_,
      exec_injectGranule_of_none, fun refused => congrArg Host.Outcome.next (if_neg refused),
      fun taken => ⟨congrArg Host.Outcome.next (if_pos taken), remoteCode_eq_zero taken⟩⟩
    · rw [exec_injectGranule_of_some next, sendGranule_of_end done]
    · intro entry pos first on t u a
      refine ⟨fun begins none => ?_, fun goes => ?_⟩
      · rw [exec_injectGranule_of_some next, sendGranule_of_unreadable left rfl begins none]
      · rw [exec_injectGranule_of_some next, sendGranule_of_piece left rfl goes rfl rfl rfl rfl rfl]
        rfl
  · intro s i state rstatus n f small no ends resident g e ring
    have left : leaveFut s i state rstatus n = finishFut (s.setFut i g) i := leaveFut_of_no_inject no ends resident
    have entry : (s.setFut i g).futAt i = g := State.futAt_setFut s i g
    refine ⟨fun waiter cont => ?_, fun r waiter cont remote => ?_, fun w waiter here cont => ?_⟩
    · rw [left, finishFut_of_plain entry waiter cont]
      refine ⟨State.futAt_setFut _ _ _, fun remote => ?_, fun here => ?_⟩
      · rw [freeRingSlot_of_remote (f := g) remote]
        rfl
      · exact freeRingSlot_ring here
    · rw [left, finishFut_of_cont entry waiter cont, freeRingSlot_of_remote (f := g) remote]
      rfl
    · rw [left, finishFut_of_waiter entry waiter here cont]
      refine ⟨?_, ?_, ?_⟩
      · exact congrArg Fut.state (State.futAt_setFut _ _ _)
      · refine (congrArg Fut.gen (State.futAt_setFut _ _ _)).trans ?_
        change nextGen (((freeRingSlot (s.setFut i g) i g).setFut i g.letGo).futAt i).gen = _
        rw [State.futAt_setFut]
        rfl
      · rw [State.coreAt_modCore, if_pos rfl]
        exact congrArg (fun c => Core.finish c w.d (GVal.ofNat (futValue g))) (freeRingSlot_coreAt _ i w.core g)
  · intro tokens bad l
    refine ⟨injectBytes_length tokens bad, fun g => injectBytes_granule tokens bad, ?_⟩
    rw [injectBytes_flatten, injectAll, injectBytes_length]

end Sys2Proof.Machine
end
section
/-! PROOF. Taking a trap: a double fault (obligation O27), and the frame that a trap writes and a return restores (obligation
O26). -/

namespace Sys2Proof.Machine

/-! The boundary at which a trap is taken. -/

section
variable {s : State} {r : Nat}

theorem landLoads_of_nil (none : (s.coreAt r).loads = []) : landLoads s r = s.setCore r (s.coreAt r) := by
  change (pick _ _ _).1.foldl _ _ = _
  rw [none]
  change s.setCore r { s.coreAt r with loads := [] } = _
  rw [← none]

theorem abandon_of_free (free : (s.coreAt r).blocked = none) : abandon s r = s := by
  rw [abandon, free]

/-- Leaving a walk changes the misses of a cluster alone. -/
theorem leaveWalk_mmus (s : State) (r : Nat) : ∃ m, leaveWalk s r = { s with mmus := m } := by
  unfold leaveWalk
  split
  · exact ⟨_, rfl⟩
  · exact ⟨s.mmus, rfl⟩

/-- The state at the boundary of the trap of a core that waits for nothing: its M words complete (15_system.md R428), and some
misses of its cluster's walks are marked as left (R430). -/
def State.stopped (s : State) (r : Nat) (m : List (Nat × Mmu)) : State := { s.setCore r (s.coreAt r).completeM with mmus := m }

theorem stopped_of_free (loads : (s.coreAt r).loads = []) (free : (s.coreAt r).blocked = none) :
    (abandon (landLoads s r) r).modCore r Core.completeM = s.stopped r s.mmus := by
  have me : (s.setCore r (s.coreAt r)).coreAt r = s.coreAt r := by rw [State.coreAt_setCore, if_pos rfl]
  rw [landLoads_of_nil loads, abandon_of_free (me.symm ▸ free), State.modCore, me]
  simp only [State.setCore, Table.set_set, State.stopped]

end

/-- The absent page of core c's trap is posted at the fault queue (05_memory.md R171). -/
def reported (s : State) (c : Core) (r : Nat) (t : Trap) : Nat × State :=
  if t.cause = 0x06#8 ∧ t.asked = false then fqPost s c.pid t.addr c.ctx r t.kind (t.walker.getD .s)
  else (t.seq.toNat, s)

/-- The header of a trap's frame (15_system.md R432). -/
def trapHead (t : Trap) (seq : Nat) : FrameHead :=
  { cause := t.cause.toNat, walker := (t.walker.map (·.code)).getD 4, fqseq := seq, addr := t.addr.toNat,
    info := t.info.toNat, full := false, live := liveAll }

/-- The offset of the frame that a core's next trap writes (15_system.md R428). -/
def Core.frameAt (c : Core) : Nat := field c.ctl.framebase 14 5 * 16384 + 16384 * c.depth

/-- The handler of core c's trap is entered in the state that its report leaves, its frame written (15_system.md R428). -/
def entered (c : Core) (r : Nat) (t : Trap) (q : Nat × State) : State :=
  let code := ((q.2.part? c.pid).map (·.code)).getD GVal.zero
  (writeFrame q.2 r (localKey r c.frameAt) (trapHead t q.1)).modCore r fun e =>
    (e.enterHandler c.frameAt t.cause.toNat code).stopOverrun t.cause

section
variable {s : State} {t : Trap} (single : s.me.group = .single) (maxx : s.me.maxx = none) (runs : s.me.halt = none)
  (loads : s.me.loads = []) (free : s.me.blocked = none) (sound : t.cause ≠ 0x0D#8)
include single maxx runs loads free sound

/-- A trap of a core that waits for nothing: at depth 2 the core halts, and else its handler is entered (15_system.md R428,
R429). -/
theorem exec_trapEntry_of_free : ∃ m, ∀ q, reported (s.stopped s.rank m) s.me s.rank t = q →
    (s.me.depth = 2 →
      exec (.trapEntry t) s = .next (haltCore { q.2 with logs := q.2.logs ++ [.doubleFault s.rank] } s.rank 6#4)) ∧
    (s.me.depth ≠ 2 → exec (.trapEntry t) s = .next (entered s.me s.rank t q)) := by
  have me : (s.stopped s.rank s.mmus).coreAt s.rank = s.me.completeM := (State.coreAt_setCore _ _ _ _).trans (if_pos rfl)
  obtain ⟨m, hm⟩ : ∃ m, (if t.walker = none ∨ t.cause = 0x09#8 then leaveWalk (s.stopped s.rank s.mmus) s.rank
      else s.stopped s.rank s.mmus) = s.stopped s.rank m := by
    split
    · exact leaveWalk_mmus _ _
    · exact ⟨s.mmus, rfl⟩
  have taken : exec (.trapEntry t) s = .next (enterTrap s s.rank t) := by
    change execTrapEntry t s = _
    rw [execTrapEntry, runs, takeTrap, show (s.coreAt s.rank).group = .single from single]
    rfl
  have waits : ((s.me.completeM.maxx.isSome || !s.me.completeM.loads.isEmpty) || s.me.completeM.atHub) = false := by
    change ((s.me.maxx.isSome || !s.me.loads.isEmpty) || s.me.completeM.atHub) = false
    rw [maxx, loads, Core.atHub, show s.me.completeM.blocked = none from free]
    rfl
  refine ⟨m, fun q hq => ?_⟩
  subst hq
  rw [taken]
  unfold enterTrap
  rw [stopped_of_free loads free]
  simp only [me, waits, hm, Bool.false_eq_true, if_false, sound, false_and]
  exact ⟨fun deep => congrArg _ (if_pos deep), fun deep => congrArg _ (if_neg deep)⟩

end

/-! The report of an absent page, and the double fault. -/

section
variable (s : State) (pid : Nat)

theorem hubTo_rank_logs (dst : Nat) (ev : Instr) {f : State → State} (hf : (f s).aside = s.aside) :
    (s.hubTo pid dst ev f).rank = s.rank ∧ (s.hubTo pid dst ev f).logs = s.logs := by
  unfold State.hubTo
  split
  · exact ⟨State.rank_of_aside hf, (congrArg State.logs hf : (f s).aside.logs = s.aside.logs)⟩
  · exact ⟨rfl, rfl⟩

theorem setFault_rank_logs (e : FaultEntry) : (setFault s pid e).rank = s.rank ∧ (setFault s pid e).logs = s.logs := by
  unfold setFault
  dsimp only
  split <;> exact ⟨rfl, rfl⟩

theorem fqNotify_rank_logs (mb : BitVec 64) : (fqNotify s pid mb).rank = s.rank ∧ (fqNotify s pid mb).logs = s.logs := by
  unfold fqNotify
  dsimp only
  split
  · exact hubTo_rank_logs s pid _ _ (incMail_aside s _ _ _)
  · exact ⟨rfl, rfl⟩

theorem fqPost_rank_logs (va : Word64) (ctx : BitVec 16) (core : Nat) (k : AccessKind) (w : Engine) :
    (fqPost s pid va ctx core k w).2.rank = s.rank ∧ (fqPost s pid va ctx core k w).2.logs = s.logs := by
  unfold fqPost
  cases s.part? pid with
  | none => exact ⟨rfl, rfl⟩
  | some p =>
    dsimp only
    split
    · exact setFault_rank_logs _ _ _
    · split
      · exact ⟨rfl, rfl⟩
      · split
        · exact ⟨rfl, rfl⟩
        · obtain ⟨rank1, logs1⟩ := fqNotify_rank_logs (setFault _ pid _) pid p.fq.mb
          obtain ⟨rank2, logs2⟩ := setFault_rank_logs (s.modPart pid _) pid _
          exact ⟨rank1.trans rank2, logs1.trans logs2⟩

end

theorem reported_rank_logs (s : State) (c : Core) (r : Nat) (t : Trap) :
    (reported s c r t).2.rank = s.rank ∧ (reported s c r t).2.logs = s.logs := by
  unfold reported
  split
  · exact fqPost_rank_logs s c.pid t.addr c.ctx r t.kind (t.walker.getD .s)
  · exact ⟨rfl, rfl⟩

theorem reported_of_other (s : State) (c : Core) (r : Nat) {t : Trap} (other : t.cause ≠ 0x06#8) :
    reported s c r t = (t.seq.toNat, s) := if_neg fun h => other h.1

/-- An absent page that meets neither a ring nor a pending entry is counted as lost (15_system.md R438). -/
theorem reported_of_no_ring {s : State} {c : Core} {r : Nat} {t : Trap} {p : Part} (absent : t.cause = 0x06#8)
    (new : t.asked = false) (hp : s.part? c.pid = some p) (ring : p.fq.ring = none) (done : ∀ e ∈ p.fq.entries, e.status ≠ 0#8) :
    (reported s c r t).2 = s.modPart c.pid fun p => { p with fq := { p.fq with lost := p.fq.lost + 1#64 } } := by
  have none (f : FaultEntry → Bool) : p.fq.entries.find? (fun e => e.status == 0#8 && f e) = none :=
    List.find?_eq_none.2 fun e he => by simp [done e he]
  rw [reported, if_pos ⟨absent, new⟩, fqPost, hp]
  dsimp only
  simp only [Bool.and_assoc, none, ring]

/-- Settles O27: a trap at depth 2 halts the core, after the report of its absent page. -/
theorem doubleFault : Obligations.DoubleFault := by
  unfold Obligations.DoubleFault
  intro s t single maxx runs deep loads free sound
  obtain ⟨m, he⟩ := exec_trapEntry_of_free single maxx runs loads free sound
  obtain ⟨rank, logs⟩ := reported_rank_logs (s.stopped s.rank m) s.me s.rank t
  refine ⟨_, (he _ rfl).1 deep, ?_, congrArg (· ++ _) logs, fun other => ?_, fun absent new p hp ring done => ?_⟩
  · exact congrArg Core.halt ((State.coreAt_modCore _ _ _ _).trans (if_pos rank))
  · rw [reported_of_other _ _ _ other]
    exact fun _ => rfl
  · have lost := reported_of_no_ring (s := s.stopped s.rank m) (c := s.me) (r := s.rank) absent new hp ring done
    have counted := State.part?_modPart_self (s := s.stopped s.rank m) hp
      (f := fun p => { p with fq := { p.fq with lost := p.fq.lost + 1#64 } }) fun _ => rfl
    exact ⟨_, (congrArg (State.part? · s.me.pid) lost).trans counted, rfl⟩

/-! Byte strings written one after another, and their overlay. -/

theorem Mem.writes_append (m : Mem) (l k : List (Nat × List Byte)) : m.writes (l ++ k) = (m.writes l).writes k := by
  induction l generalizing m with
  | nil => rfl
  | cons e l ih => exact ih (m.write e.1 e.2)

theorem Mem.get_writes_out {l : List (Nat × List Byte)} {k : Nat} (apart : ∀ e ∈ l, k < e.1 ∨ e.1 + e.2.length ≤ k) (m : Mem) :
    (m.writes l).get k = m.get k := by
  induction l generalizing m with
  | nil => rfl
  | cons e l ih =>
    exact (ih (fun e he => apart e (List.mem_cons_of_mem _ he)) _).trans (Mem.get_write_out (apart e List.mem_cons_self))

/-- A table of numbers of w bytes each, as a frame's areas hold its registers. -/
def table (base w n : Nat) (f : Nat → Nat) : List (Nat × List Byte) := (List.range n).map fun i => fnum (base + w * i) w (f i)

section
variable {base w n : Nat} {f : Nat → Nat}

theorem table_succ : table base w (n + 1) f = table base w n f ++ [fnum (base + w * n) w (f n)] := by
  rw [table, List.range_succ, List.map_append]
  rfl

theorem Mem.get_writes_table_out {k : Nat} (apart : k < base ∨ base + w * n ≤ k) (m : Mem) :
    (m.writes (table base w n f)).get k = m.get k := by
  refine Mem.get_writes_out (fun e he => ?_) m
  obtain ⟨i, hi, rfl⟩ := List.mem_map.1 he
  have inside : w * (i + 1) ≤ w * n := Nat.mul_le_mul_left w (List.mem_range.1 hi)
  rw [Nat.mul_succ] at inside
  simp only [fnum, leBytes_length]
  omega

/-- Each number of a table is read back. -/
theorem Mem.readNat_writes_table {j : Nat} (hj : j < n) (m : Mem) :
    (m.writes (table base w n f)).readNat (base + w * j) w = f j % 256 ^ w := by
  induction n with
  | zero => omega
  | succ n ih =>
    rw [table_succ, Mem.writes_append]
    change (((m.writes (table base w n f)).write (base + w * n) (leBytes w (f n))).readNat (base + w * j) w) = _
    rcases Nat.lt_succ_iff_lt_or_eq.1 hj with below | rfl
    · have apart : w * (j + 1) ≤ w * n := Nat.mul_le_mul_left w below
      rw [Nat.mul_succ] at apart
      rw [← ih below]
      exact Mem.readNat_congr fun k _ _ => Mem.get_write_out (.inl (by omega))
    · exact Mem.readNat_write _ _ _ _

end

theorem Mem.read_overlay_in {m p : Mem} {a n o w : Nat} (inside : o + w ≤ n) : (m.overlay a n p).read (a + o) w = p.read o w := by
  refine List.ext_getElem (by rw [Mem.read_length, Mem.read_length]) fun i hi _ => ?_
  rw [Mem.read_length] at hi
  rw [Mem.read_get _ _ _ _ hi, Mem.read_get _ _ _ _ hi, Nat.add_assoc, Mem.get_overlay_in (by omega)]

theorem Mem.readNat_overlay_in {m p : Mem} {a n o w : Nat} (inside : o + w ≤ n) :
    (m.overlay a n p).readNat (a + o) w = p.readNat o w := congrArg leNat (Mem.read_overlay_in inside)

/-! The bytes of a trap's frame. -/

theorem liveAll_bit {i : Nat} (hi : i < 114) : liveAll.getLsbD i = true := by
  rw [liveAll, BitVec.getLsbD_ofNat, Nat.testBit_two_pow_sub_one, decide_eq_true hi, decide_eq_true (by omega : i < 128)]
  rfl

theorem deadAreas_liveAll : deadAreas liveAll = [] := by
  have low : ∀ a ∈ regAreas, a.1 < 114 := by decide
  have none : regAreas.filter (fun a => !liveAll.getLsbD a.1) = [] :=
    List.filter_eq_nil_iff.2 fun a ha => by simp [liveAll_bit (low a ha)]
  rw [deadAreas, none]
  rfl

section
variable (c : Core) {h : FrameHead} (live : h.live = liveAll)
include live

theorem frameG_of_live {i : Nat} (hi : i < 64) : frameG c h i = c.rg (BitVec.ofNat 6 i) := by
  rw [frameG, live, if_pos (liveAll_bit (by omega))]

/-- A frame with every register live holds three tables. -/
theorem regBytes_of_live : regBytes c h = (table frP 16 8 fun i => (c.rp (BitVec.ofNat 3 i)).toNat) ++
    (table frG 16 64 fun i => (c.rg (BitVec.ofNat 6 i)).bits.toNat) ++ table frV 128 32 fun i => (c.rv (BitVec.ofNat 5 i)).toNat := by
  have p : (List.range 8).map (fun i => fnum (frP + 16 * i) 16 (if h.live.getLsbD (96 + i) then (c.rp (BitVec.ofNat 3 i)).toNat else 0))
      = table frP 16 8 fun i => (c.rp (BitVec.ofNat 3 i)).toNat :=
    List.map_congr_left fun i hi => by rw [live, if_pos (liveAll_bit (by have := List.mem_range.1 hi; omega))]
  have g : (List.range 64).map (fun i => fnum (frG + 16 * i) 16 (frameG c h i).bits.toNat)
      = table frG 16 64 fun i => (c.rg (BitVec.ofNat 6 i)).bits.toNat :=
    List.map_congr_left fun i hi => by rw [frameG_of_live c live (List.mem_range.1 hi)]
  have v : (List.range 32).map (fun i => fnum (frV + 128 * i) 128 (if h.live.getLsbD (64 + i) then (c.rv (BitVec.ofNat 5 i)).toNat else 0))
      = table frV 128 32 fun i => (c.rv (BitVec.ofNat 5 i)).toNat :=
    List.map_congr_left fun i hi => by rw [live, if_pos (liveAll_bit (by have := List.mem_range.1 hi; omega))]
  rw [regBytes, p, g, v]

end

/-! Where the header's bytes lie. -/

/-- Every string of a list lies from an offset upward. -/
def From (lo : Nat) (l : List (Nat × List Byte)) : Prop := ∀ e ∈ l, lo ≤ e.1

theorem From.append {lo : Nat} {l k : List (Nat × List Byte)} (hl : From lo l) (hk : From lo k) : From lo (l ++ k) := fun e he =>
  (List.mem_append.1 he).elim (hl e) (hk e)

theorem From.flatten_map {α : Type} {lo : Nat} {l : List α} {f : α → List (Nat × List Byte)} (hf : ∀ x ∈ l, From lo (f x)) :
    From lo (l.map f).flatten := fun e he => by
  obtain ⟨_, hk, he⟩ := List.mem_flatten.1 he
  obtain ⟨x, hx, rfl⟩ := List.mem_map.1 hk
  exact hf x hx e he

theorem from_outcomeBytes (l : List BranchOut) : From frOut (outcomeBytes l) := fun e he => by
  rcases List.mem_cons.1 he with rfl | he
  · exact le_rfl
  · refine From.flatten_map (lo := frOut) (fun x _ e he => ?_) e he
    simp only [List.mem_cons, List.not_mem_nil, or_false] at he
    rcases he with rfl | rfl <;> simp only [fnum] <;> omega

theorem from_capEntryBytes (off : Nat) (x : CapEntry) : From off (capEntryBytes off x) := fun e he => by
  cases x with
  | vals l op pos =>
    rcases List.mem_cons.1 he with rfl | he
    · exact le_rfl
    · obtain ⟨x, -, rfl⟩ := List.mem_map.1 he
      simp only [fnum]
      omega
  | nest d =>
    simp only [capEntryBytes, List.mem_cons, List.not_mem_nil, or_false] at he
    rcases he with rfl | rfl <;> simp only <;> omega

theorem from_capQueueBytes (off : Nat) (l : List CapEntry) : From off (capQueueBytes off l) :=
  From.flatten_map fun _ _ e he => le_trans (Nat.le_add_right _ _) (from_capEntryBytes _ _ e he)

theorem from_latchBytes (off ord : Nat) (l : Latch) : From off (latchBytes off ord l) := fun e he => by
  simp only [latchBytes, List.mem_cons, List.not_mem_nil, or_false] at he
  rcases he with rfl | rfl | rfl | rfl | rfl <;> simp only [fnum] <;> omega

theorem from_bindBytes (off : Nat) (b : Binding) : From off (bindBytes off b) := fun e he => by
  simp only [bindBytes, List.mem_cons, List.not_mem_nil, or_false] at he
  rcases he with rfl | rfl | rfl <;> simp only [fnum] <;> omega

theorem From.mono {lo hi : Nat} {l : List (Nat × List Byte)} (hl : From hi l) (le : lo ≤ hi) : From lo l := fun e he =>
  le.trans (hl e he)

/-- The header's bytes after the place of the S walker lie above it. -/
theorem headBytes_split (s : State) (r : Nat) (h : FrameHead) (handle : Nat) : ∃ l k,
    headBytes s r h handle = l ++ fnum frPcS 8 (s.coreAt r).pc.toNat :: k ∧ From (frPcS + 8) k := by
  refine ⟨[_, _, _, _, _, _, _], _, rfl, ?_⟩
  refine From.append (From.append (From.append (From.append (From.append (From.append (From.append ?_ ?_) ?_) ?_) ?_) ?_) ?_) ?_
  · intro e he
    simp only [List.mem_cons, List.not_mem_nil, or_false] at he
    rcases he with rfl | rfl | rfl | rfl | rfl | rfl | rfl | rfl | rfl | rfl | rfl <;> simp only [fnum] <;> decide
  · intro e he
    obtain ⟨x, hx, rfl⟩ := List.mem_map.1 he
    have above : ∀ x ∈ frameCtl, frPcS + 8 ≤ x.1 := by decide
    exact above x hx
  · exact (from_outcomeBytes _).mono (by decide)
  · exact (from_capQueueBytes _ _).mono (by decide)
  · exact (from_capQueueBytes _ _).mono (by decide)
  · exact (from_capQueueBytes _ _).mono (by decide)
  · exact From.flatten_map fun x _ => (from_latchBytes _ _ _).mono (le_trans (by decide : frPcS + 8 ≤ frLatch) (Nat.le_add_right _ _))
  · exact From.flatten_map fun x _ => (from_bindBytes _ _).mono (le_trans (by decide : frPcS + 8 ≤ frBind) (Nat.le_add_right _ _))

/-- The register areas of a frame lie apart, behind the place of the S walker. -/
theorem frAreas : frPcS + 8 ≤ frP ∧ frP + 16 * 8 ≤ frG ∧ frG + 16 * 64 ≤ frV ∧ frV + 128 * 32 ≤ frShort := by decide

theorem toNat_mod {w n : Nat} (bytes : w = 8 * n) (x : BitVec w) : x.toNat % 256 ^ n = x.toNat := by
  refine Nat.mod_eq_of_lt (x.isLt.trans_eq ?_)
  rw [bytes, Nat.pow_mul]

section
variable (s : State) (r : Nat) {h : FrameHead} (handle : Nat) (live : h.live = liveAll) (short : h.full = false)
include live short

theorem frameMem_of_live : frameMem s r h handle = ((Mem.writes (Mem.writes (Mem.writes [] (headBytes s r h handle))
    (table frP 16 8 fun i => ((s.coreAt r).rp (BitVec.ofNat 3 i)).toNat))
    (table frG 16 64 fun i => ((s.coreAt r).rg (BitVec.ofNat 6 i)).bits.toNat)).writes
    (table frV 128 32 fun i => ((s.coreAt r).rv (BitVec.ofNat 5 i)).toNat)) := by
  rw [frameMem, regBytes_of_live _ live, Mem.writes_append, Mem.writes_append]
  exact if_neg (by rw [short]; decide)

/-- A frame holds the general registers. -/
theorem frameMem_g {i : Nat} (hi : i < 64) :
    (frameMem s r h handle).readNat (frG + 16 * i) 16 = ((s.coreAt r).rg (BitVec.ofNat 6 i)).bits.toNat := by
  rw [frameMem_of_live s r handle live short, Mem.readNat_congr fun k _ _ => Mem.get_writes_table_out (.inl (by have := frAreas; omega)) _,
    Mem.readNat_writes_table hi]
  exact toNat_mod (by decide) _

/-- A frame holds the vector registers. -/
theorem frameMem_v {i : Nat} (hi : i < 32) :
    (frameMem s r h handle).readNat (frV + 128 * i) 128 = ((s.coreAt r).rv (BitVec.ofNat 5 i)).toNat := by
  rw [frameMem_of_live s r handle live short, Mem.readNat_writes_table hi]
  exact toNat_mod (by decide) _

/-- A frame holds the predicate registers. -/
theorem frameMem_p {i : Nat} (hi : i < 8) :
    (frameMem s r h handle).readNat (frP + 16 * i) 16 = ((s.coreAt r).rp (BitVec.ofNat 3 i)).toNat := by
  rw [frameMem_of_live s r handle live short, Mem.readNat_congr fun k _ _ => (Mem.get_writes_table_out (.inl (by have := frAreas; omega)) _).trans
    (Mem.get_writes_table_out (.inl (by have := frAreas; omega)) _), Mem.readNat_writes_table hi]
  exact toNat_mod (by decide) _

/-- A frame holds the place of the S walker. -/
theorem frameMem_pc : (frameMem s r h handle).readNat frPcS 8 = (s.coreAt r).pc.toNat := by
  obtain ⟨l, k, split, above⟩ := headBytes_split s r h handle
  rw [frameMem_of_live s r handle live short, Mem.readNat_congr fun k _ _ => ((Mem.get_writes_table_out (.inl (by have := frAreas; omega)) _).trans
    (Mem.get_writes_table_out (.inl (by have := frAreas; omega)) _)).trans (Mem.get_writes_table_out (.inl (by have := frAreas; omega)) _), split, Mem.writes_append]
  change ((Mem.write _ frPcS (leBytes 8 (s.coreAt r).pc.toNat)).writes k).readNat frPcS 8 = _
  rw [Mem.readNat_congr fun o _ _ => Mem.get_writes_out (fun e he => .inl (by have := above e he; omega)) _, Mem.readNat_write]
  exact toNat_mod (by decide) _

end
/-! The state after a frame is written. -/

theorem tagUnits_ctags (l : List (Nat × Bool)) (s : State) : ∃ k, s.tagUnits l = { s with ctags := k } := by
  induction l generalizing s with
  | nil => exact ⟨s.ctags, rfl⟩
  | cons e l ih =>
    obtain ⟨k, b⟩ := e
    cases b
    · exact ih s
    · exact ih { s with ctags := Keys.insert s.ctags (k / 16) }

section
variable (s : State) (r key : Nat) {h : FrameHead} (live : h.live = liveAll) (short : h.full = false)
include live short

/-- The frame of a trap is one store, with its capability tags and its engine state kept. -/
theorem writeFrame_of_live : ∃ (w : State) (n : Nat), writeFrame s r key h = w ∧ w.rank = s.rank ∧
    w.mem = s.mem.overlay key frShort (frameMem s r h n) ∧ w.poison = Keys.clear s.poison key frShort ∧
    w.coreAt r = (s.notify key frShort).coreAt r := by
  obtain ⟨n, hn⟩ : ∃ n, n = s.saved.length + 1 := ⟨_, rfl⟩
  obtain ⟨k, hk⟩ := tagUnits_ctags ((frameTags (s.coreAt r) h).map fun x => (key + x.1, x.2))
    { s.storeSparse key frShort (frameMem s r h n) with saved := s.saved ++ [{ (s.coreAt r).engSave with live := liveAll }] }
  refine ⟨_, n, rfl, ?_⟩
  unfold writeFrame
  rw [live, short, deadAreas_liveAll]
  dsimp only [List.filter_nil, List.any_nil, List.foldl_nil]
  simp only [List.filter_false, List.foldl_nil, Bool.false_eq_true, if_false, ← hn]
  refine hk ▸ ⟨rfl, rfl, rfl, rfl⟩

end

/-- A hit of a core that waits for nothing changes its monitor register alone. -/
theorem Core.monHit_monctl {c : Core} (free : c.blocked = none) (now key n : Nat) :
    ∃ m, c.monHit now key n = { c with ctl := { c.ctl with monctl := m } } := by
  unfold Core.monHit
  split
  · exact ⟨c.ctl.monctl, rfl⟩
  · split
    · split
      · rename_i waits
        exact absurd (waits.symm.trans free) nofun
      · exact ⟨_, rfl⟩
    · exact ⟨c.ctl.monctl, rfl⟩

theorem Core.stopOverrun_swap (c : Core) (cause : BitVec 8) : ∃ a b, c.stopOverrun cause = { c with slice := a, swap := b } := by
  unfold Core.stopOverrun
  split
  · exact ⟨_, _, rfl⟩
  · exact ⟨c.slice, c.swap, rfl⟩

section
variable {s : State} {t : Trap} (free : s.me.blocked = none) (m : List (Nat × Mmu)) (seq : Nat)
include free

/-- What a trap makes of the core, and of the memory: the handler's core, and one frame. -/
theorem entered_of_free : ∃ k a b code, ∃ w : State, ∃ n,
    let key : Nat := localKey s.rank s.me.frameAt
    let c : Core := { s.me.completeM with ctl := { s.me.completeM.ctl with monctl := k } }
    w.rank = s.rank ∧ w.poison = Keys.clear s.poison key frShort ∧
    w.mem = s.mem.overlay key frShort (frameMem (s.stopped s.rank m) s.rank (trapHead t seq) n) ∧
    entered s.me s.rank t (seq, s.stopped s.rank m) =
      w.setCore s.rank { c.enterHandler s.me.frameAt t.cause.toNat code with slice := a, swap := b } := by
  obtain ⟨w, n, hw, rank, mem, poison, core⟩ := writeFrame_of_live (s.stopped s.rank m) s.rank (localKey s.rank s.me.frameAt)
    (h := trapHead t seq) rfl rfl
  obtain ⟨k, hk⟩ := Core.monHit_monctl (c := s.me.completeM) free s.cycle (localKey s.rank s.me.frameAt) frShort
  have code : ∃ c, c = (((s.stopped s.rank m).part? s.me.pid).map (·.code)).getD GVal.zero := ⟨_, rfl⟩
  obtain ⟨code, hcode⟩ := code
  obtain ⟨a, b, hab⟩ := Core.stopOverrun_swap (({ s.me.completeM with ctl := { s.me.completeM.ctl with monctl := k } } : Core).enterHandler
    s.me.frameAt t.cause.toNat code) t.cause
  refine ⟨k, a, b, code, w, n, rank, poison, mem, ?_⟩
  unfold entered
  dsimp only
  rw [hw, State.modCore, ← hcode, ← hab]
  refine congrArg (State.setCore _ _) (congrArg (fun e : Core => (e.enterHandler s.me.frameAt t.cause.toNat code).stopOverrun t.cause) ?_)
  rw [← hk]
  rw [core]
  simp only [State.coreAt, State.notify, State.stopped, State.setCore]
  rw [Table.find_map fun c : Core => c.monHit s.cycle _ _, Table.find_set, if_pos rfl]
  rfl

end
/-! The handler's core. -/

/-- The place at which a handler starts (15_system.md R428). -/
def Core.trapPc (c : Core) : Word64 := BitVec.ofNat 64 (field c.ctl.trapbase 2 54 * 4)

/-- The capability of a frame that a handler finds in g1 (15_system.md R428). -/
def frameCap (f : Nat) : GVal := (mintCap (0xD * 2 ^ 52 + f) 16384 (0xD * 2 ^ 52 + f) 0x25B#12).getD GVal.zero

/-- The control registers that a handler finds (15_system.md R428). -/
def Core.handlerCtl (c : Core) (cause : Nat) : Ctl :=
  (fun k : Ctl => { k with spdist := setField k.spdist 16 16 0 }) ((fun k : Ctl => { k with monctl := setField k.monctl 62 2 0 })
    ((fun k : Ctl => { k with tstate := BitVec.ofNat 32 (cause * 256 + (c.depth + 1) * 4 + 1) }) c.ctl))

/-- A core as a handler finds it, but for g1 and g2: one update (15_system.md R428). -/
def Core.atHandler (c : Core) (k : Ctl) (pc : Word64) (code : GVal) : Core :=
  { c with
    ctl := k, monLine := none, pcV := pc, pcM := pc, pcD := pc, posV := c.posS, posM := c.posS, posD := c.posS,
    outcomes := [], capV := [], capM := [], capD := [], nestS := none, nestV := none, nestM := none, nestD := none, latches := []
    codecap := code, dq := [], lastOut := none, owed := 0, hold := none, stalls := [], pendTrap := none
    passing := false, vwait := none, dfault := none, binds := c.binds.map Binding.held }

/-- The updates of a handler's entry, for any changes of the control registers, are one. -/
theorem Core.atHandler_eq (c : Core) (f d e : Ctl → Ctl) (pc : Word64) (code : GVal) :
    ({ (({ (c.modCtl f).modCtl d with monLine := none } : Core).modCtl e).alignWalkers pc with
      codecap := code, dq := [], lastOut := none, owed := 0, hold := none, stalls := [], pendTrap := none, passing := false
      vwait := none, dfault := none, binds := c.binds.map Binding.held } : Core) = c.atHandler (e (d (f c.ctl))) pc code := rfl

theorem Core.enterHandler_wg (c : Core) (f cause : Nat) (code : GVal) : c.enterHandler f cause code =
    ((c.atHandler (c.handlerCtl cause) c.trapPc (code.withWord c.trapPc)).wg 1#6 (frameCap f)).wg 2#6 (GVal.ofNat cause) :=
  congrArg (fun e : Core => (e.wg 1#6 (frameCap f)).wg 2#6 (GVal.ofNat cause)) (c.atHandler_eq _ _ _ _ _)

section
variable (c : Core) (f cause : Nat) (code : GVal)

theorem Core.enterHandler_eq : ∃ g, c.enterHandler f cause code =
    { c.atHandler (c.handlerCtl cause) c.trapPc (code.withWord c.trapPc) with g := g } := by
  rw [Core.enterHandler_wg]
  exact ⟨_, rfl⟩

/-- The handler finds the frame in g1 and the cause in g2 (15_system.md R428). -/
theorem Core.enterHandler_rg (j : GIdx) : (c.enterHandler f cause code).rg j =
    if j = 2#6 then GVal.ofNat cause else if j = 1#6 then frameCap f else c.rg j := by
  rw [Core.enterHandler_wg, Core.rg_wg, Core.rg_wg]
  by_cases zero : j = 0#6
  · rw [zero, Core.rg_zero]
    rfl
  · rw [if_neg zero, if_neg zero]
    rfl

theorem Core.handlerCtl_tstate (hc : cause < 256) (hd : c.depth < 2) : field (c.handlerCtl cause).tstate 0 2 = 1 ∧
    field (c.handlerCtl cause).tstate 2 2 = c.depth + 1 ∧ field (c.handlerCtl cause).tstate 8 8 = cause := by
  have tstate : (c.handlerCtl cause).tstate.toNat = cause * 256 + (c.depth + 1) * 4 + 1 :=
    (BitVec.toNat_ofNat _ _).trans (Nat.mod_eq_of_lt (by omega))
  simp only [field, tstate]
  omega

end

/-! The registers read back. -/

section
variable {u : State} {k : Nat} (clean : ∀ o n, o + n ≤ frShort → u.poisoned (k + o) n = false)
include clean

theorem liveReg_of_clean {α : Type} {i o n : Nat} (hi : i < 114) (inside : o + n ≤ frShort) (zero x : α) :
    liveReg u liveAll i (k + o) n zero x = x := by
  rw [liveReg, if_pos (liveAll_bit hi), cleanReg, clean o n inside]
  rfl

theorem restoreRegs_rg (c : Core) {j : GIdx} {x : BitVec 128} (held : u.mem.readNat (k + (frG + 16 * j.toNat)) 16 = x.toNat)
    (zero : j = 0#6 → x = 0#128) : ((c.restoreRegs u k liveAll).rg j).bits = x := by
  unfold Core.rg
  split
  · rename_i h
    exact (zero h).symm
  · have hj := j.isLt
    simp only [Core.restoreRegs, Vector.getElem_ofFn, Nat.add_assoc]
    rw [liveReg_of_clean clean (by omega) (by have := frAreas; omega), State.loadUnit, held]
    exact BitVec.eq_of_toNat_eq ((BitVec.toNat_ofNat _ _).trans (Nat.mod_eq_of_lt x.isLt))

theorem restoreRegs_rv (c : Core) {j : BitVec 5} {x : VReg} (held : u.mem.readNat (k + (frV + 128 * j.toNat)) 128 = x.toNat) :
    (c.restoreRegs u k liveAll).rv j = x := by
  have hj := j.isLt
  simp only [Core.rv, Core.restoreRegs, Vector.getElem_ofFn, Nat.add_assoc]
  rw [liveReg_of_clean clean (by omega) (by have := frAreas; omega), held]
  exact BitVec.eq_of_toNat_eq ((BitVec.toNat_ofNat _ _).trans (Nat.mod_eq_of_lt x.isLt))

theorem restoreRegs_rp (c : Core) {j : BitVec 3} {x : BitVec 128} (held : u.mem.readNat (k + (frP + 16 * j.toNat)) 16 = x.toNat) :
    (c.restoreRegs u k liveAll).rp j = x := by
  have hj := j.isLt
  simp only [Core.rp, Core.restoreRegs, Vector.getElem_ofFn, Nat.add_assoc]
  rw [liveReg_of_clean clean (by omega) (by have := frAreas; omega), held]
  exact BitVec.eq_of_toNat_eq ((BitVec.toNat_ofNat _ _).trans (Nat.mod_eq_of_lt x.isLt))

end

/-- Settles O26: a trap writes one frame and enters the handler; the frame's tables give the registers back. -/
theorem trapFrames : Obligations.TrapFrames := by
  unfold Obligations.TrapFrames
  constructor
  · intro s t c pc f single maxx runs depth loads free other sound
    obtain ⟨m, he⟩ := exec_trapEntry_of_free single maxx runs loads free sound
    obtain ⟨k, a, b, code, w, n, hr, -, hm, hu⟩ := entered_of_free free (t := t) m t.seq.toNat
    have hx := (he _ (reported_of_other _ _ _ other)).2 (Nat.ne_of_lt depth)
    obtain ⟨e, hk⟩ : ∃ e : Core, { s.me.completeM with ctl := { s.me.completeM.ctl with monctl := k } } = e := ⟨_, rfl⟩
    obtain ⟨g, hg⟩ := e.enterHandler_eq s.me.frameAt t.cause.toNat code
    have rg := e.enterHandler_rg s.me.frameAt t.cause.toNat code
    dsimp only at hu
    rw [hk, hg] at hu
    rw [hg] at rg
    have depth' : e.depth < 2 := hk ▸ depth
    obtain ⟨level, deeper, cause⟩ := e.handlerCtl_tstate t.cause.toNat t.cause.isLt depth'
    have me (e : Core) : (w.setCore s.rank e).me = e := (State.coreAt_setCore _ _ _ _).trans (if_pos hr)
    have start : e.trapPc = pc := hk ▸ rfl
    have pos : e.posS = c.posS := hk ▸ rfl
    refine ⟨_, hx.trans (congrArg _ hu), ?_⟩
    rw [me]
    refine ⟨level, deeper.trans (hk ▸ rfl), cause, (GVal.word_withWord _ _).trans start, start, start, start, pos, pos, pos, pos,
      rfl, rfl, rfl, rfl, rfl, rfl, rfl, rfl, rfl, rfl, rfl, rg 1#6, ?_, fun j h1 h2 => ?_, hk ▸ rfl, hk ▸ rfl, hk ▸ rfl, hk ▸ rfl,
      fun o ho => ?_⟩
    · exact (rg 2#6).trans (congrArg (GVal.mk · false) (by simp))
    · exact (rg j).trans ((if_neg h2).trans ((if_neg h1).trans (hk ▸ rfl)))
    · exact (congrArg (Mem.get · o) hm).trans (Mem.get_overlay_out ho)
  · intro s t c j i p k single maxx runs depth loads free other sound
    obtain ⟨m, he⟩ := exec_trapEntry_of_free single maxx runs loads free sound
    obtain ⟨_, a, b, code, w, n, -, hp, hm, hu⟩ := entered_of_free free (t := t) m t.seq.toNat
    have hx := (he _ (reported_of_other _ _ _ other)).2 (Nat.ne_of_lt depth)
    refine ⟨_, hx.trans (congrArg _ hu), ?_⟩
    have held {o l x : Nat} (inside : o + l ≤ frShort)
        (frame : (frameMem (s.stopped s.rank m) s.rank (trapHead t t.seq.toNat) n).readNat o l = x) :
        w.mem.readNat (k + o) l = x :=
      (congrArg (Mem.readNat · (k + o) l) hm).trans ((Mem.readNat_overlay_in inside).trans frame)
    have clean (o l : Nat) (inside : o + l ≤ frShort) : w.poisoned (k + o) l = false := by
      rw [Bool.eq_false_iff, Ne, State.poisoned_iff, hp]
      rintro ⟨x, hx, lo, hi⟩
      have apart := (Keys.mem_clear.1 hx).2
      change x < k ∨ k + frShort ≤ x at apart
      omega
    have me : (s.stopped s.rank m).coreAt s.rank = s.me.completeM := (State.coreAt_setCore _ _ _ _).trans (if_pos rfl)
    have hj := j.isLt
    have hi := i.isLt
    have hp := p.isLt
    have areas := frAreas
    have pc : w.mem.readNat (k + frPcS) 8 = s.me.pc.toNat :=
      held (by omega) ((frameMem_pc _ _ _ rfl rfl).trans ((congrArg (fun e : Core => e.pc.toNat) me).trans rfl))
    refine ⟨restoreRegs_rg clean c (held (by omega) ((frameMem_g _ _ _ rfl rfl hj).trans ?_)) ?_,
      restoreRegs_rv clean c (held (by omega) ((frameMem_v _ _ _ rfl rfl hi).trans ?_)),
      restoreRegs_rp clean c (held (by omega) ((frameMem_p _ _ _ rfl rfl hp).trans ?_)), pc⟩
    · rw [me, BitVec.ofNat_toNat, BitVec.setWidth_eq]
      rfl
    · rintro rfl
      exact congrArg GVal.bits (Core.rg_zero _)
    · rw [me, BitVec.ofNat_toNat, BitVec.setWidth_eq]
      rfl
    · rw [me, BitVec.ofNat_toNat, BitVec.setWidth_eq]
      rfl

end Sys2Proof.Machine
end
section
/-! PROOF. Key-value words: the steps of the hub, KVMAP, KVTRNC, KVPIN and KVUNPIN (obligation O35). -/

namespace Sys2Proof.Machine

/-! A request's step at the hub. -/

/-- A step on the view of a request's context (13_kv.md R385). -/
def onView (s : State) (p : Part) (q : HubReq) (f : View → Tree → State → KvAns (Nat × Nat)) : KvAns (Nat × Nat) :=
  (hubView s p q.ctx).andThen fun x u => if q.bad then (.error .broken, u) else f x.1 x.2 u

section
variable {s u : State} {p : Part} {q : HubReq} {f : View → Tree → State → KvAns (Nat × Nat)} {v : View} {t : Tree}

theorem onView_of_unreached (view : hubView s p q.ctx = (.error .unreached, u)) : onView s p q f = (.error .unreached, u) := by
  rw [onView, view]
  rfl

theorem onView_of_bad (view : hubView s p q.ctx = (.ok (v, t), u)) (bad : q.bad = true) : onView s p q f = (.error .broken, u) := by
  rw [onView, view]
  exact if_pos bad

theorem onView_of_sound (view : hubView s p q.ctx = (.ok (v, t), u)) (sound : q.bad = false) : onView s p q f = f v t u := by
  rw [onView, view]
  exact if_neg (by rw [sound]; decide)

variable (hp : s.part? q.pid = some p)
include hp

theorem hubStep_of_lookup {k : Nat} {toks : List (BitVec 32)} {probe : Bool} (op : q.op = .lookup k toks probe) :
    hubStep s q = onView s p q fun v t u => pfxlStep u p v t k toks probe := by
  rw [hubStep_eq_kvHub (by simp [op])]
  simp only [kvHub, hp, op, onView]

theorem hubStep_of_insert {toks : List (BitVec 32)} (op : q.op = .insert toks) :
    hubStep s q = onView s p q fun v t u => pfxiStep u p v t toks := by
  rw [hubStep_eq_kvHub (by simp [op])]
  simp only [kvHub, hp, op, onView]

theorem hubStep_of_remove {toks : List (BitVec 32)} (op : q.op = .remove toks) :
    hubStep s q = onView s p q fun _ t u => pfxdropStep u p t toks := by
  rw [hubStep_eq_kvHub (by simp [op])]
  simp only [kvHub, hp, op, onView]

theorem hubStep_of_truncate {n : Nat} (op : q.op = .truncate n) :
    hubStep s q = onView s p q fun v t u => truncStep u p v t n := by
  rw [hubStep_eq_kvHub (by simp [op])]
  simp only [kvHub, hp, op, onView]

section
variable {i r n : Nat} {gen : BitVec 16}

theorem hubStep_of_no_tree (op : q.op = .pin i r gen n ∨ q.op = .unpin i r gen n) (tree : validTree s p i = (none, u)) :
    hubStep s q = (.error .unreached, u) := by
  rcases op with op | op <;> rw [hubStep_eq_kvHub (by simp [op])] <;> simp only [kvHub, hp, op, tree]

theorem hubStep_of_pin (op : q.op = .pin i r gen n) (tree : validTree s p i = (some t, u)) :
    hubStep s q = holdStep u p t r gen (pinned n) := by
  rw [hubStep_eq_kvHub (by simp [op])]
  simp only [kvHub, hp, op, tree]

theorem hubStep_of_unpin (op : q.op = .unpin i r gen n) (tree : validTree s p i = (some t, u)) :
    hubStep s q = holdStep u p t r gen (unpinned n) := by
  rw [hubStep_eq_kvHub (by simp [op])]
  simp only [kvHub, hp, op, tree]

end
end

/-! The truncation of a view. -/

section
variable {s u w : State} {p : Part} {v : View} {t : Tree} {n : Nat} {rs : List Nat}

/-- The entries of a view that a truncation to n tokens cuts (13_kv.md R391). -/
def View.cutBy (v : View) (n : Nat) : List Nat := (List.range (spans v.len - spans n)).map (· + spans n)

/-- A tree with the references of some records dropped (13_kv.md R382). -/
def Tree.dropRefs (t : Tree) (rs : List Nat) : Tree := rs.foldl (fun t r => t.adjust r fun x => { x with ref := x.ref - 1 }) t

theorem truncStep_of_long (long : v.len < n) : truncStep s p v t n = (.ok (7, 0), s) := if_pos long

variable (short : n ≤ v.len) (cut : readEntries s p v t (v.cutBy n) = (.ok rs, u))
include short cut

theorem truncStep_of_none (none : spans n = 0) : truncStep s p v t n =
    ended (commit u p t (t.dropRefs rs) (lenWrite p v n :: (v.cutBy n).map (entryClear v))) 0 0 := by
  have kept : readEntries s p v t ((List.range (spans v.len - spans n)).map (· + spans n)) = (.ok rs, u) := cut
  simp only [truncStep, if_neg (Nat.not_lt.2 short), kept, KvAns.andThen, if_pos none, List.append_nil]
  rfl

theorem truncStep_of_some (some : spans n ≠ 0) {r : Nat} (last : readEntry u p v t (spans n - 1) = (.ok r, w)) :
    truncStep s p v t n = ended (commit w p t (t.dropRefs rs)
      (lenWrite p v n :: (v.cutBy n).map (entryClear v) ++ [entryWrite v (spans n - 1) (n - 64 * (spans n - 1)) r])) 0 0 := by
  have kept : readEntries s p v t ((List.range (spans v.len - spans n)).map (· + spans n)) = (.ok rs, u) := cut
  simp only [truncStep, if_neg (Nat.not_lt.2 short), kept, KvAns.andThen, if_neg some, last]
  rfl

end

/-! HOLD of a record. -/

section
variable {s : State} {p : Part} {t : Tree} {r : Nat} {gen : BitVec 16} {f : SpanRec → Nat × SpanRec}

theorem holdStep_of_stale (stale : t.live r = false ∨ (t.srec r).gen ≠ gen) : holdStep s p t r gen f = (.ok (1, 0), s) := if_pos stale

theorem holdStep_of_fresh (fresh : ¬(t.live r = false ∨ (t.srec r).gen ≠ gen)) :
    holdStep s p t r gen f = ended (commit s p t (t.adjust r fun x => (f x).2) []) (f (t.srec r)).1 0 := if_neg fresh

end

section
variable {s : State} {a b : GIdx} (plain : (s.me.rg b).tag = false) (hx : field (s.me.rg a).word 44 20 = 0)
  (hy : field (s.me.rg b).word 32 32 = 0)
include plain hx hy

/-- KVPIN and KVUNPIN with a plain gb make their request of the hub (13_kv.md R392). -/
theorem hubAnswers_of_hold :
    let ask (op : Nat → Nat → BitVec 16 → Nat → HubOp) : HubReq := hubReq s 0#6 0#16 0#64 false
      (op (field (s.me.rg a).word 24 4) (field (s.me.rg a).word 0 24) ((s.me.rg a).word.extractLsb' 28 16) (field (s.me.rg b).word 0 32))
    HubAnswers s s (.kvpin a b) (ask .pin) ∧ HubAnswers s s (.kvunpin a b) (ask .unpin) := by
  constructor
  · refine hubAnswers_of_askHub ((?_ : exec (.kvpin a b) s = settle s (hubWord s _)).trans
      (congrArg (settle s) (askHub_eq_hubWord (by simp [hubReq]))))
    change execKvpin a b s = _
    simp only [execKvpin, plain, Bool.false_eq_true, if_false, holdWord, hx, hy, ne_eq, not_true_eq_false, or_self]
  · refine hubAnswers_of_askHub ((?_ : exec (.kvunpin a b) s = settle s (hubWord s _)).trans
      (congrArg (settle s) (askHub_eq_hubWord (by simp [hubReq]))))
    change execKvunpin a b s = _
    simp only [execKvunpin, plain, Bool.false_eq_true, if_false, holdWord, hx, hy, ne_eq, not_true_eq_false, or_self]

end

/-- KVTRNC makes its request of the hub (13_kv.md R391). -/
theorem hubAnswers_of_kvtrnc {s u : State} {a b : GIdx} {e : Part × Nat} (hx : field (s.me.rg a).bits 16 112 = 0)
    (hy : field (s.me.rg b).bits 23 105 = 0) (check : ctxCheck s ((s.me.rg a).bits.setWidth 16) = (some e, u)) :
    HubAnswers s u (.kvtrnc a b)
      (hubReq u 0#6 ((s.me.rg a).bits.setWidth 16) 0#64 false (.truncate (s.me.rg b).bits.toNat)) := by
  refine hubAnswers_of_askHub ((?_ : exec (.kvtrnc a b) s = settle s (hubWord u _)).trans
    (congrArg (settle s) (askHub_eq_hubWord (by simp [hubReq]))))
  change execKvtrnc a b s = _
  simp only [execKvtrnc, hx, hy, ne_eq, not_true_eq_false, or_self, if_false, check]

/-! KVMAP. -/

/-- The view that KVMAP reads of a context's entry (13_kv.md R390). -/
def loadedView (ctx : BitVec 16) (b : List Byte) : View :=
  { ctx := ctx, tab := leNat ((b.drop 0).take 8), len := leNat ((b.drop 8).take 4), tree := leNat ((b.drop 12).take 1) % 16 }

/-- The tree that KVMAP reads of the directory, with the hub's records (13_kv.md R390). -/
def loadedTree (s : State) (p : Part) (i : Nat) (b : List Byte) : Tree :=
  { dirTree p.pid i b with recs := ((s.keptTree p.pid i).map (·.recs)).getD [] }

section
variable {s u w1 w2 : State} {d a b : GIdx} {p : Part} {key : Nat} {e1 e2 : List Byte} {v : View} {t : Tree} {x y : BitVec 128}
  (ha : (s.me.rg a).bits = x) (hb : (s.me.rg b).bits = y)
  (hx : field x 23 9 = 0) (hx' : field x 48 80 = 0) (hy : field y 12 4 = 0) (hy' : field y 17 111 = 0)
  (check : ctxCheck s (x.extractLsb' 32 16) = (some (p, key), u)) (pushed : u.pushesDone u.rank = true)
  (released : dReleasing u u.me.posS = false) (ready : acquireReady u u.rank = true)
  (first : engineLoad (acquire u u.rank) (ctxAddr p (x.extractLsb' 32 16) + 32) 16 = .ok (e1, w1))
  (hv : loadedView (x.extractLsb' 32 16) e1 = v)
  (second : engineLoad w1 (w1.kvdirOf p + 64 * v.tree) 64 = .ok (e2, w2))
  (ht : loadedTree w2 p v.tree e2 = t)
include ha hb hx hx' hy hy' check pushed released ready first hv second ht

theorem exec_kvmap : exec (.kvmap d a b) s = settle s
    (if t.valid = false ∨ t.layers ≤ field y 0 12 then .trap (trapS 0x07 0#64) w2
      else if v.len ≤ field x 0 23 then .ok (putVal w2 d GVal.zero)
      else (engineLoad w2 (v.tab + 8 * (field x 0 23 / 64)) 8).bind fun z =>
        match entryRec v t (field x 0 23 / 64) z.1 with
        | .error _ => .trap (trapS 0x0D 0#64) z.2
        | .ok r => .ok (putVal z.2 d (kvRow t v.len r (field x 0 23) (field y 0 12) (field y 16 1)))) := by
  subst ha hb hv ht
  simp only [loadedView] at second
  change execKvmap d a b s = _
  simp only [execKvmap, hx, hx', hy, hy', ne_eq, not_true_eq_false, or_self, if_false, check,
    afterReleases_of_ready pushed released ready, kvmapRead, first, Res.bind, second]
  rfl

theorem exec_kvmap_of_trap (out : t.valid = false ∨ t.layers ≤ field y 0 12) :
    exec (.kvmap d a b) s = .next (takeTrap w2 s.rank (trapS 0x07 0#64)) :=
  (exec_kvmap ha hb hx hx' hy hy' check pushed released ready first hv second ht).trans (congrArg (settle s) (if_pos out))

variable (valid : t.valid = true) (layer : field y 0 12 < t.layers)
include valid layer

theorem exec_kvmap_of_beyond (beyond : v.len ≤ field x 0 23) :
    exec (.kvmap d a b) s = .next (w2.setMe (w2.me.wg d GVal.zero).next) := by
  rw [exec_kvmap ha hb hx hx' hy hy' check pushed released ready first hv second ht, if_neg (by simp [valid, layer]), if_pos beyond]
  rfl

theorem exec_kvmap_of_within (within_ : field x 0 23 < v.len) {e3 : List Byte} {w3 : State} {r : Nat}
    (third : engineLoad w2 (v.tab + 8 * (field x 0 23 / 64)) 8 = .ok (e3, w3)) (entry : entryRec v t (field x 0 23 / 64) e3 = .ok r) :
    exec (.kvmap d a b) s = .next (w3.setMe (w3.me.wg d (kvRow t v.len r (field x 0 23) (field y 0 12) (field y 16 1))).next) := by
  rw [exec_kvmap ha hb hx hx' hy hy' check pushed released ready first hv second ht, if_neg (by simp [valid, layer]),
    if_neg (Nat.not_le.2 within_), third]
  simp only [Res.bind, entry]
  rfl

end

theorem field_zero {w : Nat} (x : BitVec w) (n : Nat) : field x 0 n = x.toNat % 2 ^ n := by
  rw [field, Nat.pow_zero, Nat.div_one]

/-- Settles O35: KVMAP by its three loads, and the steps of KVTRNC, KVPIN and KVUNPIN at the hub. -/
theorem viewAndHoldWords : Obligations.ViewAndHoldWords := by
  unfold Obligations.ViewAndHoldWords
  refine ⟨?_, ?_, ?_⟩
  · intro s u w1 w2 d a b p key e1 e2 x y pos l ctx num v t
    have hpos : field x 0 23 = pos := field_zero x 23
    have hl : field y 0 12 = l := field_zero y 12
    rw [← hpos, ← hl]
    refine ⟨fun hx hx' hy hy' check pushed released ready first second => ⟨fun out => ?_, fun valid layer beyond => ?_,
      fun e3 w3 r valid layer inside third entry => ?_⟩, fun hx hy check => hubAnswers_of_kvtrnc hx hy check⟩
    · exact exec_kvmap_of_trap rfl rfl hx hx' hy hy' check pushed released ready first rfl second rfl out
    · exact exec_kvmap_of_beyond rfl rfl hx hx' hy hy' check pushed released ready first rfl second rfl valid layer beyond
    · exact exec_kvmap_of_within rfl rfl hx hx' hy hy' check pushed released ready first rfl second rfl valid layer inside third entry
  · intro s u q p v t n keep cut made hp op sound
    have step := hubStep_of_truncate hp op
    refine ⟨fun view => step.trans (onView_of_unreached view), fun view => ?_⟩
    have step := step.trans (onView_of_sound view sound)
    refine ⟨fun long => step.trans (truncStep_of_long long), fun rs w short reads => ⟨fun none => ?_, fun r w1 some last => ?_⟩⟩
    · exact step.trans (truncStep_of_none short reads none)
    · exact step.trans (truncStep_of_some short reads some last)
  · intro s u a b p t x y r n stale up down ask made
    have hr : field x 0 24 = r := field_zero x 24
    have hn : field y 0 32 = n := field_zero y 32
    have asks := fun plain hx hy => hubAnswers_of_hold (s := s) (a := a) (b := b) plain hx hy
    dsimp only at asks
    rw [show field (s.me.rg a).word 0 24 = r from hr, show field (s.me.rg b).word 0 32 = n from hn] at asks
    refine ⟨asks, fun hp => ⟨fun none => ?_, fun tree => ⟨fun old => ?_, fun new => ?_⟩⟩⟩
    · exact ⟨hubStep_of_no_tree hp (.inl rfl) none, hubStep_of_no_tree hp (.inr rfl) none⟩
    · exact ⟨(hubStep_of_pin hp rfl tree).trans (holdStep_of_stale old), (hubStep_of_unpin hp rfl tree).trans (holdStep_of_stale old)⟩
    · exact ⟨(hubStep_of_pin hp rfl tree).trans (holdStep_of_fresh new), (hubStep_of_unpin hp rfl tree).trans (holdStep_of_fresh new)⟩

end Sys2Proof.Machine
end
section
/-! PROOF. The PFX words: their requests, their steps at the hub, and the match they make (obligation O34). -/

namespace Sys2Proof.Machine

/-! The request of a PFX word. -/

section
variable {s t u : State} {a b : GIdx} {k : Chunk} {c : BitVec 16} {n : Nat} {e : Part × Nat} {probe look : Bool}
  (check : ctxCheck (settleFor t s.rank (s.me.rg a).word [k]) c = (some e, u))
  (req : prefixReq (s.me.rg b).word look = some (c, probe, n))
  (buffer : access s .s (s.me.rg a) (s.me.rg a).word (if look then 8 * spans n + chainOff n else 4 * n)
    (if look then permLoad ||| permStore else permLoad) 8 .own = .ok (.bytes [k], t))
include check req buffer

theorem prefixWord_of_passes (d : GIdx) (op : Nat → List (BitVec 32) → Bool → HubOp) : prefixWord s d a b look op =
    hubWord u (hubReq u d c (s.me.rg a).word (u.poisoned k.key (4 * n)) (op k.key (tokensAt u.mem k.key n) probe)) := by
  simp only [prefixWord, req, buffer, Res.bind, check]

/-- A PFX word whose checks pass makes its request of the hub (13_kv.md R386). -/
theorem hubAnswers_of_prefix {i : Instr} {d : GIdx} {op : Nat → List (BitVec 32) → Bool → HubOp}
    (word : exec i s = settle s (prefixWord s d a b look op)) (noKill : ∀ k l p, op k l p ≠ .kill) : HubAnswers s u i
      (hubReq u d c (s.me.rg a).word (u.poisoned k.key (4 * n)) (op k.key (tokensAt u.mem k.key n) probe)) :=
  hubAnswers_of_askHub (word.trans (congrArg (settle s)
    ((prefixWord_of_passes check req buffer d op).trans (askHub_eq_hubWord (noKill _ _ _)))))

end

/-! The lookup. -/

theorem ended_of_made {x : Bool × State} (made : x.1 = true) (code n : Nat) : ended x code n = (.ok (code, n), x.2) := by
  simp only [ended, made, if_true]

theorem ended_of_lost {x : Bool × State} (lost : x.1 = false) (code n : Nat) : ended x code n = (.error .unreached, x.2) := by
  simp only [ended, lost, Bool.false_eq_true, if_false]

section
variable {s : State} {p : Part} {v : View} {t : Tree} {k : Nat} {toks : List (BitVec 32)} {probe : Bool}

/-- The tree after a match of tokens has stamped its nodes (13_kv.md R386). -/
def stamped (s : State) (t : Tree) (toks : List (BitVec 32)) : Tree := t.stamp s.hubTime (t.passed (t.match_ toks))

/-- A tree with a reference taken on some records (13_kv.md R387). -/
def Tree.takeRefs (t : Tree) (l : List Nat) : Tree := l.foldl (fun t r => t.adjust r fun i => { i with ref := i.ref + 1 }) t

/-- The writes of a view that a lookup fills (13_kv.md R387). -/
def viewWrites (p : Part) (v : View) (m : Nat) (l : List Nat) : List (Nat × List Byte) :=
  lenWrite p v m :: l.zipIdx.map fun e => entryWrite v e.2 (min 64 (m - 64 * e.2)) e.1

theorem pfxlStep_of_broken (broken : t.met (t.match_ toks) = none) : pfxlStep s p v t k toks probe = (.error .broken, s) := by
  simp only [pfxlStep, broken]

section
variable {l : List Nat} (met : t.met (t.match_ toks) = some l)
include met

theorem pfxlStep_of_full (look : probe = false) (full : v.len ≠ 0) :
    pfxlStep s p v t k toks probe = ended (commit s p t (stamped s t toks) []) 3 0 := by
  simp only [pfxlStep, met, if_pos (And.intro look full)]
  rfl

theorem pfxlStep_of_probe (probes : probe = true) : pfxlStep s p v t k toks probe =
    (ended (commit s p t (stamped s t toks) []) 0 ((t.match_ toks).m + l.length * 2 ^ 32)).andThen fun r u =>
      (.ok r, writeChain (stamped s t toks) k toks.length l u) := by
  subst probes
  simp only [pfxlStep, met, Bool.true_eq_false, false_and, if_false, if_true]
  rfl

theorem pfxlStep_of_empty (look : probe = false) (empty : v.len = 0) : pfxlStep s p v t k toks probe =
    (ended (commit s p t ((stamped s t toks).takeRefs l) (viewWrites p v (t.match_ toks).m l)) 0
      ((t.match_ toks).m + l.length * 2 ^ 32)).andThen fun r u =>
      (.ok r, writeChain ((stamped s t toks).takeRefs l) k toks.length l u) := by
  subst look
  simp only [pfxlStep, met, empty, ne_eq, not_true_eq_false, and_false, if_false, Bool.false_eq_true]
  rfl

end

theorem andThen_of_made {x : Bool × State} (made : x.1 = true) (code n : Nat) (f : State → State) :
    (ended x code n).andThen (fun r u => ((.ok r, f u) : KvAns (Nat × Nat))) = (.ok (code, n), f x.2) := by
  rw [ended_of_made made]
  rfl

theorem andThen_of_lost {x : Bool × State} (lost : x.1 = false) (code n : Nat) (f : State → State) :
    (ended x code n).andThen (fun r u => ((.ok r, f u) : KvAns (Nat × Nat))) = (.error .unreached, x.2) := by
  rw [ended_of_lost lost]
  rfl

/-! The insertion. -/

/-- Where every token beyond a match finds a node, every token is added (13_kv.md R388). -/
theorem Tree.extend_added (fuel : Nat) (t : Tree) (cur pos : Nat) (toks : List (BitVec 32))
    (all : (t.extend fuel cur pos toks).2.2.2.2 = true) : (t.extend fuel cur pos toks).2.2.2.1 = toks.length := by
  induction fuel generalizing t cur pos toks with
  | zero =>
    rw [List.isEmpty_iff.1 all]
    rfl
  | succ fuel ih =>
    unfold Tree.extend at all ⊢
    split
    · rename_i empty
      rw [List.isEmpty_iff.1 empty]
      rfl
    · rename_i some
      rw [if_neg some] at all
      split at all
      · dsimp only at all ⊢
        split at all
        · exact absurd all (by simp)
        · rename_i t1 kids
          dsimp only
          have rest := ih _ _ _ _ all
          rw [rest, List.length_drop]
          have le : runLen pos toks.length ≤ toks.length := by unfold runLen; omega
          omega
      · exact absurd all (by simp)

theorem pfxiStep_of_long (long : v.len < toks.length) : pfxiStep s p v t toks = (.ok (7, 0), s) := if_pos long

section
variable (short : toks.length ≤ v.len)
include short

theorem pfxiStep_of_broken (broken : t.met (t.match_ toks) = none) : pfxiStep s p v t toks = (.error .broken, s) := by
  simp only [pfxiStep, if_neg (Nat.not_lt.2 short), broken, Option.isNone_none, if_true]

variable (met : (t.met (t.match_ toks)).isSome = true)
include met

theorem pfxiStep_of_no_split (none : (stamped s t toks).splitAt (t.match_ toks) = none) :
    pfxiStep s p v t toks = (.ok (4, 0), s) := by
  have sound : (t.met (t.match_ toks)).isNone = false := by rw [← Option.not_isSome, met]; rfl
  rw [stamped] at none
  simp only [pfxiStep, if_neg (Nat.not_lt.2 short), sound, Bool.false_eq_true, if_false, none]

theorem pfxiStep_of_split {z2 z3 z4 : Tree} {cur : Nat} {w : State} {e : Tree × Nat × List Nat × Nat × Bool}
    (split : (stamped s t toks).splitAt (t.match_ toks) = some (z2, cur))
    (he : z2.extend (toks.length + 1) cur (t.match_ toks).m (toks.drop (t.match_ toks).m) = e) (all : e.2.2.2.2 = true)
    (hz : z3 = (match e.1.node e.2.1 with
      | some n => if n.index = 0 then e.1 else e.1.setNode { n with final := true }
      | none => e.1))
    (attached : attach s p v z3 ((t.match_ toks).path.map (·.index) ++ [cur] ++ e.2.2.1) = (.ok z4, w)) :
    pfxiStep s p v t toks = ended (commit w p t z4 []) 0 (toks.length - (t.match_ toks).m) := by
  have sound : (t.met (t.match_ toks)).isNone = false := by rw [← Option.not_isSome, met]; rfl
  have added : e.2.2.2.1 = toks.length - (t.match_ toks).m := by
    rw [← he] at all ⊢
    rw [Tree.extend_added _ _ _ _ _ all, List.length_drop]
  rw [stamped] at split
  subst hz
  simp only [pfxiStep, if_neg (Nat.not_lt.2 short), sound, Bool.false_eq_true, if_false, split, he, all, Bool.true_eq_false, false_and,
    if_true, added]
  exact congrArg (fun x => KvAns.andThen x fun t3 u => ended (commit u p t t3 []) 0 (toks.length - (t.match_ toks).m)) attached

end

/-! The removal. -/

theorem pfxdropStep_of_broken (broken : t.met (t.match_ toks) = none) : pfxdropStep s p t toks = (.error .broken, s) := by
  simp only [pfxdropStep, broken, Option.isNone_none, if_true]

section
variable (met : (t.met (t.match_ toks)).isSome = true) {i : Node}
  (last : (stamped s t toks).node (t.match_ toks).last.index = some i)
include met last

theorem pfxdropStep_of_met : pfxdropStep s p t toks =
    if (t.match_ toks).m = toks.length ∧ (t.match_ toks).k = i.run.length ∧ i.final = true ∧ i.index ≠ 0 then
      ended (commit s p t (((stamped s t toks).unmark i).prune false (t.nodes.length + 1) i.index) []) 0 0
    else (.ok (1, 0), s) := by
  have sound : (t.met (t.match_ toks)).isNone = false := by rw [← Option.not_isSome, met]; rfl
  rw [stamped] at last
  simp only [pfxdropStep, sound, Bool.false_eq_true, if_false, last]
  rfl

end
end

/-! The match. -/

theorem common_spec (a b : List (BitVec 32)) :
    common a b ≤ a.length ∧ common a b ≤ b.length ∧ a.take (common a b) = b.take (common a b) := by
  induction a generalizing b with
  | nil => exact ⟨le_rfl, Nat.zero_le _, rfl⟩
  | cons x a ih =>
    cases b with
    | nil => exact ⟨Nat.zero_le _, le_rfl, rfl⟩
    | cons y b =>
      unfold common
      split
      · rename_i same
        obtain ⟨ha, hb, take⟩ := ih b
        exact ⟨Nat.succ_le_succ ha, Nat.succ_le_succ hb, by rw [List.take_succ_cons, List.take_succ_cons, same, take]⟩
      · exact ⟨Nat.zero_le _, Nat.zero_le _, rfl⟩

/-- A match of a sequence: the whole runs of its path below the root, but for the last, of which it takes a first part
(13_kv.md R386). -/
structure Match.Of (x : Match) (all : List (BitVec 32)) : Prop where
  le : x.m ≤ all.length
  part : x.k ≤ x.last.run.length
  last : x.path.getLast? = some x.last
  runs : (x.path.tail.dropLast.map (·.run)).flatten ++ x.last.run.take x.k = all.take x.m

/-- A match that may go on: its path is of whole runs, and the tokens after it are left. -/
structure Match.Goes (x : Match) (all toks : List (BitVec 32)) : Prop where
  whole : (x.path.tail.map (·.run)).flatten = all.take x.m
  left : all.drop x.m = toks

/-- The match one node further on, which takes the tokens that the node's run shares with what is left. -/
def Match.further (x : Match) (c : Node) (toks : List (BitVec 32)) : Match :=
  { m := x.m + common c.run toks, path := x.path ++ [c], last := c, k := common c.run toks }

section
variable {x : Match} {all toks : List (BitVec 32)}

theorem Match.Of.path_ne_nil (of : x.Of all) : x.path ≠ [] := fun empty => by
  have last := of.last
  rw [empty] at last
  exact absurd last nofun

theorem Match.Goes.take_further (goes : x.Goes all toks) (c : Node) : all.take (x.further c toks).m = all.take x.m ++ c.run.take (common c.run toks) := by
  rw [(common_spec c.run toks).2.2, ← goes.left]
  exact List.take_add

variable (of : x.Of all) (goes : x.Goes all toks)
include of goes

theorem Match.of_further (c : Node) : (x.further c toks).Of all where
  le := by
    have left := congrArg List.length goes.left
    have shared := (common_spec c.run toks).2.1
    have le := of.le
    rw [List.length_drop] at left
    change x.m + common c.run toks ≤ all.length
    omega
  part := (common_spec c.run toks).1
  last := List.getLast?_append_of_ne_nil _ (by simp)
  runs := by
    change (((x.path ++ [c]).tail.dropLast).map (·.run)).flatten ++ c.run.take (common c.run toks) = _
    rw [List.tail_append_of_ne_nil of.path_ne_nil, List.dropLast_concat, goes.whole, goes.take_further]

theorem Match.goes_further (c : Node) (whole : ¬common c.run toks < c.run.length) :
    (x.further c toks).Goes all (toks.drop (common c.run toks)) where
  whole := by
    change (((x.path ++ [c]).tail).map (·.run)).flatten = _
    rw [List.tail_append_of_ne_nil of.path_ne_nil, List.map_append, List.flatten_append, goes.whole, goes.take_further,
      List.take_of_length_le (Nat.not_lt.1 whole)]
    simp
  left := by
    rw [← goes.left, List.drop_drop]
    rfl

end

theorem Tree.matchFrom_of (t : Tree) {all : List (BitVec 32)} (fuel : Nat) {x : Match} {toks : List (BitVec 32)} (of : x.Of all)
    (goes : x.Goes all toks) : (t.matchFrom fuel x toks).Of all := by
  induction fuel generalizing x toks with
  | zero => exact of
  | succ fuel ih =>
    unfold Tree.matchFrom
    cases toks with
    | nil => exact of
    | cons tok rest =>
      dsimp only
      cases t.childWith x.last tok with
      | none => exact of
      | some c =>
        dsimp only
        split
        · exact Match.of_further of goes c
        · rename_i whole
          exact ih (Match.of_further of goes c) (Match.goes_further of goes c whole)

theorem Tree.match_of (t : Tree) (toks : List (BitVec 32)) : (t.match_ toks).Of toks :=
  t.matchFrom_of _ ⟨Nat.zero_le _, Nat.zero_le _, rfl, rfl⟩ ⟨rfl, rfl⟩

theorem Tree.match_of_no_child {t : Tree} {toks : List (BitVec 32)}
    (none : t.childWith ((t.node 0).getD Node.root) (toks.headD 0#32) = none) : (t.match_ toks).m = 0 := by
  cases toks with
  | nil => rfl
  | cons tok rest =>
    have stops : t.childWith ((t.node 0).getD Node.root) tok = Option.none := none
    simp only [Tree.match_, Tree.matchFrom, stops]

theorem mapM_some {α β : Type} {f : α → Option β} {l : List α} {r : List β} (h : l.mapM f = some r) :
    r.length = l.length ∧ ∀ y ∈ r, ∃ x, f x = some y := by
  induction l generalizing r with
  | nil =>
    obtain rfl : [] = r := by simpa using h
    exact ⟨rfl, nofun⟩
  | cons x l ih =>
    obtain ⟨y, hy, rs, hrs, rfl⟩ : ∃ y, f x = some y ∧ ∃ rs, l.mapM f = some rs ∧ y :: rs = r := by
      simpa [List.mapM_cons, Option.bind_eq_some_iff] using h
    obtain ⟨len, each⟩ := ih hrs
    refine ⟨congrArg (· + 1) len, fun z hz => ?_⟩
    rcases List.mem_cons.1 hz with rfl | hz
    · exact ⟨x, hy⟩
    · exact each z hz

theorem Tree.live_of_recOf {t : Tree} {x : Match} {j r : Nat} (h : t.recOf x j = some r) : t.live r = true := by
  unfold Tree.recOf at h
  dsimp only at h
  split at h
  · split at h
    · rename_i live
      exact Option.some.inj h ▸ live
    · exact absurd h nofun
  · exact absurd h nofun

/-- A match has a live record for each of its spans (13_kv.md R386). -/
theorem Tree.recsOf_spans {t : Tree} {x : Match} {l : List Nat} (h : t.recsOf x = some l) :
    l.length = spans x.m ∧ ∀ r ∈ l, t.live r = true := by
  obtain ⟨len, each⟩ := mapM_some h
  refine ⟨len.trans List.length_range, fun r hr => ?_⟩
  obtain ⟨j, hj⟩ := each r hr
  exact Tree.live_of_recOf hj

/-- Settles O34: the PFX words ask the hub; its steps by their branches; the match by the nodes it passes. -/
theorem prefixWords : Obligations.PrefixWords := by
  unfold Obligations.PrefixWords
  refine ⟨?_, ?_, ?_⟩
  · intro s t u d a b k c probe n e x y toks req check
    refine ⟨fun look buffer => ?_, fun plain buffer => ⟨?_, ?_⟩⟩
    · exact hubAnswers_of_prefix (look := true) (op := .lookup) check look buffer rfl nofun
    · exact hubAnswers_of_prefix (look := false) (op := fun _ toks _ => .insert toks) check plain buffer rfl nofun
    · exact hubAnswers_of_prefix (look := false) (op := fun _ toks _ => .remove toks) check plain buffer rfl nofun
  · intro s u q p v t toks key probe f n z1 made looks inserts removes hp
    have lookup (op : looks) := hubStep_of_lookup hp op
    have insert (op : inserts) := hubStep_of_insert hp op
    have remove (op : removes) := hubStep_of_remove hp op
    refine ⟨fun op => ?_, fun view sound => ?_⟩
    · refine ⟨fun view => ?_, fun view bad => ?_⟩
      · rcases op with op | op | op
        · exact (lookup op).trans (onView_of_unreached view)
        · exact (insert op).trans (onView_of_unreached view)
        · exact (remove op).trans (onView_of_unreached view)
      · rcases op with op | op | op
        · exact (lookup op).trans (onView_of_bad view bad)
        · exact (insert op).trans (onView_of_bad view bad)
        · exact (remove op).trans (onView_of_bad view bad)
    have lookup (op : looks) := (lookup op).trans (onView_of_sound view sound)
    have insert (op : inserts) := (insert op).trans (onView_of_sound view sound)
    have remove (op : removes) := (remove op).trans (onView_of_sound view sound)
    refine ⟨fun op broken => (lookup op).trans (pfxlStep_of_broken broken), fun l op met => ?_,
      fun op long => (insert op).trans (pfxiStep_of_long long),
      fun op short broken => (insert op).trans (pfxiStep_of_broken short broken),
      fun op short met none => (insert op).trans (pfxiStep_of_no_split short met none),
      fun z2 cur e z3 z4 w op short met split he all hz attached =>
        (insert op).trans (pfxiStep_of_split short met split he all hz attached),
      fun op broken => (remove op).trans (pfxdropStep_of_broken broken), fun i op met last => ⟨fun here => ?_, fun other => ?_⟩⟩
    · refine ⟨fun probes made => ?_, fun probes lost => ?_, fun look full => ?_, fun look empty made => ?_, fun look empty lost => ?_⟩
      · exact ((lookup op).trans (pfxlStep_of_probe met probes)).trans (andThen_of_made made _ _ _)
      · exact ((lookup op).trans (pfxlStep_of_probe met probes)).trans (andThen_of_lost lost _ _ _)
      · exact (lookup op).trans (pfxlStep_of_full met look full)
      · exact ((lookup op).trans (pfxlStep_of_empty met look empty)).trans (andThen_of_made made _ _ _)
      · exact ((lookup op).trans (pfxlStep_of_empty met look empty)).trans (andThen_of_lost lost _ _ _)
    · exact ((remove op).trans (pfxdropStep_of_met met last)).trans (if_pos here)
    · exact ((remove op).trans (pfxdropStep_of_met met last)).trans (if_neg other)
  · intro t toks x
    have of := t.match_of toks
    exact ⟨of.le, of.part, of.last, of.runs, Tree.match_of_no_child, fun l recs => Tree.recsOf_spans recs⟩

end Sys2Proof.Machine
end
section
/-! PROOF. Prefetches, the felling engine and ATTG (obligation O36). -/

namespace Sys2Proof.Machine

/-! Prefetches. -/

section
variable {s t : State} {a b : GIdx}

/-- The prefetch that KVPIN posts (13_kv.md R392). -/
def postedPrefetch (s : State) (x : Word64) (r o : Nat) : Prefetch :=
  { pid := s.me.pid, tree := field x 24 4, record := field x 0 24, gen := x.extractLsb' 28 16, layer := field x 44 12
    pkg := s.me.ctl.pkg, dst := BitVec.ofNat 12 r, off := BitVec.ofNat 19 o }

theorem exec_kvunpin_of_tagged (tagged : (s.me.rg b).tag = true) :
    exec (.kvunpin a b) s = .next (takeTrap s s.rank (trapS 0x07 0#64)) := by
  change execKvunpin a b s = _
  simp only [execKvunpin, tagged, if_true]
  rfl

variable {r o : Nat} (tagged : (s.me.rg b).tag = true) (spare : field (s.me.rg a).word 56 8 = 0)
  (owner : localOperand s (s.me.rg b) (s.me.rg b).word 64 (permStore ||| permAtomic) 64 = .ok (.here r o, t))
include tagged spare owner

theorem exec_kvpin_of_tagged : exec (.kvpin a b) s = settle s
    (if s.lazy then .ok ({ t with prefetch := t.prefetch ++ [postedPrefetch s (s.me.rg a).word r o] }.modMe Core.next)
      else .ok ((servePrefetch t (postedPrefetch s (s.me.rg a).word r o)).modMe Core.next)) := by
  change execKvpin a b s = _
  simp only [execKvpin, tagged, if_true, prefetchWord, spare, ne_eq, not_true_eq_false, if_false, owner, Res.bind]
  rfl

theorem exec_kvpin_of_lazy (waits : s.lazy = true) : exec (.kvpin a b) s =
    .next ({ t with prefetch := t.prefetch ++ [postedPrefetch s (s.me.rg a).word r o] }.modMe Core.next) :=
  (exec_kvpin_of_tagged tagged spare owner).trans (congrArg (settle s) (if_pos waits))

theorem exec_kvpin_of_eager (now : s.lazy = false) : exec (.kvpin a b) s =
    .next ((servePrefetch t (postedPrefetch s (s.me.rg a).word r o)).modMe Core.next) :=
  (exec_kvpin_of_tagged tagged spare owner).trans (congrArg (settle s) (if_neg (by rw [now]; decide)))

end

theorem exec_kvPrefetchServe_of_cons {s : State} {q : Prefetch} {l : List Prefetch} (h : s.prefetch = q :: l) :
    exec .kvPrefetchServe s = .next (servePrefetch { s with prefetch := l } q) := by
  change execKvPrefetchServe s = _
  rw [execKvPrefetchServe, h]

theorem exec_kvPrefetchServe_of_nil {s : State} (h : s.prefetch = []) : exec .kvPrefetchServe s = .next s := by
  change execKvPrefetchServe s = _
  rw [execKvPrefetchServe, h]

/-- The granule that tells the end of a prefetch (13_kv.md R392). -/
def pinGranule (s : State) (q : Prefetch) (code pset : Nat) : Arrival :=
  { dst := q.dst, off := q.off, bytes := pinBytes code pset, kind := .pin, srcPkg := s.me.ctl.pkg.setWidth 32,
    srcCore := 0xFFFF#16, entry := 0#14 }

theorem pinBytes_eq (code pset : Nat) :
    pinBytes code pset = leBytes 1 code ++ List.replicate 7 0#8 ++ leBytes 8 pset ++ List.replicate 48 0#8 := by
  have seven : leBytes 7 0 = List.replicate 7 0#8 := by decide
  have rest : leBytes 48 0 = List.replicate 48 0#8 := by decide
  rw [pinBytes, seven, rest]

section
variable {s w : State} {q : Prefetch} {x : Except KvStop (Nat × Nat)} {code pset : Nat} (step : prefetchStep s q = (x, w))
  (reply : (KvAns.reply (x, w)).getD (2, 0) = (code, pset))
include step reply

/-- A served prefetch sends its granule to a core of the package (13_kv.md R392). -/
theorem servePrefetch_of_here (here : q.pkg = s.me.ctl.pkg) : servePrefetch s q =
    w.hubTo q.pid q.dst.toNat (.taggedArrival (pinGranule s q code pset)) fun v => arrive v (pinGranule s q code pset) := by
  simp only [servePrefetch, step, reply, if_pos here]
  rfl

/-- A served prefetch sends its granule to another package (13_kv.md R392). -/
theorem servePrefetch_of_away (away : q.pkg ≠ s.me.ctl.pkg) : servePrefetch s q =
    w.launch q.pid hubRank q.pkg q.dst (.tagged (pinGranule s q code pset)) := by
  simp only [servePrefetch, step, reply, if_neg away]
  rfl

end

section
variable {s u : State} {q : Prefetch} {p : Part} {t : Tree} (hp : s.part? q.pid = some p)
include hp

theorem prefetchStep_of_no_tree (tree : validTree s p q.tree = (none, u)) : prefetchStep s q = (.error .unreached, u) := by
  simp only [prefetchStep, hp, tree]

variable (tree : validTree s p q.tree = (some t, u))
include tree

theorem prefetchStep_of_stale (stale : t.live q.record = false ∨ (t.srec q.record).gen ≠ q.gen ∨ t.layers ≤ q.layer) :
    prefetchStep s q = (.ok (1, 0), u) := by
  simp only [prefetchStep, hp, tree, if_pos stale]

theorem prefetchStep_of_held (fresh : ¬(t.live q.record = false ∨ (t.srec q.record).gen ≠ q.gen ∨ t.layers ≤ q.layer))
    {t1 t2 : Tree} (ht1 : t.adjust q.record (fun r => (pinned 1 r).2) = t1)
    (ht2 : t1.adjust q.record (fun r => (unpinned 1 r).2) = t2) {u1 u2 : State} (held : commit u p t t1 [] = (true, u1))
    (released : commit u1 p t1 t2 [] = (true, u2)) : prefetchStep s q = (.ok (0, t.pset q.record), u2) := by
  subst ht1 ht2
  simp only [prefetchStep, hp, tree, if_neg fresh, held, ended_of_made, KvAns.andThen, released]

end

/-! What a step at the hub leaves. -/

theorem touchLeaf_aside (s : State) (entry : Nat) (e : BitVec 64) (k : AccessKind) : (touchLeaf s entry e k).aside = s.aside := by
  unfold touchLeaf
  split
  · rfl
  · exact State.storeNat_aside _ _ _ _

theorem hubPages_aside (root : BitVec 64) (k : AccessKind) (fuel va n : Nat) (s : State) :
    (hubPages s root k fuel va n).2.aside = s.aside := by
  induction fuel generalizing s va n with
  | zero => rfl
  | succ fuel ih =>
    unfold hubPages
    split
    · rfl
    · split
      · rfl
      · split
        · exact (ih _ _ _).trans (touchLeaf_aside _ _ _ _)
        · rfl

theorem placeAll_aside (root : BitVec 64) (l : List (Nat × List Byte)) (s : State) : (placeAll s root l).2.aside = s.aside := by
  induction l generalizing s with
  | nil => rfl
  | cons x l ih =>
    obtain ⟨va, bs⟩ := x
    have walks : (hubChunks s root va bs.length .store).2.aside = s.aside := hubPages_aside _ _ _ _ _ _
    unfold placeAll
    split
    · rename_i h
      rw [h] at walks
      exact walks
    · rename_i h
      rw [h] at walks
      split
      · exact walks
      · exact (ih _).trans walks

theorem storeChunks_aside (l : List Chunk) (bs : List Byte) (s : State) : (s.storeChunks l bs).aside = s.aside := by
  induction l generalizing s bs with
  | nil => rfl
  | cons c l ih => exact (ih _ _).trans (State.store_aside _ _ _)

theorem writeAll_aside (s : State) (root : BitVec 64) (w : List (Nat × List Byte)) : (writeAll s root w).2.aside = s.aside := by
  have places := placeAll_aside root w s
  unfold writeAll
  split
  · rename_i l t h
    rw [h] at places
    exact (foldl_aside _ (fun t x => storeChunks_aside x.1 x.2 t) l t).trans places
  · rename_i h
    rw [h] at places
    exact places

/-- A step at the hub leaves the felling queue. -/
theorem commit_fells (s : State) (p : Part) (old new : Tree) (entries : List (Nat × List Byte)) :
    (commit s p old new entries).2.fells = s.fells := by
  have kept : (writeAll s p.ptroot (old.writes new ++ entries)).2.aside.fells = s.aside.fells :=
    congrArg State.fells (writeAll_aside _ _ _)
  unfold commit
  split
  · rename_i h
    rw [h] at kept
    exact kept
  · rename_i h
    rw [h] at kept
    exact kept

/-! Proposals. -/

theorem mem_insertBy {α : Type} (le : α → α → Bool) {x y : α} {l : List α} : y ∈ insertBy le x l ↔ y = x ∨ y ∈ l := by
  induction l with
  | nil => simp [insertBy]
  | cons z l ih =>
    unfold insertBy
    split
    · exact List.mem_cons
    · rw [List.mem_cons, ih, List.mem_cons]
      tauto

theorem mem_sortBy {α : Type} (le : α → α → Bool) {y : α} {l : List α} : y ∈ sortBy le l ↔ y ∈ l := by
  induction l with
  | nil => rfl
  | cons x l ih => rw [sortBy, mem_insertBy, ih, List.mem_cons]

theorem mem_onePerRecord {x : FellEntry} {l acc : List FellEntry} (h : x ∈ onePerRecord acc l) : x ∈ acc ∨ x ∈ l := by
  induction l generalizing acc with
  | nil => exact .inl h
  | cons e l ih =>
    rcases ih h with h | h
    · split at h
      · exact .inl h
      · rcases List.mem_append.1 h with h | h
        · exact .inl h
        · exact .inr (List.mem_singleton.1 h ▸ List.mem_cons_self)
    · exact .inr (List.mem_cons_of_mem _ h)

/-- A proposal is the entry of a candidate whose record does not stand in the queue (13_kv.md R394). -/
theorem fresh_of_candidate {s : State} {t : Tree} {x : FellEntry} (h : x ∈ (candidates s t).map (fellEntry s t)) :
    x.confirmed = false ∧ x.due = s.cycle + s.fellctl.toNat ∧ queued s t x.record = false := by
  obtain ⟨n, hn, rfl⟩ := List.mem_map.1 h
  have candidate := (List.mem_filter.1 ((mem_sortBy _).1 hn)).2
  refine ⟨rfl, rfl, ?_⟩
  change queued s t (n.span.getD 0) = false
  cases hs : n.span with
  | none => simp [hs] at candidate
  | some r =>
    rw [hs, Bool.and_eq_true] at candidate
    exact Bool.not_eq_true' _ ▸ candidate.2

section
variable {s : State} {pid tree : Nat} {t : Tree} (ht : (s.trees.find? fun t => t.pid == pid && t.index == tree) = some t)
include ht

theorem exec_fellPropose_of_high (high : t.valid = false ∨ t.lowmark ≤ t.freeRecs) : exec (.fellPropose pid tree) s = .next s := by
  change execFellPropose pid tree s = _
  simp only [execFellPropose, ht, propose, if_pos high]

theorem exec_fellPropose_of_low (low : ¬(t.valid = false ∨ t.lowmark ≤ t.freeRecs)) : exec (.fellPropose pid tree) s = .next
    { s with fells := s.fells ++ (onePerRecord [] ((candidates s t).map (fellEntry s t))).take (64 - s.fells.length) } := by
  change execFellPropose pid tree s = _
  simp only [execFellPropose, ht, propose, if_neg low]

end

/-! The felling queue. -/

section
variable {s : State} {i : BitVec 6}

/-- An event that changes the entry at a place of the queue, if one stands there. -/
def fellsModified (s : State) (i : Nat) (f : FellEntry → FellEntry) : Host.Outcome State Fault Refusal :=
  .next { s with fells := s.fells.modify i f }

theorem fellsModified_of_some {e : FellEntry} {i : Nat} (he : s.fells[i]? = some e) (f : FellEntry → FellEntry) :
    fellsModified s i f = .next { s with fells := s.fells.set i (f e) } := by
  rw [fellsModified, List.modify_eq_set_getElem?, he]
  rfl

theorem fellsModified_of_none {i : Nat} (he : s.fells[i]? = none) (f : FellEntry → FellEntry) : fellsModified s i f = .next s := by
  rw [fellsModified, List.modify_eq_set_getElem?, he]
  rfl

section
variable {e : FellEntry} (he : s.fells[i.toNat]? = some e)
include he

theorem exec_fellDeadlineExpiry_of_some : exec (.fellDeadlineExpiry i) s = .next { s with
    fells := s.fells.set i.toNat (if e.due ≤ s.cycle then { e with expired := true } else e) } :=
  fellsModified_of_some he _

theorem exec_fellactConfirm_of_some :
    exec (.fellactConfirm i) s = .next { s with fells := s.fells.set i.toNat { e with confirmed := true } } :=
  fellsModified_of_some he _

theorem exec_fellactMoveFront_of_some :
    exec (.fellactMoveFront i) s = .next { s with fells := e :: s.fells.eraseIdx i.toNat } := by
  change execFellactMoveFront i s = _
  rw [execFellactMoveFront, he]

theorem exec_fellactVeto_of_node {t : Tree} {n : Node} {p : Part}
    (ht : (s.trees.find? fun t => t.pid == e.pid && t.index == e.tree) = some t) (hn : t.node e.node = some n)
    (hp : s.part? e.pid = some p) : exec (.fellactVeto i) s = .next (commit { s with fells := s.fells.eraseIdx i.toNat } p t
      (t.setNode { n with lastUse := BitVec.ofNat 32 (s.cycle / 1024) }) []).2 := by
  change execFellactVeto i s = _
  simp only [execFellactVeto, he, ht, hp, hn]
  rfl

/-- A veto takes the entry out of the queue, whatever becomes of its node (13_kv.md R396). -/
theorem exec_fellactVeto_of_some : ∃ u, exec (.fellactVeto i) s = .next u ∧ u.fells = s.fells.eraseIdx i.toNat := by
  refine ⟨_, rfl, ?_⟩
  simp only [he]
  split
  · split
    · exact commit_fells _ _ _ _ _
    · rfl
  · rfl

end

section
variable (he : s.fells[i.toNat]? = none)
include he

theorem exec_fellDeadlineExpiry_of_none : exec (.fellDeadlineExpiry i) s = .next s :=
  fellsModified_of_none he _

theorem exec_fellactConfirm_of_none : exec (.fellactConfirm i) s = .next s :=
  fellsModified_of_none he _

theorem exec_fellactMoveFront_of_none : exec (.fellactMoveFront i) s = .next s := by
  change execFellactMoveFront i s = _
  rw [execFellactMoveFront, he]

theorem exec_fellactVeto_of_none : exec (.fellactVeto i) s = .next s := by
  change execFellactVeto i s = _
  rw [execFellactVeto, he]

end

section
variable {e : FellEntry} {l : List FellEntry} (he : s.fells = e :: l)
include he

theorem exec_fellExecute_of_waiting (new : e.confirmed = false) (open_ : e.expired = false) : exec .fellExecute s = .next s := by
  change execFellExecute s = _
  simp only [execFellExecute, he, new, open_, and_self, if_true]

variable (due : e.confirmed = true ∨ e.expired = true)
include due

theorem exec_fellExecute_of_due : exec .fellExecute s = .next (match fellable s e, s.part? e.pid with
    | some (t, n), some p =>
      (commit { s with fells := l } p t ((t.remove n).prune true (t.nodes.length + 1) n.parent) []).2
    | _, _ => { s with fells := l }) := by
  have ready : ¬(e.confirmed = false ∧ e.expired = false) := by
    rcases due with h | h <;> simp [h]
  change execFellExecute s = _
  simp only [execFellExecute, he, if_neg ready] <;> rfl

theorem exec_fellExecute_of_stale (stale : fellable s e = none) : exec .fellExecute s = .next { s with fells := l } := by
  rw [exec_fellExecute_of_due he due, stale]

theorem exec_fellExecute_of_fellable {t : Tree} {n : Node} {p : Part} (good : fellable s e = some (t, n))
    (hp : s.part? e.pid = some p) : exec .fellExecute s = .next
      (commit { s with fells := l } p t ((t.remove n).prune true (t.nodes.length + 1) n.parent) []).2 := by
  rw [exec_fellExecute_of_due he due, good, hp]

/-- A head that is due leaves the queue (13_kv.md R395). -/
theorem exec_fellExecute_fells : ∃ u, exec .fellExecute s = .next u ∧ u.fells = l := by
  refine ⟨_, exec_fellExecute_of_due he due, ?_⟩
  split
  · exact commit_fells _ _ _ _ _
  · rfl

end
end

/-! ATTG. -/

theorem readEntries_length {p : Part} {v : View} {z : Tree} {js rs : List Nat} {s w : State}
    (h : readEntries s p v z js = (.ok rs, w)) : rs.length = js.length := by
  induction js generalizing s rs w with
  | nil =>
    obtain ⟨same, -⟩ := Prod.mk.inj h
    obtain rfl := Except.ok.inj same
    rfl
  | cons j js ih =>
    unfold readEntries at h
    cases first : readEntry s p v z j with
    | mk x u =>
      rw [first] at h
      cases x with
      | error _ => exact absurd (Prod.mk.inj h).1 nofun
      | ok r =>
        change (readEntries u p v z js).andThen (fun rs w => (.ok (r :: rs), w)) = _ at h
        cases rest : readEntries u p v z js with
        | mk y u2 =>
          rw [rest] at h
          cases y with
          | error _ => exact absurd (Prod.mk.inj h).1 nofun
          | ok l =>
            obtain ⟨same, -⟩ := Prod.mk.inj h
            obtain rfl := Except.ok.inj same
            exact congrArg (· + 1) (ih rest)

section
variable {s t r q : State} {a : GIdx} {k : Chunk} {p : Part} {key : Nat} {v : View} {z : Tree} {x : Word64} {g : AttDesc}
  (hx : (s.me.rg a).word = x) (reads : access s .s (s.me.rg a) x 64 permLoad 64 .own = .ok (.bytes [k], t))
  (hg : attDesc (settleFor t s.rank x [k]) k.key = g) (check : ctxCheck (settleFor t s.rank x [k]) g.ctx = (some (p, key), r))
  (view : hubView r p g.ctx = (.ok (v, z), q))
include hx reads hg check view

/-- ATTG on a descriptor that reads, of a context with a view, goes on to its limits (13_kv.md R397). -/
theorem exec_attg_of_view : exec (.attg a) s = settle s (attStep q x g (q.poisoned k.key 64) p v z) := by
  subst hx hg
  change execAttg a s = _
  simp only [execAttg, reads, Res.bind, check, view]

end

section
variable {s : State} {x : Word64} {g : AttDesc} {bad : Bool} {p : Part} {v : View} {z : Tree}

theorem attStep_of_bad_limits (out : attOk g v z = false) : attStep s x g bad p v z = .trap (trapS 0x07 x) s := if_pos out

variable (good : attOk g v z = true) {m : State} {map : Nat}
  (hm : settleFor s s.rank (BitVec.ofNat 64 (0xD * 2 ^ 52 + g.map)) [ownChunk s.rank g.map ((g.blocks + 3) / 4)] = m)
  (hmap : localKey s.rank g.map = map)
include good hm hmap

theorem attStep_of_reserved (reserved : ∃ i, i < g.blocks ∧ coarse m map i = 3) :
    attStep s x g bad p v z = .trap (trapS 0x13 (BitVec.ofNat 64 (0xD * 2 ^ 52 + g.map))) m := by
  subst hm hmap
  have found : ((List.range g.blocks).any fun i => coarse (settleFor s s.rank (BitVec.ofNat 64 (0xD * 2 ^ 52 + g.map))
      [ownChunk s.rank g.map ((g.blocks + 3) / 4)]) (localKey s.rank g.map) i == 3) = true := by
    obtain ⟨i, hi, h3⟩ := reserved
    exact List.any_eq_true.2 ⟨i, List.mem_range.2 hi, beq_iff_eq.2 h3⟩
  simp only [attStep, good, Bool.true_eq_false, if_false, found, if_true]

section
variable (codes : ∀ i, i < g.blocks → coarse m map i ≠ 3)
include codes

theorem attStep_of_codes : attStep s x g bad p v z =
    if bad || m.poisoned map ((g.blocks + 3) / 4) then .trap (trapS 0x0D x) m
    else afterRelease m .pkg fun w => afterReleases w fun w =>
      match attHold w p v z ((attBlocks m map g.blocks).map fun b => g.first + b.1) with
      | (.error .broken, y) => .trap (trapS 0x0D x) y
      | (.error .unreached, y) => .trap (trapS 0x07 x) y
      | (.ok r, y) => .ok (attRun y g r.2 v.len ((attBlocks m map g.blocks).zip r.1)) := by
  subst hm hmap
  have none : ((List.range g.blocks).any fun i => coarse (settleFor s s.rank (BitVec.ofNat 64 (0xD * 2 ^ 52 + g.map))
      [ownChunk s.rank g.map ((g.blocks + 3) / 4)]) (localKey s.rank g.map) i == 3) = false :=
    List.any_eq_false.2 fun i hi => mt beq_iff_eq.1 (codes i (List.mem_range.1 hi))
  simp only [attStep, good, Bool.true_eq_false, if_false, none, Bool.false_eq_true] <;> rfl

theorem attStep_of_poison (poisoned : (bad || m.poisoned map ((g.blocks + 3) / 4)) = true) :
    attStep s x g bad p v z = .trap (trapS 0x0D x) m := by
  rw [attStep_of_codes good hm hmap codes, if_pos poisoned]

theorem attStep_of_sound (sound : (bad || m.poisoned map ((g.blocks + 3) / 4)) = false) (released : releaseReady m .pkg = true)
    {u : State} (hu : perform m .pkg = u) (pushed : u.pushesDone u.rank = true) (idle : dReleasing u u.me.posS = false)
    (ready : acquireReady u u.rank = true) {bl : List (Nat × Nat)} (hbl : attBlocks m map g.blocks = bl) {rs : List Nat}
    {w1 w2 : State} {z1 : Tree}
    (entries : readEntries (acquire u u.rank) p v z (bl.map fun b => g.first + b.1) = (.ok rs, w1))
    (hz : rs.foldl (fun t r => t.adjust r fun y => (pinned 1 y).2) z = z1) (held : commit w1 p z z1 [] = (true, w2)) :
    attStep s x g bad p v z = .ok (attRun w2 g z1 v.len (bl.zip rs)) := by
  subst hu hbl hz
  rw [attStep_of_codes good hm hmap codes, if_neg (by rw [sound]; decide), afterRelease_of_ready released,
    afterReleases_of_ready pushed idle ready]
  simp only [attHold, entries, KvAns.andThen, held, ended_of_made]

end
end

/-! The records that ATTG writes and pushes. -/

/-- The merge record of a graph with n blocks that are computed (13_kv.md R398). -/
def mergeRecord (g : AttDesc) (n : Nat) : Record :=
  { Record.zero with
    argA := g.arg, argB := GVal.ofNat (g.first + g.blocks * 2 ^ 32), entry := g.merge, wid := BitVec.ofNat 64 n
    done := g.done, ctx := g.ctx, count := BitVec.ofNat 32 n, flags := if n = 0 then 0#16 else 0x0008#16 }

/-- The records of the blocks, youngest first, with their places (13_kv.md R398). -/
def blockRecords (s : State) (g : AttDesc) (t : Tree) (len : Nat) (bs : List ((Nat × Nat) × Nat)) : List (Nat × Record) :=
  bs.reverse.map fun b => (localKey s.rank g.work + 64 + 64 * b.1.1, blockRecord g t len (s.coordAddr s.rank g.work) b.1 b.2)

section
variable (s : State) (g : AttDesc) (t : Tree) (len : Nat)

theorem attRun_of_none : attRun s g t len [] =
    pushOwn (putRecord s (localKey s.rank g.work) (mergeRecord g 0)) [mergeRecord g 0] := rfl

theorem attRun_of_some {bs : List ((Nat × Nat) × Nat)} (some : bs ≠ []) : attRun s g t len bs =
    pushOwn ((blockRecords s g t len bs).foldl (fun u y => putRecord u y.1 y.2)
      (putRecord s (localKey s.rank g.work) (mergeRecord g bs.length))) ((blockRecords s g t len bs).map (·.2)) := by
  have not : bs.isEmpty = false := by simpa using some
  have flags : (if bs.length = 0 then 0#16 else 0x0008#16) = 0x0008#16 := if_neg (by simpa using some)
  simp only [attRun, not, Bool.false_eq_true, if_false, mergeRecord, flags]
  rfl

end

section
variable {s : State} {y : Record} {l : List Record}

theorem pushOwn_of_full (full : dequeFull s.me = true ∨ s.me.push ≠ []) :
    pushOwn s (y :: l) = waitAt s s.rank 0 (.push (y :: l) true) none :=
  if_neg fun h => by rcases full with full | full <;> simp_all

theorem pushOwn_of_room (room : dequeFull s.me = false) (none : s.me.push = []) (plain : (y.pin || y.msg || y.resume) = false) :
    pushOwn s (y :: l) = pushOwn (pushYoung s s.rank y) l := by
  refine (if_pos ⟨room, none⟩).trans ?_
  rw [pushedTo, plain]
  rfl

end

/-- Settles O36: a prefetch by its step at the hub, the felling queue entry by entry, and ATTG by its checks in their order. -/
theorem prefetchFellingAttention : Obligations.PrefetchFellingAttention := by
  unfold Obligations.PrefetchFellingAttention
  refine ⟨?_, ?_, ?_⟩
  · intro s t a b r o q l x w
    refine ⟨fun tagged spare owner => ⟨exec_kvpin_of_lazy tagged spare owner, exec_kvpin_of_eager tagged spare owner,
      exec_kvunpin_of_tagged tagged⟩, ?_, exec_kvPrefetchServe_of_cons, exec_kvPrefetchServe_of_nil⟩
    intro p u t hq hp sends stale t1 t2
    have served (v : State) (y : Except KvStop (Nat × Nat)) (code pset : Nat)
        (step : prefetchStep { s with prefetch := l } q = (y, v)) (reply : (KvAns.reply (y, v)).getD (2, 0) = (code, pset)) :
        sends v code pset := by
      dsimp only [sends]
      rw [exec_kvPrefetchServe_of_cons hq, ← pinBytes_eq]
      exact ⟨fun here => congrArg _ (servePrefetch_of_here step reply here), fun away => congrArg _ (servePrefetch_of_away step reply away)⟩
    refine ⟨fun none => served u _ 2 0 (prefetchStep_of_no_tree hp none) rfl, fun tree =>
      ⟨fun old => served u _ 1 0 (prefetchStep_of_stale hp tree old) rfl, fun u1 u2 new held released => ?_⟩⟩
    exact served u2 _ 0 _ (prefetchStep_of_held (s := { s with prefetch := l }) hp tree new rfl rfl held released) rfl
  · intro s pid tree i e l
    refine ⟨fun t ht => ⟨exec_fellPropose_of_high ht, fun valid low => ?_⟩, fun he => ⟨exec_fellDeadlineExpiry_of_some he,
      exec_fellactConfirm_of_some he, exec_fellactMoveFront_of_some he, exec_fellactVeto_of_some he,
      fun t n p ht hn hp => exec_fellactVeto_of_node he ht hn hp⟩, fun he => ⟨exec_fellDeadlineExpiry_of_none he,
      exec_fellactConfirm_of_none he, exec_fellactMoveFront_of_none he, exec_fellactVeto_of_none he⟩, fun he =>
      ⟨exec_fellExecute_of_waiting he, exec_fellExecute_of_stale he, fun t n p due good hp =>
        exec_fellExecute_of_fellable he due good hp, exec_fellExecute_fells he⟩⟩
    refine ⟨_, exec_fellPropose_of_low ht (by simp [valid, low]), ?_, List.prefix_append _ _, rfl, fun x hx new => ?_⟩
    · have taken := List.length_take_le (64 - s.fells.length) (onePerRecord [] ((candidates s t).map (fellEntry s t)))
      simp only [List.length_append]
      omega
    · rcases List.mem_append.1 hx with hx | hx
      · exact absurd hx new
      · exact fresh_of_candidate ((mem_onePerRecord (List.mem_of_mem_take hx)).resolve_left nofun)
  · intro s t r q w1 w2 a k p key v z rs x e g map m bad bl u z1 reads check view
    have step := exec_attg_of_view (x := x) (g := g) rfl reads rfl check view
    have hmap : localKey q.rank g.map = map := rfl
    have hm : settleFor q q.rank (BitVec.ofNat 64 (0xD * 2 ^ 52 + g.map)) [ownChunk q.rank g.map ((g.blocks + 3) / 4)] = m := rfl
    have hbad : (q.poisoned k.key 64 || m.poisoned map ((g.blocks + 3) / 4)) = bad := rfl
    have hbl : attBlocks m map g.blocks = bl := rfl
    have hu : perform m .pkg = u := rfl
    have hz : rs.foldl (fun t r => t.adjust r fun y => (pinned 1 y).2) z = z1 := rfl
    clear_value z1 u bl bad m map g e x
    subst hbad
    have next {y : State} (h : attStep q x g (q.poisoned k.key 64) p v z = .ok y) : exec (.attg a) s = .next y :=
      step.trans (congrArg (settle s) h)
    have traps {y : State} {c : Trap} (h : attStep q x g (q.poisoned k.key 64) p v z = .trap c y) :
        exec (.attg a) s = .next (takeTrap y s.rank c) := step.trans (congrArg (settle s) h)
    refine ⟨fun out => traps (attStep_of_bad_limits out), fun good => ⟨fun reserved => traps (attStep_of_reserved good hm hmap reserved),
      fun codes poisoned => traps (attStep_of_poison good hm hmap codes poisoned),
      fun codes sound released pushed idle ready entries held => ?_⟩, fun s l => ⟨?_, ?_, ?_⟩⟩
    · have run := next (attStep_of_sound good hm hmap codes sound released hu pushed idle ready hbl entries hz held)
      have counts : (bl.zip rs).length = bl.length := by
        rw [List.length_zip, readEntries_length entries, List.length_map, Nat.min_self]
      refine ⟨fun none => ?_, fun some => ?_⟩
      · have nothing : bl.zip rs = [] := List.length_eq_zero_iff.1 (counts.trans (congrArg List.length none))
        rw [run, nothing, attRun_of_none, none]
        rfl
      · have blocks : bl.zip rs ≠ [] := fun h => some (List.length_eq_zero_iff.1 (counts.symm.trans (congrArg List.length h)))
        rw [run, attRun_of_some _ _ _ _ blocks, counts, mergeRecord, if_neg fun h => some (List.length_eq_zero_iff.1 h), if_neg some]
        rfl
    · rintro rfl
      rfl
    · rintro y t rfl full
      exact pushOwn_of_full full
    · rintro y t rfl room none pin msg resume
      exact pushOwn_of_room room none (by simp [pin, msg, resume])

end Sys2Proof.Machine
end
section
/-! PROOF. The issue of D commands and the words of the D walker (obligation O45). -/

namespace Sys2Proof.Machine

/-! The failure of highest precedence (15_system.md R427). -/

/-- The failure of highest precedence of two. -/
def Checks.worse (a x : Option (Nat × Word64)) : Option (Nat × Word64) :=
  match a, x with
  | some p, some q => if q.1 < p.1 then some q else some p
  | none, x => x
  | a, none => a

theorem Checks.worst_eq_foldl (l : Checks) : l.worst = l.foldl Checks.worse none := rfl

theorem Checks.worse_eq_none {a x : Option (Nat × Word64)} (h : Checks.worse a x = none) : a = none ∧ x = none := by
  cases a with
  | none => exact ⟨rfl, h⟩
  | some p =>
    cases x with
    | none => exact absurd h (by simp [Checks.worse])
    | some q =>
      simp only [Checks.worse] at h
      split at h <;> exact absurd h (by simp)

theorem Checks.worse_eq_some {a x : Option (Nat × Word64)} {p : Nat × Word64} (h : Checks.worse a x = some p) :
    (a = some p ∨ x = some p) ∧ ∀ q, a = some q ∨ x = some q → p.1 ≤ q.1 := by
  cases a with
  | none => cases x <;> simp_all [Checks.worse]
  | some a =>
    cases x with
    | none => simp_all [Checks.worse]
    | some x =>
      simp only [Checks.worse] at h
      split at h
      · obtain rfl := Option.some.inj h
        grind
      · obtain rfl := Option.some.inj h
        grind

theorem Checks.foldl_eq_none {l : Checks} {a : Option (Nat × Word64)} (h : l.foldl Checks.worse a = none) :
    a = none ∧ ∀ x ∈ l, x = none := by
  induction l generalizing a with
  | nil => exact ⟨h, by simp⟩
  | cons x l ih =>
    obtain ⟨both, rest⟩ := ih h
    obtain ⟨ha, hx⟩ := Checks.worse_eq_none both
    exact ⟨ha, List.forall_mem_cons.2 ⟨hx, rest⟩⟩

theorem Checks.foldl_eq_some {l : Checks} {a : Option (Nat × Word64)} {p : Nat × Word64} (h : l.foldl Checks.worse a = some p) :
    (a = some p ∨ some p ∈ l) ∧ ∀ q, a = some q ∨ some q ∈ l → p.1 ≤ q.1 := by
  induction l generalizing a with
  | nil =>
    obtain rfl : a = some p := h
    simp
  | cons x l ih =>
    obtain ⟨found, least⟩ := ih h
    cases both : Checks.worse a x with
    | none =>
      obtain ⟨rfl, rfl⟩ := Checks.worse_eq_none both
      simpa [Checks.worse] using And.intro found least
    | some r =>
      obtain ⟨from_, below⟩ := Checks.worse_eq_some both
      have first := least r (.inl both)
      simp only [List.mem_cons, eq_comm (a := some _) (b := x)]
      grind

theorem Checks.worst_eq_none {l : Checks} (h : l.all (·.isNone) = true) : l.worst = none := by
  cases worst : l.worst with
  | none => rfl
  | some p =>
    rw [Checks.worst_eq_foldl] at worst
    obtain ⟨found | found, -⟩ := Checks.foldl_eq_some worst
    · exact absurd found (by simp)
    · simpa using List.all_eq_true.1 h _ found

theorem Checks.worst_eq_some {l : Checks} {cause : Nat} {a : Word64} (h : some (cause, a) ∈ l) :
    ∃ y b, l.worst = some (y, b) ∧ y ≤ cause ∧ some (y, b) ∈ l := by
  cases worst : l.worst with
  | none =>
    rw [Checks.worst_eq_foldl] at worst
    exact absurd ((Checks.foldl_eq_none worst).2 _ h) (by simp)
  | some p =>
    rw [Checks.worst_eq_foldl] at worst
    obtain ⟨found, least⟩ := Checks.foldl_eq_some worst
    exact ⟨p.1, p.2, rfl, least _ (.inr h), found.resolve_left (by simp)⟩

/-! The D walker steps on. -/

theorem Core.engAdvance_frameD (c : Core) (op : Instr) (l : List GVal) :
    ∃ q pc pos n, c.engAdvance .d op l = { c with capD := q, pcD := pc, posD := pos, nestD := n } := by
  have popped (b : Bool) : ∃ q, (if b then c else c.popCap .d) = { c with capD := q } := by
    cases b
    · exact ⟨_, rfl⟩
    · exact ⟨_, rfl⟩
  unfold Core.engAdvance
  split
  · exact ⟨_, _, _, _, rfl⟩
  · rename_i n _
    obtain ⟨q, hq⟩ := popped n.replays
    simp only [hq]
    repeat' split
    all_goals exact ⟨_, _, _, _, rfl⟩

theorem Core.engAdvance_pcD {c : Core} (nest : c.nestD = none) (op : Instr) (l : List GVal) :
    (c.engAdvance .d op l).pcD = c.pcD + 12#64 := by
  simp only [Core.engAdvance, Core.nestOf, nest]
  rfl

/-! Issue. -/

section
variable {s : State} {l : List GVal} {op : Instr} {nb : Bool} {f : List GVal → Res State} (captured : s.me.engCaptured .d = some l)
include captured

theorem dIssue_of_mark (mark : nb ≠ s.me.nestD.isSome) : dIssue s op nb f = .trap (mkTrap .d 0x01 0#64) s := by
  simp only [dIssue, captured, if_pos mark]

variable (mark : nb = s.me.nestD.isSome)
include mark

theorem dIssue_of_full (full : 16 ≤ s.me.dq.length) : dIssue s op nb f = .ok s := by
  simp only [dIssue, captured, ne_eq, mark, not_true_eq_false, if_false, if_pos full]

variable (room : s.me.dq.length < 16)
include room

theorem dIssue_of_failed {x : Nat × Word64} (worst : (dChecks s s.me.nestD op l).worst = some x) :
    dIssue s op nb f = .trap (mkTrap .d x.1 x.2) s := by
  simp only [dIssue, captured, ne_eq, mark, not_true_eq_false, if_false, if_neg (Nat.not_le.2 room), worst]

theorem dIssue_of_passed (worst : (dChecks s s.me.nestD op l).worst = none) : dIssue s op nb f = f l := by
  simp only [dIssue, captured, ne_eq, mark, not_true_eq_false, if_false, if_neg (Nat.not_le.2 room), worst]

end

/-- The words that queue, but for DSHD, which reads its handle first (12_copy.md R350, R367). -/
def queueWords (w : DWord) : List Instr :=
  [.dcpy w, .dredAdd w, .dredMax w, .dredMin w, .dgth w, .dsct w, .dgetMb w, .dgetEv w, .dput w, .dputF w, .dpub w, .dstamp w,
    .dsig w, .kvwr w]

theorem exec_of_queueWords {w : DWord} {i : Instr} (h : i ∈ queueWords w) (s : State) : exec i s = dExec s i w := by
  simp only [queueWords, List.mem_cons, List.not_mem_nil, or_false] at h
  rcases h with rfl | rfl | rfl | rfl | rfl | rfl | rfl | rfl | rfl | rfl | rfl | rfl | rfl | rfl <;> rfl

/-- Every word that queues is issued before it does anything of its own. -/
theorem exec_eq_dIssue {w : DWord} {i : Instr} (h : i ∈ .dshd w :: queueWords w) (s : State) :
    ∃ f, exec i s = settleE .d s (dIssue s i w.nb f) := by
  obtain rfl | h := List.mem_cons.1 h
  · exact ⟨_, rfl⟩
  · exact ⟨_, exec_of_queueWords h s⟩

section
variable {s : State} {w : DWord} {l : List GVal} {i : Instr} (captured : s.me.engCaptured .d = some l)
include captured

theorem exec_of_wrong_mark (mark : w.nb ≠ s.me.nestD.isSome) (h : i ∈ .dshd w :: queueWords w) :
    exec i s = .next (takeTrap s s.rank (mkTrap .d 0x01 0#64)) := by
  obtain ⟨f, means⟩ := exec_eq_dIssue h s
  rw [means, dIssue_of_mark captured mark]
  rfl

variable (mark : w.nb = s.me.nestD.isSome)
include mark

theorem exec_of_full_queue (full : 16 ≤ s.me.dq.length) (h : i ∈ .dshd w :: queueWords w) : exec i s = .next s := by
  obtain ⟨f, means⟩ := exec_eq_dIssue h s
  rw [means, dIssue_of_full captured mark full]
  rfl

variable (room : s.me.dq.length < 16)
include room

theorem exec_of_failed_checks (h : i ∈ queueWords w) {cause : Nat} {a : Word64} (failed : some (cause, a) ∈ dChecks s s.me.nestD i l) :
    ∃ y b, exec i s = .next (takeTrap s s.rank (mkTrap .d y b)) ∧ y ≤ cause ∧ some (y, b) ∈ dChecks s s.me.nestD i l := by
  obtain ⟨y, b, worst, least, mem⟩ := Checks.worst_eq_some failed
  refine ⟨y, b, ?_, least, mem⟩
  rw [exec_of_queueWords h, dExec, dIssue_of_failed captured mark room worst]
  rfl

theorem exec_of_passed_checks (h : i ∈ queueWords w) (passed : (dChecks s s.me.nestD i l).all (·.isNone) = true) :
    exec i s = .next (dQueue s i l l) := by
  rw [exec_of_queueWords h, dExec, dIssue_of_passed captured mark room (Checks.worst_eq_none passed)]
  rfl

/-! DSHD: the checks, then the handle, then its place in the queue (12_copy.md R352, R367). -/

section
variable {g : Target} {t : State} {others : Option (Nat × Word64)} {z : Option Trap × GVal × State}
  (checks : others = Checks.worst [lenFail (capsOf (dFields w) l).c1.word.toNat,
    copyLen w.s.format w.d.format (capsOf (dFields w) l).c1.word.toNat,
    dspec s s.me.nestD w.s (capsOf (dFields w) l).a (capsOf (dFields w) l).c1.word.toNat permLoad (elemAlign w.s.format),
    barFail s w (capsOf (dFields w) l).c2])
  (buffer : z = shadowBuf (engSettle s (capsOf (dFields w) l).d.word (match g with | .bytes h => h | _ => [])) s.me.nestD w
    (capsOf (dFields w) l).d (copyBytes w.s.format w.d.format (capsOf (dFields w) l).c1.word.toNat) (elemAlign w.d.format))
  (handle : resolve s .d (capsOf (dFields w) l).d.word 64 permLoad = .ok (g, t))
include checks buffer handle

theorem exec_dshd_of_failed {x : Trap} (failed : worseTrap (others.map fun f => mkTrap .d f.1 f.2) z.1 = some x) :
    exec (.dshd w) s = .next (takeTrap z.2.2 s.rank x) := by
  change settleE .d s (dIssue s (.dshd w) w.nb _) = _
  subst checks buffer
  rw [dIssue_of_passed captured mark room rfl]
  cases g <;> simp only [handle, failed] <;> rfl

theorem exec_dshd_of_passed (passed : others = none) (found : z.1 = none) :
    exec (.dshd w) s = .next (dQueue z.2.2 (.dshd w) l (l ++ [z.2.1])) := by
  have goes : worseTrap (others.map fun f => mkTrap .d f.1 f.2) z.1 = none := by rw [passed, found]; rfl
  have kept : shadowHeld s (capsOf (dFields w) l).d = none := by rw [shadowHeld, handle]
  change settleE .d s (dIssue s (.dshd w) w.nb _) = _
  subst checks buffer
  rw [dIssue_of_passed captured mark room rfl]
  cases g <;> simp only [handle, goes, kept] <;> rfl

end
end

theorem dQueue_frame (s : State) (i : Instr) (l cl : List GVal) :
    OnlyMe s (dQueue s i l cl) ∧ SameBytes s (dQueue s i l cl) ∧
      (dQueue s i l cl).me.dq = s.me.dq ++ [newCmd (BitVec.ofNat 12 s.rank) s.me i cl] ∧
      (dQueue s i l cl).me.dnum = s.me.dnum + 1#16 ∧ (dQueue s i l cl).me.g = s.me.g ∧ (dQueue s i l cl).me.v = s.me.v ∧
      (dQueue s i l cl).me.ctl = s.me.ctl ∧ (s.me.nestD = none → (dQueue s i l cl).me.pcD = s.me.pcD + 12#64) := by
  refine ⟨onlyMe_modMe s _, sameBytes_modMe s _, ?_⟩
  rw [dQueue, State.me_modMe]
  refine ⟨rfl, rfl, ?_, ?_, ?_, fun nest => Core.engAdvance_pcD nest i l⟩
  all_goals
    obtain ⟨q, pc, pos, n, advanced⟩ := Core.engAdvance_frameD s.me i l
    rw [advanced]

/-! Words of the D walker (12_copy.md R351, R375). -/

section
variable {s : State} {l : List GVal} {op : Instr} {nb : Bool} {ready : Core → Bool} {f : List GVal → Res State}
  (captured : s.me.engCaptured .d = some l)
include captured

theorem dWalk_of_mark (mark : nb = true ∨ s.me.nestD.isSome = true) : dWalk s op nb ready f = .trap (mkTrap .d 0x01 0#64) s := by
  simp only [dWalk, captured, if_pos mark]

variable (mark : nb = false) (nest : s.me.nestD = none)
include mark nest

theorem dWalk_of_waiting (waits : (dTokenDone s.me s.me.dq (waitOf op) s.me.posD && ready s.me) = false) :
    dWalk s op nb ready f = .ok s := by
  simp [dWalk, captured, mark, nest, waits]

theorem dWalk_of_ready (token : dTokenDone s.me s.me.dq (waitOf op) s.me.posD = true) (goes : ready s.me = true) :
    dWalk s op nb ready f = f l := by
  simp [dWalk, captured, mark, nest, token, goes]

end

/-- The words that the D walker executes itself (12_copy.md R351). -/
def walkWords (w : DWord) : List Instr := [.dwaitAll w, .dwaitTok w, .dunb w, .dstrm w]

theorem exec_eq_dWalk {w : DWord} {i : Instr} (h : i ∈ walkWords w) (s : State) :
    waitOf i = w.wait ∧ ∃ ready f, exec i s = settleE .d s (dWalk s i w.nb ready f) := by
  simp only [walkWords, List.mem_cons, List.not_mem_nil, or_false] at h
  rcases h with rfl | rfl | rfl | rfl <;> exact ⟨rfl, _, _, rfl⟩

/-! A register that is unbound. -/

section
variable (c : Core) (v : BitVec 5)

theorem Core.rv_unbind (j : BitVec 5) : (c.unbind v).rv j = if j = v then 0#1024 else c.rv j :=
  (Core.rv_congr rfl j).trans (c.rv_wv v j 0#1024)

theorem Core.rbind_unbind (j : BitVec 3) : (c.unbind v).rbind j = if j = v.setWidth 3 then Binding.none else c.rbind j := by
  simp only [Core.rbind, Core.unbind, Core.wv, Vector.getElem_set, BitVec.toNat_inj, eq_comm (a := j)]

end

/-- The D walker past a word, and perhaps a binding changed: the rest of the core stands. -/
theorem walked_frame {s : State} {f : Core → Core} (op : Instr) (l : List GVal) (nest : s.me.nestD = none)
    (pcD : (f s.me).pcD = (s.me.engAdvance .d op l).pcD) (dq : (f s.me).dq = (s.me.engAdvance .d op l).dq)
    (g : (f s.me).g = (s.me.engAdvance .d op l).g) :
    OnlyMe s (s.modMe f) ∧ SameBytes s (s.modMe f) ∧ (s.modMe f).me.pcD = s.me.pcD + 12#64 ∧ (s.modMe f).me.dq = s.me.dq ∧
      (s.modMe f).me.g = s.me.g := by
  obtain ⟨q, pc, pos, n, advanced⟩ := Core.engAdvance_frameD s.me op l
  rw [State.me_modMe, pcD, dq, g, Core.engAdvance_pcD nest, advanced]
  exact ⟨onlyMe_modMe s f, sameBytes_modMe s f, rfl, rfl, rfl⟩

section
variable {s : State} {w : DWord} {l : List GVal} (captured : s.me.engCaptured .d = some l)
include captured

theorem exec_of_body_walk {i : Instr} (mark : w.nb = true ∨ s.me.nestD.isSome = true) (h : i ∈ walkWords w) :
    exec i s = .next (takeTrap s s.rank (mkTrap .d 0x01 0#64)) := by
  obtain ⟨-, ready, f, means⟩ := exec_eq_dWalk h s
  rw [means, dWalk_of_mark captured mark]
  rfl

variable (mark : w.nb = false) (nest : s.me.nestD = none)
include mark nest

theorem exec_of_waiting_walk {i : Instr} (token : dTokenDone s.me s.me.dq w.wait s.me.posD = false) (h : i ∈ walkWords w) :
    exec i s = .next s := by
  obtain ⟨wait, ready, f, means⟩ := exec_eq_dWalk h s
  rw [means, dWalk_of_waiting captured mark nest (by rw [wait, token, Bool.false_and])]
  rfl

theorem exec_dunb_of_naming (named : vNaming s.me (streamOf w.d) s.me.posD = true) : exec (.dunb w) s = .next s := by
  change settleE .d s (dWalk s (.dunb w) w.nb _ _) = _
  rw [dWalk_of_waiting captured mark nest (by rw [named, Bool.not_true, Bool.and_false])]
  rfl

theorem exec_dstrm_of_naming (named : vNaming s.me (streamOf w.d) s.me.posD = true) : exec (.dstrm w) s = .next s := by
  change settleE .d s (dWalk s (.dstrm w) w.nb _ _) = _
  rw [dWalk_of_waiting captured mark nest (by rw [named, Bool.not_true, Bool.false_and, Bool.and_false])]
  rfl

theorem exec_dstrm_of_unadmitted (waits : admits s .d s.me.posD (cmdTouch s (newCmd 0#12 s.me (.dstrm w) l)) = false) :
    exec (.dstrm w) s = .next s := by
  change settleE .d s (dWalk s (.dstrm w) w.nb _ _) = _
  rw [dWalk_of_waiting captured mark nest (by rw [captured, Option.getD_some, waits, Bool.and_false, Bool.and_false])]
  rfl

theorem exec_dwaitAll_of_commands (busy : s.me.dq ≠ []) : exec (.dwaitAll w) s = .next s := by
  change settleE .d s (dWalk s (.dwaitAll w) w.nb _ _) = _
  rw [dWalk_of_waiting captured mark nest (by rw [List.isEmpty_eq_false_iff.2 busy, Bool.and_false])]
  rfl

variable (token : dTokenDone s.me s.me.dq w.wait s.me.posD = true)
include token

theorem exec_dwaitTok : exec (.dwaitTok w) s = .next (s.modMe fun c => c.engAdvance .d (.dwaitTok w) l) := by
  change settleE .d s (dWalk s (.dwaitTok w) w.nb _ _) = _
  rw [dWalk_of_ready (op := .dwaitTok w) captured mark nest token rfl]
  rfl

theorem exec_dwaitAll_of_empty (empty : s.me.dq = []) :
    exec (.dwaitAll w) s = .next (s.modMe fun c => c.engAdvance .d (.dwaitAll w) l) := by
  change settleE .d s (dWalk s (.dwaitAll w) w.nb _ _) = _
  rw [dWalk_of_ready (op := .dwaitAll w) captured mark nest token (List.isEmpty_iff.2 empty)]
  rfl

variable (unnamed : vNaming s.me (streamOf w.d) s.me.posD = false)
include unnamed

theorem exec_dunb_of_unnamed :
    exec (.dunb w) s = .next (s.modMe fun c => (c.engAdvance .d (.dunb w) l).unbind (streamOf w.d)) := by
  change settleE .d s (dWalk s (.dunb w) w.nb _ _) = _
  rw [dWalk_of_ready (op := .dunb w) captured mark nest token (by rw [unnamed, Bool.not_false])]
  rfl

/-! DSTRM reads its descriptor (12_copy.md R362 to R365). -/

section
variable {x : Word64} {s0 : State} {key : Nat} (addr : x = specAddr none w.s (capsOf (dFields w) l).a)
  (settled : s0 = settleTouches s (touchAt s x 64 false)) (place : key = localKey s0.rank (coordOff x))
  (admitted : admits s .d s.me.posD (cmdTouch s (newCmd 0#12 s.me (.dstrm w) l)) = true)
  (checked : dspecAt s0 (capsOf (dFields w) l).a x 64 (permLoad ||| permLoadCap) 64 true = none)
  (whole : s0.poisoned key 64 = false)
include addr settled place admitted checked whole

/-- The state after a DSTRM that binds its register. -/
theorem exec_dstrm_of_stream (stream : strmOk (s0.mem.read key 64) = true)
    (source : strmFail (s0.mem.read key 64) (s0.loadUnit (key + 32)) = none) :
    exec (.dstrm w) s = .next (s0.modMe fun c => ((c.engAdvance .d (.dstrm w) l).unbind (streamOf w.d)).wbind ((streamOf w.d).setWidth 3)
      { mode := 1#2, desc := s0.mem.read key 64, src := s0.loadUnit (key + 32), count := 0, asked := 0, ahead := []
        after := some s0.me.posD }) := by
  subst addr settled place
  change settleE .d s (dWalk s (.dstrm w) w.nb _ _) = _
  rw [dWalk_of_ready (op := .dstrm w) captured mark nest token (by rw [captured, Option.getD_some, unnamed, admitted]; rfl)]
  simp only [checked, whole, stream, source, Bool.false_eq_true, if_false, if_true]
  rfl

variable (noStream : strmOk (s0.mem.read key 64) = false)
include noStream

theorem exec_dstrm_of_channel (channel : chanOk (s0.mem.read key 64) = true) :
    exec (.dstrm w) s = .next (s0.modMe fun c => ((c.engAdvance .d (.dstrm w) l).unbind (streamOf w.d)).wbind ((streamOf w.d).setWidth 3)
      { mode := 2#2, desc := s0.mem.read key 64, src := GVal.zero, count := 0, asked := 0, ahead := [] }) := by
  subst addr settled place
  change settleE .d s (dWalk s (.dstrm w) w.nb _ _) = _
  rw [dWalk_of_ready (op := .dstrm w) captured mark nest token (by rw [captured, Option.getD_some, unnamed, admitted]; rfl)]
  simp only [checked, whole, noStream, channel, Bool.false_eq_true, if_false, if_true]
  rfl

theorem exec_dstrm_of_neither (noChannel : chanOk (s0.mem.read key 64) = false) :
    exec (.dstrm w) s = .next (takeTrap s s.rank (mkTrap .d 0x07 x)) := by
  subst addr settled place
  change settleE .d s (dWalk s (.dstrm w) w.nb _ _) = _
  rw [dWalk_of_ready (op := .dstrm w) captured mark nest token (by rw [captured, Option.getD_some, unnamed, admitted]; rfl)]
  simp only [checked, whole, noStream, noChannel, Bool.false_eq_true, if_false]
  rfl

end
end

end Sys2Proof.Machine
end

section
/-! PROOF. The accesses that a D word waits for leave the D engine's nest of every core (04_scalar.md R116, R121). -/

namespace Sys2Proof.Machine

/-- The D engine's nest of every core. -/
def State.nests (s : State) : Nat → Option Nest := fun r => (s.coreAt r).nestD

theorem State.nestD_of_nests {s t : State} (h : t.nests = s.nests) (r : Nat) : (t.coreAt r).nestD = (s.coreAt r).nestD := congrFun h r

/-! Cores. -/

theorem Core.setFull_nestD (c : Core) (g : Nat) (b : Bool) : (c.setFull g b).nestD = c.nestD := rfl
theorem Core.wmail_nestD (c : Core) (i : BitVec 8) (x : BitVec 32) : (c.wmail i x).nestD = c.nestD := rfl
@[simp] theorem Core.finish_nestD (c : Core) (d : GIdx) (x : GVal) : (c.finish d x).nestD = c.nestD := by
  unfold Core.finish Core.nextSafe Core.clearDist
  simp
@[simp] theorem updated_nestD (c : Core) (a : GIdx) (wd : Width) (upd : Update) (inc : BitVec 6) :
    (updated c a wd upd inc).nestD = c.nestD := by
  unfold updated
  split <;> simp
theorem Core.loaded_nestD (c : Core) (l : PendingLoad) : (c.loaded l).nestD = c.nestD := by
  unfold Core.loaded
  split <;> simp
theorem Core.postedDone_nestD (c : Core) (dst : Nat) : (c.postedDone dst).nestD = c.nestD := rfl

@[simp] theorem Core.monHit_nestD (c : Core) (now key n : Nat) : (c.monHit now key n).nestD = c.nestD := by
  obtain same | ⟨f, hit⟩ | ⟨d, x, f, -, hit⟩ := c.monHit_cases now key n
  · rw [same]
  · rw [hit, Core.modCtl_nestD]
  · rw [hit]
    exact Core.finish_nestD c d x

/-! States. -/

@[simp] theorem State.modCore_nests (s : State) (r : Nat) (f : Core → Core) (h : ∀ c, (f c).nestD = c.nestD) :
    (s.modCore r f).nests = s.nests := by
  funext q
  simp only [State.nests, State.coreAt_modCore]
  split
  · next same => rw [h, same]
  · rfl

@[simp] theorem State.modCtl_nests (s : State) (r : Nat) (f : Ctl → Ctl) : (s.modCore r fun c => c.modCtl f).nests = s.nests :=
  s.modCore_nests r _ fun c => c.modCtl_nestD f
@[simp] theorem State.setFull_nests (s : State) (r g : Nat) (b : Bool) : (s.modCore r fun c => c.setFull g b).nests = s.nests :=
  s.modCore_nests r _ fun c => c.setFull_nestD g b
@[simp] theorem State.wmail_nests (s : State) (r : Nat) (i : BitVec 8) (x : BitVec 32) :
    (s.modCore r fun c => c.wmail i x).nests = s.nests :=
  s.modCore_nests r _ fun c => c.wmail_nestD i x
@[simp] theorem State.finish_nests (s : State) (r : Nat) (d : GIdx) (x : GVal) : (s.modCore r fun c => c.finish d x).nests = s.nests :=
  s.modCore_nests r _ fun c => c.finish_nestD d x
@[simp] theorem State.loaded_nests (s : State) (r : Nat) (l : PendingLoad) : (s.modCore r fun c => c.loaded l).nests = s.nests :=
  s.modCore_nests r _ fun c => c.loaded_nestD l

@[simp] theorem State.notify_nests (s : State) (key n : Nat) : (s.notify key n).nests = s.nests :=
  funext fun _ => s.coreAt_notify_eq Core.nestD (Core.monHit_nestD ..)

@[simp] theorem State.store_nests (s : State) (key : Nat) (bs : List Byte) : (s.store key bs).nests = s.nests :=
  s.notify_nests key bs.length

@[simp] theorem State.storeNat_nests (s : State) (key n v : Nat) : (s.storeNat key n v).nests = s.nests := s.store_nests ..

@[simp] theorem State.markPoison_nests (s : State) (l : List Nat) : (s.markPoison l).nests = s.nests := rfl
@[simp] theorem State.answer_nests (s : State) (bs : Option (List Byte)) : (s.answer bs).nests = s.nests := rfl
@[simp] theorem State.net_nests (s : State) (l : List NetMsg) : ({ s with net := l } : State).nests = s.nests := rfl

@[simp] theorem State.storeTagged_nests (s : State) (key : Nat) (bs : List Byte) (tag : Bool) :
    (s.storeTagged key bs tag).nests = s.nests := by
  unfold State.storeTagged
  cases tag
  · exact s.store_nests key bs
  · exact s.store_nests key bs

theorem foldl_nests {α : Type} (f : State → α → State) (hf : ∀ t x, (f t x).nests = t.nests) (l : List α) (s : State) :
    (l.foldl f s).nests = s.nests := by
  induction l generalizing s with
  | nil => rfl
  | cons x l ih => rw [List.foldl_cons, ih, hf]

/-! The answers of waiting requests. -/

@[simp] theorem pushResume_nests (s : State) (r frame : Nat) : (pushResume s r frame).nests = s.nests := by
  unfold pushResume groupPending
  split <;> simp

@[simp] theorem replyFrame_nests (s : State) (fa : Nat) (d : GIdx) (x : GVal) : (replyFrame s fa d x).nests = s.nests := by
  simp only [replyFrame, State.storeNat_nests]
  split <;> simp

@[simp] theorem replyValue_nests (s : State) (q : WaitReq) (d : GIdx) (x : GVal) : (replyValue s q d x).nests = s.nests := by
  unfold replyValue
  split <;> simp

@[simp] theorem replyTrap_nests (s : State) (q : WaitReq) (cause : Nat) (addr : Word64) :
    (replyTrap s q cause addr).nests = s.nests := by
  unfold replyTrap
  split <;> simp [faultFrame]

@[simp] theorem replyAgain_nests (s : State) (q : WaitReq) : (replyAgain s q).nests = s.nests := by
  unfold replyAgain
  split <;> simp

@[simp] theorem dropReq_nests (s : State) (r : Nat) (q : WaitReq) : (dropReq s r q).nests = s.nests := by
  simp [dropReq]

/-! Arrivals and counters. -/

@[simp] theorem eventRecord_nests (s : State) (r kind arrival user : Nat) (addr : Word64) (srcPkg : BitVec 32)
    (srcCore : BitVec 16) : (eventRecord s r kind arrival user addr srcPkg srcCore).nests = s.nests := by
  simp only [eventRecord]
  split <;> simp

@[simp] theorem injectAcked_nests (s : State) (a : Arrival) : (injectAcked s a).nests = s.nests := rfl

@[simp] theorem State.toldTransport_nests (s : State) (ue : Option (Option Nat × Nat)) : (s.toldTransport ue).nests = s.nests := by
  unfold State.toldTransport
  split <;> rfl

@[simp] theorem overrun_nests (s : State) (a : Arrival) : (overrun s a).nests = s.nests := by
  by_cases h : a.kind = .putw
  · simp only [overrun, h]
    split <;> simp
  · simp [overrun_of_posted s h, overrunCounted]

@[simp] theorem applyArrival_nests (s : State) (a : Arrival) : (applyArrival s a).nests = s.nests := by
  simp only [applyArrival]
  split <;> simp

@[simp] theorem settleGranule_nests (fuel r gr : Nat) (s : State) : (settleGranule r gr fuel s).nests = s.nests := by
  induction fuel generalizing gr s with
  | zero => rfl
  | succ fuel ih =>
    simp only [settleGranule]
    repeat' split
    all_goals simp [ih]

@[simp] theorem expireHeld_nests (s : State) (r : Nat) : (expireHeld s r).nests = s.nests := by
  refine foldl_nests _ (fun t h => ?_) _ s
  simp only [expireHeld.overrunHeld]
  split <;> simp

@[simp] theorem serveGranule_nests (s : State) (r gr : Nat) : (serveGranule s r gr).nests = s.nests := by
  simp [serveGranule]

@[simp] theorem arrive_nests (s : State) (a : Arrival) : (arrive s a).nests = s.nests := by
  simp only [arrive]
  repeat' split
  all_goals simp

@[simp] theorem serveMail_nests (r : Nat) (i : BitVec 8) (fuel : Nat) (s : State) : (serveMail r i fuel s).nests = s.nests := by
  induction fuel generalizing s with
  | zero => rfl
  | succ fuel ih =>
    simp only [serveMail]
    repeat' split
    all_goals simp [ih]

@[simp] theorem incMail_nests (s : State) (r : Nat) (i : BitVec 8) (amount : BitVec 32) :
    (incMail s r i amount).nests = s.nests := by
  simp [incMail, setMail]

/-! Posted messages, buffered stores, outstanding loads and atomics. -/

@[simp] theorem landPosted_nests (s : State) (w : PostedStore) : (landPosted s w).nests = s.nests :=
  s.storeTagged_nests (localKey w.dst.toNat w.off.toNat) w.bytes w.tag

@[simp] theorem applyMsg_nests (s : State) (m : NetMsg) : (applyMsg s m).nests = s.nests := by
  rw [applyMsg, State.modCore_nests _ _ _ fun c => c.postedDone_nestD m.dst]
  unfold applyPosted
  split <;> simp

@[simp] theorem flushSome_nests (r dst n : Nat) (s : State) : (flushSome r dst n s).nests = s.nests := by
  induction n generalizing s with
  | zero => rfl
  | succ n ih =>
    simp only [flushSome]
    repeat' split
    all_goals simp [ih]

@[simp] theorem performAll_nests (s : State) (b : Buffered) : (performAll s b).nests = s.nests := by
  unfold performAll
  exact foldl_nests _ (fun t p => State.storeTagged_nests ..) _ s

@[simp] theorem performOver_nests (s : State) (r : Nat) (al : Bool) (l : List (Nat × Nat)) :
    (performOver s r al l).nests = s.nests := by
  simp [performOver, performWhere, foldl_nests _ performAll_nests]

@[simp] theorem amoWrite_nests (s : State) (k : Nat) (op : Nat × Word64 × Word64) (old : Word64) :
    (amoWrite s k op old).nests = s.nests := by
  simp only [amoWrite]
  repeat' split
  all_goals simp

@[simp] theorem landPiece_nests (s : State) (r mix : Nat) (l : PendingLoad) : (landPiece s r mix l).2.nests = s.nests := by
  simp only [landPiece, beforeAmo]
  repeat' split
  all_goals simp

@[simp] theorem landPieces_nests (r n : Nat) (x : PendingLoad × State) : (landPieces r n x).nests = x.2.nests := by
  induction n generalizing x with
  | zero => rfl
  | succ n ih => simp [landPieces, ih, beforeLoad, foldl_nests]

@[simp] theorem returnWhere_nests (s : State) (r : Nat) (p : PendingLoad → Bool) : (returnWhere s r p).nests = s.nests := by
  simp [returnWhere, landLoad, foldl_nests]

theorem settleTouches_nests (s : State) (l : List Touch) : (settleTouches s l).nests = s.nests := by
  refine foldl_nests _ (fun t x => ?_) l s
  split <;> simp [landOver, landAmos]

theorem settleTouches_aside (s : State) (l : List Touch) : (settleTouches s l).aside = s.aside := by
  refine foldl_aside _ (fun t x => ?_) l s
  split <;> simp [performOver, landOver, landAmos]

/-- The core whose step it is keeps its D engine's nest. -/
theorem settleTouches_nestD (s : State) (l : List Touch) : (settleTouches s l).me.nestD = s.me.nestD := by
  rw [State.me, State.rank_of_aside (settleTouches_aside s l)]
  exact State.nestD_of_nests (settleTouches_nests s l) s.rank

end Sys2Proof.Machine
end


section
/-! PROOF. The issue of D commands and the words of the D walker: the obligation itself. -/

namespace Sys2Proof.Machine

/-- DSTRM's register is bound, and the D walker is past the word. -/
theorem dstrm_bound {s s0 : State} {w : DWord} {l : List GVal} {x : Word64} (nest : s.me.nestD = none)
    (settled : s0 = settleTouches s (touchAt s x 64 false)) (b : Binding) :
    let t : State := s0.modMe fun c => ((c.engAdvance .d (.dstrm w) l).unbind (streamOf w.d)).wbind ((streamOf w.d).setWidth 3) b
    t.mem = s0.mem ∧ t.me.rbind ((streamOf w.d).setWidth 3) = b ∧ t.me.pcD = s0.me.pcD + 12#64 := by
  have none_ : s0.me.nestD = none := by rw [settled, settleTouches_nestD, nest]
  refine ⟨rfl, ?_, ?_⟩
  · rw [State.me_modMe, Core.rbind_wbind]
  · rw [State.me_modMe]
    exact Core.engAdvance_pcD none_ (.dstrm w) l

/-- Settles O45: the words that queue by the checks of their issue, and the words that the D walker executes itself. -/
theorem dataIssueAndWalker : Obligations.DataIssueAndWalker := by
  unfold Obligations.DataIssueAndWalker
  constructor
  · intro s w l words c cmd captured
    refine ⟨fun mark i h => exec_of_wrong_mark captured mark h, fun mark full i h => exec_of_full_queue captured mark full h,
      fun mark room i h => ⟨fun passed => ?_, fun x mem cause a hx => ?_⟩, ?_⟩
    · exact ⟨_, exec_of_passed_checks captured mark room h passed, dQueue_frame s i l l⟩
    · exact exec_of_failed_checks captured mark room h (hx ▸ mem)
    · intro mark room k n others g t handle z
      exact ⟨fun x failed => exec_dshd_of_failed captured mark room rfl rfl handle failed,
        fun passed found => exec_dshd_of_passed captured mark room rfl rfl handle passed found⟩
  · intro s w l c on v k x s0 key d src captured
    refine ⟨fun mark i h => exec_of_body_walk captured mark h, fun mark nest => ⟨fun token i h => exec_of_waiting_walk captured mark nest token h,
      fun token => ⟨?_, ?_, exec_dwaitAll_of_commands captured mark nest, ?_, ?_, exec_dstrm_of_unadmitted captured mark nest, ?_⟩⟩⟩
    · refine ⟨_, exec_dwaitTok captured mark nest token, walked_frame (.dwaitTok w) l nest rfl rfl rfl, ?_⟩
      obtain ⟨q, pc, pos, n, advanced⟩ := Core.engAdvance_frameD s.me (.dwaitTok w) l
      rw [State.me_modMe, advanced]
    · intro empty
      refine ⟨_, exec_dwaitAll_of_empty captured mark nest token empty, walked_frame (.dwaitAll w) l nest rfl rfl rfl, ?_⟩
      obtain ⟨q, pc, pos, n, advanced⟩ := Core.engAdvance_frameD s.me (.dwaitAll w) l
      rw [State.me_modMe, advanced]
    · intro unnamed
      refine ⟨_, exec_dunb_of_unnamed captured mark nest token unnamed, walked_frame (.dunb w) l nest rfl rfl rfl, ?_⟩
      obtain ⟨q, pc, pos, n, advanced⟩ := Core.engAdvance_frameD s.me (.dunb w) l
      rw [State.me_modMe, Core.rv_unbind, Core.rbind_unbind, if_pos rfl, if_pos rfl]
      refine ⟨rfl, rfl, fun j hj => ?_, fun j hj => ?_⟩
      · rw [Core.rv_unbind, if_neg hj, advanced]
        rfl
      · rw [Core.rbind_unbind, if_neg hj, advanced]
        rfl
    · exact fun named => ⟨exec_dunb_of_naming captured mark nest named, exec_dstrm_of_naming captured mark nest named⟩
    · intro unnamed admitted checked whole
      refine ⟨fun stream source => ?_, fun noStream channel => ?_, fun noStream noChannel => ?_⟩
      · exact ⟨_, exec_dstrm_of_stream captured mark nest token unnamed rfl rfl rfl admitted checked whole stream source,
          dstrm_bound nest rfl _⟩
      · obtain ⟨mem, bound, -⟩ := dstrm_bound (w := w) (l := l) (x := x) nest rfl
          { mode := 2#2, desc := d, src := GVal.zero, count := 0, asked := 0, ahead := [] }
        exact ⟨_, exec_dstrm_of_channel captured mark nest token unnamed rfl rfl rfl admitted checked whole noStream channel, mem, bound⟩
      · exact exec_dstrm_of_neither captured mark nest token unnamed rfl rfl rfl admitted checked whole noStream noChannel

end Sys2Proof.Machine
end
section
/-! PROOF. D commands start, move and complete (obligation O46; 12_copy.md R350, R353, R358). -/

namespace Sys2Proof.Machine

/-! The units of a command. -/

/-- Marks of one unit, phases and what was read ahead leave the units of a command. -/
theorem cmdUnits_whole (q : DCmd) (b : Bool) : cmdUnits { q with whole := b } = cmdUnits q := rfl

/-- But for a KVWR, whose stages count, progress leaves the units of a command. -/
theorem cmdUnits_progress {q : DCmd} (plain : ∀ w, q.op ≠ .kvwr w) (d : Nat) (f : BitVec 6) :
    cmdUnits { q with done := d, flags := f } = cmdUnits q := by
  cases op : q.op with
  | kvwr w => exact absurd op (plain w)
  | _ => simp only [cmdUnits, op] <;> rfl

/-! Which command starts. -/

/-- The first command in program order that is still queued. -/
theorem firstQueued_eq {l : List DCmd} {q : DCmd} {i : Nat} (found : l[i]? = some q)
    (first : ∀ j, j < i → ∀ y, l[j]? = some y → y.phase ≠ .queued) (queued : q.phase = .queued) : firstQueued l = i := by
  obtain ⟨inside, here⟩ := List.getElem?_eq_some_iff.1 found
  refine (List.findIdx_eq inside).2 ⟨by rw [here, queued]; rfl, fun j hj => ?_⟩
  exact beq_eq_false_iff_ne.2 (first j hj _ (List.getElem?_eq_getElem (hj.trans inside)))

theorem firstQueued_eq_length {l : List DCmd} (none_ : ∀ y ∈ l, y.phase ≠ .queued) : firstQueued l = l.length :=
  List.findIdx_eq_length.2 fun y hy => beq_eq_false_iff_ne.2 (none_ y hy)

theorem exec_dCommandStart_of_none {s : State} (none_ : ∀ y ∈ s.me.dq, y.phase ≠ .queued) : exec .dCommandStart s = .next s := by
  change execDCommandStart s = _
  have past : s.me.dq[s.me.dq.length]? = none := List.getElem?_eq_none (Nat.le_refl _)
  simp only [execDCommandStart, firstQueued_eq_length none_, past]
  rfl

/-- A reduction that overlaps its source has read all of it (12_copy.md R358). -/
theorem takeSource_of_read {s t : State} {q : DCmd} {i : Nat} {w : DWord} {g : Got}
    (red : q.op = .dredAdd w ∨ q.op = .dredMax w ∨ q.op = .dredMin w)
    (read : dRead s (cmdOps q w).sx (cmdOps q w).n = .ok (g, t)) : takeSource i s q =
      .ok (t.modMe fun e => e.setCmd i { q with phase := .moving, whole := false, taken := some (g.bytes, g.bad) }) := by
  rcases red with h | h | h <;> simp only [takeSource, h, read]

section
variable {s t : State} {q : DCmd} {i n : Nat}

theorem cmdRun_of_all (all : cmdUnits q ≤ q.done) : cmdRun i 0 s q = .ok (s.modMe fun e => e.setCmd i { q with phase := .moved }) := by
  simp only [cmdRun, if_pos all]

theorem cmdRun_of_unit {f : BitVec 6} (moved : cmdUnit s q q.done = .ok (t, f)) :
    cmdRun i (n + 1) s q = cmdRun i n t { q with done := q.done + 1, flags := q.flags ||| f } := by
  simp only [cmdRun, moved]

/-- The first of a command's units is made. -/
theorem cmdRun_first {q1 : DCmd} {b : Bool} (hq1 : q1 = { q with whole := b }) (fresh : q.done = 0) {f : BitVec 6}
    (moved : cmdUnit s q1 0 = .ok (t, f)) :
    cmdRun i (n + 1) s q1 = cmdRun i n t { q1 with done := 1, flags := q.flags ||| f } := by
  have done : q1.done = 0 := by rw [hq1, ← fresh]
  rw [cmdRun_of_unit (by rw [done]; exact moved), done, hq1]

theorem cmdRun_of_fault {x : Trap} (fault : cmdUnit s q q.done = .trap x t) : cmdRun i (n + 1) s q =
    .trap x ({ s with fresh := t.fresh }.modMe fun e => { e.setCmd i { q with phase := .moving } with dfault := some i }) := by
  simp only [cmdRun, fault]

end

/-- A fault at a command: it stops with its progress, and the D walker takes the trap (12_copy.md R353). -/
def faultAt (s : State) (i : Nat) (q : DCmd) (fresh rank : Nat) (x : Trap) : State :=
  takeTrap ({ s with fresh := fresh }.modMe fun e => { e.setCmd i { q with phase := .moving } with dfault := some i }) rank x

section
variable {s s0 : State} {q q1 : DCmd} {i : Nat} (found : s.me.dq[i]? = some q)
  (first : ∀ j, j < i → ∀ y, s.me.dq[j]? = some y → y.phase ≠ .queued) (queued : q.phase = .queued)
include found first queued

theorem exec_dCommandStart_of_waiting (waits : startReady s i q = false) : exec .dCommandStart s = .next s := by
  change execDCommandStart s = _
  simp only [execDCommandStart, firstQueued_eq found first queued, found, waits, Bool.false_eq_true, if_false]
  rfl

variable (ready : startReady s i q = true) (hs0 : s0 = settleTouches s (cmdTouch s q))
include ready hs0

/-! A KVWR while accesses wait: its first unit (13_kv.md R393). -/

section
variable {w : DWord} (op : q.op = .kvwr w) (waits : s.lazy = true)
include op waits

theorem exec_dCommandStart_of_kvwr : exec .dCommandStart s = settleE .d s (kvRun i w 1 s0 q) := by
  subst hs0
  change execDCommandStart s = _
  simp only [execDCommandStart, firstQueued_eq found first queued, found, ready, if_true, op, waits]

theorem exec_dCommandStart_of_kv_unit {y : DCmd} {t : State} (unit_ : kvUnit s0 i q w = .ok (some y, t)) :
    exec .dCommandStart s = .next (t.modMe fun c => c.setCmd i { y with phase := if y.kv = .done then .moved else .moving }) := by
  rw [exec_dCommandStart_of_kvwr found first queued ready hs0 op waits]
  simp only [kvRun, unit_]
  by_cases last : y.kv = .done
  · simp only [if_pos last]
    rfl
  · simp only [if_neg last]
    rfl

theorem exec_dCommandStart_of_kv_fault {x : Trap} {t : State} (unit_ : kvUnit s0 i q w = .trap x t) :
    exec .dCommandStart s =
      .next (takeTrap (t.modMe fun e => { e.setCmd i { q with phase := .moving } with dfault := some i }) s.rank x) := by
  rw [exec_dCommandStart_of_kvwr found first queued ready hs0 op waits]
  simp only [kvRun, unit_]
  rfl

end

/-! Another command. -/

variable (plain : ∀ w, q.op ≠ .kvwr w) (hq1 : q1 = { q with whole := cmdOverlaps s0 q })
include plain hq1

theorem exec_dCommandStart_of_plain : exec .dCommandStart s = settleE .d s
    (if isRed q.op then (if cmdOverlaps s0 q then takeSource i s0 q1 else cmdRun i 0 s0 q1)
      else if cmdOverlaps s0 q then cmdAll i s0 q1
      else cmdRun i (if s.lazy then 0 else cmdUnits q) s0 q1) := by
  subst hs0 hq1
  rw [← cmdUnits_whole q (cmdOverlaps (settleTouches s (cmdTouch s q)) q)]
  change execDCommandStart s = _
  simp only [execDCommandStart, firstQueued_eq found first queued, found, ready, if_true]

section
variable (overlap : cmdOverlaps s0 q = true)
include overlap

theorem exec_dCommandStart_of_overlap (plainCopy : isRed q.op = false) : exec .dCommandStart s = settleE .d s (cmdAll i s0 q1) := by
  rw [exec_dCommandStart_of_plain found first queued ready hs0 plain hq1, plainCopy, overlap]
  rfl

theorem exec_dCommandStart_of_whole (plainCopy : isRed q.op = false) {t : State} {f : BitVec 6} (moved : cmdWhole s0 q1 = .ok (t, f)) :
    exec .dCommandStart s =
      .next (t.modMe fun e => e.setCmd i { q1 with phase := .moved, done := cmdUnits q, flags := q.flags ||| f }) := by
  rw [exec_dCommandStart_of_overlap found first queued ready hs0 plain hq1 overlap plainCopy, cmdAll, moved]
  subst hq1
  rfl

theorem exec_dCommandStart_of_whole_fault (plainCopy : isRed q.op = false) {x : Trap} {u : State} (fault : cmdWhole s0 q1 = .trap x u) :
    exec .dCommandStart s = .next (faultAt s0 i q1 u.fresh s.rank x) := by
  rw [exec_dCommandStart_of_overlap found first queued ready hs0 plain hq1 overlap plainCopy, cmdAll, fault]
  rfl

theorem exec_dCommandStart_of_taken {w : DWord} (red : q.op = .dredAdd w ∨ q.op = .dredMax w ∨ q.op = .dredMin w) {g : Got} {t : State}
    (read : dRead s0 (cmdOps q w).sx (cmdOps q w).n = .ok (g, t)) : exec .dCommandStart s =
      .next (t.modMe fun e => e.setCmd i { q with phase := .moving, whole := false, taken := some (g.bytes, g.bad) }) := by
  have isRed_ : isRed q.op = true := by rcases red with h | h | h <;> rw [h] <;> rfl
  rw [exec_dCommandStart_of_plain found first queued ready hs0 plain hq1, isRed_, overlap]
  have takes := takeSource_of_read (q := q1) (i := i) (by rwa [hq1]) (by rw [hq1]; exact read)
  rw [if_pos rfl, if_pos rfl, takes]
  subst hq1
  rfl

end

section
variable (apart : cmdOverlaps s0 q = false)
include apart

theorem exec_dCommandStart_of_later (later : s.lazy = true ∨ isRed q.op = true) :
    exec .dCommandStart s =
      .next (s0.modMe fun e => e.setCmd i { q1 with phase := if cmdUnits q ≤ q.done then .moved else .moving }) := by
  rw [exec_dCommandStart_of_plain found first queued ready hs0 plain hq1, apart]
  subst hq1
  cases red : isRed q.op with
  | true => rfl
  | false =>
    rw [later.resolve_right (by rw [red]; decide)]
    rfl

variable (eager : s.lazy = false) (plainCopy : isRed q.op = false)
include eager plainCopy

theorem exec_dCommandStart_of_eager : exec .dCommandStart s = settleE .d s (cmdRun i (cmdUnits q) s0 q1) := by
  rw [exec_dCommandStart_of_plain found first queued ready hs0 plain hq1, apart, eager, plainCopy]
  rfl

theorem exec_dCommandStart_of_no_unit (units : cmdUnits q = 0) :
    exec .dCommandStart s = .next (s0.modMe fun e => e.setCmd i { q1 with phase := .moved }) := by
  rw [exec_dCommandStart_of_eager found first queued ready hs0 plain hq1 apart eager plainCopy, units, cmdRun_of_all]
  · rfl
  · rw [hq1, cmdUnits_whole, units]
    exact Nat.zero_le _

variable (fresh : q.done = 0)
include fresh

theorem exec_dCommandStart_of_unit_fault (units : 0 < cmdUnits q) {x : Trap} {u : State} (fault : cmdUnit s0 q1 0 = .trap x u) :
    exec .dCommandStart s = .next (faultAt s0 i q1 u.fresh s.rank x) := by
  obtain ⟨n, hn⟩ := Nat.exists_eq_succ_of_ne_zero units.ne'
  have done : q1.done = 0 := by rw [hq1, ← fresh]
  rw [exec_dCommandStart_of_eager found first queued ready hs0 plain hq1 apart eager plainCopy, hn,
    cmdRun_of_fault (by rw [done]; exact fault)]
  rfl

variable {t : State} {f : BitVec 6} (moved : cmdUnit s0 q1 0 = .ok (t, f))
include moved

theorem exec_dCommandStart_of_one_unit (units : cmdUnits q = 1) :
    exec .dCommandStart s = .next (t.modMe fun e => e.setCmd i { q1 with phase := .moved, done := 1, flags := q.flags ||| f }) := by
  rw [exec_dCommandStart_of_eager found first queued ready hs0 plain hq1 apart eager plainCopy, units,
    cmdRun_first hq1 fresh moved, cmdRun_of_all]
  · rfl
  · rw [cmdUnits_progress (by rwa [hq1]), hq1, cmdUnits_whole, units]

theorem exec_dCommandStart_of_two_units (units : cmdUnits q = 2) {u : State} {g : BitVec 6}
    (next : cmdUnit t { q1 with done := 1, flags := q.flags ||| f } 1 = .ok (u, g)) :
    exec .dCommandStart s =
      .next (u.modMe fun e => e.setCmd i { q1 with phase := .moved, done := 2, flags := q.flags ||| f ||| g }) := by
  rw [exec_dCommandStart_of_eager found first queued ready hs0 plain hq1 apart eager plainCopy, units,
    cmdRun_first hq1 fresh moved, cmdRun_of_unit next, cmdRun_of_all]
  · rfl
  · rw [cmdUnits_progress (by rwa [hq1]), cmdUnits_progress (by rwa [hq1]), hq1, cmdUnits_whole, units]

end
end

/-! Completion (12_copy.md R350). -/

section
variable {s : State} {q : DCmd} {i : Nat} (found : s.me.dq[i]? = some q)
include found

theorem exec_dCommandComplete_of_moved (moved : q.phase = .moved) (ends : cmdMayEnd s i q = true) :
    exec (.dCommandComplete i) s = .next ((cmdNotice s q).modMe fun e =>
      { e.modCtl (fun k => { k with arflg := k.arflg ||| q.flags.setWidth 32 }) with dq := e.dq.eraseIdx i }) := by
  change execDCommandComplete i s = _
  simp only [execDCommandComplete, found, moved, ends, and_self, if_true]

theorem exec_dCommandComplete_of_moving (moves : q.phase ≠ .moved ∨ cmdMayEnd s i q = false) :
    exec (.dCommandComplete i) s = .next s := by
  have stays : ¬(q.phase = .moved ∧ cmdMayEnd s i q = true) := by
    rintro ⟨moved, ends⟩
    rcases moves with h | h
    · exact h moved
    · rw [ends] at h
      cases h
  change execDCommandComplete i s = _
  simp only [execDCommandComplete, found, if_neg stays]

end

/-! A RAW copy (12_copy.md R369). -/

theorem putHere_mem (s : State) (key n : Nat) (p : Put) : (putHere s key n p).mem = s.mem.overlay key n p.bytes := rfl

theorem copyBytes_raw (n : Nat) : copyBytes rawFormat rawFormat n = n := by
  simp [copyBytes, groupBytes]

section
variable {s u z : State} {sx dx : Word64} {n : Nat} {a b : Chunk} (some_ : 0 < n)
include some_

theorem dRead_of_chunk (src : resolve s .d sx n permLoad = .ok (.bytes [a], u)) : dRead s sx n =
    .ok ({ bytes := (engSettle u sx [a]).sparseChunks [a] 0 [], bad := (engSettle u sx [a]).badOffs [a] 0
           tags := (engSettle u sx [a]).tagOffs [a] 0 }, engSettle u sx [a]) := by
  simp only [dRead, if_neg some_.ne', src, Res.bind]

theorem dWrite_of_own_chunk (dst : resolve s .d dx n permStore = .ok (.bytes [b], z)) (here : b.far (engSettle z dx [b]).rank = none)
    {g : Got} (untagged : g.tags = []) :
    dWrite s dx n g = .ok (putHere (engSettle z dx [b]) b.key b.len (Put.part { bytes := g.bytes, bad := g.bad, tags := [] } 0 b.len)) := by
  simp only [dWrite, if_neg some_.ne', dst, Res.bind, engWrite, engStores, engStore, here, untagged]
  rfl

/-- The bytes of a chunk as a RAW copy writes them. -/
def rawPut (v : State) (a : Chunk) : Put := { bytes := v.sparseChunks [a] 0 [], bad := v.badOffs [a] 0, tags := [] }

variable (src : resolve s .d sx n permLoad = .ok (.bytes [a], u))
  (dst : resolve (engSettle u sx [a]) .d dx n permStore = .ok (.bytes [b], z)) (here : b.far (engSettle z dx [b]).rank = none)
include src dst here

theorem copyMove_raw : copyMove s rawFormat rawFormat sx dx n false =
    .ok (putHere (engSettle z dx [b]) b.key b.len ((rawPut (engSettle u sx [a]) a).part 0 b.len), 0#6) := by
  simp only [copyMove, dRead_of_chunk some_ src, Res.bind, convGot, true_or, if_true, Bool.false_eq_true, if_false, copyBytes_raw]
  rw [dWrite_of_own_chunk some_ dst here rfl]
  rfl

theorem copyMove_raw_bytes (la : a.len = n) (lb : b.len = n) : ∃ t, copyMove s rawFormat rawFormat sx dx n false = .ok (t, 0#6) ∧
    (∀ o, o < n → t.mem.get (b.key + o) = (engSettle u sx [a]).mem.get (a.key + o)) ∧
    ∀ o, (o < b.key ∨ b.key + n ≤ o) → t.mem.get o = (engSettle z dx [b]).mem.get o := by
  refine ⟨_, copyMove_raw some_ src dst here, fun o ho => ?_, fun o ho => ?_⟩
  · rw [putHere_mem, lb, Mem.get_overlay_in ho]
    change (Mem.slice _ 0 n).get o = _
    rw [Mem.get_slice ho, Nat.zero_add]
    exact State.get_sparseChunks_singleton _ a (la ▸ ho)
  · rw [putHere_mem, lb, Mem.get_overlay_out ho]

end

/-! DPUB (12_copy.md R368). -/

/-- The control word of a published handle: CUR flipped (12_copy.md R368). -/
def flipped (cur : Nat) : Nat := if cur % 2 = 1 then cur - 1 else cur + 1

/-- CUR and GEN in one step (12_copy.md R368). -/
def published (m : Mem) (key : Nat) : Nat := flipped (m.readNat key 4) + (m.readNat (key + 4) 4 + 1) % 2 ^ 32 * 2 ^ 32

theorem flipped_lt {cur : Nat} (h : cur < 2 ^ 32) : flipped cur < 2 ^ 32 := by
  unfold flipped
  split <;> omega

theorem Mem.readNat_lt (m : Mem) (a n : Nat) : m.readNat a n < 256 ^ n := by
  have := leNat_lt (m.read a n)
  rwa [Mem.read_length] at this

/-- A number written whole is read in two halves. -/
theorem leBytes_add (m n v : Nat) : leBytes (m + n) v = leBytes m v ++ leBytes n (v / 256 ^ m) := by
  induction m generalizing v with
  | zero => simp [leBytes]
  | succ m ih => rw [Nat.succ_add, leBytes, ih, leBytes, List.cons_append, Nat.div_div_eq_div_mul, Nat.pow_succ']

theorem Mem.readNat_write_low (m : Mem) (a k n v : Nat) : (m.write a (leBytes (k + n) v)).readNat a k = v % 256 ^ k := by
  have low := Mem.read_write_append m a (leBytes k v) (leBytes n (v / 256 ^ k))
  rw [leBytes_length] at low
  rw [leBytes_add, Mem.readNat, low, leNat_leBytes]

theorem Mem.readNat_write_high (m : Mem) (a k n v : Nat) :
    (m.write a (leBytes (k + n) v)).readNat (a + k) n = v / 256 ^ k % 256 ^ n := by
  have high := Mem.read_write_mid m a (leBytes k v) (leBytes n (v / 256 ^ k)) []
  rw [List.append_nil, leBytes_length, leBytes_length] at high
  rw [leBytes_add, Mem.readNat, high, leNat_leBytes]

section
variable {s u : State} {x : GVal} {h : Chunk}
  (handle : resolve (releaseAll_ s) .d x.word 64 (permLoad ||| permStore) = .ok (.bytes [h], u))
include handle

theorem publish_of_reserved (scope : 5 ≤ u.mem.readNat h.key 4 / 4 % 8) : publish s x = .trap (mkTrap .d 0x07 x.word) u := by
  simp only [publish, handle, Res.bind, if_pos scope]

variable (scope : u.mem.readNat h.key 4 / 4 % 8 < 5)
include scope

theorem publish_of_poisoned (bad : u.poisoned h.key 8 = true) : publish s x = .trap (mkTrap .d 0x0D x.word) u := by
  simp only [publish, handle, Res.bind, if_neg (Nat.not_le.2 scope), bad, if_true]

theorem publish_of_sound (good : u.poisoned h.key 8 = false) : publish s x = .ok (u.storeNat h.key 8 (published u.mem h.key)) := by
  simp only [publish, handle, Res.bind, if_neg (Nat.not_le.2 scope), good, Bool.false_eq_true, if_false]
  rfl

end

/-- After a publication CUR is flipped, GEN is counted, and no other byte is changed. -/
theorem published_mem (u : State) (key : Nat) :
    let t : State := u.storeNat key 8 (published u.mem key)
    t.mem.readNat key 4 = flipped (u.mem.readNat key 4) ∧
      t.mem.readNat (key + 4) 4 = (u.mem.readNat (key + 4) 4 + 1) % 2 ^ 32 ∧
      ∀ o, (o < key ∨ key + 8 ≤ o) → t.mem.get o = u.mem.get o := by
  have cur := flipped_lt (u.mem.readNat_lt key 4)
  refine ⟨(Mem.readNat_write_low u.mem key 4 4 _).trans ?_, (Mem.readNat_write_high u.mem key 4 4 _).trans ?_, fun o ho => ?_⟩
  · unfold published
    omega
  · unfold published
    omega
  · rw [State.storeNat_mem, Mem.get_write_out (by rwa [leBytes_length])]

end Sys2Proof.Machine
end
section
/-! PROOF. Reducing copies: the units, their records and their resending (obligation O46; 12_copy.md R354 to R356). -/

namespace Sys2Proof.Machine

/-! Records (12_copy.md R355). -/

section
variable (a : Applied) (u : Nat)

theorem Applied.has_iff : a.has u = true ↔ u < a.low ∨ u ∈ a.above := by
  simp [Applied.has]

theorem Applied.raise_id (n : Nat) : (Applied.raise n a).id = a.id := by
  induction n generalizing a with
  | zero => rfl
  | succ n ih =>
    rw [Applied.raise]
    split
    · exact ih _
    · rfl

/-- The low mark is raised over units that are marked, so that they stay so. -/
theorem Applied.raise_has (n : Nat) (h : a.has u = true) : (Applied.raise n a).has u = true := by
  induction n generalizing a with
  | zero => exact h
  | succ n ih =>
    rw [Applied.raise]
    split
    · refine ih _ ((Applied.has_iff _ _).2 ?_)
      rcases (Applied.has_iff _ _).1 h with low | above
      · exact .inl (Nat.lt_succ_of_lt low)
      · by_cases same : u = a.low
        · exact .inl (same ▸ Nat.lt_succ_self _)
        · exact .inr ((List.mem_erase_of_ne same).2 above)
    · exact h

theorem Applied.mark_id : (a.mark u).id = a.id := by
  rw [Applied.mark]
  split
  · rfl
  · exact Applied.raise_id _ _

theorem Applied.mark_has : (a.mark u).has u = true := by
  rw [Applied.mark]
  split
  · assumption
  · exact Applied.raise_has _ _ _ ((Applied.has_iff _ _).2 (.inr (by simp)))

end

section
variable {l : List Applied} {id : RedId} {k : Nat}

theorem findApplied_of_full (unknown : (l.any fun r => r.id == id) = false) (full : 64 ≤ l.length) : findApplied l id = none := by
  have none_ : (l.find? fun r => r.id == id) = none := List.find?_eq_none.2 fun r hr => by simpa using List.any_eq_false.1 unknown r hr
  simp only [findApplied, none_, if_pos full]

theorem findApplied_of_done (unique : ∀ r ∈ l, ∀ z ∈ l, r.id = z.id → r = z) (done : (l.any fun r => r.id == id && r.has k) = true) :
    ∃ r, findApplied l id = some r ∧ r.has k = true := by
  obtain ⟨z, hz, same⟩ := List.any_eq_true.1 done
  obtain ⟨zid, zhas⟩ := Bool.and_eq_true_iff.1 same
  cases found : l.find? fun r => r.id == id with
  | none => exact absurd zid (List.find?_eq_none.1 found z hz)
  | some r =>
    have rid : r.id = z.id := (beq_iff_eq.1 (List.find?_some (p := fun r : Applied => r.id == id) found)).trans (beq_iff_eq.1 zid).symm
    refine ⟨r, by simp only [findApplied, found], ?_⟩
    rw [unique r (List.mem_of_find?_eq_some found) z hz rid, zhas]

theorem findApplied_of_room (done : (l.any fun r => r.id == id && r.has k) = false)
    (room : (l.any fun r => r.id == id) = true ∨ l.length < 64) :
    ∃ r, findApplied l id = some r ∧ r.id = id ∧ r.has k = false := by
  cases found : l.find? fun r => r.id == id with
  | some r =>
    have rid : (r.id == id) = true := List.find?_some (p := fun r : Applied => r.id == id) found
    have apart := List.any_eq_false.1 done r (List.mem_of_find?_eq_some found)
    exact ⟨r, by simp only [findApplied, found], beq_iff_eq.1 rid, by simpa [rid] using apart⟩
  | none =>
    have unknown : (l.any fun r => r.id == id) = false := List.any_eq_false.2 fun r hr => by simpa using List.find?_eq_none.1 found r hr
    have room : ¬64 ≤ l.length := by
      rcases room with h | h
      · exact absurd (unknown.symm.trans h) (by decide)
      · omega
    exact ⟨_, by simp only [findApplied, found, if_neg room]; rfl, rfl, by simp [Applied.has]⟩

end

theorem State.setApplied_mem (s : State) (key : Nat) (l : List Applied) : (s.setApplied key l).mem = s.mem := by
  unfold State.setApplied
  split <;> rfl

theorem State.appliedAt_setApplied (s : State) (key : Nat) (l : List Applied) : (s.setApplied key l).appliedAt key = l := by
  cases core : keyCore key with
  | some r =>
    simp only [State.appliedAt, State.setApplied, core, State.coreAt_modCore, if_true]
  | none =>
    simp [State.appliedAt, State.setApplied, core, List.filter_map, Function.comp_def]

/-! The source of a unit (12_copy.md R354, R358). -/

section
variable {s : State} {q : DCmd} {sx : Word64} {o n : Nat}

theorem redSource_of_chunk {u v : State} {a : Chunk} (fresh : q.taken = none)
    (src : resolve s .d (sx + BitVec.ofNat 64 o) n permLoad = .ok (.bytes [a], u)) (len : a.len = n)
    (hv : v = engSettle u (sx + BitVec.ofNat 64 o) [a]) (good : v.chunksPoisoned [a] = false) :
    ∃ m, redSource s q sx o n = .ok (m, v) ∧ ∀ j, j < n → m.get j = v.mem.get (a.key + j) := by
  subst hv
  refine ⟨_, ?_, fun j hj => State.get_sparseChunks_singleton _ a (len ▸ hj)⟩
  simp only [redSource, fresh, src, Res.bind, engRead, good, Bool.false_eq_true, if_false]

theorem redSource_of_taken {m : Mem} {bad : List Nat} (taken : q.taken = some (m, bad)) (good : ∀ j ∈ bad, j < o ∨ o + n ≤ j) :
    ∃ r, redSource s q sx o n = .ok (r, s) ∧ ∀ j, j < n → r.get j = m.get (o + j) := by
  have clean : (bad.any fun i => decide (o ≤ i) && decide (i < o + n)) = false := List.any_eq_false.2 fun j hj => by
    have := good j hj
    simp
    omega
  refine ⟨m.slice o n, ?_, fun j hj => Mem.get_slice hj⟩
  simp only [redSource, taken, clean, Bool.false_eq_true, if_false]

end

/-! The elements of a unit (12_copy.md R356). -/

theorem elemsOf_eq_map (bs : List Byte) (e m : Nat) :
    elemsOf bs e m = (List.range m).map fun j => leNat ((bs.drop (e * j)).take e) := by
  induction m generalizing bs with
  | zero => rfl
  | succ m ih =>
    rw [elemsOf, ih, List.range_succ_eq_map, List.map_cons, List.map_map]
    simp only [Nat.mul_zero, List.drop_zero, List.drop_drop, Function.comp_def, Nat.mul_succ, Nat.add_comm]

theorem Mem.take_drop_read (m : Mem) (a : Nat) {n i w : Nat} (inside : i + w ≤ n) : ((m.read a n).drop i).take w = m.read (a + i) w := by
  obtain ⟨r, rfl⟩ := Nat.exists_eq_add_of_le inside
  rw [Nat.add_assoc, ← Mem.read_append, ← Mem.read_append m (a + i), List.drop_left' (Mem.read_length ..),
    List.take_left' (Mem.read_length ..)]

theorem elemsOf_read (m : Mem) (a n e : Nat) :
    elemsOf (m.read a n) e (n / e) = (List.range (n / e)).map fun j => m.readNat (a + e * j) e := by
  rw [elemsOf_eq_map]
  refine List.map_congr_left fun j hj => ?_
  have inside : e * j + e ≤ n :=
    calc e * j + e = e * (j + 1) := (Nat.mul_succ e j).symm
      _ ≤ e * (n / e) := Nat.mul_le_mul_left e (List.mem_range.1 hj)
      _ ≤ n := Nat.mul_div_le n e
  rw [Mem.take_drop_read m a inside, Mem.readNat]

/-- What a unit leaves in element j of its destination, with its flags: the operation of its old value and the source's. -/
def reduced (code : Nat) (f : BitVec 5) (old src : Mem) (key j : Nat) : Nat × BitVec 6 :=
  redElem code f.toNat (old.readNat (key + elemBytes f * j) (elemBytes f)) (src.readNat (elemBytes f * j) (elemBytes f))

/-- The elements that a unit of n bytes leaves. -/
def reducedAll (code : Nat) (f : BitVec 5) (old src : Mem) (key n : Nat) : List (Nat × BitVec 6) :=
  (List.range (n / elemBytes f)).map (reduced code f old src key)

theorem zip_elemsOf (code : Nat) (f : BitVec 5) (old src : Mem) (key n : Nat) :
    ((elemsOf (old.read key n) (elemBytes f) (n / elemBytes f)).zip (elemsOf (src.read 0 n) (elemBytes f) (n / elemBytes f))).map
      (fun x => redElem code f.toNat x.1 x.2) = reducedAll code f old src key n := by
  rw [elemsOf_read, elemsOf_read, List.zip_map', List.map_map, reducedAll]
  simp only [Function.comp_def, Nat.zero_add]
  rfl

/-- The bytes that a unit of n bytes leaves. -/
def reducedBytes (code : Nat) (f : BitVec 5) (old src : Mem) (key n : Nat) : List Byte :=
  (((reducedAll code f old src key n).map (·.1)).map (leBytes (elemBytes f))).flatten

section
variable {code : Nat} {f : BitVec 5} {old src : Mem} {key n : Nat}

theorem reducedBytes_length (whole : n % elemBytes f = 0) : (reducedBytes code f old src key n).length = n := by
  rw [reducedBytes, length_flatten_leBytes, reducedAll, List.length_map, List.length_map, List.length_range]
  exact Nat.mul_div_cancel' (Nat.dvd_of_mod_eq_zero whole)

theorem readNat_write_reducedBytes (m : Mem) {j : Nat} (hj : j < n / elemBytes f) :
    (m.write key (reducedBytes code f old src key n)).readNat (key + elemBytes f * j) (elemBytes f) =
      (reduced code f old src key j).1 % 256 ^ elemBytes f := by
  rw [reducedBytes, Mem.readNat_write_flatten m key _ (by simpa [reducedAll] using hj)]
  simp [reducedAll]

end

/-! A unit reaches its destination (12_copy.md R355, R356). -/

section
variable {y : State} {b : Chunk} {id : RedId} {k code : Nat} {f : BitVec 5}

theorem redApply_of_refused {bytes : List Byte} (none_ : findApplied (y.appliedAt b.key) id = none) :
    redApply y [b] id k code f bytes = (.refused, y) ∧ redFresh y [b] id k = false := by
  constructor
  · simp only [redApply, List.head?_cons, Option.map_some, Option.getD_some, none_]
  · simp only [redFresh, List.head?_cons, Option.map_some, Option.getD_some, none_]

variable {r : Applied} (found : findApplied (y.appliedAt b.key) id = some r)
include found

theorem redApply_of_marked {bytes : List Byte} (marked : r.has k = true) :
    redApply y [b] id k code f bytes = (.applied 0#6, y) ∧ redFresh y [b] id k = false := by
  constructor
  · simp only [redApply, List.head?_cons, Option.map_some, Option.getD_some, found, marked, if_true]
  · simp only [redFresh, List.head?_cons, Option.map_some, Option.getD_some, found, marked, Bool.not_true]

variable (new : r.has k = false)
include new

theorem redFresh_of_new : redFresh y [b] id k = true := by
  simp only [redFresh, List.head?_cons, Option.map_some, Option.getD_some, found, new, Bool.not_false]

theorem redApply_of_new (src : Mem) {n : Nat} (len : b.len = n) (whole : n % elemBytes f = 0) :
    redApply y [b] id k code f (src.read 0 n) =
      (.applied ((reducedAll code f y.mem src b.key n).foldl (fun g x => g ||| x.2) 0#6),
        (y.store b.key (reducedBytes code f y.mem src b.key n)).setApplied b.key
          ((y.appliedAt b.key).filter (fun x => x.id != r.id) ++ [r.mark k])) := by
  have old : y.readChunks [b] = y.mem.read b.key n := by rw [State.readChunks, State.readChunks, List.append_nil, len]
  have bytes : ((reducedAll code f y.mem src b.key n).map fun x => leBytes (elemBytes f) x.1).flatten =
      reducedBytes code f y.mem src b.key n := by rw [reducedBytes, List.map_map]; rfl
  have all : (reducedBytes code f y.mem src b.key n).take b.len = reducedBytes code f y.mem src b.key n :=
    List.take_of_length_le (by rw [reducedBytes_length whole, len])
  simp only [redApply, List.head?_cons, Option.map_some, Option.getD_some, found, new, Bool.false_eq_true, if_false, old,
    Mem.read_length, zip_elemsOf, bytes, State.storeChunks, all]

end

section
variable {s v z y : State} {q : DCmd} {f : BitVec 5} {k o n : Nat} {sx dx : Word64} {b : Chunk} {src : Mem}
  (source : redSource s q sx o n = .ok (src, v)) (dst : resolve v .d dx n (permLoad ||| permStore) = .ok (.bytes [b], z))
  (hy : y = engSettle z dx [b])
include source dst hy

theorem applyUnit_of_chunk : applyUnit s q f k sx dx o n =
    if redFresh y [b] (redId s q) k && y.chunksPoisoned [b] then
      .trap (mkTrap .d 0x0D dx) (if (keyCore b.key).isNone then y.notify b.key n else y)
    else .ok (redApply y [b] (redId s q) k (redCode q.op) f (src.read 0 n)) := by
  subst hy
  simp only [applyUnit, source, dst, Res.bind, List.head?_cons, Option.map_some, Option.getD_some] <;> rfl

theorem applyUnit_of_refused (unknown : ((y.appliedAt b.key).any fun r => r.id == redId s q) = false)
    (full : 64 ≤ (y.appliedAt b.key).length) : applyUnit s q f k sx dx o n = .ok (.refused, y) := by
  obtain ⟨refused, fresh⟩ := redApply_of_refused (k := k) (code := redCode q.op) (f := f) (bytes := src.read 0 n)
    (findApplied_of_full unknown full)
  rw [applyUnit_of_chunk source dst hy, fresh, refused]
  rfl

theorem applyUnit_of_done (unique : ∀ r ∈ y.appliedAt b.key, ∀ z ∈ y.appliedAt b.key, r.id = z.id → r = z)
    (done : ((y.appliedAt b.key).any fun r => r.id == redId s q && r.has k) = true) :
    applyUnit s q f k sx dx o n = .ok (.applied 0#6, y) := by
  obtain ⟨r, found, marked⟩ := findApplied_of_done unique done
  obtain ⟨applied, fresh⟩ := redApply_of_marked (code := redCode q.op) (f := f) (bytes := src.read 0 n) found marked
  rw [applyUnit_of_chunk source dst hy, fresh, applied]
  rfl

variable (done : ((y.appliedAt b.key).any fun r => r.id == redId s q && r.has k) = false)
  (room : ((y.appliedAt b.key).any fun r => r.id == redId s q) = true ∨ (y.appliedAt b.key).length < 64)
include done room

theorem applyUnit_of_poisoned (bad : y.chunksPoisoned [b] = true) : applyUnit s q f k sx dx o n =
    .trap (mkTrap .d 0x0D dx) (if (keyCore b.key).isNone then y.notify b.key n else y) := by
  obtain ⟨r, found, -, new⟩ := findApplied_of_room done room
  rw [applyUnit_of_chunk source dst hy, redFresh_of_new found new, bad]
  rfl

theorem applyUnit_of_sound (good : y.chunksPoisoned [b] = false) (len : b.len = n) (whole : n % elemBytes f = 0) :
    ∃ t g, applyUnit s q f k sx dx o n = .ok (.applied g, t) ∧
      (∀ j, j < n / elemBytes f → t.mem.readNat (b.key + elemBytes f * j) (elemBytes f) =
        (reduced (redCode q.op) f y.mem src b.key j).1 % 256 ^ elemBytes f) ∧
      (∀ p, (p < b.key ∨ b.key + n ≤ p) → t.mem.get p = y.mem.get p) ∧
      ∃ r ∈ t.appliedAt b.key, r.id = redId s q ∧ r.has k = true := by
  obtain ⟨r, found, rid, new⟩ := findApplied_of_room done room
  have applied := applyUnit_of_chunk (f := f) (k := k) source dst hy
  rw [good, Bool.and_false, if_neg Bool.false_ne_true, redApply_of_new found new src len whole] at applied
  refine ⟨_, _, applied, fun j hj => ?_, fun p hp => ?_, r.mark k, ?_, ?_, r.mark_has k⟩
  · rw [State.setApplied_mem]
    exact readNat_write_reducedBytes y.mem hj
  · rw [State.setApplied_mem]
    exact Mem.get_write_out (by rwa [reducedBytes_length whole])
  · rw [State.appliedAt_setApplied]
    simp
  · rw [Applied.mark_id, rid]

end

/-! The steps of a reduction. -/

section
variable {s : State} {q : DCmd} {i : Nat} {w : DWord}

theorem exec_reductionUnitApply_of_none (none_ : s.me.dq[i]? = none) : exec (.reductionUnitApply i) s = .next s := by
  change execReductionUnitApply i s = _
  simp only [execReductionUnitApply, none_]
  rfl

theorem exec_reductionUnitApply_of_moving (found : s.me.dq[i]? = some q)
    (red : q.op = .dredAdd w ∨ q.op = .dredMax w ∨ q.op = .dredMin w) (moving : q.phase = .moving) :
    exec (.reductionUnitApply i) s = settleE .d s (redStep s i q w) := by
  change execReductionUnitApply i s = _
  rcases red with op | op | op <;> simp only [execReductionUnitApply, found, op, moving]

theorem exec_reductionResend (s : State) : ∃ t, exec .reductionResend s = .next t ∧ OnlyMe s t ∧ t.me.dq = s.me.dq.map (fun q =>
    if q.phase = .refused then { q with phase := .moving } else q) ∧ t.me.g = s.me.g := by
  refine ⟨_, rfl, onlyMe_modMe s _, ?_, ?_⟩ <;> rw [State.me_modMe]

/-- The end notice retires a command's records everywhere, and no other record (12_copy.md R355). -/
theorem exec_reductionEndNotice (s : State) (id : RedId) : ∃ t, exec (.reductionEndNotice id) s = .next t ∧ SameBytes s t ∧
    (∀ r ∈ t.applied, r.2.id ≠ id) ∧ (∀ c ∈ t.cores, ∀ r ∈ c.2.applied, r.id ≠ id) ∧
    (∀ r ∈ s.applied, r.2.id ≠ id → r ∈ t.applied) ∧
    ∀ k, Table.find s.cores k ≠ none → (t.coreAt k).applied = (s.coreAt k).applied.filter fun r => r.id != id := by
  refine ⟨retireApplied s id, rfl, fun _ => rfl, fun r hr => ?_, fun c hc r hr => ?_, fun r hr other => ?_, fun k listed => ?_⟩
  · exact bne_iff_ne.1 (List.mem_filter.1 hr).2
  · obtain ⟨e, -, rfl⟩ := List.mem_map.1 hc
    exact bne_iff_ne.1 (List.mem_filter.1 hr).2
  · exact List.mem_filter.2 ⟨hr, bne_iff_ne.2 other⟩
  · obtain ⟨c, found⟩ := Option.ne_none_iff_exists'.1 listed
    simp only [State.coreAt, retireApplied,
      Table.find_map fun c : Core => { c with applied := c.applied.filter fun a => a.id != id }, found, Option.map_some, Option.getD_some]

end

end Sys2Proof.Machine
end

section
/-! PROOF. D transfers and reducing copies: the obligation itself. -/

namespace Sys2Proof.Machine

/-- The word of a reduction, as O46 names it. -/
theorem op_of_redWord {op : Instr} {w : DWord}
    (h : w ∈ match op with | .dredAdd w | .dredMax w | .dredMin w => some w | _ => none) :
    op = .dredAdd w ∨ op = .dredMax w ∨ op = .dredMin w := by
  split at h
  · exact .inl (congrArg _ (Option.mem_some.1 h))
  · exact .inr (.inl (congrArg _ (Option.mem_some.1 h)))
  · exact .inr (.inr (congrArg _ (Option.mem_some.1 h)))
  · cases h

/-- Settles O46: a command's start by its kind and its units, its completion, and a unit of a reduction by the record it finds. -/
theorem dataTransfersAndReductions : Obligations.DataTransfersAndReductions := by
  unfold Obligations.DataTransfersAndReductions
  refine ⟨?transfers, ?reductions⟩
  case transfers =>
    intro s q i c s0 q1 kv redWord sets
    refine ⟨fun found first queued => ⟨exec_dCommandStart_of_waiting found first queued, fun ready plain => ?_, fun ready waits w op => ?_⟩,
      exec_dCommandStart_of_none, exec_dCommandComplete_of_moved, exec_dCommandComplete_of_moving, ?raw, ?publish⟩
    · have plain : ∀ w, q.op ≠ .kvwr w := fun w op => plain ⟨w, op⟩
      refine ⟨fun overlap plainCopy => ⟨fun t f moved => ?_, fun x u fault => ?_⟩, fun overlap w red g t read => ?_,
        fun apart later => ?_, fun apart eager plainCopy fresh => ⟨fun units => ?_, fun units =>
          ⟨fun t f moved => ⟨fun one => ?_, fun u g two next => ?_⟩, fun x u fault => ?_⟩⟩⟩
      · exact exec_dCommandStart_of_whole found first queued ready rfl plain rfl overlap plainCopy moved
      · exact exec_dCommandStart_of_whole_fault found first queued ready rfl plain rfl overlap plainCopy fault
      · exact exec_dCommandStart_of_taken found first queued ready rfl plain rfl overlap (op_of_redWord red) read
      · exact exec_dCommandStart_of_later found first queued ready rfl plain rfl apart later
      · exact exec_dCommandStart_of_no_unit found first queued ready rfl plain rfl apart eager plainCopy units
      · exact exec_dCommandStart_of_one_unit found first queued ready rfl plain rfl apart eager plainCopy fresh moved one
      · exact exec_dCommandStart_of_two_units found first queued ready rfl plain rfl apart eager plainCopy fresh moved two next
      · exact exec_dCommandStart_of_unit_fault found first queued ready rfl plain rfl apart eager plainCopy fresh units fault
    · exact ⟨fun y t unit_ => exec_dCommandStart_of_kv_unit found first queued ready rfl op waits unit_,
        fun x t unit_ => exec_dCommandStart_of_kv_fault found first queued ready rfl op waits unit_⟩
    case raw =>
      intro u z sx dx n a b some_ la lb src v dst w here
      exact copyMove_raw_bytes some_ src dst here la lb
    case publish =>
      intro x h u handle cur
      exact ⟨publish_of_reserved handle, publish_of_poisoned handle,
        fun scope good => ⟨_, publish_of_sound handle scope good, published_mem u h.key⟩⟩
  case reductions =>
    intro s u v z q w i k n o sx dx a b src id e x y recs known done
    refine ⟨fun fresh here len good => redSource_of_chunk fresh here len rfl good, fun m bad => redSource_of_taken, ?unit, ?step,
      exec_reductionUnitApply_of_none, exec_reductionResend s, exec_reductionEndNotice s id⟩
    case unit =>
      intro op mem hop len some_ whole source dst unique
      refine ⟨applyUnit_of_refused source dst rfl, applyUnit_of_done source dst rfl unique,
        fun new room => ⟨applyUnit_of_poisoned source dst rfl new room, fun good => ?_⟩⟩
      obtain ⟨t, g, applied, elements, rest, record⟩ := applyUnit_of_sound source dst rfl new room good len whole
      refine ⟨t, g, applied, fun j hj => (elements j hj).trans ?_, rest, record⟩
      rw [hop]
      rfl
    case step =>
      intro found red moving
      rw [exec_reductionUnitApply_of_moving found red moving]
      exact ⟨fun t ok => by rw [ok]; rfl, fun t z trap => by rw [trap]; rfl⟩

end Sys2Proof.Machine
end
